-- ==== Sys2Proof/Word.lean ====
section
/-! DEFINITION. The word types of the MK940 and their plainest arithmetic (spec 01, 03). -/

namespace Sys2Proof

/-- A 64-bit op word, scalar value or dword (R56). -/
abbrev Word := BitVec 64
/-- A byte of memory. -/
abbrev Byte := BitVec 8
/-- A vector value, 2,048 bits (R8). -/
abbrev VWord := BitVec 2048
/-- A predicate, 256 lane bits (R15). -/
abbrev PMask := BitVec 256
/-- A tile predicate, one bit for each of the 128 tile slots (R231). -/
abbrev TMask := BitVec 128

/-- Bits [hi:lo] of a word, as a number. -/
def bitsOf (hi lo : Nat) (w : BitVec n) : Nat :=
  (w.toNat / 2 ^ lo) % 2 ^ (hi + 1 - lo)

/-- Bit `i` as a Boolean. -/
def bitAt (i : Nat) (w : BitVec n) : Bool := w.getLsbD i

/-- A Boolean as the number 0 or 1. -/
def bnat (b : Bool) : Nat := if b then 1 else 0

/-- A word from a number, modulo 2^64. -/
def wd (x : Nat) : Word := BitVec.ofNat 64 x

/-- A word from an integer, modulo 2^64. -/
def wdi (x : Int) : Word := BitVec.ofInt 64 x

end Sys2Proof
end

