-- ==== Sys2Proof/Config.lean ====
section
/-! DEFINITION. What an implementation fixes and what the spec leaves open: the free values. None has a body, so
no proof can use a value of one (log 6, DESIGN CHOICE). -/

namespace Sys2Proof.Config

/-- A byte the spec leaves undefined: copy bytes after a failure (R286, R354), an overlay range after a fault
(R291), bytes of abandoned commands (R392). Its argument is `State.freeCount`. -/
opaque freeByte : Nat → Byte
/-- A 64-bit value the spec leaves undefined (R200). Log 6, DESIGN CHOICE. -/
opaque freeWord : Nat → Word
/-- A 2,048-bit value the spec leaves undefined (R200). Log 6, DESIGN CHOICE. -/
opaque freeVec : Nat → VWord
/-- Where the firmware keeps the text of an image's overlay in memory (R286 reason 0x09, R410). Log 6, DESIGN CHOICE. -/
opaque imageText : Nat → Nat → Nat
/-- The path engine a DCPY with PATH 1 runs on, a hash of the destination (R349). Log 6, DESIGN CHOICE. -/
opaque pathEngine : Nat → Nat
/-- The link a remote command picks: a hash of the issuing core and the target package (R437). Log 6, DESIGN CHOICE. -/
opaque linkHash : Nat → Nat → Nat
/-- The factor from watts to wu per interval that the firmware calibrates for each die at BRINGUP (R362). Log 6, DESIGN CHOICE. -/
opaque wuPerWatt : Nat → Nat
/-- The revision of the device, as a saved image names it (R398). Log 6, DESIGN CHOICE. -/
opaque devRev : Nat
/-- Whether an image authenticates under the package's fused key (R431). Log 6, DESIGN CHOICE. -/
opaque authentic : List Byte → Bool
/-- The bytes of a firmware image that its CRC-32 covers (R431). Log 105, DESIGN CHOICE. -/
opaque crcCovered : List Byte → List Byte
/-- The CRC-32 that a firmware image carries (R431). Log 105, DESIGN CHOICE. -/
opaque crcCarried : List Byte → BitVec 32
/-- Which level of VLOGIC's range, counted from its lowest, is the lowest that supports a pattern (R357). Log 105, DESIGN CHOICE. -/
opaque vlogicLevel : Nat → Nat

end Sys2Proof.Config
end

