-- ==== Sys2Proof/Syntax.lean ====
section
/-! DEFINITION. The instruction syntax: operand, destination, guard and format types of spec 03, and `Instr`, one
constructor for each row of spec/opcode_table.json (op words, then the events of spec 95). -/

namespace Sys2Proof

/-- A 7-bit operand field (R65, R66). The reserved codes have constructors of their own, so no code is dropped;
`base` is what field values 0x68-0x6F name in a copy schedule (R287), and index 7-15 of the special level is
reserved everywhere else. -/
inductive Operand where
  | queue (age : Fin 16)
  | badQueue (r : Fin 16)
  | near (r : Fin 16)
  | badNear (r : Fin 16)
  | far (r : Fin 32)
  | zero | one | ones | lane | ctxid | core | nx
  | special7
  | base (b : Fin 8)
  | pred (p : Fin 16)
  deriving DecidableEq, Repr

/-- A 6-bit destination field (R67). -/
inductive DReg where
  | near (r : Fin 16)
  | far (r : Fin 32)
  | pred (p : Fin 16)
  deriving DecidableEq, Repr

/-- A guard: one predicate, optionally inverted (R16, R68); also a tile guard (R231). -/
structure Guard where
  inv : Bool
  p : Fin 16
  deriving DecidableEq, Repr

/-- A token field: k0-k62, or 63 for none (R75). -/
inductive Tok where
  | k (n : Fin 63)
  | none
  deriving DecidableEq, Repr

/-- Rounding modes (R34). -/
inductive RMode where
  | rne | rtz | rdn | rup | rna | stoch | rns | dyn
  deriving DecidableEq, Repr

/-- Format tags (R26); a tag is never 0xF. -/
inductive Tag where
  | undef | int8 | uint8 | int16 | int32 | int64 | e4m3 | e5m2 | fp16 | bf16 | fp32 | fp64 | lc8 | scale8 | bits
  deriving DecidableEq, Repr

/-- A 4-bit T field: a tag, or 0xF for no tag check (R26). -/
inductive TField where
  | tag (t : Tag)
  | any
  deriving DecidableEq, Repr

/-- Scopes (R74). -/
inductive Scope where
  | core | cluster | package | fabric
  deriving DecidableEq, Repr

/-- Access sizes (R74). -/
inductive Size where
  | byte | half | word | dword
  deriving DecidableEq, Repr

/-- The two halves and fields of a pair word (R70). -/
structure PairF where
  stop : Bool
  g : Guard
  sop : BitVec 6
  sW : Bool
  sD : Fin 16
  sA : Operand
  sB : Operand
  width : BitVec 2
  vop : BitVec 6
  vW : Bool
  vD : Fin 16
  vA : Operand
  vB : Operand
  vt : BitVec 3
  deriving DecidableEq, Repr

/-- REG format (R72); `z` holds bits [7:0], which must be zero. -/
structure RegF where
  stop : Bool
  w : Bool
  d : DReg
  a : Operand
  b : Operand
  c : Operand
  g : Guard
  rm : RMode
  t : TField
  x : BitVec 4
  z : BitVec 8
  deriving DecidableEq, Repr

/-- IMM format (R73); `z` is bit 32, which must be zero. -/
structure ImmF where
  stop : Bool
  w : Bool
  d : DReg
  a : Operand
  g : Guard
  z : Bool
  imm : BitVec 32
  deriving DecidableEq, Repr

/-- MEM format (R74). -/
structure MemF where
  stop : Bool
  w : Bool
  d : DReg
  a : Operand
  b : Operand
  g : Guard
  sc : Scope
  sz : Size
  disp : BitVec 22
  deriving DecidableEq, Repr

/-- TILE format (R75); the D, A and B fields are read per entry. -/
structure TileF where
  stop : Bool
  d : BitVec 7
  a : BitVec 7
  b : BitVec 7
  g : Guard
  out : Tok
  i1 : Tok
  i2 : Tok
  i3 : Tok
  mode : BitVec 2
  deriving DecidableEq, Repr

/-- ENGINE format (R76). -/
structure EngF where
  stop : Bool
  out : Tok
  i1 : Tok
  i2 : Tok
  i3 : Tok
  a : Operand
  b : Operand
  c : Operand
  rw : Bool
  mode : BitVec 6
  deriving DecidableEq, Repr

/-- BRANCH format (R77). -/
structure BrF where
  stop : Bool
  a : Operand
  g : Guard
  rot : BitVec 4
  shift : BitVec 4
  disp : BitVec 32
  deriving DecidableEq, Repr

/-- SYSTEM format (R78). -/
structure SysF where
  stop : Bool
  w : Bool
  d : DReg
  a : Operand
  b : Operand
  g : Guard
  csr : BitVec 12
  imm : BitVec 14
  deriving DecidableEq, Repr

/-- A route word (R79), the second word of an NI op. -/
structure RouteF where
  stop : Bool
  turns : BitVec 52
  deriving DecidableEq, Repr

/-- What a machine check reports and reaches (R200): the structure, the ECC syndrome, the contexts halted. -/
structure McheckInfo where
  core : Nat
  ctxs : List Nat
  unit : Nat
  syndrome : Word
  deriving DecidableEq, Repr

/-- A range entry as the firmware writes it (R342). -/
structure RangeEnt where
  w0 : Word
  w1 : Word
  w2 : Word
  deriving DecidableEq, Repr

/-- A completion ring the firmware gives a task on one die (R351). -/
structure RingInit where
  die : Nat
  ring : Nat
  base : Word
  log : Nat
  deriving DecidableEq, Repr

/-- A private window the firmware gives one context (R454): the PRIVBASE value. -/
structure PrivInit where
  core : Nat
  ctx : Nat
  base : Word
  deriving DecidableEq, Repr

/-- What the firmware chooses when it binds the head of a partition's queue (R380, R454). -/
structure BindInfo where
  part : Nat
  cores : List Nat
  privs : List PrivInit
  ranges : List RangeEnt
  root : Option Nat
  rings : List RingInit
  deriving DecidableEq, Repr

/-- What the firmware chooses when it binds a tenant eddy (R301, R306). -/
structure EddyBindInfo where
  core : Nat
  bank : Nat
  task : Nat
  share : Nat
  priv : Word
  ranges : List RangeEnt
  root : Option Nat
  restore : Bool
  deriving DecidableEq, Repr

/-- An invalidation: an address-space identity and a VA range, or all ranges (R346); the firmware's store to the
table entry precedes it. -/
structure InvalInfo where
  asid : Nat
  all : Bool
  lo : Word
  hi : Word
  entryPa : Option Nat
  entry : Word
  deriving DecidableEq, Repr

/-- A page migration: the task, a VA of the page, and the new page's physical address (R348). -/
structure MigrateInfo where
  task : Nat
  va : Word
  dest : Nat
  deriving DecidableEq, Repr

/-- Where a host access lies: the BAR, its width in bytes and its offset (R425). -/
structure BarAccess where
  bar : Nat
  width : Nat
  off : Nat
  deriving DecidableEq, Repr

/-- What a debugger reads or writes (R403-R407). -/
inductive DebugItem where
  | pc | sreg (r : Fin 16) | greg (r : Fin 32) | vreg (r : Fin 16) | wreg (r : Fin 32)
  | pred (r : Fin 16) | mreg (r : Fin 16) | sq (age : Fin 16) | vq (age : Fin 16) | hq (age : Fin 16)
  | breg (r : Fin 8) | csr (n : Nat) | abp (n : Fin 16) | step | nx (n : Fin 4) | tok (k : Fin 63)
  | sc | total | armed | tokFault (k : Fin 63) | nxDue (n : Fin 4)
  | spad (off : Nat) | tile (n : Fin 128) | phys (pa : Nat)
  deriving DecidableEq, Repr

/-- A debugger's target. -/
structure DebugTarget where
  core : Nat
  ctx : Nat
  item : DebugItem
  deriving DecidableEq, Repr

/-- What training finds at BRINGUP (R431, R434): memories, bridges, links with their neighbours, CXL ports; and the route table
that the firmware keeps (R437). -/
structure TrainInfo where
  hbmOk : Bool
  bridgeOk : Bool
  links : List (Nat × Nat)
  routes : List (Nat × List Nat)
  ports : List Nat
  deriving DecidableEq, Repr

/-- What self-test finds (R431): failing cores and cluster routers. -/
structure TestInfo where
  cores : List Nat
  routers : List Nat
  deriving DecidableEq, Repr

/-- An HDM decoder of a CXL port (R441-R443): a window range, and whether the region is shared. -/
structure CxlDecoder where
  base : Nat
  len : Nat
  shared : Bool
  deriving DecidableEq, Repr

/-- One constructor for each row of spec/opcode_table.json. An op word acts for the context `State.cur` names; an
event acts on what its docstring says of `State.cur` (core, ctx, id, idx). -/
inductive Instr where
  /-- ADD (R113). -/
  | add (f : RegF)
  /-- SUB (R113). -/
  | sub (f : RegF)
  /-- MUL (R113). -/
  | mul (f : RegF)
  /-- MULH (R113). -/
  | mulh (f : RegF)
  /-- DIV (R114). -/
  | div (f : RegF)
  /-- REM (R114). -/
  | rem (f : RegF)
  /-- AND (R113). -/
  | and (f : RegF)
  /-- OR (R113). -/
  | or (f : RegF)
  /-- XOR (R113). -/
  | xor (f : RegF)
  /-- ANDN (R113). -/
  | andn (f : RegF)
  /-- SHL (R113). -/
  | shl (f : RegF)
  /-- SHR (R113). -/
  | shr (f : RegF)
  /-- SAR (R113). -/
  | sar (f : RegF)
  /-- ROT (R113). -/
  | rot (f : RegF)
  /-- CLZ (R113). -/
  | clz (f : RegF)
  /-- POPC (R113). -/
  | popc (f : RegF)
  /-- MIN (R113). -/
  | min (f : RegF)
  /-- MAX (R113). -/
  | max (f : RegF)
  /-- MINU (R113). -/
  | minu (f : RegF)
  /-- MAXU (R113). -/
  | maxu (f : RegF)
  /-- SEL (R113). -/
  | sel (f : RegF)
  /-- CMP (R115). -/
  | cmp (f : RegF)
  /-- MADD (R113). -/
  | madd (f : RegF)
  /-- EXTR (R113). -/
  | extr (f : RegF)
  /-- INS (R113). -/
  | ins (f : RegF)
  /-- BSWAP (R113). -/
  | bswap (f : RegF)
  /-- SHADD (R113). -/
  | shadd (f : RegF)
  /-- MOVC (R116). -/
  | movc (f : RegF)
  /-- PAIR (R71). -/
  | pair (f : PairF)
  /-- ADDI (R118). -/
  | addi (f : ImmF)
  /-- ANDI (R118). -/
  | andi (f : ImmF)
  /-- ORI (R118). -/
  | ori (f : ImmF)
  /-- XORI (R118). -/
  | xori (f : ImmF)
  /-- SHLI (R118). -/
  | shli (f : ImmF)
  /-- SHRI (R118). -/
  | shri (f : ImmF)
  /-- SARI (R118). -/
  | sari (f : ImmF)
  /-- LI (R118). -/
  | li (f : ImmF)
  /-- LIH (R118). -/
  | lih (f : ImmF)
  /-- CMPI (R119). -/
  | cmpi (f : ImmF)
  /-- MULI (R118). -/
  | muli (f : ImmF)
  /-- VADD (R137). -/
  | vadd (f : RegF)
  /-- VSUB (R137). -/
  | vsub (f : RegF)
  /-- VMUL (R137). -/
  | vmul (f : RegF)
  /-- VMULH (R137). -/
  | vmulh (f : RegF)
  /-- VMIN (R137). -/
  | vmin (f : RegF)
  /-- VMAX (R137). -/
  | vmax (f : RegF)
  /-- VAND (R137). -/
  | vand (f : RegF)
  /-- VOR (R137). -/
  | vor (f : RegF)
  /-- VXOR (R137). -/
  | vxor (f : RegF)
  /-- VANDN (R137). -/
  | vandn (f : RegF)
  /-- VSHL (R137). -/
  | vshl (f : RegF)
  /-- VSHR (R137). -/
  | vshr (f : RegF)
  /-- VSAR (R137). -/
  | vsar (f : RegF)
  /-- VABS (R137). -/
  | vabs (f : RegF)
  /-- VCMP (R138). -/
  | vcmp (f : RegF)
  /-- VSEL (R137). -/
  | vsel (f : RegF)
  /-- VDOT4 (R139). -/
  | vdot4 (f : RegF)
  /-- VMADD (R137). -/
  | vmadd (f : RegF)
  /-- VPOPC (R137). -/
  | vpopc (f : RegF)
  /-- VFADD (R140). -/
  | vfadd (f : RegF)
  /-- VFSUB (R140). -/
  | vfsub (f : RegF)
  /-- VFMUL (R140). -/
  | vfmul (f : RegF)
  /-- VFMA (R53). -/
  | vfma (f : RegF)
  /-- VFNMA (R53). -/
  | vfnma (f : RegF)
  /-- VFMIN (R141). -/
  | vfmin (f : RegF)
  /-- VFMAX (R141). -/
  | vfmax (f : RegF)
  /-- VFABS (R140). -/
  | vfabs (f : RegF)
  /-- VFNEG (R140). -/
  | vfneg (f : RegF)
  /-- VFCMP (R142). -/
  | vfcmp (f : RegF)
  /-- VFRCP (R54). -/
  | vfrcp (f : RegF)
  /-- VFRSQ (R54). -/
  | vfrsq (f : RegF)
  /-- VFEXP2 (R54). -/
  | vfexp2 (f : RegF)
  /-- VFLOG2 (R54). -/
  | vflog2 (f : RegF)
  /-- VFDIV (R54). -/
  | vfdiv (f : RegF)
  /-- VFSQRT (R54). -/
  | vfsqrt (f : RegF)
  /-- VFCLASS (R143). -/
  | vfclass (f : RegF)
  /-- VFSCALE (R144). -/
  | vfscale (f : RegF)
  /-- VFDOT2 (R145). -/
  | vfdot2 (f : RegF)
  /-- VCVT (R147). -/
  | vcvt (f : RegF)
  /-- VQNT (R148). -/
  | vqnt (f : RegF)
  /-- VDQNT (R149). -/
  | vdqnt (f : RegF)
  /-- VLCD (R150). -/
  | vlcd (f : RegF)
  /-- VPERM (R151). -/
  | vperm (f : RegF)
  /-- VSHUF (R152). -/
  | vshuf (f : RegF)
  /-- VBCAST (R153). -/
  | vbcast (f : RegF)
  /-- VRED (R154). -/
  | vred (f : RegF)
  /-- VSCAN (R154). -/
  | vscan (f : RegF)
  /-- VCMPRS (R155). -/
  | vcmprs (f : RegF)
  /-- VEXPND (R155). -/
  | vexpnd (f : RegF)
  /-- VSLIDE (R156). -/
  | vslide (f : RegF)
  /-- VCLMUL (R159). -/
  | vclmul (f : RegF)
  /-- VEXTR (R157). -/
  | vextr (f : RegF)
  /-- VINS (R157). -/
  | vins (f : RegF)
  /-- VRETAG (R158). -/
  | vretag (f : RegF)
  /-- VLI (R160). -/
  | vli (f : ImmF)
  /-- VADDI (R161). -/
  | vaddi (f : ImmF)
  /-- SEED (R162). -/
  | seed (f : SysF)
  /-- RNGPOP (R163). -/
  | rngpop (f : SysF)
  /-- LD (R171). -/
  | ld (f : MemF)
  /-- LDU (R171). -/
  | ldu (f : MemF)
  /-- ST (R171). -/
  | st (f : MemF)
  /-- LDP (R171). -/
  | ldp (f : MemF)
  /-- STP (R171). -/
  | stp (f : MemF)
  /-- VLD (R173). -/
  | vld (f : MemF)
  /-- VST (R173). -/
  | vst (f : MemF)
  /-- VLDS (R173). -/
  | vlds (f : MemF)
  /-- VSTS (R173). -/
  | vsts (f : MemF)
  /-- VLDX (R174). -/
  | vldx (f : MemF)
  /-- VSTX (R174). -/
  | vstx (f : MemF)
  /-- VLDB (R173). -/
  | vldb (f : MemF)
  /-- AADD (R175). -/
  | aadd (f : MemF)
  /-- AMIN (R175). -/
  | amin (f : MemF)
  /-- AMAX (R175). -/
  | amax (f : MemF)
  /-- AAND (R175). -/
  | aand (f : MemF)
  /-- AOR (R175). -/
  | aor (f : MemF)
  /-- AXOR (R175). -/
  | axor (f : MemF)
  /-- ASWP (R175). -/
  | aswp (f : MemF)
  /-- ACAS (R175). -/
  | acas (f : MemF)
  /-- AMINU (R175). -/
  | aminu (f : MemF)
  /-- AMAXU (R175). -/
  | amaxu (f : MemF)
  /-- MARK (R169). -/
  | mark (f : MemF)
  /-- FENCE (R169). -/
  | fence (f : MemF)
  /-- CWB (R177). -/
  | cwb (f : MemF)
  /-- CINV (R177). -/
  | cinv (f : MemF)
  /-- TZERO (R234). -/
  | tzero (f : TileF)
  /-- TFILL (R234). -/
  | tfill (f : TileF)
  /-- TIDENT (R234). -/
  | tident (f : TileF)
  /-- TCLASS (R235). -/
  | tclass (f : TileF)
  /-- TCOPY (R236). -/
  | tcopy (f : TileF)
  /-- TTAG (R237). -/
  | ttag (f : TileF)
  /-- TMASK (R238). -/
  | tmask (f : TileF)
  /-- TSTATE (R239). -/
  | tstate (f : TileF)
  /-- MCFG (R260). -/
  | mcfg (f : TileF)
  /-- MGO (R261). -/
  | mgo (f : TileF)
  /-- MSWAP (R263). -/
  | mswap (f : TileF)
  /-- MREAD (R264). -/
  | mread (f : TileF)
  /-- MDRAIN (R265). -/
  | mdrain (f : TileF)
  /-- MZERO (R266). -/
  | mzero (f : TileF)
  /-- MSTEP (R262). -/
  | mstep (f : TileF)
  /-- MWLOAD (R267). -/
  | mwload (f : TileF)
  /-- MSTOP (R268). -/
  | mstop (f : TileF)
  /-- CPY (R283). -/
  | cpy (f : EngF)
  /-- CPY2D (R283). -/
  | cpy2d (f : EngF)
  /-- CSCHED (R288). -/
  | csched (f : EngF)
  /-- CSTAGE (R289). -/
  | cstage (f : EngF)
  /-- OVL (R291). -/
  | ovl (f : EngF)
  /-- DCPY (R350). -/
  | dcpy (f : EngF)
  /-- RGET (R321). -/
  | rget (f : EngF) (r : Option RouteF)
  /-- RPUT (R321). -/
  | rput (f : EngF) (r : Option RouteF)
  /-- RGATH (R323). -/
  | rgath (f : EngF) (r : Option RouteF)
  /-- RSCAT (R323). -/
  | rscat (f : EngF) (r : Option RouteF)
  /-- MCST (R325). -/
  | mcst (f : EngF) (r : Option RouteF)
  /-- RATOM (R324). -/
  | ratom (f : EngF) (r : Option RouteF)
  /-- BINIT (R329). -/
  | binit (f : EngF) (r : Option RouteF)
  /-- BARR (R330). -/
  | barr (f : EngF) (r : Option RouteF)
  /-- BWAIT (R331). -/
  | bwait (f : EngF) (r : Option RouteF)
  /-- BREAD (R332). -/
  | bread (f : EngF) (r : Option RouteF)
  /-- TKWAIT (R279). -/
  | tkwait (f : EngF)
  /-- TKTEST (R280). -/
  | tktest (f : EngF)
  /-- TKJOIN (R281). -/
  | tkjoin (f : EngF)
  /-- BR (R121). -/
  | br (f : BrF)
  /-- BRZ (R121). -/
  | brz (f : BrF)
  /-- BRNZ (R121). -/
  | brnz (f : BrF)
  /-- CALL (R122). -/
  | call (f : BrF)
  /-- RET (R122). -/
  | ret (f : BrF)
  /-- JMPI (R122). -/
  | jmpi (f : BrF)
  /-- LOOP (R123). -/
  | loop (f : BrF)
  /-- END (R124). -/
  | endOp (f : BrF)
  /-- YIELD (R125). -/
  | yield (f : BrF)
  /-- CALLI (R122). -/
  | calli (f : BrF)
  /-- CSRR (R195). -/
  | csrr (f : SysF)
  /-- CSRW (R195). -/
  | csrw (f : SysF)
  /-- CSRS (R195). -/
  | csrs (f : SysF)
  /-- CSRC (R195). -/
  | csrc (f : SysF)
  /-- TRAP (R196). -/
  | trap (f : SysF)
  /-- ERET (R198). -/
  | eret (f : SysF)
  /-- BRK (R197). -/
  | brk (f : SysF)
  /-- WEIRSET (R214). -/
  | weirset (f : SysF)
  /-- WEIRSET_BA (R214). -/
  | weirsetBa (f : SysF)
  /-- WEIRSET_WA (R214). -/
  | weirsetWa (f : SysF)
  /-- WEIRQ (R215). -/
  | weirq (f : SysF)
  /-- LEND (R305). -/
  | lend (f : SysF)
  /-- REVOKE (R305). -/
  | revoke (f : SysF)
  /-- EDDY (R305). -/
  | eddy (f : SysF)
  /-- EDDY_RES (R305). -/
  | eddyRes (f : SysF)
  /-- PARK (R305). -/
  | park (f : SysF)
  /-- LAUNCH (R384). -/
  | launch (f : SysF)
  /-- LAUNCH_NB (R384). -/
  | launchNb (f : SysF)
  /-- LAUNCH_G (R384). -/
  | launchG (f : SysF)
  /-- NTREQ (R390). -/
  | ntreq (f : SysF)
  /-- NTREQ_POP (R390). -/
  | ntreqPop (f : SysF)
  /-- WAITEV (R126). -/
  | waitev (f : SysF)
  /-- IDLE (R127). -/
  | idle (f : SysF)
  /-- ILLEGAL_ENCODING (R88). -/
  | illegalEncoding (w : Word)
  /-- MACHINE_CHECK (R200). -/
  | machineCheck (m : McheckInfo)
  /-- FIRMWARE_EDDY_BIND (R301). -/
  | firmwareEddyBind (b : EddyBindInfo)
  /-- TASK_BIND (R380). -/
  | taskBind (b : BindInfo)
  /-- CONTEXT_RESTORE (R395). -/
  | contextRestore (cores : List Nat)
  /-- TLB_INVALIDATION (R346). -/
  | tlbInvalidation (n : InvalInfo)
  /-- PAGE_MIGRATION (R348). -/
  | pageMigration (m : MigrateInfo)
  /-- SCRUB (R356). -/
  | scrub (bad : Bool)
  /-- DEBUG_READ (R404). -/
  | debugRead (t : DebugTarget)
  /-- DEBUG_WRITE (R404). -/
  | debugWrite (t : DebugTarget) (v : VWord) (tag : Tag)
  /-- BRK_PLANT (R408). -/
  | brkPlant (off task : Nat)
  /-- FWLEN_WRITE (R431). -/
  | fwlenWrite (v : Word)
  /-- HOST_REGISTER_WRITE (R425). -/
  | hostRegisterWrite (a : BarAccess) (v : Word)
  /-- ROM (R431). -/
  | rom (railOk : Bool)
  /-- LOADING (R431). -/
  | loading (readOk : Bool)
  /-- BRINGUP (R431). -/
  | bringup (r : TrainInfo)
  /-- SELFTEST (R431). -/
  | selftest (r : TestInfo)
  /-- CXL_PORT_RETRAIN (R444). -/
  | cxlPortRetrain (decs : List CxlDecoder)
  /-- STALLED_BUNDLE_ISSUE (R60): context `cur.core`, `cur.ctx`. -/
  | stalledBundleIssue
  /-- KIND_A_FAULT (R184): context `cur.core`, `cur.ctx`. -/
  | kindAFault
  /-- THROTTLE_NOTICE (R369): context `cur.core`, `cur.ctx`. -/
  | throttleNotice
  /-- WAITEV_WAKE (R126): context `cur.core`, `cur.ctx`. -/
  | waitevWake
  /-- WAITEV_BOUND (R126): context `cur.core`, `cur.ctx`. -/
  | waitevBound
  /-- YIELD_EXPIRY (R125): context `cur.core`, `cur.ctx`. -/
  | yieldExpiry
  /-- CONTEXT_WAKE (R127): context `cur.core`, `cur.ctx`. -/
  | contextWake
  /-- NEXT_TILE_LANDING (R390): context `cur.core`, `cur.ctx`. -/
  | nextTileLanding
  /-- SEQUENCER_COMMAND_START (R250): core `cur.core`. -/
  | sequencerCommandStart
  /-- MATRIX_STEP (R253): core `cur.core`. -/
  | matrixStep
  /-- MZERO_COMPLETE (R266): core `cur.core`. -/
  | mzeroComplete
  /-- MWLOAD_COMPLETE (R267): core `cur.core`. -/
  | mwloadComplete
  /-- MDRAIN_START (R265): core `cur.core`. -/
  | mdrainStart
  /-- MDRAIN_COMPLETE (R265): core `cur.core`. -/
  | mdrainComplete
  /-- TILE_OP_START (R233): command `cur.id` of core `cur.core`. -/
  | tileOpStart
  /-- TILE_OP_COMPLETE (R225): command `cur.id` of core `cur.core`. -/
  | tileOpComplete
  /-- COPY_COMMAND_START (R282): core `cur.core`. -/
  | copyCommandStart
  /-- COPY_CHUNK_COMPLETE (R284): command `cur.id` of core `cur.core`. -/
  | copyChunkComplete
  /-- COPY_COMMAND_COMPLETE (R285): command `cur.id` of core `cur.core`. -/
  | copyCommandComplete
  /-- OVL_COMPLETE (R291): command `cur.id` of core `cur.core`. -/
  | ovlComplete
  /-- DCPY_COMMAND_START (R349): command `cur.id` of core `cur.core`. -/
  | dcpyCommandStart
  /-- DCPY_CHUNK_COMPLETE (R350): command `cur.id` of core `cur.core`. -/
  | dcpyChunkComplete
  /-- DCPY_COMPLETE (R352): command `cur.id` of core `cur.core`. -/
  | dcpyComplete
  /-- NI_COMMAND_START (R316): command `cur.id` of core `cur.core`. -/
  | niCommandStart
  /-- REMOTE_REQUEST_ARRIVAL (R312): request `cur.idx` of command `cur.id` of core `cur.core`. -/
  | remoteRequestArrival
  /-- REMOTE_REPLY_LANDING (R321): request `cur.idx` of command `cur.id` of core `cur.core`. -/
  | remoteReplyLanding
  /-- MCST_LANDING (R326): command `cur.id` of core `cur.core`. -/
  | mcstLanding
  /-- BINIT_LANDING (R329): command `cur.id` of core `cur.core`. -/
  | binitLanding
  /-- BARRIER_ARRIVAL (R330): command `cur.id` of core `cur.core`. -/
  | barrierArrival
  /-- BWAIT_REREAD (R331): context `cur.core`, `cur.ctx`. -/
  | bwaitReread
  /-- BWAIT_TIMEOUT (R334): context `cur.core`, `cur.ctx`. -/
  | bwaitTimeout
  /-- REVOKE_SQUASH (R302): core `cur.core`. -/
  | revokeSquash
  /-- BANK_PARK (R302): core `cur.core`. -/
  | bankPark
  /-- REGION_RECLAIM (R303): core `cur.core`. -/
  | regionReclaim
  /-- KEEP_REGION_COPY_OUT (R304): core `cur.core`. -/
  | keepRegionCopyOut
  /-- FIRMWARE_REVOKE (R302): core `cur.core`. -/
  | firmwareRevoke
  /-- LEND_COMPLETE (R305): core `cur.core`. -/
  | lendComplete
  /-- EDDY_SAVE (R301): bank `cur.ctx` of core `cur.core`. -/
  | eddySave
  /-- EDDY_BANK_FREE (R301): bank `cur.ctx` of core `cur.core`. -/
  | eddyBankFree
  /-- CONTEXT_RELEASE (R293): context `cur.core`, `cur.ctx`. -/
  | contextRelease
  /-- TASK_END (R383): task `cur.id`. -/
  | taskEnd
  /-- PREEMPTION_DECISION (R392): partition `cur.id`. -/
  | preemptionDecision
  /-- DRAIN_TIMEOUT (R392): task `cur.id`. -/
  | drainTimeout
  /-- CHECKPOINT (R393): task `cur.id`. -/
  | checkpoint
  /-- GRAPH_NODE_LAUNCH (R387): node `cur.idx` of instance `cur.id`. -/
  | graphNodeLaunch
  /-- GRAPH_INSTANCE_COMPLETE (R387): instance `cur.id`. -/
  | graphInstanceComplete
  /-- INTERVAL_BOUNDARY (R361): die `cur.id`. -/
  | intervalBoundary
  /-- PATTERN_CHANGE (R359): cluster `cur.id`. -/
  | patternChange
  /-- PERMIT_REFILL (R365): cluster `cur.id`. -/
  | permitRefill
  /-- BUDGET_PERIOD_START (R366): cluster `cur.id`. -/
  | budgetPeriodStart
  /-- DIE_BUDGET_PERIOD_START (R366): die `cur.id`. -/
  | dieBudgetPeriodStart
  /-- REGION_POWER_ON (R358): cluster `cur.id`. -/
  | regionPowerOn
  /-- STRIPE_DROWSY (R242): stripe `cur.idx` of core `cur.core`. -/
  | stripeDrowsy
  /-- REFRESH_SLOT_ADVANCE (R339): die `cur.id`. -/
  | refreshSlotAdvance
  /-- MIGRATION_REWALK (R348): context `cur.core`, `cur.ctx`. -/
  | migrationRewalk
  /-- INVALIDATION_COMPLETE (R346): invalidation `cur.id`. -/
  | invalidationComplete
  /-- DEBUG_HALT (R403): context `cur.core`, `cur.ctx`. -/
  | debugHalt
  /-- DEBUG_RESUME (R403): context `cur.core`, `cur.ctx`. -/
  | debugResume
  /-- ADDRESS_BREAKPOINT (R406): context `cur.core`, `cur.ctx`. -/
  | addressBreakpoint
  /-- SINGLE_STEP (R407): context `cur.core`, `cur.ctx`. -/
  | singleStep
  /-- DISPLACED_OP_EXECUTE (R409): context `cur.core`, `cur.ctx`. -/
  | displacedOpExecute
  /-- LOAD (R413): the oldest submitted mailbox command. -/
  | load
  /-- UNLOAD (R429): the oldest submitted mailbox command. -/
  | unload
  /-- HOST_LAUNCH (R429): the oldest submitted mailbox command. -/
  | hostLaunch
  /-- GRAPH (R429): the oldest submitted mailbox command. -/
  | graph
  /-- GLAUNCH (R429): the oldest submitted mailbox command. -/
  | glaunch
  /-- EDIT (R388): the oldest submitted mailbox command. -/
  | edit
  /-- FORK (R388): the oldest submitted mailbox command. -/
  | fork
  /-- SETCAP (R371): the oldest submitted mailbox command. -/
  | setcap
  /-- PARTITION (R429): the oldest submitted mailbox command. -/
  | partition
  /-- HOST_DRAIN (R429): the oldest submitted mailbox command. -/
  | hostDrain
  /-- WEIGHTS (R429): the oldest submitted mailbox command. -/
  | weights
  /-- COUNTERS (R429): the oldest submitted mailbox command. -/
  | counters
  /-- UNKNOWN_OP (R430): the oldest submitted mailbox command. -/
  | unknownOp
  /-- PACKAGE_RESET (R432): the package. -/
  | packageReset
  /-- FLIT_REPLAY (R433): die `cur.id`. -/
  | flitReplay
  /-- LINK_RETIRE (R439): link `cur.id`. -/
  | linkRetire
  /-- ROUTER_RETIRE (R417): cluster `cur.id`. -/
  | routerRetire
  /-- FABRIC_TIMEOUT (R440): request `cur.idx` of command `cur.id` of core `cur.core`. -/
  | fabricTimeout
  /-- CXL_PORT_DOWN (R444): port `cur.id`. -/
  | cxlPortDown
  /-- DEBUG_ATTACH (R403): task `cur.id`. -/
  | debugAttach
  deriving DecidableEq, Repr

end Sys2Proof
end

