-- ==== Sys2Proof/Machine/Fields.lean ====
section
/-! DEFINITION. The codes of the field types, the source fields of every op, the halves of a pair word, and the
checks of rows 1 and 2 of R80 that look at the op word alone. -/

namespace Sys2Proof.Machine

/-! ### Field codes (R26, R34, R65-R68, R74) -/

/-- The operand a 7-bit field value names (R65). -/
def operandOf (x : BitVec 7) : Operand :=
  let r : Fin 16 := Fin.ofNat 16 x.toNat
  let l : Fin 32 := Fin.ofNat 32 x.toNat
  match x.toNat / 16 with
  | 0 => .queue r
  | 1 => .badQueue r
  | 2 => .near r
  | 3 => .badNear r
  | 4 => .far l
  | 5 => .far l
  | 6 =>
    match r.val with
    | 0 => .zero | 1 => .one | 2 => .ones | 3 => .lane | 4 => .ctxid | 5 => .core | 6 => .nx
    | 7 => .special7
    | k => .base (Fin.ofNat 8 k)
  | _ => .pred r

/-- The 7-bit field value of an operand (R65, R66). -/
def operandCode : Operand → BitVec 7
  | .queue r => BitVec.ofNat 7 r.val
  | .badQueue r => BitVec.ofNat 7 (16 + r.val)
  | .near r => BitVec.ofNat 7 (32 + r.val)
  | .badNear r => BitVec.ofNat 7 (48 + r.val)
  | .far r => BitVec.ofNat 7 (64 + r.val)
  | .zero => 0x60#7 | .one => 0x61#7 | .ones => 0x62#7 | .lane => 0x63#7
  | .ctxid => 0x64#7 | .core => 0x65#7 | .nx => 0x66#7 | .special7 => 0x67#7
  | .base b => BitVec.ofNat 7 (0x68 + b.val)
  | .pred p => BitVec.ofNat 7 (0x70 + p.val)

/-- The destination a 6-bit field value names (R67). -/
def dregOf (x : BitVec 6) : DReg :=
  if x.toNat < 16 then .near (Fin.ofNat 16 x.toNat)
  else if x.toNat < 48 then .far (Fin.ofNat 32 (x.toNat - 16))
  else .pred (Fin.ofNat 16 x.toNat)

/-- The 6-bit field value of a destination (R67). -/
def dregCode : DReg → BitVec 6
  | .near r => BitVec.ofNat 6 r.val
  | .far r => BitVec.ofNat 6 (16 + r.val)
  | .pred p => BitVec.ofNat 6 (48 + p.val)

/-- A guard field: [4] invert, [3:0] predicate (R68). -/
def guardOf (x : BitVec 5) : Guard := ⟨x.getLsbD 4, Fin.ofNat 16 x.toNat⟩
/-- The 5-bit guard field. -/
def guardCode (g : Guard) : BitVec 5 := BitVec.ofNat 5 ((if g.inv then 16 else 0) + g.p.val)

/-- A token field (R75). -/
def tokOf (x : BitVec 6) : Tok :=
  if h : x.toNat < 63 then .k ⟨x.toNat, h⟩ else .none
/-- The 6-bit token field. -/
def tokCode : Tok → BitVec 6
  | .k n => BitVec.ofNat 6 n.val
  | .none => 63#6

/-- The rounding mode of an RM field (R34). -/
def rmOf (x : BitVec 3) : RMode :=
  match x.toNat with
  | 0 => .rne | 1 => .rtz | 2 => .rdn | 3 => .rup | 4 => .rna | 5 => .stoch | 6 => .rns | _ => .dyn
/-- The RM field of a mode. -/
def rmCode : RMode → BitVec 3
  | .rne => 0#3 | .rtz => 1#3 | .rdn => 2#3 | .rup => 3#3 | .rna => 4#3 | .stoch => 5#3 | .rns => 6#3 | .dyn => 7#3

/-- The tag of a code (R26); code 0xF, which is no tag, gives UNDEF. -/
def tagOf (n : Nat) : Tag :=
  match n with
  | 1 => .int8 | 2 => .uint8 | 3 => .int16 | 4 => .int32 | 5 => .int64 | 6 => .e4m3 | 7 => .e5m2
  | 8 => .fp16 | 9 => .bf16 | 10 => .fp32 | 11 => .fp64 | 12 => .lc8 | 13 => .scale8 | 14 => .bits | _ => .undef
/-- The code of a tag (R26). -/
def tagCode : Tag → Nat
  | .undef => 0 | .int8 => 1 | .uint8 => 2 | .int16 => 3 | .int32 => 4 | .int64 => 5 | .e4m3 => 6 | .e5m2 => 7
  | .fp16 => 8 | .bf16 => 9 | .fp32 => 10 | .fp64 => 11 | .lc8 => 12 | .scale8 => 13 | .bits => 14

/-- The T field of a code (R26). -/
def tfOf (x : BitVec 4) : TField := if x = 15#4 then .any else .tag (tagOf x.toNat)
/-- The code of a T field. -/
def tfCode : TField → BitVec 4
  | .any => 15#4
  | .tag t => BitVec.ofNat 4 (tagCode t)

/-- The scope of an SC field (R74). -/
def scopeOf (x : BitVec 2) : Scope :=
  match x.toNat with | 0 => .core | 1 => .cluster | 2 => .package | _ => .fabric
/-- The SC field of a scope. -/
def scopeCode : Scope → BitVec 2
  | .core => 0#2 | .cluster => 1#2 | .package => 2#2 | .fabric => 3#2

/-- The size of an SZ field (R74). -/
def sizeOf' (x : BitVec 2) : Size :=
  match x.toNat with | 0 => .byte | 1 => .half | 2 => .word | _ => .dword
/-- The SZ field of a size. -/
def sizeCode : Size → BitVec 2
  | .byte => 0#2 | .half => 1#2 | .word => 2#2 | .dword => 3#2
/-- The bytes of a size, 2^SZ (R171). -/
def sizeBytes : Size → Nat
  | .byte => 1 | .half => 2 | .word => 4 | .dword => 8

/-! ### Tag families -/

/-- Element width of a tag in bits (R26, R130); UNDEF counts as 8 bits (R158, R172). -/
def tagWidth : Tag → Nat
  | .undef | .int8 | .uint8 | .e4m3 | .e5m2 | .scale8 | .bits => 8
  | .int16 | .fp16 | .bf16 | .lc8 => 16
  | .int32 | .fp32 => 32
  | .int64 | .fp64 => 64

/-- The integer tags (R26). -/
def isIntTag : Tag → Bool
  | .int8 | .uint8 | .int16 | .int32 | .int64 => true
  | _ => false
/-- The floating-point tags (R28). -/
def isFpTag : Tag → Bool
  | .e4m3 | .e5m2 | .fp16 | .bf16 | .fp32 | .fp64 => true
  | _ => false
/-- Integer tags and BITS, the set `logic` of R137. -/
def isLogicTag (t : Tag) : Bool := isIntTag t || t == .bits

/-! ### The halves of a pair word (R70, R71) -/

/-- The T code that VT selects (R70). -/
def vtTag (x : BitVec 3) : Tag :=
  match x.toNat with
  | 0 => .fp32 | 1 => .fp16 | 2 => .bf16 | 3 => .e4m3 | 4 => .int32 | 5 => .int16 | 6 => .int8 | _ => .e5m2

/-- The REG fields of the scalar half (R71). -/
def pairScalarF (f : PairF) : RegF :=
  { stop := f.stop, w := f.sW, d := .near f.sD, a := f.sA, b := f.sB, c := .zero, g := f.g, rm := .rne, t := .any,
    x := f.width.setWidth 4, z := 0 }

/-- The REG fields of the vector half (R71). -/
def pairVectorF (f : PairF) : RegF :=
  { stop := f.stop, w := f.vW, d := .near f.vD, a := f.vA, b := f.vB, c := .zero, g := f.g, rm := .rne,
    t := .tag (vtTag f.vt), x := 0, z := 0 }

/-- The REG op whose opcode is `n`, or none where R81 assigns none. -/
def regOp (n : Nat) (f : RegF) : Option Instr :=
  match n with
  | 0x00 => some (.add f) | 0x01 => some (.sub f) | 0x02 => some (.mul f) | 0x03 => some (.mulh f)
  | 0x04 => some (.div f) | 0x05 => some (.rem f) | 0x06 => some (.and f) | 0x07 => some (.or f)
  | 0x08 => some (.xor f) | 0x09 => some (.andn f) | 0x0A => some (.shl f) | 0x0B => some (.shr f)
  | 0x0C => some (.sar f) | 0x0D => some (.rot f) | 0x0E => some (.clz f) | 0x0F => some (.popc f)
  | 0x10 => some (.min f) | 0x11 => some (.max f) | 0x12 => some (.minu f) | 0x13 => some (.maxu f)
  | 0x14 => some (.sel f) | 0x15 => some (.cmp f) | 0x16 => some (.madd f) | 0x17 => some (.extr f)
  | 0x18 => some (.ins f) | 0x19 => some (.bswap f) | 0x1A => some (.shadd f) | 0x1B => some (.movc f)
  | 0x40 => some (.vadd f) | 0x41 => some (.vsub f) | 0x42 => some (.vmul f) | 0x43 => some (.vmulh f)
  | 0x44 => some (.vmin f) | 0x45 => some (.vmax f) | 0x46 => some (.vand f) | 0x47 => some (.vor f)
  | 0x48 => some (.vxor f) | 0x49 => some (.vandn f) | 0x4A => some (.vshl f) | 0x4B => some (.vshr f)
  | 0x4C => some (.vsar f) | 0x4D => some (.vabs f) | 0x4E => some (.vcmp f) | 0x4F => some (.vsel f)
  | 0x50 => some (.vdot4 f) | 0x51 => some (.vmadd f) | 0x52 => some (.vpopc f)
  | 0x80 => some (.vfadd f) | 0x81 => some (.vfsub f) | 0x82 => some (.vfmul f) | 0x83 => some (.vfma f)
  | 0x84 => some (.vfnma f) | 0x85 => some (.vfmin f) | 0x86 => some (.vfmax f) | 0x87 => some (.vfabs f)
  | 0x88 => some (.vfneg f) | 0x89 => some (.vfcmp f) | 0x8A => some (.vfrcp f) | 0x8B => some (.vfrsq f)
  | 0x8C => some (.vfexp2 f) | 0x8D => some (.vflog2 f) | 0x8E => some (.vfdiv f) | 0x8F => some (.vfsqrt f)
  | 0x90 => some (.vfclass f) | 0x91 => some (.vfscale f) | 0x92 => some (.vfdot2 f)
  | 0xC0 => some (.vcvt f) | 0xC1 => some (.vqnt f) | 0xC2 => some (.vdqnt f) | 0xC3 => some (.vlcd f)
  | 0xC5 => some (.vperm f) | 0xC6 => some (.vshuf f) | 0xC7 => some (.vbcast f) | 0xC8 => some (.vred f)
  | 0xC9 => some (.vscan f) | 0xCA => some (.vcmprs f) | 0xCB => some (.vexpnd f) | 0xCC => some (.vslide f)
  | 0xCD => some (.vclmul f) | 0xCF => some (.vextr f) | 0xD0 => some (.vins f) | 0xD1 => some (.vretag f)
  | _ => none

/-- The op of the scalar half, or none where sop is outside R70's range. -/
def pairScalar (f : PairF) : Option Instr :=
  if f.sop.toNat < 28 then regOp f.sop.toNat (pairScalarF f) else none

/-- The op of the vector half, or none where vop is outside R70's ranges. -/
def pairVector (f : PairF) : Option Instr :=
  if f.vop.toNat < 19 then regOp (f.vop.toNat + 0x40) (pairVectorF f)
  else if 32 ≤ f.vop.toNat ∧ f.vop.toNat < 51 then regOp (f.vop.toNat + 0x60) (pairVectorF f)
  else none

/-! ### Source fields (R65, R67, R80 row 6) -/

/-- A source field of an op: which field (0 A, 1 B, 2 C, 3 D), the operand, and whether its class is vector. -/
structure Src where
  idx : Nat
  o : Operand
  vec : Bool
  deriving DecidableEq, Repr

/-- A D field that names a source, coded like a destination (R67). -/
def dregAsOperand : DReg → Operand
  | .near r => .near r
  | .far r => .far r
  | .pred p => .pred p

/-- B of a vector REG op: a broadcast scalar when X[3] is 1 (R65, R131). -/
def vecB (f : RegF) : Src := ⟨1, f.b, !f.x.getLsbD 3⟩

/-- The source fields of an op in the order A, B, C, D (R80 row 6). A pair word's halves list their own. Log 39, DEDUCED. -/
def srcs : Instr → List Src
  | .add f | .sub f | .mul f | .mulh f | .div f | .rem f | .and f | .or f | .xor f | .andn f | .shl f | .shr f
  | .sar f | .rot f | .min f | .max f | .minu f | .maxu f | .cmp f | .extr f => [⟨0, f.a, false⟩, ⟨1, f.b, false⟩]
  | .clz f | .popc f | .bswap f | .movc f => [⟨0, f.a, false⟩]
  | .sel f | .madd f | .ins f | .shadd f => [⟨0, f.a, false⟩, ⟨1, f.b, false⟩, ⟨2, f.c, false⟩]
  | .addi f | .andi f | .ori f | .xori f | .shli f | .shri f | .sari f | .lih f | .cmpi f | .muli f =>
    [⟨0, f.a, false⟩]
  | .vaddi f => [⟨0, f.a, true⟩]
  | .vadd f | .vsub f | .vmul f | .vmulh f | .vmin f | .vmax f | .vand f | .vor f | .vxor f | .vandn f | .vshl f
  | .vshr f | .vsar f | .vcmp f | .vfadd f | .vfsub f | .vfmul f | .vfmin f | .vfmax f | .vfcmp f | .vfdiv f
  | .vfscale f | .vperm f | .vclmul f => [⟨0, f.a, true⟩, vecB f]
  | .vabs f | .vpopc f | .vfabs f | .vfneg f | .vfrcp f | .vfrsq f | .vfexp2 f | .vflog2 f | .vfsqrt f | .vfclass f
  | .vcvt f | .vqnt f | .vred f | .vscan f | .vretag f => [⟨0, f.a, true⟩]
  | .vsel f | .vdot4 f | .vmadd f | .vfma f | .vfnma f | .vfdot2 f => [⟨0, f.a, true⟩, vecB f, ⟨2, f.c, true⟩]
  | .vdqnt f | .vlcd f | .vcmprs f | .vexpnd f => [⟨0, f.a, true⟩, ⟨1, f.b, true⟩]
  | .vshuf f =>
    if f.x.toNat % 8 = 4 ∨ f.x.toNat % 8 = 5 then [⟨0, f.a, true⟩] else [⟨0, f.a, true⟩, ⟨1, f.b, true⟩]
  | .vbcast f => [⟨0, f.a, false⟩]
  | .vslide f => [⟨0, f.a, true⟩, ⟨1, f.b, false⟩, ⟨2, f.c, true⟩]
  | .vextr f => [⟨0, f.a, true⟩, ⟨1, f.b, false⟩]
  | .vins f => [⟨0, f.a, true⟩, ⟨1, f.b, false⟩, ⟨2, f.c, false⟩]
  | .ld f | .ldu f | .ldp f | .cwb f | .cinv f | .vld f | .vlds f | .vldb f => [⟨0, f.a, false⟩]
  | .st f | .stp f | .aadd f | .amin f | .amax f | .aand f | .aor f | .axor f | .aswp f | .aminu f | .amaxu f =>
    [⟨0, f.a, false⟩, ⟨1, f.b, false⟩]
  | .acas f => [⟨0, f.a, false⟩, ⟨1, f.b, false⟩, ⟨3, dregAsOperand f.d, false⟩]
  | .vst f | .vsts f | .vldx f => [⟨0, f.a, false⟩, ⟨1, f.b, true⟩]
  | .vstx f => [⟨0, f.a, false⟩, ⟨1, f.b, true⟩, ⟨3, dregAsOperand f.d, true⟩]
  | .tfill f | .mcfg f | .mread f => [⟨0, operandOf f.a, false⟩]
  | .mwload f => [⟨3, operandOf f.d, false⟩, ⟨0, operandOf f.a, false⟩, ⟨1, operandOf f.b, false⟩]
  | .cpy f | .cpy2d f | .csched f | .dcpy f => [⟨0, f.a, false⟩, ⟨1, f.b, false⟩, ⟨2, f.c, false⟩]
  | .ovl f => [⟨0, f.a, false⟩]
  | .rget f _ | .rput f _ | .ratom f _ | .bwait f _ => [⟨0, f.a, false⟩, ⟨1, f.b, false⟩, ⟨2, f.c, false⟩]
  | .rgath f _ | .rscat f _ => [⟨0, f.a, false⟩, ⟨1, f.b, true⟩, ⟨2, f.c, false⟩]
  | .mcst f _ => [⟨0, f.a, false⟩, ⟨1, f.b, f.mode.getLsbD 2⟩, ⟨2, f.c, false⟩]
  | .binit f _ => [⟨0, f.a, false⟩, ⟨1, f.b, false⟩]
  | .barr f _ | .bread f _ => [⟨0, f.a, false⟩]
  | .brz f | .brnz f | .ret f | .jmpi f | .loop f | .yield f | .calli f => [⟨0, f.a, false⟩]
  | .csrw f | .csrs f | .csrc f | .trap f | .seed f | .weirsetBa f | .weirsetWa f | .lend f | .eddyRes f | .park f
  | .launch f | .launchNb f => [⟨0, f.a, false⟩]
  | .weirset f | .eddy f | .launchG f | .waitev f => [⟨0, f.a, false⟩, ⟨1, f.b, false⟩]
  | _ => []

/-! ### Row 1 of R80: cause 0x00 -/

/-- A special index that R65 reserves. Log 39, DEDUCED. -/
def reservedSpecial : Operand → Bool
  | .special7 | .base _ => true
  | _ => false

/-- A destination field that names a predicate where the entry gives no mask result, or names p0 (R14, R67). Log 28, DEDUCED. -/
def badDest (mask : Bool) : DReg → Bool
  | .pred p => !mask || p == 0
  | _ => false

/-- RM = 5 on an op outside the converter (R35). -/
def stochReg : Instr → Bool
  | .add f | .sub f | .mul f | .mulh f | .div f | .rem f | .and f | .or f | .xor f | .andn f | .shl f | .shr f
  | .sar f | .rot f | .clz f | .popc f | .min f | .max f | .minu f | .maxu f | .sel f | .cmp f | .madd f | .extr f
  | .ins f | .bswap f | .shadd f | .movc f | .vadd f | .vsub f | .vmul f | .vmulh f | .vmin f | .vmax f | .vand f
  | .vor f | .vxor f | .vandn f | .vshl f | .vshr f | .vsar f | .vabs f | .vcmp f | .vsel f | .vdot4 f | .vmadd f
  | .vpopc f | .vfadd f | .vfsub f | .vfmul f | .vfma f | .vfnma f | .vfmin f | .vfmax f | .vfabs f | .vfneg f
  | .vfcmp f | .vfrcp f | .vfrsq f | .vfexp2 f | .vflog2 f | .vfdiv f | .vfsqrt f | .vfclass f | .vfscale f
  | .vfdot2 f | .vperm f | .vshuf f | .vbcast f | .vred f | .vscan f | .vcmprs f | .vexpnd f | .vslide f
  | .vclmul f | .vextr f | .vins f | .vretag f => f.rm == .stoch
  | _ => false

/-- The D field of an op, with whether the entry gives a mask result; none where there is no destination field or
it names a source (R67). -/
def destOf : Instr → Option (Bool × DReg)
  | .cmp f | .vcmp f | .vfcmp f => some (true, f.d)
  | .cmpi f => some (true, f.d)
  | .add f | .sub f | .mul f | .mulh f | .div f | .rem f | .and f | .or f | .xor f | .andn f | .shl f | .shr f
  | .sar f | .rot f | .clz f | .popc f | .min f | .max f | .minu f | .maxu f | .sel f | .madd f | .extr f
  | .ins f | .bswap f | .shadd f | .movc f | .vadd f | .vsub f | .vmul f | .vmulh f | .vmin f | .vmax f | .vand f
  | .vor f | .vxor f | .vandn f | .vshl f | .vshr f | .vsar f | .vabs f | .vsel f | .vdot4 f | .vmadd f
  | .vpopc f | .vfadd f | .vfsub f | .vfmul f | .vfma f | .vfnma f | .vfmin f | .vfmax f | .vfabs f | .vfneg f
  | .vfrcp f | .vfrsq f | .vfexp2 f | .vflog2 f | .vfdiv f | .vfsqrt f | .vfclass f | .vfscale f
  | .vfdot2 f | .vcvt f | .vqnt f | .vdqnt f | .vlcd f | .vperm f | .vshuf f | .vbcast f | .vred f | .vscan f
  | .vcmprs f | .vexpnd f | .vslide f | .vclmul f | .vextr f | .vins f | .vretag f => some (false, f.d)
  | .addi f | .andi f | .ori f | .xori f | .shli f | .shri f | .sari f | .li f | .lih f | .muli f | .vli f
  | .vaddi f => some (false, f.d)
  | .ld f | .ldu f | .st f | .ldp f | .stp f | .vld f | .vst f | .vlds f | .vsts f | .vldx f | .vldb f | .aadd f
  | .amin f | .amax f | .aand f | .aor f | .axor f | .aswp f | .aminu f | .amaxu f | .mark f | .fence f | .cwb f
  | .cinv f => some (false, f.d)
  | .seed f | .rngpop f | .csrr f | .csrw f | .csrs f | .csrc f | .trap f | .eret f | .brk f | .weirset f
  | .weirsetBa f | .weirsetWa f | .weirq f | .lend f | .revoke f | .eddy f | .eddyRes f | .park f | .launch f
  | .launchNb f | .launchG f | .ntreq f | .ntreqPop f | .waitev f | .idle f => some (false, f.d)
  | _ => none

/-- Row 1 of R80 for one op that is not a pair word. Log 28, DEDUCED. -/
def row1Op (i : Instr) : Bool :=
  (srcs i).any (fun s => reservedSpecial s.o) || stochReg i ||
  (match destOf i with | some (m, d) => badDest m d | none => false) ||
  (match i with
   | .illegalEncoding _ => true
   | .tmask f => f.d == 0
   | _ => false)

/-! ### Row 2 of R80: cause 0x01 -/

/-- A queue or near level with [4] = 1 (R65). -/
def badLevel : Operand → Bool
  | .badQueue _ | .badNear _ => true
  | _ => false

/-- An unused operand field holds 0x00 (R69). -/
def unused (o : Operand) : Bool := o == .queue 0
/-- An unused C field holds 0x00 or 0x60 (R112, R133). -/
def unusedC (o : Operand) : Bool := o == .queue 0 || o == .zero
/-- With W clear, D is zero (R14). -/
def wdOk (w : Bool) (d : DReg) : Bool := w || d == .near 0
/-- No W and no D. -/
def noWD (w : Bool) (d : DReg) : Bool := !w && d == .near 0
/-- A zero guard field (R259). -/
def noGuard (g : Guard) : Bool := !g.inv && g.p == 0
/-- All four token fields hold 63 (R69). -/
def noTokT (f : TileF) : Bool := f.out == .none && f.i1 == .none && f.i2 == .none && f.i3 == .none
/-- All four token fields hold 63 (R69). -/
def noTokE (f : EngF) : Bool := f.out == .none && f.i1 == .none && f.i2 == .none && f.i3 == .none

/-- Width, X and RM of a scalar REG op (R72, R110, R111). -/
def scalarX (f : RegF) : Bool := f.x.toNat < 3 && f.rm == .rne && f.z == 0
/-- The T values of a scalar REG op other than MOVC (R111). -/
def scalarT : TField → Bool
  | .any => true
  | .tag t => isLogicTag t
/-- A scalar REG op with `b` and `c` saying whether it uses those fields. -/
def scalarOk (usesB usesC : Bool) (f : RegF) : Bool :=
  scalarX f && scalarT f.t && wdOk f.w f.d && (usesB || unused f.b) && (usesC || unusedC f.c)

/-- The T tag of a vector op, if the T field holds a tag other than UNDEF (R130). -/
def vtag (f : RegF) : Option Tag :=
  match f.t with
  | .tag .undef => none
  | .tag t => some t
  | .any => none

/-- A T check: the field holds a tag that `p` accepts. -/
def tIs (p : Tag → Bool) (f : RegF) : Bool :=
  match vtag f with
  | some t => p t
  | none => false

/-- Fields of a vector op: X[3] free (`x3` none) or fixed, X[2:0] below `xlim`, B and C used or not, RM zero. Log 30, DEDUCED. -/
def vecOk (p : Tag → Bool) (x3 : Option Bool) (xlim : Nat) (usesB usesC : Bool) (f : RegF) : Bool :=
  tIs p f && wdOk f.w f.d && f.z == 0 &&
  (match x3 with | none => true | some v => f.x.getLsbD 3 == v) && f.x.toNat % 8 < xlim &&
  (usesB || unused f.b) && (usesC || unusedC f.c)

/-- RM of a vector integer, logical or data-movement op, and of the exact floating-point ops (R133, R140). -/
def rmZero (f : RegF) : Bool := f.rm == .rne

/-- Every tag but UNDEF. -/
def anyTag (_ : Tag) : Bool := true
/-- FP16 or BF16. -/
def half16 (t : Tag) : Bool := t == .fp16 || t == .bf16

/-- The destination tag a converter names in C[3:0], if C[6:4] is zero (R146). -/
def cvtDest (f : RegF) : Option Tag :=
  let c := (operandCode f.c).toNat
  if 0 < c ∧ c < 15 then some (tagOf c) else none

/-- A converter's fields: T, d and the part number p (R146-R150). -/
def cvtOk (p : Tag → Tag → Nat → Bool) (f : RegF) : Bool :=
  f.z == 0 && wdOk f.w f.d && !f.x.getLsbD 3 &&
  (match vtag f, cvtDest f with
   | some t, some d => p t d (f.x.toNat % 8)
   | _, _ => false)

/-- T and d of VCVT, with its part limit (R147). -/
def vcvtOk (t d : Tag) (p : Nat) : Bool :=
  (isIntTag t || isFpTag t || t == .bits) && (isIntTag d || isFpTag d || d == .bits) &&
  (if t == .bits || d == .bits then p == 0
   else if tagWidth t < tagWidth d then p < tagWidth d / tagWidth t
   else p == 0)
/-- T and d of VQNT (R148). -/
def vqntOk (t d : Tag) (p : Nat) : Bool :=
  (t == .fp32 || half16 t) && (d == .e4m3 || d == .e5m2 || d == .int8) && p < 2
/-- T and d of VDQNT (R149). -/
def vdqntOk (t d : Tag) (p : Nat) : Bool :=
  (t == .e4m3 || t == .e5m2 || t == .int8) && ((half16 d && p < 2) || (d == .fp32 && p < 4))
/-- T and d of VLCD (R150). -/
def vlcdOk (t d : Tag) (p : Nat) : Bool :=
  t == .lc8 && (half16 d || ((d == .e4m3 || d == .e5m2) && p < 4))

/-- The operation and T of VRED and VSCAN, and their RM (R154). Log 31, DEDUCED. -/
def vredOk (f : RegF) : Bool :=
  let k := f.x.toNat
  wdOk f.w f.d && f.z == 0 && unused f.b && unusedC f.c &&
  (if k < 3 then tIs (fun t => isIntTag t || isFpTag t) f && (f.rm == .rne || (k == 0 && tIs isFpTag f))
   else if k < 6 then tIs isLogicTag f && f.rm == .rne
   else false)

/-- An IMM op's fields (R73, R118). -/
def immOk (f : ImmF) : Bool := !f.z && wdOk f.w f.d

/-- VLI's immediate fits the element width (R160). -/
def vliOk (f : ImmF) : Bool :=
  let t := (operandCode f.a).toNat
  immOk f && 0 < t && t < 15 &&
  (let w := tagWidth (tagOf t)
   if w < 32 then f.imm.toNat / 2 ^ w == 0 || f.imm.toNat / 2 ^ w == 2 ^ (32 - w) - 1 else true)

/-- The T field of a vector load or store, disp[21:18] (R172). -/
def memT (f : MemF) : Nat := bitsOf 21 18 f.disp
/-- A vector memory op's fields; `st` for a store (R172). -/
def vmemOk (st : Bool) (f : MemF) : Bool :=
  f.sc == .core && f.sz == .byte && 0 < memT f && (st || memT f < 15)
/-- An atomic's size (R175). -/
def atomOk (f : MemF) : Bool := (f.sz == .word || f.sz == .dword) && wdOk f.w f.d

/-- A tag operand in [3:0] of a TILE field, with [6:4] zero (R233). -/
def tileTag (x : BitVec 7) (p : Nat → Bool) : Bool := x.toNat < 16 && p x.toNat

/-- Row 2 of R80 for one op that is not a pair word: every field the entry requires; true where it holds. The
checks that look at the context (handler mode, eddy) are in Machine/Issue.lean. -/
def fieldsOk : Instr → Bool
  | .add f | .sub f | .mul f | .mulh f | .div f | .rem f | .and f | .or f | .xor f | .andn f | .shl f | .shr f
  | .sar f | .rot f | .min f | .max f | .minu f | .maxu f | .extr f => scalarOk true false f
  | .clz f | .popc f | .bswap f => scalarOk false false f
  | .sel f | .madd f | .ins f | .shadd f => scalarOk true true f
  | .cmp f =>
    scalarOk true true f &&
    (match f.c with | .zero | .one | .ones | .lane | .ctxid | .core | .nx => true | _ => false)
  | .movc f => f.w && f.x == 0 && f.rm == .rne && f.z == 0 && unused f.b && unusedC f.c
  | .pair _ => true
  | .addi f | .andi f | .ori f | .xori f | .lih f | .muli f | .vaddi f => immOk f
  | .shli f | .shri f | .sari f => immOk f && f.imm.toNat < 64
  | .li f => immOk f && unused f.a
  | .cmpi f => immOk f && bitsOf 31 29 f.imm < 7
  | .vli f => vliOk f
  | .vadd f | .vsub f | .vmul f | .vmulh f | .vmin f | .vmax f | .vsar f =>
    vecOk isIntTag none 1 true false f && rmZero f
  | .vand f | .vor f | .vxor f | .vandn f | .vshl f | .vshr f => vecOk isLogicTag none 1 true false f && rmZero f
  | .vabs f => vecOk isIntTag none 1 false false f && rmZero f
  | .vcmp f => vecOk isIntTag none 6 true false f && rmZero f
  | .vsel f => vecOk anyTag none 1 true true f && rmZero f
  | .vdot4 f => vecOk (fun t => t == .int8 || t == .uint8) none 1 true true f && rmZero f
  | .vmadd f => vecOk isIntTag none 1 true true f && rmZero f
  | .vpopc f => vecOk isLogicTag none 1 false false f && rmZero f
  | .vfadd f | .vfsub f | .vfmul f | .vfdiv f | .vfscale f => vecOk isFpTag none 1 true false f
  | .vfma f | .vfnma f => vecOk isFpTag none 1 true true f
  | .vfmin f | .vfmax f => vecOk isFpTag none 1 true false f && rmZero f
  | .vfabs f | .vfneg f | .vfclass f => vecOk isFpTag none 1 false false f && rmZero f
  | .vfcmp f => vecOk isFpTag none 7 true false f && rmZero f
  | .vfrcp f | .vfrsq f | .vfexp2 f | .vflog2 f | .vfsqrt f => vecOk isFpTag none 1 false false f
  | .vfdot2 f => vecOk half16 none 1 true true f
  | .vcvt f => cvtOk vcvtOk f && unused f.b
  | .vqnt f => cvtOk vqntOk f && unused f.b
  | .vdqnt f => cvtOk vdqntOk f
  | .vlcd f => cvtOk vlcdOk f
  | .vperm f => vecOk anyTag none 1 true false f && rmZero f
  | .vshuf f =>
    let pat := f.x.toNat % 8
    vecOk anyTag (some false) 7 (pat != 4 && pat != 5) false f && rmZero f
  | .vbcast f => vecOk anyTag (some false) 1 false false f && rmZero f
  | .vred f | .vscan f => vredOk f
  | .vcmprs f | .vexpnd f => vecOk anyTag (some false) 1 true false f && rmZero f
  | .vslide f => vecOk anyTag (some true) 1 true true f && rmZero f
  | .vextr f => vecOk anyTag (some true) 1 true false f && rmZero f
  | .vins f => vecOk anyTag (some true) 1 true true f && rmZero f
  | .vclmul f => vecOk (fun t => t == .int64 || t == .bits) none 4 true false f && rmZero f
  | .vretag f => f.x == 0 && f.rm == .rne && f.z == 0 && unused f.b && unusedC f.c && wdOk f.w f.d
  | .seed f => noWD f.w f.d && unused f.b && f.csr == 0 && f.imm == 0
  | .rngpop f => wdOk f.w f.d && unused f.a && unused f.b && f.csr == 0 && f.imm == 0
  | .ld f | .ldu f | .ldp f => wdOk f.w f.d && unused f.b && f.sc == .core
  | .st f | .stp f => noWD f.w f.d && f.sc == .core
  | .vld f | .vlds f | .vldb f => vmemOk false f && wdOk f.w f.d && unused f.b
  | .vldx f => vmemOk false f && wdOk f.w f.d
  | .vst f | .vsts f => vmemOk true f && noWD f.w f.d
  | .vstx f => vmemOk true f && !f.w
  | .aadd f | .amin f | .amax f | .aand f | .aor f | .axor f | .aswp f | .aminu f | .amaxu f => atomOk f
  | .acas f => (f.sz == .word || f.sz == .dword) && !f.w
  | .mark f =>
    noWD f.w f.d && unused f.a && unused f.b && f.sc == .core && f.sz == .byte && f.disp == 0
  | .fence f => noWD f.w f.d && unused f.a && unused f.b && f.sz == .byte && f.disp == 0
  | .cwb f | .cinv f => noWD f.w f.d && unused f.b && f.sc == .core && f.sz == .byte
  | .tzero f => tileTag f.a (fun t => t != 0) && f.b == 0 && f.mode == 0
  | .tfill f => tileTag f.b (fun t => t != 0 && t != 15) && f.mode == 0
  | .tident f => tileTag f.a (fun t => t != 0 && (isIntTag (tagOf t) || isFpTag (tagOf t))) && f.b == 0 && f.mode == 0
  | .tclass f => f.a == 0 && f.b == 0 && f.mode == 0
  | .tcopy f => f.a != f.d && f.b == 0 && f.mode == 0
  | .ttag f => tileTag f.a (fun t => t != 15) && f.b == 0 && noTokT f && f.mode == 0
  | .tmask f =>
    f.d.toNat < 16 && f.a.toNat < 16 && f.b.toNat < 32 && noTokT f && noGuard f.g && f.mode == 0
  | .tstate f => f.a == 0 && f.b == 0 && noTokT f && noGuard f.g && f.mode == 0
  | .mcfg f => f.d.toNat < 7 && f.b == 0 && f.mode == 0 && noTokT f && noGuard f.g
  | .mgo f => f.d.toNat < 4 && f.a == 0 && f.b == 0 && f.mode == 0 && noGuard f.g
  | .mswap f => f.d.toNat < 4 && f.a == 0 && f.b == 0 && f.mode == 0 && noTokT f && noGuard f.g
  | .mread f => f.d.toNat < 4 && f.b == 0 && f.mode == 0 && noTokT f && noGuard f.g
  | .mdrain f => f.a.toNat < 4 && f.b.toNat < 16
  | .mzero f => f.d.toNat < 4 && (f.a == 10 || f.a == 11) && f.b == 0 && f.mode == 0 && noGuard f.g
  | .mstep f => f.d.toNat < 4 && f.mode == 0
  | .mwload f => f.mode == 0 && noGuard f.g
  | .mstop f => f.d == 0 && f.a == 0 && f.b == 0 && f.mode == 0 && noTokT f && noGuard f.g
  | .cpy f | .cpy2d f =>
    !f.rw && (if f.mode.toNat % 4 = 1 then f.mode.toNat / 4 != 0 else f.mode.toNat / 4 == 0)
  | .csched f => !f.rw && f.mode == 0 && noTokE f
  | .cstage f => !f.rw && f.mode == 0 && unused f.a && unused f.b && unused f.c
  | .ovl f => !f.rw && f.mode == 0 && unused f.b && unused f.c
  | .dcpy f =>
    !f.rw && f.mode.toNat % 4 < 2 && !f.mode.getLsbD 5 && (f.mode.getLsbD 2 || bitsOf 4 3 f.mode == 0)
  | .rget f _ => f.mode == 0
  | .rput f _ => f.mode.toNat < 2
  | .rgath _ _ | .rscat _ _ => true
  | .mcst f _ => !f.rw && f.mode.toNat < 8 && (!f.mode.getLsbD 2 || f.mode.toNat % 4 == 0)
  | .ratom f _ => f.mode.toNat % 16 < 10
  | .binit f _ => !f.rw && unused f.c && f.mode == 0
  | .barr f _ => !f.rw && unused f.b && unused f.c && 0 < f.mode.toNat && f.mode.toNat < 16
  | .bwait f _ => !f.rw && f.mode == 0 && noTokE f
  | .bread f _ => !f.rw && unused f.b && unused f.c && f.mode == 0 && noTokE f
  | .tkwait f | .tktest f =>
    unused f.a && unused f.b && unused f.c && !f.rw && f.mode == 0 && f.i1 != .none && f.out == .none
  | .tkjoin f =>
    unused f.a && unused f.b && unused f.c && !f.rw && f.mode == 0 && f.i1 != .none && f.out != .none
  | .br f | .call f => unused f.a && f.rot == 0 && f.shift == 0
  | .brz f | .brnz f | .jmpi f | .calli f => f.rot == 0 && f.shift == 0
  | .ret f | .yield f => f.rot == 0 && f.shift == 0 && f.disp == 0
  | .loop f => f.rot.toNat < 9 && (match f.a with | .near _ | .far _ => true | _ => false)
  | .endOp f => unused f.a && f.rot == 0 && f.shift == 0 && f.disp == 0
  | .csrr f => wdOk f.w f.d && unused f.a && unused f.b && f.imm == 0
  | .csrw f | .csrs f | .csrc f => wdOk f.w f.d && unused f.b
  | .trap f => noWD f.w f.d && unused f.b && f.csr == 0
  | .eret f | .revoke f | .idle f =>
    noWD f.w f.d && unused f.a && unused f.b && f.csr == 0 && f.imm == 0
  | .brk f => noWD f.w f.d && unused f.a && unused f.b && f.csr == 0
  | .weirset f => wdOk f.w f.d && f.csr == 0 && f.imm == 3
  | .weirsetBa f => wdOk f.w f.d && f.csr == 0 && f.imm == 1 && unused f.b
  | .weirsetWa f => wdOk f.w f.d && f.csr == 0 && f.imm == 2 && unused f.b
  | .weirq f => wdOk f.w f.d && unused f.a && unused f.b && f.csr == 0 && f.imm.toNat < 3
  | .lend f => wdOk f.w f.d && unused f.b && f.csr == 0 && f.imm == 0
  | .eddy f => wdOk f.w f.d && f.csr == 0 && f.imm == 0
  | .eddyRes f => wdOk f.w f.d && unused f.b && f.csr == 0 && f.imm == 1
  | .park f => noWD f.w f.d && unused f.b && f.csr == 0 && f.imm == 0
  | .launch f => wdOk f.w f.d && unused f.b && f.csr == 0 && f.imm == 0
  | .launchNb f => wdOk f.w f.d && unused f.b && f.csr == 0 && f.imm == 1
  | .launchG f => wdOk f.w f.d && f.csr == 0 && f.imm == 2
  | .ntreq f => noWD f.w f.d && unused f.a && unused f.b && f.csr == 0 && f.imm == 0
  | .ntreqPop f => noWD f.w f.d && unused f.a && unused f.b && f.csr == 0 && f.imm == 1
  | .waitev f => wdOk f.w f.d && f.csr == 0
  | _ => true

/-- The turns of a route word: every turn after the first 00 is 00 (R79). -/
def turnsOk (x : BitVec 52) : Bool :=
  (List.range 25).all (fun j => bitsOf (2 * j + 1) (2 * j) x != 0 || bitsOf (2 * j + 3) (2 * j + 2) x == 0)

/-- The route word of an NI op. -/
def routeOf : Instr → Option RouteF
  | .rget _ r | .rput _ r | .rgath _ r | .rscat _ r | .mcst _ r | .ratom _ r | .binit _ r | .barr _ r
  | .bwait _ r | .bread _ r => r
  | _ => none

/-- The ENGINE fields of an NI op. -/
def niFields : Instr → Option EngF
  | .rget f _ | .rput f _ | .rgath f _ | .rscat f _ | .mcst f _ | .ratom f _ | .binit f _ | .barr f _
  | .bwait f _ | .bread f _ => some f
  | _ => none

/-- Row 2 of R80 for one op that is not a pair word; true where the op fails it. -/
def row2Op (i : Instr) : Bool :=
  (srcs i).any (fun s => badLevel s.o) || !fieldsOk i ||
  (match routeOf i with | some r => !turnsOk r.turns | none => false)

/-- Row 3 of R80 inside one op: an ENGINE word with RW set that has S set, or that no route word follows (R79); and,
as data, an NI op that carries a route word its RW flag does not ask for (no word decodes to one). Log 68, DEDUCED. -/
def row3Op (i : Instr) : Bool :=
  match niFields i with
  | some f => (f.rw && f.stop) || f.rw != (routeOf i).isSome
  | none => false

/-- The ops of a word: the two halves of a pair word, the op itself otherwise. An illegal half stands as
`illegalEncoding` of the word `w` (R70, R88). -/
def opsOf (w : Word) : Instr → List Instr
  | .pair f => [(pairScalar f).getD (.illegalEncoding w), (pairVector f).getD (.illegalEncoding w)]
  | i => [i]

/-- Why an op word is rejected before anything else (rows 1 to 3 of R80). -/
inductive Reject where
  | illegalEncoding
  | reservedField
  | routeMisplaced
  deriving DecidableEq, Repr

/-- The first of rows 1 to 3 that an instruction fails by its words alone. -/
def fieldReject (i : Instr) : Option Reject :=
  let ops := opsOf 0 i
  if ops.any row1Op then some .illegalEncoding
  else if ops.any row2Op then some .reservedField
  else if ops.any row3Op then some .routeMisplaced
  else none

/-! ### Unit classes and declared weights (R62, R201) -/

/-- The unit classes (R62). -/
inductive UClass where
  | SA | SM | BR | VA | VF | VX | VP | VC | LS | LV | NI | ME | CE
  deriving DecidableEq, Repr

/-- How many units of a class a core has (R62). Log 36, DEDUCED. -/
def classUnits : UClass → Nat
  | .SA => 2 | .VA => 2 | .VF => 8 | _ => 1

/-- The class of an op (R62); events have none. -/
def classOf : Instr → Option UClass
  | .mul _ | .mulh _ | .div _ | .rem _ | .madd _ | .muli _ => some .SM
  | .add _ | .sub _ | .and _ | .or _ | .xor _ | .andn _ | .shl _ | .shr _ | .sar _ | .rot _ | .clz _ | .popc _
  | .min _ | .max _ | .minu _ | .maxu _ | .sel _ | .cmp _ | .extr _ | .ins _ | .bswap _ | .shadd _ | .movc _
  | .addi _ | .andi _ | .ori _ | .xori _ | .shli _ | .shri _ | .sari _ | .li _ | .lih _ | .cmpi _ => some .SA
  | .vadd _ | .vsub _ | .vmul _ | .vmulh _ | .vmin _ | .vmax _ | .vand _ | .vor _ | .vxor _ | .vandn _ | .vshl _
  | .vshr _ | .vsar _ | .vabs _ | .vcmp _ | .vsel _ | .vdot4 _ | .vmadd _ | .vpopc _ | .vretag _ | .vli _
  | .vaddi _ => some .VA
  | .vfadd _ | .vfsub _ | .vfmul _ | .vfma _ | .vfnma _ | .vfmin _ | .vfmax _ | .vfabs _ | .vfneg _ | .vfcmp _
  | .vfrcp _ | .vfrsq _ | .vfexp2 _ | .vflog2 _ | .vfdiv _ | .vfsqrt _ | .vfclass _ | .vfscale _ | .vfdot2 _ =>
    some .VF
  | .vcvt _ | .vqnt _ | .vdqnt _ | .vlcd _ => some .VX
  | .vperm _ | .vshuf _ | .vbcast _ | .vred _ | .vscan _ | .vcmprs _ | .vexpnd _ | .vslide _ | .vextr _
  | .vins _ => some .VP
  | .vclmul _ => some .VC
  | .ld _ | .ldu _ | .st _ | .ldp _ | .stp _ | .aadd _ | .amin _ | .amax _ | .aand _ | .aor _ | .axor _ | .aswp _
  | .acas _ | .aminu _ | .amaxu _ | .mark _ | .fence _ | .cwb _ | .cinv _ => some .LS
  | .vld _ | .vst _ | .vlds _ | .vsts _ | .vldx _ | .vstx _ | .vldb _ => some .LV
  | .tzero _ | .tfill _ | .tident _ | .tclass _ | .tcopy _ | .ttag _ | .tmask _ | .tstate _ | .mcfg _ | .mgo _
  | .mswap _ | .mread _ | .mdrain _ | .mzero _ | .mstep _ | .mwload _ | .mstop _ => some .ME
  | .cpy _ | .cpy2d _ | .csched _ | .cstage _ | .ovl _ | .dcpy _ => some .CE
  | .rget _ _ | .rput _ _ | .rgath _ _ | .rscat _ _ | .mcst _ _ | .ratom _ _ | .binit _ _ | .barr _ _ | .bwait _ _
  | .bread _ _ => some .NI
  | .tkwait _ | .tktest _ | .tkjoin _ | .br _ | .brz _ | .brnz _ | .call _ | .ret _ | .jmpi _ | .loop _ | .endOp _
  | .yield _ | .calli _ | .csrr _ | .csrw _ | .csrs _ | .csrc _ | .trap _ | .eret _ | .brk _ | .weirset _
  | .weirsetBa _ | .weirsetWa _ | .weirq _ | .lend _ | .revoke _ | .eddy _ | .eddyRes _ | .park _ | .launch _
  | .launchNb _ | .launchG _ | .ntreq _ | .ntreqPop _ | .seed _ | .rngpop _ | .waitev _ | .idle _ => some .BR
  | _ => none

/-- The weight of a VF op by T (R136). -/
def vfWeight (f : RegF) : Nat :=
  match f.t with
  | .tag .fp32 => 14
  | .tag .fp64 => 24
  | _ => 10

/-- The declared weight of an op, from its opcode and T field only (R201). -/
def weightOf (i : Instr) : Nat :=
  match i with
  | .vfadd f | .vfsub f | .vfmul f | .vfma f | .vfnma f | .vfmin f | .vfmax f | .vfabs f | .vfneg f | .vfcmp f
  | .vfrcp f | .vfrsq f | .vfexp2 f | .vflog2 f | .vfdiv f | .vfsqrt f | .vfclass f | .vfscale f | .vfdot2 f =>
    vfWeight f
  | .mgo _ | .mstep _ => 4
  | .mread _ => 9
  | .mcfg _ | .tclass _ | .ttag _ | .tmask _ | .tstate _ | .mswap _ | .mstop _ => 1
  | _ =>
    match classOf i with
    | some .SA => 2 | some .SM => 4 | some .BR => 1 | some .VA => 6 | some .VF => 10 | some .VX => 7
    | some .VP => 8 | some .VC => 12 | some .LS => 3 | some .LV => 9 | some .NI => 6 | some .ME => 3
    | some .CE => 3 | none => 0

end Sys2Proof.Machine
end

