-- ==== Sys2Proof/WellFormed.lean ====
section
/-! DEFINITION. Which instructions are well formed: an op is, when rows 1 to 3 of R80 find nothing in its own words;
an event is, always. -/

namespace Sys2Proof

/-- An instruction that no check of rows 1 to 3 refuses by its words alone (R80). An op that only a context refuses
(a vector op with W clear in handler mode, PARK's A in an eddy) is well formed. -/
abbrev WellFormed (i : Instr) : Prop := Machine.fieldReject i = none

/-- The same as a Boolean. -/
def wellFormed (i : Instr) : Bool := Machine.fieldReject i == none

end Sys2Proof
end

