-- ==== Sys2Proof/Decode.lean ====
section
/-! DEFINITION. The decoder, total on any words, and the encoder, both written from the encoding tables of spec 03
(R56, R70-R79, R81-R88). -/

namespace Sys2Proof

open Machine

/-- The `len` bits of a word from bit `lo` up. -/
def fld (w : Word) (lo len : Nat) : BitVec len := w.extractLsb' lo len

/-- The fields of a PAIR word (R70). -/
def pairOfWord (w : Word) : PairF :=
  { stop := w.getLsbD 63, g := guardOf (fld w 55 5), sop := fld w 49 6, sW := w.getLsbD 48,
    sD := Fin.ofNat 16 (fld w 44 4).toNat, sA := operandOf (fld w 37 7), sB := operandOf (fld w 30 7),
    width := fld w 28 2, vop := fld w 22 6, vW := w.getLsbD 21, vD := Fin.ofNat 16 (fld w 17 4).toNat,
    vA := operandOf (fld w 10 7), vB := operandOf (fld w 3 7), vt := fld w 0 3 }
/-- The fields of a REG word (R72). -/
def regOfWord (w : Word) : RegF :=
  { stop := w.getLsbD 63, w := w.getLsbD 51, d := dregOf (fld w 45 6), a := operandOf (fld w 38 7),
    b := operandOf (fld w 31 7), c := operandOf (fld w 24 7), g := guardOf (fld w 19 5), rm := rmOf (fld w 16 3),
    t := tfOf (fld w 12 4), x := fld w 8 4, z := fld w 0 8 }
/-- The fields of an IMM word (R73). -/
def immOfWord (w : Word) : ImmF :=
  { stop := w.getLsbD 63, w := w.getLsbD 51, d := dregOf (fld w 45 6), a := operandOf (fld w 38 7),
    g := guardOf (fld w 33 5), z := w.getLsbD 32, imm := fld w 0 32 }
/-- The fields of a MEM word (R74). -/
def memOfWord (w : Word) : MemF :=
  { stop := w.getLsbD 63, w := w.getLsbD 51, d := dregOf (fld w 45 6), a := operandOf (fld w 38 7),
    b := operandOf (fld w 31 7), g := guardOf (fld w 26 5), sc := scopeOf (fld w 24 2), sz := sizeOf' (fld w 22 2),
    disp := fld w 0 22 }
/-- The fields of a TILE word (R75). -/
def tileOfWord (w : Word) : TileF :=
  { stop := w.getLsbD 63, d := fld w 45 7, a := fld w 38 7, b := fld w 31 7, g := guardOf (fld w 26 5),
    out := tokOf (fld w 20 6), i1 := tokOf (fld w 14 6), i2 := tokOf (fld w 8 6), i3 := tokOf (fld w 2 6),
    mode := fld w 0 2 }
/-- The fields of an ENGINE word (R76). -/
def engOfWord (w : Word) : EngF :=
  { stop := w.getLsbD 63, out := tokOf (fld w 46 6), i1 := tokOf (fld w 40 6), i2 := tokOf (fld w 34 6),
    i3 := tokOf (fld w 28 6), a := operandOf (fld w 21 7), b := operandOf (fld w 14 7), c := operandOf (fld w 7 7),
    rw := w.getLsbD 6, mode := fld w 0 6 }
/-- The fields of a BRANCH word (R77). -/
def brOfWord (w : Word) : BrF :=
  { stop := w.getLsbD 63, a := operandOf (fld w 45 7), g := guardOf (fld w 40 5), rot := fld w 36 4,
    shift := fld w 32 4, disp := fld w 0 32 }
/-- The fields of a SYSTEM word (R78). -/
def sysOfWord (w : Word) : SysF :=
  { stop := w.getLsbD 63, w := w.getLsbD 51, d := dregOf (fld w 45 6), a := operandOf (fld w 38 7),
    b := operandOf (fld w 31 7), g := guardOf (fld w 26 5), csr := fld w 14 12, imm := fld w 0 14 }

/-- The IMM-format op with opcode `n`, or none where the map assigns none (R81-R88). -/
def immOp (n : Nat) (f : ImmF) : Option Instr :=
  match n with
  | 0x00 => some (.addi f)
  | 0x01 => some (.andi f)
  | 0x02 => some (.ori f)
  | 0x03 => some (.xori f)
  | 0x04 => some (.shli f)
  | 0x05 => some (.shri f)
  | 0x06 => some (.sari f)
  | 0x07 => some (.li f)
  | 0x08 => some (.lih f)
  | 0x09 => some (.cmpi f)
  | 0x0a => some (.muli f)
  | 0x40 => some (.vli f)
  | 0x41 => some (.vaddi f)
  | _ => none

/-- The MEM-format op with opcode `n`, or none where the map assigns none (R81-R88). -/
def memOp (n : Nat) (f : MemF) : Option Instr :=
  match n with
  | 0x00 => some (.ld f)
  | 0x01 => some (.ldu f)
  | 0x02 => some (.st f)
  | 0x03 => some (.ldp f)
  | 0x04 => some (.stp f)
  | 0x20 => some (.vld f)
  | 0x21 => some (.vst f)
  | 0x22 => some (.vlds f)
  | 0x23 => some (.vsts f)
  | 0x24 => some (.vldx f)
  | 0x25 => some (.vstx f)
  | 0x26 => some (.vldb f)
  | 0x40 => some (.aadd f)
  | 0x41 => some (.amin f)
  | 0x42 => some (.amax f)
  | 0x43 => some (.aand f)
  | 0x44 => some (.aor f)
  | 0x45 => some (.axor f)
  | 0x46 => some (.aswp f)
  | 0x47 => some (.acas f)
  | 0x48 => some (.aminu f)
  | 0x49 => some (.amaxu f)
  | 0x60 => some (.mark f)
  | 0x61 => some (.fence f)
  | 0x63 => some (.cwb f)
  | 0x64 => some (.cinv f)
  | _ => none

/-- The TILE-format op with opcode `n`, or none where the map assigns none (R81-R88). -/
def tileOp (n : Nat) (f : TileF) : Option Instr :=
  match n with
  | 0x00 => some (.tzero f)
  | 0x01 => some (.tfill f)
  | 0x02 => some (.tident f)
  | 0x03 => some (.tclass f)
  | 0x04 => some (.tcopy f)
  | 0x05 => some (.ttag f)
  | 0x06 => some (.tmask f)
  | 0x07 => some (.tstate f)
  | 0x20 => some (.mcfg f)
  | 0x21 => some (.mgo f)
  | 0x22 => some (.mswap f)
  | 0x23 => some (.mread f)
  | 0x24 => some (.mdrain f)
  | 0x25 => some (.mzero f)
  | 0x26 => some (.mstep f)
  | 0x27 => some (.mwload f)
  | 0x28 => some (.mstop f)
  | _ => none

/-- The BR-format op with opcode `n`, or none where the map assigns none (R81-R88). -/
def brOp (n : Nat) (f : BrF) : Option Instr :=
  match n with
  | 0x00 => some (.br f)
  | 0x01 => some (.brz f)
  | 0x02 => some (.brnz f)
  | 0x03 => some (.call f)
  | 0x04 => some (.ret f)
  | 0x05 => some (.jmpi f)
  | 0x06 => some (.loop f)
  | 0x07 => some (.endOp f)
  | 0x08 => some (.yield f)
  | 0x09 => some (.calli f)
  | _ => none

/-- The ENGINE-format op with opcode `n`; an NI op takes its route word `r` (R85, R79). -/
def engOp (n : Nat) (f : EngF) (r : Option RouteF) : Option Instr :=
  match n with
  | 0x00 => some (.cpy f)
  | 0x01 => some (.cpy2d f)
  | 0x02 => some (.csched f)
  | 0x03 => some (.cstage f)
  | 0x04 => some (.ovl f)
  | 0x05 => some (.dcpy f)
  | 0x20 => some (.rget f r)
  | 0x21 => some (.rput f r)
  | 0x22 => some (.rgath f r)
  | 0x23 => some (.rscat f r)
  | 0x24 => some (.mcst f r)
  | 0x25 => some (.ratom f r)
  | 0x40 => some (.binit f r)
  | 0x41 => some (.barr f r)
  | 0x42 => some (.bwait f r)
  | 0x43 => some (.bread f r)
  | 0x50 => some (.tkwait f)
  | 0x51 => some (.tktest f)
  | 0x52 => some (.tkjoin f)
  | _ => none

/-- The SYSTEM-format op with opcode `n` (R87). WEIRSET, EDDY, LAUNCH and NTREQ have a row for each value of
IMM14 that R214, R305, R384 and R390 name. -/
def sysOp (n : Nat) (f : SysF) : Option Instr :=
  match n with
  | 0x00 => some (.csrr f)
  | 0x01 => some (.csrw f)
  | 0x02 => some (.csrs f)
  | 0x03 => some (.csrc f)
  | 0x04 => some (.trap f)
  | 0x05 => some (.eret f)
  | 0x06 => some (.brk f)
  | 0x07 => some (if f.imm = 1#14 then .weirsetBa f else if f.imm = 2#14 then .weirsetWa f else .weirset f)
  | 0x08 => some (.weirq f)
  | 0x09 => some (.lend f)
  | 0x0a => some (.revoke f)
  | 0x0b => some (if f.imm = 1#14 then .eddyRes f else .eddy f)
  | 0x0c => some (.park f)
  | 0x0d => some (if f.imm = 1#14 then .launchNb f else if f.imm = 2#14 then .launchG f else .launch f)
  | 0x0e => some (if f.imm = 1#14 then .ntreqPop f else .ntreq f)
  | 0x0f => some (.seed f)
  | 0x10 => some (.rngpop f)
  | 0x11 => some (.waitev f)
  | 0x12 => some (.idle f)
  | _ => none

/-- A word with SYSTEM opcode 0xFF is a route word (R79). -/
def isRoute (w : Word) : Bool := fld w 60 3 == 7#3 && fld w 52 8 == 0xFF#8
/-- The fields of a route word. -/
def routeOfWord (w : Word) : RouteF := ⟨w.getLsbD 63, fld w 0 52⟩

/-- Whether an op word is an NI op with its route-word flag set and S clear, so that a route word may follow in
the bundle (R76, R79). -/
def takesRoute (w : Word) : Bool :=
  fld w 60 3 == 5#3 && w.getLsbD 6 && !w.getLsbD 63 &&
  ((0x20 ≤ (fld w 52 8).toNat && (fld w 52 8).toNat < 0x26) ||
   (0x40 ≤ (fld w 52 8).toNat && (fld w 52 8).toNat < 0x44))

/-- The instruction an op word stands for, with its route word `r` if one follows. An unassigned opcode gives
`illegalEncoding` (R88), and so does a route word that stands alone. -/
def decodeWord (w : Word) (r : Option RouteF) : Instr :=
  let op := (fld w 52 8).toNat
  let o : Option Instr :=
    match (fld w 60 3).toNat with
    | 0 => some (.pair (pairOfWord w))
    | 1 => regOp op (regOfWord w)
    | 2 => immOp op (immOfWord w)
    | 3 => memOp op (memOfWord w)
    | 4 => tileOp op (tileOfWord w)
    | 5 => engOp op (engOfWord w) r
    | 6 => brOp op (brOfWord w)
    | _ => sysOp op (sysOfWord w)
  o.getD (.illegalEncoding w)

/-- The words an instruction occupies: one, or two with a route word (R79). -/
def wordsOf (i : Instr) : Nat := if (routeOf i).isSome then 2 else 1

/-- Reading one instruction off a list of words, whatever its fields hold: total, and none only of no words. -/
def decodeRaw : List Word → Option (Instr × List Word)
  | [] => none
  | w :: rest =>
    match rest with
    | r :: rest' =>
      if takesRoute w && isRoute r then some (decodeWord w (some (routeOfWord r)), rest')
      else some (decodeWord w none, rest)
    | [] => some (decodeWord w none, [])

/-- Why the decoder gives no instruction: there are no words, or the words are rejected by name. -/
inductive DecodeError where
  | noWords
  | rejected (r : Reject)
  deriving DecidableEq, Repr

/-- The decoder: the instruction of the words with the words that follow it, or the name of the refusal. The word
of an unassigned opcode is the instruction `illegalEncoding`. -/
def decode (ws : List Word) : Except DecodeError (Instr × List Word) :=
  match decodeRaw ws with
  | none => .error .noWords
  | some (i, rest) =>
    match i with
    | .illegalEncoding w => .ok (.illegalEncoding w, rest)
    | i =>
      match fieldReject i with
      | some r => .error (.rejected r)
      | none => .ok (i, rest)

/-! ### The encoder -/

/-- A PAIR word (R70). -/
def pairWord (f : PairF) : Word :=
  BitVec.ofBool f.stop ++ 0#3 ++ guardCode f.g ++ f.sop ++ BitVec.ofBool f.sW ++ BitVec.ofNat 4 f.sD.val ++
  operandCode f.sA ++ operandCode f.sB ++ f.width ++ f.vop ++ BitVec.ofBool f.vW ++ BitVec.ofNat 4 f.vD.val ++
  operandCode f.vA ++ operandCode f.vB ++ f.vt
/-- A REG word (R72). -/
def regWord (op : BitVec 8) (f : RegF) : Word :=
  BitVec.ofBool f.stop ++ 1#3 ++ op ++ BitVec.ofBool f.w ++ dregCode f.d ++ operandCode f.a ++ operandCode f.b ++
  operandCode f.c ++ guardCode f.g ++ rmCode f.rm ++ tfCode f.t ++ f.x ++ f.z
/-- An IMM word (R73). -/
def immWord (op : BitVec 8) (f : ImmF) : Word :=
  BitVec.ofBool f.stop ++ 2#3 ++ op ++ BitVec.ofBool f.w ++ dregCode f.d ++ operandCode f.a ++ guardCode f.g ++
  BitVec.ofBool f.z ++ f.imm
/-- A MEM word (R74). -/
def memWord (op : BitVec 8) (f : MemF) : Word :=
  BitVec.ofBool f.stop ++ 3#3 ++ op ++ BitVec.ofBool f.w ++ dregCode f.d ++ operandCode f.a ++ operandCode f.b ++
  guardCode f.g ++ scopeCode f.sc ++ sizeCode f.sz ++ f.disp
/-- A TILE word (R75). -/
def tileWord (op : BitVec 8) (f : TileF) : Word :=
  BitVec.ofBool f.stop ++ 4#3 ++ op ++ f.d ++ f.a ++ f.b ++ guardCode f.g ++ tokCode f.out ++ tokCode f.i1 ++
  tokCode f.i2 ++ tokCode f.i3 ++ f.mode
/-- An ENGINE word (R76). -/
def engWord (op : BitVec 8) (f : EngF) : Word :=
  BitVec.ofBool f.stop ++ 5#3 ++ op ++ tokCode f.out ++ tokCode f.i1 ++ tokCode f.i2 ++ tokCode f.i3 ++
  operandCode f.a ++ operandCode f.b ++ operandCode f.c ++ BitVec.ofBool f.rw ++ f.mode
/-- A BRANCH word (R77). -/
def brWord (op : BitVec 8) (f : BrF) : Word :=
  BitVec.ofBool f.stop ++ 6#3 ++ op ++ operandCode f.a ++ guardCode f.g ++ f.rot ++ f.shift ++ f.disp
/-- A SYSTEM word (R78). -/
def sysWord (op : BitVec 8) (f : SysF) : Word :=
  BitVec.ofBool f.stop ++ 7#3 ++ op ++ BitVec.ofBool f.w ++ dregCode f.d ++ operandCode f.a ++ operandCode f.b ++
  guardCode f.g ++ f.csr ++ f.imm
/-- A route word (R79). -/
def routeWord (r : RouteF) : Word := BitVec.ofBool r.stop ++ 7#3 ++ 0xFF#8 ++ r.turns

/-- The op word of an instruction (R70-R78, R81-R87); an event has no word, and stands as zero here. -/
def encodeWord : Instr → Word
  | .pair f => pairWord f
  | .add f => regWord 0x00#8 f
  | .sub f => regWord 0x01#8 f
  | .mul f => regWord 0x02#8 f
  | .mulh f => regWord 0x03#8 f
  | .div f => regWord 0x04#8 f
  | .rem f => regWord 0x05#8 f
  | .and f => regWord 0x06#8 f
  | .or f => regWord 0x07#8 f
  | .xor f => regWord 0x08#8 f
  | .andn f => regWord 0x09#8 f
  | .shl f => regWord 0x0a#8 f
  | .shr f => regWord 0x0b#8 f
  | .sar f => regWord 0x0c#8 f
  | .rot f => regWord 0x0d#8 f
  | .clz f => regWord 0x0e#8 f
  | .popc f => regWord 0x0f#8 f
  | .min f => regWord 0x10#8 f
  | .max f => regWord 0x11#8 f
  | .minu f => regWord 0x12#8 f
  | .maxu f => regWord 0x13#8 f
  | .sel f => regWord 0x14#8 f
  | .cmp f => regWord 0x15#8 f
  | .madd f => regWord 0x16#8 f
  | .extr f => regWord 0x17#8 f
  | .ins f => regWord 0x18#8 f
  | .bswap f => regWord 0x19#8 f
  | .shadd f => regWord 0x1a#8 f
  | .movc f => regWord 0x1b#8 f
  | .vadd f => regWord 0x40#8 f
  | .vsub f => regWord 0x41#8 f
  | .vmul f => regWord 0x42#8 f
  | .vmulh f => regWord 0x43#8 f
  | .vmin f => regWord 0x44#8 f
  | .vmax f => regWord 0x45#8 f
  | .vand f => regWord 0x46#8 f
  | .vor f => regWord 0x47#8 f
  | .vxor f => regWord 0x48#8 f
  | .vandn f => regWord 0x49#8 f
  | .vshl f => regWord 0x4a#8 f
  | .vshr f => regWord 0x4b#8 f
  | .vsar f => regWord 0x4c#8 f
  | .vabs f => regWord 0x4d#8 f
  | .vcmp f => regWord 0x4e#8 f
  | .vsel f => regWord 0x4f#8 f
  | .vdot4 f => regWord 0x50#8 f
  | .vmadd f => regWord 0x51#8 f
  | .vpopc f => regWord 0x52#8 f
  | .vfadd f => regWord 0x80#8 f
  | .vfsub f => regWord 0x81#8 f
  | .vfmul f => regWord 0x82#8 f
  | .vfma f => regWord 0x83#8 f
  | .vfnma f => regWord 0x84#8 f
  | .vfmin f => regWord 0x85#8 f
  | .vfmax f => regWord 0x86#8 f
  | .vfabs f => regWord 0x87#8 f
  | .vfneg f => regWord 0x88#8 f
  | .vfcmp f => regWord 0x89#8 f
  | .vfrcp f => regWord 0x8a#8 f
  | .vfrsq f => regWord 0x8b#8 f
  | .vfexp2 f => regWord 0x8c#8 f
  | .vflog2 f => regWord 0x8d#8 f
  | .vfdiv f => regWord 0x8e#8 f
  | .vfsqrt f => regWord 0x8f#8 f
  | .vfclass f => regWord 0x90#8 f
  | .vfscale f => regWord 0x91#8 f
  | .vfdot2 f => regWord 0x92#8 f
  | .vcvt f => regWord 0xc0#8 f
  | .vqnt f => regWord 0xc1#8 f
  | .vdqnt f => regWord 0xc2#8 f
  | .vlcd f => regWord 0xc3#8 f
  | .vperm f => regWord 0xc5#8 f
  | .vshuf f => regWord 0xc6#8 f
  | .vbcast f => regWord 0xc7#8 f
  | .vred f => regWord 0xc8#8 f
  | .vscan f => regWord 0xc9#8 f
  | .vcmprs f => regWord 0xca#8 f
  | .vexpnd f => regWord 0xcb#8 f
  | .vslide f => regWord 0xcc#8 f
  | .vclmul f => regWord 0xcd#8 f
  | .vextr f => regWord 0xcf#8 f
  | .vins f => regWord 0xd0#8 f
  | .vretag f => regWord 0xd1#8 f
  | .addi f => immWord 0x00#8 f
  | .andi f => immWord 0x01#8 f
  | .ori f => immWord 0x02#8 f
  | .xori f => immWord 0x03#8 f
  | .shli f => immWord 0x04#8 f
  | .shri f => immWord 0x05#8 f
  | .sari f => immWord 0x06#8 f
  | .li f => immWord 0x07#8 f
  | .lih f => immWord 0x08#8 f
  | .cmpi f => immWord 0x09#8 f
  | .muli f => immWord 0x0a#8 f
  | .vli f => immWord 0x40#8 f
  | .vaddi f => immWord 0x41#8 f
  | .ld f => memWord 0x00#8 f
  | .ldu f => memWord 0x01#8 f
  | .st f => memWord 0x02#8 f
  | .ldp f => memWord 0x03#8 f
  | .stp f => memWord 0x04#8 f
  | .vld f => memWord 0x20#8 f
  | .vst f => memWord 0x21#8 f
  | .vlds f => memWord 0x22#8 f
  | .vsts f => memWord 0x23#8 f
  | .vldx f => memWord 0x24#8 f
  | .vstx f => memWord 0x25#8 f
  | .vldb f => memWord 0x26#8 f
  | .aadd f => memWord 0x40#8 f
  | .amin f => memWord 0x41#8 f
  | .amax f => memWord 0x42#8 f
  | .aand f => memWord 0x43#8 f
  | .aor f => memWord 0x44#8 f
  | .axor f => memWord 0x45#8 f
  | .aswp f => memWord 0x46#8 f
  | .acas f => memWord 0x47#8 f
  | .aminu f => memWord 0x48#8 f
  | .amaxu f => memWord 0x49#8 f
  | .mark f => memWord 0x60#8 f
  | .fence f => memWord 0x61#8 f
  | .cwb f => memWord 0x63#8 f
  | .cinv f => memWord 0x64#8 f
  | .tzero f => tileWord 0x00#8 f
  | .tfill f => tileWord 0x01#8 f
  | .tident f => tileWord 0x02#8 f
  | .tclass f => tileWord 0x03#8 f
  | .tcopy f => tileWord 0x04#8 f
  | .ttag f => tileWord 0x05#8 f
  | .tmask f => tileWord 0x06#8 f
  | .tstate f => tileWord 0x07#8 f
  | .mcfg f => tileWord 0x20#8 f
  | .mgo f => tileWord 0x21#8 f
  | .mswap f => tileWord 0x22#8 f
  | .mread f => tileWord 0x23#8 f
  | .mdrain f => tileWord 0x24#8 f
  | .mzero f => tileWord 0x25#8 f
  | .mstep f => tileWord 0x26#8 f
  | .mwload f => tileWord 0x27#8 f
  | .mstop f => tileWord 0x28#8 f
  | .cpy f => engWord 0x00#8 f
  | .cpy2d f => engWord 0x01#8 f
  | .csched f => engWord 0x02#8 f
  | .cstage f => engWord 0x03#8 f
  | .ovl f => engWord 0x04#8 f
  | .dcpy f => engWord 0x05#8 f
  | .tkwait f => engWord 0x50#8 f
  | .tktest f => engWord 0x51#8 f
  | .tkjoin f => engWord 0x52#8 f
  | .rget f _ => engWord 0x20#8 f
  | .rput f _ => engWord 0x21#8 f
  | .rgath f _ => engWord 0x22#8 f
  | .rscat f _ => engWord 0x23#8 f
  | .mcst f _ => engWord 0x24#8 f
  | .ratom f _ => engWord 0x25#8 f
  | .binit f _ => engWord 0x40#8 f
  | .barr f _ => engWord 0x41#8 f
  | .bwait f _ => engWord 0x42#8 f
  | .bread f _ => engWord 0x43#8 f
  | .br f => brWord 0x00#8 f
  | .brz f => brWord 0x01#8 f
  | .brnz f => brWord 0x02#8 f
  | .call f => brWord 0x03#8 f
  | .ret f => brWord 0x04#8 f
  | .jmpi f => brWord 0x05#8 f
  | .loop f => brWord 0x06#8 f
  | .endOp f => brWord 0x07#8 f
  | .yield f => brWord 0x08#8 f
  | .calli f => brWord 0x09#8 f
  | .csrr f => sysWord 0x00#8 f
  | .csrw f => sysWord 0x01#8 f
  | .csrs f => sysWord 0x02#8 f
  | .csrc f => sysWord 0x03#8 f
  | .trap f => sysWord 0x04#8 f
  | .eret f => sysWord 0x05#8 f
  | .brk f => sysWord 0x06#8 f
  | .weirset f => sysWord 0x07#8 f
  | .weirsetBa f => sysWord 0x07#8 f
  | .weirsetWa f => sysWord 0x07#8 f
  | .weirq f => sysWord 0x08#8 f
  | .lend f => sysWord 0x09#8 f
  | .revoke f => sysWord 0x0a#8 f
  | .eddy f => sysWord 0x0b#8 f
  | .eddyRes f => sysWord 0x0b#8 f
  | .park f => sysWord 0x0c#8 f
  | .launch f => sysWord 0x0d#8 f
  | .launchNb f => sysWord 0x0d#8 f
  | .launchG f => sysWord 0x0d#8 f
  | .ntreq f => sysWord 0x0e#8 f
  | .ntreqPop f => sysWord 0x0e#8 f
  | .seed f => sysWord 0x0f#8 f
  | .rngpop f => sysWord 0x10#8 f
  | .waitev f => sysWord 0x11#8 f
  | .idle f => sysWord 0x12#8 f
  | .illegalEncoding w => w
  | _ => 0#64

/-- Whether an instruction is an op word, not an event. -/
def isOp (i : Instr) : Bool :=
  match i with
  | .pair _ | .illegalEncoding _ => true
  | i => (classOf i).isSome

/-- The words of an instruction: its op word, and its route word if it has one. -/
def encode (i : Instr) : List Word :=
  match routeOf i with
  | some r => [encodeWord i, routeWord r]
  | none => [encodeWord i]

/-- The instruction the decoder reads from an instruction whose bits are `w`, numbered from bit 0 of the first
word; a second word's bits count on from bit 64. Bits above `nbits` are zero. -/
def decodeTableWord (nbits w : Nat) : Option Instr :=
  let v := w % 2 ^ nbits
  match decode [wd v, wd (v / 2 ^ 64)] with
  | .ok (i, _) => some i
  | .error _ => none

end Sys2Proof
end

