-- ==== Sys2Proof/Machine/Float.lean ====
section
/-! DEFINITION. Floating-point arithmetic (R28-R39, R54, R55): formats, exact values, one rounding into a format, the
exact operations and the six correctly rounded functions. Every exact value is a sign, a natural mantissa and an
integer exponent; `sticky` marks a value strictly between that mantissa and the next. -/

namespace Sys2Proof.Machine

/-- The arithmetic flags in the FPSTAT layout (R40). -/
abbrev Flags := BitVec 7
/-- IV. -/
def fIV : Flags := 0x01#7
/-- DZ. -/
def fDZ : Flags := 0x02#7
/-- OF. -/
def fOF : Flags := 0x04#7
/-- UF. -/
def fUF : Flags := 0x08#7
/-- PE. -/
def fPE : Flags := 0x10#7
/-- SAT. -/
def fSAT : Flags := 0x20#7
/-- IDZ. -/
def fIDZ : Flags := 0x40#7

/-- A floating-point format (R28, R29). -/
structure Fmt where
  ew : Nat
  mw : Nat
  bias : Nat
  e4m3 : Bool := false
  sig : Bool := true
  deriving DecidableEq, Repr

/-- The format of a tag (R28); other tags give FP64. -/
def fmtOf : Tag → Fmt
  | .e4m3 => ⟨4, 3, 7, true, false⟩
  | .e5m2 => ⟨5, 2, 15, false, false⟩
  | .fp16 => ⟨5, 10, 15, false, true⟩
  | .bf16 => ⟨8, 7, 127, false, true⟩
  | .fp32 => ⟨8, 23, 127, false, true⟩
  | _ => ⟨11, 52, 1023, false, true⟩

/-- Width of a format in bits. -/
def Fmt.width (f : Fmt) : Nat := 1 + f.ew + f.mw
/-- The sign bit as a number. -/
def Fmt.signBit (f : Fmt) (neg : Bool) : Nat := if neg then 2 ^ (f.ew + f.mw) else 0
/-- The magnitude bits of the largest finite value (R28). -/
def Fmt.maxFin (f : Fmt) : Nat := if f.e4m3 then 0x7E else (2 ^ f.ew - 1) * 2 ^ f.mw - 1
/-- The magnitude bits of infinity. -/
def Fmt.infBits (f : Fmt) : Nat := (2 ^ f.ew - 1) * 2 ^ f.mw
/-- The canonical NaN (R30). -/
def Fmt.nan (f : Fmt) : Nat := if f.e4m3 then 0x7F else f.infBits + 2 ^ (f.mw - 1)
/-- Exponent of the smallest subnormal. -/
def Fmt.qmin (f : Fmt) : Int := 1 - (f.bias : Int) - (f.mw : Int)

/-- A decoded value: a finite one is (-1)^neg × m × 2^e. -/
inductive FVal where
  | nan (sig : Bool)
  | inf (neg : Bool)
  | fin (neg : Bool) (m : Nat) (e : Int)
  deriving DecidableEq, Repr

/-- Decoding an element (R28, R29, R31). -/
def fdec (f : Fmt) (x : Nat) : FVal :=
  let neg := x / 2 ^ (f.ew + f.mw) % 2 == 1
  let ex := x / 2 ^ f.mw % 2 ^ f.ew
  let mn := x % 2 ^ f.mw
  if f.e4m3 then
    if ex = 15 ∧ mn = 7 then .nan false
    else if ex = 0 then .fin neg mn f.qmin
    else .fin neg (mn + 8) (f.qmin + (ex : Int) - 1)
  else if ex = 2 ^ f.ew - 1 then
    if mn = 0 then .inf neg else .nan (f.sig && mn / 2 ^ (f.mw - 1) == 0)
  else if ex = 0 then .fin neg mn f.qmin
  else .fin neg (mn + 2 ^ f.mw) (f.qmin + (ex : Int) - 1)

/-- Whether a value is a NaN. -/
def FVal.isNan : FVal → Bool
  | .nan _ => true
  | _ => false
/-- Whether a value is a signalling NaN (R31). -/
def FVal.isSig : FVal → Bool
  | .nan s => s
  | _ => false
/-- The sign of a value. -/
def FVal.neg : FVal → Bool
  | .nan _ => false
  | .inf n => n
  | .fin n _ _ => n
/-- Whether a value is a zero of either sign. -/
def FVal.isZero : FVal → Bool
  | .fin _ m _ => m == 0
  | _ => false

/-- A result with its flags. -/
abbrev FRes := Nat × Flags

/-- IV for a signalling operand (R31). -/
def sigFlag (l : List FVal) : Flags := if l.any FVal.isSig then fIV else 0
/-- The canonical NaN with the flags given (R30). -/
def nanRes (f : Fmt) (fl : Flags) : FRes := (f.nan, fl)
/-- A zero of a sign. -/
def zeroRes (f : Fmt) (neg : Bool) : FRes := (f.signBit neg, 0)

/-- An infinite value delivered into a format (R36): FP8E4M3 gives ±448 in modes 5 and 6 and else 0x7F with IV. -/
def deliverInf (f : Fmt) (rm : RMode) (neg : Bool) : FRes :=
  if f.e4m3 then
    match rm with
    | .stoch | .rns => (f.signBit neg + f.maxFin, 0)
    | _ => (f.nan, fIV)
  else (f.signBit neg + f.infBits, 0)

/-- What an overflow delivers (R36). -/
def overflowRes (f : Fmt) (rm : RMode) (neg : Bool) : FRes :=
  let toInf :=
    match rm with
    | .rne | .rna | .dyn => true
    | .rdn => neg
    | .rup => !neg
    | .rtz | .rns | .stoch => false
  let v := if toInf then (if f.e4m3 then f.nan else f.signBit neg + f.infBits) else f.signBit neg + f.maxFin
  (v, fOF ||| fPE)

/-- Whether rounding moves away from zero: the kept part, the remainder over 2^sh, the mode, the random byte. -/
def roundsUp (rm : RMode) (rb : Nat) (neg : Bool) (lo rem sh : Nat) (sticky : Bool) : Bool :=
  let inexact := rem != 0 || sticky
  let two := 2 * rem
  let one := 2 ^ sh
  match rm with
  | .rtz => false
  | .rdn => neg && inexact
  | .rup => !neg && inexact
  | .rna => decide (one ≤ two)
  | .stoch => inexact && decide (rb < rem * 256 / one)
  | .rne | .rns | .dyn => decide (one < two) || (two == one && (sticky || lo % 2 == 1))

/-- Rounding a nonzero magnitude m × 2^e once into a format (R34, R36-R38). -/
def roundMag (f : Fmt) (rm : RMode) (rb : Nat) (neg : Bool) (m : Nat) (e : Int) (sticky : Bool) : FRes :=
  let ex : Int := (Nat.log2 m : Int) + e
  let q : Int := max (ex - (f.mw : Int)) f.qmin
  let up := (e - q).toNat
  let sh := (q - e).toNat
  let m' := m * 2 ^ up
  let lo := m' / 2 ^ sh
  let rem := m' % 2 ^ sh
  let inexact := rem != 0 || sticky
  let mag := lo + bnat (roundsUp rm rb neg lo rem sh sticky)
  let bits := (q - f.qmin).toNat * 2 ^ f.mw + mag
  if f.maxFin < bits then overflowRes f rm neg
  else
    let fl := if inexact then (if bits < 2 ^ f.mw then fUF ||| fPE else fPE) else 0
    (f.signBit neg + bits, fl)

/-- Rounding an exact finite value; zero keeps its sign (R33). -/
def roundFin (f : Fmt) (rm : RMode) (rb : Nat) (neg : Bool) (m : Nat) (e : Int) : FRes :=
  if m = 0 then zeroRes f neg else roundMag f rm rb neg m e false

/-! ### Exact sums of products (R33, R53) -/

/-- A term of an exact sum. -/
structure Term where
  neg : Bool
  m : Nat
  e : Int
  deriving DecidableEq, Repr

/-- The signed numerator of a term over 2^e0. -/
def Term.at (t : Term) (e0 : Int) : Int :=
  let x : Int := (t.m : Int) * 2 ^ (t.e - e0).toNat
  if t.neg then -x else x

/-- The exact sum of terms: its numerator and exponent. -/
def sumTerms (l : List Term) : Int × Int :=
  let e0 := l.foldl (fun a t => if t.m = 0 then a else min a t.e) (((l.filter (·.m != 0)).map (·.e)).headD 0)
  ((l.filter (·.m != 0)).foldl (fun a t => a + t.at e0) 0, e0)

/-- The sign of an exact zero sum: that of its terms where all are zeros of one sign, else the mode's (R33). -/
def zeroSign (rm : RMode) (l : List Term) : Bool :=
  if l.all (fun t => t.m == 0 && t.neg) then true
  else if l.all (fun t => t.m == 0 && !t.neg) then false
  else rm == .rdn

/-- Rounding an exact sum. -/
def roundSum (f : Fmt) (rm : RMode) (l : List Term) : FRes :=
  let (n, e) := sumTerms l
  if n = 0 then zeroRes f (zeroSign rm l) else roundMag f rm 0 (decide (n < 0)) n.natAbs e false

/-- A product of two values, or why it is none: 0 × ∞ (R31). -/
inductive PVal where
  | invalid
  | inf (neg : Bool)
  | fin (t : Term)
  deriving DecidableEq, Repr

/-- The exact product (R33); the operands are no NaNs. -/
def fprod (a b : FVal) : PVal :=
  let neg := a.neg != b.neg
  match a, b with
  | .fin _ m1 e1, .fin _ m2 e2 => .fin ⟨neg, m1 * m2, e1 + e2⟩
  | .inf _, .fin _ m _ => if m = 0 then .invalid else .inf neg
  | .fin _ m _, .inf _ => if m = 0 then .invalid else .inf neg
  | _, _ => .inf neg

/-- A value as a summand. -/
def asP : FVal → PVal
  | .fin n m e => .fin ⟨n, m, e⟩
  | .inf n => .inf n
  | .nan _ => .invalid

/-- round(sum of the summands) into a format; NaN operands are tested first (R31, R33, R53). 0 × ∞ beside a quiet NaN addend
sets IV, ∞ - ∞ beside one does not. Log 52, DESIGN CHOICE. -/
def fsum (f : Fmt) (rm : RMode) (ops : List FVal) (ps : List PVal) : FRes :=
  let invalid := ps.any (fun p => match p with | .invalid => true | _ => false)
  let pos := ps.any (fun p => match p with | .inf n => !n | _ => false)
  let ng := ps.any (fun p => match p with | .inf n => n | _ => false)
  if ops.any FVal.isNan then nanRes f (sigFlag ops ||| (if invalid then fIV else 0))
  else if invalid || (pos && ng) then nanRes f fIV
  else if pos then deliverInf f rm false
  else if ng then deliverInf f rm true
  else roundSum f rm (ps.filterMap (fun p => match p with | .fin t => some t | _ => none))

/-- Negating a value. -/
def FVal.flip : FVal → FVal
  | .nan s => .nan s
  | .inf n => .inf (!n)
  | .fin n m e => .fin (!n) m e

/-- A product that a NaN operand leaves out of the sum. -/
def prodOr (a b : FVal) : PVal := if a.isNan || b.isNan then .fin ⟨false, 0, 0⟩ else fprod a b
/-- A summand that is left out where it is a NaN. -/
def addend (c : FVal) : PVal := if c.isNan then .fin ⟨false, 0, 0⟩ else asP c

/-- VFADD (R140). -/
def fadd (f : Fmt) (rm : RMode) (a b : FVal) : FRes := fsum f rm [a, b] [addend a, addend b]
/-- VFMUL (R140). -/
def fmul (f : Fmt) (rm : RMode) (a b : FVal) : FRes := fsum f rm [a, b] [prodOr a b]
/-- VFMA (R53). -/
def fma (f : Fmt) (rm : RMode) (a b c : FVal) : FRes := fsum f rm [a, b, c] [prodOr a b, addend c]
/-- VFDOT2 (R145). -/
def fdot2 (f : Fmt) (rm : RMode) (c a0 b0 a1 b1 : FVal) : FRes :=
  fsum f rm [c, a0, b0, a1, b1] [addend c, prodOr a0 b0, prodOr a1 b1]

/-! ### Order (R141, R142) -/

/-- The exact comparison of two finite or infinite values: -1, 0 or 1; zeros of either sign are equal. -/
def fcmp (a b : FVal) : Int :=
  match a, b with
  | .fin n1 m1 e1, .fin n2 m2 e2 =>
    let e0 := min e1 e2
    let x := Term.at ⟨n1, m1, e1⟩ e0
    let y := Term.at ⟨n2, m2, e2⟩ e0
    if x < y then -1 else if y < x then 1 else 0
  | .inf n, .inf k => if n == k then 0 else if n then -1 else 1
  | .inf n, _ => if n then -1 else 1
  | _, .inf n => if n then 1 else -1
  | _, _ => 0

/-- Whether `a` is below `b`, −0 below +0 (R141). -/
def fbelow (a b : FVal) : Bool :=
  let c := fcmp a b
  c == -1 || (c == 0 && a.neg && !b.neg)

/-- VFMIN and VFMAX of two elements (R141). -/
def fminmax (f : Fmt) (isMax : Bool) (x y : Nat) : FRes :=
  let a := fdec f x
  let b := fdec f y
  if a.isNan || b.isNan then nanRes f (sigFlag [a, b])
  else if (if isMax then fbelow a b else fbelow b a) then (y, 0) else (x, 0)

/-! ### Division, roots, functions (R54, R55) -/

/-- The integer square root by bits, for numbers below 2^(2 n). -/
def isqrt (n x : Nat) : Nat :=
  (List.range n).reverse.foldl (fun r i => if (r + 2 ^ i) * (r + 2 ^ i) ≤ x then r + 2 ^ i else r) 0

/-- Rounding the quotient of two positive numbers times 2^e. -/
def roundQuot (f : Fmt) (rm : RMode) (rb : Nat) (neg : Bool) (n d : Nat) (e : Int) : FRes :=
  let k := f.mw + 80 + Nat.log2 d - Nat.log2 n
  let x := n * 2 ^ k
  roundMag f rm rb neg (x / d) (e - (k : Int)) (x % d != 0)

/-- VFDIV (R54, R55). -/
def fdiv (f : Fmt) (rm : RMode) (a b : FVal) : FRes :=
  let neg := a.neg != b.neg
  if a.isNan || b.isNan then nanRes f (sigFlag [a, b])
  else
    match a, b with
    | .inf _, .inf _ => nanRes f fIV
    | .inf _, _ => deliverInf f rm neg
    | _, .inf _ => zeroRes f neg
    | .fin _ m1 e1, .fin _ m2 e2 =>
      if m2 = 0 then
        if m1 = 0 then nanRes f fIV
        else let r := deliverInf f rm neg; (r.1, r.2 ||| fDZ)
      else if m1 = 0 then zeroRes f neg
      else roundQuot f rm 0 neg m1 m2 (e1 - e2)
    | _, _ => nanRes f 0

/-- VFRCP (R54, R55). -/
def frcp (f : Fmt) (rm : RMode) (a : FVal) : FRes := fdiv f rm (.fin false 1 0) a

/-- A positive mantissa with an even exponent. -/
def evenExp (m : Nat) (e : Int) : Nat × Int := if e % 2 = 0 then (m, e) else (2 * m, e - 1)

/-- VFSQRT (R54, R55). -/
def fsqrt (f : Fmt) (rm : RMode) (a : FVal) : FRes :=
  match a with
  | .nan s => nanRes f (if s then fIV else 0)
  | .inf n => if n then nanRes f fIV else deliverInf f rm false
  | .fin n m e =>
    if m = 0 then zeroRes f n
    else if n then nanRes f fIV
    else
      let (m, e) := evenExp m e
      let k := f.mw + 70
      let x := m * 2 ^ (2 * k)
      let r := isqrt (k + Nat.log2 m / 2 + 2) x
      roundMag f rm 0 false r (e / 2 - (k : Int)) (r * r != x)

/-- VFRSQ (R54, R55). -/
def frsq (f : Fmt) (rm : RMode) (a : FVal) : FRes :=
  match a with
  | .nan s => nanRes f (if s then fIV else 0)
  | .inf n => if n then nanRes f fIV else zeroRes f false
  | .fin n m e =>
    if m = 0 then let r := deliverInf f rm n; (r.1, r.2 ||| fDZ)
    else if n then nanRes f fIV
    else
      let (m, e) := evenExp m e
      let k := f.mw + 70 + Nat.log2 m
      let x := 2 ^ (2 * k) / m
      let r := isqrt (k + 1) x
      roundMag f rm 0 false r (-(e / 2) - (k : Int)) (r * r * m != 2 ^ (2 * k))

/-- Fraction bits of the exponential's fixed point. -/
def expP : Nat := 256
/-- floor(ln 2 × 2^256). -/
def ln2Fix : Nat := 0xb17217f7d1cf79abc9e3b39803f2f6af40f343267298b62d8a0d175b8baafa2b

/-- Bounds of e^y in units of 2^-256 from bounds of y, 0 ≤ y < 1, by 70 terms of the series; the tail is below the
last term. -/
def expBounds (ylo yhi : Nat) : Nat × Nat :=
  let one := 2 ^ expP
  let st := (List.range 70).foldl (fun (a : Nat × Nat × Nat × Nat) i =>
      let tl := a.1 * ylo / one / (i + 1)
      let th := a.2.1 * yhi / one / (i + 1) + 2
      (tl, th, a.2.2.1 + tl, a.2.2.2 + th)) (one, one, one, one)
  (st.2.2.1, st.2.2.2 + st.2.1)

/-- The first 161 bits of 2^f for f = fr / 2^k, 0 < f < 1: the floor of 2^f × 2^160. Where the bounds do not settle it,
the candidates are compared exactly: n ≤ 2^(160 + f) just when n^(2^k) ≤ 2^(160 · 2^k + fr). -/
def exp2Frac (fr k : Nat) : Nat :=
  let ff := fr * 2 ^ expP / 2 ^ k
  let one := 2 ^ expP
  let (lo, hi) := expBounds (ff * ln2Fix / one) ((ff + 1) * (ln2Fix + 1) / one + 1)
  let l := max lo one / 2 ^ 96
  let h := min hi (2 * one - 1) / 2 ^ 96
  if l = h then l
  else l + (((List.range (h - l)).filter (fun i => (l + i + 1) ^ 2 ^ k ≤ 2 ^ (160 * 2 ^ k + fr))).length)

/-- VFEXP2 (R54, R55): the result of an integer is exact, any other is irrational. -/
def fexp2 (f : Fmt) (rm : RMode) (a : FVal) : FRes :=
  match a with
  | .nan s => nanRes f (if s then fIV else 0)
  | .inf n => if n then zeroRes f false else deliverInf f rm false
  | .fin n m e =>
    if m = 0 then roundMag f rm 0 false 1 0 false
    else
      let big : Int := (Nat.log2 m : Int) + e
      if 14 < big then
        if n then roundMag f rm 0 false 1 (-5000) true else overflowRes f rm false
      else
        let k := (-e).toNat
        let num : Int := (if n then -1 else 1) * (m : Int) * 2 ^ e.toNat
        let q := num / 2 ^ k
        let fr := (num % 2 ^ k).toNat
        if fr = 0 then roundMag f rm 0 false 1 q false
        else roundMag f rm 0 false (exp2Frac fr k) (q - 160) true

/-- Fraction digits of the logarithm. -/
def logD : Nat := 256
/-- Fixed-point bits of its squarings. -/
def logP : Nat := 640

/-- The first 256 binary digits of log2 (m / 2^p), 2^p < m < 2^(p+1), by repeated squaring of bounds in units of 2^-640.
A digit the bounds do not settle is decided exactly: the first j + 1 digits reach d just when
2^(d + p · 2^(j+1)) ≤ m^(2^(j+1)). -/
def log2Digits (m p : Nat) : Nat :=
  let one := 2 ^ logP
  let t := m * 2 ^ logP / 2 ^ p
  let r := (List.range logD).foldl (fun (a : Nat × Nat × Nat) j =>
      let l := a.1 * a.1 / one
      let h := a.2.1 * a.2.1 / one + 1
      let bit := if 2 * one ≤ l then 1 else if h < 2 * one then 0
        else if 2 ^ (2 * a.2.2 + 1 + p * 2 ^ (j + 1)) ≤ m ^ 2 ^ (j + 1) then 1 else 0
      if bit = 1 then (l / 2, h / 2 + 1, 2 * a.2.2 + 1) else (l, h, 2 * a.2.2)) (t, t + 1, 0)
  r.2.2

/-- VFLOG2 (R54, R55): the result of a power of two is exact, any other is irrational. -/
def flog2 (f : Fmt) (rm : RMode) (a : FVal) : FRes :=
  match a with
  | .nan s => nanRes f (if s then fIV else 0)
  | .inf n => if n then nanRes f fIV else deliverInf f rm false
  | .fin n m e =>
    if m = 0 then let r := deliverInf f rm true; (r.1, r.2 ||| fDZ)
    else if n then nanRes f fIV
    else
      let l := Nat.log2 m
      let k : Int := (l : Int) + e
      if m = 2 ^ l then
        if k = 0 then zeroRes f false else roundMag f rm 0 (decide (k < 0)) k.natAbs 0 false
      else
        let d : Int := k * 2 ^ logD + (log2Digits m l : Int)
        if 0 ≤ d then roundMag f rm 0 false d.natAbs (-(logD : Int)) true
        else roundMag f rm 0 true (d.natAbs - 1) (-(logD : Int)) true

/-- VFSCALE: round(a × 2^b) (R144). The exponent is bounded where the result is out of every format's range. -/
def fscale (f : Fmt) (rm : RMode) (a : FVal) (b : Int) : FRes :=
  match a with
  | .nan s => nanRes f (if s then fIV else 0)
  | .inf n => deliverInf f rm n
  | .fin n m e => if m = 0 then zeroRes f n else roundMag f rm 0 n m (e + max (-5000) (min 5000 b)) false

/-- The class code of VFCLASS (R143). -/
def fclass (f : Fmt) (x : Nat) : Nat :=
  match fdec f x with
  | .nan s => if s then 8 else 9
  | .inf n => if n then 0 else 7
  | .fin n m _ =>
    if m = 0 then (if n then 3 else 4)
    else if m < 2 ^ f.mw then (if n then 2 else 5)
    else if n then 1 else 6

/-! ### Conversions (R39) -/

/-- The range of an integer tag. -/
def intRange : Tag → Int × Int
  | .uint8 => (0, 255)
  | .int8 => (-128, 127)
  | .int16 => (-32768, 32767)
  | .int32 => (-(2 ^ 31), 2 ^ 31 - 1)
  | _ => (-(2 ^ 63), 2 ^ 63 - 1)

/-- An element of an integer tag as an integer (R27). -/
def intVal (t : Tag) (x : Nat) : Int :=
  let w := tagWidth t
  let x := x % 2 ^ w
  match t with
  | .uint8 | .bits | .scale8 => (x : Int)
  | _ => if 2 ^ (w - 1) ≤ x then (x : Int) - 2 ^ w else (x : Int)

/-- The bits of an integer at a width. -/
def intBits (w : Nat) (x : Int) : Nat := (x % 2 ^ w).toNat

/-- An exact value m × 2^e rounded to an integer by a mode, and whether it was inexact. -/
def roundInt (rm : RMode) (rb : Nat) (neg : Bool) (m : Nat) (e : Int) : Int × Bool :=
  let sh := (-e).toNat
  let x := m * 2 ^ e.toNat
  let lo := x / 2 ^ sh
  let rem := x % 2 ^ sh
  let mag : Int := (lo + bnat (roundsUp rm rb neg lo rem sh false) : Nat)
  (if neg then -mag else mag, rem != 0)

/-- Float to integer (R39): beyond the range the nearest end and SAT; a NaN gives 0 and IV. -/
def cvtFI (f : Fmt) (d : Tag) (rm : RMode) (rb : Nat) (x : Nat) : FRes :=
  let (lo, hi) := intRange d
  let w := tagWidth d
  match fdec f x with
  | .nan _ => (0, fIV)
  | .inf n => (intBits w (if n then lo else hi), fSAT)
  | .fin n m e =>
    let (v, inexact) := if 80 < (Nat.log2 m : Int) + e ∧ m ≠ 0 then ((if n then lo - 1 else hi + 1), false)
      else roundInt rm rb n m e
    if v < lo then (intBits w lo, fSAT)
    else if hi < v then (intBits w hi, fSAT)
    else (intBits w v, if inexact then fPE else 0)

/-- Integer to float (R39). -/
def cvtIF (t : Tag) (f : Fmt) (rm : RMode) (rb : Nat) (x : Nat) : FRes :=
  let v := intVal t x
  roundFin f rm rb (decide (v < 0)) v.natAbs 0

/-- Float to float (R39). -/
def cvtFF (f g : Fmt) (rm : RMode) (rb : Nat) (x : Nat) : FRes :=
  match fdec f x with
  | .nan s => nanRes g (if s then fIV else 0)
  | .inf n => deliverInf g rm n
  | .fin n m e => roundFin g rm rb n m e

/-- Integer to integer (R39). At the same width, INT8 to UINT8 and back, a value out of range saturates and sets SAT as in
narrowing. Log 29, DESIGN CHOICE. -/
def cvtII (t d : Tag) (x : Nat) : FRes :=
  let v := intVal t x
  let (lo, hi) := intRange d
  let w := tagWidth d
  if v < lo then (intBits w lo, fSAT) else if hi < v then (intBits w hi, fSAT) else (intBits w v, 0)

/-- One element converted from tag to tag (R39, R147); BITS is handled by VCVT itself. -/
def cvtElem (t d : Tag) (rm : RMode) (rb : Nat) (x : Nat) : FRes :=
  match isIntTag t, isIntTag d with
  | true, true => cvtII t d x
  | true, false => cvtIF t (fmtOf d) rm rb x
  | false, true => cvtFI (fmtOf t) d rm rb x
  | false, false => cvtFF (fmtOf t) (fmtOf d) rm rb x

/-! ### The random generator (R47, R48, R50) -/

/-- INC of R47. -/
def rngInc : Word := 0x9E3779B97F4A7C15#64
/-- The finaliser of R47. -/
def rngMix (z : Word) : Word :=
  let z := (z ^^^ (z >>> 30)) * 0xBF58476D1CE4E5B9#64
  let z := (z ^^^ (z >>> 27)) * 0x94D049BB133111EB#64
  z ^^^ (z >>> 31)
/-- Popping: the word and the new state (R47). -/
def rngPop (seed : Word) : Word × Word := (rngMix (seed + rngInc), seed + rngInc)
/-- The random byte of lane i (R50). -/
def rngByte (w : Word) (i : Nat) : Nat := (rngMix (w ^^^ (wd i * rngInc))).toNat % 256

end Sys2Proof.Machine
end

