-- ==== Sys2Proof/Machine/State.lean ====
section
/-! DEFINITION. The state of the package, as plain data, and the state after reset. INVENTORY.md lists every field
with the rule that names it; notes/assumptions/3 to 6 name the reset values the spec does not give. -/

namespace Sys2Proof.Machine

/-- Bytes by address, in one canonical form: addresses strictly rising, no entry equal to zero, which is what an
unlisted address reads as (log 4, DESIGN CHOICE, log 5, DESIGN CHOICE). -/
abbrev Mem := List Host.Cell

/-! ### Values -/

/-- A scalar value with its format tag and, where it is poisoned, the virtual address it was loaded from (R18,
R179). -/
structure SVal where
  v : Word := 0
  tag : Tag := .undef
  poison : Option Word := none
  deriving DecidableEq, Repr

/-- A vector value with its format tag and poison (R18, R179). -/
structure VVal where
  v : VWord := 0
  tag : Tag := .undef
  poison : Option Word := none
  deriving DecidableEq, Repr

/-- What a faulted command reports (R183, R193): its cause and the two information words. -/
structure FaultRec where
  cause : Nat
  info0 : Word
  info1 : Word
  deriving DecidableEq, Repr

/-- A dependence token (R271): LIVE, DONE, the fault record and flags of its command, the command it is bound to,
and whether TKTEST consumed it before it was DONE (R274). -/
structure Token where
  live : Bool := false
  done : Bool := true
  fault : Option FaultRec := none
  flags : BitVec 7 := 0
  cmd : Nat := 0
  viaTest : Bool := false
  deriving DecidableEq, Repr

/-- A held next-tile entry: its value and `due`, 0 once it has landed, else one more than the bundles left until it
lands (R389, R390). -/
structure NxEnt where
  val : Word
  due : Nat
  deriving DecidableEq, Repr

/-- Where a byte of a context access lies once it is translated (R164). -/
inductive Loc where
  | spad (off : Nat)
  | phys (pa : Nat)
  deriving DecidableEq, Repr

/-- An entry of a store queue waiting to be performed (R166): the bytes of a store, a CWB or CINV (R177), or a MARK, which
stands in both queues (R166, R169). -/
inductive StoreEnt where
  | store (cells : List (Loc × Byte))
  | cwb (line : Nat)
  | cinv (line : Nat)
  | mark
  deriving DecidableEq, Repr

/-- An entry of a load queue waiting to be performed (R166): a MARK. A load and the load half of an atomic are performed in
the step in which they enter (log 12, DESIGN CHOICE), so none of them is found waiting. -/
inductive LoadEnt where
  | mark
  deriving DecidableEq, Repr

/-- An op whose standing weight is outstanding (R203): weight, out token, accumulator for MGO and MSTEP. -/
structure Standing where
  wt : Nat
  tok : Tok
  acc : Option Nat
  deriving DecidableEq, Repr

/-- A pending kind-A event other than a throttle notice (R185): its cause and information; `soft` for TRAP. -/
structure PendA where
  soft : Bool
  record : FaultRec
  flags : BitVec 7 := 0
  deriving DecidableEq, Repr

/-- Whether a context issues (R6, R124, R187, R191, R200, R403). -/
inductive CtxRun where
  | unbound
  | run
  | ended
  /-- halted by a cause with no handler (R187), a double trap (R191) or a machine check (R200) -/
  | halted (cause : Nat)
  deriving DecidableEq, Repr

/-! ### A context -/

/-- The named files and predicates (R12, R15, R231, R287). -/
structure Files where
  s : Vector SVal 16
  g : Vector SVal 32
  v : Vector VVal 16
  w : Vector VVal 32
  p : Vector PMask 16
  m : Vector TMask 16
  b : Vector Word 8
  deriving DecidableEq, Repr

/-- The result queues, newest first, an undefined entry being none (R8, R11, R21). -/
structure Queues where
  sq : Vector (Option SVal) 16
  vq : Vector (Option VVal) 16
  hq : Vector (Option SVal) 16
  deriving DecidableEq, Repr

/-- The trap record and the registers of trap entry (R193, R194). -/
structure TrapRegs where
  cause : BitVec 7 := 0
  pc : BitVec 16 := 0
  slot : BitVec 5 := 0
  info0 : Word := 0
  info1 : Word := 0
  vec : BitVec 16 := 0
  noh : Bool := true
  epc : BitVec 16 := 0
  hm : Bool := false
  wake : Bool := false
  dt : Bool := false
  eng : Bool := false
  blen : BitVec 5 := 0
  res : Nat := 4
  deriving DecidableEq, Repr

/-- The other context control registers (R22). -/
structure Csrs where
  mmrev : Nat := 3
  fpctl : BitVec 12 := 0
  fpstat : BitVec 7 := 0
  weira : Nat := 64
  weirw : Nat := 448
  weirf : Nat := 0
  weirc : Nat := 96
  cycles : Word := 0
  issueLeft : Nat := 0xFFFF
  niLeft : Nat := 0xFFFF
  issueBud : Nat := 0xFFFF
  niBud : Nat := 0xFFFF
  rngseed : Word := 0
  privbase : Word := 0
  discard : Bool := false
  deriving DecidableEq, Repr

/-- How a context waits: the bundle at pc is held, YIELD cycles left (R125), IDLE (R127), cycles since a WAITEV or
BWAIT issued (R126, R331), asleep on a barrier object, cycles before a woken context may issue (R330). -/
structure Waits where
  held : Bool := false
  yield : Nat := 0
  idle : Bool := false
  waiting : Bool := false
  since : Nat := 0
  asleep : Option Word := none
  /-- the barrier object in which a BWAIT set the own SLEEP bit, until the BWAIT ends or is taken (R331, R334) -/
  sleptAt : Option Word := none
  wakeIn : Nat := 0
  wakeNow : Bool := false
  /-- a wake ended an IDLE that has not retired yet (R127, R129) -/
  idleWoken : Bool := false
  /-- the LENDCFG that a waiting LEND is to push (R305) -/
  lendOld : Option Word := none
  /-- the master cycle at which the stripes that a waiting LEND turns on may be used (R358) -/
  lendOn : Option Nat := none
  deriving DecidableEq, Repr

/-- Debug state of a context (R403-R407): breakpoint registers, single step, halted by the debugger. -/
structure Dbg where
  abp : Vector Word 16
  step : Bool := false
  stepDone : Bool := false
  halted : Bool := false
  deriving DecidableEq, Repr

/-- One context (R6). -/
structure Ctx where
  run : CtxRun := .unbound
  pc : BitVec 16 := 0
  files : Files
  q : Queues
  sc : Word := 0
  t : Word := 0
  armed : Bool := false
  nx : List NxEnt := []
  nxHead : Nat := 0
  tok : Vector Token 63
  storeQ : List StoreEnt := []
  loadQ : List LoadEnt := []
  csr : Csrs := {}
  tr : TrapRegs := {}
  standing : List Standing := []
  window : List Nat := []
  pend : List PendA := []
  notice : Option (Word × Word) := none
  denied : BitVec 4 := 0
  deniedCycles : Nat := 0
  scaled : Bool := false
  waits : Waits := {}
  dbg : Dbg
  task : Option Nat := none
  firstIssue : Bool := false
  deriving DecidableEq, Repr

/-! ### A core -/

/-- Tile states (R223). -/
inductive TState where
  | empty | filling | ready | draining
  deriving DecidableEq, Repr

/-- Tile classes (R223). -/
inductive TClass where
  | zero | const | ident | general
  deriving DecidableEq, Repr

/-- A tile-table entry (R223). -/
structure TileEnt where
  tag : Tag := .undef
  nf : Bool := false
  cls : TClass := .general
  spoil : Bool := false
  st : TState := .empty
  deriving DecidableEq, Repr

/-- The power state of a scratchpad stripe, and the effective cycle of its last access (R180, R241, R242). -/
inductive Power where
  | awake | drowsy | gated
  deriving DecidableEq, Repr

/-- A stripe. -/
structure Stripe where
  pw : Power := .gated
  last : Nat := 0
  deriving DecidableEq, Repr

/-- One bank of an accumulator: its tag, FP64 or FP32, and its 16 KiB (R246). -/
structure Bank where
  fp64 : Bool := false
  mem : Mem := []
  deriving DecidableEq, Repr

/-- An accumulator: working and visible bank (R246). -/
structure Acc where
  work : Bank := {}
  vis : Bank := {}
  deriving DecidableEq, Repr

/-- What an engine command does, with its operands as issued. -/
inductive CmdKind where
  | mgo (acc : Nat) (glob : Word) (lev : List Word)
  | mstep (acc : Nat) (glob : Word) (a b : Nat)
  | mzero (acc : Nat) (fp64 : Bool)
  | mwload (d a b : Word)
  | mdrain (acc : Nat) (tag : Tag) (part : Nat) (slot : Nat)
  | tzero (slot : Nat) (tag : Option Tag)
  | tfill (slot : Nat) (tag : Tag) (v : Word)
  | tident (slot : Nat) (tag : Tag)
  | tclass (slot : Nat)
  | tcopy (slot src : Nat)
  | cpy (two : Bool) (dst src len : Word) (kind : Nat) (tag : Option Tag)
  | ovl (num : Word)
  | dcpy (dst src len : Word) (path : Nat) (ring : Option Nat)
  | rget (dst : Word) (src : Word) (len : Nat) (route : Option (BitVec 52))
  | rput (dst : Word) (src : Word) (len : Nat) (ord : Bool) (route : Option (BitVec 52))
  | rgath (loc : Nat) (idx : VWord) (desc : Word) (n : Nat) (route : Option (BitVec 52))
  | rscat (loc : Nat) (idx : VWord) (desc : Word) (n : Nat) (route : Option (BitVec 52))
  | mcst (off : Nat) (data : List Byte) (mask : BitVec 16)
  | ratom (addr : Word) (v : Word) (land : Nat) (op : Nat) (dword ord : Bool) (route : Option (BitVec 52))
  | binit (addr : Word) (expect : Word)
  | barr (addr : Word) (count : Nat)
  | join
  | stage
  deriving DecidableEq, Repr

/-- A remote request: its flit or lane, whether it was performed at its target, what the reply carries, whether the
reply has landed, the master cycle it was sent in and its fabric link (R318, R321, R437, R438). -/
structure Req where
  idx : Nat
  /-- the request did not reach its target yet, its acknowledgement does not come (R440): inputs set them -/
  held : Bool := false
  mute : Bool := false
  arrived : Bool := false
  data : List Byte := []
  status : Nat := 0
  poison : Bool := false
  landed : Bool := false
  sentAt : Nat := 0
  link : Option Nat := none
  deriving DecidableEq, Repr

/-- An engine command (R250, R272, R282, R316, R349): its number, issuer, token, the unfinished commands it waits for
with the in-field that names each, the fault it inherits with its in-field (R274, R281), and its progress: started, next step, chunk, flit or lane, flags, captured source bytes,
requests, first failure, landing cycle (R326), the regions its writes are dropped in (R303), the slots that were reclaimed
since it was issued (R225). -/
structure Cmd where
  id : Nat
  ctx : Nat
  tok : Tok
  deps : List (Nat × Nat)
  kind : CmdKind
  inFault : Option (Nat × FaultRec) := none
  started : Bool := false
  next : Nat := 0
  nextByte : Nat := 0
  flags : BitVec 7 := 0
  buf : List Byte := []
  reqs : List Req := []
  doneCount : Nat := 0
  ended : Bool := false
  fault : Option FaultRec := none
  issued : Nat := 0
  due : Nat := 0
  drop : List (Nat × Nat) := []
  lost : List Nat := []
  abandoned : Bool := false
  leases : List (Nat × Word) := []
  fromSched : Bool := false
  /-- the engine of a DCPY: 192 and the cluster, or the die and a path engine of it (R349) -/
  eng : Nat × Nat := (0, 0)
  deriving DecidableEq, Repr

/-- An entry of a copy schedule (R287). -/
structure SchedEnt where
  word : Word
  stage : Nat
  deriving DecidableEq, Repr

/-- A residency record (R290). -/
structure Resid where
  ovl : Nat
  image : Nat
  len : Nat
  off : Nat
  res : Bool
  deriving DecidableEq, Repr

/-- The fields of LENDCFG (R294). -/
structure LendCfg where
  active : Bool := false
  busy : Bool := false
  auto : Bool := false
  keep : Bool := false
  share : Nat := 0
  count : Nat := 0
  start : Nat := 0
  deriving DecidableEq, Repr

/-- A revocation in progress (R302): the effective cycle 0, the banks it takes, and `taken` once cycle 1 took them; the
region and its kind, and whether the region is involved (PARK has no region effect). -/
structure Revoke where
  at0 : Nat
  banks : List Nat
  region : Bool
  keep : Bool
  start : Nat
  count : Nat
  taken : Bool := false
  parked : Bool := false
  squashed : Bool := false
  deriving DecidableEq, Repr

/-- A kept copy of a lent region (R304). -/
structure Kept where
  start : Nat
  count : Nat
  mem : Mem
  tiles : List TileEnt
  deriving DecidableEq, Repr

/-- Lending state of a core: LENDCFG, whether a LEND is being completed, the lend and the running banks that a
checkpoint revoked, revocations in progress, the region of the lend last revoked, and its kept copy (R294, R302, R304,
R305, R395). -/
structure Lend where
  cfg : LendCfg := {}
  filling : Bool := false
  resume : Option (LendCfg × List Nat) := none
  rev : List Revoke := []
  last : Option (Nat × Nat) := none
  kept : Option Kept := none
  deriving DecidableEq, Repr

/-- States of an eddy bank (R296). -/
inductive BankSt where
  | free | run | revoking | parked | ending | saving
  deriving DecidableEq, Repr

/-- An eddy bank (R296, R305): `origin` is firmware origin, `lent` says that its eddy is bound under the lend in force
or being revoked, `home` is the region of the lend it was revoked from. -/
structure EddyBank where
  st : BankSt := .free
  origin : Bool := false
  rev : Bool := false
  exit : Nat := 0xFF
  share : Nat := 0
  lent : Bool := false
  home : Option (Nat × Nat) := none
  deriving DecidableEq, Repr

/-- STATE of a bind record (R379). -/
inductive SlotSt where
  | free | bind | run | release
  deriving DecidableEq, Repr

/-- A bind record (R379). -/
structure SlotRec where
  task : Nat := 0
  part : Nat := 0
  prio : Nat := 0
  st : SlotSt := .free
  pool : Nat := 0
  img : Nat := 0
  deriving DecidableEq, Repr

/-- An entry of the displaced-op table (R408). -/
structure Displaced where
  idx : Nat
  off : Nat
  word : Word
  task : Nat
  deriving DecidableEq, Repr

/-- A TLB entry (R345): identity, page base and size in bytes, its physical base, W, D. -/
structure TlbEnt where
  asid : Nat
  va : Nat
  size : Nat
  pa : Nat
  w : Bool
  d : Bool
  deriving DecidableEq, Repr

/-- What the bundles of the running effective cycle have used (R298): units by class number, core weight, whether the
owner issued, and the standing set of each eddy that issued as it stood before its bundle (R203). -/
structure CycleUse where
  cycle : Nat := 0
  units : List Nat := []
  weight : Nat := 0
  owner : Bool := false
  stood : List (Nat × Nat) := []
  deriving DecidableEq, Repr

/-- One core (R1, R6). `onAt` is the master cycle from which the stripes that were last turned on may be used (R358). -/
structure CoreState where
  spad : Mem := []
  spadPoison : List Nat := []
  ispad : Mem := []
  tiles : Vector TileEnt 128
  stripes : Vector Stripe 32
  accs : Vector Acc 4
  shadow : Vector Word 7
  wbuf : Mem := []
  wloaded : BitVec 512 := 0
  cmds : List Cmd := []
  abandon : Bool := false
  sched : List SchedEnt := []
  resid : List Resid := []
  lend : Lend := {}
  banks : Vector EddyBank 3
  slot : SlotRec := {}
  displaced : List Displaced := []
  issueBuf : Option (Nat × List Word) := none
  ctxs : Vector Ctx 4
  tlb : List TlbEnt := []
  copyLeft : Nat := 0xFFFF
  copyBud : Nat := 0xFFFF
  use : CycleUse := {}
  onAt : Nat := 0
  deriving DecidableEq, Repr

/-! ### Cluster, die, package -/

/-- One cluster (R1, R359-R366): `eff` counts effective cycles since the last ungating, `periods` the budget periods
that began since then, `pairs` the interval pairs that ended; `retiring` says that its router is to be
retired once the tasks of the die are saved (R417). -/
structure ClusterState where
  keep : Nat := 12
  pendKeep : Option Nat := none
  integ : Int := 0
  permits : Nat := 64
  cool : Nat := 0
  fall : Bool := false
  grant : Bool := false
  bud : Nat := 0x3FFFFF
  kps : Nat := 12
  kis : Nat := 14
  charge : Nat := 0
  issuedNow : Bool := false
  issuedPrev : Bool := false
  gated : Bool := true
  powerOn : Option Nat := none
  eff : Nat := 0
  periods : Nat := 0
  pairs : Nat := 0
  tlb : List TlbEnt := []
  routerRetired : Bool := false
  retiring : Bool := false
  deriving DecidableEq, Repr

/-- The budgets of one partition on one die (R366). -/
structure DieBudget where
  part : Nat
  copyBud : Option Nat := none
  copyLeft : Nat := 0
  hbmBud : Option Nat := none
  hbmLeft : Nat := 0
  deriving DecidableEq, Repr

/-- One die (R338, R339, R356, R361, R366): whether its weight store is sealed, soft-error counters, budgets, and the
refresh slots, intervals and die periods that ended since reset. -/
structure DieState where
  sealed : Bool := false
  vlogic : Nat := 0
  soft : Vector Nat 16
  budgets : List DieBudget := []
  refresh : Nat := 0
  interval : Nat := 0
  periods : Nat := 0
  deriving DecidableEq, Repr

/-- Bring-up phases (R426, R431). -/
inductive Phase where
  | reset | rom | waitfw | loading | bringup | selftest | ready | failed
  deriving DecidableEq, Repr

/-- Boot and status registers (R426, R431, R434). -/
structure Boot where
  phase : Phase := .reset
  fault : Nat := 0
  fwrev : Nat := 0
  trready : Bool := false
  fwaddr : Word := 0
  fwlen : Nat := 0
  fabid : Nat := 0
  pkg : Nat := 0
  retiredRouters : Nat := 0
  retiredCores : Nat := 0
  dropped : Nat := 0
  deriving DecidableEq, Repr

/-- The host's side (R424-R428): mailbox slot bytes, slots in submit order, host memory, MSI-X vector counts. Log 21, DESIGN CHOICE. -/
structure HostSide where
  slots : Mem := []
  submitted : List Nat := []
  mem : Mem := []
  irq : Vector Nat 4
  deriving DecidableEq, Repr

/-- An overlay of an image: number, placement offset, words (R411). -/
structure Overlay where
  num : Nat
  off : Nat
  words : List Word
  deriving DecidableEq, Repr

/-- A `.tile` image record (R411). -/
structure TileImg where
  slot : Nat
  kind : Nat
  tag : Tag
  cval : Word
  deriving DecidableEq, Repr

/-- A route-table entry and its relocations (R411, R415). -/
structure RouteEnt where
  dcol : Int
  drow : Int
  uses : List (Nat × Nat)
  deriving DecidableEq, Repr

/-- An eddy entry (R411). -/
structure EddyEnt where
  ovl : Nat
  share : Nat
  entry : Nat
  deriving DecidableEq, Repr

/-- A `.keep` or `.discard` region (R411). -/
structure RegionEnt where
  keep : Bool
  start : Nat
  count : Nat
  deriving DecidableEq, Repr

/-- An image (R410-R413). -/
structure Image where
  id : Nat
  mmrev : Nat
  weirf : Nat
  needs : Nat
  extent : Nat
  overlays : List Overlay
  data : List (Nat × List Byte)
  bss : List (Nat × Nat)
  tiles : List TileImg
  launches : List (List Word)
  scheds : List (List SchedEnt)
  routes : List RouteEnt
  regions : List RegionEnt
  eddies : List EddyEnt
  deriving DecidableEq, Repr

/-- A completion ring of a task (R351): ring commands outstanding are counted for R353. -/
structure Ring where
  die : Nat
  num : Nat
  base : Word
  log : Nat
  tail : Nat := 0
  head : Nat := 0
  out : Nat := 0
  deriving DecidableEq, Repr

/-- The trap record that a completion record keeps (R187, R193). -/
structure TrapRec where
  cause : Nat
  pc : BitVec 16
  slot : Nat
  info0 : Word
  info1 : Word
  deriving DecidableEq, Repr

/-- Where a task stands. -/
inductive TaskSt where
  | pending | bound | saved | ended
  deriving DecidableEq, Repr

/-- A saved core image (R398-R401): the core it was saved from, its physical address, and the core's state, which the bytes
of its sections stand for. Log 17, DESIGN CHOICE. -/
structure SavedImage where
  core : Nat
  addr : Nat
  st : CoreState
  deriving DecidableEq, Repr

/-- A task: its launch record of 16 dwords (R374) and what the firmware keeps for it; `ckpt` says that a checkpoint of
it was decided and its contexts stop (R393). -/
structure Task where
  num : Nat
  image : Nat
  record : List Word
  part : Nat
  prio : Nat
  seq : Nat
  device : Bool
  parent : Option Nat := none
  st : TaskSt := .pending
  pool : Option Nat := none
  cores : List Nat := []
  reserved : Nat := 0
  used : Nat := 0
  ntile : Nat := 0
  ranges : List RangeEnt := []
  root : Option Nat := none
  rings : List Ring := []
  privs : List PrivInit := []
  code : Option Nat := none
  debug : Bool := false
  drainAt : Option Nat := none
  node : Option (Nat × Nat) := none
  saved : List SavedImage := []
  harvest : Bool := false
  denials : Nat := 0
  ckpt : Bool := false
  /-- the trap record of its completion record (R187) -/
  trap : Option TrapRec := none
  deriving DecidableEq, Repr

/-- A partition with its floors (R370), DRAINT (R392) and the NI, copy-port and die-copy budgets that the firmware writes from
its settings (R366); 0xFFFF and none are no limit. -/
structure Part where
  num : Nat
  clusters : List Nat
  power : Nat := 0
  hbm : Nat := 0
  issue : Nat := 0xFFFF
  draint : Nat := 600000
  ni : Nat := 0xFFFF
  copy : Nat := 0xFFFF
  dieCopy : Option Nat := none
  deriving DecidableEq, Repr

/-- A graph node: its launch record and predecessor mask, and whether the host replaced it (R386, R388). -/
structure GNode where
  record : List Word
  pred : Nat
  edited : Bool := false
  deriving DecidableEq, Repr

/-- A graph (R386, R388). -/
structure Graph where
  handle : Nat
  owner : Option Nat
  addr : Word
  image : Nat
  sealed : Bool
  reent : Bool
  nodes : List GNode
  deriving DecidableEq, Repr

/-- A graph instance (R387): for each node nothing yet, the task it launched, or the code it ended with. -/
structure GInst where
  num : Nat
  graph : Nat
  compl : Word
  task : Option Nat
  nodes : List (Option Nat × Option Nat)
  pool : Option Nat
  seq : Nat
  deriving DecidableEq, Repr

/-- Firmware state (R373-R392); `deadCores` are the cores that self-test retired (R431). -/
structure Firmware where
  images : List Image := []
  tasks : List Task := []
  parts : List Part := []
  pool : List Nat := []
  graphs : List Graph := []
  insts : List GInst := []
  cap : Nat := 1900
  scaleNum : Nat := 1
  scaleDen : Nat := 1
  reports : List FaultRec := []
  deadCores : List Nat := []
  deriving DecidableEq, Repr

/-- A core of another package: scratchpad bytes, bound task, poisoned rows (R434, R435). Log 26, DESIGN CHOICE. -/
structure Foreign where
  pkg : Nat
  core : Nat
  spad : Mem
  task : Option Nat
  deriving DecidableEq, Repr

/-- A request whose command ended before it was performed in another package (R440): the issuer's core and task. -/
structure Stray where
  core : Nat
  task : Option Nat
  cmd : Cmd
  req : Req
  deriving DecidableEq, Repr

/-- What a request of another package wants of its target (R321, R323, R324). -/
inductive FarOp where
  | read (n : Nat)
  | write (data : List Byte) (poison : Bool)
  | atom (op : Nat) (dword : Bool) (v expect : Word)
  deriving DecidableEq, Repr

/-- A request of another package (R312, R317, R438): its package, source core and context, its sequence number, whether its
command is ordered, the task of its issuer, the target core and offset. -/
structure FarReq where
  pkg : Nat
  core : Nat
  ctx : Nat
  seq : Nat
  ord : Bool
  task : Nat
  target : Nat
  off : Nat
  op : FarOp
  deriving DecidableEq, Repr

/-- The reply to a request of another package (R318). -/
structure FarReply where
  pkg : Nat
  core : Nat
  seq : Nat
  status : Nat
  data : List Byte
  poison : Bool
  deriving DecidableEq, Repr

/-- What comes from outside the package without an event of the opcode table: another package's request (R438), a
request that is not acknowledged, `sent` where it still reaches its target (R440), a request of an ended command that is
performed late (R440), another host's store to a device (R443), poison received from a device (R441); and an uncorrectable error
that a scratchpad row, or a line of memory or of a cache, shows as it is read (R354 to R356). Log 26, DESIGN CHOICE. -/
inductive Abroad where
  | request (r : FarReq)
  | unanswered (core id idx : Nat) (sent : Bool)
  | late (i : Nat)
  | deviceStore (pa : Nat) (bytes : List Byte)
  | devicePoison (line : Nat)
  | rowError (core row : Nat)
  | lineError (line : Nat)
  deriving DecidableEq, Repr

/-- Fabric and CXL (R433-R444): `strays` are this package's requests that may still be performed elsewhere (R440), `seen`
the requests of other packages performed here, by package, core and sequence number, with their replies (R438), and `ordered`
the ordered ones among them (R317). -/
structure Fabric where
  up : BitVec 18 := 0
  neighbour : List (Nat × Nat) := []
  retired : BitVec 18 := 0
  routes : List (Nat × List Nat) := []
  foreign : List Foreign := []
  strays : List Stray := []
  seen : List (Nat × Nat × Nat) := []
  ordered : List FarReq := []
  replies : List FarReply := []
  cxlUp : List Nat := []
  cxlDecs : List (Nat × CxlDecoder) := []
  deriving DecidableEq, Repr

/-- An invalidation that was posted and has not completed (R346). -/
structure Inval where
  num : Nat
  info : InvalInfo
  deriving DecidableEq, Repr

/-- Physical memory as the agents of the package see it (R336), with its poison per 64-byte line (R354), the addresses of
shared CXL regions that are dirty in the caches, and what the devices of those regions hold, with the lines they hold as
poisoned (R177, R441, R443). -/
structure PhysMem where
  mem : Mem := []
  home : Mem := []
  poison : List Nat := []
  homePoison : List Nat := []
  dirty : List Nat := []
  invals : List Inval := []
  migr : List (Nat × MigrateInfo) := []
  deriving DecidableEq, Repr

/-- What an event or a bundle acts for: a core and a context, and a number and an index (Syntax, `Instr`). -/
structure Actor where
  core : Nat := 0
  ctx : Nat := 0
  id : Nat := 0
  idx : Nat := 0
  deriving DecidableEq, Repr

/-- One turn of the running master cycle: an effective cycle of a context, the performing of the oldest entry of
its store queue, an event, or what comes from outside the package. -/
inductive Turn where
  | ctx (core ctx : Nat)
  | perform (core ctx : Nat)
  | event (a : Actor) (i : Instr)
  | abroad (x : Abroad)
  deriving DecidableEq, Repr

/-- What a debugger read returned (R404). -/
structure DbgReply where
  status : BitVec 8
  data : VWord
  deriving DecidableEq, Repr

/-- The whole package. -/
structure State where
  cores : List (Nat × CoreState)
  clusters : Vector ClusterState 192
  dies : Vector DieState 4
  phys : PhysMem
  boot : Boot
  host : HostSide
  fw : Firmware
  fab : Fabric
  master : Nat
  agenda : List Turn
  inputs : List (Actor × Instr)
  abroad : List Abroad
  cur : Actor
  nextId : Nat
  freeCount : Nat
  dbgReply : Option DbgReply
  deriving DecidableEq, Repr

/-- Why the machine stops. -/
inductive Fault where
  /-- raised by a step whose event names a core, cluster, die or command outside the package of R1 (safe: the
  hardware has no such agent) -/
  | noSuchAgent
  deriving DecidableEq, Repr

/-- Why a step is refused. -/
inductive Refusal where
  /-- raised by an arm of `exec` whose instruction has no meaning yet (safe) -/
  | notModelled (mnemonic : String)
  deriving DecidableEq, Repr

/-! ### Reset -/

/-- A context that is not bound: R381's values, reserve 4, nothing held. Log 3, DESIGN CHOICE. -/
def Ctx.reset : Ctx where
  files := { s := .replicate 16 {}, g := .replicate 32 {}, v := .replicate 16 {}, w := .replicate 32 {},
             p := .replicate 16 0, m := .replicate 16 0, b := .replicate 8 0 }
  q := { sq := .replicate 16 none, vq := .replicate 16 none, hq := .replicate 16 none }
  tok := .replicate 63 {}
  dbg := { abp := .replicate 16 0 }

/-- A core after reset: gated (R431), nothing bound. Log 3, DESIGN CHOICE. Log 4, DESIGN CHOICE. -/
def CoreState.reset : CoreState where
  tiles := .replicate 128 {}
  stripes := .replicate 32 {}
  accs := .replicate 4 {}
  shadow := .replicate 7 0
  banks := .replicate 3 {}
  ctxs := .replicate 4 Ctx.reset

/-- The package right after reset (R431, R432): phase RESET, every task, image, graph and pool entry discarded. A
core that is not listed is `CoreState.reset`. Log 3, DESIGN CHOICE. Log 5, DESIGN CHOICE. -/
def State.reset : State where
  cores := []
  clusters := .replicate 192 {}
  dies := .replicate 4 { soft := .replicate 16 0 }
  phys := {}
  boot := {}
  host := { irq := .replicate 4 0 }
  fw := { parts := [{ num := 0, clusters := List.range 192 }] }
  fab := {}
  master := 0
  agenda := []
  inputs := []
  abroad := []
  cur := {}
  nextId := 1
  freeCount := 0
  dbgReply := none

end Sys2Proof.Machine
end

