-- ==== Sys2Proof/Machine/Mem.lean ====
section
/-! DEFINITION. Bytes by address: the canonical form of a memory and every operation on one. -/

namespace Sys2Proof.Machine

/-- What an unlisted address reads as (log 4, DESIGN CHOICE, log 5, DESIGN CHOICE). -/
def Mem.default : Byte := 0

/-- Entries strictly rising from at least `lo`, none equal to the default. -/
def Mem.wfFrom (lo : Nat) : Mem → Bool
  | [] => true
  | (a, b) :: rest => decide (lo ≤ a) && b != Mem.default && Mem.wfFrom (a + 1) rest

/-- The canonical form: addresses strictly rising, no entry equal to what an unlisted address reads as. -/
def Mem.wf (m : Mem) : Bool := Mem.wfFrom 0 m

/-- One byte. -/
def Mem.read (m : Mem) (a : Nat) : Byte :=
  match m with
  | [] => Mem.default
  | (x, b) :: rest => if x = a then b else Mem.read rest a

/-- The entries of a list of bytes that starts at `a`. -/
def Mem.cellsOf (a : Nat) : List Byte → Mem
  | [] => []
  | b :: bs => if b = Mem.default then Mem.cellsOf (a + 1) bs else (a, b) :: Mem.cellsOf (a + 1) bs

/-- The entries below an address. -/
def Mem.below (m : Mem) (a : Nat) : Mem :=
  match m with
  | [] => []
  | c :: rest => if c.1 < a then c :: Mem.below rest a else []

/-- The entries at or above an address. -/
def Mem.above (m : Mem) (a : Nat) : Mem :=
  match m with
  | [] => []
  | c :: rest => if c.1 < a then Mem.above rest a else c :: rest

/-- Writing consecutive bytes from `a`, keeping the canonical form. -/
def Mem.writeBytes (m : Mem) (a : Nat) (bs : List Byte) : Mem :=
  m.below a ++ (Mem.cellsOf a bs ++ m.above (a + bs.length))

/-- Writing one byte. -/
def Mem.write (m : Mem) (a : Nat) (b : Byte) : Mem := m.writeBytes a [b]

/-- Writing bytes at listed addresses, in list order. -/
def Mem.writeCells (m : Mem) (cs : List (Nat × Byte)) : Mem := cs.foldl (fun m c => m.write c.1 c.2) m

/-- The bytes of a run whose entries are `cs`, from address `a`. -/
def Mem.fill : Nat → Nat → Mem → List Byte
  | 0, _, _ => []
  | n + 1, a, [] => Mem.default :: Mem.fill n (a + 1) []
  | n + 1, a, (x, b) :: rest =>
    if x = a then b :: Mem.fill n (a + 1) rest else Mem.default :: Mem.fill n (a + 1) ((x, b) :: rest)

/-- `n` consecutive bytes from `a`. -/
def Mem.readBytes (m : Mem) (a n : Nat) : List Byte := Mem.fill n a (m.above a)

/-- Clearing `n` bytes from `a` to zero. -/
def Mem.clear (m : Mem) (a n : Nat) : Mem := m.below a ++ m.above (a + n)

/-- Little-endian number of a list of bytes (R56). -/
def leNat : List Byte → Nat
  | [] => 0
  | b :: bs => b.toNat + 256 * leNat bs

/-- The `n` little-endian bytes of a number (R56). -/
def leBytes : Nat → Nat → List Byte
  | 0, _ => []
  | n + 1, x => BitVec.ofNat 8 x :: leBytes n (x / 256)

/-- A dword. -/
def Mem.readWord (m : Mem) (a : Nat) : Word := wd (leNat (m.readBytes a 8))
/-- Writing a dword. -/
def Mem.writeWord (m : Mem) (a : Nat) (w : Word) : Mem := m.writeBytes a (leBytes 8 w.toNat)

/-- Inserting a number into a strictly rising list. -/
def setInsert (x : Nat) : List Nat → List Nat
  | [] => [x]
  | y :: ys => if x < y then x :: y :: ys else if x = y then y :: ys else y :: setInsert x ys

/-- Removing a number from a list. -/
def setErase (x : Nat) (l : List Nat) : List Nat := l.filter (· != x)

/-- One bit of the standard CRC-32, reflected. -/
def crcBit (x : BitVec 32) : BitVec 32 := if x.getLsbD 0 then (x >>> 1) ^^^ 0xEDB88320#32 else x >>> 1
/-- One byte. -/
def crcByte (x : BitVec 32) (b : Byte) : BitVec 32 := (List.range 8).foldl (fun y _ => crcBit y) (x ^^^ b.setWidth 32)
/-- The standard CRC-32 of bytes. -/
def crc32 (bs : List Byte) : BitVec 32 := ~~~(bs.foldl crcByte (BitVec.allOnes 32))

end Sys2Proof.Machine
end

