-- ==== Sys2Proof/Machine/Ops.lean ====
section
/-! DEFINITION. The named operations over the state: geometry, accessors of cores and contexts, result queues and
registers, tokens and commands, scratchpad writes, wakes, taking a trap and returning from one. -/

namespace Sys2Proof.Machine

/-! ### Geometry (R1, R23, R311) -/

/-- Cores of the package. -/
def nCores : Nat := 3072
/-- Cluster of a core, 0-191 over the package. -/
def clusterOf (c : Nat) : Nat := c / 16
/-- Die of a core. -/
def dieOf (c : Nat) : Nat := c / 768
/-- Bytes of a scratchpad. -/
def spadSize : Nat := 0x80000
/-- Bytes of a tile slot. -/
def slotSize : Nat := 0x1000
/-- Slot of a scratchpad offset (R219). -/
def slotOf (off : Nat) : Nat := off / slotSize
/-- Stripe of a scratchpad offset (R219). -/
def stripeOf (off : Nat) : Nat := off / 0x4000

/-! ### Accessors -/

/-- Looking a core up in the sparse list. -/
def findCore (l : List (Nat × CoreState)) (c : Nat) : CoreState :=
  match l with
  | [] => CoreState.reset
  | (k, x) :: rest => if k = c then x else findCore rest c

/-- Replacing a core in the sparse list, numbers rising. -/
def putCore (l : List (Nat × CoreState)) (c : Nat) (x : CoreState) : List (Nat × CoreState) :=
  match l with
  | [] => [(c, x)]
  | (k, y) :: rest => if k = c then (c, x) :: rest else if c < k then (c, x) :: (k, y) :: rest
                      else (k, y) :: putCore rest c x

/-- A core. -/
def State.core (s : State) (c : Nat) : CoreState := findCore s.cores c
/-- Replacing a core. -/
def State.setCore (s : State) (c : Nat) (x : CoreState) : State := { s with cores := putCore s.cores c x }
/-- Changing a core. -/
def State.updCore (s : State) (c : Nat) (f : CoreState → CoreState) : State := s.setCore c (f (s.core c))

/-- A context of a core. -/
def CoreState.ctx (x : CoreState) (k : Nat) : Ctx := x.ctxs.get (Fin.ofNat 4 k)
/-- Replacing a context of a core. -/
def CoreState.setCtx (x : CoreState) (k : Nat) (y : Ctx) : CoreState :=
  { x with ctxs := x.ctxs.set (Fin.ofNat 4 k) y }

/-- A context. -/
def State.ctx (s : State) (c k : Nat) : Ctx := (s.core c).ctx k
/-- Changing a context. -/
def State.updCtx (s : State) (c k : Nat) (f : Ctx → Ctx) : State :=
  s.setCore c ((s.core c).setCtx k (f (s.ctx c k)))

/-- The context of the running turn. -/
def State.me (s : State) : Ctx := s.ctx s.cur.core s.cur.ctx
/-- Its core. -/
def State.myCore (s : State) : CoreState := s.core s.cur.core
/-- Changing the context of the running turn. -/
def State.updMe (s : State) (f : Ctx → Ctx) : State := s.updCtx s.cur.core s.cur.ctx f
/-- Changing its core. -/
def State.updMyCore (s : State) (f : CoreState → CoreState) : State := s.updCore s.cur.core f

/-- A cluster. -/
def State.cluster (s : State) (k : Nat) : ClusterState := s.clusters.get (Fin.ofNat 192 k)
/-- Changing a cluster. -/
def State.updCluster (s : State) (k : Nat) (f : ClusterState → ClusterState) : State :=
  { s with clusters := s.clusters.set (Fin.ofNat 192 k) (f (s.cluster k)) }
/-- A die. -/
def State.die (s : State) (d : Nat) : DieState := s.dies.get (Fin.ofNat 4 d)
/-- Changing a die. -/
def State.updDie (s : State) (d : Nat) (f : DieState → DieState) : State :=
  { s with dies := s.dies.set (Fin.ofNat 4 d) (f (s.die d)) }
/-- Changing the firmware's state. -/
def State.updFw (s : State) (f : Firmware → Firmware) : State := { s with fw := f s.fw }

/-- The effective count of a core's cluster. -/
def State.eff (s : State) (c : Nat) : Nat := (s.cluster (clusterOf c)).eff

/-- A task. -/
def State.task (s : State) (n : Nat) : Option Task := s.fw.tasks.find? (fun t => t.num == n)
/-- Changing a task. -/
def State.updTask (s : State) (n : Nat) (f : Task → Task) : State :=
  s.updFw (fun w => { w with tasks := w.tasks.map (fun t => if t.num == n then f t else t) })
/-- The task of the running context. -/
def State.myTask (s : State) : Option Task := s.me.task.bind s.task
/-- An image. -/
def State.image (s : State) (n : Nat) : Option Image := s.fw.images.find? (fun i => i.id == n)

/-- Whether a context is an eddy context (R1). -/
def isEddy (k : Nat) : Bool := k % 4 != 0
/-- The bank of eddy context `k`, 1-3. -/
def CoreState.bank (x : CoreState) (k : Nat) : EddyBank := x.banks.get (Fin.ofNat 3 (k + 2))
/-- Changing a bank. -/
def CoreState.updBank (x : CoreState) (k : Nat) (f : EddyBank → EddyBank) : CoreState :=
  { x with banks := x.banks.set (Fin.ofNat 3 (k + 2)) (f (x.bank k)) }
/-- Whether a context is a firmware-bound eddy (R301). -/
def CoreState.fwEddy (x : CoreState) (k : Nat) : Bool := isEddy k && (x.bank k).origin
/-- Whether any firmware-bound eddy stands in RUN, REVOKING or PARKED (R306). -/
def CoreState.anyFwEddy (x : CoreState) : Bool :=
  [1, 2, 3].any (fun k => (x.bank k).origin &&
    ((x.bank k).st == .run || (x.bank k).st == .revoking || (x.bank k).st == .parked))

/-- CTXID of a context (R23). -/
def ctxidOf (c k : Nat) : Word := wd (4 * c + k)

/-! ### Program counter (R7) -/

/-- Whether an exact target breaks R7. -/
def badTarget (t : Int) : Bool := t < 0 || 0x10000 ≤ t || t % 8 != 0
/-- The offset `n` words on, wrapping (R7). -/
def pcPlus (pc : BitVec 16) (n : Nat) : BitVec 16 := pc + BitVec.ofNat 16 (8 * n)
/-- An offset with its bits [2:0] zero (R7, R194). -/
def alignPc (x : BitVec 16) : BitVec 16 := x &&& 0xFFF8#16

/-! ### Result queues and registers (R8, R12, R14, R21) -/

/-- Pushing onto a queue: the newest first, the entry at age 16 discarded (R8). -/
def pushQ (q : Vector (Option α) 16) (x : α) : Vector (Option α) 16 :=
  Vector.ofFn (fun i : Fin 16 => if h : i.val = 0 then some x else q.get ⟨i.val - 1, by omega⟩)

/-- Pushing a scalar result; in handler mode onto the handler queue (R21). -/
def Ctx.pushS (c : Ctx) (x : SVal) : Ctx :=
  if c.tr.hm then { c with q := { c.q with hq := pushQ c.q.hq x } }
  else { c with q := { c.q with sq := pushQ c.q.sq x } }

/-- Pushing a vector result; in handler mode the vector queue stays frozen (R21). -/
def Ctx.pushV (c : Ctx) (x : VVal) : Ctx :=
  if c.tr.hm then c else { c with q := { c.q with vq := pushQ c.q.vq x } }

/-- Writing a scalar named register (R12, R14). -/
def Ctx.writeS (c : Ctx) (d : DReg) (x : SVal) : Ctx :=
  match d with
  | .near r => { c with files := { c.files with s := c.files.s.set r x } }
  | .far r => { c with files := { c.files with g := c.files.g.set r x } }
  | .pred _ => c

/-- Writing a vector named register (R12, R14). -/
def Ctx.writeV (c : Ctx) (d : DReg) (x : VVal) : Ctx :=
  match d with
  | .near r => { c with files := { c.files with v := c.files.v.set r x } }
  | .far r => { c with files := { c.files with w := c.files.w.set r x } }
  | .pred _ => c

/-- A predicate; p0 always reads all ones (R15). -/
def Ctx.pred (c : Ctx) (p : Fin 16) : PMask := if p = 0 then BitVec.allOnes 256 else c.files.p.get p
/-- Writing a predicate; p0 is never written (R14). -/
def Ctx.writeP (c : Ctx) (p : Fin 16) (x : PMask) : Ctx :=
  if p = 0 then c else { c with files := { c.files with p := c.files.p.set p x } }
/-- A tile predicate; m0 always reads all ones (R231). -/
def Ctx.tpred (c : Ctx) (m : Fin 16) : TMask := if m = 0 then BitVec.allOnes 128 else c.files.m.get m
/-- Writing a tile predicate. -/
def Ctx.writeM (c : Ctx) (m : Fin 16) (x : TMask) : Ctx :=
  if m = 0 then c else { c with files := { c.files with m := c.files.m.set m x } }

/-- A scalar result: pushed, and written when W is set (R14). -/
def Ctx.resultS (c : Ctx) (w : Bool) (d : DReg) (x : SVal) : Ctx :=
  let c := c.pushS x
  if w then c.writeS d x else c
/-- A vector result: pushed, and written when W is set (R14). -/
def Ctx.resultV (c : Ctx) (w : Bool) (d : DReg) (x : VVal) : Ctx :=
  let c := c.pushV x
  if w then c.writeV d x else c

/-- A guard bit (R16). -/
def Ctx.guardBit (c : Ctx) (g : Guard) (i : Nat) : Bool := (c.pred g.p).getLsbD i != g.inv
/-- A tile guard bit (R231). -/
def Ctx.tguardBit (c : Ctx) (g : Guard) (i : Nat) : Bool := (c.tpred g.p).getLsbD i != g.inv

/-! ### Next-tile entries (R389) -/

/-- Entries that have landed. -/
def Ctx.nxLanded (c : Ctx) : Nat := (c.nx.filter (fun e => e.due == 0)).length
/-- The oldest held entry, if it has landed. -/
def Ctx.nxOldest (c : Ctx) : Option Word :=
  match c.nx with
  | e :: _ => if e.due == 0 then some e.val else none
  | [] => none

/-! ### Wakes (R127) -/

/-- Cycles since the WAITEV, IDLE, BWAIT or LEND at the program counter issued, which waits (R126, R127, R305, R331). -/
def Ctx.sinceIssue (c : Ctx) : Nat := if c.waits.waiting then c.waits.since else 0

/-- A bundle that has issued waits: the cycles since its issue are counted from here on (R126, R331). -/
def Ctx.waitOn (c : Ctx) : Ctx := { c with waits := { c.waits with waiting := true, since := c.sinceIssue } }

/-- A sleeping BWAIT is woken and reads its object again (R331). -/
def Ctx.wakeBwait (c : Ctx) : Ctx :=
  if c.waits.asleep.isSome then { c with waits := { c.waits with asleep := none, wakeNow := true } } else c

/-- A wake reaching a context: an idle one wakes, any other keeps it pending (R127); a sleeping BWAIT rereads (R331). -/
def Ctx.wake (c : Ctx) : Ctx :=
  if c.waits.idle then { c with waits := { c.waits with idle := false, wakeNow := true, idleWoken := true } }
  else let c := c.wakeBwait; { c with tr := { c.tr with wake := true } }

/-! ### Tokens (R271-R274) -/

/-- A token. -/
def Ctx.token (c : Ctx) (n : Fin 63) : Token := c.tok.get n
/-- Changing a token. -/
def Ctx.updTok (c : Ctx) (n : Fin 63) (f : Token → Token) : Ctx := { c with tok := c.tok.set n (f (c.tok.get n)) }

/-- The tokens named by in-token fields, each once (R278). -/
def inToks (l : List Tok) : List (Fin 63) :=
  (l.filterMap (fun t => match t with | .k n => some n | .none => none)).eraseDups

/-- Binding an out token to command `id` (R272); a producer that starts no work sets DONE at once (R17). -/
def Ctx.produce (c : Ctx) (t : Tok) (id : Nat) (done : Bool) : Ctx :=
  match t with
  | .k n => c.updTok n (fun _ => { live := true, done := done, cmd := id })
  | .none => c

/-- A command ended: its token becomes DONE with its flags and its fault (R272). A token consumed earlier by TKTEST,
or a command without one, reports its fault and flags as kind A (R184, R274). -/
def Ctx.finish (c : Ctx) (t : Tok) (id : Nat) (fault : Option FaultRec) (flags : BitVec 7) : Ctx :=
  let pendIt (c : Ctx) (fs : BitVec 7) : Ctx :=
    match fault with
    | some r => { c with pend := c.pend ++ [⟨false, r, fs⟩] }
    | none => { c with csr := { c.csr with fpstat := c.csr.fpstat ||| fs } }
  match t with
  | .none => match fault with | some r => { c with pend := c.pend ++ [⟨false, r, 0⟩] } | none => c
  | .k n =>
    let k := c.tok.get n
    if k.cmd = id ∧ k.done = false then
      let c1 := c.updTok n (fun k => { k with done := true, fault := fault, flags := flags, viaTest := false })
      if k.viaTest then pendIt (c1.updTok n (fun k => { k with fault := none, flags := 0 })) flags else c1
    else c

/-! ### Scratchpad writes and tile entries (R223-R229) -/

/-- Whether an element of a tag is a NaN or an infinity, or SCALE8's code 0xFF (R224). -/
def nonFinite (t : Tag) (x : Nat) : Bool :=
  match t with
  | .e4m3 => x % 128 == 0x7F
  | .e5m2 => (x / 4) % 32 == 31
  | .fp16 => (x / 1024) % 32 == 31
  | .bf16 => (x / 128) % 256 == 255
  | .fp32 => (x / 2 ^ 23) % 256 == 255
  | .fp64 => (x / 2 ^ 52) % 2048 == 2047
  | .scale8 => x == 0xFF
  | _ => false

/-- The tile entry of a slot. -/
def CoreState.tile (x : CoreState) (n : Nat) : TileEnt := x.tiles.get (Fin.ofNat 128 n)
/-- Changing a tile entry. -/
def CoreState.updTile (x : CoreState) (n : Nat) (f : TileEnt → TileEnt) : CoreState :=
  { x with tiles := x.tiles.set (Fin.ofNat 128 n) (f (x.tile n)) }
/-- The power state of the stripe that holds an offset. -/
def CoreState.stripe (x : CoreState) (off : Nat) : Stripe := x.stripes.get (Fin.ofNat 32 (stripeOf off))
/-- Whether an offset lies in a gated stripe (R241). -/
def CoreState.gated (x : CoreState) (off : Nat) : Bool := (x.stripe off).pw == .gated
/-- An access at effective cycle `t`: a drowsy stripe wakes (R180, R242). -/
def CoreState.touch (x : CoreState) (off t : Nat) : CoreState :=
  match (x.stripe off).pw with
  | .gated => x
  | _ => { x with stripes := x.stripes.set (Fin.ofNat 32 (stripeOf off)) ⟨.awake, t⟩ }

/-- The stripes a run touches are awake. -/
def CoreState.touchRun (x : CoreState) (off n t : Nat) : CoreState :=
  ((List.range ((n + 0x3FFF) / 0x4000 + 1)).map (fun i => min (off + 0x4000 * i) (off + n - 1))).foldl
    (fun x o => x.touch o t) x

/-- The element that holds offset `off` under the tag of its slot, as a number. -/
def CoreState.elemAt (x : CoreState) (off : Nat) : Nat :=
  let n := tagWidth (x.tile (slotOf off)).tag / 8
  leNat (x.spad.readBytes (off / n * n) n)

/-- The effect of a partial write that wrote offset `off` on its slot's entry, after the bytes landed (R225,
R227). -/
def CoreState.downgrade (x : CoreState) (off : Nat) : CoreState :=
  let nf := nonFinite (x.tile (slotOf off)).tag (x.elemAt off)
  x.updTile (slotOf off) (fun e =>
    if e.st == .filling then { e with spoil := true, nf := e.nf || nf }
    else { e with cls := .general, nf := e.nf || nf })

/-- The rows of 32 bytes that a run covers whole lose their poison (R355). -/
def clearRows (rows : List Nat) (a n unit : Nat) : List Nat :=
  rows.filter (fun r => !(decide (a ≤ r * unit) && decide (r * unit + unit ≤ a + n)))

/-- A partial write of bytes at listed offsets, as one store (R227). -/
def CoreState.spadCells (x : CoreState) (cs : List (Nat × Byte)) : CoreState :=
  let cs := cs.filter (fun c => !x.gated c.1)
  let covered := x.spadPoison.filter (fun r => !((List.range 32).all (fun i => cs.any (fun c => c.1 == 32 * r + i))))
  let x := { x with spad := x.spad.writeCells cs, spadPoison := covered }
  (cs.map (·.1)).foldl CoreState.downgrade x

/-- A partial write of consecutive bytes by any agent: the bytes land, a wholly covered row loses its poison, and
every slot written is downgraded (R227, R355). Bytes of a gated stripe are not written (R243). -/
def CoreState.spadWrite (x : CoreState) (off : Nat) (bs : List Byte) : CoreState :=
  let offs := (List.range bs.length).map (· + off)
  if offs.any x.gated then x.spadCells (offs.zip bs)
  else
    let x := { x with spad := x.spad.writeBytes off bs, spadPoison := clearRows x.spadPoison off bs.length 32 }
    offs.foldl CoreState.downgrade x

/-- A write by the filler of a slot: bytes land with no effect on the entry (R228). -/
def CoreState.fillerWrite (x : CoreState) (off : Nat) (bs : List Byte) : CoreState :=
  { x with spad := x.spad.writeBytes off bs, spadPoison := clearRows x.spadPoison off bs.length 32 }

/-- A write to a slot by a command that was issued to fill it: the filler's write, or, where the slot was reclaimed since,
that of any other agent (R225, R228). -/
def CoreState.fillAt (x : CoreState) (lost : List Nat) (off : Nat) (bs : List Byte) : CoreState :=
  if lost.contains (slotOf off) then x.spadWrite off bs else x.fillerWrite off bs

/-- The entry of a slot at the end of a command that fills or drains it; one that was reclaimed since stays (R225). -/
def CoreState.endTile (x : CoreState) (lost : List Nat) (n : Nat) (f : TileEnt → TileEnt) : CoreState :=
  if lost.contains n then x else x.updTile n f

/-- Whether a read of a run meets a poisoned row (R354). -/
def CoreState.spadBad (x : CoreState) (off n : Nat) : Bool :=
  x.spadPoison.any (fun r => decide (32 * r < off + n) && decide (off < 32 * r + 32))

/-- The encoding of the value one in a tag (R66, R234). -/
def oneOf : Tag → Nat
  | .e4m3 => 0x38
  | .e5m2 => 0x3C
  | .fp16 => 0x3C00
  | .bf16 => 0x3F80
  | .fp32 => 0x3F800000
  | .fp64 => 0x3FF0000000000000
  | _ => 1

/-- The elements of a slot's bytes at a width in bytes. -/
def elems (n : Nat) : Nat → List Byte → List Nat
  | 0, _ => []
  | k + 1, bs => leNat (bs.take n) :: elems n k (bs.drop n)

/-- CLASS and NF of 4,096 bytes under a tag, as a whole-tile writer computes them (R224, R228). IDENT needs the
value one on the diagonal of the 32-row tile view of R222. -/
def classify (t : Tag) (bs : List Byte) : TClass × Bool :=
  let n := tagWidth t / 8
  let es := elems n (slotSize / n) bs
  let per := 128 / n
  let nf := es.any (nonFinite t)
  let c0 := es.headD 0
  if es.all (· == 0) then (.zero, nf)
  else if es.all (· == c0) then (.const, nf)
  else if (isIntTag t || isFpTag t) &&
      es.zipIdx.all (fun p => p.1 == (if p.2 / per == p.2 % per then oneOf t else 0)) then (.ident, nf)
  else (.general, nf)

/-- A whole-tile writer starts on a slot (R225). -/
def startFill (e : TileEnt) : TileEnt := { e with st := .filling, spoil := false, nf := false }
/-- A filler completes (R225). -/
def endFill (tag : Tag) (cls : TClass) (nf : Bool) (e : TileEnt) : TileEnt :=
  { st := .ready, cls := if e.spoil then .general else cls, nf := e.nf || nf, tag := tag, spoil := false }
/-- A filler ends with a fault (R225). -/
def failFill (e : TileEnt) : TileEnt := { e with st := .ready, cls := .general, nf := true }
/-- The reclaim row of R225. -/
def reclaimEnt (e : TileEnt) : TileEnt := { e with nf := false, cls := .zero, st := .ready }

/-- The firmware reads or writes a run of slots: their stripes are awake (R242). -/
def CoreState.touchSlotRun (x : CoreState) (start count t : Nat) : CoreState :=
  (List.range count).foldl (fun x i => x.touch ((start + i) * slotSize) t) x

/-- Reclaiming a run of slots at effective cycle `t`: bytes zero, entries by the reclaim row, which a command that was to
fill one of them does not undo (R225, R242, R303). -/
def CoreState.reclaim (x : CoreState) (start count t : Nat) : CoreState :=
  let x := x.touchSlotRun start count t
  let x := { x with spad := x.spad.clear (start * slotSize) (count * slotSize),
                    spadPoison := x.spadPoison.filter (fun r =>
                      !(decide (start * 128 ≤ r) && decide (r < (start + count) * 128))),
                    cmds := x.cmds.map (fun c => { c with lost := c.lost ++ (List.range count).map (· + start) }) }
  (List.range count).foldl (fun x i => x.updTile (start + i) reclaimEnt) x

/-! ### The lent region (R294, R304, R306) -/

/-- Whether an offset lies in a region of slots. -/
def inRegion (start count off : Nat) : Bool := decide (start ≤ slotOf off) && decide (slotOf off < start + count)

/-- The lent region of a core: that of the lend in force, or of the one that is being revoked until its region is reclaimed
(R294, R302). -/
def CoreState.lentRegion (x : CoreState) : Option (Nat × Nat) :=
  if x.lend.cfg.active then some (x.lend.cfg.start, x.lend.cfg.count)
  else (x.lend.rev.find? (·.region)).map (fun r => (r.start, r.count))

/-- Whether an offset lies in the lent region of a core. -/
def CoreState.inLent (x : CoreState) (off : Nat) : Bool := x.lentRegion.any (fun r => inRegion r.1 r.2 off)

/-- Whether an owner access to an offset stalls: a revocation with a region is between its cycle 1 and its reclaim, or
the kept copy is being written (R304). Log 44, DEDUCED. -/
def CoreState.ownerBlocked (x : CoreState) (off : Nat) : Bool :=
  x.lend.rev.any (fun r => r.region && r.taken && inRegion r.start r.count off) ||
  (x.lend.cfg.busy && inRegion x.lend.cfg.start x.lend.cfg.count off)

/-- The banks that are RUN. -/
def CoreState.runBanks (x : CoreState) : List Nat := [1, 2, 3].filter (fun k => (x.bank k).st == .run)

/-- Beginning a revocation of the lend of a core, cycle 0 of R302: ACTIVE clears, and a record names every bank in RUN,
which is taken from cycle 1 on (`CoreState.takeBanks`), and the region to be reclaimed. With ACTIVE = 0 it does nothing
(R305). -/
def State.startRevoke (s : State) (core : Nat) : State :=
  let x := s.core core
  let l := x.lend
  if l.cfg.active then
    let r : Revoke := { at0 := s.eff core, banks := x.runBanks, region := true, keep := l.cfg.keep, start := l.cfg.start,
                        count := l.cfg.count }
    s.setCore core { x with lend := { l with cfg := { l.cfg with active := false }, rev := l.rev ++ [r],
                                             last := some (l.cfg.start, l.cfg.count) } }
  else s

/-- A bank that a revocation takes: REV is set where it has a region, whose slots are the bank's home (R301, R305). -/
def Revoke.takes (r : Revoke) (b : EddyBank) : EddyBank :=
  if b.st == .run then
    { b with st := .revoking, rev := r.region, home := if r.region then some (r.start, r.count) else b.home }
  else b

/-- Whether a revocation or a park takes its banks in effective cycle `t`: its cycle 1 has come (R302). -/
def Revoke.takesAt (r : Revoke) (t : Nat) : Bool := decide (r.at0 < t) && !r.taken

/-- In cycle 1 of a revocation or a park the banks it names that still run are REVOKING, and it is done with any other: an
eddy that starts in a bank later is none of its (R301, R302); `t` is the running cycle. -/
def CoreState.takeBanks (x : CoreState) (t : Nat) : CoreState :=
  let y := (x.lend.rev.filter (fun r => r.takesAt t)).foldl (fun y r => r.banks.foldl (fun y k => y.updBank k r.takes) y) x
  { y with lend := { y.lend with rev := y.lend.rev.map (fun r =>
      if r.takesAt t then { r with taken := true, banks := r.banks.filter (fun k => (x.bank k).st == .run) } else r) } }

/-- A wake reaching a context, by what it does there; a wake for the owner revokes a lend with AUTO set (R294). -/
def State.wakeBy (s : State) (f : Ctx → Ctx) (core k : Nat) : State :=
  let s := s.updCtx core k f
  if !isEddy k && (s.core core).lend.cfg.auto then s.startRevoke core else s

/-- A wake reaching a context (R127). -/
def State.wakeCtx (s : State) (core k : Nat) : State := s.wakeBy Ctx.wake core k

/-! ### Traps (R182-R191) -/

/-- The kind of a trap (R182). -/
inductive TrapKind where
  | P | E | A
  deriving DecidableEq, Repr

/-- A trap to be taken. -/
structure Trap where
  kind : TrapKind
  cause : Nat
  slot : Nat
  info0 : Word := 0
  info1 : Word := 0
  deriving DecidableEq, Repr

/-- Whether a record is of a failed check of the sequencer, not of an abandoned command (R193, R258). -/
def seqFault (r : FaultRec) : Bool :=
  (r.cause == 0x31 || r.cause == 0x32 || r.cause == 0x33) && bitsOf 11 8 r.info0 == 0 && bitsOf 7 0 r.info1 != 9

/-- A fault of the running context was reported: the sequencer abandons no longer where it was its own (R258). -/
def State.faultReported (s : State) (r : FaultRec) : State :=
  if seqFault r then s.updMyCore (fun x => { x with abandon := false }) else s

/-- Counting an MSI-X vector (R428). -/
def State.raiseIrq (s : State) (v : Nat) : State :=
  { s with host := { s.host with irq := s.host.irq.set (Fin.ofNat 4 v) (s.host.irq.get (Fin.ofNat 4 v) + 1) } }

/-- Reporting to the firmware. -/
def State.report (s : State) (r : FaultRec) : State := s.updFw (fun w => { w with reports := w.reports ++ [r] })

/-- Cycles between the cycle of a trap and that of the first handler op (R188). -/
def entryCycles : Nat := 6

/-- Writing the trap record and entering handler mode (R186): the record, EPC, ESTAT, the handler queue undefined,
the program counter at TRAPVEC; the first handler op issues 7 cycles after the trap (R188). A wake that ended an IDLE
which has not retired stays pending (R127, R129). -/
def Ctx.enter (c : Ctx) (t : Trap) (pc : BitVec 16) (blen : Nat) : Ctx :=
  { c with
    pc := alignPc c.tr.vec
    q := { c.q with hq := Vector.replicate 16 none }
    waits := { c.waits with held := false, waiting := false, since := 0, asleep := none, sleptAt := none, idle := false,
                            wakeIn := entryCycles, wakeNow := false, idleWoken := false, lendOld := none, lendOn := none }
    tr := { c.tr with
            wake := c.tr.wake || c.waits.idleWoken
            cause := BitVec.ofNat 7 t.cause, pc := pc, slot := BitVec.ofNat 5 t.slot, info0 := t.info0,
            info1 := t.info1, epc := pc, hm := true, eng := t.kind == .E,
            blen := if t.kind == .A then 0 else BitVec.ofNat 5 blen } }

/-- The debug issue buffer lets go of a context's bundle (R409). -/
def CoreState.dropBuf (x : CoreState) (k : Nat) : CoreState :=
  { x with issueBuf := if x.issueBuf.map (·.1) == some k then none else x.issueBuf }

/-- Halting a context with a cause. An eddy's bank goes to ENDING, with EXIT for owner origin (R299, R301). Log 90, DEDUCED. -/
def State.haltCtx (s : State) (c k cause : Nat) : State :=
  let s := (s.updCtx c k (fun x => { x with run := .halted cause, waits := {} })).updCore c (fun x => x.dropBuf k)
  if isEddy k then
    s.updCore c (fun x => x.updBank k (fun b =>
      { b with st := .ending, exit := if b.origin then b.exit else cause }))
  else s

/-- The completion record of the running context's task keeps the trap record that halted it; an owner-origin eddy's halt
leaves its task alone (R187, R299). -/
def State.keepRecord (s : State) (r : TrapRec) : State :=
  match s.me.task with
  | some n => if isEddy s.cur.ctx && !s.myCore.fwEddy s.cur.ctx then s else s.updTask n (fun t => { t with trap := some r })
  | none => s

/-- Taking a trap of the running context whose bundle starts at `pc` and has `blen` words: the handler (R186), or a
halt where there is none (R187), or a double trap in handler mode (R191). Log 42, DEDUCED. -/
def State.takeTrap (s : State) (t : Trap) (pc : BitVec 16) (blen : Nat) : State :=
  let c := s.me
  if c.tr.hm then
    let s := s.updMe (fun c => { c with tr := { c.tr with dt := true } })
    let s := s.report ⟨t.cause, t.info0, t.info1⟩
    let s := (s.report ⟨0x5E, wd pc.toNat, 0⟩).raiseIrq 2
    match s.myTask with
    | some k =>
      if k.debug && !isEddy s.cur.ctx then s.updMe (fun c => { c with dbg := { c.dbg with halted := true } })
      else s.haltCtx s.cur.core s.cur.ctx 0x5E
    | none => s.haltCtx s.cur.core s.cur.ctx 0x5E
  else if c.tr.noh then
    let s := (s.updMe (fun c => { c with tr := { c.tr with
      cause := BitVec.ofNat 7 t.cause, pc := pc, slot := BitVec.ofNat 5 t.slot, info0 := t.info0, info1 := t.info1 } })).keepRecord
        ⟨t.cause, pc, t.slot, t.info0, t.info1⟩
    (s.report ⟨t.cause, t.info0, t.info1⟩).haltCtx s.cur.core s.cur.ctx t.cause
  else s.updMe (fun c => c.enter t pc blen)

/-- Returning from handler mode (R198): HM clear, the handler queue discarded, fetch at EPC. -/
def Ctx.eret (c : Ctx) : Ctx :=
  { c with
    pc := alignPc c.tr.epc
    q := { c.q with hq := Vector.replicate 16 none }
    tr := { c.tr with hm := false }
    window := [] }

/-! ### Commands (R250, R272, R282, R316) -/

/-- Adding a command of the running context: a fresh number, the unfinished commands it waits for, and the fault it
inherits (R272, R274). -/
def State.addCmd (s : State) (kind : CmdKind) (out : Tok) (deps : List (Nat × Nat))
    (inFault : Option (Nat × FaultRec)) : State :=
  let id := s.nextId
  let cmd : Cmd := { id := id, ctx := s.cur.ctx, tok := out, deps := deps, kind := kind, inFault := inFault,
                     issued := s.eff s.cur.core }
  let s := { s with nextId := s.nextId + 1 }
  let s := s.updMyCore (fun x => { x with cmds := x.cmds ++ [cmd] })
  s.updMe (fun c => c.produce out id false)

/-- The command of a core with a number. -/
def CoreState.cmd (x : CoreState) (id : Nat) : Option Cmd := x.cmds.find? (fun c => c.id == id)
/-- Changing a command. -/
def CoreState.updCmd (x : CoreState) (id : Nat) (f : Cmd → Cmd) : CoreState :=
  { x with cmds := x.cmds.map (fun c => if c.id == id then f c else c) }

/-- The fault of the lower in-field (R281). Log 53, DEDUCED. -/
def firstFault (a b : Option (Nat × FaultRec)) : Option (Nat × FaultRec) :=
  match a, b with
  | some x, some y => if y.1 < x.1 then some y else some x
  | some x, none => some x
  | none, y => y

/-- What the end of command `id` with token `tok` changes in a command that waits for it: it waits no longer and
inherits the fault (R274); a join gathers the flags (R281); CSTAGE's own command takes only faults of entries without
a token (R289). -/
def Cmd.afterEnd (id : Nat) (tok : Tok) (fault : Option FaultRec) (flags : BitVec 7) (c : Cmd) : Cmd :=
  match c.deps.find? (fun d => d.2 == id) with
  | none => c
  | some d =>
    let f := if c.kind == .stage && tok != .none then none else fault.map (fun r => (d.1, r))
    { c with deps := c.deps.filter (fun d => d.2 != id),
             inFault := firstFault c.inFault f,
             flags := if c.kind == .join then c.flags ||| flags else c.flags }

/-- Ending one command: it leaves its core, its token becomes DONE, and commands that wait for it hear of it (R272,
R274). A replayed entry without a token reports its fault through CSTAGE's command alone (R289). -/
def State.endOne (s : State) (core : Nat) (cmd : Cmd) (fault : Option FaultRec) (flags : BitVec 7) : State :=
  let s := s.updCore core (fun x =>
    { x with cmds := (x.cmds.filter (fun c => c.id != cmd.id)).map (Cmd.afterEnd cmd.id cmd.tok fault flags) })
  if cmd.fromSched && cmd.tok == .none then s
  else s.updCtx core cmd.ctx (fun c => c.finish cmd.tok cmd.id fault flags)

/-- Ending every join that waits for nothing more (R281, R289). Log 53, DEDUCED. -/
def State.settle (core : Nat) : Nat → State → State
  | 0, s => s
  | n + 1, s =>
    match (s.core core).cmds.find? (fun c => (c.kind == .join || c.kind == .stage) && c.deps.isEmpty) with
    | none => s
    | some c => State.settle core n (s.endOne core c (c.inFault.map (·.2)) c.flags)

/-- Ending a command, and every join that thereby ends (R272, R281). -/
def State.endCmd (s : State) (core : Nat) (cmd : Cmd) (fault : Option FaultRec) (flags : BitVec 7) : State :=
  let s := s.endOne core cmd fault flags
  State.settle core (s.core core).cmds.length s

/-- What an op's in-tokens give its command: the commands that are not DONE with their fields, whether or not the token is
LIVE (R275, R282), and the first fault among those that are, which a token that is LIVE 0 gives no longer (R272-R274). -/
def Ctx.depsOf (c : Ctx) (l : List Tok) : List (Nat × Nat) × Option (Nat × FaultRec) :=
  (inToks l).zipIdx.foldl (fun acc p =>
    let k := c.tok.get p.1
    if !k.done then (acc.1 ++ [(p.2, k.cmd)], acc.2)
    else if k.live then (acc.1, firstFault acc.2 (k.fault.map (fun r => (p.2, r))))
    else acc) ([], none)

/-- Consuming in-tokens by an engine op: LIVE clears, nothing is acquired (R272, R273). -/
def Ctx.consume (c : Ctx) (l : List Tok) : Ctx :=
  (inToks l).foldl (fun c n => if (c.tok.get n).live then c.updTok n (fun k => { k with live := false }) else c) c

/-- Consuming tokens by TKWAIT or a TKTEST that finds them DONE: the flags are acquired too (R277, R43). -/
def Ctx.acquire (c : Ctx) (l : List Tok) : Ctx :=
  (inToks l).foldl (fun c n =>
    let k := c.tok.get n
    if k.live then
      { (c.updTok n (fun k => { k with live := false, flags := 0 })) with
        csr := { c.csr with fpstat := c.csr.fpstat ||| k.flags } }
    else c) c

end Sys2Proof.Machine
end

