-- ==== Sys2Proof/Machine/Operands.lean ====
section
/-! DEFINITION. Reading operands: the levels of R65, the special operands of R66, definedness and poison of row 6 of
R80, lanes of a vector value (R130), and the guard merge of R16 and R132. -/

namespace Sys2Proof.Machine

/-! ### Lanes (R130) -/

/-- Lanes of a vector value at an element width. -/
def laneCount (w : Nat) : Nat := 2048 / w

/-- The first `n` elements of width `w` of a number, the lowest first. -/
def splitNat (w : Nat) : Nat → Nat → List Nat
  | 0, _ => []
  | n + 1, x => x % 2 ^ w :: splitNat w n (x / 2 ^ w)

/-- The number whose elements of width `w` are listed, the lowest first. -/
def joinNat (w : Nat) : List Nat → Nat
  | [] => 0
  | x :: xs => x % 2 ^ w + 2 ^ w * joinNat w xs

/-- The elements of a vector value at a width. -/
def lanesOf (w : Nat) (v : VWord) : List Nat := splitNat w (laneCount w) v.toNat
/-- The vector value of a list of elements. -/
def packLanes (w : Nat) (l : List Nat) : VWord := BitVec.ofNat 2048 (joinNat w l)
/-- The same element in every lane. -/
def splat (w x : Nat) : VWord := packLanes w (List.replicate (laneCount w) x)
/-- One lane. -/
def laneAt (w : Nat) (v : VWord) (i : Nat) : Nat := v.toNat / 2 ^ (w * i) % 2 ^ w

/-! ### Scalar and vector operands (R65, R66) -/

/-- A scalar queue entry: the handler queue in handler mode (R21). -/
def Ctx.sqAt (c : Ctx) (r : Fin 16) : Option SVal := if c.tr.hm then c.q.hq.get r else c.q.sq.get r

/-- A scalar operand. `id` is CTXID; `t` is the op's T, or the tag of its result where T is 0xF: the tag a special
operand carries and the format of `one` (R19, R66). -/
def Ctx.readS (c : Ctx) (id : Word) (t : Tag) (o : Operand) : SVal :=
  match o with
  | .queue r => (c.sqAt r).getD {}
  | .near r => c.files.s.get r
  | .far r => c.files.g.get r
  | .zero => { v := 0, tag := t }
  | .one => { v := wd (oneOf t), tag := t }
  | .ones => { v := BitVec.allOnes 64, tag := t }
  | .lane => { v := 0, tag := t }
  | .ctxid => { v := id, tag := t }
  | .core => { v := id >>> 2, tag := t }
  | .nx => { v := c.nxOldest.getD 0, tag := t }
  | .base b => { v := c.files.b.get b, tag := .int64 }
  | .pred p => { v := (c.pred p).setWidth 64, tag := .bits }
  | .badQueue _ | .badNear _ | .special7 => {}

/-- A vector operand whose check requires tag `t`: special operands and predicates carry it, and their lanes are cut at
its width (R19, R66). -/
def Ctx.readV (c : Ctx) (id : Word) (t : Tag) (o : Operand) : VVal :=
  let w := tagWidth t
  match o with
  | .queue r => (c.q.vq.get r).getD {}
  | .near r => c.files.v.get r
  | .far r => c.files.w.get r
  | .zero => { v := 0, tag := t }
  | .one => { v := splat w (oneOf t), tag := t }
  | .ones => { v := BitVec.allOnes 2048, tag := t }
  | .lane => { v := packLanes w (List.range (laneCount w)), tag := t }
  | .ctxid => { v := splat w id.toNat, tag := t }
  | .core => { v := splat w (id >>> 2).toNat, tag := t }
  | .nx => { v := splat w (c.nxOldest.getD 0).toNat, tag := t }
  | .pred p => { v := (c.pred p).setWidth 2048, tag := t }
  | .base _ | .badQueue _ | .badNear _ | .special7 => {}

/-- A special operand passes every tag check (R19). Log 38, DEDUCED. -/
def isSpecial : Operand → Bool
  | .zero | .one | .ones | .lane | .ctxid | .core | .nx | .special7 | .base _ | .pred _ => true
  | _ => false

/-- The tag an operand carries where nothing requires one: a predicate is tagged BITS (R66). -/
def uncheckedTag (o : Operand) (t : Tag) : Tag := match o with | .pred _ => .bits | _ => t
/-- The tag a scalar operand carries where a check requires `t`: a predicate takes it (R19). -/
def checkedTag (t : Tag) (o : Operand) (u : Tag) : Tag := match o with | .pred _ => t | _ => u

/-- CTXID of the running context (R23). -/
def State.myId (s : State) : Word := ctxidOf s.cur.core s.cur.ctx
/-- A scalar operand of the running context. Log 38, DEDUCED. -/
def State.rdS (s : State) (t : Tag) (o : Operand) : SVal := s.me.readS s.myId t o
/-- A vector operand of the running context. Log 38, DEDUCED. -/
def State.rdV (s : State) (t : Tag) (o : Operand) : VVal := s.me.readV s.myId t o
/-- The 64 bits of a scalar operand that no T field governs. -/
def State.val (s : State) (o : Operand) : Word := (s.rdS .int64 o).v

/-! ### Row 6 of R80 -/

/-- Why a source field fails row 6: undefined or unlanded (none), or poisoned with the address it came from. -/
inductive SrcFail where
  | undefined
  | poisoned (va : Word)
  deriving DecidableEq, Repr

/-- The failure of a value read from a register or a queue entry. -/
def ofPoison : Option Word → Option SrcFail
  | some va => some (.poisoned va)
  | none => none

/-- Row 6 for one source field (R11, R21, R179, R389). -/
def Ctx.srcFail (c : Ctx) (x : Src) : Option SrcFail :=
  match x.o with
  | .queue r =>
    if x.vec then
      if c.tr.hm then some .undefined
      else match c.q.vq.get r with | none => some .undefined | some v => ofPoison v.poison
    else match c.sqAt r with | none => some .undefined | some v => ofPoison v.poison
  | .near r => ofPoison (if x.vec then (c.files.v.get r).poison else (c.files.s.get r).poison)
  | .far r => ofPoison (if x.vec then (c.files.w.get r).poison else (c.files.g.get r).poison)
  | .nx => if c.nxOldest.isSome then none else some .undefined
  | _ => none

/-- The order of row 6: A, B, C, D, then the `nx` fields (R80). -/
def row6Order (l : List Src) : List Src :=
  [0, 1, 2, 3].flatMap (fun n => l.filter (fun x => x.o != .nx && x.idx == n)) ++ l.filter (fun x => x.o == .nx)

/-! ### Guards (R16, R17, R132) -/

/-- Whether a scalar op is active: guard bit 0 (R16). -/
def State.active (s : State) (g : Guard) : Bool := s.me.guardBit g 0
/-- The guard bits of the first `n` lanes. -/
def State.laneMask (s : State) (g : Guard) (n : Nat) : List Bool := (List.range n).map (s.me.guardBit g)

/-- Merging result lanes of width `w` under a guard: an inactive lane takes the bits of `first` at the same
positions, or zero where there is no vector `first`; with no lane active `first` itself is delivered (R132). -/
def mergeV (w : Nat) (tag : Tag) (mask : List Bool) (first : Option VVal) (res : List Nat) : VVal :=
  match first with
  | some a =>
    if mask.any id then
      { v := packLanes w ((mask.zip (res.zip (lanesOf w a.v))).map (fun p => if p.1 then p.2.1 else p.2.2)), tag := tag }
    else { v := a.v, tag := a.tag }
  | none => { v := packLanes w ((mask.zip res).map (fun p => if p.1 then p.2 else 0)), tag := tag }

/-- Placing an element in 64 bits (R134); an LC8 element is zero-extended. Log 102, DESIGN CHOICE. -/
def placeElem (t : Tag) (x : Nat) : Word :=
  if isIntTag t && t != .uint8 then
    let w := tagWidth t
    wdi (if 2 ^ (w - 1) ≤ x % 2 ^ w then (x % 2 ^ w : Nat) - (2 ^ w : Int) else (x % 2 ^ w : Nat))
  else wd (x % 2 ^ tagWidth t)

end Sys2Proof.Machine
end

