-- ==== Sys2Proof/Machine/Flags.lean ====
section
/-! DEFINITION. FPCTL and FPSTAT (R40, R41), the effective rounding mode (R34, R35), and the choice of an arithmetic
trap from the flags of a bundle (R42, R193). -/

namespace Sys2Proof.Machine

/-- FPCTL.RM (R41). -/
def fpctlRM (x : BitVec 12) : RMode := rmOf (x.extractLsb' 0 3)

/-- What a write stores in FPCTL: bits [4:3] stay zero, RM 7 stores 0 (R41). -/
def fpctlStore (v : Word) : BitVec 12 :=
  let x : BitVec 12 := v.setWidth 12 &&& 0xFE7#12
  if x.extractLsb' 0 3 = 7#3 then x &&& 0xFF8#12 else x

/-- The effective rounding mode; outside the converter a dynamic mode 5 rounds RNE (R34, R35). -/
def Ctx.effRM (c : Ctx) (conv : Bool) (rm : RMode) : RMode :=
  match rm with
  | .dyn => let m := fpctlRM c.csr.fpctl; if m == .stoch && !conv then .rne else m
  | m => m

/-- The flags an op raises, each with the lane or position that TRAPINFO0 names, first reported first (R42, R193). -/
abbrev LaneFlags := List (Nat × Flags)

/-- The OR of the flags of an op. -/
def orFlags (l : LaneFlags) : Flags := l.foldl (fun a p => a ||| p.2) 0

/-- The flag bits in ascending order of cause, with their enable bits in FPCTL (R41). -/
def flagCauses : List (Nat × Nat × Nat) :=
  [(6, 10, 0x10), (0, 5, 0x11), (1, 6, 0x12), (2, 7, 0x13), (3, 8, 0x14), (4, 9, 0x15), (5, 11, 0x16)]

/-- The first op, with its first lane, that raised a flag bit. -/
def firstRaised (bit : Nat) : List (Nat × LaneFlags) → Option (Nat × Nat)
  | [] => none
  | (slot, l) :: rest =>
    match l.find? (fun p => p.2.getLsbD bit) with
    | some p => some (slot, p.1)
    | none => firstRaised bit rest

/-- The arithmetic trap of a bundle: the lowest cause among the enabled flags raised (R42). -/
def flagTrap (fpctl : BitVec 12) (ops : List (Nat × LaneFlags)) : Option Trap :=
  let all := orFlags (ops.map (fun p => (0, orFlags p.2)))
  flagCauses.findSome? (fun f =>
    if all.getLsbD f.1 && fpctl.getLsbD f.2.1 then
      match firstRaised f.1 ops with
      | some (slot, lane) =>
        some { kind := .P, cause := f.2.2, slot := slot, info0 := wd lane, info1 := all.setWidth 64 }
      | none => none
    else none)

/-- The flags of result lanes under a guard: inactive lanes raise none (R17). -/
def laneFlags (mask : List Bool) (res : List FRes) : LaneFlags :=
  (mask.zip res).zipIdx.filterMap (fun p => if p.1.1 && p.1.2.2 != 0 then some (p.2, p.1.2.2) else none)

end Sys2Proof.Machine
end

