-- ==== Sys2Proof/Machine/Access.lean ====
section
/-! DEFINITION. Context and engine access to memory: the address map (R164, R336), translation (R341-R345), loads
and the performing of stores (R166, R167, R177, R179, R355). -/

namespace Sys2Proof.Machine

/-! ### The physical map (R336, R442) -/

/-- What a physical address names. -/
inductive PhysTarget where
  | hbm
  | weights (die : Nat)
  | cxl (port : Nat) (shared : Bool)
  | nothing
  deriving DecidableEq, Repr

/-- The target of a physical address (R336); a CXL address that no decoder covers names nothing (R442). -/
def State.physTarget (s : State) (pa : Nat) : PhysTarget :=
  if pa < 0x6000000000 then .hbm
  else if pa < 0x6100000000 then .weights ((pa - 0x6000000000) / 0x40000000)
  else if 2 ^ 48 ≤ pa ∧ pa < 2 ^ 49 then
    let port := (pa - 2 ^ 48) / 2 ^ 46
    match s.fab.cxlDecs.find? (fun d => d.1 == port && decide (d.2.base ≤ pa) && decide (pa < d.2.base + d.2.len)) with
    | some d => .cxl port d.2.shared
    | none => .nothing
  else .nothing

/-- Whether the port of a CXL address is down (R444). Log 62, DEDUCED. -/
def State.portDown (s : State) (pa : Nat) : Bool :=
  match s.physTarget pa with
  | .cxl p _ => !s.fab.cxlUp.contains p
  | _ => false

/-- Whether a run of at most a slice lies in memory that the firmware stores to as it works: HBM or CXL, and no weight store,
which is written from the host's images alone (R336, R338). -/
def State.fwStores (s : State) (pa n : Nat) : Bool :=
  [pa, pa + n - 1].all (fun a => match s.physTarget a with | .hbm | .cxl .. => true | _ => false)

/-- Whether an address lies in a shared CXL region (R443). -/
def State.shared (s : State) (pa : Nat) : Bool :=
  match s.physTarget pa with
  | .cxl _ sh => sh
  | _ => false

/-- Marking a run of a shared CXL region as dirty in the caches (R177, R443). -/
def State.dirtyRun (s : State) (pa n : Nat) : List Nat :=
  if s.shared pa then (List.range n).foldl (fun d i => setInsert (pa + i) d) s.phys.dirty else s.phys.dirty

/-! ### Translation (R341-R345, R348) -/

/-- The outcome of translating one address. -/
inductive Xlat where
  | ok (pa : Nat)
  | noTranslation
  | noPermission
  | migrating
  deriving DecidableEq, Repr

/-- What a walk leaves behind: the leaf entry with A and D set (R344), and a TLB entry. -/
structure WalkFx where
  entryPa : Nat
  entry : Word
  tlb : TlbEnt
  deriving DecidableEq, Repr

/-- A range entry that covers the address: its physical address and W (R342). -/
def rangeHit (ents : List RangeEnt) (va : Nat) : Option (Nat × Bool) :=
  match ents with
  | [] => none
  | e :: rest =>
    if bitAt 0 e.w0 && decide (bitsOf 56 12 e.w0 ≤ va / 4096 % 2 ^ 45) && decide (va / 4096 % 2 ^ 45 ≤ bitsOf 56 12 e.w1)
    then some ((va % 2 ^ 52 + bitsOf 51 12 e.w2 * 4096) % 2 ^ 52, bitAt 1 e.w0)
    else rangeHit rest va

/-- The entries of an aligned group agree apart from PA, A and D, and their PAs are consecutive (R343; the device
itself sets A and D, log 10, DEDUCED). -/
def contOk (m : Mem) (first n step : Nat) : Bool :=
  let es := (List.range n).map (fun i => m.readWord (first + 8 * i))
  let e0 := es.headD 0
  let strip (e : Word) : Nat := bitsOf 63 52 e * 2 ^ 12 + bitsOf 11 7 e * 2 ^ 7 + bitsOf 4 0 e
  es.zipIdx.all (fun p => strip p.1 == strip e0 && bitsOf 51 12 p.1 == bitsOf 51 12 e0 + p.2 * step)

/-- The page walk from the table at `table`, level `lvl` (R343, R344). -/
def walk (m : Mem) (asid va : Nat) (wr : Bool) : Nat → Nat → Xlat × Option WalkFx
  | 0, _ => (.noTranslation, none)
  | lvl + 1, table =>
    let sh := 12 + 9 * lvl
    let idx := va / 2 ^ sh % 512
    let ea := table + 8 * idx
    let e := m.readWord ea
    if bitsOf 63 52 e != 0 || bitsOf 11 9 e != 0 || !bitAt 0 e then (.noTranslation, none)
    else if bitAt 1 e then
      let cont := bitAt 8 e
      let bad :=
        match lvl with
        | 0 => cont && !contOk m (table + 8 * (idx / 16 * 16)) 16 1
        | 1 => bitsOf 20 12 e != 0
        | 2 => bitsOf 29 12 e != 0 || (cont && !contOk m (table + 8 * (idx / 4 * 4)) 4 (2 ^ 18))
        | _ => true
      if bad then (.noTranslation, none)
      else if bitAt 7 e then (.migrating, none)
      else if wr && !bitAt 2 e then (.noPermission, none)
      else
        let pa := bitsOf 51 12 e * 4096 + va % 2 ^ sh
        let e' := e ||| 0x20#64 ||| (if wr then 0x40#64 else 0#64)
        (.ok pa, some ⟨ea, e', ⟨asid, va / 2 ^ sh * 2 ^ sh, 2 ^ sh, bitsOf 51 12 e * 4096, bitAt 2 e, bitAt 6 e'⟩⟩)
    else if lvl = 0 then (.noTranslation, none)
    else walk m asid va wr lvl (bitsOf 51 12 e * 4096)

/-- A leaf of the page table: the address of its entry, the entry, its level, and the bytes of its page. -/
structure Leaf where
  ea : Nat
  entry : Word
  lvl : Nat
  size : Nat
  deriving DecidableEq, Repr

/-- The leaf that translates an address, whatever its MIG and W. -/
def leafOf (m : Mem) (va : Nat) : Nat → Nat → Option Leaf
  | 0, _ => none
  | lvl + 1, table =>
    let sh := 12 + 9 * lvl
    let ea := table + 8 * (va / 2 ^ sh % 512)
    let e := m.readWord ea
    if !bitAt 0 e then none
    else if bitAt 1 e then some ⟨ea, e, lvl, 2 ^ sh⟩
    else leafOf m va lvl (bitsOf 51 12 e * 4096)

/-- The leaf of a task's address. -/
def State.leafAt (s : State) (task : Option Task) (va : Nat) : Option Leaf :=
  match task.bind (·.root) with | some r => leafOf s.phys.mem va 5 (r * 4096) | none => none

/-- The physical address that an address of a task stands at, whatever its MIG and W (R342, R343). -/
def State.homeOf (s : State) (task : Option Task) (va : Nat) : Option Nat :=
  match rangeHit ((task.map (·.ranges)).getD []) va with
  | some (pa, _) => some pa
  | none => (s.leafAt task va).map (fun l => bitsOf 51 12 l.entry * 4096 + va % l.size)

/-- A TLB entry that serves the access; one with D = 0 does not serve a write (R344, R345). -/
def tlbHit (l : List TlbEnt) (asid va : Nat) (wr : Bool) : Option TlbEnt :=
  l.find? (fun e => e.asid == asid && decide (e.va ≤ va) && decide (va < e.va + e.size) && (!wr || (e.w && e.d)))

/-- Translating an address for a task on a core, with what a walk leaves behind (R341). -/
def State.xlate (s : State) (core : Nat) (task : Option Task) (va : Nat) (wr : Bool) : Xlat × Option WalkFx :=
  if 2 ^ 57 ≤ va then (.noTranslation, none)
  else
    match task with
    | none => (.noTranslation, none)
    | some t =>
      match rangeHit t.ranges va with
      | some (pa, w) => if wr && !w then (.noPermission, none) else (.ok pa, none)
      | none =>
        match tlbHit (s.core core).tlb t.num va wr with
        | some e => (.ok (e.pa + (va - e.va)), none)
        | none =>
          match tlbHit (s.cluster (clusterOf core)).tlb t.num va wr with
          | some e => (.ok (e.pa + (va - e.va)), none)
          | none =>
            match t.root with
            | none => (.noTranslation, none)
            | some r => walk s.phys.mem t.num va wr 5 (r * 4096)

/-- Translation followed by the checks of the physical map (R336, R338): the last row of R336 gives no translation,
a write to the weight store no permission. -/
def State.xlateFull (s : State) (core : Nat) (task : Option Task) (va : Nat) (wr : Bool) : Xlat :=
  match (s.xlate core task va wr).1 with
  | .ok pa =>
    match s.physTarget pa with
    | .nothing => .noTranslation
    | .weights _ => if wr then .noPermission else .ok pa
    | _ => .ok pa
  | r => r

/-- What a translation leaves behind: A and D in the entry, and the new entries of the core's 64 and the cluster's
2,048 (R344, R345). -/
def State.xlateFx (s : State) (core : Nat) (task : Option Task) (va : Nat) (wr : Bool) : State :=
  match (s.xlate core task va wr).2 with
  | none => s
  | some f =>
    let s := { s with phys := { s.phys with mem := s.phys.mem.writeWord f.entryPa f.entry } }
    let s := s.updCore core (fun x => { x with tlb := (f.tlb :: x.tlb).take 64 })
    s.updCluster (clusterOf core) (fun k => { k with tlb := (f.tlb :: k.tlb).take 2048 })

/-! ### Addresses of a context (R164, R165) -/

/-- What an address names for a core's own accesses. -/
inductive VTarget where
  | own (off : Nat)
  | bad
  | mapped
  deriving DecidableEq, Repr

/-- The map of R164 for one byte. -/
def State.vtarget (s : State) (core : Nat) (va : Nat) : VTarget :=
  if va < spadSize then .own va
  else if va / 2 ^ 56 = 0xFE then
    if bitsOf 31 19 (wd va) = 0 ∧ bitsOf 55 44 (wd va) = s.boot.pkg ∧ bitsOf 43 42 (wd va) * 768 +
        bitsOf 41 36 (wd va) * 16 + bitsOf 35 32 (wd va) = core ∧ bitsOf 41 36 (wd va) < 48
    then .own (va % spadSize) else .bad
  else .mapped

/-- The `n` byte addresses from `va`, modulo 2^64. -/
def vas (va : Word) (n : Nat) : List Nat := (List.range n).map (fun i => (va.toNat + i) % 2 ^ 64)

/-- Range check of one access: all bytes in the scratchpad, or all translated (R164, R165). -/
def State.rangeBad (s : State) (core : Nat) (va : Word) (n : Nat) : Bool :=
  let ts := (vas va n).map (s.vtarget core)
  ts.any (· == .bad) ||
  (ts.any (fun t => match t with | .own _ => true | _ => false) && ts.any (· == .mapped))

/-- An access of a bundle to be checked under R178. `whole` is the contiguous vector access it is part of. -/
structure Acc1 where
  lane : Nat
  va : Word
  n : Nat
  kind : Nat
  priv : Option (Nat × Nat) := none
  aligned : Bool := false
  mixed : Bool := false
  deriving DecidableEq, Repr

/-- Whether an access writes (R178 row 5). -/
def Acc1.writes (a : Acc1) : Bool := a.kind == 1 || a.kind == 2

/-- The pages an access touches: the address of its first byte in each. -/
def pagesOf (va : Word) (n : Nat) : List Nat :=
  if va.toNat / 4096 = (va.toNat + n - 1) / 4096 then [va.toNat]
  else [va.toNat, ((va.toNat + n - 1) / 4096 * 4096) % 2 ^ 64]

/-- Whether the first byte of an access is translated. -/
def State.isMapped (s : State) (core : Nat) (va : Word) : Bool := s.vtarget core va.toNat == .mapped

/-- The scratchpad offset of an access that lies in the own scratchpad. -/
def State.ownOff (s : State) (core : Nat) (va : Word) : Option Nat :=
  match s.vtarget core va.toNat with
  | .own o => some o
  | _ => none

/-- The isolation of firmware-bound eddies (R306): the eddy outside the lent region, the owner inside it. -/
def State.isolated (s : State) (core k off n : Nat) : Bool :=
  let x := s.core core
  if x.fwEddy k then !(x.inLent off && x.inLent (off + n - 1))
  else !isEddy k && x.anyFwEddy && (x.inLent off || x.inLent (off + n - 1))

/-- Whether an access fails row `row` of R178, with the cause. A CWB or CINV at another core's scratchpad fails row 2 as every access
of R164 does. Log 111, DESIGN CHOICE. -/
def State.accFails (s : State) (core k : Nat) (task : Option Task) (a : Acc1) (row : Nat) : Option Nat :=
  match row with
  | 1 => if a.aligned && a.va.toNat % a.n != 0 then some 0x22 else none
  | 2 =>
    if (match a.priv with | some (o, size) => decide (size < o + a.n) | none => false) || a.mixed ||
        s.rangeBad core a.va a.n then some 0x24 else none
  | 3 =>
    match s.ownOff core a.va with
    | some o => if a.kind != 3 && (List.range a.n).any (fun i => (s.core core).gated (o + i)) then some 0x25 else none
    | none => none
  | 4 =>
    if s.isMapped core a.va then
      if (pagesOf a.va a.n).any (fun v => s.xlateFull core task v a.writes == .noTranslation) then some 0x20 else none
    else none
  | _ =>
    match s.ownOff core a.va with
    | some o => if a.kind != 3 && s.isolated core k o a.n then some 0x21 else none
    | none =>
      if (pagesOf a.va a.n).any (fun v => s.xlateFull core task v a.writes == .noPermission) then some 0x21 else none

/-- Whether an access waits on a migrating page (R348). -/
def State.accMigrating (s : State) (core : Nat) (task : Option Task) (a : Acc1) : Bool :=
  s.isMapped core a.va && (pagesOf a.va a.n).any (fun v => s.xlateFull core task v a.writes == .migrating)

/-- Where the `n` bytes from `va` lie, for an access that passed R178. -/
def State.locs (s : State) (core : Nat) (task : Option Task) (va : Word) (n : Nat) (wr : Bool) : List Loc :=
  (vas va n).map (fun v =>
    match s.vtarget core v with
    | .own o => .spad o
    | _ => match (s.xlate core task v wr).1 with | .ok pa => .phys pa | _ => .phys 0)

/-- The walks of an access (R344). -/
def State.touchAcc (s : State) (core : Nat) (task : Option Task) (a : Acc1) : State :=
  if s.isMapped core a.va then (pagesOf a.va a.n).foldl (fun s v => s.xlateFx core task v a.writes) s
  else
    match s.ownOff core a.va with
    | some o => s.updCore core (fun x => (x.touch o (s.eff core)).touch (o + a.n - 1) (s.eff core))
    | none => s

/-! ### Loads (R166, R179) -/

/-- A byte as memory holds it. -/
def State.memByte (s : State) (core : Nat) (l : Loc) : Byte :=
  match l with
  | .spad o => (s.core core).spad.read o
  | .phys p => if s.portDown p then 0 else s.phys.mem.read p

/-- Whether memory's byte is poisoned (R354, R444). -/
def State.memPoison (s : State) (core : Nat) (l : Loc) : Bool :=
  match l with
  | .spad o => (s.core core).spadPoison.contains (o / 32)
  | .phys p => s.phys.poison.contains (p / 64) || s.portDown p

/-- The little-endian number at some locations, and whether any is poisoned (R179). -/
def State.loadNat (s : State) (core : Nat) (ls : List Loc) : Nat × Bool :=
  (leNat (ls.map (s.memByte core)), ls.any (s.memPoison core))

/-! ### Performing stores (R166, R177, R227, R355, R443, R444) -/

/-- Writing bytes to physical memory: a port that is down drops them (R444), a wholly covered poisoned line is
cleared (R355), bytes of shared CXL regions become dirty (R443). -/
def State.physCells (s : State) (cs : List (Nat × Byte)) : State :=
  let cs := cs.filter (fun c => !s.portDown c.1)
  let poison := s.phys.poison.filter (fun r =>
    !((List.range 64).all (fun i => cs.any (fun c => c.1 == 64 * r + i))))
  let dirty := cs.foldl (fun d c => if s.shared c.1 then setInsert c.1 d else d) s.phys.dirty
  { s with phys := { s.phys with mem := s.phys.mem.writeCells cs, poison := poison, dirty := dirty } }

/-- The dirty bytes of a line of a shared CXL region, with their values. -/
def State.dirtyCells (s : State) (line : Nat) : List (Nat × Byte) :=
  (s.phys.dirty.filter (fun a => a / 64 == line)).map (fun a => (a, s.phys.mem.read a))

/-- Writing the dirty bytes of a line of a shared CXL region back to its device (R177, R443): a poisoned line stays poisoned
there, one wholly written is cleared (R354, R355); a port that is down takes nothing (R444). -/
def State.writeBack (s : State) (line : Nat) : State :=
  let cs := s.dirtyCells line
  if cs.isEmpty || s.portDown (64 * line) then s
  else
    let poison :=
      if s.phys.poison.contains line then setInsert line s.phys.homePoison
      else if cs.length = 64 then setErase line s.phys.homePoison
      else s.phys.homePoison
    { s with phys := { s.phys with home := s.phys.home.writeCells cs, homePoison := poison,
                                   dirty := s.phys.dirty.filter (fun a => a / 64 != line) } }

/-- A line of a shared CXL region that no cache holds any more reads as its device has it, with its poison; in other
memory the caches are coherent and nothing changes (R177, R337, R443). -/
def State.refetch (s : State) (line : Nat) : State :=
  if s.shared (64 * line) && !s.portDown (64 * line) then
    { s with phys := { s.phys with
        mem := s.phys.mem.writeBytes (64 * line) (s.phys.home.readBytes (64 * line) 64)
        poison := if s.phys.homePoison.contains line then setInsert line s.phys.poison else setErase line s.phys.poison } }
  else s

/-- Performing one store-queue entry of a core's context, at every scope (log 12, DESIGN CHOICE). A store wakes the
stripes it writes (R242). A CINV writes the line back and removes it, so that a later load has it from its home (R177). -/
def State.performEnt (s : State) (core : Nat) (e : StoreEnt) : State :=
  match e with
  | .store cs =>
    let sp := cs.filterMap (fun c => match c.1 with | .spad o => some (o, c.2) | _ => none)
    let ph := cs.filterMap (fun c => match c.1 with | .phys p => some (p, c.2) | _ => none)
    let s := if sp.isEmpty then s
      else s.updCore core (fun x => (sp.foldl (fun (x : CoreState) c => x.touch c.1 (s.eff core)) x).spadCells sp)
    if ph.isEmpty then s else s.physCells ph
  | .cwb l => s.writeBack l
  | .cinv l => (s.writeBack l).refetch l
  | .mark => s

/-- The first entries of a context's store queue leave it; a MARK among them leaves the load queue too, where no load waits
before it (R166, R169; log 12, DESIGN CHOICE). -/
def Ctx.leaveQueues (c : Ctx) (n : Nat) : Ctx :=
  { c with storeQ := c.storeQ.drop n, loadQ := c.loadQ.drop ((c.storeQ.take n).count .mark) }

/-- Performing the first entries of a context's store queue, in order (R166). -/
def State.performFirst (s : State) (core k n : Nat) : State :=
  ((s.ctx core k).storeQ.take n).foldl (fun s e => s.performEnt core e) (s.updCtx core k (fun c => c.leaveQueues n))

/-- Performing the oldest entry of a context's store queue. -/
def State.performOne (s : State) (core k : Nat) : State := s.performFirst core k 1

/-- Performing every entry of a context's queues, in order (R166). Log 12, DESIGN CHOICE. Log 73, DEDUCED. -/
def State.drain (s : State) (core k : Nat) : State := s.performFirst core k (s.ctx core k).storeQ.length

/-- The word a byte lies in (R165). -/
def Loc.word : Loc → Loc
  | .spad o => .spad (o / 8)
  | .phys p => .phys (p / 8)

/-- Whether an entry of a store queue is performed before a load of some bytes: a store that touches a word of them, a CWB or
CINV, which counts as a store to every word of its line, and a MARK (R165, R167, R169, R177). -/
def StoreEnt.before (ls : List Loc) : StoreEnt → Bool
  | .store cs => cs.any (fun c => (ls.map Loc.word).contains c.1.word)
  | .cwb l | .cinv l => (List.range 8).any (fun i => (ls.map Loc.word).contains (.phys (8 * l + i)))
  | .mark => true

/-- How many entries of a store queue stand at or before the last that is performed before a load of some bytes (R167, R169). -/
def touching (ls : List Loc) : List StoreEnt → Nat
  | [] => 0
  | e :: rest =>
    let n := touching ls rest
    if n ≠ 0 then n + 1 else if e.before ls then 1 else 0

/-- Before a load: what R167 and R169 order before it is performed, and with it every entry before that (R166). -/
def State.drainFor (s : State) (core k : Nat) (ls : List Loc) : State :=
  s.performFirst core k (touching ls (s.ctx core k).storeQ)

/-- Draining the running context's store queue. Log 88, DEDUCED. -/
def State.drainMe (s : State) : State := s.drain s.cur.core s.cur.ctx

/-- Placing a store of the running context in its store queue (R58, R166). -/
def State.enqueue (s : State) (e : StoreEnt) : State := s.updMe (fun c => { c with storeQ := c.storeQ ++ [e] })

/-- A MARK of the running context enters both queues (R166, R169). -/
def State.enqueueMark (s : State) : State :=
  s.updMe (fun c => { c with storeQ := c.storeQ ++ [.mark], loadQ := c.loadQ ++ [.mark] })

end Sys2Proof.Machine
end

