-- ==== Sys2Proof/Machine/Sleep.lean ====
section
/-! DEFINITION. Places in scratchpads, who may reach them, and the SLEEP bit of a context in a barrier object, which is
cleared where the context is taken while it sleeps (R311, R312, R327, R328, R331, R335). -/

namespace Sys2Proof.Machine

/-! ### Places (R311, R312) -/

/-- A place in a scratchpad: package, core and offset. -/
structure Place where
  pkg : Nat
  core : Nat
  off : Nat
  deriving DecidableEq, Repr

/-- The place a remote address names, for an issuing core, or none where it is of neither form (R311). -/
def State.place (s : State) (core : Nat) (va : Word) : Option Place :=
  if va.toNat < spadSize then some ⟨s.boot.pkg, core, va.toNat⟩
  else if bitsOf 63 56 va = 0xFE ∧ bitsOf 31 19 va = 0 ∧ bitsOf 41 36 va < 48 then
    some ⟨bitsOf 55 44 va, bitsOf 43 42 va * 768 + bitsOf 41 36 va * 16 + bitsOf 35 32 va, bitsOf 18 0 va⟩
  else none

/-- Whether a firmware-bound eddy is bound in the lent region: under the lend, or under an earlier one of the same slots (R305,
R312). -/
def CoreState.boundInLent (x : CoreState) (k : Nat) : Bool :=
  x.fwEddy k && (x.bank k).st != .free && ((x.bank k).lent || (x.bank k).home == x.lentRegion)

/-- Who may reach bytes of a core: a task whose owner is bound there, until the firmware has unbound the core (R335), or
whose firmware-bound eddy is bound in the lent region that holds them (R312). -/
def CoreState.admits (x : CoreState) (task : Option Nat) (off n : Nat) : Bool :=
  match task with
  | none => false
  | some t =>
    ((x.slot.st == .run || x.slot.st == .release) && x.slot.task == t) ||
    ([1, 2, 3].any (fun k => x.boundInLent k && (x.ctx k).task == some t) && x.inLent off && x.inLent (off + n - 1))

/-! ### The SLEEP bit (R327, R331) -/

/-- The object at an address as a read of the running context finds it: none where the read is refused or the stripe
is gated (R312, R319). -/
def State.readObj (s : State) (a : Word) : Option (BitVec 128) :=
  match s.place s.cur.core a with
  | none => none
  | some p =>
    let x := s.core p.core
    if !x.admits s.me.task p.off 16 || x.gated p.off then none
    else some (BitVec.ofNat 128 (leNat (x.spad.readBytes p.off 16)))

/-- The SLEEP bit of the running context (R327): bit 64 + core × 4 + context. -/
def sleepBit (core k : Nat) : BitVec 128 := BitVec.ofNat 128 (2 ^ (64 + core % 16 * 4 + k % 4))

/-- Writing an object whole, as a partial write (R227, R328). -/
def State.writeObj (s : State) (core off : Nat) (o : BitVec 128) : State :=
  s.updCore core (fun x => x.spadWrite off (leBytes 16 o.toNat))

/-- Changing the own SLEEP bit in the object at an address. -/
def State.setSleep (s : State) (a : Word) (on : Bool) : State :=
  match s.place s.cur.core a, s.readObj a with
  | some p, some o =>
    let b := sleepBit s.cur.core s.cur.ctx
    s.writeObj p.core p.off (if on then o ||| b else o &&& ~~~b)
  | _, _ => s

/-- The running context is taken while it sleeps, or woken and before its BWAIT read the object again: its SLEEP bit is
cleared (R331, R334). -/
def State.unsleep (s : State) : State :=
  match s.me.waits.sleptAt with
  | some a => (s.setSleep a false).updMe (fun c => { c with waits := { c.waits with asleep := none, sleptAt := none } })
  | none => s

end Sys2Proof.Machine
end

