-- ==== Sys2Proof/Machine/Issue.lean ====
section
/-! DEFINITION. Issuing one bundle: the checks of R80 in order, the stalls, the traps of R183 and R452, and retirement
(R10, R58). An op's own part is a `Sem`; every meaning of an op word is `issue` with that op's `Sem`. -/

namespace Sys2Proof.Machine

/-! ### The parts of an op -/

/-- An op as it stands in a bundle: its word, the word's offset, its number (CSTAGE's for a replay, R289), the offset
after the bundle, the schedule entry it replays, and the random word it uses (R49). -/
structure At where
  i : Instr
  word : Word
  off : BitVec 16
  slot : Nat
  npc : BitVec 16
  replay : Option Nat := none
  rnd : Word := 0
  deriving DecidableEq, Repr

/-- A bundle that is retiring: the state so far and the target of a taken branch. -/
structure Live where
  s : State
  next : Option (BitVec 16) := none

/-- A trap's cause and information words. -/
structure TrapInfo where
  cause : Nat
  info0 : Word := 0
  info1 : Word := 0
  deriving DecidableEq, Repr

/-- A failing tag check (R193): tag found, T required, operand field. -/
structure TagFail where
  found : Nat
  req : Nat
  field : Nat
  deriving DecidableEq, Repr

/-- A slot an op names (R226): whether it reads the slot's data, and the field that names it. Log 41, DEDUCED. -/
structure SlotUse where
  n : Nat
  reads : Bool
  field : Nat := 3
  deriving DecidableEq, Repr

/-- What an op draws from the random generator (R49). -/
inductive Pop where
  | no
  | conv
  | own
  deriving DecidableEq, Repr

/-- What an op would do, computed from the state at bundle entry (R9): its trap of group 2 of R452, its memory
accesses (group 3), its flags (group 4), and its effect on the retiring bundle. -/
structure Out where
  trap : Option TrapInfo := none
  accs : List Acc1 := []
  flags : LaneFlags := []
  eff : Live → Live := id

/-- The part of an op in a bundle: its tag check and slots (row 7 of R80), what it waits for before its bundle issues, its wait
once the bundle has issued (WAITEV, IDLE, BWAIT, LEND: R126, R127, R305, R331) and what a cycle of that wait does, its random
draw, its NI requests (R366), its actual charge (R212), and what it does. Log 42, DEDUCED. -/
structure Sem where
  tags : State → Option TagFail := fun _ => none
  slots : State → List SlotUse := fun _ => []
  stall : State → At → Bool := fun _ _ => false
  waits : State → At → Bool := fun _ _ => false
  onStall : State → At → State := fun s _ => s
  pops : State → Pop := fun _ => .no
  ni : State → Nat := fun _ => 0
  charge : State → Nat := fun _ => 1
  run : State → At → Out

/-! ### Token fields (R273) -/

/-- The in-tokens and the out token of an op; TKWAIT and TKTEST produce none. -/
def tokFields : Instr → List Tok × Tok
  | .tzero f | .tfill f | .tident f | .tclass f | .tcopy f | .ttag f | .tmask f | .tstate f | .mcfg f | .mgo f
  | .mswap f | .mread f | .mdrain f | .mzero f | .mstep f | .mwload f | .mstop f => ([f.i1, f.i2, f.i3], f.out)
  | .cpy f | .cpy2d f | .csched f | .cstage f | .ovl f | .dcpy f | .tkjoin f => ([f.i1, f.i2, f.i3], f.out)
  | .tkwait f | .tktest f => ([f.i1, f.i2, f.i3], .none)
  | .rget f _ | .rput f _ | .rgath f _ | .rscat f _ | .mcst f _ | .ratom f _ | .binit f _ | .barr f _
  | .bwait f _ | .bread f _ => ([f.i1, f.i2, f.i3], f.out)
  | _ => ([], .none)

/-- Standing weight of an op (R203). -/
def standingOf : Instr → Nat
  | .mgo _ | .mstep _ => 36
  | .cpy _ | .cpy2d _ | .ovl _ | .cstage _ => 6
  | .rgath _ _ | .rscat _ _ => 4
  | _ => 0

/-- The accumulator of an op that has one for R203. -/
def accOf : Instr → Option Nat
  | .mgo f | .mstep f | .mswap f => some (f.d.toNat % 4)
  | _ => none

/-- The standing set after an op: a consumed token ends its op's interval, MSWAP that of its accumulator, and the op
adds its own (R203, R204). A replay carries none (R289). -/
def standStep (a : At) (l : List Standing) : List Standing :=
  let ins := (tokFields a.i).1
  let l := l.filter (fun x => !(x.tok != .none && ins.contains x.tok))
  let l := match a.i with
    | .mswap f => l.filter (fun x => x.acc != some (f.d.toNat % 4))
    | _ => l
  if standingOf a.i = 0 || a.replay.isSome then l
  else l ++ [⟨standingOf a.i, (tokFields a.i).2, accOf a.i⟩]

/-- The sum of a standing set. -/
def standSum (l : List Standing) : Nat := (l.map (·.wt)).sum

/-! ### Bundles -/

/-- A fetched word with its offset and its instruction. -/
structure Item where
  off : BitVec 16
  word : Word
  i : Instr
  deriving DecidableEq, Repr

/-- A fetched bundle: its items, its words, and its 23rd word where that word has S clear (R64). -/
structure Fetched where
  items : List Item
  blen : Nat
  long : Option Word := none
  deriving DecidableEq, Repr

/-- The ops of a bundle in op order (R59) and its stray route words with the number of the op before each (R80). -/
def layout (npc : BitVec 16) : Nat → List Item → List At × List (Nat × Word)
  | _, [] => ([], [])
  | n, x :: rest =>
    let stray := match x.i with | .illegalEncoding w => isRoute w | _ => false
    if stray then
      let r := layout npc n rest
      (r.1, (n - 1, x.word) :: r.2)
    else
      let ops := (opsOf x.word x.i).zipIdx.map (fun p => (⟨p.1, x.word, x.off, n + p.2, npc, none, 0⟩ : At))
      let r := layout npc (n + ops.length) rest
      (ops ++ r.1, r.2)

/-- The schedule entries a CSTAGE replays with this state's SC (R289). -/
def Ctx.replays (c : Ctx) (sched : List SchedEnt) : List (Nat × Word) :=
  if c.armed then
    sched.zipIdx.filterMap (fun p =>
      if p.1.stage ≤ c.sc.toNat ∧ c.sc.toNat < p.1.stage + c.t.toNat then some (p.2, p.1.word) else none)
  else []

/-- The ops of a bundle with the replays directly after their CSTAGE (R289). An eddy's CSTAGE traps (R282). -/
def State.expand (s : State) (l : List At) : List At :=
  l.flatMap (fun a =>
    match a.i with
    | .cstage _ =>
      if isEddy s.cur.ctx then [a]
      else a :: (s.me.replays s.myCore.sched).map (fun e => { a with i := decodeWord e.2 none, word := e.2, replay := some e.1 })
    | _ => [a])

/-! ### Rows 1 to 9 of R80 -/

/-- W of an op that produces a vector value, none for any other (R8, R21). MREAD and BREAD have no W. -/
def vecPush : Instr → Option Bool
  | .vadd f | .vsub f | .vmul f | .vmulh f | .vmin f | .vmax f | .vand f | .vor f | .vxor f | .vandn f | .vshl f
  | .vshr f | .vsar f | .vabs f | .vcmp f | .vsel f | .vdot4 f | .vmadd f | .vpopc f | .vfadd f | .vfsub f | .vfmul f
  | .vfma f | .vfnma f | .vfmin f | .vfmax f | .vfabs f | .vfneg f | .vfcmp f | .vfrcp f | .vfrsq f | .vfexp2 f
  | .vflog2 f | .vfdiv f | .vfsqrt f | .vfclass f | .vfscale f | .vfdot2 f | .vcvt f | .vqnt f | .vdqnt f | .vlcd f
  | .vperm f | .vshuf f | .vbcast f | .vscan f | .vcmprs f | .vexpnd f | .vslide f | .vclmul f | .vins f
  | .vretag f => some f.w
  | .vli f | .vaddi f => some f.w
  | .vld f | .vlds f | .vldx f | .vldb f => some f.w
  | .mread _ | .bread _ _ => some false
  | _ => none

/-- The checks of row 2 that look at the context: a vector value with W clear in handler mode (R21), PARK's A in an
eddy (R305), and MDRAIN's part against the bank's tag (R265). Log 32, DEDUCED. -/
def State.row2Ctx (s : State) (i : Instr) : Bool :=
  (s.me.tr.hm && vecPush i == some false) ||
  (match i with
   | .park f => isEddy s.cur.ctx && f.a != .zero
   | .mdrain f =>
     let t := tagOf (f.b.toNat % 16)
     let fp64 := (s.myCore.accs.get (Fin.ofNat 4 f.a.toNat)).vis.fp64
     if (if fp64 then t == .fp64 else t == .fp32) then false
     else if (if fp64 then t == .fp32 else t == .fp16 || t == .bf16) then decide (2 ≤ f.mode.toNat)
     else false
   | _ => false)

/-- The op number and word of the lowest op or stray route word that fails. -/
def lowest (l : List (Nat × Word)) : Option (Nat × Word) :=
  l.foldl (fun r x => match r with | some y => if x.1 < y.1 then some x else some y | none => some x) none

/-- A trap of one of rows 1 to 5 whose TRAPINFO0 is the op word (R193). -/
def wordTrap (cause : Nat) (x : Nat × Word) : Trap := { kind := .P, cause := cause, slot := x.1, info0 := x.2 }

/-- The ops that satisfy a test, by number and word. -/
def failing (p : At → Bool) (l : List At) : List (Nat × Word) := (l.filter p).map (fun a => (a.slot, a.word))

/-- The op at number `x.1` with its word, or `x` itself where no op has that number. -/
def wordAt (l : List At) (x : Nat × Word) : Nat × Word :=
  match l.find? (fun a => a.slot == x.1) with
  | some a => (x.1, a.word)
  | none => x

/-- What a stray route word is reported against: the last ENGINE op before it (R80); where none stands before it, the op
before it, or the stray word itself. Log 33, DEDUCED. -/
def strayWord (l : List At) (x : Nat × Word) : Nat × Word :=
  match (l.filter (fun a => decide (a.slot ≤ x.1) && fld a.word 60 3 == 5#3)).getLast? with
  | some a => (a.slot, a.word)
  | none => wordAt l x

/-- Row 4: the first op beyond the units of its class (R62). Log 36, DEDUCED. -/
def unitOver : List UClass → List At → Option (Nat × Word)
  | _, [] => none
  | seen, a :: rest =>
    match classOf a.i with
    | some k => if classUnits k ≤ seen.count k then some (a.slot, a.word) else unitOver (k :: seen) rest
    | none => unitOver seen rest

/-- Far-level source fields of an op (R13). Log 33, DEDUCED. -/
def farCount (i : Instr) : Nat := ((srcs i).filter (fun x => match x.o with | .far _ => true | _ => false)).length

/-- Row 5: the first op with which the far fields exceed four (R13). Log 33, DEDUCED. -/
def farOver : Nat → List At → Option (Nat × Word)
  | _, [] => none
  | n, a :: rest => if 4 < n + farCount a.i then some (a.slot, a.word) else farOver (n + farCount a.i) rest

/-- Row 1 for a replayed entry, in which b0 to b7 are no reserved index (R287, R289). -/
def row1Replay (i : Instr) : Bool := (srcs i).any (fun s => s.o == .special7)

/-- The replayed entries that satisfy a test, by CSTAGE's number and word (R289). -/
def failingReplays (p : Instr → Bool) (ops reps : List At) : List (Nat × Word) :=
  (reps.filter (fun a => p a.i)).map (fun a => wordAt ops (a.slot, a.word))

/-- Rows 1 to 5; of the replayed entries `reps`, rows 1 and 2 (R289): their far fields do not count in row 5. Log 99, DESIGN
CHOICE. -/
def State.rows15 (s : State) (long : Option Word) (ops reps : List At) (strays : List (Nat × Word)) : Option Trap :=
  match lowest (failing (fun a => row1Op a.i) ops ++ failingReplays row1Replay ops reps) with
  | some x => some (wordTrap 0x00 x)
  | none =>
    match lowest (failing (fun a => row2Op a.i || s.row2Ctx a.i) ops ++ failingReplays row2Op ops reps ++
        (strays.filter (fun x => !turnsOk (routeOfWord x.2).turns)).map (strayWord ops)) with
    | some x => some (wordTrap 0x01 x)
    | none =>
      match lowest (failing (fun a => row3Op a.i) ops ++ strays.map (strayWord ops)) with
      | some x => some (wordTrap 0x08 x)
      | none =>
        match unitOver [] ops with
        | some x => some (wordTrap 0x02 x)
        | none =>
          match long with
          | some w => some (wordTrap 0x02 (22, w))
          | none => (farOver 0 ops).map (wordTrap 0x05)

/-- Row 6 of one op (R11, R21, R179, R389). -/
def State.row6 (s : State) (a : At) : Option Trap :=
  (row6Order (srcs a.i)).findSome? (fun x =>
    match s.me.srcFail x with
    | some .undefined => some { kind := .P, cause := 0x07, slot := a.slot, info0 := a.word, info1 := wd x.idx }
    | some (.poisoned va) => some { kind := .P, cause := 0x23, slot := a.slot, info0 := va }
    | none => none)

/-- Whether a slot an op names makes the bundle wait: it is FILLING or DRAINING, or the owner's lent region is being
revoked (R226, R304). -/
def State.slotWaits (s : State) (u : SlotUse) : Bool :=
  let x := s.myCore
  !x.gated (u.n * slotSize) &&
  ((x.tile u.n).st == .filling || (x.tile u.n).st == .draining ||
   (!isEddy s.cur.ctx && x.ownerBlocked (u.n * slotSize)))

/-- Row 7 for a slot: gated stripe, else EMPTY where the op reads it (R226). An op goes through its slots in order, so the
first that fails decides between 0x25 and 0x06. Log 95, DESIGN CHOICE. -/
def State.slotFail (s : State) (a : At) (u : SlotUse) : Option Trap :=
  let x := s.myCore
  if x.gated (u.n * slotSize) then
    some { kind := .P, cause := 0x25, slot := a.slot, info0 := wd (u.n * slotSize), info1 := if u.reads then 0 else 0x100 }
  else if u.reads && (x.tile u.n).st == .empty then
    some { kind := .P, cause := 0x06, slot := a.slot, info0 := a.word, info1 := wd (0xF0 + 256 * u.field) }
  else none

/-- Row 7 of one op (R19, R226). -/
def State.row7 (s : State) (a : At) (m : Sem) : Option Trap :=
  match m.tags s with
  | some t =>
    some { kind := .P, cause := 0x06, slot := a.slot, info0 := a.word, info1 := wd (t.found + 16 * t.req + 256 * t.field) }
  | none => (m.slots s).findSome? (s.slotFail a)

/-- Declared weight of a bundle (R202). -/
def declared (ops : List At) : Nat := (ops.map (fun a => weightOf a.i)).sum

/-- The first op at which the running sum exceeds a limit (R208). -/
def overAt (limit : Nat) : Nat → List At → Option (Nat × Word)
  | _, [] => none
  | n, a :: rest => if limit < n + weightOf a.i then some (a.slot, a.word) else overAt limit (n + weightOf a.i) rest

/-- Rows 8 and 9 (R205, R207, R208). -/
def Ctx.rows89 (c : Ctx) (ops : List At) : Option Trap :=
  let st := standSum c.standing
  let w := declared ops + st
  let fail (limit cause : Nat) : Trap :=
    let x := if limit < st then (ops.head?.map (fun a => (a.slot, a.word))) else overAt limit st ops
    { kind := .P, cause := cause, slot := (x.getD (0, 0)).1, info0 := (x.getD (0, 0)).2, info1 := wd w }
  if c.tr.hm then none
  else if c.csr.weira < w then some (fail c.csr.weira 0x03)
  else if c.csr.weirw < w then some (fail c.csr.weirw 0x04)
  else none

/-! ### Tokens in a bundle (R183, R272, R273) -/

/-- Whether a token is LIVE given what earlier ops of the bundle did to it. -/
def liveIn (c : Ctx) (v : List (Fin 63 × Bool)) (k : Fin 63) : Bool :=
  match v.find? (fun p => p.1 == k) with
  | some p => p.2
  | none => (c.tok.get k).live

/-- The view of the tokens after an op: its in-tokens are consumed, then its out token is produced (R273). -/
def tokView (v : List (Fin 63 × Bool)) (i : Instr) : List (Fin 63 × Bool) :=
  let v := (inToks (tokFields i).1).map (fun k => (k, false)) ++ v
  match (tokFields i).2 with
  | .k n => (n, true) :: v
  | .none => v

/-- The first op that consumes the token of a faulted command (R183): TRAPSLOT and the token. -/
def engineFault (c : Ctx) : List (Fin 63 × Bool) → List At → Option (At × Fin 63 × FaultRec)
  | _, [] => none
  | v, a :: rest =>
    let hit := (inToks (tokFields a.i).1).findSome? (fun k =>
      let t := c.tok.get k
      if (v.any (fun p => p.1 == k)) || !t.live || !t.done then none else t.fault.map (fun r => (k, r)))
    match hit with
    | some (k, r) => some (a, k, r)
    | none => engineFault c (tokView v a.i) rest

/-- The first op that produces a LIVE token (R273). Log 43, DEDUCED. -/
def tokenReuse (c : Ctx) : List (Fin 63 × Bool) → List At → Option (At × Fin 63)
  | _, [] => none
  | v, a :: rest =>
    let v1 := (inToks (tokFields a.i).1).map (fun k => (k, false)) ++ v
    match (tokFields a.i).2 with
    | .k n => if liveIn c v1 n then some (a, n) else tokenReuse c (tokView v a.i) rest
    | .none => tokenReuse c (tokView v a.i) rest

/-- Whether a producer waits on a token that is not DONE (R272). Log 43, DEDUCED. -/
def tokenWaits (c : Ctx) (ops : List At) : Bool :=
  ops.any (fun a => match (tokFields a.i).2 with
    | .k n => !(c.tok.get n).live && !(c.tok.get n).done ||
        ((inToks (tokFields a.i).1).contains n && !(c.tok.get n).done)
    | .none => false)

/-- Whether an op waits on what earlier ops of its bundle did to the tokens `seen` (R273): a TKWAIT or an MCST names one that is
not DONE (R279, R325), or a producer meets one that is LIVE 0 and DONE 0 (R272). -/
def tokenHolds (c : Ctx) (seen : List (Fin 63)) (i : Instr) : Bool :=
  let ins := inToks (tokFields i).1
  (match i with | .tkwait _ | .mcst _ _ => ins.any (fun k => seen.contains k && !(c.tok.get k).done) | _ => false) ||
  (match (tokFields i).2 with
   | .k n => seen.contains n && !(c.tok.get n).done && (!(c.tok.get n).live || ins.contains n)
   | .none => false)

/-- Whether an op of a bundle waits on a token that an op before it in the bundle touched (R272, R273, R279): the ops take
effect in op order on `L`, from bundle entry on. -/
def orderWaits (L : Live) (seen : List (Fin 63)) : List (At × Out) → Bool
  | [] => false
  | (a, o) :: rest =>
    tokenHolds L.s.me seen a.i ||
    (!rest.isEmpty && orderWaits (o.eff L)
      (seen ++ inToks (tokFields a.i).1 ++ (match (tokFields a.i).2 with | .k n => [n] | .none => [])) rest)

/-! ### Random words (R49) -/

/-- Giving each op its random word: every converter op of the bundle shares the word popped at the first, each RNGPOP
pops its own; with the generator state after the pops. -/
def rngPlan (s : State) : Word → Option Word → List (At × Sem) → List (At × Sem) × Word
  | seed, _, [] => ([], seed)
  | seed, conv, (a, m) :: rest =>
    match m.pops s with
    | .no => let r := rngPlan s seed conv rest; ((a, m) :: r.1, r.2)
    | .own =>
      let p := rngPop seed
      let r := rngPlan s p.2 conv rest
      (({ a with rnd := p.1 }, m) :: r.1, r.2)
    | .conv =>
      match conv with
      | some w => let r := rngPlan s seed conv rest; (({ a with rnd := w }, m) :: r.1, r.2)
      | none =>
        let p := rngPop seed
        let r := rngPlan s p.2 (some p.1) rest
        (({ a with rnd := p.1 }, m) :: r.1, r.2)

/-! ### Stalls -/

/-- The units and weight the core has used in the running effective cycle (R298). -/
def CoreState.useNow (x : CoreState) (eff : Nat) : CycleUse := if x.use.cycle = eff then x.use else { cycle := eff }

/-- A number for each unit class. -/
def uclassNo : UClass → Nat
  | .SA => 0 | .SM => 1 | .BR => 2 | .VA => 3 | .VF => 4 | .VX => 5 | .VP => 6 | .VC => 7 | .LS => 8 | .LV => 9
  | .NI => 10 | .ME => 11 | .CE => 12

/-- The unit classes of a bundle by number. -/
def unitsOf (ops : List At) : List Nat := ops.filterMap (fun a => (classOf a.i).map uclassNo)

/-- The eddies of a core whose bank is RUN. -/
def CoreState.running (x : CoreState) : List Nat := [1, 2, 3].filter (fun k => (x.bank k).st == .run)

/-- The standing set of a context after a bundle. -/
def standAfter (c : Ctx) (ops : List At) : Nat := standSum (ops.foldl (fun l a => standStep a l) c.standing)

/-- The standing set that an eddy's bundle of this cycle counts with: as it stood before a bundle it has issued (R203,
R298). -/
def CoreState.stoodOf (x : CoreState) (u : CycleUse) (k : Nat) : Nat :=
  match u.stood.find? (fun p => p.1 == k) with
  | some p => p.2
  | none => standSum (x.ctx k).standing

/-- The eddies whose standing sets are in the core sum: RUN, and REVOKING until they are PARKED (R298, R302). -/
def CoreState.summed (x : CoreState) : List Nat :=
  [1, 2, 3].filter (fun k => (x.bank k).st == .run || (x.bank k).st == .revoking)

/-- Whether an eddy bundle is not admitted in this cycle (R298): units, the core sum, the standing sets. -/
def State.eddyBlocked (s : State) (ops : List At) : Bool :=
  isEddy s.cur.ctx &&
  (let x := s.myCore
   let u := x.useNow (s.eff s.cur.core)
   let cls : List UClass := [.SA, .SM, .BR, .VA, .VF, .VX, .VP, .VC, .LS, .LV, .NI, .ME, .CE]
   let units := u.units ++ unitsOf ops
   let eddySt := (x.summed.map (x.stoodOf u)).sum
   let ownerSt := standSum (x.ctx 0).standing
   let sum := (if u.owner then u.weight else ownerSt + u.weight) + eddySt + declared ops
   let after := ((x.running.filter (· != s.cur.ctx)).map (fun k => standSum (x.ctx k).standing)).sum +
     standAfter s.me ops
   cls.any (fun k => decide (classUnits k < units.count (uclassNo k))) ||
   decide (96 < sum) || decide (x.lend.cfg.share < after))

/-- Why a bundle stalls this cycle: it waits to issue, a budget denies it (the bits of R193's 0x58), or it has issued and the
own wait of an op runs (the op's place in the bundle). -/
inductive Why where
  | wait
  | denied (bits : BitVec 4)
  | op (n : Nat)
  deriving DecidableEq, Repr

/-- The window check of R206. -/
def Ctx.windowFull (c : Ctx) (w : Nat) : Bool := !c.tr.hm && decide (c.csr.weirw < w + (c.window.take 7).sum)

/-- The issue and NI budgets (R190, R366, R367); a bundle that waits has issued. -/
def Ctx.denies (c : Ctx) (ni : Nat) : Option (BitVec 4) :=
  let issue := c.csr.issueLeft == 0 && (!c.tr.hm || c.tr.res == 0)
  let net := c.csr.niLeft != 0xFFFF && decide (c.csr.niLeft < ni)
  if !c.waits.waiting && (issue || net) then some ((if issue then 1#4 else 0#4) ||| (if net then 2#4 else 0#4)) else none

/-- The first op whose own wait holds the bundle that has issued. -/
def opWaits (s : State) : Nat → List (At × Sem) → Option Nat
  | _, [] => none
  | n, (a, m) :: rest => if m.waits s a then some n else opWaits s (n + 1) rest

/-- Whether an access of the owner touches the lent region while it is revoked, or an access waits on a migrating page
(R304, R348). -/
def State.accWaits (s : State) (outs : List (At × Out)) : Bool :=
  outs.any (fun p => p.2.accs.any (fun a =>
    (!isEddy s.cur.ctx &&
      (match s.ownOff s.cur.core a.va with
       | some o => s.myCore.ownerBlocked o || s.myCore.ownerBlocked (o + a.n - 1)
       | none => false)) ||
    s.accMigrating s.cur.core s.myTask a))

/-! ### Execution traps (R452) -/

/-- Group 3: the memory checks in the row order of R178, then by op, then by lane. Log 34, DEDUCED. -/
def State.memTrap (s : State) (outs : List (At × Out)) : Option Trap :=
  [1, 2, 3, 4, 5].findSome? (fun row =>
    outs.findSome? (fun p =>
      p.2.accs.findSome? (fun a =>
        (s.accFails s.cur.core s.cur.ctx s.myTask a row).map (fun cause =>
          { kind := .P, cause := cause, slot := p.1.slot, info0 := a.va, info1 := wd (a.lane + 256 * a.kind) }))))

/-- The four groups of R452. -/
def State.execTrap (s : State) (ops : List At) (outs : List (At × Out)) : Option Trap :=
  match tokenReuse s.me [] ops with
  | some (a, k) =>
    some { kind := .P, cause := 0x34, slot := a.slot, info0 := a.word,
           info1 := wd (k.val + (match a.replay with | some e => 64 + 256 * e | none => 0)) }
  | none =>
    match outs.findSome? (fun p => p.2.trap.map (fun t => (p.1, t))) with
    | some (a, t) => some { kind := .P, cause := t.cause, slot := a.slot, info0 := t.info0, info1 := t.info1 }
    | none =>
      match s.memTrap outs with
      | some t => some t
      | none =>
        if s.me.tr.hm then none
        else flagTrap s.me.csr.fpctl (outs.map (fun p => (p.1.slot, p.2.flags)))

/-! ### The decision -/

/-- What becomes of a bundle in this cycle. -/
inductive Verdict where
  | trap (t : Trap)
  | engine (t : Trap) (k : Fin 63)
  | stall (why : Why)
  | issue
  deriving DecidableEq, Repr

/-- A bundle laid out: every op with its part and random word (replays included), the ops of the words alone, the
stray route words, and the generator state after it. -/
structure Laid where
  words : List At
  strays : List (Nat × Word)
  ops : List (At × Sem)
  seed : Word

/-- The replayed entries of a bundle (R289). -/
def Laid.replays (l : Laid) : List At := (l.ops.map (·.1)).filter (fun a => a.replay.isSome)

/-- Laying a bundle out (R59, R289, R49). -/
def State.lay (s : State) (sem : Instr → Sem) (b : Fetched) : Laid :=
  let p := layout (pcPlus s.me.pc b.blen) 0 b.items
  let r := rngPlan s s.me.csr.rngseed none ((s.expand p.1).map (fun a => (a, sem a.i)))
  ⟨p.1, p.2, r.1, r.2⟩

/-- The parts of a bundle that look at the state at bundle entry. -/
def State.outs (s : State) (l : Laid) : List (At × Out) := l.ops.map (fun p => (p.1, p.2.run s p.1))

/-- The decision on a bundle: rows 1 to 6, the wait on slots, rows 7 to 9, the window, the other waits before it issues, then
the budgets, which deny only a bundle that is ready to issue (R369), the engine faults of R183, the execution traps of R452, the
waits of its accesses, and the own waits of its ops; else it issues (R80, R185, R207, R226). A bundle that waits in WAITEV, IDLE,
BWAIT or LEND has issued: no budget denies it, and the checks of all its ops come before such a wait. Log 42, DEDUCED. -/
def State.judge (s : State) (l : Laid) (long : Option Word) : Verdict :=
  match s.rows15 long l.words l.replays l.strays with
  | some t => .trap t
  | none =>
    match l.ops.findSome? (fun p => s.row6 p.1) with
    | some t => .trap t
    | none =>
      if l.ops.any (fun p => (p.2.slots s).any s.slotWaits) then .stall .wait
      else
        match l.ops.findSome? (fun p => s.row7 p.1 p.2) with
        | some t => .trap t
        | none =>
          match s.me.rows89 l.words with
          | some t => .trap t
          | none =>
            if s.me.windowFull (declared l.words + standSum s.me.standing) then .stall .wait
            else if s.eddyBlocked l.words || tokenWaits s.me (l.ops.map (·.1)) then .stall .wait
            else
              if l.ops.any (fun p => p.2.stall s p.1) || orderWaits { s := s } [] (s.outs l) then .stall .wait
              else
                match s.me.denies (l.ops.map (fun p => p.2.ni s)).sum with
                | some d => if s.accWaits (s.outs l) then .stall .wait else .stall (.denied d)
                | none =>
                  match engineFault s.me [] (l.ops.map (·.1)) with
                  | some (a, k, r) =>
                    .engine { kind := .E, cause := r.cause, slot := a.slot, info0 := r.info0, info1 := r.info1 } k
                  | none =>
                    match s.execTrap (l.ops.map (·.1)) (s.outs l) with
                    | some t => .trap t
                    | none =>
                      if s.accWaits (s.outs l) then .stall .wait
                      else match opWaits s 0 l.ops with | some n => .stall (.op n) | none => .issue

/-! ### Bank conflicts of one bundle (R219, R221) -/

/-- The (bank, row) pairs an access needs in the own scratchpad (R219). -/
def State.bankRows (s : State) (a : Acc1) : List (Nat × Nat) :=
  match s.ownOff s.cur.core a.va with
  | some o => if a.kind = 3 then [] else
      (List.range ((o + a.n - 1) / 32 - o / 32 + 1)).map (fun i => ((o / 32 + i) % 512, (o / 32 + i) / 512))
  | none => []

/-- The extra cycles of a bundle whose own accesses need a bank in different rows (R221). -/
def State.extraCycles (s : State) (outs : List (At × Out)) : Nat :=
  let l := (outs.flatMap (fun p => p.2.accs.flatMap s.bankRows)).eraseDups
  (l.map (fun x => (l.filter (fun y => y.1 == x.1)).length - 1)).foldl max 0

/-! ### What a cycle leaves (R25, R190, R206, R298, R366, R369) -/

/-- One effective cycle of a context: its window position of weight `w` (R206), and CYCLES once its first bundle has
issued (R25). -/
def Ctx.tick (c : Ctx) (w : Nat) : Ctx :=
  { c with window := (w :: c.window).take 7,
           csr := if c.firstIssue then { c.csr with cycles := c.csr.cycles + 1 } else c.csr }

/-- One effective cycle in which nothing issues; a bundle that has issued and waits counts it (R126, R331). -/
def Ctx.waitTick (c : Ctx) : Ctx :=
  { c.tick 0 with waits := { c.waits with since := if c.waits.waiting then c.waits.since + 1 else c.waits.since } }

/-- A cycle in which the bundle at the program counter stalls. -/
def State.stalled (s : State) : State :=
  s.updMe (fun c => let c := c.waitTick; { c with waits := { c.waits with held := true } })

/-- A cycle in which the wait of an op holds its bundle, which has issued: CYCLES counts from the first such cycle on (R25). -/
def State.waitCycle (s : State) : State := (s.updMe (fun c => { c with firstIssue := true })).stalled

/-- A cycle in which a budget denies the bundle issue (R193, R367, R369). Log 65, DEDUCED. -/
def State.deniedCycle (s : State) (d : BitVec 4) : State :=
  s.stalled.updMe (fun c => { c with denied := c.denied ||| d, deniedCycles := c.deniedCycles + 1 })

/-- Drawing a retired bundle and its NI requests on the budgets (R190, R366); the field maximum is no limit. -/
def Ctx.drawn (c : Ctx) (hm : Bool) (ni : Nat) : Ctx :=
  let c :=
    if hm && c.tr.res != 0 then { c with tr := { c.tr with res := c.tr.res - 1 } }
    else if c.csr.issueLeft == 0xFFFF then c
    else { c with csr := { c.csr with issueLeft := c.csr.issueLeft - 1 } }
  if c.csr.niLeft == 0xFFFF then c else { c with csr := { c.csr with niLeft := c.csr.niLeft - ni } }

/-- Counting a bundle retired outside handler mode towards every next-tile entry that has not landed (R390). -/
def Ctx.countNx (c : Ctx) : Ctx :=
  { c with nx := c.nx.map (fun (e : NxEnt) => if e.due = 0 then e else { e with due := max 1 (e.due - 1) }) }

/-- Landing the entries of a context that are due; a landing is a wake (R127, R390). -/
def State.landNx (s : State) (core k : Nat) : State :=
  if (s.ctx core k).nx.any (fun e => e.due == 1) then
    (s.updCtx core k (fun c =>
      { c with nx := c.nx.map (fun (e : NxEnt) => if e.due = 1 then { e with due := 0 } else e) })).wakeCtx core k
  else s

/-- The ops of a bundle take effect in op order, with the standing set (R9, R58, R203). -/
def effects (L : Live) (outs : List (At × Out)) : Live :=
  outs.foldl (fun L p =>
    let L := p.2.eff L
    { L with s := L.s.updMe (fun c => { c with standing := standStep p.1 c.standing }) }) L

/-- A wait that is over, as its bundle retires. -/
def Waits.over (w : Waits) : Waits :=
  { w with held := false, waiting := false, since := 0, wakeNow := false, idleWoken := false, lendOld := none,
           lendOn := none }

/-- Before the effects: the generator after its pops (R48), the next-tile entries counted (R390), the wait over. An entry
that lands as an IDLE retires lands before the IDLE clears WAKE. Log 101, DESIGN CHOICE. -/
def Ctx.begin (c : Ctx) (seed : Word) : Ctx :=
  let c := if c.tr.hm then c else c.countNx
  { c with csr := { c.csr with rngseed := seed }, waits := c.waits.over }

/-- After the effects: the program counter, the flags (R42), the budgets, the cycle. -/
def Ctx.after (c : Ctx) (hm : Bool) (pc : BitVec 16) (fl : Flags) (ni w : Nat) : Ctx :=
  let c := { c with pc := pc, firstIssue := true, csr := { c.csr with fpstat := c.csr.fpstat ||| fl },
                    dbg := { c.dbg with stepDone := c.dbg.stepDone || c.dbg.step } }
  (c.drawn hm ni).tick (if hm then 0 else w)

/-- Retirement of a bundle (R58); the cycles that its own bank conflicts add are waited out after it (R221). -/
def State.retire (s : State) (l : Laid) : State :=
  let outs := s.outs l
  let hm := s.me.tr.hm
  let w := declared l.words + standSum s.me.standing
  let ni := (l.ops.map (fun p => p.2.ni s)).sum
  let charge := (l.ops.map (fun p => if p.1.replay.isSome then 0 else p.2.charge s)).sum
  let npc := match l.words with | a :: _ => a.npc | [] => s.me.pc
  let L := effects { s := (s.updMe (·.begin l.seed)).landNx s.cur.core s.cur.ctx } outs
  let s1 := L.s.updMe (fun c => c.after hm (L.next.getD npc) (orFlags (outs.map (fun p => (0, orFlags p.2.flags)))) ni w)
  let s1 := if s.extraCycles outs = 0 then s1
    else s1.updMe (fun c => { c with waits := { c.waits with wakeIn := c.waits.wakeIn + s.extraCycles outs } })
  let s2 := s1.updMyCore (fun x =>
    let u := x.useNow (s.eff s.cur.core)
    { x with use := { u with units := u.units ++ unitsOf l.words,
                             weight := u.weight + (if isEddy s.cur.ctx then declared l.words else w),
                             owner := u.owner || !isEddy s.cur.ctx,
                             stood := if isEddy s.cur.ctx then (s.cur.ctx, standSum s.me.standing) :: u.stood else u.stood } })
  s2.updCluster (clusterOf s.cur.core) (fun k => { k with charge := k.charge + charge, issuedNow := true })

/-- Consuming the token whose command's fault is reported: LIVE clears and the flags are ORed into FPSTAT (R183). -/
def Ctx.reported (c : Ctx) (k : Fin 63) : Ctx :=
  { (c.updTok k (fun t => { t with live := false })) with
    csr := { c.csr with fpstat := c.csr.fpstat ||| (c.tok.get k).flags } }

/-- The words of the debug issue buffer, where it holds the running context's bundle (R409). -/
def State.buffered (s : State) : Option (List Word) :=
  match s.myCore.issueBuf with
  | some (k, ws) => if k = s.cur.ctx then some ws else none
  | none => none

/-- A bundle issued from the debug issue buffer is over (R409). -/
def State.leaveBuf (s : State) : State :=
  if s.buffered.isSome then s.updMyCore (fun x => { x with issueBuf := none }) else s

/-- Whether the running context's task is under debug (R197). -/
def State.underDebug (s : State) : Bool := match s.myTask with | some t => t.debug | none => false

/-- Whether the firmware executes the displaced op of a BRK at an offset (R197, R409). -/
def State.displacedHere (s : State) (off : BitVec 16) : Bool :=
  !s.underDebug && s.buffered.isNone && s.myCore.displaced.any (fun d => d.off == off.toNat)

/-- The cycle of a bundle that traps; a stepped bundle that traps has been stepped (R407). -/
def State.trapCycle (s : State) : State :=
  s.updMe (fun c => { c.tick 0 with dbg := { c.dbg with stepDone := c.dbg.stepDone || c.dbg.step } })

/-- A BRK that the debugger receives: the context is taken at its bundle, and the report gives its offset and code (R197,
R403). -/
def State.brkDebug (s : State) (off : BitVec 16) (code : Word) : State :=
  (s.trapCycle.updMe (fun c => { c with dbg := { c.dbg with halted := true }, waits := { c.waits with held := false, waiting := false, since := 0, asleep := none } })).report
    ⟨0x50, off.setWidth 64, code⟩

/-- A BRK that traps (R197): the debugger's where the task is under debug; the displaced op where the firmware holds
one for the offset, which the next turn executes in this cycle, and which waits while another context's bundle stands in
the core's debug issue buffer (R409); else the handler. -/
def State.brkTrap (s : State) (t : Trap) (off : BitVec 16) (blen : Nat) : State :=
  if s.underDebug then s.brkDebug off t.info1
  else if s.displacedHere off then
    if s.myCore.issueBuf.isSome then s.stalled
    else { s with agenda := .event s.cur .displacedOpExecute :: s.agenda }
  else s.trapCycle.takeTrap t s.me.pc blen

/-- Taking the trap of a bundle; a BWAIT of it that sleeps is taken with it (R331). -/
def State.trapBundle (s : State) (l : Laid) (blen : Nat) (t : Trap) : State :=
  let s := s.unsleep
  if t.cause = 0x50 then
    s.brkTrap t (match l.words.find? (fun a => a.slot == t.slot) with | some a => a.off | none => s.me.pc) blen
  else s.trapCycle.takeTrap t s.me.pc blen

/-- One cycle of a bundle at issue. -/
def State.issueLaid (s : State) (l : Laid) (long : Option Word) (blen : Nat) : State :=
  match s.judge l long with
  | .trap t => (s.trapBundle l blen t).leaveBuf
  | .engine t k =>
    let s := if s.me.tr.hm then s else (s.updMe (fun c => c.reported k)).faultReported ⟨t.cause, t.info0, t.info1⟩
    (s.trapBundle l blen t).leaveBuf
  | .stall .wait => s.stalled
  | .stall (.denied d) => s.deniedCycle d
  | .stall (.op n) =>
    match l.ops[n]? with
    | some (a, m) => (m.onStall s a).waitCycle
    | none => s.stalled
  | .issue => (s.retire l).leaveBuf

/-- Issuing a fetched bundle. Log 8, DESIGN CHOICE. -/
def State.issue (s : State) (sem : Instr → Sem) (b : Fetched) : State := s.issueLaid (s.lay sem b) b.long b.blen

/-- The bundle of one instruction at the program counter. -/
def State.single (s : State) (i : Instr) : Fetched := ⟨[⟨s.me.pc, encodeWord i, i⟩], wordsOf i, none⟩

/-- The meaning of an op word that stands alone: the bundle of that op, with the op's own part. Log 8, DESIGN CHOICE. -/
def issueOne (m : Sem) (i : Instr) (s : State) : Host.Outcome State Fault Refusal :=
  if nCores ≤ s.cur.core then .fault .noSuchAgent
  else .next (s.issue (fun _ => m) (s.single i))

end Sys2Proof.Machine
end

