-- ==== Sys2Proof/Machine/Scalar.lean ====
section
/-! DEFINITION. The scalar REG ops 0x00-0x1B (R110-R117), pair words apart. -/

namespace Sys2Proof.Machine

/-- Changing the running context of a retiring bundle. -/
def Live.me (f : Ctx → Ctx) (L : Live) : Live := { L with s := L.s.updMe f }

/-- A tag check of one source field against the accepted tags; `req` is the T it reports (R19, R193). The special
levels pass, a D field that names a source does not (R19, R67). -/
def State.tagFail (s : State) (t : Tag) (accept : List Tag) (req : Tag) (x : Src) : Option TagFail :=
  if isSpecial x.o && x.idx != 3 then none
  else
    let found := if x.vec then uncheckedTag x.o (s.rdV t x.o).tag else (s.rdS t x.o).tag
    if accept.contains found then none else some ⟨tagCode found, tagCode req, x.idx⟩

/-- The actual charge of a scalar op: its declared weight, or 1 when it is guarded off (R212). -/
def scalarCharge (i : Instr) (g : Guard) (s : State) : Nat := if s.active g then weightOf i else 1

/-! ### The mould of R110 -/

/-- N of a scalar REG op (R110). -/
def scalarBits (f : RegF) : Nat := if f.x.toNat % 4 = 0 then 64 else 32
/-- Whether signed readings apply: not under width 10 (R110). -/
def scalarSigned (f : RegF) : Bool := f.x.toNat % 4 != 2
/-- The result tag (R18, R110). -/
def scalarTag (f : RegF) : Tag := if f.x.toNat % 4 = 0 then .int64 else .int32
/-- The tag special operands carry: T, or the result's where T is 0xF (R19, R66). -/
def scalarOpTag (f : RegF) : Tag := match f.t with | .tag t => t | .any => scalarTag f

/-- An n-bit number read as two's complement, or unsigned. -/
def asInt (n : Nat) (sg : Bool) (x : Nat) : Int := if sg && decide (2 ^ (n - 1) ≤ x) then (x : Int) - 2 ^ n else (x : Int)

/-- An n-bit result extended to 64 bits: sign-extended from bit 31 under width 01 (R110). -/
def scalarExt (f : RegF) (r : Nat) : Word := if f.x.toNat % 4 = 1 then wdi (asInt 32 true (r % 2 ^ 32)) else wd r

/-- One bits of the low `n` bits. -/
def popcount : Nat → Nat → Nat
  | 0, _ => 0
  | n + 1, x => x % 2 + popcount n (x / 2)

/-- The low `n` bytes in reverse order. -/
def byteSwap : Nat → Nat → Nat
  | 0, _ => 0
  | n + 1, x => x % 256 * 256 ^ n + byteSwap n (x / 256)

/-- INS: bits of `b` placed in the field of `len` bits at `pos` of `a`, cut at bit n - 1 (R113). -/
def insField (n a b pos len : Nat) : Nat :=
  let m := (2 ^ len - 1) * 2 ^ pos % 2 ^ n
  (a &&& (2 ^ n - 1 - m)) ||| (b * 2 ^ pos % 2 ^ n &&& m)

/-- A scalar function of R113: N, whether readings are signed, and the three N-bit operands. -/
abbrev ScalarFn := Nat → Bool → Nat → Nat → Nat → Nat

/-- The N-bit result of a scalar REG op on the state at bundle entry. -/
def scalarRaw (f : RegF) (fn : ScalarFn) (s : State) : Nat :=
  let n := scalarBits f
  let t := scalarOpTag f
  let rd (o : Operand) : Nat := (s.rdS t o).v.toNat % 2 ^ n
  fn n (scalarSigned f) (rd f.a) (rd f.b) (rd f.c)

/-- A of a scalar REG op as it delivers it guarded off: with its tag, a special one with the tag T requires (R16, R19). -/
def scalarFirst (f : RegF) (s : State) : SVal :=
  let a := s.rdS (scalarOpTag f) f.a
  { v := a.v, tag := match f.t with | .tag t => checkedTag t f.a a.tag | .any => a.tag }

/-- The value a scalar REG op delivers: its result, or A with A's tag when it is guarded off (R16, R110). -/
def scalarOut (f : RegF) (fn : ScalarFn) (s : State) : SVal :=
  if s.active f.g then { v := scalarExt f (scalarRaw f fn s), tag := scalarTag f } else scalarFirst f s

/-- The tag check of a scalar REG op: every operand it uses carries exactly T (R111). -/
def scalarTags (f : RegF) (i : Instr) (s : State) : Option TagFail :=
  match f.t with
  | .any => none
  | .tag t => (srcs i).findSome? (s.tagFail t [t] t)

/-- A scalar REG op by its function, its flags apart (R110-R113). -/
def semScalar (f : RegF) (i : Instr) (fn : ScalarFn) (fl : State → LaneFlags) : Sem where
  tags := scalarTags f i
  charge := scalarCharge i f.g
  run s _ := { flags := fl s, eff := Live.me (fun c => c.resultS f.w f.d (scalarOut f fn s)) }

/-- No flag (R114). -/
def noFlags (_ : State) : LaneFlags := []

/-- IDZ of an active DIV or REM by zero (R114). -/
def divFlags (f : RegF) (s : State) : LaneFlags :=
  if s.active f.g && (s.rdS (scalarOpTag f) f.b).v.toNat % 2 ^ scalarBits f == 0 then [(0, fIDZ)] else []

/-! ### The functions of R113 and R114 -/

/-- ADD: a + b (R113). -/
def fnAdd : ScalarFn := fun n _ a b _ => (a + b) % 2 ^ n
/-- SUB: a - b (R113). -/
def fnSub : ScalarFn := fun n _ a b _ => (a + (2 ^ n - b)) % 2 ^ n
/-- MUL: the low bits of a × b (R113). -/
def fnMul : ScalarFn := fun n _ a b _ => a * b % 2 ^ n
/-- MULH: the high bits of the exact product (R113). -/
def fnMulh : ScalarFn := fun n sg a b _ => intBits n (asInt n sg a * asInt n sg b / 2 ^ n)
/-- DIV: the quotient toward zero; all bits set for a zero divisor (R114). -/
def fnDiv : ScalarFn := fun n sg a b _ => if b = 0 then 2 ^ n - 1 else intBits n ((asInt n sg a).tdiv (asInt n sg b))
/-- REM: the remainder with the sign of a; a for a zero divisor (R114). -/
def fnRem : ScalarFn := fun n sg a b _ => if b = 0 then a else intBits n ((asInt n sg a).tmod (asInt n sg b))
/-- AND: a AND b (R113). -/
def fnAnd : ScalarFn := fun _ _ a b _ => a &&& b
/-- OR: a OR b (R113). -/
def fnOr : ScalarFn := fun _ _ a b _ => a ||| b
/-- XOR: a XOR b (R113). -/
def fnXor : ScalarFn := fun _ _ a b _ => a ^^^ b
/-- ANDN: a AND NOT b (R113). -/
def fnAndn : ScalarFn := fun n _ a b _ => a &&& (2 ^ n - 1 - b)
/-- SHL: a << (b mod n) (R113). -/
def fnShl : ScalarFn := fun n _ a b _ => a * 2 ^ (b % n) % 2 ^ n
/-- SHR: a >> (b mod n), zeros in (R113). -/
def fnShr : ScalarFn := fun n _ a b _ => a / 2 ^ (b % n)
/-- SAR: a >> (b mod n), copies of the sign in; zeros under width 10 (R110, R113). -/
def fnSar : ScalarFn := fun n sg a b _ => intBits n (asInt n sg a / 2 ^ (b % n))
/-- ROT: a rotated left by b mod n (R113). -/
def fnRot : ScalarFn := fun n _ a b _ => (a * 2 ^ (b % n) + a / 2 ^ (n - b % n)) % 2 ^ n
/-- CLZ: leading zeros of a (R113). -/
def fnClz : ScalarFn := fun n _ a _ _ => if a = 0 then n else n - 1 - Nat.log2 a
/-- POPC: one bits of a (R113). -/
def fnPopc : ScalarFn := fun n _ a _ _ => popcount n a
/-- MIN: the signed minimum (R113). -/
def fnMin : ScalarFn := fun n sg a b _ => if asInt n sg b < asInt n sg a then b else a
/-- MAX: the signed maximum (R113). -/
def fnMax : ScalarFn := fun n sg a b _ => if asInt n sg a < asInt n sg b then b else a
/-- MINU: the unsigned minimum (R113). -/
def fnMinu : ScalarFn := fun _ _ a b _ => if b < a then b else a
/-- MAXU: the unsigned maximum (R113). -/
def fnMaxu : ScalarFn := fun _ _ a b _ => if a < b then b else a
/-- SEL: a if bit 0 of c is set, else b (R113). -/
def fnSel : ScalarFn := fun _ _ a b c => if c % 2 = 1 then a else b
/-- MADD: the low bits of a × b + c (R113). -/
def fnMadd : ScalarFn := fun n _ a b c => (a * b + c) % 2 ^ n
/-- EXTR: the field of b[12:6] bits at b[5:0] (R113). -/
def fnExtr : ScalarFn := fun n _ a b _ => a / 2 ^ (b % 64 % n) % 2 ^ min (b / 64 % 128) n
/-- INS: b inserted at c[5:0] over c[12:6] bits (R113). -/
def fnIns : ScalarFn := fun n _ a b c => insField n a b (c % 64 % n) (min (c / 64 % 128) n)
/-- BSWAP: the bytes of a reversed (R113). -/
def fnBswap : ScalarFn := fun n _ a _ _ => byteSwap (n / 8) a
/-- SHADD: (a << (c mod n)) + b (R113). -/
def fnShadd : ScalarFn := fun n _ a b c => (a * 2 ^ (c % n) + b) % 2 ^ n

/-! ### The parts and meanings of the ops -/

/-- The part of ADD. -/
def semAdd (f : RegF) : Sem := semScalar f (.add f) fnAdd noFlags
/-- ADD standing alone. -/
def execAdd (f : RegF) (s : State) : Host.Outcome State Fault Refusal := issueOne (semAdd f) (.add f) s

/-- The part of SUB. -/
def semSub (f : RegF) : Sem := semScalar f (.sub f) fnSub noFlags
/-- SUB standing alone. -/
def execSub (f : RegF) (s : State) : Host.Outcome State Fault Refusal := issueOne (semSub f) (.sub f) s

/-- The part of MUL. -/
def semMul (f : RegF) : Sem := semScalar f (.mul f) fnMul noFlags
/-- MUL standing alone. -/
def execMul (f : RegF) (s : State) : Host.Outcome State Fault Refusal := issueOne (semMul f) (.mul f) s

/-- The part of MULH. -/
def semMulh (f : RegF) : Sem := semScalar f (.mulh f) fnMulh noFlags
/-- MULH standing alone. -/
def execMulh (f : RegF) (s : State) : Host.Outcome State Fault Refusal := issueOne (semMulh f) (.mulh f) s

/-- The part of DIV. -/
def semDiv (f : RegF) : Sem := semScalar f (.div f) fnDiv (divFlags f)
/-- DIV standing alone. -/
def execDiv (f : RegF) (s : State) : Host.Outcome State Fault Refusal := issueOne (semDiv f) (.div f) s

/-- The part of REM. -/
def semRem (f : RegF) : Sem := semScalar f (.rem f) fnRem (divFlags f)
/-- REM standing alone. -/
def execRem (f : RegF) (s : State) : Host.Outcome State Fault Refusal := issueOne (semRem f) (.rem f) s

/-- The part of AND. -/
def semAnd (f : RegF) : Sem := semScalar f (.and f) fnAnd noFlags
/-- AND standing alone. -/
def execAnd (f : RegF) (s : State) : Host.Outcome State Fault Refusal := issueOne (semAnd f) (.and f) s

/-- The part of OR. -/
def semOr (f : RegF) : Sem := semScalar f (.or f) fnOr noFlags
/-- OR standing alone. -/
def execOr (f : RegF) (s : State) : Host.Outcome State Fault Refusal := issueOne (semOr f) (.or f) s

/-- The part of XOR. -/
def semXor (f : RegF) : Sem := semScalar f (.xor f) fnXor noFlags
/-- XOR standing alone. -/
def execXor (f : RegF) (s : State) : Host.Outcome State Fault Refusal := issueOne (semXor f) (.xor f) s

/-- The part of ANDN. -/
def semAndn (f : RegF) : Sem := semScalar f (.andn f) fnAndn noFlags
/-- ANDN standing alone. -/
def execAndn (f : RegF) (s : State) : Host.Outcome State Fault Refusal := issueOne (semAndn f) (.andn f) s

/-- The part of SHL. -/
def semShl (f : RegF) : Sem := semScalar f (.shl f) fnShl noFlags
/-- SHL standing alone. -/
def execShl (f : RegF) (s : State) : Host.Outcome State Fault Refusal := issueOne (semShl f) (.shl f) s

/-- The part of SHR. -/
def semShr (f : RegF) : Sem := semScalar f (.shr f) fnShr noFlags
/-- SHR standing alone. -/
def execShr (f : RegF) (s : State) : Host.Outcome State Fault Refusal := issueOne (semShr f) (.shr f) s

/-- The part of SAR. -/
def semSar (f : RegF) : Sem := semScalar f (.sar f) fnSar noFlags
/-- SAR standing alone. -/
def execSar (f : RegF) (s : State) : Host.Outcome State Fault Refusal := issueOne (semSar f) (.sar f) s

/-- The part of ROT. -/
def semRot (f : RegF) : Sem := semScalar f (.rot f) fnRot noFlags
/-- ROT standing alone. -/
def execRot (f : RegF) (s : State) : Host.Outcome State Fault Refusal := issueOne (semRot f) (.rot f) s

/-- The part of CLZ. -/
def semClz (f : RegF) : Sem := semScalar f (.clz f) fnClz noFlags
/-- CLZ standing alone. -/
def execClz (f : RegF) (s : State) : Host.Outcome State Fault Refusal := issueOne (semClz f) (.clz f) s

/-- The part of POPC. -/
def semPopc (f : RegF) : Sem := semScalar f (.popc f) fnPopc noFlags
/-- POPC standing alone. -/
def execPopc (f : RegF) (s : State) : Host.Outcome State Fault Refusal := issueOne (semPopc f) (.popc f) s

/-- The part of MIN. -/
def semMin (f : RegF) : Sem := semScalar f (.min f) fnMin noFlags
/-- MIN standing alone. -/
def execMin (f : RegF) (s : State) : Host.Outcome State Fault Refusal := issueOne (semMin f) (.min f) s

/-- The part of MAX. -/
def semMax (f : RegF) : Sem := semScalar f (.max f) fnMax noFlags
/-- MAX standing alone. -/
def execMax (f : RegF) (s : State) : Host.Outcome State Fault Refusal := issueOne (semMax f) (.max f) s

/-- The part of MINU. -/
def semMinu (f : RegF) : Sem := semScalar f (.minu f) fnMinu noFlags
/-- MINU standing alone. -/
def execMinu (f : RegF) (s : State) : Host.Outcome State Fault Refusal := issueOne (semMinu f) (.minu f) s

/-- The part of MAXU. -/
def semMaxu (f : RegF) : Sem := semScalar f (.maxu f) fnMaxu noFlags
/-- MAXU standing alone. -/
def execMaxu (f : RegF) (s : State) : Host.Outcome State Fault Refusal := issueOne (semMaxu f) (.maxu f) s

/-- The part of SEL. -/
def semSel (f : RegF) : Sem := semScalar f (.sel f) fnSel noFlags
/-- SEL standing alone. -/
def execSel (f : RegF) (s : State) : Host.Outcome State Fault Refusal := issueOne (semSel f) (.sel f) s

/-- The part of MADD. -/
def semMadd (f : RegF) : Sem := semScalar f (.madd f) fnMadd noFlags
/-- MADD standing alone. -/
def execMadd (f : RegF) (s : State) : Host.Outcome State Fault Refusal := issueOne (semMadd f) (.madd f) s

/-- The part of EXTR. -/
def semExtr (f : RegF) : Sem := semScalar f (.extr f) fnExtr noFlags
/-- EXTR standing alone. -/
def execExtr (f : RegF) (s : State) : Host.Outcome State Fault Refusal := issueOne (semExtr f) (.extr f) s

/-- The part of INS. -/
def semIns (f : RegF) : Sem := semScalar f (.ins f) fnIns noFlags
/-- INS standing alone. -/
def execIns (f : RegF) (s : State) : Host.Outcome State Fault Refusal := issueOne (semIns f) (.ins f) s

/-- The part of BSWAP. -/
def semBswap (f : RegF) : Sem := semScalar f (.bswap f) fnBswap noFlags
/-- BSWAP standing alone. -/
def execBswap (f : RegF) (s : State) : Host.Outcome State Fault Refusal := issueOne (semBswap f) (.bswap f) s

/-- The part of SHADD. -/
def semShadd (f : RegF) : Sem := semScalar f (.shadd f) fnShadd noFlags
/-- SHADD standing alone. -/
def execShadd (f : RegF) (s : State) : Host.Outcome State Fault Refusal := issueOne (semShadd f) (.shadd f) s

/-! ### CMP and MOVC (R115, R116) -/

/-- The result of a comparison by the condition number of R115 and R119. -/
def cmpRes (k n : Nat) (sg : Bool) (a b : Nat) : Int :=
  let x := asInt n sg a
  let y := asInt n sg b
  match k with
  | 0 => if a = b then 1 else 0
  | 1 => if a = b then 0 else 1
  | 2 => if x < y then 1 else 0
  | 3 => if x < y then 0 else 1
  | 4 => if a < b then 1 else 0
  | 5 => if a < b then 0 else 1
  | _ => if x < y then -1 else if y < x then 1 else 0

/-- The condition number that C of a CMP holds (R115). -/
def cmpCond : Operand → Nat
  | .zero => 0 | .one => 1 | .ones => 2 | .lane => 3 | .ctxid => 4 | .core => 5 | _ => 6

/-- A comparison's result delivered: to a predicate as a mask pushed on the vector queue, else as a scalar (R115).
`c0` is the context at bundle entry, whose predicate a guarded-off comparison pushes and writes back (R9, R16), also over
an earlier op's write. Log 100, DESIGN CHOICE. -/
def cmpDeliver (w : Bool) (d : DReg) (act : Bool) (r : Int) (v : SVal) (c0 c : Ctx) : Ctx :=
  match w, d with
  | true, .pred p =>
    let m : PMask := if act then (if r = 0 then 0 else BitVec.allOnes 256) else c0.pred p
    (c.pushV { v := m.setWidth 2048, tag := .bits }).writeP p m
  | _, _ => c.resultS w d v

/-- The comparison of a CMP on the state at bundle entry. -/
def cmpOf (f : RegF) (s : State) : Int :=
  let n := scalarBits f
  let t := scalarOpTag f
  cmpRes (cmpCond f.c) n (scalarSigned f) ((s.rdS t f.a).v.toNat % 2 ^ n) ((s.rdS t f.b).v.toNat % 2 ^ n)

/-- The part of CMP (R115). -/
def semCmp (f : RegF) : Sem where
  tags := scalarTags f (.cmp f)
  charge := scalarCharge (.cmp f) f.g
  run s _ :=
    let act := s.active f.g
    let r := cmpOf f s
    let v : SVal := if act then { v := scalarExt f (intBits (scalarBits f) r), tag := scalarTag f } else scalarFirst f s
    { eff := Live.me (cmpDeliver f.w f.d act r v s.me) }
/-- CMP standing alone. -/
def execCmp (f : RegF) (s : State) : Host.Outcome State Fault Refusal := issueOne (semCmp f) (.cmp f) s

/-- The value MOVC delivers: A with tag T, or with A's own tag where T is 0xF or the op is guarded off (R116); a special A has
then INT64. Log 94, DESIGN CHOICE. -/
def movcOut (f : RegF) (s : State) : SVal :=
  let a := s.rdS (scalarOpTag f) f.a
  { v := a.v, tag := match f.t with | .tag t => if s.active f.g then t else a.tag | .any => a.tag }

/-- The part of MOVC (R116). -/
def semMovc (f : RegF) : Sem where
  charge := scalarCharge (.movc f) f.g
  run s _ := { eff := Live.me (fun c => c.resultS f.w f.d (movcOut f s)) }
/-- MOVC standing alone. -/
def execMovc (f : RegF) (s : State) : Host.Outcome State Fault Refusal := issueOne (semMovc f) (.movc f) s

end Sys2Proof.Machine
end

