-- ==== Sys2Proof/Machine/VecInt.lean ====
section
/-! DEFINITION. The lane model of the vector ops (R130-R136), the vector integer ops (R137-R139), VRETAG, VLI and
VADDI (R158, R160, R161). -/

namespace Sys2Proof.Machine

/-! ### The lane model (R130-R132) -/

/-- The tag of a vector op's T field; only VRETAG may hold 0x0 or 0xF (R130, R158). -/
def vT (f : RegF) : Tag := (vtag f).getD .undef
/-- Whether B is a broadcast scalar (R131). -/
def vX3 (f : RegF) : Bool := f.x.getLsbD 3

/-- Lanes of A at the width of T. -/
def vA (f : RegF) (s : State) : List Nat := lanesOf (tagWidth (vT f)) (s.rdV (vT f) f.a).v
/-- Lanes of B at the width of T: a vector, or the low bits of a scalar in every lane (R131). -/
def vB (f : RegF) (s : State) : List Nat :=
  let w := tagWidth (vT f)
  if vX3 f then List.replicate (laneCount w) ((s.rdS (vT f) f.b).v.toNat % 2 ^ w)
  else lanesOf w (s.rdV (vT f) f.b).v
/-- Lanes of C at the width of T. -/
def vC (f : RegF) (s : State) : List Nat := lanesOf (tagWidth (vT f)) (s.rdV (vT f) f.c).v
/-- The signed integer tag of a width (R143). -/
def sintOf (w : Nat) : Tag := match w with | 8 => .int8 | 16 => .int16 | 32 => .int32 | _ => .int64
/-- Lanes of a B that holds integers of the width of T, whatever T is: a special operand takes the integer tag its check
requires (R19, R66). -/
def vBInt (f : RegF) (s : State) : List Nat :=
  let w := tagWidth (vT f)
  if vX3 f then List.replicate (laneCount w) ((s.rdS .int64 f.b).v.toNat % 2 ^ w) else lanesOf w (s.rdV (sintOf w) f.b).v
/-- A mask operand: a special operand reads as integer lanes of the width of T (R66, R135). Log 38, DEDUCED. -/
def maskOpd (f : RegF) (o : Operand) (s : State) : VWord := (s.rdV (sintOf (tagWidth (vT f))) o).v
/-- A as a value with its tag. -/
def vFirst (f : RegF) (s : State) : Option VVal := some (s.rdV (vT f) f.a)

/-- The tags a source field accepts, with the one a failure reports, unless the entry names another: T, and INT64 or
INT32 for a scalar under an integer tag or BITS (R130, R131). -/
def acceptT (f : RegF) (x : Src) : List Tag × Tag :=
  let t := vT f
  if x.vec || !isLogicTag t then ([t], t) else ([t, .int64, .int32], t)

/-- The tag checks of a vector op in field order, by the tags each field accepts. -/
def vecTags (f : RegF) (i : Instr) (accept : Src → List Tag × Tag) (s : State) : Option TagFail :=
  (srcs i).findSome? (fun x => s.tagFail (vT f) (accept x).1 (accept x).2 x)

/-- The actual charge of a vector op: its declared weight by its charged lanes, 1 for an op guarded off whole
(R212). -/
def vecCharge (i : Instr) (mask free : List Bool) : Nat :=
  if mask.any id then (weightOf i * ((mask.zip free).filter (fun p => p.1 && !p.2)).length + mask.length - 1) / mask.length
  else 1

/-- A vector op with a vector result: result width and tag, tag checks, `first`, lane results with flags, and the
lanes that charge nothing. -/
def semVec (i : Instr) (w : Bool) (d : DReg) (g : Guard) (rw : Nat) (tag : Tag) (tags : State → Option TagFail)
    (first : State → Option VVal) (res : State → At → List FRes) (free : State → List Bool) : Sem where
  tags := tags
  charge s := vecCharge i (s.laneMask g (laneCount rw)) (free s)
  run s a :=
    let mask := s.laneMask g (laneCount rw)
    let r := res s a
    { flags := laneFlags mask r
      eff := Live.me (fun c => c.resultV w d (mergeV rw tag mask (first s) (r.map (·.1)))) }

/-- No lane is free of charge. -/
def noFree (rw : Nat) (_ : State) : List Bool := List.replicate (laneCount rw) false

/-! ### Masks (R135) -/

/-- The mask of lane conditions under a guard: an inactive lane keeps the predicate's old bit where D names one, and
is 0 elsewhere (R135). -/
def maskOf (w : Bool) (d : DReg) (c : Ctx) (mask cond : List Bool) : Nat :=
  let old : Nat → Bool := match w, d with | true, .pred p => (fun i => (c.pred p).getLsbD i) | _, _ => (fun _ => false)
  joinNat 1 ((mask.zip cond).zipIdx.map (fun p => bnat (if p.1.1 then p.1.2 else old p.2)))

/-- Delivering a mask: pushed with tag BITS; written to a predicate or a vector register with W (R8, R135). -/
def deliverMask (w : Bool) (d : DReg) (m : Nat) (c : Ctx) : Ctx :=
  let v : VVal := { v := BitVec.ofNat 2048 m, tag := .bits }
  match w, d with
  | true, .pred p => (c.pushV v).writeP p (BitVec.ofNat 256 m)
  | _, _ => c.resultV w d v

/-- A mask-result op (R135). -/
def semMask (f : RegF) (i : Instr) (tags : State → Option TagFail) (cond : State → List (Bool × Flags))
    (free : State → List Bool) : Sem where
  tags := tags
  charge s := vecCharge i (s.laneMask f.g (laneCount (tagWidth (vT f)))) (free s)
  run s _ :=
    let mask := s.laneMask f.g (laneCount (tagWidth (vT f)))
    let r := cond s
    { flags := laneFlags mask (r.map (fun p => (0, p.2)))
      eff := Live.me (deliverMask f.w f.d (maskOf f.w f.d s.me mask (r.map (·.1)))) }

/-! ### Vector integer ops (R137) -/

/-- A lane function of R137: the tag and the three lanes. -/
abbrev LaneFn := Tag → Nat → Nat → Nat → Nat

/-- The lane results of an integer op on the state at bundle entry; a lane function that does not use B or C ignores
what those fields hold. -/
def intLanes (f : RegF) (fn : LaneFn) (s : State) : List FRes :=
  ((vA f s).zip ((vB f s).zip (vC f s))).map (fun p => (fn (vT f) p.1 p.2.1 p.2.2, 0))

/-- A lane-wise integer op. -/
def semVInt (f : RegF) (i : Instr) (tag : Tag) (fn : LaneFn) : Sem :=
  semVec i f.w f.d f.g (tagWidth (vT f)) tag (vecTags f i (acceptT f)) (vFirst f) (fun s _ => intLanes f fn s)
    (noFree (tagWidth (vT f)))

/-- VADD: a + b (R137). -/
def fnVadd : LaneFn := fun t a b _ => (a + b) % 2 ^ tagWidth t
/-- VSUB: a - b (R137). -/
def fnVsub : LaneFn := fun t a b _ => (a + (2 ^ tagWidth t - b)) % 2 ^ tagWidth t
/-- VMUL: the low bits of a × b (R137). -/
def fnVmul : LaneFn := fun t a b _ => a * b % 2 ^ tagWidth t
/-- VMULH: the high bits of the product, signed (R137). -/
def fnVmulh : LaneFn := fun t a b _ => intBits (tagWidth t) (intVal t a * intVal t b / 2 ^ tagWidth t)
/-- VMIN: the minimum, signed (R137). -/
def fnVmin : LaneFn := fun t a b _ => if intVal t b < intVal t a then b else a
/-- VMAX: the maximum, signed (R137). -/
def fnVmax : LaneFn := fun t a b _ => if intVal t a < intVal t b then b else a
/-- VAND: a AND b (R137). -/
def fnVand : LaneFn := fun _ a b _ => a &&& b
/-- VOR: a OR b (R137). -/
def fnVor : LaneFn := fun _ a b _ => a ||| b
/-- VXOR: a XOR b (R137). -/
def fnVxor : LaneFn := fun _ a b _ => a ^^^ b
/-- VANDN: a AND NOT b (R137). -/
def fnVandn : LaneFn := fun t a b _ => a &&& (2 ^ tagWidth t - 1 - b)
/-- VSHL: a << (b mod w), zeros in (R137). -/
def fnVshl : LaneFn := fun t a b _ => a * 2 ^ (b % tagWidth t) % 2 ^ tagWidth t
/-- VSHR: a >> (b mod w), zeros in (R137). -/
def fnVshr : LaneFn := fun t a b _ => a / 2 ^ (b % tagWidth t)
/-- VSAR: a >> (b mod w), copies of the sign in; zeros for UINT8 (R137). -/
def fnVsar : LaneFn := fun t a b _ => intBits (tagWidth t) (intVal t a / 2 ^ (b % tagWidth t))
/-- VABS: |a|, UINT8 unchanged (R137). -/
def fnVabs : LaneFn := fun t a _ _ => intBits (tagWidth t) (if intVal t a < 0 then -intVal t a else intVal t a)
/-- VMADD: the low bits of a × b + c (R137). -/
def fnVmadd : LaneFn := fun t a b c => (a * b + c) % 2 ^ tagWidth t
/-- VPOPC: one bits of a (R137). -/
def fnVpopc : LaneFn := fun t a _ _ => popcount (tagWidth t) a

/-- The part of VADD. -/
def semVadd (f : RegF) : Sem := semVInt f (.vadd f) (vT f) fnVadd
/-- VADD standing alone. -/
def execVadd (f : RegF) (s : State) : Host.Outcome State Fault Refusal := issueOne (semVadd f) (.vadd f) s

/-- The part of VSUB. -/
def semVsub (f : RegF) : Sem := semVInt f (.vsub f) (vT f) fnVsub
/-- VSUB standing alone. -/
def execVsub (f : RegF) (s : State) : Host.Outcome State Fault Refusal := issueOne (semVsub f) (.vsub f) s

/-- The part of VMUL. -/
def semVmul (f : RegF) : Sem := semVInt f (.vmul f) (vT f) fnVmul
/-- VMUL standing alone. -/
def execVmul (f : RegF) (s : State) : Host.Outcome State Fault Refusal := issueOne (semVmul f) (.vmul f) s

/-- The part of VMULH. -/
def semVmulh (f : RegF) : Sem := semVInt f (.vmulh f) (vT f) fnVmulh
/-- VMULH standing alone. -/
def execVmulh (f : RegF) (s : State) : Host.Outcome State Fault Refusal := issueOne (semVmulh f) (.vmulh f) s

/-- The part of VMIN. -/
def semVmin (f : RegF) : Sem := semVInt f (.vmin f) (vT f) fnVmin
/-- VMIN standing alone. -/
def execVmin (f : RegF) (s : State) : Host.Outcome State Fault Refusal := issueOne (semVmin f) (.vmin f) s

/-- The part of VMAX. -/
def semVmax (f : RegF) : Sem := semVInt f (.vmax f) (vT f) fnVmax
/-- VMAX standing alone. -/
def execVmax (f : RegF) (s : State) : Host.Outcome State Fault Refusal := issueOne (semVmax f) (.vmax f) s

/-- The part of VAND. -/
def semVand (f : RegF) : Sem := semVInt f (.vand f) (vT f) fnVand
/-- VAND standing alone. -/
def execVand (f : RegF) (s : State) : Host.Outcome State Fault Refusal := issueOne (semVand f) (.vand f) s

/-- The part of VOR. -/
def semVor (f : RegF) : Sem := semVInt f (.vor f) (vT f) fnVor
/-- VOR standing alone. -/
def execVor (f : RegF) (s : State) : Host.Outcome State Fault Refusal := issueOne (semVor f) (.vor f) s

/-- The part of VXOR. -/
def semVxor (f : RegF) : Sem := semVInt f (.vxor f) (vT f) fnVxor
/-- VXOR standing alone. -/
def execVxor (f : RegF) (s : State) : Host.Outcome State Fault Refusal := issueOne (semVxor f) (.vxor f) s

/-- The part of VANDN. -/
def semVandn (f : RegF) : Sem := semVInt f (.vandn f) (vT f) fnVandn
/-- VANDN standing alone. -/
def execVandn (f : RegF) (s : State) : Host.Outcome State Fault Refusal := issueOne (semVandn f) (.vandn f) s

/-- The part of VSHL. -/
def semVshl (f : RegF) : Sem := semVInt f (.vshl f) (vT f) fnVshl
/-- VSHL standing alone. -/
def execVshl (f : RegF) (s : State) : Host.Outcome State Fault Refusal := issueOne (semVshl f) (.vshl f) s

/-- The part of VSHR. -/
def semVshr (f : RegF) : Sem := semVInt f (.vshr f) (vT f) fnVshr
/-- VSHR standing alone. -/
def execVshr (f : RegF) (s : State) : Host.Outcome State Fault Refusal := issueOne (semVshr f) (.vshr f) s

/-- The part of VSAR. -/
def semVsar (f : RegF) : Sem := semVInt f (.vsar f) (vT f) fnVsar
/-- VSAR standing alone. -/
def execVsar (f : RegF) (s : State) : Host.Outcome State Fault Refusal := issueOne (semVsar f) (.vsar f) s

/-- The part of VABS. -/
def semVabs (f : RegF) : Sem := semVInt f (.vabs f) (vT f) fnVabs
/-- VABS standing alone. -/
def execVabs (f : RegF) (s : State) : Host.Outcome State Fault Refusal := issueOne (semVabs f) (.vabs f) s

/-- The part of VMADD. -/
def semVmadd (f : RegF) : Sem := semVInt f (.vmadd f) (vT f) fnVmadd
/-- VMADD standing alone. -/
def execVmadd (f : RegF) (s : State) : Host.Outcome State Fault Refusal := issueOne (semVmadd f) (.vmadd f) s

/-- The part of VPOPC. -/
def semVpopc (f : RegF) : Sem := semVInt f (.vpopc f) (if vT f = .bits then .uint8 else vT f) fnVpopc
/-- VPOPC standing alone. -/
def execVpopc (f : RegF) (s : State) : Host.Outcome State Fault Refusal := issueOne (semVpopc f) (.vpopc f) s

/-- The tags VSEL accepts: C carries BITS (R137). -/
def acceptSel (f : RegF) (x : Src) : List Tag × Tag := if x.idx = 2 then ([.bits], .bits) else acceptT f x

/-- The lanes of VSEL: a where bit i of C is 1, else b (R137). -/
def selLanes (f : RegF) (s : State) : List FRes :=
  let m := maskOpd f f.c s
  ((vA f s).zip (vB f s)).zipIdx.map (fun p => (if m.getLsbD p.2 then p.1.1 else p.1.2, 0))

/-- The part of VSEL. -/
def semVsel (f : RegF) : Sem :=
  semVec (.vsel f) f.w f.d f.g (tagWidth (vT f)) (vT f) (vecTags f (.vsel f) (acceptSel f)) (vFirst f)
    (fun s _ => selLanes f s) (noFree (tagWidth (vT f)))
/-- VSEL standing alone. -/
def execVsel (f : RegF) (s : State) : Host.Outcome State Fault Refusal := issueOne (semVsel f) (.vsel f) s

/-- The condition of a VCMP lane (R138). -/
def vcmpCond (t : Tag) (k a b : Nat) : Bool :=
  match k with
  | 0 => a == b
  | 1 => a != b
  | 2 => decide (intVal t a < intVal t b)
  | 3 => !decide (intVal t a < intVal t b)
  | 4 => decide (a < b)
  | _ => !decide (a < b)

/-- The part of VCMP (R138). -/
def semVcmp (f : RegF) : Sem :=
  semMask f (.vcmp f) (vecTags f (.vcmp f) (acceptT f))
    (fun s => ((vA f s).zip (vB f s)).map (fun p => (vcmpCond (vT f) (f.x.toNat % 8) p.1 p.2, 0)))
    (noFree (tagWidth (vT f)))
/-- VCMP standing alone. -/
def execVcmp (f : RegF) (s : State) : Host.Outcome State Fault Refusal := issueOne (semVcmp f) (.vcmp f) s

/-- The tags VDOT4 accepts: C carries INT32 (R139). -/
def acceptDot4 (f : RegF) (x : Src) : List Tag × Tag := if x.idx = 2 then ([.int32], .int32) else acceptT f x

/-- The 256 bytes of B of a VDOT4: with X[3] the four low bytes of the scalar serve every lane (R139). -/
def dot4B (f : RegF) (s : State) : List Nat :=
  if vX3 f then (List.replicate 64 (splitNat 8 4 (s.rdS (vT f) f.b).v.toNat)).flatten
  else lanesOf 8 (s.rdV (vT f) f.b).v

/-- The dot product of four byte pairs (R139). -/
def dot4 (t : Tag) (a b : List Nat) : Int := ((a.zip b).map (fun p => intVal t p.1 * intVal t p.2)).sum

/-- The lanes of VDOT4 (R139). -/
def dot4Lanes (f : RegF) (s : State) : List FRes :=
  let a := lanesOf 8 (s.rdV (vT f) f.a).v
  let b := dot4B f s
  (lanesOf 32 (s.rdV .int32 f.c).v).zipIdx.map (fun p =>
    (intBits 32 ((p.1 : Int) + dot4 (vT f) ((a.drop (4 * p.2)).take 4) ((b.drop (4 * p.2)).take 4)), 0))

/-- The part of VDOT4 (R139). -/
def semVdot4 (f : RegF) : Sem :=
  semVec (.vdot4 f) f.w f.d f.g 32 .int32 (vecTags f (.vdot4 f) (acceptDot4 f)) (fun s => some (s.rdV .int32 f.c))
    (fun s _ => dot4Lanes f s) (noFree 32)
/-- VDOT4 standing alone. -/
def execVdot4 (f : RegF) (s : State) : Host.Outcome State Fault Refusal := issueOne (semVdot4 f) (.vdot4 f) s

/-! ### VRETAG, VLI, VADDI (R158, R160, R161) -/

/-- The tag special operands carry in a VRETAG (R66); under T = 0xF it is INT64. Log 94, DESIGN CHOICE. -/
def retagSpecial (f : RegF) : Tag := match f.t with | .tag t => t | .any => .int64

/-- The value VRETAG delivers: A's bits with the new tag; A itself where no lane of the new tag's width is active
(R132, R158). -/
def retagOut (f : RegF) (s : State) : VVal :=
  let a := s.rdV (retagSpecial f) f.a
  let w := match f.t with | .tag t => tagWidth t | .any => 8
  { v := a.v
    tag := match f.t with
      | .any => uncheckedTag f.a a.tag
      | .tag t => if (s.laneMask f.g (laneCount w)).any id then t else uncheckedTag f.a a.tag }

/-- The part of VRETAG (R158). No tag is checked. -/
def semVretag (f : RegF) : Sem where
  charge s :=
    let w := match f.t with | .tag t => tagWidth t | .any => 8
    vecCharge (.vretag f) (s.laneMask f.g (laneCount w)) (noFree w s)
  run s _ := { eff := Live.me (fun c => c.resultV f.w f.d (retagOut f s)) }
/-- VRETAG standing alone. -/
def execVretag (f : RegF) (s : State) : Host.Outcome State Fault Refusal := issueOne (semVretag f) (.vretag f) s

/-- T of a VLI, in A[3:0] (R160). -/
def vliTag (f : ImmF) : Tag := tagOf ((operandCode f.a).toNat % 16)

/-- The lane value of a VLI (R160). -/
def vliLane (f : ImmF) : Nat :=
  match vliTag f with
  | .int64 => (f.imm.signExtend 64).toNat
  | .fp64 => (cvtFF (fmtOf .fp32) (fmtOf .fp64) .rne 0 f.imm.toNat).1
  | t => f.imm.toNat % 2 ^ tagWidth t

/-- The part of VLI (R160): an inactive lane is zero; a signalling FP32 NaN widened to FP64 sets no flag. Log 109, DESIGN CHOICE. -/
def semVli (f : ImmF) : Sem :=
  let w := tagWidth (vliTag f)
  semVec (.vli f) f.w f.d f.g w (vliTag f) (fun _ => none) (fun _ => none)
    (fun _ _ => List.replicate (laneCount w) (vliLane f, 0)) (noFree w)
/-- VLI standing alone. -/
def execVli (f : ImmF) (s : State) : Host.Outcome State Fault Refusal := issueOne (semVli f) (.vli f) s

/-- A of a VADDI (R161); a special A has tag INT64 and 64-bit lanes. Log 94, DESIGN CHOICE. -/
def vaddiA (f : ImmF) (s : State) : VVal := s.rdV .int64 f.a

/-- The value VADDI delivers: the low w bits of imm32, sign-extended where w is 64, added in every active lane of A,
with A's tag (R132, R161). -/
def vaddiOut (f : ImmF) (s : State) : VVal :=
  let a := vaddiA f s
  let w := tagWidth a.tag
  let k := (f.imm.signExtend 64).toNat
  mergeV w a.tag (s.laneMask f.g (laneCount w)) (some a) ((lanesOf w a.v).map (fun x => (x + k) % 2 ^ w))

/-- The part of VADDI: A carries an integer tag; a trap names INT64 as the tag required, for the op has no T (R161, R193). Log 108,
DESIGN CHOICE. -/
def semVaddi (f : ImmF) : Sem where
  tags s := s.tagFail .int64 [.int8, .uint8, .int16, .int32, .int64] .int64 ⟨0, f.a, true⟩
  charge s :=
    let w := tagWidth (vaddiA f s).tag
    vecCharge (.vaddi f) (s.laneMask f.g (laneCount w)) (noFree w s)
  run s _ := { eff := Live.me (fun c => c.resultV f.w f.d (vaddiOut f s)) }
/-- VADDI standing alone. -/
def execVaddi (f : ImmF) (s : State) : Host.Outcome State Fault Refusal := issueOne (semVaddi f) (.vaddi f) s

end Sys2Proof.Machine
end

