-- ==== Sys2Proof/Machine/Memory.lean ====
section
/-! DEFINITION. Scalar and vector loads and stores, atomics, marks and fences, cache maintenance (R164-R181). Loads
are performed at retirement (log 12, DESIGN CHOICE); stores enter the store queue. -/

namespace Sys2Proof.Machine

/-! ### Addresses and accesses -/

/-- The effective address A + sext(disp) (R171, R175, R177). -/
def memEA (f : MemF) (s : State) : Word := s.val f.a + f.disp.signExtend 64

/-- Base of a private window: BASE with its low SIZE bits zero (R24). -/
def privBase (x : Word) : Word := x &&& ~~~(wd (2 ^ (16 + bitsOf 3 0 x) - 1))
/-- Size of a private window (R24). -/
def privSize (x : Word) : Nat := 2 ^ (16 + bitsOf 3 0 x)

/-- The access of a scalar op: kind 0 load, 1 store (R178). -/
def scalarAcc (f : MemF) (kind : Nat) (s : State) : Acc1 := { lane := 0, va := memEA f s, n := sizeBytes f.sz, kind := kind }
/-- The access of LDP and STP: an offset into the private window (R20, R171). -/
def privAcc (f : MemF) (kind : Nat) (s : State) : Acc1 :=
  let x := s.me.csr.privbase
  { lane := 0, va := privBase x + memEA f s, n := sizeBytes f.sz, kind := kind,
    priv := some ((memEA f s).toNat, privSize x) }

/-- The implicit MARK before a load under MMREV 1 and 2, before a store under MMREV 1 (R181). -/
def State.implicitMark (s : State) (load : Bool) : State :=
  if s.me.csr.mmrev ≤ 1 || (load && s.me.csr.mmrev == 2) then s.drainMe else s

/-- The state in which a load is performed: after its walks, with the context's earlier stores to its words performed
(R166, R167, R344). Log 12, DESIGN CHOICE. -/
def State.beforeLoad (s : State) (a : Acc1) : State :=
  let s := s.touchAcc s.cur.core s.myTask a
  s.drainFor s.cur.core s.cur.ctx (s.locs s.cur.core s.myTask a.va a.n false)

/-- Performing a load: its bytes as a number and whether one came from a poisoned line (R166, R167, R179). -/
def State.load (s : State) (a : Acc1) : State × Nat × Bool :=
  let s := s.beforeLoad a
  let r := s.loadNat s.cur.core (s.locs s.cur.core s.myTask a.va a.n false)
  (s, r.1, r.2)

/-- The cells of a store of `n` bytes of a number. -/
def State.cellsAt (s : State) (va : Word) (n x : Nat) : List (Loc × Byte) :=
  (s.locs s.cur.core s.myTask va n true).zip (leBytes n x)

/-- Placing a store in the store queue after its walks (R58, R166). -/
def State.storeNat (s : State) (a : Acc1) (x : Nat) : State :=
  let s := s.touchAcc s.cur.core s.myTask a
  s.enqueue (.store (s.cellsAt a.va a.n x))

/-- Changing the state of a retiring bundle. -/
def Live.st (f : State → State) (L : Live) : Live := { L with s := f L.s }

/-! ### Scalar loads and stores (R171) -/

/-- The value of a scalar load, sign- or zero-extended, poisoned with its address (R171, R179). -/
def loadedS (sext : Bool) (a : Acc1) (x : Nat) (bad : Bool) : SVal :=
  { v := if sext then wdi (asInt (8 * a.n) true x) else wd x, tag := .int64, poison := if bad then some a.va else none }

/-- A scalar load by its access; guarded off it accesses nothing and pushes A (R16, R17). -/
def semLoad (f : MemF) (i : Instr) (sext : Bool) (acc : State → Acc1) : Sem where
  charge := scalarCharge i f.g
  run s _ :=
    if s.active f.g then
      let a := acc s
      { accs := [a]
        eff := Live.st (fun l =>
          let r := (l.implicitMark true).load a
          r.1.updMe (fun c => c.resultS f.w f.d (loadedS sext a r.2.1 r.2.2))) }
    else
      let a := s.rdS .int64 f.a
      { eff := Live.me (fun c => c.resultS f.w f.d { v := a.v, tag := a.tag }) }

/-- A scalar store by its access; guarded off it accesses nothing (R17). -/
def semStore (f : MemF) (i : Instr) (acc : State → Acc1) : Sem where
  charge := scalarCharge i f.g
  run s _ :=
    if s.active f.g then
      let a := acc s
      { accs := [a], eff := Live.st (fun l => (l.implicitMark false).storeNat a (s.val f.b).toNat) }
    else {}

/-- The part of LD (R171). -/
def semLd (f : MemF) : Sem := semLoad f (.ld f) true (scalarAcc f 0)
/-- LD standing alone. -/
def execLd (f : MemF) (s : State) : Host.Outcome State Fault Refusal := issueOne (semLd f) (.ld f) s

/-- The part of LDU (R171). -/
def semLdu (f : MemF) : Sem := semLoad f (.ldu f) false (scalarAcc f 0)
/-- LDU standing alone. -/
def execLdu (f : MemF) (s : State) : Host.Outcome State Fault Refusal := issueOne (semLdu f) (.ldu f) s

/-- The part of ST (R171). -/
def semSt (f : MemF) : Sem := semStore f (.st f) (scalarAcc f 1)
/-- ST standing alone. -/
def execSt (f : MemF) (s : State) : Host.Outcome State Fault Refusal := issueOne (semSt f) (.st f) s

/-- The part of LDP (R171). -/
def semLdp (f : MemF) : Sem := semLoad f (.ldp f) true (privAcc f 0)
/-- LDP standing alone. -/
def execLdp (f : MemF) (s : State) : Host.Outcome State Fault Refusal := issueOne (semLdp f) (.ldp f) s

/-- The part of STP (R171). -/
def semStp (f : MemF) : Sem := semStore f (.stp f) (privAcc f 1)
/-- STP standing alone. -/
def execStp (f : MemF) (s : State) : Host.Outcome State Fault Refusal := issueOne (semStp f) (.stp f) s

/-! ### Vector loads and stores (R172-R174) -/

/-- The displacement or stride of a vector access, disp[17:0] (R172). -/
def vdisp (f : MemF) : Word := (f.disp.setWidth 18).signExtend 64
/-- The tag special operands carry in a vector access: T, or INT64 under T = 0xF, where a store has no result to take a tag
from. Log 94, DESIGN CHOICE. -/
def vmemOpTag (f : MemF) : Tag := if memT f = 15 then .int64 else tagOf (memT f)

/-- The data operand of a vector store. -/
def vstData (f : MemF) (o : Operand) (s : State) : VVal :=
  let x := s.rdV (vmemOpTag f) o
  if memT f = 15 then { x with tag := uncheckedTag o x.tag } else x
/-- The tag that fixes width and lanes: T, or the data operand's under T = 0xF (R172). -/
def vmemTag (f : MemF) (o : Option Operand) (s : State) : Tag :=
  if memT f = 15 then (match o with | some x => (vstData f x s).tag | none => .undef) else tagOf (memT f)

/-- The addresses of the elements by lane: contiguous, strided, or indexed; none for a lane that has no element or a
sentinel index (R173, R174). -/
inductive VAddr where
  | contiguous
  | strided
  | indexed
  deriving DecidableEq, Repr

/-- The address of element `j` at `n` bytes (R173, R174). -/
def vaddr (f : MemF) (k : VAddr) (n : Nat) (s : State) (j : Nat) : Option Word :=
  match k with
  | .contiguous => some (s.val f.a + vdisp f + wd (j * n))
  | .strided => some (s.val f.a + wd j * vdisp f)
  | .indexed =>
    let x := laneAt 32 (s.rdV .int32 f.b).v j
    if 64 ≤ j ∨ x = 0xFFFFFFFF then none else some (s.val f.a + vdisp f + wd (x * n))

/-- The active elements of a vector access: lane and address (R17, R172). Log 34, DEDUCED. -/
def velems (f : MemF) (k : VAddr) (t : Tag) (s : State) : List (Nat × Word) :=
  (List.range (laneCount (tagWidth t))).filterMap (fun j =>
    if s.me.guardBit f.g j then (vaddr f k (tagWidth t / 8) s j).map (fun v => (j, v)) else none)

/-- The accesses of the elements; a contiguous access that lies partly inside the scratchpad and partly outside fails
as a whole (R165). Log 34, DEDUCED. -/
def vaccs (k : VAddr) (n kind : Nat) (els : List (Nat × Word)) (s : State) : List Acc1 :=
  let own (v : Word) : Bool := (s.ownOff s.cur.core v).isSome
  let mixed := k == .contiguous && els.any (fun e => own e.2) && els.any (fun e => !own e.2)
  els.map (fun e => { lane := e.1, va := e.2, n := n, kind := kind, mixed := mixed })

/-- Performing the loads of the elements in lane order: for each lane its number, with the poison (R166, R179). -/
def State.loadElems (n : Nat) : List (Nat × Word) → State → State × List (Nat × Nat) × Option Word
  | [], s => (s, [], none)
  | e :: rest, s =>
    let r := s.load { lane := e.1, va := e.2, n := n, kind := 0 }
    let q := State.loadElems n rest r.1
    (q.1, (e.1, r.2.1) :: q.2.1, if r.2.2 then some e.2 else q.2.2)

/-- A vector of loaded elements; the lanes not loaded are zero (R172). -/
def vloaded (t : Tag) (els : List (Nat × Nat)) (poison : Option Word) : VVal :=
  { v := packLanes (tagWidth t) ((List.range (laneCount (tagWidth t))).map (fun j =>
      match els.find? (fun e => e.1 == j) with | some e => e.2 | none => 0)),
    tag := t, poison := poison }

/-- The charge of a vector access: its weight, 1 where no lane is active (R212). -/
def vmemCharge (i : Instr) (g : Guard) (t : Tag) (s : State) : Nat :=
  if (s.laneMask g (laneCount (tagWidth t))).any id then weightOf i else 1

/-- A vector load of elements (R173, R174). A poisoned value of several addresses names its first poisoned element (R179). Log
34, DEDUCED. -/
def semVLoad (f : MemF) (i : Instr) (k : VAddr) (tags : State → Option TagFail) : Sem where
  tags := tags
  charge := vmemCharge i f.g (tagOf (memT f))
  run s _ :=
    let t := tagOf (memT f)
    let els := velems f k t s
    { accs := vaccs k (tagWidth t / 8) 0 els s
      eff := Live.st (fun l =>
        let r := State.loadElems (tagWidth t / 8) els (l.implicitMark true)
        let at0 := if k == .contiguous then els.head?.map (·.2) else r.2.2
        r.1.updMe (fun c => c.resultV f.w f.d (vloaded t r.2.1 (if r.2.2.isSome then at0 else none)))) }

/-- The tag check of a store's data operand (R172). -/
def vstTags (f : MemF) (x : Src) (s : State) : Option TagFail :=
  if memT f = 15 then none else s.tagFail (vmemOpTag f) [tagOf (memT f)] (tagOf (memT f)) x

/-- Storing elements: one store, in ascending lane order (R172), or one store for each element (R174). -/
def State.storeElems (s : State) (each : Bool) (n : Nat) (data : VWord) (els : List (Nat × Word)) : State :=
  let s := els.foldl (fun s e => s.touchAcc s.cur.core s.myTask { lane := e.1, va := e.2, n := n, kind := 1 }) s
  let cells := els.map (fun e => s.cellsAt e.2 n (laneAt (8 * n) data e.1))
  if each then cells.foldl (fun s c => s.enqueue (.store c)) s
  else if cells.isEmpty then s else s.enqueue (.store cells.flatten)

/-- A vector store of elements from operand `o` (R172-R174). -/
def semVStore (f : MemF) (i : Instr) (k : VAddr) (o : Operand) (tags : State → Option TagFail) : Sem where
  tags := tags
  charge s := vmemCharge i f.g (vmemTag f (some o) s) s
  run s _ :=
    let t := vmemTag f (some o) s
    let n := tagWidth t / 8
    let els := velems f k t s
    let data := (vstData f o s).v
    { accs := vaccs k n 1 els s
      eff := Live.st (fun l => (l.implicitMark false).storeElems (k == .indexed) n data els) }

/-- The index vector carries INT32 (R174). -/
def idxTags (f : MemF) (s : State) : Option TagFail := s.tagFail (vmemOpTag f) [.int32] .int32 ⟨1, f.b, true⟩

/-- The part of VLD (R173). -/
def semVld (f : MemF) : Sem := semVLoad f (.vld f) .contiguous (fun _ => none)
/-- VLD standing alone. -/
def execVld (f : MemF) (s : State) : Host.Outcome State Fault Refusal := issueOne (semVld f) (.vld f) s

/-- The part of VST (R173). -/
def semVst (f : MemF) : Sem := semVStore f (.vst f) .contiguous f.b (vstTags f ⟨1, f.b, true⟩)
/-- VST standing alone. -/
def execVst (f : MemF) (s : State) : Host.Outcome State Fault Refusal := issueOne (semVst f) (.vst f) s

/-- The part of VLDS (R173). -/
def semVlds (f : MemF) : Sem := semVLoad f (.vlds f) .strided (fun _ => none)
/-- VLDS standing alone. -/
def execVlds (f : MemF) (s : State) : Host.Outcome State Fault Refusal := issueOne (semVlds f) (.vlds f) s

/-- The part of VSTS (R173). -/
def semVsts (f : MemF) : Sem := semVStore f (.vsts f) .strided f.b (vstTags f ⟨1, f.b, true⟩)
/-- VSTS standing alone. -/
def execVsts (f : MemF) (s : State) : Host.Outcome State Fault Refusal := issueOne (semVsts f) (.vsts f) s

/-- The part of VLDX (R174). -/
def semVldx (f : MemF) : Sem := semVLoad f (.vldx f) .indexed (idxTags f)
/-- VLDX standing alone. -/
def execVldx (f : MemF) (s : State) : Host.Outcome State Fault Refusal := issueOne (semVldx f) (.vldx f) s

/-- The part of VSTX: its data is in D (R67, R174). -/
def semVstx (f : MemF) : Sem :=
  semVStore f (.vstx f) .indexed (dregAsOperand f.d) (fun s =>
    match idxTags f s with
    | some x => some x
    | none => vstTags f ⟨3, dregAsOperand f.d, true⟩ s)
/-- VSTX standing alone. -/
def execVstx (f : MemF) (s : State) : Host.Outcome State Fault Refusal := issueOne (semVstx f) (.vstx f) s

/-- The access of VLDB, one for all lanes; none where no lane is active (R173). Log 34, DEDUCED. -/
def vldbAcc (f : MemF) (s : State) : Option Acc1 :=
  let t := tagOf (memT f)
  if (s.laneMask f.g (laneCount (tagWidth t))).any id then
    some { lane := 0, va := s.val f.a + vdisp f, n := tagWidth t / 8, kind := 0 }
  else none

/-- The part of VLDB (R173). -/
def semVldb (f : MemF) : Sem where
  charge := vmemCharge (.vldb f) f.g (tagOf (memT f))
  run s _ :=
    let t := tagOf (memT f)
    let mask := s.laneMask f.g (laneCount (tagWidth t))
    match vldbAcc f s with
    | none => { eff := Live.me (fun c => c.resultV f.w f.d { v := 0, tag := t }) }
    | some a =>
      { accs := [a]
        eff := Live.st (fun l =>
          let r := (l.implicitMark true).load a
          r.1.updMe (fun c => c.resultV f.w f.d
            { v := packLanes (tagWidth t) (mask.map (fun b => if b then r.2.1 else 0)), tag := t,
              poison := if r.2.2 then some a.va else none })) }
/-- VLDB standing alone. -/
def execVldb (f : MemF) (s : State) : Host.Outcome State Fault Refusal := issueOne (semVldb f) (.vldb f) s

/-! ### Atomics (R175, R176) -/

/-- An atomic's function: N, the old value, b, and the expected value of ACAS. -/
abbrev AtomFn := Nat → Nat → Nat → Nat → Nat

/-- The old value an atomic pushes (R175). -/
def atomOld (f : MemF) (zext : Bool) (va : Word) (old : Nat) (bad : Bool) : SVal :=
  let n := 8 * sizeBytes f.sz
  { v := if n = 32 ∧ !zext then wdi (asInt 32 true old) else wd old, tag := if n = 32 then .int32 else .int64,
    poison := if bad then some va else none }

/-- An atomic performed: the earlier stores first, then read and write in one; a poisoned line is not written
(R167, R176, R179). -/
def State.atomic (s : State) (a : Acc1) (fn : Nat → Nat) : State × Nat × Bool :=
  let s := s.drainMe
  let s := s.touchAcc s.cur.core s.myTask a
  let r := s.loadNat s.cur.core (s.locs s.cur.core s.myTask a.va a.n true)
  if r.2 then (s, r.1, true)
  else (s.performEnt s.cur.core (.store (s.cellsAt a.va a.n (fn r.1))), r.1, false)

/-- An atomic by its function, with the expected value where it has one (R175). -/
def semAtom (f : MemF) (i : Instr) (zext : Bool) (fn : AtomFn) (expect : State → Nat) : Sem where
  charge := scalarCharge i f.g
  run s _ :=
    let n := 8 * sizeBytes f.sz
    if s.active f.g then
      let a : Acc1 := { lane := 0, va := memEA f s, n := sizeBytes f.sz, kind := 2, aligned := true }
      let b := (s.val f.b).toNat % 2 ^ n
      let e := expect s % 2 ^ n
      { accs := [a]
        eff := Live.st (fun l =>
          let r := l.atomic a (fun old => fn n old b e)
          r.1.updMe (fun c => c.resultS f.w f.d (atomOld f zext a.va r.2.1 r.2.2))) }
    else
      let a := s.rdS (if n = 32 then .int32 else .int64) f.a
      { eff := Live.me (fun c => c.resultS f.w f.d { v := a.v, tag := a.tag }) }

/-- No expected value. -/
def noExpect (_ : State) : Nat := 0

/-- AADD: old + b (R175). -/
def fnAadd : AtomFn := fun n old b _ => (old + b) % 2 ^ n
/-- AMIN: the signed minimum (R175). -/
def fnAmin : AtomFn := fun n old b _ => if asInt n true b < asInt n true old then b else old
/-- AMAX: the signed maximum (R175). -/
def fnAmax : AtomFn := fun n old b _ => if asInt n true old < asInt n true b then b else old
/-- AAND: old AND b (R175). -/
def fnAand : AtomFn := fun _ old b _ => old &&& b
/-- AOR: old OR b (R175). -/
def fnAor : AtomFn := fun _ old b _ => old ||| b
/-- AXOR: old XOR b (R175). -/
def fnAxor : AtomFn := fun _ old b _ => old ^^^ b
/-- ASWP: b (R175). -/
def fnAswp : AtomFn := fun _ _ b _ => b
/-- ACAS: b where old equals the expected value, else old (R175). -/
def fnAcas : AtomFn := fun _ old b e => if old = e then b else old
/-- AMINU: the unsigned minimum (R175). -/
def fnAminu : AtomFn := fun _ old b _ => if b < old then b else old
/-- AMAXU: the unsigned maximum (R175). -/
def fnAmaxu : AtomFn := fun _ old b _ => if old < b then b else old

/-- The part of AADD. -/
def semAadd (f : MemF) : Sem := semAtom f (.aadd f) false fnAadd noExpect
/-- AADD standing alone. -/
def execAadd (f : MemF) (s : State) : Host.Outcome State Fault Refusal := issueOne (semAadd f) (.aadd f) s

/-- The part of AMIN. -/
def semAmin (f : MemF) : Sem := semAtom f (.amin f) false fnAmin noExpect
/-- AMIN standing alone. -/
def execAmin (f : MemF) (s : State) : Host.Outcome State Fault Refusal := issueOne (semAmin f) (.amin f) s

/-- The part of AMAX. -/
def semAmax (f : MemF) : Sem := semAtom f (.amax f) false fnAmax noExpect
/-- AMAX standing alone. -/
def execAmax (f : MemF) (s : State) : Host.Outcome State Fault Refusal := issueOne (semAmax f) (.amax f) s

/-- The part of AAND. -/
def semAand (f : MemF) : Sem := semAtom f (.aand f) false fnAand noExpect
/-- AAND standing alone. -/
def execAand (f : MemF) (s : State) : Host.Outcome State Fault Refusal := issueOne (semAand f) (.aand f) s

/-- The part of AOR. -/
def semAor (f : MemF) : Sem := semAtom f (.aor f) false fnAor noExpect
/-- AOR standing alone. -/
def execAor (f : MemF) (s : State) : Host.Outcome State Fault Refusal := issueOne (semAor f) (.aor f) s

/-- The part of AXOR. -/
def semAxor (f : MemF) : Sem := semAtom f (.axor f) false fnAxor noExpect
/-- AXOR standing alone. -/
def execAxor (f : MemF) (s : State) : Host.Outcome State Fault Refusal := issueOne (semAxor f) (.axor f) s

/-- The part of ASWP. -/
def semAswp (f : MemF) : Sem := semAtom f (.aswp f) false fnAswp noExpect
/-- ASWP standing alone. -/
def execAswp (f : MemF) (s : State) : Host.Outcome State Fault Refusal := issueOne (semAswp f) (.aswp f) s

/-- The part of ACAS: D names the expected value (R67). -/
def semAcas (f : MemF) : Sem := semAtom f (.acas f) false fnAcas (fun s => (s.val (dregAsOperand f.d)).toNat)
/-- ACAS standing alone. -/
def execAcas (f : MemF) (s : State) : Host.Outcome State Fault Refusal := issueOne (semAcas f) (.acas f) s

/-- The part of AMINU. -/
def semAminu (f : MemF) : Sem := semAtom f (.aminu f) true fnAminu noExpect
/-- AMINU standing alone. -/
def execAminu (f : MemF) (s : State) : Host.Outcome State Fault Refusal := issueOne (semAminu f) (.aminu f) s

/-- The part of AMAXU. -/
def semAmaxu (f : MemF) : Sem := semAtom f (.amaxu f) true fnAmaxu noExpect
/-- AMAXU standing alone. -/
def execAmaxu (f : MemF) (s : State) : Host.Outcome State Fault Refusal := issueOne (semAmaxu f) (.amaxu f) s

/-! ### MARK, FENCE, CWB, CINV (R169, R177) -/

/-- The part of MARK: it enters both queues, and no access that follows is performed before it leaves them (R166, R169);
loads are performed at retirement. Log 12, DESIGN CHOICE. -/
def semMark (f : MemF) : Sem where
  charge := scalarCharge (.mark f) f.g
  run s _ := if s.active f.g then { eff := Live.st State.enqueueMark } else {}
/-- MARK standing alone. -/
def execMark (f : MemF) (s : State) : Host.Outcome State Fault Refusal := issueOne (semMark f) (.mark f) s

/-- The part of FENCE: as MARK, and the bundle does not retire before every earlier store is performed at scope SC
(R169): its entries enter the queues and leave them in the step that retires it; a store is performed at every scope at once
(log 12, DESIGN CHOICE). -/
def semFence (f : MemF) : Sem where
  charge := scalarCharge (.fence f) f.g
  run s _ := if s.active f.g then { eff := Live.st State.drainMe } else {}
/-- FENCE standing alone. -/
def execFence (f : MemF) (s : State) : Host.Outcome State Fault Refusal := issueOne (semFence f) (.fence f) s

/-- A CWB or CINV: checked as a load of the byte at ea, a no-op on a scratchpad address, else an entry of the store
queue for its line (R167, R177). Log 43, DEDUCED. -/
def semCache (f : MemF) (i : Instr) (ent : Nat → StoreEnt) : Sem where
  charge := scalarCharge i f.g
  run s _ :=
    if s.active f.g then
      let a : Acc1 := { lane := 0, va := memEA f s, n := 1, kind := 3 }
      { accs := [a]
        eff := Live.st (fun l =>
          if l.isMapped l.cur.core a.va then
            let l := l.touchAcc l.cur.core l.myTask a
            match l.locs l.cur.core l.myTask a.va 1 false with
            | .phys p :: _ => l.enqueue (ent (p / 64))
            | _ => l
          else l) }
    else {}

/-- The part of CWB (R177). -/
def semCwb (f : MemF) : Sem := semCache f (.cwb f) .cwb
/-- CWB standing alone. -/
def execCwb (f : MemF) (s : State) : Host.Outcome State Fault Refusal := issueOne (semCwb f) (.cwb f) s

/-- The part of CINV (R177). -/
def semCinv (f : MemF) : Sem := semCache f (.cinv f) .cinv
/-- CINV standing alone. -/
def execCinv (f : MemF) (s : State) : Host.Outcome State Fault Refusal := issueOne (semCinv f) (.cinv f) s

end Sys2Proof.Machine
end

