-- ==== Sys2Proof/Machine/Engine.lean ====
section
/-! DEFINITION. What the engine ops share: the queues of a core, starting a command at retirement, the records of its
fault, and the waits of its events (R193, R250, R271-R276, R282). -/

namespace Sys2Proof.Machine

/-! ### The queues of a core -/

/-- A sequencer command (R250). -/
def CmdKind.isSeq : CmdKind → Bool
  | .mgo .. | .mstep .. | .mzero .. | .mwload .. => true
  | _ => false
/-- A drain (R265). -/
def CmdKind.isDrain : CmdKind → Bool
  | .mdrain .. => true
  | _ => false
/-- A tile op of R233. -/
def CmdKind.isTile : CmdKind → Bool
  | .tzero .. | .tfill .. | .tident .. | .tclass .. | .tcopy .. => true
  | _ => false
/-- A copy-port command (R282). -/
def CmdKind.isCopy : CmdKind → Bool
  | .cpy .. | .ovl .. => true
  | _ => false
/-- A die block transfer (R349). -/
def CmdKind.isDcpy : CmdKind → Bool
  | .dcpy .. => true
  | _ => false
/-- A network-interface command (R316). -/
def CmdKind.isNi : CmdKind → Bool
  | .rget .. | .rput .. | .rgath .. | .rscat .. | .mcst .. | .ratom .. | .binit .. | .barr .. => true
  | _ => false

/-- The commands of a core that `p` picks, in issue order. -/
def CoreState.queue (x : CoreState) (p : CmdKind → Bool) : List Cmd := x.cmds.filter (fun c => p c.kind)

/-- The engine number of a command's fault record (R193). -/
def CmdKind.engine (k : CmdKind) : Nat :=
  if k.isCopy || k == .stage then 1 else if k.isNi then 2 else if k.isDcpy then 3 else 0

/-- The record of a command's own fault: token, engine, step or chunk index, and the status word (R193). Log 53, DEDUCED. -/
def Cmd.fail (c : Cmd) (step cause : Nat) (status : Word) : FaultRec :=
  ⟨cause, wd ((tokCode c.tok).toNat + 256 * c.kind.engine + 65536 * step), status⟩

/-- Whether a command waits for nothing and has not started. -/
def Cmd.ready (c : Cmd) : Bool := !c.started && c.deps.isEmpty

/-! ### Starting a command -/

/-- An engine op at retirement: the context's earlier stores are performed, the in-tokens are consumed, the command
is queued and the out token produced (R272, R273, R276). Log 88, DEDUCED. -/
def State.startOp (ins : List Tok) (out : Tok) (kind : CmdKind) (s : State) : State :=
  let s := s.drainMe
  let d := s.me.depsOf ins
  (s.updMe (fun c => c.consume ins)).addCmd kind out d.1 d.2

/-- An engine op that starts no work: its in-tokens are consumed and its out token is DONE at once (R17, R272). -/
def State.idleOp (ins : List Tok) (out : Tok) (s : State) : State :=
  s.updMe (fun c => (c.consume ins).produce out 0 true)

/-- Whether a core's queue of a kind holds its limit. -/
def State.queueFull (s : State) (p : CmdKind → Bool) (limit : Nat) : Bool :=
  decide (limit ≤ (s.myCore.queue p).length)

/-- The privilege check of an op that an eddy may not issue (R232, R282, R451). -/
def State.eddyTrap (s : State) (a : At) : Option TrapInfo :=
  if isEddy s.cur.ctx then some ⟨0x52, a.word, 0⟩ else none

/-- The charge of an engine op: its weight, or 1 guarded off (R212). Log 89, DESIGN CHOICE. -/
def engCharge (i : Instr) (act : State → Bool) (s : State) : Nat := if act s then weightOf i else 1

/-! ### Events of engines -/

/-- A meaning of an event: what it does where it is due, nothing otherwise. A core outside the package does not
exist. Log 7, DESIGN CHOICE. Log 11, DESIGN CHOICE. -/
def onCore (due : State → Bool) (f : State → State) (s : State) : Host.Outcome State Fault Refusal :=
  if nCores ≤ s.cur.core then .fault .noSuchAgent
  else .next (if due s then f s else s)

/-- The command that an event names: number `cur.id` of core `cur.core`. -/
def State.theCmd (s : State) : Option Cmd := s.myCore.cmd s.cur.id

/-- A meaning of an event of command `cur.id`: due where the command satisfies `p`. Log 7, DESIGN CHOICE. -/
def onCmd (p : State → Cmd → Bool) (f : State → Cmd → State) (s : State) : Host.Outcome State Fault Refusal :=
  onCore (fun s => match s.theCmd with | some c => p s c | none => false)
    (fun s => match s.theCmd with | some c => f s c | none => s) s

/-- Changing the command an event names. -/
def State.updCmd (s : State) (core id : Nat) (f : Cmd → Cmd) : State := s.updCore core (fun x => x.updCmd id f)

/-- Adding to a cluster's charge of the running interval (R212, R362). Log 89, DESIGN CHOICE. -/
def State.addCharge (s : State) (core n : Nat) : State :=
  s.updCluster (clusterOf core) (fun k => { k with charge := k.charge + n })

end Sys2Proof.Machine
end

