-- ==== Sys2Proof/Machine/Copy.lean ====
section
/-! DEFINITION. The CE ops at issue: CPY, CPY2D, CSCHED, CSTAGE, OVL and DCPY (R282-R291, R349-R353). What the copy port
and the block-transfer engines do after retirement is in Machine/EvCopy.lean. -/

namespace Sys2Proof.Machine

/-- The in-tokens of an ENGINE op. -/
def eIns (f : EngF) : List Tok := [f.i1, f.i2, f.i3]

/-! ### Shapes (R283, R284) -/

/-- A 16-bit field as a signed number. -/
def int16 (x : Nat) : Int := if 2 ^ 15 ≤ x then (x : Int) - 2 ^ 16 else x
/-- SSTRIDE in bytes. -/
def shapeS (w : Word) : Int := 16 * int16 (bitsOf 63 48 w)
/-- DSTRIDE in bytes. -/
def shapeD (w : Word) : Int := 16 * int16 (bitsOf 47 32 w)
/-- Rows of a shape word. Log 59, DEDUCED. -/
def shapeRows (w : Word) : Nat := bitsOf 31 16 w + 1
/-- Bytes of a row. -/
def shapeLen (w : Word) : Nat := bitsOf 15 0 w
/-- Bytes a CPY or a CPY2D copies. Log 48, DEDUCED. -/
def copyBytes (two : Bool) (c : Word) : Nat := if two then shapeRows c * shapeLen c else c.toNat

/-- The scratchpad offset of an address in the core's own scratchpad. -/
def State.ownOffset (s : State) (va : Word) : Option Nat := s.ownOff s.cur.core va

/-- The slots of a tile-kind copy's tile side: one run of whole slots of the own scratchpad, or none where it is not
such a run (R285). Kind 1 fills at the destination, kinds 2 and 3 drain at the source. -/
def tileRun (s : State) (two : Bool) (dst src c : Word) (kind : Nat) : Option (List Nat) :=
  let n := copyBytes two c
  let stride := if kind = 1 then shapeD c else shapeS c
  match s.ownOffset (if kind = 1 then dst else src) with
  | some o =>
    if o % slotSize = 0 ∧ n % slotSize = 0 ∧ o + n ≤ spadSize ∧ (!two || stride == (shapeLen c : Int)) then
      some ((List.range (n / slotSize)).map (fun i => o / slotSize + i))
    else none
  | none => none

/-- The slots a copy covers: none for a plain copy, a copy of nothing or a bad run (R284, R285). -/
def coveredSlots (s : State) (two : Bool) (dst src c : Word) (kind : Nat) : List Nat :=
  if kind = 0 ∨ copyBytes two c = 0 then [] else (tileRun s two dst src c kind).getD []

/-- Whether the tile side of a copy is bad (R285). -/
def badRun (s : State) (two : Bool) (dst src c : Word) (kind : Nat) : Bool :=
  kind != 0 && copyBytes two c != 0 && (tileRun s two dst src c kind).isNone

/-- The state a covered slot moves to at retirement (R285). -/
def coverEnt (kind : Nat) (e : TileEnt) : TileEnt := if kind = 1 then startFill e else { e with st := .draining }

/-- Moving the covered slots at retirement. -/
def State.coverSlots (s : State) (kind : Nat) (l : List Nat) : State :=
  s.updMyCore (fun x => l.foldl (fun x n => x.updTile n (coverEnt kind)) x)

/-- The tag of kind 1, none where it keeps each slot's (R283). -/
def fillTag (f : EngF) : Option Tag :=
  if f.mode.toNat / 4 = 15 then none else some (tagOf (f.mode.toNat / 4))

/-! ### CPY and CPY2D (R283-R285) -/

/-- Operands of a copy read at bundle entry: destination, source, length or shape. -/
def copyOps (f : EngF) (s : State) : Word × Word × Word := (s.val f.a, s.val f.b, s.val f.c)

/-- A CSTAGE's own command, the last of its kind (R289). Log 60, DEDUCED. -/
def CoreState.lastStage (x : CoreState) : Option Cmd := (x.cmds.filter (fun c => c.kind == .stage)).getLast?

/-- A replayed copy joins its CSTAGE: it waits for CSTAGE's in-tokens too, and CSTAGE's command waits for it (R289). In
both, in-fields of the other side count after the own ones. -/
def State.linkReplay (s : State) (entry id : Nat) : State :=
  match s.myCore.lastStage with
  | none => s
  | some st =>
    let gates := (st.deps.filter (fun d => d.1 < 3)).map (fun d => (d.1 + 3, d.2))
    (s.updCmd s.cur.core id (fun c => { c with deps := c.deps ++ gates, fromSched := true })).updCmd s.cur.core st.id
      (fun c => { c with deps := c.deps ++ [(3 + entry, id)] })

/-- The charge of a CE op: its declared weight (R201, R212). -/
def ceWeight : Nat := 3

/-- A CPY or CPY2D. A copy of nothing is DONE at once (R284). -/
def semCopy (two : Bool) (f : EngF) : Sem where
  charge _ := ceWeight
  slots s :=
    let o := copyOps f s
    let k := f.mode.toNat % 4
    if isEddy s.cur.ctx then []
    else (coveredSlots s two o.1 o.2.1 o.2.2 k).map (fun n => ⟨n, k != 1, if k = 1 then 0 else 1⟩)
  stall s a :=
    let o := copyOps f s
    !isEddy s.cur.ctx && a.replay.isNone && copyBytes two o.2.2 != 0 &&
      !badRun s two o.1 o.2.1 o.2.2 (f.mode.toNat % 4) && s.queueFull CmdKind.isCopy 16
  run s a :=
    let o := copyOps f s
    let k := f.mode.toNat % 4
    { trap :=
        match s.eddyTrap a with
        | some t => some t
        | none =>
          if badRun s two o.1 o.2.1 o.2.2 k then
            some ⟨0x24, if k = 1 then o.1 else o.2.1, if k = 1 then 0x100 else 0⟩
          else none
      eff := Live.st (fun l =>
        if copyBytes two o.2.2 = 0 then l.idleOp (eIns f) f.out
        else
          let id := l.nextId
          let l := l.startOp (eIns f) f.out (.cpy two o.1 o.2.1 o.2.2 k (fillTag f))
          let l := l.coverSlots k (coveredSlots s two o.1 o.2.1 o.2.2 k)
          match a.replay with
          | some e => l.linkReplay e id
          | none => l) }

/-- The part of CPY. -/
def semCpy (f : EngF) : Sem := semCopy false f
/-- CPY standing alone. -/
def execCpy (f : EngF) (s : State) : Host.Outcome State Fault Refusal := issueOne (semCpy f) (.cpy f) s

/-- The part of CPY2D. -/
def semCpy2d (f : EngF) : Sem := semCopy true f
/-- CPY2D standing alone. -/
def execCpy2d (f : EngF) (s : State) : Host.Outcome State Fault Refusal := issueOne (semCpy2d f) (.cpy2d f) s

/-! ### CSCHED and CSTAGE (R287-R289) -/

/-- Arming the schedule (R288). -/
def Ctx.arm (t b c : Word) (x : Ctx) : Ctx :=
  { x with t := t, sc := 0, armed := true,
           files := { x.files with b := Vector.ofFn (fun i : Fin 8 => b + wd i.val * c) } }

/-- The part of CSCHED (R288). -/
def semCsched (f : EngF) : Sem where
  charge _ := ceWeight
  run s a :=
    { trap := s.eddyTrap a
      eff := Live.me (fun c => c.arm (s.val f.a) (s.val f.b) (s.val f.c)) }
/-- CSCHED standing alone. -/
def execCsched (f : EngF) (s : State) : Host.Outcome State Fault Refusal := issueOne (semCsched f) (.csched f) s

/-- The replays of a CSTAGE that copy at least a byte (R284, R289). -/
def workingReplays (s : State) : List (Nat × Word) :=
  (s.me.replays s.myCore.sched).filter (fun e =>
    match decodeWord e.2 none with
    | .cpy g => (copyOps g s).2.2 != 0
    | .cpy2d g => copyBytes true (copyOps g s).2.2 != 0
    | _ => false)

/-- The part of CSTAGE (R289): its own command waits for the replays, each an op of the bundle after it. Log 60, DEDUCED. -/
def semCstage (f : EngF) : Sem where
  charge _ := ceWeight
  stall s _ :=
    !isEddy s.cur.ctx && workingReplays s != [] &&
      decide (16 < (s.myCore.queue CmdKind.isCopy).length + (workingReplays s).length)
  run s a :=
    { trap := s.eddyTrap a
      eff := Live.st (fun l =>
        let l := if workingReplays s = [] then l.idleOp (eIns f) f.out else l.startOp (eIns f) f.out .stage
        l.updMe (fun c => { c with sc := s.me.sc + 1 })) }

/-- The part of an op of a bundle with one CSTAGE: CSTAGE's own, or a replay's. -/
def semStaged (f : EngF) : Instr → Sem
  | .cpy g => semCpy g
  | .cpy2d g => semCpy2d g
  | _ => semCstage f

/-- CSTAGE standing alone, with its replays. -/
def execCstage (f : EngF) (s : State) : Host.Outcome State Fault Refusal :=
  if nCores ≤ s.cur.core then .fault .noSuchAgent
  else .next (s.issue (semStaged f) (s.single (.cstage f)))

/-! ### OVL (R291) -/

/-- The part of OVL (R291). -/
def semOvl (f : EngF) : Sem where
  charge _ := ceWeight
  stall s _ := !isEddy s.cur.ctx && s.queueFull CmdKind.isCopy 16
  run s a :=
    { trap := s.eddyTrap a
      eff := Live.st (fun l => l.startOp (eIns f) f.out (.ovl (s.val f.a))) }
/-- OVL standing alone. -/
def execOvl (f : EngF) (s : State) : Host.Outcome State Fault Refusal := issueOne (semOvl f) (.ovl f) s

/-! ### DCPY (R349-R353) -/

/-- The die that homes a physical address (R336). -/
def State.homeDie (s : State) (pa : Nat) : Nat :=
  match s.physTarget pa with
  | .hbm => pa / 0x1800000000
  | .weights d => d
  | .cxl p _ => p % 4
  | .nothing => 0

/-- A global scratchpad address of this package: core and offset (R311). -/
def globalSpad (s : State) (va : Nat) : Option (Nat × Nat) :=
  if va / 2 ^ 56 = 0xFE ∧ bitsOf 31 19 (wd va) = 0 ∧ bitsOf 55 44 (wd va) = s.boot.pkg ∧ bitsOf 41 36 (wd va) < 48 then
    some (bitsOf 43 42 (wd va) * 768 + bitsOf 41 36 (wd va) * 16 + bitsOf 35 32 (wd va), va % spadSize)
  else none

/-- The die that homes the byte at an address, for a task's command on a core; the core's own die where the address
names nothing. -/
def dieAt (s : State) (core : Nat) (task : Option Task) (va : Word) : Nat :=
  match s.vtarget core va.toNat with
  | .own _ => dieOf core
  | .bad => match globalSpad s va.toNat with | some c => dieOf c.1 | none => dieOf core
  | .mapped => match s.homeOf task va.toNat with | some pa => s.homeDie pa | none => dieOf core

/-- The engine a DCPY of a core runs on, chosen as it issues: its cluster's, or a path engine of the destination's die
(R349). -/
def dcpyEngine (s : State) (core : Nat) (task : Option Task) (path : Nat) (dst : Word) : Nat × Nat :=
  if path = 0 then (192, clusterOf core) else (dieAt s core task dst, Config.pathEngine dst.toNat % 16)

/-- The task of a context. -/
def State.taskOf (s : State) (core k : Nat) : Option Task := (s.ctx core k).task.bind s.task

/-- The commands queued on an engine, over the package. -/
def dcpyCount (s : State) (e : Nat × Nat) : Nat :=
  (s.cores.map (fun p => (p.2.cmds.filter (fun c => c.kind.isDcpy && c.eng == e)).length)).sum

/-- The ring a DCPY names (R350). -/
def dcpyRing (f : EngF) : Option Nat := if bitAt 2 f.mode then some (bitsOf 4 3 f.mode) else none

/-- A ring of a task on a die (R351). -/
def ringOf (t : Option Task) (die n : Nat) : Option Ring :=
  match t with
  | some t => t.rings.find? (fun r => r.die == die && r.num == n)
  | none => none

/-- Changing a ring of a task. -/
def State.updRing (s : State) (task die n : Nat) (f : Ring → Ring) : State :=
  s.updTask task (fun t => { t with rings := t.rings.map (fun r => if r.die == die && r.num == n then f r else r) })

/-- TAIL - HEAD, mod 2^32 (R351). -/
def Ring.used (r : Ring) : Nat := (r.tail + (2 ^ 32 - r.head % 2 ^ 32)) % 2 ^ 32

/-- Whether a DCPY names a ring that does not exist (R350). Log 62, DEDUCED. -/
def badRing (f : EngF) (s : State) : Bool :=
  match dcpyRing f with
  | some n => (ringOf s.myTask (dieOf s.cur.core) n).isNone
  | none => false

/-- Whether a DCPY waits: 8 of the context, 64 on the engine, or no record free in its ring (R349, R353). -/
def dcpyWaits (f : EngF) (s : State) : Bool :=
  let mine := (s.myCore.queue CmdKind.isDcpy).filter (fun c => c.ctx == s.cur.ctx)
  let e := dcpyEngine s s.cur.core s.myTask (f.mode.toNat % 4) (s.val f.a)
  decide (8 ≤ mine.length) || decide (64 ≤ dcpyCount s e) ||
  (match dcpyRing f with
   | some n =>
     match ringOf s.myTask (dieOf s.cur.core) n with
     | some r => decide (2 ^ r.log ≤ r.used + r.out)
     | none => false
   | none => false)

/-- Whether a DCPY starts no work: it copies nothing and writes no record (R350). -/
def dcpyIdle (f : EngF) (s : State) : Bool := s.val f.c == 0 && (dcpyRing f).isNone

/-- The part of DCPY (R350). -/
def semDcpy (f : EngF) : Sem where
  charge _ := ceWeight
  stall s _ := !isEddy s.cur.ctx && !badRing f s && !dcpyIdle f s && dcpyWaits f s
  run s a :=
    { trap :=
        match s.eddyTrap a with
        | some t => some t
        | none => if badRing f s then some ⟨0x52, a.word, 0⟩ else none
      eff := Live.st (fun l =>
        if dcpyIdle f s then l.idleOp (eIns f) f.out
        else
          let n := l.nextId
          let l := l.startOp (eIns f) f.out (.dcpy (s.val f.a) (s.val f.b) (s.val f.c) (f.mode.toNat % 4) (dcpyRing f))
          let l := l.updCmd l.cur.core n (fun c =>
            { c with eng := dcpyEngine s s.cur.core s.myTask (f.mode.toNat % 4) (s.val f.a) })
          match dcpyRing f, s.me.task with
          | some n, some t => l.updRing t (dieOf l.cur.core) n (fun r => { r with out := r.out + 1 })
          | _, _ => l) }
/-- DCPY standing alone. -/
def execDcpy (f : EngF) (s : State) : Host.Outcome State Fault Refusal := issueOne (semDcpy f) (.dcpy f) s

end Sys2Proof.Machine
end

