-- ==== Sys2Proof/Machine/Control.lean ====
section
/-! DEFINITION. The BRANCH-format ops (R120-R125, R128). -/

namespace Sys2Proof.Machine

/-- The target of a direct branch: the branch word's offset + 8 × disp, exact (R121). -/
def relTarget (f : BrF) (a : At) : Int := (a.off.toNat : Int) + 8 * f.disp.toInt
/-- The target of an indirect branch: A + 8 × n, exact (R122). -/
def indTarget (f : BrF) (s : State) : Int := (s.val f.a).toInt + 8 * f.disp.toInt

/-- The trap of a taken branch whose target breaks R7 (R120). -/
def targetTrap (taken : Bool) (t : Int) : Option TrapInfo :=
  if taken && badTarget t then some ⟨0x20, wdi t, 0⟩ else none

/-- Taking a branch (R120). -/
def Live.jump (taken : Bool) (t : Int) (L : Live) : Live :=
  if taken then { L with next := some (BitVec.ofInt 16 t) } else L

/-- A branch by its condition and target; what it pushes is apart. -/
def semBranch (f : BrF) (i : Instr) (cond : State → Bool) (target : State → At → Int)
    (push : State → At → Option SVal) : Sem where
  charge := scalarCharge i f.g
  run s a :=
    let taken := s.active f.g && cond s
    { trap := targetTrap taken (target s a)
      eff := fun L =>
        let L := match push s a with | some v => Live.me (fun c => c.pushS v) L | none => L
        L.jump taken (target s a) }

/-- Nothing pushed. -/
def noPush (_ : State) (_ : At) : Option SVal := none

/-- The part of BR (R121). -/
def semBr (f : BrF) : Sem := semBranch f (.br f) (fun _ => true) (fun _ a => relTarget f a) noPush
/-- BR standing alone. -/
def execBr (f : BrF) (s : State) : Host.Outcome State Fault Refusal := issueOne (semBr f) (.br f) s

/-- The part of BRZ (R121). -/
def semBrz (f : BrF) : Sem := semBranch f (.brz f) (fun s => s.val f.a == 0) (fun _ a => relTarget f a) noPush
/-- BRZ standing alone. -/
def execBrz (f : BrF) (s : State) : Host.Outcome State Fault Refusal := issueOne (semBrz f) (.brz f) s

/-- The part of BRNZ (R121). -/
def semBrnz (f : BrF) : Sem := semBranch f (.brnz f) (fun s => s.val f.a != 0) (fun _ a => relTarget f a) noPush
/-- BRNZ standing alone. -/
def execBrnz (f : BrF) (s : State) : Host.Outcome State Fault Refusal := issueOne (semBrnz f) (.brnz f) s

/-- The return offset: the word after the bundle (R122). -/
def returnOffset (a : At) : SVal := { v := a.npc.setWidth 64, tag := .int64 }

/-- The part of CALL (R122). -/
def semCall (f : BrF) : Sem :=
  semBranch f (.call f) (fun _ => true) (fun _ a => relTarget f a)
    (fun s a => some (if s.active f.g then returnOffset a else { v := 0, tag := .int64 }))
/-- CALL standing alone. -/
def execCall (f : BrF) (s : State) : Host.Outcome State Fault Refusal := issueOne (semCall f) (.call f) s

/-- A's value with its tag, which a guarded-off op pushes (R16). -/
def firstA (s : State) (o : Operand) : SVal := { v := (s.rdS .int64 o).v, tag := (s.rdS .int64 o).tag }

/-- The part of CALLI (R122). -/
def semCalli (f : BrF) : Sem :=
  semBranch f (.calli f) (fun _ => true) (fun s _ => indTarget f s)
    (fun s a => some (if s.active f.g then returnOffset a else firstA s f.a))
/-- CALLI standing alone. -/
def execCalli (f : BrF) (s : State) : Host.Outcome State Fault Refusal := issueOne (semCalli f) (.calli f) s

/-- The part of RET (R122). -/
def semRet (f : BrF) : Sem := semBranch f (.ret f) (fun _ => true) (fun s _ => indTarget f s) noPush
/-- RET standing alone. -/
def execRet (f : BrF) (s : State) : Host.Outcome State Fault Refusal := issueOne (semRet f) (.ret f) s

/-- The part of JMPI (R122). -/
def semJmpi (f : BrF) : Sem := semBranch f (.jmpi f) (fun _ => true) (fun s _ => indTarget f s) noPush
/-- JMPI standing alone. -/
def execJmpi (f : BrF) (s : State) : Host.Outcome State Fault Refusal := issueOne (semJmpi f) (.jmpi f) s

/-! ### LOOP (R123) -/

/-- The register a LOOP counts in. -/
def loopReg : Operand → DReg
  | .far r => .far r
  | .near r => .near r
  | _ => .near 0

/-- Rotating b0 to b(r-1) by one place (R123); `old` is the file at bundle entry. -/
def rotateB (r : Nat) (old b : Vector Word 8) : Vector Word 8 :=
  if r < 2 then b
  else Vector.ofFn (fun i : Fin 8 =>
    if i.val = 0 then old.get (Fin.ofNat 8 (r - 1)) else if i.val < r then old.get (Fin.ofNat 8 (i.val - 1)) else b.get i)

/-- The stage predicates p1 to pn move up by one and p1 takes the new mask (R123); `old` is the context at bundle
entry. -/
def shiftP (n : Nat) (new : PMask) (old c : Ctx) : Ctx :=
  (List.range n).foldl (fun c j => c.writeP (Fin.ofNat 16 (j + 1)) (if j = 0 then new else old.pred (Fin.ofNat 16 j))) c

/-- What an active LOOP writes: the count, its push, the bases and the stage predicates. -/
def loopCtx (f : BrF) (old : Ctx) (c : Word) (x : Ctx) : Ctx :=
  let x := (x.writeS (loopReg f.a) { v := c, tag := .int64 }).pushS { v := c, tag := .int64 }
  let x := { x with files := { x.files with b := rotateB f.rot.toNat old.files.b x.files.b } }
  shiftP f.shift.toNat (if 0 < c.toInt then BitVec.allOnes 256 else 0) old x

/-- The part of LOOP (R123). -/
def semLoop (f : BrF) : Sem where
  charge := scalarCharge (.loop f) f.g
  run s a :=
    let c := s.val f.a - 1
    let taken := s.active f.g && decide (0 < c.toInt + (max f.shift.toNat 1 : Nat) - 1)
    { trap := targetTrap taken (relTarget f a)
      eff := fun L =>
        if s.active f.g then (Live.me (loopCtx f s.me c) L).jump taken (relTarget f a)
        else Live.me (fun x => x.pushS (firstA s f.a)) L }
/-- LOOP standing alone. -/
def execLoop (f : BrF) (s : State) : Host.Outcome State Fault Refusal := issueOne (semLoop f) (.loop f) s

/-! ### END and YIELD (R124, R125, R128) -/

/-- The trap of an op that handler mode forbids (R128, R451). -/
def State.hmTrap (s : State) (a : At) : Option TrapInfo := if s.me.tr.hm then some ⟨0x52, a.word, 0⟩ else none

/-- Ending the running context: fetch stops; its standing set is empty (R204); an eddy's bank moves to ENDING, with
EXIT for owner origin (R296, R301). -/
def State.endCtx (s : State) : State :=
  let s := s.updMe (fun c => { c with run := .ended, standing := [] })
  if isEddy s.cur.ctx then
    s.updMyCore (fun x => x.updBank s.cur.ctx (fun b =>
      { b with st := .ending, exit := if b.origin then b.exit else 0xFE }))
  else s

/-- The part of END (R124). -/
def semEnd (f : BrF) : Sem where
  charge := scalarCharge (.endOp f) f.g
  run s a :=
    { trap := s.hmTrap a
      eff := Live.st (fun l => if s.active f.g then l.endCtx else l) }
/-- END standing alone. -/
def execEnd (f : BrF) (s : State) : Host.Outcome State Fault Refusal := issueOne (semEnd f) (.endOp f) s

/-- The effective cycles in which a YIELD's context issues nothing (R125). -/
def yieldCycles (a : Word) : Nat := max 1 (min a.toNat 4096)

/-- The part of YIELD (R125). -/
def semYield (f : BrF) : Sem where
  charge := scalarCharge (.yield f) f.g
  run s a :=
    { trap := s.hmTrap a
      eff := Live.me (fun c =>
        if s.active f.g then { c with waits := { c.waits with yield := yieldCycles (s.val f.a) } } else c) }
/-- YIELD standing alone. -/
def execYield (f : BrF) (s : State) : Host.Outcome State Fault Refusal := issueOne (semYield f) (.yield f) s

end Sys2Proof.Machine
end

