-- ==== Sys2Proof/Machine/Net.lean ====
section
/-! DEFINITION. The NI ops at issue: remote reads and writes, gathers, scatters, multicast, remote atomics and the
barrier ops (R310-R334). What their commands do after retirement is in Machine/EvNet.lean. -/

namespace Sys2Proof.Machine

/-! ### Addresses (R311) -/

/-- A local range that is no range of the own scratchpad (R311). -/
def localBad (va : Word) (n : Nat) : Bool := decide (spadSize < va.toNat + n)
/-- A remote range of neither form, or that runs past its core's last byte (R311). Log 71, DEDUCED. -/
def State.remoteBad (s : State) (core : Nat) (va : Word) (n : Nat) : Bool :=
  match s.place core va with
  | some p => decide (spadSize < p.off + n)
  | none => true

/-- The address trap of R178's layout: lane 0. -/
def addrTrap (cause : Nat) (va : Word) (kind : Nat) : TrapInfo := ⟨cause, va, wd (256 * kind)⟩

/-- The check of a local range: in the scratchpad, and in the lent region for a firmware-bound eddy, whose 0x21 is examined
with the other address checks of the op (R306, R311, R452). Log 42, DEDUCED. -/
def State.localCheck (s : State) (va : Word) (n kind : Nat) : Option TrapInfo :=
  if localBad va n then some (addrTrap 0x24 va kind)
  else if s.myCore.fwEddy s.cur.ctx && s.isolated s.cur.core s.cur.ctx va.toNat n then some (addrTrap 0x21 va kind)
  else none
/-- The check of a remote range (R311). -/
def State.remoteCheck (s : State) (va : Word) (n kind : Nat) : Option TrapInfo :=
  if s.remoteBad s.cur.core va n then some (addrTrap 0x24 va kind) else none

/-- The first trap of a list of checks. -/
def firstTrap (l : List (Option TrapInfo)) : Option TrapInfo := l.findSome? id

/-! ### Queueing (R316) -/

/-- The NI commands that share the running context's limit: the owner's, or the eddies' together. -/
def State.niHeld (s : State) : Nat :=
  ((s.myCore.queue CmdKind.isNi).filter (fun c => (c.ctx == 0) == (s.cur.ctx % 4 == 0))).length
/-- Whether the network interface has no room: 32 commands of the owner, 16 of the eddies (R316). -/
def State.niFull (s : State) : Bool := decide ((if isEddy s.cur.ctx then 16 else 32) ≤ s.niHeld)

/-- The route of an op. -/
def routeTurns (r : Option RouteF) : Option (BitVec 52) := r.map (·.turns)

/-- The charge of an NI op: its declared weight (R201, R212). -/
def niWeight : Nat := 6

/-- An NI command of R316 by its checks and its command; `idle` says that it moves nothing (R321). -/
def semNi (f : EngF) (n : Nat) (tags : State → Option TagFail) (idle : State → Bool)
    (check : State → Option TrapInfo) (kind : State → CmdKind) : Sem where
  tags := tags
  ni _ := n
  charge _ := niWeight
  stall s _ := !idle s && (check s).isNone && s.niFull
  run s _ :=
    { trap := if idle s then none else check s
      eff := Live.st (fun l => if idle s then l.idleOp (eIns f) f.out else l.startOp (eIns f) f.out (kind s)) }

/-- No tag check. -/
def noTags (_ : State) : Option TagFail := none

/-! ### RGET and RPUT (R321) -/

/-- The part of RGET. -/
def semRget (f : EngF) (r : Option RouteF) : Sem :=
  semNi f 1 noTags (fun s => s.val f.c == 0)
    (fun s => firstTrap [s.localCheck (s.val f.a) (s.val f.c).toNat 1, s.remoteCheck (s.val f.b) (s.val f.c).toNat 0])
    (fun s => .rget (s.val f.a) (s.val f.b) (s.val f.c).toNat (routeTurns r))
/-- RGET standing alone. -/
def execRget (f : EngF) (r : Option RouteF) (s : State) : Host.Outcome State Fault Refusal :=
  issueOne (semRget f r) (.rget f r) s

/-- The part of RPUT. -/
def semRput (f : EngF) (r : Option RouteF) : Sem :=
  semNi f 1 noTags (fun s => s.val f.c == 0)
    (fun s => firstTrap [s.remoteCheck (s.val f.a) (s.val f.c).toNat 1, s.localCheck (s.val f.b) (s.val f.c).toNat 0])
    (fun s => .rput (s.val f.a) (s.val f.b) (s.val f.c).toNat (bitAt 0 f.mode) (routeTurns r))
/-- RPUT standing alone. -/
def execRput (f : EngF) (r : Option RouteF) (s : State) : Host.Outcome State Fault Refusal :=
  issueOne (semRput f r) (.rput f r) s

/-! ### RGATH and RSCAT (R322, R323) -/

/-- ESZ of a layout descriptor, as log2 of the bytes. -/
def descEsz (d : Word) : Nat := bitsOf 22 19 d
/-- Whether a layout descriptor is valid (R322). Log 59, DEDUCED. -/
def descOk (d : Word) : Bool :=
  bitsOf 63 55 d == 0 && bitsOf 30 28 d ≤ 4 && descEsz d ≤ 8 && bitsOf 40 35 d ≤ 47 &&
  bitsOf 34 31 d + 2 ^ bitsOf 30 28 d ≤ 16

/-- B of RGATH and RSCAT carries INT32 (R323). -/
def gatherTags (f : EngF) (s : State) : Option TagFail := s.tagFail .int32 [.int32] .int32 ⟨1, f.b, true⟩
/-- Lanes of RGATH and RSCAT. -/
def gatherLanes (f : EngF) : Nat := f.mode.toNat + 1
/-- The check of the local range, whether or not the descriptor is valid (R311, R323). -/
def gatherCheck (f : EngF) (kind : Nat) (s : State) : Option TrapInfo :=
  s.localCheck (s.val f.a) (gatherLanes f * 2 ^ descEsz (s.val f.c)) kind

/-- The part of RGATH. -/
def semRgath (f : EngF) (r : Option RouteF) : Sem :=
  semNi f (gatherLanes f) (gatherTags f) (fun _ => false) (gatherCheck f 1)
    (fun s => .rgath (s.val f.a).toNat (s.rdV .int32 f.b).v (s.val f.c) (gatherLanes f) (routeTurns r))
/-- RGATH standing alone. -/
def execRgath (f : EngF) (r : Option RouteF) (s : State) : Host.Outcome State Fault Refusal :=
  issueOne (semRgath f r) (.rgath f r) s

/-- The part of RSCAT. -/
def semRscat (f : EngF) (r : Option RouteF) : Sem :=
  semNi f (gatherLanes f) (gatherTags f) (fun _ => false) (gatherCheck f 0)
    (fun s => .rscat (s.val f.a).toNat (s.rdV .int32 f.b).v (s.val f.c) (gatherLanes f) (routeTurns r))
/-- RSCAT standing alone. -/
def execRscat (f : EngF) (r : Option RouteF) (s : State) : Host.Outcome State Fault Refusal :=
  issueOne (semRscat f r) (.rscat f r) s

/-! ### MCST (R325) -/

/-- Bytes an MCST writes in each core. -/
def mcstBytes (f : EngF) : Nat := if bitAt 2 f.mode then 256 else 2 ^ (f.mode.toNat % 4)
/-- The data of an MCST; a special vector operand has 64-bit lanes. Log 94, DESIGN CHOICE. -/
def mcstData (f : EngF) (s : State) : List Byte :=
  if bitAt 2 f.mode then leBytes 256 (s.rdV .int64 f.b).v.toNat else leBytes (mcstBytes f) (s.val f.b).toNat
/-- The mask of an MCST. -/
def mcstMask (f : EngF) (s : State) : BitVec 16 := (s.val f.c).setWidth 16

/-- The checks of an MCST: alignment, then the window, in the lent region for a firmware-bound eddy (R306, R311, R325). Log
63, DEDUCED. -/
def mcstCheck (f : EngF) (s : State) : Option TrapInfo :=
  let a := s.val f.a
  if a.toNat % (if bitAt 2 f.mode then 32 else mcstBytes f) ≠ 0 then some (addrTrap 0x22 a 1)
  else s.localCheck a (mcstBytes f) 1

/-- Whether an MCST's bundle waits: an in-token is not DONE, or an earlier NI command of the context has not started
(R325). Log 63, DEDUCED. -/
def mcstWaits (f : EngF) (s : State) : Bool :=
  (inToks (eIns f)).any (fun k => !(s.me.tok.get k).done) ||
  (s.myCore.queue CmdKind.isNi).any (fun c => c.ctx == s.cur.ctx && !c.started)

/-- Effective cycles from the issue of an MCST to its landing (R326). -/
def mcstCycles : Nat := 12

/-- The part of MCST (R325): the command starts as its bundle issues. -/
def semMcst (f : EngF) (_ : Option RouteF) : Sem where
  ni _ := 1
  charge _ := niWeight
  stall s _ := (mcstCheck f s).isNone && (mcstWaits f s || (mcstMask f s != 0 && s.niFull))
  run s _ :=
    { trap := mcstCheck f s
      eff := Live.st (fun l =>
        if mcstMask f s = 0 then (l.drainMe).idleOp (eIns f) f.out
        else
          let id := l.nextId
          let l := l.startOp (eIns f) f.out (.mcst (s.val f.a).toNat (mcstData f s) (mcstMask f s))
          l.updCmd l.cur.core id (fun c => { c with started := true, due := c.issued + mcstCycles })) }
/-- MCST standing alone. -/
def execMcst (f : EngF) (r : Option RouteF) (s : State) : Host.Outcome State Fault Refusal :=
  issueOne (semMcst f r) (.mcst f r) s

/-! ### RATOM (R324) -/

/-- Bytes of an RATOM. -/
def ratomBytes (f : EngF) : Nat := if bitAt 4 f.mode then 8 else 4

/-- The checks of an RATOM in the order of R324. -/
def ratomCheck (f : EngF) (s : State) : Option TrapInfo :=
  let a := s.val f.a
  let c := s.val f.c
  firstTrap [if a.toNat % ratomBytes f ≠ 0 then some (addrTrap 0x22 a 2) else none,
    if c.toNat % 8 ≠ 0 then some (addrTrap 0x22 c 2) else none,
    s.remoteCheck a (ratomBytes f) 2, s.localCheck c 8 2]

/-- The part of RATOM (R324). -/
def semRatom (f : EngF) (r : Option RouteF) : Sem :=
  semNi f 1 noTags (fun _ => false) (ratomCheck f)
    (fun s => .ratom (s.val f.a) (s.val f.b) (s.val f.c).toNat (f.mode.toNat % 16) (bitAt 4 f.mode) (bitAt 5 f.mode)
      (routeTurns r))
/-- RATOM standing alone. -/
def execRatom (f : EngF) (r : Option RouteF) (s : State) : Host.Outcome State Fault Refusal :=
  issueOne (semRatom f r) (.ratom f r) s

/-! ### Barrier objects (R327-R334) -/

/-- The checks of a barrier op's object in the order R328 gives them: the issuing cluster, then alignment (R452). -/
def State.objCheck (s : State) (a : Word) : Option TrapInfo :=
  match s.place s.cur.core a with
  | some p =>
    if p.pkg ≠ s.boot.pkg ∨ clusterOf p.core ≠ clusterOf s.cur.core then some (addrTrap 0x24 a 2)
    else if a.toNat % 16 ≠ 0 then some (addrTrap 0x22 a 2)
    else none
  | none => some (addrTrap 0x24 a 2)

/-- The part of BINIT (R329). -/
def semBinit (f : EngF) (_ : Option RouteF) : Sem :=
  semNi f 1 noTags (fun _ => false) (fun s => s.objCheck (s.val f.a)) (fun s => .binit (s.val f.a) (s.val f.b))
/-- BINIT standing alone. -/
def execBinit (f : EngF) (r : Option RouteF) (s : State) : Host.Outcome State Fault Refusal :=
  issueOne (semBinit f r) (.binit f r) s

/-- The part of BARR (R330). -/
def semBarr (f : EngF) (_ : Option RouteF) : Sem :=
  semNi f 1 noTags (fun _ => false) (fun s => s.objCheck (s.val f.a)) (fun s => .barr (s.val f.a) (f.mode.toNat % 16))
/-- BARR standing alone. -/
def execBarr (f : EngF) (r : Option RouteF) (s : State) : Host.Outcome State Fault Refusal :=
  issueOne (semBarr f r) (.barr f r) s

/-- An access to the object at an address wakes its stripe, where it is not refused (R312, R319). -/
def State.touchObj (s : State) (a : Word) : State :=
  match s.place s.cur.core a with
  | some p => if (s.core p.core).admits s.me.task p.off 16 then s.updCore p.core (fun x => x.touch p.off (s.eff p.core)) else s
  | none => s

/-- Whether the owner's access to an object of its own core waits for its lent region (R304, R308). -/
def State.objBlocked (s : State) (a : Word) : Bool :=
  !isEddy s.cur.ctx &&
  (match s.place s.cur.core a with
   | some p => p.core == s.cur.core && s.myCore.ownerBlocked p.off
   | none => false)

/-- What one read of BWAIT decides: a status, or none where it sleeps (R331). `since` counts the cycles from issue. -/
def bwaitStatus (o : Option (BitVec 128)) (phase : Word) (since : Nat) (bound : Word) : Option Nat :=
  match o with
  | none => some 3
  | some o =>
    if !o.getLsbD 37 then some 3
    else if o.getLsbD 36 then some 2
    else if bitsOf 35 32 o ≠ bitsOf 3 0 phase then some 0
    else if bound.toNat ≤ since then some 1
    else none

/-- The checks of a BWAIT: handler mode, then its object (R328, R331). -/
def bwaitCheck (f : EngF) (w : Word) (s : State) : Option TrapInfo :=
  if s.me.tr.hm then some ⟨0x52, w, 0⟩ else s.objCheck (s.val f.a)

/-- Whether a BWAIT sleeps on: it has not been woken and its bound has not passed, or its read says so (R331). -/
def bwaitSleeps (f : EngF) (s : State) : Bool :=
  let c := s.me
  if c.waits.asleep.isSome && decide (c.sinceIssue < (s.val f.c).toNat) then true
  else (bwaitStatus (s.readObj (s.val f.a)) (s.val f.b) c.sinceIssue (s.val f.c)).isNone

/-- A cycle in which a BWAIT waits: on its first, and whenever it was woken, it sets its SLEEP bit (R331). -/
def bwaitStall (f : EngF) (s : State) : State :=
  let s1 := if s.me.waits.asleep.isSome then s else (s.touchObj (s.val f.a)).setSleep (s.val f.a) true
  (s1.updMe Ctx.waitOn).updMe (fun c => { c with waits := { c.waits with asleep := some (s.val f.a), sleptAt := some (s.val f.a) } })

/-- The part of BWAIT (R331, R334): statuses 1, 2 and 3 clear the own SLEEP bit in the same action. -/
def semBwait (f : EngF) (_ : Option RouteF) : Sem where
  ni _ := 1
  charge _ := niWeight
  waits s _ := s.objBlocked (s.val f.a) || bwaitSleeps f s
  onStall s _ := if s.objBlocked (s.val f.a) then s.updMe Ctx.waitOn else bwaitStall f s
  run s a :=
    let st := (bwaitStatus (s.readObj (s.val f.a)) (s.val f.b) s.me.sinceIssue (s.val f.c)).getD 0
    { trap := bwaitCheck f a.word s
      eff := Live.st (fun l =>
        let l := l.touchObj (s.val f.a)
        let l := if st = 0 then l else if st = 1 || s.me.waits.waiting then l.setSleep (s.val f.a) false else l
        l.updMe (fun c => { c with waits := { c.waits with asleep := none, sleptAt := none } }.pushS { v := wd st, tag := .int64 })) }
/-- BWAIT standing alone. -/
def execBwait (f : EngF) (r : Option RouteF) (s : State) : Host.Outcome State Fault Refusal :=
  issueOne (semBwait f r) (.bwait f r) s

/-- What BREAD pushes (R332). -/
def breadOf (s : State) (a : Word) : VVal :=
  match s.readObj a with
  | some o => { v := o.setWidth 2048, tag := .bits }
  | none => { v := 0, tag := .undef }

/-- The part of BREAD (R332). -/
def semBread (f : EngF) (_ : Option RouteF) : Sem where
  ni _ := 1
  charge _ := niWeight
  stall s _ := (s.objCheck (s.val f.a)).isNone && s.objBlocked (s.val f.a)
  run s _ :=
    { trap := s.objCheck (s.val f.a)
      eff := Live.st (fun l => (l.touchObj (s.val f.a)).updMe (fun c => c.pushV (breadOf s (s.val f.a)))) }
/-- BREAD standing alone. -/
def execBread (f : EngF) (r : Option RouteF) (s : State) : Host.Outcome State Fault Refusal :=
  issueOne (semBread f r) (.bread f r) s

end Sys2Proof.Machine
end

