-- ==== Sys2Proof/Machine/System.lean ====
section
/-! DEFINITION. The control registers and the SYSTEM ops that read and write them; software traps, breakpoints and
the return from one; the weir ops, the random generator, WAITEV and IDLE (R22-R25, R125-R129, R162, R163, R193-R198,
R214, R215, R340, R351, R360, R362, R368, R389, R436). -/

namespace Sys2Proof.Machine

/-! ### Reading control registers -/

/-- How a control register may be written (R22). -/
inductive CsrAccess where
  | ro | rw | rwh | w1c
  deriving DecidableEq, Repr

/-- The access of a register, or none for a number that is not listed (R22, R195, R340, R351, R360, R362, R436). -/
def csrAccess (n : Nat) : Option CsrAccess :=
  if n = 0x002 ∨ n = 0x003 ∨ n = 0x00A ∨ n = 0x020 then some .rw
  else if n = 0x00C then some .w1c
  else if 0x010 ≤ n ∧ n ≤ 0x017 then some .rwh
  else if n ≤ 0x00B ∨ n = 0x021 ∨ n = 0x022 ∨ n = 0x200 ∨ (0x210 ≤ n ∧ n ≤ 0x213) ∨ n = 0x220 ∨ n = 0x221 ∨ n = 0x230 then
    some .ro
  else if 0x214 ≤ n ∧ n ≤ 0x217 then some .rw
  else none

/-- LENDCFG in the layout of R294. Log 58, DEDUCED. -/
def lendWord (l : LendCfg) : Word :=
  0#32 ++ BitVec.ofBool l.active ++ BitVec.ofBool l.busy ++ 0#4 ++ BitVec.ofBool l.auto ++ BitVec.ofBool l.keep ++ 0#1 ++
    BitVec.ofNat 7 l.share ++ BitVec.ofNat 8 l.count ++ 0#1 ++ BitVec.ofNat 7 l.start
/-- The writable fields of LENDCFG that a word holds. -/
def lendOf (w : Word) (l : LendCfg) : LendCfg :=
  { l with auto := bitAt 25 w, keep := bitAt 24 w, share := bitsOf 22 16 w, count := bitsOf 15 8 w, start := bitsOf 6 0 w }

/-- The code of a bank state (R296). -/
def bankCode : BankSt → Nat
  | .free => 0 | .run => 1 | .revoking => 2 | .parked => 3 | .ending => 4 | .saving => 5
/-- A bank field of EDDYSTAT (R296). Log 45, DEDUCED. -/
def bankWord (b : EddyBank) : BitVec 16 :=
  BitVec.ofNat 8 b.exit ++ 0#2 ++ BitVec.ofBool b.rev ++ BitVec.ofBool b.origin ++ 0#1 ++ BitVec.ofNat 3 (bankCode b.st)
/-- EDDYSTAT (R296). -/
def eddystat (x : CoreState) : Word :=
  bankWord (x.bank 3) ++ bankWord (x.bank 2) ++ bankWord (x.bank 1) ++ 0#16

/-- NXSTAT (R389). -/
def nxstat (c : Ctx) : Word :=
  0#54 ++ BitVec.ofNat 2 c.nxHead ++ 0#1 ++ BitVec.ofNat 3 c.nx.length ++ 0#1 ++ BitVec.ofNat 3 c.nxLanded

/-- ESTAT (R194). -/
def estat (c : Ctx) : Word :=
  0#45 ++ BitVec.ofNat 3 c.tr.res ++ 0#3 ++ c.tr.blen ++ 0#2 ++ BitVec.ofBool c.tr.eng ++
    BitVec.ofBool c.tr.dt ++ BitVec.ofBool (c.pend != [] || c.notice.isSome) ++ 0#1 ++ BitVec.ofBool c.tr.wake ++
    BitVec.ofBool c.tr.hm

/-- TRAPVEC (R194). -/
def trapvec (c : Ctx) : Word := c.tr.vec.setWidth 64 ||| wd (bnat c.tr.noh)

/-- Copy-port bytes left, in 64-byte units (R368). Log 65, DEDUCED. -/
def copyUnits (x : CoreState) : Nat := if x.copyBud = 0xFFFF then 0xFFFF else x.copyLeft / 64
/-- BUDGET (R368). -/
def budget (x : CoreState) (c : Ctx) : Word :=
  0#16 ++ BitVec.ofNat 16 (copyUnits x) ++ BitVec.ofNat 16 c.csr.niLeft ++ BitVec.ofNat 16 c.csr.issueLeft

/-- WSPOS of a die (R340). -/
def wspos (s : State) (die : Nat) : Word :=
  let d := s.die die
  BitVec.ofBool d.sealed ++ 0#15 ++ BitVec.ofNat 32 (d.refresh / 16) ++ 0#1 ++ BitVec.ofNat 11 ((s.master - 1) % 1600) ++
    BitVec.ofNat 4 d.refresh

/-- Slot `i` of the pattern of `k` (R359). -/
def keptSlot (k i : Nat) : Bool := (i + 1) * k / 16 - i * k / 16 == 1
/-- The mask of a pattern (R359). -/
def patternMask (k : Nat) : Nat := joinNat 1 ((List.range 16).map (fun i => bnat (keptSlot k i)))
/-- PWRSTAT (R360). -/
def pwrstat (k : ClusterState) : Word :=
  0#16 ++ BitVec.ofNat 16 (patternMask k.keep) ++ 0#10 ++ BitVec.ofNat 6 k.cool ++ 0#1 ++ BitVec.ofNat 7 k.permits ++
    BitVec.ofBool k.fall ++ 0#1 ++ BitVec.ofBool k.grant ++ BitVec.ofNat 5 k.keep
/-- CPCTL (R362). -/
def cpctl (k : ClusterState) : Word :=
  0#27 ++ BitVec.ofNat 5 k.kis ++ 0#3 ++ BitVec.ofNat 5 k.kps ++ 0#2 ++ BitVec.ofNat 22 k.bud
/-- FABSTAT (R436). -/
def fabstat (s : State) : Word := 0#20 ++ BitVec.ofNat 12 s.boot.pkg ++ 0#14 ++ s.fab.up

/-- RINGCFG of a ring, zero where it does not exist (R351). -/
def ringcfg (r : Option Ring) : Word :=
  match r with
  | some r => r.base.extractLsb' 12 52 ++ 0#6 ++ 1#1 ++ BitVec.ofNat 5 r.log
  | none => 0
/-- RINGPTR of a ring (R351). -/
def ringptr (r : Option Ring) : Word :=
  match r with
  | some r => BitVec.ofNat 32 r.tail ++ BitVec.ofNat 32 r.head
  | none => 0

/-- The ring of the running context that a register number names. Log 62, DEDUCED. -/
def State.ringNo (s : State) (n : Nat) : Option Ring := ringOf s.myTask (dieOf s.cur.core) (n % 4)

/-- The value of a control register (R195). -/
def State.csr (s : State) (n : Nat) : Word :=
  let c := s.me
  match n with
  | 0x000 => s.myId
  | 0x001 => wd c.csr.mmrev
  | 0x002 => c.csr.fpctl.setWidth 64
  | 0x003 => c.csr.fpstat.setWidth 64
  | 0x004 => wd c.csr.weira
  | 0x005 => wd c.csr.weirw
  | 0x006 => wd c.csr.weirf
  | 0x007 => wd c.csr.weirc
  | 0x008 => c.csr.cycles - wd c.sinceIssue
  | 0x009 => budget s.myCore c
  | 0x00A => c.csr.rngseed
  | 0x00B => c.csr.privbase
  | 0x00C => wd (bnat c.csr.discard)
  | 0x010 => c.tr.cause.setWidth 64
  | 0x011 => c.tr.pc.setWidth 64
  | 0x012 => c.tr.slot.setWidth 64
  | 0x013 => c.tr.info0
  | 0x014 => c.tr.info1
  | 0x015 => trapvec c
  | 0x016 => c.tr.epc.setWidth 64
  | 0x017 => estat c
  | 0x020 => lendWord s.myCore.lend.cfg
  | 0x021 => eddystat s.myCore
  | 0x022 => nxstat c
  | 0x200 => wspos s (dieOf s.cur.core)
  | 0x220 => pwrstat (s.cluster (clusterOf s.cur.core))
  | 0x221 => cpctl (s.cluster (clusterOf s.cur.core))
  | 0x230 => fabstat s
  | n => if n < 0x214 then ringcfg (s.ringNo n) else ringptr (s.ringNo n)

/-! ### Writing control registers -/

/-- The three ways of writing (R195). -/
inductive CsrOp where
  | write | set | clear
  deriving DecidableEq, Repr

/-- What a write stores in a register that holds `old`. -/
def CsrOp.value (k : CsrOp) (old v : Word) : Word :=
  match k with
  | .write => v
  | .set => old ||| v
  | .clear => old &&& ~~~v

/-- A W1C bit after a write (R195). -/
def CsrOp.w1c (k : CsrOp) (bit : Bool) (v : Bool) : Bool := if k != .clear && v then false else bit

/-- Writing a register of the running context; `x` is what CSRW, CSRS or CSRC stores, `v` its operand (R22, R193-R195,
R294, R351). -/
def State.csrWrite (s : State) (k : CsrOp) (n : Nat) (x v : Word) : State :=
  match n with
  | 0x002 => s.updMe (fun c => { c with csr := { c.csr with fpctl := fpctlStore x } })
  | 0x003 => s.updMe (fun c => { c with csr := { c.csr with fpstat := x.setWidth 7 } })
  | 0x00A => s.updMe (fun c => { c with csr := { c.csr with rngseed := x } })
  | 0x00C => s.updMe (fun c => { c with csr := { c.csr with discard := k.w1c c.csr.discard (bitAt 0 v) } })
  | 0x010 => s.updMe (fun c => { c with tr := { c.tr with cause := x.setWidth 7 } })
  | 0x011 => s.updMe (fun c => { c with tr := { c.tr with pc := alignPc (x.setWidth 16) } })
  | 0x012 => s.updMe (fun c => { c with tr := { c.tr with slot := x.setWidth 5 } })
  | 0x013 => s.updMe (fun c => { c with tr := { c.tr with info0 := x } })
  | 0x014 => s.updMe (fun c => { c with tr := { c.tr with info1 := x } })
  | 0x015 => s.updMe (fun c => { c with tr := { c.tr with vec := alignPc (x.setWidth 16), noh := bitAt 0 x } })
  | 0x016 => s.updMe (fun c => { c with tr := { c.tr with epc := alignPc (x.setWidth 16) } })
  | 0x017 => s.updMe (fun c => { c with tr := { c.tr with wake := bitAt 1 x, dt := k.w1c c.tr.dt (bitAt 4 v) } })
  | 0x020 => s.updMyCore (fun y => { y with lend := { y.lend with cfg := lendOf x y.lend.cfg } })
  | n =>
    match s.me.task with
    | some t =>
      if 0x214 ≤ n ∧ n ≤ 0x217 then
        s.updRing t (dieOf s.cur.core) (n % 4) (fun r => { r with head := x.toNat % 2 ^ 32 })
      else s
    | none => s

/-- The checks of a CSR op on its number and on the context, which hold whatever the guard (R22, R195, R451). -/
def csrPrivilege (wr : Bool) (n : Nat) (s : State) : Option TrapInfo :=
  match csrAccess n with
  | none => some ⟨0x53, wd n, 0⟩
  | some .ro => if wr then some ⟨0x52, wd n, 0⟩ else none
  | some .rwh => if wr && !s.me.tr.hm then some ⟨0x52, wd n, 0⟩ else none
  | some _ => if wr && n == 0x020 && isEddy s.cur.ctx then some ⟨0x52, wd n, 0⟩ else none

/-- The checks of an active write on its value: LENDCFG while a lend is in force, HEAD beyond the ring (R294, R351). -/
def csrValue (n : Nat) (x : Word) (s : State) : Option TrapInfo :=
  if n = 0x020 ∧ s.myCore.lend.cfg.active then some ⟨0x52, wd n, 0⟩
  else if 0x214 ≤ n ∧ n ≤ 0x217 then
    match s.ringNo n with
    | some r => if 2 ^ r.log < Ring.used { r with head := x.toNat % 2 ^ 32 } then some ⟨0x52, wd n, 0⟩ else none
    | none => none
  else none

/-- A CSRW, CSRS or CSRC: the old value pushed, v := A OR IMM14 (R195). -/
def semCsrWrite (f : SysF) (i : Instr) (k : CsrOp) : Sem where
  charge := scalarCharge i f.g
  run s _ :=
    let n := f.csr.toNat
    let act := s.active f.g
    let old := s.csr n
    let v := s.val f.a ||| f.imm.setWidth 64
    { trap := firstTrap [csrPrivilege true n s, if act then csrValue n (k.value old v) s else none]
      eff := Live.st (fun l =>
        if act then (l.updMe (fun c => c.resultS f.w f.d { v := old, tag := .int64 })).csrWrite k n (k.value old v) v
        else l.updMe (fun c => c.resultS f.w f.d (firstA s f.a))) }

/-- The part of CSRR (R195). -/
def semCsrr (f : SysF) : Sem where
  charge := scalarCharge (.csrr f) f.g
  run s _ :=
    { trap := csrPrivilege false f.csr.toNat s
      eff := Live.me (fun c => c.resultS f.w f.d
        { v := if s.active f.g then s.csr f.csr.toNat else 0, tag := .int64 }) }
/-- CSRR standing alone. -/
def execCsrr (f : SysF) (s : State) : Host.Outcome State Fault Refusal := issueOne (semCsrr f) (.csrr f) s

/-- The part of CSRW (R195). -/
def semCsrw (f : SysF) : Sem := semCsrWrite f (.csrw f) .write
/-- CSRW standing alone. -/
def execCsrw (f : SysF) (s : State) : Host.Outcome State Fault Refusal := issueOne (semCsrw f) (.csrw f) s

/-- The part of CSRS (R195). -/
def semCsrs (f : SysF) : Sem := semCsrWrite f (.csrs f) .set
/-- CSRS standing alone. -/
def execCsrs (f : SysF) (s : State) : Host.Outcome State Fault Refusal := issueOne (semCsrs f) (.csrs f) s

/-- The part of CSRC (R195). -/
def semCsrc (f : SysF) : Sem := semCsrWrite f (.csrc f) .clear
/-- CSRC standing alone. -/
def execCsrc (f : SysF) (s : State) : Host.Outcome State Fault Refusal := issueOne (semCsrc f) (.csrc f) s

/-! ### TRAP, BRK and ERET (R196-R198) -/

/-- The part of TRAP: its kind-A event is pending from retirement (R196); of several, the newest is taken first. Log 42,
DEDUCED. -/
def semTrap (f : SysF) : Sem where
  charge := scalarCharge (.trap f) f.g
  run s _ :=
    { eff := Live.me (fun c =>
        if s.active f.g then { c with pend := ⟨true, ⟨0x51, s.val f.a, f.imm.setWidth 64⟩, 0⟩ :: c.pend } else c) }
/-- TRAP standing alone. -/
def execTrap (f : SysF) (s : State) : Host.Outcome State Fault Refusal := issueOne (semTrap f) (.trap f) s

/-- The part of BRK (R197). -/
def semBrk (f : SysF) : Sem where
  charge := scalarCharge (.brk f) f.g
  run s _ := { trap := if s.active f.g then some ⟨0x50, 0, f.imm.setWidth 64⟩ else none }
/-- BRK standing alone. -/
def execBrk (f : SysF) (s : State) : Host.Outcome State Fault Refusal := issueOne (semBrk f) (.brk f) s

/-- The part of ERET (R198). -/
def semEret (f : SysF) : Sem where
  charge := scalarCharge (.eret f) f.g
  run s a :=
    { trap := if s.me.tr.hm then none else some ⟨0x52, a.word, 0⟩
      eff := fun L =>
        if s.active f.g then { (Live.me Ctx.eret L) with next := some (alignPc s.me.tr.epc) } else L }
/-- ERET standing alone. -/
def execEret (f : SysF) (s : State) : Host.Outcome State Fault Refusal := issueOne (semEret f) (.eret f) s

/-! ### WEIRSET and WEIRQ (R214, R215, R295) -/

/-- The upper limit of WEIRA: an eddy's share, WEIRC, or WEIRC less the share lent (R210, R214, R295). -/
def State.weirHi (s : State) : Nat :=
  if isEddy s.cur.ctx then (s.myCore.bank s.cur.ctx).share
  else if s.myCore.lend.cfg.active then s.me.csr.weirc - s.myCore.lend.cfg.share
  else s.me.csr.weirc

/-- Whether a value may be written to WEIRA. -/
def State.weiraOk (s : State) (v : Word) : Bool := s.me.csr.weirf ≤ v.toNat && v.toNat ≤ s.weirHi
/-- Whether a value may be written to WEIRW. -/
def State.weirwOk (s : State) (v : Word) : Bool := s.me.csr.weirf ≤ v.toNat && v.toNat ≤ 768

/-- The old values WEIRSET pushes (R214). -/
def weirOld (c : Ctx) : Word := wd (c.csr.weirw % 1024 * 2 ^ 16 + c.csr.weira % 128)

/-- A WEIRSET by the values it checks and writes. -/
def semWeir (f : SysF) (i : Instr) (ok : State → Bool) (wr : State → Csrs → Csrs) : Sem where
  charge := scalarCharge i f.g
  run s a :=
    { trap := if s.active f.g && !ok s then some ⟨0x52, a.word, 0⟩ else none
      eff := Live.me (fun c =>
        if s.active f.g then
          let c := c.resultS f.w f.d { v := weirOld s.me, tag := .int64 }
          { c with csr := wr s c.csr }
        else c.resultS f.w f.d (firstA s f.a)) }

/-- The part of WEIRSET. -/
def semWeirset (f : SysF) : Sem :=
  semWeir f (.weirset f) (fun s => s.weiraOk (s.val f.a) && s.weirwOk (s.val f.b))
    (fun s c => { c with weira := (s.val f.a).toNat, weirw := (s.val f.b).toNat })
/-- WEIRSET standing alone. -/
def execWeirset (f : SysF) (s : State) : Host.Outcome State Fault Refusal := issueOne (semWeirset f) (.weirset f) s

/-- The part of WEIRSET.ba. -/
def semWeirsetBa (f : SysF) : Sem :=
  semWeir f (.weirsetBa f) (fun s => s.weiraOk (s.val f.a)) (fun s c => { c with weira := (s.val f.a).toNat })
/-- WEIRSET.ba standing alone. -/
def execWeirsetBa (f : SysF) (s : State) : Host.Outcome State Fault Refusal := issueOne (semWeirsetBa f) (.weirsetBa f) s

/-- The part of WEIRSET.wa. -/
def semWeirsetWa (f : SysF) : Sem :=
  semWeir f (.weirsetWa f) (fun s => s.weirwOk (s.val f.a)) (fun s c => { c with weirw := (s.val f.a).toNat })
/-- WEIRSET.wa standing alone. -/
def execWeirsetWa (f : SysF) (s : State) : Host.Outcome State Fault Refusal := issueOne (semWeirsetWa f) (.weirsetWa f) s

/-- What WEIRQ reads (R215). -/
def weirqOf (sel : Nat) (c : Ctx) : Word :=
  match sel with
  | 0 => wd (c.csr.weirc * 2 ^ 48 + c.csr.weirf * 2 ^ 32 + c.csr.weirw * 2 ^ 16 + c.csr.weira)
  | 1 => wd (standSum c.standing)
  | _ => wd (c.window.take 7).sum

/-- The part of WEIRQ (R215). -/
def semWeirq (f : SysF) : Sem where
  charge := scalarCharge (.weirq f) f.g
  run s _ :=
    { eff := Live.me (fun c => c.resultS f.w f.d
        { v := if s.active f.g then weirqOf f.imm.toNat s.me else 0, tag := .int64 }) }
/-- WEIRQ standing alone. -/
def execWeirq (f : SysF) (s : State) : Host.Outcome State Fault Refusal := issueOne (semWeirq f) (.weirq f) s

/-! ### SEED and RNGPOP (R162, R163) -/

/-- The part of SEED (R162). -/
def semSeed (f : SysF) : Sem where
  charge := scalarCharge (.seed f) f.g
  run s _ :=
    { eff := Live.me (fun c =>
        if s.active f.g then { c with csr := { c.csr with rngseed := s.val f.a } } else c) }
/-- SEED standing alone. -/
def execSeed (f : SysF) (s : State) : Host.Outcome State Fault Refusal := issueOne (semSeed f) (.seed f) s

/-- The part of RNGPOP (R163): it pops whatever its guard. -/
def semRngpop (f : SysF) : Sem where
  charge := scalarCharge (.rngpop f) f.g
  pops _ := .own
  run s a := { eff := Live.me (fun c => c.resultS f.w f.d { v := if s.active f.g then a.rnd else 0, tag := .int64 }) }
/-- RNGPOP standing alone. -/
def execRngpop (f : SysF) (s : State) : Host.Outcome State Fault Refusal := issueOne (semRngpop f) (.rngpop f) s

/-! ### WAITEV and IDLE (R126-R129) -/

/-- The access of a WAITEV; an address that is no aligned dword of the scratchpad fails its range check (R126). -/
def waitevAcc (f : SysF) (s : State) : Acc1 :=
  let a := s.val f.a
  { lane := 0, va := a, n := 8, kind := 0, mixed := decide (a.toNat % 8 ≠ 0) || decide (spadSize ≤ a.toNat) }

/-- Whether an access passes every row of R178. -/
def State.accOk (s : State) (a : Acc1) : Bool :=
  [1, 2, 3, 4, 5].all (fun r => (s.accFails s.cur.core s.cur.ctx s.myTask a r).isNone)

/-- The state in which a WAITEV reads its dword: a load of the context, ordered with its own earlier accesses, that
wakes the stripe (R126, R181, R242). -/
def waitevLook (f : SysF) (s : State) : State := (s.implicitMark true).beforeLoad (waitevAcc f s)
/-- The dword a WAITEV finds: its bytes, poisoned or not, for the status it pushes is never poisoned. Log 106, DESIGN CHOICE. -/
def waitevWord (f : SysF) (s : State) : Word :=
  wd ((waitevLook f s).loadNat s.cur.core ((List.range 8).map (fun i => Loc.spad ((s.val f.a).toNat + i)))).1

/-- Whether a WAITEV's bound has passed (R126). -/
def waitevPast (f : SysF) (c : Ctx) : Bool := f.imm != 0 && decide (64 * f.imm.toNat ≤ c.sinceIssue)

/-- The part of WAITEV (R126). Log 42, DEDUCED. -/
def semWaitev (f : SysF) : Sem where
  charge := scalarCharge (.waitev f) f.g
  waits s _ := s.active f.g && waitevWord f s == s.val f.b && !waitevPast f s.me
  onStall s _ := (waitevLook f s).updMe Ctx.waitOn
  run s a :=
    let act := s.active f.g
    { trap := s.hmTrap a
      accs := if act then [waitevAcc f s] else []
      eff := Live.st (fun l => (if act then waitevLook f l else l).updMe (fun c => c.resultS f.w f.d
        (if act then { v := if waitevWord f s == s.val f.b then 1 else 0, tag := .int64 } else firstA s f.a))) }
/-- WAITEV standing alone. -/
def execWaitev (f : SysF) (s : State) : Host.Outcome State Fault Refusal := issueOne (semWaitev f) (.waitev f) s

/-- The part of IDLE (R127): a wake that came while it waited lets it retire, and so does a pending one, which it clears. -/
def semIdle (f : SysF) : Sem where
  charge := scalarCharge (.idle f) f.g
  waits s _ := s.active f.g && !s.me.tr.wake && !s.me.waits.idleWoken
  onStall s _ := s.updMe (fun c => let c := c.waitOn; { c with waits := { c.waits with idle := true } })
  run s a :=
    { trap := s.hmTrap a
      eff := Live.me (fun c =>
        if s.active f.g && !s.me.waits.idleWoken then { c with tr := { c.tr with wake := false } } else c) }
/-- IDLE standing alone. -/
def execIdle (f : SysF) (s : State) : Host.Outcome State Fault Refusal := issueOne (semIdle f) (.idle f) s

end Sys2Proof.Machine
end

