-- ==== Sys2Proof/Machine/Bind.lean ====
section
/-! DEFINITION. Launch records (R374, R375, R385), the values a context starts with (R22, R381), task numbers and the
pending-launch pool (R376-R378). -/

namespace Sys2Proof.Machine

/-! ### Launch records (R374) -/

/-- A dword of a record. -/
def recW (r : List Word) (n : Nat) : Word := r.getD n 0
/-- IMAGE. -/
def recImage (r : List Word) : Nat := bitsOf 63 48 (recW r 0)
/-- OVL. -/
def recOvl (r : List Word) : Nat := bitsOf 47 40 (recW r 0)
/-- ENTRY as an offset. -/
def recEntry (r : List Word) : Nat := bitsOf 36 24 (recW r 0) * 8
/-- PRIO. -/
def recPrio (r : List Word) : Nat := bitsOf 23 20 (recW r 0)
/-- RST. -/
def recRst (r : List Word) : Bool := bitAt 19 (recW r 0)
/-- SHAPE. -/
def recShape (r : List Word) : Nat := bitsOf 13 12 (recW r 0)
/-- The number of cores, CORES + 1. -/
def recCores (r : List Word) : Nat := bitsOf 11 0 (recW r 0) + 1
/-- CHILDREN. -/
def recChildren (r : List Word) : Nat := bitsOf 52 42 (recW r 1)
/-- SCHED. -/
def recSched (r : List Word) : Nat := bitsOf 39 32 (recW r 1)
/-- HANDLER as an offset. -/
def recHandler (r : List Word) : Nat := bitsOf 31 19 (recW r 1) * 8
/-- NOH. -/
def recNoh (r : List Word) : Bool := bitAt 18 (recW r 1)
/-- ESTIMATE. -/
def recEstimate (r : List Word) : Nat := (recW r 2).toNat
/-- NXLIMIT. -/
def recNxLimit (r : List Word) : Nat := (recW r 3).toNat
/-- ARG0 to ARG7. -/
def recArgs (r : List Word) : List Word := (List.range 8).map (fun i => recW r (4 + i))
/-- COMPL. -/
def recCompl (r : List Word) : Word := recW r 12

/-- Whether every reserved bit of a record is zero (R374). -/
def recReservedOk (r : List Word) : Bool :=
  bitsOf 39 37 (recW r 0) == 0 && bitsOf 18 14 (recW r 0) == 0 && bitsOf 63 53 (recW r 1) == 0 &&
  bitsOf 41 40 (recW r 1) == 0 && bitsOf 17 0 (recW r 1) == 0 && recW r 13 == 0 && recW r 14 == 0 && recW r 15 == 0

/-- Whether an address is a global scratchpad address, of any package (R311). -/
def isGlobalSpad (va : Word) : Bool := bitsOf 63 56 va == 0xFE && bitsOf 31 19 va == 0 && decide (bitsOf 41 36 va < 48)

/-- COMPL is 0 or a global scratchpad address aligned to 8 (R385). -/
def recComplOk (r : List Word) : Bool := recCompl r == 0 || ((recCompl r).toNat % 8 == 0 && isGlobalSpad (recCompl r))

/-- Cores of a partition (R370). -/
def Part.cores (p : Part) : List Nat := p.clusters.flatMap (fun k => (List.range 16).map (fun i => 16 * k + i))
/-- A partition. -/
def State.part (s : State) (n : Nat) : Option Part := s.fw.parts.find? (fun p => p.num == n)

/-- An overlay of an image. -/
def Image.overlay (i : Image) (n : Nat) : Option Overlay := i.overlays.find? (fun o => o.num == n)

/-- OVL, ENTRY, HANDLER and SCHED of a record name parts of the image (R385 reason 0x05). -/
def recTargetsOk (img : Image) (r : List Word) : Bool :=
  (match img.overlay (recOvl r) with
   | some o =>
     let inside (x : Nat) : Bool := decide (o.off ≤ x) && decide (x < o.off + 8 * o.words.length)
     inside (recEntry r) && inside (recHandler r)
   | none => false) &&
  (recSched r == 0xFF || decide (recSched r < img.scheds.length))

/-- Reasons 0x03 to 0x07 of R385 for a record that image `img` launches in a partition; the lowest that applies. -/
def recReason (s : State) (img : Image) (part : Nat) (r : List Word) : Option Nat :=
  let cores := match s.part part with | some p => p.cores.length | none => 0
  if cores < recCores r then some 3
  else if recImage r ≠ 0 ∧ recImage r ≠ img.id then some 4
  else if !recTargetsOk img r then some 5
  else if !recReservedOk r || !recComplOk r then some 6
  else if (recShape r = 1 ∧ 16 < recCores r) ∨ (recShape r = 2 ∧ 768 < recCores r) then some 7
  else none

/-! ### Numbers and the pool (R376) -/

/-- Entries of the pending-launch pool. -/
def poolSize : Nat := 1024
/-- The next task or instance number. Log 64, DESIGN CHOICE. -/
def State.nextTask (s : State) : Nat :=
  1 + (s.fw.tasks.map (·.num) ++ s.fw.insts.map (·.num)).foldl max 0
/-- Entries reserved for running tasks (R377). -/
def State.reserved (s : State) : Nat := (s.fw.tasks.map (·.reserved)).sum
/-- Whether `n` entries are neither occupied nor reserved (R376). -/
def State.poolFree (s : State) (n : Nat) : Bool := decide (s.fw.pool.length + s.reserved + n ≤ poolSize)
/-- The lowest entry that is not occupied. -/
def State.freeEntry (s : State) : Nat := ((List.range poolSize).find? (fun e => !s.fw.pool.contains e)).getD 0
/-- The next acceptance number. -/
def State.nextSeq (s : State) : Nat :=
  1 + (s.fw.tasks.map (·.seq) ++ s.fw.insts.map (·.seq)).foldl max 0

/-- Queueing a launch record as a new task (R378, R384). -/
def State.queueTask (s : State) (img : Nat) (r : List Word) (part prio : Nat) (device : Bool) (parent : Option Nat)
    (node : Option (Nat × Nat)) (entry : Option Nat) : State :=
  let t : Task := { num := s.nextTask, image := img, record := r, part := part, prio := prio, seq := s.nextSeq,
                    device := device, parent := parent, pool := entry, node := node }
  s.updFw (fun w => { w with tasks := w.tasks ++ [t],
                             pool := match entry with | some e => setInsert e w.pool | none => w.pool })

/-! ### The values a context starts with (R22, R381) -/

/-- What a bind gives a context: image, record, window, allowances and the launch words in g24 on. -/
structure Start where
  task : Nat
  mmrev : Nat
  weirf : Nat
  weira : Nat
  weirw : Nat
  handler : Nat
  noh : Bool
  pc : Nat
  priv : Word
  args : List Word
  issueBud : Nat
  niBud : Nat
  deriving DecidableEq, Repr

/-- A context at a fresh bind (R381). -/
def Start.ctx (b : Start) : Ctx :=
  let c := Ctx.reset
  { c with
    run := .run
    pc := BitVec.ofNat 16 b.pc
    task := some b.task
    files := { c.files with g := Vector.ofFn (fun i : Fin 32 =>
      if 24 ≤ i.val then (match b.args[i.val - 24]? with | some v => { v := v, tag := .int64 } | none => {}) else {}) }
    csr := { mmrev := b.mmrev, weirf := b.weirf, weira := b.weira, weirw := b.weirw, privbase := b.priv,
             issueBud := b.issueBud, issueLeft := b.issueBud, niBud := b.niBud, niLeft := b.niBud }
    tr := { vec := alignPc (BitVec.ofNat 16 b.handler), noh := b.noh } }

/-- The window the firmware gave a context of a task (R454). -/
def Task.privOf (t : Task) (core k : Nat) : Word :=
  match t.privs.find? (fun p => p.core == core && p.ctx == k) with | some p => p.base | none => 0

/-- A floor under the scale in force (R372). -/
def State.scaled (s : State) (n : Nat) : Nat := n * s.fw.scaleNum / s.fw.scaleDen

/-- The issue budget of a partition: the field maximum is no limit and is not scaled (R366, R370, R372). -/
def State.issueOf (s : State) (part : Nat) : Nat :=
  match s.part part with
  | some p => if p.issue = 0xFFFF then 0xFFFF else s.scaled p.issue
  | none => 0xFFFF

/-- The NI budget of a partition's contexts (R366). -/
def State.niOf (s : State) (part : Nat) : Nat := match s.part part with | some p => p.ni | none => 0xFFFF

/-- The copy-port budget of a core: that of the partition its cluster lies in (R366). -/
def State.copyOf (s : State) (core : Nat) : Nat :=
  match s.fw.parts.find? (fun p => p.clusters.contains (clusterOf core)) with | some p => p.copy | none => 0xFFFF

/-- A context under the budgets of its task's partition (R366, R372). -/
def State.budgeted (s : State) (t : Task) (c : Ctx) : Ctx :=
  { c with csr := { c.csr with issueBud := s.issueOf t.part, niBud := s.niOf t.part } }

/-- Writing the budgets of every bound context and every copy port from the partitions; `note` says that a scale was applied
(R366, R372). -/
def State.setBudgets (s : State) (note : Bool) : State :=
  { s with cores := s.cores.map (fun p => (p.1, { p.2 with
      copyBud := s.copyOf p.1
      ctxs := p.2.ctxs.map (fun c =>
        match c.task.bind s.task with
        | some t => if c.run == .unbound then c else { s.budgeted t c with scaled := c.scaled || note }
        | none => c) })) }

/-- The start of the owner context of a task on a core (R380). -/
def State.ownerStart (s : State) (t : Task) (img : Image) (core : Nat) : Start :=
  { task := t.num, mmrev := img.mmrev, weirf := img.weirf, weira := max 64 img.weirf, weirw := 448,
    handler := recHandler t.record, noh := recNoh t.record, pc := recEntry t.record, priv := t.privOf core 0,
    args := recArgs t.record, issueBud := s.issueOf t.part, niBud := s.niOf t.part }

end Sys2Proof.Machine
end

