-- ==== Sys2Proof/Machine/Eddy.lean ====
section
/-! DEFINITION. LEND, REVOKE, EDDY, EDDY.res and PARK at issue (R305). What follows over the cycles of R302 is in
Machine/EvEddy.lean. -/

namespace Sys2Proof.Machine

/-- The privilege check of LEND, REVOKE and EDDY, then the value check of an active op (R305, R451). -/
def State.eddyOpTrap (s : State) (a : At) (ok : Bool) : Option TrapInfo :=
  match s.eddyTrap a with
  | some t => some t
  | none => if ok then none else some ⟨0x52, a.word, 0⟩

/-! ### Pinned words (R286, R305, R306) -/

/-- Whether two runs of bytes meet. -/
def runsMeet (a n b m : Nat) : Bool := decide (a < b + m) && decide (b < a + n)

/-! ### Turning stripes on (R241, R358) -/

/-- Master cycles from turning a region on to its use (R358). -/
def powerOnCycles : Nat := 1600

/-- Ungating the stripes of a region (R241). -/
def CoreState.ungate (x : CoreState) (start count t : Nat) : CoreState :=
  { x with stripes := Vector.ofFn (fun i : Fin 32 =>
      let p := x.stripes.get i
      if p.pw == .gated && runsMeet (start * slotSize) (count * slotSize) (i.val * 0x4000) 0x4000 then ⟨.awake, t⟩ else p) }

/-- Whether a stripe of a region is gated (R241). -/
def CoreState.regionGated (x : CoreState) (start count : Nat) : Bool :=
  x.stripes.toList.zipIdx.any (fun p =>
    p.1.pw == .gated && runsMeet (start * slotSize) (count * slotSize) (p.2 * 0x4000) 0x4000)

/-- The core `y` that `x` becomes at master cycle `now`: a stripe that is gated no longer may be used once it is turned on
(R358). -/
def CoreState.turnedOn (x y : CoreState) (now : Nat) : CoreState :=
  { y with onAt :=
      if x.stripes.toList.zip y.stripes.toList |>.any (fun p => p.1.pw == .gated && p.2.pw != .gated) then now + powerOnCycles
      else x.onAt }

/-- The words a bound tenant eddy has pinned: the overlay of its entry (R286, R306). -/
def State.pinned (s : State) (core : Nat) : List (Nat × Nat) :=
  [1, 2, 3].filterMap (fun k =>
    if (s.core core).fwEddy k && ((s.core core).bank k).st != .free then
      match s.taskOf core k with
      | some t =>
        match (s.image t.image).bind (fun i => i.overlay (recOvl t.record)) with
        | some o => some (o.off, 8 * o.words.length)
        | none => none
      | none => none
    else none)

/-- Whether pinned words of a firmware-bound eddy meet a resident overlay of the owner (R305). Log 58, DEDUCED. -/
def State.pinsCollide (s : State) (core : Nat) : Bool :=
  (s.pinned core).any (fun p => (s.core core).resid.any (fun r => r.res && runsMeet p.1 p.2 r.off (8 * r.len)))

/-! ### LEND -/

/-- The slots of a region. -/
def regionSlots (start count : Nat) : List Nat := (List.range count).map (· + start)

/-- Whether A of a LEND is valid (R305). Log 58, DEDUCED. -/
def lendOk (s : State) (w : Word) : Bool :=
  let l := lendOf w {}
  !s.myCore.lend.cfg.active && l.count != 0 && l.start + l.count ≤ 128 && l.share != 0 &&
  s.me.csr.weira + l.share ≤ s.me.csr.weirc && !s.pinsCollide s.cur.core

/-- What a LEND pushes: LENDCFG as it stood when the LEND issued, before it waited (R305). -/
def lendPushed (s : State) : Word := s.me.waits.lendOld.getD (lendWord s.myCore.lend.cfg)

/-- Whether a LEND waits: BUSY, a slot that is neither READY nor EMPTY, or a region still being revoked (R304,
R305; a region of other slots too, log 13, DEDUCED). -/
def lendWaits (s : State) (w : Word) : Bool :=
  let l := lendOf w {}
  let x := s.myCore
  x.lend.cfg.busy || (regionSlots l.start l.count).any (fun n =>
    (x.tile n).st == .filling || (x.tile n).st == .draining) || x.lend.rev.any (·.region)

/-- Whether a LEND waits for the stripes of its region: one is gated, and the time it takes to turn them on is not over
(R241, R358). Log 82, DESIGN CHOICE. -/
def lendUnpowered (s : State) (w : Word) : Bool :=
  s.myCore.regionGated (lendOf w {}).start (lendOf w {}).count && s.me.waits.lendOn.all (fun m => decide (s.master < m))

/-- One cycle in which a LEND waits: what it is to push is kept, and where only the stripes of its region hold it they are
being turned on (R305, R358). -/
def State.lendHeld (s : State) (w : Word) : State :=
  s.updMe (fun c =>
    let c := c.waitOn
    { c with waits := { c.waits with
        lendOld := some (lendPushed s)
        lendOn := if lendWaits s w then c.waits.lendOn else some (c.waits.lendOn.getD (s.master + powerOnCycles)) } })

/-- The part of LEND (R305): at retirement the lend is in force and BUSY; it completes as an event. Log 58, DEDUCED. -/
def semLend (f : SysF) : Sem where
  charge := scalarCharge (.lend f) f.g
  waits s _ := s.active f.g && (lendWaits s (s.val f.a) || lendUnpowered s (s.val f.a))
  onStall s _ := s.lendHeld (s.val f.a)
  run s a :=
    let act := s.active f.g
    { trap := s.eddyOpTrap a (!act || lendOk s (s.val f.a))
      eff := Live.st (fun l =>
        let l := l.updMe (fun c => c.resultS f.w f.d
          (if act then { v := lendPushed s, tag := .int64 } else firstA s f.a))
        if act then
          l.updMyCore (fun x => { x with lend := { x.lend with
            cfg := { lendOf (s.val f.a) {} with active := true, busy := true }, filling := true } })
        else l) }
/-- LEND standing alone. -/
def execLend (f : SysF) (s : State) : Host.Outcome State Fault Refusal := issueOne (semLend f) (.lend f) s

/-! ### REVOKE -/

/-- The part of REVOKE (R302, R305). -/
def semRevoke (f : SysF) : Sem where
  charge := scalarCharge (.revoke f) f.g
  run s a :=
    { trap := s.eddyTrap a
      eff := Live.st (fun l => if s.active f.g then l.startRevoke l.cur.core else l) }
/-- REVOKE standing alone. -/
def execRevoke (f : SysF) (s : State) : Host.Outcome State Fault Refusal := issueOne (semRevoke f) (.revoke f) s

/-! ### EDDY and EDDY.res -/

/-- The eddy entry that A of an EDDY names (R305): one of the owner's image, of share 1-96. -/
def eddyEntry (s : State) (a : Word) : Option EddyEnt :=
  if 64 ≤ a.toNat then none
  else
    match s.myTask.bind (fun t => s.image t.image) with
    | some img =>
      match img.eddies[a.toNat]? with
      | some e => if 1 ≤ e.share ∧ e.share ≤ 96 then some e else none
      | none => none
    | none => none

/-- The shares of the banks in RUN. -/
def CoreState.shares (x : CoreState) : Nat := (x.running.map (fun k => (x.bank k).share)).sum

/-- The lowest FREE bank. -/
def CoreState.freeBank (x : CoreState) : Option Nat := [1, 2, 3].find? (fun k => (x.bank k).st == .free)

/-- The bank an EDDY starts, if it starts one (R305). -/
def eddyBankFor (s : State) (e : EddyEnt) : Option Nat :=
  let x := s.myCore
  if !x.lend.cfg.active || decide (x.lend.cfg.share < x.shares + e.share) then none else x.freeBank

/-- The start of an owner-origin eddy (R305, R381). R305 leaves g25 to g31 zero tagged UNDEF, where R381 excepts only g24
and the allowances from the owner's values: R305's own rule is taken. Log 44, DEDUCED. -/
def State.eddyStart (s : State) (t : Task) (img : Image) (core k : Nat) (e : EddyEnt) (arg : Word) : Start :=
  { s.ownerStart t img core with
    weirf := e.share, weira := e.share, weirw := min 768 (8 * e.share), pc := e.entry, priv := t.privOf core k,
    args := [arg] }

/-- A context that issues no earlier than the cycle after the running one: the bank of an EDDY issues from the bundle after
EDDY's (R305). -/
def Ctx.nextCycle (c : Ctx) : Ctx := { c with waits := { c.waits with wakeIn := 1 } }

/-- Binding an owner-origin eddy in bank `k`. -/
def State.startEddy (s : State) (k : Nat) (e : EddyEnt) (arg : Word) : State :=
  match s.myTask with
  | none => s
  | some t =>
    match s.image t.image with
    | none => s
    | some img =>
      s.updMyCore (fun x =>
        (x.setCtx k (s.eddyStart t img s.cur.core k e arg).ctx.nextCycle).updBank k (fun b =>
          { b with st := .run, origin := false, rev := false, share := e.share, lent := true }))

/-- The number EDDY pushes. -/
def bankNo (b : Option Nat) : SVal := { v := wd (b.getD 0), tag := .int64 }

/-- The part of EDDY, starting form (R305). -/
def semEddy (f : SysF) : Sem where
  charge := scalarCharge (.eddy f) f.g
  run s a :=
    let act := s.active f.g
    let e := eddyEntry s (s.val f.a)
    let b := if act then e.bind (eddyBankFor s) else none
    { trap := s.eddyOpTrap a (!act || e.isSome)
      eff := Live.st (fun l =>
        let l := match b, e with | some k, some e => l.startEddy k e (s.val f.b) | _, _ => l
        l.updMe (fun c => c.resultS f.w f.d (bankNo b))) }
/-- EDDY standing alone. -/
def execEddy (f : SysF) (s : State) : Host.Outcome State Fault Refusal := issueOne (semEddy f) (.eddy f) s

/-- The bank an EDDY.res resumes, if it resumes one (R305). -/
def eddyResBank (s : State) (a : Word) : Option Nat :=
  let x := s.myCore
  let k := a.toNat
  if !x.lend.cfg.active || (x.bank k).st != .parked || (x.bank k).origin ||
      decide (x.lend.cfg.share < x.shares + (x.bank k).share) then none
  else some k

/-- A bank returning to RUN, with an empty window (R297, R301). -/
def CoreState.resumeBank (x : CoreState) (k : Nat) : CoreState :=
  (x.setCtx k { x.ctx k with window := [] }).updBank k (fun b => { b with st := .run, lent := true })

/-- The part of EDDY.res (R305). -/
def semEddyRes (f : SysF) : Sem where
  charge := scalarCharge (.eddyRes f) f.g
  run s a :=
    let act := s.active f.g
    let v := s.val f.a
    let ok := decide (1 ≤ v.toNat) && decide (v.toNat ≤ 3)
    let b := if act && ok then eddyResBank s v else none
    { trap := s.eddyOpTrap a (!act || ok)
      eff := Live.st (fun l =>
        let l := match b with
          | some k => (l.updMyCore (fun x => x.resumeBank k)).updCtx l.cur.core k Ctx.nextCycle
          | none => l
        l.updMe (fun c => c.resultS f.w f.d (bankNo b))) }
/-- EDDY.res standing alone. -/
def execEddyRes (f : SysF) (s : State) : Host.Outcome State Fault Refusal := issueOne (semEddyRes f) (.eddyRes f) s

/-! ### PARK -/

/-- The bank a PARK names: A in the owner, its own in an eddy (R305). -/
def parkBank (f : SysF) (s : State) : Nat := if isEddy s.cur.ctx then s.cur.ctx else (s.val f.a).toNat

/-- Whether a PARK names a bank it may park (R305). -/
def parkOk (f : SysF) (s : State) : Bool :=
  let k := parkBank f s
  isEddy s.cur.ctx ||
  (decide (1 ≤ k) && decide (k ≤ 3) && (s.myCore.bank k).st == .run && !(s.myCore.bank k).origin)

/-- Cycle 0 of taking a bank without any region (R301, R302). -/
def State.startPark (s : State) (k : Nat) : State :=
  s.updMyCore (fun x =>
    { x with lend := { x.lend with rev := x.lend.rev ++
        [{ at0 := s.eff s.cur.core, banks := [k], region := false, keep := false, start := 0, count := 0 }] } })

/-- The part of PARK (R305). -/
def semPark (f : SysF) : Sem where
  charge := scalarCharge (.park f) f.g
  run s a :=
    let act := s.active f.g
    { trap := if act && !parkOk f s then some ⟨0x52, a.word, 0⟩ else none
      eff := Live.st (fun l => if act then l.startPark (parkBank f s) else l) }
/-- PARK standing alone. -/
def execPark (f : SysF) (s : State) : Host.Outcome State Fault Refusal := issueOne (semPark f) (.park f) s

end Sys2Proof.Machine
end

