-- ==== Sys2Proof/Machine/Convert.lean ====
section
/-! DEFINITION. The converter ops (R146-R150): VCVT, and block quantisation, dequantisation and lattice decoding under
R45 and R46. -/

namespace Sys2Proof.Machine

/-- The destination tag of a converter op (R146). -/
def cvtD (f : RegF) : Tag := (cvtDest f).getD .undef
/-- The effective rounding mode of a converter op (R34). -/
def cvtRM (f : RegF) (s : State) : RMode := s.me.effRM true f.rm
/-- A converter op in mode 5 draws the bundle's shared random word (R49). -/
def cvtPops (f : RegF) (s : State) : Pop := if cvtRM f s == .stoch then .conv else .no
/-- The random byte of a result lane (R50); used only in mode 5. -/
def cvtByte (rm : RMode) (a : At) (i : Nat) : Nat := if rm == .stoch then rngByte a.rnd i else 0

/-- The guard merge of a converter op that fills the first `n` lanes: the others are zero whatever the guard; with no
lane active, the lanes that are not filled counted too, A is delivered whole (R132). Log 103, DESIGN CHOICE. -/
def mergeFilled (n w : Nat) (tag : Tag) (mask : List Bool) (a : VVal) (res : List Nat) : VVal :=
  if mask.any id then mergeV w tag (mask.zipIdx.map (fun p => p.1 || decide (n ≤ p.2))) (some a) res
  else { v := a.v, tag := a.tag }

/-- A converter op whose first `n` result lanes are computed by `fn` with the rounding mode and the random byte. -/
def semCvt (f : RegF) (i : Instr) (accept : Src → List Tag × Tag) (n : Nat)
    (fn : State → RMode → Nat → Nat → FRes) : Sem where
  tags := vecTags f i accept
  pops := cvtPops f
  charge s := vecCharge i (s.laneMask f.g (laneCount (tagWidth (cvtD f)))) (noFree (tagWidth (cvtD f)) s)
  run s a :=
    let w := tagWidth (cvtD f)
    let mask := s.laneMask f.g (laneCount w)
    let rm := cvtRM f s
    let res := (List.range (laneCount w)).map (fun k => if k < n then fn s rm (cvtByte rm a k) k else (0, 0))
    { flags := laneFlags mask res
      eff := Live.me (fun c => c.resultV f.w f.d (mergeFilled n w (cvtD f) mask (s.rdV (vT f) f.a) (res.map (·.1)))) }

/-! ### VCVT (R147) -/

/-- The number of lanes VCVT fills (R147). -/
def vcvtFill (f : RegF) : Nat := min (laneCount (tagWidth (vT f))) (laneCount (tagWidth (cvtD f)))
/-- The source lane of result lane `k`: part p of a widening (R147). -/
def vcvtSrc (f : RegF) (k : Nat) : Nat :=
  if tagWidth (vT f) < tagWidth (cvtD f) then f.x.toNat % 8 * laneCount (tagWidth (cvtD f)) + k else k

/-- The value of the keep-bits case (R39, R147). -/
def vcvtBits (f : RegF) (s : State) : VVal :=
  let a := s.rdV (vT f) f.a
  { v := a.v, tag := if (s.laneMask f.g (laneCount (tagWidth (cvtD f)))).any id then cvtD f else a.tag }

/-- The part of VCVT (R147). -/
def semVcvt (f : RegF) : Sem :=
  if vT f = .bits ∨ cvtD f = .bits then
    { tags := vecTags f (.vcvt f) (acceptT f), pops := cvtPops f,
      charge := fun s => vecCharge (.vcvt f) (s.laneMask f.g (laneCount (tagWidth (cvtD f)))) (noFree (tagWidth (cvtD f)) s),
      run := fun s _ => { eff := Live.me (fun c => c.resultV f.w f.d (vcvtBits f s)) } }
  else
    semCvt f (.vcvt f) (acceptT f) (vcvtFill f)
      (fun s rm rb k => cvtElem (vT f) (cvtD f) rm rb (laneAt (tagWidth (vT f)) (s.rdV (vT f) f.a).v (vcvtSrc f k)))
/-- VCVT standing alone. -/
def execVcvt (f : RegF) (s : State) : Host.Outcome State Fault Refusal := issueOne (semVcvt f) (.vcvt f) s

/-! ### VQNT (R45, R148) -/

/-- emax of R45. -/
def qntEmax : Tag → Int
  | .e4m3 => 8 | .e5m2 => 15 | _ => 6

/-- floor(log2 |x|) of the finite nonzero elements of a block, the largest. -/
def blockExp (f : Fmt) (l : List Nat) : Option Int :=
  l.foldl (fun r x =>
    match fdec f x with
    | .fin _ m e => if m = 0 then r else some (match r with | some y => max y ((Nat.log2 m : Int) + e) | none => (Nat.log2 m : Int) + e)
    | _ => r) none

/-- The scale of a block from its active elements (R45). -/
def blockScale (f : Fmt) (d : Tag) (l : List Nat) : Nat :=
  if l.any (fun x => match fdec f x with | .fin _ _ _ => false | _ => true) then 0xFF
  else
    match blockExp f l with
    | none => 127
    | some e => (max 0 (min 254 (e - qntEmax d + 127))).toNat

/-- An element over 2^k rounded into the destination; out of range saturates with neither OF nor SAT, and an INT8 one that
saturates is inexact and sets PE (R45). Log 35, DEDUCED. -/
def qntElem (f : Fmt) (d : Tag) (rm : RMode) (rb : Nat) (k : Int) (x : Nat) : FRes :=
  match fdec f x with
  | .fin n m e =>
    if d = .int8 then
      let (v, inexact) := roundInt rm rb n m (e - k)
      if v < -128 then (0x80, fPE) else if 127 < v then (0x7F, fPE) else (intBits 8 v, if inexact then fPE else 0)
    else
      let g := fmtOf d
      let r := roundFin g rm rb n m (e - k)
      if r.2.getLsbD 2 then (g.signBit n + g.maxFin, r.2 &&& ~~~fOF) else r
  | _ => (0, 0)

/-- The active elements of block `j` of A. -/
def qntBlock (f : RegF) (s : State) (j : Nat) : List Nat :=
  (List.range 8).filterMap (fun k =>
    if s.me.guardBit f.g (8 * j + k) then some (laneAt (tagWidth (vT f)) (s.rdV (vT f) f.a).v (8 * j + k)) else none)

/-- The scale of block `j`. -/
def qntScale (f : RegF) (s : State) (j : Nat) : Nat := blockScale (fmtOf (vT f)) (cvtD f) (qntBlock f s j)

/-- Element `k` of a VQNT with `.elem`: a signalling NaN sets IV (R31, R45). -/
def qntLane (f : RegF) (s : State) (rm : RMode) (rb k : Nat) : FRes :=
  let g := fmtOf (vT f)
  let x := laneAt (tagWidth (vT f)) (s.rdV (vT f) f.a).v k
  let sc := qntScale f s (k / 8)
  let iv : Flags := if (fdec g x).isSig then fIV else 0
  if sc = 0xFF then ((if cvtD f = .int8 then 0 else (fmtOf (cvtD f)).nan), iv)
  else if (blockExp g (qntBlock f s (k / 8))).isNone then (0, iv)
  else qntElem g (cvtD f) rm rb ((sc : Int) - 127) x

/-- The scales of a VQNT with `.scale`; every scale lane is written, whatever the guard (R148). -/
def qntScales (f : RegF) (s : State) : VVal :=
  let n := laneCount (tagWidth (vT f)) / 8
  { v := packLanes 8 ((List.range n).map (qntScale f s)), tag := .scale8 }

/-- The flags of a VQNT with `.scale`: IV of the active signalling NaNs (R45). -/
def qntScaleFlags (f : RegF) (s : State) : LaneFlags :=
  let n := laneCount (tagWidth (vT f))
  laneFlags (s.laneMask f.g n) ((lanesOf (tagWidth (vT f)) (s.rdV (vT f) f.a).v).map (fun x =>
    (0, if (fdec (fmtOf (vT f)) x).isSig then fIV else 0)))

/-- The part of VQNT (R148). -/
def semVqnt (f : RegF) : Sem :=
  if f.x.getLsbD 0 then
    { tags := vecTags f (.vqnt f) (acceptT f), pops := cvtPops f,
      charge := fun s =>
        vecCharge (.vqnt f) (s.laneMask f.g (laneCount (tagWidth (vT f)))) (noFree (tagWidth (vT f)) s),
      run := fun s _ =>
        { flags := qntScaleFlags f s, eff := Live.me (fun c => c.resultV f.w f.d (qntScales f s)) } }
  else semCvt f (.vqnt f) (acceptT f) (laneCount (tagWidth (vT f))) (qntLane f)
/-- VQNT standing alone. -/
def execVqnt (f : RegF) (s : State) : Host.Outcome State Fault Refusal := issueOne (semVqnt f) (.vqnt f) s

/-! ### VDQNT (R45, R149) -/

/-- The tags VDQNT and VLCD accept: B carries SCALE8 (R149, R150). -/
def acceptScaled (f : RegF) (x : Src) : List Tag × Tag := if x.idx = 1 then ([.scale8], .scale8) else acceptT f x

/-- Dequantising one element with its scale; scale 0xFF gives the canonical NaN and no flag (R45). -/
def dqntElem (t d : Tag) (rm : RMode) (rb sc x : Nat) : FRes :=
  let g := fmtOf d
  if sc = 0xFF then (g.nan, 0)
  else if t = .int8 then
    let v := intVal t x
    roundFin g rm rb (decide (v < 0)) v.natAbs ((sc : Int) - 127)
  else
    match fdec (fmtOf t) x with
    | .nan _ => (g.nan, 0)
    | .inf n => deliverInf g rm n
    | .fin n m e => roundFin g rm rb n m (e + (sc : Int) - 127)

/-- The part of VDQNT (R149). -/
def semVdqnt (f : RegF) : Sem :=
  semCvt f (.vdqnt f) (acceptScaled f) (laneCount (tagWidth (cvtD f)))
    (fun s rm rb k =>
      let e := f.x.toNat % 8 * laneCount (tagWidth (cvtD f)) + k
      dqntElem (vT f) (cvtD f) rm rb (laneAt 8 (s.rdV .scale8 f.b).v (e / 8)) (laneAt 8 (s.rdV (vT f) f.a).v e))
/-- VDQNT standing alone. -/
def execVdqnt (f : RegF) (s : State) : Host.Outcome State Fault Refusal := issueOne (semVdqnt f) (.vdqnt f) s

/-! ### VLCD (R46, R150) -/

/-- Weight `i` of an LC8 word: whether it is negative, and twice its unscaled magnitude (R46). -/
def lc8Weight (word i : Nat) : Bool × Nat :=
  let neg := if i = 7 then popcount 7 (word / 256) % 2 == 1 else word / 2 ^ (8 + i) % 2 == 1
  (neg, 1 + 2 * (word / 2 ^ i % 2 + word / 2 ^ 15 % 2))

/-- Decoding one weight with its scale (R46). -/
def lc8Elem (d : Tag) (rm : RMode) (rb sc word i : Nat) : FRes :=
  let g := fmtOf d
  if sc = 0xFF then (g.nan, 0)
  else
    let w := lc8Weight word i
    roundFin g rm rb w.1 w.2 ((sc : Int) - 128)

/-- The part of VLCD (R150). -/
def semVlcd (f : RegF) : Sem :=
  semCvt f (.vlcd f) (acceptScaled f) (laneCount (tagWidth (cvtD f)))
    (fun s rm rb k =>
      let word := f.x.toNat % 8 * (laneCount (tagWidth (cvtD f)) / 8) + k / 8
      lc8Elem (cvtD f) rm rb (laneAt 8 (s.rdV .scale8 f.b).v word) (laneAt 16 (s.rdV (vT f) f.a).v word) (k % 8))
/-- VLCD standing alone. -/
def execVlcd (f : RegF) (s : State) : Host.Outcome State Fault Refusal := issueOne (semVlcd f) (.vlcd f) s

end Sys2Proof.Machine
end

