-- ==== Sys2Proof/Machine/Imm.lean ====
section
/-! DEFINITION. The IMM ops 0x00-0x0A (R118, R119). -/

namespace Sys2Proof.Machine

/-- A function of an IMM op: A and imm32. -/
abbrev ImmFn := Word → BitVec 32 → Word

/-- The value an IMM op delivers: its result tagged INT64, or `first` when it is guarded off: A with A's tag, for LI
zero (R16, R118). -/
def immOut (f : ImmF) (usesA : Bool) (fn : ImmFn) (s : State) : SVal :=
  let a := if usesA then s.rdS .int64 f.a else { v := 0, tag := .int64 }
  if s.active f.g then { v := fn a.v f.imm, tag := .int64 } else { v := a.v, tag := a.tag }

/-- An IMM op by its function (R118). No tag is checked. -/
def semImm (f : ImmF) (i : Instr) (usesA : Bool) (fn : ImmFn) : Sem where
  charge := scalarCharge i f.g
  run s _ := { eff := Live.me (fun c => c.resultS f.w f.d (immOut f usesA fn s)) }

/-- ADDI: A + simm (R118). -/
def fnAddi : ImmFn := fun a imm => a + imm.signExtend 64
/-- ANDI: A AND simm (R118). -/
def fnAndi : ImmFn := fun a imm => a &&& imm.signExtend 64
/-- ORI: A OR simm (R118). -/
def fnOri : ImmFn := fun a imm => a ||| imm.signExtend 64
/-- XORI: A XOR simm (R118). -/
def fnXori : ImmFn := fun a imm => a ^^^ imm.signExtend 64
/-- SHLI: A << imm32 (R118). -/
def fnShli : ImmFn := fun a imm => a <<< imm.toNat
/-- SHRI: A >> imm32, zeros in (R118). -/
def fnShri : ImmFn := fun a imm => a >>> imm.toNat
/-- SARI: A >> imm32, copies of bit 63 in (R118). -/
def fnSari : ImmFn := fun a imm => a.sshiftRight imm.toNat
/-- LI: simm (R118). -/
def fnLi : ImmFn := fun _ imm => imm.signExtend 64
/-- LIH: A's low half with imm32 above it (R118). -/
def fnLih : ImmFn := fun a imm => (a &&& 0xFFFFFFFF#64) ||| (imm.setWidth 64 <<< 32)
/-- MULI: the low bits of A × simm (R118). -/
def fnMuli : ImmFn := fun a imm => a * imm.signExtend 64

/-- The part of ADDI. -/
def semAddi (f : ImmF) : Sem := semImm f (.addi f) true fnAddi
/-- ADDI standing alone. -/
def execAddi (f : ImmF) (s : State) : Host.Outcome State Fault Refusal := issueOne (semAddi f) (.addi f) s

/-- The part of ANDI. -/
def semAndi (f : ImmF) : Sem := semImm f (.andi f) true fnAndi
/-- ANDI standing alone. -/
def execAndi (f : ImmF) (s : State) : Host.Outcome State Fault Refusal := issueOne (semAndi f) (.andi f) s

/-- The part of ORI. -/
def semOri (f : ImmF) : Sem := semImm f (.ori f) true fnOri
/-- ORI standing alone. -/
def execOri (f : ImmF) (s : State) : Host.Outcome State Fault Refusal := issueOne (semOri f) (.ori f) s

/-- The part of XORI. -/
def semXori (f : ImmF) : Sem := semImm f (.xori f) true fnXori
/-- XORI standing alone. -/
def execXori (f : ImmF) (s : State) : Host.Outcome State Fault Refusal := issueOne (semXori f) (.xori f) s

/-- The part of SHLI. -/
def semShli (f : ImmF) : Sem := semImm f (.shli f) true fnShli
/-- SHLI standing alone. -/
def execShli (f : ImmF) (s : State) : Host.Outcome State Fault Refusal := issueOne (semShli f) (.shli f) s

/-- The part of SHRI. -/
def semShri (f : ImmF) : Sem := semImm f (.shri f) true fnShri
/-- SHRI standing alone. -/
def execShri (f : ImmF) (s : State) : Host.Outcome State Fault Refusal := issueOne (semShri f) (.shri f) s

/-- The part of SARI. -/
def semSari (f : ImmF) : Sem := semImm f (.sari f) true fnSari
/-- SARI standing alone. -/
def execSari (f : ImmF) (s : State) : Host.Outcome State Fault Refusal := issueOne (semSari f) (.sari f) s

/-- The part of LI. -/
def semLi (f : ImmF) : Sem := semImm f (.li f) false fnLi
/-- LI standing alone. -/
def execLi (f : ImmF) (s : State) : Host.Outcome State Fault Refusal := issueOne (semLi f) (.li f) s

/-- The part of LIH. -/
def semLih (f : ImmF) : Sem := semImm f (.lih f) true fnLih
/-- LIH standing alone. -/
def execLih (f : ImmF) (s : State) : Host.Outcome State Fault Refusal := issueOne (semLih f) (.lih f) s

/-- The part of MULI. -/
def semMuli (f : ImmF) : Sem := semImm f (.muli f) true fnMuli
/-- MULI standing alone. -/
def execMuli (f : ImmF) (s : State) : Host.Outcome State Fault Refusal := issueOne (semMuli f) (.muli f) s

/-- The comparison of a CMPI: A against the signed low 29 bits, by the condition in [31:29] (R119). -/
def cmpiOf (f : ImmF) (s : State) : Int :=
  cmpRes (bitsOf 31 29 f.imm) 64 true (s.rdS .int64 f.a).v.toNat ((f.imm.setWidth 29).signExtend 64).toNat

/-- The part of CMPI (R119); a predicate destination acts as for CMP. -/
def semCmpi (f : ImmF) : Sem where
  charge := scalarCharge (.cmpi f) f.g
  run s _ :=
    let act := s.active f.g
    let r := cmpiOf f s
    let a := s.rdS .int64 f.a
    let v : SVal := if act then { v := wdi r, tag := .int64 } else { v := a.v, tag := a.tag }
    { eff := Live.me (cmpDeliver f.w f.d act r v s.me) }
/-- CMPI standing alone. -/
def execCmpi (f : ImmF) (s : State) : Host.Outcome State Fault Refusal := issueOne (semCmpi f) (.cmpi f) s

end Sys2Proof.Machine
end

