-- ==== Sys2Proof/Machine/Launch.lean ====
section
/-! DEFINITION. LAUNCH, LAUNCH.nb, LAUNCH.g, NTREQ and NTREQ.pop (R384-R390). -/

namespace Sys2Proof.Machine

/-! ### Reading a record or a descriptor (R384, R385) -/

/-- Whether an address is of a form LAUNCH allows (R384): a multiple of 64 in the own scratchpad, the own global form,
or translated. -/
def launchAddrOk (s : State) (a : Word) : Bool := a.toNat % 64 == 0 && s.vtarget s.cur.core a.toNat != .bad

/-- The bytes of one 8-byte read of a record. -/
def launchLocs (s : State) (a : Word) (i : Nat) : List Loc := s.locs s.cur.core s.myTask (a + wd (8 * i)) 8 false

/-- The read of `n` bytes of a record or a descriptor. -/
def launchAcc (a : Word) (n : Nat) : Acc1 := { lane := 0, va := a, n := n, kind := 0 }

/-- Whether the read of `n` bytes fails translation, protection or range, or meets poison (R385 reason 0x02). -/
def launchReadBad (s : State) (a : Word) (n : Nat) : Bool :=
  !s.accOk (launchAcc a n) || (s.locs s.cur.core s.myTask a n false).any (s.memPoison s.cur.core)

/-- Whether the read of `n` bytes waits: a page is migrating, or the owner's lent region is being revoked (R304, R308, R348,
R384). -/
def launchReadWaits (s : State) (a : Word) (n : Nat) : Bool :=
  launchAddrOk s a &&
  (s.accMigrating s.cur.core s.myTask (launchAcc a n) ||
   (match s.ownOff s.cur.core a with
    | some o => s.myCore.ownerBlocked o || s.myCore.ownerBlocked (o + n - 1)
    | none => false))

/-- `n` dwords as memory holds them. -/
def launchRead (s : State) (a : Word) (n : Nat) : List Word :=
  (List.range n).map (fun i => wd (s.loadNat s.cur.core (launchLocs s a i)).1)

/-- The image of the launching task. -/
def State.myImage (s : State) : Option Image := s.myTask.bind (fun t => s.image t.image)

/-- The reason of R385 for the record at A, if it is invalid. The reads come after every earlier store of the context
(R384): `s` has performed them. -/
def recordReason (s : State) (a : Word) : Option Nat :=
  if !launchAddrOk s a then some 1
  else if launchReadBad s a 128 then some 2
  else
    match s.myTask, s.myImage with
    | some t, some img => recReason s img t.part (launchRead s a 16)
    | _, _ => some 4

/-! ### Graph descriptors (R386) -/

/-- NODES of a header. -/
def graphNodes (h : Word) : Nat := bitsOf 5 0 h + 1
/-- A PRED mask sets bits only below the node's number (R386). -/
def predOk (i : Nat) (p : Word) : Bool := p.toNat < 2 ^ i

/-- The sealed graph of the running task whose descriptor lies at A (R386). Log 61, DEDUCED. -/
def sealedGraph (s : State) (a : Word) : Option Graph :=
  s.fw.graphs.find? (fun g => g.sealed && g.owner == s.me.task && g.owner.isSome && g.addr == a)

/-- The reason of R385 for the descriptor at A, if it is invalid; a sealed graph is launched from its copy. Log 61, DEDUCED. -/
def graphReason (s : State) (a : Word) : Option Nat :=
  if (sealedGraph s a).isSome then none
  else if !launchAddrOk s a then some 1
  else if launchReadBad s a 8 then some 2
  else
    let h := (launchRead s a 1).headD 0
    let n := graphNodes h
    if launchReadBad s a (8 * (1 + 2 * n)) then some 2
    else if bitsOf 62 6 h ≠ 0 then some 8
    else
      let d := launchRead s a (1 + 2 * n)
      if (List.range n).all (fun i => predOk i (d.getD (2 + 2 * i) 0) && (recordReason s (d.getD (1 + 2 * i) 0)).isNone) then
        none
      else some 8

/-- The addresses of the node records of the descriptor at A (R386). -/
def nodeRecords (s : State) (a : Word) : List Word :=
  let n := graphNodes ((launchRead s a 1).headD 0)
  let d := launchRead s a (1 + 2 * n)
  (List.range n).map (fun i => d.getD (1 + 2 * i) 0)

/-- Whether a LAUNCH.g waits for its descriptor or for one of its node records (R384). Log 61, DEDUCED. -/
def graphWaits (s : State) (a : Word) : Bool :=
  (sealedGraph s a).isNone &&
  (launchReadWaits s a 8 ||
   (!launchReadBad s a 8 &&
    (let n := graphNodes ((launchRead s a 1).headD 0)
     launchReadWaits s a (8 * (1 + 2 * n)) ||
     (!launchReadBad s a (8 * (1 + 2 * n)) && (nodeRecords s a).any (fun r => launchReadWaits s r 128)))))

/-- The graph the descriptor at A describes, sealed (R386). -/
def readGraph (s : State) (a : Word) (t : Task) : Graph :=
  let h := (launchRead s a 1).headD 0
  let n := graphNodes h
  let d := launchRead s a (1 + 2 * n)
  { handle := 1 + (s.fw.graphs.map (·.handle)).foldl max 0, owner := some t.num, addr := a, image := t.image,
    sealed := true, reent := bitAt 63 h,
    nodes := (List.range n).map (fun i => ⟨launchRead s (d.getD (1 + 2 * i) 0) 16, (d.getD (2 + 2 * i) 0).toNat, false⟩) }

/-- Queueing an instance of a graph (R387). -/
def State.queueInst (s : State) (g : Graph) (compl : Word) (task : Option Nat) (entry : Option Nat) : State :=
  let i : GInst := { num := s.nextTask, graph := g.handle, compl := compl, task := task,
                     nodes := g.nodes.map (fun _ => (none, none)), pool := entry, seq := s.nextSeq }
  s.updFw (fun w => { w with insts := w.insts ++ [i],
                             pool := match entry with | some e => setInsert e w.pool | none => w.pool })

/-! ### LAUNCH (R384) -/

/-- Launches made by the running task. -/
def launchUsed (s : State) : Nat := match s.myTask with | some t => t.used | none => 0
/-- CHILDREN of the running task. -/
def launchBound (s : State) : Nat := match s.myTask with | some t => recChildren t.record | none => 0

/-- The trap of LAUNCH and LAUNCH.g: privilege, record, bound (R384). -/
def launchTrap (s : State) (a : At) (act : Bool) (va : Word) (reason : Option Nat) : Option TrapInfo :=
  match s.eddyTrap a with
  | some t => some t
  | none =>
    if !act then none
    else
      match reason with
      | some r => some ⟨0x45, va, wd r⟩
      | none => if launchBound s ≤ launchUsed s then some ⟨0x44, wd (launchUsed s), wd (launchBound s)⟩ else none

/-- Turning one reserved entry of a task into an occupied one (R377). -/
def State.countLaunch (s : State) (t : Nat) : State :=
  s.updTask t (fun t => { t with used := t.used + 1, reserved := t.reserved - 1 })

/-- The walks that reading a record makes (R344). -/
def State.touchRead (s : State) (a : Word) (n : Nat) : State :=
  s.touchAcc s.cur.core s.myTask (launchAcc a n)

/-- The walks that reading a descriptor and its node records makes (R344, R386). -/
def State.touchGraph (s : State) (a : Word) : State :=
  if (sealedGraph s a).isSome then s
  else (nodeRecords s a).foldl (fun (s : State) r => s.touchRead r 128)
    (s.touchRead a (8 * (1 + 2 * graphNodes ((launchRead s a 1).headD 0))))

/-- Launching the record at A (R384): the earlier stores are performed, the record is copied and queued. -/
def State.launchRec (s : State) (a : Word) : State × Word :=
  let s := (s.drainMe).touchRead a 128
  match s.myTask with
  | none => (s, 0)
  | some t =>
    let r := launchRead s a 16
    let n := s.nextTask
    let s1 := (s.countLaunch t.num).queueTask t.image r t.part (min (recPrio r) t.prio) true (some t.num) none
      (some s.freeEntry)
    (s1, wd n)

/-- Launching the graph whose descriptor lies at A (R384, R386, R387). Log 61, DEDUCED. -/
def State.launchGraph (s : State) (a compl : Word) : State × Word :=
  let s := (s.drainMe).touchGraph a
  match s.myTask with
  | none => (s, 0)
  | some t =>
    let g := (sealedGraph s a).getD (readGraph s a t)
    let n := s.nextTask
    let s1 := if (sealedGraph s a).isSome then s else s.updFw (fun w => { w with graphs := w.graphs ++ [g] })
    ((s1.countLaunch t.num).queueInst g compl (some t.num) (some s.freeEntry), wd n)

/-- Reading a record that is not launched: the walks of the read, after the earlier stores; an address LAUNCH does not allow
is not read (R344, R384). -/
def State.readRecord (s : State) (a : Word) : State := if launchAddrOk s a then s.drainMe.touchRead a 128 else s

/-- What a LAUNCH pushes. -/
def statusWord (status : Nat) (task : Word) : SVal := { v := wd (status * 2 ^ 32) ||| task, tag := .int64 }

/-- Whether a LAUNCH waits: an active one of an owner whose reads wait once the earlier stores are performed (R384). -/
def launchWaits (s : State) (act : Bool) (waits : State → Bool) : Bool := act && !isEddy s.cur.ctx && waits s.drainMe

/-- The part of LAUNCH (R384). -/
def semLaunch (f : SysF) : Sem where
  charge := scalarCharge (.launch f) f.g
  stall s _ := launchWaits s (s.active f.g) (fun d => launchReadWaits d (s.val f.a) 128)
  run s a :=
    let act := s.active f.g
    let va := s.val f.a
    { trap := launchTrap s a act va (recordReason s.drainMe va)
      eff := Live.st (fun l =>
        if act then
          let r := l.launchRec va
          r.1.updMe (fun c => c.resultS f.w f.d (statusWord 0 r.2))
        else l.updMe (fun c => c.resultS f.w f.d (firstA s f.a))) }
/-- LAUNCH standing alone. -/
def execLaunch (f : SysF) (s : State) : Host.Outcome State Fault Refusal := issueOne (semLaunch f) (.launch f) s

/-- The part of LAUNCH.nb: beyond the bound or with an invalid record it pushes a status (R384). -/
def semLaunchNb (f : SysF) : Sem where
  charge := scalarCharge (.launchNb f) f.g
  stall s _ := launchWaits s (s.active f.g) (fun d => launchReadWaits d (s.val f.a) 128)
  run s a :=
    let act := s.active f.g
    let va := s.val f.a
    { trap := s.eddyTrap a
      eff := Live.st (fun l =>
        if !act then l.updMe (fun c => c.resultS f.w f.d (firstA s f.a))
        else if (recordReason s.drainMe va).isSome then (l.readRecord va).updMe (fun c => c.resultS f.w f.d (statusWord 2 0))
        else if launchBound s ≤ launchUsed s then (l.readRecord va).updMe (fun c => c.resultS f.w f.d (statusWord 1 0))
        else
          let r := l.launchRec va
          r.1.updMe (fun c => c.resultS f.w f.d (statusWord 0 r.2))) }
/-- LAUNCH.nb standing alone. -/
def execLaunchNb (f : SysF) (s : State) : Host.Outcome State Fault Refusal := issueOne (semLaunchNb f) (.launchNb f) s

/-- The part of LAUNCH.g (R384, R387). -/
def semLaunchG (f : SysF) : Sem where
  charge := scalarCharge (.launchG f) f.g
  stall s _ := launchWaits s (s.active f.g) (fun d => graphWaits d (s.val f.a))
  run s a :=
    let act := s.active f.g
    let va := s.val f.a
    { trap := launchTrap s a act va (graphReason s.drainMe va)
      eff := Live.st (fun l =>
        if act then
          let r := l.launchGraph va (s.val f.b)
          r.1.updMe (fun c => c.resultS f.w f.d (statusWord 0 r.2))
        else l.updMe (fun c => c.resultS f.w f.d (firstA s f.a))) }
/-- LAUNCH.g standing alone. -/
def execLaunchG (f : SysF) (s : State) : Host.Outcome State Fault Refusal := issueOne (semLaunchG f) (.launchG f) s

/-! ### NTREQ (R389, R390) -/

/-- Bundles from an NTREQ to its landing (R390). -/
def nxBundles : Nat := 32
/-- The value that says a task's items are all handed out (R390). -/
def nxEnd : Word := 0xFFFFFFFFFFFFFFFF

/-- The traps of NTREQ (R390): handler mode or a firmware-bound eddy whatever the guard, then the entries. -/
def ntTrap (s : State) (a : At) (bad : Bool) : Option TrapInfo :=
  if s.me.tr.hm || s.myCore.fwEddy s.cur.ctx || bad then some ⟨0x52, a.word, 0⟩ else none

/-- Taking the next number of the task's counter: one indivisible action (R390). -/
def State.takeItem (s : State) : State × Word :=
  match s.myTask with
  | none => (s, nxEnd)
  | some t =>
    (s.updTask t.num (fun t => { t with ntile := t.ntile + 1 }),
      if t.ntile < recNxLimit t.record then wd t.ntile else nxEnd)

/-- Dropping the entry at HEAD (R390). -/
def Ctx.popNx (c : Ctx) : Ctx := { c with nx := c.nx.tail, nxHead := (c.nxHead + 1) % 4 }
/-- Appending a request (R390). -/
def Ctx.pushNx (v : Word) (c : Ctx) : Ctx := { c with nx := c.nx ++ [⟨v, nxBundles + 1⟩] }

/-- An active NTREQ at retirement. -/
def State.request (s : State) (pop : Bool) : State :=
  let s := if pop then s.updMe Ctx.popNx else s
  let r := s.takeItem
  r.1.updMe (Ctx.pushNx r.2)

/-- The part of NTREQ. -/
def semNtreq (f : SysF) : Sem where
  charge := scalarCharge (.ntreq f) f.g
  run s a :=
    { trap := ntTrap s a (s.active f.g && decide (4 ≤ s.me.nx.length))
      eff := Live.st (fun l => if s.active f.g then l.request false else l) }
/-- NTREQ standing alone. -/
def execNtreq (f : SysF) (s : State) : Host.Outcome State Fault Refusal := issueOne (semNtreq f) (.ntreq f) s

/-- The part of NTREQ.pop. -/
def semNtreqPop (f : SysF) : Sem where
  charge := scalarCharge (.ntreqPop f) f.g
  run s a :=
    { trap := ntTrap s a (s.active f.g && s.me.nxLanded == 0)
      eff := Live.st (fun l => if s.active f.g then l.request true else l) }
/-- NTREQ.pop standing alone. -/
def execNtreqPop (f : SysF) (s : State) : Host.Outcome State Fault Refusal := issueOne (semNtreqPop f) (.ntreqPop f) s

end Sys2Proof.Machine
end

