-- ==== Sys2Proof/Machine/Tile.lean ====
section
/-! DEFINITION. The tile-table ops of R233-R239 at issue. What TZERO, TFILL, TIDENT, TCLASS and TCOPY do after
retirement is in Machine/EvTile.lean. -/

namespace Sys2Proof.Machine

/-- The in-tokens of a TILE op. -/
def tIns (f : TileF) : List Tok := [f.i1, f.i2, f.i3]
/-- The slot in D. -/
def tSlot (f : TileF) : Nat := f.d.toNat
/-- Whether a TILE op whose guard tests slot `n` is active (R231). -/
def tileActive (g : Guard) (n : Nat) (s : State) : Bool := s.me.tguardBit g n

/-- Starting the filler of a slot: the command is queued and the slot moves to FILLING (R225, R228). -/
def State.startFiller (f : TileF) (kind : CmdKind) (s : State) : State :=
  (s.startOp (tIns f) f.out kind).updMyCore (fun x => x.updTile (tSlot f) startFill)

/-- A whole-tile writer of R233: the slots it names where it is active, and its command. -/
def semFiller (f : TileF) (i : Instr) (uses : List SlotUse) (kind : State → CmdKind) : Sem where
  slots s := if tileActive f.g (tSlot f) s then uses else []
  charge := engCharge i (tileActive f.g (tSlot f))
  run s a :=
    { trap := s.eddyTrap a
      eff := Live.st (fun l =>
        if tileActive f.g (tSlot f) s then l.startFiller f (kind s) else l.idleOp (tIns f) f.out) }

/-- The tag in bits [3:0] of an operand field. -/
def fieldTag (x : BitVec 7) : Tag := tagOf (x.toNat % 16)

/-- The part of TZERO (R234). -/
def semTzero (f : TileF) : Sem :=
  semFiller f (.tzero f) [⟨tSlot f, false, 3⟩] (fun _ =>
    .tzero (tSlot f) (if f.a.toNat % 16 = 15 then none else some (fieldTag f.a)))
/-- TZERO standing alone. -/
def execTzero (f : TileF) (s : State) : Host.Outcome State Fault Refusal := issueOne (semTzero f) (.tzero f) s

/-- The part of TFILL (R234): `one` is 1 in the op's format (R66). -/
def semTfill (f : TileF) : Sem :=
  semFiller f (.tfill f) [⟨tSlot f, false, 3⟩] (fun s => .tfill (tSlot f) (fieldTag f.b) (s.rdS (fieldTag f.b) (operandOf f.a)).v)
/-- TFILL standing alone. -/
def execTfill (f : TileF) (s : State) : Host.Outcome State Fault Refusal := issueOne (semTfill f) (.tfill f) s

/-- The part of TIDENT (R234). -/
def semTident (f : TileF) : Sem := semFiller f (.tident f) [⟨tSlot f, false, 3⟩] (fun _ => .tident (tSlot f) (fieldTag f.a))
/-- TIDENT standing alone. -/
def execTident (f : TileF) (s : State) : Host.Outcome State Fault Refusal := issueOne (semTident f) (.tident f) s

/-- The part of TCLASS (R235). -/
def semTclass (f : TileF) : Sem := semFiller f (.tclass f) [⟨tSlot f, true, 3⟩] (fun _ => .tclass (tSlot f))
/-- TCLASS standing alone. -/
def execTclass (f : TileF) (s : State) : Host.Outcome State Fault Refusal := issueOne (semTclass f) (.tclass f) s

/-- The part of TCOPY (R236). -/
def semTcopy (f : TileF) : Sem :=
  semFiller f (.tcopy f) [⟨f.a.toNat, true, 0⟩, ⟨tSlot f, false, 3⟩] (fun _ => .tcopy (tSlot f) f.a.toNat)
/-- TCOPY standing alone. -/
def execTcopy (f : TileF) (s : State) : Host.Outcome State Fault Refusal := issueOne (semTcopy f) (.tcopy f) s

/-- Retagging an entry (R237). -/
def retag (t : Tag) (e : TileEnt) : TileEnt :=
  { tag := t, spoil := e.spoil, st := .ready,
    cls := if e.cls == .zero && t != .undef then .zero else .general,
    nf := !(e.cls == .zero || !(isFpTag t || t == .scale8)) }

/-- The part of TTAG (R237). -/
def semTtag (f : TileF) : Sem where
  slots s := if tileActive f.g (tSlot f) s then [⟨tSlot f, false, 3⟩] else []
  charge := engCharge (.ttag f) (tileActive f.g (tSlot f))
  run s a :=
    { trap := s.eddyTrap a
      eff := Live.st (fun l =>
        if tileActive f.g (tSlot f) s then l.updMyCore (fun x => x.updTile (tSlot f) (retag (fieldTag f.a))) else l) }
/-- TTAG standing alone. -/
def execTtag (f : TileF) (s : State) : Host.Outcome State Fault Refusal := issueOne (semTtag f) (.ttag f) s

/-- The code of a class (R223). -/
def classCode : TClass → Nat
  | .zero => 0 | .const => 1 | .ident => 2 | .general => 3
/-- The code of a state (R223). -/
def stateCode : TState → Nat
  | .empty => 0 | .filling => 1 | .ready => 2 | .draining => 3

/-- Whether TMASK keeps a slot: READY, of a class in the set, and finite where `.fin` asks (R238). -/
def tmaskKeeps (set : BitVec 7) (e : TileEnt) : Bool :=
  e.st == .ready && bitAt (classCode e.cls) set && (!bitAt 4 set || !e.nf)

/-- The mask TMASK writes (R238). -/
def tmaskOf (x : CoreState) (set : BitVec 7) (m : TMask) : TMask :=
  BitVec.ofNat 128 (joinNat 1 ((List.range 128).map (fun n => bnat (m.getLsbD n && tmaskKeeps set (x.tile n)))))

/-- The part of TMASK (R238): the earlier stores of the context are performed first. -/
def semTmask (f : TileF) : Sem where
  run s a :=
    { trap := s.eddyTrap a
      eff := Live.st (fun l =>
        let l := l.drainMe
        l.updMe (fun c => c.writeM (Fin.ofNat 16 f.d.toNat)
          (tmaskOf l.myCore f.b (s.me.tpred (Fin.ofNat 16 f.a.toNat))))) }
/-- TMASK standing alone. -/
def execTmask (f : TileF) (s : State) : Host.Outcome State Fault Refusal := issueOne (semTmask f) (.tmask f) s

/-- A tile-table entry in the layout of R223. -/
def tileWord (e : TileEnt) : Word :=
  wd (tagCode e.tag * 64 + bnat e.nf * 32 + classCode e.cls * 8 + bnat e.spoil * 4 + stateCode e.st)

/-- The entry that a dword in the layout of R223 gives. -/
def tileOfWord (w : Word) : TileEnt :=
  { tag := tagOf (bitsOf 9 6 w), nf := bitAt 5 w, spoil := bitAt 2 w,
    cls := (match bitsOf 4 3 w with | 0 => .zero | 1 => .const | 2 => .ident | _ => .general),
    st := (match bitsOf 1 0 w with | 0 => .empty | 1 => .filling | 2 => .ready | _ => .draining) }

/-- What TSTATE pushes: the entry, or 0 for a slot in a gated stripe (R239). -/
def tstateOf (x : CoreState) (n : Nat) : Word := if x.gated (n * slotSize) then 0 else tileWord (x.tile n)

/-- The part of TSTATE (R239): the earlier stores of the context are performed first. -/
def semTstate (f : TileF) : Sem where
  run s a :=
    { trap := s.eddyTrap a
      eff := Live.st (fun l =>
        let l := l.drainMe
        l.updMe (fun c => c.pushS { v := tstateOf l.myCore (tSlot f), tag := .int64 })) }
/-- TSTATE standing alone. -/
def execTstate (f : TileF) (s : State) : Host.Outcome State Fault Refusal := issueOne (semTstate f) (.tstate f) s

end Sys2Proof.Machine
end

