-- ==== Sys2Proof/Machine/Matrix.lean ====
section
/-! DEFINITION. The matrix ops of R259-R268 at issue. What the sequencer and the drains do after retirement is in
Machine/EvMatrix.lean. -/

namespace Sys2Proof.Machine

/-! ### The shadow table (R247, R248) -/

/-- ATAG of a global word. -/
def gAtag (g : Word) : Tag := tagOf (bitsOf 27 24 g)
/-- BTAG. -/
def gBtag (g : Word) : Tag := tagOf (bitsOf 23 20 g)
/-- BSRC. -/
def gBsrc (g : Word) : Nat := bitsOf 19 18 g
/-- LEVELS. -/
def gLevels (g : Word) : Nat := bitsOf 17 15 g
/-- WBASE. -/
def gWbase (g : Word) : Nat := bitsOf 40 32 g
/-- ABASE. -/
def gAbase (g : Word) : Nat := bitsOf 6 0 g
/-- BBASE. -/
def gBbase (g : Word) : Nat := bitsOf 14 8 g

/-- The pairings of R244. -/
def pairing (a b : Tag) : Bool :=
  (a == b && (half16 a || a == .fp32 || a == .fp64)) ||
  ((a == .e4m3 || a == .e5m2) && (b == .e4m3 || b == .e5m2))

/-- The checks of R248 on ATAG, BTAG and BSRC. -/
def tagsOk (g : Word) : Bool :=
  gBsrc g != 3 && pairing (gAtag g) (gBtag g) &&
  (gBsrc g == 0 || (tagWidth (gAtag g) ≤ 16 && tagWidth (gBtag g) ≤ 16))

/-- Whether a global word passes R248. -/
def globOk (g : Word) : Bool :=
  bitsOf 63 41 g == 0 && bitsOf 31 28 g == 0 && !bitAt 7 g && 1 ≤ gLevels g && gLevels g ≤ 6 && tagsOk g
/-- Whether a level word passes R248. -/
def levelOk (w : Word) : Bool := bitsOf 23 0 w == 0

/-- A word of the shadow table: 0 to 5 level, 6 global. -/
def CoreState.shadowWord (x : CoreState) (n : Nat) : Word := x.shadow.get (Fin.ofNat 7 n)
/-- The global word. -/
def CoreState.glob (x : CoreState) : Word := x.shadowWord 6
/-- An accumulator. -/
def CoreState.acc (x : CoreState) (n : Nat) : Acc := x.accs.get (Fin.ofNat 4 n)
/-- Changing an accumulator. -/
def CoreState.updAcc (x : CoreState) (n : Nat) (f : Acc → Acc) : CoreState :=
  { x with accs := x.accs.set (Fin.ofNat 4 n) (f (x.acc n)) }

/-- The trap of an operand check that raises 0x01 at execution (R260, R261, R262), after the privilege check. -/
def State.execCheck (s : State) (a : At) (ok : Bool) : Option TrapInfo :=
  match s.eddyTrap a with
  | some t => some t
  | none => if ok then none else some ⟨0x01, a.word, 0⟩

/-- The part of MCFG (R260). -/
def semMcfg (f : TileF) : Sem where
  run s a :=
    let w := s.val (operandOf f.a)
    { trap := s.execCheck a (if f.d.toNat = 6 then globOk w else levelOk w)
      eff := Live.st (fun l => l.updMyCore (fun x => { x with shadow := x.shadow.set (Fin.ofNat 7 f.d.toNat) w })) }
/-- MCFG standing alone. -/
def execMcfg (f : TileF) (s : State) : Host.Outcome State Fault Refusal := issueOne (semMcfg f) (.mcfg f) s

/-! ### Sequencer commands (R250, R261, R262, R266, R267) -/

/-- Whether a sequencer command waits for room: 8 commands are held (R250). -/
def State.seqFull (s : State) : Bool := !isEddy s.cur.ctx && s.queueFull CmdKind.isSeq 8

/-- The level words of the shadow table. -/
def CoreState.levels (x : CoreState) : List Word := (List.range 6).map x.shadowWord

/-- The part of MGO (R261). -/
def semMgo (f : TileF) : Sem where
  charge _ := 4
  stall s _ := gLevels s.myCore.glob != 0 && s.seqFull
  run s a :=
    { trap := s.execCheck a (gLevels s.myCore.glob != 0)
      eff := Live.st (fun l => l.startOp (tIns f) f.out (.mgo (f.d.toNat % 4) l.myCore.glob l.myCore.levels)) }
/-- MGO standing alone. -/
def execMgo (f : TileF) (s : State) : Host.Outcome State Fault Refusal := issueOne (semMgo f) (.mgo f) s

/-- The slots an active MSTEP names: A, and B unless the shadow word takes B from the weight buffer (R226, R262). Log 67, DEDUCED. -/
def mstepSlots (f : TileF) (s : State) : List SlotUse :=
  if tileActive f.g f.a.toNat s then
    ⟨f.a.toNat, true, 0⟩ :: (if gBsrc s.myCore.glob = 0 then [⟨f.b.toNat, true, 1⟩] else [])
  else []

/-- The part of MSTEP (R262). Log 67, DEDUCED. -/
def semMstep (f : TileF) : Sem where
  slots := mstepSlots f
  stall s _ := tileActive f.g f.a.toNat s && tagsOk s.myCore.glob && s.seqFull
  charge := engCharge (.mstep f) (tileActive f.g f.a.toNat)
  run s a :=
    let act := tileActive f.g f.a.toNat s
    { trap := s.execCheck a (!act || tagsOk s.myCore.glob)
      eff := Live.st (fun l =>
        if act then l.startOp (tIns f) f.out (.mstep (f.d.toNat % 4) l.myCore.glob f.a.toNat f.b.toNat)
        else l.idleOp (tIns f) f.out) }
/-- MSTEP standing alone. -/
def execMstep (f : TileF) (s : State) : Host.Outcome State Fault Refusal := issueOne (semMstep f) (.mstep f) s

/-- The part of MZERO (R266). -/
def semMzero (f : TileF) : Sem where
  charge _ := 3
  stall s _ := s.seqFull
  run s a :=
    { trap := s.eddyTrap a
      eff := Live.st (fun l => l.startOp (tIns f) f.out (.mzero (f.d.toNat % 4) (f.a == 11))) }
/-- MZERO standing alone. -/
def execMzero (f : TileF) (s : State) : Host.Outcome State Fault Refusal := issueOne (semMzero f) (.mzero f) s

/-- The part of MWLOAD (R267). -/
def semMwload (f : TileF) : Sem where
  charge _ := 3
  stall s _ := s.seqFull
  run s a :=
    { trap := s.eddyTrap a
      eff := Live.st (fun l => l.startOp (tIns f) f.out
        (.mwload (s.val (operandOf f.d)) (s.val (operandOf f.a)) (s.val (operandOf f.b)))) }
/-- MWLOAD standing alone. -/
def execMwload (f : TileF) (s : State) : Host.Outcome State Fault Refusal := issueOne (semMwload f) (.mwload f) s

/-- The accumulator a command works on. -/
def CmdKind.onAcc : CmdKind → Option Nat
  | .mgo a .. | .mstep a .. | .mzero a .. | .mdrain a .. => some a
  | _ => none

/-- Exchanging the banks of an accumulator (R246, R263). -/
def Acc.swap (a : Acc) : Acc := { work := a.vis, vis := a.work }

/-- The part of MSWAP (R263): it waits for the earlier commands and drains of its accumulator. -/
def semMswap (f : TileF) : Sem where
  stall s _ := !isEddy s.cur.ctx && s.myCore.cmds.any (fun c => c.kind.onAcc == some (f.d.toNat % 4))
  run s a :=
    { trap := s.eddyTrap a
      eff := Live.st (fun l => l.updMyCore (fun x => x.updAcc (f.d.toNat % 4) Acc.swap)) }
/-- MSWAP standing alone. -/
def execMswap (f : TileF) (s : State) : Host.Outcome State Fault Refusal := issueOne (semMswap f) (.mswap f) s

/-- A row of a bank, with the bank's tag (R264). -/
def Bank.row (b : Bank) (r : Nat) : VVal :=
  { v := BitVec.ofNat 2048 (leNat (b.mem.readBytes (256 * r) 256)), tag := if b.fp64 then .fp64 else .fp32 }

/-- The part of MREAD (R264). -/
def semMread (f : TileF) : Sem where
  charge _ := 9
  run s a :=
    { trap := s.eddyTrap a
      eff := Live.me (fun c => c.pushV ((s.myCore.acc (f.d.toNat % 4)).vis.row ((s.val (operandOf f.a)).toNat % 64))) }
/-- MREAD standing alone. -/
def execMread (f : TileF) (s : State) : Host.Outcome State Fault Refusal := issueOne (semMread f) (.mread f) s

/-- T of an MDRAIN that the visible bank's row of R265 does not hold. Log 32, DEDUCED. -/
def mdrainTags (f : TileF) (s : State) : Option TagFail :=
  let t := fieldTag f.b
  let fp64 := (s.myCore.acc (f.a.toNat % 4)).vis.fp64
  let ok := if fp64 then t == .fp64 || t == .fp32 else t == .fp32 || half16 t
  if ok then none else some ⟨tagCode (if fp64 then .fp64 else .fp32), f.b.toNat % 16, 0⟩

/-- The part of MDRAIN (R265). Log 32, DEDUCED. -/
def semMdrain (f : TileF) : Sem where
  tags := mdrainTags f
  slots s := if tileActive f.g (tSlot f) s then [⟨tSlot f, false, 3⟩] else []
  charge := engCharge (.mdrain f) (tileActive f.g (tSlot f))
  run s a :=
    { trap := s.eddyTrap a
      eff := Live.st (fun l =>
        if tileActive f.g (tSlot f) s then
          l.startFiller f (.mdrain (f.a.toNat % 4) (fieldTag f.b) f.mode.toNat (tSlot f))
        else l.idleOp (tIns f) f.out) }
/-- MDRAIN standing alone. -/
def execMdrain (f : TileF) (s : State) : Host.Outcome State Fault Refusal := issueOne (semMdrain f) (.mdrain f) s

/-! ### MSTOP (R268) -/

/-- The running sequencer command. -/
def CoreState.seqRunning (x : CoreState) : Option Cmd := (x.queue CmdKind.isSeq).find? (·.started)

/-- Ending every sequencer command of a core without fault, each with the flags of the steps it did. -/
def State.stopSeq (s : State) (core : Nat) : State :=
  ((s.core core).queue CmdKind.isSeq).foldl (fun s c => s.endCmd core c none c.flags) s

/-- The part of MSTOP (R268). A step is indivisible here, so the sequencer is at a boundary. -/
def semMstop (_ : TileF) : Sem where
  run s a :=
    { trap := s.eddyTrap a
      eff := Live.st (fun l =>
        let n : Int := match l.myCore.seqRunning with | some c => (c.next : Int) | none => -1
        let l := l.stopSeq l.cur.core
        l.updMe (fun c => c.pushS { v := wdi n, tag := .int64 })) }
/-- MSTOP standing alone. -/
def execMstop (f : TileF) (s : State) : Host.Outcome State Fault Refusal := issueOne (semMstop f) (.mstop f) s

end Sys2Proof.Machine
end

