-- ==== Sys2Proof/Machine/VecFp.lean ====
section
/-! DEFINITION. The vector floating-point ops (R140-R145). -/

namespace Sys2Proof.Machine

/-- The format of a floating-point op. -/
def vFmt (f : RegF) : Fmt := fmtOf (vT f)
/-- The effective rounding mode of an op outside the converter (R34, R35). -/
def vRM (f : RegF) (s : State) : RMode := s.me.effRM false f.rm

/-- Whether an element is a zero of either sign. -/
def isZeroElem (f : Fmt) (x : Nat) : Bool := x % 2 ^ (f.ew + f.mw) == 0

/-- The lanes with a zero among the operands listed, which charge nothing (R212). -/
def freeOf (f : RegF) (usesB : Bool) (s : State) : List Bool :=
  ((vA f s).zip (vB f s)).map (fun p => isZeroElem (vFmt f) p.1 || (usesB && isZeroElem (vFmt f) p.2))

/-- A lane function on elements with the rounding mode. -/
abbrev FpFn := Fmt → RMode → Nat → Nat → Nat → FRes

/-- The lane results of a floating-point op on the state at bundle entry. -/
def fpLanes (f : RegF) (fn : FpFn) (s : State) : List FRes :=
  ((vA f s).zip ((vB f s).zip (vC f s))).map (fun p => fn (vFmt f) (vRM f s) p.1 p.2.1 p.2.2)

/-- A lane-wise floating-point op (R140). -/
def semVFp (f : RegF) (i : Instr) (usesB : Bool) (fn : FpFn) : Sem :=
  semVec i f.w f.d f.g (tagWidth (vT f)) (vT f) (vecTags f i (acceptT f)) (vFirst f) (fun s _ => fpLanes f fn s)
    (freeOf f usesB)

/-- VFADD: round(a + b) (R140). -/
def fnVfadd : FpFn := fun f rm a b _ => fadd f rm (fdec f a) (fdec f b)
/-- VFSUB: round(a - b) (R140). -/
def fnVfsub : FpFn := fun f rm a b _ => fadd f rm (fdec f a) (fdec f b).flip
/-- VFMUL: round(a × b) (R140). -/
def fnVfmul : FpFn := fun f rm a b _ => fmul f rm (fdec f a) (fdec f b)
/-- VFMA: round(a × b + c) (R53). -/
def fnVfma : FpFn := fun f rm a b c => fma f rm (fdec f a) (fdec f b) (fdec f c)
/-- VFNMA: round(-(a × b) + c) (R53). -/
def fnVfnma : FpFn := fun f rm a b c => fma f rm (fdec f a).flip (fdec f b) (fdec f c)
/-- VFMIN: the smaller operand, −0 below +0 (R141). -/
def fnVfmin : FpFn := fun f _ a b _ => fminmax f false a b
/-- VFMAX: the larger operand (R141). -/
def fnVfmax : FpFn := fun f _ a b _ => fminmax f true a b
/-- VFABS: a with its sign bit cleared (R140). -/
def fnVfabs : FpFn := fun f _ a _ _ => (a % 2 ^ (f.ew + f.mw), 0)
/-- VFNEG: a with its sign bit inverted (R140). -/
def fnVfneg : FpFn := fun f _ a _ _ => ((a + 2 ^ (f.ew + f.mw)) % 2 ^ f.width, 0)
/-- VFRCP: 1/a (R54, R55). -/
def fnVfrcp : FpFn := fun f rm a _ _ => frcp f rm (fdec f a)
/-- VFRSQ: 1/√a (R54, R55). -/
def fnVfrsq : FpFn := fun f rm a _ _ => frsq f rm (fdec f a)
/-- VFEXP2: 2^a (R54, R55). -/
def fnVfexp2 : FpFn := fun f rm a _ _ => fexp2 f rm (fdec f a)
/-- VFLOG2: log2 a (R54, R55). -/
def fnVflog2 : FpFn := fun f rm a _ _ => flog2 f rm (fdec f a)
/-- VFDIV: round(a / b) (R54, R55). -/
def fnVfdiv : FpFn := fun f rm a b _ => fdiv f rm (fdec f a) (fdec f b)
/-- VFSQRT: √a (R54, R55). -/
def fnVfsqrt : FpFn := fun f rm a _ _ => fsqrt f rm (fdec f a)

/-- The part of VFADD. -/
def semVfadd (f : RegF) : Sem := semVFp f (.vfadd f) true fnVfadd
/-- VFADD standing alone. -/
def execVfadd (f : RegF) (s : State) : Host.Outcome State Fault Refusal := issueOne (semVfadd f) (.vfadd f) s

/-- The part of VFSUB. -/
def semVfsub (f : RegF) : Sem := semVFp f (.vfsub f) true fnVfsub
/-- VFSUB standing alone. -/
def execVfsub (f : RegF) (s : State) : Host.Outcome State Fault Refusal := issueOne (semVfsub f) (.vfsub f) s

/-- The part of VFMUL. -/
def semVfmul (f : RegF) : Sem := semVFp f (.vfmul f) true fnVfmul
/-- VFMUL standing alone. -/
def execVfmul (f : RegF) (s : State) : Host.Outcome State Fault Refusal := issueOne (semVfmul f) (.vfmul f) s

/-- The part of VFMA. -/
def semVfma (f : RegF) : Sem := semVFp f (.vfma f) true fnVfma
/-- VFMA standing alone. -/
def execVfma (f : RegF) (s : State) : Host.Outcome State Fault Refusal := issueOne (semVfma f) (.vfma f) s

/-- The part of VFNMA. -/
def semVfnma (f : RegF) : Sem := semVFp f (.vfnma f) true fnVfnma
/-- VFNMA standing alone. -/
def execVfnma (f : RegF) (s : State) : Host.Outcome State Fault Refusal := issueOne (semVfnma f) (.vfnma f) s

/-- The part of VFMIN. -/
def semVfmin (f : RegF) : Sem := semVFp f (.vfmin f) true fnVfmin
/-- VFMIN standing alone. -/
def execVfmin (f : RegF) (s : State) : Host.Outcome State Fault Refusal := issueOne (semVfmin f) (.vfmin f) s

/-- The part of VFMAX. -/
def semVfmax (f : RegF) : Sem := semVFp f (.vfmax f) true fnVfmax
/-- VFMAX standing alone. -/
def execVfmax (f : RegF) (s : State) : Host.Outcome State Fault Refusal := issueOne (semVfmax f) (.vfmax f) s

/-- The part of VFABS. -/
def semVfabs (f : RegF) : Sem := semVFp f (.vfabs f) false fnVfabs
/-- VFABS standing alone. -/
def execVfabs (f : RegF) (s : State) : Host.Outcome State Fault Refusal := issueOne (semVfabs f) (.vfabs f) s

/-- The part of VFNEG. -/
def semVfneg (f : RegF) : Sem := semVFp f (.vfneg f) false fnVfneg
/-- VFNEG standing alone. -/
def execVfneg (f : RegF) (s : State) : Host.Outcome State Fault Refusal := issueOne (semVfneg f) (.vfneg f) s

/-- The part of VFRCP. -/
def semVfrcp (f : RegF) : Sem := semVFp f (.vfrcp f) false fnVfrcp
/-- VFRCP standing alone. -/
def execVfrcp (f : RegF) (s : State) : Host.Outcome State Fault Refusal := issueOne (semVfrcp f) (.vfrcp f) s

/-- The part of VFRSQ. -/
def semVfrsq (f : RegF) : Sem := semVFp f (.vfrsq f) false fnVfrsq
/-- VFRSQ standing alone. -/
def execVfrsq (f : RegF) (s : State) : Host.Outcome State Fault Refusal := issueOne (semVfrsq f) (.vfrsq f) s

/-- The part of VFEXP2. -/
def semVfexp2 (f : RegF) : Sem := semVFp f (.vfexp2 f) false fnVfexp2
/-- VFEXP2 standing alone. -/
def execVfexp2 (f : RegF) (s : State) : Host.Outcome State Fault Refusal := issueOne (semVfexp2 f) (.vfexp2 f) s

/-- The part of VFLOG2. -/
def semVflog2 (f : RegF) : Sem := semVFp f (.vflog2 f) false fnVflog2
/-- VFLOG2 standing alone. -/
def execVflog2 (f : RegF) (s : State) : Host.Outcome State Fault Refusal := issueOne (semVflog2 f) (.vflog2 f) s

/-- The part of VFDIV. -/
def semVfdiv (f : RegF) : Sem := semVFp f (.vfdiv f) true fnVfdiv
/-- VFDIV standing alone. -/
def execVfdiv (f : RegF) (s : State) : Host.Outcome State Fault Refusal := issueOne (semVfdiv f) (.vfdiv f) s

/-- The part of VFSQRT. -/
def semVfsqrt (f : RegF) : Sem := semVFp f (.vfsqrt f) false fnVfsqrt
/-- VFSQRT standing alone. -/
def execVfsqrt (f : RegF) (s : State) : Host.Outcome State Fault Refusal := issueOne (semVfsqrt f) (.vfsqrt f) s

/-- A lane of VFCMP: its condition and flags (R142). -/
def vfcmpLane (f : Fmt) (k x y : Nat) : Bool × Flags :=
  let a := fdec f x
  let b := fdec f y
  let nan := a.isNan || b.isNan
  let c := fcmp a b
  let iv : Flags := if (if 2 ≤ k ∧ k ≤ 5 then nan else a.isSig || b.isSig) then fIV else 0
  let r :=
    match k with
    | 0 => !nan && c == 0
    | 1 => nan || c != 0
    | 2 => !nan && c == -1
    | 3 => !nan && c != 1
    | 4 => !nan && c == 1
    | 5 => !nan && c != -1
    | _ => nan
  (r, iv)

/-- The part of VFCMP (R142). -/
def semVfcmp (f : RegF) : Sem :=
  semMask f (.vfcmp f) (vecTags f (.vfcmp f) (acceptT f))
    (fun s => ((vA f s).zip (vB f s)).map (fun p => vfcmpLane (vFmt f) (f.x.toNat % 8) p.1 p.2)) (freeOf f true)
/-- VFCMP standing alone. -/
def execVfcmp (f : RegF) (s : State) : Host.Outcome State Fault Refusal := issueOne (semVfcmp f) (.vfcmp f) s

/-- The part of VFCLASS (R143). -/
def semVfclass (f : RegF) : Sem :=
  semVec (.vfclass f) f.w f.d f.g (tagWidth (vT f)) (sintOf (tagWidth (vT f))) (vecTags f (.vfclass f) (acceptT f))
    (vFirst f) (fun s _ => (vA f s).map (fun a => (fclass (vFmt f) a, 0))) (freeOf f false)
/-- VFCLASS standing alone. -/
def execVfclass (f : RegF) (s : State) : Host.Outcome State Fault Refusal := issueOne (semVfclass f) (.vfclass f) s

/-- The tags VFSCALE accepts: B carries the signed integer tag of the width, as a scalar INT64 or INT32, of which a trap names
INT64 (R144, R193). Log 108, DESIGN CHOICE. -/
def acceptScale (f : RegF) (x : Src) : List Tag × Tag :=
  if x.idx = 1 then
    if x.vec then ([sintOf (tagWidth (vT f))], sintOf (tagWidth (vT f))) else ([.int64, .int32], .int64)
  else acceptT f x

/-- The part of VFSCALE (R144). -/
def semVfscale (f : RegF) : Sem :=
  let w := tagWidth (vT f)
  semVec (.vfscale f) f.w f.d f.g w (vT f) (vecTags f (.vfscale f) (acceptScale f)) (vFirst f)
    (fun s _ => ((vA f s).zip (vBInt f s)).map (fun p => fscale (vFmt f) (vRM f s) (fdec (vFmt f) p.1) (intVal (sintOf w) p.2)))
    (fun s => ((vA f s).zip (vBInt f s)).map (fun p => isZeroElem (vFmt f) p.1 || p.2 == 0))
/-- VFSCALE standing alone. -/
def execVfscale (f : RegF) (s : State) : Host.Outcome State Fault Refusal := issueOne (semVfscale f) (.vfscale f) s

/-- The tags VFDOT2 accepts: C carries FP32 (R145). -/
def acceptDot2 (f : RegF) (x : Src) : List Tag × Tag := if x.idx = 2 then ([.fp32], .fp32) else acceptT f x

/-- The 128 half-width elements of B of a VFDOT2: with X[3] the two low halves of the scalar serve every lane
(R145). -/
def dot2B (f : RegF) (s : State) : List Nat :=
  if vX3 f then (List.replicate 64 (splitNat 16 2 (s.rdS (vT f) f.b).v.toNat)).flatten
  else lanesOf 16 (s.rdV (vT f) f.b).v

/-- The lanes of VFDOT2: c + a0 b0 + a1 b1, rounded once into FP32 (R53, R145). -/
def dot2Lanes (f : RegF) (s : State) : List FRes :=
  let a := (lanesOf 16 (s.rdV (vT f) f.a).v).map (fdec (vFmt f))
  let b := (dot2B f s).map (fdec (vFmt f))
  let nan : FVal := .nan false
  (lanesOf 32 (s.rdV .fp32 f.c).v).zipIdx.map (fun p =>
    let k := 2 * p.2
    fdot2 (fmtOf .fp32) (vRM f s) (fdec (fmtOf .fp32) p.1) (a.getD k nan) (b.getD k nan) (a.getD (k + 1) nan)
      (b.getD (k + 1) nan))

/-- The part of VFDOT2 (R145); a lane is free of charge where each of its products has a zero multiplicand (R212). -/
def semVfdot2 (f : RegF) : Sem :=
  semVec (.vfdot2 f) f.w f.d f.g 32 .fp32 (vecTags f (.vfdot2 f) (acceptDot2 f)) (fun s => some (s.rdV .fp32 f.c))
    (fun s _ => dot2Lanes f s)
    (fun s =>
      let z := ((lanesOf 16 (s.rdV (vT f) f.a).v).zip (dot2B f s)).map (fun p =>
        isZeroElem (vFmt f) p.1 || isZeroElem (vFmt f) p.2)
      (List.range 64).map (fun i => z.getD (2 * i) false && z.getD (2 * i + 1) false))
/-- VFDOT2 standing alone. -/
def execVfdot2 (f : RegF) (s : State) : Host.Outcome State Fault Refusal := issueOne (semVfdot2 f) (.vfdot2 f) s

end Sys2Proof.Machine
end

