-- ==== Sys2Proof/Machine/Permute.lean ====
section
/-! DEFINITION. Permutes, reductions, scans, lane moves and the carry-less multiply (R51, R52, R134, R151-R157,
R159). -/

namespace Sys2Proof.Machine

/-- An op whose result lanes are moved, not computed: no flag, result tag T, guarded under R132. Log 37, DEDUCED. -/
def semMove (f : RegF) (i : Instr) (accept : Src → List Tag × Tag) (first : State → Option VVal)
    (res : State → List Nat) : Sem :=
  semVec i f.w f.d f.g (tagWidth (vT f)) (vT f) (vecTags f i accept) first (fun s _ => (res s).map (fun x => (x, 0)))
    (noFree (tagWidth (vT f)))

/-- L of an op. -/
def vL (f : RegF) : Nat := laneCount (tagWidth (vT f))

/-! ### VPERM, VSHUF, VBCAST (R151-R153) -/

/-- The tags an index operand accepts: INT64 or INT32 for a scalar; a trap names INT64 as the tag required (R151, R156, R157,
R193). Log 108, DESIGN CHOICE. -/
def indexTags : List Tag × Tag := ([.int64, .int32], .int64)

/-- The tags VPERM accepts: B carries the integer tag of the width, of which a trap names INT8 at width 8 (R151, R193). Log 108,
DESIGN CHOICE. -/
def acceptPerm (f : RegF) (x : Src) : List Tag × Tag :=
  if x.idx = 1 then
    if x.vec then
      (if tagWidth (vT f) = 8 then ([.int8, .uint8], .int8) else ([sintOf (tagWidth (vT f))], sintOf (tagWidth (vT f))))
    else indexTags
  else acceptT f x

/-- The lanes of VPERM: lane i is A lane (B[i] mod L) (R151). -/
def permLanes (f : RegF) (s : State) : List Nat :=
  let a := (s.rdV (vT f) f.a).v
  (vBInt f s).map (fun b => laneAt (tagWidth (vT f)) a (b % vL f))

/-- The part of VPERM. -/
def semVperm (f : RegF) : Sem := semMove f (.vperm f) (acceptPerm f) (vFirst f) (permLanes f)
/-- VPERM standing alone. -/
def execVperm (f : RegF) (s : State) : Host.Outcome State Fault Refusal := issueOne (semVperm f) (.vperm f) s

/-- The source of result lane `k` under a pattern: whether it is a lane of B, and which (R152). -/
def shufSrc (pat l k : Nat) : Bool × Nat :=
  let h := l / 2
  match pat with
  | 0 => (k % 2 == 1, k / 2)
  | 1 => (k % 2 == 1, h + k / 2)
  | 2 => if k < h then (false, 2 * k) else (true, 2 * (k - h))
  | 3 => if k < h then (false, 2 * k + 1) else (true, 2 * (k - h) + 1)
  | 4 => (false, l - 1 - k)
  | 5 => (false, if k % 2 = 0 then k + 1 else k - 1)
  | _ => if k < h then (false, k) else (true, k - h)

/-- The lanes of VSHUF (R152). -/
def shufLanes (f : RegF) (s : State) : List Nat :=
  let a := (s.rdV (vT f) f.a).v
  let b := (s.rdV (vT f) f.b).v
  (List.range (vL f)).map (fun k =>
    let p := shufSrc (f.x.toNat % 8) (vL f) k
    laneAt (tagWidth (vT f)) (if p.1 then b else a) p.2)

/-- The part of VSHUF. -/
def semVshuf (f : RegF) : Sem := semMove f (.vshuf f) (acceptT f) (vFirst f) (shufLanes f)
/-- VSHUF standing alone. -/
def execVshuf (f : RegF) (s : State) : Host.Outcome State Fault Refusal := issueOne (semVshuf f) (.vshuf f) s

/-- The part of VBCAST: the low bits of the scalar A in every lane; an inactive lane is zero (R153). -/
def semVbcast (f : RegF) : Sem :=
  semMove f (.vbcast f) (acceptT f) (fun _ => none)
    (fun s => List.replicate (vL f) ((s.rdS (vT f) f.a).v.toNat % 2 ^ tagWidth (vT f)))
/-- VBCAST standing alone. -/
def execVbcast (f : RegF) (s : State) : Host.Outcome State Fault Refusal := issueOne (semVbcast f) (.vbcast f) s

/-! ### VRED and VSCAN (R51, R52, R154) -/

/-- The combination of a reduction or a scan (R154). -/
def redOp (t : Tag) (k : Nat) (rm : RMode) (a b : Nat) : FRes :=
  let w := tagWidth t
  if isFpTag t then
    match k with
    | 0 => fadd (fmtOf t) rm (fdec (fmtOf t) a) (fdec (fmtOf t) b)
    | 1 => fminmax (fmtOf t) true a b
    | _ => fminmax (fmtOf t) false a b
  else
    match k with
    | 0 => ((a + b) % 2 ^ w, 0)
    | 1 => (if intVal t a < intVal t b then b else a, 0)
    | 2 => (if intVal t b < intVal t a then b else a, 0)
    | 3 => (a &&& b, 0)
    | 4 => (a ||| b, 0)
    | _ => (a ^^^ b, 0)

/-- The identity of a combination (R51). Log 40, DEDUCED. -/
def redIdent (t : Tag) (k : Nat) : Nat :=
  let w := tagWidth t
  let f := fmtOf t
  if isFpTag t then
    match k with
    | 0 => f.signBit true
    | 1 => f.signBit true + (if f.e4m3 then f.maxFin else f.infBits)
    | _ => if f.e4m3 then f.maxFin else f.infBits
  else
    match k with
    | 1 => intBits w (intRange t).1
    | 2 => intBits w (intRange t).2
    | 3 => 2 ^ w - 1
    | _ => 0

/-- The lanes that take part: an inactive one stands as the identity (R51, R52). -/
def redIn (f : RegF) (s : State) : List Nat :=
  ((vA f s).zip (s.laneMask f.g (vL f))).map (fun p => if p.2 then p.1 else redIdent (vT f) (f.x.toNat % 8))

/-- The pairwise tree, with the flags of each stage in stage order, by position (R51, R154). -/
def redTree (op : Nat → Nat → FRes) : Nat → List Nat → LaneFlags → Nat × LaneFlags
  | 0, t, fl => (t.headD 0, fl)
  | n + 1, t, fl =>
    if t.length ≤ 1 then (t.headD 0, fl)
    else
      let h := t.length / 2
      let r := ((t.take h).zip (t.drop h)).map (fun p => op p.1 p.2)
      redTree op n (r.map (·.1)) (fl ++ laneFlags (List.replicate h true) r)

/-- The reduction of a VRED on the state at bundle entry. -/
def redOf (f : RegF) (s : State) : Nat × LaneFlags :=
  redTree (redOp (vT f) (f.x.toNat % 8) (vRM f s)) 8 (redIn f s) []

/-- The part of VRED: it always pushes a result, placed under R134 (R154). -/
def semVred (f : RegF) : Sem where
  tags := vecTags f (.vred f) (acceptT f)
  charge s := vecCharge (.vred f) (s.laneMask f.g (vL f)) (noFree (tagWidth (vT f)) s)
  run s _ :=
    let r := redOf f s
    { flags := r.2, eff := Live.me (fun c => c.resultS f.w f.d { v := placeElem (vT f) r.1, tag := vT f }) }
/-- VRED standing alone. -/
def execVred (f : RegF) (s : State) : Host.Outcome State Fault Refusal := issueOne (semVred f) (.vred f) s

/-- The running values of a scan after lane 0 (R52). Log 40, DEDUCED. -/
def scanFrom (op : Nat → Nat → FRes) : Nat → List Nat → List FRes
  | _, [] => []
  | y, x :: rest => let r := op y x; r :: scanFrom op r.1 rest

/-- Lane 0 of a scan: its value, a NaN of a floating-point scan as the canonical one, with IV where it signals (R30, R31,
R52). -/
def scanFirst (t : Tag) (x : Nat) : FRes :=
  if isFpTag t then match fdec (fmtOf t) x with | .nan sg => nanRes (fmtOf t) (if sg then fIV else 0) | _ => (x, 0)
  else (x, 0)

/-- The lanes of VSCAN (R52). -/
def scanLanes (f : RegF) (s : State) : List FRes :=
  match redIn f s with
  | [] => []
  | x :: rest =>
    let y := scanFirst (vT f) x
    y :: scanFrom (redOp (vT f) (f.x.toNat % 8) (vRM f s)) y.1 rest

/-- The part of VSCAN: an inactive lane receives the running value (R52, R154). -/
def semVscan (f : RegF) : Sem where
  tags := vecTags f (.vscan f) (acceptT f)
  charge s := vecCharge (.vscan f) (s.laneMask f.g (vL f)) (noFree (tagWidth (vT f)) s)
  run s _ :=
    let r := scanLanes f s
    { flags := laneFlags (s.laneMask f.g (vL f)) r
      eff := Live.me (fun c => c.resultV f.w f.d { v := packLanes (tagWidth (vT f)) (r.map (·.1)), tag := vT f }) }
/-- VSCAN standing alone. -/
def execVscan (f : RegF) (s : State) : Host.Outcome State Fault Refusal := issueOne (semVscan f) (.vscan f) s

/-! ### VCMPRS and VEXPND (R155) -/

/-- The tags VCMPRS and VEXPND accept: B carries BITS (R155). -/
def acceptMaskB (f : RegF) (x : Src) : List Tag × Tag := if x.idx = 1 then ([.bits], .bits) else acceptT f x

/-- The lanes of VCMPRS: those whose mask bit is set, in ascending order, then zeros (R155). -/
def cmprsLanes (f : RegF) (s : State) : List Nat :=
  let m := maskOpd f f.b s
  let l := (vA f s).zipIdx.filterMap (fun p => if m.getLsbD p.2 then some p.1 else none)
  l ++ List.replicate (vL f - l.length) 0

/-- The part of VCMPRS. -/
def semVcmprs (f : RegF) : Sem := semMove f (.vcmprs f) (acceptMaskB f) (vFirst f) (cmprsLanes f)
/-- VCMPRS standing alone. -/
def execVcmprs (f : RegF) (s : State) : Host.Outcome State Fault Refusal := issueOne (semVcmprs f) (.vcmprs f) s

/-- Spreading a list over the lanes whose mask bit is set, zeros elsewhere. -/
def expandBy : List Bool → List Nat → List Nat
  | [], _ => []
  | true :: m, x :: xs => x :: expandBy m xs
  | true :: m, [] => 0 :: expandBy m []
  | false :: m, xs => 0 :: expandBy m xs

/-- The lanes of VEXPND (R155). -/
def expndLanes (f : RegF) (s : State) : List Nat :=
  let m := maskOpd f f.b s
  expandBy ((List.range (vL f)).map m.getLsbD) (vA f s)

/-- The part of VEXPND. -/
def semVexpnd (f : RegF) : Sem := semMove f (.vexpnd f) (acceptMaskB f) (vFirst f) (expndLanes f)
/-- VEXPND standing alone. -/
def execVexpnd (f : RegF) (s : State) : Host.Outcome State Fault Refusal := issueOne (semVexpnd f) (.vexpnd f) s

/-! ### VSLIDE, VEXTR, VINS (R156, R157) -/

/-- The tags VSLIDE, VEXTR and VINS accept: B is a scalar index (R156, R157). -/
def acceptIndexB (f : RegF) (x : Src) : List Tag × Tag := if x.idx = 1 then indexTags else acceptT f x

/-- The lanes of VSLIDE (R156). -/
def slideLanes (f : RegF) (s : State) : List Nat :=
  let w := tagWidth (vT f)
  let l : Int := (vL f : Nat)
  let a := (s.rdV (vT f) f.a).v
  let c := (s.rdV (vT f) f.c).v
  let sh := (s.rdS .int64 f.b).v.toInt
  (List.range (vL f)).map (fun (i : Nat) =>
    let t := (i : Int) + sh
    if 0 ≤ t ∧ t < l then laneAt w a t.toNat
    else if l ≤ t ∧ t < 2 * l then laneAt w c (t - l).toNat
    else if -l ≤ t ∧ t < 0 then laneAt w c (t + l).toNat
    else 0)

/-- The part of VSLIDE. -/
def semVslide (f : RegF) : Sem := semMove f (.vslide f) (acceptIndexB f) (vFirst f) (slideLanes f)
/-- VSLIDE standing alone. -/
def execVslide (f : RegF) (s : State) : Host.Outcome State Fault Refusal := issueOne (semVslide f) (.vslide f) s

/-- The lane index of VEXTR and VINS (R157). Log 37, DEDUCED. -/
def laneIndex (f : RegF) (s : State) : Nat := (s.rdS .int64 f.b).v.toNat % vL f

/-- The value VEXTR delivers; guarded off, lane 0 of A (R134, R157). -/
def extrOut (f : RegF) (s : State) : SVal :=
  let n := if s.active f.g then laneIndex f s else 0
  { v := placeElem (vT f) (laneAt (tagWidth (vT f)) (s.rdV (vT f) f.a).v n), tag := vT f }

/-- The part of VEXTR. -/
def semVextr (f : RegF) : Sem where
  tags := vecTags f (.vextr f) (acceptIndexB f)
  charge := scalarCharge (.vextr f) f.g
  run s _ := { eff := Live.me (fun c => c.resultS f.w f.d (extrOut f s)) }
/-- VEXTR standing alone. -/
def execVextr (f : RegF) (s : State) : Host.Outcome State Fault Refusal := issueOne (semVextr f) (.vextr f) s

/-- The lanes of VINS: A with lane n replaced by the low bits of C (R157). -/
def insLanes (f : RegF) (s : State) : List Nat :=
  let n := laneIndex f s
  (vA f s).zipIdx.map (fun p => if p.2 = n then (s.rdS (vT f) f.c).v.toNat % 2 ^ tagWidth (vT f) else p.1)

/-- The part of VINS. -/
def semVins (f : RegF) : Sem := semMove f (.vins f) (acceptIndexB f) (vFirst f) (insLanes f)
/-- VINS standing alone. -/
def execVins (f : RegF) (s : State) : Host.Outcome State Fault Refusal := issueOne (semVins f) (.vins f) s

/-! ### VCLMUL (R159) -/

/-- The carry-less product over the low `n` bits of y. -/
def clmulN (x : Nat) : Nat → Nat → Nat
  | 0, _ => 0
  | n + 1, y => (if y % 2 = 1 then x else 0) ^^^ 2 * clmulN x n (y / 2)

/-- The tags VCLMUL accepts: a broadcast scalar carries INT64, INT32 or BITS (R159). -/
def acceptClmul (f : RegF) (x : Src) : List Tag × Tag :=
  if x.vec then ([vT f], vT f) else ([.int64, .int32, .bits], vT f)

/-- A vector operand of VCLMUL: special operands are cut at its 64-bit lanes, whatever T says, and carry T (R19, R66, R159). -/
def clmulOpd (f : RegF) (o : Operand) (s : State) : VVal := { s.rdV .int64 o with tag := (s.rdV (vT f) o).tag }

/-- The lanes of VCLMUL: sel bit 0 picks A's odd lane, and B's odd lane where sel is 1 or 2 (R159). -/
def clmulLanes (f : RegF) (s : State) : List Nat :=
  let a := lanesOf 64 (clmulOpd f f.a s).v
  let b := if vX3 f then List.replicate 32 (s.rdS .int64 f.b).v.toNat else lanesOf 64 (clmulOpd f f.b s).v
  let sel := f.x.toNat % 4
  (List.range 16).flatMap (fun j =>
    let x := a.getD (2 * j + (if sel = 1 ∨ sel = 3 then 1 else 0)) 0
    let y := b.getD (2 * j + (if sel = 1 ∨ sel = 2 then 1 else 0)) 0
    let r := clmulN x 64 y
    [r % 2 ^ 64, r / 2 ^ 64])

/-- The part of VCLMUL. -/
def semVclmul (f : RegF) : Sem :=
  semVec (.vclmul f) f.w f.d f.g 64 .bits (vecTags f (.vclmul f) (acceptClmul f)) (fun s => some (clmulOpd f f.a s))
    (fun s _ => (clmulLanes f s).map (fun x => (x, 0))) (noFree 64)
/-- VCLMUL standing alone. -/
def execVclmul (f : RegF) (s : State) : Host.Outcome State Fault Refusal := issueOne (semVclmul f) (.vclmul f) s

end Sys2Proof.Machine
end

