-- ==== Sys2Proof/Machine/Token.lean ====
section
/-! DEFINITION. TKWAIT, TKTEST and TKJOIN (R277-R281). -/

namespace Sys2Proof.Machine

/-- Whether every named token has DONE = 1 (R279). -/
def Ctx.allDone (c : Ctx) (l : List Tok) : Bool := (inToks l).all (fun k => (c.tok.get k).done)

/-- TKTEST consuming tokens of which one is not DONE: nothing is acquired, and the command of a token that is not
DONE reports as kind A when it ends (R274, R280). Log 49, DEDUCED. -/
def Ctx.consumeTest (c : Ctx) (l : List Tok) : Ctx :=
  (inToks l).foldl (fun c n =>
    if (c.tok.get n).live then c.updTok n (fun k => { k with live := false, viaTest := !k.done }) else c) c

/-- The part of TKWAIT (R279). -/
def semTkwait (f : EngF) : Sem where
  stall s _ := !s.me.allDone (eIns f)
  run _ _ := { eff := Live.me (fun c => c.acquire (eIns f)) }
/-- TKWAIT standing alone. -/
def execTkwait (f : EngF) (s : State) : Host.Outcome State Fault Refusal := issueOne (semTkwait f) (.tkwait f) s

/-- What TKTEST leaves (R280). Log 49, DEDUCED. -/
def Ctx.tktest (c : Ctx) (l : List Tok) (done : Bool) : Ctx :=
  (if done then c.acquire l else c.consumeTest l).pushS { v := if done then 1 else 0, tag := .int64 }

/-- The part of TKTEST (R280): it finds the tokens as the ops before it in the bundle left them (R273). -/
def semTktest (f : EngF) : Sem where
  run _ _ := { eff := Live.me (fun c => c.tktest (eIns f) (c.allDone (eIns f))) }
/-- TKTEST standing alone. -/
def execTktest (f : EngF) (s : State) : Host.Outcome State Fault Refusal := issueOne (semTktest f) (.tktest f) s

/-- The flags of the named commands that have ended and are not consumed. Log 49, DEDUCED. -/
def Ctx.flagsOf (c : Ctx) (l : List Tok) : BitVec 7 :=
  (inToks l).foldl (fun a n => let k := c.tok.get n; if k.live && k.done then a ||| k.flags else a) 0

/-- Joining the named commands (R281). -/
def State.join (ins : List Tok) (out : Tok) (s : State) : State :=
  let d := s.me.depsOf ins
  let fl := s.me.flagsOf ins
  let id := s.nextId
  let s := (s.updMe (fun c => c.consume ins)).addCmd .join out d.1 d.2
  let s := s.updCmd s.cur.core id (fun c => { c with flags := fl })
  State.settle s.cur.core s.myCore.cmds.length s

/-- The part of TKJOIN (R281). -/
def semTkjoin (f : EngF) : Sem where
  run _ _ := { eff := Live.st (fun l => l.join (eIns f) f.out) }
/-- TKJOIN standing alone. -/
def execTkjoin (f : EngF) (s : State) : Host.Outcome State Fault Refusal := issueOne (semTkjoin f) (.tkjoin f) s

end Sys2Proof.Machine
end

