-- ==== Sys2Proof/Machine/Bundle.lean ====
section
/-! DEFINITION. Bundles of several ops: the part of every op, a pair word standing alone, an encoding without a
meaning, and fetching a bundle (R57, R61, R64, R70, R88). -/

namespace Sys2Proof.Machine

/-- The part of something that is no op: it does nothing. -/
def semNone : Sem where
  run _ _ := {}

/-- The part of every op. A pair word stands as its two halves (R59). -/
def semOf (i : Instr) : Sem :=
  match i with
  | .add f => semAdd f
  | .sub f => semSub f
  | .mul f => semMul f
  | .mulh f => semMulh f
  | .div f => semDiv f
  | .rem f => semRem f
  | .and f => semAnd f
  | .or f => semOr f
  | .xor f => semXor f
  | .andn f => semAndn f
  | .shl f => semShl f
  | .shr f => semShr f
  | .sar f => semSar f
  | .rot f => semRot f
  | .clz f => semClz f
  | .popc f => semPopc f
  | .min f => semMin f
  | .max f => semMax f
  | .minu f => semMinu f
  | .maxu f => semMaxu f
  | .sel f => semSel f
  | .cmp f => semCmp f
  | .madd f => semMadd f
  | .extr f => semExtr f
  | .ins f => semIns f
  | .bswap f => semBswap f
  | .shadd f => semShadd f
  | .movc f => semMovc f
  | .addi f => semAddi f
  | .andi f => semAndi f
  | .ori f => semOri f
  | .xori f => semXori f
  | .shli f => semShli f
  | .shri f => semShri f
  | .sari f => semSari f
  | .li f => semLi f
  | .lih f => semLih f
  | .cmpi f => semCmpi f
  | .muli f => semMuli f
  | .vadd f => semVadd f
  | .vsub f => semVsub f
  | .vmul f => semVmul f
  | .vmulh f => semVmulh f
  | .vmin f => semVmin f
  | .vmax f => semVmax f
  | .vand f => semVand f
  | .vor f => semVor f
  | .vxor f => semVxor f
  | .vandn f => semVandn f
  | .vshl f => semVshl f
  | .vshr f => semVshr f
  | .vsar f => semVsar f
  | .vabs f => semVabs f
  | .vcmp f => semVcmp f
  | .vsel f => semVsel f
  | .vdot4 f => semVdot4 f
  | .vmadd f => semVmadd f
  | .vpopc f => semVpopc f
  | .vfadd f => semVfadd f
  | .vfsub f => semVfsub f
  | .vfmul f => semVfmul f
  | .vfma f => semVfma f
  | .vfnma f => semVfnma f
  | .vfmin f => semVfmin f
  | .vfmax f => semVfmax f
  | .vfabs f => semVfabs f
  | .vfneg f => semVfneg f
  | .vfcmp f => semVfcmp f
  | .vfrcp f => semVfrcp f
  | .vfrsq f => semVfrsq f
  | .vfexp2 f => semVfexp2 f
  | .vflog2 f => semVflog2 f
  | .vfdiv f => semVfdiv f
  | .vfsqrt f => semVfsqrt f
  | .vfclass f => semVfclass f
  | .vfscale f => semVfscale f
  | .vfdot2 f => semVfdot2 f
  | .vcvt f => semVcvt f
  | .vqnt f => semVqnt f
  | .vdqnt f => semVdqnt f
  | .vlcd f => semVlcd f
  | .vperm f => semVperm f
  | .vshuf f => semVshuf f
  | .vbcast f => semVbcast f
  | .vred f => semVred f
  | .vscan f => semVscan f
  | .vcmprs f => semVcmprs f
  | .vexpnd f => semVexpnd f
  | .vslide f => semVslide f
  | .vclmul f => semVclmul f
  | .vextr f => semVextr f
  | .vins f => semVins f
  | .vretag f => semVretag f
  | .vli f => semVli f
  | .vaddi f => semVaddi f
  | .seed f => semSeed f
  | .rngpop f => semRngpop f
  | .ld f => semLd f
  | .ldu f => semLdu f
  | .st f => semSt f
  | .ldp f => semLdp f
  | .stp f => semStp f
  | .vld f => semVld f
  | .vst f => semVst f
  | .vlds f => semVlds f
  | .vsts f => semVsts f
  | .vldx f => semVldx f
  | .vstx f => semVstx f
  | .vldb f => semVldb f
  | .aadd f => semAadd f
  | .amin f => semAmin f
  | .amax f => semAmax f
  | .aand f => semAand f
  | .aor f => semAor f
  | .axor f => semAxor f
  | .aswp f => semAswp f
  | .acas f => semAcas f
  | .aminu f => semAminu f
  | .amaxu f => semAmaxu f
  | .mark f => semMark f
  | .fence f => semFence f
  | .cwb f => semCwb f
  | .cinv f => semCinv f
  | .tzero f => semTzero f
  | .tfill f => semTfill f
  | .tident f => semTident f
  | .tclass f => semTclass f
  | .tcopy f => semTcopy f
  | .ttag f => semTtag f
  | .tmask f => semTmask f
  | .tstate f => semTstate f
  | .mcfg f => semMcfg f
  | .mgo f => semMgo f
  | .mswap f => semMswap f
  | .mread f => semMread f
  | .mdrain f => semMdrain f
  | .mzero f => semMzero f
  | .mstep f => semMstep f
  | .mwload f => semMwload f
  | .mstop f => semMstop f
  | .cpy f => semCpy f
  | .cpy2d f => semCpy2d f
  | .csched f => semCsched f
  | .cstage f => semCstage f
  | .ovl f => semOvl f
  | .dcpy f => semDcpy f
  | .rget f r => semRget f r
  | .rput f r => semRput f r
  | .rgath f r => semRgath f r
  | .rscat f r => semRscat f r
  | .mcst f r => semMcst f r
  | .ratom f r => semRatom f r
  | .binit f r => semBinit f r
  | .barr f r => semBarr f r
  | .bwait f r => semBwait f r
  | .bread f r => semBread f r
  | .tkwait f => semTkwait f
  | .tktest f => semTktest f
  | .tkjoin f => semTkjoin f
  | .br f => semBr f
  | .brz f => semBrz f
  | .brnz f => semBrnz f
  | .call f => semCall f
  | .ret f => semRet f
  | .jmpi f => semJmpi f
  | .loop f => semLoop f
  | .endOp f => semEnd f
  | .yield f => semYield f
  | .calli f => semCalli f
  | .csrr f => semCsrr f
  | .csrw f => semCsrw f
  | .csrs f => semCsrs f
  | .csrc f => semCsrc f
  | .trap f => semTrap f
  | .eret f => semEret f
  | .brk f => semBrk f
  | .weirset f => semWeirset f
  | .weirsetBa f => semWeirsetBa f
  | .weirsetWa f => semWeirsetWa f
  | .weirq f => semWeirq f
  | .lend f => semLend f
  | .revoke f => semRevoke f
  | .eddy f => semEddy f
  | .eddyRes f => semEddyRes f
  | .park f => semPark f
  | .launch f => semLaunch f
  | .launchNb f => semLaunchNb f
  | .launchG f => semLaunchG f
  | .ntreq f => semNtreq f
  | .ntreqPop f => semNtreqPop f
  | .waitev f => semWaitev f
  | .idle f => semIdle f
  | .pair _
  | .illegalEncoding _
  | .machineCheck _
  | .firmwareEddyBind _
  | .taskBind _
  | .contextRestore _
  | .tlbInvalidation _
  | .pageMigration _
  | .scrub _
  | .debugRead _
  | .debugWrite _ _ _
  | .brkPlant _ _
  | .fwlenWrite _
  | .hostRegisterWrite _ _
  | .rom _
  | .loading _
  | .bringup _
  | .selftest _
  | .cxlPortRetrain _
  | .stalledBundleIssue
  | .kindAFault
  | .throttleNotice
  | .waitevWake
  | .waitevBound
  | .yieldExpiry
  | .contextWake
  | .nextTileLanding
  | .sequencerCommandStart
  | .matrixStep
  | .mzeroComplete
  | .mwloadComplete
  | .mdrainStart
  | .mdrainComplete
  | .tileOpStart
  | .tileOpComplete
  | .copyCommandStart
  | .copyChunkComplete
  | .copyCommandComplete
  | .ovlComplete
  | .dcpyCommandStart
  | .dcpyChunkComplete
  | .dcpyComplete
  | .niCommandStart
  | .remoteRequestArrival
  | .remoteReplyLanding
  | .mcstLanding
  | .binitLanding
  | .barrierArrival
  | .bwaitReread
  | .bwaitTimeout
  | .revokeSquash
  | .bankPark
  | .regionReclaim
  | .keepRegionCopyOut
  | .firmwareRevoke
  | .lendComplete
  | .eddySave
  | .eddyBankFree
  | .contextRelease
  | .taskEnd
  | .preemptionDecision
  | .drainTimeout
  | .checkpoint
  | .graphNodeLaunch
  | .graphInstanceComplete
  | .intervalBoundary
  | .patternChange
  | .permitRefill
  | .budgetPeriodStart
  | .dieBudgetPeriodStart
  | .regionPowerOn
  | .stripeDrowsy
  | .refreshSlotAdvance
  | .migrationRewalk
  | .invalidationComplete
  | .debugHalt
  | .debugResume
  | .addressBreakpoint
  | .singleStep
  | .displacedOpExecute
  | .load
  | .unload
  | .hostLaunch
  | .graph
  | .glaunch
  | .edit
  | .fork
  | .setcap
  | .partition
  | .hostDrain
  | .weights
  | .counters
  | .unknownOp
  | .packageReset
  | .flitReplay
  | .linkRetire
  | .routerRetire
  | .fabricTimeout
  | .cxlPortDown
  | .debugAttach => semNone

/-! ### Words without a `Sem` of their own -/

/-- PAIR standing alone: the bundle of its two halves (R70). -/
def execPair (f : PairF) (s : State) : Host.Outcome State Fault Refusal :=
  if nCores ≤ s.cur.core then .fault .noSuchAgent
  else .next (s.issue semOf (s.single (.pair f)))

/-- ILLEGAL_ENCODING standing alone: the bundle traps with cause 0x00 (R88); a route word that stands alone traps by
row 2 or 3 of R80. -/
def execIllegalEncoding (w : Word) (s : State) : Host.Outcome State Fault Refusal :=
  issueOne semNone (.illegalEncoding w) s

/-! ### Fetching -/

/-- The words from `pc` through the first with S set, at most `n` (R57, R64). -/
def gather (m : Mem) : Nat → BitVec 16 → List (BitVec 16 × Word)
  | 0, _ => []
  | n + 1, pc =>
    let w := m.readWord pc.toNat
    if w.getLsbD 63 then [(pc, w)] else (pc, w) :: gather m n (pcPlus pc 1)

/-- The words of a bundle in handler mode: one op word, with its route word unless S is set, which leaves the route word
misplaced (R61, R79). Log 87, DEDUCED. -/
def gatherHm (m : Mem) (pc : BitVec 16) : List (BitVec 16 × Word) :=
  let w := m.readWord pc.toNat
  let r := m.readWord (pcPlus pc 1).toNat
  if takesRoute w && isRoute r then [(pc, w), (pcPlus pc 1, r)] else [(pc, w)]

/-- The words the running context fetches. -/
def State.fetchWords (s : State) (m : Mem) : List (BitVec 16 × Word) :=
  if s.me.tr.hm then gatherHm m s.me.pc else gather m 23 s.me.pc

/-- Reading fetched words as instructions, a route word with its NI op (R79). -/
def itemsOf : List (BitVec 16 × Word) → List Item
  | [] => []
  | [x] => [⟨x.1, x.2, decodeWord x.2 none⟩]
  | x :: y :: rest =>
    if takesRoute x.2 && isRoute y.2 then ⟨x.1, x.2, decodeWord x.2 (some (routeOfWord y.2))⟩ :: itemsOf rest
    else ⟨x.1, x.2, decodeWord x.2 none⟩ :: itemsOf (y :: rest)

/-- The 23rd word of a bundle, where its S is clear (R64). Log 33, DEDUCED. -/
def longWord (ws : List (BitVec 16 × Word)) : Option Word :=
  match ws[22]? with
  | some x => if x.2.getLsbD 63 then none else some x.2
  | none => none

/-- A bundle of fetched words. -/
def bundleOf (ws : List (BitVec 16 × Word)) : Fetched := ⟨itemsOf ws, ws.length, longWord ws⟩

/-- Words at consecutive offsets. -/
def placeWords : BitVec 16 → List Word → List (BitVec 16 × Word)
  | _, [] => []
  | pc, w :: ws => (pc, w) :: placeWords (pcPlus pc 1) ws

/-- The bundle at the running context's program counter: from the debug issue buffer while that holds it (R409), else
from the instruction scratchpad. -/
def State.fetched (s : State) : Fetched :=
  match s.buffered with
  | some ws => bundleOf (placeWords s.me.pc ws)
  | none => bundleOf (s.fetchWords s.myCore.ispad)

/-- The overlay of the image a core runs that an OVL names (R291). -/
def State.ovlFor (s : State) (core : Nat) (n : Word) : Option Overlay :=
  match (s.taskOf core 0).bind (fun t => s.image t.image) with
  | some img => img.overlay n.toNat
  | none => none

/-- Whether a started OVL will write the word at an offset (R292). -/
def State.beingLoaded (s : State) (core : Nat) (off : BitVec 16) : Bool :=
  (s.core core).cmds.any (fun c =>
    match c.kind with
    | .ovl n =>
      c.started && (match s.ovlFor core n with
        | some o => decide (o.off ≤ off.toNat) && decide (off.toNat < o.off + 8 * o.words.length)
        | none => false)
    | _ => false)

/-- Whether the fetch of the next bundle stalls (R292). -/
def State.fetchStalls (s : State) : Bool :=
  s.buffered.isNone && (s.fetchWords s.myCore.ispad).any (fun w => s.beingLoaded s.cur.core w.1)

end Sys2Proof.Machine
end

