-- ==== Sys2Proof/Machine/Boundary.lean ====
section
/-! DEFINITION. What happens to a context at a bundle boundary other than the bundle itself: pending kind-A events,
halts by the debugger, address breakpoints, single step, and taking a context that sleeps in BWAIT (R129, R184, R185,
R331, R369, R403-R407). -/

namespace Sys2Proof.Machine

/-- Acting for a context. -/
def State.as (s : State) (core k : Nat) : State := { s with cur := { s.cur with core := core, ctx := k } }

/-- Doing something as a context, the running turn's actor kept. -/
def State.doAs (s : State) (core k : Nat) (f : State → State) : State := { f (s.as core k) with cur := s.cur }

/-! ### Taking a context (R129, R331) -/

/-- Taking the running context at its bundle's boundary: the bundle issues again from the start; a wake that ended an IDLE
which has not retired stays pending (R127, R129). -/
def State.takeHere (s : State) : State :=
  s.unsleep.leaveBuf.updMe (fun c =>
    { c with waits := { c.waits with held := false, waiting := false, since := 0, asleep := none, idle := false, wakeNow := false,
                                     idleWoken := false, lendOld := none, lendOn := none },
             tr := { c.tr with wake := c.tr.wake || c.waits.idleWoken } })

/-- Taking a context by pre-emption or a park: a YIELD's remaining cycles are discarded (R129). -/
def State.takeAway (s : State) (core k : Nat) : State :=
  s.doAs core k (fun s => s.takeHere.updMe (fun c => { c with waits := { c.waits with yield := 0, wakeIn := 0 } }))

/-! ### Whether a context acts -/

/-- Whether a checkpoint of the running context's task was decided (R393). -/
def State.stopped (s : State) : Bool := match s.myTask with | some t => t.ckpt | none => false

/-- Whether the running context is bound and may run: an owner in a core whose STATE is RUN, an eddy in a bank that is
RUN, neither halted nor stopped (R301, R380, R393, R403). -/
def State.runs (s : State) : Bool :=
  s.me.run == .run && !s.me.dbg.halted && !s.stopped &&
  (if isEddy s.cur.ctx then (s.myCore.bank s.cur.ctx).st == .run else s.myCore.slot.st == .run)

/-- Whether the running context, an eddy that is being taken, still has a bundle that issued before cycle 1 and has not
retired: one that waits in WAITEV, IDLE or BWAIT (R126, R127, R302, R331). -/
def State.leaving (s : State) : Bool :=
  isEddy s.cur.ctx && (s.myCore.bank s.cur.ctx).st == .revoking && s.me.waits.waiting && s.me.run == .run &&
  !s.me.dbg.halted && !s.stopped

/-- Whether the running context is at a boundary where it issues or takes a trap. -/
def State.canAct (s : State) : Bool := s.runs && s.me.waits.yield == 0 && s.me.waits.wakeIn == 0

/-! ### Kind-A events (R184, R185, R369) -/

/-- Which kind-A event is taken next, outside handler mode (R185). -/
inductive NextA where
  | soft (p : PendA)
  | notice (i : Word × Word)
  | fault (p : PendA)
  deriving DecidableEq, Repr

/-- The next kind-A event of a context (R185); one without a handler takes no notice (R369). -/
def Ctx.nextA (c : Ctx) : Option NextA :=
  match c.pend.find? (·.soft) with
  | some p => some (.soft p)
  | none =>
    match (if c.tr.noh then none else c.notice) with
    | some i => some (.notice i)
    | none => c.pend.head?.map .fault

/-- Removing the first pending event that is `soft` or not. -/
def dropPend (soft : Bool) : List PendA → List PendA
  | [] => []
  | p :: rest => if p.soft == soft then rest else p :: dropPend soft rest

/-- A kind-A trap (R186). -/
def kindATrap (r : FaultRec) : Trap := { kind := .A, cause := r.cause, slot := 31, info0 := r.info0, info1 := r.info1 }

/-- Taking the trap of a kind-A event at the boundary. -/
def State.enterA (s : State) (r : FaultRec) : State :=
  let s := s.unsleep.leaveBuf
  (s.updMe (fun c => c.tick 0)).takeTrap (kindATrap r) s.me.pc 0

/-- Counting a denial for the task of a context without a handler (R369). Log 65, DEDUCED. -/
def State.countDenial (s : State) : State :=
  match s.me.task with
  | some t => s.updTask t (fun t => { t with denials := t.denials + 1 })
  | none => s

/-- A context without a handler takes no notice: the firmware counts the denial instead (R369). -/
def State.dropNotice (s : State) : State :=
  if s.me.notice.isSome && s.me.tr.noh then (s.updMe (fun c => { c with notice := none })).countDenial else s

/-- Taking the next kind-A event of the running context (R184, R274, R369). -/
def State.takeA (s : State) (a : NextA) : State :=
  match a with
  | .soft p => (s.updMe (fun c => { c with pend := dropPend true c.pend })).enterA p.record
  | .notice i => (s.updMe (fun c => { c with notice := none })).enterA ⟨0x58, i.1, i.2⟩
  | .fault p =>
    ((s.updMe (fun c => { c with pend := dropPend false c.pend,
                                 csr := { c.csr with fpstat := c.csr.fpstat ||| p.flags } })).faultReported p.record).enterA
      p.record

/-- The kind-A event due at the running context's boundary: none in handler mode (R191). Log 56, DEDUCED. -/
def State.dueA (s : State) : Option NextA := if s.me.tr.hm then none else s.me.nextA

/-! ### Debugger halts (R403, R406, R407) -/

/-- A debugger halt: the context is taken at a bundle boundary, and the halt is a wake (R127, R129, R403). -/
def State.debugStop (s : State) : State :=
  let s := s.unsleep.leaveBuf.wakeCtx s.cur.core s.cur.ctx
  s.updMe (fun c => { c with dbg := { c.dbg with halted := true },
                             waits := { c.waits with held := false, waiting := false, since := 0, asleep := none, lendOld := none,
                                                     lendOn := none } })

/-- Whether a stepped bundle awaits its report (R407). -/
def State.stepDue (s : State) : Bool := s.me.dbg.stepDone

/-- The report of a single step (R407). -/
def State.stepReport (s : State) : State :=
  let s := s.updMe (fun c => { c with dbg := { c.dbg with halted := true, stepDone := false } })
  s.report ⟨0x55, s.me.pc.setWidth 64, 0⟩

/-- The number of the op at an offset, a route word counting as its op (R406). -/
def opNoAt (off : BitVec 16) : Nat → List Item → Option Nat
  | _, [] => none
  | n, x :: rest =>
    let stray := match x.i with | .illegalEncoding w => isRoute w | _ => false
    if x.off = off then some (if stray then n - 1 else n)
    else if wordsOf x.i = 2 ∧ pcPlus x.off 1 = off then some n
    else opNoAt off (if stray then n else n + (opsOf x.word x.i).length) rest

/-- The op number at which breakpoint register `w` matches the bundle (R406). -/
def bpMatch (hm : Bool) (items : List Item) (w : Word) : Option Nat :=
  if bitAt 31 w && (!hm || bitAt 30 w) then opNoAt (BitVec.ofNat 16 (bitsOf 15 3 w * 8)) 0 items else none

/-- The matches of the next bundle: register and op number (R406). A bundle that is held has been checked. -/
def State.bpHits (s : State) : List (Nat × Nat) :=
  if s.me.waits.held then []
  else (List.range 16).filterMap (fun n =>
    (bpMatch s.me.tr.hm s.fetched.items (s.me.dbg.abp.get (Fin.ofNat 16 n))).map (fun k => (n, k)))

/-- Clearing SKIP in a matched register (R405). -/
def Ctx.unskip (c : Ctx) (n : Nat) : Ctx :=
  let w := c.dbg.abp.get (Fin.ofNat 16 n) &&& ~~~(0x20000000#64)
  { c with dbg := { c.dbg with abp := c.dbg.abp.set (Fin.ofNat 16 n) w } }

/-- The first match whose register has SKIP clear. Log 56, DEDUCED. -/
def State.bpFirst (s : State) : Option (Nat × Nat) :=
  s.bpHits.find? (fun p => !bitAt 29 (s.me.dbg.abp.get (Fin.ofNat 16 p.1)))

/-- SKIP is cleared by the match it ignores. -/
def State.bpSkip (s : State) : State := s.bpHits.foldl (fun s p => s.updMe (fun c => c.unskip p.1)) s

/-- Halting at an address breakpoint: cause 0x54 with the offset, the op number and the register (R406). No wake comes with it,
nor with the stop of a single step or of a BRK: the debugger halt that is a wake (R127) is one the debugger asks for, DEBUG_HALT.
Log 107, DESIGN CHOICE. -/
def State.bpStop (s : State) (p : Nat × Nat) : State :=
  let s := s.bpSkip.updMe (fun c => { c with dbg := { c.dbg with halted := true } })
  s.report ⟨0x54, s.me.pc.setWidth 64, wd (p.2 + 256 * p.1)⟩

end Sys2Proof.Machine
end

