-- ==== Sys2Proof/Machine/EvCtx.lean ====
section
/-! DEFINITION. The events of a context: a held bundle issuing, kind-A traps, waits that end, wakes, release, machine
checks (R60, R125-R127, R184, R200, R293, R331, R334, R335, R348, R369, R382, R390). -/

namespace Sys2Proof.Machine

/-! ### Held bundles -/

/-- The decision on the next bundle of the running context. -/
def State.nextVerdict (s : State) : Verdict := s.judge (s.lay semOf s.fetched) s.fetched.long

/-- Whether a held bundle would go now: it issues or traps. -/
def State.heldGoes (s : State) : Bool :=
  s.me.waits.held && s.canAct && s.dueA.isNone && !s.fetchStalls &&
  (match s.nextVerdict with | .stall _ => false | _ => true)

/-- Issuing the next bundle of the running context. -/
def State.issueNext (s : State) : State := s.issue semOf s.fetched

/-- Whether the next bundle holds an op that satisfies a test. -/
def State.nextHas (s : State) (p : Instr → Bool) : Bool := s.fetched.items.any (fun x => p x.i)

/-- STALLED_BUNDLE_ISSUE (R60). -/
def execStalledBundleIssue (s : State) : Host.Outcome State Fault Refusal :=
  onCore State.heldGoes State.issueNext s

/-- WAITEV of an instruction. -/
def waitevOf : Instr → Option SysF
  | .waitev f => some f
  | _ => none
/-- BWAIT of an instruction. -/
def bwaitOf : Instr → Option EngF
  | .bwait f _ => some f
  | _ => none

/-- WAITEV_WAKE: the dword differs, and the bundle retires pushing 0 (R126). -/
def execWaitevWake (s : State) : Host.Outcome State Fault Refusal :=
  onCore (fun s => s.heldGoes && s.nextHas (fun i =>
    match waitevOf i with | some f => waitevWord f s != s.val f.b | none => false)) State.issueNext s

/-- WAITEV_BOUND: the bound has passed with the dword unchanged, and the bundle retires pushing 1 (R126). -/
def execWaitevBound (s : State) : Host.Outcome State Fault Refusal :=
  onCore (fun s => s.heldGoes && s.nextHas (fun i =>
    match waitevOf i with | some f => waitevWord f s == s.val f.b && waitevPast f s.me | none => false))
    State.issueNext s

/-- BWAIT_REREAD: a woken BWAIT reads its object again and issues or sleeps on (R331). -/
def execBwaitReread (s : State) : Host.Outcome State Fault Refusal :=
  onCore (fun s => s.me.waits.held && s.me.waits.wakeNow && s.canAct && s.dueA.isNone &&
    s.nextHas (fun i => (bwaitOf i).isSome)) State.issueNext s

/-- BWAIT_TIMEOUT: the bound has passed; the BWAIT reads its object a last time (R331, R334). -/
def execBwaitTimeout (s : State) : Host.Outcome State Fault Refusal :=
  onCore (fun s => s.heldGoes && s.nextHas (fun i =>
    match bwaitOf i with | some f => decide ((s.val f.c).toNat ≤ s.me.sinceIssue) | none => false)) State.issueNext s

/-- MIGRATION_REWALK: the page an access waits on shows MIG 0, and the held bundle walks again and goes (R348). -/
def execMigrationRewalk (s : State) : Host.Outcome State Fault Refusal :=
  onCore (fun s => s.heldGoes &&
    (s.outs (s.lay semOf s.fetched)).any (fun p => p.2.accs.any (fun a => s.isMapped s.cur.core a.va)))
    State.issueNext s

/-! ### Kind-A events -/

/-- KIND_A_FAULT (R184). -/
def execKindAFault (s : State) : Host.Outcome State Fault Refusal :=
  onCore (fun s => s.canAct && (match s.dueA with | some (.fault _) => true | _ => false))
    (fun s => match s.dueA with | some a => s.takeA a | none => s) s

/-- THROTTLE_NOTICE: the notice is taken, or counted for the task of a context without a handler (R369). -/
def execThrottleNotice (s : State) : Host.Outcome State Fault Refusal :=
  onCore (fun s => s.canAct && ((s.me.notice.isSome && s.me.tr.noh) ||
      (match s.dueA with | some (.notice _) => true | _ => false)))
    (fun s => if s.me.tr.noh then s.dropNotice else match s.dueA with | some a => s.takeA a | none => s) s

/-! ### Waits and wakes -/

/-- YIELD_EXPIRY: the last cycle of a YIELD (R125). -/
def execYieldExpiry (s : State) : Host.Outcome State Fault Refusal :=
  onCore (fun s => s.me.waits.yield == 1)
    (fun s => s.updMe (fun c => { c.tick 0 with waits := { c.waits with yield := 0 } })) s

/-- CONTEXT_WAKE: a wake the firmware sends reaches a bound context (R127, R294). -/
def execContextWake (s : State) : Host.Outcome State Fault Refusal :=
  onCore (fun s => s.me.run != .unbound) (fun s => s.wakeCtx s.cur.core s.cur.ctx) s

/-- NEXT_TILE_LANDING (R390). -/
def execNextTileLanding (s : State) : Host.Outcome State Fault Refusal :=
  onCore (fun s => s.me.nx.any (fun e => e.due == 1)) (fun s => s.landNx s.cur.core s.cur.ctx) s

/-! ### Machine checks (R200) -/

/-- A free number below `m`. Log 90, DEDUCED. -/
def freeNat (n m : Nat) : Nat := (Config.freeWord n).toNat % m
/-- A poison mark that is there or not, with a free address. Log 90, DEDUCED. -/
def freePoison (n : Nat) : Option Word := if bitAt 0 (Config.freeWord n) then some (Config.freeWord (n + 1)) else none
/-- A free scalar, from eight free words on. Log 90, DEDUCED. -/
def freeS (n : Nat) : SVal := { v := Config.freeWord n, tag := tagOf (freeNat (n + 1) 16), poison := freePoison (n + 2) }
/-- A free vector. Log 90, DEDUCED. -/
def freeV (n : Nat) : VVal := { v := Config.freeVec n, tag := tagOf (freeNat (n + 1) 16), poison := freePoison (n + 2) }
/-- A queue entry that is undefined or holds a value. Log 90, DEDUCED. -/
def freeEnt {α : Type} (n : Nat) (x : α) : Option α := if bitAt 0 (Config.freeWord (n + 4)) then some x else none

/-- Files of free values. Log 90, DEDUCED. -/
def freeFiles (n : Nat) : Files where
  s := Vector.ofFn (fun i : Fin 16 => freeS (n + 8 * i.val))
  g := Vector.ofFn (fun i : Fin 32 => freeS (n + 128 + 8 * i.val))
  v := Vector.ofFn (fun i : Fin 16 => freeV (n + 384 + 8 * i.val))
  w := Vector.ofFn (fun i : Fin 32 => freeV (n + 512 + 8 * i.val))
  p := Vector.ofFn (fun i : Fin 16 => (Config.freeVec (n + 768 + i.val)).setWidth 256)
  m := Vector.ofFn (fun i : Fin 16 => (Config.freeVec (n + 784 + i.val)).setWidth 128)
  b := Vector.ofFn (fun i : Fin 8 => Config.freeWord (n + 800 + i.val))

/-- Queues whose entries are undefined, poisoned or values, freely. Log 90, DEDUCED. -/
def freeQueues (n : Nat) : Queues where
  sq := Vector.ofFn (fun i : Fin 16 => freeEnt (n + 8 * i.val) (freeS (n + 8 * i.val)))
  vq := Vector.ofFn (fun i : Fin 16 => freeEnt (n + 128 + 8 * i.val) (freeV (n + 128 + 8 * i.val)))
  hq := Vector.ofFn (fun i : Fin 16 => freeEnt (n + 256 + 8 * i.val) (freeS (n + 256 + 8 * i.val)))

/-- A free token, with a fault record or without; the command it is bound to stays. Log 90, DEDUCED. -/
def freeTok (n : Nat) (k : Token) : Token :=
  { k with live := bitAt 0 (Config.freeWord n), done := bitAt 0 (Config.freeWord (n + 1)),
           viaTest := bitAt 0 (Config.freeWord (n + 2)), flags := (Config.freeWord (n + 3)).setWidth 7,
           fault := if bitAt 0 (Config.freeWord (n + 4)) then
             some ⟨freeNat (n + 5) 128, Config.freeWord (n + 6), Config.freeWord (n + 7)⟩ else none }

/-- Free trap registers. Log 90, DEDUCED. -/
def freeTrap (n : Nat) : TrapRegs where
  cause := BitVec.ofNat 7 (freeNat n 128)
  pc := alignPc ((Config.freeWord (n + 1)).setWidth 16)
  slot := BitVec.ofNat 5 (freeNat (n + 2) 32)
  info0 := Config.freeWord (n + 3)
  info1 := Config.freeWord (n + 4)
  vec := alignPc ((Config.freeWord (n + 5)).setWidth 16)
  noh := bitAt 0 (Config.freeWord (n + 6))
  epc := alignPc ((Config.freeWord (n + 7)).setWidth 16)
  hm := bitAt 1 (Config.freeWord (n + 6))
  wake := bitAt 2 (Config.freeWord (n + 6))
  dt := bitAt 3 (Config.freeWord (n + 6))
  eng := bitAt 4 (Config.freeWord (n + 6))
  blen := BitVec.ofNat 5 (freeNat (n + 8) 32)
  res := freeNat (n + 9) 5

/-- Free control registers; WEIRC, MMREV and the budgets the firmware writes stay. Log 90, DEDUCED. -/
def freeCsrs (n : Nat) (c : Csrs) : Csrs :=
  { c with
    fpctl := (Config.freeWord n).setWidth 12
    fpstat := (Config.freeWord (n + 1)).setWidth 7
    weira := freeNat (n + 2) 128
    weirw := freeNat (n + 3) 1024
    weirf := freeNat (n + 4) 128
    cycles := Config.freeWord (n + 5)
    issueLeft := freeNat (n + 6) 65536
    niLeft := freeNat (n + 7) 65536
    rngseed := Config.freeWord (n + 8)
    privbase := Config.freeWord (n + 9)
    discard := bitAt 0 (Config.freeWord (n + 10)) }

/-- A context whose state is undefined: free values in everything R6 gives it but the load and store queues, whose accesses had
retired and are performed (R200). Log 90, DEDUCED. -/
def Ctx.scramble (n : Nat) (c : Ctx) : Ctx :=
  { c with
    pc := alignPc ((Config.freeWord n).setWidth 16)
    sc := Config.freeWord (n + 1)
    t := Config.freeWord (n + 2)
    armed := bitAt 0 (Config.freeWord (n + 3))
    nx := (List.range (freeNat (n + 4) 5)).map (fun i => ⟨Config.freeWord (n + 6 + i), 0⟩)
    nxHead := freeNat (n + 5) 4
    tr := freeTrap (n + 16)
    csr := freeCsrs (n + 32) c.csr
    files := freeFiles (n + 64)
    q := freeQueues (n + 896)
    tok := Vector.ofFn (fun i : Fin 63 => freeTok (n + 1280 + 8 * i.val) (c.tok.get i)) }

/-- The free words that one context takes. -/
def scrambleWords : Nat := 2048

/-- A fault the firmware ends a task with (R184); the first one stands. -/
def State.noteFault (s : State) (task : Option Nat) (cause : Option Nat) : State :=
  match task, cause with
  | some t, some k => s.updTask t (fun t => { t with code := some (t.code.getD k) })
  | _, _ => s

/-- Halting a context that a machine check reaches: the firmware ends the task it belongs to, an owner-origin eddy's owner's
too (R200, R299), where R200 also lets it restart the task from a checkpoint. Log 112, DESIGN CHOICE. -/
def State.checkHalt (core : Nat) (s : State) (k : Nat) : State :=
  let s1 := ((s.noteFault (s.ctx core k).task (some 0x5F)).haltCtx core k 0x5F).updCtx core k (Ctx.scramble s.freeCount)
  { s1 with freeCount := s.freeCount + scrambleWords }

/-- MACHINE_CHECK: every context that is reached halts with its state undefined, and the firmware is told the core, the
structure and the syndrome (R200, R428). -/
def execMachineCheck (m : McheckInfo) (s : State) : Host.Outcome State Fault Refusal :=
  if nCores ≤ m.core then .fault .noSuchAgent
  else
    let ks := [0, 1, 2, 3].filter (fun k => m.ctxs.contains k && (s.ctx m.core k).run != .unbound)
    .next (((ks.foldl (State.checkHalt m.core) s).report ⟨0x5F, wd (m.core + 65536 * m.unit), m.syndrome⟩).raiseIrq 2)

/-! ### Release (R293, R307, R335, R382) -/

/-- Whether an owner-origin eddy of a core still runs (R307). -/
def CoreState.ownEddies (x : CoreState) : Bool :=
  [1, 2, 3].any (fun k => !(x.bank k).origin &&
    ((x.bank k).st == .run || (x.bank k).st == .revoking || (x.bank k).st == .ending))

/-- The release rule of R293 for a context that has ended or was halted: no store waits and no command is unfinished. -/
def CoreState.quiet (x : CoreState) (k : Nat) : Bool :=
  (x.ctx k).storeQ.isEmpty && x.cmds.all (fun c => c.ctx != k)

/-- The cause of the first fault of a context that no consumer reported (R184): one that waits to be reported, else that of the
lowest token. Log 110, DESIGN CHOICE. -/
def Ctx.unreported (c : Ctx) : Option Nat :=
  match c.pend.find? (fun p => !p.soft) with
  | some p => some p.record.cause
  | none => (c.tok.toList.find? (fun t => t.live && t.fault.isSome)).bind (fun t => t.fault.map (·.cause))

/-- A bank that is FREE: its state is discarded, EXIT stays, and no revocation has it any more (R296, R301). -/
def CoreState.freeBankAt (x : CoreState) (k : Nat) : CoreState :=
  let rev := x.lend.rev.map (fun r => { r with banks := r.banks.filter (· != k) })
  let x := { x with lend := { x.lend with rev := rev } }
  (x.setCtx k Ctx.reset).updBank k (fun b => { exit := b.exit })

/-- Freeing every parked owner-origin bank (R307). -/
def CoreState.freeParked (x : CoreState) : CoreState :=
  [1, 2, 3].foldl (fun x k => if (x.bank k).st == .parked && !(x.bank k).origin then x.freeBankAt k else x) x

/-- Whether a core has a bound context, or is in RELEASE and not unbound yet (R335, R382). -/
def CoreState.bound (x : CoreState) : Bool := x.slot.st != .free || [1, 2, 3].any (fun k => (x.bank k).st != .free)

/-- Whether a task is bound on a die. -/
def Task.onDie (t : Task) (d : Nat) : Bool := t.st == .bound && t.cores.any (fun c => dieOf c == d)

/-- The weight store of a die is writable once no task is bound on a core of it: a task on several dies holds it until
its release (R338). -/
def State.unseal (s : State) (d : Nat) : State :=
  if s.cores.any (fun p => dieOf p.1 == d && p.2.bound) || s.fw.tasks.any (fun t => t.onDie d) then s
  else s.updDie d (fun x => { x with sealed := false })

/-- Gating a cluster with every stripe of its cores (R358). -/
def State.gateCluster (s : State) (k : Nat) : State :=
  { s.updCluster k (fun x => { x with gated := true, powerOn := none, grant := false }) with
    cores := s.cores.map (fun p => if clusterOf p.1 == k then (p.1, { p.2 with stripes := .replicate 32 {} }) else p) }

/-- After a core was unbound: a weight store without a task is writable, a cluster without a context is gated (R338,
R358). -/
def State.settleIdle (s : State) (core : Nat) : State :=
  let k := clusterOf core
  let s := s.unseal (dieOf core)
  if s.cores.any (fun p => clusterOf p.1 == k && p.2.bound) then s else s.gateCluster k

/-- Releasing the owner of a core: STATE moves to RELEASE (R382). -/
def State.releaseOwner (s : State) (core : Nat) : State :=
  let x := s.core core
  let c := x.ctx 0
  let s := s.noteFault c.task c.unreported
  let s := s.updCore core (fun x =>
    let x := x.freeParked
    { x.setCtx 0 Ctx.reset with slot := { x.slot with st := .release }, lend := { x.lend with kept := none } })
  s.settleIdle core

/-- Whether a context of a core's cluster sleeps in a BWAIT on an object of the core. -/
def State.sleptOn (s : State) (core : Nat) : Bool :=
  (List.range 16).any (fun i => [0, 1, 2, 3].any (fun k =>
    match (s.ctx (clusterOf core * 16 + i) k).waits.asleep with
    | some a => (match s.place (clusterOf core * 16 + i) a with | some p => p.core == core | none => false)
    | none => false))

/-- CONTEXT_RELEASE: an owner whose END has retired is released when its queues and commands are empty and no
owner-origin eddy of it runs; the firmware unbinds a core in RELEASE once no BWAIT sleeps on an object of it
(R293, R307, R335, R382). Log 14, DEDUCED. -/
def execContextRelease (s : State) : Host.Outcome State Fault Refusal :=
  onCore (fun s => s.cur.ctx == 0 &&
      (if s.myCore.slot.st == .release then !s.sleptOn s.cur.core
       else s.me.run == .ended && s.myCore.quiet 0 && !s.myCore.ownEddies))
    (fun s => if s.myCore.slot.st == .release then (s.updMyCore (fun x => { x with slot := {} })).settleIdle s.cur.core
              else s.releaseOwner s.cur.core) s

end Sys2Proof.Machine
end

