-- ==== Sys2Proof/Machine/EvTile.lean ====
section
/-! DEFINITION. The tile ops of R233 after retirement: starting and completing a filler (R225, R228, R234-R236). -/

namespace Sys2Proof.Machine

/-- The slot a tile op fills. -/
def CmdKind.fillSlot : CmdKind → Option Nat
  | .tzero n _ | .tfill n _ _ | .tident n _ | .tclass n | .tcopy n _ | .mdrain _ _ _ n => some n
  | _ => none

/-- What a filler writes: the bytes, none where it writes no byte, and the tag, class and NF it sets. -/
structure Fill where
  bytes : Option (List Byte)
  tag : Tag
  cls : TClass
  nf : Bool
  deriving DecidableEq, Repr

/-- A slot's bytes. -/
def CoreState.slotBytes (x : CoreState) (n : Nat) : List Byte := x.spad.readBytes (n * slotSize) slotSize

/-- 4,096 bytes of one element (R234). -/
def constBytes (t : Tag) (v : Nat) : List Byte :=
  let n := tagWidth t / 8
  (List.range (slotSize / n)).flatMap (fun _ => leBytes n v)

/-- The identity pattern of a tag (R222, R224, R234). -/
def identBytes (t : Tag) : List Byte :=
  let n := tagWidth t / 8
  let per := 128 / n
  (List.range (slotSize / n)).flatMap (fun e => leBytes n (if e / per = e % per then oneOf t else 0))

/-- A filler that computes CLASS and NF from the bytes it leaves (R228). -/
def classified (bytes : Option (List Byte)) (found : List Byte) (t : Tag) : Fill :=
  let c := classify (if t = .undef then .bits else t) found
  ⟨bytes, t, c.1, c.2⟩

/-- What a tile op writes (R234-R236); TCOPY's bytes are those of its source as it starts. Log 55, DEDUCED. -/
def tileFill (x : CoreState) : CmdKind → Fill
  | .tzero n t => ⟨some (List.replicate slotSize 0), t.getD (x.tile n).tag, .zero, false⟩
  | .tfill _ t v =>
    let e := v.toNat % 2 ^ tagWidth t
    ⟨some (constBytes t e), t, if e = 0 then .zero else .const, nonFinite t e⟩
  | .tident _ t => ⟨some (identBytes t), t, .ident, false⟩
  | .tclass n => classified none (x.slotBytes n) (x.tile n).tag
  | .tcopy _ m => classified (some (x.slotBytes m)) (x.slotBytes m) (x.tile m).tag
  | _ => ⟨none, .undef, .general, true⟩

/-- A filler completes: the entry moves to READY under the filler's tag. Where other agents wrote the slot meanwhile, which were
judged by its old tag, NF also tells of a non-finite element of the slot as it stands (R224, R225). -/
def CoreState.endFiller (x : CoreState) (lost : List Nat) (n : Nat) (f : Fill) : CoreState :=
  x.endTile lost n (endFill f.tag f.cls (f.nf || (x.tile n).spoil && (classified none (x.slotBytes n) f.tag).nf))

/-- A filler's bytes and entry at its completion, where it writes the slot at once (R225, R230, R265). Log 55, DEDUCED. -/
def CoreState.complete (x : CoreState) (lost : List Nat) (n : Nat) (f : Fill) : CoreState :=
  (match f.bytes with | some bs => x.fillAt lost (n * slotSize) bs | none => x).endFiller lost n f

/-- A filler that fails: the slot's fault row, and its token (R225, R274). -/
def State.failFiller (s : State) (c : Cmd) (r : FaultRec) : State :=
  let s := match c.kind.fillSlot with | some n => s.updCore s.cur.core (fun x => x.endTile c.lost n failFill) | none => s
  s.endCmd s.cur.core c (some r) 0

/-- Whether a slot of the lent region holds a command of the owner back (R304). -/
def CoreState.slotBlocked (x : CoreState) (n : Nat) : Bool := x.ownerBlocked (n * slotSize)

/-- Rows of 128 bytes in a slot (R222). -/
def slotRows : Nat := 32

/-- The tag of an op's entry at READY and its class and NF (R234-R236): TCOPY computes them from the bytes it wrote, TCLASS
from those it finds (R228). Log 55, DEDUCED. -/
def Cmd.tileEnd (c : Cmd) (x : CoreState) : Fill :=
  match c.kind with
  | .tcopy _ m => classified (some c.buf) c.buf (x.tile m).tag
  | k => tileFill x k

/-- The stripes a tile op touches as it starts: TCOPY and TCLASS read a slot (R242). -/
def CmdKind.readSlot : CmdKind → Option Nat
  | .tcopy _ m => some m
  | .tclass n => some n
  | _ => none

/-- Starting a tile op: the bytes it will write are fixed. -/
def State.startTile (s : State) (c : Cmd) : State :=
  let s := match c.kind.readSlot with
    | some m => s.updMyCore (fun x => x.touch (m * slotSize) (s.eff s.cur.core))
    | none => s
  s.updCmd s.cur.core c.id (fun c => { c with started := true, buf := ((tileFill s.myCore c.kind).bytes).getD [] })

/-- Two rows of a tile op, in ascending row order; TCLASS writes none (R233, R235). -/
def State.tileRows (s : State) (c : Cmd) : State :=
  let s := match c.kind.fillSlot with
    | some n =>
      let off := n * slotSize + 128 * c.next
      s.updMyCore (fun x => (x.touch off (s.eff s.cur.core)).fillAt c.lost off ((c.buf.drop (128 * c.next)).take 256))
    | none => s
  s.updCmd s.cur.core c.id (fun c => { c with next := c.next + 2 })

/-- Whether the slot a tile op reads or fills lies in a region that is being revoked (R304). -/
def Cmd.tileBlocked (c : Cmd) (x : CoreState) : Bool :=
  (match c.kind.fillSlot with | some n => x.slotBlocked n | none => false) ||
  (match c.kind.readSlot with | some n => !c.started && x.slotBlocked n | none => false)

/-- TILE_OP_START: the op starts once its in-tokens are DONE, one that inherits a fault does not start, and a started one
writes its slot two rows in each cycle (R233, R274). -/
def execTileOpStart (s : State) : Host.Outcome State Fault Refusal :=
  onCmd (fun s c => c.kind.isTile && (c.ready || (c.started && decide (c.next < slotRows))) &&
      (c.inFault.isSome || !c.tileBlocked s.myCore))
    (fun s c =>
      if c.started then s.tileRows c
      else
        match c.inFault with
        | some f => s.failFiller c f.2
        | none => s.startTile c) s

/-- TILE_OP_COMPLETE: every row is written, the entry moves to READY and the token is DONE (R225, R233). -/
def execTileOpComplete (s : State) : Host.Outcome State Fault Refusal :=
  onCmd (fun _ c => c.kind.isTile && c.started && decide (slotRows ≤ c.next))
    (fun s c =>
      let s := match c.kind.fillSlot with
        | some n =>
          s.updMyCore (fun x => x.endFiller c.lost n (c.tileEnd x))
        | none => s
      s.endCmd s.cur.core c none 0) s

end Sys2Proof.Machine
end

