-- ==== Sys2Proof/Machine/EvMatrix.lean ====
section
/-! DEFINITION. The matrix sequencer and the drains after retirement: the order of a nest, the checks, arithmetic and
elisions of a step, weight blocks, MZERO, MWLOAD and MDRAIN (R244-R258, R265-R267). -/

namespace Sys2Proof.Machine

/-! ### Shapes and the order of a nest (R244, R247, R249) -/

/-- K of a step. -/
def stepK (at_ : Tag) : Nat := match at_ with | .fp16 | .bf16 => 32 | .e4m3 | .e5m2 => 64 | _ => 8
/-- N of a step. -/
def stepN (at_ : Tag) : Nat := if at_ = .fp64 then 32 else 64
/-- The C format of a step. -/
def stepC (at_ : Tag) : Tag := if at_ = .fp64 then .fp64 else .fp32

/-- An 8-bit field as a signed number. -/
def int8 (x : Nat) : Int := if 2 ^ 7 ≤ x then (x : Int) - 2 ^ 8 else x

/-- Iterations of a level word. -/
def levCount (w : Word) : Nat := bitsOf 63 56 w + 1

/-- The counters of step `s`, level 0 innermost. -/
def nestIdx : List Word → Nat → List (Word × Nat)
  | [], _ => []
  | w :: rest, s => (w, s % levCount w) :: nestIdx rest (s / levCount w)

/-- What a step names: A slot, B slot, weight unit, exact. -/
structure StepPos where
  a : Int
  b : Int
  w : Int
  deriving DecidableEq, Repr

/-- The operands of step `s` of a nest (R249). -/
def nestPos (g : Word) (lev : List Word) (s : Nat) : StepPos :=
  let ix := nestIdx (lev.take (gLevels g)) s
  let sum (f : Word → Int) : Int := (ix.map (fun p => (p.2 : Int) * f p.1)).sum
  ⟨gAbase g + sum (fun w => int8 (bitsOf 55 48 w)), gBbase g + sum (fun w => int8 (bitsOf 47 40 w)),
   gWbase g + sum (fun w => int16 (bitsOf 39 24 w))⟩

/-- The steps of a nest. -/
def nestSteps (g : Word) (lev : List Word) : Nat := ((lev.take (gLevels g)).map levCount).foldl (· * ·) 1

/-- The global word of a command of steps, its accumulator, the number of its steps and the operands of the next. -/
structure StepCmd where
  glob : Word
  acc : Nat
  steps : Nat
  pos : StepPos
  deriving DecidableEq, Repr

/-- The steps of MGO and MSTEP (R261, R262). -/
def stepCmd (c : Cmd) : Option StepCmd :=
  match c.kind with
  | .mgo a g lev => some ⟨g, a, nestSteps g lev, nestPos g lev c.next⟩
  | .mstep a g sa sb => some ⟨g, a, 1, ⟨sa, sb, gWbase g⟩⟩
  | _ => none

/-! ### Weight blocks (R256, R257) -/

/-- Units of a block. -/
def blockUnits (src k : Nat) : Nat :=
  if src = 1 then (if k = 32 then 3 else 6) else (if k = 32 then 9 else 10)

/-- The bytes of a block. -/
def blockBytes (x : CoreState) (unit src k : Nat) : List Byte := x.wbuf.readBytes (256 * unit) (256 * blockUnits src k)

/-- A byte of a block as a number. -/
def byteAt (bs : List Byte) (n : Nat) : Nat := (bs.getD n 0).toNat

/-- The positions of group `u` of a 2:4 block: p0 and p1. -/
def groupPos (bs : List Byte) (k w u : Nat) : Nat × Nat :=
  let b := byteAt bs (64 * (k / 4) * 2 * w + u / 2)
  let n := if u % 2 = 0 then b % 16 else b / 16
  (n % 4, n / 4 % 4)

/-- Element B(i, j) of a block in the format of BTAG, with the flags of its decoding. -/
def blockElem (bs : List Byte) (src k : Nat) (bt : Tag) (i j : Nat) : FRes :=
  if src = 1 then
    let u := j * (k / 8) + i / 8
    lc8Elem bt .rne 0 (byteAt bs (2 * (64 * (k / 8)) + u)) (byteAt bs (2 * u) + 256 * byteAt bs (2 * u + 1)) (i % 8)
  else
    let w := tagWidth bt / 8
    let u := j * (k / 4) + i / 4
    let p := groupPos bs k w u
    if i % 4 = p.1 then (leNat ((bs.drop (2 * u * w)).take w), 0)
    else if i % 4 = p.2 then (leNat ((bs.drop ((2 * u + 1) * w)).take w), 0)
    else (0, 0)

/-- The first illegal group of a 2:4 block with its reason (R257, R258). -/
def badGroup (bs : List Byte) (k w : Nat) : Option (Nat × Nat) :=
  (List.range (64 * (k / 4))).findSome? (fun u =>
    let p := groupPos bs k w u
    if p.1 = p.2 then some (u, 7) else if p.2 < p.1 then some (u, 8) else none)

/-! ### The checks of a step (R251, R258, R304, R306) -/

/-- The slots a step reads. -/
def stepSlots (c : StepCmd) : List Int := if gBsrc c.glob = 0 then [c.pos.a, c.pos.b] else [c.pos.a]

/-- A slot number in range. -/
def slotIn (n : Int) : Bool := 0 ≤ n && n ≤ 127

/-- Whether a step waits on an operand slot. -/
def stepWaits (x : CoreState) (c : StepCmd) : Bool :=
  (stepSlots c).all slotIn && (stepSlots c).any (fun n =>
    let k := n.toNat
    !x.gated (k * slotSize) && ((x.tile k).st == .filling || (x.tile k).st == .draining || x.slotBlocked k))

/-- The reason a step fails for, with the failing group (R258). Log 54, DEDUCED. -/
def stepReason (x : CoreState) (c : StepCmd) : Option (Nat × Nat) :=
  let g := c.glob
  let k := stepK (gAtag g)
  let l := stepSlots c
  let region (n : Nat) : Bool := x.anyFwEddy && x.inLent (n * slotSize)
  if !l.all slotIn then some (1, 0)
  else if l.any (fun n => x.gated (n.toNat * slotSize) || (x.tile n.toNat).st == .empty || region n.toNat) then some (2, 0)
  else if (x.tile c.pos.a.toNat).tag != gAtag g || (gBsrc g == 0 && (x.tile c.pos.b.toNat).tag != gBtag g) then some (3, 0)
  else if (x.acc c.acc).work.fp64 != (gAtag g == .fp64) then some (4, 0)
  else if gBsrc g = 0 then none
  else if c.pos.w < 0 ∨ 512 < c.pos.w + blockUnits (gBsrc g) k then some (5, 0)
  else if (List.range (blockUnits (gBsrc g) k)).any (fun i => !x.wloaded.getLsbD (c.pos.w.toNat + i)) then some (6, 0)
  else if gBsrc g = 2 then
    (badGroup (blockBytes x c.pos.w.toNat 2 k) k (tagWidth (gBtag g) / 8)).map (fun p => (p.2, p.1))
  else none

/-- The cause of a reason of R258. -/
def seqCause (reason : Nat) : Nat :=
  if reason = 5 ∨ reason = 6 then 0x33 else if reason = 7 ∨ reason = 8 then 0x32 else 0x31

/-- The status word of R258. Log 54, DEDUCED. -/
def seqStatus (p : StepPos) (reason group : Nat) : Word :=
  wd ((p.w % 512).toNat * 2 ^ 40 + (p.b % 128).toNat * 2 ^ 32 + (p.a % 128).toNat * 2 ^ 24 + group * 256 + reason)

/-! ### The arithmetic of a step (R32, R253) -/

/-- An operand of a step; subnormals of FP32 and FP64 are read as zero (R32). -/
def matVal (t : Tag) (x : Nat) : FVal :=
  let f := fmtOf t
  if (t = .fp32 ∨ t = .fp64) ∧ x / 2 ^ f.mw % 2 ^ f.ew = 0 then .fin (x / 2 ^ (f.ew + f.mw) % 2 == 1) 0 f.qmin
  else fdec f x

/-- One element of C after a step, from its old bits and the pairs of A and B elements (R253). -/
def matElem (ct : Tag) (c : Nat) (ab : List (FVal × FVal)) : FRes :=
  let f := fmtOf ct
  let cv := matVal ct c
  let ps := ab.map (fun p => prodOr p.1 p.2)
  let bad := ab.any (fun p => p.1.isNan || p.2.isNan) || ps.any (fun p => match p with | .invalid => true | _ => false)
  if bad || cv.isNan then (f.nan, if bad then fIV else 0)
  else
    let t := ps.filter (fun p => match p with | .fin x => x.m != 0 | _ => true)
    if t.isEmpty then (c, 0)
    else
      let all := asP cv :: t
      let pos := all.any (fun p => match p with | .inf n => !n | _ => false)
      let ng := all.any (fun p => match p with | .inf n => n | _ => false)
      if pos && ng then (f.nan, fIV)
      else if pos || ng then (f.signBit ng + f.infBits, 0)
      else
        let s := sumTerms (all.filterMap (fun p => match p with | .fin x => some x | _ => none))
        if s.1 = 0 then (0, 0)
        else
          let r := roundMag f .rne 0 (decide (s.1 < 0)) s.1.natAbs s.2 false
          if r.1 % 2 ^ (f.ew + f.mw) < 2 ^ f.mw then (f.signBit (decide (s.1 < 0)), fUF ||| fPE) else r

/-- Cutting a list into `n` rows of `k`. -/
def rowsOf (k : Nat) : Nat → List α → List (List α)
  | 0, _ => []
  | n + 1, l => l.take k :: rowsOf k n (l.drop k)

/-- The rows of A. -/
def stepA (x : CoreState) (c : StepCmd) : List (List FVal) :=
  let t := gAtag c.glob
  let w := tagWidth t / 8
  let k := stepK t
  rowsOf k 64 ((elems w (64 * k) (x.spad.readBytes (c.pos.a.toNat * slotSize) (64 * k * w))).map (matVal t))

/-- The columns of B, with the flags of decoding a weight block. -/
def stepB (x : CoreState) (c : StepCmd) : List (List FVal) × Flags :=
  let t := gBtag c.glob
  let w := tagWidth t / 8
  let k := stepK (gAtag c.glob)
  let n := stepN (gAtag c.glob)
  if gBsrc c.glob = 0 then
    let rows := rowsOf n k ((elems w (k * n) (x.spad.readBytes (c.pos.b.toNat * slotSize) (k * n * w))).map (matVal t))
    ((List.range n).map (fun j => rows.map (fun r => r.getD j (.nan false))), 0)
  else
    let bs := blockBytes x c.pos.w.toNat (gBsrc c.glob) k
    let cols := (List.range n).map (fun j => (List.range k).map (fun i => blockElem bs (gBsrc c.glob) k t i j))
    (cols.map (fun l => l.map (fun r => matVal t r.1)), cols.foldl (fun a l => l.foldl (fun a r => a ||| r.2) a) 0)

/-- How a step is treated (R254). -/
inductive Treat where
  | skip | ident | full
  deriving DecidableEq, Repr

/-- The treatment of a step, from the snapshot of its slots (R251, R254). -/
def stepTreat (x : CoreState) (c : StepCmd) : Treat :=
  let a := x.tile c.pos.a.toNat
  let b := x.tile c.pos.b.toNat
  if gBsrc c.glob ≠ 0 then .full
  else if (a.cls == .zero && !b.nf) || (b.cls == .zero && !a.nf) then .skip
  else if half16 (gAtag c.glob) && b.cls == .ident && !a.nf then .ident
  else .full

/-- The actual charge of a step (R254): cycles times weight. Log 89, DESIGN CHOICE. -/
def treatCharge : Treat → Nat
  | .skip => 4
  | .ident => 16 * 12
  | .full => 64 * 36

/-- The new elements of a row of C. -/
def matRow (ct : Tag) (arow : List FVal) (cols : List (List FVal)) (crow : List Nat) : List FRes :=
  (crow.zip cols).map (fun p => matElem ct p.1 (arow.zip p.2))

/-- The rows of C after a step, with their flags. -/
def stepRows (x : CoreState) (c : StepCmd) (crows : List (List Nat)) : List (List FRes) × Flags :=
  let ct := stepC (gAtag c.glob)
  match stepTreat x c with
  | .skip => (crows.map (fun r => r.map (fun e => (e, 0))), 0)
  | .ident =>
    let one := fdec (fmtOf (gBtag c.glob)) (oneOf (gBtag c.glob))
    ((crows.zip (stepA x c)).map (fun p =>
      (p.1.zipIdx).map (fun e =>
        if e.2 < 32 then matElem ct e.1 [(p.2.getD e.2 (.nan false), one)] else (e.1, 0))), 0)
  | .full =>
    let b := stepB x c
    ((crows.zip (stepA x c)).map (fun p => matRow ct p.2 b.1 p.1), b.2)

/-- A step: the working bank and the flags it raises. -/
def CoreState.doStep (x : CoreState) (c : StepCmd) : CoreState × Flags :=
  let w := tagWidth (stepC (gAtag c.glob)) / 8
  let n := stepN (gAtag c.glob)
  let crows := rowsOf n 64 (elems w (64 * n) ((x.acc c.acc).work.mem.readBytes 0 (64 * n * w)))
  let r := stepRows x c crows
  let bytes := r.1.flatMap (fun l => l.flatMap (fun e => leBytes w e.1))
  (x.updAcc c.acc (fun a => { a with work := { a.work with mem := Mem.cellsOf 0 bytes } }),
   r.1.foldl (fun f l => l.foldl (fun f e => f ||| e.2) f) r.2)

/-! ### The sequencer (R250, R258) -/

/-- The sequencer command at the head of the queue. -/
def CoreState.seqHead (x : CoreState) : Option Cmd := (x.queue CmdKind.isSeq).head?

/-- A sequencer command that fails: its token takes the fault, and later commands are abandoned until the report
(R258). -/
def State.seqFail (s : State) (c : Cmd) (step : Nat) (reason : Nat) (p : StepPos) (group : Nat) : State :=
  let s := s.updMyCore (fun x => { x with abandon := true })
  s.endCmd s.cur.core c (some (c.fail step (seqCause reason) (seqStatus p reason group))) c.flags

/-- The position that names an MWLOAD's first unit. -/
def unitPos (d : Word) : StepPos := ⟨0, 0, d.toNat⟩

/-- The reason an MWLOAD fails for (R267). -/
def mwloadReason (x : CoreState) (d a b : Word) : Option Nat :=
  if b = 0 ∨ 512 < b.toNat ∨ 512 < d.toNat + b.toNat then some 5
  else if a.toNat % 256 ≠ 0 ∨ spadSize < a.toNat + 256 * b.toNat ∨
      (List.range b.toNat).any (fun i => x.gated (a.toNat + 256 * i)) then some 10
  else none

/-- Whether an MWLOAD's source lies in the lent region of a revocation (R304). -/
def mwloadWaits (x : CoreState) (a b : Word) : Bool :=
  (List.range b.toNat).any (fun i => x.ownerBlocked (a.toNat + 256 * i))

/-- Starting a sequencer command; MWLOAD reads its source now (R267). -/
def State.seqStart (s : State) (c : Cmd) : State :=
  let go (buf : List Byte) : State := s.updCmd s.cur.core c.id (fun c => { c with started := true, buf := buf })
  match c.kind with
  | .mwload d a b =>
    match mwloadReason s.myCore d a b with
    | some r => s.seqFail c 0 r (unitPos d) 0
    | none =>
      let s1 := s.updMyCore (fun x => x.touchRun a.toNat (256 * b.toNat) (s.eff s.cur.core))
      s1.updCmd s.cur.core c.id (fun c =>
        { c with started := true, buf := s.myCore.spad.readBytes a.toNat (256 * b.toNat) })
  | _ => go []

/-- SEQUENCER_COMMAND_START: the oldest command starts once its in-tokens are complete; one that inherits a fault does
not start, and one behind an unreported fault is abandoned (R250, R258, R274). -/
def execSequencerCommandStart (s : State) : Host.Outcome State Fault Refusal :=
  onCore (fun s =>
      match s.myCore.seqHead with
      | some c => c.ready && (match c.kind with | .mwload _ a b => !mwloadWaits s.myCore a b | _ => true)
      | none => false)
    (fun s =>
      match s.myCore.seqHead with
      | some c =>
        match c.inFault with
        | some f => s.endCmd s.cur.core c (some f.2) 0
        | none => if s.myCore.abandon then s.endCmd s.cur.core c (some (c.fail 0 0x31 9)) 0 else s.seqStart c
      | none => s) s

/-- The step command that runs. -/
def CoreState.runningStep (x : CoreState) : Option (Cmd × StepCmd) :=
  match x.seqHead with
  | some c => if c.started then (stepCmd c).map (fun p => (c, p)) else none
  | none => none

/-- The fetch of a step wakes the stripes of its operand slots (R242). -/
def CoreState.touchSlots (x : CoreState) (l : List Int) (t : Nat) : CoreState :=
  l.foldl (fun x n => x.touch (n.toNat * slotSize) t) x

/-- One step of the running command: its checks, then its arithmetic; the last step completes the command (R250-R258,
R277). -/
def State.matrixStep (s : State) (c : Cmd) (p : StepCmd) : State :=
  match stepReason s.myCore p with
  | some r => s.seqFail c c.next r.1 p.pos r.2
  | none =>
    let charge := treatCharge (stepTreat s.myCore p)
    let x := s.myCore.doStep p
    let s := (s.updMyCore (fun _ => x.1.touchSlots (stepSlots p) (s.eff s.cur.core))).addCharge s.cur.core charge
    let fl := c.flags ||| x.2
    if p.steps ≤ c.next + 1 then s.endCmd s.cur.core c none fl
    else s.updCmd s.cur.core c.id (fun c => { c with next := c.next + 1, flags := fl })

/-- MATRIX_STEP (R253). -/
def execMatrixStep (s : State) : Host.Outcome State Fault Refusal :=
  onCore (fun s => match s.myCore.runningStep with | some p => !stepWaits s.myCore p.2 | none => false)
    (fun s => match s.myCore.runningStep with | some p => s.matrixStep p.1 p.2 | none => s) s

/-- MZERO_COMPLETE (R266). -/
def execMzeroComplete (s : State) : Host.Outcome State Fault Refusal :=
  onCore (fun s => match s.myCore.seqHead with
      | some c => c.started && (match c.kind with | .mzero _ _ => true | _ => false) | none => false)
    (fun s =>
      match s.myCore.seqHead with
      | some c =>
        match c.kind with
        | .mzero a fp64 =>
          (s.updMyCore (fun x => x.updAcc a (fun y => { y with work := { fp64 := fp64 } }))).endCmd s.cur.core c none 0
        | _ => s
      | none => s) s

/-- Setting `n` loaded bits from unit `d` (R256). -/
def setLoaded (d n : Nat) (b : BitVec 512) : BitVec 512 := b ||| (BitVec.ofNat 512 (2 ^ n - 1) <<< d)

/-- MWLOAD_COMPLETE (R267). -/
def execMwloadComplete (s : State) : Host.Outcome State Fault Refusal :=
  onCore (fun s => match s.myCore.seqHead with
      | some c => c.started && (match c.kind with | .mwload _ _ _ => true | _ => false) | none => false)
    (fun s =>
      match s.myCore.seqHead with
      | some c =>
        match c.kind with
        | .mwload d _ b =>
          (s.updMyCore (fun x => { x with wbuf := x.wbuf.writeBytes (256 * d.toNat) c.buf,
                                          wloaded := setLoaded d.toNat b.toNat x.wloaded })).endCmd s.cur.core c none 0
        | _ => s
      | none => s) s

/-! ### Drains (R265) -/

/-- The drain at the head of the queue. -/
def CoreState.drainHead (x : CoreState) : Option Cmd := (x.queue CmdKind.isDrain).head?

/-- MDRAIN_START: one drain at a time, in issue order. -/
def execMdrainStart (s : State) : Host.Outcome State Fault Refusal :=
  onCore (fun s => match s.myCore.drainHead with | some c => c.ready | none => false)
    (fun s =>
      match s.myCore.drainHead with
      | some c =>
        match c.inFault with
        | some f => s.failFiller c f.2
        | none => s.updCmd s.cur.core c.id (fun c => { c with started := true })
      | none => s) s

/-- The elements an MDRAIN writes, with their flags. -/
def drainElems (b : Bank) (t : Tag) (part : Nat) : List FRes :=
  let src : Tag := if b.fp64 then .fp64 else .fp32
  let rows := if src = t then 16 else 32
  let w := tagWidth src / 8
  (elems w (rows * (256 / w)) (b.mem.readBytes (256 * (rows * part)) (256 * rows))).map (fun e =>
    if src = t then (e, 0) else cvtElem src t .rne 0 e)

/-- MDRAIN_COMPLETE: the slot is written whole and moves to READY; the flags of the rounding are the command's. -/
def execMdrainComplete (s : State) : Host.Outcome State Fault Refusal :=
  onCore (fun s => match s.myCore.drainHead with
      | some c => c.started && (match c.kind.fillSlot with | some n => !s.myCore.slotBlocked n | none => true)
      | none => false)
    (fun s =>
      match s.myCore.drainHead with
      | some c =>
        match c.kind with
        | .mdrain a t part n =>
          let es := drainElems (s.myCore.acc a).vis t part
          let bytes := es.flatMap (fun e => leBytes (tagWidth t / 8) e.1)
          let s := s.updMyCore (fun x =>
            (x.touch (n * slotSize) (s.eff s.cur.core)).complete c.lost n (classified (some bytes) bytes t))
          s.endCmd s.cur.core c none (es.foldl (fun f e => f ||| e.2) 0)
        | _ => s
      | none => s) s

end Sys2Proof.Machine
end

