-- ==== Sys2Proof/Machine/Views.lean ====
section
/-! DEFINITION. The text views of an image: the turns of a relocated route word for each cluster (R314, R415, R416). -/

namespace Sys2Proof.Machine

/-- A place on the mesh of a die: row 0 north, column 0 west (R311). -/
structure MeshPos where
  row : Int
  col : Int
  deriving DecidableEq, Repr

/-- The mesh position of a cluster of the package. -/
def meshPos (cluster : Nat) : MeshPos := ⟨(cluster % 48 / 8 : Nat), (cluster % 48 % 8 : Nat)⟩

/-- The cluster of a die at a position, none off the mesh. -/
def clusterAt (die : Nat) (p : MeshPos) : Option Nat :=
  if 0 ≤ p.row ∧ p.row < 6 ∧ 0 ≤ p.col ∧ p.col < 8 then some (die * 48 + p.row.toNat * 8 + p.col.toNat) else none

/-- Headings. -/
inductive Heading where
  | east | west | north | south
  deriving DecidableEq, Repr

/-- One hop. -/
def Heading.hop (h : Heading) (p : MeshPos) : MeshPos :=
  match h with
  | .east => { p with col := p.col + 1 }
  | .west => { p with col := p.col - 1 }
  | .north => { p with row := p.row - 1 }
  | .south => { p with row := p.row + 1 }

/-- A turn to the left. -/
def Heading.left : Heading → Heading
  | .east => .north | .north => .west | .west => .south | .south => .east
/-- A turn to the right. -/
def Heading.right : Heading → Heading
  | .east => .south | .south => .west | .west => .north | .north => .east

/-- The turn code from one heading to another: 01 straight, 10 left, 11 right (R79). -/
def turnCode (h g : Heading) : Nat := if g = h then 1 else if g = h.left then 2 else 3

/-- The turn codes of a list of hops from an initial heading. -/
def turnsOfHops : Heading → List Heading → List Nat
  | _, [] => []
  | h, g :: rest => turnCode h g :: turnsOfHops g rest

/-- The clusters a list of hops reaches; none where one leaves the mesh. -/
def reached (die : Nat) : MeshPos → List Heading → Option (List Nat)
  | _, [] => some []
  | p, h :: rest =>
    match clusterAt die (h.hop p), reached die (h.hop p) rest with
    | some k, some l => some (k :: l)
    | _, _ => none

/-- The initial heading of a route (R314). -/
def firstHeading (dcol : Int) : Heading := if 0 ≤ dcol then .east else .west

/-- The hops of the row-first path (R416). Log 66, DEDUCED. -/
def rowFirst (dcol drow : Int) : List Heading :=
  List.replicate dcol.natAbs (firstHeading dcol) ++ List.replicate drow.natAbs (if drow < 0 then .north else .south)
/-- The hops of the column-first path (R416). Log 66, DEDUCED. -/
def colFirst (dcol drow : Int) : List Heading :=
  List.replicate drow.natAbs (if drow < 0 then .north else .south) ++ List.replicate dcol.natAbs (firstHeading dcol)

/-- Whether a path stays on the mesh and enters no retired router (R416). -/
def State.pathOk (s : State) (cluster : Nat) (hops : List Heading) : Bool :=
  match reached (cluster / 48) (meshPos cluster) hops with
  | some l => l.all (fun k => !(s.cluster k).routerRetired)
  | none => false

/-- The hops the loader chooses for a route and a cluster, none where there is no path (R416). Log 66, DEDUCED. -/
def State.routeHops (s : State) (cluster : Nat) (dcol drow : Int) : Option (List Heading) :=
  if dcol = 0 ∧ drow = 0 then some []
  else if (s.cluster cluster).routerRetired then none
  else if s.pathOk cluster (rowFirst dcol drow) then some (rowFirst dcol drow)
  else if s.pathOk cluster (colFirst dcol drow) then some (colFirst dcol drow)
  else none

/-- The turns of a route, turn 0 lowest. -/
def packTurns (l : List Nat) : Nat := joinNat 2 l

/-- Whether a cluster has a view of an image (R416). -/
def State.hasView (s : State) (img : Image) (cluster : Nat) : Bool :=
  img.routes.all (fun r => r.uses.isEmpty || (s.routeHops cluster r.dcol r.drow).isSome)

/-- A route word with the turns of a cluster. -/
def State.routeWordFor (s : State) (cluster : Nat) (r : RouteEnt) (w : Word) : Word :=
  match s.routeHops cluster r.dcol r.drow with
  | some hops => (w &&& 0xFFF0000000000000#64) ||| wd (packTurns (turnsOfHops (firstHeading r.dcol) hops))
  | none => w

/-- The words of an overlay in the view of a cluster (R415). -/
def State.viewWords (s : State) (img : Image) (cluster : Nat) (o : Overlay) : List Word :=
  o.words.zipIdx.map (fun p =>
    match img.routes.find? (fun r => r.uses.any (fun u => u.1 == o.num && u.2 == o.off + 8 * p.2)) with
    | some r => s.routeWordFor cluster r p.1
    | none => p.1)

/-- The bytes of words. -/
def wordBytes (l : List Word) : List Byte := l.flatMap (fun w => leBytes 8 w.toNat)

end Sys2Proof.Machine
end

