-- ==== Sys2Proof/Machine/EvCopy.lean ====
section
/-! DEFINITION. The copy port and the block-transfer engines after retirement: chunks with their translations, faults and
budgets, overlays, completion records (R282-R286, R290-R292, R346-R354, R366, R367). -/

namespace Sys2Proof.Machine

/-! ### Places of bytes -/

/-- Where a run of bytes of a copy lies: a scratchpad (core and offset), physical memory, nowhere (the reason of R286),
or a page that is migrating (R348). -/
inductive Side where
  | spad (core off : Nat)
  | phys (pa : Nat)
  | fail (reason : Nat)
  | wait
  deriving DecidableEq, Repr

/-- What a copy works for: its core, its task, whether it is a DCPY, and the translations under lease (R347). -/
structure Port where
  core : Nat
  task : Option Task
  dcpy : Bool
  leases : List (Nat × Word)

/-- The port of a command. -/
def State.portOf (s : State) (c : Cmd) : Port := ⟨s.cur.core, s.taskOf s.cur.core c.ctx, c.kind.isDcpy, c.leases⟩

/-- Cutting a run at page boundaries; `k` bounds the pieces. -/
def pieces : Nat → Word → Nat → List (Word × Nat)
  | 0, _, _ => []
  | k + 1, va, n =>
    if n = 0 then []
    else
      let m := min n (4096 - va.toNat % 4096)
      (va, m) :: pieces k (va + wd m) (n - m)

/-- The pieces of a run. -/
def piecesOf (va : Word) (n : Nat) : List (Word × Nat) := pieces (n / 4096 + 2) va n

/-- The place of a translated address: under lease, or as translated now. -/
def State.mappedSide (s : State) (p : Port) (va : Word) (wr : Bool) : Side :=
  match p.leases.find? (fun l => l.1 == va.toNat / 4096) with
  | some l => .phys (l.2.toNat + va.toNat % 4096)
  | none =>
    match s.xlateFull p.core p.task va.toNat wr with
    | .ok pa => .phys pa
    | .noTranslation => .fail (if wr then 2 else 1)
    | .noPermission => .fail 3
    | .migrating => .wait

/-- The place of a piece before the checks of the place itself. -/
def State.rawSide (s : State) (p : Port) (va : Word) (wr : Bool) : Side :=
  match s.vtarget p.core va.toNat with
  | .own o => .spad p.core o
  | .mapped => s.mappedSide p va wr
  | .bad =>
    match globalSpad s va.toNat with
    | some c => if p.dcpy then .spad c.1 c.2 else .fail 4
    | none => .fail 4

/-- The place of a piece of `n` bytes: a refusal of another core, a lent region, a gated stripe, a port that is down
(R243, R286, R304, R306, R312, R444). -/
def State.side (s : State) (p : Port) (wr : Bool) (pc : Word × Nat) : Side :=
  match s.rawSide p pc.1 wr with
  | .spad c o =>
    let x := s.core c
    if c ≠ p.core ∧ !x.admits (p.task.map (·.num)) o pc.2 then .fail 3
    else if c = p.core ∧ x.anyFwEddy ∧ x.inLent o then .fail 3
    else if x.gated o then .fail 4
    else if c = p.core ∧ x.ownerBlocked o then .wait
    else .spad c o
  | .phys pa => if wr && s.portDown pa then .fail 6 else .phys pa
  | r => r

/-- Whether a run crosses the boundary of the scratchpad: part in the own one, part translated (R286). -/
def State.crosses (s : State) (core : Nat) (ps : List (Word × Nat)) : Bool :=
  ps.any (fun p => match s.vtarget core p.1.toNat with | .own _ => true | _ => false) &&
  ps.any (fun p => match s.vtarget core p.1.toNat with | .own _ => false | _ => true)

/-- The lowest reason of a list of places. Log 54, DEDUCED. -/
def lowReason (l : List Side) : Option Nat :=
  l.foldl (fun r x => match x, r with | .fail k, some j => some (min k j) | .fail k, none => some k | _, r => r) none

/-- Whether a byte of a place is poisoned. -/
def State.sidePoison (s : State) (x : Side) (n : Nat) : List Bool :=
  match x with
  | .spad c o => (List.range n).map (fun i => s.memPoison c (.spad (o + i)))
  | .phys p => (List.range n).map (fun i => s.memPoison 0 (.phys (p + i)))
  | _ => List.replicate n false

/-- The bytes of a place. -/
def State.sideBytes (s : State) (x : Side) (n : Nat) : List Byte :=
  match x with
  | .spad c o => (s.core c).spad.readBytes o n
  | .phys p => s.phys.mem.readBytes p n
  | _ => List.replicate n 0

/-- Writing a run of physical memory (R355, R443, R444). -/
def State.physRun (s : State) (pa : Nat) (bs : List Byte) : State :=
  if s.portDown pa then s
  else
    { s with phys := { s.phys with mem := s.phys.mem.writeBytes pa bs, poison := clearRows s.phys.poison pa bs.length 64,
                                   dirty := s.dirtyRun pa bs.length } }

/-- Writing a run at a place; `fill` gives, for a filler, the slots that were reclaimed under it, and its writes to any other
leave the entry alone (R225, R227, R228, R285). -/
def State.sideWrite (s : State) (fill : Option (List Nat)) (x : Side) (bs : List Byte) : State :=
  match x with
  | .spad c o =>
    s.updCore c (fun y => match fill with
      | some lost => (y.touch o (s.eff c)).fillAt lost o bs
      | none => (y.touch o (s.eff c)).spadWrite o bs)
  | .phys p => s.physRun p bs
  | _ => s

/-- Marking the line or row of byte `i` of a place as poisoned (R354). -/
def State.sideSpoil (s : State) (x : Side) (i : Nat) : State :=
  match x with
  | .spad c o => s.updCore c (fun y => { y with spadPoison := setInsert ((o + i) / 32) y.spadPoison })
  | .phys p => { s with phys := { s.phys with poison := setInsert ((p + i) / 64) s.phys.poison } }
  | _ => s

/-- A number for each byte of a place: its memory and its address. -/
def sideCells (x : Side) (n : Nat) : List (Nat × Nat) :=
  match x with
  | .spad c o => (List.range n).map (fun i => (c + 1, o + i))
  | .phys p => (List.range n).map (fun i => (0, p + i))
  | _ => (List.range n).map (fun i => (nCores + 1, i))

/-- Whether two places share bytes. -/
def meet (x : Side) (n : Nat) (y : Side) (m : Nat) : Bool :=
  match x, y with
  | .spad c o, .spad d q => c == d && decide (o < q + m) && decide (q < o + n)
  | .phys p, .phys q => decide (p < q + m) && decide (q < p + n)
  | _, _ => false

/-- The data of a copy in byte order: a source byte that an earlier byte of the copy wrote reads as written (R284).
`done` holds the cells written, latest first. -/
def flowData : List ((Nat × Nat) × (Nat × Nat) × Byte) → List ((Nat × Nat) × Byte) → List Byte
  | [], _ => []
  | (d, c, b) :: rest, done =>
    let v := match done.find? (fun w => w.1 == c) with | some w => w.2 | none => b
    v :: flowData rest ((d, v) :: done)

/-! ### Chunks (R284) -/

/-- A chunk: destination, source and length. -/
structure Chunk where
  dst : Word
  src : Word
  len : Nat
  deriving DecidableEq, Repr

/-- The number of chunks of a CPY or a DCPY of `n` bytes. -/
def runChunks (n : Nat) : Nat := (n + 4095) / 4096
/-- Chunk `i` of a CPY or a DCPY. -/
def runChunk (dst src : Word) (n i : Nat) : Chunk := ⟨dst + wd (4096 * i), src + wd (4096 * i), min 4096 (n - 4096 * i)⟩
/-- Row `i` of a CPY2D. -/
def rowChunk (dst src shape : Word) (i : Nat) : Chunk :=
  ⟨dst + wdi (shapeD shape * i), src + wdi (shapeS shape * i), shapeLen shape⟩

/-- The chunks of a command. -/
def Cmd.chunks (c : Cmd) : Nat :=
  match c.kind with
  | .cpy two _ _ n _ _ => if two then (if shapeLen n = 0 then 0 else shapeRows n) else runChunks n.toNat
  | .dcpy _ _ n _ _ => runChunks n.toNat
  | _ => 0
/-- Chunk `i` of a command. -/
def Cmd.chunk (c : Cmd) (i : Nat) : Chunk :=
  match c.kind with
  | .cpy two d s n _ _ => if two then rowChunk d s n i else runChunk d s n.toNat i
  | .dcpy d s n _ _ => runChunk d s n.toNat i
  | _ => ⟨0, 0, 0⟩
/-- The bytes of the chunks before chunk `i`. -/
def Cmd.before (c : Cmd) (i : Nat) : Nat :=
  match c.kind with
  | .cpy true _ _ n _ _ => shapeLen n * i
  | _ => 4096 * i
/-- A length above 2^32 (R286 reason 0x05). -/
def Cmd.tooLong (c : Cmd) : Bool :=
  match c.kind with
  | .cpy false _ _ n _ _ => decide (2 ^ 32 < n.toNat)
  | .dcpy _ _ n _ _ => decide (2 ^ 32 < n.toNat)
  | _ => false
/-- Whether a command is a tile fill (R285). -/
def Cmd.fills (c : Cmd) : Bool := match c.kind with | .cpy _ _ _ _ k _ => k == 1 | _ => false

/-- How a command writes: as a filler, with the slots reclaimed under it, or as any other agent (R225, R285). -/
def Cmd.fillMode (c : Cmd) : Option (List Nat) := if c.fills then some c.lost else none

/-- The rest of a chunk from byte `n`. -/
def Chunk.rest (k : Chunk) (n : Nat) : Chunk := ⟨k.dst + wd n, k.src + wd n, k.len - n⟩

/-- The places of the two sides of a chunk. -/
structure ChunkSides where
  dst : List (Side × Nat)
  src : List (Side × Nat)

/-- Translating a chunk (R347). -/
def State.chunkSides (s : State) (p : Port) (k : Chunk) : ChunkSides :=
  ⟨(piecesOf k.dst k.len).map (fun x => (s.side p true x, x.2)), (piecesOf k.src k.len).map (fun x => (s.side p false x, x.2))⟩

/-- The reason a chunk fails for, from its translations (R286). -/
def State.chunkReason (s : State) (p : Port) (k : Chunk) (x : ChunkSides) : Option Nat :=
  let cross := s.crosses p.core (piecesOf k.dst k.len) || s.crosses p.core (piecesOf k.src k.len)
  lowReason ((x.src ++ x.dst).map (·.1) ++ (if cross then [.fail 4] else []))

/-- Whether a chunk waits on a page or a region. -/
def ChunkSides.waits (x : ChunkSides) : Bool := (x.src ++ x.dst).any (fun y => y.1 == .wait)

/-- Whether any source byte of a chunk is poisoned, byte by byte. -/
def State.chunkPoison (s : State) (x : ChunkSides) : List Bool := x.src.flatMap (fun y => s.sidePoison y.1 y.2)

/-- Writing data at places in order. -/
def State.writeSides (fill : Option (List Nat)) : List (Side × Nat) → List Byte → State → State
  | [], _, s => s
  | (x, n) :: rest, bs, s => State.writeSides fill rest (bs.drop n) (s.sideWrite fill x (bs.take n))

/-- The first `n` bytes of places. -/
def takeSides : Nat → List (Side × Nat) → List (Side × Nat)
  | _, [] => []
  | n, (x, m) :: rest => if n ≤ m then (if n = 0 then [] else [(x, n)]) else (x, m) :: takeSides (n - m) rest

/-- The data of a chunk (R284). -/
def State.chunkData (s : State) (x : ChunkSides) : List Byte :=
  let bs := x.src.flatMap (fun y => s.sideBytes y.1 y.2)
  if x.dst.any (fun d => x.src.any (fun c => meet d.1 d.2 c.1 c.2)) then
    let dc := x.dst.flatMap (fun y => sideCells y.1 y.2)
    let sc := x.src.flatMap (fun y => sideCells y.1 y.2)
    flowData (dc.zip (sc.zip bs)) []
  else bs

/-- The place of byte `i` of a list of places. -/
def sideAt : Nat → List (Side × Nat) → Option (Side × Nat)
  | _, [] => none
  | i, (x, n) :: rest => if i < n then some (x, i) else sideAt (i - n) rest

/-- Reading places of a copy wakes their stripes (R242). -/
def State.touchSides (s : State) (l : List (Side × Nat)) : State :=
  l.foldl (fun s y => match y.1 with
    | .spad c o => s.updCore c (fun x => x.touchRun o y.2 (s.eff c))
    | _ => s) s

/-- Poisoning the destination of every bad byte (R354). Log 57, DEDUCED. -/
def State.spoilBad (s : State) (x : ChunkSides) (bad : List Bool) : State :=
  bad.zipIdx.foldl (fun s b =>
    if b.1 then (match sideAt b.2 x.dst with | some y => s.sideSpoil y.1 y.2 | none => s) else s) s

/-- Leaving the destination bytes of chunks `i` to the last undefined: free values wherever the bytes exist, by partial
writes for any copy but a tile fill (R227, R286). Log 57, DEDUCED. Log 69, DEDUCED. -/
def State.freeRest (c : Cmd) : Nat → Nat → State → State
  | 0, _, s => s
  | n + 1, i, s =>
    let k := c.chunk i
    let x := s.chunkSides (s.portOf { c with leases := [] }) k
    let bs := (List.range k.len).map (fun j => Config.freeByte (s.freeCount + j))
    State.freeRest c n (i + 1) { State.writeSides c.fillMode x.dst bs s with freeCount := s.freeCount + k.len }

/-! ### Ending a copy -/

/-- The status word of R286. -/
def copyStatus (done reason : Nat) : Word := wd (done % 2 ^ 32 * 2 ^ 32 + reason * 256)
/-- The cause of a reason of R286. -/
def copyCause (reason : Nat) : Nat := if reason = 6 then 0x35 else if 7 ≤ reason then 0x36 else 0x30

/-- What a slot that a copy covers becomes where the copy fails (R285). -/
def uncover (e : TileEnt) : TileEnt := if e.st == .filling then failFill e else { e with st := .ready }

/-- The slots a command covers. -/
def State.covered (s : State) (c : Cmd) : List Nat :=
  match c.kind with | .cpy two d b n k _ => coveredSlots s two d b n k | _ => []

/-- Ending a copy-port command with a fault (R285). Log 57, DEDUCED. -/
def State.failCopy (s : State) (c : Cmd) (r : FaultRec) : State :=
  let s := s.updMyCore (fun x => (s.covered c).foldl (fun x n => x.endTile c.lost n uncover) x)
  s.endCmd s.cur.core c (some r) 0

/-- The entry of a covered slot at completion; a fill computes CLASS and NF from the bytes it wrote to the slot (R225,
R228, R285). -/
def CoreState.finishSlot (x : CoreState) (lost : List Nat) (kind : Nat) (tag : Option Tag) (wrote : List Byte) (n : Nat) :
    CoreState :=
  match kind with
  | 1 =>
    x.endFiller lost n (classified (some wrote) wrote (tag.getD (x.tile n).tag))
  | 2 => x.endTile lost n (fun e => { e with st := .ready })
  | _ => x.endTile lost n (fun e => { e with tag := .undef, cls := .general, nf := false, st := .empty })

/-- A chunk that fails: bad source bytes poison their destination, the rest is undefined (R286, R354). -/
def State.failChunk (s : State) (c : Cmd) (x : ChunkSides) (bad : List Bool) : State :=
  let s := State.freeRest c (c.chunks - c.next) c.next s
  s.spoilBad x bad

/-! ### The copy port (R282, R366) -/

/-- Bytes the copy port may still write in this period. -/
def CoreState.copyRoom (x : CoreState) (n : Nat) : Nat := if x.copyBud = 0xFFFF then n else min n x.copyLeft
/-- Drawing bytes on the copy budget. Log 65, DEDUCED. -/
def CoreState.drawCopy (x : CoreState) (n : Nat) : CoreState :=
  if x.copyBud = 0xFFFF then x else { x with copyLeft := x.copyLeft - n }

/-- The command of the copy port that starts next: the first that has not started (R282). Log 48, DEDUCED. -/
def CoreState.copyNext (x : CoreState) : Option Cmd := (x.queue CmdKind.isCopy).find? (fun c => !c.started)

/-- The image a core runs. -/
def State.coreImage (s : State) (core : Nat) : Nat := match s.taskOf core 0 with | some t => t.image | none => 0

/-- Clearing RES in every record of a core whose range an overlay overlaps (R291). -/
def CoreState.dropResid (x : CoreState) (o : Overlay) : CoreState :=
  { x with resid := x.resid.map (fun r =>
      if runsMeet o.off (8 * o.words.length) r.off (8 * r.len) then { r with res := false } else r) }

/-- The bytes of an overlay's range left undefined: free values, but for words pinned for an eddy (R291, R306). -/
def State.freeCells (s : State) (o : Overlay) : List (Nat × Byte) :=
  let pins := s.pinned s.cur.core
  (List.range (8 * o.words.length)).filterMap (fun i =>
    if pins.any (fun p => decide (p.1 ≤ o.off + i) && decide (o.off + i < p.1 + p.2)) then none
    else some (o.off + i, Config.freeByte (s.freeCount + i)))

/-- Leaving the words of an overlay's range undefined, which no record shows as resident (R291). -/
def State.freeWords (s : State) (o : Overlay) : State :=
  { s.updMyCore (fun x => { x.dropResid o with ispad := x.ispad.writeCells (s.freeCells o) }) with
    freeCount := s.freeCount + 8 * o.words.length }

/-- A load that faults: the token takes the fault, no overlapping record keeps RES, and the words of the range are
undefined but for those pinned for an eddy (R286, R291, R306). Log 57, DEDUCED. -/
def State.failOvl (s : State) (c : Cmd) (o : Overlay) (reason : Nat) : State :=
  (s.freeWords o).endCmd s.cur.core c (some (c.fail 0 0x36 (copyStatus 0 reason))) 0

/-- Whether the image text of an overlay cannot be read: a line of its place in memory is poisoned (R286 reason 0x09, R354).
Where the firmware keeps an image's text is a free value. Log 57, DEDUCED. -/
def State.textBad (s : State) (img : Nat) (o : Overlay) : Bool :=
  s.phys.poison.any (fun l => runsMeet (64 * l) 64 (Config.imageText img o.num) (8 * o.words.length))

/-- Starting an OVL: a resident overlay completes at once, a bad number or a pinned range fails, else every record it
overlaps loses RES (R286, R291). -/
def State.startOvl (s : State) (c : Cmd) (n : Word) : State :=
  let core := s.cur.core
  match s.ovlFor core n with
  | none => s.endCmd core c (some (c.fail 0 0x36 (copyStatus 0 7))) 0
  | some o =>
    let len := 8 * o.words.length
    if s.myCore.resid.any (fun r => r.ovl == o.num && r.image == s.coreImage core && r.res) then s.endCmd core c none 0
    else if (s.pinned core).any (fun p => runsMeet o.off len p.1 p.2) then s.failOvl c o 8
    else (s.updMyCore (fun x => x.dropResid o)).updCmd core c.id (fun c => { c with started := true })

/-- Starting a copy-port command (R274, R282). -/
def State.startCopy (s : State) (c : Cmd) : State :=
  match c.inFault with
  | some f => s.failCopy c f.2
  | none =>
    match c.kind with
    | .ovl n => s.startOvl c n
    | _ =>
      if c.tooLong then s.failCopy c (c.fail 0 0x30 (copyStatus 0 5))
      else s.updCmd s.cur.core c.id (fun c => { c with started := true })

/-- COPY_COMMAND_START: in issue order, at most 4 at once (R282). -/
def execCopyCommandStart (s : State) : Host.Outcome State Fault Refusal :=
  onCore (fun s => match s.myCore.copyNext with
      | some c => c.deps.isEmpty && decide (((s.myCore.queue CmdKind.isCopy).filter (·.started)).length < 4)
      | none => false)
    (fun s => match s.myCore.copyNext with | some c => s.startCopy c | none => s) s

/-- The charge of copying bytes: 128 a cycle at 6 wu (R203, R212, R282). Log 89, DESIGN CHOICE. -/
def copyCharge (n : Nat) : Nat := (n + 127) / 128 * 6

/-- The leases that a chunk takes as it starts: its pages and their physical pages (R347). -/
def leasesOf (k : Chunk) (x : ChunkSides) : List (Nat × Word) :=
  let of (va : Word) (l : List (Side × Nat)) : List (Nat × Word) :=
    ((piecesOf va k.len).zip l).filterMap (fun p =>
      match p.2.1 with | .phys pa => some (p.1.1.toNat / 4096, wd (pa - p.1.1.toNat % 4096)) | _ => none)
  of k.dst x.dst ++ of k.src x.src

/-- Moving up to `room` bytes of the chunk in progress, or failing it; a chunk that pauses keeps the leases it took at its start
until its end (R347). `fail` ends the command. -/
def State.moveChunk (s : State) (c : Cmd) (room : Nat) (fail : State → Nat → State) : State × Nat :=
  let k := (c.chunk c.next).rest c.nextByte
  let x := s.chunkSides (s.portOf c) k
  match s.chunkReason (s.portOf c) k x with
  | some r => (fail (s.failChunk c x []) r, 0)
  | none =>
    let bad := s.chunkPoison x
    if bad.any id then (fail (s.failChunk c x bad) 6, 0)
    else
      let n := min room k.len
      let bs := (s.chunkData x).take n
      let s1 := State.writeSides c.fillMode (takeSides n x.dst) bs (s.touchSides x.src)
      let whole := n == k.len
      (s1.updCmd s.cur.core c.id (fun c =>
        { c with next := if whole then c.next + 1 else c.next, nextByte := if whole then 0 else c.nextByte + n,
                 buf := if c.fills then c.buf ++ bs else c.buf,
                 leases := if whole then [] else if c.leases.isEmpty then leasesOf k x else c.leases }), n)

/-- The walks of a chunk (R344). -/
def State.walkChunk (s : State) (p : Port) (k : Chunk) : State :=
  let go (wr : Bool) (s : State) (x : Word × Nat) : State :=
    if s.isMapped p.core x.1 && (p.leases.all (fun l => l.1 != x.1.toNat / 4096)) then
      s.xlateFx p.core p.task x.1.toNat wr
    else s
  (piecesOf k.dst k.len).foldl (go true) ((piecesOf k.src k.len).foldl (go false) s)

/-- Whether the chunk in progress of a started command may go on. -/
def State.chunkDue (s : State) (c : Cmd) : Bool :=
  c.started && decide (c.next < c.chunks) &&
  !(s.chunkSides (s.portOf c) ((c.chunk c.next).rest c.nextByte)).waits

/-- The bytes of the overlay an OVL loads. -/
def State.ovlBytes (s : State) (n : Word) : Nat :=
  match s.ovlFor s.cur.core n with | some o => 8 * o.words.length | none => 0

/-- COPY_CHUNK_COMPLETE: the copy port moves the chunk in progress, as far as its budget allows; for an OVL it draws
its bytes, which are written at completion (R284, R286, R366, R367). -/
def execCopyChunkComplete (s : State) : Host.Outcome State Fault Refusal :=
  onCmd (fun s c =>
      match c.kind with
      | .ovl n => c.started && decide (c.nextByte < s.ovlBytes n) && decide (0 < s.myCore.copyRoom 1)
      | .cpy _ _ _ _ _ _ => s.chunkDue c && decide (0 < s.myCore.copyRoom 1)
      | _ => false)
    (fun s c =>
      match c.kind with
      | .ovl n =>
        let m := s.myCore.copyRoom (s.ovlBytes n - c.nextByte)
        ((s.updMyCore (fun x => x.drawCopy m)).updCmd s.cur.core c.id (fun c => { c with nextByte := c.nextByte + m })).addCharge
          s.cur.core (copyCharge m)
      | _ =>
        let k := (c.chunk c.next).rest c.nextByte
        let r := (s.walkChunk (s.portOf c) k).moveChunk c (s.myCore.copyRoom k.len) (fun s r =>
          s.failCopy c (c.fail c.next (copyCause r) (copyStatus (c.before c.next) r)))
        (r.1.updMyCore (fun x => x.drawCopy r.2)).addCharge s.cur.core (copyCharge r.2)) s

/-- COPY_COMMAND_COMPLETE: every chunk is written; covered slots move on and the token is DONE (R285). -/
def execCopyCommandComplete (s : State) : Host.Outcome State Fault Refusal :=
  onCmd (fun _ c => c.started && (match c.kind with | .cpy _ _ _ _ _ _ => decide (c.chunks ≤ c.next) | _ => false))
    (fun s c =>
      match c.kind with
      | .cpy _ _ _ _ k t =>
        (s.updMyCore (fun x => (s.covered c).zipIdx.foldl (fun x n =>
          x.finishSlot c.lost k t ((c.buf.drop (slotSize * n.2)).take slotSize) n.1) x)).endCmd s.cur.core c none 0
      | _ => s) s

/-- Loading an overlay's words and its residency record; planted breakpoints in its range are dropped (R290, R291,
R409). -/
def CoreState.load (x : CoreState) (img : Nat) (o : Overlay) (words : List Word) : CoreState :=
  let len := 8 * words.length
  { x with
    ispad := x.ispad.writeBytes o.off (wordBytes words)
    resid := x.resid.filter (fun r => r.ovl != o.num) ++ [⟨o.num, img, words.length, o.off, true⟩]
    displaced := x.displaced.filter (fun d => !runsMeet o.off len d.off 8) }

/-- The image of a core, as data. -/
def State.imageOfCore (s : State) (core : Nat) : Option Image := (s.taskOf core 0).bind (fun t => s.image t.image)

/-- OVL_COMPLETE (R291, R415). -/
def execOvlComplete (s : State) : Host.Outcome State Fault Refusal :=
  onCmd (fun s c => match c.kind with | .ovl n => c.started && decide (s.ovlBytes n ≤ c.nextByte) | _ => false)
    (fun s c =>
      match c.kind, s.imageOfCore s.cur.core with
      | .ovl n, some img =>
        match img.overlay n.toNat with
        | some o =>
          if s.textBad img.id o then s.failOvl c o 9
          else (s.updMyCore (fun x => x.load img.id o (s.viewWords img (clusterOf s.cur.core) o))).endCmd s.cur.core c none 0
        | none => s
      | _, _ => s) s

/-! ### DCPY (R349-R354, R366) -/

/-- The die whose budget a DCPY draws on: that of its engine. -/
def dcpyDie (c : Cmd) : Nat := if c.eng.1 = 192 then c.eng.2 / 48 else c.eng.1

/-- The budget of a command's partition on a die. -/
def State.dieBudget (s : State) (die : Nat) (task : Option Task) : Option DieBudget :=
  match task with
  | some t => (s.die die).budgets.find? (fun b => b.part == t.part)
  | none => none

/-- Bytes a DCPY may still write in this die period; the field maximum is no limit. -/
def State.dieRoom (s : State) (die : Nat) (task : Option Task) (n : Nat) : Nat :=
  match s.dieBudget die task with
  | some b => match b.copyBud with | some _ => min n b.copyLeft | none => n
  | none => n

/-- Drawing bytes on a die budget. -/
def State.drawDie (s : State) (die : Nat) (task : Option Task) (n : Nat) : State :=
  match task with
  | some t => s.updDie die (fun d => { d with budgets := d.budgets.map (fun b =>
      if b.part == t.part && b.copyBud.isSome then { b with copyLeft := b.copyLeft - n } else b) })
  | none => s

/-- Started commands on an engine, over the package. -/
def dcpyRunning (s : State) (e : Nat × Nat) : Nat :=
  (s.cores.map (fun p => (p.2.cmds.filter (fun c => c.kind.isDcpy && c.started && c.eng == e)).length)).sum

/-- DCPYs of one context with one PATH start in issue order (R349). -/
def dcpyFirst (x : CoreState) (c : Cmd) : Bool :=
  match (x.queue CmdKind.isDcpy).find? (fun d => d.ctx == c.ctx && !d.started && d.fault.isNone &&
      (match d.kind, c.kind with | .dcpy _ _ _ p _, .dcpy _ _ _ q _ => p == q | _, _ => false)) with
  | some d => d.id == c.id
  | none => false

/-- DCPY_COMMAND_START: at most 4 run on an engine; one that inherits a fault or is too long ends without copying
(R274, R286, R349, R350). -/
def execDcpyCommandStart (s : State) : Host.Outcome State Fault Refusal :=
  onCmd (fun s c =>
      c.kind.isDcpy && c.ready && c.fault.isNone && dcpyFirst s.myCore c && decide (dcpyRunning s c.eng < 4))
    (fun s c =>
      match c.inFault with
      | some f => s.updCmd s.cur.core c.id (fun m => { m with fault := some f.2, ended := true })
      | none =>
        if c.tooLong then
          s.updCmd s.cur.core c.id (fun m => { m with fault := some (c.fail 0 0x30 (copyStatus 0 5)), ended := true })
        else s.updCmd s.cur.core c.id (fun m => { m with started := true })) s

/-- DCPY_CHUNK_COMPLETE (R347, R350, R354, R366, R367). -/
def execDcpyChunkComplete (s : State) : Host.Outcome State Fault Refusal :=
  onCmd (fun s c => c.kind.isDcpy && !c.ended && s.chunkDue c &&
      decide (0 < s.dieRoom (dcpyDie c) (s.taskOf s.cur.core c.ctx) 1))
    (fun s c =>
      let t := s.taskOf s.cur.core c.ctx
      let d := dcpyDie c
      let k := (c.chunk c.next).rest c.nextByte
      let r := (s.walkChunk (s.portOf c) k).moveChunk c (s.dieRoom d t k.len) (fun s r =>
        s.updCmd s.cur.core c.id (fun c =>
          { c with ended := true, fault := some (c.fail c.next (copyCause r) (copyStatus (c.before c.next) r)) }))
      r.1.drawDie d t r.2) s

/-- The dwords of a completion record (R352). -/
def ringRecord (core : Nat) (c : Cmd) : List Word :=
  match c.kind with
  | .dcpy d b n _ _ =>
    let info := match c.fault with | some f => f.info1 | none => 0
    let done := if c.fault.isNone then n.toNat % 2 ^ 32 else if c.inFault.isSome then 0 else bitsOf 63 32 info
    let status := match c.fault with | some f => if f.cause = 0x35 then 2 else 1 | none => 0
    [wd (done * 2 ^ 32 + status * 2 ^ 16 + bitsOf 15 8 info * 256 + (tokCode c.tok).toNat), d, b,
     wd ((4 * core + c.ctx) % 2 ^ 14 * 2 ^ 36 + n.toNat % 2 ^ 33)]
  | _ => []

/-- The ring a DCPY completes into, with the address of its next record (R351, R352). -/
def State.ringOfCmd (s : State) (c : Cmd) : Option (Task × Ring × Word) :=
  match c.kind, s.taskOf s.cur.core c.ctx with
  | .dcpy _ _ _ _ (some n), some t =>
    (ringOf (some t) (dieOf s.cur.core) n).map (fun r => (t, r, r.base + wd (32 * (r.tail % 2 ^ r.log))))
  | _, _ => none

/-- Where a completion record goes. -/
def State.recordSides (s : State) (t : Task) (va : Word) : List (Side × Nat) :=
  (piecesOf va 32).map (fun y => (s.side ⟨s.cur.core, some t, true, []⟩ true y, y.2))

/-- Whether a completion record waits: its page is migrating (R348). -/
def State.recordWaits (s : State) (c : Cmd) : Bool :=
  match s.ringOfCmd c with
  | some (t, _, va) => (s.recordSides t va).any (fun y => y.1 == .wait)
  | none => false

/-- Writing a record at its place in the ring by a translated write, and moving TAIL past it (R344, R351, R352). Where the
ring's page is not mapped writable, no record is written and TAIL stays. Log 62, DEDUCED. -/
def State.writeRecord (s : State) (c : Cmd) : State :=
  match s.ringOfCmd c with
  | none => s
  | some (t, r, va) =>
    let x := s.recordSides t va
    let bad := x.any (fun y => match y.1 with | .fail _ => true | _ => false)
    let s := if s.isMapped s.cur.core va then s.xlateFx s.cur.core (some t) va.toNat true else s
    let s := State.writeSides none x (wordBytes (ringRecord s.cur.core c)) s
    s.updRing t.num r.die r.num (fun r =>
      { r with tail := if bad then r.tail else (r.tail + 1) % 2 ^ 32, out := r.out - 1 })

/-- DCPY_COMPLETE: the record, TAIL, then the token (R350, R352). -/
def execDcpyComplete (s : State) : Host.Outcome State Fault Refusal :=
  onCmd (fun s c => c.kind.isDcpy && (c.ended || (c.started && decide (c.chunks ≤ c.next))) && !s.recordWaits c)
    (fun s c => (s.writeRecord c).endCmd s.cur.core c c.fault 0) s

end Sys2Proof.Machine
end

