-- ==== Sys2Proof/Machine/EvNet.lean ====
section
/-! DEFINITION. The network interface after retirement: commands starting, requests at their targets, replies landing,
multicast landings and barrier objects (R312-R332, R434-R440). -/

namespace Sys2Proof.Machine

/-! ### Targets (R311, R322, R323) -/

/-- A place `n` bytes on. -/
def Place.on (p : Place) (n : Nat) : Place := { p with off := p.off + n }

/-- Index value of lane `j` (R323). -/
def laneIdx (idx : VWord) (j : Nat) : Nat := laneAt 32 idx j
/-- The index that names nothing (R323). -/
def sentinel : Nat := 0xFFFFFFFF

/-- The place of the element an index names (R322, R323); its offset may lie past the scratchpad. -/
def lanePlace (d : Word) (x : Nat) : Place :=
  let logn := bitsOf 30 28 d
  let sh := bitsOf 27 23 d
  let core := bitsOf 34 31 d + x / 2 ^ sh % 2 ^ logn
  let row := x / 2 ^ (sh + logn) * 2 ^ sh + x % 2 ^ sh
  ⟨bitsOf 54 43 d, bitsOf 42 41 d * 768 + bitsOf 40 35 d * 16 + core, bitsOf 18 0 d + row * 2 ^ descEsz d⟩

/-- The number of flits of a run. -/
def flits (n : Nat) : Nat := (n + 63) / 64

/-- The number of flits or lanes of a command. -/
def Cmd.nReqs (c : Cmd) : Nat :=
  match c.kind with
  | .rget _ _ n _ | .rput _ _ n _ _ => flits n
  | .rgath _ _ _ n _ | .rscat _ _ _ n _ => n
  | _ => 1

/-- Bytes of request `i` of a command. -/
def Cmd.reqBytes (c : Cmd) (i : Nat) : Nat :=
  match c.kind with
  | .rget _ _ n _ | .rput _ _ n _ _ => min 64 (n - 64 * i)
  | .rgath _ _ d _ _ | .rscat _ _ d _ _ => 2 ^ descEsz d
  | .ratom _ _ _ _ dword _ _ => if dword then 8 else 4
  | _ => 16

/-- The target of request `i` of a command of a core; none for a lane that names nothing. -/
def State.reqPlace (s : State) (core : Nat) (c : Cmd) (i : Nat) : Option Place :=
  match c.kind with
  | .rget _ a _ _ | .rput a _ _ _ _ => (s.place core a).map (·.on (64 * i))
  | .rgath _ idx d _ _ | .rscat _ idx d _ _ => if laneIdx idx i = sentinel then none else some (lanePlace d (laneIdx idx i))
  | .ratom a _ _ _ _ _ _ | .binit a _ | .barr a _ => s.place core a
  | _ => none

/-- The package a command's requests go to. -/
def State.cmdPkg (s : State) (core : Nat) (c : Cmd) : Nat :=
  match c.kind with
  | .rgath _ _ d _ _ | .rscat _ _ d _ _ => bitsOf 54 43 d
  | _ => match s.reqPlace core c 0 with | some p => p.pkg | none => s.boot.pkg

/-- The route of a command. -/
def Cmd.route (c : Cmd) : Option (BitVec 52) :=
  match c.kind with
  | .rget _ _ _ r | .rput _ _ _ _ r | .rgath _ _ _ _ r | .rscat _ _ _ _ r | .ratom _ _ _ _ _ _ r => r
  | _ => none

/-! ### Routes (R314) -/

/-- Turn codes of a route word, turn 0 first. -/
def turnsOf (t : BitVec 52) : List Nat := (List.range 26).map (fun i => bitsOf (2 * i + 1) (2 * i) t)

/-- The heading a turn code gives. -/
def Heading.turn (h : Heading) (code : Nat) : Heading := if code = 2 then h.left else if code = 3 then h.right else h

/-- Where a request ejects, none where a turn leads off the mesh (R314). -/
def followTurns : List Nat → Heading → MeshPos → Option MeshPos
  | [], _, p => some p
  | t :: rest, h, p =>
    if t = 0 then some p
    else
      let g := h.turn t
      let q := g.hop p
      if 0 ≤ q.row ∧ q.row < 6 ∧ 0 ≤ q.col ∧ q.col < 8 then followTurns rest g q else none

/-- Whether a routed request reaches the cluster its address names (R314). -/
def State.routed (s : State) (core : Nat) (r : BitVec 52) (p : Place) : Bool :=
  let a := meshPos (clusterOf core)
  let b := meshPos (clusterOf p.core)
  p.pkg == s.boot.pkg && dieOf p.core == dieOf core &&
    followTurns (turnsOf r) (firstHeading (b.col - a.col)) a == some b

/-! ### Writes of NI commands -/

/-- Whether bytes of a command's own core are dropped: they lie in a region that was reclaimed from its revoked eddy (R303). -/
def Cmd.drops (c : Cmd) (o : Nat) : Bool := c.drop.any (fun r => inRegion r.1 r.2 o)

/-- A write of a command at a scratchpad: a partial write that wakes the stripe, but for the bytes that are dropped (R227, R303,
R316, R319). -/
def State.niWrite (s : State) (home : Nat) (c : Cmd) (core off : Nat) (bs : List Byte) : State :=
  let t := s.eff core
  s.updCore core (fun x =>
    let x := (x.touch off t).touch (off + bs.length - 1) t
    if core = home ∧ c.drop ≠ [] then
      x.spadCells (((List.range bs.length).map (· + off)).zip bs |>.filter (fun b => !c.drops b.1))
    else x.spadWrite off bs)

/-- Marking the rows of a run as poisoned, but for those of a region that is dropped or gated (R318, R354). Log 69, DEDUCED. -/
def State.niSpoil (s : State) (home : Nat) (c : Cmd) (core off n : Nat) : State :=
  s.updCore core (fun x =>
    { x with spadPoison := (List.range n).foldl (fun l i =>
        let o := off + i
        if core == home && c.drops o || x.gated o then l else setInsert (o / 32) l) x.spadPoison })

/-! ### Ending a command (R318, R440) -/

/-- A request that failed. Log 47, DEDUCED. -/
def Req.bad (r : Req) : Bool := r.status != 0

/-- The core field of a place. -/
def targetOf (p : Option Place) : Nat := match p with | some p => p.core % 16 | none => 0

/-- Whether a command counts lanes. -/
def CmdKind.isLanes : CmdKind → Bool
  | .rgath .. | .rscat .. => true
  | _ => false
/-- Whether a command counts flits. -/
def CmdKind.isFlits : CmdKind → Bool
  | .rget .. | .rput .. => true
  | _ => false

/-- The status word (R318). -/
def niStatus (done lane target reason : Nat) : Word :=
  wd (done % 2 ^ 32 * 2 ^ 32 + lane % 256 * 2 ^ 24 + target % 16 * 2 ^ 20 + reason * 256)

/-- The record of a command whose request `i` is its first failure (R318). Log 47, DEDUCED. Log 72, DEDUCED. -/
def State.niRecord (s : State) (core : Nat) (c : Cmd) (i cause reason : Nat) : FaultRec :=
  let counts := c.kind.isLanes || c.kind.isFlits
  let done :=
    if c.kind.isLanes then (c.reqs.filter (fun r => r.landed && !r.bad)).length
    else if c.kind.isFlits then 64 * i else 0
  c.fail (if counts then i else 0) cause
    (niStatus done (if c.kind.isLanes then i else 0) (targetOf (s.reqPlace core c i)) reason)

/-- Ending a command all of whose requests have landed. Log 69, DEDUCED. -/
def State.endNi (s : State) (core : Nat) (c : Cmd) : State :=
  match c.reqs.find? Req.bad with
  | some r => s.endCmd core c (some (s.niRecord core c r.idx 0x26 r.status)) 0
  | none => s.endCmd core c none 0

/-- Where request `i` lands in the own scratchpad. -/
def Cmd.landing (c : Cmd) (i : Nat) : Option Nat :=
  match c.kind with
  | .rget d _ _ _ => some (d.toNat + 64 * i)
  | .rgath loc _ d _ _ => some (loc + i * 2 ^ descEsz d)
  | .ratom _ _ land _ _ _ _ => some land
  | _ => none

/-- The requests of a command that were sent, were not performed and would write at their target. -/
def Cmd.unperformed (c : Cmd) : List Req :=
  match c.kind with
  | .rput .. | .rscat .. | .ratom .. => c.reqs.filter (fun r => !r.arrived)
  | _ => []

/-- The requests that a command leaves behind may still be performed (R440). -/
def State.leaveStrays (s : State) (core : Nat) (c : Cmd) : State :=
  let l : List Stray := c.unperformed.map (fun r => { core := core, task := (s.ctx core c.ctx).task, cmd := c, req := r })
  { s with fab := { s.fab with strays := s.fab.strays ++ l } }

/-- Ending a command that cannot reach its package: reads land zeros for every request not acknowledged, an RATOM lands
nothing, and what was sent and not performed may still be performed later (R440). Log 50, DEDUCED. -/
def State.cutOff (s : State) (core : Nat) (c : Cmd) (reason : Nat) : State :=
  let open_ := (List.range c.nReqs).filter (fun i => (c.reqs.find? (fun r => r.idx == i && r.landed)).isNone)
  let first := ((List.range c.nReqs).find? (fun i =>
    (c.reqs.find? (fun r => r.idx == i && r.landed && !r.bad)).isNone)).getD 0
  let rec_ := s.niRecord core c first 0x27 reason
  let s := match c.kind with
    | .rget .. | .rgath .. => open_.foldl (fun (s : State) i =>
        match c.landing i with
        | some o => s.niWrite core c core o (List.replicate (c.reqBytes i) 0)
        | none => s) s
    | _ => s
  (s.leaveStrays core c).endCmd core c (some rec_) 0

/-! ### Starting (R316, R321-R324, R437) -/

/-- The links of the table entry of a package that are up and not retired (R437). -/
def State.usableLinks (s : State) (pkg : Nat) : List Nat :=
  match s.fab.routes.find? (fun r => r.1 == pkg) with
  | some r => r.2.filter (fun l => decide (l < 18) && s.fab.up.getLsbD l && !s.fab.retired.getLsbD l)
  | none => []

/-- The link a command picks (R437). -/
def State.pickLink (s : State) (core pkg : Nat) : Option Nat :=
  let l := s.usableLinks pkg
  l[Config.linkHash core pkg % l.length]?

/-- The first NI command of a context that has not started: the one that starts next (R316). -/
def CoreState.niNext (x : CoreState) (k : Nat) : Option Cmd :=
  (x.queue CmdKind.isNi).find? (fun c => c.ctx == k && !c.started)

/-- Request `i` of a starting command: an RPUT or RSCAT takes its bytes now; a lane that names nothing is answered at
once with zeros, one past the scratchpad with RANGE (R321, R323). -/
def State.newReq (s : State) (core : Nat) (c : Cmd) (link : Option Nat) (i : Nat) : Req :=
  let x := s.core core
  let n := c.reqBytes i
  let src := match c.kind with
    | .rput _ b _ _ _ => some (b.toNat + 64 * i)
    | .rscat loc _ _ _ _ => some (loc + n * i)
    | _ => none
  let r : Req := { idx := i, sentAt := s.master, link := link }
  let r := match src with
    | some o => { r with data := x.spad.readBytes o n, poison := x.spadBad o n }
    | none => r
  if !c.kind.isLanes then r
  else
    match s.reqPlace core c i with
    | none => { r with arrived := true, data := List.replicate n 0, poison := false }
    | some p =>
      if spadSize < p.off + n then { r with arrived := true, data := List.replicate n 0, status := 3, poison := false } else r

/-- The source run of a command that reads the own scratchpad as it starts. -/
def Cmd.sourceRun (c : Cmd) : Option (Nat × Nat) :=
  match c.kind with
  | .rput _ b n _ _ => some (b.toNat, n)
  | .rscat loc _ d n _ => some (loc, n * 2 ^ descEsz d)
  | .ratom _ _ land _ _ _ _ => some (land, 8)
  | _ => none

/-- Starting an NI command (R274, R316, R322, R437). -/
def State.startNi (s : State) (core : Nat) (c : Cmd) : State :=
  match c.inFault with
  | some f => s.endCmd core c (some f.2) 0
  | none =>
    let bad := match c.kind with | .rgath _ _ d _ _ | .rscat _ _ d _ _ => !descOk d | _ => false
    if bad then s.endCmd core c (some (c.fail 0 0x26 (niStatus 0 0 0 6))) 0
    else
      let pkg := s.cmdPkg core c
      let away := pkg != s.boot.pkg && c.route.isNone
      let link := if away then s.pickLink core pkg else none
      if away && link.isNone then s.cutOff core c 7
      else
        let reqs := (List.range c.nReqs).map (s.newReq core c link)
        let s := match c.sourceRun with
          | some r => s.updCore core (fun x => x.touchRun r.1 r.2 (s.eff core))
          | none => s
        s.updCmd core c.id (fun c =>
          { c with started := true, reqs := reqs,
                   buf := match c.kind with
                     | .ratom _ _ land _ _ _ _ => (s.core core).spad.readBytes land 8
                     | _ => [] })

/-- NI_COMMAND_START: commands of one context start in issue order, each when its in-tokens are DONE (R316). -/
def execNiCommandStart (s : State) : Host.Outcome State Fault Refusal :=
  onCmd (fun s c => c.kind.isNi && c.ready &&
      (match s.myCore.niNext c.ctx with | some d => d.id == c.id | none => false))
    (fun s c => s.startNi s.cur.core c) s

/-! ### At the target (R312, R314, R317-R319, R324) -/

/-- Whether a command may still write at a core of a package: an earlier command that an ordered one waits for (R317). -/
def State.writesLater (s : State) (core : Nat) (c : Cmd) (p : Place) : Bool :=
  let here (q : Option Place) : Bool := match q with | some q => q.pkg == p.pkg && q.core == p.core | none => false
  let waiting (i : Nat) : Bool := match c.reqs.find? (fun r => r.idx == i) with | some r => !r.arrived | none => true
  match c.kind with
  | .rput .. | .rscat .. | .ratom .. => (List.range c.nReqs).any (fun i => waiting i && here (s.reqPlace core c i))
  | .mcst _ _ mask => p.pkg == s.boot.pkg && clusterOf p.core == clusterOf core && mask.getLsbD (p.core % 16)
  | _ => false

/-- Whether a command is ordered (R317). -/
def Cmd.ord (c : Cmd) : Bool :=
  match c.kind with
  | .rput _ _ _ o _ => o
  | .ratom _ _ _ _ _ o _ => o
  | _ => false

/-- Whether request `i` waits for others: an ordered command for the earlier writes of its context at the core, the
flits of an RPUT and the lanes of an RSCAT at one core for the lower ones (R317, R321, R323). -/
def State.reqWaits (s : State) (core : Nat) (c : Cmd) (i : Nat) : Bool :=
  let p := s.reqPlace core c i
  let lower := c.reqs.any (fun r => decide (r.idx < i) && !r.arrived &&
    (match c.kind with
     | .rput .. => true
     | .rscat .. => (s.reqPlace core c r.idx).map (·.core) == p.map (·.core)
     | _ => false))
  let earlier := match p with
    | some p => c.ord && (s.core core).cmds.any (fun d => d.ctx == c.ctx && decide (d.id < c.id) && s.writesLater core d p)
    | none => false
  lower || earlier

/-- Why a target of this package refuses `n` bytes: GATED or DENIED, 0 where it does not (R312, R319). Log 46, DEDUCED. Log 71, DEDUCED. -/
def State.refusal (s : State) (task : Option Nat) (p : Place) (n : Nat) : Nat :=
  let x := s.core p.core
  if !x.admits task p.off n then 2
  else if (List.range n).any (fun i => x.gated (p.off + i)) then 1
  else 0

/-- The function of an RATOM (R324). -/
def ratomFn (op : Nat) : AtomFn :=
  match op with
  | 0 => fnAadd | 1 => fnAmin | 2 => fnAmax | 3 => fnAand | 4 => fnAor | 5 => fnAxor | 6 => fnAswp | 7 => fnAcas
  | 8 => fnAminu | _ => fnAmaxu

/-- What a remote atomic on a word or a dword writes over `old`: `v` is its operand, `e` what `.cas` expects; none for a
`.cas` that fails (R324). -/
def ratomNew (op : Nat) (dword : Bool) (v e old : Nat) : Option Nat :=
  let n := if dword then 64 else 32
  if op = 7 ∧ old ≠ e % 2 ^ n then none else some (ratomFn op n old (v % 2 ^ n) (e % 2 ^ n) % 2 ^ n)

/-- The value an RATOM writes over `old` (R324). -/
def Cmd.atomNew (c : Cmd) (old : Nat) : Option Nat :=
  match c.kind with
  | .ratom _ v _ op dword _ _ => ratomNew op dword v.toNat (leNat c.buf) old
  | _ => none

/-- A core of another package. Log 26, DESIGN CHOICE. -/
def State.foreignAt (s : State) (pkg core : Nat) : Option Foreign :=
  s.fab.foreign.find? (fun f => f.pkg == pkg && f.core == core)

/-- Writing at a core of another package. Log 26, DESIGN CHOICE. -/
def State.foreignWrite (s : State) (p : Place) (bs : List Byte) : State :=
  { s with fab := { s.fab with foreign := s.fab.foreign.map (fun f =>
      if f.pkg == p.pkg && f.core == p.core then { f with spad := f.spad.writeBytes p.off bs } else f) } }

/-- Performing a request of a task at its target (R312, R314, R318, R319, R324). -/
def State.performFor (s : State) (task : Option Nat) (core : Nat) (c : Cmd) (r : Req) (p : Place) : State × Req :=
  let n := c.reqBytes r.idx
  let zeros := List.replicate n (0 : Byte)
  let failWith (k : Nat) : State × Req := (s, { r with arrived := true, status := k, data := zeros, poison := false })
  let own := p.pkg == s.boot.pkg
  let why :=
    if own then s.refusal task p n
    else match s.foreignAt p.pkg p.core with
      | some f => if f.task == task && task.isSome then 0 else 2
      | none => 2
  let mis := match c.route with | some t => !s.routed core t p | none => false
  if mis then failWith 4
  else if why ≠ 0 then failWith why
  else
    let x := s.core p.core
    let bytes := if own then x.spad.readBytes p.off n
                 else match s.foreignAt p.pkg p.core with | some f => f.spad.readBytes p.off n | none => zeros
    let bad := own && x.spadBad p.off n
    let put (s : State) (bs : List Byte) : State := if own then s.niWrite core c p.core p.off bs else s.foreignWrite p bs
    let woken := if own then s.updCore p.core (fun x => (x.touch p.off (s.eff p.core)).touch (p.off + n - 1) (s.eff p.core)) else s
    match c.kind with
    | .rput _ _ _ _ _ =>
      let late := c.reqs.any (fun q => decide (q.idx < r.idx) && q.bad)
      let data := if late then (List.range n).map (fun j => Config.freeByte (s.freeCount + j)) else r.data
      let s1 := put s data
      let s1 := if r.poison && own then s1.niSpoil core c p.core p.off n else s1
      ({ s1 with freeCount := if late then s.freeCount + n else s.freeCount }, { r with arrived := true })
    | .rscat _ _ _ _ _ =>
      let s1 := put s r.data
      (if r.poison && own then s1.niSpoil core c p.core p.off n else s1, { r with arrived := true })
    | .ratom _ _ _ _ _ _ _ =>
      let reply := { r with arrived := true, data := bytes, poison := bad, status := if bad then 5 else 0 }
      if bad then (woken, reply)
      else
        match c.atomNew (leNat bytes) with
        | some v => (put s (leBytes n v), reply)
        | none => (woken, reply)
    | _ => (woken, { r with arrived := true, data := bytes, poison := bad, status := if bad then 5 else 0 })

/-- Performing a request of a running command at its target. -/
def State.performReq (s : State) (core : Nat) (c : Cmd) (r : Req) (p : Place) : State × Req :=
  s.performFor (s.ctx core c.ctx).task core c r p

/-- An ordered request that was performed: no earlier request of its context to that core is performed after it (R317). -/
def State.dropStrays (s : State) (core : Nat) (c : Cmd) (p : Place) : State :=
  if c.ord then
    { s with fab := { s.fab with strays := s.fab.strays.filter (fun t =>
        !(t.core == core && t.cmd.ctx == c.ctx && decide (t.cmd.id < c.id) &&
          (match s.reqPlace t.core t.cmd t.req.idx with | some q => q.pkg == p.pkg && q.core == p.core | none => false))) } }
  else s

/-- Changing a request of a command. -/
def State.putReq (s : State) (core id : Nat) (r : Req) : State :=
  s.updCmd core id (fun c => { c with reqs := c.reqs.map (fun q => if q.idx == r.idx then r else q) })

/-- Whether a kind is performed request by request. -/
def CmdKind.isRemote : CmdKind → Bool
  | .rget .. | .rput .. | .rgath .. | .rscat .. | .ratom .. => true
  | _ => false

/-- REMOTE_REQUEST_ARRIVAL (R312, R314, R317-R319, R324). -/
def execRemoteRequestArrival (s : State) : Host.Outcome State Fault Refusal :=
  onCmd (fun s c => c.started && c.kind.isRemote &&
      (match c.reqs.find? (fun r => r.idx == s.cur.idx) with
       | some r => !r.arrived && !r.held && !s.reqWaits s.cur.core c r.idx
       | none => false))
    (fun s c =>
      match c.reqs.find? (fun r => r.idx == s.cur.idx), s.reqPlace s.cur.core c s.cur.idx with
      | some r, some p =>
        let x := s.performReq s.cur.core c r p
        (x.1.dropStrays s.cur.core c p).putReq s.cur.core c.id x.2
      | _, _ => s) s

/-! ### Replies (R318, R321, R323, R324) -/

/-- The 8 bytes an RATOM lands: the old value as R175 extends it (R324). -/
def Cmd.atomLanding (c : Cmd) (r : Req) : List Byte :=
  match c.kind with
  | .ratom _ _ _ op dword _ _ =>
    let old := leNat r.data
    if dword then leBytes 8 old
    else if 8 ≤ op then leBytes 8 old
    else leBytes 8 (((BitVec.ofNat 32 old).signExtend 64).toNat)
  | _ => []

/-- Landing a reply: the bytes of a read go to the own scratchpad; those past a flit that failed are undefined (R286,
R321). Log 46, DEDUCED. -/
def State.landReq (s : State) (core : Nat) (c : Cmd) (r : Req) : State :=
  match c.landing r.idx with
  | none => s
  | some o =>
    match c.kind with
    | .ratom .. =>
      let s1 := s.niWrite core c core o (c.atomLanding r)
      if r.poison then s1.niSpoil core c core o 8 else s1
    | _ =>
      let n := c.reqBytes r.idx
      let late := c.kind.isFlits && !r.bad && c.reqs.any (fun q => decide (q.idx < r.idx) && q.bad)
      let data := if late then (List.range n).map (fun j => Config.freeByte (s.freeCount + j)) else r.data
      let s1 := s.niWrite core c core o data
      let s1 := if r.poison then s1.niSpoil core c core o n else s1
      { s1 with freeCount := if late then s.freeCount + n else s.freeCount }

/-- Whether a reply may land: one that is on its way; an RGET writes its flits in ascending order (R321, R440). -/
def Cmd.mayLand (c : Cmd) (r : Req) : Bool :=
  r.arrived && !r.landed && !r.mute &&
  (match c.kind with | .rget .. => c.reqs.all (fun q => decide (r.idx ≤ q.idx) || q.landed) | _ => true)

/-- The standing charge of a gather or scatter for each lane it moves (R203, R212). Log 89, DESIGN CHOICE. -/
def laneCharge : Nat := 4

/-- REMOTE_REPLY_LANDING (R318, R321, R323, R324). -/
def execRemoteReplyLanding (s : State) : Host.Outcome State Fault Refusal :=
  onCmd (fun s c => c.kind.isRemote &&
      (match c.reqs.find? (fun r => r.idx == s.cur.idx) with | some r => c.mayLand r | none => false))
    (fun s c =>
      match c.reqs.find? (fun r => r.idx == s.cur.idx) with
      | some r =>
        let c2 := { c with reqs := c.reqs.map (fun q => if q.idx == r.idx then { q with landed := true } else q) }
        let s1 := (s.landReq s.cur.core c r).updCmd s.cur.core c.id (fun _ => c2)
        let s1 := if c.kind.isLanes then s1.addCharge s.cur.core laneCharge else s1
        if c2.reqs.all (·.landed) then s1.endNi s.cur.core c2 else s1
      | none => s) s

/-! ### Multicast (R325, R326) -/

/-- The cores a mask names, lowest first. -/
def maskCores (core : Nat) (mask : BitVec 16) : List Nat :=
  (List.range 16).filterMap (fun i => if mask.getLsbD i then some (clusterOf core * 16 + i) else none)

/-- A multicast landing in one core (R312, R319, R326). -/
def State.landCast (core : Nat) (c : Cmd) (off : Nat) (data : List Byte) (task : Option Nat) (s : State) (t : Nat) : State :=
  if s.refusal task ⟨s.boot.pkg, t, off⟩ data.length = 0 then s.niWrite core c t off data else s

/-- MCST_LANDING: every named core at once; a refused target is skipped and the command then ends with 0x26 (R325,
R326). -/
def execMcstLanding (s : State) : Host.Outcome State Fault Refusal :=
  onCmd (fun s c => match c.kind with | .mcst .. => c.started && decide (c.due ≤ s.eff s.cur.core) | _ => false)
    (fun s c =>
      match c.kind with
      | .mcst off data mask =>
        match c.inFault with
        | some f => s.endCmd s.cur.core c (some f.2) 0
        | none =>
          let task := (s.ctx s.cur.core c.ctx).task
          let cores := maskCores s.cur.core mask
          let why (t : Nat) : Nat := s.refusal task ⟨s.boot.pkg, t, off⟩ data.length
          let fault := (cores.find? (fun t => why t != 0)).map (fun t => c.fail 0 0x26 (niStatus 0 0 t (why t)))
          (cores.foldl (State.landCast s.cur.core c off data task) s).endCmd s.cur.core c fault 0
      | _ => s) s

/-! ### Barrier objects (R327-R330) -/

/-- The number of an object's bits. -/
def objLow (o : BitVec 128) : Word := o.setWidth 64

/-- The record of a barrier fault (R330). Log 70, DEDUCED. -/
def barrierFail (c : Cmd) (count cause : Nat) (o : BitVec 128) : FaultRec := c.fail count cause (objLow o)

/-- The object a command names, as it stands. -/
def State.objBits (s : State) (p : Place) : BitVec 128 := BitVec.ofNat 128 (leNat ((s.core p.core).spad.readBytes p.off 16))

/-- A barrier object after BINIT (R329). Log 70, DEDUCED. -/
def objInit (expect : Nat) : BitVec 128 := BitVec.ofNat 128 (expect + 2 ^ 37)

/-- What an arrival of `n` does to an object (R330). -/
inductive Arrival where
  | invalid
  | counted (o : BitVec 128)
  | completed (o : BitVec 128)
  | overrun (o : BitVec 128)
  deriving DecidableEq, Repr

/-- An arrival (R330). -/
def arrive (o : BitVec 128) (n : Nat) : Arrival :=
  let expect := bitsOf 15 0 o
  let count := bitsOf 31 16 o
  if !bitAt 37 o || expect = 0 then .invalid
  else if count + n < expect then
    .counted ((o &&& ~~~(0xFFFF0000#128)) ||| BitVec.ofNat 128 ((count + n) * 2 ^ 16))
  else if count + n = expect then
    .completed ((o &&& 0xFFFFFFF00000FFFF#128) ||| BitVec.ofNat 128 ((bitsOf 35 32 o + 1) % 16 * 2 ^ 32))
  else .overrun (o ||| 0x1000000000#128)

/-- A context woken by the completed phase of an object: its next bundle issues 10 cycles later (R330). The wake of a BWAIT that
sleeps on that object is spent on it; in any other context that is not idle it stays pending (R127). Log 70, DEDUCED. -/
def State.barrierWake (s : State) (p : Place) (core k : Nat) : State :=
  let w := (s.ctx core k).waits
  let s1 := s.wakeBy (if w.asleep.bind (s.place core) = some p then Ctx.wakeBwait else Ctx.wake) core k
  if w.idle || w.asleep.isSome then s1.updCtx core k (fun c => { c with waits := { c.waits with wakeIn := 10 } }) else s1

/-- Waking every context whose SLEEP bit is set in an object (R127, R330). -/
def State.wakeSleepers (s : State) (p : Place) (o : BitVec 128) : State :=
  (List.range 64).foldl (fun s i =>
    if o.getLsbD (64 + i) then s.barrierWake p (clusterOf p.core * 16 + i / 4) (i % 4) else s) s

/-- Performing a barrier command at its object, once it is not refused; the object's stripe wakes (R312, R319, R242). -/
def State.atObject (s : State) (core : Nat) (c : Cmd) (f : Place → State → State) : State :=
  match s.reqPlace core c 0 with
  | none => s
  | some p =>
    let why := s.refusal (s.ctx core c.ctx).task p 16
    if why ≠ 0 then s.endCmd core c (some (s.niRecord core c 0 0x26 why)) 0
    else f p (s.updCore p.core (fun x => x.touch p.off (s.eff p.core)))

/-- Writing an object whole (R227, R328). -/
def State.putObj (s : State) (core : Nat) (c : Cmd) (p : Place) (o : BitVec 128) : State :=
  s.niWrite core c p.core p.off (leBytes 16 o.toNat)

/-- BINIT_LANDING (R329). -/
def execBinitLanding (s : State) : Host.Outcome State Fault Refusal :=
  onCmd (fun _ c => match c.kind with | .binit .. => c.started | _ => false)
    (fun s c =>
      match c.kind with
      | .binit _ b =>
        s.atObject s.cur.core c (fun p s =>
          if b.toNat = 0 ∨ 65535 < b.toNat then s.endCmd s.cur.core c (some (barrierFail c 0 0x40 (s.objBits p))) 0
          else (s.putObj s.cur.core c p (objInit b.toNat)).endCmd s.cur.core c none 0)
      | _ => s) s

/-- BARRIER_ARRIVAL (R330). -/
def execBarrierArrival (s : State) : Host.Outcome State Fault Refusal :=
  onCmd (fun _ c => match c.kind with | .barr .. => c.started | _ => false)
    (fun s c =>
      match c.kind with
      | .barr _ n =>
        s.atObject s.cur.core c (fun p s =>
          let o := s.objBits p
          if (s.core p.core).spadBad p.off 16 then s.endCmd s.cur.core c (some (s.niRecord s.cur.core c 0 0x26 5)) 0
          else
            match arrive o n with
            | .invalid => s.endCmd s.cur.core c (some (barrierFail c n 0x40 o)) 0
            | .counted o' => (s.putObj s.cur.core c p o').endCmd s.cur.core c none 0
            | .completed o' =>
              ((s.putObj s.cur.core c p o').wakeSleepers p o).endCmd s.cur.core c none 0
            | .overrun o' => (s.putObj s.cur.core c p o').endCmd s.cur.core c (some (barrierFail c n 0x41 o')) 0)
      | _ => s) s

end Sys2Proof.Machine
end

