-- ==== Sys2Proof/Machine/Abroad.lean ====
section
/-! DEFINITION. What comes from outside the package without an event of the opcode table: requests of other packages,
acknowledgements that do not come, requests performed late, other hosts' stores to a device, poison from a device,
uncorrectable errors (R317, R354-R356, R438, R440, R441, R443; log 26, DESIGN CHOICE). -/

namespace Sys2Proof.Machine

/-! ### This package as a target (R312, R318, R319, R434, R438) -/

/-- The bytes a request reads or writes. -/
def FarOp.size : FarOp → Nat
  | .read n => n
  | .write d _ => d.length
  | .atom _ dword _ _ => if dword then 8 else 4

/-- Whether a request is one that a core of another package can send to this one: a flit of up to 64 bytes, or a lane of up to
256, inside a scratchpad of this package (R311, R321-R323, R434). -/
def State.fromPeer (s : State) (r : FarReq) : Bool :=
  r.pkg != s.boot.pkg && decide (r.pkg < 4096) && decide (r.core < nCores) && decide (r.target < nCores) &&
  decide (0 < r.op.size) && (decide (r.op.size ≤ 64) || r.op.size == 128 || r.op.size == 256) && decide (r.off + r.op.size ≤ spadSize)

/-- Whether a request writes, as RPUT, RSCAT and RATOM do. -/
def FarOp.writes : FarOp → Bool
  | .read _ => false
  | _ => true

/-- Whether a write may be performed no more, since an ordered one that its context sent later to the core was (R317, R438). -/
def State.overtaken (s : State) (r : FarReq) : Bool :=
  r.op.writes && s.fab.ordered.any (fun o =>
    o.pkg == r.pkg && o.core == r.core && o.ctx == r.ctx && o.target == r.target && decide (r.seq < o.seq))

/-- A write of a request: a partial write, and poison it carries stays with its rows (R227, R354). -/
def State.farWrite (s : State) (r : FarReq) (bs : List Byte) (poison : Bool) : State :=
  let t := s.eff r.target
  s.updCore r.target (fun x =>
    let x := ((x.touch r.off t).touch (r.off + bs.length - 1) t).spadWrite r.off bs
    if poison then
      { x with spadPoison := (List.range bs.length).foldl (fun l i =>
          if x.gated (r.off + i) then l else setInsert ((r.off + i) / 32) l) x.spadPoison }
    else x)

/-- A read of a request: a stripe wakes (R242, R319). -/
def State.farRead (s : State) (r : FarReq) : State :=
  let t := s.eff r.target
  s.updCore r.target (fun x => (x.touch r.off t).touch (r.off + r.op.size - 1) t)

/-- A reply: its status, its data and whether they are poisoned (R318). -/
def FarReq.reply (r : FarReq) (status : Nat) (data : List Byte) (poison : Bool) : FarReply :=
  ⟨r.pkg, r.core, r.seq, status, data, poison⟩

/-- Performing a request of another package at its target: a refused one changes nothing and reads zeros, a poisoned
target delivers poison, and an atomic is not performed on one (R312, R318, R319, R324). -/
def State.performFar (s : State) (r : FarReq) : State × FarReply :=
  let n := r.op.size
  let why := s.refusal (some r.task) ⟨s.boot.pkg, r.target, r.off⟩ n
  if why ≠ 0 then (s, r.reply why (List.replicate n 0) false)
  else
    let x := s.core r.target
    let bytes := x.spad.readBytes r.off n
    let bad := x.spadBad r.off n
    match r.op with
    | .read _ => (s.farRead r, r.reply (if bad then 5 else 0) bytes bad)
    | .write d poison => (s.farWrite r d poison, r.reply 0 [] false)
    | .atom op dword v e =>
      if bad then (s.farRead r, r.reply 5 bytes true)
      else
        match ratomNew op dword v.toNat e.toNat (leNat bytes) with
        | some w => (s.farWrite r (leBytes n w) false, r.reply 0 bytes false)
        | none => (s.farRead r, r.reply 0 bytes false)

/-- A request arrives: a duplicate of one that was performed is discarded, and what no fabric delivers is no request (R317, R438;
log 26, DESIGN CHOICE). -/
def State.farArrive (s : State) (r : FarReq) : State :=
  if s.fab.seen.contains (r.pkg, r.core, r.seq) || !s.fromPeer r || s.overtaken r then s
  else
    let x := s.performFar r
    { x.1 with fab := { x.1.fab with
        seen := (r.pkg, r.core, r.seq) :: x.1.fab.seen
        ordered := if r.ord && r.op.writes then r :: x.1.fab.ordered else x.1.fab.ordered
        replies := x.1.fab.replies ++ [x.2] } }

/-! ### Requests without an acknowledgement (R440) -/

/-- A request that crosses the fabric is not acknowledged; where `sent` is false it does not reach its target either. -/
def State.loseAck (s : State) (core id idx : Nat) (sent : Bool) : State :=
  s.updCmd core id (fun c => { c with reqs := c.reqs.map (fun r =>
    if r.idx == idx && r.link.isSome && !r.landed then { r with mute := true, held := r.held || !sent } else r) })

/-- Whether a stray waits for a lower one of its command at the same core, as it would have in its command (R321, R323). -/
def State.strayWaits (s : State) (t : Stray) : Bool :=
  s.fab.strays.any (fun u => u.core == t.core && u.cmd.id == t.cmd.id && decide (u.req.idx < t.req.idx) &&
    (s.reqPlace u.core u.cmd u.req.idx).map (·.core) == (s.reqPlace t.core t.cmd t.req.idx).map (·.core))

/-- A request of a command that ended is performed at last, at most once (R438, R440). -/
def State.performLate (s : State) (i : Nat) : State :=
  match s.fab.strays[i]? with
  | some t =>
    match s.reqPlace t.core t.cmd t.req.idx with
    | some p =>
      if s.strayWaits t then s
      else
        let s1 : State := { s with fab := { s.fab with strays := s.fab.strays.eraseIdx i } }
        (s1.performFor t.task t.core t.cmd t.req p).1.dropStrays t.core t.cmd p
    | none => s
  | none => s

/-! ### Devices (R441, R443) -/

/-- Another host's store reaches the device of a shared CXL region: a load here obtains it once a CINV removed its
line; a line it covers whole is no longer poisoned there (R355, R443). -/
def State.deviceStore (s : State) (pa : Nat) (bs : List Byte) : State :=
  if s.shared pa && s.shared (pa + bs.length - 1) then
    { s with phys := { s.phys with home := s.phys.home.writeBytes pa bs,
                                   homePoison := clearRows s.phys.homePoison pa bs.length 64 } }
  else s

/-- A device answers with poison for a line: it becomes poison of the line, in a shared region once the line is fetched
(R354, R441, R443). -/
def State.devicePoison (s : State) (line : Nat) : State :=
  match s.physTarget (64 * line) with
  | .cxl _ true => { s with phys := { s.phys with homePoison := setInsert line s.phys.homePoison } }
  | .cxl _ false => { s with phys := { s.phys with poison := setInsert line s.phys.poison } }
  | _ => s

/-! ### Uncorrectable errors of memory (R354-R356) -/

/-- A scratchpad row with an uncorrectable error carries poison from then on; a gated stripe holds no row. -/
def State.rowError (s : State) (core row : Nat) : State :=
  if core < nCores ∧ 32 * row < spadSize ∧ (s.core core).gated (32 * row) = false then
    s.updCore core (fun x => { x with spadPoison := setInsert row x.spadPoison })
  else s

/-- A line of memory, or of a cache, with an uncorrectable error carries poison from then on. -/
def State.lineError (s : State) (line : Nat) : State :=
  if s.physTarget (64 * line) = .nothing then s
  else { s with phys := { s.phys with poison := setInsert line s.phys.poison } }

/-- What comes from outside the package takes effect. -/
def State.fromAbroad (s : State) (x : Abroad) : State :=
  match x with
  | .request r => s.farArrive r
  | .unanswered core id idx sent => s.loseAck core id idx sent
  | .late i => s.performLate i
  | .deviceStore pa bs => s.deviceStore pa bs
  | .devicePoison line => s.devicePoison line
  | .rowError core row => s.rowError core row
  | .lineError line => s.lineError line

end Sys2Proof.Machine
end

