-- ==== Sys2Proof/Machine/EvEddy.lean ====
section
/-! DEFINITION. Lends and revocations over the cycles of R302: squash, park, reclaim, copy-out, the completion of LEND,
and the end of an eddy (R293, R301-R305). -/

namespace Sys2Proof.Machine

/-! ### Revocation (R302) -/

/-- Changing the first record of a core's revocations that satisfies a test. -/
def updFirst (p : Revoke → Bool) (f : Revoke → Option Revoke) : List Revoke → List Revoke
  | [] => []
  | r :: rest => if p r then (match f r with | some q => q :: rest | none => rest) else r :: updFirst p f rest

/-- Changing a core's revocation records. Log 45, DEDUCED. -/
def CoreState.updRev (x : CoreState) (f : List Revoke → List Revoke) : CoreState :=
  { x with lend := { x.lend with rev := f x.lend.rev } }

/-- A record whose banks are to be squashed at effective cycle `t` (R302). -/
def squashDue (t : Nat) (r : Revoke) : Bool := !r.squashed && decide (r.at0 + 16 ≤ t)
/-- A record whose banks are to be parked (R302). Log 73, DEDUCED. -/
def parkDue (t : Nat) (r : Revoke) : Bool := r.squashed && !r.parked && decide (r.at0 + 21 ≤ t)
/-- A record whose region is to be reclaimed (R302, R303, R304). -/
def reclaimDue (t : Nat) (r : Revoke) : Bool := r.parked && r.region && decide (r.at0 + 24 ≤ t)

/-- REVOKE_SQUASH: a bundle of a revoked eddy that has not retired is squashed and issues again on resumption; its
context is taken (R129, R302, R331). -/
def execRevokeSquash (s : State) : Host.Outcome State Fault Refusal :=
  onCore (fun s => s.myCore.lend.rev.any (squashDue (s.eff s.cur.core)))
    (fun s =>
      match s.myCore.lend.rev.find? (squashDue (s.eff s.cur.core)) with
      | some r =>
        let t := s.eff s.cur.core
        let ks := r.banks.filter (fun k => (s.myCore.bank k).st == .revoking)
        (ks.foldl (fun (s : State) k => s.takeAway s.cur.core k) s).updMyCore (fun x =>
          x.updRev (updFirst (squashDue t) (fun r => some { r with squashed := true })))
      | none => s) s

/-- The banks whose queued accesses a revocation with a region forces: those it took, and every other whose eddy issues no
more but may still hold a store to the region (R302). -/
def CoreState.forced (x : CoreState) : List Nat := [1, 2, 3].filter (fun k => (x.bank k).st != .run && (x.bank k).st != .free)

/-- BANK_PARK: the queued accesses that may touch the region are performed and the taken banks become PARKED; their
standing sets leave the core's sum (R298, R302). A park without a region ends here. -/
def execBankPark (s : State) : Host.Outcome State Fault Refusal :=
  onCore (fun s => s.myCore.lend.rev.any (parkDue (s.eff s.cur.core)))
    (fun s =>
      match s.myCore.lend.rev.find? (parkDue (s.eff s.cur.core)) with
      | some r =>
        let t := s.eff s.cur.core
        let ks := r.banks.filter (fun k => (s.myCore.bank k).st == .revoking)
        let s1 := if r.region then s.myCore.forced.foldl (fun (s : State) k => s.drain s.cur.core k) s else s
        s1.updMyCore (fun x =>
          let x := ks.foldl (fun (x : CoreState) k => x.updBank k (fun b => { b with st := .parked })) x
          x.updRev (updFirst (parkDue t) (fun r => if r.region then some { r with parked := true } else none)))
      | none => s) s

/-! ### The region (R303, R304) -/

/-- The banks whose eddies are bound under the lend. -/
def CoreState.lentBanks (x : CoreState) : List Nat := [1, 2, 3].filter (fun k => (x.bank k).lent)

/-- The eddies of a lend are bound under it no longer; its region stays their home (R304, R305). Log 72, DEDUCED. -/
def CoreState.endLent (x : CoreState) (r : Revoke) : CoreState :=
  x.lentBanks.foldl (fun x k => x.updBank k (fun b => { b with lent := false, home := some (r.start, r.count) })) x

/-- Reclaiming a discardable region (R303): the slots take the reclaim row, DISCARD is set in the eddies of the lend, and no
write of their commands lands there any more, nor in a region that an earlier lend discarded. -/
def CoreState.discardRegion (x : CoreState) (r : Revoke) (t : Nat) : CoreState :=
  let ks := x.lentBanks
  let x := x.reclaim r.start r.count t
  let x := ks.foldl (fun (x : CoreState) k =>
    x.setCtx k { x.ctx k with csr := { (x.ctx k).csr with discard := true } }) x
  { x.endLent r with cmds := x.cmds.map (fun c => if ks.contains c.ctx then { c with drop := (r.start, r.count) :: c.drop } else c) }

/-- REGION_RECLAIM: cycle 24 of a revocation (R302-R304). A keep region sets BUSY. -/
def execRegionReclaim (s : State) : Host.Outcome State Fault Refusal :=
  onCore (fun s => !s.myCore.lend.cfg.busy && s.myCore.lend.rev.any (reclaimDue (s.eff s.cur.core)))
    (fun s =>
      match s.myCore.lend.rev.find? (reclaimDue (s.eff s.cur.core)) with
      | some r =>
        let t := s.eff s.cur.core
        s.updMyCore (fun x =>
          if r.keep then { x with lend := { x.lend with cfg := { x.lend.cfg with busy := true } } }
          else (x.discardRegion r t).updRev (updFirst (reclaimDue t) (fun _ => none)))
      | none => s) s

/-- Whether two runs of scratchpad bytes and slots meet. -/
def meetsRegion (start count off n : Nat) : Bool := runsMeet (start * slotSize) (count * slotSize) off n

/-- Whether a command still writes into a region (R304): a local landing, or a multicast window. -/
def Cmd.landsIn (c : Cmd) (start count : Nat) : Bool :=
  match c.kind with
  | .rget d _ n _ => meetsRegion start count d.toNat n
  | .rgath loc _ d n _ => meetsRegion start count loc (n * 2 ^ descEsz d)
  | .ratom _ _ land _ _ _ _ => meetsRegion start count land 8
  | .mcst off data _ => meetsRegion start count off data.length
  | _ => false

/-- The record whose keep region waits for its copy. -/
def CoreState.copyOut (x : CoreState) : Option Revoke :=
  if x.lend.cfg.busy && !x.lend.filling then x.lend.rev.find? (fun r => r.parked && r.region && r.keep) else none

/-- The bytes of a run as a memory. -/
def Mem.slice (m : Mem) (a n : Nat) : Mem := (m.above a).below (a + n)

/-- The copy of a region (R304). -/
def CoreState.keptOf (x : CoreState) (start count : Nat) : Kept :=
  { start := start, count := count, mem := x.spad.slice (start * slotSize) (count * slotSize),
    tiles := (List.range count).map (fun i => x.tile (start + i)) }

/-- KEEP_REGION_COPY_OUT: once the commands of the revoked eddies that land in the region are DONE, the region is copied
and BUSY clears (R304). -/
def execKeepRegionCopyOut (s : State) : Host.Outcome State Fault Refusal :=
  onCore (fun s =>
      match s.myCore.copyOut with
      | some r => s.myCore.cmds.all (fun c => !(s.myCore.lentBanks.contains c.ctx && c.landsIn r.start r.count))
      | none => false)
    (fun s =>
      match s.myCore.copyOut with
      | some r =>
        s.updMyCore (fun x =>
          let x := x.touchSlotRun r.start r.count (s.eff s.cur.core)
          let x := { x with lend := { x.lend with cfg := { x.lend.cfg with busy := false },
                                                  kept := some (x.keptOf r.start r.count) } }
          (x.endLent r).updRev (updFirst (fun r => r.parked && r.region && r.keep) (fun _ => none)))
      | none => s) s

/-- FIRMWARE_REVOKE (R302). -/
def execFirmwareRevoke (s : State) : Host.Outcome State Fault Refusal :=
  onCore (fun s => s.myCore.lend.cfg.active) (fun s => s.startRevoke s.cur.core) s

/-! ### The completion of LEND (R305) -/

/-- Restoring a kept copy into its slots at effective cycle `t` (R242, R304, R305). -/
def CoreState.restoreKept (x : CoreState) (k : Kept) (t : Nat) : CoreState :=
  let a := k.start * slotSize
  let n := k.count * slotSize
  let x := x.touchSlotRun k.start k.count t
  let x := { x with spad := x.spad.below a ++ (k.mem.slice a n ++ x.spad.above (a + n)) }
  k.tiles.zipIdx.foldl (fun x e => x.updTile (k.start + e.2) (fun _ => e.1)) x

/-- The banks a completed LEND may return to RUN (R305). Log 44, DEDUCED. -/
def CoreState.eligible (x : CoreState) : List Nat :=
  let l := x.lend.cfg
  if x.lend.last == some (l.start, l.count) then
    [1, 2, 3].filter (fun k => (x.bank k).st == .parked && (x.bank k).rev && (x.bank k).home == some (l.start, l.count))
  else []

/-- Returning the eligible banks to RUN, ascending, as their shares fit (R305). Log 44, DEDUCED. -/
def CoreState.resumeFit (x : CoreState) (ks : List Nat) : CoreState :=
  ks.foldl (fun x k => if x.shares + (x.bank k).share ≤ x.lend.cfg.share then x.resumeBank k else x) x

/-- LEND_COMPLETE: the region is ungated and reclaimed, a kept copy of the same slots restored, BUSY clears and the
eligible banks run (R305); its stripes were turned on while the LEND waited (R358). -/
def execLendComplete (s : State) : Host.Outcome State Fault Refusal :=
  onCore (fun s => s.myCore.lend.filling)
    (fun s =>
      s.updMyCore (fun x =>
        let l := x.lend.cfg
        let t := s.eff s.cur.core
        let x := (x.ungate l.start l.count t).reclaim l.start l.count t
        let same := x.lend.last == some (l.start, l.count)
        let x := match x.lend.kept with
          | some k => if same && k.start == l.start && k.count == l.count then x.restoreKept k t else x
          | none => x
        let ks := if l.active then x.eligible else []
        let x := { x with lend := { x.lend with cfg := { l with busy := false }, filling := false, kept := none } }
        x.resumeFit ks)) s

/-! ### The end of an eddy (R293, R299, R301) -/

/-- The end code of an eddy's context (R187, R383): the cause of its halt, of a fault no consumer reported, or 0xFE. Log 75, DEDUCED. -/
def Ctx.endCode (c : Ctx) : Nat :=
  match c.run with
  | .halted k => k
  | _ => c.unreported.getD 0xFE

/-- EDDY_BANK_FREE: the release rule of R293 is met and the bank's state is discarded; a firmware-bound eddy's task takes
its end code, an owner's eddy that has executed END reports an unreported fault to the owner's task, and one that halted
leaves that task alone (R184, R187, R299, R301). -/
def execEddyBankFree (s : State) : Host.Outcome State Fault Refusal :=
  onCore (fun s => isEddy s.cur.ctx && (s.myCore.bank s.cur.ctx).st == .ending && s.myCore.quiet s.cur.ctx)
    (fun s =>
      let k := s.cur.ctx
      let c := s.me
      let s1 :=
        if s.myCore.fwEddy k then
          match c.task with
          | some n => (s.noteFault c.task (some c.endCode)).updTask n (fun t => { t with cores := [] })
          | none => s
        else if c.run == .ended then s.noteFault c.task c.unreported
        else s
      (s1.updMyCore (fun x => x.freeBankAt k)).settleIdle s.cur.core) s

end Sys2Proof.Machine
end

