-- ==== Sys2Proof/Machine/EvTask.lean ====
section
/-! DEFINITION. The firmware's queues, binding, task ends, pre-emption and graphs (R240, R241, R358, R370, R373-R392). -/

namespace Sys2Proof.Machine

/-! ### Queues (R378) -/

/-- Whether a task stands before another in its partition's queue (R378). -/
def Task.ahead (a b : Task) : Bool :=
  decide (b.prio < a.prio) ||
  (a.prio == b.prio && ((a.device && !b.device) || (a.device == b.device && decide (a.seq < b.seq))))

/-- The records pending in a partition; a saved task is pending again at its place (R378, R392). -/
def State.pendingIn (s : State) (part : Nat) : List Task :=
  s.fw.tasks.filter (fun t => t.part == part && !t.harvest && (t.st == .pending || t.st == .saved))

/-- The head of a partition's queue (R378). -/
def State.head (s : State) (part : Nat) : Option Task :=
  let q := s.pendingIn part
  q.find? (fun a => q.all (fun b => b.num == a.num || a.ahead b))

/-! ### Placement (R375) -/

/-- The smallest power of two at or above `n`. -/
def powCeil (n : Nat) : Nat := ((List.range 13).map (2 ^ ·)).find? (fun p => decide (n ≤ p)) |>.getD 4096

/-- The sets of cores that SHAPE lets `n` cores be chosen from, out of those that satisfy `ok` (R375). -/
def places (shape n : Nat) (ok : Nat → Bool) : List (List Nat) :=
  let of (l : List Nat) : List Nat := l.filter ok
  match shape with
  | 0 => [of (List.range nCores)]
  | 1 => (List.range 192).map (fun k => of ((List.range 16).map (· + 16 * k)))
  | 2 => (List.range 4).map (fun d => of ((List.range 768).map (· + 768 * d)))
  | _ => (List.range (nCores / powCeil n + 1)).map (fun i => of ((List.range n).map (· + powCeil n * i)))

/-- Whether `n` cores can be chosen. -/
def canPlace (shape n : Nat) (ok : Nat → Bool) : Bool := (places shape n ok).any (fun l => decide (n ≤ l.length))

/-- Whether a list of cores meets SHAPE (R375). -/
def shapeOk (shape : Nat) (cores : List Nat) : Bool :=
  match shape with
  | 0 => true
  | 1 => cores.all (fun c => clusterOf c == clusterOf (cores.headD 0))
  | 2 => cores.all (fun c => dieOf c == dieOf (cores.headD 0))
  | _ => cores.headD 0 % powCeil cores.length == 0 && cores == (List.range cores.length).map (· + cores.headD 0)

/-- Whether a router of a die is about to be retired: nothing binds there until it is (R417). -/
def State.dieRetiring (s : State) (d : Nat) : Bool := (List.range 48).any (fun i => (s.cluster (48 * d + i)).retiring)

/-- Whether a core may ever serve a task of a partition: of the partition, not retired, with a view of the image (R375, R379,
R416, R417, R431). -/
def State.coreServes (s : State) (part : Nat) (img : Image) (c : Nat) : Bool :=
  decide (c < nCores) && (match s.part part with | some p => p.clusters.contains (clusterOf c) | none => false) &&
  !s.fw.deadCores.contains c && s.hasView img (clusterOf c) && !s.dieRetiring (dieOf c)

/-- Whether the firmware may choose a core for a task of a partition: it serves and is FREE (R375, R379). -/
def State.coreFree (s : State) (part : Nat) (img : Image) (c : Nat) : Bool :=
  s.coreServes part img c && (s.core c).slot.st == .free

/-- Whether a core is bound to a task: one that was released since is the task's no longer, whoever holds it (R382). -/
def CoreState.heldBy (x : CoreState) (task : Nat) : Bool := x.slot.task == task && (x.slot.st == .bind || x.slot.st == .run)
/-- The cores that a task still holds (R382). -/
def State.held (s : State) (t : Task) : List Nat := t.cores.filter (fun c => (s.core c).heldBy t.num)

/-- Whether nothing of an earlier lend or eddy stands on a core: the firmware revokes and saves before a bind (R307). -/
def CoreState.clear (x : CoreState) : Bool :=
  [1, 2, 3].all (fun k => (x.bank k).st == .free) && !x.lend.cfg.active && !x.lend.cfg.busy && x.lend.rev.isEmpty

/-! ### Windows (R24, R454) -/

/-- Base and size of a window. Log 78, DEDUCED. -/
def privRange (w : Word) : Nat × Nat :=
  let n := 2 ^ (16 + bitsOf 3 0 w)
  (w.toNat / n * n, n)

/-- Whether a page is mapped writable by a translation (R454). -/
def State.mapsW (s : State) (ranges : List RangeEnt) (root : Option Nat) (va : Nat) : Bool :=
  match rangeHit ranges va with
  | some (_, w) => w
  | none =>
    match root with
    | some r => match (walk s.phys.mem 0 va true 5 (r * 4096)).1 with | .ok _ | .migrating => true | _ => false
    | none => false

/-- Whether a window is of the layout of R24, aligned to its size and mapped writable from its first page to its last
(R454). Log 78, DEDUCED. -/
def State.windowOk (s : State) (ranges : List RangeEnt) (root : Option Nat) (w : Word) : Bool :=
  let r := privRange w
  bitsOf 15 4 w == 0 && w.toNat / 16 * 16 == r.1 && decide (r.1 + r.2 ≤ 2 ^ 57) &&
  (ranges.any (fun e => bitAt 0 e.w0 && bitAt 1 e.w0 && decide (bitsOf 56 12 e.w0 * 4096 ≤ r.1) &&
      decide (r.1 + r.2 ≤ (bitsOf 56 12 e.w1 + 1) * 4096)) ||
   (List.range (r.2 / 4096)).all (fun i => s.mapsW ranges root (r.1 + 4096 * i)))

/-- Whether the windows of a task are well formed: one for every context of its cores, each mapped writable, and none
meets another (R454). Log 78, DEDUCED. -/
def State.privsOk (s : State) (ranges : List RangeEnt) (root : Option Nat) (cores : List Nat) (l : List PrivInit) : Bool :=
  cores.all (fun c => [0, 1, 2, 3].all (fun k => l.any (fun p => p.core == c && p.ctx == k))) &&
  l.all (fun p => s.windowOk ranges root p.base) &&
  l.zipIdx.all (fun a => l.zipIdx.all (fun b =>
    a.2 == b.2 || !runsMeet (privRange a.1.base).1 (privRange a.1.base).2 (privRange b.1.base).1 (privRange b.1.base).2))

/-- Range entries are at most 16, with their reserved bits zero, and no two in use overlap (R342). -/
def rangesOk (l : List RangeEnt) : Bool :=
  decide (l.length ≤ 16) &&
  l.all (fun e => bitsOf 63 57 e.w0 == 0 && bitsOf 11 2 e.w0 == 0 && bitsOf 63 57 e.w1 == 0 && bitsOf 11 0 e.w1 == 0 &&
    bitsOf 63 52 e.w2 == 0 && bitsOf 11 0 e.w2 == 0) &&
  l.zipIdx.all (fun a => l.zipIdx.all (fun b => a.2 == b.2 || !bitAt 0 a.1.w0 || !bitAt 0 b.1.w0 ||
    decide (bitsOf 56 12 a.1.w1 < bitsOf 56 12 b.1.w0) || decide (bitsOf 56 12 b.1.w1 < bitsOf 56 12 a.1.w0)))

/-- Rings are of the layout of R351, at most one for each number and die. -/
def ringsOk (l : List RingInit) : Bool :=
  l.all (fun r => decide (r.die < 4) && decide (r.ring < 4) && bitsOf 11 0 r.base == 0 && decide (4 ≤ r.log) &&
    decide (r.log ≤ 16)) &&
  l.zipIdx.all (fun a => l.zipIdx.all (fun b => a.2 == b.2 || a.1.die != b.1.die || a.1.ring != b.1.ring))

/-! ### What a bind writes on a core (R240, R241, R246, R247, R287, R380) -/

/-- The scratchpad's bytes at bind (R102, R240). -/
def Image.spad (i : Image) : Mem :=
  let m := i.data.foldl (fun m d => Mem.writeBytes m d.1 d.2) []
  i.tiles.foldl (fun m t =>
    match t.kind with
    | 0 => Mem.clear m (t.slot * slotSize) slotSize
    | 1 => Mem.writeBytes m (t.slot * slotSize) (constBytes t.tag t.cval.toNat)
    | 2 => Mem.writeBytes m (t.slot * slotSize) (identBytes t.tag)
    | _ => m) m

/-- The entry of a slot at bind, given its bytes (R105, R240). -/
def Image.tileEnt (i : Image) (n : Nat) (bs : List Byte) : TileEnt :=
  if i.extent ≤ n * slotSize then {}
  else
    match i.tiles.find? (fun t => t.slot == n) with
    | some t =>
      let c := classify (if t.tag = .undef then .bits else t.tag) bs
      match t.kind with
      | 0 => { tag := t.tag, nf := false, cls := .zero, st := .ready }
      | 1 =>
        let f := tileFill CoreState.reset (.tfill n t.tag t.cval)
        { tag := t.tag, nf := f.nf, cls := f.cls, st := .ready }
      | 2 => if isIntTag t.tag || isFpTag t.tag then { tag := t.tag, nf := false, cls := .ident, st := .ready }
             else { tag := t.tag, nf := c.2, cls := c.1, st := .ready }
      | _ => { tag := t.tag, nf := c.2, cls := c.1, st := .ready }
    | none => { tag := .bits, nf := false, cls := if bs.all (· == 0) then .zero else .general, st := .ready }

/-- The stripes at bind: those below the extent awake, the others gated (R241). -/
def Image.stripesAt (i : Image) (t : Nat) : Vector Stripe 32 :=
  Vector.ofFn (fun k : Fin 32 => if k.val * 0x4000 < i.extent then ⟨.awake, t⟩ else {})

/-- Loading an overlay into a core: every record it overlaps loses RES, unless it is resident already (R291). -/
def State.loadOverlay (s : State) (core : Nat) (img : Image) (o : Overlay) : State :=
  s.updCore core (fun x =>
    if x.resid.any (fun r => r.ovl == o.num && r.image == img.id && r.res) then x
    else
      let len := 8 * o.words.length
      let x := { x with resid := x.resid.map (fun (r : Resid) =>
        if runsMeet o.off len r.off (8 * r.len) then { r with res := false } else r) }
      x.load img.id o (s.viewWords img (clusterOf core) o))

/-- Everything of a core that a bind sets besides its owner context and its code. -/
def CoreState.fresh (x : CoreState) (img : Image) (t : Task) (eff : Nat) : CoreState :=
  let m := img.spad
  { x with
    spad := m
    spadPoison := []
    tiles := Vector.ofFn (fun n : Fin 128 => img.tileEnt n.val (m.readBytes (n.val * slotSize) slotSize))
    stripes := img.stripesAt eff
    accs := .replicate 4 {}
    shadow := .replicate 7 0
    wloaded := 0
    cmds := []
    abandon := false
    sched := (img.scheds[recSched t.record]?).getD []
    lend := {}
    banks := .replicate 3 {}
    ctxs := .replicate 4 Ctx.reset
    issueBuf := none
    use := {}
    copyLeft := if x.copyBud = 0xFFFF then 0xFFFF else 64 * x.copyBud
    slot := { task := t.num, part := t.part, prio := t.prio, st := .bind, pool := t.pool.getD 0 } }

/-- The effective count that a bind's stripes are stamped with: that of the cluster, 0 where it is still to be ungated
(R366). -/
def State.bindEff (s : State) (core : Nat) : Nat := if (s.cluster (clusterOf core)).gated then 0 else s.eff core

/-- Steps 1 to 5 of R380 on one core, with the copy budget of its partition (R366). -/
def State.bindCore (s : State) (t : Task) (img : Image) (core : Nat) : State :=
  let s := s.updCore core (fun x =>
    x.turnedOn (({ x with copyBud := s.copyOf core }.fresh img t (s.bindEff core)).setCtx 0 (s.ownerStart t img core).ctx) s.master)
  match img.overlay (recOvl t.record) with
  | some o => s.loadOverlay core img o
  | none => s

/-- Ungating the clusters of some cores that are gated: the switches begin (R358). -/
def State.powerUp (s : State) (cores : List Nat) : State :=
  cores.foldl (fun (s : State) c =>
    s.updCluster (clusterOf c) (fun k => if k.gated && k.powerOn.isNone then { k with powerOn := some s.master } else k)) s

/-- The weight stores of the dies of some cores are sealed (R338). -/
def State.sealDies (s : State) (cores : List Nat) : State :=
  cores.foldl (fun (s : State) c => s.updDie (dieOf c) (fun d => { d with sealed := true })) s

/-- Whether a core's cluster and every stripe that was turned on may be used (R358). -/
def State.isOn (s : State) (core : Nat) : Bool :=
  !(s.cluster (clusterOf core)).gated && decide ((s.core core).onAt ≤ s.master)

/-- A core of a task that is in BIND goes to RUN (R379). -/
def CoreState.started (task : Nat) (x : CoreState) : CoreState :=
  if x.slot.st == .bind && x.slot.task == task then { x with slot := { x.slot with st := .run } } else x

/-- A task whose cores are all on runs on them (R358, R379, R380). -/
def State.startTask (s : State) (t : Task) : State :=
  if t.cores.all s.isOn then t.cores.foldl (fun (s : State) c => s.updCore c (CoreState.started t.num)) s else s

/-- A pool entry leaves the pool (R376, R377). -/
def State.freePool (s : State) (e : Option Nat) : State :=
  match e with
  | some e => s.updFw (fun w => { w with pool := setErase e w.pool })
  | none => s

/-- The entry of a task that binds: a task of its partition that a checkpoint saved takes it over, else it leaves the
pool (R376, R377, R392). -/
def State.passPool (s : State) (t : Task) : State :=
  match s.fw.tasks.find? (fun v => v.st == .saved && !v.harvest && v.part == t.part && v.pool.isNone && v.num != t.num), t.pool with
  | some v, some e => s.updTask v.num (fun v => { v with pool := some e })
  | _, e => s.freePool e

/-- Binding a pending task (R377, R380, R389). -/
def State.bindTask (s : State) (t : Task) (img : Image) (b : BindInfo) : State :=
  let t2 : Task := { t with
    st := .bound, cores := b.cores, ranges := b.ranges, root := b.root, privs := b.privs, ntile := 0, used := 0,
    reserved := recChildren t.record, drainAt := none, ckpt := false,
    rings := b.rings.map (fun r => { die := r.die, num := r.ring, base := r.base, log := r.log }) }
  let s := (s.updTask t.num (fun _ => { t2 with pool := none })).passPool t
  let s := b.cores.foldl (fun (s : State) c => s.bindCore t2 img c) s
  ((s.powerUp b.cores).sealDies b.cores).startTask t2

/-- Whether the firmware may bind a task on some cores: it heads its queue, the cores are free and clear and meet SHAPE
and CORES, and its children's entries can be reserved (R375-R378). -/
def State.mayBind (s : State) (t : Task) (img : Image) (cores : List Nat) : Bool :=
  cores.length == recCores t.record && decide cores.Nodup && shapeOk (recShape t.record) cores &&
  cores.all (fun c => s.coreFree t.part img c && (s.core c).clear) && s.poolFree (recChildren t.record)

/-- TASK_BIND (R380). -/
def execTaskBind (b : BindInfo) (s : State) : Host.Outcome State Fault Refusal :=
  .next (match s.head b.part with
    | some t =>
      match s.image t.image with
      | some img =>
        if s.boot.phase == .ready && t.st == .pending && s.mayBind t img b.cores && s.privsOk b.ranges b.root b.cores b.privs &&
            rangesOk b.ranges && ringsOk b.rings then s.bindTask t img b else s
      | none => s
    | none => s)

/-! ### Ending a task (R293, R382, R383, R392) -/

/-- The completion dword (R383). Log 15, DEDUCED. -/
def complWord (task code : Nat) : Word := wd (task % 2 ^ 32 * 2 ^ 32 + 256 + code % 256)

/-- Writing a completion dword as a remote write of the firmware: a core without a bound task refuses it, a gated stripe
takes none, and no write of the firmware leaves the package (R243, R312, R383, R435; log 15, DEDUCED). Vector 3 is raised where it
is written (R428). -/
def State.writeCompl (s : State) (addr : Word) (task code : Nat) : State :=
  let bs := leBytes 8 (complWord task code).toNat
  if addr = 0 then s
  else
    match s.place 0 addr with
    | none => s
    | some p =>
      if p.pkg == s.boot.pkg && (s.core p.core).slot.st == .run && !(s.core p.core).gated p.off then
        (s.updCore p.core (fun x => (x.touch p.off (s.eff p.core)).spadWrite p.off bs)).raiseIrq 3
      else s

/-- A graph node's outcome (R387). -/
def State.noteNode (s : State) (node : Option (Nat × Nat)) (code : Nat) : State :=
  match node with
  | none => s
  | some (n, i) => s.updFw (fun w => { w with insts := w.insts.map (fun g =>
      if g.num == n then { g with nodes := g.nodes.zipIdx.map (fun x => if x.2 == i then (x.1.1, some code) else x.1) } else g) })

/-- Bytes of an abandoned copy that it had not yet written are undefined (R392). -/
def State.freeTail (s : State) (c : Cmd) : State :=
  if c.chunks ≤ c.next then s
  else
    let k := (c.chunk c.next).rest c.nextByte
    let x := s.chunkSides (s.portOf { c with leases := [] }) k
    let bs := (List.range k.len).map (fun j => Config.freeByte (s.freeCount + j))
    State.freeRest c (c.chunks - c.next - 1) (c.next + 1)
      { State.writeSides c.fillMode x.dst bs s with freeCount := s.freeCount + k.len }

/-- The runs of scratchpad bytes that an abandoned command had not yet written: where it lands in its own core, and what it
writes at its targets (R392, R440). -/
def State.unwritten (s : State) (core : Nat) (c : Cmd) : List (Place × Nat) :=
  let at_ (i : Nat) : Req := (c.reqs.find? (fun r => r.idx == i)).getD { idx := i }
  let lands := (List.range c.nReqs).filterMap (fun i =>
    if (at_ i).landed then none
    else (c.landing i).map (fun o => (⟨s.boot.pkg, core, o⟩, match c.kind with | .ratom .. => 8 | _ => c.reqBytes i)))
  let sends := (List.range c.nReqs).filterMap (fun i =>
    if (at_ i).arrived then none else (s.reqPlace core c i).map (fun p => (p, c.reqBytes i)))
  match c.kind with
  | .rget .. | .rgath .. => lands
  | .rput .. | .rscat .. | .binit .. | .barr .. => sends
  | .ratom .. => lands ++ sends
  | .mcst off data mask => (maskCores core mask).map (fun t => (⟨s.boot.pkg, t, off⟩, data.length))
  | .tclass _ => []
  | k =>
    match k.fillSlot with
    | some n => [(⟨s.boot.pkg, core, n * slotSize + 128 * c.next⟩, slotSize - 128 * c.next)]
    | none => []

/-- Bytes that an abandoned command had not yet written, at any scratchpad that would have taken them, are undefined (R392,
R440). -/
def State.freeUnwritten (s : State) (core : Nat) (c : Cmd) : State :=
  let task := (s.ctx core c.ctx).task
  (s.unwritten core c).foldl (fun (s : State) p =>
    let bs := (List.range p.2).map (fun j => Config.freeByte (s.freeCount + j))
    let ok := decide (p.1.off + p.2 ≤ spadSize) && (p.1.core == core || s.refusal task p.1 p.2 == 0)
    let s1 := if p.1.pkg != s.boot.pkg then s.foreignWrite p.1 bs
              else if ok then s.niWrite core c p.1.core p.1.off bs else s
    { s1 with freeCount := s.freeCount + p.2 }) s

/-- The words of an abandoned OVL, queued or running, are undefined, for it writes them as it completes (R291, R392). -/
def State.freeOvl (s : State) (c : Cmd) : State :=
  match c.kind with
  | .ovl n =>
    match s.ovlFor s.cur.core n with
    | some o => s.freeWords o
    | none => s
  | _ => s

/-- Abandoning the commands of a context (R392). -/
def State.abandonCmds (s : State) (core k : Nat) : State :=
  let l := (s.core core).cmds.filter (fun c => c.ctx == k)
  let s1 := l.foldl (fun (s : State) c => (s.doAs core k (fun s => (s.freeTail c).freeOvl c)).freeUnwritten core c) s
  s1.updCore core (fun x => { x with cmds := x.cmds.filter (fun c => c.ctx != k) })

/-- Ending a context of a task: taken at its boundary, its stores performed, its commands abandoned (R129, R383, R392). -/
def State.quitCtx (s : State) (core k : Nat) : State := ((s.takeAway core k).drain core k).abandonCmds core k

/-- The contexts of a task on a core. -/
def State.ctxsOf (s : State) (task core : Nat) : List Nat :=
  [0, 1, 2, 3].filter (fun k => (s.ctx core k).task == some task)

/-- Unbinding every context of a task on a core; a core whose owner it was becomes FREE (R335, R382). -/
def State.unbindCore (task : Nat) (s : State) (core : Nat) : State :=
  let s1 := (s.ctxsOf task core).foldl (fun (s : State) k => s.updCore core (fun x =>
    if isEddy k then x.freeBankAt k else x.setCtx k Ctx.reset)) s
  let s2 := s1.updCore core (fun x =>
    if x.slot.task == task then { x with slot := {}, abandon := false, issueBuf := none,
                                         lend := { x.lend with kept := none } } else x)
  s2.settleIdle core

/-- Stopping every context of a task on its cores. -/
def State.quitTask (s : State) (t : Task) (cores : List Nat) : State :=
  cores.foldl (fun (s : State) c => (s.ctxsOf t.num c).foldl (fun (s : State) k => s.quitCtx c k) s) s

/-- Whether a completion code is a cause that halted the task (R383, R428). -/
def haltCode (code : Nat) : Bool := code != 0xFE && code != 0xFD && code != 0xFC

/-- Ending a task with a completion code (R376, R377, R382, R383, R387, R428). -/
def State.endTask (s : State) (t : Task) (code : Nat) : State :=
  let held := t.cores.filter (fun c => !(s.ctxsOf t.num c).isEmpty || (s.core c).slot.task == t.num)
  let s := s.quitTask t held
  let s := held.foldl (State.unbindCore t.num) s
  let s := (s.updTask t.num (fun t => { t with st := .ended, code := some code, reserved := 0, pool := none, ckpt := false,
                                               drainAt := none, saved := [] })).freePool t.pool
  let s := t.cores.foldl (fun (s : State) c => s.unseal (dieOf c)) s
  let s := s.noteNode t.node code
  let s := s.writeCompl (recCompl t.record) t.num code
  if haltCode code then s.raiseIrq 2 else s

/-- The cause that halted an owner context of a task, if one was and no debugger holds it (R187, R191, R200). Log 76, DEDUCED. -/
def State.haltedCause (s : State) (t : Task) : Option Nat :=
  t.cores.findSome? (fun c =>
    match (s.ctx c 0).task, (s.ctx c 0).run with
    | some n, .halted k => if n = t.num then some k else none
    | _, _ => none)

/-- The code a bound task is to end with now, if it is (R183, R184, R187, R382, R383). Log 76, DEDUCED. -/
def State.endDue (s : State) (t : Task) : Option Nat :=
  if t.st != .bound then none
  else
    match s.haltedCause t with
    | some k => some k
    | none =>
      match t.code with
      | some k => some k
      | none =>
        if !t.harvest && t.cores.all (fun c => (s.core c).slot.task != t.num || (s.core c).slot.st == .release) then some 0xFE
        else none

/-- TASK_END (R383). -/
def execTaskEnd (s : State) : Host.Outcome State Fault Refusal :=
  .next (match s.task s.cur.id with
    | some t => match s.endDue t with | some k => s.endTask t k | none => s
    | none => s)

/-! ### Pre-emption (R391, R392) -/

/-- Cores that become free for a partition's head: of tasks that drain, or whose checkpoint was decided. -/
def State.freeing (s : State) (part : Nat) (img : Image) (c : Nat) : Bool :=
  s.coreServes part img c &&
  (match s.task (s.core c).slot.task with
   | some t => (s.core c).slot.st != .free && t.st == .bound && (t.drainAt.isSome || t.ckpt)
   | none => false)

/-- The bound tasks of a partition strictly below a priority that nothing was decided on. -/
def State.lower (s : State) (h : Task) : List Task :=
  s.fw.tasks.filter (fun t => t.st == .bound && t.part == h.part && decide (t.prio < h.prio) && !t.harvest &&
    t.drainAt.isNone && !t.ckpt)

/-- Whether a task's cores can serve the head's SHAPE, once those of the lower tasks are free (R391). -/
def State.serves (s : State) (h : Task) (img : Image) (v : Task) : Bool :=
  let lows := (s.lower h).flatMap s.held
  let ok (c : Nat) : Bool :=
    s.coreFree h.part img c || s.freeing h.part img c || (lows.contains c && s.coreServes h.part img c)
  (places (recShape h.record) (recCores h.record) ok).any (fun l =>
    decide (recCores h.record ≤ l.length) && l.any (fun c => (s.held v).contains c))

/-- The victim taken next: of lowest priority, among equals the one accepted last (R391). -/
def State.victim (s : State) (h : Task) (img : Image) : Option Task :=
  let l := (s.lower h).filter (s.serves h img)
  l.find? (fun a => l.all (fun b => b.num == a.num || decide (a.prio < b.prio) || (a.prio == b.prio && decide (b.seq < a.seq))))

/-- Whether the head cannot bind even on the cores that are free or become free. -/
def State.blocked (s : State) (h : Task) (img : Image) : Bool :=
  !canPlace (recShape h.record) (recCores h.record) (fun c => s.coreFree h.part img c || s.freeing h.part img c)

/-- The largest CYCLES of a task's owner contexts (R392). -/
def State.elapsed (s : State) (t : Task) : Nat := ((s.held t).map (fun c => (s.ctx c 0).csr.cycles.toNat)).foldl max 0

/-- Noting the lend that a checkpoint revokes, with the owner's banks that run (R395). -/
def CoreState.noteLend (x : CoreState) : CoreState :=
  if x.lend.cfg.active then
    { x with lend := { x.lend with
        resume := some (x.lend.cfg, [1, 2, 3].filter (fun k => (x.bank k).st == .run && !(x.bank k).origin)) } }
  else x

/-- Deciding a checkpoint: on the cores that the task holds, lends are revoked and its contexts stop (R393). -/
def State.decideCkpt (s : State) (t : Task) : State :=
  let cores := s.held t
  let s := s.updTask t.num (fun t => { t with ckpt := true, drainAt := none })
  let s := cores.foldl (fun (s : State) c => (s.updCore c CoreState.noteLend).startRevoke c) s
  cores.foldl (fun (s : State) c => (s.ctxsOf t.num c).foldl (fun (s : State) k => s.takeAway c k) s) s

/-- KILL or CHECKPOINT, by RST (R392). -/
def State.killOrSave (s : State) (t : Task) : State :=
  if recRst t.record then s.endTask t 0xFD else s.decideCkpt t

/-- The action on a victim (R392). -/
def State.preempt (s : State) (t : Task) : State :=
  let draint : Nat := match s.part t.part with | some p => p.draint | none => 600000
  let est := recEstimate t.record
  if est ≠ 0 ∧ (est : Int) - (s.elapsed t : Int) < (draint : Int) then
    s.updTask t.num (fun t => { t with drainAt := some (s.eff (t.cores.headD 0) + draint) })
  else s.killOrSave t

/-- PREEMPTION_DECISION: one victim at a time (R391, R392). -/
def execPreemptionDecision (s : State) : Host.Outcome State Fault Refusal :=
  .next (match s.head s.cur.id with
    | some h =>
      match s.image h.image with
      | some img =>
        if s.boot.phase == .ready && s.blocked h img then
          match s.victim h img with | some v => s.preempt v | none => s
        else s
      | none => s
    | none => s)

/-- DRAIN_TIMEOUT (R392). -/
def execDrainTimeout (s : State) : Host.Outcome State Fault Refusal :=
  .next (match s.task s.cur.id with
    | some t =>
      match t.drainAt with
      | some n => if t.st == .bound && decide (n ≤ s.eff (t.cores.headD 0)) then s.killOrSave t else s
      | none => s
    | none => s)

/-! ### Graphs (R386-R388) -/

/-- A graph. -/
def State.graphOf (s : State) (h : Nat) : Option Graph := s.fw.graphs.find? (fun g => g.handle == h)
/-- An instance. -/
def State.inst (s : State) (n : Nat) : Option GInst := s.fw.insts.find? (fun i => i.num == n)

/-- Whether every node of an instance has ended or been skipped. -/
def GInst.done (i : GInst) : Bool := i.nodes.all (fun n => n.2.isSome)

/-- Whether an earlier instance of the graph has not completed (R388). -/
def State.earlier (s : State) (i : GInst) : Bool :=
  s.fw.insts.any (fun j => j.graph == i.graph && decide (j.seq < i.seq) && j.pool.isSome)

/-- The codes of a node's predecessors; none where one has not ended. -/
def GInst.preds (i : GInst) (mask : Nat) : List (Option Nat) :=
  i.nodes.zipIdx.filterMap (fun n => if (mask / 2 ^ n.2) % 2 = 1 then some n.1.2 else none)

/-- What is to happen to a node: launched, skipped, or nothing yet (R387). -/
def State.nodeDue (s : State) (i : GInst) (k : Nat) : Option Bool :=
  match s.graphOf i.graph, i.nodes[k]? with
  | some g, some (none, none) =>
    match g.nodes[k]? with
    | none => none
    | some n =>
      if i.pool.isNone || (!g.reent && s.earlier i) then none
      else
        let l := i.preds n.pred
        if l.any (fun c => match c with | some c => c != 0xFE | none => false) then some false
        else if l.all (·.isSome) then some true
        else none
  | _, _ => none

/-- The task of a launched node. -/
def State.setNodeTask (s : State) (i : GInst) (k n : Nat) : State :=
  s.updFw (fun w => { w with insts := w.insts.map (fun g =>
    if g.num == i.num then { g with nodes := g.nodes.zipIdx.map (fun x => if x.2 == k then (some n, x.1.2) else x.1) } else g) })

/-- The partition of host launches: the lowest-numbered (log 16, DESIGN CHOICE). -/
def State.hostPart (s : State) : Nat := ((s.fw.parts.map (·.num)).foldl (fun m n => min m n) 16)

/-- Launching node `k` of an instance: it draws no pool entry (R378, R387). -/
def State.launchNode (s : State) (i : GInst) (g : Graph) (k : Nat) (r : List Word) : State :=
  let n := s.nextTask
  let parent := i.task.bind s.task
  let part := match parent with | some t => t.part | none => s.hostPart
  let prio := match parent with | some t => min (recPrio r) t.prio | none => recPrio r
  (s.queueTask g.image r part prio parent.isSome i.task (some (i.num, k)) none).setNodeTask i k n

/-- GRAPH_NODE_LAUNCH: a node all of whose predecessors ended with 0xFE launches; one with another predecessor is
skipped and its completion dword takes 0xFC (R387, R388). -/
def execGraphNodeLaunch (s : State) : Host.Outcome State Fault Refusal :=
  .next (match s.inst s.cur.id with
    | some i =>
      match s.graphOf i.graph, s.nodeDue i s.cur.idx with
      | some g, some go =>
        let r := match g.nodes[s.cur.idx]? with | some n => n.record | none => []
        if go then s.launchNode i g s.cur.idx r
        else (s.noteNode (some (i.num, s.cur.idx)) 0xFC).writeCompl (recCompl r) 0 0xFC
      | _, _ => s
    | none => s)

/-- The code of a completed instance (R387). -/
def GInst.code (i : GInst) : Nat := (i.nodes.findSome? (fun n => if n.2 = some 0xFE then none else n.2)).getD 0xFE

/-- GRAPH_INSTANCE_COMPLETE: its entry leaves the pool and B's dword is written (R387). -/
def execGraphInstanceComplete (s : State) : Host.Outcome State Fault Refusal :=
  .next (match s.inst s.cur.id with
    | some i =>
      if i.done && i.pool.isSome then
        let s1 := s.updFw (fun w => { w with insts := w.insts.map (fun g => if g.num == i.num then { g with pool := none } else g) })
        (s1.freePool i.pool).writeCompl i.compl 0 i.code
      else s
    | none => s)

end Sys2Proof.Machine
end

