-- ==== Sys2Proof/Machine/EvSave.lean ====
section
/-! DEFINITION. Saving a task's cores and a tenant eddy, and restoring them; binding a tenant eddy (R301, R304, R306,
R393-R402). What the sections of a saved image stand for is kept as data (log 17, DESIGN CHOICE). -/

namespace Sys2Proof.Machine

/-! ### Checkpoint (R393, R394, R400) -/

/-- Whether a command stands at a boundary of R394: no tile op runs, no chunk is in progress, and every reply to a
request that was sent has landed. -/
def Cmd.atBoundary (c : Cmd) : Bool :=
  if c.kind.isTile || c.kind.isNi then !c.started
  else if c.kind.isDcpy then c.nextByte == 0 && !c.ended
  else match c.kind with | .cpy .. => c.nextByte == 0 | _ => true

/-- Whether a core of a task may be saved: lends are revoked, tenant eddies saved, its engines at a boundary. -/
def CoreState.mayForget (x : CoreState) : Bool :=
  !x.lend.cfg.active && !x.lend.cfg.busy && x.lend.rev.isEmpty &&
  [1, 2, 3].all (fun k => !(x.bank k).origin || (x.bank k).st == .free) && x.cmds.all Cmd.atBoundary

/-- Whether a bank of an accumulator holds non-default state. -/
def Bank.live (b : Bank) : Bool := b.fp64 || !b.mem.isEmpty
/-- The two banks. -/
def Acc.banks (a : Acc) : List Bank := [a.work, a.vis]

/-- Whether a command has FP64 tags: the bank tag of MZERO, ATAG or BTAG of a global word (R247, R400). -/
def CmdKind.fp64 : CmdKind → Bool
  | .mzero _ f => f
  | .mgo _ g _ | .mstep _ g _ _ => tagOf (bitsOf 27 24 g) == .fp64 || tagOf (bitsOf 23 20 g) == .fp64
  | _ => false

/-- The LIVE bitmap of a core (R400). -/
def CoreState.live (x : CoreState) (rings : List Ring) (die : Nat) : BitVec 16 :=
  let banks := x.accs.toList.flatMap Acc.banks
  let b0 := banks.any Bank.live || x.shadow.toList.any (· != 0) || x.cmds.any (·.kind.isSeq)
  let b1 := x.wloaded != 0
  let b2 := [1, 2, 3].any (fun k => (x.bank k).st != .free) || x.lend.cfg.active || x.lend.resume.isSome
  let b3 := x.ctxs.toList.any (·.armed) || !x.sched.isEmpty
  let b4 := rings.any (fun r => r.die == die && r.tail != 0)
  let b5 := x.ctxs.toList.any (fun c => !c.nx.isEmpty)
  let b6 := banks.any (·.fp64) || x.cmds.any (·.kind.fp64)
  BitVec.ofNat 16 (bnat b0 + 2 * bnat b1 + 4 * bnat b2 + 8 * bnat b3 + 16 * bnat b4 + 32 * bnat b5 + 64 * bnat b6)

/-- A dword of a header. -/
def dword (n : Nat) : List Byte := leBytes 8 n

/-- The content of a section of a core's image (R399): the tile table in the layout of R223, and the `.keep` bytes as runs of
offset and length. The spec lays out no other section: its length and bytes are free values, which stand for the state
kept beside them. Log 17, DESIGN CHOICE. -/
def sectionBytes (x : CoreState) (img : Image) (n k : Nat) : List Byte :=
  if k = 5 then (List.range 128).flatMap (fun i => dword (tileWord (x.tile i)).toNat)
  else if k = 6 then
    (img.regions.filter (·.keep)).flatMap (fun r =>
      dword (r.start * slotSize) ++ dword (r.count * slotSize) ++ x.spad.readBytes (r.start * slotSize) (r.count * slotSize))
  else (List.range ((Config.freeWord (n + k)).toNat % 4096)).map (fun i => Config.freeByte (n + 16 + 4096 * k + i))

/-- Free values that an image takes. -/
def imageFree : Nat := 16 + 4096 * 16

/-- The directory of sections and then their bytes, for sections that begin at `off` (R398). -/
def layoutSections (off : Nat) : List (Nat × List Byte) → List Byte × List Byte
  | [] => ([], [])
  | (k, bs) :: rest =>
    let r := layoutSections (off + bs.length) rest
    (dword (off * 256 + k) ++ dword bs.length ++ r.1, bs ++ r.2)

/-- The bytes of an image: the header, the directory and the sections (R398-R400). -/
def imageBytes (task core live : Nat) (secs : List (Nat × List Byte)) : List Byte :=
  let l := layoutSections (64 + 16 * secs.length) secs
  let body := l.1 ++ l.2
  dword (2 ^ 48 + Config.devRev % 2 ^ 16 * 2 ^ 32 + secs.length) ++ dword live ++ dword (task % 2 ^ 32 * 2 ^ 32 + core) ++
    dword (64 + body.length) ++ dword (crc32 body).toNat ++ dword 0 ++ dword 0 ++ dword 0 ++ body

/-- Where the firmware puts an image: in the HBM of the core's die, at a place that is a free value (R393). Log 17, DESIGN
CHOICE. -/
def imagePlace (core n : Nat) : Nat := dieOf core * 0x1800000000 + 64 * ((Config.freeWord n).toNat % 0x30000000)

/-- Writing the image of a core's state into HBM; the record names its place (R393, R398). -/
def State.writeImage (s : State) (task core : Nat) (img : Image) (rings : List Ring) (x : CoreState) : State × SavedImage :=
  let a := imagePlace core s.freeCount
  let secs := ((List.range 11).map (· + 1)).map (fun k => (k, sectionBytes x img s.freeCount k))
  let bs := imageBytes task core (x.live rings (dieOf core)).toNat secs
  ({ s.physCells (bs.zipIdx.map (fun b => (a + b.2, b.1))) with freeCount := s.freeCount + imageFree }, ⟨core, a, x⟩)

/-- Writing the images of a task's cores, in their order. -/
def State.writeImages (t : Task) (img : Image) : List Nat → State → State × List SavedImage
  | [], s => (s, [])
  | c :: rest, s =>
    let a := s.writeImage t.num c img t.rings (s.core c)
    let r := State.writeImages t img rest a.1
    (r.1, a.2 :: r.2)

/-- Taking a checkpoint of the cores that the task holds: stores are performed, images written, the cores become FREE without
ending the task (R393). Log 17, DESIGN CHOICE. Log 77, DEDUCED. -/
def State.checkpointTask (s : State) (t : Task) (img : Image) : State :=
  let cores := s.held t
  let s := cores.foldl (fun (s : State) c => (s.ctxsOf t.num c).foldl (fun (s : State) k => s.drain c k) s) s
  let w := State.writeImages t img cores s
  let s := w.1.updTask t.num (fun t => { t with st := .saved, ckpt := false, drainAt := none, saved := w.2, pool := none })
  cores.foldl (fun (s : State) c => State.unbindCore t.num (s.updCore c (fun x => { x with cmds := [] })) c) s

/-- CHECKPOINT (R393, R394). -/
def execCheckpoint (s : State) : Host.Outcome State Fault Refusal :=
  .next (match s.task s.cur.id with
    | some t =>
      match s.image t.image with
      | some img =>
        if t.st == .bound && t.ckpt && (s.held t).all (fun c => (s.core c).mayForget) then s.checkpointTask t img else s
      | none => s
    | none => s)

/-! ### The checks of a restore (R401) -/

/-- What a restore reports (R401). -/
inductive RestoreStatus where
  | ok | integrity | formatNewer | featureAbsent (bit : Nat) | allowance | coreAbsent
  deriving DecidableEq, Repr

/-- The features of the MK940, the bits of R400. -/
def features : Nat := 0x7F

/-- The lowest bit of a mask that is not a feature of the MK940. -/
def absentFeature (mask : Nat) : Option Nat := (List.range 16).find? (fun i => mask / 2 ^ i % 2 = 1 ∧ features / 2 ^ i % 2 = 0)

/-- A dword of a saved image's header, as memory holds it. -/
def State.imageDword (s : State) (m : SavedImage) (k : Nat) : Word := s.phys.mem.readWord (m.addr + 8 * k)

/-- Whether CHECK matches the image's bytes and every line of it can be read (R354, R401). -/
def State.imageIntact (s : State) (m : SavedImage) : Bool :=
  let n := (s.imageDword m 3).toNat
  decide (64 ≤ n) && (crc32 (s.phys.mem.readBytes (m.addr + 64) (n - 64))).toNat == bitsOf 31 0 (s.imageDword m 4) &&
  !s.phys.poison.any (fun l => runsMeet (64 * l) 64 m.addr n)

/-- Checking an image for a core (R401). -/
def State.restoreStatus (s : State) (m : SavedImage) (img : Image) (core : Nat) : RestoreStatus :=
  if !s.imageIntact m then .integrity
  else if 1 < bitsOf 63 48 (s.imageDword m 0) then .formatNewer
  else
    match absentFeature (bitsOf 15 0 (s.imageDword m 1)) with
    | some b => .featureAbsent b
    | none =>
      if 96 < img.weirf then .allowance
      else if nCores ≤ core ∨ nCores ≤ bitsOf 11 0 (s.imageDword m 2) ∨ s.fw.deadCores.contains core then .coreAbsent
      else .ok

/-- The number of a status in the order of R401, and the bit it names. -/
def RestoreStatus.code : RestoreStatus → Nat × Nat
  | .ok => (0, 0) | .integrity => (1, 0) | .formatNewer => (2, 0) | .featureAbsent b => (3, b) | .allowance => (4, 0)
  | .coreAbsent => (5, 0)

/-- Reporting the status of a restore. Log 77, DEDUCED. -/
def State.reportRestore (s : State) (st : RestoreStatus) (core : Nat) : State :=
  s.report ⟨0, wd (st.code.1 + 256 * st.code.2), wd core⟩

/-! ### Restore (R395, R396) -/

/-- The slots of an image's `.keep` regions. -/
def Image.keepSlots (i : Image) : List Nat :=
  i.regions.flatMap (fun r => if r.keep then regionSlots r.start r.count else [])

/-- The bytes of `.keep` slots (R395, R396). -/
def keptBytes (slots : List Nat) (m : Mem) : Mem :=
  slots.foldl (fun (n : Mem) k => n.below (k * slotSize) ++ (m.slice (k * slotSize) slotSize ++ n.above ((k + 1) * slotSize))) []

/-- Whether a core has a byte below the extent that no `.keep` names (R396). -/
def Image.discards (i : Image) : Bool := (List.range (i.extent / slotSize)).any (fun k => !i.keepSlots.contains k)

/-- The tile entry of a slot after restore (R394-R396): exact in a `.keep` region. Elsewhere its bytes are zero: under a saved
command it keeps its state, a fill is spoiled, since bytes it wrote are gone, and a drained slot is reclaimed, so that no class
is shown that does not hold (R224). Log 77, DEDUCED. -/
def Image.restoredEnt (i : Image) (x : CoreState) (n : Nat) : TileEnt :=
  let e := x.tile n
  if i.keepSlots.contains n then e
  else if i.extent ≤ n * slotSize then {}
  else if e.st == .filling then { e with spoil := true }
  else { reclaimEnt e with st := if e.st == .draining then .draining else .ready }

/-- A context after restore (R395): the window starts empty, RES is 4, budgets start full, no wait is carried over. -/
def Ctx.restored (discard : Bool) (c : Ctx) : Ctx :=
  { c with
    window := []
    waits := {}
    denied := 0
    deniedCycles := 0
    tr := { c.tr with res := 4 }
    csr := { c.csr with issueLeft := c.csr.issueBud, niLeft := c.csr.niBud, discard := c.csr.discard || discard } }

/-- Re-establishing a lend (R395): its stripes are ungated, its region reclaimed and a kept copy put back, and the banks
that were RUN run again. -/
def CoreState.relend (x : CoreState) (eff : Nat) : CoreState :=
  match x.lend.resume with
  | none => x
  | some (l, ks) =>
    let x := (x.ungate l.start l.count eff).reclaim l.start l.count eff
    let x := match x.lend.kept with
      | some k => if k.start == l.start && k.count == l.count then x.restoreKept k eff else x
      | none => x
    let x := { x with lend := { x.lend with cfg := { l with active := true, busy := false }, kept := none, resume := none } }
    ks.foldl (fun x k => if (x.bank k).st == .parked then x.resumeBank k else x) x

/-- What a saved core puts back on a core (R395, R396). -/
def CoreState.restoreFrom (x m : CoreState) (img : Image) (eff : Nat) : CoreState :=
  let d := img.discards
  let x := { x with
    spad := keptBytes img.keepSlots m.spad
    spadPoison := m.spadPoison.filter (fun r => img.keepSlots.contains (r / 128))
    tiles := Vector.ofFn (fun n : Fin 128 => img.restoredEnt m n.val)
    accs := m.accs
    shadow := m.shadow
    wbuf := m.wbuf
    wloaded := m.wloaded
    cmds := m.cmds
    abandon := m.abandon
    lend := m.lend
    banks := m.banks
    ctxs := m.ctxs.map (Ctx.restored d) }
  x.relend eff

/-- The overlays resident at the checkpoint, in the order of their records. -/
def CoreState.residents (m : CoreState) (img : Image) : List Overlay :=
  m.resid.filterMap (fun r => if r.res && r.image == img.id then img.overlay r.ovl else none)

/-- A saved command on the core its task is restored on: a DCPY goes to the engine that its PATH gives it there and starts again
in its turn, from its boundary (R349, R394, R395). -/
def State.rehome (s : State) (core : Nat) (t : Task) (c : Cmd) : Cmd :=
  match c.kind with
  | .dcpy d _ _ p _ => { c with eng := dcpyEngine s core (some t) p d, started := false }
  | _ => c

/-- A saved core with its commands as they are on the core it is restored on. -/
def State.rehomed (s : State) (core : Nat) (t : Task) (m : SavedImage) : SavedImage :=
  { m with st := { m.st with cmds := m.st.cmds.map (s.rehome core t) } }

/-- Whether every engine has room for the DCPYs among some commands: it holds 64 (R349). Log 113, DESIGN CHOICE. -/
def State.dcpyRoom (s : State) (l : List Cmd) : Bool :=
  let q := l.filter (fun c => c.kind.isDcpy)
  q.all (fun c => decide (dcpyCount s c.eng + (q.filter (fun d => d.eng == c.eng)).length ≤ 64))

/-- Whether the engines have room for the commands of a saved task on some cores. -/
def State.taskRoom (s : State) (t : Task) (cores : List Nat) : Bool :=
  s.dcpyRoom ((t.saved.zip cores).flatMap (fun p => (s.rehomed p.2 t p.1).st.cmds))

/-- Restoring one core of a task (R380, R395): its contexts take the budgets in force, IMG names the image, and every overlay
resident at the checkpoint is loaded from the core's view (R372, R379, R417). -/
def State.restoreCore (s : State) (t : Task) (img : Image) (p : SavedImage × Nat) : State :=
  let s := s.updCore p.2 (fun x =>
    let m := { p.1.st with ctxs := p.1.st.ctxs.map (s.budgeted t) }
    let y := ({ x with copyBud := s.copyOf p.2 }.fresh img t (s.bindEff p.2)).restoreFrom m img (s.bindEff p.2)
    x.turnedOn { y with
      slot := { y.slot with img := p.1.addr }
      resid := y.resid.map (fun r => if r.image == img.id then { r with res := false } else r) } s.master)
  (p.1.st.residents img).foldl (fun (s : State) o => s.loadOverlay p.2 img o) s

/-- Moving a task's windows and rings with its cores (R351, R395, R402, R454): a window keeps its context, and the rings that
the old core's die showed are shown on the new one's. -/
def Task.moved (t : Task) (cores : List Nat) : Task :=
  let pairs := (t.saved.map (·.core)).zip cores
  let core (c : Nat) : Nat := match pairs.find? (fun p => p.1 == c) with | some p => p.2 | none => c
  let die (d : Nat) : Nat :=
    match pairs with
    | [p] => if d = dieOf p.1 then dieOf p.2 else if d = dieOf p.2 then dieOf p.1 else d
    | _ => d
  { t with privs := t.privs.map (fun p => { p with core := core p.core }),
           rings := t.rings.map (fun r => { r with die := die r.die }) }

/-- Restoring a task on cores (R395). Log 17, DESIGN CHOICE. Log 77, DEDUCED. -/
def State.restoreTask (s : State) (t : Task) (img : Image) (cores : List Nat) : State :=
  let t2 : Task := { t.moved cores with st := .bound, cores := cores, saved := [], drainAt := none, ckpt := false }
  let saved := (t.saved.zip cores).map (fun p => (s.rehomed p.2 t p.1, p.2))
  let s := (s.updTask t.num (fun _ => { t2 with pool := none })).passPool t
  let s := saved.foldl (fun (s : State) p => s.restoreCore t2 img p) s
  ((s.powerUp cores).sealDies cores).startTask t2

/-- The partition of some cores. -/
def State.partOf (s : State) (cores : List Nat) : Nat :=
  match s.fw.parts.find? (fun p => p.clusters.contains (clusterOf (cores.headD 0))) with | some p => p.num | none => 16

/-- The cores a saved task may resume on (R402): those that its images name or, for a task of one core, any one core, which
meets every SHAPE. -/
def Task.sameCores (t : Task) (cores : List Nat) : Bool :=
  cores == t.saved.map (·.core) || (cores.length == 1 && t.saved.length == 1 && recCores t.record == 1)

/-- CONTEXT_RESTORE: the saved head of a partition's queue; the first core whose check fails decides the status reported, and
with none the task is restored and OK reported (R395, R401, R402). -/
def execContextRestore (cores : List Nat) (s : State) : Host.Outcome State Fault Refusal :=
  .next (match s.head (s.partOf cores) with
    | some t =>
      match s.image t.image with
      | some img =>
        if s.boot.phase == .ready && t.st == .saved && t.sameCores cores then
          match (t.saved.zip cores).find? (fun p => s.restoreStatus p.1 img p.2 != .ok) with
          | some p => s.reportRestore (s.restoreStatus p.1 img p.2) p.2
          | none =>
            if s.taskRoom t cores && cores.all (fun c => s.coreFree t.part img c && (s.core c).clear) then
              (s.restoreTask t img cores).reportRestore .ok (cores.headD 0)
            else s
        else s
      | none => s
    | none => s)

/-! ### Tenant eddies (R301, R304, R306) -/

/-- The overlay a tenant eddy runs from. -/
def State.tenantCode (s : State) (t : Task) : Option (Image × Overlay) :=
  match s.image t.image with
  | some img => (img.overlay (recOvl t.record)).map (fun o => (img, o))
  | none => none

/-- Whether words may be pinned on a core: outside every resident overlay, every pinned range and every overlay that a
started OVL is writing (R306). -/
def State.mayPin (s : State) (core : Nat) (o : Overlay) : Bool :=
  (s.core core).resid.all (fun r => !r.res || !runsMeet o.off (8 * o.words.length) r.off (8 * r.len)) &&
  (s.pinned core).all (fun p => !runsMeet o.off (8 * o.words.length) p.1 p.2) &&
  o.words.zipIdx.all (fun w => !s.beingLoaded core (BitVec.ofNat 16 (o.off + 8 * w.2)))

/-- The context of a task in a saved image of a tenant eddy. -/
def SavedImage.eddy (m : SavedImage) (task : Nat) : Ctx :=
  m.st.ctx (([1, 2, 3].find? (fun k => (m.st.ctx k).task == some task)).getD 1)

/-- Whether the firmware may bind a tenant eddy: on a core of its partition, and unless it was saved only the head of its
queue, whose children's entries can be reserved; a saved one keeps its window, which must be mapped (R301, R305, R306, R375,
R377, R378, R402, R454). -/
def State.mayLodge (s : State) (b : EddyBindInfo) (t : Task) (img : Image) (o : Overlay) : Bool :=
  let x := s.core b.core
  let l := x.lend
  decide (b.core < nCores) && isEddy b.bank && decide (b.bank < 4) && l.cfg.active && !l.cfg.busy &&
  (x.bank b.bank).st == .free && decide (1 ≤ b.share) && decide (img.weirf ≤ b.share) && decide (b.share ≤ 96) &&
  decide (x.shares + b.share ≤ l.cfg.share) && recCores t.record == 1 && s.mayPin b.core o &&
  s.hasView img (clusterOf b.core) && rangesOk b.ranges && s.windowOk b.ranges b.root b.priv &&
  (match s.part t.part with | some p => p.clusters.contains (clusterOf b.core) | none => false) &&
  (if b.restore then
    t.st == .saved && t.harvest &&
      (match t.saved.head? with
       | some m => s.windowOk b.ranges b.root (m.eddy t.num).csr.privbase &&
         (match m.st.lend.kept with | some k => k.start == l.cfg.start && k.count == l.cfg.count | none => true)
       | none => false)
   else t.st == .pending && (s.head t.part).map (·.num) == some t.num && s.poolFree (recChildren t.record))

/-- Pinning a tenant's words and putting its context into a bank. -/
def State.lodge (s : State) (b : EddyBindInfo) (img : Image) (o : Overlay) (c : Ctx) : State :=
  s.updCore b.core (fun x =>
    let x := { x with ispad := x.ispad.writeBytes o.off (wordBytes (s.viewWords img (clusterOf b.core) o)) }
    (x.setCtx b.bank c).updBank b.bank (fun k =>
      { k with st := .run, origin := true, rev := false, exit := 0xFF, share := b.share, lent := true, home := none }))

/-- The start of a tenant eddy (R305, R381, R414). Log 78, DEDUCED. -/
def State.tenantStart (s : State) (b : EddyBindInfo) (t : Task) (img : Image) : Start :=
  { s.ownerStart t img b.core with weirf := img.weirf, weira := b.share, weirw := min 768 (8 * b.share), priv := b.priv }

/-- Resuming a saved tenant eddy: its context, whose WEIRA is lowered to its new share, its commands, and a kept copy of the
lent region (R210, R301, R304, R401). -/
def State.resumeTenant (s : State) (b : EddyBindInfo) (img : Image) (o : Overlay) (m : SavedImage) : State :=
  let c := m.eddy b.task
  let c := { c with csr := { c.csr with weira := max c.csr.weirf (min c.csr.weira b.share) } }
  let s := s.lodge b img o (Ctx.restored false (match s.task b.task with | some t => s.budgeted t c | none => c))
  s.updCore b.core (fun x =>
    let x := { x with cmds := x.cmds ++ m.st.cmds.map (fun c => { c with ctx := b.bank }) }
    match m.st.lend.kept with | some q => x.restoreKept q (s.eff b.core) | none => x)

/-- A core whose cluster is to be turned on again for a tenant eddy: the stripes of the lent region are ungated, its slots
reclaimed (R241, R358). -/
def State.relight (s : State) (core : Nat) : State :=
  if (s.cluster (clusterOf core)).gated then
    s.updCore core (fun x => let l := x.lend.cfg; x.turnedOn ((x.ungate l.start l.count 0).reclaim l.start l.count 0) s.master)
  else s

/-- The task of a tenant eddy that is bound: a fresh one has its children's entries reserved; its cluster is turned on where
it is gated, and its die's weight store is sealed (R338, R358, R377). -/
def State.lodgeTask (s : State) (b : EddyBindInfo) (t : Task) : State :=
  let s := (s.updTask t.num (fun t =>
    { t with st := .bound, harvest := true, cores := [b.core], ranges := b.ranges, root := b.root, pool := none, saved := [],
             reserved := if b.restore then t.reserved else recChildren t.record })).freePool t.pool
  ((s.relight b.core).powerUp [b.core]).sealDies [b.core]

/-- FIRMWARE_EDDY_BIND (R301, R306, R402). -/
def execFirmwareEddyBind (b : EddyBindInfo) (s : State) : Host.Outcome State Fault Refusal :=
  .next (match s.task b.task with
    | some t =>
      match s.tenantCode t with
      | some (img, o) =>
        if s.mayLodge b t img o then
          let s1 := s.lodgeTask b t
          if b.restore then
            match t.saved.head? with
            | some m =>
              if s.restoreStatus m img b.core = .ok then (s1.resumeTenant b img o m).reportRestore .ok b.core
              else s.reportRestore (s.restoreStatus m img b.core) b.core
            | none => s
          else s1.lodge b img o (s1.tenantStart b t img).ctx
        else s
      | none => s
    | none => s)

/-- The state of a tenant eddy that is saved: its context, its commands, and the kept copy of the lend it was bound under (R301,
R304). -/
def CoreState.tenantState (x : CoreState) (k : Nat) : CoreState :=
  { (CoreState.reset.setCtx k (x.ctx k)).updBank k (fun _ => x.bank k) with
    cmds := x.cmds.filter (fun c => c.ctx == k)
    lend := { kept := x.lend.kept.filter (fun q => (x.bank k).home == some (q.start, q.count)) } }

/-- Saving the running tenant eddy to its task's memory: its task is saved with the image (R301, R398). Log 17, DESIGN CHOICE. -/
def State.saveTenant (s : State) : State :=
  match s.myTask with
  | some t =>
    match s.image t.image with
    | some img =>
      let w := s.writeImage t.num s.cur.core img [] (s.myCore.tenantState s.cur.ctx)
      w.1.updTask t.num (fun t => { t with st := .saved, cores := [], saved := [w.2] })
    | none => s
  | none => s

/-- EDDY_SAVE: a parked tenant eddy goes to SAVING; when the save is complete its bank is FREE (R301). -/
def execEddySave (s : State) : Host.Outcome State Fault Refusal :=
  onCore (fun s => s.myCore.fwEddy s.cur.ctx &&
      ((s.myCore.bank s.cur.ctx).st == .saving ||
       ((s.myCore.bank s.cur.ctx).st == .parked && !s.myCore.lend.cfg.busy && s.myCore.lend.rev.isEmpty)) &&
      s.myCore.cmds.all (fun c => c.ctx != s.cur.ctx || c.atBoundary))
    (fun s =>
      let k := s.cur.ctx
      if (s.myCore.bank k).st == .parked then s.updMyCore (fun x => x.updBank k (fun b => { b with st := .saving }))
      else
        let s := (s.drain s.cur.core k).saveTenant
        (s.updMyCore (fun x => { x.freeBankAt k with cmds := x.cmds.filter (fun c => c.ctx != k) })).settleIdle s.cur.core) s

end Sys2Proof.Machine
end

