-- ==== Sys2Proof/Machine/EvPower.lean ====
section
/-! DEFINITION. The die's clocks, the cluster controller, boost arbitration, budgets, power-on, drowsy stripes and the
refresh rotation (R242, R339, R358-R370). -/

namespace Sys2Proof.Machine

/-- A meaning of an event of cluster `cur.id`. Log 7, DESIGN CHOICE. Log 11, DESIGN CHOICE. -/
def onCluster (due : State → Bool) (f : State → State) (s : State) : Host.Outcome State Fault Refusal :=
  if 192 ≤ s.cur.id then .fault .noSuchAgent else .next (if due s then f s else s)
/-- A meaning of an event of die `cur.id`. Log 7, DESIGN CHOICE. Log 11, DESIGN CHOICE. -/
def onDie (due : State → Bool) (f : State → State) (s : State) : Host.Outcome State Fault Refusal :=
  if 4 ≤ s.cur.id then .fault .noSuchAgent else .next (if due s then f s else s)

/-! ### The swallow pattern (R359) -/

/-- The slot of the running master pulse (R359). -/
def State.slotNow (s : State) : Nat := (s.master - 1) % 16

/-! ### Power shares (R362, R370, R372) -/

/-- Watts of a partition's clusters together, in units of 1/den: its floor, and its part of the rest of the cap (R370,
R372). With no floor anywhere, the cap is shared by clusters (log 18, DEDUCED). -/
def State.partWatts (s : State) (p : Part) : Nat :=
  let floors := (s.fw.parts.map (·.power)).sum
  if floors = 0 then s.fw.cap * p.clusters.length / max 1 ((s.fw.parts.map (fun q => q.clusters.length)).sum)
  else s.fw.cap * p.power / floors

/-- The largest estimate an interval can reach: 16 cores at 96 wu in 800 cycles (R362). -/
def topEstimate : Nat := 96 * 16 * 800

/-- BUD of a cluster: its share of the cap in wu per interval, the field maximum where that exceeds every reachable estimate
(R362, R370). Log 18, DEDUCED. -/
def State.budOf (s : State) (k : Nat) : Nat :=
  match s.fw.parts.find? (fun p => p.clusters.contains k) with
  | some p =>
    let n := s.partWatts p * Config.wuPerWatt (k / 48) / max 1 p.clusters.length
    if topEstimate < n then 0x3FFFFF else n
  | none => 0x3FFFFF

/-! ### The controller (R361-R364) -/

/-- The integral term after an interval (R361). -/
def integNext (k : ClusterState) : Int := max (-(2 ^ 24)) (min (2 ^ 24 - 1) (k.integ + ((k.bud : Int) - (k.charge : Int))))

/-- The pattern the controller wants (R361). -/
def wantOf (k : ClusterState) : Nat :=
  let e : Int := (k.bud : Int) - (k.charge : Int)
  (max 1 (min 16 (12 + Int.shiftRight e k.kps + Int.shiftRight (integNext k) k.kis))).toNat

/-- The pattern in force or about to be (R359). -/
def ClusterState.kNow (k : ClusterState) : Nat := k.pendKeep.getD k.keep

/-- Permits once the interval that ended is paid for (R363, R364). -/
def permitsLeft (k : ClusterState) : Nat := if 12 < k.kNow && !k.fall then k.permits - 1 else k.permits
/-- Whether the next interval is the first step of the fall (R364). -/
def falls (k : ClusterState) : Bool := decide (12 < k.kNow) && !k.fall && permitsLeft k == 0
/-- Cool-down left after the interval that ended (R364). -/
def coolNext (k : ClusterState) : Nat := if k.fall then 32 else k.cool - 1

/-- Whether a cluster requests boost (R363). -/
def requests (k : ClusterState) : Bool :=
  !k.gated && !falls k && !k.fall && decide (12 < wantOf k) && decide (1 ≤ permitsLeft k) && coolNext k == 0 && k.issuedNow

/-- The priority tokens of a cluster: the highest of the tasks bound to its owner contexts (R363). -/
def State.prioOf (s : State) (k : Nat) : Nat :=
  ((List.range 16).map (fun i =>
    let x := s.core (16 * k + i)
    if x.slot.st == .run || x.slot.st == .bind then x.slot.prio else 0)).foldl max 0

/-- Whether request `a` comes before request `b` (R363). -/
def State.reqBefore (s : State) (a b : Nat) : Bool :=
  decide (s.prioOf b < s.prioOf a) ||
  (s.prioOf a == s.prioOf b &&
    (decide (permitsLeft (s.cluster b) < permitsLeft (s.cluster a)) ||
     (permitsLeft (s.cluster a) == permitsLeft (s.cluster b) && decide (a < b))))

/-- The clusters of a die that hold a grant in the next interval (R363, R364). -/
def State.grants (s : State) (d : Nat) : List Nat :=
  let all := (List.range 48).map (· + 48 * d)
  let keep := all.filter (fun k => (s.cluster k).grant && (requests (s.cluster k) || falls (s.cluster k)))
  let new := all.filter (fun k => !(s.cluster k).grant && requests (s.cluster k))
  let won := new.filter (fun k => decide (keep.length + (new.filter (fun j => s.reqBefore j k)).length < 12))
  keep ++ won

/-- A cluster at an interval boundary (R361-R364). -/
def ClusterState.atBoundary (k : ClusterState) (grant : Bool) (bud : Nat) : ClusterState :=
  if k.gated then k
  else
    let next := if falls k then 14 else if k.fall then 12 else min (wantOf k) (if grant then 16 else 12)
    { k with integ := integNext k, permits := permitsLeft k, cool := coolNext k, fall := falls k, grant := grant,
             pendKeep := some next, bud := bud, charge := 0, issuedPrev := k.issuedNow, issuedNow := false }

/-- The level of VLOGIC in millivolts, between 580 and 780, that the firmware sets for a pattern (R357). Log 105, DESIGN CHOICE. -/
def vlogicFor (k : Nat) : Nat := 580 + Config.vlogicLevel k % 201

/-- VLOGIC never leaves its range (R357). -/
theorem vlogicFor_range (k : Nat) : 580 ≤ vlogicFor k ∧ vlogicFor k ≤ 780 := by
  have := Nat.mod_lt (Config.vlogicLevel k) (show 201 > 0 by decide)
  simp only [vlogicFor]; omega

/-- The highest pattern that a cluster may hold in the interval that begins: one that is being turned on starts at 12, a gated
one holds none (R357-R360). -/
def ClusterState.mayHold (k : ClusterState) : Nat :=
  if k.gated then (if k.powerOn.isSome then 12 else 0) else max k.keep (k.pendKeep.getD k.keep)

/-- The highest pattern that a cluster of the die may hold in the interval that begins (R357, R359). -/
def State.highestPattern (s : State) (d : Nat) : Nat :=
  (List.range 48).foldl (fun m i => max m (s.cluster (48 * d + i)).mayHold) 0

/-- INTERVAL_BOUNDARY (R357, R361-R364, R370). -/
def execIntervalBoundary (s : State) : Host.Outcome State Fault Refusal :=
  onDie (fun s => decide ((s.die s.cur.id).interval < s.master / 800))
    (fun s =>
      let g := s.grants s.cur.id
      let s1 := (List.range 48).foldl (fun (t : State) i =>
        let k := 48 * s.cur.id + i
        t.updCluster k (fun c => c.atBoundary (g.contains k) (s.budOf k))) s
      s1.updDie s.cur.id (fun d => { d with interval := d.interval + 1, vlogic := vlogicFor (s1.highestPattern s.cur.id) })) s

/-- PATTERN_CHANGE: a new k takes effect where slot 0 comes next (R359). -/
def execPatternChange (s : State) : Host.Outcome State Fault Refusal :=
  onCluster (fun s => (s.cluster s.cur.id).pendKeep.isSome && s.master % 16 == 0)
    (fun s => s.updCluster s.cur.id (fun k => { k with keep := k.pendKeep.getD k.keep, pendKeep := none })) s

/-- PERMIT_REFILL: the end of a pair of intervals; a cluster that issued no bundle in it gains a permit (R365). -/
def execPermitRefill (s : State) : Host.Outcome State Fault Refusal :=
  onCluster (fun s => decide ((s.cluster s.cur.id).pairs < s.master / 1600))
    (fun s => s.updCluster s.cur.id (fun k =>
      { k with pairs := k.pairs + 1,
               permits := if k.gated || k.issuedNow || k.issuedPrev then k.permits else min 64 (k.permits + 1) })) s

/-! ### Budgets (R366-R369) -/

/-- Whether a context's budget advances: it is bound and not parked (R367). -/
def CoreState.advances (x : CoreState) (k : Nat) : Bool :=
  (x.ctx k).run != .unbound && (!isEddy k || (x.bank k).st == .run || (x.bank k).st == .revoking)

/-- The information of a throttle notice (R193, R369). -/
def noticeOf (c : Ctx) (copy : Bool) : Word × Word :=
  (wd (c.denied.toNat % 4 + (if copy then 4 else 0) + c.denied.toNat / 8 * 8 + 16 * bnat c.scaled), wd c.deniedCycles)

/-- A context at the start of a period: full budgets and reserve, and a notice if it was denied or its floors were
scaled (R190, R366, R367, R369, R372). -/
def Ctx.newPeriod (copy : Bool) (c : Ctx) : Ctx :=
  { c with
    notice := if c.denied != 0 || c.scaled then some (noticeOf c copy) else c.notice
    denied := 0
    deniedCycles := 0
    scaled := false
    tr := { c.tr with res := 4 }
    csr := { c.csr with issueLeft := c.csr.issueBud, niLeft := c.csr.niBud } }

/-- A core at the start of a period. -/
def CoreState.newPeriod (x : CoreState) : CoreState :=
  let copy := x.copyBud != 0xFFFF && x.copyLeft == 0 &&
    x.cmds.any (fun c => match c.kind with | .cpy .. | .ovl .. => c.started | _ => false)
  let x := [0, 1, 2, 3].foldl (fun (x : CoreState) k =>
    if x.advances k then x.setCtx k ((x.ctx k).newPeriod (copy && k == 0)) else x) x
  { x with copyLeft := if x.copyBud = 0xFFFF then 0xFFFF else 64 * x.copyBud }

/-- Whether a task's partition has a limited HBM share (R366). -/
def State.hbmLimited (s : State) (t : Task) : Bool :=
  match s.part t.part with | some p => p.hbm != 0xFFFF | none => false

/-- Whether a context's accesses waited on its partition's HBM share in the period that ends: a free value, since the accesses
that wait are not timed (R367, R369). Such a wait denies no issue, so R193's count of cycles does not hold it. Log 79, DESIGN
CHOICE. -/
def State.hbmDenied (core : Nat) (s : State) (k : Nat) : State :=
  match (s.ctx core k).task.bind s.task with
  | some t =>
    if (s.core core).advances k && s.hbmLimited t then
      { s.updCtx core k (fun c =>
          if bitAt 0 (Config.freeWord s.freeCount) then { c with denied := c.denied ||| 8 } else c) with
        freeCount := s.freeCount + 1 }
    else s
  | none => s

/-- BUDGET_PERIOD_START: effective counts that are multiples of 4,096 (R366-R369). -/
def execBudgetPeriodStart (s : State) : Host.Outcome State Fault Refusal :=
  onCluster (fun s => decide ((s.cluster s.cur.id).periods < (s.cluster s.cur.id).eff / 4096))
    (fun s =>
      let s1 := (List.range 16).foldl (fun (s : State) i =>
        let core := 16 * s.cur.id + i
        ([0, 1, 2, 3].foldl (State.hbmDenied core) s).updCore core CoreState.newPeriod) s
      s1.updCluster s.cur.id (fun k => { k with periods := k.periods + 1 })) s

/-- DIE_BUDGET_PERIOD_START: master counts that are multiples of 4,096 (R366). -/
def execDieBudgetPeriodStart (s : State) : Host.Outcome State Fault Refusal :=
  onDie (fun s => decide ((s.die s.cur.id).periods < s.master / 4096))
    (fun s => s.updDie s.cur.id (fun d =>
      { d with periods := d.periods + 1,
               budgets := d.budgets.map (fun b => { b with copyLeft := b.copyBud.getD 0, hbmLeft := b.hbmBud.getD 0 }) })) s

/-! ### Power-on, stripes, refresh (R242, R339, R358) -/

/-- A cluster as it is ungated: controller, permits and counts at their start (R360, R361, R365, R366). Log 82, DESIGN CHOICE. -/
def ClusterState.ungated (k : ClusterState) (bud : Nat) : ClusterState :=
  { k with gated := false, powerOn := none, keep := 12, pendKeep := none, integ := 0, permits := 64, cool := 0, fall := false,
           grant := false, bud := bud, charge := 0, issuedNow := false, issuedPrev := false, eff := 0, periods := 0 }

/-- Bound tasks whose cores are all on run (R379, R380). -/
def State.startBound (s : State) : State := (s.fw.tasks.filter (·.st == .bound)).foldl State.startTask s

/-- Whether the header switches of a gated cluster have ended their last stage, or those of a stripe of a core in BIND (R358). -/
def State.switched (s : State) (k : Nat) : Bool :=
  if (s.cluster k).gated then
    match (s.cluster k).powerOn with | some t => decide (t + powerOnCycles ≤ s.master) | none => false
  else (List.range 16).any (fun i => let x := s.core (16 * k + i); x.slot.st == .bind && decide (x.onAt ≤ s.master))

/-- REGION_POWER_ON (R358). -/
def execRegionPowerOn (s : State) : Host.Outcome State Fault Refusal :=
  onCluster (fun s => s.switched s.cur.id)
    (fun s => (s.updCluster s.cur.id (fun k => if k.gated then k.ungated (s.budOf s.cur.id) else k)).startBound) s

/-- Effective cycles without an access after which a stripe is drowsy (R242). -/
def drowsyCycles : Nat := 65536

/-- STRIPE_DROWSY (R242). -/
def execStripeDrowsy (s : State) : Host.Outcome State Fault Refusal :=
  onCore (fun s =>
      let p := s.myCore.stripes.get (Fin.ofNat 32 s.cur.idx)
      decide (s.cur.idx < 32) && p.pw == .awake && decide (p.last + drowsyCycles ≤ s.eff s.cur.core))
    (fun s => s.updMyCore (fun x =>
      let p := x.stripes.get (Fin.ofNat 32 s.cur.idx)
      { x with stripes := x.stripes.set (Fin.ofNat 32 s.cur.idx) { p with pw := .drowsy } })) s

/-- REFRESH_SLOT_ADVANCE (R339). -/
def execRefreshSlotAdvance (s : State) : Host.Outcome State Fault Refusal :=
  onDie (fun s => decide ((s.die s.cur.id).refresh < s.master / 1600))
    (fun s => s.updDie s.cur.id (fun d => { d with refresh := d.refresh + 1 })) s

end Sys2Proof.Machine
end

