-- ==== Sys2Proof/Machine/EvMem.lean ====
section
/-! DEFINITION. Invalidations, page migration and scrubbing (R345-R348, R356). -/

namespace Sys2Proof.Machine

/-! ### Invalidation (R346) -/

/-- Whether a TLB entry is covered by an invalidation. Log 81, DEDUCED. -/
def invCovers (n : InvalInfo) (asid lo size : Nat) : Bool :=
  asid == n.asid && (n.all || (decide (lo ≤ n.hi.toNat) && decide (n.lo.toNat < lo + size)))

/-- The TLB entries an invalidation leaves. -/
def dropTlb (n : InvalInfo) (l : List TlbEnt) : List TlbEnt := l.filter (fun e => !invCovers n e.asid e.va e.size)

/-- Posting an invalidation: the firmware's store to the table entry, which goes to no weight store (R338), then every TLB entry
of the package that covers the range is dropped (R346). -/
def State.postInval (s : State) (n : InvalInfo) : State :=
  let m := match n.entryPa with
    | some pa => if s.fwStores pa 8 then s.phys.mem.writeWord pa n.entry else s.phys.mem
    | none => s.phys.mem
  { s with
    cores := s.cores.map (fun p => (p.1, { p.2 with tlb := dropTlb n p.2.tlb }))
    clusters := s.clusters.map (fun k => { k with tlb := dropTlb n k.tlb })
    phys := { s.phys with mem := m, invals := s.phys.invals ++ [⟨s.nextId, n⟩] }
    nextId := s.nextId + 1 }

/-- TLB_INVALIDATION (R346). -/
def execTlbInvalidation (n : InvalInfo) (s : State) : Host.Outcome State Fault Refusal := .next (s.postInval n)

/-- Whether a core holds an access of an invalidation's task that may have been translated through the old entry: a
store that waits, or a chunk under lease in the range (R346, R347). Log 81, DEDUCED. -/
def CoreState.holdsOld (x : CoreState) (n : InvalInfo) : Bool :=
  [0, 1, 2, 3].any (fun k => (x.ctx k).task == some n.asid && !(x.ctx k).storeQ.isEmpty) ||
  x.cmds.any (fun c => (x.ctx c.ctx).task == some n.asid && c.leases.any (fun l => invCovers n n.asid (l.1 * 4096) 4096))

/-! ### Page migration (R348) -/

/-- Moving a run of a memory to another address. -/
def Mem.move (m : Mem) (src dst n : Nat) : Mem :=
  m.below dst ++ ((m.slice src n).map (fun c => (c.1 - src + dst, c.2)) ++ m.above (dst + n))

/-- Copying a page with its poison; in a shared CXL region the copy is dirty in the caches (R177, R443). -/
def State.copyPage (s : State) (src dst n : Nat) : State :=
  let lines := s.phys.poison.filter (fun r => decide (src ≤ 64 * r) && decide (64 * r < src + n))
  let rest := s.phys.poison.filter (fun r => !(decide (dst ≤ 64 * r) && decide (64 * r < dst + n)))
  { s with phys := { s.phys with mem := s.phys.mem.move src dst n, dirty := s.dirtyRun dst n,
                                 poison := lines.foldl (fun l r => setInsert ((64 * r - src + dst) / 64) l) rest } }

/-- How many entries the group of a leaf has: more than one where CONT is set (R343). -/
def Leaf.group (l : Leaf) : Nat :=
  if !bitAt 8 l.entry then 1 else match l.lvl with | 0 => 16 | 2 => 4 | _ => 1

/-- The address of the first entry of a leaf's group. -/
def Leaf.first (l : Leaf) : Nat := l.ea / (8 * l.group) * (8 * l.group)

/-- The invalidation that goes with a change of a leaf. -/
def leafInval (task : Nat) (va : Word) (l : Leaf) (e : Word) : InvalInfo :=
  let size := l.size * l.group
  let lo := va.toNat / size * size
  { asid := task, all := false, lo := wd lo, hi := wd (lo + size - 1), entryPa := some l.first, entry := e }

/-- Writing the entries of a leaf's group. -/
def State.setLeaves (s : State) (l : Leaf) (f : Nat → Word → Word) : State :=
  let m := (List.range l.group).foldl (fun (m : Mem) i =>
    m.writeWord (l.first + 8 * i) (f i (m.readWord (l.first + 8 * i)))) s.phys.mem
  { s with phys := { s.phys with mem := m } }

/-- Where the pages of a leaf's group begin. -/
def State.leafPlace (s : State) (l : Leaf) : Nat := bitsOf 51 12 (s.phys.mem.readWord l.first) * 4096

/-- Whether a page, or its contiguous group, may be migrated: it is not migrating, and the new place is aligned to a page
of its size and is memory of one kind from its first to its last byte, and no weight store, whose bytes come from the host's
images alone (R338). Log 81, DEDUCED. -/
def State.mayMigrate (s : State) (m : MigrateInfo) (l : Leaf) : Bool :=
  !bitAt 7 l.entry && decide (l.lvl ≤ 2) && m.dest % l.size == 0 && s.leafPlace l != m.dest &&
  s.fwStores m.dest (l.size * l.group) && s.physTarget (m.dest + l.size * l.group - 1) == s.physTarget m.dest &&
  s.fwStores l.first (8 * l.group)

/-- PAGE_MIGRATION: step 1 of R348, MIG set in the leaf or its group and an invalidation posted; INVALIDATION_COMPLETE goes on. -/
def execPageMigration (m : MigrateInfo) (s : State) : Host.Outcome State Fault Refusal :=
  .next (match s.leafAt (s.task m.task) m.va.toNat with
    | some l =>
      if s.mayMigrate m l then
        let n := s.nextId
        let s0 := s.setLeaves l (fun _ e => e ||| 0x80#64)
        let s1 := s0.postInval (leafInval m.task m.va l (s0.phys.mem.readWord l.first))
        { s1 with phys := { s1.phys with migr := s1.phys.migr ++ [(n, m)] } }
      else s
    | none => s)

/-- Steps 2 and 3 of R348: the page or group is copied, its leaves written with the new place and MIG 0, and an
invalidation posted again. -/
def State.finishMove (s : State) (m : MigrateInfo) : State :=
  match s.leafAt (s.task m.task) m.va.toNat with
  | some l =>
    let s1 := s.copyPage (s.leafPlace l) m.dest (l.size * l.group)
    let s2 := s1.setLeaves l (fun i e => (e &&& 0xFFF0000000000F7F#64) ||| wd (m.dest + l.size * i))
    s2.postInval (leafInval m.task m.va l (s2.phys.mem.readWord l.first))
  | none => s

/-- INVALIDATION_COMPLETE: no access translated through the old entry is left (R346); a migration goes on with its next
step (R348). -/
def execInvalidationComplete (s : State) : Host.Outcome State Fault Refusal :=
  .next (match s.phys.invals.find? (fun i => i.num == s.cur.id) with
    | some i =>
      if s.cores.any (fun p => p.2.holdsOld i.info) then s
      else
        let s1 := { s with phys := { s.phys with invals := s.phys.invals.filter (fun j => j.num != i.num),
                                                 migr := s.phys.migr.filter (fun g => g.1 != i.num) } }
        match s.phys.migr.find? (fun g => g.1 == i.num) with
        | some g => s1.finishMove g.2
        | none => s1
    | none => s)

/-! ### Scrubbing (R356) -/

/-- Counting the corrected errors that the structures of a die met since the last count: how many is a free value (R356).
Log 91, DESIGN CHOICE. -/
def State.countErrors (s : State) (die : Nat) : State :=
  { s.updDie die (fun d => { d with soft := Vector.ofFn (fun i : Fin 16 => d.soft.get i + (Config.freeWord (s.freeCount + i.val)).toNat) }) with
    freeCount := s.freeCount + 16 }

/-- SCRUB of the 64-byte line `cur.id`: an uncorrectable error poisons the line in place; otherwise the errors it corrected
are counted (R356). -/
def execScrub (bad : Bool) (s : State) : Host.Outcome State Fault Refusal :=
  .next (match s.physTarget (64 * s.cur.id) with
    | .hbm | .weights _ =>
      if bad then { s with phys := { s.phys with poison := setInsert s.cur.id s.phys.poison } }
      else s.countErrors (s.homeDie (64 * s.cur.id))
    | _ => s)

end Sys2Proof.Machine
end

