-- ==== Sys2Proof/Machine/EvDebug.lean ====
section
/-! DEFINITION. The debugger: attaching, halting, resuming, reading and writing state, breakpoints, single step, and
the displaced-op execution of the firmware (R403-R409). -/

namespace Sys2Proof.Machine

/-! ### Halting (R403, R405-R407) -/

/-- DEBUG_ATTACH (R403). -/
def execDebugAttach (s : State) : Host.Outcome State Fault Refusal :=
  .next (s.updTask s.cur.id (fun t => { t with debug := true }))

/-- DEBUG_HALT: a running context of a task under debug is taken at its boundary (R129, R192, R403). -/
def execDebugHalt (s : State) : Host.Outcome State Fault Refusal := onCore (fun s => s.underDebug && s.runs) State.debugStop s

/-- DEBUG_RESUME (R403). -/
def execDebugResume (s : State) : Host.Outcome State Fault Refusal :=
  onCore (fun s => s.me.dbg.halted) (fun s => s.updMe (fun c => { c with dbg := { c.dbg with halted := false } })) s

/-- ADDRESS_BREAKPOINT (R406): the next bundle matches a register whose SKIP is clear. -/
def execAddressBreakpoint (s : State) : Host.Outcome State Fault Refusal :=
  onCore (fun s => s.canAct && s.dueA.isNone && s.bpFirst.isSome)
    (fun s => match s.bpFirst with | some p => s.bpStop p | none => s) s

/-- SINGLE_STEP: a stepped bundle is reported at the next boundary, after the entry of a kind-A event due there (R185, R407). -/
def execSingleStep (s : State) : Host.Outcome State Fault Refusal :=
  onCore (fun s => s.runs && s.stepDue && s.dueA.isNone) State.stepReport s

/-! ### Reading and writing (R403, R404) -/

/-- How a debugger finds a context's registers (R404). -/
inductive Reach where
  | busy | free | parked | halted
  deriving DecidableEq, Repr

/-- How a context's registers are reached: a FREE bank, a parked eddy, a halted context, or one that runs (R404). -/
def CoreState.reach (x : CoreState) (k : Nat) : Reach :=
  let c := x.ctx k
  let stopped : Bool := c.dbg.halted || (match c.run with | .halted _ => true | _ => false)
  if isEddy k then
    match (x.bank k).st with
    | .free => .free
    | .parked | .saving => .parked
    | _ => if stopped then .halted else .busy
  else if c.run == .unbound then .free
  else if stopped then .halted else .busy

/-- The status byte of a read (R404). -/
def readStatus (gated poison undef woke : Bool) (t : Tag) : BitVec 8 :=
  BitVec.ofNat 8 (bnat gated + 2 * bnat poison + 4 * bnat undef + 8 * bnat woke + 16 * tagCode t)

/-- A reply with a scalar value. -/
def replyS (x : SVal) : DbgReply := ⟨readStatus false x.poison.isSome false false x.tag, x.v.setWidth 2048⟩
/-- A reply with a vector value. -/
def replyV (x : VVal) : DbgReply := ⟨readStatus false x.poison.isSome false false x.tag, x.v⟩
/-- A reply with plain bits. -/
def replyB (x : Nat) : DbgReply := ⟨readStatus false false false false .bits, BitVec.ofNat 2048 x⟩
/-- The reply of a FREE bank and of an undefined entry: zero tagged UNDEF (R404). Log 80, DEDUCED. -/
def replyNone (undef : Bool) : DbgReply := ⟨readStatus false false undef false .undef, 0⟩

/-- A queue entry as a reply. -/
def replyQ (x : Option DbgReply) : DbgReply := x.getD (replyNone true)

/-- A token as a debugger sees it: LIVE, DONE and the flags. Log 98, DESIGN CHOICE. -/
def tokenBits (k : Token) : Nat := bnat k.live + 2 * bnat k.done + 4 * k.flags.toNat

/-- A token's fault record as a debugger sees it: the cause in [6:0] with bit 7 set while there is one, TRAPINFO0 in [127:64] and
TRAPINFO1 in [191:128]. Log 98, DESIGN CHOICE. -/
def faultBits (f : Option FaultRec) : BitVec 192 :=
  match f with
  | none => 0
  | some r => r.info1 ++ r.info0 ++ wd (r.cause % 128 + 128)

/-- The fault record that a debugger writes in the form of `faultBits` (R403). Log 98, DESIGN CHOICE. -/
def faultOfBits (v : BitVec 192) : Option FaultRec :=
  if v.getLsbD 7 then some ⟨(v.extractLsb' 0 7).toNat, v.extractLsb' 64 64, v.extractLsb' 128 64⟩ else none

/-- Reading the record that was written gives it back: a cause of seven bits loses nothing. -/
theorem faultOfBits_faultBits (r : FaultRec) (h : r.cause < 128) : faultOfBits (faultBits (some r)) = some r := by
  obtain ⟨c, a, b⟩ := r
  have hc : c % 128 = c := Nat.mod_eq_of_lt h
  have h7 : (b ++ a ++ wd (c + 128)).getLsbD 7 = true := by
    rw [BitVec.getLsbD_append, if_pos (by decide), wd, BitVec.getLsbD_ofNat, Nat.testBit, Nat.shiftRight_eq_div_pow,
      show (c + 128) / 2 ^ 7 = 1 by have : c < 128 := h; omega]
    rfl
  have h0 : (b ++ a ++ wd (c + 128)).extractLsb' 0 7 = BitVec.ofNat 7 c := by
    rw [show (b ++ a ++ wd (c + 128)).extractLsb' 0 7 = (wd (c + 128)).extractLsb' 0 7 from by
      ext i hi; simp only [BitVec.getElem_extractLsb', BitVec.getLsbD_append, Nat.zero_add, if_pos (show i < 64 by omega)]]
    apply BitVec.eq_of_toNat_eq
    simp only [BitVec.extractLsb'_toNat, wd, BitVec.toNat_ofNat, Nat.shiftRight_zero]
    omega
  have h1 : (b ++ a ++ wd (c + 128)).extractLsb' 64 64 = a := by
    ext i hi
    simp only [BitVec.getElem_extractLsb', BitVec.getLsbD_append, if_neg (show ¬ 64 + i < 64 by omega),
      Nat.add_sub_cancel_left, if_pos hi, BitVec.getLsbD_eq_getElem hi]
  have h2 : (b ++ a ++ wd (c + 128)).extractLsb' 128 64 = b := by
    ext i hi
    simp only [BitVec.getElem_extractLsb', BitVec.getLsbD_append, if_neg (show ¬ 128 + i < 64 by omega),
      show 128 + i - 64 = 64 + i by omega, if_neg (show ¬ 64 + i < 64 by omega), Nat.add_sub_cancel_left,
      BitVec.getLsbD_eq_getElem hi]
  simp only [faultBits, hc, faultOfBits, h7, if_true, h0, h1, h2, BitVec.toNat_ofNat]

/-- What a register of a context reads as; none for an item that is no register. -/
def State.regReply (s : State) (core k : Nat) (d : DebugItem) : Option DbgReply :=
  let c := s.ctx core k
  match d with
  | .pc => some (replyB c.pc.toNat)
  | .sreg r => some (replyS (c.files.s.get r))
  | .greg r => some (replyS (c.files.g.get r))
  | .vreg r => some (replyV (c.files.v.get r))
  | .wreg r => some (replyV (c.files.w.get r))
  | .pred r => some (replyB (c.pred r).toNat)
  | .mreg r => some (replyB (c.tpred r).toNat)
  | .sq a => some (replyQ ((c.q.sq.get a).map replyS))
  | .vq a => some (replyQ ((c.q.vq.get a).map replyV))
  | .hq a => some (replyQ ((c.q.hq.get a).map replyS))
  | .breg r => some (replyB (c.files.b.get r).toNat)
  | .csr n => some (replyB ((s.as core k).csr n).toNat)
  | .abp n => some (replyB (c.dbg.abp.get n).toNat)
  | .step => some (replyB (bnat c.dbg.step))
  | .nx n => some (replyQ ((c.nx[n.val]?).map (fun e => ⟨readStatus false false false false .int64, (e.val.setWidth 2048)⟩)))
  | .tok k => some (replyB (tokenBits (c.tok.get k)))
  | .sc => some (replyB c.sc.toNat)
  | .total => some (replyB c.t.toNat)
  | .armed => some (replyB (bnat c.armed))
  | .tokFault k => some (replyB (faultBits (c.tok.get k).fault).toNat)
  | .nxDue n => some (replyQ ((c.nx[n.val]?).map (fun e => replyB e.due)))
  | .spad _ | .tile _ | .phys _ => none

/-- A read of 8 scratchpad bytes: a gated stripe gives zero, a drowsy one wakes (R404). -/
def State.spadReply (s : State) (core off : Nat) : State × DbgReply :=
  let x := s.core core
  if spadSize < off + 8 then (s, replyNone true)
  else if x.gated off || x.gated (off + 7) then (s, ⟨readStatus true false false false .undef, 0⟩)
  else
    let woke := (x.stripe off).pw == .drowsy || (x.stripe (off + 7)).pw == .drowsy
    (s.updCore core (fun x => (x.touch off (s.eff core)).touch (off + 7) (s.eff core)),
      ⟨readStatus false (x.spadBad off 8) false woke (x.tile (slotOf off)).tag, BitVec.ofNat 2048 (leNat (x.spad.readBytes off 8))⟩)

/-- A read of 8 bytes of physical memory. -/
def State.physReply (s : State) (pa : Nat) : DbgReply :=
  let ls := (List.range 8).map (fun i => Loc.phys (pa + i))
  match s.physTarget pa with
  | .nothing => replyNone true
  | _ => ⟨readStatus false (ls.any (s.memPoison 0)) false false .bits, BitVec.ofNat 2048 (leNat (ls.map (s.memByte 0)))⟩

/-- A debugger read; no reply says that it was refused with status BUSY (R404). Log 80, DEDUCED. -/
def State.debugRead (s : State) (t : DebugTarget) : State :=
  match t.item with
  | .spad off => let r := s.spadReply t.core off; { r.1 with dbgReply := some r.2 }
  | .tile n =>
    let x := s.core t.core
    { s with dbgReply := some (if x.gated (n.val * slotSize) then ⟨readStatus true false false false .undef, 0⟩
                               else replyB (tileWord (x.tile n.val)).toNat) }
  | .phys pa => { s with dbgReply := some (s.physReply pa) }
  | _ =>
    match (s.core t.core).reach t.ctx with
    | .busy => { s with dbgReply := none }
    | .free => { s with dbgReply := some (replyNone false) }
    | _ => { s with dbgReply := s.regReply t.core t.ctx t.item }

/-- DEBUG_READ (R404). -/
def execDebugRead (t : DebugTarget) (s : State) : Host.Outcome State Fault Refusal :=
  if nCores ≤ t.core ∨ 4 ≤ t.ctx then .fault .noSuchAgent else .next (s.debugRead t)

/-- Writing a queue entry. -/
def setQ (q : Vector (Option α) 16) (a : Fin 16) (x : α) : Vector (Option α) 16 := q.set a (some x)

/-- Writing a register of a halted context (R403, R405). -/
def Ctx.debugSet (c : Ctx) (d : DebugItem) (v : VWord) (tag : Tag) : Ctx :=
  let sv : SVal := { v := v.setWidth 64, tag := tag }
  let vv : VVal := { v := v, tag := tag }
  match d with
  | .pc => { c with pc := alignPc (v.setWidth 16) }
  | .sreg r => { c with files := { c.files with s := c.files.s.set r sv } }
  | .greg r => { c with files := { c.files with g := c.files.g.set r sv } }
  | .vreg r => { c with files := { c.files with v := c.files.v.set r vv } }
  | .wreg r => { c with files := { c.files with w := c.files.w.set r vv } }
  | .pred r => c.writeP r (v.setWidth 256)
  | .mreg r => c.writeM r (v.setWidth 128)
  | .sq a => { c with q := { c.q with sq := setQ c.q.sq a sv } }
  | .vq a => { c with q := { c.q with vq := setQ c.q.vq a vv } }
  | .hq a => { c with q := { c.q with hq := setQ c.q.hq a sv } }
  | .breg r => { c with files := { c.files with b := c.files.b.set r (v.setWidth 64) } }
  | .abp n => { c with dbg := { c.dbg with abp := c.dbg.abp.set n (v.setWidth 64 &&& 0xE000FFF8#64) } }
  | .step => { c with dbg := { c.dbg with step := v != 0 } }
  | .nx n => { c with nx := c.nx.zipIdx.map (fun e => if e.2 = n.val then { e.1 with val := v.setWidth 64 } else e.1) }
  | .tok k => c.updTok k (fun t => { t with live := v.getLsbD 0, done := v.getLsbD 1, flags := (v >>> 2).setWidth 7 })
  | .sc => { c with sc := v.setWidth 64 }
  | .total => { c with t := v.setWidth 64 }
  | .armed => { c with armed := v != 0 }
  | .tokFault k => c.updTok k (fun t => { t with fault := faultOfBits (v.setWidth 192) })
  | .nxDue n =>
    { c with nx := c.nx.zipIdx.map (fun e => if e.2 = n.val then { e.1 with due := (v.setWidth 64).toNat } else e.1) }
  | _ => c

/-- Whether an address takes no write of a debugger: nothing lies there, or a sealed weight store (R336, R338). -/
def State.physShut (s : State) (pa : Nat) : Bool :=
  match s.physTarget pa with
  | .nothing => true
  | .weights d => (s.die d).sealed
  | _ => false

/-- A debugger write of 8 bytes of physical memory, refused whole where one of them takes no write (R338, R404). -/
def State.debugPhys (s : State) (pa : Nat) (bs : List Byte) : State :=
  if s.physShut pa || s.physShut (pa + bs.length - 1) then s else s.physRun pa bs

/-- A debugger write: a partial write of a scratchpad, a tile-table entry of a stripe that is on, a register of a halted context,
else refused (R403, R404). Log 80, DEDUCED. -/
def State.debugWrite (s : State) (t : DebugTarget) (v : VWord) (tag : Tag) : State :=
  match t.item with
  | .spad off =>
    if spadSize < off + 8 then s
    else s.updCore t.core (fun x =>
      ((x.touch off (s.eff t.core)).touch (off + 7) (s.eff t.core)).spadWrite off (leBytes 8 v.toNat))
  | .tile n =>
    if (s.core t.core).gated (n.val * slotSize) then s
    else s.updCore t.core (fun x => x.updTile n.val (fun _ => tileOfWord (v.setWidth 64)))
  | .phys pa => s.debugPhys pa (leBytes 8 v.toNat)
  | .csr n =>
    if (s.core t.core).reach t.ctx = .halted then
      s.doAs t.core t.ctx (fun s => s.csrWrite .write n (v.setWidth 64) (v.setWidth 64))
    else s
  | d =>
    if (s.core t.core).reach t.ctx = .halted then s.updCtx t.core t.ctx (fun c => c.debugSet d v tag) else s

/-- DEBUG_WRITE (R403-R405). -/
def execDebugWrite (t : DebugTarget) (v : VWord) (tag : Tag) (s : State) : Host.Outcome State Fault Refusal :=
  if nCores ≤ t.core ∨ 4 ≤ t.ctx then .fault .noSuchAgent else .next (s.debugWrite t v tag)

/-! ### Planted breakpoints (R408, R409) -/

/-- A BRK word with a given S bit and code (R197, R408). -/
def brkWord (w : Word) (code : Nat) : Word := (w &&& 0x8000000000000000#64) ||| 0x7060000000000000#64 ||| wd (code % 2 ^ 14)

/-- The lowest free entry of the displaced-op table of 64 entries (R408). -/
def CoreState.freeDisplaced (x : CoreState) : Option Nat := (List.range 64).find? (fun i => !x.displaced.any (fun d => d.idx == i))

/-- BRK_PLANT at offset `off` of core `cur.core` for a task (R408). -/
def execBrkPlant (off task : Nat) (s : State) : Host.Outcome State Fault Refusal :=
  onCore (fun s => off % 8 == 0 && decide (off < 0x10000) && (s.task task).isSome && s.myCore.freeDisplaced.isSome &&
      !s.myCore.displaced.any (fun d => d.off == off))
    (fun s =>
      match s.myCore.freeDisplaced with
      | some i =>
        s.updMyCore (fun x =>
          let w := x.ispad.readWord off
          { x with ispad := x.ispad.writeWord off (brkWord w i), displaced := x.displaced ++ [⟨i, off, w, task⟩] })
      | none => s) s

/-- The instruction scratchpad with the original words in place of the planted ones. -/
def CoreState.originals (x : CoreState) : Mem := x.displaced.foldl (fun m d => Mem.writeWord m d.off d.word) x.ispad

/-- Whether the next bundle of the running context holds a planted BRK. -/
def State.atPlanted (s : State) : Bool :=
  (s.fetchWords s.myCore.ispad).any (fun w => s.myCore.displaced.any (fun d => d.off == w.1.toNat))

/-- DISPLACED_OP_EXECUTE: the bundle with its original words goes into the core's debug issue buffer and issues from it
(R197, R409). -/
def execDisplacedOpExecute (s : State) : Host.Outcome State Fault Refusal :=
  onCore (fun s => s.canAct && !s.underDebug && s.myCore.issueBuf.isNone && s.atPlanted)
    (fun s =>
      let ws := (s.fetchWords s.myCore.originals).map (·.2)
      (s.updMyCore (fun x => { x with issueBuf := some (s.cur.ctx, ws) })).issueNext) s

end Sys2Proof.Machine
end

