-- ==== Sys2Proof/Machine/EvFabric.lean ====
section
/-! DEFINITION. Link replays and retirement, router retirement, requests that time out, CXL ports (R356, R417, R433,
R437-R444). -/

namespace Sys2Proof.Machine

/-- The structure of R356 that counts replays of a die's links (log 19, DEDUCED). -/
def linkCounter : Nat := 15

/-- Counting a corrected soft error of a structure of a die (R356). Log 19, DEDUCED. -/
def State.countSoft (s : State) (die k : Nat) : State :=
  (s.updDie die (fun d => { d with soft := d.soft.set (Fin.ofNat 16 k) (d.soft.get (Fin.ofNat 16 k) + 1) }))

/-- FLIT_REPLAY: it changes only timing, and is counted with the soft errors (R433). -/
def execFlitReplay (s : State) : Host.Outcome State Fault Refusal :=
  onDie (fun _ => true) (fun s => s.countSoft s.cur.id linkCounter) s

/-! ### Links (R437-R440) -/

/-- The commands of a core with unacknowledged requests on a link. -/
def CoreState.onLink (x : CoreState) (l : Nat) : List Cmd :=
  x.cmds.filter (fun c => c.reqs.any (fun r => !r.landed && r.link == some l))

/-- Moving a command to another usable link of its entry, on which it sends its unacknowledged requests anew; with none left it
ends with NO-ROUTE (R439, R440). Log 71, DEDUCED. -/
def State.relink (core l : Nat) (s : State) (c : Cmd) : State :=
  match s.pickLink core (s.cmdPkg core c) with
  | some n => s.updCmd core c.id (fun c => { c with reqs := c.reqs.map (fun r =>
      if !r.landed && r.link == some l then { r with link := some n, held := false, mute := false, sentAt := s.master } else r) })
  | none => s.cutOff core c 7

/-- LINK_RETIRE of link `cur.id` (R436, R439). -/
def execLinkRetire (s : State) : Host.Outcome State Fault Refusal :=
  .next (if s.cur.id < 18 then
      let l := s.cur.id
      let bit := BitVec.ofNat 18 (2 ^ l)
      let rs := s.fab.routes.map (fun (r : Nat × List Nat) => (r.1, r.2.filter (· != l)))
      let s1 : State := { s with fab := { s.fab with up := s.fab.up &&& ~~~bit, retired := s.fab.retired ||| bit, routes := rs } }
      s1.cores.foldl (fun (t : State) p => (p.2.onLink l).foldl (State.relink p.1 l) t) s1
    else s)

/-- Master cycles after which an unacknowledged request ends its command (R440). Log 50, DEDUCED. -/
def fabricLimit : Nat := 8000000

/-- FABRIC_TIMEOUT (R440). -/
def execFabricTimeout (s : State) : Host.Outcome State Fault Refusal :=
  onCmd (fun s c => match c.reqs.find? (fun r => r.idx == s.cur.idx) with
      | some r => r.link.isSome && !r.landed && decide (r.sentAt + fabricLimit ≤ s.master)
      | none => false)
    (fun s c => s.cutOff s.cur.core c 8) s

/-! ### Cluster routers (R417) -/

/-- Whether a saved task has a core in a cluster without a view of its image. Log 50, DEDUCED. -/
def State.stranded (s : State) (t : Task) : Bool :=
  t.st == .saved &&
  (match s.image t.image with
   | some img => t.saved.any (fun m => !s.hasView img (clusterOf m.core))
   | none => false)

/-- Every view of a die is made anew: no record of its cores keeps RES, so that the next bind or restore loads from the new
views (R417). -/
def State.dropViews (s : State) (die : Nat) : State :=
  { s with cores := s.cores.map (fun p =>
      if dieOf p.1 == die then (p.1, { p.2 with resid := p.2.resid.map (fun r => { r with res := false }) }) else p) }

/-- ROUTER_RETIRE of cluster `cur.id`: a checkpoint of every task bound on the die is decided; once all are saved the
router is marked retired, and tasks with a core in a cluster without a view end with code 0x26 (R417). -/
def execRouterRetire (s : State) : Host.Outcome State Fault Refusal :=
  onCluster (fun s => !(s.cluster s.cur.id).routerRetired)
    (fun s =>
      let d := s.cur.id / 48
      let on := s.fw.tasks.filter (fun t => t.onDie d)
      if on.isEmpty then
        let s1 := (s.updCluster s.cur.id (fun k => { k with routerRetired := true, retiring := false })).dropViews d
        (s1.fw.tasks.filter s1.stranded).foldl (fun (t : State) k => t.endTask k 0x26) s1
      else
        (on.filter (fun t => !t.ckpt && !t.harvest)).foldl (fun (t : State) k => t.decideCkpt k)
          (s.updCluster s.cur.id (fun k => { k with retiring := true }))) s

/-! ### CXL ports (R441-R444) -/

/-- CXL_PORT_DOWN of port `cur.id`: it is reported on vector 2 (R444). -/
def execCxlPortDown (s : State) : Host.Outcome State Fault Refusal :=
  .next (if s.fab.cxlUp.contains s.cur.id then
      ({ s with fab := { s.fab with cxlUp := setErase s.cur.id s.fab.cxlUp } }).raiseIrq 2
    else s)

/-- Whether decoders are a port's: at most 8, each inside its window, none overlapping another (R441, R442). -/
def decsOk (port : Nat) (l : List CxlDecoder) : Bool :=
  decide (l.length ≤ 8) &&
  l.all (fun d => decide (2 ^ 48 + port * 2 ^ 46 ≤ d.base) && decide (d.base + d.len ≤ 2 ^ 48 + (port + 1) * 2 ^ 46)) &&
  l.zipIdx.all (fun a => l.zipIdx.all (fun b => a.2 == b.2 || !runsMeet a.1.base a.1.len b.1.base b.1.len))

/-- CXL_PORT_RETRAIN of port `cur.id`: it serves its decoders afresh (R444). -/
def execCxlPortRetrain (decs : List CxlDecoder) (s : State) : Host.Outcome State Fault Refusal :=
  .next (if s.cur.id < 4 ∧ decsOk s.cur.id decs = true then
      { s with fab := { s.fab with
          cxlUp := setInsert s.cur.id s.fab.cxlUp
          cxlDecs := s.fab.cxlDecs.filter (fun d => d.1 != s.cur.id) ++ decs.map (fun d => (s.cur.id, d)) } }
    else s)

end Sys2Proof.Machine
end

