-- ==== Sys2Proof/Machine/Text.lean ====
section
/-! DEFINITION. The text that flavy-as and the Yiloz translator read: lines, words and expressions (R89, R99). -/

namespace Sys2Proof.Machine

/-- A piece of source text. Bytes above 0x7F stand in comments and names only. -/
abbrev Text := List Char

/-- The characters of bytes. -/
def textOf (bs : List Byte) : Text := bs.map (fun b => Char.ofNat b.toNat)
/-- The bytes of characters. -/
def bytesOfText (t : Text) : List Byte := t.map (fun c => BitVec.ofNat 8 c.toNat)

/-- Text without its case, as mnemonics, suffixes, registers and directives are read (R89). -/
def lower (t : Text) : Text := t.map Char.toLower

/-- Cutting a list at every element that satisfies a test. -/
def splitAtAll (p : α → Bool) : List α → List (List α)
  | [] => [[]]
  | x :: xs =>
    match splitAtAll p xs with
    | [] => [[]]
    | y :: ys => if p x then [] :: y :: ys else (x :: y) :: ys

/-- The lines of a text, each without its comment (R89). -/
def linesOf (t : Text) : List Text := (splitAtAll (· == '\n') t).map (fun l => l.takeWhile (· != ';'))

/-! ### Words -/

/-- A word of a line: a symbol, mnemonic, register or directive; a `%` name; a number as it is spelled; any other
character. -/
inductive Lex where
  | word (t : Text)
  | name (t : Text)
  | num (t : Text)
  | sym (c : Char)
  deriving DecidableEq, Repr

/-- The letters, digits, `_` and `.` of symbols and numbers (R89). -/
def isWordChar (c : Char) : Bool := c.isAlphanum || c == '_' || c == '.'

/-- A symbol begins with a letter or `_` (R89). -/
def isSymbol : Text → Bool
  | c :: cs => (c.isAlpha || c == '_') && cs.all isWordChar
  | [] => false

/-- Whether a character may begin a `%` name. -/
def beginsName : List Char → Bool
  | c :: _ => c.isAlpha || c == '_'
  | [] => false

/-- A word under construction: the kind of the word by its first character, and its characters, last first. -/
def closeWord (k : Nat) (r : Text) : List Lex :=
  match k with
  | 0 => []
  | 1 => [.word r.reverse]
  | 2 => [.name r.reverse]
  | _ => [.num r.reverse]

/-- Reading words: whether a `%` before a letter begins a name, the open word's kind (0 none, 1 word, 2 name, 3 number) and
characters, then the rest. -/
def lexFrom (names : Bool) (k : Nat) (r : Text) : List Char → Option (List Lex)
  | [] => some (closeWord k r)
  | c :: cs =>
    if isWordChar c then
      if k = 0 then lexFrom names (if c.isDigit then 3 else 1) [c] cs else lexFrom names k (c :: r) cs
    else if c.isWhitespace then (lexFrom names 0 [] cs).map (closeWord k r ++ ·)
    else if names && c == '%' && beginsName cs then (lexFrom names 2 [] cs).map (closeWord k r ++ ·)
    else if ['[', ']', '(', ')', ',', '+', '-', '*', '/', '%', '&', '^', '|', '~', ':', '=', '<', '>', '?', '!'].contains c then
      (lexFrom names 0 [] cs).map (closeWord k r ++ [.sym c] ++ ·)
    else none

/-- The words of a line of a Yiloz block, none where it holds a character that no word has. -/
def lex (t : Text) : Option (List Lex) := lexFrom true 0 [] t

/-- The words of a line of native source, where `%` is the remainder (R99). -/
def lexNative (t : Text) : Option (List Lex) := lexFrom false 0 [] t

/-- Whether a word is a given keyword, whatever its case (R89). -/
def Lex.isWord (s : String) : Lex → Bool
  | .word t => lower t == s.toList
  | _ => false

/-- Whether a word is a given character. -/
def Lex.isSym (c : Char) : Lex → Bool
  | .sym d => c == d
  | _ => false

/-- Cutting at the commas outside brackets and parentheses; an empty list has no part. -/
def commaParts (l : List Lex) : List (List Lex) := if l.isEmpty then [] else go 0 l
where
  /-- The parts, at a depth of brackets. -/
  go (d : Nat) : List Lex → List (List Lex)
    | [] => [[]]
    | x :: xs =>
      let r := go (if x.isSym '[' || x.isSym '(' then d + 1 else if x.isSym ']' || x.isSym ')' then d - 1 else d) xs
      if d = 0 && x.isSym ',' then [] :: r
      else
        match r with
        | [] => [[x]]
        | y :: ys => (x :: y) :: ys

/-! ### Numbers (R99) -/

/-- The value of a digit of base up to 16. -/
def digitOf (c : Char) : Nat :=
  if c.isDigit then c.toNat - 48 else if 'a' ≤ c ∧ c ≤ 'f' then c.toNat - 87 else 99

/-- Digits of a base with `_` between them: `prev` says whether the last character was a digit. -/
def digitsFrom (base : Nat) (prev : Bool) (acc : Nat) : Text → Option Nat
  | [] => if prev then some acc else none
  | c :: cs =>
    if c == '_' then if prev then digitsFrom base false acc cs else none
    else if digitOf c < base then digitsFrom base true (acc * base + digitOf c) cs else none

/-- A literal: decimal, hexadecimal or binary. -/
def literal (t : Text) : Option Nat :=
  match lower t with
  | '0' :: 'x' :: ds => digitsFrom 16 false 0 ds
  | '0' :: 'b' :: ds => digitsFrom 2 false 0 ds
  | ds => digitsFrom 10 false 0 ds

/-! ### Expressions (R99) -/

/-- The value of a symbol, where it has one. -/
abbrev Env := Text → Option Word

/-- A binary operator of one or two characters at the head of a list, with its level: `* / %` 5, `+ -` 4, `<< >>` 3,
`&` 2, `^` 1, `|` 0. -/
def operatorAt : List Lex → Option (Char × Nat × List Lex)
  | .sym '*' :: r => some ('*', 5, r)
  | .sym '/' :: r => some ('/', 5, r)
  | .sym '%' :: r => some ('%', 5, r)
  | .sym '+' :: r => some ('+', 4, r)
  | .sym '-' :: r => some ('-', 4, r)
  | .sym '<' :: .sym '<' :: r => some ('<', 3, r)
  | .sym '>' :: .sym '>' :: r => some ('>', 3, r)
  | .sym '&' :: r => some ('&', 2, r)
  | .sym '^' :: r => some ('^', 1, r)
  | .sym '|' :: r => some ('|', 0, r)
  | _ => none

/-- A binary operator on 64-bit two's-complement values; none for a division by zero or a shift count outside 0-63. -/
def applyOp (c : Char) (a b : Word) : Option Word :=
  match c with
  | '*' => some (a * b)
  | '/' => if b = 0 then none else some (a.sdiv b)
  | '%' => if b = 0 then none else some (a.srem b)
  | '+' => some (a + b)
  | '-' => some (a - b)
  | '<' => if 63 < b.toNat then none else some (a <<< b.toNat)
  | '>' => if 63 < b.toNat then none else some (a.sshiftRight b.toNat)
  | '&' => some (a &&& b)
  | '^' => some (a ^^^ b)
  | _ => some (a ||| b)

/-- An operand with its unary operators; `n` bounds the nesting. -/
def unaryAt (sub : List Lex → Option (Word × List Lex)) (env : Env) : Nat → List Lex → Option (Word × List Lex)
  | 0, _ => none
  | _ + 1, .num t :: r =>
    match literal t with
    | some v => if v < 2 ^ 64 then some (BitVec.ofNat 64 v, r) else none
    | none => none
  | _ + 1, .word t :: r => (env t).map (·, r)
  | n + 1, .sym '-' :: r => (unaryAt sub env n r).map (fun x => (-x.1, x.2))
  | n + 1, .sym '~' :: r => (unaryAt sub env n r).map (fun x => (~~~x.1, x.2))
  | _ + 1, .sym '(' :: r =>
    match sub r with
    | some (v, .sym ')' :: r2) => some (v, r2)
    | _ => none
  | _ + 1, _ => none

/-- The operators of level at least `lv` that follow a value, from the left; `n` bounds their number. -/
def moreAt (operand : Nat → List Lex → Option (Word × List Lex)) : Nat → Nat → Word → List Lex → Option (Word × List Lex)
  | 0, _, _, _ => none
  | n + 1, lv, v, l =>
    match operatorAt l with
    | some (c, k, r) =>
      if k < lv then some (v, l)
      else
        match operand (k + 1) r with
        | some (w, r2) => (applyOp c v w).bind (fun x => moreAt operand n lv x r2)
        | none => none
    | none => some (v, l)

/-- An expression of operators of level at least `lv` at the head of a list; `n` bounds its depth. -/
def exprAt (env : Env) : Nat → Nat → List Lex → Option (Word × List Lex)
  | 0, _, _ => none
  | n + 1, lv, l =>
    match unaryAt (exprAt env n 0) env (n + 1) l with
    | some (v, r) => moreAt (exprAt env n) (n + 1) lv v r
    | none => none

/-- The value of a whole expression. -/
def evalExpr (env : Env) (l : List Lex) : Option Word :=
  match exprAt env (l.length + 1) 0 l with
  | some (v, []) => some v
  | _ => none

/-- Whether a value fits `n` bits as signed (R99). -/
def fitsSigned (n : Nat) (v : Word) : Bool := decide (-(2 ^ (n - 1) : Int) ≤ v.toInt) && decide (v.toInt < 2 ^ (n - 1))
/-- Whether a value fits `n` bits as signed or unsigned (R99). -/
def fitsEither (n : Nat) (v : Word) : Bool := fitsSigned n v || decide (v.toNat < 2 ^ n)

end Sys2Proof.Machine
end

