-- ==== Sys2Proof/Machine/OpForm.lean ====
section
/-! DEFINITION. How each op is written: its mnemonic, suffixes and operands (R81-R87, R92-R99 and the entries of the
ops). -/

namespace Sys2Proof.Machine

/-- The spellings of a suffix group: named values, or a prefix with a number from `lo` to `hi` that stands for the number
less `sub`. -/
inductive Spell where
  | named (l : List (String × Nat))
  | numbered (pre : String) (lo hi sub : Nat)
  deriving DecidableEq, Repr

/-- A suffix group: its spellings, the place of its field in the word, and the value of the field when none is written;
none where one is required (R92). -/
structure SufGroup where
  spell : Spell
  pos : Nat
  dflt : Option Nat
  deriving DecidableEq, Repr

/-- An operand of an op line. `vec` says whether its class is vector. -/
inductive Slot where
  /-- D, written with W set; `_` leaves both zero (R94). -/
  | dst (vec : Bool)
  /-- D as a source, coded like a destination (R67). -/
  | dstSrc (vec : Bool)
  /-- A 7-bit operand field at a place (R93). -/
  | src (pos : Nat) (vec : Bool)
  /-- B of a vector REG op: a scalar spelling sets X[3] (R93). -/
  | vecB
  /-- B of VSLIDE, VEXTR and VINS: a scalar, with X[3] set (R156, R157). -/
  | scaB
  /-- MCST's data: a vector with V set, else a scalar (R320). -/
  | dataB
  /-- An operand field that is there only where the `n` bits from `lo` hold one of `vals`. -/
  | srcWhen (pos : Nat) (vec : Bool) (lo n : Nat) (vals : List Nat)
  /-- `[A + disp]` with a signed displacement of `n` bits (R98). -/
  | addr (n : Nat)
  /-- `[A]`. -/
  | base
  /-- `[A + B + disp]` with an 18-bit displacement. -/
  | addrX
  /-- An immediate of `n` bits at a place, signed or of either reading (R99). -/
  | imm (n pos : Nat) (signed : Bool)
  /-- The optional immediate of a CSR access (R195). -/
  | immOpt
  /-- A slot `tN`, an accumulator `accN`, a tile predicate `mN`, or `tN` or `wb` (R233, R259, R262). -/
  | tile (pos : Nat)
  | acc (pos : Nat)
  | mreg (pos : Nat) (dest : Bool)
  | tileWb
  /-- A control register (R99). -/
  | csr
  /-- A branch target (R100). -/
  | target
  /-- The tokens of TKWAIT and TKTEST (R278). -/
  | tokens
  deriving DecidableEq, Repr

/-- How an op is written: format, opcode, operands and suffix groups. -/
structure OpForm where
  name : String
  fmt : Nat
  opc : Nat
  slots : List Slot
  sufs : List SufGroup := []
  deriving DecidableEq, Repr

/-! ### Suffix groups (R26, R34, R92) -/

/-- The T suffixes (R26). -/
def tagSuffixes : List (String × Nat) :=
  [("i8", 1), ("ub", 2), ("i16", 3), ("i32", 4), ("i64", 5), ("e4", 6), ("e5", 7), ("h", 8), ("bf", 9), ("f", 10), ("d", 11),
   ("lc", 12), ("sc", 13), ("bits", 14), ("any", 15)]

/-- A T suffix at a place, with its default. -/
def sufT (pos : Nat) (dflt : Option Nat) : SufGroup := ⟨.named tagSuffixes, pos, dflt⟩
/-- RM (R34). -/
def sufRM : SufGroup :=
  ⟨.named [("rn", 0), ("rz", 1), ("rd", 2), ("ru", 3), ("rna", 4), ("rs", 5), ("rns", 6), ("dyn", 7)], 16, some 0⟩
/-- The width of a scalar REG op. -/
def sufW : SufGroup := ⟨.named [("w", 1), ("wu", 2)], 8, some 0⟩
/-- SZ of a MEM op. -/
def sufSZ : SufGroup := ⟨.named [("z1", 0), ("z2", 1), ("z4", 2), ("z8", 3)], 22, some 3⟩
/-- SC of a MEM op. -/
def sufSC : SufGroup := ⟨.named [("co", 0), ("cl", 1), ("pk", 2), ("fb", 3)], 24, some 0⟩
/-- Named values at a place. -/
def sufN (pos : Nat) (dflt : Option Nat) (l : List (String × Nat)) : SufGroup := ⟨.named l, pos, dflt⟩
/-- One flag at a place. -/
def sufFlag (s : String) (pos : Nat) : SufGroup := ⟨.named [(s, 1)], pos, some 0⟩
/-- The tag a converter names in C[3:0] (R146). -/
def sufTo : SufGroup :=
  sufN 24 none [("toi8", 1), ("toub", 2), ("toi16", 3), ("toi32", 4), ("toi64", 5), ("toe4", 6), ("toe5", 7), ("toh", 8),
    ("tobf", 9), ("tof", 10), ("tod", 11), ("tobits", 14)]
/-- A part number (R146). -/
def sufPart : SufGroup := ⟨.numbered "p" 0 7 0, 8, some 0⟩
/-- The operation of VRED and VSCAN (R154). -/
def sufRed : SufGroup := sufN 8 (some 0) [("add", 0), ("max", 1), ("min", 2), ("and", 3), ("or", 4), ("xor", 5)]

/-! ### The order of suffixes in a listing (R92) -/

/-- The largest value of a group. -/
def Spell.top : Spell → Nat
  | .named l => (l.map (·.2)).foldl max 0
  | .numbered _ _ hi n => hi - n

/-- How a value of a group is spelled. -/
def Spell.text (v : Nat) : Spell → Option Text
  | .named l => (l.find? (fun p => p.2 == v)).map (fun p => p.1.toList)
  | .numbered pre lo hi n => if lo ≤ v + n ∧ v + n ≤ hi then some (pre.toList ++ (toString (v + n)).toList) else none

/-- The field of a group in a word. -/
def SufGroup.field (g : SufGroup) (w : Word) : Nat := w.toNat / 2 ^ g.pos % 2 ^ (Nat.log2 g.spell.top + 1)

/-- The place of a group in a listing: T, RM, width, SZ, SC, then the entry's own. -/
def SufGroup.rank (g : SufGroup) : Nat :=
  if g.spell = .named tagSuffixes then 0
  else if g.spell = sufRM.spell then 1
  else if g.spell = sufW.spell then 2
  else if g.spell = sufSZ.spell then 3
  else if g.spell = sufSC.spell then 4
  else 5

/-- The groups of an op in the order of a listing. -/
def OpForm.listed (f : OpForm) : List SufGroup := (List.range 6).flatMap (fun r => f.sufs.filter (fun g => g.rank == r))

/-- The mnemonic of an op word with its suffixes as the disassembler writes them (R92); a field at its default has none. Log 96,
DESIGN CHOICE. -/
def OpForm.heading (f : OpForm) (w : Word) : Text :=
  f.name.toList ++ f.listed.flatMap (fun g =>
    if g.dflt = some (g.field w) then []
    else match g.spell.text (g.field w) with | some t => '.' :: t | none => [])

/-! ### The forms -/

/-- A scalar REG op of one, two or three sources (R113). -/
def formS (name : String) (opc n : Nat) : OpForm :=
  ⟨name, 1, opc, .dst false :: ([.src 38 false, .src 31 false, .src 24 false] : List Slot).take n, [sufT 12 (some 15), sufW]⟩
/-- A vector REG op with its own operands and suffix groups. -/
def formV (name : String) (opc : Nat) (slots : List Slot) (sufs : List SufGroup := []) : OpForm :=
  ⟨name, 1, opc, slots, [sufT 12 none, sufRM] ++ sufs⟩
/-- A vector REG op of one source. -/
def formV1 (name : String) (opc : Nat) (sufs : List SufGroup := []) : OpForm := formV name opc [.dst true, .src 38 true] sufs
/-- A vector REG op of two sources, B possibly a broadcast scalar. -/
def formV2 (name : String) (opc : Nat) (sufs : List SufGroup := []) : OpForm :=
  formV name opc [.dst true, .src 38 true, .vecB] sufs
/-- A vector REG op of three sources. -/
def formV3 (name : String) (opc : Nat) : OpForm := formV name opc [.dst true, .src 38 true, .vecB, .src 24 true]
/-- A vector REG op of two vector sources. -/
def formVV (name : String) (opc : Nat) (sufs : List SufGroup := []) : OpForm :=
  formV name opc [.dst true, .src 38 true, .src 31 true] sufs
/-- A scalar IMM op (R118). -/
def formI (name : String) (opc : Nat) : OpForm := ⟨name, 2, opc, [.dst false, .src 38 false, .imm 32 0 false], []⟩
/-- A scalar load or store (R171). -/
def formLd (name : String) (opc : Nat) : OpForm := ⟨name, 3, opc, [.dst false, .addr 22], [sufSZ]⟩
/-- A scalar store. -/
def formSt (name : String) (opc : Nat) : OpForm := ⟨name, 3, opc, [.addr 22, .src 31 false], [sufSZ]⟩
/-- A vector load or store (R173). -/
def formVm (name : String) (opc : Nat) (slots : List Slot) : OpForm := ⟨name, 3, opc, slots, [sufT 18 none]⟩
/-- An atomic (R175). -/
def formA (name : String) (opc : Nat) : OpForm := ⟨name, 3, opc, [.dst false, .addr 22, .src 31 false], [sufSZ, sufSC]⟩
/-- A TILE op. -/
def formT (name : String) (opc : Nat) (slots : List Slot) (sufs : List SufGroup := []) : OpForm := ⟨name, 4, opc, slots, sufs⟩
/-- An ENGINE op of `n` scalar operands. -/
def formE (name : String) (opc n : Nat) (sufs : List SufGroup := []) : OpForm :=
  ⟨name, 5, opc, ([.src 21 false, .src 14 false, .src 7 false] : List Slot).take n, sufs⟩
/-- A SYSTEM op. -/
def formY (name : String) (opc : Nat) (slots : List Slot) (sufs : List SufGroup := []) : OpForm := ⟨name, 7, opc, slots, sufs⟩

/-- The REG ops on scalars (R81, R113, R115). -/
def formsScalar : List OpForm :=
  [formS "add" 0x00 2, formS "sub" 0x01 2, formS "mul" 0x02 2, formS "mulh" 0x03 2, formS "div" 0x04 2, formS "rem" 0x05 2,
   formS "and" 0x06 2, formS "or" 0x07 2, formS "xor" 0x08 2, formS "andn" 0x09 2, formS "shl" 0x0A 2, formS "shr" 0x0B 2,
   formS "sar" 0x0C 2, formS "rot" 0x0D 2, formS "clz" 0x0E 1, formS "popc" 0x0F 1, formS "min" 0x10 2, formS "max" 0x11 2,
   formS "minu" 0x12 2, formS "maxu" 0x13 2, formS "sel" 0x14 3,
   { formS "cmp" 0x15 2 with sufs := [sufT 12 (some 15), sufW, sufN 24 (some 0x60)
      [("eq", 0x60), ("ne", 0x61), ("lt", 0x62), ("ge", 0x63), ("ltu", 0x64), ("geu", 0x65), ("sgn", 0x66)]] },
   formS "madd" 0x16 3, formS "extr" 0x17 2, formS "ins" 0x18 3, formS "bswap" 0x19 1, formS "shadd" 0x1A 3, formS "movc" 0x1B 1]

/-- The vector integer ops (R137, R138). -/
def formsVecInt : List OpForm :=
  [formV2 "vadd" 0x40, formV2 "vsub" 0x41, formV2 "vmul" 0x42, formV2 "vmulh" 0x43, formV2 "vmin" 0x44, formV2 "vmax" 0x45,
   formV2 "vand" 0x46, formV2 "vor" 0x47, formV2 "vxor" 0x48, formV2 "vandn" 0x49, formV2 "vshl" 0x4A, formV2 "vshr" 0x4B,
   formV2 "vsar" 0x4C, formV1 "vabs" 0x4D,
   formV2 "vcmp" 0x4E [sufN 8 (some 0) [("eq", 0), ("ne", 1), ("lt", 2), ("ge", 3), ("ltu", 4), ("geu", 5)]],
   formV3 "vsel" 0x4F, formV3 "vdot4" 0x50, formV3 "vmadd" 0x51, formV1 "vpopc" 0x52]

/-- The vector floating-point ops (R140, R142). -/
def formsVecFp : List OpForm :=
  [formV2 "vfadd" 0x80, formV2 "vfsub" 0x81, formV2 "vfmul" 0x82, formV3 "vfma" 0x83, formV3 "vfnma" 0x84, formV2 "vfmin" 0x85,
   formV2 "vfmax" 0x86, formV1 "vfabs" 0x87, formV1 "vfneg" 0x88,
   formV2 "vfcmp" 0x89 [sufN 8 (some 0) [("eq", 0), ("ne", 1), ("lt", 2), ("le", 3), ("gt", 4), ("ge", 5), ("un", 6)]],
   formV1 "vfrcp" 0x8A, formV1 "vfrsq" 0x8B, formV1 "vfexp2" 0x8C, formV1 "vflog2" 0x8D, formV2 "vfdiv" 0x8E,
   formV1 "vfsqrt" 0x8F, formV1 "vfclass" 0x90, formV2 "vfscale" 0x91, formV3 "vfdot2" 0x92]

/-- The converters, permutes, reductions and lane moves (R146-R159). -/
def formsVecMisc : List OpForm :=
  [formV1 "vcvt" 0xC0 [sufTo, sufPart], formV1 "vqnt" 0xC1 [sufTo, sufN 8 (some 0) [("elem", 0), ("scale", 1)]],
   formVV "vdqnt" 0xC2 [sufTo, sufPart], formVV "vlcd" 0xC3 [sufTo, sufPart], formV2 "vperm" 0xC5,
   formV "vshuf" 0xC6 [.dst true, .src 38 true, .srcWhen 31 true 8 3 [0, 1, 2, 3, 6]]
     [sufN 8 (some 0) [("ilo", 0), ("ihi", 1), ("even", 2), ("odd", 3), ("rev", 4), ("swap2", 5), ("lohi", 6)]],
   formV "vbcast" 0xC7 [.dst true, .src 38 false], formV "vred" 0xC8 [.dst false, .src 38 true] [sufRed], formV1 "vscan" 0xC9 [sufRed],
   formVV "vcmprs" 0xCA, formVV "vexpnd" 0xCB, formV "vslide" 0xCC [.dst true, .src 38 true, .scaB, .src 24 true],
   formV2 "vclmul" 0xCD [sufN 8 (some 0) [("ll", 0), ("hh", 1), ("lh", 2), ("hl", 3)]],
   formV "vextr" 0xCF [.dst false, .src 38 true, .scaB], formV "vins" 0xD0 [.dst true, .src 38 true, .scaB, .src 24 false],
   formV1 "vretag" 0xD1]

/-- The IMM ops (R118, R119, R160, R161). -/
def formsImm : List OpForm :=
  [formI "addi" 0x00, formI "andi" 0x01, formI "ori" 0x02, formI "xori" 0x03, formI "shli" 0x04, formI "shri" 0x05,
   formI "sari" 0x06, ⟨"li", 2, 0x07, [.dst false, .imm 32 0 false], []⟩, formI "lih" 0x08,
   ⟨"cmpi", 2, 0x09, [.dst false, .src 38 false, .imm 29 0 true],
     [sufN 29 (some 0) [("eq", 0), ("ne", 1), ("lt", 2), ("ge", 3), ("ltu", 4), ("geu", 5), ("sgn", 6)]]⟩,
   formI "muli" 0x0A, ⟨"vli", 2, 0x40, [.dst true, .imm 32 0 false], [sufT 38 none]⟩,
   ⟨"vaddi", 2, 0x41, [.dst true, .src 38 true, .imm 32 0 false], []⟩]

/-- The MEM ops (R169, R171, R173, R175, R177). -/
def formsMem : List OpForm :=
  [formLd "ld" 0x00, formLd "ldu" 0x01, formSt "st" 0x02, formLd "ldp" 0x03, formSt "stp" 0x04,
   formVm "vld" 0x20 [.dst true, .addr 18], formVm "vst" 0x21 [.addr 18, .src 31 true],
   formVm "vlds" 0x22 [.dst true, .base, .imm 18 0 true], formVm "vsts" 0x23 [.base, .src 31 true, .imm 18 0 true],
   formVm "vldx" 0x24 [.dst true, .addrX], formVm "vstx" 0x25 [.dstSrc true, .addrX], formVm "vldb" 0x26 [.dst true, .addr 18],
   formA "aadd" 0x40, formA "amin" 0x41, formA "amax" 0x42, formA "aand" 0x43, formA "aor" 0x44, formA "axor" 0x45,
   formA "aswp" 0x46, { formA "acas" 0x47 with slots := [.dstSrc false, .addr 22, .src 31 false] }, formA "aminu" 0x48,
   formA "amaxu" 0x49, ⟨"mark", 3, 0x60, [], []⟩, ⟨"fence", 3, 0x61, [], [sufSC]⟩, ⟨"cwb", 3, 0x63, [.addr 22], []⟩,
   ⟨"cinv", 3, 0x64, [.addr 22], []⟩]

/-- The TILE ops (R234-R239, R259-R268). -/
def formsTile : List OpForm :=
  [formT "tzero" 0x00 [.tile 45] [sufT 38 (some 15)], formT "tfill" 0x01 [.tile 45, .src 38 false] [sufT 31 none],
   formT "tident" 0x02 [.tile 45] [sufT 38 none], formT "tclass" 0x03 [.tile 45], formT "tcopy" 0x04 [.tile 45, .tile 38],
   formT "ttag" 0x05 [.tile 45] [sufT 38 none],
   formT "tmask" 0x06 [.mreg 45 true, .mreg 38 false]
     [sufFlag "zero" 31, sufFlag "const" 32, sufFlag "ident" 33, sufFlag "gen" 34, sufFlag "fin" 35],
   formT "tstate" 0x07 [.tile 45],
   formT "mcfg" 0x20 [.src 38 false] [sufN 45 none [("l0", 0), ("l1", 1), ("l2", 2), ("l3", 3), ("l4", 4), ("l5", 5), ("glob", 6)]],
   formT "mgo" 0x21 [.acc 45], formT "mswap" 0x22 [.acc 45], formT "mread" 0x23 [.acc 45, .src 38 false],
   formT "mdrain" 0x24 [.tile 45, .acc 38] [sufT 31 none, ⟨.numbered "p" 0 3 0, 0, some 0⟩],
   formT "mzero" 0x25 [.acc 45] [sufT 38 none], formT "mstep" 0x26 [.acc 45, .tile 38, .tileWb],
   formT "mwload" 0x27 [.src 45 false, .src 38 false, .src 31 false], formT "mstop" 0x28 []]

/-- The ENGINE ops (R278, R283, R288-R291, R320, R328, R350). -/
def formsEngine : List OpForm :=
  [formE "cpy" 0x00 3 [sufN 0 (some 0) [("fill", 1), ("keep", 2), ("rel", 3)], sufT 2 (some 0)],
   formE "cpy2d" 0x01 3 [sufN 0 (some 0) [("fill", 1), ("keep", 2), ("rel", 3)], sufT 2 (some 0)],
   formE "csched" 0x02 3, formE "cstage" 0x03 0, formE "ovl" 0x04 1,
   formE "dcpy" 0x05 3 [sufFlag "die" 0, sufN 2 (some 0) [("ring0", 1), ("ring1", 3), ("ring2", 5), ("ring3", 7)]],
   formE "rget" 0x20 3, formE "rput" 0x21 3 [sufFlag "ord" 0],
   ⟨"rgath", 5, 0x22, [.src 21 false, .src 14 true, .src 7 false], [⟨.numbered "n" 1 64 1, 0, none⟩]⟩,
   ⟨"rscat", 5, 0x23, [.src 21 false, .src 14 true, .src 7 false], [⟨.numbered "n" 1 64 1, 0, none⟩]⟩,
   ⟨"mcst", 5, 0x24, [.src 21 false, .dataB, .src 7 false], [sufN 0 none [("z1", 0), ("z2", 1), ("z4", 2), ("z8", 3), ("v", 4)]]⟩,
   formE "ratom" 0x25 3 [sufN 0 none [("add", 0), ("min", 1), ("max", 2), ("and", 3), ("or", 4), ("xor", 5), ("swp", 6), ("cas", 7),
     ("minu", 8), ("maxu", 9)], sufN 4 none [("z4", 0), ("z8", 1)], sufFlag "ord" 5],
   formE "binit" 0x40 2, formE "barr" 0x41 1 [⟨.numbered "c" 1 15 0, 0, none⟩], formE "bwait" 0x42 3, formE "bread" 0x43 1,
   ⟨"tkwait", 5, 0x50, [.tokens], []⟩, ⟨"tktest", 5, 0x51, [.tokens], []⟩, formE "tkjoin" 0x52 0]

/-- The BRANCH ops (R121-R125). -/
def formsBranch : List OpForm :=
  [⟨"br", 6, 0x00, [.target], []⟩, ⟨"brz", 6, 0x01, [.src 45 false, .target], []⟩, ⟨"brnz", 6, 0x02, [.src 45 false, .target], []⟩,
   ⟨"call", 6, 0x03, [.target], []⟩, ⟨"ret", 6, 0x04, [.src 45 false], []⟩, ⟨"jmpi", 6, 0x05, [.src 45 false, .imm 32 0 true], []⟩,
   ⟨"loop", 6, 0x06, [.src 45 false, .target], [⟨.numbered "rot" 0 15 0, 36, some 0⟩, ⟨.numbered "st" 0 15 0, 32, some 0⟩]⟩,
   ⟨"end", 6, 0x07, [], []⟩, ⟨"yield", 6, 0x08, [.src 45 false], []⟩, ⟨"calli", 6, 0x09, [.src 45 false, .imm 32 0 true], []⟩]

/-- The SYSTEM ops (R126, R127, R162, R163, R195-R198, R213, R214, R305, R384, R390). -/
def formsSystem : List OpForm :=
  [formY "csrr" 0x00 [.dst false, .csr], formY "csrw" 0x01 [.dst false, .csr, .src 38 false, .immOpt],
   formY "csrs" 0x02 [.dst false, .csr, .src 38 false, .immOpt], formY "csrc" 0x03 [.dst false, .csr, .src 38 false, .immOpt],
   formY "trap" 0x04 [.src 38 false, .imm 14 0 false], formY "eret" 0x05 [], formY "brk" 0x06 [.imm 14 0 false],
   formY "weirset" 0x07 [.dst false, .src 38 false, .srcWhen 31 false 0 14 [3]] [sufN 0 (some 3) [("ba", 1), ("wa", 2)]],
   formY "weirq" 0x08 [.dst false, .imm 14 0 false], formY "lend" 0x09 [.dst false, .src 38 false], formY "revoke" 0x0A [],
   formY "eddy" 0x0B [.dst false, .src 38 false, .srcWhen 31 false 0 14 [0]] [sufFlag "res" 0], formY "park" 0x0C [.src 38 false],
   formY "launch" 0x0D [.dst false, .src 38 false, .srcWhen 31 false 0 14 [2]] [sufN 0 (some 0) [("nb", 1), ("g", 2)]],
   formY "ntreq" 0x0E [] [sufFlag "pop" 0], formY "seed" 0x0F [.src 38 false], formY "rngpop" 0x10 [.dst false],
   formY "waitev" 0x11 [.dst false, .src 38 false, .src 31 false, .imm 14 0 false], formY "idle" 0x12 []]

/-- Every op's form. -/
def forms : List OpForm :=
  formsScalar ++ formsVecInt ++ formsVecFp ++ formsVecMisc ++ formsImm ++ formsMem ++ formsTile ++ formsEngine ++ formsBranch ++
    formsSystem

/-- The form of a mnemonic, whatever its case (R89). -/
def formOf (t : Text) : Option OpForm := forms.find? (fun f => f.name.toList == lower t)

end Sys2Proof.Machine
end

