-- ==== Sys2Proof/Machine/OpLine.lean ====
section
/-! DEFINITION. Reading one op line: its suffixes, operands, tokens, guard and route (R92-R100), and the words it stands
for. In a Yiloz statement operands and tokens are `%` names and no native register is named (R418). -/

namespace Sys2Proof.Machine

/-! ### An op as it is written -/

/-- An operand that is a Yiloz value: the place of its field, its name, and its class, none where either will do (B of a
vector REG op). `dsrc`: the field is D, coded like a destination (R67). -/
structure Ref where
  pos : Nat
  name : Text
  cls : Option Bool
  dsrc : Bool := false
  deriving DecidableEq, Repr

/-- A token field: a number or a Yiloz name. -/
inductive TokArg where
  | num (n : Nat)
  | name (t : Text)
  deriving DecidableEq, Repr

/-- An op line read: the sum of the fields known, the Yiloz value it defines with its class, the values it uses, its tokens,
its branch target and its route. -/
structure AsmOp where
  form : OpForm
  bits : Nat := 0
  dst : Option (Text × Bool) := none
  refs : List Ref := []
  out : Option TokArg := none
  ins : List TokArg := []
  target : Option (List Lex) := none
  via : Option Text := none
  deriving DecidableEq, Repr

/-- How a line is read: as a Yiloz statement, or as an entry of a `.sched` block, which may name b0-b7 (R287). -/
structure LineMode where
  yiloz : Bool := false
  sched : Bool := false
  deriving DecidableEq, Repr

/-- An op with a field added. -/
def AsmOp.put (o : AsmOp) (pos v : Nat) : AsmOp := { o with bits := o.bits + v * 2 ^ pos }

/-! ### Suffixes (R92) -/

/-- A decimal number in text. -/
def decimal (t : Text) : Option Nat := if t.all Char.isDigit then digitsFrom 10 false 0 t else none

/-- The value a suffix has in a group. -/
def Spell.value (s : Text) : Spell → Option Nat
  | .named l => (l.find? (fun p => p.1.toList == s)).map (·.2)
  | .numbered pre lo hi sub =>
    if pre.toList.isPrefixOf s then
      match decimal (s.drop pre.length) with
      | some n => if lo ≤ n ∧ n ≤ hi then some (n - sub) else none
      | none => none
    else none

/-- The first group that knows a suffix: the place and value it sets, and the groups that are left. -/
def takeSuffix (s : Text) : List SufGroup → Option (Nat × Nat × List SufGroup)
  | [] => none
  | g :: gs =>
    match g.spell.value s with
    | some v => some (g.pos, v, gs)
    | none => (takeSuffix s gs).map (fun r => (r.1, r.2.1, g :: r.2.2))

/-- The fields that suffixes set; a field may be set only once. -/
def suffixBits (gs : List SufGroup) : List Text → Option (Nat × List SufGroup)
  | [] => some (0, gs)
  | s :: ss =>
    match takeSuffix s gs with
    | some (pos, v, left) => (suffixBits left ss).map (fun r => (v * 2 ^ pos + r.1, r.2))
    | none => none

/-- The fields of the groups no suffix set; none where one is required. -/
def defaultBits : List SufGroup → Option Nat
  | [] => some 0
  | g :: gs =>
    match g.dflt, defaultBits gs with
    | some v, some n => some (v * 2 ^ g.pos + n)
    | _, _ => none

/-- The suffix fields of an op. The tag field of a CPY or CPY2D that fills defaults to 0xF (R283). -/
def OpForm.suffixes (f : OpForm) (ss : List Text) : Option Nat :=
  match suffixBits f.sufs ss with
  | some (n, left) =>
    (defaultBits left).map (fun d =>
      n + d + (if f.fmt = 5 ∧ f.opc < 2 ∧ n % 4 = 1 ∧ left.any (fun g => g.pos == 2) then 15 * 4 else 0))
  | none => none

/-! ### Operands (R93, R94, R98, R99) -/

/-- The special operands (R66). -/
def specials : List (String × Nat) :=
  [("zero", 0x60), ("one", 0x61), ("ones", 0x62), ("lane", 0x63), ("ctx", 0x64), ("core", 0x65), ("nx", 0x66)]

/-- The value a list of names gives a word, whatever its case. -/
def named (l : List (String × Nat)) (t : Text) : Option Nat := (l.find? (fun p => p.1.toList == lower t)).map (·.2)

/-- A letter with a number, such as `s12`. -/
def lettered (t : Text) : Option (Char × Nat) :=
  match lower t with
  | c :: d :: ds => (decimal (d :: ds)).map (c, ·)
  | _ => none

/-- A number after a prefix, at most a limit. -/
def prefixed (pre : String) (hi : Nat) (t : Text) : Option Nat :=
  if pre.toList.isPrefixOf (lower t) then (decimal (t.drop pre.length)).bind (fun n => if n ≤ hi then some n else none) else none

/-- The field value and class of a native source; the class is none for a special operand and a predicate. -/
def nativeSource (m : LineMode) (t : Text) : Option (Nat × Option Bool) :=
  match named specials t with
  | some n => some (n, none)
  | none =>
    if m.yiloz then none
    else
      match lettered t with
      | some ('q', n) => if 1 ≤ n ∧ n ≤ 16 then some (n - 1, some false) else none
      | some ('e', n) => if 1 ≤ n ∧ n ≤ 16 then some (n - 1, some true) else none
      | some ('s', n) => if n < 16 then some (0x20 + n, some false) else none
      | some ('v', n) => if n < 16 then some (0x20 + n, some true) else none
      | some ('g', n) => if n < 32 then some (0x40 + n, some false) else none
      | some ('w', n) => if n < 32 then some (0x40 + n, some true) else none
      | some ('p', n) => if n < 16 then some (0x70 + n, none) else none
      | some ('b', n) => if m.sched ∧ n < 8 then some (0x68 + n, some false) else none
      | _ => none

/-- The D code and class of a native register; the class is none for a predicate. -/
def nativeDest (t : Text) : Option (Nat × Option Bool) :=
  match lettered t with
  | some ('s', n) => if n < 16 then some (n, some false) else none
  | some ('v', n) => if n < 16 then some (n, some true) else none
  | some ('g', n) => if n < 32 then some (16 + n, some false) else none
  | some ('w', n) => if n < 32 then some (16 + n, some true) else none
  | some ('p', n) => if n < 16 then some (48 + n, none) else none
  | _ => none

/-- A source operand at a place. `cls` none: B of a vector REG op, where a scalar spelling sets X[3]. -/
def AsmOp.source (m : LineMode) (pos : Nat) (cls : Option Bool) (o : AsmOp) : List Lex → Option AsmOp
  | [.name t] => if m.yiloz then some { o with refs := o.refs ++ [⟨pos, t, cls, false⟩] } else none
  | [.word t] =>
    match nativeSource m t with
    | some (n, k) =>
      match cls, k with
      | none, some false => some ((o.put pos n).put 11 1)
      | some c, some d => if c = d then some (o.put pos n) else none
      | _, _ => some (o.put pos n)
    | none => none
  | _ => none

/-- A destination. -/
def AsmOp.dest (m : LineMode) (vec : Bool) (o : AsmOp) : List Lex → Option AsmOp
  | [.name t] => if m.yiloz then some { o with dst := some (t, vec) } else none
  | [.word t] =>
    if t = ['_'] then some o
    else if m.yiloz then none
    else
      match nativeDest t with
      | some (n, some c) => if c = vec then some ((o.put 45 n).put 51 1) else none
      | some (n, none) => if n = 48 then none else some ((o.put 45 n).put 51 1)
      | none => none
  | _ => none

/-- A source in D. -/
def AsmOp.destSource (m : LineMode) (vec : Bool) (o : AsmOp) : List Lex → Option AsmOp
  | [.name t] => if m.yiloz then some { o with refs := o.refs ++ [⟨45, t, some vec, true⟩] } else none
  | [.word t] =>
    if m.yiloz then none
    else
      match nativeDest t with
      | some (n, k) => if k = some (!vec) then none else some (o.put 45 n)
      | none => none
  | _ => none

/-- The words inside brackets. -/
def bracketed : List Lex → Option (List Lex)
  | .sym '[' :: r => if r.getLast? = some (.sym ']') then some r.dropLast else none
  | _ => none

/-- An immediate of `n` bits at a place. -/
def AsmOp.immediate (env : Env) (n pos : Nat) (signed : Bool) (o : AsmOp) (l : List Lex) : Option AsmOp :=
  match evalExpr env l with
  | some v => if if signed then fitsSigned n v else fitsEither n v then some (o.put pos (v.toNat % 2 ^ n)) else none
  | none => none

/-- A displacement that follows an address: nothing, or an expression that begins with a sign, read as 0 with that expression
after it, so that `[A - x + y]` is A - x + y (Log 96, DESIGN CHOICE). -/
def AsmOp.displacement (env : Env) (n : Nat) (o : AsmOp) (l : List Lex) : Option AsmOp :=
  match l with
  | [] => some o
  | .sym c :: _ => if c = '+' ∨ c = '-' then o.immediate env n 0 true (.num ['0'] :: l) else none
  | _ => none

/-- The control registers a CSR operand may name (R22). -/
def csrNames : List (String × Nat) :=
  [("ctxid", 0x000), ("mmrev", 0x001), ("fpctl", 0x002), ("fpstat", 0x003), ("weira", 0x004), ("weirw", 0x005), ("weirf", 0x006),
   ("weirc", 0x007), ("cycles", 0x008), ("budget", 0x009), ("rngseed", 0x00A), ("privbase", 0x00B), ("discard", 0x00C),
   ("trapcause", 0x010), ("trappc", 0x011), ("trapslot", 0x012), ("trapinfo0", 0x013), ("trapinfo1", 0x014), ("trapvec", 0x015),
   ("epc", 0x016), ("estat", 0x017), ("lendcfg", 0x020), ("eddystat", 0x021), ("nxstat", 0x022)]

/-- A control register: a name, or a number in 0x000-0xFFF. -/
def csrNumber (env : Env) (l : List Lex) : Option Nat :=
  match l with
  | [.word t] =>
    match named csrNames t with
    | some n => some n
    | none => (env t).bind (fun v => if v.toNat < 4096 then some v.toNat else none)
  | _ => (evalExpr env l).bind (fun v => if v.toNat < 4096 then some v.toNat else none)

/-- A token operand: kN with N to 62, or a Yiloz name (R96, R419). -/
def tokenArg (m : LineMode) : List Lex → Option TokArg
  | [.word t] => if m.yiloz then none else (prefixed "k" 62 t).map .num
  | [.name t] => if m.yiloz then some (.name t) else none
  | _ => none

/-- A word that is a number after a prefix. -/
def prefixedLex (pre : String) (hi : Nat) : List Lex → Option Nat
  | [.word t] => prefixed pre hi t
  | _ => none

/-- The operand of a slot that takes one. -/
def AsmOp.operand (m : LineMode) (env : Env) (o : AsmOp) (sl : Slot) (l : List Lex) : Option AsmOp :=
  match sl with
  | .dst vec => o.dest m vec l
  | .dstSrc vec => o.destSource m vec l
  | .src pos vec => o.source m pos (some vec) l
  | .vecB => o.source m 31 none l
  | .scaB => (o.source m 31 (some false) l).map (·.put 11 1)
  | .dataB => o.source m 14 (some (o.bits / 4 % 2 == 1)) l
  | .srcWhen pos vec _ _ _ => o.source m pos (some vec) l
  | .addr n =>
    match bracketed l with
    | some (a :: r) => (o.source m 38 (some false) [a]).bind (fun p => p.displacement env n r)
    | _ => none
  | .base => (bracketed l).bind (o.source m 38 (some false))
  | .addrX =>
    match bracketed l with
    | some (a :: .sym '+' :: b :: r) =>
      ((o.source m 38 (some false) [a]).bind (fun p => p.source m 31 (some true) [b])).bind (fun p => p.displacement env 18 r)
    | _ => none
  | .imm n pos signed => o.immediate env n pos signed l
  | .immOpt => o.immediate env 14 0 false l
  | .tile pos => (prefixedLex "t" 127 l).map (o.put pos)
  | .acc pos => (prefixedLex "acc" 3 l).map (o.put pos)
  | .mreg pos d =>
    if m.yiloz then none
    else (prefixedLex "m" 15 l).bind (fun n => if d && n == 0 then none else some (o.put pos n))
  | .tileWb => if l.all (·.isWord "wb") then some o else (prefixedLex "t" 127 l).map (o.put 31)
  | .csr => (csrNumber env l).map (o.put 14)
  | .target => some { o with target := some l }
  | .tokens => none

/-- Whether a slot has an operand, by the fields that suffixes set. -/
def Slot.present (bits : Nat) : Slot → Bool
  | .srcWhen _ _ lo n vals => vals.contains (bits / 2 ^ lo % 2 ^ n)
  | _ => true

/-- The operands of a line in order (R99). -/
def AsmOp.operands (m : LineMode) (env : Env) (o : AsmOp) : List Slot → List (List Lex) → Option AsmOp
  | [], [] => some o
  | [], _ :: _ => none
  | [.tokens], ps => (ps.mapM (tokenArg m)).bind (fun ts => if ts.isEmpty then none else some { o with ins := ts })
  | [.immOpt], [] => some o
  | sl :: sls, ps =>
    if sl.present o.bits then
      match ps with
      | p :: ps => (o.operand m env sl p).bind (fun q => q.operands m env sls ps)
      | [] => none
    else o.operands m env sls ps

/-! ### The end of a line: tokens, guard and route (R95-R97) -/

/-- Whether the end of a line begins here. -/
def tailAt : List Lex → Bool
  | .sym '=' :: .sym '>' :: _ => true
  | .sym '<' :: .sym '=' :: _ => true
  | .sym '?' :: _ => true
  | x :: _ => x.isWord "via"
  | [] => false

/-- The words up to the next part of the end of a line, and the rest. -/
def untilTail : List Lex → List Lex × List Lex
  | [] => ([], [])
  | x :: xs => if tailAt (x :: xs) then ([], x :: xs) else let r := untilTail xs; (x :: r.1, r.2)

/-- The place of the guard field of a format, none for ENGINE ops (R68). -/
def guardPos (fmt : Nat) : Option Nat :=
  match fmt with
  | 1 => some 19 | 2 => some 33 | 3 => some 26 | 4 => some 26 | 6 => some 40 | 7 => some 26 | _ => none

/-- A guard: `? pN` or `?! pN`, with `m` for a TILE op (R95). -/
def guardCodeOf (fmt : Nat) (l : List Lex) : Option Nat :=
  match l with
  | [.sym '!', .word t] => (prefixed (if fmt = 4 then "m" else "p") 15 t).map (16 + ·)
  | [.word t] => prefixed (if fmt = 4 then "m" else "p") 15 t
  | _ => none

/-- The end of a line from a part on: out token, in-tokens, then a guard or a route. -/
def AsmOp.tail (m : LineMode) (o : AsmOp) (stage : Nat) (l : List Lex) : Nat → Option AsmOp
  | 0 => none
  | n + 1 =>
    match l with
    | [] => some o
    | .sym '=' :: .sym '>' :: r =>
      let p := untilTail r
      if stage = 0 ∧ (o.form.fmt = 4 ∨ o.form.fmt = 5) then
        (tokenArg m p.1).bind (fun t => ({ o with out := some t }).tail m 1 p.2 n)
      else none
    | .sym '<' :: .sym '=' :: r =>
      let p := untilTail r
      if stage ≤ 1 ∧ (o.form.fmt = 4 ∨ o.form.fmt = 5) ∧ o.ins = [] then
        ((commaParts p.1).mapM (tokenArg m)).bind (fun ts =>
          if ts.isEmpty ∨ 3 < ts.length then none else ({ o with ins := ts }).tail m 2 p.2 n)
      else none
    | .sym '?' :: r =>
      if m.yiloz then none
      else
        match guardPos o.form.fmt, guardCodeOf o.form.fmt r with
        | some pos, some g => some (o.put pos g)
        | _, _ => none
    | [v, .word t] =>
      if v.isWord "via" ∧ o.form.fmt = 5 ∧ 0x20 ≤ o.form.opc ∧ o.form.opc < 0x50 then some { o.put 6 1 with via := some t } else none
    | _ => none

/-- Reading an op line: a mnemonic with its suffixes, operands and end. -/
def readOp (m : LineMode) (env : Env) (l : List Lex) : Option AsmOp :=
  match l with
  | .word t :: r =>
    match splitAtAll (· == '.') (lower t) with
    | name :: sufs =>
      match formOf name with
      | some f =>
        match f.suffixes sufs with
        | some n =>
          let p := untilTail r
          (({ form := f, bits := n : AsmOp }).operands m env f.slots (commaParts p.1)).bind (fun o =>
            if 3 < o.ins.length then none else o.tail m 0 p.2 4)
        | none => none
      | none => none
    | [] => none
  | _ => none

/-! ### Words -/

/-- The places of the token fields of a format: out, in 1, in 2, in 3 (R75, R76). -/
def tokenPlaces (fmt : Nat) : List Nat :=
  match fmt with
  | 4 => [20, 14, 8, 2]
  | 5 => [46, 40, 34, 28]
  | _ => []

/-- The number of a token argument; a name has the number a map gives it. -/
def TokArg.number (k : Text → Nat) : TokArg → Nat
  | .num n => n
  | .name t => k t

/-- The token fields: 63 where none is written (R96). -/
def AsmOp.tokenBits (o : AsmOp) (k : Text → Nat) : Nat :=
  let ts := (match o.out with | some t => t.number k | none => 63) :: o.ins.map (·.number k)
  ((tokenPlaces o.form.fmt).zipIdx.map (fun p => ts.getD p.2 63 * 2 ^ p.1)).sum

/-- The word of an op whose operands are all native, with a displacement for its branch target. -/
def AsmOp.word (o : AsmOp) (k : Text → Nat) (disp : Nat) (stop : Bool) : Word :=
  BitVec.ofNat 64 ((if stop then 2 ^ 63 else 0) + o.form.fmt * 2 ^ 60 + o.form.opc * 2 ^ 52 + o.bits + o.tokenBits k + disp)

/-- The displacement of a branch at an offset to a target, none where R100 refuses it. -/
def branchDisp (target : Word) (off : Nat) : Option Nat :=
  let d := target - BitVec.ofNat 64 off
  if target.toNat % 8 = 0 ∧ fitsSigned 32 (d.sshiftRight 3) then some ((d.sshiftRight 3).toNat % 2 ^ 32) else none

/-- A word with its S bit. -/
def withStop (stop : Bool) (w : Word) : Word := if stop then w ||| BitVec.ofNat 64 (2 ^ 63) else w &&& BitVec.ofNat 64 (2 ^ 63 - 1)

/-- The value of a scalar special operand that is the same in every context (R15, R66). -/
def constOperand (a : Operand) : Option Word :=
  match a with
  | .zero | .lane => some 0
  | .one => some 1
  | .ones => some (BitVec.allOnes 64)
  | .pred p => if p.val = 0 then some (BitVec.allOnes 64) else none
  | _ => none

/-- Whether a constant operand breaks a reserved-field rule of the op's entry: the words MCFG takes (R101, R248). -/
def constBad (i : Instr) : Bool :=
  match i with
  | .mcfg f =>
    match constOperand (operandOf f.a) with
    | some w => !(if f.d.toNat = 6 then globOk w else levelOk w)
    | none => false
  | _ => false

/-- Rows 1 to 5 of R80 as far as the words alone decide them, the reserved-field rules of constant operands, and a declared sum
of at most 96 wu (R101). -/
def bundleLegal (ws : List Word) : Bool :=
  let b := bundleOf (placeWords 0 ws)
  let l := layout 0 0 b.items
  !l.1.any (fun a => constBad a.i) && !l.1.any (fun a => row1Op a.i) && !l.1.any (fun a => row2Op a.i) && !l.1.any (fun a => row3Op a.i) && l.2.isEmpty &&
    (unitOver [] l.1).isNone && b.long.isNone && decide (ws.length ≤ 23) && (farOver 0 l.1).isNone && decide (declared l.1 ≤ 96)

end Sys2Proof.Machine
end

