-- ==== Sys2Proof/Machine/Yiloz.lean ====
section
/-! DEFINITION. The Yiloz container and its translation to op words (R418-R422, R450; log 20, DEDUCED). -/

namespace Sys2Proof.Machine

/-! ### Procedures (R418) -/

/-- A procedure: its header, and the lines of its body. `level` is 0 scalar, 1 loop, 2 tile. -/
structure YProc where
  name : Text
  params : List Text
  level : Nat
  nearS : Nat
  nearV : Nat
  ovl : Nat
  at_ : Nat
  els : Option Text
  body : List Text
  deriving DecidableEq, Repr

/-- The value of a header key, where the key is written once. -/
def headerKey (k : String) (ps : List (List Lex)) : Option (List Lex) :=
  match ps.filter (fun p => match p with | x :: y :: _ => x.isWord k && y.isSym '=' | _ => false) with
  | [_ :: _ :: v] => some v
  | _ => none

/-- A number literal. -/
def numberLex : List Lex → Option Nat
  | [.num t] => literal t
  | _ => none

/-- The names in a parameter list. -/
def paramNames : List Lex → Option (List Text)
  | .sym '(' :: r =>
    if r.getLast? = some (.sym ')') then
      (commaParts r.dropLast).mapM (fun p => match p with | [.name t] => some t | _ => none)
    else none
  | _ => none

/-- The level a word names (R419). -/
def levelOf : List Lex → Option Nat
  | [x] => if x.isWord "scalar" then some 0 else if x.isWord "loop" then some 1 else if x.isWord "tile" then some 2 else none
  | _ => none

/-- Whether every part of a header is one of its keys. -/
def headerParts (ps : List (List Lex)) : Bool :=
  ps.all (fun p =>
    match p with
    | x :: y :: _ => y.isSym '=' && (["level", "near", "ovl", "at", "else"].any (fun k => x.isWord k))
    | _ => false)

/-- A header line (R418). -/
def readHeader (l : List Lex) : Option YProc :=
  match l with
  | x :: .word name :: r =>
    match commaParts r with
    | ps :: keys =>
      match x.isWord "proc" && isSymbol name && headerParts keys, paramNames ps, (headerKey "level" keys).bind levelOf,
          headerKey "near" keys, (headerKey "ovl" keys).bind numberLex, (headerKey "at" keys).bind numberLex with
      | true, some params, some level, some [.num s, .sym '/', .num v], some ovl, some at_ =>
        match literal s, literal v, headerKey "else" keys, keys.any (fun p => p.head?.any (·.isWord "else")) with
        | some ns, some nv, e, has =>
          let els := match e with | some [.word t] => some t | _ => none
          if params.length ≤ 8 ∧ params.Nodup ∧ ns ≤ 16 ∧ nv ≤ 16 ∧ ovl < 256 ∧ at_ % 8 = 0 ∧ at_ < 0x10000 ∧ has = els.isSome then
            some ⟨name, params, level, ns, nv, ovl, at_, els, []⟩
          else none
        | _, _, _, _ => none
      | _, _, _, _, _, _ => none
    | [] => none
  | _ => none

/-- Whether a line is one word. -/
def isOneWord (s : String) (t : Text) : Bool :=
  match lex t with
  | some [x] => x.isWord s
  | _ => false

/-- Whether a line begins a procedure. -/
def beginsProc (t : Text) : Bool :=
  match lex t with
  | some (x :: _) => x.isWord "proc"
  | _ => false

/-- The procedures of lines, with the header of the open one (none inside a procedure whose header is wrong) and its lines,
last first. -/
def procsFrom (inside : Bool) (cur : Option YProc) (acc : List Text) : List Text → List YProc
  | [] => []
  | l :: ls =>
    if inside then
      if isOneWord "end" l then
        (match cur with | some p => [{ p with body := acc.reverse }] | none => []) ++ procsFrom false none [] ls
      else procsFrom true cur (l :: acc) ls
    else if beginsProc l then procsFrom true ((lex l).bind readHeader) [] ls
    else procsFrom false none [] ls

/-- The procedures of a Yiloz section. Log 20, DEDUCED. -/
def yilozProcs (t : Text) : List YProc := procsFrom false none [] (linesOf t)

/-! ### Native ops (R419, R421) -/

/-- A native op of a translation: the op, the value it writes without a D field (LOOP), the value a statement uses through
a mask it shares, and the predicates it reads and writes as masks. -/
structure NOp where
  op : AsmOp
  also : Option Text := none
  shared : Option Text := none
  reads : Option Nat := none
  writes : Option Nat := none
  deriving DecidableEq, Repr

/-- A translation under way: the ops, the labels with the number of the op they stand before, the latest mask (its count
value, its width, its predicate), the number of masks and of the statements that use one, those statements that take a new one,
the open `repeat` (its counter and the number of its first op), the closed blocks (first op and LOOP), the parameter whose copy
is joined with a MAX, and whether no label and no branch has come yet. -/
structure YBuild where
  ops : List NOp := []
  labels : List (Text × Nat) := []
  mask : Option (Text × Nat × Nat) := none
  masks : Nat := 0
  sharers : Nat := 0
  fresh : List Nat := []
  rep : Option (Text × Nat) := none
  blocks : List (Nat × Nat) := []
  joined : Option Text := none
  straight : Bool := true
  deriving DecidableEq, Repr

/-- The value a native op writes. -/
def NOp.def? (n : NOp) : Option Text :=
  match n.op.dst with
  | some d => some d.1
  | none => n.also

/-- The values a native op uses, one for each field, with the one it uses through a mask. -/
def NOp.uses (n : NOp) : List Text := n.op.refs.map (·.name) ++ n.shared.toList

/-- Adding an op; a write of the count value ends the reuse of the latest mask (R421). -/
def YBuild.emit (b : YBuild) (n : NOp) : YBuild :=
  { b with
    ops := b.ops ++ [n]
    mask := match b.mask with | some m => if n.def? = some m.1 then none else some m | none => none }

/-- Placing a label. -/
def YBuild.label (b : YBuild) (t : Text) : YBuild := { b with labels := b.labels ++ [(t, b.ops.length)] }

/-- An op on values by its form: its fixed fields, destination and uses. -/
def opOf (name : String) (bits : Nat) (dst : Option (Text × Bool)) (refs : List Ref) (target : Option (List Lex) := none) : AsmOp :=
  { form := (formOf name.toList).getD ⟨name, 0, 0, [], []⟩, bits := bits, dst := dst, refs := refs, target := target }

/-- The labels of a `repeat` block: names no symbol has. -/
def loopLabel (c : Char) (n : Nat) : Text := ['<', c] ++ (Nat.repr n).toList

/-- A branch to a label. -/
def toLabel (t : Text) : Option (List Lex) := some [.word t]

/-- MAX D, A, zero: T is 0xF. -/
def maxOp (c : Text) (refs : List Ref) (bits : Nat) : NOp :=
  ⟨opOf "max" (bits + 0x60 * 2 ^ 31 + 15 * 2 ^ 12) (some (c, false)) refs, none, none, none, none⟩

/-- The ops a level allows beside `ret` and the Yiloz-only statements (R419): the CE ops of a tile level are those of the copy
port's chapter, DCPY not among them. -/
def levelAllows (level : Nat) (i : Instr) : Bool :=
  match classOf i with
  | some .SA | some .SM | some .VA | some .VF | some .VX | some .VP | some .VC | some .LS | some .LV => true
  | some .NI => decide (1 ≤ level)
  | some .ME => decide (level = 2)
  | some .CE => match i with | .dcpy _ => false | _ => decide (level = 2)
  | some .BR => match i with | .tkwait _ => decide (level = 2) | .br _ | .brz _ | .brnz _ => true | _ => false
  | none => false

/-- The op of a form, whatever its operands. -/
def formInstr (f : OpForm) : Instr := decodeWord (BitVec.ofNat 64 (f.fmt * 2 ^ 60 + f.opc * 2 ^ 52)) none

/-- The definition `repeat` relies on: LI or ANDI of a non-negative value, or SHRI by at least one place (R421). -/
def nonNegative (o : AsmOp) : Bool :=
  o.form.fmt == 2 && ((o.form.opc == 7 || o.form.opc == 1) && !o.bits.testBit 31 || o.form.opc == 5 && decide (0 < o.bits % 2 ^ 32))

/-- Scanning back from a `repeat` through the ops before it, last first; `at_` is the number of the op after the next (R421). -/
def shownNonNeg (labels : List (Text × Nat)) (c : Text) : Nat → List NOp → Bool
  | _, [] => false
  | at_, n :: ns =>
    if labels.any (fun l => l.2 == at_) then false
    else if n.def? = some c then n.also.isNone && nonNegative n.op
    else shownNonNeg labels c (at_ - 1) ns

/-- `repeat %c` (R419, R421, R422). -/
def YBuild.repeat (b : YBuild) (params : List Text) (c : Text) : Option YBuild :=
  if b.rep.isSome then none
  else
    let touched := b.ops.any (fun n => n.def? = some c || n.uses.contains c)
    let b1 :=
      if shownNonNeg b.labels c b.ops.length b.ops.reverse then b
      else
        match params.idxOf? c with
        | some i =>
          if b.straight ∧ !touched ∧ b.joined.isNone then { b.emit (maxOp c [] ((0x40 + 24 + i) * 2 ^ 38)) with joined := some c }
          else b.emit (maxOp c [⟨38, c, some false, false⟩] 0)
        | none => b.emit (maxOp c [⟨38, c, some false, false⟩] 0)
    let k := b.blocks.length
    let b2 := b1.emit ⟨opOf "brz" 0 none [⟨45, c, some false, false⟩] (toLabel (loopLabel 'x' k)), none, none, none, none⟩
    let b3 := b2.label (loopLabel 'f' k)
    some { b3 with rep := some (c, b3.ops.length) }

/-- `endrepeat` (R419, R421). -/
def YBuild.endRepeat (b : YBuild) : Option YBuild :=
  match b.rep with
  | some (c, first) =>
    if (b.ops.drop first).any (fun n => n.def? = some c) then none
    else
      let k := b.blocks.length
      let b1 := b.emit ⟨opOf "loop" 0 none [⟨45, c, some false, false⟩] (toLabel (loopLabel 'f' k)), some c, none, none, none⟩
      let b2 := { b1 with rep := none, blocks := b1.blocks ++ [(first, b.ops.length)] }
      some (b2.label (loopLabel 'x' k))
  | none => none

/-- The mask of a `vldp` or `vstp` with a count value and width: the latest one, unless the statement is among those that take
a new one, or a new VCMP.Ti.ltu pk, lane, %n (R421). -/
def YBuild.useMask (b : YBuild) (n : Text) (w : Nat) : Option (YBuild × Nat × Option Text) :=
  match b.mask with
  | some (m, w2, k) => if m = n ∧ w2 = w ∧ !b.fresh.contains b.sharers then some (b, k, some n) else newMask
  | none => newMask
where
  /-- A new mask. -/
  newMask : Option (YBuild × Nat × Option Text) :=
    let k := b.masks + 1
    if 15 < k then none
    else
      let bits := (48 + k) * 2 ^ 45 + 2 ^ 51 + 0x63 * 2 ^ 38 + (if w = 32 then 4 else 5) * 2 ^ 12 + 4 * 2 ^ 8
      let b1 := b.emit ⟨opOf "vcmp" bits none [⟨31, n, none, false⟩], none, none, none, some k⟩
      some ({ b1 with mask := some (n, w, k), masks := k }, k, none)

/-- `vldp.T %v, %p, %n` and `vstp.T %p, %v, %n` (R419, R421). -/
def YBuild.masked (b : YBuild) (load : Bool) (sufs : List Text) (parts : List (List Lex)) : Option YBuild :=
  match sufs, parts with
  | [t], [[.name x], [.name y], [.name n]] =>
    match named [("i32", 4), ("f", 10), ("i64", 5), ("d", 11)] t with
    | some tag =>
      match b.useMask n (if tag = 4 ∨ tag = 10 then 32 else 64) with
      | some (b1, k, sh) =>
        let bits := tag * 2 ^ 18 + k * 2 ^ 26
        let o := if load then opOf "vld" bits (some (x, true)) [⟨38, y, some false, false⟩]
          else opOf "vst" bits none [⟨38, x, some false, false⟩, ⟨31, y, some true, false⟩]
        some ({ b1 with sharers := b1.sharers + 1 }.emit ⟨o, none, sh, some k, none⟩)
      | none => none
    | none => none
  | _, _ => none

/-- One statement at a level (R419). -/
def YBuild.statement (b : YBuild) (env : Env) (p : YProc) (l : List Lex) : Option YBuild :=
  match l with
  | .word t :: r =>
    match splitAtAll (· == '.') (lower t) with
    | name :: sufs =>
      if name = "repeat".toList then
        match sufs, r with
        | [], [.name c] => if 1 ≤ p.level then b.repeat p.params c else none
        | _, _ => none
      else if name = "endrepeat".toList then if sufs = [] ∧ r = [] ∧ 1 ≤ p.level then b.endRepeat else none
      else if name = "vldp".toList then if 1 ≤ p.level then b.masked true sufs (commaParts r) else none
      else if name = "vstp".toList then if 1 ≤ p.level then b.masked false sufs (commaParts r) else none
      else if name = "ret".toList then
        if sufs = [] ∧ r = [] then some (b.emit ⟨opOf "end" 0 none [], none, none, none, none⟩) else none
      else
        match readOp { yiloz := true } env l with
        | some o =>
          if levelAllows p.level (formInstr o.form) then
            let b1 := b.emit ⟨o, none, none, none, none⟩
            some (if o.form.fmt = 6 then { b1 with straight := false } else b1)
          else none
        | none => none
    | [] => none
  | _ => none

/-- One line: a label, a statement, or both, or neither. -/
def YBuild.line (b : YBuild) (env : Env) (p : YProc) (t : Text) : Option YBuild :=
  match lex t with
  | some (.word w :: .sym ':' :: r) =>
    if isSymbol w ∧ !b.labels.any (fun x => x.1 == w) then
      let b1 := { b.label w with straight := false }
      if r = [] then some b1 else b1.statement env p r
    else none
  | some [] => some b
  | some l => b.statement env p l
  | none => none

/-- The lines of a body in order. -/
def YBuild.lines (b : YBuild) (env : Env) (p : YProc) : List Text → Option YBuild
  | [] => if b.rep.isSome then none else some b
  | t :: ts => (b.line env p t).bind (fun c => c.lines env p ts)

/-- The label a branch names. -/
def NOp.label? (n : NOp) : Option Text :=
  match n.op.target with
  | some [.word t] => some t
  | _ => none

/-- The number of the op a label stands before. -/
def labelAt (labels : List (Text × Nat)) (t : Text) : Option Nat := (labels.find? (fun l => l.1 == t)).map (·.2)

/-- Whether a number lies in a block. -/
def inBlock (x : Nat × Nat) (n : Nat) : Bool := decide (x.1 ≤ n) && decide (n ≤ x.2)

/-- Every branch names a label of the procedure, and none leads into or out of a `repeat` block (R419). -/
def YBuild.branchesOk (b : YBuild) : Bool :=
  b.ops.zipIdx.all (fun x =>
    match x.1.op.target with
    | none => true
    | some _ =>
      match x.1.label? with
      | some t =>
        match labelAt b.labels t with
        | some k => !isSymbol t || b.blocks.all (fun y => inBlock y x.2 == inBlock y k)
        | none => false
      | none => false)

/-! ### Masks along every path (R419, R421) -/

/-- The numbers of the ops that can follow an op. -/
def YBuild.next (b : YBuild) (i : Nat) : List Nat :=
  match b.ops[i]? with
  | some n =>
    (match formInstr n.op.form with | .br _ | .endOp _ => [] | _ => [i + 1]) ++
      ((n.label?.bind (labelAt b.labels)).map (fun k => [k])).getD []
  | none => []

/-- Whether mask `k` of count value `n` holds after an op that it held before, or not. -/
def NOp.keepsMask (n : Text) (k : Nat) (held : Bool) (o : NOp) : Bool :=
  if o.writes = some k then true else if o.def? = some n then false else held

/-- For each op, whether mask `k` of count value `n` holds before it on every path, from what is known of the ops so far. -/
def YBuild.heldStep (b : YBuild) (n : Text) (k : Nat) (held : List Bool) : List Bool :=
  (List.range b.ops.length).map (fun j =>
    j != 0 && ((b.ops.zip held).zipIdx.filter (fun x => (b.next x.2).contains j)).all (fun x => x.1.1.keepsMask n k x.1.2))

/-- Steps until nothing changes. -/
def YBuild.held (b : YBuild) (n : Text) (k : Nat) : Nat → List Bool → List Bool
  | 0, h => h
  | m + 1, h => b.held n k m (b.heldStep n k h)

/-- Whether an op shares a mask that some path to it has not made, or not since the count value was written: R419 then needs a
new one. -/
def YBuild.badShare (b : YBuild) (i : Nat) : Bool :=
  match b.ops[i]? with
  | some o =>
    match o.shared, o.reads with
    | some n, some k => !(b.held n k (b.ops.length + 1) (List.replicate b.ops.length true)).getD i false
    | _, _ => false
  | none => false

/-- The number, among the statements that use a mask, of the first that may not share the latest one. -/
def YBuild.firstBadShare (b : YBuild) : Option Nat :=
  ((List.range b.ops.length).filter (fun i => (b.ops[i]?.bind (·.reads)).isSome)).findIdx? b.badShare

/-- The body of a procedure translated, with new masks where a shared one would not hold on every path (R419, R421; log 20,
DEDUCED). `n` bounds the rounds. -/
def buildProc (env : Env) (p : YProc) : Nat → List Nat → Option YBuild
  | 0, _ => none
  | n + 1, fresh =>
    (({ fresh := fresh } : YBuild).lines env p p.body).bind (fun b =>
      match b.firstBadShare with
      | some k => buildProc env p n (k :: fresh)
      | none => some b)

/-! ### Placing values (R422) -/

/-- Where a value is: in a queue, or in a register of a class and level. -/
inductive Home where
  | queue
  | reg (vec far : Bool) (n : Nat)
  deriving DecidableEq, Repr

/-- The first definitions of values, in order: the value, its class, the number of the op. -/
def firstDefs : Nat → List Text → List NOp → List (Text × Bool × Nat)
  | _, _, [] => []
  | i, seen, n :: ns =>
    match n.op.dst with
    | some (t, vec) =>
      if seen.contains t then firstDefs (i + 1) seen ns else (t, vec, i) :: firstDefs (i + 1) (t :: seen) ns
    | none => firstDefs (i + 1) seen ns

/-- The class of a value: a parameter is scalar; any other has that of its first definition (R418). -/
def classIn (p : YProc) (defs : List (Text × Bool × Nat)) (t : Text) : Option Bool :=
  if p.params.contains t then some false else (defs.find? (fun d => d.1 == t)).map (·.2.1)

/-- Every use and definition of a value agrees with its class. -/
def classesOk (p : YProc) (defs : List (Text × Bool × Nat)) (ops : List NOp) : Bool :=
  ops.all (fun n =>
    (match n.op.dst with | some (t, vec) => classIn p defs t == some vec | none => true) &&
    n.op.refs.all (fun r =>
      match classIn p defs r.name, r.cls with
      | some c, some d => c == d
      | some _, none => true
      | none, _ => false))

/-- Whether a value rides a queue: defined once and used once, later, with no label between, and not in D (R422). -/
def rides (b : YBuild) (p : YProc) (kept : List Text) (d : Text × Bool × Nat) : Bool :=
  let t := d.1
  let use := (b.ops.zipIdx.find? (fun x => x.1.uses.contains t)).map (·.2)
  !p.params.contains t && !kept.contains t &&
    decide ((b.ops.filter (fun n => n.def? = some t)).length = 1) && decide ((b.ops.flatMap (·.uses)).count t = 1) &&
    !b.ops.any (fun n => n.op.refs.any (fun r => r.name == t && r.dsrc)) &&
    (match use with
     | some u => decide (d.2.2 < u) && !b.labels.any (fun l => decide (d.2.2 < l.2) && decide (l.2 ≤ u))
     | none => false)

/-- Registers for values in order, up to the near budget and then far, none where the far ones run out. -/
def assign (nearS nearV : Nat) : Nat → Nat → List (Text × Bool) → Option (List (Text × Home))
  | _, _, [] => some []
  | s, v, (t, vec) :: r =>
    let n := if vec then v else s
    let near := if vec then nearV else nearS
    let rest := if vec then assign nearS nearV s (v + 1) r else assign nearS nearV (s + 1) v r
    if n < near then rest.map ((t, .reg vec false n) :: ·)
    else if n - near < (if vec then 32 else 24) then rest.map ((t, .reg vec true (n - near)) :: ·)
    else none

/-- The homes of all values; `kept` are those that may not ride a queue (R422). -/
def homes (b : YBuild) (p : YProc) (kept : List Text) : Option (List (Text × Home)) :=
  let defs := firstDefs 0 [] b.ops
  let written := b.ops.filterMap (·.def?)
  let queued := (defs.filter (rides b p kept)).map (·.1)
  let others := (defs.filter (fun d => !p.params.contains d.1 && !queued.contains d.1)).map (fun d => (d.1, d.2.1))
  let params := p.params.filter (fun t => written.contains t)
  let inPlace := (p.params.zipIdx.filter (fun x => !written.contains x.1)).map (fun x => (x.1, Home.reg false true (24 + x.2)))
  (assign p.nearS p.nearV 0 0 (params.map (·, false) ++ others)).map
    (fun l => queued.map (·, Home.queue) ++ inPlace ++ l)

/-- The home of a value. -/
def homeOf (hs : List (Text × Home)) (t : Text) : Option Home := (hs.find? (fun h => h.1 == t)).map (·.2)

/-- The copies of the written parameters, but for the joined one, before the first statement (R422). -/
def copies (b : YBuild) (p : YProc) : List NOp :=
  (p.params.zipIdx.filter (fun x => b.ops.any (fun n => n.def? = some x.1) && b.joined != some x.1)).map (fun x =>
    ⟨opOf "add" ((0x40 + 24 + x.2) * 2 ^ 38 + 0x60 * 2 ^ 31 + 15 * 2 ^ 12) (some (x.1, false)) [], none, none, none, none⟩)

/-! ### Native words -/

/-- The 7-bit field value of a home; an age for a queue. -/
def Home.source (age : Nat) : Home → Nat
  | .queue => age - 1
  | .reg _ far n => (if far then 0x40 else 0x20) + n

/-- The D field value of a home with W, zero for a queue. -/
def Home.destBits : Home → Nat
  | .queue => 0
  | .reg _ far n => ((if far then 16 else 0) + n) * 2 ^ 45 + 2 ^ 51

/-- The tokens of ops in order of first appearance; token i is the i-th (log 20, DEDUCED). -/
def tokenNames (ops : List NOp) : List Text :=
  (ops.flatMap (fun n => n.op.out.toList ++ n.op.ins)).foldl
    (fun l a => match a with | .name t => if l.contains t then l else l ++ [t] | .num _ => l) []

/-- What a native op of a placed procedure reads and writes (R450). -/
inductive Res where
  | value (t : Text)
  | reg (vec far : Bool) (n : Nat)
  | pred (n : Nat)
  | tok (t : Text)
  deriving DecidableEq, Repr

/-- A value's resource. -/
def Home.res (t : Text) : Home → Res
  | .queue => .value t
  | .reg vec far n => .reg vec far n

/-- The names of tokens. -/
def tokRes (l : List TokArg) : List Res := l.filterMap (fun a => match a with | .name t => some (.tok t) | .num _ => none)

/-- What an op reads. -/
def NOp.readRes (hs : List (Text × Home)) (n : NOp) : List Res :=
  n.op.refs.filterMap (fun r => (homeOf hs r.name).map (Home.res r.name)) ++ tokRes n.op.ins ++
    (match n.reads with | some k => [.pred k] | none => [])

/-- What an op writes. -/
def NOp.writeRes (hs : List (Text × Home)) (n : NOp) : List Res :=
  (match n.def? with | some t => ((homeOf hs t).map (Home.res t)).toList | none => []) ++ tokRes n.op.out.toList ++
    (match n.writes with | some k => [.pred k] | none => [])

/-- The op with its operands placed: the age of a queue value is what `age` says. -/
def NOp.place (hs : List (Text × Home)) (age : Text → Nat) (n : NOp) : AsmOp :=
  let d := match n.op.dst with | some (t, _) => ((homeOf hs t).getD .queue).destBits | none => 0
  let r := (n.op.refs.map (fun r =>
    let h := (homeOf hs r.name).getD .queue
    if r.dsrc then (match h with | .reg _ far k => (if far then 16 else 0) + k | .queue => 0) * 2 ^ 45
    else h.source (age r.name) * 2 ^ r.pos)).sum
  { n.op with bits := n.op.bits + d + r }

/-- X[3] of an op whose B is a scalar value (R93). -/
def broadcast (p : YProc) (defs : List (Text × Bool × Nat)) (n : NOp) : NOp :=
  if n.op.refs.any (fun r => r.cls.isNone && classIn p defs r.name == some false) then { n with op := n.op.put 11 1 } else n

/-- A route word before its turns are known: the loader's view gives them (R415). -/
def bareRoute (stop : Bool) : Word := withStop stop (BitVec.ofNat 64 (0x7FF * 2 ^ 52))

/-- The words of a placed op. -/
def placedWords (toks : List Text) (disp : Nat) (stop : Bool) (o : AsmOp) : List Word :=
  let w := fun s => o.word (fun t => (toks.idxOf? t).getD 63) disp s
  if o.via.isSome then [w false, bareRoute stop] else [w stop]

/-! ### Packing (R450) -/

/-- What an op is to the order of accesses (R276, R450): a load; a store, an atomic, a fence or an NI command; an engine op whose
command reads the scratchpad or the tile table, one whose command writes the scratchpad, one that does neither; a TKWAIT. -/
inductive AccKind where
  | none | load | store | reads | writes | engine | wait
  deriving DecidableEq, Repr

/-- The kind of an op. -/
def accessKind (i : Instr) : AccKind :=
  match classOf i with
  | some .NI => .store
  | some .CE => match i with | .cpy _ | .cpy2d _ | .cstage _ => .writes | _ => .engine
  | some .ME =>
    match i with
    | .tzero _ | .tfill _ | .tident _ | .tcopy _ | .mdrain _ => .writes
    | .mgo _ | .mstep _ | .mwload _ | .tclass _ | .ttag _ | .tstate _ => .reads
    | _ => .engine
  | some .BR => match i with | .tkwait _ => .wait | _ => .none
  | some .LS => match i with | .ld _ | .ldu _ | .ldp _ => .load | _ => .store
  | some .LV => match i with | .vst _ | .vsts _ | .vstx _ => .store | _ => .load
  | _ => .none

/-- Whether an access touches the scratchpad, the tile table or memory. -/
def AccKind.touches (k : AccKind) : Bool := k == .load || k == .store || k == .reads || k == .writes
/-- Whether an op is issued to an engine. -/
def AccKind.isEngine (k : AccKind) : Bool := k == .reads || k == .writes || k == .engine

/-- Whether an op keeps its order behind an earlier one: R450's third condition between a store and any access, an engine's own
among them; and what R276 and R419 ask of the text, that a load is performed before a later command writes, that engine ops
reach their engines in order, and that what follows a TKWAIT comes after it. Log 20, DEDUCED. -/
def keepsKind : AccKind → AccKind → Bool
  | .store, y => y.touches
  | .load, y => y == .store || y == .writes
  | .wait, y => y.touches || y.isEngine
  | x, y => x.isEngine && (y.isEngine || (y == .store && x.touches))

/-- Whether two ops, the first the earlier, keep their order. -/
def keepsOrder (a b : NOp) : Bool := keepsKind (accessKind (formInstr a.op.form)) (accessKind (formInstr b.op.form))

/-- The lowest bundle that the bundles of a run allow an op by the order of values and accesses (R450, conditions 1 to 3). -/
def lowestBundle (hs : List (Text × Home)) (n : NOp) : Nat → List (List NOp) → Nat
  | _, [] => 0
  | b, x :: xs =>
    let here :=
      if x.any (fun e => (e.writeRes hs).any ((n.readRes hs).contains ·)) then b + 1
      else if x.any (fun e =>
          (e.readRes hs ++ e.writeRes hs).any (fun r => (match r with | .value _ => false | _ => true) && (n.writeRes hs).contains r) ||
          keepsOrder e n) then b
      else 0
    max here (lowestBundle hs n (b + 1) xs)

/-- The words of a bundle, for its legality alone: no queue age and no displacement matters to it. -/
def bundleWords (hs : List (Text × Home)) (toks : List Text) : List NOp → List Word
  | [] => []
  | [n] => placedWords toks 0 true (n.place hs (fun _ => 1))
  | n :: ns => placedWords toks 0 false (n.place hs (fun _ => 1)) ++ bundleWords hs toks ns

/-- Placing an op into the first bundle from number `lo` on that stays legal, or a new one (R450, condition 4); none where
no bundle can hold it. -/
def intoBundle (hs : List (Text × Home)) (toks : List Text) (n : NOp) : Nat → List (List NOp) → Option (List (List NOp))
  | _, [] => if bundleLegal (bundleWords hs toks [n]) then some [[n]] else none
  | lo, x :: xs =>
    if lo = 0 ∧ bundleLegal (bundleWords hs toks (x ++ [n])) then some ((x ++ [n]) :: xs)
    else (intoBundle hs toks n (lo - 1) xs).map (x :: ·)

/-- Whether an op ends a run. -/
def NOp.isBranch (n : NOp) : Bool := n.op.form.fmt == 6

/-- Packing ops in text order; the flag says whether the op begins a run (R450). -/
def packRuns (hs : List (Text × Home)) (toks : List Text) : List (List NOp) → List (NOp × Bool) → Option (List (List NOp))
  | cur, [] => some cur
  | cur, (n, starts) :: rest =>
    let before := if starts then cur else []
    let run := if starts then [] else cur
    let lo := max (lowestBundle hs n 0 run) (if n.isBranch then run.length - 1 else 0)
    match intoBundle hs toks n lo run with
    | some run2 =>
      if n.isBranch then (packRuns hs toks [] rest).map (fun t => before ++ run2 ++ t)
      else (packRuns hs toks run2 rest).map (before ++ ·)
    | none => none

/-! ### Queue ages and words -/

/-- Whether an op pushes onto the scalar queue (R8), of the ops a statement can stand for. -/
def scalarPush (i : Instr) : Bool :=
  match classOf i with
  | some .SA | some .SM => true
  | some .LS => match i with | .st _ | .stp _ | .mark _ | .fence _ | .cwb _ | .cinv _ => false | _ => true
  | _ => match i with | .vred _ | .vextr _ | .tstate _ | .mstop _ | .bwait _ _ | .loop _ => true | _ => false

/-- The pushes of an op: onto the scalar and onto the vector queue. -/
def NOp.pushes (n : NOp) : Nat × Nat :=
  let i := formInstr n.op.form
  (if scalarPush i then 1 else 0, if (vecPush i).isSome then 1 else 0)

/-- The pushes before each value's, by value; `s` and `v` count the pushes so far. -/
def pushNumbers : Nat → Nat → List NOp → List (Text × Nat)
  | _, _, [] => []
  | s, v, n :: ns =>
    let p := n.pushes
    (match n.op.dst with | some (t, vec) => [(t, if vec then v else s)] | none => []) ++ pushNumbers (s + p.1) (v + p.2) ns

/-- Each bundle with the pushes before it. -/
def withEntry : Nat → Nat → List (List NOp) → List (Nat × Nat × List NOp)
  | _, _, [] => []
  | s, v, b :: bs =>
    (s, v, b) :: withEntry (s + (b.map (fun n => n.pushes.1)).sum) (v + (b.map (fun n => n.pushes.2)).sum) bs

/-- The age of a queue value at a bundle's entry (R8, R9). -/
def ageAt (nums : List (Text × Nat)) (defs : List (Text × Bool × Nat)) (s v : Nat) (t : Text) : Nat :=
  match nums.find? (fun x => x.1 == t), defs.find? (fun d => d.1 == t) with
  | some (_, k), some (_, vec, _) => (if vec then v else s) - k
  | _, _ => 0

/-- The queue values that would be older than 16 at their use (R450). -/
def tooOld (hs : List (Text × Home)) (defs : List (Text × Bool × Nat)) (bs : List (List NOp)) : List Text :=
  let nums := pushNumbers 0 0 bs.flatten
  (withEntry 0 0 bs).flatMap (fun x => x.2.2.flatMap (fun n =>
    (n.op.refs.map (·.name)).filter (fun t =>
      homeOf hs t == some .queue && decide (16 < ageAt nums defs x.1 x.2.1 t))))

/-- A translation: its overlay and offset, its words, and the route words with the routes they take. -/
structure Translated where
  ovl : Nat
  off : Nat
  words : List Word
  routes : List (Text × Nat)
  deriving DecidableEq, Repr

/-- An op's number of words. -/
def NOp.size (n : NOp) : Nat := if n.op.via.isSome then 2 else 1

/-- A packed op: its offset, whether it ends its bundle, the pushes at the bundle's entry, and the op. -/
structure Placed where
  off : Nat
  last : Bool
  s : Nat
  v : Nat
  n : NOp
  deriving DecidableEq, Repr

/-- The ops of a bundle at an offset. -/
def placeBundle (s v : Nat) : Nat → List NOp → List Placed
  | _, [] => []
  | o, n :: ns => ⟨o, ns.isEmpty, s, v, n⟩ :: placeBundle s v (o + 8 * n.size) ns

/-- The ops of bundles at an offset. -/
def placeBundles : Nat → List (Nat × Nat × List NOp) → List Placed
  | _, [] => []
  | off, (s, v, b) :: bs => placeBundle s v off b ++ placeBundles (off + 8 * (b.map NOp.size).sum) bs

/-- The words of a packed op, and its route with the offset of the route word; none where its branch target has no
displacement. -/
def emitOne (hs : List (Text × Home)) (toks : List Text) (defs : List (Text × Bool × Nat)) (nums : List (Text × Nat))
    (label : Text → Option Nat) (x : Placed) : Option (List Word × List (Text × Nat)) :=
  let disp : Option Nat :=
    match x.n.op.target with
    | none => some 0
    | some _ => (x.n.label?.bind label).bind (fun k => branchDisp (BitVec.ofNat 64 k) x.off)
  disp.map (fun d =>
    (placedWords toks d x.last (x.n.place hs (ageAt nums defs x.s x.v)), x.n.op.via.toList.map (fun r => (r, x.off + 8))))

/-- The words of packed bundles at an offset, and their routes; `label` gives the offset a label stands for. -/
def emitWords (hs : List (Text × Home)) (toks : List Text) (defs : List (Text × Bool × Nat)) (label : Text → Option Nat) (off : Nat)
    (bs : List (List NOp)) : Option (List Word × List (Text × Nat)) :=
  ((placeBundles off (withEntry 0 0 bs)).mapM (emitOne hs toks defs (pushNumbers 0 0 bs.flatten) label)).map
    (fun l => (l.flatMap (·.1), l.flatMap (·.2)))

/-- Each op of a procedure with whether it begins a run: the first, one with a label, and one after a branch do (R450). -/
def runStarts (labels : List (Text × Nat)) : Nat → Bool → List NOp → List (NOp × Bool)
  | _, _, [] => []
  | i, after, n :: ns => (n, after || labels.any (fun l => l.2 == i)) :: runStarts labels (i + 1) n.isBranch ns

/-- The offset of the op a label stands before: its place among the packed ops, which keep their order across runs. -/
def labelOffset (off : Nat) (bs : List (List NOp)) (k : Nat) : Nat := off + 8 * ((bs.flatten.take k).map NOp.size).sum

/-- Packing a procedure with the values `kept` out of the queues; a value too old at its use is kept out and the procedure
is packed again (R422, R450). `n` bounds the rounds. -/
def packProc (p : YProc) (b : YBuild) : Nat → List Text → Option Translated
  | 0, _ => none
  | n + 1, kept =>
    match homes b p kept with
    | some hs =>
      let defs := firstDefs 0 [] b.ops
      let cs := copies b p
      let ops := cs ++ b.ops.map (broadcast p defs)
      let labels := b.labels.map (fun l => (l.1, l.2 + cs.length))
      let toks := tokenNames ops
      let starts := runStarts labels 0 true ops
      if 63 < toks.length ∨ toks.any (fun t => (homeOf hs t).isSome) then none
      else
        match packRuns hs toks [] starts with
        | some bs =>
          match tooOld hs defs bs with
          | [] =>
            match emitWords hs toks defs (fun t => (labelAt labels t).map (labelOffset p.at_ bs)) p.at_ bs with
            | some (ws, rs) => if p.at_ + 8 * ws.length ≤ 0x10000 then some ⟨p.ovl, p.at_, ws, rs⟩ else none
            | none => none
          | old => packProc p b n (kept ++ old)
        | none => none
    | none => none

/-! ### Translating (R420) -/

/-- The features an op needs (R412). -/
def featureOf (o : AsmOp) : Nat :=
  let i := formInstr o.form
  (if o.form.fmt = 4 ∧ 0x20 ≤ o.form.opc ∧ o.form.opc ≤ 0x28 then 1 else 0) +
  (match i with
   | .mwload _ => 2
   | .lend _ | .eddy _ | .eddyRes _ => 4
   | .csched _ => 8
   | .dcpy _ => if o.bits.testBit 2 then 16 else 0
   | .ntreq _ | .ntreqPop _ => 32
   | .mzero _ => if o.bits / 2 ^ 38 % 16 = 11 then 64 else 0
   | _ => 0)

/-- The features of many ops. -/
def featuresOf (os : List AsmOp) : Nat := os.foldl (fun n o => n ||| featureOf o) 0

/-- What a translation takes from the object and the device: its symbols, the features that are absent, the overlays of the
native text, and the names of its routes (R418, R420). -/
structure YSource where
  env : Env := fun _ => none
  absent : Nat → Bool := fun _ => false
  native : Nat → Bool := fun _ => false
  route : Text → Bool := fun _ => false

/-- The translation of one procedure; none where a statement is not allowed, a feature is absent, or its values find no
place (R418, R420). Log 20, DEDUCED. -/
def translateProc (y : YSource) (p : YProc) : Option Translated :=
  if y.native p.ovl then none
  else
    match buildProc y.env p (p.body.length + 1) [] with
    | some b =>
      if b.branchesOk ∧ classesOk p (firstDefs 0 [] b.ops) b.ops ∧ !y.absent (featuresOf (b.ops.map (·.op))) ∧
          b.ops.all (fun n => n.op.via.toList.all y.route) then
        packProc p b (b.ops.length + 1) []
      else none
    | none => none

/-- Down the `else` chain from a name; `n` bounds its length. Log 20, DEDUCED. -/
def translateChain (y : YSource) (ps : List YProc) : Nat → Text → Option Translated
  | 0, _ => none
  | n + 1, name =>
    match ps.find? (fun p => p.name == name) with
    | some p =>
      match translateProc y p with
      | some t => some t
      | none => p.els.bind (translateChain y ps n)
    | none => none

/-- The translation that a launch of the procedure placed at an overlay and offset takes (log 84, DESIGN CHOICE). Log 20, DEDUCED. -/
def translateAt (y : YSource) (text : Text) (ovl off : Nat) : Option Translated :=
  let ps := yilozProcs text
  match ps.find? (fun p => p.ovl == ovl && p.at_ == off) with
  | some p => translateChain y ps ps.length p.name
  | none => none

end Sys2Proof.Machine
end

