-- ==== Sys2Proof/Machine/Loader.lean ====
section
/-! DEFINITION. Reading a code object (R410-R413) and its Yiloz part (R418). -/

namespace Sys2Proof.Machine

/-! ### Dwords and sections -/

/-- The dwords of a list of bytes. -/
def dwords : Nat → List Byte → List Word
  | 0, _ => []
  | n + 1, bs => wd (leNat (bs.take 8)) :: dwords n (bs.drop 8)

/-- All whole dwords of a list of bytes. -/
def dwordsOf (bs : List Byte) : List Word := dwords (bs.length / 8) bs

/-- A dword at an offset. -/
def dwordAt (bs : List Byte) (off : Nat) : Word := wd (leNat ((bs.drop off).take 8))

/-- A section of an object: its type, where it lies, and its bytes. -/
structure Sect where
  ty : Nat
  off : Nat
  bytes : List Byte
  deriving DecidableEq, Repr

/-- The sections of an object; the type of the first that does not lie in it, 0 where the directory does not (R410, R413). -/
def sectionsOf (bs : List Byte) (len diroff : Nat) : Nat → Nat ⊕ List Sect
  | 0 => .inr []
  | n + 1 =>
    if len < diroff + 16 then .inl 0
    else
      let d := dwordAt bs diroff
      let l := (dwordAt bs (diroff + 8)).toNat
      let off := bitsOf 63 8 d
      if len < off + l then .inl (bitsOf 7 0 d)
      else
        match sectionsOf bs len (diroff + 16) n with
        | .inr r => .inr (⟨bitsOf 7 0 d, off, (bs.drop off).take l⟩ :: r)
        | e => e

/-- The first type that stands twice in a directory. -/
def twice : List Nat → Option Nat
  | [] => none
  | t :: ts => if ts.contains t then some t else twice ts

/-- The bytes of a section, none of it being empty. -/
def sectBytes (l : List Sect) (ty : Nat) : List Byte := match l.find? (fun x => x.ty == ty) with | some x => x.bytes | none => []

/-- The records of a section, each `n` dwords; none where it is no whole number of them. -/
def recordsOf (n : Nat) (ws : List Word) : Option (List (List Word)) :=
  if ws.length % n = 0 then some ((List.range (ws.length / n)).map (fun i => (ws.drop (n * i)).take n)) else none

/-- A dword of a record. -/
def at' (r : List Word) (n : Nat) : Word := r.getD n 0

/-- Every element of a list mapped, none if one fails. -/
def mapAll (f : α → Option β) : List α → Option (List β)
  | [] => some []
  | x :: xs =>
    match f x, mapAll f xs with
    | some y, some ys => some (y :: ys)
    | _, _ => none

/-- A value if a condition holds. -/
def guardSome (c : Bool) (x : α) : Option α := if c then some x else none

/-! ### Records (R411) -/

/-- An overlay record with its words. -/
def overlayRec (text : List Byte) (r : List Word) : Option Overlay :=
  let d := at' r 0
  let off := bitsOf 15 3 d * 8
  let len := bitsOf 31 16 d
  let t := (at' r 1).toNat
  guardSome (bitsOf 63 40 d == 0 && bitsOf 2 0 d == 0 && decide (off + 8 * len ≤ 0x10000) && t % 8 == 0 &&
      decide (t + 8 * len ≤ text.length))
    ⟨bitsOf 39 32 d, off, dwords len (text.drop t)⟩

/-- Runs of section 0x03: offset and bytes, zero-padded to whole dwords. -/
def dataRuns : Nat → List Byte → Option (List (Nat × List Byte))
  | 0, bs => if bs.isEmpty then some [] else none
  | n + 1, bs =>
    if bs.isEmpty then some []
    else
      let d := dwordAt bs 0
      let len := bitsOf 63 32 d
      let pad := (len + 7) / 8 * 8
      if bs.length < 8 + pad ∨ bitsOf 31 19 d ≠ 0 ∨ ((bs.drop (8 + len)).take (pad - len)).any (· != 0) then none
      else (dataRuns n (bs.drop (8 + pad))).map ((bitsOf 18 0 d, (bs.drop 8).take len) :: ·)

/-- A run of section 0x04. -/
def bssRun (r : List Word) : Option (Nat × Nat) :=
  guardSome (bitsOf 31 19 (at' r 0) == 0) (bitsOf 18 0 (at' r 0), bitsOf 63 32 (at' r 0))

/-- A tile image. -/
def tileRec (r : List Word) : Option TileImg :=
  let d := at' r 0
  let t := tagOf (bitsOf 15 12 d)
  let c := at' r 1
  let kind := bitsOf 9 8 d
  guardSome (bitsOf 63 16 d == 0 && bitsOf 11 10 d == 0 && bit7 d && bitsOf 15 12 d != 15 &&
      (if kind = 1 then decide (c.toNat < 2 ^ tagWidth t) else c == 0))
    ⟨bitsOf 6 0 d, kind, t, c⟩
where
  /-- Bit 7 is clear. -/
  bit7 (d : Word) : Bool := !bitAt 7 d

/-- Whether a word is a CPY or CPY2D with RW 0 (R287). -/
def copyWord (w : Word) : Bool := fld w 60 3 == 5#3 && decide (bitsOf 59 52 w < 2) && !w.getLsbD 6

/-- The schedules of section 0x07 (R287, R411). -/
def schedRecs : Nat → List Word → Option (List (List SchedEnt))
  | 0, ws => if ws.isEmpty then some [] else none
  | k + 1, ws =>
    match ws with
    | [] => some []
    | n :: rest =>
      let m := n.toNat
      if m < 1 ∨ 256 < m ∨ rest.length < 2 * m then none
      else
        match recordsOf 2 (rest.take (2 * m)) with
        | some rs =>
          if rs.all (fun r => copyWord (at' r 0) && decide ((at' r 1).toNat < 64)) then
            (schedRecs k (rest.drop (2 * m))).map (rs.map (fun r => ⟨at' r 0, (at' r 1).toNat⟩) :: ·)
          else none
        | none => none

/-- A route-table entry. -/
def routeRec (r : List Word) : Option RouteEnt :=
  guardSome (bitsOf 63 52 (at' r 0) == 0 && bitsOf 31 16 (at' r 1) == 0)
    ⟨int8 (bitsOf 7 0 (at' r 1)), int8 (bitsOf 15 8 (at' r 1)), []⟩

/-- A relocation: route, overlay, offset. -/
def relocRec (r : List Word) : Option (Nat × Nat × Nat) :=
  let d := at' r 0
  guardSome (bitsOf 39 16 d == 0 && bitsOf 2 0 d == 0) (bitsOf 63 48 d, bitsOf 47 40 d, bitsOf 15 3 d * 8)

/-- Whether a word is an ENGINE word with RW set (R76, R413). -/
def engineRw (w : Word) : Bool := fld w 60 3 == 5#3 && w.getLsbD 6

/-- Whether a relocation names a route and a word that directly follows an ENGINE word with RW set (R413). -/
def relocOk (ovls : List Overlay) (routes : Nat) (r : Nat × Nat × Nat) : Bool :=
  decide (r.1 < routes) &&
  ovls.any (fun o => o.num == r.2.1 && decide (o.off < r.2.2) && decide (r.2.2 < o.off + 8 * o.words.length) &&
    engineRw (o.words.getD ((r.2.2 - o.off) / 8 - 1) 0))

/-- A region. -/
def regionRec (r : List Word) : Option RegionEnt :=
  let d := at' r 0
  let n := bitsOf 15 8 d
  guardSome (bitsOf 62 16 d == 0 && !bitAt 7 d && decide (1 ≤ n) && decide (bitsOf 6 0 d + n ≤ 128)) ⟨bitAt 63 d, bitsOf 6 0 d, n⟩

/-- An eddy entry. -/
def eddyRec (r : List Word) : Option EddyEnt :=
  let d := at' r 0
  guardSome (bitsOf 63 48 d == 0 && !bitAt 39 d && bitsOf 31 16 d == 0 && bitsOf 2 0 d == 0)
    ⟨bitsOf 47 40 d, bitsOf 38 32 d, bitsOf 15 3 d * 8⟩

/-- Whether a symbol record is well formed. -/
def symbolOk (r : List Word) : Bool :=
  let d := at' r 2
  bitsOf 63 9 d == 0 && decide (bitsOf 7 0 d ≤ 8)

/-! ### Checking an object (R413) -/

/-- A NUL-terminated name at an offset of the strings (R411). -/
def nameAt (strings : List Byte) (off : Nat) : Text := textOf ((strings.drop off).takeWhile (· != 0))

/-- The Yiloz part of an object: its text, the labels and constants its symbols give (kinds 0 to 2), and the names of its
routes in order (R411). -/
structure YilozPart where
  text : List Byte
  syms : List (Text × Word)
  routes : List Text
  deriving DecidableEq, Repr

/-- The Yiloz part of sections. -/
def yilozPart (l : List Sect) (ws : Nat → List Word) : YilozPart :=
  let strings := sectBytes l 13
  { text := sectBytes l 14
    syms := ((recordsOf 3 (ws 12)).getD []).filterMap (fun r =>
      if bitsOf 7 0 (at' r 2) ≤ 2 then some (nameAt strings (bitsOf 63 32 (at' r 1)), at' r 0) else none)
    routes := ((recordsOf 2 (ws 8)).getD []).map (fun r => nameAt strings (bitsOf 63 32 (at' r 1))) }

/-- How a load ends: an image with the Yiloz part of its object, or a status with its detail (R413, R430). -/
inductive LoadEnd where
  | image (i : Image) (yiloz : YilozPart)
  | fails (status detail : Nat)
  deriving DecidableEq, Repr

/-- INVALID, with the section type (R413, R430). -/
def invalid (ty : Nat) : LoadEnd := .fails 2 ty

/-- Whether a run lies below the extent. -/
def below (extent : Nat) (r : Nat × Nat) : Bool := decide (r.1 + r.2 ≤ extent)

/-- Building an image from the sections of an object; check 4 of R413 but for the launch records. -/
def buildImage (id : Nat) (h : List Word) (l : List Sect) : LoadEnd :=
  let mmrev := bitsOf 31 24 (at' h 0)
  let extent := bitsOf 19 0 (at' h 3)
  let tys := l.map (·.ty)
  if mmrev < 1 ∨ 3 < mmrev ∨ extent % 0x4000 ≠ 0 ∨ 0x80000 < extent ∨ bitsOf 63 20 (at' h 3) ≠ 0 ∨ bitsOf 63 32 (at' h 4) ≠ 0 ∨
      at' h 5 ≠ 0 ∨ at' h 6 ≠ 0 ∨ at' h 7 ≠ 0 then invalid 0
  else
    match (tys.find? (fun t => t < 1 || 14 < t)).or (twice tys) with
    | some t => invalid t
    | none =>
      let ws (t : Nat) : List Word := dwordsOf (sectBytes l t)
      match l.find? (fun x => x.ty != 0x0D && x.ty != 0x0E && x.bytes.length % 8 != 0) with
      | some x => invalid x.ty
      | none =>
        let text := sectBytes l 2
        match (recordsOf 2 (ws 1)).bind (mapAll (overlayRec text)) with
        | none => invalid 1
        | some ovls =>
        match dataRuns (ws 3).length (sectBytes l 3) with
        | none => invalid 3
        | some data =>
        match (recordsOf 1 (ws 4)).bind (mapAll bssRun) with
        | none => invalid 4
        | some bss =>
        match (recordsOf 2 (ws 5)).bind (mapAll tileRec) with
        | none => invalid 5
        | some tiles =>
        match recordsOf 16 (ws 6) with
        | none => invalid 6
        | some launches =>
        match schedRecs (ws 7).length (ws 7) with
        | none => invalid 7
        | some scheds =>
        match (recordsOf 2 (ws 8)).bind (mapAll routeRec) with
        | none => invalid 8
        | some routes =>
        match (recordsOf 1 (ws 9)).bind (mapAll relocRec) with
        | none => invalid 9
        | some relocs =>
        match (recordsOf 1 (ws 10)).bind (mapAll regionRec) with
        | none => invalid 10
        | some regions =>
        match (recordsOf 1 (ws 11)).bind (mapAll eddyRec) with
        | none => invalid 11
        | some eddies =>
        if !data.all (fun d => below extent (d.1, d.2.length)) then invalid 3
        else if !bss.all (below extent) then invalid 4
        else if !tiles.all (fun t => below extent (t.slot * slotSize, slotSize)) then invalid 5
        else if !relocs.all (relocOk ovls routes.length) then invalid 9
        else if !regions.all (fun r => below extent (r.start * slotSize, r.count * slotSize)) then invalid 10
        else if !(match recordsOf 3 (ws 12) with | some rs => rs.all symbolOk | none => false) then invalid 12
        else
          .image {
            id := id, mmrev := mmrev, weirf := bitsOf 23 16 (at' h 0), needs := bitsOf 15 0 (at' h 0), extent := extent,
            overlays := ovls, data := data, bss := bss, tiles := tiles, launches := launches, scheds := scheds,
            routes := routes.zipIdx.map (fun r =>
              { r.1 with uses := relocs.filterMap (fun x => if x.1 = r.2 then some (x.2.1, x.2.2) else none) }),
            regions := regions, eddies := eddies } (yilozPart l ws)

/-- Checks 1 to 4 of R413, but for the launch records. -/
def readObject (id : Nat) (bs : List Byte) : LoadEnd :=
  let h := dwords 8 bs
  let len := (at' h 1).toNat
  if bs.length < 64 ∨ bitsOf 63 48 (at' h 0) ≠ 0x5358 then .fails 8 0
  else if bs.length < len ∨ len < 64 ∨ (crc32 ((bs.take len).drop 64)).toNat ≠ bitsOf 31 0 (at' h 4) then .fails 9 0
  else if 1 < bitsOf 47 32 (at' h 0) then .fails 10 0
  else
    match sectionsOf (bs.take len) len (bitsOf 63 8 (at' h 2)) (bitsOf 7 0 (at' h 2)) with
    | .inr l => buildImage id h l
    | .inl ty => invalid ty

end Sys2Proof.Machine
end

