-- ==== Sys2Proof/Machine/EvHost.lean ====
section
/-! DEFINITION. The host port: BAR0 and BAR2, the mailbox and its commands (R371, R372, R386-R388, R413, R424-R430). -/

namespace Sys2Proof.Machine

/-! ### Phases and vectors (R426, R428) -/

/-- PHASE changes: vector 1 is raised (R428). Log 86, DEDUCED. -/
def State.setPhase (s : State) (p : Phase) : State := ({ s with boot := { s.boot with phase := p } }).raiseIrq 1

/-- A phase fails with a FAULT code (R431). -/
def State.failPhase (s : State) (code : Nat) : State :=
  ({ s with boot := { s.boot with fault := code } }).setPhase .failed

/-- The number of a phase in BOOTSTAT (R426). -/
def phaseNo : Phase → Nat
  | .reset => 0 | .rom => 1 | .waitfw => 2 | .loading => 3 | .bringup => 4 | .selftest => 5 | .ready => 6 | .failed => 15

/-! ### What the host reads (R425, R426) -/

/-- BOOTSTAT. -/
def State.bootstat (s : State) : Word :=
  wd (s.boot.fwrev % 2 ^ 16 * 2 ^ 48 + s.boot.fault % 256 * 2 ^ 32 + bnat s.boot.trready * 16 + phaseNo s.boot.phase)
/-- RETIRED. -/
def State.retiredReg (s : State) : Word := wd (s.boot.retiredRouters % 2 ^ 32 * 2 ^ 32 + s.boot.retiredCores % 2 ^ 32)
/-- The sum of the soft-error counters of R356. -/
def State.softSum (s : State) : Nat := ((List.range 4).map (fun d => (s.die d).soft.toList.sum)).sum
/-- ERRCNT. -/
def State.errcnt (s : State) : Word := wd (s.boot.dropped % 2 ^ 32 * 2 ^ 32 + s.softSum % 2 ^ 32)

/-- STATE as a number (R379). -/
def slotNo : SlotSt → Nat
  | .free => 0 | .bind => 1 | .run => 2 | .release => 3

/-- A dword of a bind record (R379). -/
def SlotRec.dword (r : SlotRec) (n : Nat) : Word :=
  match n with
  | 0 => wd (r.task % 2 ^ 32 * 2 ^ 32 + r.part % 16 * 2 ^ 28 + r.prio % 16 * 2 ^ 24 + slotNo r.st)
  | 1 => wd (r.pool % 1024)
  | _ => wd r.img

/-- A read of BAR2: aligned, 8 bytes wide; any other offset reads zero (R425, R426). -/
def State.bar2Read (s : State) (off : Nat) : Word :=
  if off % 8 ≠ 0 then 0
  else if off = 0 then s.bootstat
  else if off = 8 then s.retiredReg
  else if off = 0x10 then s.errcnt
  else if 0x10000 ≤ off ∧ off < 0x10000 + 24 * nCores then
    (s.core ((off - 0x10000) / 24)).slot.dword ((off - 0x10000) / 8 % 3)
  else 0

/-- A read of BAR0 (R425). -/
def State.bar0Read (s : State) (off : Nat) : Word :=
  if off % 8 ≠ 0 then 0
  else if off < 0x4000 then s.host.slots.readWord off
  else if off = 0x8000 then s.boot.fwaddr
  else if off = 0x8008 then wd s.boot.fwlen
  else if off = 0x8010 then wd s.boot.fabid
  else 0

/-! ### What the host writes (R425, R427, R431, R434) -/

/-- The bits of a header the host writes (R427). -/
def hostBits : Word := 0xFFFFFF0000000003#64
/-- The STATUS bits of a header. -/
def statusBits : Word := 0x000000FF00000000#64

/-- A dword of a slot. -/
def State.slotWord (s : State) (i n : Nat) : Word := s.host.slots.readWord (256 * i + 8 * n)
/-- Writing a dword of a slot. -/
def State.setSlotWord (s : State) (i n : Nat) (w : Word) : State :=
  { s with host := { s.host with slots := s.host.slots.writeWord (256 * i + 8 * n) w } }

/-- A write to a slot is dropped and counted (R427). -/
def State.dropWrite (s : State) : State := { s with boot := { s.boot with dropped := s.boot.dropped + 1 } }

/-- A write to slot `i`, dword `n` (R427). -/
def State.slotWrite (s : State) (i n : Nat) (v : Word) : State :=
  if bitAt 0 (s.slotWord i 0) then s.dropWrite
  else if n = 0 then
    if s.boot.phase != .ready then s.dropWrite
    else
      let s1 := s.setSlotWord i 0 ((v &&& hostBits) ||| (s.slotWord i 0 &&& statusBits))
      if bitAt 0 v then { s1 with host := { s1.host with submitted := s1.host.submitted ++ [i] } } else s1
  else s.setSlotWord i n v

/-- A write of FWLEN: a nonzero one in WAITFW starts LOADING (R431). -/
def State.writeFwlen (s : State) (v : Word) : State :=
  if s.boot.phase == .waitfw then
    let s1 : State := { s with boot := { s.boot with fwlen := bitsOf 31 0 v } }
    if bitsOf 31 0 v = 0 then s1 else s1.setPhase .loading
  else s

/-- A read of `width` bytes at an offset of a BAR: one that is not 8 bytes wide and aligned, or of another BAR, reads zero (R425). -/
def State.hostRead (s : State) (bar width off : Nat) : Word :=
  if width ≠ 8 ∨ off % 8 ≠ 0 then 0
  else if bar = 0 then s.bar0Read off
  else if bar = 2 then s.bar2Read off
  else 0

/-- A write to BAR0; one that is not aligned or to another offset is dropped (R425). -/
def State.bar0Write (s : State) (off : Nat) (v : Word) : State :=
  if off % 8 ≠ 0 then s
  else if off < 0x4000 then s.slotWrite (off / 256) (off % 256 / 8) v
  else if off = 0x8008 then s.writeFwlen v
  else if s.boot.phase != .waitfw then s
  else if off = 0x8000 then { s with boot := { s.boot with fwaddr := wd (bitsOf 63 12 v * 4096) } }
  else if off = 0x8010 then { s with boot := { s.boot with fabid := bitsOf 11 0 v } }
  else s

/-- FWLEN_WRITE (R431). -/
def execFwlenWrite (v : Word) (s : State) : Host.Outcome State Fault Refusal := .next (s.writeFwlen v)

/-- HOST_REGISTER_WRITE of `v` by an access to a BAR: one that is not 8 bytes wide, or to any part of
BAR2, is dropped (R425, R427). -/
def execHostRegisterWrite (a : BarAccess) (v : Word) (s : State) : Host.Outcome State Fault Refusal :=
  .next (if a.bar = 0 ∧ a.width = 8 then s.bar0Write a.off v else s)

/-! ### Commands (R427, R429, R430) -/

/-- OP of a slot. -/
def State.slotOp (s : State) (i : Nat) : Nat := bitsOf 47 40 (s.slotWord i 0)

/-- How a command ends: its status, what its status names, and its results, dword by dword. -/
structure CmdEnd where
  status : Nat
  detail : Option Word := none
  results : List (Nat × Word) := []
  deriving DecidableEq, Repr

/-- Completing the command of slot `i`: the results first, then the header with OWN = 0, then vector 0 (R427, R430). Log 83, DEDUCED. -/
def State.completeSlot (s : State) (i : Nat) (e : CmdEnd) : State :=
  let h := s.slotWord i 0
  let rs := e.results ++ (match e.detail with | some d => [(31, d)] | none => [])
  let s1 := rs.foldl (fun (s : State) r => s.setSlotWord i r.1 r.2) s
  let s2 := s1.setSlotWord i 0 ((h &&& ~~~statusBits &&& ~~~1#64) ||| wd (e.status % 256 * 2 ^ 32))
  let s3 : State := { s2 with host := { s2.host with submitted := s2.host.submitted.tail } }
  if bitAt 1 h then s3.raiseIrq 0 else s3

/-- A meaning of a command: the first submitted slot, where its OP satisfies `ok`; LOAD and GRAPH wait for TRREADY (R427,
R429). Log 7, DESIGN CHOICE. -/
def onMailbox (ok : Nat → Bool) (tr : Bool) (f : State → Nat → State × CmdEnd) (s : State) : Host.Outcome State Fault Refusal :=
  .next (match s.host.submitted.head? with
    | some i =>
      if s.boot.phase == .ready && ok (s.slotOp i) && (!tr || s.boot.trready) then
        let r := f s i
        r.1.completeSlot i r.2
      else s
    | none => s)

/-- A failure. Log 83, DEDUCED. -/
def fails (s : State) (status : Nat) (detail : Option Nat := none) : State × CmdEnd := (s, { status := status, detail := detail.map wd })

/-- Bytes of host memory, none where the range leaves the host's address space (R430; log 21, DESIGN CHOICE). -/
def State.hostBytes (s : State) (a n : Nat) : Option (List Byte) :=
  if 2 ^ 64 < a + n then none else some (s.host.mem.readBytes a n)

/-! ### LOAD and UNLOAD (R413, R420, R423) -/

/-- The identity of the next image: above every identity still named anywhere (R290, R413). Log 64, DESIGN CHOICE. -/
def State.nextImage (s : State) : Nat :=
  1 + (s.fw.images.map (·.id) ++ s.fw.tasks.map (·.image) ++ s.fw.graphs.map (·.image) ++
    s.cores.flatMap (fun c => c.2.resid.map (·.image))).foldl max 0

/-- The reason of R385 of a launch record of an object (R413); the overlay of a Yiloz procedure that the record names is not
there yet. Log 84, DESIGN CHOICE. -/
def objectReason (s : State) (img : Image) (y : YilozPart) (r : List Word) : Option Nat :=
  match recReason s img s.hostPart r with
  | some 5 =>
    if (img.overlay (recOvl r)).isNone ∧
        (yilozProcs (textOf y.text)).any (fun p => p.ovl == recOvl r && p.at_ == recEntry r) then
      if !recReservedOk r || !recComplOk r then some 6
      else if (recShape r = 1 ∧ 16 < recCores r) ∨ (recShape r = 2 ∧ 768 < recCores r) then some 7
      else if recSched r = 0xFF ∨ recSched r < img.scheds.length then none
      else some 5
    else some 5
  | k => k

/-- The Yiloz entries that launch records name (R418). Log 84, DESIGN CHOICE. -/
def yilozEntries (img : Image) : List (Nat × Nat) :=
  (img.launches.filter (fun r => (img.overlay (recOvl r)).isNone)).map (fun r => (recOvl r, recEntry r))

/-- What a translation takes from an image and its Yiloz part (R418, R420). -/
def yilozSource (y : YilozPart) (img : Image) : YSource where
  env t := (y.syms.find? (fun x => x.1 == t)).map (·.2)
  absent n := (absentFeature n).isSome
  native n := (img.overlay n).isSome
  route t := y.routes.contains t

/-- A launch record with another entry (R374). -/
def retarget (r : List Word) (ovl off : Nat) : List Word :=
  r.zipIdx.map (fun x => if x.2 = 0 then (x.1 &&& 0xFFFF00E000FFFFFF#64) ||| wd (ovl * 2 ^ 40 + off / 8 * 2 ^ 24) else x.1)

/-- The word of a run of words at an offset, zero outside it. -/
def wordIn (off : Nat) (ws : List Word) (x : Nat) : Word := if off ≤ x then ws.getD ((x - off) / 8) 0 else 0

/-- An overlay with a translation beside those that it holds: the words between them are zero, which no op of a translation is;
none where two of them would differ at an offset. Log 84, DESIGN CHOICE. -/
def Overlay.join (o : Overlay) (t : Translated) : Option Overlay :=
  let lo := min o.off t.off
  let hi := max (o.off + 8 * o.words.length) (t.off + 8 * t.words.length)
  let l := (List.range ((hi - lo) / 8)).map (fun i => (wordIn o.off o.words (lo + 8 * i), wordIn t.off t.words (lo + 8 * i)))
  if l.all (fun p => p.1 == 0 || p.2 == 0 || p.1 == p.2) then some ⟨o.num, lo, l.map (fun p => if p.2 = 0 then p.1 else p.2)⟩
  else none

/-- An image with a translation: its overlay, its route words, and the launch records that name its entry, which may be that
of an earlier procedure of its chain (R411, R418, R420). Log 84, DESIGN CHOICE. -/
def Image.withTranslation (img : Image) (names : List Text) (e : Nat × Nat) (t : Translated) (o : Overlay) : Image :=
  { img with
    overlays := img.overlays.filter (fun x => x.num != o.num) ++ [o]
    routes := img.routes.zipIdx.map (fun r =>
      { r.1 with uses :=
          (r.1.uses ++ (t.routes.filter (fun x => names.idxOf? x.1 == some r.2)).map (fun x => (t.ovl, x.2))).eraseDups })
    launches := img.launches.map (fun r => if (recOvl r, recEntry r) = e then retarget r t.ovl t.off else r) }

/-- Adding the translation of one entry to an image whose native part is `native` (R420). Procedures may share an overlay; one
whose words another takes the place of has no translation (log 84, DESIGN CHOICE). -/
def addYiloz (y : YilozPart) (native img : Image) (e : Nat × Nat) : Option Image :=
  (translateAt (yilozSource y native) (textOf y.text) e.1 e.2).bind (fun t =>
    (((img.overlay t.ovl).getD ⟨t.ovl, t.off, []⟩).join t).map (img.withTranslation y.routes e t))

/-- Adding every translation; the entry that has none. -/
def addAllYiloz (y : YilozPart) (native : Image) : Image → List (Nat × Nat) → Image ⊕ (Nat × Nat)
  | img, [] => .inl img
  | img, e :: rest =>
    match addYiloz y native img e with
    | some i => addAllYiloz y native i rest
    | none => .inr e

/-- The words of an overlay as fetched words. -/
def fetchedWords (off : Nat) : List Word → List (BitVec 16 × Word)
  | [] => []
  | w :: ws => (BitVec.ofNat 16 off, w) :: fetchedWords (off + 8) ws

/-- Cutting words into bundles at the S bits (R13). -/
def bundlesOf : List (BitVec 16 × Word) → List (BitVec 16 × Word) → List (List (BitVec 16 × Word))
  | acc, [] => if acc.isEmpty then [] else [acc]
  | acc, w :: ws => if bitAt 63 w.2 then (acc ++ [w]) :: bundlesOf [] ws else bundlesOf (acc ++ [w]) ws

/-- The declared weight of a bundle (R202). -/
def declaredOf (b : List (BitVec 16 × Word)) : Nat :=
  ((bundleOf b).items.map (fun x => ((opsOf x.word x.i).map weightOf).sum)).sum

/-- The heaviest declared weight of the bundles of the translations in an overlay (R423). -/
def heaviest (o : Overlay) : Nat :=
  ((bundlesOf [] (fetchedWords o.off (o.words.filter (· != 0)))).map declaredOf).foldl max 0

/-- WEIRF raised to the heaviest translated bundle (R423). -/
def raiseWeirf (native : List Overlay) (img : Image) : Image :=
  { img with weirf := ((img.overlays.filter (fun o => !native.any (fun n => n.num == o.num))).map heaviest).foldl max img.weirf }

/-- WEIRC (R413). -/
def weirCap : Nat := 96

/-- Checks 4 to 7 of R413 once the sections are read. Log 84, DESIGN CHOICE. -/
def finishLoad (s : State) (img : Image) (yiloz : YilozPart) : State × CmdEnd :=
  if img.launches.any (fun r => (objectReason s img yiloz r).isSome) then fails s 2 (some 6)
  else
    match absentFeature img.needs with
    | some b => fails s 0x0B (some b)
    | none =>
      match addAllYiloz yiloz img img (yilozEntries img).eraseDups with
      | .inr e => fails s 0x0C (some (e.1 * 2 ^ 16 + e.2))
      | .inl i2 =>
        if i2.launches.any (fun r => (recReason s i2 s.hostPart r).isSome) then fails s 2 (some 6)
        else
          let i3 := raiseWeirf img.overlays i2
          if weirCap < i3.weirf then fails s 0x0D
          else (s.updFw (fun w => { w with images := w.images ++ [i3] }), { status := 0, results := [(3, wd i3.id)] })

/-- LOAD of the object at a host address (R413, R429). -/
def State.loadObject (s : State) (i : Nat) : State × CmdEnd :=
  match s.hostBytes (s.slotWord i 1).toNat (s.slotWord i 2).toNat with
  | none => fails s 0x0F
  | some bs =>
    if 0xFFFF < s.nextImage then fails s 1
    else
      match readObject s.nextImage bs with
      | .fails st d => fails s st (if st = 2 then some d else none)
      | .image img y => finishLoad s img y

/-- LOAD (R413). -/
def execLoad (s : State) : Host.Outcome State Fault Refusal := onMailbox (· == 1) true State.loadObject s

/-- Whether a task or an unfinished graph instance needs an image (R430). -/
def State.imageUsed (s : State) (n : Nat) : Bool :=
  s.fw.tasks.any (fun t => t.image == n && t.st != .ended) ||
  s.fw.insts.any (fun i => i.pool.isSome && (match s.graphOf i.graph with | some g => g.image == n | none => false))

/-- UNLOAD (R429, R430). -/
def execUnload (s : State) : Host.Outcome State Fault Refusal :=
  onMailbox (· == 2) false (fun s i =>
    let n := (s.slotWord i 1).toNat
    if (s.image n).isNone then fails s 2 (some 4)
    else if s.imageUsed n then fails s 7
    else (s.updFw (fun w => { w with images := w.images.filter (fun m => m.id != n) }), { status := 0 })) s

/-! ### LAUNCH (R376, R385, R429) -/

/-- The record in a slot's dwords from `n` on. -/
def State.slotRecord (s : State) (i n : Nat) : List Word := (List.range 16).map (fun k => s.slotWord i (n + k))

/-- HOST_LAUNCH. -/
def execHostLaunch (s : State) : Host.Outcome State Fault Refusal :=
  onMailbox (· == 3) false (fun s i =>
    let r := s.slotRecord i 1
    match s.image (recImage r) with
    | none => fails s 2 (some 4)
    | some img =>
      match recReason s img s.hostPart r with
      | some k => fails s 2 (some k)
      | none =>
        if !s.poolFree 1 then fails s 1
        else
          (s.queueTask img.id r s.hostPart (recPrio r) false none none (some s.freeEntry),
            { status := 0, results := [(17, wd s.nextTask)] })) s

/-! ### Graphs (R386-R388) -/

/-- The address that says a graph has no descriptor in host memory: a forked one. -/
def noDescriptor : Word := 1

/-- Dwords of host memory. Log 21, DESIGN CHOICE. -/
def State.hostWords (s : State) (a : Word) (n : Nat) : Option (List Word) := (s.hostBytes a.toNat (8 * n)).map (dwords n)

/-- The nodes the descriptor at `a` describes, edited ones kept; a status and its detail where it is invalid or cannot be
read (R385, R386). -/
def hostNodes (s : State) (img : Image) (a : Word) (old : List GNode) : (Nat × Nat) ⊕ (Bool × List GNode) :=
  if a.toNat % 64 ≠ 0 then .inl (2, 8)
  else
    match s.hostWords a 1 with
    | none => .inl (0x0F, 0)
    | some h =>
      let n := graphNodes (h.headD 0)
      if bitsOf 62 6 (h.headD 0) ≠ 0 then .inl (2, 8)
      else
        match s.hostWords a (1 + 2 * n) with
        | none => .inl (0x0F, 0)
        | some d =>
          let node (i : Nat) : Option GNode :=
            match old[i]? with
            | some g => if g.edited then some { g with pred := (d.getD (2 + 2 * i) 0).toNat } else
                (s.hostWords (d.getD (1 + 2 * i) 0) 16).map (fun r => ⟨r, (d.getD (2 + 2 * i) 0).toNat, false⟩)
            | none => (s.hostWords (d.getD (1 + 2 * i) 0) 16).map (fun r => ⟨r, (d.getD (2 + 2 * i) 0).toNat, false⟩)
          if (List.range n).any (fun i => !((old[i]?).any (·.edited)) && (d.getD (1 + 2 * i) 0).toNat % 64 != 0) then .inl (2, 8)
          else
          match mapAll node (List.range n) with
          | none => .inl (0x0F, 0)
          | some l =>
            if l.zipIdx.all (fun g => decide (g.1.pred < 2 ^ g.2) && (recReason s img s.hostPart g.1.record).isNone) then
              .inr (bitAt 63 (h.headD 0), l)
            else .inl (2, 8)

/-- GRAPH (R386, R429). -/
def execGraph (s : State) : Host.Outcome State Fault Refusal :=
  onMailbox (· == 4) true (fun s i =>
    match s.image (s.slotWord i 2).toNat with
    | none => fails s 2 (some 4)
    | some img =>
      let a := s.slotWord i 1
      match hostNodes s img a [] with
      | .inl e => fails s e.1 (if e.1 = 2 then some e.2 else none)
      | .inr d =>
        let h := 1 + (s.fw.graphs.map (·.handle)).foldl max 0
        let g : Graph := { handle := h, owner := none, addr := a, image := img.id, sealed := false, reent := d.1, nodes := d.2 }
        (s.updFw (fun w => { w with graphs := w.graphs ++ [g] }), { status := 0, results := [(3, wd h)] })) s

/-- The graph of a handle the mailbox returned. -/
def State.hostGraph (s : State) (h : Nat) : Option Graph :=
  s.fw.graphs.find? (fun g => g.handle == h && g.owner.isNone)

/-- What a graph is made of now: a sealed one's copy, an unsealed one's descriptor with its edited nodes (R386, R388). Log 85, DEDUCED. -/
def graphNow (s : State) (g : Graph) : (Nat × Nat) ⊕ (Bool × List GNode) :=
  if g.sealed || g.addr == noDescriptor then .inr (g.reent, g.nodes)
  else
    match s.image g.image with
    | none => .inl (2, 4)
    | some img => hostNodes s img g.addr g.nodes

/-- Replacing a graph. Log 85, DEDUCED. -/
def State.putGraph (s : State) (g : Graph) : State :=
  s.updFw (fun w => { w with graphs := w.graphs.map (fun x => if x.handle == g.handle then g else x) })

/-- GLAUNCH: the first launch seals (R376, R386, R387). -/
def execGlaunch (s : State) : Host.Outcome State Fault Refusal :=
  onMailbox (· == 5) false (fun s i =>
    match s.hostGraph (s.slotWord i 1).toNat with
    | none => fails s 2 (some 8)
    | some g =>
      if (s.image g.image).isNone then fails s 2 (some 4)
      else
        match graphNow s g with
        | .inl e => fails s e.1 (if e.1 = 2 then some e.2 else none)
        | .inr d =>
          if !s.poolFree 1 then fails s 1
          else
            let g2 : Graph := { g with sealed := true, reent := d.1, nodes := d.2 }
            ((s.putGraph g2).queueInst g2 0 none (some s.freeEntry), { status := 0, results := [(2, wd s.nextTask)] })) s

/-- Whether an instance of a graph is running or queued (R388). -/
def State.graphBusy (s : State) (g : Graph) : Bool := s.fw.insts.any (fun i => i.graph == g.handle && i.pool.isSome)

/-- EDIT (R388). -/
def execEdit (s : State) : Host.Outcome State Fault Refusal :=
  onMailbox (· == 6) false (fun s i =>
    let n := (s.slotWord i 2).toNat
    let r := s.slotRecord i 3
    match s.hostGraph (s.slotWord i 1).toNat with
    | none => fails s 2 (some 8)
    | some g =>
      match s.image g.image with
      | none => fails s 2 (some 4)
      | some img =>
        if g.nodes.length ≤ n then fails s 2 (some 8)
        else
          match recReason s img s.hostPart r with
          | some k => fails s 2 (some k)
          | none =>
            if g.sealed && s.graphBusy g then fails s 3
            else
              (s.putGraph { g with nodes := g.nodes.zipIdx.map (fun (x : GNode × Nat) =>
                if x.2 == n then { x.1 with record := r, edited := true } else x.1) }, { status := 0 })) s

/-- FORK (R388). -/
def execFork (s : State) : Host.Outcome State Fault Refusal :=
  onMailbox (· == 7) false (fun s i =>
    match s.hostGraph (s.slotWord i 1).toNat with
    | none => fails s 2 (some 8)
    | some g =>
      match graphNow s g with
      | .inl e => fails s e.1 (if e.1 = 2 then some e.2 else none)
      | .inr d =>
        let h := 1 + (s.fw.graphs.map (·.handle)).foldl max 0
        let g2 : Graph := { g with handle := h, addr := noDescriptor, sealed := false, reent := d.1, nodes := d.2 }
        (s.updFw (fun w => { w with graphs := w.graphs ++ [g2] }), { status := 0, results := [(2, wd h)] })) s

/-! ### Power caps and partitions (R366, R370-R372, R392) -/

/-- Writing the HBM shares and the die-copy budgets of the partitions on every die (R366, R370, R372). Log 79, DESIGN CHOICE. -/
def State.setDieBudgets (s : State) : State :=
  (List.range 4).foldl (fun (s : State) d =>
    s.updDie d (fun x => { x with budgets := s.fw.parts.map (fun p =>
      match x.budgets.find? (fun b => b.part == p.num) with
      | some b => { b with copyBud := p.dieCopy, hbmBud := some (s.scaled p.hbm) }
      | none => { part := p.num, copyBud := p.dieCopy, copyLeft := p.dieCopy.getD 0, hbmBud := some (s.scaled p.hbm) }) })) s

/-- Applying a cap and a scale (R371, R372). -/
def State.applyCap (s : State) (cap num den : Nat) (note : Bool) : State :=
  ((s.updFw (fun w => { w with cap := cap, scaleNum := num, scaleDen := den })).setBudgets note).setDieBudgets

/-- Results of SETCAP: watts or the floor sum, and the scale in force × 2^16 (R429). Log 74, DEDUCED. -/
def capEnd (s : State) (status watts : Nat) : State × CmdEnd :=
  (s, { status := status, results := [(3, wd watts), (4, wd (s.fw.scaleNum * 2 ^ 16 / s.fw.scaleDen))] })

/-- The idle floor in watts (R358, R371). Log 74, DEDUCED. -/
def idleWatts : Nat := 210

/-- Handling a requested cap (R371). Log 74, DEDUCED. -/
def State.setCap (s : State) (cap : Nat) (override : Bool) : State × CmdEnd :=
  let floors := (s.fw.parts.map (·.power)).sum
  if cap < idleWatts then
    capEnd (if floors ≤ idleWatts then s.applyCap idleWatts 1 1 false
            else s.updFw (fun w => { w with cap := idleWatts })) 4 idleWatts
  else if floors ≤ cap then capEnd (s.applyCap cap 1 1 false) 0 cap
  else if override then capEnd (s.applyCap cap cap floors true) 6 cap
  else capEnd s 5 floors

/-- SETCAP (R371, R372). -/
def execSetcap (s : State) : Host.Outcome State Fault Refusal :=
  onMailbox (· == 8) false (fun s i => s.setCap (s.slotWord i 1).toNat (bitAt 0 (s.slotWord i 2))) s

/-- Clusters named by the two masks (R429; log 22, DEDUCED). -/
def maskClusters (lo hi : Word) : List Nat :=
  (List.range 128).filter (fun k => if k < 64 then lo.getLsbD k else hi.getLsbD (k - 64))

/-- The NI, copy-port and die-copy settings the firmware gives a partition: the host names none, so they are free values (R366).
Log 97, DESIGN CHOICE. -/
def freeSettings (n : Nat) (p : Part) : Part :=
  { p with ni := (Config.freeWord n).toNat % 2 ^ 16, copy := (Config.freeWord (n + 1)).toNat % 2 ^ 16,
           dieCopy := if bitAt 0 (Config.freeWord (n + 2)) then some (Config.freeWord (n + 3)).toNat else none }

/-- The partitions once one is defined: its clusters leave every other; clusters 128 to 191 stay where they are. Log 22, DEDUCED. -/
def State.definePart (s : State) (n : Nat) (lo hi : Word) (power hbm issue : Nat) : State :=
  let m := maskClusters lo hi
  let old := s.part n
  let high := match old with | some p => p.clusters.filter (128 ≤ ·) | none => []
  let draint := match old with | some p => p.draint | none => 600000
  let p : Part := { num := n, clusters := m ++ high, power := power, hbm := hbm, issue := min 0xFFFF issue, draint := draint }
  let p := freeSettings s.freeCount p
  let s := { s with freeCount := s.freeCount + 4 }
  let others := (s.fw.parts.filter (fun q => q.num != n)).map (fun (q : Part) =>
    { q with clusters := q.clusters.filter (fun k => !m.contains k) })
  ((s.updFw (fun w => { w with parts := p :: others })).setBudgets false).setDieBudgets

/-- PARTITION (R370, R429). -/
def execPartition (s : State) : Host.Outcome State Fault Refusal :=
  onMailbox (· == 9) false (fun s i =>
    let n := (s.slotWord i 1).toNat
    let d (k : Nat) : Nat := (s.slotWord i k).toNat
    if 16 ≤ n then fails s 2 (some 0)
    else (s.definePart n (s.slotWord i 2) (s.slotWord i 3) (d 4) (d 5) (d 6), { status := 0 })) s

/-- HOST_DRAIN sets DRAINT (R392, R429). -/
def execHostDrain (s : State) : Host.Outcome State Fault Refusal :=
  onMailbox (· == 0x0A) false (fun s i =>
    let n := (s.slotWord i 1).toNat
    if (s.part n).isNone then fails s 2 (some 0)
    else
      (s.updFw (fun w => { w with parts := w.parts.map (fun p =>
        if p.num == n then { p with draint := (s.slotWord i 2).toNat } else p) }), { status := 0 })) s

/-! ### Weight stores and counters (R338, R356, R429) -/

/-- The physical base of the weight store of a die (R336). -/
def storeBase (die : Nat) : Nat := 0x6000000000 + 0x40000000 * die

/-- WEIGHTS (R338, R429). -/
def execWeights (s : State) : Host.Outcome State Fault Refusal :=
  onMailbox (· == 0x0B) false (fun s i =>
    let die := (s.slotWord i 1).toNat
    let off := (s.slotWord i 2).toNat
    let n := (s.slotWord i 4).toNat
    if 4 ≤ die ∨ 0x40000000 < off + n then fails s 2 (some 0)
    else if (s.die die).sealed then fails s 3
    else
      match s.hostBytes (s.slotWord i 3).toNat n with
      | none => fails s 0x0F
      | some bs => (s.physCells (bs.zipIdx.map (fun b => (storeBase die + off + b.2, b.1))), { status := 0 })) s

/-- COUNTERS (R356, R429). -/
def execCounters (s : State) : Host.Outcome State Fault Refusal :=
  onMailbox (· == 0x0C) false (fun s i =>
    let d := (s.slotWord i 1).toNat
    if 4 ≤ d then fails s 2 (some 0)
    else
      let s1 := s.countErrors d
      (s1, { status := 0, results := (List.range 16).map (fun k => (2 + k, wd ((s1.die d).soft.get (Fin.ofNat 16 k)))) })) s

/-- UNKNOWN_OP (R430). -/
def execUnknownOp (s : State) : Host.Outcome State Fault Refusal :=
  onMailbox (fun n => n == 0 || decide (0x0C < n)) false (fun s _ => fails s 0x0E) s

end Sys2Proof.Machine
end

