-- ==== Sys2Proof/Machine/EvBoot.lean ====
section
/-! DEFINITION. Reset and bring-up (R338, R417, R431, R432, R434, R436, R437). -/

namespace Sys2Proof.Machine

/-! ### Reset (R432) -/

/-- Whether a physical address lies in a weight store (R336). Log 23, DEDUCED. -/
def inStore (pa : Nat) : Bool := decide (0x6000000000 ≤ pa) && decide (pa < 0x6100000000)

/-- Physical memory after a reset: weight-store content is discarded, HBM, pooled memory and devices are not named, and
what was dirty in the caches is what its device holds (R432; log 23, DEDUCED). -/
def PhysMem.afterReset (m : PhysMem) : PhysMem :=
  { mem := (m.mem.clear 0x6000000000 0x100000000).writeCells (m.dirty.map (fun a => (a, m.home.read a)))
    home := m.home
    poison := m.poison.filter (fun r => !inStore (64 * r))
    homePoison := m.homePoison }

/-- The package after a reset, FLR or link-down: in ROM, every task, image, graph, pool entry and weight-store content
discarded; what is outside of it, and the counters of free values and of numbers, go on (R432). Log 23, DEDUCED. Log 86, DEDUCED. -/
def State.afterReset (s : State) : State :=
  { State.reset with
    phys := s.phys.afterReset
    boot := { ({} : Boot) with phase := .rom }
    host := { mem := s.host.mem, irq := s.host.irq }
    fab := { foreign := s.fab.foreign, strays := s.fab.strays, seen := s.fab.seen, ordered := s.fab.ordered, replies := s.fab.replies }
    inputs := s.inputs
    abroad := s.abroad
    cur := s.cur
    nextId := s.nextId
    freeCount := s.freeCount }

/-- PACKAGE_RESET: PHASE changes, so vector 1 is raised (R428, R432). -/
def execPackageReset (s : State) : Host.Outcome State Fault Refusal := .next (s.afterReset.raiseIrq 1)

/-! ### ROM, LOADING (R431) -/

/-- ROM: the rails ramp, VLOGIC to 0.78 V, and the boot registers are served (R357, R431). Log 105, DESIGN CHOICE. -/
def execRom (railOk : Bool) (s : State) : Host.Outcome State Fault Refusal :=
  .next (match s.boot.phase with
    | .reset => s.setPhase .rom
    | .rom =>
      if railOk then ({ s with dies := s.dies.map (fun d => { d with vlogic := 780 }) } : State).setPhase .waitfw
      else s.failPhase 1
    | _ => s)

/-- The firmware image, if it can be read (R431). -/
def State.firmwareBytes (s : State) (readOk : Bool) : Option (List Byte) :=
  if readOk then s.hostBytes s.boot.fwaddr.toNat s.boot.fwlen else none

/-- Whether the firmware takes an image: its CRC-32 agrees and it authenticates (R431). Log 105, DESIGN CHOICE. -/
def imageAccepted (bs : List Byte) : Bool := crc32 (Config.crcCovered bs) == Config.crcCarried bs && Config.authentic bs

/-- LOADING: the image is read, checked and authenticated; its revision is a free value (log 6, DESIGN CHOICE). -/
def execLoading (readOk : Bool) (s : State) : Host.Outcome State Fault Refusal :=
  .next (if s.boot.phase == .loading then
      match s.firmwareBytes readOk with
      | none => s.failPhase 3
      | some bs =>
        if imageAccepted bs then
          let s1 : State := { s with boot := { s.boot with fwrev := (Config.freeWord s.freeCount).toNat % 2 ^ 16 },
                                     freeCount := s.freeCount + 1 }
          s1.setPhase .bringup
        else s.failPhase 2
    else s)

/-! ### BRINGUP (R338, R357, R358, R431, R434-R437) -/

/-- Links that train: to a neighbour that reports another number (R434). Log 24, DESIGN CHOICE. -/
def trainedLinks (own : Nat) (l : List (Nat × Nat)) : List (Nat × Nat) := l.filter (fun x => decide (x.1 < 18) && x.2 != own)

/-- The route table of the firmware: for each destination package up to four links that trained, in order of preference (R437).
Log 24, DESIGN CHOICE. -/
def routeTable (l : List (Nat × Nat)) (t : List (Nat × List Nat)) : List (Nat × List Nat) :=
  t.map (fun e => (e.1, (e.2.filter (fun k => l.any (fun x => x.1 == k))).take 4))

/-- Fabric and CXL once they are trained. Log 24, DESIGN CHOICE. -/
def Fabric.train (f : Fabric) (own : Nat) (r : TrainInfo) : Fabric :=
  let l := trainedLinks own r.links
  { f with up := l.foldl (fun (m : BitVec 18) x => m ||| BitVec.ofNat 18 (2 ^ x.1)) 0, neighbour := l,
           retired := 0, routes := routeTable l r.routes, cxlUp := r.ports.filter (· < 4) }

/-- The package once everything is trained: weight stores zeroed and unsealed, VLOGIC set, clusters gated, FABID taken (R357,
R358, R431). -/
def State.trained (s : State) (r : TrainInfo) : State :=
  { s with
    phys := s.phys.afterReset
    dies := s.dies.mapFinIdx (fun d x _ => { x with sealed := false, vlogic := vlogicFor (s.highestPattern d) })
    clusters := s.clusters.map (fun k => { k with gated := true, powerOn := none, grant := false })
    fab := s.fab.train s.boot.fabid r
    boot := { s.boot with pkg := s.boot.fabid } }

/-- BRINGUP. -/
def execBringup (r : TrainInfo) (s : State) : Host.Outcome State Fault Refusal :=
  .next (if s.boot.phase == .bringup then
      if !r.hbmOk then s.failPhase 4
      else if !r.bridgeOk then s.failPhase 5
      else (s.trained r).setPhase .selftest
    else s)

/-! ### SELFTEST (R417, R431) -/

/-- Whether more than 8 cores of a cluster fail. -/
def testFails (r : TestInfo) : Bool :=
  (List.range 192).any (fun k => decide (8 < ((r.cores.filter (fun c => clusterOf c == k)).eraseDups).length))

/-- Retiring what failed, then READY with the translator loaded. -/
def State.tested (s : State) (r : TestInfo) : State :=
  let cs := (r.cores.filter (· < nCores)).eraseDups
  let rs := (r.routers.filter (· < 192)).eraseDups
  let s1 := rs.foldl (fun (s : State) k => s.updCluster k (fun c => { c with routerRetired := true })) s
  let s2 : State := { s1 with
    fw := { s1.fw with deadCores := cs }
    boot := { s1.boot with retiredCores := cs.length, retiredRouters := rs.length, trready := true } }
  s2.setPhase .ready

/-- SELFTEST. -/
def execSelftest (r : TestInfo) (s : State) : Host.Outcome State Fault Refusal :=
  .next (if s.boot.phase == .selftest then if testFails r then s.failPhase 6 else s.tested r else s)

end Sys2Proof.Machine
end

