-- ==== Sys2Proof/Machine/Dispatch.lean ====
section
/-! DEFINITION. The meaning of every instruction: one direct call for each constructor. -/

namespace Sys2Proof.Machine

/-- What an instruction does to the package. An op acts for the context `State.cur` names, as the bundle of that op
alone; an event acts where it is due. -/
def exec (i : Instr) (s : State) : Host.Outcome State Fault Refusal :=
  match i with
  | .add f => Sys2Proof.Machine.execAdd f s
  | .sub f => Sys2Proof.Machine.execSub f s
  | .mul f => Sys2Proof.Machine.execMul f s
  | .mulh f => Sys2Proof.Machine.execMulh f s
  | .div f => Sys2Proof.Machine.execDiv f s
  | .rem f => Sys2Proof.Machine.execRem f s
  | .and f => Sys2Proof.Machine.execAnd f s
  | .or f => Sys2Proof.Machine.execOr f s
  | .xor f => Sys2Proof.Machine.execXor f s
  | .andn f => Sys2Proof.Machine.execAndn f s
  | .shl f => Sys2Proof.Machine.execShl f s
  | .shr f => Sys2Proof.Machine.execShr f s
  | .sar f => Sys2Proof.Machine.execSar f s
  | .rot f => Sys2Proof.Machine.execRot f s
  | .clz f => Sys2Proof.Machine.execClz f s
  | .popc f => Sys2Proof.Machine.execPopc f s
  | .min f => Sys2Proof.Machine.execMin f s
  | .max f => Sys2Proof.Machine.execMax f s
  | .minu f => Sys2Proof.Machine.execMinu f s
  | .maxu f => Sys2Proof.Machine.execMaxu f s
  | .sel f => Sys2Proof.Machine.execSel f s
  | .cmp f => Sys2Proof.Machine.execCmp f s
  | .madd f => Sys2Proof.Machine.execMadd f s
  | .extr f => Sys2Proof.Machine.execExtr f s
  | .ins f => Sys2Proof.Machine.execIns f s
  | .bswap f => Sys2Proof.Machine.execBswap f s
  | .shadd f => Sys2Proof.Machine.execShadd f s
  | .movc f => Sys2Proof.Machine.execMovc f s
  | .pair f => Sys2Proof.Machine.execPair f s
  | .addi f => Sys2Proof.Machine.execAddi f s
  | .andi f => Sys2Proof.Machine.execAndi f s
  | .ori f => Sys2Proof.Machine.execOri f s
  | .xori f => Sys2Proof.Machine.execXori f s
  | .shli f => Sys2Proof.Machine.execShli f s
  | .shri f => Sys2Proof.Machine.execShri f s
  | .sari f => Sys2Proof.Machine.execSari f s
  | .li f => Sys2Proof.Machine.execLi f s
  | .lih f => Sys2Proof.Machine.execLih f s
  | .cmpi f => Sys2Proof.Machine.execCmpi f s
  | .muli f => Sys2Proof.Machine.execMuli f s
  | .vadd f => Sys2Proof.Machine.execVadd f s
  | .vsub f => Sys2Proof.Machine.execVsub f s
  | .vmul f => Sys2Proof.Machine.execVmul f s
  | .vmulh f => Sys2Proof.Machine.execVmulh f s
  | .vmin f => Sys2Proof.Machine.execVmin f s
  | .vmax f => Sys2Proof.Machine.execVmax f s
  | .vand f => Sys2Proof.Machine.execVand f s
  | .vor f => Sys2Proof.Machine.execVor f s
  | .vxor f => Sys2Proof.Machine.execVxor f s
  | .vandn f => Sys2Proof.Machine.execVandn f s
  | .vshl f => Sys2Proof.Machine.execVshl f s
  | .vshr f => Sys2Proof.Machine.execVshr f s
  | .vsar f => Sys2Proof.Machine.execVsar f s
  | .vabs f => Sys2Proof.Machine.execVabs f s
  | .vcmp f => Sys2Proof.Machine.execVcmp f s
  | .vsel f => Sys2Proof.Machine.execVsel f s
  | .vdot4 f => Sys2Proof.Machine.execVdot4 f s
  | .vmadd f => Sys2Proof.Machine.execVmadd f s
  | .vpopc f => Sys2Proof.Machine.execVpopc f s
  | .vfadd f => Sys2Proof.Machine.execVfadd f s
  | .vfsub f => Sys2Proof.Machine.execVfsub f s
  | .vfmul f => Sys2Proof.Machine.execVfmul f s
  | .vfma f => Sys2Proof.Machine.execVfma f s
  | .vfnma f => Sys2Proof.Machine.execVfnma f s
  | .vfmin f => Sys2Proof.Machine.execVfmin f s
  | .vfmax f => Sys2Proof.Machine.execVfmax f s
  | .vfabs f => Sys2Proof.Machine.execVfabs f s
  | .vfneg f => Sys2Proof.Machine.execVfneg f s
  | .vfcmp f => Sys2Proof.Machine.execVfcmp f s
  | .vfrcp f => Sys2Proof.Machine.execVfrcp f s
  | .vfrsq f => Sys2Proof.Machine.execVfrsq f s
  | .vfexp2 f => Sys2Proof.Machine.execVfexp2 f s
  | .vflog2 f => Sys2Proof.Machine.execVflog2 f s
  | .vfdiv f => Sys2Proof.Machine.execVfdiv f s
  | .vfsqrt f => Sys2Proof.Machine.execVfsqrt f s
  | .vfclass f => Sys2Proof.Machine.execVfclass f s
  | .vfscale f => Sys2Proof.Machine.execVfscale f s
  | .vfdot2 f => Sys2Proof.Machine.execVfdot2 f s
  | .vcvt f => Sys2Proof.Machine.execVcvt f s
  | .vqnt f => Sys2Proof.Machine.execVqnt f s
  | .vdqnt f => Sys2Proof.Machine.execVdqnt f s
  | .vlcd f => Sys2Proof.Machine.execVlcd f s
  | .vperm f => Sys2Proof.Machine.execVperm f s
  | .vshuf f => Sys2Proof.Machine.execVshuf f s
  | .vbcast f => Sys2Proof.Machine.execVbcast f s
  | .vred f => Sys2Proof.Machine.execVred f s
  | .vscan f => Sys2Proof.Machine.execVscan f s
  | .vcmprs f => Sys2Proof.Machine.execVcmprs f s
  | .vexpnd f => Sys2Proof.Machine.execVexpnd f s
  | .vslide f => Sys2Proof.Machine.execVslide f s
  | .vclmul f => Sys2Proof.Machine.execVclmul f s
  | .vextr f => Sys2Proof.Machine.execVextr f s
  | .vins f => Sys2Proof.Machine.execVins f s
  | .vretag f => Sys2Proof.Machine.execVretag f s
  | .vli f => Sys2Proof.Machine.execVli f s
  | .vaddi f => Sys2Proof.Machine.execVaddi f s
  | .seed f => Sys2Proof.Machine.execSeed f s
  | .rngpop f => Sys2Proof.Machine.execRngpop f s
  | .ld f => Sys2Proof.Machine.execLd f s
  | .ldu f => Sys2Proof.Machine.execLdu f s
  | .st f => Sys2Proof.Machine.execSt f s
  | .ldp f => Sys2Proof.Machine.execLdp f s
  | .stp f => Sys2Proof.Machine.execStp f s
  | .vld f => Sys2Proof.Machine.execVld f s
  | .vst f => Sys2Proof.Machine.execVst f s
  | .vlds f => Sys2Proof.Machine.execVlds f s
  | .vsts f => Sys2Proof.Machine.execVsts f s
  | .vldx f => Sys2Proof.Machine.execVldx f s
  | .vstx f => Sys2Proof.Machine.execVstx f s
  | .vldb f => Sys2Proof.Machine.execVldb f s
  | .aadd f => Sys2Proof.Machine.execAadd f s
  | .amin f => Sys2Proof.Machine.execAmin f s
  | .amax f => Sys2Proof.Machine.execAmax f s
  | .aand f => Sys2Proof.Machine.execAand f s
  | .aor f => Sys2Proof.Machine.execAor f s
  | .axor f => Sys2Proof.Machine.execAxor f s
  | .aswp f => Sys2Proof.Machine.execAswp f s
  | .acas f => Sys2Proof.Machine.execAcas f s
  | .aminu f => Sys2Proof.Machine.execAminu f s
  | .amaxu f => Sys2Proof.Machine.execAmaxu f s
  | .mark f => Sys2Proof.Machine.execMark f s
  | .fence f => Sys2Proof.Machine.execFence f s
  | .cwb f => Sys2Proof.Machine.execCwb f s
  | .cinv f => Sys2Proof.Machine.execCinv f s
  | .tzero f => Sys2Proof.Machine.execTzero f s
  | .tfill f => Sys2Proof.Machine.execTfill f s
  | .tident f => Sys2Proof.Machine.execTident f s
  | .tclass f => Sys2Proof.Machine.execTclass f s
  | .tcopy f => Sys2Proof.Machine.execTcopy f s
  | .ttag f => Sys2Proof.Machine.execTtag f s
  | .tmask f => Sys2Proof.Machine.execTmask f s
  | .tstate f => Sys2Proof.Machine.execTstate f s
  | .mcfg f => Sys2Proof.Machine.execMcfg f s
  | .mgo f => Sys2Proof.Machine.execMgo f s
  | .mswap f => Sys2Proof.Machine.execMswap f s
  | .mread f => Sys2Proof.Machine.execMread f s
  | .mdrain f => Sys2Proof.Machine.execMdrain f s
  | .mzero f => Sys2Proof.Machine.execMzero f s
  | .mstep f => Sys2Proof.Machine.execMstep f s
  | .mwload f => Sys2Proof.Machine.execMwload f s
  | .mstop f => Sys2Proof.Machine.execMstop f s
  | .cpy f => Sys2Proof.Machine.execCpy f s
  | .cpy2d f => Sys2Proof.Machine.execCpy2d f s
  | .csched f => Sys2Proof.Machine.execCsched f s
  | .cstage f => Sys2Proof.Machine.execCstage f s
  | .ovl f => Sys2Proof.Machine.execOvl f s
  | .dcpy f => Sys2Proof.Machine.execDcpy f s
  | .rget f r => Sys2Proof.Machine.execRget f r s
  | .rput f r => Sys2Proof.Machine.execRput f r s
  | .rgath f r => Sys2Proof.Machine.execRgath f r s
  | .rscat f r => Sys2Proof.Machine.execRscat f r s
  | .mcst f r => Sys2Proof.Machine.execMcst f r s
  | .ratom f r => Sys2Proof.Machine.execRatom f r s
  | .binit f r => Sys2Proof.Machine.execBinit f r s
  | .barr f r => Sys2Proof.Machine.execBarr f r s
  | .bwait f r => Sys2Proof.Machine.execBwait f r s
  | .bread f r => Sys2Proof.Machine.execBread f r s
  | .tkwait f => Sys2Proof.Machine.execTkwait f s
  | .tktest f => Sys2Proof.Machine.execTktest f s
  | .tkjoin f => Sys2Proof.Machine.execTkjoin f s
  | .br f => Sys2Proof.Machine.execBr f s
  | .brz f => Sys2Proof.Machine.execBrz f s
  | .brnz f => Sys2Proof.Machine.execBrnz f s
  | .call f => Sys2Proof.Machine.execCall f s
  | .ret f => Sys2Proof.Machine.execRet f s
  | .jmpi f => Sys2Proof.Machine.execJmpi f s
  | .loop f => Sys2Proof.Machine.execLoop f s
  | .endOp f => Sys2Proof.Machine.execEnd f s
  | .yield f => Sys2Proof.Machine.execYield f s
  | .calli f => Sys2Proof.Machine.execCalli f s
  | .csrr f => Sys2Proof.Machine.execCsrr f s
  | .csrw f => Sys2Proof.Machine.execCsrw f s
  | .csrs f => Sys2Proof.Machine.execCsrs f s
  | .csrc f => Sys2Proof.Machine.execCsrc f s
  | .trap f => Sys2Proof.Machine.execTrap f s
  | .eret f => Sys2Proof.Machine.execEret f s
  | .brk f => Sys2Proof.Machine.execBrk f s
  | .weirset f => Sys2Proof.Machine.execWeirset f s
  | .weirsetBa f => Sys2Proof.Machine.execWeirsetBa f s
  | .weirsetWa f => Sys2Proof.Machine.execWeirsetWa f s
  | .weirq f => Sys2Proof.Machine.execWeirq f s
  | .lend f => Sys2Proof.Machine.execLend f s
  | .revoke f => Sys2Proof.Machine.execRevoke f s
  | .eddy f => Sys2Proof.Machine.execEddy f s
  | .eddyRes f => Sys2Proof.Machine.execEddyRes f s
  | .park f => Sys2Proof.Machine.execPark f s
  | .launch f => Sys2Proof.Machine.execLaunch f s
  | .launchNb f => Sys2Proof.Machine.execLaunchNb f s
  | .launchG f => Sys2Proof.Machine.execLaunchG f s
  | .ntreq f => Sys2Proof.Machine.execNtreq f s
  | .ntreqPop f => Sys2Proof.Machine.execNtreqPop f s
  | .waitev f => Sys2Proof.Machine.execWaitev f s
  | .idle f => Sys2Proof.Machine.execIdle f s
  | .illegalEncoding w => Sys2Proof.Machine.execIllegalEncoding w s
  | .machineCheck m => Sys2Proof.Machine.execMachineCheck m s
  | .firmwareEddyBind b => Sys2Proof.Machine.execFirmwareEddyBind b s
  | .taskBind b => Sys2Proof.Machine.execTaskBind b s
  | .contextRestore cores => Sys2Proof.Machine.execContextRestore cores s
  | .tlbInvalidation n => Sys2Proof.Machine.execTlbInvalidation n s
  | .pageMigration m => Sys2Proof.Machine.execPageMigration m s
  | .scrub bad => Sys2Proof.Machine.execScrub bad s
  | .debugRead t => Sys2Proof.Machine.execDebugRead t s
  | .debugWrite t v tag => Sys2Proof.Machine.execDebugWrite t v tag s
  | .brkPlant off task => Sys2Proof.Machine.execBrkPlant off task s
  | .fwlenWrite v => Sys2Proof.Machine.execFwlenWrite v s
  | .hostRegisterWrite a v => Sys2Proof.Machine.execHostRegisterWrite a v s
  | .rom railOk => Sys2Proof.Machine.execRom railOk s
  | .loading readOk => Sys2Proof.Machine.execLoading readOk s
  | .bringup r => Sys2Proof.Machine.execBringup r s
  | .selftest r => Sys2Proof.Machine.execSelftest r s
  | .cxlPortRetrain decs => Sys2Proof.Machine.execCxlPortRetrain decs s
  | .stalledBundleIssue => Sys2Proof.Machine.execStalledBundleIssue s
  | .kindAFault => Sys2Proof.Machine.execKindAFault s
  | .throttleNotice => Sys2Proof.Machine.execThrottleNotice s
  | .waitevWake => Sys2Proof.Machine.execWaitevWake s
  | .waitevBound => Sys2Proof.Machine.execWaitevBound s
  | .yieldExpiry => Sys2Proof.Machine.execYieldExpiry s
  | .contextWake => Sys2Proof.Machine.execContextWake s
  | .nextTileLanding => Sys2Proof.Machine.execNextTileLanding s
  | .sequencerCommandStart => Sys2Proof.Machine.execSequencerCommandStart s
  | .matrixStep => Sys2Proof.Machine.execMatrixStep s
  | .mzeroComplete => Sys2Proof.Machine.execMzeroComplete s
  | .mwloadComplete => Sys2Proof.Machine.execMwloadComplete s
  | .mdrainStart => Sys2Proof.Machine.execMdrainStart s
  | .mdrainComplete => Sys2Proof.Machine.execMdrainComplete s
  | .tileOpStart => Sys2Proof.Machine.execTileOpStart s
  | .tileOpComplete => Sys2Proof.Machine.execTileOpComplete s
  | .copyCommandStart => Sys2Proof.Machine.execCopyCommandStart s
  | .copyChunkComplete => Sys2Proof.Machine.execCopyChunkComplete s
  | .copyCommandComplete => Sys2Proof.Machine.execCopyCommandComplete s
  | .ovlComplete => Sys2Proof.Machine.execOvlComplete s
  | .dcpyCommandStart => Sys2Proof.Machine.execDcpyCommandStart s
  | .dcpyChunkComplete => Sys2Proof.Machine.execDcpyChunkComplete s
  | .dcpyComplete => Sys2Proof.Machine.execDcpyComplete s
  | .niCommandStart => Sys2Proof.Machine.execNiCommandStart s
  | .remoteRequestArrival => Sys2Proof.Machine.execRemoteRequestArrival s
  | .remoteReplyLanding => Sys2Proof.Machine.execRemoteReplyLanding s
  | .mcstLanding => Sys2Proof.Machine.execMcstLanding s
  | .binitLanding => Sys2Proof.Machine.execBinitLanding s
  | .barrierArrival => Sys2Proof.Machine.execBarrierArrival s
  | .bwaitReread => Sys2Proof.Machine.execBwaitReread s
  | .bwaitTimeout => Sys2Proof.Machine.execBwaitTimeout s
  | .revokeSquash => Sys2Proof.Machine.execRevokeSquash s
  | .bankPark => Sys2Proof.Machine.execBankPark s
  | .regionReclaim => Sys2Proof.Machine.execRegionReclaim s
  | .keepRegionCopyOut => Sys2Proof.Machine.execKeepRegionCopyOut s
  | .firmwareRevoke => Sys2Proof.Machine.execFirmwareRevoke s
  | .lendComplete => Sys2Proof.Machine.execLendComplete s
  | .eddySave => Sys2Proof.Machine.execEddySave s
  | .eddyBankFree => Sys2Proof.Machine.execEddyBankFree s
  | .contextRelease => Sys2Proof.Machine.execContextRelease s
  | .taskEnd => Sys2Proof.Machine.execTaskEnd s
  | .preemptionDecision => Sys2Proof.Machine.execPreemptionDecision s
  | .drainTimeout => Sys2Proof.Machine.execDrainTimeout s
  | .checkpoint => Sys2Proof.Machine.execCheckpoint s
  | .graphNodeLaunch => Sys2Proof.Machine.execGraphNodeLaunch s
  | .graphInstanceComplete => Sys2Proof.Machine.execGraphInstanceComplete s
  | .intervalBoundary => Sys2Proof.Machine.execIntervalBoundary s
  | .patternChange => Sys2Proof.Machine.execPatternChange s
  | .permitRefill => Sys2Proof.Machine.execPermitRefill s
  | .budgetPeriodStart => Sys2Proof.Machine.execBudgetPeriodStart s
  | .dieBudgetPeriodStart => Sys2Proof.Machine.execDieBudgetPeriodStart s
  | .regionPowerOn => Sys2Proof.Machine.execRegionPowerOn s
  | .stripeDrowsy => Sys2Proof.Machine.execStripeDrowsy s
  | .refreshSlotAdvance => Sys2Proof.Machine.execRefreshSlotAdvance s
  | .migrationRewalk => Sys2Proof.Machine.execMigrationRewalk s
  | .invalidationComplete => Sys2Proof.Machine.execInvalidationComplete s
  | .debugHalt => Sys2Proof.Machine.execDebugHalt s
  | .debugResume => Sys2Proof.Machine.execDebugResume s
  | .addressBreakpoint => Sys2Proof.Machine.execAddressBreakpoint s
  | .singleStep => Sys2Proof.Machine.execSingleStep s
  | .displacedOpExecute => Sys2Proof.Machine.execDisplacedOpExecute s
  | .load => Sys2Proof.Machine.execLoad s
  | .unload => Sys2Proof.Machine.execUnload s
  | .hostLaunch => Sys2Proof.Machine.execHostLaunch s
  | .graph => Sys2Proof.Machine.execGraph s
  | .glaunch => Sys2Proof.Machine.execGlaunch s
  | .edit => Sys2Proof.Machine.execEdit s
  | .fork => Sys2Proof.Machine.execFork s
  | .setcap => Sys2Proof.Machine.execSetcap s
  | .partition => Sys2Proof.Machine.execPartition s
  | .hostDrain => Sys2Proof.Machine.execHostDrain s
  | .weights => Sys2Proof.Machine.execWeights s
  | .counters => Sys2Proof.Machine.execCounters s
  | .unknownOp => Sys2Proof.Machine.execUnknownOp s
  | .packageReset => Sys2Proof.Machine.execPackageReset s
  | .flitReplay => Sys2Proof.Machine.execFlitReplay s
  | .linkRetire => Sys2Proof.Machine.execLinkRetire s
  | .routerRetire => Sys2Proof.Machine.execRouterRetire s
  | .fabricTimeout => Sys2Proof.Machine.execFabricTimeout s
  | .cxlPortDown => Sys2Proof.Machine.execCxlPortDown s
  | .debugAttach => Sys2Proof.Machine.execDebugAttach s

end Sys2Proof.Machine
end

