-- ==== Sys2Proof/Machine/Turn.lean ====
section
/-! DEFINITION. One turn of the machine: an effective cycle of a context, the performing of a queued store, an event, or
the next master cycle with the turns it brings (R3, R25, R125, R206, R298, R359, R361; log 2, DESIGN CHOICE). -/

namespace Sys2Proof.Machine

/-! ### An effective cycle of a context -/

/-- A cycle in which a context does not issue. -/
def State.idleCycle (s : State) : State := s.updMe Ctx.waitTick

/-- A cycle of a YIELD (R125). -/
def State.yieldCycle (s : State) : State :=
  s.updMe (fun c => { c.tick 0 with waits := { c.waits with yield := c.waits.yield - 1 } })

/-- A cycle before a woken context may issue (R330); a BWAIT's bound counts it (R331). -/
def State.wakeCycle (s : State) : State :=
  s.updMe (fun c => let c := c.waitTick; { c with waits := { c.waits with wakeIn := c.waits.wakeIn - 1 } })

/-- Whether the next bundle is one op that the word at the program counter encodes. -/
def Fetched.one (b : Fetched) : Option Instr :=
  match b.items, b.long with
  | [x], none => if x.word = encodeWord x.i ∧ b.blen = wordsOf x.i then some x.i else none
  | _, _ => none

/-- Running the bundle at the program counter: an op that stands alone by its own arm, several as one bundle. Log 8, DESIGN CHOICE. -/
def State.runBundle (s : State) : Host.Outcome State Fault Refusal :=
  match s.fetched.one with
  | some i => exec i s
  | none => .next (s.issue semOf s.fetched)

/-- A cycle in which the fetch of the next bundle stalls: its words are not there to be checked yet (R292, R406). -/
def State.fetchCycle (s : State) : State :=
  s.updMe (fun c => let c := c.waitTick; { c with waits := { c.waits with held := false } })

/-- The bundle at the program counter, once it is fetched: a breakpoint stops it, or a match it ignores clears SKIP (R292,
R405, R406). -/
def State.bundleCycle (s : State) : Host.Outcome State Fault Refusal :=
  if s.fetchStalls then .next s.fetchCycle
  else
    match s.bpFirst with
    | some p => .next (s.bpStop p).idleCycle
    | none => s.bpSkip.runBundle

/-- A cycle of a context that acts: a kind-A event, whose trap entry comes before the step report, a step report, IDLE,
else its bundle (R185). Log 56, DEDUCED. -/
def State.actCycle (s : State) : Host.Outcome State Fault Refusal :=
  let s := s.dropNotice
  match s.dueA with
  | some a => .next (s.takeA a)
  | none =>
    if s.stepDue then .next s.stepReport.idleCycle
    else if s.me.waits.idle then .next s.idleCycle
    else s.bundleCycle

/-- Whether the running context counts the cycle: it is bound and not parked (R25). -/
def State.counts (s : State) : Bool :=
  s.me.run != .unbound &&
  (!isEddy s.cur.ctx || (match (s.myCore.bank s.cur.ctx).st with | .run | .revoking | .ending => true | _ => false))

/-- A cycle of an eddy that is being taken while its bundle waits to retire (R302). -/
def State.leavingCycle (s : State) : Host.Outcome State Fault Refusal :=
  if s.me.waits.wakeIn != 0 then .next s.wakeCycle else s.runBundle

/-- One effective cycle of the running context. Log 25, DESIGN CHOICE. -/
def State.ctxTurn (s : State) : Host.Outcome State Fault Refusal :=
  if !s.counts then .next s
  else if s.leaving then s.leavingCycle
  else if !s.runs then .next s.idleCycle
  else if s.me.waits.yield != 0 then .next s.yieldCycle
  else if s.me.waits.wakeIn != 0 then .next s.wakeCycle
  else s.actCycle

/-! ### The turns of a master cycle -/

/-- Whether slot `i` of the pattern of `k` is kept (R359). -/
def keepsSlot (k i : Nat) : Bool := (i + 1) * k / 16 - i * k / 16 == 1

/-- Whether the running master pulse is an effective cycle of a cluster. -/
def State.pulses (s : State) (k : ClusterState) : Bool := !k.gated && keepsSlot k.keep s.slotNow

/-- An event of a core. -/
def coreEv (c k id idx : Nat) (i : Instr) : Turn := .event { core := c, ctx := k, id := id, idx := idx } i

/-- The events of a request. -/
def reqEvents (c id : Nat) (r : Req) : List Turn :=
  [coreEv c 0 id r.idx .remoteRequestArrival, coreEv c 0 id r.idx .remoteReplyLanding, coreEv c 0 id r.idx .fabricTimeout]

/-- The events of a command after its start. -/
def cmdEvents (c : Nat) (m : Cmd) : List Turn :=
  let ev (i : Instr) : Turn := coreEv c m.ctx m.id 0 i
  match m.kind with
  | .tzero .. | .tfill .. | .tident .. | .tclass .. | .tcopy .. => [ev .tileOpStart]
  | .cpy .. => [ev .copyChunkComplete]
  | .ovl .. => [ev .copyChunkComplete, ev .ovlComplete]
  | .dcpy .. => [ev .dcpyCommandStart, ev .dcpyChunkComplete, ev .dcpyComplete]
  | .rget .. | .rput .. | .rgath .. | .rscat .. | .ratom .. => ev .niCommandStart :: m.reqs.flatMap (reqEvents c m.id)
  | .binit .. => [ev .niCommandStart, ev .binitLanding]
  | .mcst .. | .barr .. => [ev .niCommandStart]
  | .mgo .. | .mstep .. | .mzero .. | .mwload .. | .mdrain .. | .join | .stage => []

/-- What comes before the context turns of a cycle: multicast landings, which every load of the landing cycle sees (R326),
and barrier arrivals, which the last read of a BWAIT orders after (R334). -/
def earlyEvents (c : Nat) (x : CoreState) : List Turn :=
  x.cmds.flatMap (fun m =>
    match m.kind with
    | .mcst .. => [coreEv c m.ctx m.id 0 .mcstLanding]
    | .barr .. => [coreEv c m.ctx m.id 0 .barrierArrival]
    | _ => [])

/-- The completions of fillers, which come after every other write of their cycle (R230). -/
def lateEvents (c : Nat) (x : CoreState) : List Turn :=
  x.cmds.flatMap (fun m =>
    match m.kind with
    | .tzero .. | .tfill .. | .tident .. | .tclass .. | .tcopy .. => [coreEv c m.ctx m.id 0 .tileOpComplete]
    | .mdrain .. => [coreEv c 0 0 0 .mdrainComplete]
    | .cpy .. => [coreEv c m.ctx m.id 0 .copyCommandComplete]
    | _ => [])

/-- The events of a core's engines, lends and contexts. -/
def coreEvents (c : Nat) (x : CoreState) : List Turn :=
  let ev (k : Nat) (i : Instr) : Turn := coreEv c k 0 0 i
  (if x.cmds.isEmpty then [] else
    [ev 0 .sequencerCommandStart, ev 0 .matrixStep, ev 0 .mzeroComplete, ev 0 .mwloadComplete, ev 0 .mdrainStart,
     ev 0 .copyCommandStart] ++ x.cmds.flatMap (cmdEvents c)) ++
  [ev 0 .revokeSquash, ev 0 .bankPark, ev 0 .regionReclaim, ev 0 .keepRegionCopyOut, ev 0 .lendComplete,
   ev 1 .eddyBankFree, ev 2 .eddyBankFree, ev 3 .eddyBankFree, ev 0 .contextRelease]

/-- The turns of a core in an effective cycle of its cluster: the owner before the eddies in ascending number (R298),
then the oldest store of each context (R166), then its events. Log 2, DESIGN CHOICE. Log 25, DESIGN CHOICE. -/
def coreTurns (c : Nat) (x : CoreState) : List Turn :=
  [.ctx c 0, .ctx c 1, .ctx c 2, .ctx c 3] ++
  ([0, 1, 2, 3].filter (fun k => !(x.ctx k).storeQ.isEmpty)).map (fun k => .perform c k) ++ coreEvents c x

/-- An event that names a number. -/
def numEv (id : Nat) (i : Instr) : Turn := .event { id := id } i

/-- The events of the firmware's tasks, queues and graphs (R383, R387, R391-R393). -/
def fwEvents (f : Firmware) : List Turn :=
  ((f.tasks.filter (fun t => t.st == .bound)).flatMap (fun t =>
    [numEv t.num .taskEnd, numEv t.num .drainTimeout, numEv t.num .checkpoint])) ++
  f.parts.map (fun p => numEv p.num .preemptionDecision) ++
  ((f.insts.filter (fun i => i.pool.isSome)).flatMap (fun i =>
    (List.range i.nodes.length).map (fun k => Turn.event { id := i.num, idx := k } .graphNodeLaunch) ++
    [numEv i.num .graphInstanceComplete]))

/-- The event of a mailbox command (R429). -/
def mailboxEvent (op : Nat) : Instr :=
  match op with
  | 0x01 => .load | 0x02 => .unload | 0x03 => .hostLaunch | 0x04 => .graph | 0x05 => .glaunch | 0x06 => .edit
  | 0x07 => .fork | 0x08 => .setcap | 0x09 => .partition | 0x0A => .hostDrain | 0x0B => .weights | 0x0C => .counters
  | _ => .unknownOp

/-- The command at the head of the mailbox (R427). -/
def State.mailboxTurns (s : State) : List Turn :=
  match s.host.submitted.head? with
  | some i => [numEv 0 (mailboxEvent (s.slotOp i))]
  | none => []

/-- The stripes of a core that are to become drowsy (R242). -/
def State.drowsyTurns (s : State) (c : Nat) (x : CoreState) : List Turn :=
  ((List.range 32).filter (fun i =>
    let p := x.stripes.get (Fin.ofNat 32 i)
    p.pw == .awake && decide (p.last + drowsyCycles ≤ s.eff c))).map (fun i => coreEv c 0 0 i .stripeDrowsy)

/-- Clusters that satisfy a test. -/
def State.clustersWith (s : State) (p : ClusterState → Bool) : List Nat := (List.range 192).filter (fun k => p (s.cluster k))

/-- What falls due at the end of the master cycle: permits before the interval, then the pattern, budget periods, the
refresh rotation, power-on, routers (R339, R358-R366, R417). Log 2, DESIGN CHOICE. Log 82, DESIGN CHOICE. -/
def State.endTurns (s : State) : List Turn :=
  (if s.master % 1600 = 0 then (List.range 192).map (fun k => numEv k .permitRefill) else []) ++
  (if s.master % 800 = 0 then (List.range 4).map (fun d => numEv d .intervalBoundary) else []) ++
  (if s.master % 16 = 0 then (s.clustersWith (fun k => k.pendKeep.isSome || s.master % 800 == 0)).map (fun k => numEv k .patternChange)
   else []) ++
  (s.clustersWith (fun k => decide (k.periods < k.eff / 4096))).map (fun k => numEv k .budgetPeriodStart) ++
  (if s.master % 4096 = 0 then (List.range 4).map (fun d => numEv d .dieBudgetPeriodStart) else []) ++
  (if s.master % 1600 = 0 then (List.range 4).map (fun d => numEv d .refreshSlotAdvance) else []) ++
  s.cores.flatMap (fun p => s.drowsyTurns p.1 p.2) ++
  (s.clustersWith (fun k => k.powerOn.isSome)).map (fun k => numEv k .regionPowerOn) ++
  (s.cores.filter (fun p => p.2.slot.st == .bind)).map (fun p => numEv (clusterOf p.1) .regionPowerOn) ++
  (s.clustersWith (fun k => k.retiring)).map (fun k => numEv k .routerRetire)

/-- What comes from outside in a master cycle: at most one event and one thing of another package, host or device. Log 27, DESIGN CHOICE. -/
def State.inputTurns (s : State) : List Turn :=
  (s.inputs.take 1).map (fun p => Turn.event p.1 p.2) ++ (s.abroad.take 1).map Turn.abroad

/-- The turns that `f` lays out for every core whose cluster keeps the running pulse. -/
def State.coresDo (s : State) (f : Nat → CoreState → List Turn) : List Turn :=
  s.cores.flatMap (fun p => if s.pulses (s.cluster (clusterOf p.1)) then f p.1 p.2 else [])

/-- The turns of the running master cycle. Log 2, DESIGN CHOICE. -/
def State.turns (s : State) : List Turn :=
  s.inputTurns ++ s.coresDo earlyEvents ++ s.coresDo coreTurns ++
  fwEvents s.fw ++ s.mailboxTurns ++ s.phys.invals.map (fun i => numEv i.num .invalidationComplete) ++
  s.coresDo lateEvents ++ s.endTurns

/-- A master pulse: the clusters that keep it count an effective cycle (R25, R359), revocations take their banks (R302), and
its turns are laid out. The four dies count in phase from one counter. Log 93, DESIGN CHOICE. Log 2, DESIGN CHOICE. Log 25, DESIGN CHOICE. Log 27, DESIGN CHOICE. -/
def State.clock (s : State) : State :=
  let s1 : State := { s with master := s.master + 1 }
  let s2 : State := { s1 with clusters := s1.clusters.map (fun k => if s1.pulses k then { k with eff := k.eff + 1 } else k) }
  let s3 : State := { s2 with cores := s2.cores.map (fun p => (p.1, p.2.takeBanks (s2.eff p.1))) }
  { s3 with agenda := s3.turns, inputs := s3.inputs.tail, abroad := s3.abroad.tail }

/-! ### Placing an instruction (log 1, DESIGN CHOICE) -/

/-- Words with S set in the last and clear in the others: one bundle (R57). Log 1, DESIGN CHOICE. -/
def sealWords : List Word → List Word
  | [] => []
  | [w] => [w ||| 0x8000000000000000#64]
  | w :: ws => (w &&& 0x7FFFFFFFFFFFFFFF#64) :: sealWords ws

/-- A context that runs and waits for nothing. Log 1, DESIGN CHOICE. -/
def Ctx.ready (c : Ctx) : Ctx :=
  { c with run := .run, waits := {}, pend := [], notice := none,
           dbg := { c.dbg with halted := false, step := false, stepDone := false, abp := .replicate 16 0 } }

/-- A core whose owner runs, with words at its owner's program counter. Log 1, DESIGN CHOICE. -/
def CoreState.withWords (x : CoreState) (ws : List Word) : CoreState :=
  let x := x.setCtx 0 (x.ctx 0).ready
  { x with slot := { x.slot with st := .run }, issueBuf := none,
           ispad := (placeWords (x.ctx 0).pc (sealWords ws)).foldl (fun m p => m.writeWord p.1.toNat p.2) x.ispad }

/-- Words at the program counter of the owner of core 0, in a cluster that is on, with its turn first. Log 1, DESIGN CHOICE. -/
def State.placeWordsAt (s : State) (ws : List Word) : State :=
  let s1 := (s.updCluster 0 (fun k => { k with gated := false })).updCore 0 (fun x => x.withWords ws)
  { s1 with agenda := [.ctx 0 0] }

/-! ### One turn -/

/-- Running a turn that the agenda held. -/
def State.runTurn (s : State) (t : Turn) : Host.Outcome State Fault Refusal :=
  match t with
  | .ctx c k => (s.as c k).ctxTurn
  | .perform c k => .next (s.performOne c k)
  | .event a i => exec i { s with cur := a }
  | .abroad x => .next (s.fromAbroad x)

/-- One turn: the first of the agenda, or the next master pulse where it is empty. Log 2, DESIGN CHOICE. -/
def State.turn (s : State) : Host.Outcome State Fault Refusal :=
  match s.agenda with
  | [] => .next s.clock
  | t :: rest => State.runTurn { s with agenda := rest } t

end Sys2Proof.Machine
end

