-- ==== Sys2Proof/Machine/Step.lean ====
section
/-! DEFINITION. The step of the machine, and the state that fetches a given word next. -/

namespace Sys2Proof.Machine

/-- One step: one turn of the running master cycle, or the next master pulse (log 2, DESIGN CHOICE). -/
def step : State → Host.Outcome State Fault Refusal := State.turn

/-- The words of an instruction of `nbits` bits, S set in its last word. -/
def fetchWordsOf (nbits w : Nat) : List Word :=
  let v := w % 2 ^ nbits
  let w0 : Word := BitVec.ofNat 64 v
  let w1 : Word := BitVec.ofNat 64 (v / 2 ^ 64)
  if nbits ≤ 64 then [w0] else [w0, w1]

/-- `s` with the instruction placed at the program counter of the owner context of core 0, which is bound and runs, and
with that context's turn first (log 1, DESIGN CHOICE). -/
def State.withFetchWord (s : State) (nbits w : Nat) : State := s.placeWordsAt (fetchWordsOf nbits w)

end Sys2Proof.Machine
end

