-- ==== Sys2Proof/Safety.lean ====
section
/-! DEFINITION. What a claim may ask of a state and of a step: the canonical form of every memory, when an op that stands
alone may issue, and what a step of a context leaves unchanged. -/

namespace Sys2Proof.Machine

/-! ### Memory -/

/-- Every memory of a core is in its canonical form: scratchpad, instruction scratchpad, weight buffer, both banks of each
accumulator, and the copy of a lent region that the firmware keeps. -/
def CoreState.memOk (x : CoreState) : Bool :=
  x.spad.wf && x.ispad.wf && x.wbuf.wf && x.accs.toList.all (fun a => a.work.mem.wf && a.vis.mem.wf) &&
  x.lend.kept.all (fun k => k.mem.wf)

/-- Every memory of the package is in its canonical form: physical memory, what the devices of pooled memory hold, the mailbox,
host memory, those of each core, of each saved core image, and of the cores of other packages. -/
def State.memOk (s : State) : Bool :=
  s.phys.mem.wf && s.phys.home.wf && s.host.slots.wf && s.host.mem.wf && s.cores.all (fun p => p.2.memOk) &&
  s.fw.tasks.all (fun t => t.saved.all (fun m => m.st.memOk)) && s.fab.foreign.all (fun f => f.spad.wf)

/-! ### Stops -/

/-- A step that ends in a state. -/
def Completes (o : Host.Outcome State Fault Refusal) : Prop := ∃ t, o = .next t

/-- A step that does not stop. -/
def StepSafe (s : State) : Prop := Completes (step s)

/-! ### When an op that stands alone may issue -/

/-- The op of a bundle that holds one op word: the word at the program counter, op number 0. -/
def State.lone (s : State) (i : Instr) (rnd : Word := 0) : At :=
  { i := i, word := encodeWord i, off := s.me.pc, slot := 0, npc := pcPlus s.me.pc (wordsOf i), rnd := rnd }

/-- The conditions that the issue of every op has in common, in the order of R80: the words are well formed (rows 1
to 3) and fit the mode and the kind of context (R21, R265, R305); every source operand is defined and not poisoned
(row 6); outside handler mode the weight with the standing weight is inside WEIRA, and inside WEIRW with the seven
cycles before (rows 8 and 9, R206); a bundle is left of the issue budget (R190, R366); an eddy is admitted (R298). Nothing
else falls due: no next-tile entry lands with this bundle (R390), and the bundle is not a debugger's (R409). -/
abbrev State.Ready (s : State) (i : Instr) : Prop :=
  s.cur.core < nCores ∧ WellFormed i ∧ s.row2Ctx i = false ∧
  (∀ x ∈ srcs i, s.me.srcFail x = none) ∧
  (s.me.tr.hm = true ∨
    (weightOf i + standSum s.me.standing ≤ s.me.csr.weira ∧
     weightOf i + standSum s.me.standing + (s.me.window.take 7).sum ≤ s.me.csr.weirw)) ∧
  (s.me.csr.issueLeft ≠ 0 ∨ (s.me.tr.hm = true ∧ s.me.tr.res ≠ 0)) ∧
  s.eddyBlocked [s.lone i] = false ∧
  (∀ e ∈ s.me.nx, e.due = 0 ∨ 2 < e.due) ∧ s.myCore.issueBuf = none

/-! ### What a step of a context leaves unchanged -/

/-- Outside its core a step of the running context changed nothing but the charge of its cluster (R212). -/
def State.SameOutside (s t : State) : Prop :=
  t.phys = s.phys ∧ t.boot = s.boot ∧ t.host = s.host ∧ t.fw = s.fw ∧ t.fab = s.fab ∧ t.dies = s.dies ∧
  t.master = s.master ∧ t.agenda = s.agenda ∧ t.inputs = s.inputs ∧ t.cur = s.cur ∧ t.freeCount = s.freeCount ∧
  t.dbgReply = s.dbgReply ∧
  (∀ c, c ≠ s.cur.core → t.core c = s.core c) ∧
  (∀ j, { t.cluster j with charge := (s.cluster j).charge, issuedNow := (s.cluster j).issuedNow } = s.cluster j)

/-- Outside its own context a step changed nothing but the charge of its cluster and the units its core has used in this
cycle (R212, R298): no byte of scratchpad, instruction memory or physical memory, no tile, no command, no lend, no other
context. -/
def State.SameElsewhere (s t : State) : Prop :=
  s.SameOutside t ∧ t.nextId = s.nextId ∧
  (∀ k, k % 4 ≠ s.cur.ctx % 4 → t.ctx s.cur.core k = s.ctx s.cur.core k) ∧
  { t.myCore with ctxs := s.myCore.ctxs, use := s.myCore.use } = s.myCore

/-- What the retirement of any bundle writes in its context besides the results: the cycle counter (R25), the budgets
(R190, R366), the generator (R48), FPSTAT (R42), the standing set (R203), the issue window (R206), the counts of the
next-tile entries (R390), the waits and the step report. Every other field of `c'` is that of `c`. -/
def Ctx.Retired (c c' : Ctx) : Prop :=
  c' = { c with
    pc := c'.pc, q := c'.q, files := c'.files, nx := c'.nx, standing := c'.standing, window := c'.window,
    waits := c'.waits, firstIssue := c'.firstIssue,
    csr := { c.csr with rngseed := c'.csr.rngseed, fpstat := c'.csr.fpstat, cycles := c'.csr.cycles,
                        issueLeft := c'.csr.issueLeft, niLeft := c'.csr.niLeft },
    tr := { c.tr with res := c'.tr.res },
    dbg := { c.dbg with stepDone := c'.dbg.stepDone } }

end Sys2Proof.Machine

namespace Sys2Proof.Claim

open Sys2Proof.Machine

/-! ### Results -/

/-- A queue after a push: the value is the newest entry, every other entry is one older, the oldest is gone (R8). -/
def Pushed (old new : Vector (Option α) 16) (x : α) : Prop :=
  new.get 0 = some x ∧ ∀ (n : Nat) (h : n + 1 < 16), new.get ⟨n + 1, h⟩ = old.get ⟨n, by omega⟩

/-- What a bundle of one op leaves of the package `s` and of the context `c`: nothing else of the package changed; in the
context the program counter is `pc`, one more cycle counted, the flags `fl` added to FPSTAT, and nothing else written but
what a retirement writes (`Ctx.Retired`) and the results. -/
def StepsTo (s : State) (c : Ctx) (t : State) (pc : BitVec 16) (fl : Flags) : Prop :=
  s.SameElsewhere t ∧ c.Retired t.me ∧ t.me.pc = pc ∧
  t.me.csr.cycles = c.csr.cycles + 1 ∧ t.me.csr.fpstat = c.csr.fpstat ||| fl ∧ t.me.standing = c.standing

/-- The same with the program counter behind the op. -/
def StepsAs (s : State) (c : Ctx) (t : State) (i : Instr) (fl : Flags) : Prop :=
  StepsTo s c t (c.pc + BitVec.ofNat 16 (8 * wordsOf i)) fl

/-- What every op that only changes registers leaves: nothing elsewhere; in its context the program counter behind the
op, one more cycle, the flags `fl` added to FPSTAT, and no other special register, token, store, accumulator or
exception register written. -/
def Steps (s t : State) (i : Instr) (fl : Flags) : Prop := StepsAs s s.me t i fl

/-- No register is written: the queues, the named registers and the generator are those of `c`. -/
def RegsKept (c : Ctx) (t : State) : Prop := t.me.q = c.q ∧ t.me.files = c.files ∧ t.me.csr.rngseed = c.csr.rngseed

/-- The queues after a scalar result: pushed on the scalar queue, in handler mode on the handler queue (R8, R21). -/
def ScalarPushed (s t : State) (v : SVal) : Prop :=
  t.me.q.vq = s.me.q.vq ∧
  (s.me.tr.hm = false → Pushed s.me.q.sq t.me.q.sq v ∧ t.me.q.hq = s.me.q.hq) ∧
  (s.me.tr.hm = true → Pushed s.me.q.hq t.me.q.hq v ∧ t.me.q.sq = s.me.q.sq)

/-- The scalar registers after a write: with W set the register that D names holds the value; every other register, and
every register with W clear, is as before (R12, R14). -/
def ScalarWritten (s t : State) (w : Bool) (d : DReg) (v : SVal) : Prop :=
  (∀ r, t.me.files.s.get r = if w = true ∧ d = .near r then v else s.me.files.s.get r) ∧
  (∀ r, t.me.files.g.get r = if w = true ∧ d = .far r then v else s.me.files.g.get r) ∧
  t.me.files.v = s.me.files.v ∧ t.me.files.w = s.me.files.w ∧ t.me.files.p = s.me.files.p ∧
  t.me.files.m = s.me.files.m ∧ t.me.files.b = s.me.files.b

/-- A scalar op done that leaves the rest of its context as `c` is: its step, its result pushed and written. -/
def ScalarDoneAs (s : State) (c : Ctx) (t : State) (i : Instr) (w : Bool) (d : DReg) (v : SVal) (fl : Flags) : Prop :=
  StepsAs s c t i fl ∧ t.me.csr.rngseed = c.csr.rngseed ∧ ScalarPushed s t v ∧ ScalarWritten s t w d v

/-- A scalar op done: its step, its result pushed and written, the generator untouched. -/
def ScalarDone (s t : State) (i : Instr) (w : Bool) (d : DReg) (v : SVal) (fl : Flags) : Prop :=
  ScalarDoneAs s s.me t i w d v fl

/-- The queues after a vector result: pushed on the vector queue; in handler mode that queue stays frozen (R8, R21). -/
def VectorPushed (s t : State) (v : VVal) : Prop :=
  t.me.q.sq = s.me.q.sq ∧ t.me.q.hq = s.me.q.hq ∧
  (s.me.tr.hm = false → Pushed s.me.q.vq t.me.q.vq v) ∧ (s.me.tr.hm = true → t.me.q.vq = s.me.q.vq)

/-- The vector registers after a write: with W set the register that D names holds the value; every other register, and
every register with W clear, is as before (R12, R14). -/
def VectorWritten (s t : State) (w : Bool) (d : DReg) (v : VVal) : Prop :=
  (∀ r, t.me.files.v.get r = if w = true ∧ d = .near r then v else s.me.files.v.get r) ∧
  (∀ r, t.me.files.w.get r = if w = true ∧ d = .far r then v else s.me.files.w.get r) ∧
  t.me.files.s = s.me.files.s ∧ t.me.files.g = s.me.files.g ∧ t.me.files.p = s.me.files.p ∧
  t.me.files.m = s.me.files.m ∧ t.me.files.b = s.me.files.b

/-- A vector op done that leaves the generator at `seed`: its step, its result pushed and written. -/
def VectorDrew (s t : State) (i : Instr) (w : Bool) (d : DReg) (v : VVal) (fl : Flags) (seed : Word) : Prop :=
  Steps s t i fl ∧ t.me.csr.rngseed = seed ∧ VectorPushed s t v ∧ VectorWritten s t w d v

/-- A vector op done, the generator untouched. -/
def VectorDone (s t : State) (i : Instr) (w : Bool) (d : DReg) (v : VVal) (fl : Flags) : Prop :=
  VectorDrew s t i w d v fl s.me.csr.rngseed

/-- A mask delivered to a predicate: the mask with tag BITS is pushed on the vector queue, and the predicate that D names
holds it; p0 is hard-wired and keeps its ones; every other register is as before (R14, R15, R135). -/
def PredDone (s t : State) (i : Instr) (p : Fin 16) (m : PMask) (fl : Flags) : Prop :=
  Steps s t i fl ∧ t.me.csr.rngseed = s.me.csr.rngseed ∧ VectorPushed s t { v := m.setWidth 2048, tag := .bits } ∧
  (∀ r, t.me.pred r = if r = p ∧ p ≠ 0 then m else s.me.pred r) ∧
  t.me.files.s = s.me.files.s ∧ t.me.files.g = s.me.files.g ∧ t.me.files.v = s.me.files.v ∧
  t.me.files.w = s.me.files.w ∧ t.me.files.m = s.me.files.m ∧ t.me.files.b = s.me.files.b

/-! ### Traps -/

/-- A trap of kind P taken into the handler (R182, R186, R193, R194): the record, the return offset and the status are
written, a wake of an IDLE that has not retired stays pending (R129), the context is in handler mode with an empty handler queue, the program counter is at TRAPVEC; no result is
pushed, no register, no flag and no byte of memory is written, and nothing changed elsewhere. -/
def Entered (s t : State) (cause : Nat) (slot : Nat) (info0 info1 : Word) (blen : Nat) : Prop :=
  s.SameElsewhere t ∧
  t.me.tr = { s.me.tr with
    cause := BitVec.ofNat 7 cause, pc := s.me.pc, slot := BitVec.ofNat 5 slot, info0 := info0, info1 := info1,
    epc := s.me.pc, hm := true, eng := false, blen := BitVec.ofNat 5 blen, wake := s.me.tr.wake || s.me.waits.idleWoken } ∧
  t.me.pc = s.me.tr.vec &&& 0xFFF8#16 ∧ t.me.q.sq = s.me.q.sq ∧ t.me.q.vq = s.me.q.vq ∧ (∀ r, t.me.q.hq.get r = none) ∧
  t.me.files = s.me.files ∧ t.me.tok = s.me.tok ∧ t.me.storeQ = s.me.storeQ ∧ t.me.loadQ = s.me.loadQ ∧
  t.me.standing = s.me.standing ∧
  t.me.csr.fpstat = s.me.csr.fpstat ∧ t.me.csr.rngseed = s.me.csr.rngseed

/-- The context has a handler and is not in it (R186, R187), and no BWAIT of it has left its SLEEP bit set: that of a context
taken while it sleeps is cleared first (R331). -/
abbrev Handles (s : State) : Prop := s.me.tr.hm = false ∧ s.me.tr.noh = false ∧ s.me.waits.sleptAt = none

end Sys2Proof.Claim
end

