-- ==== Sys2Proof/Certificates/Slice0/Obligations.lean ====
section
/-! DEFINITION. The statements for the provers. `Claim` holds the words they share: what a result leaves in a context, and
the values of the spec's tables, written over bit vectors and integers, apart from the model's own functions. -/

open Sys2Proof Sys2Proof.Machine

namespace Sys2Proof.Claim

/-! ### Scalar REG ops (R110-R116) -/

/-- Every operand the op uses carries exactly tag T; a special operand passes, and T = 0xF checks nothing (R19, R111). -/
abbrev TagsMatch (s : State) (i : Instr) (t : TField) : Prop :=
  t = .any ∨ ∀ x ∈ srcs i, isSpecial x.o = false → .tag (s.rdS .int64 x.o).tag = t

/-- A function of R113 on N-bit operands a, b, c; the Boolean says that readings are signed. -/
abbrev TableFn := (n : Nat) → Bool → BitVec n → BitVec n → BitVec n → BitVec n

/-- A scalar operand cut to N bits. -/
def opd (n : Nat) (f : RegF) (s : State) (o : Operand) : BitVec n := (s.rdS (scalarOpTag f) o).v.setWidth n

/-- The N-bit result under a width field: 64 bits with tag INT64, or 32 bits with tag INT32, sign-extended and read as
signed under width 01, zero-extended and read as unsigned under width 10; guarded off, A with A's tag (R16, R18, R110). -/
def tableVal (f : RegF) (r : TableFn) (s : State) : SVal :=
  if s.active f.g then
    match f.x.toNat % 4 with
    | 0 => { v := r 64 true (opd 64 f s f.a) (opd 64 f s f.b) (opd 64 f s f.c), tag := .int64 }
    | 1 => { v := (r 32 true (opd 32 f s f.a) (opd 32 f s f.b) (opd 32 f s f.c)).signExtend 64, tag := .int32 }
    | _ => { v := (r 32 false (opd 32 f s f.a) (opd 32 f s f.b) (opd 32 f s f.c)).setWidth 64, tag := .int32 }
  else { v := (s.rdS (scalarOpTag f) f.a).v, tag := match f.t, f.a with
    | .tag t, .pred _ => t
    | _, _ => (s.rdS (scalarOpTag f) f.a).tag }

/-- Sums and products of R113. -/
def sums : List ((RegF → Instr) × TableFn) := [
  (.add, fun _ _ a b _ => a + b),
  (.sub, fun _ _ a b _ => a - b),
  (.mul, fun _ _ a b _ => a * b),
  (.mulh, fun n sg a b _ =>
    if sg then (a.signExtend (2 * n) * b.signExtend (2 * n)).extractLsb' n n
    else (a.setWidth (2 * n) * b.setWidth (2 * n)).extractLsb' n n),
  (.madd, fun _ _ a b c => a * b + c),
  (.shadd, fun n _ a b c => (a <<< (c.toNat % n)) + b)]

/-- Logic, choices and comparisons of R113. -/
def choices : List ((RegF → Instr) × TableFn) := [
  (.and, fun _ _ a b _ => a &&& b),
  (.or, fun _ _ a b _ => a ||| b),
  (.xor, fun _ _ a b _ => a ^^^ b),
  (.andn, fun _ _ a b _ => a &&& ~~~b),
  (.sel, fun _ _ a b c => if c.getLsbD 0 then a else b),
  (.min, fun _ sg a b _ => if sg then (if b.slt a then b else a) else (if b.ult a then b else a)),
  (.max, fun _ sg a b _ => if sg then (if a.slt b then b else a) else (if a.ult b then b else a)),
  (.minu, fun _ _ a b _ => if b.ult a then b else a),
  (.maxu, fun _ _ a b _ => if a.ult b then b else a)]

/-- The bits of `a` from `pos` on, `len` of them, zeros above. -/
def field (a : BitVec n) (pos len : Nat) : BitVec n := (a >>> pos).extractLsb' 0 len |>.setWidth n

/-- Shifts, counts and bit fields of R113. -/
def shifts : List ((RegF → Instr) × TableFn) := [
  (.shl, fun n _ a b _ => a <<< (b.toNat % n)),
  (.shr, fun n _ a b _ => a >>> (b.toNat % n)),
  (.sar, fun n sg a b _ => if sg then a.sshiftRight (b.toNat % n) else a >>> (b.toNat % n)),
  (.rot, fun n _ a b _ => a.rotateLeft (b.toNat % n)),
  (.clz, fun _ _ a _ _ => a.clz),
  (.popc, fun _ _ a _ _ => a.cpop),
  (.bswap, fun n _ a _ _ => BitVec.ofFnLE (fun i : Fin n => a.getLsbD (8 * (n / 8 - 1 - i.val / 8) + i.val % 8))),
  (.extr, fun n _ a b _ => field a ((b.extractLsb' 0 6).toNat % n) (b.extractLsb' 6 7).toNat),
  (.ins, fun n _ a b c => BitVec.ofFnLE (fun i : Fin n =>
    let pos := (c.extractLsb' 0 6).toNat % n
    if pos ≤ i.val ∧ i.val < pos + (c.extractLsb' 6 7).toNat then b.getLsbD (i.val - pos) else a.getLsbD i.val))]

/-- What a table of scalar ops claims: on every state in which the op may issue and its tags match, it completes with its
value of the table. -/
def TableHolds (l : List ((RegF → Instr) × TableFn)) : Prop :=
  ∀ p ∈ l, ∀ (f : RegF) (s : State), s.Ready (p.1 f) → TagsMatch s (p.1 f) f.t →
    ∃ t, exec (p.1 f) s = .next t ∧ ScalarDone s t (p.1 f) f.w f.d (tableVal f p.2 s) 0

/-- Quotient and remainder (R114): a zero divisor gives all ones and the dividend. -/
def divs : List ((RegF → Instr) × TableFn) := [
  (.div, fun n sg a b _ => if b = 0 then BitVec.allOnes n else if sg then a.sdiv b else a / b),
  (.rem, fun _ sg a b _ => if b = 0 then a else if sg then a.srem b else a % b)]

/-- Whether an op divides by zero: it is active and the divisor, cut to its width, is zero (R114). -/
def byZero (f : RegF) (s : State) : Bool :=
  s.active f.g && (if f.x.toNat % 4 = 0 then opd 64 f s f.b == 0 else opd 32 f s f.b == 0)

/-- The result of the comparison that C of a CMP names (R115): 1 or 0, for the last -1, 0 or 1. -/
def cmpFn (c : Operand) : TableFn := fun n sg a b _ =>
  let lt (x y : BitVec n) : Bool := if sg then x.slt y else x.ult y
  match c with
  | .zero => if a = b then 1 else 0
  | .one => if a = b then 0 else 1
  | .ones => if lt a b then 1 else 0
  | .lane => if lt a b then 0 else 1
  | .ctxid => if a.ult b then 1 else 0
  | .core => if a.ult b then 0 else 1
  | _ => if lt a b then BitVec.allOnes n else if lt b a then 1 else 0

/-- The mask a comparison with result `r` writes to a predicate: all ones for a result that is not zero, the old value
where the op is guarded off (R115). -/
def cmpMask (s : State) (g : Guard) (p : Fin 16) (zero : Bool) : PMask :=
  if s.active g then (if zero then 0 else BitVec.allOnes 256) else s.me.pred p

/-- Whether the comparison of a CMP gives zero, at its width. -/
def cmpZero (f : RegF) (s : State) : Bool :=
  match f.x.toNat % 4 with
  | 0 => cmpFn f.c 64 true (opd 64 f s f.a) (opd 64 f s f.b) 0 == 0
  | 1 => cmpFn f.c 32 true (opd 32 f s f.a) (opd 32 f s f.b) 0 == 0
  | _ => cmpFn f.c 32 false (opd 32 f s f.a) (opd 32 f s f.b) 0 == 0

/-! ### IMM ops (R118, R119) -/

/-- The table of R118: A and imm32. -/
def imms : List ((ImmF → Instr) × (Word → BitVec 32 → Word)) := [
  (.addi, fun a i => a + i.signExtend 64), (.andi, fun a i => a &&& i.signExtend 64),
  (.ori, fun a i => a ||| i.signExtend 64), (.xori, fun a i => a ^^^ i.signExtend 64),
  (.shli, fun a i => a <<< i), (.shri, fun a i => a >>> i), (.sari, fun a i => a.sshiftRight' i),
  (.lih, fun a i => i ++ a.setWidth 32), (.muli, fun a i => a * i.signExtend 64)]

/-- The comparison of a CMPI: A against imm32[28:0], sign-extended, by the condition in [31:29] (R119). -/
def cmpiFn (k : Nat) (a b : Word) : Word :=
  match k with
  | 0 => if a = b then 1 else 0
  | 1 => if a = b then 0 else 1
  | 2 => if a.slt b then 1 else 0
  | 3 => if a.slt b then 0 else 1
  | 4 => if a.ult b then 1 else 0
  | 5 => if a.ult b then 0 else 1
  | _ => if a.slt b then BitVec.allOnes 64 else if b.slt a then 1 else 0

/-- The result of a CMPI. -/
def cmpiVal (f : ImmF) (s : State) : Word :=
  cmpiFn (f.imm.extractLsb' 29 3).toNat (s.val f.a) ((f.imm.extractLsb' 0 29).signExtend 64)

/-! ### Lanes (R130-R132) -/

/-- Lane `i` of a vector value at element width `w` (R130). -/
def lane (w : Nat) (v : VWord) (i : Nat) : BitVec w := v.extractLsb' (w * i) w

/-- The lanes of a guarded result: an active lane holds `r`, an inactive one the bits of `first` at its place; the tag
is the result's, or that of `first` where no lane is active (R132). -/
def Merged (s : State) (g : Guard) (w : Nat) (tag : Tag) (first : VVal) (r : Nat → BitVec w) (v : VVal) : Prop :=
  (∀ i, i < 2048 / w → lane w v.v i = if s.me.guardBit g i then r i else lane w first.v i) ∧
  v.tag = (if ∃ i < 2048 / w, s.me.guardBit g i = true then tag else first.tag) ∧ v.poison = none

/-- The lanes of a result that has no vector to fall back on: an inactive lane is zero (R132). -/
def Zeroed (s : State) (g : Guard) (w : Nat) (tag : Tag) (r : Nat → BitVec w) (v : VVal) : Prop :=
  (∀ i, i < 2048 / w → lane w v.v i = if s.me.guardBit g i then r i else 0) ∧ v.tag = tag ∧ v.poison = none

/-- A of a vector op, at lane `i`. -/
def laneA (f : RegF) (s : State) (w : Nat) (i : Nat) : BitVec w := lane w (s.rdV (vT f) f.a).v i
/-- B of a vector op, at lane `i`: with X[3] the low bits of the scalar serve every lane (R131). -/
def laneB (f : RegF) (s : State) (w : Nat) (i : Nat) : BitVec w :=
  if f.x.getLsbD 3 then (s.rdS (vT f) f.b).v.setWidth w else lane w (s.rdV (vT f) f.b).v i
/-- B of a vector op that holds integers whatever T is, at lane `i`: a special operand reads with the signed integer tag of the
width (R19, R66). -/
def laneBInt (f : RegF) (s : State) (w : Nat) (i : Nat) : BitVec w :=
  if f.x.getLsbD 3 then (s.rdS .int64 f.b).v.setWidth w else lane w (s.rdV (sintOf (tagWidth (vT f))) f.b).v i
/-- A mask operand of a vector op; a special one reads with the signed integer tag of the width. -/
def maskBits (f : RegF) (s : State) (o : Operand) : VWord := (s.rdV (sintOf (tagWidth (vT f))) o).v
/-- C of a vector op, at lane `i`. -/
def laneC (f : RegF) (s : State) (w : Nat) (i : Nat) : BitVec w := lane w (s.rdV (vT f) f.c).v i

/-- The tags of a vector op's operands: each is special or carries a tag that the entry accepts there (R19, R130,
R131). -/
abbrev VecTagsMatch (s : State) (i : Instr) (ok : Src → Tag → Prop) : Prop :=
  ∀ x ∈ srcs i, isSpecial x.o = false → ok x (if x.vec then (s.rdV .int64 x.o).tag else (s.rdS .int64 x.o).tag)

/-- The common rule: T itself, and INT64 or INT32 for a broadcast scalar under an integer tag or BITS (R131). -/
abbrev tagT (f : RegF) (x : Src) (t : Tag) : Prop :=
  t = vT f ∨ (x.vec = false ∧ isLogicTag (vT f) = true ∧ (t = .int64 ∨ t = .int32))

/-- A lane function of R137: the width, whether readings are signed, and the three lanes. -/
abbrev LaneTableFn := (w : Nat) → Bool → BitVec w → BitVec w → BitVec w → BitVec w

/-- The lane-wise table of R137 with the result tags. -/
def laneTable : List ((RegF → Instr) × (Tag → Tag) × LaneTableFn) := [
  (.vadd, id, fun _ _ a b _ => a + b),
  (.vsub, id, fun _ _ a b _ => a - b),
  (.vmul, id, fun _ _ a b _ => a * b),
  (.vmulh, id, fun w sg a b _ =>
    if sg then (a.signExtend (2 * w) * b.signExtend (2 * w)).extractLsb' w w
    else (a.setWidth (2 * w) * b.setWidth (2 * w)).extractLsb' w w),
  (.vmin, id, fun _ sg a b _ => if sg then (if b.slt a then b else a) else (if b.ult a then b else a)),
  (.vmax, id, fun _ sg a b _ => if sg then (if a.slt b then b else a) else (if a.ult b then b else a)),
  (.vand, id, fun _ _ a b _ => a &&& b),
  (.vor, id, fun _ _ a b _ => a ||| b),
  (.vxor, id, fun _ _ a b _ => a ^^^ b),
  (.vandn, id, fun _ _ a b _ => a &&& ~~~b),
  (.vshl, id, fun w _ a b _ => a <<< (b.toNat % w)),
  (.vshr, id, fun w _ a b _ => a >>> (b.toNat % w)),
  (.vsar, id, fun w sg a b _ => if sg then a.sshiftRight (b.toNat % w) else a >>> (b.toNat % w)),
  (.vabs, id, fun _ sg a _ _ => if sg && a.msb then -a else a),
  (.vmadd, id, fun _ _ a b c => a * b + c),
  (.vpopc, fun t => if t = .bits then .uint8 else t, fun _ _ a _ _ => a.cpop)]

/-- The dot product of R139: C's lane plus four byte products, the bytes read by T. -/
def dotLane (f : RegF) (s : State) (i : Nat) : BitVec 32 :=
  let ext (x : BitVec 8) : BitVec 32 := if vT f = .uint8 then x.setWidth 32 else x.signExtend 32
  let b (k : Nat) : BitVec 8 :=
    if f.x.getLsbD 3 then (s.rdS (vT f) f.b).v.extractLsb' (8 * k) 8 else lane 8 (s.rdV (vT f) f.b).v (4 * i + k)
  let p (k : Nat) : BitVec 32 := ext (laneA f s 8 (4 * i + k)) * ext (b k)
  lane 32 (s.rdV .int32 f.c).v i + p 0 + p 1 + p 2 + p 3

/-! ### Masks (R135) -/

/-- A mask result of `n` lanes: an active lane holds its condition, an inactive one the predicate's old bit where D names a
predicate and 0 elsewhere, and every bit above is 0; delivered to the predicate, or as a vector value with tag BITS. -/
def MaskDone (s t : State) (i : Instr) (w : Bool) (d : DReg) (g : Guard) (n : Nat) (cond : Nat → Bool) (fl : Flags) : Prop :=
  match w, d with
  | true, .pred p => ∃ m : PMask,
      (∀ k, m.getLsbD k = (decide (k < n) && if s.me.guardBit g k then cond k else (s.me.pred p).getLsbD k)) ∧
      PredDone s t i p m fl
  | w, d => ∃ v : VVal, v.tag = .bits ∧ v.poison = none ∧
      (∀ k, v.v.getLsbD k = (decide (k < n) && (s.me.guardBit g k && cond k))) ∧ VectorDone s t i w d v fl

/-- The flags of a lane-wise op are the flags of its active lanes (R17, R42). -/
def FlagsOf (s : State) (g : Guard) (n : Nat) (lf : Nat → Flags) (fl : Flags) : Prop :=
  ∀ k, fl.getLsbD k = true ↔ ∃ i < n, s.me.guardBit g i = true ∧ (lf i).getLsbD k = true

/-- No flag traps: the context is in handler mode, or FPCTL[11:5] is clear (R21, R41, R42). -/
abbrev NoFlagTraps (s : State) : Prop := s.me.tr.hm = true ∨ s.me.csr.fpctl.extractLsb' 5 7 = 0#7

/-- The flags of R42 in ascending order of cause from 0x10: the bit in FPSTAT and the enable in FPCTL (R40, R41). -/
def flagTable : List (Nat × Nat) := [(6, 10), (0, 5), (1, 6), (2, 7), (3, 8), (4, 9), (5, 11)]

/-- What R42 and R193 say of an op of `n` lanes in a context that takes traps: where an active lane raises a flag that FPCTL
enables, the op traps with the lowest such cause, the lowest lane that raised it in TRAPINFO0 and every flag raised in
TRAPINFO1, and does nothing else. -/
def FlagsTrap (s : State) (i : Instr) (g : Guard) (n : Nat) (lf : Nat → Flags) : Prop :=
  let raised (b k : Nat) : Prop := k < n ∧ s.me.guardBit g k = true ∧ (lf k).getLsbD b = true
  let enabled (e : Nat) : Prop := s.me.csr.fpctl.getLsbD e = true
  Handles s → ∀ (c k : Nat) (e : Nat × Nat), flagTable[c]? = some e → enabled e.2 → raised e.1 k →
    (∀ j, j < k → ¬ raised e.1 j) →
    (∀ d, d < c → ∀ e', flagTable[d]? = some e' → enabled e'.2 → ∀ j, ¬ raised e'.1 j) →
    ∃ t fl, exec i s = .next t ∧ FlagsOf s g n lf fl ∧
      Entered s t (0x10 + c) 0 (BitVec.ofNat 64 k) (fl.setWidth 64) 1

/-- The condition of a VCMP lane (R138). -/
def laneCond (k : Nat) (sg : Bool) (a b : BitVec w) : Bool :=
  let lt : Bool := if sg then a.slt b else a.ult b
  match k with
  | 0 => a == b
  | 1 => a != b
  | 2 => lt
  | 3 => !lt
  | 4 => a.ult b
  | _ => !a.ult b

/-! ### Floating point (R140-R145) -/

/-- The lane functions of the floating-point ops, on decoded operands: the exact result of R53 to R55, rounded once. -/
def fpTable : List ((RegF → Instr) × FpFn) := [
  (.vfadd, fun f rm a b _ => fadd f rm (fdec f a) (fdec f b)),
  (.vfsub, fun f rm a b _ => fadd f rm (fdec f a) (fdec f b).flip),
  (.vfmul, fun f rm a b _ => fmul f rm (fdec f a) (fdec f b)),
  (.vfma, fun f rm a b c => fma f rm (fdec f a) (fdec f b) (fdec f c)),
  (.vfnma, fun f rm a b c => fma f rm (fdec f a).flip (fdec f b) (fdec f c)),
  (.vfrcp, fun f rm a _ _ => frcp f rm (fdec f a)),
  (.vfrsq, fun f rm a _ _ => frsq f rm (fdec f a)),
  (.vfexp2, fun f rm a _ _ => fexp2 f rm (fdec f a)),
  (.vflog2, fun f rm a _ _ => flog2 f rm (fdec f a)),
  (.vfdiv, fun f rm a b _ => fdiv f rm (fdec f a) (fdec f b)),
  (.vfsqrt, fun f rm a _ _ => fsqrt f rm (fdec f a))]

/-- The magnitude whose exponent is all ones and whose mantissa is zero: an infinity; for FP8E4M3, which has none, the magnitude of
its NaN (R28, R29). -/
def topMag : Tag → Nat
  | .fp64 => 0x7FF0000000000000 | .fp32 => 0x7F800000 | .fp16 => 0x7C00 | .bf16 => 0x7F80 | .e5m2 => 0x7C | _ => 0x7F

/-- The canonical NaN of a format (R30). -/
def canonNaN : Tag → Nat
  | .fp64 => 0x7FF8000000000000 | .fp32 => 0x7FC00000 | .fp16 => 0x7E00 | .bf16 => 0x7FC0 | .e5m2 => 0x7E | _ => 0x7F

/-- The bits of an element below its sign. -/
def magOf (x : BitVec w) : Nat := x.toNat % 2 ^ (w - 1)
/-- A NaN of a format (R29). -/
def isNaN (t : Tag) (x : BitVec w) : Bool := if t = .e4m3 then magOf x == 0x7F else decide (topMag t < magOf x)
/-- A signalling NaN: one whose top mantissa bit is zero; the 8-bit formats have none (R31). -/
def isSNaN (t : Tag) (x : BitVec w) : Bool := decide (w ≠ 8) && isNaN t x && decide (magOf x < canonNaN t)
/-- A number that orders elements that are no NaN as their values are ordered, zeros of either sign equal (R28). -/
def rankOf (x : BitVec w) : Int := if x.msb then -(magOf x : Int) else magOf x

/-- The condition of a VFCMP lane (R142). -/
def fpCond (t : Tag) (k : Nat) (a b : BitVec w) : Bool :=
  let nan := isNaN t a || isNaN t b
  match k with
  | 0 => !nan && decide (rankOf a = rankOf b)
  | 1 => nan || decide (rankOf a ≠ rankOf b)
  | 2 => !nan && decide (rankOf a < rankOf b)
  | 3 => !nan && decide (rankOf a ≤ rankOf b)
  | 4 => !nan && decide (rankOf b < rankOf a)
  | 5 => !nan && decide (rankOf b ≤ rankOf a)
  | _ => nan
/-- The flags of a VFCMP lane: IV for any NaN by order, for a signalling one by equality (R142). -/
def fpCondFlags (t : Tag) (k : Nat) (a b : BitVec w) : Flags :=
  if (if 2 ≤ k ∧ k ≤ 5 then isNaN t a || isNaN t b else isSNaN t a || isSNaN t b) then 0x01#7 else 0

/-- Whether an element is below another, −0 below +0 (R141). -/
def fpBelow (a b : BitVec w) : Bool :=
  decide (rankOf a < rankOf b) || (decide (rankOf a = rankOf b) && a.msb && !b.msb)
/-- A lane of VFMIN or VFMAX with its flags (R141). -/
def minMaxLane (t : Tag) (isMax : Bool) (a b : BitVec w) : FRes :=
  if isNaN t a || isNaN t b then (canonNaN t, if isSNaN t a || isSNaN t b then 0x01#7 else 0)
  else ((if (if isMax then fpBelow a b else fpBelow b a) then b else a).toNat, 0)

/-- A floating-point op done lane by lane: `r i` is the element and the flags of lane `i`. -/
def FpDone (f : RegF) (s : State) (i : Instr) (w : Nat) (tag : Tag) (first : VVal) (r : Nat → FRes) : Prop :=
  ∃ t v fl, exec i s = .next t ∧ VectorDone s t i f.w f.d v fl ∧
    Merged s f.g w tag first (fun k => BitVec.ofNat w (r k).1) v ∧ FlagsOf s f.g (2048 / w) (fun k => (r k).2) fl

/-! ### Converters (R146-R150) -/

/-- The random word a converter op draws: in rounding mode 5 the next word of the generator (R48, R49). -/
def cvtWord (f : RegF) (s : State) : Word := if cvtRM f s = .stoch then (rngPop s.me.csr.rngseed).1 else 0
/-- The generator after a converter op (R49). -/
def cvtSeed (f : RegF) (s : State) : Word :=
  if cvtRM f s = .stoch then (rngPop s.me.csr.rngseed).2 else s.me.csr.rngseed
/-- The random byte of a result lane (R50). -/
def cvtRnd (f : RegF) (s : State) (k : Nat) : Nat := if cvtRM f s = .stoch then rngByte (cvtWord f s) k else 0

/-- A converter op done: its first `n` lanes hold `r`, every lane above is zero whatever the guard, and with no lane active
A is delivered (R132, R146). -/
def CvtDone (f : RegF) (s : State) (i : Instr) (n : Nat) (r : Nat → FRes) : Prop :=
  let w := tagWidth (cvtD f)
  ∃ t v fl, exec i s = .next t ∧ VectorDrew s t i f.w f.d v fl (cvtSeed f s) ∧ v.poison = none ∧
    FlagsOf s f.g (min n (2048 / w)) (fun k => (r k).2) fl ∧
    if ∃ k < 2048 / w, s.me.guardBit f.g k = true then
      v.tag = cvtD f ∧ ∀ k, k < 2048 / w → lane w v.v k =
        if n ≤ k then 0 else if s.me.guardBit f.g k then BitVec.ofNat w (r k).1 else lane w (s.rdV (vT f) f.a).v k
    else v.v = (s.rdV (vT f) f.a).v ∧ v.tag = (s.rdV (vT f) f.a).tag

/-! ### Lane moves (R151-R159) -/

/-- The tags an index operand carries: INT64 or INT32 (R151, R156, R157). -/
abbrev indexTag (t : Tag) : Prop := t = .int64 ∨ t = .int32

/-- The source of a VSHUF lane (R152), with h the half of L. -/
def shufLane (f : RegF) (s : State) (w : Nat) (k : Nat) : BitVec w :=
  let n := 2048 / w
  let h := n / 2
  let a := laneA f s w
  let b (j : Nat) : BitVec w := lane w (s.rdV (vT f) f.b).v j
  match f.x.toNat % 8 with
  | 0 => if k % 2 = 0 then a (k / 2) else b (k / 2)
  | 1 => if k % 2 = 0 then a (h + k / 2) else b (h + k / 2)
  | 2 => if k < h then a (2 * k) else b (2 * (k - h))
  | 3 => if k < h then a (2 * k + 1) else b (2 * (k - h) + 1)
  | 4 => a (n - 1 - k)
  | 5 => a (k ^^^ 1)
  | _ => if k < h then a k else b (k - h)

/-- A lane of VSLIDE (R156). -/
def slideLane (f : RegF) (s : State) (w : Nat) (k : Nat) : BitVec w :=
  let l : Int := (2048 / w : Nat)
  let t : Int := (k : Int) + (s.rdS .int64 f.b).v.toInt
  if 0 ≤ t ∧ t < l then laneA f s w t.toNat
  else if l ≤ t ∧ t < 2 * l then laneC f s w (t - l).toNat
  else if -l ≤ t ∧ t < 0 then laneC f s w (t + l).toNat
  else 0

/-- The mask bits of B below a lane. -/
def maskRank (f : RegF) (s : State) (k : Nat) : Nat :=
  ((List.range k).filter (fun j => (maskBits f s f.b).getLsbD j)).length

/-- A lane of VCMPRS: the lane of A whose mask bit is set and has `k` set mask bits below it, zero where there is none
(R155). -/
def packLane (f : RegF) (s : State) (w : Nat) (k : Nat) : BitVec w :=
  match (List.range (2048 / w)).find? (fun j => (maskBits f s f.b).getLsbD j && maskRank f s j == k) with
  | some j => laneA f s w j
  | none => 0

/-- Bit `b` of the carry-less product of two 64-bit numbers (R159). -/
def clmulBit (x y : BitVec 64) (b : Nat) : Bool :=
  ((List.range 64).filter (fun k => y.getLsbD k && decide (k ≤ b) && x.getLsbD (b - k))).length % 2 == 1

/-- A 64-bit lane of an operand of VCLMUL; a special operand stands in 64-bit lanes, whatever T says (R66, R159). -/
def quad (o : Operand) (s : State) (k : Nat) : BitVec 64 := (s.rdV .int64 o).v.extractLsb' (64 * k) 64

/-- A 64-bit lane of VCLMUL (R159). -/
def clmulLane (f : RegF) (s : State) (k : Nat) : BitVec 64 :=
  let j := k / 2
  let x := quad f.a s (2 * j + if f.x.toNat % 4 = 1 ∨ f.x.toNat % 4 = 3 then 1 else 0)
  let y := if f.x.getLsbD 3 then (s.rdS .int64 f.b).v
    else quad f.b s (2 * j + if f.x.toNat % 4 = 1 ∨ f.x.toNat % 4 = 2 then 1 else 0)
  BitVec.ofFnLE (fun b : Fin 64 => clmulBit x y (64 * (k % 2) + b.val))

/-- An op that moves lanes, done: no flag, result tag T. -/
def MoveDone (f : RegF) (s : State) (i : Instr) (r : Nat → BitVec (tagWidth (vT f))) : Prop :=
  ∃ t v, exec i s = .next t ∧ VectorDone s t i f.w f.d v 0 ∧
    Merged s f.g (tagWidth (vT f)) (vT f) (s.rdV (vT f) f.a) r v

/-- An element placed in 64 bits: a signed integer element sign-extended, any other zero-extended (R134). -/
def placed (t : Tag) (x : BitVec (tagWidth t)) : Word :=
  if isIntTag t && t != .uint8 then x.signExtend 64 else x.setWidth 64

/-- The operation of an integer reduction (R154). -/
def redFn (k : Nat) (sg : Bool) (a b : BitVec w) : BitVec w :=
  match k with
  | 0 => a + b
  | 1 => if (if sg then a.slt b else a.ult b) then b else a
  | 2 => if (if sg then b.slt a else b.ult a) then b else a
  | 3 => a &&& b
  | 4 => a ||| b
  | _ => a ^^^ b

/-- Its identity, which an inactive lane contributes (R51). -/
def redUnit (k : Nat) (sg : Bool) (w : Nat) : BitVec w :=
  match k with
  | 1 => if sg then BitVec.intMin w else 0
  | 2 => if sg then BitVec.intMax w else BitVec.allOnes w
  | 3 => BitVec.allOnes w
  | _ => 0

/-- The running values of an integer scan: lane `k` combines the active lanes up to `k` (R52). -/
def runningRed (f : RegF) (s : State) (w : Nat) (k : Nat) : BitVec w :=
  let sg := vT f != .uint8
  let op := redFn (f.x.toNat % 8) sg
  ((List.range (k + 1)).map (fun j =>
    if s.me.guardBit f.g j then laneA f s w j else redUnit (f.x.toNat % 8) sg w)).foldl op (redUnit (f.x.toNat % 8) sg w)

/-! ### Memory (R164-R181) -/

/-- An access passes every row of R178, waits on no migrating page (R348), and, as the owner's, on no region that is being
revoked (R304). -/
abbrev AccPasses (s : State) (a : Acc1) : Prop :=
  (∀ r ∈ [1, 2, 3, 4, 5], s.accFails s.cur.core s.cur.ctx s.myTask a r = none) ∧
  s.accMigrating s.cur.core s.myTask a = false ∧
  (isEddy s.cur.ctx = true ∨ ∀ o, s.ownOff s.cur.core a.va = some o →
    s.myCore.ownerBlocked o = false ∧ s.myCore.ownerBlocked (o + a.n - 1) = false)

/-- The access of a list that the memory checks of a bundle report (R178): the first one to fail the lowest row that any fails. -/
def Reports (s : State) (l : List Acc1) (a : Acc1) (cause : Nat) : Prop :=
  let fails (b : Acc1) (row : Nat) : Option Nat := s.accFails s.cur.core s.cur.ctx s.myTask b row
  ∃ row ∈ [1, 2, 3, 4, 5], ∃ pre post, l = pre ++ a :: post ∧ fails a row = some cause ∧ (∀ b ∈ pre, fails b row = none) ∧
    ∀ q ∈ [1, 2, 3, 4, 5], q < row → ∀ b ∈ l, fails b q = none

/-- R178, R182: an op with a failing access traps with that row's cause, the address of the access in TRAPINFO0, its lane and its
kind in TRAPINFO1, and does nothing else. -/
def AccessTraps (s : State) (i : Instr) (l : List Acc1) : Prop :=
  Handles s → ∀ (a : Acc1) (cause : Nat), Reports s l a cause →
    ∃ t, exec i s = .next t ∧ Entered s t cause 0 a.va (BitVec.ofNat 64 (a.lane + 256 * a.kind)) 1

/-- The package as an access finds it: the implicit MARK of a weak memory model's stronger revisions first (R181), then the
walks of the translation, which fill the TLBs and may set a bit of a page-table entry, or the waking of its stripe (R180,
R344, R345); before a load the context's earlier stores to its words are performed, with every store before those (R166,
R167). -/
def accessed (s : State) (load : Bool) (a : Acc1) : State :=
  let s1 := (s.implicitMark load).touchAcc s.cur.core s.myTask a
  if load then s1.drainFor s.cur.core s.cur.ctx (s1.locs s.cur.core s.myTask a.va a.n false) else s1

/-- The bytes an access reads from memory, lowest address first (R166). -/
def readBytes (s : State) (a : Acc1) (wr : Bool) : List Byte :=
  (s.locs s.cur.core s.myTask a.va a.n wr).map (s.memByte s.cur.core)

/-- Whether one of them is poisoned (R179). -/
def readBad (s : State) (a : Acc1) (wr : Bool) : Bool :=
  (s.locs s.cur.core s.myTask a.va a.n wr).any (s.memPoison s.cur.core)

/-- The effective address A + sext(disp) (R171). -/
def ea (f : MemF) (s : State) : Word := s.val f.a + f.disp.signExtend 64

/-- The access of a scalar op at an address. -/
def plainAcc (f : MemF) (kind : Nat) (s : State) : Acc1 := { lane := 0, va := ea f s, n := sizeBytes f.sz, kind := kind }

/-- The access of LDP and STP: the address is an offset into the context's private window, which PRIVBASE gives (R20, R24,
R171). -/
def windowAcc (f : MemF) (kind : Nat) (s : State) : Acc1 :=
  let size : Nat := 16 + (s.me.csr.privbase.extractLsb' 0 4).toNat
  { lane := 0, va := (s.me.csr.privbase >>> size <<< size) + ea f s, n := sizeBytes f.sz, kind := kind,
    priv := some ((ea f s).toNat, 2 ^ size) }

/-- The scalar loads with their access and whether they sign-extend (R171). -/
def loads : List ((MemF → Instr) × (MemF → Nat → State → Acc1) × Bool) :=
  [(.ld, plainAcc, true), (.ldu, plainAcc, false), (.ldp, windowAcc, true)]

/-- The value of a scalar load, tagged INT64 (R171); poisoned with its address where a byte is (R179). -/
def loadVal (s : State) (a : Acc1) (sx : Bool) : SVal :=
  { v := if sx then (BitVec.ofNat (8 * a.n) (leNat (readBytes s a false))).signExtend 64
         else (BitVec.ofNat (8 * a.n) (leNat (readBytes s a false))).setWidth 64
    tag := .int64, poison := if readBad s a false then some a.va else none }

/-- The scalar stores with their access (R171). -/
def stores : List ((MemF → Instr) × (MemF → Nat → State → Acc1)) := [(.st, plainAcc), (.stp, windowAcc)]

/-- The bytes a scalar store places: the low bytes of B, lowest first, each at the place its address names. -/
def storeCells (s : State) (a : Acc1) (x : Word) : List (Loc × Byte) :=
  (s.locs s.cur.core s.myTask a.va a.n true).zip
    ((List.range a.n).map (fun k => x.extractLsb' (8 * k) 8))

/-- The element of a tag that holds a byte of the scratchpad, as a number. -/
def elemHolding (m : Mem) (t : Tag) (o : Nat) : Nat :=
  let n := tagWidth t / 8
  leNat ((List.range n).map (fun k => m.read (o / n * n + k)))
/-- Whether an element is an infinity or a NaN, or SCALE8's code 0xFF (R224). -/
def notFinite (t : Tag) (x : Nat) : Bool :=
  match t with
  | .fp64 | .fp32 | .fp16 | .bf16 | .e5m2 | .e4m3 => decide (topMag t ≤ x % 2 ^ (tagWidth t - 1))
  | .scale8 => decide (x = 0xFF)
  | _ => false

/-- A context with a store more in its queue. -/
def stored (c : Ctx) (es : List StoreEnt) : Ctx := { c with storeQ := c.storeQ ++ es }

/-- The atomics with what they write: old, b and the expected value (R175). -/
def atoms : List ((MemF → Instr) × Bool × (∀ n : Nat, BitVec n → BitVec n → BitVec n → BitVec n)) := [
  (.aadd, false, fun _ o b _ => o + b),
  (.amin, false, fun _ o b _ => if b.slt o then b else o),
  (.amax, false, fun _ o b _ => if o.slt b then b else o),
  (.aand, false, fun _ o b _ => o &&& b),
  (.aor, false, fun _ o b _ => o ||| b),
  (.axor, false, fun _ o b _ => o ^^^ b),
  (.aswp, false, fun _ _ b _ => b),
  (.acas, false, fun _ o b e => if o = e then b else o),
  (.aminu, true, fun _ o b _ => if b.ult o then b else o),
  (.amaxu, true, fun _ o b _ => if o.ult b then b else o)]

/-- The access of an atomic: read and write, naturally aligned (R175, R176). -/
def atomAcc (f : MemF) (s : State) : Acc1 :=
  { lane := 0, va := ea f s, n := sizeBytes f.sz, kind := 2, aligned := true }

/-- The package as an atomic finds it: every earlier store of the context performed, then the walks (R176). -/
def atomState (f : MemF) (s : State) : State := s.drainMe.touchAcc s.cur.core s.myTask (atomAcc f s)

/-- The old value an atomic pushes: its tag is INT32 or INT64 by its size; 32 bits are sign-extended, for the unsigned ones
zero-extended (R175). -/
def atomOldVal (f : MemF) (s : State) (zx : Bool) : SVal :=
  let a := atomAcc f s
  let s0 := atomState f s
  let x := leNat (readBytes s0 a true)
  { v := if f.sz = .word ∧ zx = false then (BitVec.ofNat 32 x).signExtend 64 else BitVec.ofNat 64 x
    tag := if f.sz = .word then .int32 else .int64
    poison := if readBad s0 a true then some a.va else none }

/-- The new value of an atomic at its size. -/
def atomNew (f : MemF) (s : State) (fn : ∀ n : Nat, BitVec n → BitVec n → BitVec n → BitVec n) : Word :=
  let x := leNat (readBytes (atomState f s) (atomAcc f s) true)
  let e := s.val (dregAsOperand f.d)
  if f.sz = .word then (fn 32 (BitVec.ofNat 32 x) ((s.val f.b).setWidth 32) (e.setWidth 32)).setWidth 64
  else fn 64 (BitVec.ofNat 64 x) (s.val f.b) e

/-- The package after the write of an atomic: its bytes performed at once; a poisoned line is not written (R176, R179). -/
def atomWritten (f : MemF) (s : State) (fn : ∀ n : Nat, BitVec n → BitVec n → BitVec n → BitVec n) : State :=
  let s0 := atomState f s
  if readBad s0 (atomAcc f s) true then s0
  else s0.performEnt s.cur.core (.store (storeCells s0 (atomAcc f s) (atomNew f s fn)))

/-- The vector loads of elements with their address form (R173, R174). -/
def vloads : List ((MemF → Instr) × VAddr) := [(.vld, .contiguous), (.vlds, .strided), (.vldx, .indexed)]

/-- The address of element `j` of a vector access of `n` bytes: base + disp + j n, base + j disp, or base + disp + index n,
with none for an index of all ones and for a lane above 63 (R172-R174). -/
def elemAddr (f : MemF) (k : VAddr) (n : Nat) (s : State) (j : Nat) : Option Word :=
  let d : Word := (f.disp.extractLsb' 0 18).signExtend 64
  match k with
  | .contiguous => some (s.val f.a + d + BitVec.ofNat 64 (j * n))
  | .strided => some (s.val f.a + BitVec.ofNat 64 j * d)
  | .indexed =>
    let x := lane 32 (s.rdV .int32 f.b).v j
    if 64 ≤ j ∨ x = BitVec.allOnes 32 then none else some (s.val f.a + d + BitVec.ofNat 64 (x.toNat * n))

/-- The active elements of a vector access: lane and address. -/
def elems (f : MemF) (k : VAddr) (t : Tag) (s : State) : List (Nat × Word) :=
  (List.range (2048 / tagWidth t)).filterMap (fun j =>
    if s.me.guardBit f.g j then (elemAddr f k (tagWidth t / 8) s j).map (fun v => (j, v)) else none)

/-- The accesses of the elements; a contiguous access must lie inside the scratchpad or outside it as a whole (R165). -/
def elemAccs (k : VAddr) (n kind : Nat) (els : List (Nat × Word)) (s : State) : List Acc1 :=
  let own (v : Word) : Bool := (s.ownOff s.cur.core v).isSome
  els.map (fun e => { lane := e.1, va := e.2, n := n, kind := kind,
                      mixed := k == .contiguous && els.any (fun x => own x.2) && els.any (fun x => !own x.2) })

/-- The index vector carries INT32 (R174). -/
abbrev IndexOk (s : State) (f : MemF) (k : VAddr) : Prop :=
  k = .indexed → isSpecial f.b = false → (s.rdV .int64 f.b).tag = .int32

/-- The element of a lane among loaded elements; a lane not loaded is zero (R172). -/
def loadedLane (l : List (Nat × Nat)) (w j : Nat) : BitVec w :=
  match l.find? (fun e => e.1 == j) with
  | some e => BitVec.ofNat w e.2
  | none => 0

/-- The vector stores with their address form, their data operand and its field (R173, R174). -/
def vstores : List ((MemF → Instr) × VAddr × (MemF → Operand)) :=
  [(.vst, .contiguous, fun f => f.b), (.vsts, .strided, fun f => f.b), (.vstx, .indexed, fun f => dregAsOperand f.d)]

/-- The package after the walks of the elements of a store. -/
def walked (s : State) (n kind : Nat) (els : List (Nat × Word)) : State :=
  els.foldl (fun x e => x.touchAcc x.cur.core x.myTask { lane := e.1, va := e.2, n := n, kind := kind }) (s.implicitMark false)

/-- The bytes that the element of a lane stores. -/
def elemCells (s : State) (n : Nat) (data : VWord) (e : Nat × Word) : List (Loc × Byte) :=
  (s.locs s.cur.core s.myTask e.2 n true).zip
    ((List.range n).map (fun k => (lane (8 * n) data e.1).extractLsb' (8 * k) 8))

/-! ### Control (R120-R128) -/

/-- The branches with whether they are taken, their exact target, and what they push. -/
structure Branch where
  ins : BrF → Instr
  cond : BrF → State → Bool
  target : BrF → State → Int
  push : BrF → State → Option SVal

/-- The target of a direct branch: the offset of the word plus 8 disp (R121). -/
def direct (f : BrF) (s : State) : Int := (s.me.pc.toNat : Int) + 8 * f.disp.toInt
/-- The target of an indirect branch: A plus 8 disp (R122). -/
def indirect (f : BrF) (s : State) : Int := (s.val f.a).toInt + 8 * f.disp.toInt
/-- The return offset a call pushes, tagged INT64 (R122). -/
def behind (s : State) : SVal := { v := (s.me.pc + 8#16).setWidth 64, tag := .int64 }

/-- The branches of R121 and R122; a guarded-off CALLI pushes A, a guarded-off CALL zero (R16). -/
def branches : List Branch := [
  ⟨.br, fun _ _ => true, direct, fun _ _ => none⟩,
  ⟨.brz, fun f s => s.val f.a == 0, direct, fun _ _ => none⟩,
  ⟨.brnz, fun f s => s.val f.a != 0, direct, fun _ _ => none⟩,
  ⟨.call, fun _ _ => true, direct, fun f s => some (if s.active f.g then behind s else { v := 0, tag := .int64 })⟩,
  ⟨.calli, fun _ _ => true, indirect, fun f s =>
    some (if s.active f.g then behind s else { v := s.val f.a, tag := (s.rdS .int64 f.a).tag })⟩,
  ⟨.ret, fun _ _ => true, indirect, fun _ _ => none⟩,
  ⟨.jmpi, fun _ _ => true, indirect, fun _ _ => none⟩]

/-- Whether a branch is taken: active, and its condition holds (R120). -/
def Branch.takes (b : Branch) (f : BrF) (s : State) : Bool := s.active f.g && b.cond f s

/-- A target that R7 allows: a multiple of eight inside the instruction scratchpad. -/
abbrev legalTarget (x : Int) : Prop := 0 ≤ x ∧ x < 65536 ∧ x % 8 = 0

/-- The stage predicates after a LOOP that shifts `n`: p1 takes the new mask, each of p2 to pn the one below it, the
others keep theirs (R123). -/
def stagePred (s : State) (n : Nat) (new : PMask) (r : Fin 16) : PMask :=
  if r.val = 0 ∨ n < r.val then s.me.pred r
  else if r.val = 1 then new else s.me.pred ⟨r.val - 1, by omega⟩

/-- The bases after a LOOP that rotates `n` of them: b0 takes b(n-1), each other one of them its predecessor (R123). -/
def stageBase (s : State) (n : Nat) (r : Fin 8) : Word :=
  if n < 2 ∨ n ≤ r.val then s.me.files.b.get r
  else if r.val = 0 then s.me.files.b.get (Fin.ofNat 8 (n - 1)) else s.me.files.b.get ⟨r.val - 1, by omega⟩

/-! ### Control registers (R22, R193-R195) -/

/-- The cycles since a waiting op issued. -/
def waited (s : State) : Nat := if s.me.waits.waiting then s.me.waits.since else 0

/-- A field of a control register: `w` bits at bit `pos`. -/
def at64 (pos w v : Nat) : Word := (BitVec.ofNat w v).setWidth 64 <<< pos
/-- A one-bit field. -/
def bit64 (pos : Nat) (b : Bool) : Word := if b then BitVec.twoPow 64 pos else 0

/-- The field of EDDYSTAT of a bank, at bit `pos` (R296). -/
def bankField (pos : Nat) (b : EddyBank) : Word :=
  at64 (pos + 8) 8 b.exit ||| bit64 (pos + 5) b.rev ||| bit64 (pos + 4) b.origin |||
  at64 pos 3 (match b.st with | .free => 0 | .run => 1 | .revoking => 2 | .parked => 3 | .ending => 4 | .saving => 5)

/-- The completion ring of the running context's task on its die that a register number names (R351). -/
def ringAt (n : Nat) (s : State) : Option Ring :=
  (s.me.task.bind s.task).bind (fun t => t.rings.find? (fun r => r.die == s.cur.core / 768 && r.num == n % 4))

/-- The value of a control register (R22-R25, R41, R193-R195, R203, R294, R296, R340, R351, R360, R362, R368, R389, R436). -/
def csrVal (n : Nat) (s : State) : Word :=
  let c := s.me
  let k := s.cluster (s.cur.core / 16)
  let d := s.die (s.cur.core / 768)
  let l := s.myCore.lend.cfg
  match n with
  | 0x000 => BitVec.ofNat 64 (4 * s.cur.core + s.cur.ctx)
  | 0x001 => BitVec.ofNat 64 c.csr.mmrev
  | 0x002 => c.csr.fpctl.setWidth 64
  | 0x003 => c.csr.fpstat.setWidth 64
  | 0x004 => BitVec.ofNat 64 c.csr.weira
  | 0x005 => BitVec.ofNat 64 c.csr.weirw
  | 0x006 => BitVec.ofNat 64 c.csr.weirf
  | 0x007 => BitVec.ofNat 64 c.csr.weirc
  | 0x008 => c.csr.cycles - BitVec.ofNat 64 (waited s)
  | 0x009 => at64 32 16 (if s.myCore.copyBud = 0xFFFF then 0xFFFF else s.myCore.copyLeft / 64) |||
      at64 16 16 c.csr.niLeft ||| at64 0 16 c.csr.issueLeft
  | 0x00A => c.csr.rngseed
  | 0x00B => c.csr.privbase
  | 0x00C => bit64 0 c.csr.discard
  | 0x010 => c.tr.cause.setWidth 64
  | 0x011 => c.tr.pc.setWidth 64
  | 0x012 => c.tr.slot.setWidth 64
  | 0x013 => c.tr.info0
  | 0x014 => c.tr.info1
  | 0x015 => c.tr.vec.setWidth 64 ||| bit64 0 c.tr.noh
  | 0x016 => c.tr.epc.setWidth 64
  | 0x017 => at64 16 3 c.tr.res ||| at64 8 5 c.tr.blen.toNat ||| bit64 5 c.tr.eng ||| bit64 4 c.tr.dt |||
      bit64 3 (decide (c.pend ≠ [] ∨ c.notice ≠ none)) ||| bit64 1 c.tr.wake ||| bit64 0 c.tr.hm
  | 0x020 => bit64 31 l.active ||| bit64 30 l.busy ||| bit64 25 l.auto ||| bit64 24 l.keep ||| at64 16 7 l.share |||
      at64 8 8 l.count ||| at64 0 7 l.start
  | 0x021 => bankField 48 (s.myCore.bank 3) ||| bankField 32 (s.myCore.bank 2) ||| bankField 16 (s.myCore.bank 1)
  | 0x022 => at64 8 2 c.nxHead ||| at64 4 3 c.nx.length ||| at64 0 3 (c.nx.filter (fun e => e.due == 0)).length
  | 0x200 => bit64 63 d.sealed ||| at64 16 32 (d.refresh / 16) ||| at64 4 11 ((s.master - 1) % 1600) ||| at64 0 4 (d.refresh % 16)
  | 0x220 => at64 32 16 (joinNat 1 ((List.range 16).map (fun i => if (i + 1) * k.keep / 16 - i * k.keep / 16 = 1 then 1 else 0))) |||
      at64 16 6 k.cool ||| at64 8 7 k.permits ||| bit64 7 k.fall ||| bit64 5 k.grant ||| at64 0 5 k.keep
  | 0x221 => at64 32 5 k.kis ||| at64 24 5 k.kps ||| at64 0 22 k.bud
  | 0x230 => at64 32 12 s.boot.pkg ||| s.fab.up.setWidth 64
  | n =>
    match ringAt n s with
    | none => 0
    | some r => if n < 0x214 then (r.base >>> 12 <<< 12) ||| bit64 5 true ||| at64 0 5 r.log
                else at64 32 32 r.tail ||| at64 0 32 r.head

/-- The numbers of the control registers (R22, R195, R340, R351, R360, R362, R436). -/
def csrNumbers : List Nat :=
  [0x000, 0x001, 0x002, 0x003, 0x004, 0x005, 0x006, 0x007, 0x008, 0x009, 0x00A, 0x00B, 0x00C, 0x010, 0x011, 0x012, 0x013,
   0x014, 0x015, 0x016, 0x017, 0x020, 0x021, 0x022, 0x200, 0x210, 0x211, 0x212, 0x213, 0x214, 0x215, 0x216, 0x217, 0x220,
   0x221, 0x230]

/-- The three writes of R195: what they store over `old` with operand `v`, and whether they write a one to a W1C bit. -/
def csrWrites : List ((SysF → Instr) × (Word → Word → Word) × Bool) :=
  [(.csrw, fun _ v => v, true), (.csrs, fun old v => old ||| v, true), (.csrc, fun old v => old &&& ~~~v, false)]

/-- The context after storing `x` in one of its writable registers, with `v` the operand and `one` whether a one in it
clears a W1C bit; reserved bits stay zero, offsets keep their low bits zero, and RM 7 stores 0 (R22, R41, R193-R195). -/
def csrStored (n : Nat) (x v : Word) (one : Bool) (c : Ctx) : Ctx :=
  let low (w : Nat) : BitVec w := x.setWidth w
  match n with
  | 0x002 =>
    let y : BitVec 12 := low 12 &&& 0xFE7#12
    { c with csr := { c.csr with fpctl := if y.extractLsb' 0 3 = 7#3 then y &&& 0xFF8#12 else y } }
  | 0x003 => { c with csr := { c.csr with fpstat := low 7 } }
  | 0x00A => { c with csr := { c.csr with rngseed := x } }
  | 0x00C => { c with csr := { c.csr with discard := c.csr.discard && !(one && v.getLsbD 0) } }
  | 0x010 => { c with tr := { c.tr with cause := low 7 } }
  | 0x011 => { c with tr := { c.tr with pc := low 16 &&& 0xFFF8#16 } }
  | 0x012 => { c with tr := { c.tr with slot := low 5 } }
  | 0x013 => { c with tr := { c.tr with info0 := x } }
  | 0x014 => { c with tr := { c.tr with info1 := x } }
  | 0x015 => { c with tr := { c.tr with vec := low 16 &&& 0xFFF8#16, noh := x.getLsbD 0 } }
  | 0x016 => { c with tr := { c.tr with epc := low 16 &&& 0xFFF8#16 } }
  | 0x017 => { c with tr := { c.tr with wake := x.getLsbD 1, dt := c.tr.dt && !(one && v.getLsbD 4) } }
  | _ => c

/-- The registers of a context that any mode writes (R22). -/
def userCsrs : List Nat := [0x002, 0x003, 0x00A, 0x00C]
/-- The registers of a context that handler mode alone writes (R22). -/
def trapCsrs : List Nat := [0x010, 0x011, 0x012, 0x013, 0x014, 0x015, 0x016, 0x017]
/-- The registers that nothing writes (R22). -/
def roCsrs : List Nat :=
  [0x000, 0x001, 0x004, 0x005, 0x006, 0x007, 0x008, 0x009, 0x00B, 0x021, 0x022, 0x200, 0x210, 0x211, 0x212, 0x213, 0x220,
   0x221, 0x230]

/-- The operand of a CSR write: A OR IMM14 (R195). -/
def csrOpd (f : SysF) (s : State) : Word := s.val f.a ||| f.imm.setWidth 64

/-! ### Weirs and the generator (R47, R214, R215) -/

/-- The upper limit of WEIRA in a context (R210, R214, R295). -/
def weiraHi (s : State) : Nat :=
  if s.cur.ctx % 4 ≠ 0 then (s.myCore.bank s.cur.ctx).share
  else if s.myCore.lend.cfg.active then s.me.csr.weirc - s.myCore.lend.cfg.share else s.me.csr.weirc

/-- A value WEIRA takes, and one WEIRW takes (R214). -/
abbrev weiraTakes (s : State) (v : Word) : Prop := s.me.csr.weirf ≤ v.toNat ∧ v.toNat ≤ weiraHi s
/-- A value WEIRW takes. -/
abbrev weirwTakes (s : State) (v : Word) : Prop := s.me.csr.weirf ≤ v.toNat ∧ v.toNat ≤ 768

/-- The old weirs that WEIRSET pushes: WEIRA in [6:0], WEIRW in [25:16] (R214). -/
def oldWeirs (s : State) : SVal :=
  { v := ((BitVec.ofNat 10 s.me.csr.weirw).setWidth 64 <<< 16) ||| (BitVec.ofNat 7 s.me.csr.weira).setWidth 64, tag := .int64 }

/-- The weir writers with what they check and write (R214). -/
def weirs : List ((SysF → Instr) × (SysF → State → Bool) × (SysF → State → Csrs)) := [
  (.weirset, fun f s => decide (weiraTakes s (s.val f.a) ∧ weirwTakes s (s.val f.b)),
    fun f s => { s.me.csr with weira := (s.val f.a).toNat, weirw := (s.val f.b).toNat }),
  (.weirsetBa, fun f s => decide (weiraTakes s (s.val f.a)), fun f s => { s.me.csr with weira := (s.val f.a).toNat }),
  (.weirsetWa, fun f s => decide (weirwTakes s (s.val f.a)), fun f s => { s.me.csr with weirw := (s.val f.a).toNat })]

/-- The word popped from a generator state and the state after it (R47). -/
def popped (x : Word) : Word × Word :=
  let y := x + 0x9E3779B97F4A7C15#64
  let z := (y ^^^ (y >>> 30)) * 0xBF58476D1CE4E5B9#64
  let z := (z ^^^ (z >>> 27)) * 0x94D049BB133111EB#64
  (z ^^^ (z >>> 31), y)

/-- The value a guarded-off op with operand A pushes: A with its tag (R16). -/
def offA (s : State) (o : Operand) : SVal := { v := s.val o, tag := (s.rdS .int64 o).tag }

/-- The access of a WAITEV: an aligned dword of the scratchpad (R126). -/
def waitAcc (f : SysF) (s : State) : Acc1 := { lane := 0, va := s.val f.a, n := 8, kind := 0 }

/-- The dword a WAITEV finds, a load of its context (R126). -/
def waitWord (f : SysF) (s : State) : Word :=
  BitVec.ofNat 64 (leNat ((List.range 8).map (fun k =>
    (accessed s true (waitAcc f s)).memByte s.cur.core (.spad ((s.val f.a).toNat + k)))))

/-! ### Tokens and commands (R271-R274) -/

/-- The tokens of an op let it issue: no in-token's command has ended with a fault that is to be reported, and the out
token is free, or is consumed by the op and DONE (R183, R272, R273). -/
abbrev TokensReady (s : State) (ins : List Tok) (out : Tok) : Prop :=
  (∀ k ∈ inToks ins, (s.me.tok.get k).live = true → (s.me.tok.get k).done = true → (s.me.tok.get k).fault = none) ∧
  ∀ k, out = .k k → (s.me.tok.get k).done = true ∧ (k ∈ inToks ins ∨ (s.me.tok.get k).live = false)

/-- The tokens after an op: the in-tokens are no longer LIVE, the out token is LIVE with a new command (R272, R273). -/
def tokensAfter (c : Ctx) (ins : List Tok) (out : Tok) (id : Nat) (done : Bool) : Ctx :=
  { c with tok := Vector.ofFn (fun k =>
      if out = .k k then { live := true, done := done, cmd := id }
      else if k ∈ inToks ins then { c.tok.get k with live := false } else c.tok.get k) }

/-- The standing set after an op: the intervals of consumed tokens end, and its own weight, if it has one, is added (R203,
R204). -/
def standing (c : Ctx) (ins : List Tok) (out : Tok) (wt : Nat) (acc : Option Nat) : Ctx :=
  { c with standing := c.standing.filter (fun x => x.tok == .none || !ins.contains x.tok) ++
      if wt = 0 then [] else [⟨wt, out, acc⟩] }

/-- The command an op queues: it waits for the commands of its in-tokens that have not ended (R272, R275, R282). -/
def newCmd (s : State) (ins : List Tok) (out : Tok) (kind : CmdKind) : Cmd :=
  { id := s.nextId, ctx := s.cur.ctx, tok := out, kind := kind, issued := s.eff s.cur.core
    deps := (inToks ins).zipIdx.filterMap (fun p =>
      let k := s.me.tok.get p.1
      if k.done then none else some (p.2, k.cmd)) }

/-- The package with a command more on the running core, every earlier store of the context performed (R276). -/
def withCmd (s : State) (c : Cmd) : State :=
  ({ s.drainMe with nextId := s.nextId + 1 } : State).updMyCore (fun x => { x with cmds := x.cmds ++ [c] })

/-- An op has queued its command: besides that and what `upd` changes in its core, only tokens and the standing set
changed. -/
def Queued (s t : State) (i : Instr) (ins : List Tok) (out : Tok) (wt : Nat) (acc : Option Nat) (kind : CmdKind)
    (upd : CoreState → CoreState) : Prop :=
  let s0 := (withCmd s (newCmd s ins out kind)).updMyCore upd
  StepsAs s0 (standing (tokensAfter s0.me ins out s.nextId false) ins out wt acc) t i 0 ∧ RegsKept s.me t

/-- An op that does no work: its in-tokens are consumed, its out token is DONE (R17, R272). -/
def Consumed (s t : State) (i : Instr) (ins : List Tok) (out : Tok) (wt : Nat) (acc : Option Nat) : Prop :=
  StepsAs s (standing (tokensAfter s.me ins out 0 true) ins out wt acc) t i 0 ∧ RegsKept s.me t

/-- The context is its core's owner. -/
abbrev Owner (s : State) : Prop := s.cur.ctx % 4 = 0

/-- A slot that an op names neither makes its bundle wait nor fails row 7: its stripe has power, it is neither FILLING nor
DRAINING nor in a region being revoked, and it is not EMPTY where it is read (R226, R304). -/
abbrev SlotFree (s : State) (n : Nat) (reads : Bool) : Prop :=
  s.myCore.gated (4096 * n) = false ∧ (s.myCore.tile n).st ≠ .filling ∧ (s.myCore.tile n).st ≠ .draining ∧
  s.myCore.ownerBlocked (4096 * n) = false ∧ (reads = true → (s.myCore.tile n).st ≠ .empty)

/-! ### Tiles (R223-R239) -/

/-- The in-tokens of a TILE op. -/
abbrev tins (f : TileF) : List Tok := [f.i1, f.i2, f.i3]
/-- The tag that a TILE field names. -/
abbrev tagAt (x : BitVec 7) : Tag := tagOf (x.toNat % 16)

/-- The whole-tile writers with the other slot they read and with their commands (R234-R236); TCLASS reads its own. -/
def fillers : List ((TileF → Instr) × (TileF → List Nat) × (TileF → State → CmdKind)) := [
  (.tzero, fun _ => [], fun f _ => .tzero f.d.toNat (if f.a.toNat % 16 = 15 then none else some (tagAt f.a))),
  (.tfill, fun _ => [], fun f s => .tfill f.d.toNat (tagAt f.b) (s.rdS (tagAt f.b) (operandOf f.a)).v),
  (.tident, fun _ => [], fun f _ => .tident f.d.toNat (tagAt f.a)),
  (.tclass, fun f => [f.d.toNat], fun f _ => .tclass f.d.toNat),
  (.tcopy, fun f => [f.a.toNat], fun f _ => .tcopy f.d.toNat f.a.toNat),
  (.mdrain, fun _ => [], fun f _ => .mdrain f.a.toNat (tagAt f.b) f.mode.toNat f.d.toNat)]

/-- The tags MDRAIN delivers from a bank (R265): from FP32 also the 16-bit formats, from FP64 also FP32. -/
def drainTags (b : Bank) : List Tag := if b.fp64 then [.fp64, .fp32] else [.fp32, .fp16, .bf16]
/-- The visible bank of an accumulator. -/
def visible (s : State) (n : Nat) : Bank := (s.myCore.accs.get (Fin.ofNat 4 n)).vis

/-- Entering FILLING (R225). -/
def filling (n : Nat) (x : CoreState) : CoreState :=
  x.updTile n (fun e => { e with st := .filling, spoil := false, nf := false })

/-- The entry after TTAG (R237): a known zero keeps its class under every tag but UNDEF, every other tile is GENERAL, and
NF is clear under a tag that has no non-finite values, or for known zeros. -/
def retagged (t : Tag) (e : TileEnt) : TileEnt :=
  { e with tag := t, st := .ready
           cls := if e.cls = .zero ∧ t ≠ .undef then .zero else .general
           nf := decide (e.cls ≠ .zero) && (isFpTag t || t == .scale8) }

/-- The tile-table word of R223: tag in [9:6], NF in [5], class in [4:3], SPOIL in [2], state in [1:0]. -/
def entryWord (e : TileEnt) : Word :=
  BitVec.ofNat 64 (tagCode e.tag) <<< 6 ||| (if e.nf then 32 else 0) |||
  (match e.cls with | .zero => 0 | .const => 8 | .ident => 16 | .general => 24) ||| (if e.spoil then 4 else 0) |||
  (match e.st with | .empty => 0 | .filling => 1 | .ready => 2 | .draining => 3)

/-! ### The matrix unit (R244-R268) -/

/-- The pairings of tags that the array multiplies (R244). -/
def pairs : List (Tag × Tag) :=
  [(.fp16, .fp16), (.bf16, .bf16), (.fp32, .fp32), (.fp64, .fp64), (.e4m3, .e4m3), (.e4m3, .e5m2), (.e5m2, .e4m3),
   (.e5m2, .e5m2)]

/-- The tags and the source of a global word pass (R248): a pairing of R244, BSRC at most 2, and elements of at most 16
bits where B comes from the weight buffer. -/
abbrev tagsPass (w : Word) : Prop :=
  (tagOf (w.extractLsb' 24 4).toNat, tagOf (w.extractLsb' 20 4).toNat) ∈ pairs ∧ (w.extractLsb' 18 2).toNat < 3 ∧
  ((w.extractLsb' 18 2).toNat = 0 ∨
    (tagWidth (tagOf (w.extractLsb' 24 4).toNat) ≤ 16 ∧ tagWidth (tagOf (w.extractLsb' 20 4).toNat) ≤ 16))

/-- A word MCFG takes (R248): a level word with [23:0] zero, or a global word with its reserved bits zero, 1 to 6 levels
and tags that pass. -/
abbrev cfgPasses (n : Nat) (w : Word) : Prop :=
  if n = 6 then
    w.extractLsb' 41 23 = 0 ∧ w.extractLsb' 28 4 = 0 ∧ w.getLsbD 7 = false ∧ 1 ≤ (w.extractLsb' 15 3).toNat ∧
    (w.extractLsb' 15 3).toNat ≤ 6 ∧ tagsPass w
  else w.extractLsb' 0 24 = 0

/-- The shadow global word. -/
def glob (s : State) : Word := s.myCore.shadow.get 6
/-- The sequencer holds fewer than eight commands (R250). -/
abbrev SeqRoom (s : State) : Prop := (s.myCore.cmds.filter (fun c => c.kind.isSeq)).length < 8

/-- The sequencer commands, MSTEP apart, with the weight that stands after them and what they check (R261, R266, R267). -/
def seqOps : List ((TileF → Instr) × Nat × (State → Prop) × (TileF → State → CmdKind)) := [
  (.mgo, 36, fun s => (glob s).extractLsb' 15 3 ≠ 0, fun f s =>
    .mgo f.d.toNat (glob s) ((List.range 6).map (fun n => s.myCore.shadow.get (Fin.ofNat 7 n)))),
  (.mzero, 0, fun _ => True, fun f _ => .mzero f.d.toNat (decide (f.a = 11))),
  (.mwload, 0, fun _ => True, fun f s =>
    .mwload (s.val (operandOf f.d)) (s.val (operandOf f.a)) (s.val (operandOf f.b)))]

/-! ### Copies (R282-R291, R349-R353) -/

/-- The in-tokens of an ENGINE op. -/
abbrev eins (f : EngF) : List Tok := [f.i1, f.i2, f.i3]

/-- The bytes of a CPY, and of a CPY2D: its rows times their length (R283, R284). -/
def bytesOf (two : Bool) (c : Word) : Nat :=
  if two then ((c.extractLsb' 16 16).toNat + 1) * (c.extractLsb' 0 16).toNat else c.toNat

/-- The copies with whether they have a shape (R283). -/
def copies : List ((EngF → Instr) × Bool) := [(.cpy, false), (.cpy2d, true)]

/-- The command of a copy: its operands as they stand, its kind, and the tag that kind 1 writes (R283). -/
def copyCmd (f : EngF) (two : Bool) (s : State) : CmdKind :=
  .cpy two (s.val f.a) (s.val f.b) (s.val f.c) (f.mode.toNat % 4)
    (if f.mode.toNat / 4 = 15 then none else some (tagOf (f.mode.toNat / 4)))

/-- A copy of kind 1 to 3 has its tile side, at byte `o`, in whole slots of the own scratchpad, in one run (R285). -/
abbrev WholeSlots (f : EngF) (two : Bool) (s : State) (o : Nat) : Prop :=
  let n := bytesOf two (s.val f.c)
  let stride := if f.mode.toNat % 4 = 1 then (s.val f.c).extractLsb' 32 16 else (s.val f.c).extractLsb' 48 16
  s.ownOff s.cur.core (if f.mode.toNat % 4 = 1 then s.val f.a else s.val f.b) = some o ∧
  o % 4096 = 0 ∧ n % 4096 = 0 ∧ o + n ≤ 0x80000 ∧
  (two = true → 16 * stride.toInt = ((s.val f.c).extractLsb' 0 16).toNat)

/-- The slots a copy covers at its tile side. -/
def runSlots (o n : Nat) : List Nat := (List.range (n / 4096)).map (· + o / 4096)

/-- The covered slots at retirement: FILLING under kind 1, DRAINING under kinds 2 and 3 (R285). -/
def covered (kind : Nat) (l : List Nat) (x : CoreState) : CoreState :=
  l.foldl (fun x n => x.updTile n (fun e =>
    if kind = 1 then { e with st := .filling, spoil := false, nf := false } else { e with st := .draining })) x

/-- A DCPY's command on the engine that runs it (R349). -/
def onEngine (id : Nat) (e : Nat × Nat) (x : CoreState) : CoreState :=
  { x with cmds := x.cmds.map (fun c => if c.id == id then { c with eng := e } else c) }

/-- The copy port holds fewer than 16 commands (R282). -/
abbrev CopyRoom (s : State) : Prop := (s.myCore.cmds.filter (fun c => c.kind.isCopy)).length < 16

/-- The entries that a CSTAGE replays: armed, those whose STAGE is at most SC, and above SC - T (R288, R289). -/
def staged (s : State) : List (Nat × SchedEnt) :=
  if s.me.armed then
    (s.myCore.sched.zipIdx.filter (fun p => decide (p.1.stage ≤ s.me.sc.toNat) &&
      decide (s.me.sc.toNat < p.1.stage + s.me.t.toNat))).map (fun p => (p.2, p.1))
  else []

/-- A CSTAGE's own command, where an entry copies at least a byte; else its token is DONE at once (R284, R289). -/
def ownStage (s : State) (f : EngF) (works : Bool) : State :=
  if works then
    (withCmd s (newCmd s (eins f) f.out .stage)).updMe (fun c =>
      standing (tokensAfter c (eins f) f.out s.nextId false) (eins f) f.out 6 none)
  else s.updMe (fun c => standing (tokensAfter c (eins f) f.out 0 true) (eins f) f.out 6 none)

/-- A replayed copy and its CSTAGE: the copy waits for what CSTAGE's in-tokens name, and CSTAGE's command for the copy
(R289). -/
def joined (s : State) (f : EngF) (entry id : Nat) (x : CoreState) : CoreState :=
  let gates := (newCmd s (eins f) f.out .stage).deps.map (fun d => (d.1 + 3, d.2))
  let copy (c : Cmd) : Cmd := if c.id == id then { c with deps := c.deps ++ gates, fromSched := true } else c
  let own (c : Cmd) : Cmd := if c.id == s.nextId then { c with deps := c.deps ++ [(3 + entry, id)] } else c
  { x with cmds := (x.cmds.map copy).map own }

/-- The package `u` after the replay of entry `e.1`, a CPY or with `e.2.1` a CPY2D, its operands read in `s`: its command is
queued and joined to CSTAGE's, the slots it covers move on; a copy of nothing has its token DONE (R276, R284, R285, R289). -/
def replayed (s : State) (f : EngF) (u : State) (e : Nat × Bool × EngF) : State :=
  let g := e.2.2
  let k := g.mode.toNat % 4
  let n := bytesOf e.2.1 (s.val g.c)
  if n = 0 then u.updMe (fun c => standing (tokensAfter c (eins g) g.out 0 true) (eins g) g.out 0 none)
  else
    let o := (s.ownOff s.cur.core (if k = 1 then s.val g.a else s.val g.b)).getD 0
    ((withCmd u (newCmd u (eins g) g.out (copyCmd g e.2.1 s))).updMe (fun c =>
      standing (tokensAfter c (eins g) g.out u.nextId false) (eins g) g.out 0 none)).updMyCore
        (fun x => joined s f e.1 u.nextId (if k = 0 then x else covered k (runSlots o n) x))

/-- The package after a CSTAGE and the replays of its entries in entry order (R289). -/
def cstaged (s : State) (f : EngF) (l : List (Nat × Bool × EngF)) : State :=
  l.foldl (replayed s f) (ownStage s f (l.any (fun e => bytesOf e.2.1 (s.val e.2.2.c) != 0)))

/-- The instruction of an entry's word. -/
abbrev entryOp (e : Bool × EngF) : Instr := if e.1 then .cpy2d e.2 else .cpy e.2

/-! ### Remote access (R310-R326, R349-R353) -/

/-- A range of the own scratchpad, and in the lent region for a firmware-bound eddy (R306, R311). -/
abbrev LocalRange (s : State) (va : Word) (n : Nat) : Prop :=
  va.toNat + n ≤ 0x80000 ∧
  (s.myCore.fwEddy s.cur.ctx = true → s.isolated s.cur.core s.cur.ctx va.toNat n = false)
/-- A range of one scratchpad, the own or another, that an address names in one of its two forms (R311). -/
abbrev RemoteRange (s : State) (va : Word) (n : Nat) : Prop :=
  ∃ p, s.place s.cur.core va = some p ∧ p.off + n ≤ 0x80000
/-- A barrier object of the issuing cluster (R328). -/
abbrev ObjectAt (s : State) (va : Word) : Prop :=
  va.toNat % 16 = 0 ∧ ∃ p, s.place s.cur.core va = some p ∧ p.pkg = s.boot.pkg ∧ p.core / 16 = s.cur.core / 16

/-- The network interface has room: fewer than 32 commands of the owner, or than 16 of the eddies (R316). -/
abbrev NiRoom (s : State) : Prop :=
  (s.myCore.cmds.filter (fun c => c.kind.isNi && ((c.ctx == 0) == (s.cur.ctx % 4 == 0)))).length <
    (if s.cur.ctx % 4 = 0 then 32 else 16)
/-- `n` requests are left of the NI budget (R366). -/
abbrev NiBudget (s : State) (n : Nat) : Prop := s.me.csr.niLeft = 0xFFFF ∨ n ≤ s.me.csr.niLeft

/-- A valid layout descriptor (R322): ESZ at most 8, a span of 1 to 16 cores inside a cluster, a cluster of a die. -/
abbrev validDesc (d : Word) : Prop :=
  d.extractLsb' 55 9 = 0 ∧ (d.extractLsb' 28 3).toNat ≤ 4 ∧ (d.extractLsb' 19 4).toNat ≤ 8 ∧
  (d.extractLsb' 35 6).toNat ≤ 47 ∧ (d.extractLsb' 31 4).toNat + 2 ^ (d.extractLsb' 28 3).toNat ≤ 16

/-- The turns a route word gives. -/
def turns (r : Option RouteF) : Option (BitVec 52) := r.map (·.turns)

/-- The queued NI ops: their requests, their standing weight, what their operands satisfy, and their commands. -/
def remotes : List ((EngF → Option RouteF → Instr) × (EngF → Nat) × Nat × (EngF → State → Prop) ×
    (EngF → Option RouteF → State → CmdKind)) := [
  (.rget, fun _ => 1, 0, fun f s => s.val f.c ≠ 0 ∧ LocalRange s (s.val f.a) (s.val f.c).toNat ∧
      RemoteRange s (s.val f.b) (s.val f.c).toNat,
    fun f r s => .rget (s.val f.a) (s.val f.b) (s.val f.c).toNat (turns r)),
  (.rput, fun _ => 1, 0, fun f s => s.val f.c ≠ 0 ∧ RemoteRange s (s.val f.a) (s.val f.c).toNat ∧
      LocalRange s (s.val f.b) (s.val f.c).toNat,
    fun f r s => .rput (s.val f.a) (s.val f.b) (s.val f.c).toNat (f.mode.getLsbD 0) (turns r)),
  (.rgath, fun f => f.mode.toNat + 1, 4, fun f s =>
      (isSpecial f.b = false → (s.rdV .int32 f.b).tag = .int32) ∧
      LocalRange s (s.val f.a) ((f.mode.toNat + 1) * 2 ^ ((s.val f.c).extractLsb' 19 4).toNat),
    fun f r s => .rgath (s.val f.a).toNat (s.rdV .int32 f.b).v (s.val f.c) (f.mode.toNat + 1) (turns r)),
  (.rscat, fun f => f.mode.toNat + 1, 4, fun f s =>
      (isSpecial f.b = false → (s.rdV .int32 f.b).tag = .int32) ∧
      LocalRange s (s.val f.a) ((f.mode.toNat + 1) * 2 ^ ((s.val f.c).extractLsb' 19 4).toNat),
    fun f r s => .rscat (s.val f.a).toNat (s.rdV .int32 f.b).v (s.val f.c) (f.mode.toNat + 1) (turns r)),
  (.ratom, fun _ => 1, 0, fun f s =>
      let n := if f.mode.getLsbD 4 then 8 else 4
      (s.val f.a).toNat % n = 0 ∧ (s.val f.c).toNat % 8 = 0 ∧ RemoteRange s (s.val f.a) n ∧ LocalRange s (s.val f.c) 8,
    fun f r s => .ratom (s.val f.a) (s.val f.b) (s.val f.c).toNat (f.mode.toNat % 16) (f.mode.getLsbD 4)
      (f.mode.getLsbD 5) (turns r)),
  (.binit, fun _ => 1, 0, fun f s => ObjectAt s (s.val f.a), fun f _ s => .binit (s.val f.a) (s.val f.b)),
  (.barr, fun _ => 1, 0, fun f s => ObjectAt s (s.val f.a), fun f _ s => .barr (s.val f.a) f.mode.toNat)]

/-- The bytes of an MCST: 256 of a vector, or 1, 2, 4 or 8 of a scalar (R325). -/
def mcstLen (f : EngF) : Nat := if f.mode.getLsbD 2 then 256 else 2 ^ (f.mode.toNat % 4)
/-- Its data, lowest byte first. -/
def mcstPayload (f : EngF) (s : State) : List Byte :=
  (List.range (mcstLen f)).map (fun k =>
    if f.mode.getLsbD 2 then (s.rdV .int64 f.b).v.extractLsb' (8 * k) 8 else (s.val f.b).extractLsb' (8 * k) 8)

/-- What a reading of a barrier object decides for a BWAIT (R331): a status, or none where the context sleeps on. An object
that cannot be read, or that BINIT has not written, gives 3, a broken one 2, a phase that has moved 0, a bound that has
passed 1. -/
def bwaitSays (o : Option (BitVec 128)) (phase : Word) (since : Nat) (bound : Word) : Option Nat :=
  match o with
  | none => some 3
  | some o =>
    if o.getLsbD 37 = false then some 3
    else if o.getLsbD 36 = true then some 2
    else if o.extractLsb' 32 4 ≠ phase.extractLsb' 0 4 then some 0
    else if bound.toNat ≤ since then some 1
    else none

/-- The package once the running context has reached the object at an address: its stripe is awake, where the context is not
turned away (R242, R312, R319). -/
def reached (s : State) (a : Word) : State :=
  match s.place s.cur.core a with
  | some p => if (s.core p.core).admits s.me.task p.off 16 then s.updCore p.core (fun x => x.touch p.off (s.eff p.core)) else s
  | none => s

/-- The owner's access to an object does not wait for a region that is being revoked (R304, R308). -/
abbrev ObjectFree (s : State) (a : Word) : Prop :=
  s.cur.ctx % 4 = 0 → ∀ p, s.place s.cur.core a = some p → p.core = s.cur.core → s.myCore.ownerBlocked p.off = false

/-- The package with the SLEEP bit of the running context, bit 64 + core × 4 + context of the object at an address, set or
cleared; an object that cannot be read is left alone (R327, R331). -/
def slept (s : State) (a : Word) (on : Bool) : State :=
  match s.place s.cur.core a, s.readObj a with
  | some p, some o =>
    let b : BitVec 128 := BitVec.twoPow 128 (64 + s.cur.core % 16 * 4 + s.cur.ctx % 4)
    s.writeObj p.core p.off (if on then o ||| b else o &&& ~~~b)
  | _, _ => s

/-- The package once the SLEEP bit that a BWAIT of the running context set is cleared, where one did (R331, R334). -/
def rested (s : State) : State :=
  match s.me.waits.sleptAt with
  | some a => (slept s a false).updMe (fun c => { c with waits := { c.waits with asleep := none, sleptAt := none } })
  | none => s

/-! ### Tokens alone (R277-R281) -/

/-- The flags of the named commands that have ended and whose tokens are LIVE. -/
def namedFlags (c : Ctx) (ins : List Tok) : BitVec 7 :=
  ((inToks ins).map (fun k => if (c.tok.get k).live && (c.tok.get k).done then (c.tok.get k).flags else 0)).foldl (· ||| ·) 0

/-- The context after taking the named tokens: no longer LIVE, their flags in FPSTAT (R277, R279). -/
def taken (c : Ctx) (ins : List Tok) : Ctx :=
  { c with
    tok := Vector.ofFn (fun k =>
      if k ∈ inToks ins ∧ (c.tok.get k).live = true then { c.tok.get k with live := false, flags := 0 } else c.tok.get k)
    csr := { c.csr with fpstat := c.csr.fpstat |||
      ((inToks ins).map (fun k => if (c.tok.get k).live then (c.tok.get k).flags else 0)).foldl (· ||| ·) 0 } }

/-- The context after a TKTEST that finds one of its commands unfinished: the named tokens are no longer LIVE, and an
unfinished command will report for itself (R274, R280). -/
def dropped (c : Ctx) (ins : List Tok) : Ctx :=
  { c with tok := Vector.ofFn (fun k =>
      if k ∈ inToks ins ∧ (c.tok.get k).live = true then { c.tok.get k with live := false, viaTest := !(c.tok.get k).done }
      else c.tok.get k) }

/-! ### Lends and eddies (R293-R305) -/

/-- The lend that A of a LEND asks for (R294, R305). -/
def lendAsked (w : Word) : LendCfg :=
  { active := true, busy := true, auto := w.getLsbD 25, keep := w.getLsbD 24, share := (w.extractLsb' 16 7).toNat,
    count := (w.extractLsb' 8 8).toNat, start := (w.extractLsb' 0 7).toNat }
/-- Two runs of bytes meet. -/
abbrev Meet (a n b m : Nat) : Prop := a < b + m ∧ b < a + n

/-- A lend that LEND accepts: none is in force, a region of at least a slot inside the table, a share that WEIRC leaves
beside WEIRA, and no words that a firmware-bound eddy has pinned in the place of a resident overlay of the owner (R305). -/
abbrev lendAccepts (s : State) (w : Word) : Prop :=
  s.myCore.lend.cfg.active = false ∧ (lendAsked w).count ≠ 0 ∧ (lendAsked w).start + (lendAsked w).count ≤ 128 ∧
  (lendAsked w).share ≠ 0 ∧ s.me.csr.weira + (lendAsked w).share ≤ s.me.csr.weirc ∧
  ∀ p ∈ s.pinned s.cur.core, ∀ r ∈ s.myCore.resid, r.res = true → ¬ Meet p.1 p.2 r.off (8 * r.len)

/-- A lend taken back, cycle 0: it is no longer in force, and a revocation of its banks in RUN has begun (R302). -/
def revoked (s : State) (x : CoreState) : CoreState :=
  let l := x.lend
  { x with
    lend := { l with
      cfg := { l.cfg with active := false }
      rev := l.rev ++ [{ at0 := s.eff s.cur.core, banks := [1, 2, 3].filter (fun k => (x.bank k).st == .run), region := true,
                         keep := l.cfg.keep, start := l.cfg.start, count := l.cfg.count }]
      last := some (l.cfg.start, l.cfg.count) } }

/-- The bank that an EDDY of share `n` starts: the lowest FREE one, where a lend is in force whose share the running eddies
and the new one keep (R305). -/
def bankGranted (s : State) (n : Nat) : Option Nat :=
  let x := s.myCore
  let used := (([1, 2, 3].filter (fun k => (x.bank k).st == .run)).map (fun k => (x.bank k).share)).sum
  if x.lend.cfg.active = true ∧ used + n ≤ x.lend.cfg.share then [1, 2, 3].find? (fun k => (x.bank k).st == .free) else none

/-- The context of a new eddy (R22, R305, R366, R381): its entry, its share in the weirs, B in g24, the image's and the record's
handler; its first bundle issues in the cycle after EDDY's. -/
def newEddy (s : State) (t : Task) (img : Image) (k : Nat) (e : EddyEnt) (arg : Word) : Ctx :=
  { Ctx.reset with
    run := .run, pc := BitVec.ofNat 16 e.entry, task := some t.num
    files := { Ctx.reset.files with g := Vector.ofFn (fun r : Fin 32 => if r.val = 24 then { v := arg, tag := .int64 } else {}) }
    csr := { mmrev := img.mmrev, weirf := e.share, weira := e.share, weirw := min 768 (8 * e.share),
             privbase := t.privOf s.cur.core k, issueBud := s.issueOf t.part, issueLeft := s.issueOf t.part
             niBud := s.niOf t.part, niLeft := s.niOf t.part }
    waits := { wakeIn := 1 }
    tr := { vec := BitVec.ofNat 16 (recHandler t.record) &&& 0xFFF8#16, noh := recNoh t.record } }

/-! ### Launches (R384-R390) -/

/-- The package as a launch finds it: the context's stores performed, then the walks of the read (R344, R384). -/
def launchState (s : State) (va : Word) : State :=
  s.drainMe.touchAcc s.cur.core s.myTask { lane := 0, va := va, n := 128, kind := 0 }

/-- The task table after a launch of record `r` by task `k`: one launch more counted, the new task pending behind it, its
pool entry taken (R377, R378, R384). -/
def launched (s : State) (k : Task) (r : List Word) : State :=
  let s1 := s.updTask k.num (fun t => { t with used := t.used + 1, reserved := t.reserved - 1 })
  s1.updFw (fun w => { w with
    tasks := w.tasks ++ [{ num := s.nextTask, image := k.image, record := r, part := k.part, prio := min (recPrio r) k.prio,
                           seq := s.nextSeq, device := true, parent := some k.num, pool := some s.freeEntry }]
    pool := setInsert s.freeEntry w.pool })

/-- The status word of a launch: the status in [63:32], the task number below (R384). -/
def launchWord (status task : Nat) : SVal := { v := BitVec.ofNat 64 (status * 2 ^ 32) ||| BitVec.ofNat 64 task, tag := .int64 }

/-- The launching task has launches left (R384). -/
abbrev launchesLeft (s : State) (k : Task) : Prop := s.myTask = some k ∧ k.used < recChildren k.record

/-- The number an NTREQ hands out (R390): the next of the task's counter, all ones past its limit. -/
def nextItem (k : Task) : Word := if k.ntile < recNxLimit k.record then BitVec.ofNat 64 k.ntile else BitVec.allOnes 64

/-- The held entries after a bundle outside handler mode: each that has not landed is a bundle nearer (R390). -/
def nearer (l : List NxEnt) : List NxEnt := l.map (fun e => if e.due = 0 then e else { e with due := max 1 (e.due - 1) })

/-! ### Pairs and traps (R70, R80, R182-R208) -/

/-- The tables of scalar ops together. -/
def scalarTable : List ((RegF → Instr) × TableFn) := sums ++ choices ++ shifts

/-- The conditions of `State.Ready` for the two halves of a pair word; outside handler mode, or with the vector result
written to a register (R21). -/
abbrev PairReady (s : State) (f : PairF) (a b : Instr) : Prop :=
  s.cur.core < nCores ∧ WellFormed (.pair f) ∧ (s.me.tr.hm = true → f.vW = true) ∧
  (∀ x ∈ srcs a ++ srcs b, s.me.srcFail x = none) ∧
  (s.me.tr.hm = true ∨
    (weightOf a + weightOf b + standSum s.me.standing ≤ s.me.csr.weira ∧
     weightOf a + weightOf b + standSum s.me.standing + (s.me.window.take 7).sum ≤ s.me.csr.weirw)) ∧
  (s.me.csr.issueLeft ≠ 0 ∨ (s.me.tr.hm = true ∧ s.me.tr.res ≠ 0)) ∧
  s.eddyBlocked [s.lone a, s.lone b] = false ∧
  (∀ e ∈ s.me.nx, e.due = 0 ∨ 2 < e.due) ∧ s.myCore.issueBuf = none

/-- Both results of a pair word pushed and written, each by its own half, and the flags of both (R8, R12, R42, R70). -/
def PairDone (s t : State) (f : PairF) (v : SVal) (u : VVal) (fl : Flags) : Prop :=
  Steps s t (.pair f) fl ∧ t.me.csr.rngseed = s.me.csr.rngseed ∧
  (s.me.tr.hm = false → Pushed s.me.q.sq t.me.q.sq v ∧ Pushed s.me.q.vq t.me.q.vq u ∧ t.me.q.hq = s.me.q.hq) ∧
  (s.me.tr.hm = true → Pushed s.me.q.hq t.me.q.hq v ∧ t.me.q.sq = s.me.q.sq ∧ t.me.q.vq = s.me.q.vq) ∧
  (∀ r, t.me.files.s.get r = if f.sW = true ∧ r = f.sD then v else s.me.files.s.get r) ∧
  (∀ r, t.me.files.v.get r = if f.vW = true ∧ r = f.vD then u else s.me.files.v.get r) ∧
  t.me.files.g = s.me.files.g ∧ t.me.files.w = s.me.files.w ∧ t.me.files.p = s.me.files.p ∧
  t.me.files.m = s.me.files.m ∧ t.me.files.b = s.me.files.b

/-- The result and the flags of the scalar half of a pair word: an op of R113, a division, a comparison or a move (R71). -/
def ScalarHalf (s : State) (g : RegF) (i : Instr) (v : SVal) (fl : Flags) : Prop :=
  (∃ p ∈ scalarTable, i = p.1 g ∧ v = tableVal g p.2 s ∧ fl = 0) ∨
  (∃ p ∈ divs, i = p.1 g ∧ v = tableVal g p.2 s ∧ fl = if byZero g s then 0x40#7 else 0) ∨
  (i = .cmp g ∧ v = tableVal g (cmpFn g.c) s ∧ fl = 0) ∨
  (i = .movc g ∧ v = { v := (s.rdS (scalarOpTag g) g.a).v, tag := (s.rdS .int64 g.a).tag } ∧ fl = 0)

/-- The tags that the vector half of a pair word accepts: T, and for the exponents of VFSCALE the signed integer tag of the
width. -/
abbrev halfTag (h : RegF) (j : Instr) (x : Src) (t : Tag) : Prop :=
  if j = .vfscale h ∧ x.idx = 1 then t = sintOf (tagWidth (vT h)) else t = vT h

/-- A mask as a vector result: bit `k` for lane `k` of `n`, tagged BITS (R135). -/
def MaskVec (s : State) (g : Guard) (n : Nat) (cond : Nat → Bool) (u : VVal) : Prop :=
  u.tag = .bits ∧ u.poison = none ∧ ∀ k, u.v.getLsbD k = (decide (k < n) && (s.me.guardBit g k && cond k))

/-- Lanes with their flags: those of a floating-point half. -/
def FpHalf (s : State) (g : Guard) (w : Nat) (tag : Tag) (first : VVal) (r : Nat → FRes) (u : VVal) (fl : Flags) : Prop :=
  Merged s g w tag first (fun k => BitVec.ofNat w (r k).1) u ∧ FlagsOf s g (2048 / w) (fun k => (r k).2) fl

/-- The result of the integer half of a pair word: an op of R137, VSEL, VDOT4 or VCMP (R71). -/
def IntegerHalf (s : State) (h : RegF) (j : Instr) (u : VVal) : Prop :=
  let w := tagWidth (vT h)
  (∃ q ∈ laneTable, j = q.1 h ∧ Merged s h.g w (q.2.1 (vT h)) (s.rdV (vT h) h.a)
    (fun i => q.2.2 w (vT h != .uint8) (laneA h s _ i) (laneB h s _ i) (laneC h s _ i)) u) ∨
  (j = .vsel h ∧ Merged s h.g w (vT h) (s.rdV (vT h) h.a)
    (fun i => if (maskBits h s h.c).getLsbD i then laneA h s _ i else laneB h s _ i) u) ∨
  (j = .vdot4 h ∧ Merged s h.g 32 .int32 (s.rdV .int32 h.c) (dotLane h s) u) ∨
  (j = .vcmp h ∧ MaskVec s h.g (2048 / w)
    (fun k => laneCond (h.x.toNat % 8) (vT h != .uint8) (laneA h s w k) (laneB h s _ k)) u)

/-- The result and the flags of the floating-point half of a pair word: an op of R140 and R141, or one with a form of its own
(R142 to R145). -/
def FloatHalf (s : State) (h : RegF) (j : Instr) (u : VVal) (fl : Flags) : Prop :=
  let w := tagWidth (vT h)
  (∃ q ∈ fpTable, j = q.1 h ∧ FpHalf s h.g w (vT h) (s.rdV (vT h) h.a)
    (fun k => q.2 (vFmt h) (vRM h s) (laneA h s w k).toNat (laneB h s w k).toNat (laneC h s w k).toNat) u fl) ∨
  (j = .vfabs h ∧ fl = 0 ∧ Merged s h.g w (vT h) (s.rdV (vT h) h.a)
    (fun k => laneA h s _ k &&& ~~~(BitVec.twoPow _ (w - 1))) u) ∨
  (j = .vfneg h ∧ fl = 0 ∧ Merged s h.g w (vT h) (s.rdV (vT h) h.a)
    (fun k => laneA h s _ k ^^^ BitVec.twoPow _ (w - 1)) u) ∨
  (j = .vfclass h ∧ FpHalf s h.g w (sintOf w) (s.rdV (vT h) h.a) (fun k => (fclass (vFmt h) (laneA h s w k).toNat, 0)) u fl) ∨
  (j = .vfscale h ∧ FpHalf s h.g w (vT h) (s.rdV (vT h) h.a)
    (fun k => fscale (vFmt h) (vRM h s) (fdec (vFmt h) (laneA h s w k).toNat) (laneBInt h s w k).toInt) u fl) ∨
  (j = .vfdot2 h ∧ FpHalf s h.g 32 .fp32 (s.rdV .fp32 h.c)
    (fun k => fdot2 (fmtOf .fp32) (vRM h s) (fdec (fmtOf .fp32) (lane 32 (s.rdV .fp32 h.c).v k).toNat)
      (fdec (vFmt h) (laneA h s 16 (2 * k)).toNat) (fdec (vFmt h) (lane 16 (s.rdV (vT h) h.b).v (2 * k)).toNat)
      (fdec (vFmt h) (laneA h s 16 (2 * k + 1)).toNat) (fdec (vFmt h) (lane 16 (s.rdV (vT h) h.b).v (2 * k + 1)).toNat)) u fl) ∨
  (j = .vfcmp h ∧
    MaskVec s h.g (2048 / w) (fun k => (vfcmpLane (vFmt h) (h.x.toNat % 8) (laneA h s w k).toNat (laneB h s w k).toNat).1) u ∧
    FlagsOf s h.g (2048 / w) (fun k => (vfcmpLane (vFmt h) (h.x.toNat % 8) (laneA h s w k).toNat (laneB h s w k).toNat).2) fl)

/-- The package in which the running context, an eddy, is at its end with a code: its bank is ENDING, with EXIT for an eddy
of owner origin (R299, R301). An owner's is as it was. -/
def bankEnding (s : State) (code : Nat) : State :=
  if s.cur.ctx % 4 = 0 then s
  else s.updMyCore (fun x => x.updBank s.cur.ctx (fun b => { b with st := .ending, exit := if b.origin then b.exit else code }))

/-- The package with the trap record that halted the running context in its task's completion record; an owner-origin eddy's
leaves its task alone (R187, R299). -/
def kept (s : State) (r : TrapRec) : State :=
  match s.me.task with
  | some n => if s.cur.ctx % 4 = 0 ∨ s.myCore.fwEddy s.cur.ctx = true then s.updTask n (fun t => { t with trap := some r }) else s
  | none => s

/-- The conditions before any of an op's own checks that a trap of rows 1 to 9 needs: the core is in the package, its context
has a handler and is not in it, and the bundle is not a debugger's. -/
abbrev CanTrap (s : State) : Prop := s.cur.core < nCores ∧ Handles s ∧ s.myCore.issueBuf = none

/-! ### Events of a context (R60, R125-R127, R184-R186, R200, R348, R369, R390) -/

/-- The running context is at a boundary where it issues or traps: it runs and neither yields nor is still waking. -/
abbrev Acts (s : State) : Prop :=
  s.cur.core < nCores ∧ s.runs = true ∧ s.me.waits.yield = 0 ∧ s.me.waits.wakeIn = 0

/-- The held bundle of the running context goes: nothing is due before it, its words are there, and it waits no longer. -/
abbrev HeldGoes (s : State) : Prop :=
  Acts s ∧ s.me.waits.held = true ∧ s.dueA = none ∧ s.fetchStalls = false ∧
  ∀ w, s.judge (s.lay semOf s.fetched) s.fetched.long ≠ .stall w

/-- What a kind-A trap with a record leaves in its context (R129, R185, R186, R193): slot 31, the return offset is the program
counter, no words; one cycle more is counted. -/
def TakenA (s t : State) (r : FaultRec) : Prop :=
  t.me.tr = { s.me.tr with
    cause := BitVec.ofNat 7 r.cause, pc := s.me.pc, slot := 31#5, info0 := r.info0, info1 := r.info1, epc := s.me.pc,
    hm := true, eng := false, blen := 0, wake := s.me.tr.wake || s.me.waits.idleWoken } ∧
  t.me.pc = s.me.tr.vec &&& 0xFFF8#16 ∧ t.me.q.sq = s.me.q.sq ∧ t.me.q.vq = s.me.q.vq ∧ (∀ n, t.me.q.hq.get n = none) ∧
  t.me.files = s.me.files ∧ t.me.tok = s.me.tok ∧ t.me.storeQ = s.me.storeQ ∧
  t.me.loadQ = s.me.loadQ ∧ t.me.standing = s.me.standing

/-- What a kind-A trap leaves in a context without a handler (R187): the record, and the halt, which the firmware is told. -/
def HaltedA (s t : State) (r : FaultRec) : Prop :=
  t.me.run = .halted r.cause ∧ t.me.pc = s.me.pc ∧ t.me.q = s.me.q ∧ t.me.files = s.me.files ∧ t.me.tok = s.me.tok ∧
  t.me.tr = { s.me.tr with
    cause := BitVec.ofNat 7 r.cause, pc := s.me.pc, slot := 31#5, info0 := r.info0, info1 := r.info1 } ∧
  t.fw.reports = s.fw.reports ++ [r]

/-- The context after a wake (R127, R331): one that idles goes on; in any other WAKE is set, and one that sleeps on a barrier
object reads it again. -/
def awake (c : Ctx) : Ctx :=
  if c.waits.idle = true then { c with waits := { c.waits with idle := false, wakeNow := true, idleWoken := true } }
  else
    { c with
      waits := if c.waits.asleep = none then c.waits else { c.waits with asleep := none, wakeNow := true }
      tr := { c.tr with wake := true } }

/-- The package after a wake of the running context: a wake for an owner whose lend is AUTO takes the lend back (R127, R294,
R302). -/
def woken (s : State) : State :=
  let s1 := s.updMe awake
  if s.cur.ctx % 4 = 0 ∧ s.myCore.lend.cfg.auto = true ∧ s.myCore.lend.cfg.active = true then s1.updMyCore (revoked s) else s1

/-! ### Tile and matrix commands after retirement (R225, R228, R233-R236, R250-R258, R265-R267) -/

/-- The command that an event of a command names. -/
abbrev TheCmd (s : State) (c : Cmd) : Prop :=
  s.cur.core < nCores ∧ s.myCore.cmds.find? (fun d => d.id == s.cur.id) = some c

/-- The oldest command of one of a core's queues. -/
abbrev Oldest (s : State) (p : CmdKind → Bool) (c : Cmd) : Prop :=
  s.cur.core < nCores ∧ (s.myCore.cmds.filter (fun d => p d.kind)).head? = some c

/-- A command that waits for nothing, and has not started. -/
abbrev MayStart (c : Cmd) : Prop := c.started = false ∧ c.deps = []

/-- The package with a command of the running core changed. -/
def putCmd (s : State) (c : Cmd) (f : Cmd → Cmd) : State :=
  s.updMyCore (fun x => { x with cmds := x.cmds.map (fun d => if d.id == c.id then f d else d) })

/-- A slot that its filler left with a fault: READY, GENERAL, NF (R225). -/
def unfilled (n : Nat) (s : State) : State :=
  s.updMyCore (fun x => x.updTile n (fun e => { e with st := .ready, cls := .general, nf := true }))

/-- Byte `k` of an element of `w` bytes with value `v`, in little-endian order. -/
def elemByte (v k : Nat) : Byte := BitVec.ofNat 8 (v / 2 ^ (8 * k))

/-- What the bytes of a filler leave in slot `n`: nothing else of the package but its entry and power states of stripes
changed. -/
def Landed (s t : State) (n : Nat) (bytes : Nat → Byte) : Prop :=
  (∀ o, t.myCore.spad.read o = if 4096 * n ≤ o ∧ o < 4096 * (n + 1) then bytes (o - 4096 * n) else s.myCore.spad.read o) ∧
  (∀ m, m % 128 ≠ n % 128 → t.myCore.tile m = s.myCore.tile m) ∧
  { t.myCore with spad := s.myCore.spad, spadPoison := s.myCore.spadPoison, tiles := s.myCore.tiles,
                  stripes := s.myCore.stripes } = s.myCore ∧
  { t with cores := s.cores } = s ∧ ∀ c, c ≠ s.cur.core → t.core c = s.core c

/-- The bytes of a slot, and its class and NF under a tag, a tile tagged UNDEF classified like BITS (R228). -/
def slotNow (s : State) (n : Nat) : List Byte := (List.range 4096).map (fun k => s.myCore.spad.read (4096 * n + k))
/-- Class and NF of bytes under a tag. -/
def classOf (t : Tag) (bs : List Byte) : TClass × Bool := classify (if t = .undef then .bits else t) bs

/-- What a filler leaves in slot `n`: its bytes, its entry READY with the tag and, where no write of another spoiled it, the
class, NF as computed or as set meanwhile, and in a spoiled slot also where its bytes hold a non-finite element under the tag,
SPOIL clear (R224, R225, R228). -/
def Filled (s t : State) (n : Nat) (bytes : Nat → Byte) (tag : Tag) (cls : TClass) (nf : Bool) : Prop :=
  Landed s t n bytes ∧
  let e := s.myCore.tile n
  t.myCore.tile n = { tag := tag, st := .ready, spoil := false, cls := if e.spoil then .general else cls
                      nf := e.nf || nf || (e.spoil && (classOf tag ((List.range 4096).map bytes)).2) }

/-- A filler at its end: the slot filled, the command DONE with its flags. -/
def FillerEnds (s t : State) (c : Cmd) (n : Nat) (bytes : Nat → Byte) (tag : Tag) (cls : TClass) (nf : Bool) (fl : Flags) :
    Prop :=
  ∃ u, Filled s u n bytes tag cls nf ∧ t = u.endCmd s.cur.core c none fl

/-- The bytes a tile op is to write, fixed as it starts; TCLASS writes none (R222, R234 to R236). -/
def fillBytes (s : State) : CmdKind → List Byte
  | .tzero _ _ => List.replicate 4096 0
  | .tfill _ t v => (List.range 4096).map (fun k => elemByte (v.toNat % 2 ^ tagWidth t) (k % (tagWidth t / 8)))
  | .tident _ t =>
    let w := tagWidth t / 8
    (List.range 4096).map (fun k => if k / 128 = k % 128 / w then elemByte (oneOf t) (k % w) else 0)
  | .tcopy _ m => slotNow s m
  | _ => []

/-- The slot a tile op reads as it starts: TCOPY its source, TCLASS its own. -/
def readsSlot : CmdKind → Option Nat
  | .tcopy _ m => some m
  | .tclass n => some n
  | _ => none

/-- The package once the stripe of the slot that a tile op reads is awake (R242). -/
def readWoken (s : State) (k : CmdKind) : State :=
  match readsSlot k with
  | some m => s.updMyCore (fun x => x.touch (4096 * m) (s.eff s.cur.core))
  | none => s

/-- Element `e` of the part of a bank that an MDRAIN delivers, under the tag of the destination, with its flags (R265). -/
def drained (b : Bank) (t : Tag) (part e : Nat) : FRes :=
  let src : Tag := if b.fp64 then .fp64 else .fp32
  let w := tagWidth src / 8
  let v := leNat ((List.range w).map (fun k => b.mem.read (256 * ((if src = t then 16 else 32) * part) + w * e + k)))
  if src = t then (v, 0) else cvtElem src t .rne 0 v

/-- The sequencer stands on an unreported fault (R258). -/
def abandoning (s : State) : State := s.updMyCore (fun x => { x with abandon := true })

/-- The status word of a fault of a sequencer command without slots: the weight unit in [48:40], the reason in [7:0]
(R258). -/
def unitStatus (unit reason : Nat) : Word := BitVec.ofNat 64 (unit % 512 * 2 ^ 40 + reason)

/-- Why an MWLOAD cannot run (R258, R267): 5 for units outside the buffer, 10 for a source that is misaligned, outside the
scratchpad or without power. -/
def mwloadBad (s : State) (d a b : Word) : Option Nat :=
  if b = 0 ∨ 512 < b.toNat ∨ 512 < d.toNat + b.toNat then some 5
  else if a.toNat % 256 ≠ 0 ∨ 0x80000 < a.toNat + 256 * b.toNat ∨
    (∃ i < b.toNat, s.myCore.gated (a.toNat + 256 * i) = true) then some 10
  else none

/-! ### Copies after retirement (R282-R286, R290, R291, R347-R354, R366, R367) -/

/-- The command of the copy port that starts next; fewer than four run (R282). -/
abbrev CopyNext (s : State) (c : Cmd) : Prop :=
  s.cur.core < nCores ∧ c.deps = [] ∧
  (s.myCore.cmds.filter (fun d => d.kind.isCopy)).find? (fun d => !d.started) = some c ∧
  (s.myCore.cmds.filter (fun d => d.kind.isCopy && d.started)).length < 4

/-- The slots that a failed copy had covered: a FILLING one takes the fault row, a DRAINING one is READY; one that was
reclaimed since stays (R225, R285). -/
def uncovered (c : Cmd) (s : State) : State :=
  s.updMyCore (fun x => (s.covered c).foldl (fun x n => if n ∈ c.lost then x else x.updTile n (fun e =>
    if e.st == .filling then { e with st := .ready, cls := .general, nf := true } else { e with st := .ready })) x)

/-- A copy-port command that ends with a fault: cause, bytes done before the chunk, reason (R285, R286). -/
def copyFails (s : State) (c : Cmd) (chunk cause done reason : Nat) : State :=
  (uncovered c s).endCmd s.cur.core c
    (some (c.fail chunk cause (BitVec.ofNat 64 (done % 2 ^ 32 * 2 ^ 32 + reason * 2 ^ 8)))) 0

/-- The bytes the copy port may still write in this period, of `n`; 0xFFFF is no limit (R366). -/
def copyMay (s : State) (n : Nat) : Nat := if s.myCore.copyBud = 0xFFFF then n else min n s.myCore.copyLeft

/-- The package once `n` bytes are drawn on the copy budget and charged, 128 a cycle at weight 6 (R212, R282, R366). -/
def charged (s : State) (n : Nat) : State :=
  (s.updMyCore (fun x => if x.copyBud = 0xFFFF then x else { x with copyLeft := x.copyLeft - n })).updCluster (s.cur.core / 16)
    (fun k => { k with charge := k.charge + (n + 127) / 128 * 6 })

/-- The cause of a reason of R286. -/
def chunkCause (reason : Nat) : Nat := if reason = 6 then 0x35 else if 7 ≤ reason then 0x36 else 0x30

/-- The rest of the chunk in progress. -/
def chunkRest (c : Cmd) : Chunk :=
  let k := c.chunk c.next
  ⟨k.dst + BitVec.ofNat 64 c.nextByte, k.src + BitVec.ofNat 64 c.nextByte, k.len - c.nextByte⟩

/-- The command after the bytes `bs` of the rest of its chunk: the next chunk, or the same with its pages under lease; a tile
fill keeps the bytes it wrote (R228, R284, R347). -/
def progressed (k : Chunk) (x : ChunkSides) (bs : List Byte) (n : Nat) (c : Cmd) : Cmd :=
  let buf := if c.fills then c.buf ++ bs else c.buf
  if n = k.len then { c with next := c.next + 1, nextByte := 0, buf := buf, leases := [] }
  else { c with nextByte := c.nextByte + n, buf := buf, leases := if c.leases = [] then leasesOf k x else c.leases }

/-- The resident records that a load of an overlay leaves: those it overlaps lose RES (R291). -/
def overlaid (o : Overlay) (x : CoreState) : CoreState :=
  { x with resid := x.resid.map (fun r =>
      if Meet o.off (8 * o.words.length) r.off (8 * r.len) then { r with res := false } else r) }

/-- An overlay load that fails (R286, R291, R306): the token takes the fault with cause 0x36 and the reason, no record that the
overlay overlaps keeps RES, and the words of its range, but for pinned ones, hold free values. -/
def ovlFails (s : State) (c : Cmd) (o : Overlay) (reason : Nat) : State :=
  let cells := (List.range (8 * o.words.length)).filterMap (fun i =>
    if ∃ p ∈ s.pinned s.cur.core, p.1 ≤ o.off + i ∧ o.off + i < p.1 + p.2 then none
    else some (o.off + i, Config.freeByte (s.freeCount + i)))
  let u : State := s.updMyCore (fun x => { overlaid o x with ispad := x.ispad.writeCells cells })
  { u.endCmd s.cur.core c (some (c.fail 0 0x36 (BitVec.ofNat 64 (reason * 2 ^ 8)))) 0 with
    freeCount := s.freeCount + 8 * o.words.length }

/-- An overlay in the instruction scratchpad: its words in the view of the core's cluster, its record resident, the planted
breakpoints in its range dropped (R290, R291, R409, R415). -/
def loaded (s : State) (img : Image) (o : Overlay) (x : CoreState) : CoreState :=
  let ws := s.viewWords img (s.cur.core / 16) o
  { x with
    ispad := x.ispad.writeBytes o.off (ws.flatMap (fun w => leBytes 8 w.toNat))
    resid := x.resid.filter (fun r => r.ovl != o.num) ++ [⟨o.num, img.id, ws.length, o.off, true⟩]
    displaced := x.displaced.filter (fun d => !decide (Meet o.off (8 * ws.length) d.off 8)) }

/-- The completion record of a DCPY (R352): bytes done, none where its in-token brought the fault, status, reason and token;
destination; source; context and length. -/
def completion (core : Nat) (c : Cmd) (d b n : Word) : List Word :=
  let info := match c.fault with | some f => f.info1 | none => 0
  let done := if c.fault = none then n.toNat % 2 ^ 32
    else if c.inFault ≠ none then 0 else (info.extractLsb' 32 32).toNat
  let status := match c.fault with | some f => if f.cause = 0x35 then 2 else 1 | none => 0
  [BitVec.ofNat 64 (done * 2 ^ 32 + status * 2 ^ 16 + (info.extractLsb' 8 8).toNat * 2 ^ 8 + (tokCode c.tok).toNat), d, b,
   BitVec.ofNat 64 ((4 * core + c.ctx) % 2 ^ 14 * 2 ^ 36 + n.toNat % 2 ^ 33)]

/-! ### The network interface after retirement (R312-R332, R436-R444) -/

/-- The status word of an NI command (R318): bytes or lanes done, lane, target core, reason. -/
def niWord (done lane target reason : Nat) : Word :=
  BitVec.ofNat 64 (done % 2 ^ 32 * 2 ^ 32 + lane % 256 * 2 ^ 24 + target % 16 * 2 ^ 20 + reason * 2 ^ 8)

/-- An NI command that has not started is the first of its context that has not, and waits for nothing (R316). -/
abbrev NiStarts (s : State) (c : Cmd) : Prop :=
  TheCmd s c ∧ c.kind.isNi = true ∧ MayStart c ∧
  (s.myCore.cmds.filter (fun d => d.kind.isNi)).find? (fun d => d.ctx == c.ctx && !d.started) = some c

/-- The descriptor of a gather or scatter is not valid (R322). -/
abbrev BadDesc (k : CmdKind) : Prop :=
  (∃ l i d n r, k = .rgath l i d n r ∧ ¬ validDesc d) ∨ (∃ l i d n r, k = .rscat l i d n r ∧ ¬ validDesc d)

/-- A command goes to another package along the fabric (R437). -/
abbrev Away (s : State) (c : Cmd) : Prop := s.cmdPkg s.cur.core c ≠ s.boot.pkg ∧ c.route = none

/-- A request of a started command that has not been performed and that nothing holds back on its way, waits for no other, and
has its place in this package. -/
abbrev Arrives (s : State) (c : Cmd) (r : Req) (p : Place) : Prop :=
  TheCmd s c ∧ c.started = true ∧ c.kind.isRemote = true ∧ c.reqs.find? (fun q => q.idx == s.cur.idx) = some r ∧
  r.arrived = false ∧ r.held = false ∧ s.reqWaits s.cur.core c r.idx = false ∧ s.reqPlace s.cur.core c s.cur.idx = some p ∧ p.pkg = s.boot.pkg

/-- Why the target turns a request away (R312, R314, R319): 4 misrouted, 2 denied, 1 gated, 0 where it does not. -/
def turnedAway (s : State) (c : Cmd) (p : Place) (n : Nat) : Nat :=
  match c.route with
  | some t => if s.routed s.cur.core t p then s.refusal (s.ctx s.cur.core c.ctx).task p n else 4
  | none => s.refusal (s.ctx s.cur.core c.ctx).task p n

/-- The package once an ordered request of a command is performed at a place: no request that an earlier command of its context
left behind is performed there after it (R317, R440). -/
def ordered (s : State) (c : Cmd) (p : Place) : State :=
  if c.ord then
    { s with fab := { s.fab with strays := s.fab.strays.filter (fun t =>
      !(t.core == s.cur.core && t.cmd.ctx == c.ctx && decide (t.cmd.id < c.id) &&
        (match s.reqPlace t.core t.cmd t.req.idx with | some q => q.pkg == p.pkg && q.core == p.core | none => false))) } }
  else s

/-- The package with request `r` of a command, performed at its place, as it stands now. -/
def putRequest (s : State) (c : Cmd) (p : Place) (r : Req) : State :=
  putCmd (ordered s c p) c (fun d => { d with reqs := d.reqs.map (fun q => if q.idx == r.idx then r else q) })

/-- The stripes that a run of a scratchpad touches are awake. -/
def touched (s : State) (p : Place) (n : Nat) : State :=
  s.updCore p.core (fun x => (x.touch p.off (s.eff p.core)).touch (p.off + n - 1) (s.eff p.core))

/-- The bytes of a place of this package, and whether a row of them is poisoned. -/
def bytesAt (s : State) (p : Place) (n : Nat) : List Byte := (s.core p.core).spad.readBytes p.off n

/-- The function of an RATOM at its width, on the old value, the operand and, for `.cas`, the expected one; none where
nothing is written (R324). -/
def ratomVal (op n : Nat) (old v e : BitVec n) : Option (BitVec n) :=
  match op with
  | 0 => some (old + v)
  | 1 => some (if v.slt old then v else old)
  | 2 => some (if old.slt v then v else old)
  | 3 => some (old &&& v)
  | 4 => some (old ||| v)
  | 5 => some (old ^^^ v)
  | 6 => some v
  | 7 => if old = e then some v else none
  | 8 => some (if v.ult old then v else old)
  | _ => some (if old.ult v then v else old)

/-- The value an RATOM writes over the bytes at its place, as bytes; none where nothing is written. -/
def ratomBytes (c : Cmd) (old : List Byte) : Option (List Byte) :=
  match c.kind with
  | .ratom _ v _ op dword _ _ =>
    let n := if dword then 64 else 32
    (ratomVal op n (BitVec.ofNat n (leNat old)) (v.setWidth n) (BitVec.ofNat n (leNat c.buf))).map (fun x => leBytes (n / 8) x.toNat)
  | _ => none

/-- The fields of a barrier object (R327): EXPECT, COUNT, PHASE, BROKEN, INIT. -/
abbrev objExpect (o : BitVec 128) : Nat := (o.extractLsb' 0 16).toNat
/-- COUNT. -/
abbrev objCount (o : BitVec 128) : Nat := (o.extractLsb' 16 16).toNat

/-- The object at a place. -/
def objectAt (s : State) (p : Place) : BitVec 128 := BitVec.ofNat 128 (leNat (bytesAt s p 16))

/-- The object with COUNT replaced (R330). -/
def counted (o : BitVec 128) (n : Nat) : BitVec 128 := (o &&& ~~~(0xFFFF0000#128)) ||| (BitVec.ofNat 128 n <<< 16)

/-- The object whose phase completes: COUNT 0, PHASE one on, no context asleep (R330). -/
def completed (o : BitVec 128) : BitVec 128 :=
  BitVec.ofNat 128 (objExpect o) ||| (BitVec.ofNat 128 (((o.extractLsb' 32 4).toNat + 1) % 16) <<< 32) |||
  (o &&& 0xFFFFFFF000000000#128)

/-- A barrier command that has reached the place of its object in this package, where it is not turned away (R312, R319). -/
abbrev AtObject (s : State) (c : Cmd) (p : Place) : Prop :=
  TheCmd s c ∧ c.started = true ∧ s.reqPlace s.cur.core c 0 = some p ∧
  s.refusal (s.ctx s.cur.core c.ctx).task p 16 = 0

/-! ### Revocations, lends and eddies over time (R293, R299-R306) -/

/-- The package once every view of a die is made anew: no record of its cores is resident (R417). -/
def reviewed (die : Nat) (s : State) : State :=
  { s with cores := s.cores.map (fun p =>
      if p.1 / 768 = die then (p.1, { p.2 with resid := p.2.resid.map (fun r => { r with res := false }) }) else p) }

/-- The first revocation of the running core that satisfies a test, with those before and after it. -/
abbrev FirstRev (s : State) (due : Revoke → Prop) (pre : List Revoke) (r : Revoke) (post : List Revoke) : Prop :=
  s.cur.core < nCores ∧ s.myCore.lend.rev = pre ++ r :: post ∧ due r ∧ ∀ q ∈ pre, ¬ due q

/-- The banks of a revocation that are still being taken. -/
abbrev taking (s : State) (r : Revoke) : List Nat := r.banks.filter (fun k => (s.myCore.bank k).st == .revoking)

/-- A slot of a region. -/
abbrev InSlots (start count n : Nat) : Prop := start ≤ n ∧ n < start + count
/-- A byte of a region of slots. -/
abbrev InBytes (start count o : Nat) : Prop := 4096 * start ≤ o ∧ o < 4096 * (start + count)

/-- The entry of a reclaimed slot: READY, ZERO, NF 0, its tag and SPOIL as they stand (R225). -/
def reclaimed (e : TileEnt) : TileEnt := { e with st := .ready, cls := .zero, nf := false }

/-- The kept copy that a LEND puts back: that of the region last lent, where it is the same (R304, R305). -/
def putBack (s : State) : Option Kept :=
  let l := s.myCore.lend
  if l.last = some (l.cfg.start, l.cfg.count) then
    l.kept.filter (fun k => k.start == l.cfg.start && k.count == l.cfg.count)
  else none

/-- A bank that a LEND may run again: parked by a revocation of a lend of the same region (R305). -/
abbrev Returns (s : State) (k : Nat) : Prop :=
  let l := s.myCore.lend
  l.cfg.active = true ∧ l.last = some (l.cfg.start, l.cfg.count) ∧ (s.myCore.bank k).st = .parked ∧
  (s.myCore.bank k).rev = true ∧ (s.myCore.bank k).home = some (l.cfg.start, l.cfg.count)

/-- The running context is an eddy. -/
abbrev Eddying (s : State) : Prop := s.cur.core < nCores ∧ s.cur.ctx ∈ [1, 2, 3]

/-! ### Tasks, pre-emption and graphs (R293, R373-R396) -/

/-- A task that the firmware may bind with what it chose: the head of its partition's queue, pending (R375-R380). -/
abbrev Binds (s : State) (b : BindInfo) (t : Task) (img : Image) : Prop :=
  s.boot.phase = .ready ∧ s.head b.part = some t ∧ s.image t.image = some img ∧ t.st = .pending ∧
  s.mayBind t img b.cores = true ∧ s.privsOk b.ranges b.root b.cores b.privs = true ∧ rangesOk b.ranges = true ∧ ringsOk b.rings = true

/-- The STATE that the cores of a task take: BIND while a cluster of theirs, or a stripe that is turned on for it, is not on
yet; `lit` says which stripes of a core are to be on (R241, R358, R379). -/
def startState (s : State) (cores : List Nat) (lit : Nat → Nat → Bool) : SlotSt :=
  if ∃ c ∈ cores, (s.cluster (c / 16)).gated = true ∨ s.master < (s.core c).onAt ∨
      ∃ i : Fin 32, ((s.core c).stripes.get i).pw = .gated ∧ lit c i.val = true then .bind else .run

/-- The stripes that a bind turns on: those below the extent (R241). -/
def bindLit (img : Image) (_ i : Nat) : Bool := decide (0x4000 * i < img.extent)

/-- The stripes that a restore turns on: those below the extent, and those of a lend that is re-established (R241, R395). -/
def restoreLit (t : Task) (img : Image) (cores : List Nat) (c i : Nat) : Bool :=
  bindLit img c i || (t.saved.zip cores).any (fun p => p.2 == c && (match p.1.st.lend.resume with
    | some (q, _) => decide (Meet (4096 * q.start) (4096 * q.count) (0x4000 * i) 0x4000)
    | none => false))

/-- A core that is bound to a task: in BIND or RUN, and not released since (R379, R382). -/
abbrev Holds (s : State) (t : Task) (c : Nat) : Prop :=
  (s.core c).slot.task = t.num ∧ ((s.core c).slot.st = .bind ∨ (s.core c).slot.st = .run)

/-- What a bind leaves on a core (R240, R241, R246, R247, R287, R380, R381): the owner context at its entry with the weirs of
the image and the record's handler and launch words, the record in STATE, no command, no lend, banks FREE, accumulators,
shadow table and weight buffer cleared. -/
def BoundOn (u : State) (t : Task) (img : Image) (st : SlotSt) (c : Nat) : Prop :=
  let x := u.core c
  let o := x.ctx 0
  o.run = .run ∧ o.task = some t.num ∧ o.pc = BitVec.ofNat 16 (recEntry t.record) ∧ o.csr.weirf = img.weirf ∧
  o.csr.weira = max 64 img.weirf ∧ o.csr.weirw = 448 ∧ o.csr.mmrev = img.mmrev ∧ o.tr.noh = recNoh t.record ∧
  o.tr.vec = BitVec.ofNat 16 (recHandler t.record) &&& 0xFFF8#16 ∧ o.tr.hm = false ∧
  (∀ (i : Nat) (h : i < 8), (recArgs t.record)[i]?.map (fun v => ({ v := v, tag := .int64 } : SVal)) =
    some (o.files.g.get ⟨24 + i, by omega⟩) ∨ (recArgs t.record)[i]? = none) ∧
  x.slot.task = t.num ∧ x.slot.part = t.part ∧ x.slot.prio = t.prio ∧ x.slot.st = st ∧ x.cmds = [] ∧ x.lend = {} ∧
  (∀ k ∈ [1, 2, 3], x.bank k = {} ∧ x.ctx k = Ctx.reset) ∧ x.accs = .replicate 4 {} ∧ x.shadow = .replicate 7 0 ∧
  x.wloaded = 0 ∧ x.spad = img.spad

/-- The code a bound task ends with (R183, R184, R187, R382, R383): the cause that halted an owner of it, else the first fault
that no consumer reported, else 0xFE where its cores are all released. -/
abbrev EndsWith (s : State) (t : Task) (code : Nat) : Prop :=
  t.st = .bound ∧
  ((s.haltedCause t = some code) ∨ (s.haltedCause t = none ∧ t.code = some code) ∨
   (s.haltedCause t = none ∧ t.code = none ∧ code = 0xFE ∧ t.harvest = false ∧
    ∀ c ∈ t.cores, (s.core c).slot.task ≠ t.num ∨ (s.core c).slot.st = .release))

/-- The end of a task by pre-emption: KILL with code 0xFD where its record says RST, else CHECKPOINT (R392). -/
def killed (s : State) (t : Task) : State := if recRst t.record then s.endTask t 0xFD else s.decideCkpt t

/-- A task that pre-emption ended or is to save (R392, R393): with RST it has ended with code 0xFD; else its checkpoint is
decided, no lend of the cores it holds is in force, and its contexts there hold no bundle. -/
abbrev KilledOn (s u : State) (t : Task) : Prop :=
  ∃ k, u.task t.num = some k ∧ k.drainAt = none ∧
    (recRst t.record = true → k.st = .ended ∧ k.code = some 0xFD ∧ k.pool = none) ∧
    (recRst t.record = false → k.ckpt = true ∧ ∀ c ∈ t.cores, Holds s t c → (u.core c).lend.cfg.active = false ∧
      ∀ i ∈ [0, 1, 2, 3], (u.ctx c i).task = some t.num → (u.ctx c i).waits.held = false ∧ (u.ctx c i).waits.yield = 0)

/-- A victim after the decision on it (R392): its drain has a time, or it is killed. -/
abbrev PreemptedOn (s u : State) (v : Task) : Prop :=
  let draint : Nat := match s.part v.part with | some p => p.draint | none => 600000
  (recEstimate v.record ≠ 0 ∧ (recEstimate v.record : Int) - (s.elapsed v : Int) < (draint : Int) →
    ∃ k, u.task v.num = some k ∧ k.drainAt = some (s.eff (v.cores.headD 0) + draint)) ∧
  (¬ (recEstimate v.record ≠ 0 ∧ (recEstimate v.record : Int) - (s.elapsed v : Int) < (draint : Int)) → KilledOn s u v)

/-- A node of an instance that neither was launched nor was skipped, in a graph whose instances may run now (R387, R388). -/
abbrev NodeWaits (s : State) (i : GInst) (g : Graph) (k : Nat) (n : GNode) : Prop :=
  s.inst s.cur.id = some i ∧ s.cur.idx = k ∧ s.graphOf i.graph = some g ∧ i.nodes[k]? = some (none, none) ∧
  g.nodes[k]? = some n ∧ i.pool ≠ none ∧ (g.reent = true ∨ s.earlier i = false)

/-! ### Clocks, power, memory and the debugger (R242, R338-R348, R356-R372, R403-R409) -/

/-- The controller of a cluster at the end of an interval (R361): BUD less the charge, the integral with it, limited to 25 bits,
and the k it wants, 1 to 16. -/
def wants (k : ClusterState) : Int × Nat :=
  let e : Int := (k.bud : Int) - (k.charge : Int)
  let i : Int := max (-16777216) (min 16777215 (k.integ + e))
  (i, (max 1 (min 16 (12 + e / 2 ^ k.kps + i / 2 ^ k.kis))).toNat)

/-- Permits left once a boosted interval is paid for, whether the fall begins, and the cool-down (R363, R364). -/
def paid (k : ClusterState) : Nat := if 12 < k.pendKeep.getD k.keep ∧ k.fall = false then k.permits - 1 else k.permits
/-- The next interval is the first step of the fall. -/
def falling (k : ClusterState) : Bool := decide (12 < k.pendKeep.getD k.keep ∧ k.fall = false ∧ paid k = 0)
/-- Intervals of cool-down left. -/
def cooled (k : ClusterState) : Nat := if k.fall then 32 else k.cool - 1

/-- A cluster after an interval boundary that grants it boost or not (R361-R364): a gated one as it was. -/
def bounded (k : ClusterState) (grant : Bool) (bud : Nat) : ClusterState :=
  if k.gated then k
  else { k with
    integ := (wants k).1, permits := paid k, cool := cooled k, fall := falling k, grant := grant, bud := bud, charge := 0
    pendKeep := some (if falling k then 14 else if k.fall then 12 else min (wants k).2 (if grant then 16 else 12))
    issuedPrev := k.issuedNow, issuedNow := false }

/-- A cluster requests boost (R363). -/
abbrev Requests (k : ClusterState) : Prop :=
  k.gated = false ∧ falling k = false ∧ k.fall = false ∧ 12 < (wants k).2 ∧ 1 ≤ paid k ∧ cooled k = 0 ∧ k.issuedNow = true

/-- The highest priority of the tasks bound to a cluster's owner contexts (R363). -/
def clusterPrio (s : State) (k : Nat) : Nat :=
  ((List.range 16).map (fun i =>
    let x := s.core (16 * k + i)
    if x.slot.st = .run ∨ x.slot.st = .bind then x.slot.prio else 0)).foldl max 0

/-- The order of new boost grants: the higher priority, then more permits, then the lower number (R363). -/
abbrev GrantedBefore (s : State) (a b : Nat) : Prop :=
  clusterPrio s b < clusterPrio s a ∨ (clusterPrio s a = clusterPrio s b ∧
    (paid (s.cluster b) < paid (s.cluster a) ∨ (paid (s.cluster a) = paid (s.cluster b) ∧ a < b)))

/-- The highest pattern a cluster may hold in the interval that begins: a gated one holds none, one that is being turned on
starts at 12 (R357 to R360). -/
def holdsUpTo (k : ClusterState) : Nat :=
  if k.gated then (if k.powerOn = none then 0 else 12) else max k.keep (k.pendKeep.getD k.keep)

/-- A context at the start of a budget period (R190, R193, R366, R367, R369). -/
def refreshed (copy : Bool) (c : Ctx) : Ctx :=
  { c with
    notice := if c.denied ≠ 0 ∨ c.scaled = true then
      some ((c.denied &&& 0b1011#4).setWidth 64 ||| (if copy then 4 else 0) ||| (if c.scaled then 16 else 0),
            BitVec.ofNat 64 c.deniedCycles) else c.notice
    denied := 0, deniedCycles := 0, scaled := false
    tr := { c.tr with res := 4 }
    csr := { c.csr with issueLeft := c.csr.issueBud, niLeft := c.csr.niBud } }

/-- Every core in BIND of a bound task whose cores, clusters and stripes, are all on goes to RUN, and no other core changes
(R358, R379, R380). -/
abbrev Started (s t : State) : Prop :=
  ∀ c, t.core c = (if (s.core c).slot.st = .bind ∧ ∃ b ∈ s.fw.tasks, b.st = .bound ∧ c ∈ b.cores ∧ (s.core c).slot.task = b.num ∧
      ∀ d ∈ b.cores, (t.cluster (d / 16)).gated = false ∧ (s.core d).onAt ≤ s.master
    then { s.core c with slot := { (s.core c).slot with st := .run } } else s.core c)

/-- The debugger reaches a context's registers: it is halted, or it is a parked eddy (R404). -/
abbrev Stopped (x : CoreState) (k : Nat) : Prop := x.reach k = .halted ∨ x.reach k = .parked

/-- The status byte of a read of a register (R404): the tag in [7:4], poison in bit 1. -/
def regStatus (t : Tag) (poison : Bool) : BitVec 8 := BitVec.ofNat 8 (16 * tagCode t + if poison then 2 else 0)

/-! ### Bring-up and the host port (R371, R372, R385-R388, R413, R424-R432) -/

/-- The package in another phase: vector 1 is raised (R426, R428). -/
def inPhase (p : Phase) (s : State) : State := ({ s with boot := { s.boot with phase := p } } : State).raiseIrq 1
/-- The package once bring-up failed with a code (R431). -/
def failedWith (code : Nat) (s : State) : State := inPhase .failed { s with boot := { s.boot with fault := code } }

/-- The command of slot `i` is the oldest submitted and its OP is `op`; the package is READY (R427, R429). -/
abbrev Mail (s : State) (i op : Nat) : Prop :=
  s.host.submitted.head? = some i ∧ s.boot.phase = .ready ∧ ((s.slotWord i 0).extractLsb' 40 8).toNat = op

/-- The package with a dword of a slot written. -/
def inSlot (i : Nat) (s : State) (r : Nat × Word) : State :=
  { s with host := { s.host with slots := s.host.slots.writeWord (256 * i + 8 * r.1) r.2 } }

/-- A command completed (R427, R430): its results, then its header with STATUS and OWN 0; it leaves the queue, and vector 0 is
raised where its header asks for it. -/
def answered (s : State) (i status : Nat) (results : List (Nat × Word) := []) : State :=
  let h := s.slotWord i 0
  let s1 := inSlot i (results.foldl (inSlot i) s)
    (0, (h &&& 0xFFFFFF00FFFFFFFE#64) ||| BitVec.ofNat 64 (status % 256 * 2 ^ 32))
  let s2 : State := { s1 with host := { s1.host with submitted := s1.host.submitted.tail } }
  if h.getLsbD 1 then s2.raiseIrq 0 else s2

/-- A command that is INVALID: status 2, what is wrong in dword 31 (R430). -/
def invalid (s : State) (i what : Nat) : State := answered s i 2 [(31, BitVec.ofNat 64 what)]

/-- A command that fails as reading a descriptor does: INVALID with what is wrong, else its status (R385, R430). -/
def failedAs (s : State) (i : Nat) (e : Nat × Nat) : State := if e.1 = 2 then invalid s i e.2 else answered s i e.1

/-- A dword of a slot as a number. -/
abbrev arg (s : State) (i n : Nat) : Nat := (s.slotWord i n).toNat

/-- The next graph handle. -/
def nextHandle (s : State) : Nat := 1 + (s.fw.graphs.map (·.handle)).foldl max 0

/-- The package with a cap and a scale in force (R366, R371, R372). -/
abbrev capped (s : State) (cap num den : Nat) (note : Bool) : State := s.applyCap cap num den note

/-- The answer to a SETCAP: watts, and the scale in force × 2^16 (R429). -/
def capAnswer (s : State) (i status watts : Nat) : State :=
  answered s i status [(3, BitVec.ofNat 64 watts), (4, BitVec.ofNat 64 (s.fw.scaleNum * 2 ^ 16 / s.fw.scaleDen))]

/-! ### The machine as a whole -/

/-- The guard p0, which reads all ones (R68). -/
def g0 : Guard := ⟨false, 0⟩

end Sys2Proof.Claim

open Sys2Proof.Claim

/-- R113, the sums and products: ADD, SUB, MUL, MULH, MADD and SHADD complete with the value of the table, at every width,
guard, operand level and destination, and change nothing else. -/
def Sys2Proof.Claim.ScalarSums : Prop := TableHolds sums

/-- R113, logic, choices and comparisons: AND, OR, XOR, ANDN, SEL, MIN, MAX, MINU, MAXU. -/
def Sys2Proof.Claim.ScalarChoices : Prop := TableHolds choices

/-- R113, shifts, counts and bit fields: SHL, SHR, SAR, ROT, CLZ, POPC, BSWAP, EXTR, INS; a shift of the full width or
more shifts by the count modulo the width. -/
def Sys2Proof.Claim.ScalarShifts : Prop := TableHolds shifts

/-- The scalar ops of R113: three tables, sums and products, choices and comparisons, shifts and bit fields. -/
def Obligations.ScalarTable : Prop := ScalarSums ∧ ScalarChoices ∧ ScalarShifts

/-- R114: DIV and REM complete, a division by zero delivering all ones or the dividend and raising IDZ (bit 6 of
FPSTAT), where IDZ does not trap: in handler mode, or with FPCTL[10] clear, or with a divisor that is not zero. Where it does,
the op traps with cause 0x10 (R41, R42, R193). -/
def Sys2Proof.Claim.ScalarDivision : Prop :=
  ∀ p ∈ divs, ∀ (f : RegF) (s : State), s.Ready (p.1 f) → TagsMatch s (p.1 f) f.t →
    ((s.me.tr.hm = true ∨ s.me.csr.fpctl.getLsbD 10 = false ∨ byZero f s = false) →
      ∃ t, exec (p.1 f) s = .next t ∧
        ScalarDone s t (p.1 f) f.w f.d (tableVal f p.2 s) (if byZero f s then 0x40#7 else 0)) ∧
    (Handles s → s.me.csr.fpctl.getLsbD 10 = true → byZero f s = true →
      ∃ t, exec (p.1 f) s = .next t ∧ Entered s t 0x10 0 0 0x40 1)

/-- R115: CMP delivers the result of the comparison that C names, as a scalar, or as a mask of all ones or zeros where W
is set and D names a predicate. -/
def Sys2Proof.Claim.ScalarCompare : Prop :=
  ∀ (f : RegF) (s : State), s.Ready (.cmp f) → TagsMatch s (.cmp f) f.t →
    ∃ t, exec (.cmp f) s = .next t ∧
      match f.w, f.d with
      | true, .pred p => PredDone s t (.cmp f) p (cmpMask s f.g p (cmpZero f s)) 0
      | w, d => ScalarDone s t (.cmp f) w d (tableVal f (cmpFn f.c) s) 0

/-- R116: MOVC delivers A with tag T; with T = 0xF, or guarded off, with A's own tag, which for a
special operand is INT64 or T (the model's choice, log 94). It checks no tag. -/
def Sys2Proof.Claim.MoveRetags : Prop :=
  ∀ (f : RegF) (s : State), s.Ready (.movc f) →
    ∃ t, exec (.movc f) s = .next t ∧
      ScalarDone s t (.movc f) f.w f.d
        { v := (s.rdS (scalarOpTag f) f.a).v
          tag := match f.t with
            | .tag u => if s.active f.g then u else (s.rdS u f.a).tag
            | .any => (s.rdS .int64 f.a).tag } 0

/-- The scalar ops with a rule of their own: division (R114), CMP (R115) and MOVC (R116). -/
def Obligations.ScalarForms : Prop := ScalarDivision ∧ ScalarCompare ∧ MoveRetags

/-- R118: every IMM op completes with its value of the table, tagged INT64; guarded off it delivers A with A's tag, LI
zero with tag INT64. No tag is checked. -/
def Sys2Proof.Claim.ImmediateOps : Prop :=
  (∀ p ∈ imms, ∀ (f : ImmF) (s : State), s.Ready (p.1 f) →
    ∃ t, exec (p.1 f) s = .next t ∧
      ScalarDone s t (p.1 f) f.w f.d
        (if s.active f.g then { v := p.2 (s.val f.a) f.imm, tag := .int64 }
         else { v := s.val f.a, tag := (s.rdS .int64 f.a).tag }) 0) ∧
  ∀ (f : ImmF) (s : State), s.Ready (.li f) →
    ∃ t, exec (.li f) s = .next t ∧
      ScalarDone s t (.li f) f.w f.d { v := if s.active f.g then f.imm.signExtend 64 else 0, tag := .int64 } 0

/-- R119: CMPI compares A with the sign-extended imm32[28:0] by the condition in imm32[31:29], and delivers the result
like CMP. -/
def Sys2Proof.Claim.ImmediateCompare : Prop :=
  ∀ (f : ImmF) (s : State), s.Ready (.cmpi f) →
    ∃ t, exec (.cmpi f) s = .next t ∧
      match f.w, f.d with
      | true, .pred p => PredDone s t (.cmpi f) p (cmpMask s f.g p (cmpiVal f s == 0)) 0
      | w, d => ScalarDone s t (.cmpi f) w d
          (if s.active f.g then { v := cmpiVal f s, tag := .int64 }
           else { v := s.val f.a, tag := (s.rdS .int64 f.a).tag }) 0

/-- The IMM ops (R118) and CMPI (R119). -/
def Obligations.Immediates : Prop := ImmediateOps ∧ ImmediateCompare

/-- R137: the lane-wise vector integer ops complete with the value of the table in every active lane, at every tag the
entry allows, with B a vector or a broadcast scalar; an inactive lane keeps A's bits (R132). -/
def Sys2Proof.Claim.VectorIntegers : Prop :=
  ∀ p ∈ laneTable, ∀ (f : RegF) (s : State), s.Ready (p.1 f) → VecTagsMatch s (p.1 f) (tagT f) →
    ∃ t v, exec (p.1 f) s = .next t ∧ VectorDone s t (p.1 f) f.w f.d v 0 ∧
      Merged s f.g (tagWidth (vT f)) (p.2.1 (vT f)) (s.rdV (vT f) f.a)
        (fun i => p.2.2 (tagWidth (vT f)) (vT f != .uint8) (laneA f s _ i) (laneB f s _ i) (laneC f s _ i)) v

/-- R137 and R139: VSEL picks A where bit i of C, tagged BITS, is 1, else B; VDOT4 adds four byte products to C's lane,
tagged INT32, and an inactive lane keeps C's bits. -/
def Sys2Proof.Claim.VectorSelectAndDot : Prop :=
  (∀ (f : RegF) (s : State), s.Ready (.vsel f) →
    VecTagsMatch s (.vsel f) (fun x t => if x.idx = 2 then t = .bits else tagT f x t) →
    ∃ t v, exec (.vsel f) s = .next t ∧ VectorDone s t (.vsel f) f.w f.d v 0 ∧
      Merged s f.g (tagWidth (vT f)) (vT f) (s.rdV (vT f) f.a)
        (fun i => if (maskBits f s f.c).getLsbD i then laneA f s _ i else laneB f s _ i) v) ∧
  ∀ (f : RegF) (s : State), s.Ready (.vdot4 f) →
    VecTagsMatch s (.vdot4 f) (fun x t => if x.idx = 2 then t = .int32 else tagT f x t) →
    ∃ t v, exec (.vdot4 f) s = .next t ∧ VectorDone s t (.vdot4 f) f.w f.d v 0 ∧
      Merged s f.g 32 .int32 (s.rdV .int32 f.c) (dotLane f s) v

/-- The vector integer ops: lane-wise ones (R137), VSEL and VDOT4 (R139). -/
def Obligations.VectorLanes : Prop := VectorIntegers ∧ VectorSelectAndDot

/-- R138 and R142: VCMP and VFCMP deliver the mask of their lane conditions; VFCMP raises IV in an active lane that
compares a NaN by order, or a signalling NaN by equality, and traps where FPCTL enables it (R42). -/
def Obligations.VectorCompares : Prop :=
  (∀ (f : RegF) (s : State), s.Ready (.vcmp f) → VecTagsMatch s (.vcmp f) (tagT f) →
    ∃ t, exec (.vcmp f) s = .next t ∧
      MaskDone s t (.vcmp f) f.w f.d f.g (2048 / tagWidth (vT f))
        (fun k => laneCond (f.x.toNat % 8) (vT f != .uint8) (laneA f s (tagWidth (vT f)) k) (laneB f s _ k)) 0) ∧
  ∀ (f : RegF) (s : State), s.Ready (.vfcmp f) → VecTagsMatch s (.vfcmp f) (tagT f) →
    let w := tagWidth (vT f)
    let flags (k : Nat) : Flags := fpCondFlags (vT f) (f.x.toNat % 8) (laneA f s w k) (laneB f s w k)
    (NoFlagTraps s →
      ∃ t fl, exec (.vfcmp f) s = .next t ∧
        MaskDone s t (.vfcmp f) f.w f.d f.g (2048 / w)
          (fun k => fpCond (vT f) (f.x.toNat % 8) (laneA f s w k) (laneB f s w k)) fl ∧
        FlagsOf s f.g (2048 / w) flags fl) ∧
    FlagsTrap s (.vfcmp f) f.g (2048 / w) flags

/-- R140, R141, R53 to R55: the lane-wise floating-point ops complete, where no flag traps, with the rounded result of
each active lane and with the flags of the active lanes alone; VFMIN and VFMAX with one of their operands, or the canonical NaN.
Where an active lane raises a flag that is enabled, they trap (R42). -/
def Sys2Proof.Claim.VectorFloats : Prop :=
  (∀ p ∈ fpTable, ∀ (f : RegF) (s : State), s.Ready (p.1 f) → VecTagsMatch s (p.1 f) (tagT f) →
    let w := tagWidth (vT f)
    let r (k : Nat) : FRes :=
      p.2 (vFmt f) (vRM f s) (laneA f s w k).toNat (laneB f s w k).toNat (laneC f s w k).toNat
    (NoFlagTraps s → FpDone f s (p.1 f) w (vT f) (s.rdV (vT f) f.a) r) ∧
    FlagsTrap s (p.1 f) f.g (2048 / w) (fun k => (r k).2)) ∧
  ∀ p ∈ [((Instr.vfmin : RegF → Instr), false), (.vfmax, true)], ∀ (f : RegF) (s : State), s.Ready (p.1 f) →
    VecTagsMatch s (p.1 f) (tagT f) →
    let w := tagWidth (vT f)
    let r (k : Nat) : FRes := minMaxLane (vT f) p.2 (laneA f s w k) (laneB f s w k)
    (NoFlagTraps s → FpDone f s (p.1 f) w (vT f) (s.rdV (vT f) f.a) r) ∧
    FlagsTrap s (p.1 f) f.g (2048 / w) (fun k => (r k).2)

/-- R140, R143 to R145: VFABS clears and VFNEG inverts the sign bit and neither raises a flag; VFCLASS gives the class of
the lane as a signed integer of the width; VFSCALE multiplies by two to the power of B; VFDOT2 adds two products to C's
FP32 lane with one rounding. The last two trap where an active lane raises a flag that is enabled (R42). -/
def Sys2Proof.Claim.VectorFloatForms : Prop :=
  (∀ (f : RegF) (s : State), s.Ready (.vfabs f) → VecTagsMatch s (.vfabs f) (tagT f) →
    MoveDone f s (.vfabs f) (fun k => laneA f s _ k &&& ~~~(BitVec.twoPow _ (tagWidth (vT f) - 1)))) ∧
  (∀ (f : RegF) (s : State), s.Ready (.vfneg f) → VecTagsMatch s (.vfneg f) (tagT f) →
    MoveDone f s (.vfneg f) (fun k => laneA f s _ k ^^^ BitVec.twoPow _ (tagWidth (vT f) - 1))) ∧
  (∀ (f : RegF) (s : State), s.Ready (.vfclass f) → VecTagsMatch s (.vfclass f) (tagT f) →
    FpDone f s (.vfclass f) (tagWidth (vT f)) (sintOf (tagWidth (vT f))) (s.rdV (vT f) f.a)
      (fun k => (fclass (vFmt f) (laneA f s (tagWidth (vT f)) k).toNat, 0))) ∧
  (∀ (f : RegF) (s : State), s.Ready (.vfscale f) →
    VecTagsMatch s (.vfscale f) (fun x t =>
      if x.idx = 1 then (if x.vec then t = sintOf (tagWidth (vT f)) else indexTag t) else tagT f x t) →
    let w := tagWidth (vT f)
    let r (k : Nat) : FRes := fscale (vFmt f) (vRM f s) (fdec (vFmt f) (laneA f s w k).toNat) (laneBInt f s w k).toInt
    (NoFlagTraps s → FpDone f s (.vfscale f) w (vT f) (s.rdV (vT f) f.a) r) ∧
    FlagsTrap s (.vfscale f) f.g (2048 / w) (fun k => (r k).2)) ∧
  ∀ (f : RegF) (s : State), s.Ready (.vfdot2 f) →
    VecTagsMatch s (.vfdot2 f) (fun x t => if x.idx = 2 then t = .fp32 else tagT f x t) →
    let r (k : Nat) : FRes :=
      let b (j : Nat) : BitVec 16 :=
        if f.x.getLsbD 3 then (s.rdS (vT f) f.b).v.extractLsb' (16 * j) 16 else lane 16 (s.rdV (vT f) f.b).v (2 * k + j)
      fdot2 (fmtOf .fp32) (vRM f s) (fdec (fmtOf .fp32) (lane 32 (s.rdV .fp32 f.c).v k).toNat)
        (fdec (vFmt f) (laneA f s 16 (2 * k)).toNat) (fdec (vFmt f) (b 0).toNat)
        (fdec (vFmt f) (laneA f s 16 (2 * k + 1)).toNat) (fdec (vFmt f) (b 1).toNat)
    (NoFlagTraps s → FpDone f s (.vfdot2 f) 32 .fp32 (s.rdV .fp32 f.c) r) ∧
    FlagsTrap s (.vfdot2 f) f.g 64 (fun k => (r k).2)

/-- The vector floating-point ops: lane-wise ones (R140, R141) and those with a form of their own (R143 to R145). That VFMA,
VFNMA and VFDOT2 raise IV for 0 times infinity beside a quiet NaN is the model's choice (log 52). -/
def Obligations.VectorFloatOps : Prop := VectorFloats ∧ VectorFloatForms

/-- R146 to R150: VCVT, VQNT, VDQNT and VLCD complete, where no flag traps, with the converted elements of the lanes they
fill, and trap where an active lane raises a flag that is enabled (R42); in rounding mode 5 they draw one word of the generator, in
every other mode none. The model's choices: that VCVT between INT8 and UINT8 saturates with SAT (log 29), the flags UF and PE of
VQNT (log 35), and that with no lane active, the lanes that are not filled counted too, A is delivered whole (log 103, between R132
and R146). -/
def Obligations.Converters : Prop :=
  (∀ (f : RegF) (s : State), s.Ready (.vcvt f) → VecTagsMatch s (.vcvt f) (tagT f) →
    let n := min (2048 / tagWidth (vT f)) (2048 / tagWidth (cvtD f))
    let r (k : Nat) : FRes := cvtElem (vT f) (cvtD f) (cvtRM f s) (cvtRnd f s k)
      (laneA f s (tagWidth (vT f)) (if tagWidth (vT f) < tagWidth (cvtD f)
        then f.x.toNat % 8 * (2048 / tagWidth (cvtD f)) + k else k)).toNat
    if vT f = .bits ∨ cvtD f = .bits then
      ∃ t v, exec (.vcvt f) s = .next t ∧ VectorDrew s t (.vcvt f) f.w f.d v 0 (cvtSeed f s) ∧
        v.v = (s.rdV (vT f) f.a).v ∧
        v.tag = (if ∃ k < 2048 / tagWidth (cvtD f), s.me.guardBit f.g k = true then cvtD f else (s.rdV (vT f) f.a).tag)
    else
      (NoFlagTraps s → CvtDone f s (.vcvt f) n r) ∧ FlagsTrap s (.vcvt f) f.g n (fun k => (r k).2)) ∧
  (∀ (f : RegF) (s : State), s.Ready (.vqnt f) → VecTagsMatch s (.vqnt f) (tagT f) →
    let n := 2048 / tagWidth (vT f)
    let sig (k : Nat) : Flags := if isSNaN (vT f) (laneA f s (tagWidth (vT f)) k) then 0x01#7 else 0
    let r (k : Nat) : FRes := qntLane f s (cvtRM f s) (cvtRnd f s k) k
    if f.x.getLsbD 0 then
      (NoFlagTraps s →
        ∃ t v fl, exec (.vqnt f) s = .next t ∧ VectorDrew s t (.vqnt f) f.w f.d v fl (cvtSeed f s) ∧ v.tag = .scale8 ∧
          v.poison = none ∧ FlagsOf s f.g n sig fl ∧
          ∀ j, j < 256 → lane 8 v.v j = if j < n / 8 then BitVec.ofNat 8 (qntScale f s j) else 0) ∧
      FlagsTrap s (.vqnt f) f.g n sig
    else (NoFlagTraps s → CvtDone f s (.vqnt f) n r) ∧ FlagsTrap s (.vqnt f) f.g n (fun k => (r k).2)) ∧
  (∀ (f : RegF) (s : State), s.Ready (.vdqnt f) →
    VecTagsMatch s (.vdqnt f) (fun x t => if x.idx = 1 then t = .scale8 else tagT f x t) →
    let n := 2048 / tagWidth (cvtD f)
    let r (k : Nat) : FRes :=
      let e := f.x.toNat % 8 * n + k
      dqntElem (vT f) (cvtD f) (cvtRM f s) (cvtRnd f s k) (lane 8 (s.rdV .scale8 f.b).v (e / 8)).toNat (laneA f s 8 e).toNat
    (NoFlagTraps s → CvtDone f s (.vdqnt f) n r) ∧ FlagsTrap s (.vdqnt f) f.g n (fun k => (r k).2)) ∧
  ∀ (f : RegF) (s : State), s.Ready (.vlcd f) →
    VecTagsMatch s (.vlcd f) (fun x t => if x.idx = 1 then t = .scale8 else tagT f x t) →
    let n := 2048 / tagWidth (cvtD f)
    let r (k : Nat) : FRes :=
      let e := f.x.toNat % 8 * (n / 8) + k / 8
      lc8Elem (cvtD f) (cvtRM f s) (cvtRnd f s k) (lane 8 (s.rdV .scale8 f.b).v e).toNat (laneA f s 16 e).toNat (k % 8)
    (NoFlagTraps s → CvtDone f s (.vlcd f) n r) ∧ FlagsTrap s (.vlcd f) f.g n (fun k => (r k).2)

/-- R151 to R153, R155 to R157, R159: the permutes and lane moves complete with the lane each names. That VEXTR extends an LC8
element, whose place R134 does not give, with zeros is the model's choice (log 102). -/
def Obligations.LaneMoves : Prop :=
  (∀ (f : RegF) (s : State), s.Ready (.vperm f) →
    VecTagsMatch s (.vperm f) (fun x t => if x.idx = 1 then
      (if x.vec then (t = sintOf (tagWidth (vT f)) ∨ (tagWidth (vT f) = 8 ∧ t = .uint8)) else indexTag t)
      else tagT f x t) →
    MoveDone f s (.vperm f) (fun k => laneA f s _ ((laneBInt f s (tagWidth (vT f)) k).toNat % (2048 / tagWidth (vT f))))) ∧
  (∀ (f : RegF) (s : State), s.Ready (.vshuf f) → VecTagsMatch s (.vshuf f) (tagT f) →
    MoveDone f s (.vshuf f) (shufLane f s _)) ∧
  (∀ (f : RegF) (s : State), s.Ready (.vbcast f) → VecTagsMatch s (.vbcast f) (tagT f) →
    ∃ t v, exec (.vbcast f) s = .next t ∧ VectorDone s t (.vbcast f) f.w f.d v 0 ∧
      Zeroed s f.g (tagWidth (vT f)) (vT f) (fun _ => (s.rdS (vT f) f.a).v.setWidth _) v) ∧
  (∀ (f : RegF) (s : State), s.Ready (.vcmprs f) →
    VecTagsMatch s (.vcmprs f) (fun x t => if x.idx = 1 then t = .bits else tagT f x t) →
    MoveDone f s (.vcmprs f) (packLane f s _)) ∧
  (∀ (f : RegF) (s : State), s.Ready (.vexpnd f) →
    VecTagsMatch s (.vexpnd f) (fun x t => if x.idx = 1 then t = .bits else tagT f x t) →
    MoveDone f s (.vexpnd f) (fun k =>
      if (maskBits f s f.b).getLsbD k then laneA f s _ (maskRank f s k) else 0)) ∧
  (∀ (f : RegF) (s : State), s.Ready (.vslide f) →
    VecTagsMatch s (.vslide f) (fun x t => if x.idx = 1 then indexTag t else tagT f x t) →
    MoveDone f s (.vslide f) (slideLane f s _)) ∧
  (∀ (f : RegF) (s : State), s.Ready (.vins f) →
    VecTagsMatch s (.vins f) (fun x t => if x.idx = 1 then indexTag t else tagT f x t) →
    MoveDone f s (.vins f) (fun k => if k = (s.rdS .int64 f.b).v.toNat % (2048 / tagWidth (vT f))
      then (s.rdS (vT f) f.c).v.setWidth _ else laneA f s _ k)) ∧
  (∀ (f : RegF) (s : State), s.Ready (.vextr f) →
    VecTagsMatch s (.vextr f) (fun x t => if x.idx = 1 then indexTag t else tagT f x t) →
    ∃ t, exec (.vextr f) s = .next t ∧
      ScalarDone s t (.vextr f) f.w f.d
        { v := placed (vT f) (laneA f s _ (if s.active f.g
            then (s.rdS .int64 f.b).v.toNat % (2048 / tagWidth (vT f)) else 0)), tag := vT f } 0) ∧
  ∀ (f : RegF) (s : State), s.Ready (.vclmul f) →
    VecTagsMatch s (.vclmul f) (fun x t => if x.vec then t = vT f else (indexTag t ∨ t = .bits)) →
    ∃ t v, exec (.vclmul f) s = .next t ∧ VectorDone s t (.vclmul f) f.w f.d v 0 ∧
      Merged s f.g 64 .bits { s.rdV .int64 f.a with tag := (s.rdV (vT f) f.a).tag } (clmulLane f s) v

/-- R51, R52, R154: VRED under an integer tag or BITS delivers the combination of its active lanes, in any order, placed
under R134, and the identity where no lane is active; VSCAN delivers the running combinations, an inactive lane taking the
running value. Under a floating-point tag VRED delivers the value of the pairwise tree, and VSCAN its running values, with
the flags of their stages. -/
def Obligations.Reductions : Prop :=
  (∀ (f : RegF) (s : State), s.Ready (.vred f) → VecTagsMatch s (.vred f) (tagT f) → NoFlagTraps s →
    ∃ t, exec (.vred f) s = .next t ∧
      if isFpTag (vT f) then
        ScalarDone s t (.vred f) f.w f.d { v := placeElem (vT f) (redOf f s).1, tag := vT f } (orFlags (redOf f s).2)
      else
        ScalarDone s t (.vred f) f.w f.d
          { v := placed (vT f) (runningRed f s (tagWidth (vT f)) (2048 / tagWidth (vT f) - 1)), tag := vT f } 0) ∧
  ∀ (f : RegF) (s : State), s.Ready (.vscan f) → VecTagsMatch s (.vscan f) (tagT f) → NoFlagTraps s →
    ∃ t v fl, exec (.vscan f) s = .next t ∧ VectorDone s t (.vscan f) f.w f.d v fl ∧ v.tag = vT f ∧ v.poison = none ∧
      (∀ k, k < 2048 / tagWidth (vT f) → lane (tagWidth (vT f)) v.v k =
        if isFpTag (vT f) then BitVec.ofNat _ ((scanLanes f s).getD k (0, 0)).1 else runningRed f s _ k) ∧
      FlagsOf s f.g (2048 / tagWidth (vT f)) (fun k => ((scanLanes f s).getD k (0, 0)).2) fl

/-- R158, R160, R161: VRETAG changes the tag alone; VLI fills every active lane with its immediate and zeroes the others;
VADDI adds its immediate in every active lane under A's own integer tag. A special operand of VRETAG with T = 0xF, and A of a
VADDI that is special, take INT64 (the model's choice, log 94), and VLI.d of a signalling NaN raises no flag (log 109). -/
def Obligations.VectorImmediates : Prop :=
  (∀ (f : RegF) (s : State), s.Ready (.vretag f) →
    ∃ t v, exec (.vretag f) s = .next t ∧ VectorDone s t (.vretag f) f.w f.d v 0 ∧ v.poison = none ∧
      v.v = (s.rdV (retagSpecial f) f.a).v ∧
      match f.t with
      | .any => v.tag = uncheckedTag f.a (s.rdV .int64 f.a).tag
      | .tag u => v.tag = if ∃ k < 2048 / tagWidth u, s.me.guardBit f.g k = true then u else uncheckedTag f.a (s.rdV u f.a).tag) ∧
  (∀ (f : ImmF) (s : State), s.Ready (.vli f) →
    ∃ t v, exec (.vli f) s = .next t ∧ VectorDone s t (.vli f) f.w f.d v 0 ∧
      Zeroed s f.g (tagWidth (vliTag f)) (vliTag f) (fun _ =>
        match vliTag f with
        | .int64 => (f.imm.signExtend 64).setWidth _
        | .fp64 => BitVec.ofNat _ (cvtFF (fmtOf .fp32) (fmtOf .fp64) .rne 0 f.imm.toNat).1
        | _ => f.imm.setWidth _) v) ∧
  ∀ (f : ImmF) (s : State), s.Ready (.vaddi f) → VecTagsMatch s (.vaddi f) (fun _ t => isIntTag t = true) →
    ∃ t v, exec (.vaddi f) s = .next t ∧ VectorDone s t (.vaddi f) f.w f.d v 0 ∧
      Merged s f.g (tagWidth (s.rdV .int64 f.a).tag) (s.rdV .int64 f.a).tag (s.rdV .int64 f.a)
        (fun k => lane _ (s.rdV .int64 f.a).v k + (f.imm.signExtend 64).setWidth _) v

/-- R166, R167, R171, R178, R179: LD, LDU and LDP complete, on an access that passes R178, with the bytes of their address,
extended and tagged INT64; on one that fails they trap; guarded off they access nothing and push A. The load is performed as it
retires, after those stores of the context that stand in its queue up to the last one to its words, which is the model's choice of
a time (log 12): no byte of memory changes but what these stores and the walk of the translation write. -/
def Sys2Proof.Claim.ScalarLoads : Prop :=
  ∀ p ∈ loads, ∀ (f : MemF) (s : State), s.Ready (p.1 f) →
    (s.active f.g = true → AccPasses s (p.2.1 f 0 s) →
      ∃ t, exec (p.1 f) s = .next t ∧
        let s0 := accessed s true (p.2.1 f 0 s)
        ScalarDone s0 t (p.1 f) f.w f.d (loadVal s0 (p.2.1 f 0 s) p.2.2) 0) ∧
    (s.active f.g = true → AccessTraps s (p.1 f) [p.2.1 f 0 s]) ∧
    (s.active f.g = false →
      ∃ t, exec (p.1 f) s = .next t ∧
        ScalarDone s t (p.1 f) f.w f.d { v := s.val f.a, tag := (s.rdS .int64 f.a).tag } 0)

/-- R58, R166, R171: ST and STP place the low bytes of B in the store queue at the bytes of their address, and change no
register and no byte of memory but what the walk writes; on an access that fails R178 they trap; guarded off they do nothing. -/
def Sys2Proof.Claim.ScalarStores : Prop :=
  ∀ p ∈ stores, ∀ (f : MemF) (s : State), s.Ready (p.1 f) →
    (s.active f.g = true → AccPasses s (p.2 f 1 s) →
      ∃ t, exec (p.1 f) s = .next t ∧
        let s0 := accessed s false (p.2 f 1 s)
        StepsAs s0 (stored s0.me [.store (storeCells s0 (p.2 f 1 s) (s.val f.b))]) t (p.1 f) 0 ∧ RegsKept s.me t) ∧
    (s.active f.g = true → AccessTraps s (p.1 f) [p.2 f 1 s]) ∧
    (s.active f.g = false → ∃ t, exec (p.1 f) s = .next t ∧ Steps s t (p.1 f) 0 ∧ RegsKept s.me t)

/-- R178: the causes of the rows: alignment 0x22, range 0x24, a gated bank 0x25, translation 0x20, permission 0x21; an atomic fails
the first where its address is no multiple of its size, a load or a store never does. -/
def Sys2Proof.Claim.AccessRows : Prop :=
  ∀ (s : State) (core k : Nat) (task : Option Task) (a : Acc1),
    (∀ p ∈ [(1, 0x22), (2, 0x24), (3, 0x25), (4, 0x20), (5, 0x21)], ∀ c, s.accFails core k task a p.1 = some c → c = p.2) ∧
    (s.accFails core k task a 1 ≠ none ↔ a.aligned = true ∧ a.va.toNat % a.n ≠ 0) ∧
    (∀ o, s.ownOff core a.va = some o → a.kind ≠ 3 → ((s.accFails core k task a 3 ≠ none) ↔
      ∃ i, i < a.n ∧ (s.core core).gated (o + i) = true))

/-- The scalar loads and stores (R166 to R171), and the checks of every access (R178). When a load is performed, and which queued
stores precede it, is the model's choice (log 12). -/
def Obligations.ScalarAccesses : Prop := ScalarLoads ∧ ScalarStores ∧ AccessRows

/-- R175, R176, R179: an atomic first has every earlier store of its context performed (not a rule: the model's reading of R166,
log 12), then reads its bytes, writes the
new value to them and pushes the old one; on a poisoned line it writes nothing. On an access that fails R178, a misaligned one
first, it traps. Guarded off it pushes A. -/
def Obligations.Atomics : Prop :=
  ∀ p ∈ atoms, ∀ (f : MemF) (s : State), s.Ready (p.1 f) →
    (s.active f.g = true → AccPasses s (atomAcc f s) →
      ∃ t, exec (p.1 f) s = .next t ∧
        ScalarDone (atomWritten f s p.2.2) t (p.1 f) f.w f.d (atomOldVal f s p.2.1) 0) ∧
    (s.active f.g = true → AccessTraps s (p.1 f) [atomAcc f s]) ∧
    (s.active f.g = false →
      ∃ t, exec (p.1 f) s = .next t ∧
        ScalarDone s t (p.1 f) f.w f.d
          { v := s.val f.a, tag := (s.rdS (if f.sz = .word then .int32 else .int64) f.a).tag } 0)

/-- R172 to R174, R179: VLD, VLDS and VLDX load the element of every active lane at the address of its form and zero every
other lane; VLDB loads one element and gives it to every active lane. The result carries T; where an element is poisoned
the value is, with the address of the first active element of a contiguous access, else of the first poisoned one. Where an
element fails R178 the op traps. -/
def Sys2Proof.Claim.VectorLoads : Prop :=
  (∀ p ∈ vloads, ∀ (f : MemF) (s : State), s.Ready (p.1 f) → IndexOk s f p.2 →
    let t0 := tagOf (memT f)
    let els := elems f p.2 t0 s
    ((∀ a ∈ elemAccs p.2 (tagWidth t0 / 8) 0 els s, AccPasses s a) →
      ∃ t v, exec (p.1 f) s = .next t ∧
        let r := State.loadElems (tagWidth t0 / 8) els (s.implicitMark true)
        VectorDone r.1 t (p.1 f) f.w f.d v 0 ∧ v.tag = t0 ∧
        v.poison = (if r.2.2.isSome then (if p.2 = .contiguous then els.head?.map (·.2) else r.2.2) else none) ∧
        ∀ j, j < 2048 / tagWidth t0 → lane (tagWidth t0) v.v j = loadedLane r.2.1 _ j) ∧
    AccessTraps s (p.1 f) (elemAccs p.2 (tagWidth t0 / 8) 0 els s)) ∧
  ∀ (f : MemF) (s : State), s.Ready (.vldb f) →
    let t0 := tagOf (memT f)
    let a : Acc1 := { lane := 0, va := s.val f.a + (f.disp.extractLsb' 0 18).signExtend 64, n := tagWidth t0 / 8, kind := 0 }
    if ∃ j < 2048 / tagWidth t0, s.me.guardBit f.g j = true then
      (AccPasses s a →
        ∃ t v, exec (.vldb f) s = .next t ∧ VectorDone (accessed s true a) t (.vldb f) f.w f.d v 0 ∧ v.tag = t0 ∧
          v.poison = (if readBad (accessed s true a) a false then some a.va else none) ∧
          ∀ j, j < 2048 / tagWidth t0 → lane (tagWidth t0) v.v j =
            if s.me.guardBit f.g j then BitVec.ofNat _ (leNat (readBytes (accessed s true a) a false)) else 0) ∧
      AccessTraps s (.vldb f) [a]
    else
      ∃ t, exec (.vldb f) s = .next t ∧ VectorDone s t (.vldb f) f.w f.d { v := 0, tag := t0 } 0

/-- R166, R172 to R174: VST and VSTS place the elements of their active lanes in the store queue as one store, VSTX as one
store for each element, in ascending lane order; no register is written, and no byte of memory but by the walks. Where an element
fails R178 the op traps. -/
def Sys2Proof.Claim.VectorStores : Prop :=
  ∀ p ∈ vstores, ∀ (f : MemF) (s : State), s.Ready (p.1 f) → IndexOk s f p.2.1 →
    (isSpecial (p.2.2 f) = false ∨ p.2.1 = .indexed → memT f ≠ 15 →
      uncheckedTag (p.2.2 f) (s.rdV (vmemOpTag f) (p.2.2 f)).tag = tagOf (memT f)) →
    let t0 := if memT f = 15 then uncheckedTag (p.2.2 f) (s.rdV .int64 (p.2.2 f)).tag else tagOf (memT f)
    let n := tagWidth t0 / 8
    let els := elems f p.2.1 t0 s
    let data := (s.rdV (vmemOpTag f) (p.2.2 f)).v
    ((∀ a ∈ elemAccs p.2.1 n 1 els s, AccPasses s a) →
      ∃ t, exec (p.1 f) s = .next t ∧ RegsKept s.me t ∧
        let s0 := walked s n 1 els
        let cells := els.map (elemCells s0 n data)
        StepsAs s0 (stored s0.me (if p.2.1 = .indexed then cells.map .store
          else if els = [] then [] else [.store cells.flatten])) t (p.1 f) 0) ∧
    AccessTraps s (p.1 f) (elemAccs p.2.1 n 1 els s)

/-- The vector loads and stores (R172 to R174). The model's choices: the address that the poisoned value of a VLD, VLDS or VLDX
names among several (log 34), the time a load is performed and the queued stores that precede it (log 12), and the INT64 lanes of a
special data operand stored under T = 0xF (log 94). -/
def Obligations.VectorAccesses : Prop := VectorLoads ∧ VectorStores

/-- R166, R167, R169, R177: MARK completes with itself in both queues and nothing performed, and a load that finds it there is
preceded by every entry up to it; FENCE completes with every store of the context performed, in order (a store is performed at
every scope at once, log 12); CWB and CINV place the line of a translated address in the store queue, do nothing on a
scratchpad address, and change no register. Guarded off each does nothing. -/
def Obligations.OrderingOps : Prop :=
  (∀ (f : MemF) (s : State), s.Ready (.mark f) →
    ∃ t, exec (.mark f) s = .next t ∧ RegsKept s.me t ∧
      if s.active f.g then
        StepsAs s { s.me with storeQ := s.me.storeQ ++ [.mark], loadQ := s.me.loadQ ++ [.mark] } t (.mark f) 0
      else Steps s t (.mark f) 0) ∧
  (∀ (s : State) (a : Acc1) (pre post : List StoreEnt), s.me.storeQ = pre ++ .mark :: post →
    ∃ done, done ++ (s.beforeLoad a).me.storeQ = post) ∧
  (∀ (f : MemF) (s : State), s.Ready (.fence f) →
    ∃ t, exec (.fence f) s = .next t ∧ RegsKept s.me t ∧
      if s.active f.g then Steps s.drainMe t (.fence f) 0 ∧ t.me.storeQ = [] else Steps s t (.fence f) 0) ∧
  ∀ p ∈ [((Instr.cwb : MemF → Instr), StoreEnt.cwb), (.cinv, .cinv)], ∀ (f : MemF) (s : State), s.Ready (p.1 f) →
    let a : Acc1 := { lane := 0, va := ea f s, n := 1, kind := 3 }
    (s.active f.g = true → AccPasses s a →
      ∃ t, exec (p.1 f) s = .next t ∧ RegsKept s.me t ∧
        if s.isMapped s.cur.core a.va then
          let s0 := s.touchAcc s.cur.core s.myTask a
          ∃ pa, s0.locs s.cur.core s.myTask a.va 1 false = [.phys pa] ∧
            StepsAs s0 (stored s0.me [p.2 (pa / 64)]) t (p.1 f) 0
        else Steps s t (p.1 f) 0) ∧
    (s.active f.g = false → ∃ t, exec (p.1 f) s = .next t ∧ Steps s t (p.1 f) 0 ∧ RegsKept s.me t)

/-- R166, R225, R227, R336: performing the oldest store of a queue writes its bytes and nothing else: outside them every byte of
the core's scratchpad and of physical memory, and every byte of every other core, reads as before; a byte of physical
memory whose port is not down reads as the last value stored to it. The tile-table entry of a slot that is written has CLASS GENERAL,
or SPOIL where it is FILLING, and NF where an element that holds a written byte is not finite under TAG; every other entry is as
before. -/
def Obligations.StorePerformed : Prop :=
  ∀ (s : State) (c k : Nat) (cs : List (Loc × Byte)) (rest : List StoreEnt),
    s.phys.mem.wf = true → (s.core c).spad.wf = true → (s.ctx c k).storeQ = .store cs :: rest →
    let t := s.performOne c k
    (t.ctx c k).storeQ = rest ∧
    (∀ o, (∀ p ∈ cs, p.1 ≠ .spad o) → (t.core c).spad.read o = (s.core c).spad.read o) ∧
    (∀ a, (∀ p ∈ cs, p.1 ≠ .phys a) → t.phys.mem.read a = s.phys.mem.read a) ∧
    (∀ d, d ≠ c → t.core d = s.core d) ∧
    (∀ pre x post o, cs = pre ++ (.spad o, x) :: post → (∀ p ∈ post, p.1 ≠ .spad o) →
      (s.core c).gated o = false → (t.core c).spad.read o = x) ∧
    (∀ pre x post a, cs = pre ++ (.phys a, x) :: post → (∀ p ∈ post, p.1 ≠ .phys a) →
      s.portDown a = false → t.phys.mem.read a = x) ∧
    ((∀ p ∈ cs, ∀ o, p.1 = .spad o → o < 0x80000) → ∀ n, n < 128 →
      let hits (o : Nat) : Prop := o / 4096 = n ∧ (s.core c).gated o = false ∧ ∃ p ∈ cs, p.1 = .spad o
      let e := (s.core c).tile n
      let e2 := (t.core c).tile n
      ((∀ o, ¬ hits o) → e2 = e) ∧
      ((∃ o, hits o) → e2.tag = e.tag ∧ e2.st = e.st ∧
        (e.st = .filling → e2.spoil = true ∧ e2.cls = e.cls) ∧ (e.st ≠ .filling → e2.cls = .general ∧ e2.spoil = e.spoil) ∧
        (e2.nf = true ↔ e.nf = true ∨ ∃ o, hits o ∧ notFinite e.tag (elemHolding (t.core c).spad e.tag o) = true)))

/-- R120 to R122: a branch whose target is legal goes to it when it is active and its condition holds, else to the word
behind; CALL and CALLI push the return offset; nothing else is written. -/
def Sys2Proof.Claim.Branches : Prop :=
  ∀ b ∈ branches, ∀ (f : BrF) (s : State), s.Ready (b.ins f) → (b.takes f s = true → legalTarget (b.target f s)) →
    ∃ t, exec (b.ins f) s = .next t ∧
      StepsTo s s.me t (if b.takes f s then BitVec.ofInt 16 (b.target f s) else s.me.pc + 8#16) 0 ∧
      t.me.files = s.me.files ∧ t.me.csr.rngseed = s.me.csr.rngseed ∧
      match b.push f s with
      | some v => ScalarPushed s t v
      | none => t.me.q = s.me.q

/-- R7, R120, R182, R193: a branch that would be taken to a target outside the instruction scratchpad, or to one that is no
multiple of eight, traps with cause 0x20 and the target in TRAPINFO0, and does nothing else. -/
def Sys2Proof.Claim.BranchTargetTraps : Prop :=
  ∀ b ∈ branches, ∀ (f : BrF) (s : State), s.Ready (b.ins f) → Handles s → b.takes f s = true → ¬ legalTarget (b.target f s) →
    ∃ t, exec (b.ins f) s = .next t ∧ Entered s t 0x20 0 (BitVec.ofInt 64 (b.target f s)) 0 1

/-- Branches, and their trap on a target that breaks R7 (R120 to R122). -/
def Obligations.ControlFlow : Prop := Branches ∧ BranchTargetTraps

/-- R123: an active LOOP counts its register down, pushes the count, rotates the bases and shifts the stage predicates it
names, and branches while the count and the stages are left; guarded off it pushes A. -/
def Obligations.Loops : Prop :=
  ∀ (f : BrF) (s : State), s.Ready (.loop f) →
    let c := s.val f.a - 1
    let v : SVal := { v := c, tag := .int64 }
    let n := f.shift.toNat
    let taken : Prop := s.active f.g = true ∧ 0 < c.toInt + (max n 1 : Nat) - 1
    (taken → legalTarget (direct f s)) →
    ∃ t, exec (.loop f) s = .next t ∧
      (taken → StepsTo s s.me t (BitVec.ofInt 16 (direct f s)) 0) ∧ (¬ taken → Steps s t (.loop f) 0) ∧
      t.me.csr.rngseed = s.me.csr.rngseed ∧
      if s.active f.g then
        ScalarPushed s t v ∧
        (∀ r, t.me.files.s.get r = if f.a = .near r then v else s.me.files.s.get r) ∧
        (∀ r, t.me.files.g.get r = if f.a = .far r then v else s.me.files.g.get r) ∧
        t.me.files.v = s.me.files.v ∧ t.me.files.w = s.me.files.w ∧ t.me.files.m = s.me.files.m ∧
        (∀ r, t.me.files.b.get r = stageBase s f.rot.toNat r) ∧
        (∀ r, t.me.pred r = stagePred s n (if 0 < c.toInt then BitVec.allOnes 256 else 0) r)
      else ScalarPushed s t (offA s f.a) ∧ t.me.files = s.me.files

/-- R124, R125, R204, R296, R301: outside handler mode END ends its context and empties its standing set, an eddy's bank
going to ENDING; YIELD asks for A cycles, from 1 to 4096, in which its context issues nothing; guarded off each does
nothing. -/
def Sys2Proof.Claim.EndAndYield : Prop :=
  (∀ (f : BrF) (s : State), s.Ready (.endOp f) → s.me.tr.hm = false →
    ∃ t, exec (.endOp f) s = .next t ∧ RegsKept s.me t ∧
      if s.active f.g then
        let s0 := if s.cur.ctx % 4 = 0 then s else s.updMyCore (fun x => x.updBank s.cur.ctx (fun b =>
          { b with st := .ending, exit := if b.origin then b.exit else 0xFE }))
        StepsAs s0 { s.me with run := .ended, standing := [] } t (.endOp f) 0
      else Steps s t (.endOp f) 0) ∧
  ∀ (f : BrF) (s : State), s.Ready (.yield f) → s.me.tr.hm = false →
    ∃ t, exec (.yield f) s = .next t ∧ Steps s t (.yield f) 0 ∧ RegsKept s.me t ∧
      t.me.waits.yield = if s.active f.g then max 1 (min (s.val f.a).toNat 4096) else s.me.waits.yield

/-- R126, R127: outside handler mode WAITEV completes when its dword differs from B or its bound has passed, pushing
whether it still equals B; IDLE completes when a wake is pending, which it clears, and else puts its context to idle with
the program counter at it. -/
def Sys2Proof.Claim.Waits : Prop :=
  (∀ (f : SysF) (s : State), s.Ready (.waitev f) → s.me.tr.hm = false →
    (s.active f.g = true → AccPasses s (waitAcc f s) → (s.val f.a).toNat % 8 = 0 → (s.val f.a).toNat < 0x80000 →
      (waitWord f s ≠ s.val f.b ∨ (f.imm ≠ 0 ∧ 64 * f.imm.toNat ≤ waited s)) →
      ∃ t, exec (.waitev f) s = .next t ∧
        ScalarDone (accessed s true (waitAcc f s)) t (.waitev f) f.w f.d
          { v := if waitWord f s = s.val f.b then 1 else 0, tag := .int64 } 0) ∧
    (s.active f.g = false →
      ∃ t, exec (.waitev f) s = .next t ∧ ScalarDone s t (.waitev f) f.w f.d (offA s f.a) 0)) ∧
  ∀ (f : SysF) (s : State), s.Ready (.idle f) → s.me.tr.hm = false →
    (s.active f.g = false ∨ s.me.tr.wake = true ∨ s.me.waits.idleWoken = true →
      ∃ t, exec (.idle f) s = .next t ∧ RegsKept s.me t ∧
        StepsAs s (if s.active f.g ∧ s.me.waits.idleWoken = false then { s.me with tr := { s.me.tr with wake := false } }
          else s.me) t (.idle f) 0) ∧
    (s.active f.g = true → s.me.tr.wake = false → s.me.waits.idleWoken = false →
      ∃ t, exec (.idle f) s = .next t ∧ s.SameElsewhere t ∧ RegsKept s.me t ∧ t.me.pc = s.me.pc ∧ t.me.waits.idle = true)

/-- END, YIELD, WAITEV and IDLE (R124 to R127). The model's choices: the status that a WAITEV pushes is not poisoned where its dword
is (log 106), and which unreported fault an END leaves with the task (log 110). -/
def Obligations.ContextOps : Prop := EndAndYield ∧ Waits

/-- R22 to R25, R195, R294, R296, R340, R351, R360, R362, R368, R389, R436: CSRR of any control register the spec lists completes
with the register's value, in any mode; guarded off it delivers zero. That COPY of BUDGET is rounded down is the model's reading
(log 65). -/
def Obligations.CsrReads : Prop :=
  ∀ (f : SysF) (s : State), s.Ready (.csrr f) → f.csr.toNat ∈ csrNumbers →
    ∃ t, exec (.csrr f) s = .next t ∧
      ScalarDone s t (.csrr f) f.w f.d { v := if s.active f.g then csrVal f.csr.toNat s else 0, tag := .int64 } 0

/-- R22, R41, R193 to R195: CSRW, CSRS and CSRC of a context's register push the old value and store the new one, as far as
the register's fields go, and write no other register: FPCTL, FPSTAT, RNGSEED and DISCARD in any mode, the trap registers in
handler mode. Guarded off they push A. -/
def Sys2Proof.Claim.CsrWrites : Prop :=
  ∀ p ∈ csrWrites, ∀ (f : SysF) (s : State), s.Ready (p.1 f) →
    (f.csr.toNat ∈ userCsrs ∨ (f.csr.toNat ∈ trapCsrs ∧ s.me.tr.hm = true)) →
    ∃ t, exec (p.1 f) s = .next t ∧
      if s.active f.g then
        ScalarDoneAs s
          (csrStored f.csr.toNat (p.2.1 (s.csr f.csr.toNat) (csrOpd f s)) (csrOpd f s) p.2.2 s.me) t (p.1 f) f.w f.d
          { v := s.csr f.csr.toNat, tag := .int64 } 0
      else ScalarDone s t (p.1 f) f.w f.d (offA s f.a) 0

/-- R294, R351: in an owner a write of LENDCFG with no lend in force stores the writable fields; a write of a RINGPTR moves
the ring's HEAD. Each pushes the old value. -/
def Sys2Proof.Claim.LendAndRingWrites : Prop :=
  ∀ p ∈ csrWrites, ∀ (f : SysF) (s : State), s.Ready (p.1 f) → s.active f.g = true →
    let x := p.2.1 (s.csr f.csr.toNat) (csrOpd f s)
    let v : SVal := { v := s.csr f.csr.toNat, tag := .int64 }
    (f.csr = 0x020#12 → s.cur.ctx % 4 = 0 → s.myCore.lend.cfg.active = false →
      ∃ t, exec (p.1 f) s = .next t ∧
        ScalarDoneAs (s.updMyCore (fun y => { y with lend := { y.lend with cfg := { y.lend.cfg with
          auto := x.getLsbD 25, keep := x.getLsbD 24, share := (x.extractLsb' 16 7).toNat,
          count := (x.extractLsb' 8 8).toNat, start := (x.extractLsb' 0 7).toNat } } })) s.me t (p.1 f) f.w f.d v 0) ∧
    (0x214 ≤ f.csr.toNat → f.csr.toNat ≤ 0x217 → ∀ k r, s.me.task = some k → s.ringNo f.csr.toNat = some r →
      Ring.used { r with head := x.toNat % 2 ^ 32 } ≤ 2 ^ r.log →
      ∃ t, exec (p.1 f) s = .next t ∧
        ScalarDoneAs (s.updRing k (dieOf s.cur.core) (f.csr.toNat % 4) (fun r => { r with head := x.toNat % 2 ^ 32 })) s.me t
          (p.1 f) f.w f.d v 0)

/-- R22, R182, R193, R195: outside handler mode, a write of a read-only register or of a trap register traps with cause
0x52 and its number in TRAPINFO0; so does an eddy's write of LENDCFG. -/
def Sys2Proof.Claim.CsrPrivilege : Prop :=
  ∀ p ∈ csrWrites, ∀ (f : SysF) (s : State), s.Ready (p.1 f) → Handles s →
    (f.csr.toNat ∈ roCsrs ∨ f.csr.toNat ∈ trapCsrs ∨ (f.csr = 0x020#12 ∧ s.cur.ctx % 4 ≠ 0)) →
    ∃ t, exec (p.1 f) s = .next t ∧ Entered s t 0x52 0 (f.csr.setWidth 64) 0 1

/-- Writes of control registers, of LENDCFG and of ring pointers, and what privilege refuses (R22, R195). -/
def Obligations.CsrAccess : Prop := CsrWrites ∧ LendAndRingWrites ∧ CsrPrivilege

/-- R182, R186, R193, R196, R197: BRK, where the task is not under debug and no displaced op stands at it, traps with cause
0x50 and IMM14 in TRAPINFO1; TRAP leaves its software event pending, with A and IMM14, and goes on. Guarded off each does
nothing. -/
def Sys2Proof.Claim.SoftwareTraps : Prop :=
  (∀ (f : SysF) (s : State), s.Ready (.brk f) →
    (s.active f.g = true → Handles s → (∀ k, s.myTask = some k → k.debug = false) →
      s.myCore.displaced.any (fun d => d.off == s.me.pc.toNat) = false →
      ∃ t, exec (.brk f) s = .next t ∧ Entered s t 0x50 0 0 (f.imm.setWidth 64) 1) ∧
    (s.active f.g = false → ∃ t, exec (.brk f) s = .next t ∧ Steps s t (.brk f) 0 ∧ RegsKept s.me t)) ∧
  ∀ (f : SysF) (s : State), s.Ready (.trap f) →
    ∃ t, exec (.trap f) s = .next t ∧ RegsKept s.me t ∧
      StepsAs s (if s.active f.g then
        { s.me with pend := { soft := true, record := ⟨0x51, s.val f.a, f.imm.setWidth 64⟩ } :: s.me.pend } else s.me) t (.trap f) 0

/-- R198: in handler mode an active ERET returns to EPC with its low bits zero, leaves handler mode and discards the handler
queue; it restores nothing else. Outside handler mode it traps with cause 0x52. -/
def Sys2Proof.Claim.HandlerReturn : Prop :=
  (∀ (f : SysF) (s : State), s.Ready (.eret f) → s.me.tr.hm = true →
    ∃ t, exec (.eret f) s = .next t ∧
      if s.active f.g then
        StepsTo s { s.me with tr := { s.me.tr with hm := false } } t (s.me.tr.epc &&& 0xFFF8#16) 0 ∧
        t.me.q.sq = s.me.q.sq ∧ t.me.q.vq = s.me.q.vq ∧ (∀ r, t.me.q.hq.get r = none) ∧
        t.me.files = s.me.files ∧ t.me.csr.rngseed = s.me.csr.rngseed
      else Steps s t (.eret f) 0 ∧ RegsKept s.me t) ∧
  ∀ (f : SysF) (s : State), s.Ready (.eret f) → Handles s →
    ∃ t, exec (.eret f) s = .next t ∧ Entered s t 0x52 0 (encodeWord (.eret f)) 0 1

/-- BRK, TRAP and ERET (R196 to R198). -/
def Obligations.TrapOps : Prop := SoftwareTraps ∧ HandlerReturn

/-- R210, R214, R215: WEIRSET and its two forms push the old weirs and write the new, between WEIRF and the limit of the
context, WEIRW between WEIRF and 768; a value outside traps with cause 0x52. WEIRQ delivers the weirs, the standing weight
or the weight of the window. -/
def Obligations.Weirs : Prop :=
  (∀ p ∈ weirs, ∀ (f : SysF) (s : State), s.Ready (p.1 f) →
    (s.active f.g = true → p.2.1 f s = true →
      ∃ t, exec (p.1 f) s = .next t ∧
        ScalarDoneAs s { s.me with csr := p.2.2 f s } t (p.1 f) f.w f.d (oldWeirs s) 0) ∧
    (s.active f.g = true → p.2.1 f s = false → Handles s →
      ∃ t, exec (p.1 f) s = .next t ∧ Entered s t 0x52 0 (encodeWord (p.1 f)) 0 1) ∧
    (s.active f.g = false → ∃ t, exec (p.1 f) s = .next t ∧ ScalarDone s t (p.1 f) f.w f.d (offA s f.a) 0)) ∧
  ∀ (f : SysF) (s : State), s.Ready (.weirq f) →
    ∃ t, exec (.weirq f) s = .next t ∧
      ScalarDone s t (.weirq f) f.w f.d
        { v := if s.active f.g then
            (match f.imm.toNat with
             | 0 => BitVec.ofNat 64
                (s.me.csr.weirc * 2 ^ 48 + s.me.csr.weirf * 2 ^ 32 + s.me.csr.weirw * 2 ^ 16 + s.me.csr.weira)
             | 1 => BitVec.ofNat 64 ((s.me.standing.map (·.wt)).sum)
             | _ => BitVec.ofNat 64 ((s.me.window.take 7).sum))
            else 0, tag := .int64 } 0

/-- R47, R162, R163: an active SEED sets the generator to A and writes nothing else; RNGPOP draws one word whatever its
guard, and delivers it, or zero when it is guarded off. -/
def Obligations.Generator : Prop :=
  (∀ (f : SysF) (s : State), s.Ready (.seed f) →
    ∃ t, exec (.seed f) s = .next t ∧ t.me.q = s.me.q ∧ t.me.files = s.me.files ∧ Steps s t (.seed f) 0 ∧
      t.me.csr.rngseed = if s.active f.g then s.val f.a else s.me.csr.rngseed) ∧
  ∀ (f : SysF) (s : State), s.Ready (.rngpop f) →
    ∃ t, exec (.rngpop f) s = .next t ∧ Steps s t (.rngpop f) 0 ∧ t.me.csr.rngseed = (popped s.me.csr.rngseed).2 ∧
      let v : SVal := { v := if s.active f.g then (popped s.me.csr.rngseed).1 else 0, tag := .int64 }
      ScalarPushed s t v ∧ ScalarWritten s t f.w f.d v

/-- R225, R228, R234 to R236, R265: in an owner an active TZERO, TFILL, TIDENT, TCLASS, TCOPY or MDRAIN, whose slots are
free, queues its command and moves its destination to FILLING; with its slot off in the guard mask it only consumes and
produces its tokens. -/
def Obligations.TileWriters : Prop :=
  ∀ p ∈ fillers, ∀ (f : TileF) (s : State), s.Ready (p.1 f) → Owner s → TokensReady s (tins f) f.out →
    (∀ g, p.1 f = .mdrain g → tagAt f.b ∈ drainTags (visible s f.a.toNat)) →
    (s.me.tguardBit f.g f.d.toNat = true → SlotFree s f.d.toNat false → (∀ n ∈ p.2.1 f, SlotFree s n true) →
      ∃ t, exec (p.1 f) s = .next t ∧ Queued s t (p.1 f) (tins f) f.out 0 none (p.2.2 f s) (filling f.d.toNat)) ∧
    (s.me.tguardBit f.g f.d.toNat = false →
      ∃ t, exec (p.1 f) s = .next t ∧ Consumed s t (p.1 f) (tins f) f.out 0 none)

/-- R237 to R239: in an owner TTAG retags its entry, TMASK writes to a tile mask the slots of another that are READY, of a
class it names and, if asked, without NF, and TSTATE pushes its slot's entry, 0 for a stripe without power; TMASK and
TSTATE first perform the context's stores. -/
def Obligations.TileTable : Prop :=
  (∀ (f : TileF) (s : State), s.Ready (.ttag f) → Owner s →
    (s.me.tguardBit f.g f.d.toNat = true → SlotFree s f.d.toNat false →
      ∃ t, exec (.ttag f) s = .next t ∧
        Steps (s.updMyCore (fun x => x.updTile f.d.toNat (retagged (tagAt f.a)))) t (.ttag f) 0 ∧ RegsKept s.me t) ∧
    (s.me.tguardBit f.g f.d.toNat = false →
      ∃ t, exec (.ttag f) s = .next t ∧ Steps s t (.ttag f) 0 ∧ RegsKept s.me t)) ∧
  (∀ (f : TileF) (s : State), s.Ready (.tmask f) → Owner s →
    ∃ t, exec (.tmask f) s = .next t ∧ Steps s.drainMe t (.tmask f) 0 ∧ t.me.q = s.me.q ∧
      t.me.csr.rngseed = s.me.csr.rngseed ∧
      (∀ r, r ≠ Fin.ofNat 16 f.d.toNat → t.me.tpred r = s.me.tpred r) ∧
      (f.d.toNat ≠ 0 → ∀ n, n < 128 → (t.me.tpred (Fin.ofNat 16 f.d.toNat)).getLsbD n =
        ((s.me.tpred (Fin.ofNat 16 f.a.toNat)).getLsbD n &&
          (let e := s.drainMe.myCore.tile n
           decide (e.st = .ready) && (!f.b.getLsbD 4 || !e.nf) &&
           (match e.cls with
            | .zero => f.b.getLsbD 0 | .const => f.b.getLsbD 1 | .ident => f.b.getLsbD 2 | .general => f.b.getLsbD 3)))) ∧
      t.me.files.s = s.me.files.s ∧ t.me.files.g = s.me.files.g ∧ t.me.files.v = s.me.files.v ∧
      t.me.files.w = s.me.files.w ∧ t.me.files.p = s.me.files.p ∧ t.me.files.b = s.me.files.b) ∧
  ∀ (f : TileF) (s : State), s.Ready (.tstate f) → Owner s →
    let s0 := s.drainMe
    ∃ t, exec (.tstate f) s = .next t ∧ Steps s0 t (.tstate f) 0 ∧ t.me.files = s.me.files ∧
      t.me.csr.rngseed = s.me.csr.rngseed ∧
      ScalarPushed s t { v := if s0.myCore.gated (4096 * f.d.toNat) then 0 else entryWord (s0.myCore.tile f.d.toNat)
                         tag := .int64 }

/-- R246, R248, R260, R263, R264, R268: in an owner MCFG stores a word that passes in the shadow table and traps with cause
0x01 on one that does not; MSWAP exchanges the banks of an accumulator that no command works on, and ends its standing
weight; MREAD pushes a row of the visible bank under the bank's tag; MSTOP, with nothing in the sequencer, pushes -1. -/
def Sys2Proof.Claim.MatrixTable : Prop :=
  (∀ (f : TileF) (s : State), s.Ready (.mcfg f) → Owner s →
    (cfgPasses f.d.toNat (s.val (operandOf f.a)) →
      ∃ t, exec (.mcfg f) s = .next t ∧ RegsKept s.me t ∧
        Steps (s.updMyCore (fun x =>
          { x with shadow := x.shadow.set (Fin.ofNat 7 f.d.toNat) (s.val (operandOf f.a)) })) t (.mcfg f) 0) ∧
    (¬ cfgPasses f.d.toNat (s.val (operandOf f.a)) → Handles s →
      ∃ t, exec (.mcfg f) s = .next t ∧ Entered s t 0x01 0 (encodeWord (.mcfg f)) 0 1)) ∧
  (∀ (f : TileF) (s : State), s.Ready (.mswap f) → Owner s →
    (∀ c ∈ s.myCore.cmds, c.kind.onAcc ≠ some f.d.toNat) →
    ∃ t, exec (.mswap f) s = .next t ∧ RegsKept s.me t ∧
      let n := Fin.ofNat 4 f.d.toNat
      StepsAs (s.updMyCore (fun x =>
          { x with accs := x.accs.set n { work := (x.accs.get n).vis, vis := (x.accs.get n).work } }))
        { s.me with standing := s.me.standing.filter (fun x => x.acc != some f.d.toNat) } t (.mswap f) 0) ∧
  (∀ (f : TileF) (s : State), s.Ready (.mread f) → Owner s →
    ∃ t, exec (.mread f) s = .next t ∧ Steps s t (.mread f) 0 ∧ t.me.files = s.me.files ∧
      t.me.csr.rngseed = s.me.csr.rngseed ∧
      let b := visible s f.d.toNat
      let r := (s.val (operandOf f.a)).toNat % 64
      VectorPushed s t { v := BitVec.ofNat 2048 (leNat ((List.range 256).map (fun k => b.mem.read (256 * r + k))))
                         tag := if b.fp64 then .fp64 else .fp32 }) ∧
  ∀ (f : TileF) (s : State), s.Ready (.mstop f) → Owner s →
    let l := s.myCore.cmds.filter (·.kind.isSeq)
    ∃ t, exec (.mstop f) s = .next t ∧ (∀ c ∈ t.myCore.cmds, c.kind.isSeq = false) ∧
      (l = [] → Steps s t (.mstop f) 0) ∧
      Steps (l.foldl (fun x c => x.endCmd s.cur.core c none c.flags) s) t (.mstop f) 0 ∧ t.me.files = s.me.files ∧
      t.me.csr.rngseed = s.me.csr.rngseed ∧
      ScalarPushed s t { v := (match l.find? (·.started) with | some c => BitVec.ofNat 64 c.next | none => BitVec.allOnes 64)
                         tag := .int64 }

/-- R203, R250, R261, R262, R266, R267: in an owner, with fewer than eight commands in the sequencer, MGO, MZERO, MWLOAD and
an active MSTEP queue their commands with the shadow table as it stands, MGO and MSTEP leaving their standing weight; an
MSTEP whose slot is off in its guard mask starts no step. MGO with LEVELS 0, and an active MSTEP whose tags the global word may
not pair, trap with cause 0x01. -/
def Sys2Proof.Claim.MatrixCommands : Prop :=
  (∀ p ∈ seqOps, ∀ (f : TileF) (s : State), s.Ready (p.1 f) → Owner s → TokensReady s (tins f) f.out → SeqRoom s →
    p.2.2.1 s →
    ∃ t, exec (p.1 f) s = .next t ∧
      Queued s t (p.1 f) (tins f) f.out p.2.1 (if p.2.1 = 0 then none else some f.d.toNat) (p.2.2.2 f s) id) ∧
  (∀ (f : TileF) (s : State), s.Ready (.mstep f) → Owner s → TokensReady s (tins f) f.out → SeqRoom s →
    (s.me.tguardBit f.g f.a.toNat = true → tagsPass (glob s) → SlotFree s f.a.toNat true →
      ((glob s).extractLsb' 18 2 = 0 → SlotFree s f.b.toNat true) →
      ∃ t, exec (.mstep f) s = .next t ∧
        Queued s t (.mstep f) (tins f) f.out 36 (some f.d.toNat) (.mstep f.d.toNat (glob s) f.a.toNat f.b.toNat) id) ∧
    (s.me.tguardBit f.g f.a.toNat = false →
      ∃ t, exec (.mstep f) s = .next t ∧ Consumed s t (.mstep f) (tins f) f.out 36 (some f.d.toNat)) ∧
    (s.me.tguardBit f.g f.a.toNat = true → ¬ tagsPass (glob s) → SlotFree s f.a.toNat true →
      ((glob s).extractLsb' 18 2 = 0 → SlotFree s f.b.toNat true) → Handles s →
      ∃ t, exec (.mstep f) s = .next t ∧ Entered s t 0x01 0 (encodeWord (.mstep f)) 0 1)) ∧
  ∀ (f : TileF) (s : State), s.Ready (.mgo f) → Owner s → TokensReady s (tins f) f.out →
    (glob s).extractLsb' 15 3 = 0 → Handles s →
    ∃ t, exec (.mgo f) s = .next t ∧ Entered s t 0x01 0 (encodeWord (.mgo f)) 0 1

/-- The matrix ops that act at retirement and those that queue a command (R246 to R268). -/
def Obligations.MatrixOps : Prop := MatrixTable ∧ MatrixCommands

/-- R203, R276, R282 to R285, R291: in an owner CPY and CPY2D queue a copy with their operands as they stand, OVL its
request; a copy of kind 1 moves the slots it covers to FILLING, one of kind 2 or 3 to DRAINING; a copy of no bytes is DONE
at once. A tile side that is no run of whole slots traps with cause 0x24. -/
def Sys2Proof.Claim.CopyCommands : Prop :=
  (∀ p ∈ copies, ∀ (f : EngF) (s : State), s.Ready (p.1 f) → Owner s → TokensReady s (eins f) f.out →
    let n := bytesOf p.2 (s.val f.c)
    (n = 0 → ∃ t, exec (p.1 f) s = .next t ∧ Consumed s t (p.1 f) (eins f) f.out 6 none) ∧
    (n ≠ 0 → CopyRoom s → f.mode.toNat % 4 = 0 →
      ∃ t, exec (p.1 f) s = .next t ∧ Queued s t (p.1 f) (eins f) f.out 6 none (copyCmd f p.2 s) id) ∧
    (∀ o, n ≠ 0 → CopyRoom s → f.mode.toNat % 4 ≠ 0 → WholeSlots f p.2 s o →
      (∀ k ∈ runSlots o n, SlotFree s k (decide (f.mode.toNat % 4 ≠ 1))) →
      ∃ t, exec (p.1 f) s = .next t ∧
        Queued s t (p.1 f) (eins f) f.out 6 none (copyCmd f p.2 s) (covered (f.mode.toNat % 4) (runSlots o n))) ∧
    (n ≠ 0 → f.mode.toNat % 4 ≠ 0 → (∀ o, ¬ WholeSlots f p.2 s o) → Handles s →
      ∃ t, exec (p.1 f) s = .next t ∧
        Entered s t 0x24 0 (if f.mode.toNat % 4 = 1 then s.val f.a else s.val f.b)
          (if f.mode.toNat % 4 = 1 then 0x100 else 0) 1)) ∧
  ∀ (f : EngF) (s : State), s.Ready (.ovl f) → Owner s → TokensReady s (eins f) f.out → CopyRoom s →
    ∃ t, exec (.ovl f) s = .next t ∧ Queued s t (.ovl f) (eins f) f.out 6 none (.ovl (s.val f.a)) id

/-- R287 to R289: in an owner CSCHED arms the schedule with T, bases from B in steps of C and SC 0; CSTAGE counts SC up.
With no entry to replay its command is DONE at once; with one, a CPY of at least a byte and kind 0 without tokens, the copy
is queued behind CSTAGE's own command, which waits for it. With any entries, CPY or CPY2D of any kind, with tokens or without,
where the bundle with them traps on nothing and waits for nothing, each of them is queued in entry order. -/
def Sys2Proof.Claim.CopySchedule : Prop :=
  (∀ (f : EngF) (s : State), s.Ready (.csched f) → Owner s →
    ∃ t, exec (.csched f) s = .next t ∧ t.me.q = s.me.q ∧ t.me.csr.rngseed = s.me.csr.rngseed ∧
      t.me.files = { s.me.files with b := Vector.ofFn (fun k => s.val f.b + BitVec.ofNat 64 k.val * s.val f.c) } ∧
      StepsAs s { s.me with t := s.val f.a, sc := 0, armed := true } t (.csched f) 0) ∧
  ∀ (f : EngF) (s : State), s.Ready (.cstage f) → Owner s → TokensReady s (eins f) f.out →
    (staged s = [] →
      ∃ t, exec (.cstage f) s = .next t ∧ RegsKept s.me t ∧
        StepsAs s (standing (tokensAfter { s.me with sc := s.me.sc + 1 } (eins f) f.out 0 true) (eins f) f.out 6 none) t
          (.cstage f) 0) ∧
    (∀ (n : Nat) (e : SchedEnt) (g : EngF), staged s = [(n, e)] → CopyRoom s →
      decodeWord e.word none = .cpy g → WellFormed (.cpy g) → g.mode = 0 → eins g = [.none, .none, .none] → g.out = .none →
      s.val g.c ≠ 0 → (∀ x ∈ srcs (.cpy g), s.me.srcFail x = none) →
      ∃ t, exec (.cstage f) s = .next t ∧ RegsKept s.me t ∧
        let u := cstaged s f [(n, false, g)]
        StepsAs u { u.me with sc := s.me.sc + 1 } t (.cstage f) 0) ∧
    ∀ l : List (Nat × Bool × EngF),
      (staged s).map (fun p => (p.1, decodeWord p.2.word none)) = l.map (fun e => (e.1, entryOp e.2)) →
      s.judge (s.lay (semStaged f) (s.single (.cstage f))) none = .issue →
      ∃ t, exec (.cstage f) s = .next t ∧ RegsKept s.me t ∧
        let u := cstaged s f l
        StepsAs u { u.me with sc := s.me.sc + 1 } t (.cstage f) 0

/-- The copy ops, and the copy schedule (R282 to R291). -/
def Obligations.CopyOps : Prop := CopyCommands ∧ CopySchedule

/-- R349, R350, R353: in an owner a DCPY that copies a byte or writes a record queues its command where its context holds
fewer than 8, its engine fewer than 64 and its ring has a record free, which it then takes; one that does neither is DONE at
once; one that names a ring its task does not have traps with cause 0x52. -/
def Sys2Proof.Claim.BlockTransfers : Prop :=
  ∀ (f : EngF) (s : State), s.Ready (.dcpy f) → Owner s → TokensReady s (eins f) f.out →
    let ring : Option Nat := if f.mode.getLsbD 2 then some (f.mode.extractLsb' 3 2).toNat else none
    let eng := dcpyEngine s s.cur.core s.myTask (f.mode.toNat % 4) (s.val f.a)
    (ring = none → s.val f.c = 0 → ∃ t, exec (.dcpy f) s = .next t ∧ Consumed s t (.dcpy f) (eins f) f.out 0 none) ∧
    ((s.myCore.cmds.filter (fun c => c.kind.isDcpy && c.ctx == s.cur.ctx)).length < 8 →
      dcpyCount s eng < 64 →
      (ring = none → s.val f.c ≠ 0 →
        ∃ t, exec (.dcpy f) s = .next t ∧
          Queued s t (.dcpy f) (eins f) f.out 0 none (.dcpy (s.val f.a) (s.val f.b) (s.val f.c) (f.mode.toNat % 4) none)
            (onEngine s.nextId eng)) ∧
      ∀ n k r, ring = some n → s.me.task = some k → ringOf s.myTask (dieOf s.cur.core) n = some r →
        r.used + r.out < 2 ^ r.log →
        ∃ t, exec (.dcpy f) s = .next t ∧ RegsKept s.me t ∧
          let s0 := ((withCmd s (newCmd s (eins f) f.out
              (.dcpy (s.val f.a) (s.val f.b) (s.val f.c) (f.mode.toNat % 4) (some n)))).updMyCore
            (onEngine s.nextId eng)).updRing k (dieOf s.cur.core) n (fun r => { r with out := r.out + 1 })
          StepsAs s0 (standing (tokensAfter s0.me (eins f) f.out s.nextId false) (eins f) f.out 0 none) t (.dcpy f) 0) ∧
    (∀ n, ring = some n → ringOf s.myTask (dieOf s.cur.core) n = none → Handles s →
      ∃ t, exec (.dcpy f) s = .next t ∧ Entered s t 0x52 0 (encodeWord (.dcpy f)) 0 1)

/-- R311, R316, R321 to R324, R329, R330, R366: RGET, RPUT, RGATH, RSCAT, RATOM, BINIT and BARR, whose ranges, alignment,
tags and objects pass, queue their commands with their operands as they stand where the interface has room and the budget
their requests; RGET and RPUT of no bytes are DONE at once. -/
def Sys2Proof.Claim.RemoteCommands : Prop :=
  (∀ p ∈ remotes, ∀ (f : EngF) (r : Option RouteF) (s : State), s.Ready (p.1 f r) → TokensReady s (eins f) f.out →
    NiRoom s → NiBudget s (p.2.1 f) → p.2.2.2.1 f s →
    ∃ t, exec (p.1 f r) s = .next t ∧ Queued s t (p.1 f r) (eins f) f.out p.2.2.1 none (p.2.2.2.2 f r s) id) ∧
  ∀ p ∈ [(Instr.rget : EngF → Option RouteF → Instr), .rput], ∀ (f : EngF) (r : Option RouteF) (s : State),
    s.Ready (p f r) → TokensReady s (eins f) f.out → NiBudget s 1 → s.val f.c = 0 →
    ∃ t, exec (p f r) s = .next t ∧ Consumed s t (p f r) (eins f) f.out 0 none

/-- DCPY and the NI ops that queue a command (R316 to R330, R349). -/
def Obligations.RemoteOps : Prop := BlockTransfers ∧ RemoteCommands

/-- R325, R326: an MCST whose in-tokens are DONE, whose context has no earlier NI command that waits, and whose bytes lie
aligned in the scratchpad, starts its command as it issues, to land 12 effective cycles later; with an empty mask it writes
nowhere and its token is DONE. -/
def Sys2Proof.Claim.Multicast : Prop :=
  ∀ (f : EngF) (r : Option RouteF) (s : State), s.Ready (.mcst f r) → TokensReady s (eins f) f.out → NiBudget s 1 →
    (s.val f.a).toNat % (if f.mode.getLsbD 2 then 32 else mcstLen f) = 0 → LocalRange s (s.val f.a) (mcstLen f) →
    (∀ k ∈ inToks (eins f), (s.me.tok.get k).done = true) →
    (∀ c ∈ s.myCore.cmds, c.kind.isNi = true → c.ctx = s.cur.ctx → c.started = true) →
    ((s.val f.c).setWidth 16 ≠ (0 : BitVec 16) → NiRoom s →
      ∃ t, exec (.mcst f r) s = .next t ∧ RegsKept s.me t ∧
        let c := newCmd s (eins f) f.out (.mcst (s.val f.a).toNat (mcstPayload f s) ((s.val f.c).setWidth 16))
        let s0 := withCmd s { c with started := true, due := c.issued + 12 }
        StepsAs s0 (standing (tokensAfter s0.me (eins f) f.out s.nextId false) (eins f) f.out 0 none) t (.mcst f r) 0) ∧
    ((s.val f.c).setWidth 16 = (0 : BitVec 16) →
      ∃ t, exec (.mcst f r) s = .next t ∧ RegsKept s.me t ∧
        StepsAs s.drainMe (standing (tokensAfter s.drainMe.me (eins f) f.out 0 true) (eins f) f.out 0 none) t (.mcst f r) 0)

/-- R327, R328, R331, R332, R334: outside handler mode a BWAIT that is not asleep, or whose bound has passed, completes with
the status its object gives, clearing its SLEEP bit where it gives up; with no status it sets its SLEEP bit and sleeps at
its bundle. BREAD pushes the object's 128 bits, or an UNDEF value where the object cannot be read. -/
def Sys2Proof.Claim.BarrierWaits : Prop :=
  (∀ (f : EngF) (r : Option RouteF) (s : State), s.Ready (.bwait f r) → s.me.tr.hm = false → NiBudget s 1 →
    ObjectAt s (s.val f.a) → ObjectFree s (s.val f.a) → (s.me.waits.asleep = none ∨ (s.val f.c).toNat ≤ waited s) →
    match bwaitSays (s.readObj (s.val f.a)) (s.val f.b) (waited s) (s.val f.c) with
    | some n =>
      ∃ t, exec (.bwait f r) s = .next t ∧ t.me.waits.asleep = none ∧ t.me.files = s.me.files ∧
        t.me.csr.rngseed = s.me.csr.rngseed ∧ ScalarPushed s t { v := BitVec.ofNat 64 n, tag := .int64 } ∧
        let s0 := reached s (s.val f.a)
        StepsAs (if n = 1 ∨ (n ≠ 0 ∧ s.me.waits.waiting = true) then slept s0 (s.val f.a) false else s0) s.me t (.bwait f r) 0
    | none =>
      ∃ t, exec (.bwait f r) s = .next t ∧ RegsKept s.me t ∧ t.me.pc = s.me.pc ∧
        t.me.waits.asleep = some (s.val f.a) ∧ t.me.waits.waiting = true ∧ t.me.waits.since = waited s + 1 ∧
        (if s.me.waits.asleep = none then slept (reached s (s.val f.a)) (s.val f.a) true else s).SameElsewhere t) ∧
  ∀ (f : EngF) (r : Option RouteF) (s : State), s.Ready (.bread f r) → NiBudget s 1 → ObjectAt s (s.val f.a) →
    ObjectFree s (s.val f.a) →
    ∃ t, exec (.bread f r) s = .next t ∧ Steps (reached s (s.val f.a)) t (.bread f r) 0 ∧ t.me.files = s.me.files ∧
      t.me.csr.rngseed = s.me.csr.rngseed ∧
      VectorPushed s t (match s.readObj (s.val f.a) with
        | some o => { v := o.setWidth 2048, tag := .bits }
        | none => { v := 0, tag := .undef })

/-- MCST, BREAD and BWAIT (R325 to R332). The model's choices: a special B of an MCST with V set sends INT64 lanes (log 94), and an
MCST with an empty mask checks its address and waits as any other before its token is DONE (log 63). -/
def Obligations.ClusterOps : Prop := Multicast ∧ BarrierWaits

/-- R274, R277 to R281: TKWAIT, once every named command has ended, takes their tokens and ORs their flags into FPSTAT;
TKTEST pushes 1 and does the same, or pushes 0 and drops the tokens (with the flags of those that are DONE, the model's reading,
log 49); TKJOIN makes one token of several, DONE with their
flags where all have ended, and else a command that waits for those that have not. -/
def Obligations.TokenOps : Prop :=
  (∀ (f : EngF) (s : State), s.Ready (.tkwait f) → TokensReady s (eins f) .none →
    (∀ k ∈ inToks (eins f), (s.me.tok.get k).done = true) →
    ∃ t, exec (.tkwait f) s = .next t ∧ RegsKept s.me t ∧
      StepsAs s (standing (taken s.me (eins f)) (eins f) .none 0 none) t (.tkwait f) 0) ∧
  (∀ (f : EngF) (s : State), s.Ready (.tktest f) → TokensReady s (eins f) .none →
    let all := (inToks (eins f)).all (fun k => (s.me.tok.get k).done)
    ∃ t, exec (.tktest f) s = .next t ∧ t.me.files = s.me.files ∧ t.me.csr.rngseed = s.me.csr.rngseed ∧
      ScalarPushed s t { v := if all then 1 else 0, tag := .int64 } ∧
      StepsAs s (standing (if all then taken s.me (eins f) else dropped s.me (eins f)) (eins f) .none 0 none) t (.tktest f) 0) ∧
  ∀ (f : EngF) (s : State), s.Ready (.tkjoin f) → TokensReady s (eins f) f.out →
    (∀ c ∈ s.myCore.cmds, c.kind = .join ∨ c.kind = .stage → c.deps ≠ []) →
    ∃ t, exec (.tkjoin f) s = .next t ∧ RegsKept s.me t ∧
      let fl := namedFlags s.me (eins f)
      let c : Cmd := { newCmd s (eins f) f.out .join with flags := fl }
      let c0 : Ctx := standing (tokensAfter s.me (eins f) f.out s.nextId false) (eins f) f.out 0 none
      if c.deps = [] then
        StepsAs { s with nextId := s.nextId + 1 }
          { c0 with tok := Vector.ofFn (fun k =>
              if f.out = .k k then { live := true, done := true, cmd := s.nextId, flags := fl } else c0.tok.get k) } t (.tkjoin f) 0
      else
        StepsAs (({ s with nextId := s.nextId + 1 } : State).updMyCore (fun x => { x with cmds := x.cmds ++ [c] })) c0 t
          (.tkjoin f) 0

/-- A stripe of a region of slots is gated (R241). -/
abbrev Dark (x : CoreState) (start count : Nat) : Prop :=
  ∃ i : Fin 32, (x.stripes.get i).pw = .gated ∧ Meet (4096 * start) (4096 * count) (0x4000 * i.val) 0x4000

/-- R294, R302, R305, R358: in an owner a LEND that is accepted, with no slot of its region in motion and nothing being revoked,
pushes LENDCFG as it stood when the LEND issued and puts its lend in force, BUSY; where a stripe of the region is gated it first
waits for the 1,600 master cycles of its power-on; one that is not accepted traps with cause 0x52; REVOKE takes back a lend in
force and does nothing without one. Guarded off LEND pushes A, and REVOKE does nothing. -/
def Sys2Proof.Claim.Lends : Prop :=
  (∀ (f : SysF) (s : State), s.Ready (.lend f) → Owner s →
    let w := s.val f.a
    let q := lendAsked w
    let old := s.me.waits.lendOld.getD (s.csr 0x020)
    let dark : Prop := Dark s.myCore q.start q.count ∧ ∀ m, s.me.waits.lendOn = some m → s.master < m
    (s.active f.g = true → lendAccepts s w → s.myCore.lend.cfg.busy = false →
      (∀ n, q.start ≤ n → n < q.start + q.count →
        (s.myCore.tile n).st ≠ .filling ∧ (s.myCore.tile n).st ≠ .draining) →
      (∀ r ∈ s.myCore.lend.rev, r.region = false) →
      (¬ dark → ∃ t, exec (.lend f) s = .next t ∧
        ScalarDone (s.updMyCore (fun x => { x with lend := { x.lend with cfg := q, filling := true } })) t (.lend f)
          f.w f.d { v := old, tag := .int64 } 0) ∧
      (dark → ∃ t, exec (.lend f) s = .next t ∧ s.SameElsewhere t ∧ RegsKept s.me t ∧ t.me.pc = s.me.pc ∧
        t.me.waits.lendOld = some old ∧ t.me.waits.lendOn = some (s.me.waits.lendOn.getD (s.master + 1600)))) ∧
    (s.active f.g = true → ¬ lendAccepts s w → Handles s →
      ∃ t, exec (.lend f) s = .next t ∧ Entered s t 0x52 0 (encodeWord (.lend f)) 0 1) ∧
    (s.active f.g = false → ∃ t, exec (.lend f) s = .next t ∧ ScalarDone s t (.lend f) f.w f.d (offA s f.a) 0)) ∧
  ∀ (f : SysF) (s : State), s.Ready (.revoke f) → Owner s →
    ∃ t, exec (.revoke f) s = .next t ∧ RegsKept s.me t ∧
      Steps (if s.active f.g ∧ s.myCore.lend.cfg.active = true then s.updMyCore (revoked s) else s) t (.revoke f) 0

/-- R296, R301, R305: in an owner EDDY starts the eddy that A names in the lowest FREE bank, where the lend has share for
it, and pushes the bank's number, else 0; EDDY.res sets a parked bank of owner origin running again; PARK, in an owner of a
running bank of owner origin and in an eddy of its own, begins its removal. -/
def Sys2Proof.Claim.Eddies : Prop :=
  (∀ (f : SysF) (s : State) (k : Task) (img : Image) (e : EddyEnt), s.Ready (.eddy f) → Owner s → s.active f.g = true →
    s.myTask = some k → s.image k.image = some img → (s.val f.a).toNat < 64 → img.eddies[(s.val f.a).toNat]? = some e →
    1 ≤ e.share → e.share ≤ 96 →
    ∃ t, exec (.eddy f) s = .next t ∧
      match bankGranted s e.share with
      | some n =>
        ScalarDone (s.updMyCore (fun x =>
            (x.setCtx n (newEddy s k img n e (s.val f.b))).updBank n (fun b =>
              { b with st := .run, origin := false, rev := false, share := e.share, lent := true }))) t (.eddy f) f.w f.d
          { v := BitVec.ofNat 64 n, tag := .int64 } 0
      | none => ScalarDone s t (.eddy f) f.w f.d { v := 0, tag := .int64 } 0) ∧
  (∀ (f : SysF) (s : State), s.Ready (.eddyRes f) → Owner s → s.active f.g = true →
    let n := (s.val f.a).toNat
    1 ≤ n → n ≤ 3 →
    let x := s.myCore
    let used := (([1, 2, 3].filter (fun k => (x.bank k).st == .run)).map (fun k => (x.bank k).share)).sum
    ∃ t, exec (.eddyRes f) s = .next t ∧
      if x.lend.cfg.active = true ∧ (x.bank n).st = .parked ∧ (x.bank n).origin = false ∧
          used + (x.bank n).share ≤ x.lend.cfg.share then
        ScalarDone (s.updMyCore (fun x =>
            (x.setCtx n { x.ctx n with window := [], waits := { (x.ctx n).waits with wakeIn := 1 } }).updBank n
              (fun b => { b with st := .run, lent := true }))) t
          (.eddyRes f) f.w f.d { v := BitVec.ofNat 64 n, tag := .int64 } 0
      else ScalarDone s t (.eddyRes f) f.w f.d { v := 0, tag := .int64 } 0) ∧
  (∀ p ∈ [(Instr.eddy : SysF → Instr), .eddyRes], ∀ (f : SysF) (s : State), s.Ready (p f) → Owner s → s.active f.g = false →
    ∃ t, exec (p f) s = .next t ∧ ScalarDone s t (p f) f.w f.d { v := 0, tag := .int64 } 0) ∧
  ∀ (f : SysF) (s : State), s.Ready (.park f) →
    let n := if s.cur.ctx % 4 = 0 then (s.val f.a).toNat else s.cur.ctx
    (s.active f.g = true → s.cur.ctx % 4 ≠ 0 ∨
        (1 ≤ n ∧ n ≤ 3 ∧ (s.myCore.bank n).st = .run ∧ (s.myCore.bank n).origin = false) →
      ∃ t, exec (.park f) s = .next t ∧ RegsKept s.me t ∧
        Steps (s.updMyCore (fun x =>
          { x with
            lend := { x.lend with rev := x.lend.rev ++
              [{ at0 := s.eff s.cur.core, banks := [n], region := false, keep := false, start := 0, count := 0 }] } })) t
          (.park f) 0) ∧
    (s.active f.g = false → ∃ t, exec (.park f) s = .next t ∧ Steps s t (.park f) 0 ∧ RegsKept s.me t)

/-- LEND and REVOKE, EDDY and PARK (R294 to R305). The model's choices: an eddy that EDDY starts has g25 to g31 zero tagged UNDEF,
as R305 says, where R381 differs (log 44), and a LEND that meets pinned words traps, and pushes LENDCFG as it stood when it
issued (log 58); a
LEND waits for its stripes before its lend is in force (log 82). -/
def Obligations.LendOps : Prop := Lends ∧ Eddies

/-- R377, R378, R384 to R387: in an owner an active LAUNCH or LAUNCH.nb of a valid record, and LAUNCH.g of a valid
descriptor, with launches left, perform the context's stores, queue the new task or instance as read, and push its number;
beyond the bound LAUNCH and LAUNCH.g trap with cause 0x44 and LAUNCH.nb pushes status 1; an invalid record traps with cause
0x45, and gives LAUNCH.nb status 2. -/
def Sys2Proof.Claim.Launches : Prop :=
  (∀ p ∈ [(Instr.launch : SysF → Instr), .launchNb], ∀ (f : SysF) (s : State) (k : Task), s.Ready (p f) → Owner s →
    s.active f.g = true → recordReason s.drainMe (s.val f.a) = none → launchReadWaits s.drainMe (s.val f.a) 128 = false →
    launchesLeft s k →
    ∃ t, exec (p f) s = .next t ∧
      let s0 := launchState s (s.val f.a)
      ScalarDone (launched s0 k (launchRead s0 (s.val f.a) 16)) t (p f) f.w f.d (launchWord 0 s0.nextTask) 0) ∧
  (∀ (f : SysF) (s : State) (k : Task), s.Ready (.launchG f) → Owner s →
    s.active f.g = true → graphReason s.drainMe (s.val f.a) = none → graphWaits s.drainMe (s.val f.a) = false →
    launchesLeft s k →
    ∃ t g, exec (.launchG f) s = .next t ∧
      let s0 := s.drainMe.touchGraph (s.val f.a)
      (g = (sealedGraph s0 (s.val f.a)).getD (readGraph s0 (s.val f.a) k)) ∧
      ScalarDone ((s0.updTask k.num (fun t => { t with used := t.used + 1, reserved := t.reserved - 1 })).updFw (fun w =>
        { w with
          graphs := if (sealedGraph s0 (s.val f.a)).isSome then w.graphs else w.graphs ++ [g]
          insts := w.insts ++ [{ num := s0.nextTask, graph := g.handle, compl := s.val f.b, task := some k.num,
                                 nodes := g.nodes.map (fun _ => (none, none)), pool := some s0.freeEntry, seq := s0.nextSeq }]
          pool := setInsert s0.freeEntry w.pool })) t (.launchG f) f.w f.d (launchWord 0 s0.nextTask) 0) ∧
  (∀ (f : SysF) (s : State) (k : Task), s.Ready (.launchNb f) → Owner s → s.active f.g = true → s.myTask = some k →
    launchReadWaits s.drainMe (s.val f.a) 128 = false →
    (recordReason s.drainMe (s.val f.a) = none → recChildren k.record ≤ k.used) →
    ∃ t, exec (.launchNb f) s = .next t ∧
      ScalarDone (s.readRecord (s.val f.a)) t (.launchNb f) f.w f.d (launchWord (if recordReason s.drainMe (s.val f.a) = none then 1 else 2) 0) 0) ∧
  (∀ p ∈ [((Instr.launch : SysF → Instr), recordReason, fun s a => launchReadWaits s a 128), (.launchG, graphReason, graphWaits)],
    ∀ (f : SysF) (s : State) (k : Task), s.Ready (p.1 f) → Owner s → Handles s → s.active f.g = true → s.myTask = some k →
    p.2.2 s.drainMe (s.val f.a) = false →
    (∀ n, p.2.1 s.drainMe (s.val f.a) = some n →
      ∃ t, exec (p.1 f) s = .next t ∧ Entered s t 0x45 0 (s.val f.a) (BitVec.ofNat 64 n) 1) ∧
    (p.2.1 s.drainMe (s.val f.a) = none → recChildren k.record ≤ k.used →
      ∃ t, exec (p.1 f) s = .next t ∧
        Entered s t 0x44 0 (BitVec.ofNat 64 k.used) (BitVec.ofNat 64 (recChildren k.record)) 1)) ∧
  ∀ p ∈ [(Instr.launch : SysF → Instr), .launchNb, .launchG], ∀ (f : SysF) (s : State), s.Ready (p f) → Owner s →
    s.active f.g = false → ∃ t, exec (p f) s = .next t ∧ ScalarDone s t (p f) f.w f.d (offA s f.a) 0

/-- R389, R390: outside handler mode and a firmware-bound eddy an active NTREQ of a task with fewer than four entries held,
and an active NTREQ.pop with one that has landed, take the next number of the task's counter as an entry that lands 32
bundles later; NTREQ.pop first drops the oldest. Guarded off each does nothing. -/
def Sys2Proof.Claim.NextTiles : Prop :=
  ∀ p ∈ [((Instr.ntreq : SysF → Instr), false), (.ntreqPop, true)], ∀ (f : SysF) (s : State) (k : Task), s.Ready (p.1 f) →
    s.me.tr.hm = false → s.myCore.fwEddy s.cur.ctx = false → s.me.task = some k.num → s.task k.num = some k →
    (s.active f.g = true → (if p.2 then (∃ e ∈ s.me.nx.head?, e.due = 0) else s.me.nx.length < 4) →
      ∃ t, exec (p.1 f) s = .next t ∧ RegsKept s.me t ∧
        t.me.nx = (if p.2 then (nearer s.me.nx).tail else nearer s.me.nx) ++ [⟨nextItem k, 33⟩] ∧
        StepsAs (s.updTask k.num (fun t => { t with ntile := t.ntile + 1 }))
          { s.me with nxHead := if p.2 then (s.me.nxHead + 1) % 4 else s.me.nxHead } t (p.1 f) 0) ∧
    (s.active f.g = false → ∃ t, exec (p.1 f) s = .next t ∧ Steps s t (p.1 f) 0 ∧ RegsKept s.me t)

/-- Launches (R384 to R387) and next-tile requests (R390). That the number pushed is the next of the model's counter is its choice
(log 64), that LAUNCH.g does not check a sealed graph again its reading (log 61). -/
def Obligations.LaunchOps : Prop := Launches ∧ NextTiles

/-- R8, R12, R42, R59, R70, R71: a pair word of any two halves that R70 names delivers what each half gives, both reading the
state at the bundle's entry: with an integer half and no division always, with a floating-point half or a division where no flag
traps, the flags of both halves in FPSTAT. MOVC of a special operand gives INT64 by log 94, 0 times infinity beside a quiet NaN
raises IV by log 52 (the model's choices). -/
def Obligations.PairWords : Prop :=
  ∀ (f : PairF) (s : State) (i j : Instr), pairScalar f = some i → pairVector f = some j → PairReady s f i j →
    let g := pairScalarF f
    let h := pairVectorF f
    VecTagsMatch s j (halfTag h j) →
    (f.vop.toNat < 32 →
      (i ≠ .div g ∧ i ≠ .rem g) ∨ NoFlagTraps s →
      ∃ t v u fl, exec (.pair f) s = .next t ∧ PairDone s t f v u fl ∧ ScalarHalf s g i v fl ∧ IntegerHalf s h j u) ∧
    (32 ≤ f.vop.toNat → NoFlagTraps s →
      ∃ t v u fl fv, exec (.pair f) s = .next t ∧ PairDone s t f v u (fl ||| fv) ∧ ScalarHalf s g i v fl ∧
        FloatHalf s h j u fv)

/-- R80, R88, R182, R186, R187, R191, R193, R331: a word without a meaning traps with cause 0x00 and the word in TRAPINFO0, the
SLEEP bit of a BWAIT of the context cleared first; with NOH set its context halts with the cause and its record, which goes to the firmware and into its task's completion record; in handler mode it sets DT and halts
with cause 0x5E, which goes to the firmware with the record of the trap and counts vector 2, unless the owner's task is under
debug, when the context waits for its debugger. -/
def Obligations.IllegalWords : Prop :=
  ∀ (w : Word) (s : State), s.cur.core < nCores → isRoute w = false → s.myCore.issueBuf = none →
    (s.me.tr.hm = false → s.me.tr.noh = false →
      ∃ t, exec (.illegalEncoding w) s = .next t ∧ Entered (rested s) t 0x00 0 w 0 1) ∧
    (s.me.tr.hm = false → s.me.tr.noh = true →
      ∃ t, exec (.illegalEncoding w) s = .next t ∧ RegsKept s.me t ∧ t.me.pc = s.me.pc ∧ t.me.run = .halted 0x00 ∧
        t.me.tr = { s.me.tr with cause := 0, pc := s.me.pc, slot := 0, info0 := w, info1 := 0 } ∧
        ((kept (bankEnding (rested s) 0x00) ⟨0x00, s.me.pc, 0, w, 0⟩).updFw (fun k =>
          { k with reports := k.reports ++ [⟨0x00, w, 0⟩] })).SameElsewhere t) ∧
    (s.me.tr.hm = true → s.cur.ctx % 4 ≠ 0 ∨ (∀ k, s.myTask = some k → k.debug = false) →
      ∃ t, exec (.illegalEncoding w) s = .next t ∧ RegsKept s.me t ∧ t.me.pc = s.me.pc ∧ t.me.run = .halted 0x5E ∧
        t.me.tr = { s.me.tr with dt := true } ∧
        (((bankEnding (rested s) 0x5E).updFw (fun k =>
          { k with reports := k.reports ++ [⟨0x00, w, 0⟩, ⟨0x5E, s.me.pc.setWidth 64, 0⟩] })).raiseIrq 2).SameElsewhere t) ∧
    (s.me.tr.hm = true → s.cur.ctx % 4 = 0 → (∃ k, s.myTask = some k ∧ k.debug = true) →
      ∃ t, exec (.illegalEncoding w) s = .next t ∧ RegsKept s.me t ∧ t.me.pc = s.me.pc ∧ t.me.run = s.me.run ∧
        t.me.dbg.halted = true ∧ t.me.tr = { s.me.tr with dt := true } ∧
        (((rested s).updFw (fun k =>
          { k with reports := k.reports ++ [⟨0x00, w, 0⟩, ⟨0x5E, s.me.pc.setWidth 64, 0⟩] })).raiseIrq 2).SameElsewhere t)

/-- R11, R19, R80, R179, R193: for every op but a pair word, the first source field in the order of row 6 that is undefined
traps with cause 0x07, the word and the field, one that is poisoned with cause 0x23 and the address; a scalar op of R113 with
an operand that does not carry T traps with cause 0x06, with the tag found, T and the field. -/
def Sys2Proof.Claim.OperandTraps : Prop :=
  (∀ (i : Instr) (s : State), opsOf 0 i = [i] → WellFormed i → s.row2Ctx i = false → CanTrap s →
    ∀ x, (row6Order (srcs i)).find? (fun x => s.me.srcFail x != none) = some x →
      ∃ t, exec i s = .next t ∧
        match s.me.srcFail x with
        | some (.poisoned va) => Entered s t 0x23 0 va 0 (wordsOf i)
        | _ => Entered s t 0x07 0 (encodeWord i) (BitVec.ofNat 64 x.idx) (wordsOf i)) ∧
  ∀ p ∈ scalarTable, ∀ (f : RegF) (s : State) (u : Tag), s.Ready (p.1 f) → Handles s → f.t = .tag u →
    ∀ x, (srcs (p.1 f)).find? (fun x => !isSpecial x.o && (s.rdS .int64 x.o).tag != u) = some x →
      ∃ t, exec (p.1 f) s = .next t ∧
        Entered s t 0x06 0 (encodeWord (p.1 f))
          (BitVec.ofNat 64 (tagCode (s.rdS .int64 x.o).tag + 16 * tagCode u + 256 * x.idx)) 1

/-- R202, R203, R205 to R208: outside handler mode a scalar op of R113 whose weight and the standing weight exceed WEIRA traps
with cause 0x03, else, beyond WEIRW, with cause 0x04, the sum in TRAPINFO1; with room in both but not in the window of the
seven cycles before, it waits a cycle, which enters the window with weight 0. -/
def Sys2Proof.Claim.AllowanceTraps : Prop :=
  ∀ p ∈ scalarTable, ∀ (f : RegF) (s : State), WellFormed (p.1 f) → CanTrap s →
    (∀ x ∈ srcs (p.1 f), s.me.srcFail x = none) → TagsMatch s (p.1 f) f.t →
    let w := weightOf (p.1 f) + (s.me.standing.map (·.wt)).sum
    (s.me.csr.weira < w →
      ∃ t, exec (p.1 f) s = .next t ∧ Entered s t 0x03 0 (encodeWord (p.1 f)) (BitVec.ofNat 64 w) 1) ∧
    (w ≤ s.me.csr.weira → s.me.csr.weirw < w →
      ∃ t, exec (p.1 f) s = .next t ∧ Entered s t 0x04 0 (encodeWord (p.1 f)) (BitVec.ofNat 64 w) 1) ∧
    (w ≤ s.me.csr.weira → w ≤ s.me.csr.weirw → s.me.csr.weirw < w + (s.me.window.take 7).sum →
      ∃ t, exec (p.1 f) s = .next t ∧ s.SameElsewhere t ∧ RegsKept s.me t ∧ t.me.pc = s.me.pc ∧ t.me.tr = s.me.tr ∧
        t.me.window = (0 :: s.me.window).take 7)

/-- The traps of operands (rows 4 to 6 of R80) and of the allowance (R205 to R208). -/
def Obligations.IssueTraps : Prop := OperandTraps ∧ AllowanceTraps

/-- R60, R126, R331, R334, R348: a held bundle issues once nothing makes it wait: one that stalled, a WAITEV whose dword
differs or whose bound has passed, a BWAIT whose bound has passed, an access whose page was migrating; a woken BWAIT reads
its object again. -/
def Sys2Proof.Claim.HeldBundles : Prop :=
  ∀ s : State,
    (HeldGoes s →
      exec .stalledBundleIssue s = .next (s.issue semOf s.fetched) ∧
      (∀ x ∈ s.fetched.items, ∀ f, x.i = .waitev f →
        (waitWord f s ≠ s.val f.b → exec .waitevWake s = .next (s.issue semOf s.fetched)) ∧
        (waitWord f s = s.val f.b → f.imm ≠ 0 → 64 * f.imm.toNat ≤ waited s →
          exec .waitevBound s = .next (s.issue semOf s.fetched))) ∧
      (∀ x ∈ s.fetched.items, ∀ f r, x.i = .bwait f r → (s.val f.c).toNat ≤ waited s →
        exec .bwaitTimeout s = .next (s.issue semOf s.fetched)) ∧
      ((∃ p ∈ s.outs (s.lay semOf s.fetched), ∃ a ∈ p.2.accs, s.isMapped s.cur.core a.va = true) →
        exec .migrationRewalk s = .next (s.issue semOf s.fetched))) ∧
    (Acts s → s.me.waits.held = true → s.dueA = none → s.me.waits.wakeNow = true →
      (∃ x ∈ s.fetched.items, ∃ f r, x.i = .bwait f r) → exec .bwaitReread s = .next (s.issue semOf s.fetched))

/-- R184 to R187, R196, R369: outside handler mode the oldest pending software trap is taken in the turn of its context, before
any notice and any fault; with none pending a throttle notice is taken before the oldest fault, each at the bundle boundary with
slot 31 and the record it brought; a fault adds its flags to FPSTAT. With NOH set a software trap or a fault halts its context,
and a notice is counted for the task and dropped. -/
def Sys2Proof.Claim.KindAEvents : Prop :=
  (∀ (s : State) (p : PendA) (rest : List PendA), Acts s → s.me.tr.hm = false → s.me.notice = none → s.me.pend = p :: rest →
    (∀ q ∈ s.me.pend, q.soft = false) →
    ∃ t, exec .kindAFault s = .next t ∧ t.me.pend = rest ∧ t.me.csr.fpstat = s.me.csr.fpstat ||| p.flags ∧
      (s.me.tr.noh = false → TakenA s t p.record) ∧ (s.me.tr.noh = true → HaltedA s t p.record)) ∧
  (∀ (s : State) (c k : Nat) (rest : List Turn) (p : PendA), s.agenda = .ctx c k :: rest →
    let u : State := { s with agenda := rest, cur := { s.cur with core := c, ctx := k } }
    u.counts = true → Acts u → u.me.tr.hm = false → u.me.pend.find? (·.soft) = some p →
    ∃ t a b, step s = .next t ∧ u.me.pend = a ++ p :: b ∧ (∀ q ∈ a, q.soft = false) ∧ t.me.pend = a ++ b ∧
      (u.me.tr.noh = false → t.me.notice = u.me.notice ∧ TakenA u t p.record) ∧
      (u.me.tr.noh = true → HaltedA u t p.record)) ∧
  ∀ (s : State) (i : Word × Word), Acts s → s.me.tr.hm = false → s.me.notice = some i → (∀ q ∈ s.me.pend, q.soft = false) →
    (s.me.tr.noh = false →
      ∃ t, exec .throttleNotice s = .next t ∧ t.me.notice = none ∧ t.me.pend = s.me.pend ∧ TakenA s t ⟨0x58, i.1, i.2⟩) ∧
    (s.me.tr.noh = true → ∀ k, s.me.task = some k →
      exec .throttleNotice s = .next
        ((s.updMe (fun c => { c with notice := none })).updTask k (fun t => { t with denials := t.denials + 1 })))

/-- R125, R127, R294, R302, R390: the last cycle of a YIELD ends it; a wake of a bound context ends its IDLE or its sleep, or
sets WAKE; a next-tile entry that lands wakes its context. A wake of an owner takes back a lend that is AUTO. -/
def Sys2Proof.Claim.ContextWakes : Prop :=
  ∀ s : State, s.cur.core < nCores →
    (s.me.waits.yield = 1 →
      ∃ t, exec .yieldExpiry s = .next t ∧ s.SameElsewhere t ∧ RegsKept s.me t ∧ t.me.pc = s.me.pc ∧ t.me.tr = s.me.tr ∧
        t.me.waits = { s.me.waits with yield := 0 }) ∧
    (s.me.run ≠ .unbound → exec .contextWake s = .next (woken s)) ∧
    ((∃ e ∈ s.me.nx, e.due = 1) →
      exec .nextTileLanding s = .next (woken (s.updMe (fun c =>
        { c with nx := c.nx.map (fun e => if e.due = 1 then { e with due := 0 } else e) }))))

/-- R187, R200, R428: a machine check halts every bound context of its core that it reaches, with cause 0x5F; no other context,
no byte of scratchpad and no other core changes; the firmware is told the core, the structure and the syndrome, and vector 2 is
raised. The model's choices: which parts of the context are undefined (log 90), and that the firmware, which may restart a task
from a checkpoint or end it, ends it, with cause 0x5F where no earlier fault of it stands (log 112). -/
def Sys2Proof.Claim.MachineChecks : Prop :=
  ∀ (m : McheckInfo) (s : State), m.core < nCores →
    ∃ t, exec (.machineCheck m) s = .next t ∧
      (∀ k, k < 4 → k ∈ m.ctxs → (s.ctx m.core k).run ≠ .unbound → (t.ctx m.core k).run = .halted 0x5F) ∧
      (∀ k, k < 4 → ¬ (k ∈ m.ctxs ∧ (s.ctx m.core k).run ≠ .unbound) → t.ctx m.core k = s.ctx m.core k) ∧
      (∀ c, c ≠ m.core → t.core c = s.core c) ∧ (t.core m.core).spad = (s.core m.core).spad ∧ t.phys = s.phys ∧
      t.fw.tasks = s.fw.tasks.map (fun d =>
        if ∃ k ∈ m.ctxs, k < 4 ∧ (s.ctx m.core k).run ≠ .unbound ∧ (s.ctx m.core k).task = some d.num
        then { d with code := some (d.code.getD 0x5F) } else d) ∧
      t.fw.reports = s.fw.reports ++ [⟨0x5F, BitVec.ofNat 64 (m.core + 65536 * m.unit), m.syndrome⟩] ∧
      t.host.irq.get 2 = s.host.irq.get 2 + 1

/-- What happens to a context at a boundary: held bundles, kind-A events, wakes, machine checks. That a WAITEV compares the bytes of
a poisoned row as they are is the model's choice (log 106), and so is the end of a task by a machine check (log 112). -/
def Obligations.BoundaryEvents : Prop := HeldBundles ∧ KindAEvents ∧ ContextWakes ∧ MachineChecks

/-- R225, R233 to R236, R250, R265, R274: a tile op starts once its in-tokens are done, with the bytes it is to write, and a
drain in its turn; one that inherits a fault does not: its slot takes the fault row and its token the fault. A started tile op
writes its slot two rows of 128 bytes in a cycle, in ascending order. A slot that was reclaimed while its command waited or ran
is no longer the command's: its entry stays, and rows land as those of any other write. -/
def Sys2Proof.Claim.FillersStart : Prop :=
  (∀ p ∈ [(Instr.tileOpStart, true), (.mdrainStart, false)], ∀ (s : State) (c : Cmd) (n : Nat),
    (if p.2 then TheCmd s c ∧ c.kind.isTile = true else Oldest s CmdKind.isDrain c) → c.kind.fillSlot = some n → MayStart c →
    (c.inFault = none → (p.2 = true → s.myCore.ownerBlocked (4096 * n) = false ∧
        ∀ m, readsSlot c.kind = some m → s.myCore.ownerBlocked (4096 * m) = false) →
      exec p.1 s = .next (if p.2 then putCmd (readWoken s c.kind) c (fun d => { d with started := true, buf := fillBytes s c.kind })
        else putCmd s c (fun d => { d with started := true }))) ∧
    (∀ f, c.inFault = some f →
      exec p.1 s = .next ((if n ∈ c.lost then s else unfilled n s).endCmd s.cur.core c (some f.2) 0))) ∧
  ∀ (s : State) (c : Cmd) (n : Nat), TheCmd s c → c.kind.isTile = true → c.kind.fillSlot = some n → c.started = true →
    c.next < 32 → s.myCore.ownerBlocked (4096 * n) = false → s.myCore.spad.wf = true →
    let off := 4096 * n + 128 * c.next
    n < 128 → (n ∈ c.lost → s.myCore.gated (4096 * n) = false) →
    ∃ t, exec .tileOpStart s = .next t ∧ (n ∉ c.lost → t.myCore.tiles = s.myCore.tiles) ∧
      (∀ m, m % 128 ≠ n → t.myCore.tile m = s.myCore.tile m) ∧
      t.myCore.cmds = s.myCore.cmds.map (fun d => if d.id == c.id then { d with next := d.next + 2 } else d) ∧
      (∀ o, t.myCore.spad.read o =
        if off ≤ o ∧ o < off + 256 ∧ 128 * c.next + (o - off) < c.buf.length then c.buf.getD (128 * c.next + (o - off)) 0
        else s.myCore.spad.read o) ∧
      ∀ k, k ≠ s.cur.core → t.core k = s.core k

/-- R222, R224, R225, R228, R233 to R236, R265: a tile op that has written its rows leaves the tag, the class and NF that it is
for, TCOPY and TCLASS by the bytes they copied or found; a drain at its end leaves its bytes too, and raises the flags of its
rounding. The entry of a slot that was reclaimed since stays. -/
def Sys2Proof.Claim.FillersEnd : Prop :=
  (∀ (s : State) (c : Cmd), TheCmd s c → c.started = true → 32 ≤ c.next →
    let same (n k : Nat) : Byte := s.myCore.spad.read (4096 * n + k)
    (∀ n ∈ c.lost, c.kind.isTile = true → c.kind.fillSlot = some n →
      exec .tileOpComplete s = .next (s.endCmd s.cur.core c none 0)) ∧
    (∀ n tag, n < 128 → n ∉ c.lost → c.kind = .tzero n tag →
      ∃ t, exec .tileOpComplete s = .next t ∧
        FillerEnds s t c n (same n) (tag.getD (s.myCore.tile n).tag) .zero false 0) ∧
    (∀ n tag v, n < 128 → n ∉ c.lost → c.kind = .tfill n tag v →
      let e := v.toNat % 2 ^ tagWidth tag
      ∃ t, exec .tileOpComplete s = .next t ∧
        FillerEnds s t c n (same n) tag (if e = 0 then .zero else .const) (nonFinite tag e) 0) ∧
    (∀ n tag, n < 128 → n ∉ c.lost → c.kind = .tident n tag →
      ∃ t, exec .tileOpComplete s = .next t ∧ FillerEnds s t c n (same n) tag .ident false 0) ∧
    (∀ n, n < 128 → n ∉ c.lost → c.kind = .tclass n →
      let x := classOf (s.myCore.tile n).tag (slotNow s n)
      ∃ t, exec .tileOpComplete s = .next t ∧
        FillerEnds s t c n (same n) (s.myCore.tile n).tag x.1 x.2 0) ∧
    ∀ n m, n < 128 → n ∉ c.lost → c.kind = .tcopy n m →
      let x := classOf (s.myCore.tile m).tag c.buf
      ∃ t, exec .tileOpComplete s = .next t ∧ FillerEnds s t c n (same n) (s.myCore.tile m).tag x.1 x.2 0) ∧
  ∀ (s : State) (c : Cmd) (a part n : Nat) (tag : Tag), Oldest s CmdKind.isDrain c → c.started = true → n < 128 →
    s.myCore.spad.wf = true → (visible s a).mem.wf = true →
    c.kind = .mdrain a tag part n → tag ∈ drainTags (visible s a) → s.myCore.ownerBlocked (4096 * n) = false →
    (n ∈ c.lost → s.myCore.gated (4096 * n) = false) →
    ∃ t u fl, exec .mdrainComplete s = .next t ∧
      (let w := tagWidth tag / 8
       let byte (k : Nat) : Byte := elemByte (drained (visible s a) tag part (k / w)).1 (k % w)
       let x := classOf tag ((List.range 4096).map byte)
       (if n ∈ c.lost then Landed s u n byte else Filled s u n byte tag x.1 x.2) ∧
       (∀ b, b < 7 → (fl.getLsbD b = true ↔ ∃ e, e < 4096 / w ∧ (drained (visible s a) tag part e).2.getLsbD b = true))) ∧
      t = u.endCmd s.cur.core c none fl

/-- Tile ops and drains, from start to end (R225, R233 to R236, R265). That TCLASS keeps the slot's own tag, also where it is
UNDEF, is the model's reading (log 55). -/
def Obligations.FillerEvents : Prop := FillersStart ∧ FillersEnd

/-- R246, R250, R256, R258, R266, R267, R274: the oldest sequencer command starts once its in-tokens are done: with an inherited
fault, behind an unreported one, or with a bad source it ends with that fault; else MWLOAD captures its source. MZERO leaves
its working bank zero under its tag, MWLOAD its units, marked loaded. -/
def Sys2Proof.Claim.SequencerCommands : Prop :=
  (∀ (s : State) (c : Cmd), Oldest s CmdKind.isSeq c → MayStart c →
    (∀ d a b, c.kind = .mwload d a b → ∀ i < b.toNat, s.myCore.ownerBlocked (a.toNat + 256 * i) = false) →
    let start (u : State) (buf : List Byte) : State := putCmd u c (fun d => { d with started := true, buf := buf })
    (∀ f, c.inFault = some f → exec .sequencerCommandStart s = .next (s.endCmd s.cur.core c (some f.2) 0)) ∧
    (c.inFault = none → s.myCore.abandon = true →
      exec .sequencerCommandStart s = .next (s.endCmd s.cur.core c (some (c.fail 0 0x31 9)) 0)) ∧
    (c.inFault = none → s.myCore.abandon = false → (∀ d a b, c.kind ≠ .mwload d a b) →
      exec .sequencerCommandStart s = .next (start s [])) ∧
    ∀ d a b, c.kind = .mwload d a b → c.inFault = none → s.myCore.abandon = false →
      exec .sequencerCommandStart s = .next
        (match mwloadBad s d a b with
         | some r => (abandoning s).endCmd s.cur.core c
            (some (c.fail 0 (if r = 5 then 0x33 else 0x31) (unitStatus d.toNat r))) c.flags
         | none => start (s.updMyCore (fun x => x.touchRun a.toNat (256 * b.toNat) (s.eff s.cur.core)))
            (s.myCore.spad.readBytes a.toNat (256 * b.toNat)))) ∧
  (∀ (s : State) (c : Cmd) (a : Nat) (fp : Bool), Oldest s CmdKind.isSeq c → c.started = true → c.kind = .mzero a fp →
    exec .mzeroComplete s = .next
      ((s.updMyCore (fun x => { x with
          accs := x.accs.set (Fin.ofNat 4 a) { x.accs.get (Fin.ofNat 4 a) with work := { fp64 := fp, mem := [] } } })).endCmd
        s.cur.core c none 0)) ∧
  ∀ (s : State) (c : Cmd) (d a b : Word), Oldest s CmdKind.isSeq c → c.started = true → c.kind = .mwload d a b →
    exec .mwloadComplete s = .next
      ((s.updMyCore (fun x => { x with
          wbuf := x.wbuf.writeBytes (256 * d.toNat) c.buf
          wloaded := x.wloaded ||| (BitVec.ofNat 512 (2 ^ b.toNat - 1) <<< d.toNat) })).endCmd s.cur.core c none 0)

/-- R212, R250, R251, R253, R254, R258: the step of the running MGO or MSTEP whose slots are still checks in the order of R258; a
check that fails ends the command with its cause and status and stops the sequencer; else the stripes of its slots are awake,
the working bank takes the step,
the charge of the treatment is counted, the flags are added to the command's, and the last step ends it. -/
def Sys2Proof.Claim.MatrixSteps : Prop :=
  ∀ (s : State) (c : Cmd) (p : StepCmd), Oldest s CmdKind.isSeq c → c.started = true → stepCmd c = some p →
    stepWaits s.myCore p = false →
    (∀ reason group, stepReason s.myCore p = some (reason, group) →
      exec .matrixStep s = .next ((abandoning s).endCmd s.cur.core c
        (some (c.fail c.next (if reason = 5 ∨ reason = 6 then 0x33 else if reason = 7 ∨ reason = 8 then 0x32 else 0x31)
          (BitVec.ofNat 64 ((p.pos.w % 512).toNat * 2 ^ 40 + (p.pos.b % 128).toNat * 2 ^ 32 + (p.pos.a % 128).toNat * 2 ^ 24 +
            group * 2 ^ 8 + reason)))) c.flags)) ∧
    (stepReason s.myCore p = none →
      let r := s.myCore.doStep p
      let s1 := (s.updMyCore (fun _ => r.1.touchSlots (stepSlots p) (s.eff s.cur.core))).updCluster (s.cur.core / 16) (fun k => { k with charge := k.charge +
        (match stepTreat s.myCore p with | .skip => 4 | .ident => 192 | .full => 2304) })
      exec .matrixStep s = .next
        (if p.steps ≤ c.next + 1 then s1.endCmd s.cur.core c none (c.flags ||| r.2)
         else putCmd s1 c (fun d => { d with next := d.next + 1, flags := c.flags ||| r.2 })))

/-- Sequencer commands and the steps of a nest (R250 to R267). The model's choices: an inherited fault comes before an abandoned
sequencer (log 53), the status always names WUNIT and BSLOT (log 54), the charge is counted as the step is done (log 89); the
numbers of a step are the model's own doStep. -/
def Obligations.SequencerEvents : Prop := SequencerCommands ∧ MatrixSteps

/-- R274, R282, R286, R290, R291, R366: the copy port starts its commands in issue order, at most four at once; one that
inherits a fault or is longer than 2^32 bytes ends with that fault. An OVL with a number of no overlay ends with cause 0x36
reason 7, one that is resident ends at once, one over pinned words fails with reason 8; else the records it overlaps lose RES.
It draws its bytes on the budget, and at its end it fails with reason 9 where the image text cannot be read, else its words
are loaded. A load that fails leaves no record it overlaps resident, and its range undefined. -/
def Sys2Proof.Claim.CopyStarts : Prop :=
  (∀ (s : State) (c : Cmd), CopyNext s c →
    (∀ f, c.inFault = some f →
      exec .copyCommandStart s = .next ((uncovered c s).endCmd s.cur.core c (some f.2) 0)) ∧
    (∀ two d b n k g, c.inFault = none → c.kind = .cpy two d b n k g →
      exec .copyCommandStart s = .next
        (if two = false ∧ 2 ^ 32 < n.toNat then copyFails s c 0 0x30 0 5
         else putCmd s c (fun d => { d with started := true }))) ∧
    ∀ n, c.inFault = none → c.kind = .ovl n →
      exec .copyCommandStart s = .next
        (match s.ovlFor s.cur.core n with
         | none => s.endCmd s.cur.core c (some (c.fail 0 0x36 0x700)) 0
         | some o =>
           if ∃ r ∈ s.myCore.resid, r.ovl = o.num ∧ r.image = s.coreImage s.cur.core ∧ r.res = true then
             s.endCmd s.cur.core c none 0
           else if ∃ p ∈ s.pinned s.cur.core, Meet o.off (8 * o.words.length) p.1 p.2 then
             ovlFails s c o 8
           else putCmd (s.updMyCore (overlaid o)) c (fun d => { d with started := true }))) ∧
  (∀ (s : State) (c : Cmd) (n : Word) (o : Overlay), TheCmd s c → c.started = true → c.kind = .ovl n →
    s.ovlFor s.cur.core n = some o →
    (c.nextByte < 8 * o.words.length → 0 < copyMay s 1 →
      let m := copyMay s (8 * o.words.length - c.nextByte)
      ∃ t, exec .copyChunkComplete s = .next t ∧
        t = putCmd (charged s m) c (fun d => { d with nextByte := d.nextByte + m })) ∧
    ∀ img, s.imageOfCore s.cur.core = some img → 8 * o.words.length ≤ c.nextByte →
      exec .ovlComplete s = .next
        (if s.textBad img.id o = true then ovlFails s c o 9
         else (s.updMyCore (loaded s img o)).endCmd s.cur.core c none 0))

/-- R284 to R286, R347, R354, R366: the copy port moves the rest of the chunk in progress as far as the budget allows: with the
walks of its pages, the lowest reason of R286 fails it, else a poisoned source byte does and poisons its destination; else
its bytes are written. A chunk that fails leaves the rest of the copy's bytes undefined. At the end the covered slots move on,
a filled one with the class and NF of the bytes the copy wrote, and the token is DONE. -/
def Sys2Proof.Claim.CopyChunks : Prop :=
  (∀ (s : State) (c : Cmd) two d b n k g, TheCmd s c → c.kind = .cpy two d b n k g → s.chunkDue c = true → 0 < copyMay s 1 →
    let r := chunkRest c
    let s0 := s.walkChunk (s.portOf c) r
    let x := s0.chunkSides (s0.portOf c) r
    let lost := State.freeRest c (c.chunks - c.next) c.next s0
    (∀ why, s0.chunkReason (s0.portOf c) r x = some why →
      exec .copyChunkComplete s = .next (charged (copyFails (lost.spoilBad x []) c c.next (chunkCause why) (c.before c.next) why) 0)) ∧
    (s0.chunkReason (s0.portOf c) r x = none → (∃ p ∈ s0.chunkPoison x, p = true) →
      exec .copyChunkComplete s = .next
        (charged (copyFails (lost.spoilBad x (s0.chunkPoison x)) c c.next 0x35 (c.before c.next) 6) 0)) ∧
    (s0.chunkReason (s0.portOf c) r x = none → (∀ p ∈ s0.chunkPoison x, p = false) →
      let m := copyMay s r.len
      exec .copyChunkComplete s = .next
        (charged (putCmd (State.writeSides (if k = 1 then some c.lost else none) (takeSides m x.dst) ((s0.chunkData x).take m) (s0.touchSides x.src)) c
          (progressed r x ((s0.chunkData x).take m) m)) m))) ∧
  ∀ (s : State) (c : Cmd) two d b n k g, TheCmd s c → c.kind = .cpy two d b n k g → c.started = true → c.chunks ≤ c.next →
    exec .copyCommandComplete s = .next
      ((s.updMyCore (fun x => (s.covered c).zipIdx.foldl (fun x n =>
          if n.1 ∈ c.lost then x
          else if k = 1 then
            let u := g.getD (x.tile n.1).tag
            let v := classOf u ((c.buf.drop (4096 * n.2)).take 4096)
            x.updTile n.1 (fun e => { tag := u, st := .ready, cls := if e.spoil then .general else v.1, nf := e.nf || v.2,
                                      spoil := false })
          else if k = 2 then x.updTile n.1 (fun e => { e with st := .ready })
          else x.updTile n.1 (fun e => { e with tag := .undef, cls := .general, nf := false, st := .empty })) x)).endCmd
        s.cur.core c none 0)

/-- The copy port: starts and overlays, chunks and ends (R282 to R291). The model's choices: the lowest reason of a chunk (log 54),
what a failed copy or overlay leaves and where an image's text is (log 57), the charge taken as the piece is done (log 89). -/
def Obligations.CopyEvents : Prop := CopyStarts ∧ CopyChunks

/-- R274, R286, R347, R349 to R352, R366: a DCPY that is first of its path and has room on its engine starts; its chunks move on
the budget of its engine's die; at its end its completion record stands in its ring by a translated write, TAIL has moved past
it, and its token is DONE. The record waits on a migrating page (R348); where a page of it is not mapped writable, TAIL stays
(the model's choice, log 62). -/
def Obligations.DieTransfers : Prop :=
  (∀ (s : State) (c : Cmd) d b n p g, TheCmd s c → c.kind = .dcpy d b n p g → MayStart c → c.fault = none →
    dcpyFirst s.myCore c = true →
    dcpyRunning s c.eng < 4 →
    (∀ f, c.inFault = some f →
      exec .dcpyCommandStart s = .next (putCmd s c (fun m => { m with fault := some f.2, ended := true }))) ∧
    (c.inFault = none →
      exec .dcpyCommandStart s = .next (putCmd s c (fun m =>
        if 2 ^ 32 < n.toNat then { m with fault := some (c.fail 0 0x30 0x500), ended := true }
        else { m with started := true })))) ∧
  (∀ (s : State) (c : Cmd) d b n p g, TheCmd s c → c.kind = .dcpy d b n p g → c.ended = false → s.chunkDue c = true →
    let t := s.taskOf s.cur.core c.ctx
    0 < s.dieRoom (dcpyDie c) t 1 →
    let r := chunkRest c
    let s0 := s.walkChunk (s.portOf c) r
    let x := s0.chunkSides (s0.portOf c) r
    s0.chunkReason (s0.portOf c) r x = none → (∀ p ∈ s0.chunkPoison x, p = false) →
    let m := min (s.dieRoom (dcpyDie c) t r.len) r.len
    exec .dcpyChunkComplete s = .next
      ((putCmd (State.writeSides none (takeSides m x.dst) ((s0.chunkData x).take m) (s0.touchSides x.src)) c
        (progressed r x ((s0.chunkData x).take m) m)).drawDie (dcpyDie c) t m)) ∧
  ∀ (s : State) (c : Cmd) d b n p, TheCmd s c → (c.ended = true ∨ (c.started = true ∧ c.chunks ≤ c.next)) →
    (c.kind = .dcpy d b n p none → exec .dcpyComplete s = .next (s.endCmd s.cur.core c c.fault 0)) ∧
    ∀ g t r, c.kind = .dcpy d b n p (some g) → s.taskOf s.cur.core c.ctx = some t →
      ringOf (some t) (s.cur.core / 768) g = some r →
      let va := r.base + BitVec.ofNat 64 (32 * (r.tail % 2 ^ r.log))
      let x := (piecesOf va 32).map (fun y => (s.side ⟨s.cur.core, some t, true, []⟩ true y, y.2))
      (∀ y ∈ x, y.1 ≠ .wait) →
      let bad : Bool := x.any (fun y => match y.1 with | .fail _ => true | _ => false)
      let s1 := if s.isMapped s.cur.core va then s.xlateFx s.cur.core (some t) va.toNat true else s
      let bytes := (completion s.cur.core c d b n).flatMap (fun w => leBytes 8 w.toNat)
      exec .dcpyComplete s = .next
        (((State.writeSides none x bytes s1).updRing t.num (s.cur.core / 768) g (fun r =>
          { r with tail := if bad then r.tail else (r.tail + 1) % 2 ^ 32, out := r.out - 1 })).endCmd s.cur.core c c.fault 0)

/-- R274, R312, R314, R316 to R319, R321, R323, R324: an NI command starts in its turn: with an inherited fault, a bad descriptor
or no usable link it ends with that fault, else its requests are sent. A request is performed at its place: turned away it is
answered with zeros and the reason; a read is answered with the bytes; a write lands; an atomic is answered with the old bytes
and writes the new. -/
def Sys2Proof.Claim.RemoteRequests : Prop :=
  (∀ (s : State) (c : Cmd), NiStarts s c →
    (∀ f, c.inFault = some f → exec .niCommandStart s = .next (s.endCmd s.cur.core c (some f.2) 0)) ∧
    (c.inFault = none → BadDesc c.kind →
      exec .niCommandStart s = .next (s.endCmd s.cur.core c (some (c.fail 0 0x26 (niWord 0 0 0 6))) 0)) ∧
    (c.inFault = none → ¬ BadDesc c.kind → Away s c → s.pickLink s.cur.core (s.cmdPkg s.cur.core c) = none →
      exec .niCommandStart s = .next (s.cutOff s.cur.core c 7)) ∧
    ∀ link, c.inFault = none → ¬ BadDesc c.kind →
      ((¬ Away s c ∧ link = none) ∨ (Away s c ∧ link ≠ none ∧ link = s.pickLink s.cur.core (s.cmdPkg s.cur.core c))) →
      ∃ (t : State) (d : Cmd → Cmd), exec .niCommandStart s = .next t ∧ t.myCore.cmds = s.myCore.cmds.map (fun m => if m.id == c.id then d m else m) ∧
        (d c).started = true ∧ (d c).reqs = (List.range c.nReqs).map (s.newReq s.cur.core c link) ∧
        t.myCore.spad = s.myCore.spad ∧ (∀ k, k ≠ s.cur.core → t.core k = s.core k)) ∧
  ∀ (s : State) (c : Cmd) (r : Req) (p : Place), Arrives s c r p →
    let n := c.reqBytes r.idx
    let bad := (s.core p.core).spadBad p.off n
    (turnedAway s c p n ≠ 0 → exec .remoteRequestArrival s = .next (putRequest s c p
      { r with arrived := true, status := turnedAway s c p n, data := List.replicate n 0, poison := false })) ∧
    (turnedAway s c p n = 0 →
      ((∃ d a m w, c.kind = .rget d a m w) ∨ (∃ l i d m w, c.kind = .rgath l i d m w) →
        exec .remoteRequestArrival s = .next (putRequest (touched s p n) c p
          { r with arrived := true, data := bytesAt s p n, poison := bad, status := if bad then 5 else 0 })) ∧
      ((∃ l i d m w, c.kind = .rscat l i d m w) ∨
          ((∃ d a m o w, c.kind = .rput d a m o w) ∧ ∀ q ∈ c.reqs, q.idx < r.idx → q.status = 0) →
        r.poison = false →
        exec .remoteRequestArrival s = .next
          (putRequest (s.niWrite s.cur.core c p.core p.off r.data) c p { r with arrived := true })) ∧
      (∀ a v l op dw o w, c.kind = .ratom a v l op dw o w →
        exec .remoteRequestArrival s = .next (putRequest
          (match bad, ratomBytes c (bytesAt s p n) with
           | false, some bs => s.niWrite s.cur.core c p.core p.off bs
           | _, _ => touched s p n) c p
          { r with arrived := true, data := bytesAt s p n, poison := bad, status := if bad then 5 else 0 })))

/-- R312, R318, R319, R321, R323 to R326: a reply lands where its command says, an RGET's in ascending order, an RATOM's as the
extended old value; a lane of a gather or scatter is charged at its weight; the last reply ends the command, with the record
of its first failure if one failed; a multicast lands
in every core it names that does not turn it away, and ends with the reason of the lowest that does. -/
def Sys2Proof.Claim.RemoteReplies : Prop :=
  (∀ (s : State) (c : Cmd) (r : Req), TheCmd s c → c.kind.isRemote = true →
    c.reqs.find? (fun q => q.idx == s.cur.idx) = some r → c.mayLand r = true → r.poison = false →
    (c.kind.isFlits = true → ∀ q ∈ c.reqs, q.idx < r.idx → q.status = 0) →
    let bytes := match c.kind with
      | .ratom _ _ _ op dw _ _ =>
        leBytes 8 (if dw = true ∨ 8 ≤ op then leNat r.data else ((BitVec.ofNat 32 (leNat r.data)).signExtend 64).toNat)
      | _ => r.data
    let c2 : Cmd := { c with reqs := c.reqs.map (fun q => if q.idx == r.idx then { q with landed := true } else q) }
    let s0 := putCmd (match c.landing r.idx with
      | some o => s.niWrite s.cur.core c s.cur.core o bytes
      | none => s) c (fun _ => c2)
    let s1 := if c.kind.isLanes then s0.updCluster (s.cur.core / 16) (fun k => { k with charge := k.charge + 4 }) else s0
    exec .remoteReplyLanding s = .next
      (if ∀ q ∈ c2.reqs, q.landed = true then
        s1.endCmd s.cur.core c2 ((c2.reqs.find? (fun q => q.status != 0)).map (fun q =>
          s1.niRecord s.cur.core c2 q.idx 0x26 q.status)) 0
       else s1)) ∧
  ∀ (s : State) (c : Cmd) off data mask, TheCmd s c → c.kind = .mcst off data mask → c.started = true →
    c.due ≤ s.eff s.cur.core →
    let cores := ((List.range 16).filter (fun i => mask.getLsbD i)).map (fun i => s.cur.core / 16 * 16 + i)
    let why (k : Nat) : Nat := s.refusal (s.ctx s.cur.core c.ctx).task ⟨s.boot.pkg, k, off⟩ data.length
    (∀ f, c.inFault = some f → exec .mcstLanding s = .next (s.endCmd s.cur.core c (some f.2) 0)) ∧
    (c.inFault = none → (∀ k ∈ cores, why k = 0) → ∃ t : State, exec .mcstLanding s = .next (t.endCmd s.cur.core c none 0) ∧
      (s.core s.cur.core).cmds = (t.core s.cur.core).cmds ∧
      ∀ k ∈ cores, c.drop = [] → off + data.length ≤ 0x80000 → (s.core k).spad.wf = true →
        ∀ j, (h : j < data.length) → (t.core k).spad.read (off + j) = data[j]) ∧
    (c.inFault = none → ∀ k ∈ cores.find? (fun k => why k != 0), ∃ t : State, exec .mcstLanding s = .next
      (t.endCmd s.cur.core c (some (c.fail 0 0x26 (niWord 0 0 k (why k)))) 0))

/-- R312, R317 to R319, R438: a request of another package that arrives is performed at most once, and no write after an ordered
one that its context sent later to the same core: a duplicate, and such a write, changes nothing; one
that is turned away changes no core and is answered with zeros and the reason; a read of a sound row is answered with its bytes,
and a write lands. -/
def Sys2Proof.Claim.PeerRequests : Prop :=
  ∀ (s : State) (r : FarReq) (rest : List Turn), s.agenda = .abroad (.request r) :: rest → s.fromPeer r = true →
    let u : State := { s with agenda := rest }
    let why := s.refusal (some r.task) ⟨s.boot.pkg, r.target, r.off⟩ r.op.size
    let x := s.core r.target
    let wr : Bool := match r.op with | .read _ => false | _ => true
    let answers (t : State) (status : Nat) (data : List Byte) : Prop :=
      t.fab.seen = (r.pkg, r.core, r.seq) :: s.fab.seen ∧
      t.fab.ordered = (if r.ord = true ∧ wr = true then r :: s.fab.ordered else s.fab.ordered) ∧
      t.fab.replies = s.fab.replies ++ [⟨r.pkg, r.core, r.seq, status, data, false⟩]
    let late : Prop := wr = true ∧
      ∃ o ∈ s.fab.ordered, o.pkg = r.pkg ∧ o.core = r.core ∧ o.ctx = r.ctx ∧ o.target = r.target ∧ r.seq < o.seq
    ((r.pkg, r.core, r.seq) ∈ s.fab.seen ∨ late → step s = .next u) ∧
    ((r.pkg, r.core, r.seq) ∉ s.fab.seen → ¬ late →
      (why ≠ 0 → ∃ t, step s = .next t ∧ t.cores = s.cores ∧ t.phys = s.phys ∧ answers t why (List.replicate r.op.size 0)) ∧
      (∀ n, r.op = .read n → why = 0 → x.spadBad r.off n = false →
        ∃ t, step s = .next t ∧ (t.core r.target).spad = x.spad ∧ answers t 0 (x.spad.readBytes r.off n)) ∧
      ∀ d, r.op = .write d false → why = 0 → x.spad.wf = true →
        ∃ t, step s = .next t ∧ answers t 0 [] ∧ (∀ c, c ≠ r.target → t.core c = s.core c) ∧
          ∀ a, (t.core r.target).spad.read a = if r.off ≤ a ∧ a < r.off + d.length then d.getD (a - r.off) 0 else x.spad.read a)

/-- NI commands: requests and replies (R316 to R326). The model's choices: a LAYOUT fault names target 0 (log 72), a lane is charged
as its reply lands (log 89), a refused multicast ends with the lowest core that refuses (log 104). -/
def Obligations.RemoteEvents : Prop := RemoteRequests ∧ RemoteReplies ∧ PeerRequests

/-- R327 to R330: BINIT writes an object with its EXPECT, COUNT 0, PHASE 0; an arrival below EXPECT raises COUNT, one that meets
it ends the phase and wakes the contexts asleep on it, one beyond it breaks the object and ends with cause 0x41; an object
that is not initialized, or an EXPECT of 0, ends with cause 0x40. The object's stripe wakes (R242). -/
def Obligations.BarrierObjects : Prop :=
  (∀ (s : State) (c : Cmd) a b p, AtObject s c p → c.kind = .binit a b →
    let s0 := s.updCore p.core (fun x => x.touch p.off (s.eff p.core))
    exec .binitLanding s = .next
      (if b.toNat = 0 ∨ 65535 < b.toNat then
        s0.endCmd s.cur.core c (some (c.fail 0 0x40 ((objectAt s p).setWidth 64))) 0
       else (s0.niWrite s.cur.core c p.core p.off (leBytes 16 (b.toNat + 2 ^ 37))).endCmd s.cur.core c none 0)) ∧
  ∀ (s : State) (c : Cmd) a n p, AtObject s c p → c.kind = .barr a n → (s.core p.core).spadBad p.off 16 = false →
    let o := objectAt s p
    let s0 := s.updCore p.core (fun x => x.touch p.off (s.eff p.core))
    let put (o : BitVec 128) : State := s0.niWrite s.cur.core c p.core p.off (leBytes 16 o.toNat)
    (o.getLsbD 37 = false ∨ objExpect o = 0 →
      exec .barrierArrival s = .next (s0.endCmd s.cur.core c (some (c.fail n 0x40 (o.setWidth 64))) 0)) ∧
    (o.getLsbD 37 = true → objExpect o ≠ 0 →
      (objCount o + n < objExpect o →
        exec .barrierArrival s = .next ((put (counted o (objCount o + n))).endCmd s.cur.core c none 0)) ∧
      (objCount o + n = objExpect o →
        exec .barrierArrival s = .next
          (((put (completed o)).wakeSleepers p o).endCmd s.cur.core c none 0)) ∧
      (objExpect o < objCount o + n →
        let b := o ||| BitVec.twoPow 128 36
        exec .barrierArrival s = .next ((put b).endCmd s.cur.core c (some (c.fail n 0x41 (b.setWidth 64))) 0)))

/-- R356, R417, R433, R436, R437, R439 to R444: a replay is counted, in counter 15 (the model's reading, log 19); a retired link is down, in no route entry, and every
request on it moves to another link or ends; a request without an answer for 8,000,000 cycles ends its command; a router is
retired once no task is bound on its die, whose views are then made anew; a CXL port that goes down raises vector 2, and one that retrains serves its
decoders. -/
def Obligations.FabricEvents : Prop :=
  (∀ s : State, s.cur.id < 4 → exec .flitReplay s = .next (s.updDie s.cur.id (fun d =>
    { d with soft := d.soft.set 15 (d.soft.get 15 + 1) }))) ∧
  (∀ s : State, s.cur.id < 18 → ∃ u : State, exec .linkRetire s = .next (u.cores.foldl (fun t p =>
      (p.2.cmds.filter (fun c => c.reqs.any (fun r => !r.landed && r.link == some s.cur.id))).foldl
        (State.relink p.1 s.cur.id) t) u) ∧
    u.fab.up.getLsbD s.cur.id = false ∧ u.fab.retired.getLsbD s.cur.id = true ∧
    (∀ l, l < 18 → l ≠ s.cur.id → u.fab.up.getLsbD l = s.fab.up.getLsbD l ∧ u.fab.retired.getLsbD l = s.fab.retired.getLsbD l) ∧
    u.fab.routes = s.fab.routes.map (fun r => (r.1, r.2.filter (· != s.cur.id))) ∧ { u with fab := s.fab } = s) ∧
  (∀ (s : State) (c : Cmd) (r : Req), TheCmd s c → c.reqs.find? (fun q => q.idx == s.cur.idx) = some r → r.link ≠ none →
    r.landed = false → r.sentAt + 8000000 ≤ s.master → exec .fabricTimeout s = .next (s.cutOff s.cur.core c 8)) ∧
  (∀ s : State, s.cur.id < 192 → (s.cluster s.cur.id).routerRetired = false →
    let bound := s.fw.tasks.filter (fun t => t.st == .bound && t.cores.any (fun c => dieOf c == s.cur.id / 48))
    (bound = [] → ∃ u : State,
      u = reviewed (s.cur.id / 48) (s.updCluster s.cur.id (fun k => { k with routerRetired := true, retiring := false })) ∧
      exec .routerRetire s = .next ((u.fw.tasks.filter u.stranded).foldl (fun t k => t.endTask k 0x26) u)) ∧
    (bound ≠ [] → exec .routerRetire s = .next
      ((bound.filter (fun t => !t.ckpt && !t.harvest)).foldl (fun t k => t.decideCkpt k)
        (s.updCluster s.cur.id (fun k => { k with retiring := true }))))) ∧
  (∀ s : State, s.cur.id ∈ s.fab.cxlUp → exec .cxlPortDown s = .next
    (({ s with fab := { s.fab with cxlUp := setErase s.cur.id s.fab.cxlUp } } : State).raiseIrq 2)) ∧
  ∀ (l : List CxlDecoder) (s : State), s.cur.id < 4 → l.length ≤ 8 →
    (∀ d ∈ l, 2 ^ 48 + s.cur.id * 2 ^ 46 ≤ d.base ∧ d.base + d.len ≤ 2 ^ 48 + (s.cur.id + 1) * 2 ^ 46) →
    l.Pairwise (fun a b => ¬ Meet a.base a.len b.base b.len) →
    exec (.cxlPortRetrain l) s = .next { s with fab := { s.fab with
      cxlUp := setInsert s.cur.id s.fab.cxlUp
      cxlDecs := s.fab.cxlDecs.filter (fun d => d.1 != s.cur.id) ++ l.map (fun d => (s.cur.id, d)) } }

/-- R129, R302 to R304: a revocation squashes its banks' bundles at cycle 16, parks the banks at cycle 21 with their stores
performed, and at cycle 24 gives the region back: a discardable one reads as zero and sets DISCARD in the eddies of the lend,
a keep one is BUSY until their landings are done and it is copied. The firmware may take a lend back. -/
def Sys2Proof.Claim.Revocations : Prop :=
  (∀ (s : State) pre r post, FirstRev s (fun q => q.squashed = false ∧ q.at0 + 16 ≤ s.eff s.cur.core) pre r post →
    ∃ t, exec .revokeSquash s = .next t ∧ t.myCore.lend.rev = pre ++ { r with squashed := true } :: post ∧
      t.myCore.banks = s.myCore.banks ∧
      ∀ k ∈ taking s r, k < 4 → (t.myCore.ctx k).waits.held = false ∧ (t.myCore.ctx k).waits.yield = 0 ∧
        (t.myCore.ctx k).pc = (s.myCore.ctx k).pc ∧ (t.myCore.ctx k).files = (s.myCore.ctx k).files ∧
        (t.myCore.ctx k).q = (s.myCore.ctx k).q) ∧
  (∀ (s : State) pre r post,
    FirstRev s (fun q => q.squashed = true ∧ q.parked = false ∧ q.at0 + 21 ≤ s.eff s.cur.core) pre r post →
    (∀ k ∈ r.banks, k ∈ [1, 2, 3]) →
    ∃ t, exec .bankPark s = .next t ∧
      t.myCore.lend.rev = pre ++ (if r.region then [{ r with parked := true }] else []) ++ post ∧
      ∀ k ∈ [1, 2, 3], (t.myCore.bank k).st = (if k ∈ taking s r then .parked else (s.myCore.bank k).st) ∧
        (k ∈ taking s r → r.region = true → (t.myCore.ctx k).storeQ = [])) ∧
  (∀ (s : State) pre r post, s.myCore.lend.cfg.busy = false →
    FirstRev s (fun q => q.parked = true ∧ q.region = true ∧ q.at0 + 24 ≤ s.eff s.cur.core) pre r post →
    (r.keep = true → exec .regionReclaim s = .next (s.updMyCore (fun x =>
      { x with lend := { x.lend with cfg := { x.lend.cfg with busy := true } } }))) ∧
    (r.keep = false → s.myCore.spad.wf = true → r.start + r.count ≤ 128 →
      ∃ t, exec .regionReclaim s = .next t ∧ t.myCore.lend.rev = pre ++ post ∧
        (∀ o, t.myCore.spad.read o = if InBytes r.start r.count o then 0 else s.myCore.spad.read o) ∧
        (∀ n, n < 128 → t.myCore.tile n =
          if InSlots r.start r.count n then reclaimed (s.myCore.tile n) else s.myCore.tile n) ∧
        ∀ k ∈ [1, 2, 3], (t.myCore.ctx k).csr.discard = ((s.myCore.ctx k).csr.discard || (s.myCore.bank k).lent) ∧
          (t.myCore.bank k).lent = false)) ∧
  (∀ (s : State) pre r post, s.myCore.lend.cfg.busy = true → s.myCore.lend.filling = false →
    FirstRev s (fun q => q.parked = true ∧ q.region = true ∧ q.keep = true) pre r post →
    (∀ c ∈ s.myCore.cmds, ¬ (s.myCore.lentBanks.contains c.ctx = true ∧ c.landsIn r.start r.count = true)) →
    ∃ t, exec .keepRegionCopyOut s = .next t ∧ t.myCore.lend.rev = pre ++ post ∧ t.myCore.lend.cfg.busy = false ∧
      ∃ k, t.myCore.lend.kept = some k ∧ k.start = r.start ∧ k.count = r.count ∧
        k.tiles = (List.range r.count).map (fun i => s.myCore.tile (r.start + i)) ∧
        (s.myCore.spad.wf = true → ∀ o, InBytes r.start r.count o → k.mem.read o = s.myCore.spad.read o)) ∧
  ∀ s : State, s.cur.core < nCores → s.myCore.lend.cfg.active = true →
    exec .firmwareRevoke s = .next (s.updMyCore (revoked s))

/-- R225, R241, R304, R305: a LEND completes: BUSY clears, the slots of its region are reclaimed, or hold the kept copy of the
same region, and the stripes have power; a bank parked by a revocation of the same region may run again, no other bank
changes. -/
def Sys2Proof.Claim.LendCompletes : Prop :=
  ∀ s : State, s.cur.core < nCores → s.myCore.lend.filling = true → s.myCore.spad.wf = true →
    let l := s.myCore.lend.cfg
    l.start + l.count ≤ 128 → (∀ k ∈ s.myCore.lend.kept, k.mem.wf = true ∧ k.tiles.length = k.count) →
    ∃ t, exec .lendComplete s = .next t ∧ t.myCore.lend.cfg = { l with busy := false } ∧ t.myCore.lend.filling = false ∧
      t.myCore.lend.kept = none ∧
      (∀ o, t.myCore.spad.read o = if InBytes l.start l.count o then (match putBack s with | some k => k.mem.read o | none => 0)
        else s.myCore.spad.read o) ∧
      (∀ n, n < 128 → t.myCore.tile n = if InSlots l.start l.count n
        then (match putBack s with | some k => k.tiles[n - l.start]?.getD {} | none => reclaimed (s.myCore.tile n))
        else s.myCore.tile n) ∧
      (∀ n, InSlots l.start l.count n → t.myCore.gated (4096 * n) = false) ∧
      ∀ k ∈ [1, 2, 3], t.myCore.bank k = s.myCore.bank k ∨
        (Returns s k ∧ t.myCore.bank k = { s.myCore.bank k with st := .run, lent := true })

/-- Revocations (R302 to R304) and the completion of LEND (R305). That a bank parks with its store queue empty is the model's
choice (log 73). -/
def Obligations.LendEvents : Prop := Revocations ∧ LendCompletes

/-- R184, R187, R293, R299, R301, R305, R306: an ENDING bank is FREE once its context's queues and commands are empty, EXIT kept; a
firmware-bound eddy's task takes its end code. A parked tenant eddy goes to SAVING, then its context is kept with its task and
its bank is FREE. The firmware binds a tenant eddy to a FREE bank under the lend; where its cluster was gated, the lent region
is reclaimed as it is turned on. The model's choices: the end code 0xFE of a tenant eddy (log 75), which of its faults that no
consumer reported its task takes (log 110), that its bind loads no data (log 78), that region (log 82), and that the kept context
stands in the record (log 17). -/
def Obligations.EddyEnds : Prop :=
  (∀ s : State, Eddying s → (s.myCore.bank s.cur.ctx).st = .ending → s.me.storeQ = [] →
    (∀ c ∈ s.myCore.cmds, c.ctx ≠ s.cur.ctx) →
    ∃ t, exec .eddyBankFree s = .next t ∧ t.me = Ctx.reset ∧
      t.myCore.bank s.cur.ctx = { exit := (s.myCore.bank s.cur.ctx).exit } ∧
      (∀ k ∈ [0, 1, 2, 3], k ≠ s.cur.ctx → t.ctx s.cur.core k = s.ctx s.cur.core k) ∧
      t.fw.tasks = (match s.me.task with
        | some n => s.fw.tasks.map (fun k => if k.num = n then
            (if s.myCore.fwEddy s.cur.ctx then
              { k with cores := [], code := some (k.code.getD (match s.me.run with
                | .halted c => c
                | _ => s.me.unreported.getD 0xFE)) }
             else match s.me.run, s.me.unreported with
               | .ended, some c => { k with code := some (k.code.getD c) }
               | _, _ => k) else k)
        | none => s.fw.tasks)) ∧
  (∀ s : State, Eddying s → s.myCore.fwEddy s.cur.ctx = true → (∀ c ∈ s.myCore.cmds, c.ctx = s.cur.ctx → c.atBoundary = true) →
    ((s.myCore.bank s.cur.ctx).st = .parked → s.myCore.lend.cfg.busy = false → s.myCore.lend.rev = [] →
      exec .eddySave s = .next (s.updMyCore (fun x => x.updBank s.cur.ctx (fun b => { b with st := .saving })))) ∧
    ((s.myCore.bank s.cur.ctx).st = .saving →
      ∃ t, exec .eddySave s = .next t ∧ t.me = Ctx.reset ∧ (t.myCore.bank s.cur.ctx).st = .free ∧
        t.myCore.cmds = s.drainMe.myCore.cmds.filter (fun c => c.ctx != s.cur.ctx) ∧
        ∀ n k img, s.me.task = some n → s.task n = some k → s.image k.image = some img →
          ∃ m, t.task n = some { k with st := .saved, cores := [], saved := [m] } ∧ m.core = s.cur.core ∧
            m.st.ctx s.cur.ctx = s.drainMe.me ∧ m.st.bank s.cur.ctx = s.myCore.bank s.cur.ctx)) ∧
  ∀ (s : State) (b : EddyBindInfo) (t : Task) (img : Image) (o : Overlay), s.task b.task = some t →
    s.tenantCode t = some (img, o) → s.mayLodge b t img o = true →
    (b.restore = false →
      ∃ u, exec (.firmwareEddyBind b) s = .next u ∧ (u.core b.core).bank b.bank =
          { (s.core b.core).bank b.bank with st := .run, origin := true, rev := false, exit := 0xFF, share := b.share, lent := true,
                                             home := none } ∧
        ((u.core b.core).ctx b.bank).csr.weira = b.share ∧ ((u.core b.core).ctx b.bank).csr.weirf = img.weirf ∧
        ((u.core b.core).ctx b.bank).csr.weirw = min 768 (8 * b.share) ∧ ((u.core b.core).ctx b.bank).csr.privbase = b.priv ∧
        (∀ k ∈ [0, 1, 2, 3], k ≠ b.bank → (u.core b.core).ctx k = (s.core b.core).ctx k) ∧
        let l := (s.core b.core).lend.cfg
        ((s.cluster (b.core / 16)).gated = false → (u.core b.core).spad = (s.core b.core).spad) ∧
        ((s.cluster (b.core / 16)).gated = true → (s.core b.core).spad.wf = true → ∀ o,
          (u.core b.core).spad.read o = if InBytes l.start l.count o then 0 else (s.core b.core).spad.read o)) ∧
    (b.restore = true → ∀ m, t.saved.head? = some m → s.restoreStatus m img b.core = .ok →
      ∃ u, exec (.firmwareEddyBind b) s = .next u ∧
        (u.core b.core).bank b.bank = { (s.core b.core).bank b.bank with
          st := .run, origin := true, rev := false, exit := 0xFF, share := b.share, lent := true, home := none } ∧
        ∃ k ∈ [1, 2, 3], ∃ c : Ctx, (u.core b.core).ctx b.bank = Ctx.restored false c ∧
          { c with csr := (m.st.ctx k).csr } = m.st.ctx k ∧
          c.csr.weira = max (m.st.ctx k).csr.weirf (min (m.st.ctx k).csr.weira b.share))

/-- R240, R241, R246, R247, R287, R338, R358, R375 to R381, R389: a task that may be bound is bound on its cores, its launches and
items counted from 0 and its children's entries reserved; every core holds what BoundOn says, and its die's weight store is
sealed. -/
def Sys2Proof.Claim.TaskBinds : Prop :=
  ∀ (b : BindInfo) (s : State) (t : Task) (img : Image), Binds s b t img →
    ∃ u, exec (.taskBind b) s = .next u ∧
      (∀ c ∈ b.cores, BoundOn u t img (startState s b.cores (bindLit img)) c ∧ (u.die (c / 768)).sealed = true) ∧
      (∀ c, c ∉ b.cores → u.core c = s.core c) ∧
      ∃ k, u.task t.num = some k ∧ k.st = .bound ∧ k.cores = b.cores ∧ k.used = 0 ∧ k.ntile = 0 ∧ k.pool = none ∧
        k.reserved = recChildren t.record ∧ k.record = t.record

/-- R183, R184, R187, R293, R307, R382, R383: an owner whose END has retired, whose queues and commands are empty and no eddy of
which runs, is released, and its core is FREE once no BWAIT sleeps on its object (the model's choice, log 14); a bound task ends with the cause that halted it, with the first
fault no consumer reported, or with 0xFE once its cores are released. -/
def Sys2Proof.Claim.TaskEnds : Prop :=
  (∀ s : State, s.cur.core < nCores → s.cur.ctx = 0 →
    (s.myCore.slot.st = .release → s.sleptOn s.cur.core = false → exec .contextRelease s = .next ((s.updMyCore (fun x => { x with slot := {} })).settleIdle s.cur.core)) ∧
    (s.myCore.slot.st ≠ .release → s.me.run = .ended → s.me.storeQ = [] → (∀ c ∈ s.myCore.cmds, c.ctx ≠ 0) →
      (∀ k ∈ [1, 2, 3], (s.myCore.bank k).origin = true ∨
        ((s.myCore.bank k).st ≠ .run ∧ (s.myCore.bank k).st ≠ .revoking ∧ (s.myCore.bank k).st ≠ .ending)) →
      ∃ t, exec .contextRelease s = .next t ∧ t.me = Ctx.reset ∧ t.myCore.slot = { s.myCore.slot with st := .release } ∧
        ∀ k ∈ [1, 2, 3], t.myCore.bank k = (if (s.myCore.bank k).st = .parked ∧ (s.myCore.bank k).origin = false
          then { exit := (s.myCore.bank k).exit } else s.myCore.bank k))) ∧
  ∀ (s : State) (t : Task) (code : Nat), s.task s.cur.id = some t → EndsWith s t code →
    exec .taskEnd s = .next (s.endTask t code)

/-- The bind of a task (R380) and its end (R293, R382, R383). -/
def Obligations.TaskEvents : Prop := TaskBinds ∧ TaskEnds

/-- R391 to R396, R401, R402: where the head of a queue cannot bind on what is or becomes free, one victim is taken: it drains
where its estimate leaves less than DRAINT, else it is killed or its checkpoint is decided; so it is when DRAINT has passed. A
task that is killed has ended with code 0xFD; one whose checkpoint is decided has no lend in force and holds no bundle. A
decided checkpoint is taken once the cores that the task still holds stand at a boundary: the task is saved with the state of
those cores, which are FREE.
A saved head whose images pass is restored: it is bound on the cores, and each of them has its accumulators, weight buffer,
commands and contexts as saved; else its first image that fails is reported. The model's choices: the restored state is taken
from the record (log 17), a restore is reported with cause 0, what it keeps (log 77), and that it waits for room in the die's
copy engines (log 113). -/
def Obligations.Preemption : Prop :=
  (∀ (s : State) (h : Task) (img : Image) (v : Task), s.boot.phase = .ready → s.head s.cur.id = some h →
    s.image h.image = some img → s.blocked h img = true → s.victim h img = some v →
    ∃ u, exec .preemptionDecision s = .next u ∧ PreemptedOn s u v) ∧
  (∀ (s : State) (t : Task) (n : Nat), s.task s.cur.id = some t → t.st = .bound → t.drainAt = some n →
    n ≤ s.eff (t.cores.headD 0) → ∃ u, exec .drainTimeout s = .next u ∧ KilledOn s u t) ∧
  (∀ (s : State) (t : Task) (img : Image), s.task s.cur.id = some t → t.st = .bound → t.ckpt = true →
    s.image t.image = some img → (∀ c ∈ t.cores, Holds s t c → (s.core c).mayForget = true) →
    ∃ u k, exec .checkpoint s = .next u ∧ u.task t.num = some k ∧ k.st = .saved ∧ k.ckpt = false ∧ k.drainAt = none ∧
      k.saved.map (·.core) = t.cores.filter (fun c => decide (Holds s t c)) ∧
      (∀ c ∈ t.cores, Holds s t c → (u.core c).cmds = [] ∧ (u.core c).slot.st = .free ∧
        ∀ i ∈ [0, 1, 2, 3], (s.ctx c i).task = some t.num → u.ctx c i = Ctx.reset) ∧
      ∀ m ∈ k.saved, m.st.accs = (s.core m.core).accs ∧ m.st.wbuf = (s.core m.core).wbuf ∧ m.st.cmds = (s.core m.core).cmds ∧
        ∀ i ∈ [0, 1, 2, 3], (m.st.ctx i).files = (s.ctx m.core i).files ∧ (m.st.ctx i).q = (s.ctx m.core i).q ∧
          (m.st.ctx i).pc = (s.ctx m.core i).pc ∧ ((s.ctx m.core i).task = some t.num → (m.st.ctx i).storeQ = [])) ∧
  (∀ (l : List Nat) (s : State) (t : Task) (img : Image), s.boot.phase = .ready → s.head (s.partOf l) = some t →
    s.image t.image = some img → t.st = .saved → t.sameCores l = true →
    (∀ p ∈ t.saved.zip l, s.restoreStatus p.1 img p.2 = .ok) → (∀ c ∈ l, s.coreFree t.part img c = true ∧ (s.core c).clear = true) →
    l.Nodup → s.taskRoom t l = true →
    ∃ u k, exec (.contextRestore l) s = .next u ∧ u.task t.num = some k ∧ k.st = .bound ∧ k.cores = l ∧ k.saved = [] ∧
      ∀ p ∈ t.saved.zip l, let x := u.core p.2
        x.slot.task = t.num ∧ x.slot.st = startState s l (restoreLit t img l) ∧ x.accs = p.1.st.accs ∧ x.wbuf = p.1.st.wbuf ∧
        x.wloaded = p.1.st.wloaded ∧ x.shadow = p.1.st.shadow ∧
        (∃ l, x.cmds = p.1.st.cmds.map (fun d => { s.rehome p.2 t d with lost := d.lost ++ l })) ∧
        ∀ i ∈ [0, 1, 2, 3], (x.ctx i).files = (p.1.st.ctx i).files ∧ (x.ctx i).q = (p.1.st.ctx i).q ∧
          (x.ctx i).pc = (p.1.st.ctx i).pc ∧ (x.ctx i).tok = (p.1.st.ctx i).tok ∧
          (x.ctx i).tr = { (p.1.st.ctx i).tr with res := 4 } ∧ (x.ctx i).window = []) ∧
  (∀ (s : State) (h : Task) (img : Image) (v : Task), s.boot.phase = .ready → s.head s.cur.id = some h →
    s.image h.image = some img → s.blocked h img = true → s.victim h img = some v →
    let draint : Nat := match s.part v.part with | some p => p.draint | none => 600000
    exec .preemptionDecision s = .next
      (if recEstimate v.record ≠ 0 ∧ (recEstimate v.record : Int) - (s.elapsed v : Int) < (draint : Int) then
        s.updTask v.num (fun t => { t with drainAt := some (s.eff (v.cores.headD 0) + draint) })
       else killed s v)) ∧
  (∀ (s : State) (t : Task) (n : Nat), s.task s.cur.id = some t → t.st = .bound → t.drainAt = some n →
    n ≤ s.eff (t.cores.headD 0) → exec .drainTimeout s = .next (killed s t)) ∧
  (∀ (s : State) (t : Task), s.task s.cur.id = some t → t.st = .bound → t.ckpt = true →
    ∀ img, s.image t.image = some img → (∀ c ∈ t.cores, Holds s t c → (s.core c).mayForget = true) →
      exec .checkpoint s = .next (s.checkpointTask t img)) ∧
  ∀ (l : List Nat) (s : State) (t : Task) (img : Image), s.boot.phase = .ready → s.head (s.partOf l) = some t →
    s.image t.image = some img → t.st = .saved → t.sameCores l = true →
    (s.taskRoom t l = true → (∀ c ∈ l, s.coreFree t.part img c = true ∧ (s.core c).clear = true) →
      (∀ p ∈ t.saved.zip l, s.restoreStatus p.1 img p.2 = .ok) →
      exec (.contextRestore l) s = .next ((s.restoreTask t img l).report ⟨0, 0, BitVec.ofNat 64 (l.headD 0)⟩)) ∧
    ∀ p, (t.saved.zip l).find? (fun p => s.restoreStatus p.1 img p.2 != .ok) = some p →
      let e := (s.restoreStatus p.1 img p.2).code
      exec (.contextRestore l) s = .next (s.report ⟨0, BitVec.ofNat 64 (e.1 + 256 * e.2), BitVec.ofNat 64 p.2⟩)

/-- R376, R378, R383, R387, R388: a node all of whose predecessors ended with 0xFE is queued as a task; one with a predecessor
that ended otherwise is skipped with code 0xFC; once every node has an outcome the instance leaves the pool and the first code
that is not 0xFE is its own. The number of the queued task is the model's choice (log 64). -/
def Obligations.GraphSteps : Prop :=
  (∀ (s : State) (i : GInst) (g : Graph) (k : Nat) (n : GNode), NodeWaits s i g k n →
    ((∃ c ∈ i.preds n.pred, ∃ code, c = some code ∧ code ≠ 0xFE) →
      exec .graphNodeLaunch s = .next ((s.noteNode (some (i.num, k)) 0xFC).writeCompl (recCompl n.record) 0 0xFC)) ∧
    ((∀ c ∈ i.preds n.pred, c = some 0xFE) →
      ∃ t task, exec .graphNodeLaunch s = .next t ∧ t.fw.tasks = s.fw.tasks ++ [task] ∧ task.num = s.nextTask ∧
        task.image = g.image ∧ task.record = n.record ∧ task.node = some (i.num, k) ∧ task.pool = none ∧
        task.st = .pending ∧ t.fw.pool = s.fw.pool ∧ t.cores = s.cores ∧
        (∀ p, i.task.bind s.task = some p → task.part = p.part ∧ task.prio = min (recPrio n.record) p.prio))) ∧
  ∀ (s : State) (i : GInst), s.inst s.cur.id = some i → (∀ n ∈ i.nodes, n.2 ≠ none) → i.pool ≠ none →
    ∃ u : State, exec .graphInstanceComplete s = .next (u.writeCompl i.compl 0
        ((i.nodes.findSome? (fun n => if n.2 = some 0xFE then none else n.2)).getD 0xFE)) ∧
      (∀ e, i.pool = some e → u.fw.pool = setErase e s.fw.pool) ∧ u.cores = s.cores ∧
      u.fw.insts = s.fw.insts.map (fun j => if j.num == i.num then { j with pool := none } else j)

/-- R359, R361 to R365, R370: an interval boundary moves every cluster of its die by the controller, keeps a grant while it is
requested or falls, and grants boost to at most twelve; sets VLOGIC for the highest pattern that may follow (R357, log 105); a new k takes effect at slot 0; a pair of intervals without
a bundle gives a permit, 64 at most. -/
def Sys2Proof.Claim.PowerControl : Prop :=
  (∀ s : State, s.cur.id < 4 → (s.die s.cur.id).interval < s.master / 800 →
    ∃ t, exec .intervalBoundary s = .next t ∧ (t.die s.cur.id).interval = (s.die s.cur.id).interval + 1 ∧
      (∃ m, (t.die s.cur.id).vlogic = vlogicFor m ∧ (∀ i, i < 48 → holdsUpTo (t.cluster (48 * s.cur.id + i)) ≤ m) ∧
        ((∃ i, i < 48 ∧ holdsUpTo (t.cluster (48 * s.cur.id + i)) = m) ∨ m = 0)) ∧
      ∃ g : Nat → Bool,
        (∀ i, i < 48 → t.cluster (48 * s.cur.id + i) =
          bounded (s.cluster (48 * s.cur.id + i)) (g (48 * s.cur.id + i)) (s.budOf (48 * s.cur.id + i))) ∧
        (∀ j, j < 192 → j / 48 ≠ s.cur.id → t.cluster j = s.cluster j) ∧
        (∀ i, i < 48 → let k := s.cluster (48 * s.cur.id + i)
          (k.grant = true → (g (48 * s.cur.id + i) = true ↔ (Requests k ∨ falling k = true))) ∧
          (k.grant = false → g (48 * s.cur.id + i) = true → Requests k) ∧
          (k.grant = false → Requests k → g (48 * s.cur.id + i) = false →
            12 ≤ ((List.range 48).filter (fun j => g (48 * s.cur.id + j))).length) ∧
          ∀ j, j < 48 → k.grant = false → Requests k → (s.cluster (48 * s.cur.id + j)).grant = false →
            g (48 * s.cur.id + j) = true → GrantedBefore s (48 * s.cur.id + i) (48 * s.cur.id + j) →
            g (48 * s.cur.id + i) = true) ∧
        (((List.range 48).filter (fun i => (s.cluster (48 * s.cur.id + i)).grant)).length ≤ 12 →
          ((List.range 48).filter (fun i => g (48 * s.cur.id + i))).length ≤ 12)) ∧
  (∀ (s : State) (k : Nat), s.cur.id < 192 → (s.cluster s.cur.id).pendKeep = some k → s.master % 16 = 0 →
    exec .patternChange s = .next (s.updCluster s.cur.id (fun c => { c with keep := k, pendKeep := none }))) ∧
  ∀ s : State, s.cur.id < 192 → (s.cluster s.cur.id).pairs < s.master / 1600 →
    exec .permitRefill s = .next (s.updCluster s.cur.id (fun k =>
      { k with pairs := k.pairs + 1,
               permits := if k.gated = false ∧ k.issuedNow = false ∧ k.issuedPrev = false then min 64 (k.permits + 1)
                          else k.permits }))

/-- R190, R242, R339, R358, R366 to R369, R379: at the start of a budget period every bound context of the cluster that is not
parked has its budgets and RES full again, and a notice where it was denied, by its partition's HBM share where a
free value says so (log 79); a die's budgets start full; a cluster turned on for 1,600 cycles is ungated, with its controller at its start; a task whose cores are all on,
once a cluster or a stripe of theirs was turned on, runs; a
stripe without an access for 65,536 cycles is drowsy; the refresh rotation goes on. -/
def Sys2Proof.Claim.PeriodStarts : Prop :=
  (∀ s : State, s.cur.id < 192 → (s.cluster s.cur.id).periods < (s.cluster s.cur.id).eff / 4096 →
    ∃ t, exec .budgetPeriodStart s = .next t ∧ (t.cluster s.cur.id).periods = (s.cluster s.cur.id).periods + 1 ∧
      (∀ c, c / 16 ≠ s.cur.id → t.core c = s.core c) ∧
      ∀ c, c / 16 = s.cur.id →
        let x := s.core c
        (t.core c).copyLeft = (if x.copyBud = 0xFFFF then 0xFFFF else 64 * x.copyBud) ∧ (t.core c).spad = x.spad ∧
        ∀ k ∈ [0, 1, 2, 3], ∃ copy y, (copy = true → k = 0 ∧ x.copyBud ≠ 0xFFFF ∧ x.copyLeft = 0) ∧
          (y = x.ctx k ∨ ∃ p, (x.ctx k).task.bind s.task = some p ∧ s.hbmLimited p = true ∧
            y = { x.ctx k with denied := (x.ctx k).denied ||| 8 }) ∧
          (t.core c).ctx k = if x.advances k then refreshed copy y else x.ctx k) ∧
  (∀ s : State, s.cur.id < 4 → (s.die s.cur.id).periods < s.master / 4096 →
    exec .dieBudgetPeriodStart s = .next (s.updDie s.cur.id (fun d =>
      { d with periods := d.periods + 1,
               budgets := d.budgets.map (fun b => { b with copyLeft := b.copyBud.getD 0, hbmLeft := b.hbmBud.getD 0 }) }))) ∧
  (∀ (s : State) (n : Nat), s.cur.id < 192 → (s.cluster s.cur.id).powerOn = some n → (s.cluster s.cur.id).gated = true →
    n + 1600 ≤ s.master →
    ∃ t, exec .regionPowerOn s = .next t ∧
      t.cluster s.cur.id = { s.cluster s.cur.id with
        gated := false, powerOn := none, keep := 12, pendKeep := none, integ := 0, permits := 64, cool := 0, fall := false,
        grant := false, bud := s.budOf s.cur.id, charge := 0, issuedNow := false, issuedPrev := false, eff := 0, periods := 0 } ∧
      (∀ j, j < 192 → j ≠ s.cur.id → t.cluster j = s.cluster j) ∧ Started s t) ∧
  (∀ (s : State) (i : Nat), s.cur.id < 192 → (s.cluster s.cur.id).gated = false → i < 16 →
    (s.core (16 * s.cur.id + i)).slot.st = .bind → (s.core (16 * s.cur.id + i)).onAt ≤ s.master →
    ∃ t, exec .regionPowerOn s = .next t ∧ t.clusters = s.clusters ∧ Started s t) ∧
  (∀ s : State, s.cur.core < nCores → ∀ h : s.cur.idx < 32, (s.myCore.stripes.get ⟨s.cur.idx, h⟩).pw = .awake →
    (s.myCore.stripes.get ⟨s.cur.idx, h⟩).last + 65536 ≤ s.eff s.cur.core →
    exec .stripeDrowsy s = .next (s.updMyCore (fun x =>
      { x with stripes := x.stripes.set s.cur.idx ({ x.stripes.get ⟨s.cur.idx, h⟩ with pw := .drowsy } : Stripe) }))) ∧
  ∀ s : State, s.cur.id < 4 → (s.die s.cur.id).refresh < s.master / 1600 →
    exec .refreshSlotAdvance s = .next (s.updDie s.cur.id (fun d => { d with refresh := d.refresh + 1 }))

/-- Power control at interval boundaries (R361 to R365) and what starts with a period (R366 to R369). -/
def Obligations.PowerEvents : Prop := PowerControl ∧ PeriodStarts

/-- R338, R345 to R348, R354, R356: an invalidation is posted after the store to the table entry, which no weight store takes, drops
what it covers from every TLB at once, and is complete once nothing translated before it is left; a page, or contiguous group, that may be migrated has MIG
set in its leaves and is copied, and its leaves rewritten, when that invalidation completes; an uncorrectable error that a
scrub finds poisons its line; a scrub that finds none counts the errors it corrected, how many is free (log 91). That a group
migrates as one page, and when an invalidation is complete, are the model's reading (log 81). -/
def Obligations.Invalidations : Prop :=
  (∀ (n : InvalInfo) (s : State), ∃ t, exec (.tlbInvalidation n) s = .next t ∧
    (∀ pa, n.entryPa = some pa → (∀ a ∈ [pa, pa + 7], s.physTarget a ≠ .nothing ∧ ∀ d, s.physTarget a ≠ .weights d) →
      t.phys.mem = s.phys.mem.writeWord pa n.entry) ∧
    ((n.entryPa = none ∨ ∃ pa d, n.entryPa = some pa ∧ s.physTarget pa = .weights d) → t.phys.mem = s.phys.mem) ∧
    t.phys.invals = s.phys.invals ++ [⟨s.nextId, n⟩] ∧ t.nextId = s.nextId + 1 ∧
    (∀ c, (t.core c).tlb = (s.core c).tlb.filter (fun e => !invCovers n e.asid e.va e.size)) ∧
    (∀ k, (t.cluster k).tlb = (s.cluster k).tlb.filter (fun e => !invCovers n e.asid e.va e.size)) ∧
    ∀ c, { t.core c with tlb := (s.core c).tlb } = s.core c) ∧
  (∀ (m : MigrateInfo) (s : State) (l : Leaf), s.leafAt (s.task m.task) m.va.toNat = some l → s.mayMigrate m l = true →
    ∃ t, exec (.pageMigration m) s = .next t ∧ t.phys.migr = s.phys.migr ++ [(s.nextId, m)] ∧
      (s.phys.mem.wf = true →
        (∀ i < l.group, t.phys.mem.readWord (l.first + 8 * i) = s.phys.mem.readWord (l.first + 8 * i) ||| 0x80#64) ∧
        ∀ a, ¬ (l.first ≤ a ∧ a < l.first + 8 * l.group) → t.phys.mem.read a = s.phys.mem.read a) ∧
      ∃ i, t.phys.invals = s.phys.invals ++ [⟨s.nextId, i⟩] ∧ i.asid = m.task ∧ i.all = false ∧
        i.lo.toNat = m.va.toNat / (l.size * l.group) * (l.size * l.group)) ∧
  (∀ (s : State) (i : Inval), s.phys.invals.find? (fun i => i.num == s.cur.id) = some i →
    (∀ p ∈ s.cores, p.2.holdsOld i.info = false) →
    ∃ u : State, u.phys.invals = s.phys.invals.filter (fun j => j.num != i.num) ∧ u.phys.mem = s.phys.mem ∧
      u.cores = s.cores ∧ u.fw = s.fw ∧
      exec .invalidationComplete s = .next (match s.phys.migr.find? (fun g => g.1 == i.num) with
        | some g => u.finishMove g.2
        | none => u)) ∧
  ∀ s : State, (s.physTarget (64 * s.cur.id) = .hbm ∨ ∃ d, s.physTarget (64 * s.cur.id) = .weights d) →
    (∃ t, exec (.scrub false) s = .next t ∧ t.phys = s.phys ∧ t.cores = s.cores ∧ t.fw = s.fw ∧
      ∀ d, d < 4 → d ≠ s.homeDie (64 * s.cur.id) → t.die d = s.die d) ∧
    exec (.scrub true) s = .next { s with phys := { s.phys with poison := setInsert s.cur.id s.phys.poison } }

/-- R127, R129, R197, R403 to R409: a context of a task under debug halts at its boundary and goes on when it is resumed; at a
breakpoint, and after a stepped bundle, it halts and the firmware is told; a planted BRK stands in the place of a word that the
displaced-op table keeps, and without a debugger the bundle issues with its original words. -/
def Sys2Proof.Claim.DebugControl : Prop :=
  (∀ s : State, exec .debugAttach s = .next (s.updTask s.cur.id (fun t => { t with debug := true }))) ∧
  (∀ (s : State) (k : Task), s.cur.core < nCores → s.runs = true → s.myTask = some k → k.debug = true →
    ∃ t, exec .debugHalt s = .next t ∧ t.me.dbg = { s.me.dbg with halted := true } ∧ t.me.waits.held = false ∧
      t.me.waits.idle = false ∧ t.me.waits.asleep = none ∧ RegsKept s.me t ∧ t.me.pc = s.me.pc) ∧
  (∀ s : State, s.cur.core < nCores → s.me.dbg.halted = true →
    exec .debugResume s = .next (s.updMe (fun c => { c with dbg := { c.dbg with halted := false } }))) ∧
  (∀ (s : State) (n k : Nat), Acts s → s.dueA = none → s.bpFirst = some (n, k) →
    ∃ t, exec .addressBreakpoint s = .next t ∧ t.me.dbg.halted = true ∧ RegsKept s.me t ∧ t.me.pc = s.me.pc ∧
      t.fw.reports = s.fw.reports ++ [⟨0x54, s.me.pc.setWidth 64, BitVec.ofNat 64 (k + 256 * n)⟩]) ∧
  (∀ s : State, s.cur.core < nCores → s.runs = true → s.me.dbg.stepDone = true → s.dueA = none →
    ∃ t, exec .singleStep s = .next t ∧ t.me = { s.me with dbg := { s.me.dbg with halted := true, stepDone := false } } ∧
      t.fw.reports = s.fw.reports ++ [⟨0x55, s.me.pc.setWidth 64, 0⟩]) ∧
  (∀ (off task : Nat) (s : State) (i : Nat), s.cur.core < nCores → off % 8 = 0 → off < 0x10000 → s.task task ≠ none →
    s.myCore.freeDisplaced = some i → (∀ d ∈ s.myCore.displaced, d.off ≠ off) →
    let w := s.myCore.ispad.readWord off
    exec (.brkPlant off task) s = .next (s.updMyCore (fun x =>
      { x with
        ispad := x.ispad.writeWord off
          ((w &&& 0x8000000000000000#64) ||| 0x7060000000000000#64 ||| BitVec.ofNat 64 (i % 2 ^ 14))
        displaced := x.displaced ++ [⟨i, off, w, task⟩] }))) ∧
  ∀ s : State, Acts s → (∀ k, s.myTask = some k → k.debug = false) → s.myCore.issueBuf = none →
    (∃ w ∈ s.fetchWords s.myCore.ispad, ∃ d ∈ s.myCore.displaced, d.off = w.1.toNat) →
    let u := s.updMyCore (fun x =>
      { x with issueBuf := some (s.cur.ctx, (s.fetchWords s.myCore.originals).map (·.2)) })
    exec .displacedOpExecute s = .next (u.issue semOf u.fetched)

/-- R338, R403 to R405: a debugger reads a register of a halted context or a parked eddy with its tag, zero tagged UNDEF from a
FREE bank, and is refused by a context that runs; it writes a register of a halted context alone. It reads and writes the
scratchpad, and writes the tile table, at any time: a gated stripe gives zero and takes no write. -/
def Sys2Proof.Claim.DebugAccess : Prop :=
  (∀ (s : State) (t : DebugTarget), t.core < nCores → t.ctx < 4 →
    let x := s.core t.core
    let c := x.ctx t.ctx
    let reg (r : DbgReply) : Prop :=
      (Stopped x t.ctx → exec (.debugRead t) s = .next { s with dbgReply := some r }) ∧
      (x.reach t.ctx = .busy → exec (.debugRead t) s = .next { s with dbgReply := none }) ∧
      (x.reach t.ctx = .free → exec (.debugRead t) s = .next { s with dbgReply := some ⟨regStatus .undef false, 0⟩ })
    (∀ r, t.item = .sreg r → reg ⟨regStatus (c.files.s.get r).tag (c.files.s.get r).poison.isSome,
      (c.files.s.get r).v.setWidth 2048⟩) ∧
    (∀ r, t.item = .greg r → reg ⟨regStatus (c.files.g.get r).tag (c.files.g.get r).poison.isSome,
      (c.files.g.get r).v.setWidth 2048⟩) ∧
    (∀ r, t.item = .vreg r → reg ⟨regStatus (c.files.v.get r).tag (c.files.v.get r).poison.isSome, (c.files.v.get r).v⟩) ∧
    (∀ r, t.item = .wreg r → reg ⟨regStatus (c.files.w.get r).tag (c.files.w.get r).poison.isSome, (c.files.w.get r).v⟩) ∧
    (t.item = .pc → reg ⟨regStatus .bits false, c.pc.setWidth 2048⟩) ∧
    (∀ n e, t.item = .nx n → c.nx[n.val]? = some e → reg ⟨regStatus .int64 false, e.val.setWidth 2048⟩) ∧
    (∀ n e, t.item = .nxDue n → c.nx[n.val]? = some e → reg ⟨regStatus .bits false, BitVec.ofNat 2048 e.due⟩) ∧
    (t.item = .sc → reg ⟨regStatus .bits false, c.sc.setWidth 2048⟩) ∧
    (t.item = .total → reg ⟨regStatus .bits false, c.t.setWidth 2048⟩) ∧
    (t.item = .armed → reg ⟨regStatus .bits false, if c.armed then 1 else 0⟩) ∧
    (∀ k r, t.item = .tokFault k → (c.tok.get k).fault = some r →
      reg ⟨regStatus .bits false, (r.info1 ++ r.info0 ++ BitVec.ofNat 64 (r.cause % 128 + 128)).setWidth 2048⟩) ∧
    ∀ o, t.item = .spad o → o + 8 ≤ 0x80000 → ∃ u r, exec (.debugRead t) s = .next u ∧ u.dbgReply = some r ∧
      if x.gated o = true ∨ x.gated (o + 7) = true then r.data = 0 ∧ r.status.getLsbD 0 = true
      else r.data = BitVec.ofNat 2048 (leNat (x.spad.readBytes o 8)) ∧ r.status.getLsbD 0 = false ∧
        r.status.extractLsb' 4 4 = BitVec.ofNat 4 (tagCode (x.tile (o / 4096)).tag)) ∧
  ∀ (s : State) (t : DebugTarget) (v : VWord) (tag : Tag), t.core < nCores → t.ctx < 4 →
    let x := s.core t.core
    let sets (f : Ctx → Ctx) : Prop :=
      (x.reach t.ctx = .halted → exec (.debugWrite t v tag) s = .next (s.updCtx t.core t.ctx f)) ∧
      (x.reach t.ctx ≠ .halted → exec (.debugWrite t v tag) s = .next s)
    (∀ r, t.item = .sreg r → sets (fun c => { c with files := { c.files with s := c.files.s.set r { v := v.setWidth 64, tag := tag } } })) ∧
    (∀ r, t.item = .greg r → sets (fun c => { c with files := { c.files with g := c.files.g.set r { v := v.setWidth 64, tag := tag } } })) ∧
    (∀ r, t.item = .vreg r → sets (fun c => { c with files := { c.files with v := c.files.v.set r { v := v, tag := tag } } })) ∧
    (∀ r, t.item = .wreg r → sets (fun c => { c with files := { c.files with w := c.files.w.set r { v := v, tag := tag } } })) ∧
    (t.item = .pc → sets (fun c => { c with pc := v.setWidth 16 &&& 0xFFF8#16 })) ∧
    (∀ n, t.item = .nx n → sets (fun c => { c with nx := c.nx.zipIdx.map (fun e =>
      if e.2 = n.val then { e.1 with val := v.setWidth 64 } else e.1) })) ∧
    (∀ n, t.item = .nxDue n → sets (fun c => { c with nx := c.nx.zipIdx.map (fun e =>
      if e.2 = n.val then { e.1 with due := (v.setWidth 64).toNat } else e.1) })) ∧
    (t.item = .sc → sets (fun c => { c with sc := v.setWidth 64 })) ∧
    (t.item = .total → sets (fun c => { c with t := v.setWidth 64 })) ∧
    (t.item = .armed → sets (fun c => { c with armed := v != 0 })) ∧
    (∀ k, t.item = .tokFault k → sets (fun c => { c with tok := c.tok.set k { c.tok.get k with
      fault := if v.getLsbD 7 then some ⟨(v.extractLsb' 0 7).toNat, v.extractLsb' 64 64, v.extractLsb' 128 64⟩ else none } })) ∧
    (∀ n, t.item = .tile n → x.gated (4096 * n.val) = false → exec (.debugWrite t v tag) s = .next (s.updCore t.core (fun x =>
      x.updTile n.val (fun _ => Machine.tileOfWord (v.setWidth 64))))) ∧
    (t.item = .step → sets (fun c => { c with dbg := { c.dbg with step := v != 0 } })) ∧
    (∀ n, t.item = .abp n → sets (fun c => { c with dbg := { c.dbg with abp := c.dbg.abp.set n (v.setWidth 64 &&& 0xE000FFF8#64) } })) ∧
    ∀ o, t.item = .spad o → o + 8 ≤ 0x80000 → ∃ u, exec (.debugWrite t v tag) s = .next u ∧ u.phys = s.phys ∧
      (∀ c, c ≠ t.core → u.core c = s.core c) ∧
      (x.spad.wf = true → x.gated o = false → x.gated (o + 7) = false →
        ∀ a, (u.core t.core).spad.read a =
          if o ≤ a ∧ a < o + 8 then v.extractLsb' (8 * (a - o)) 8 else x.spad.read a)

/-- The debugger: control (R403, R405 to R409) and access (R404). That an access of scratchpad has eight bytes and a refused one an
empty reply is the model's reading (log 80), the form of the schedule, of a fault record and of a due count its choice (log 98). -/
def Obligations.DebugEvents : Prop := DebugControl ∧ DebugAccess

/-- R338, R357, R358, R431, R432, R434, R437: the phases of bring-up go on where their outcome is good and fail with their code
where it is not; no route of a trained package names a link that did not train; a nonzero FWLEN in WAITFW starts LOADING; VLOGIC is at
780 mV, then within its range; a reset goes to ROM, every task, image, graph and weight discarded and HBM kept. The model's
choices: HBM and host memory kept by a reset (logs 23 and 86), the route table taken from what training finds (log 24), what the
CRC-32 of an image covers and its FAULT, and the levels of VLOGIC (log 105). -/
def Obligations.BringUp : Prop :=
  (∀ (v : Word) (s : State), exec (.fwlenWrite v) s = .next
    (if s.boot.phase = .waitfw then
      (let s1 : State := { s with boot := { s.boot with fwlen := (v.extractLsb' 0 32).toNat } }
       if v.extractLsb' 0 32 = 0 then s1 else inPhase .loading s1)
     else s)) ∧
  (∀ (ok : Bool) (s : State),
    (s.boot.phase = .reset → exec (.rom ok) s = .next (inPhase .rom s)) ∧
    (s.boot.phase = .rom → exec (.rom ok) s = .next
      (if ok then inPhase .waitfw { s with dies := s.dies.map (fun d => { d with vlogic := 780 }) } else failedWith 1 s))) ∧
  (∀ (ok : Bool) (s : State), s.boot.phase = .loading →
    (ok = false ∨ s.hostBytes s.boot.fwaddr.toNat s.boot.fwlen = none → exec (.loading ok) s = .next (failedWith 3 s)) ∧
    ∀ bs, ok = true → s.hostBytes s.boot.fwaddr.toNat s.boot.fwlen = some bs →
      let good : Prop := crc32 (Config.crcCovered bs) = Config.crcCarried bs ∧ Config.authentic bs = true
      (¬ good → exec (.loading ok) s = .next (failedWith 2 s)) ∧
      (good → ∃ t rev, exec (.loading ok) s = .next t ∧ t.boot = { s.boot with phase := .bringup, fwrev := rev } ∧
        t.cores = s.cores ∧ t.phys = s.phys ∧ t.fw = s.fw ∧ t.host.irq.get 1 = s.host.irq.get 1 + 1)) ∧
  (∀ (r : TrainInfo) (s : State), s.boot.phase = .bringup →
    (r.hbmOk = false → exec (.bringup r) s = .next (failedWith 4 s)) ∧
    (r.hbmOk = true → r.bridgeOk = false → exec (.bringup r) s = .next (failedWith 5 s)) ∧
    (r.hbmOk = true → r.bridgeOk = true →
      ∃ t, exec (.bringup r) s = .next t ∧ t.boot = { s.boot with phase := .selftest, pkg := s.boot.fabid } ∧
        (∀ d, d < 4 → (t.die d).sealed = false ∧ 580 ≤ (t.die d).vlogic ∧ (t.die d).vlogic ≤ 780) ∧ (∀ k, k < 192 → (t.cluster k).gated = true) ∧
        (s.phys.mem.wf = true → ∀ a, t.phys.mem.read a =
          if 0x6000000000 ≤ a ∧ a < 0x6100000000 then 0 else s.phys.mem.read a) ∧
        (∀ l, l < 18 → (t.fab.up.getLsbD l = true ↔ ∃ n, (l, n) ∈ r.links ∧ n ≠ s.boot.fabid)) ∧ t.fab.retired = 0 ∧
        ∀ e ∈ t.fab.routes, e.2.length ≤ 4 ∧ ∀ k ∈ e.2, ∃ n, (k, n) ∈ r.links ∧ n ≠ s.boot.fabid)) ∧
  (∀ (r : TestInfo) (s : State), s.boot.phase = .selftest →
    let bad (k : Nat) : Nat := ((r.cores.filter (fun c => c / 16 == k)).eraseDups).length
    ((∃ k < 192, 8 < bad k) → exec (.selftest r) s = .next (failedWith 6 s)) ∧
    ((∀ k < 192, bad k ≤ 8) →
      ∃ t, exec (.selftest r) s = .next t ∧ t.boot.phase = .ready ∧ t.boot.trready = true ∧
        (∀ c, c ∈ t.fw.deadCores ↔ (c ∈ r.cores ∧ c < nCores)) ∧
        ∀ k, k < 192 → (t.cluster k).routerRetired = (decide (k ∈ r.routers) || (s.cluster k).routerRetired))) ∧
  ∀ s : State, ∃ t, exec .packageReset s = .next t ∧ t.boot = { ({} : Boot) with phase := .rom } ∧ t.fw = State.reset.fw ∧
    t.cores = State.reset.cores ∧ t.clusters = State.reset.clusters ∧ t.host.submitted = [] ∧ t.host.mem = s.host.mem ∧
    (s.phys.mem.wf = true → ∀ a, t.phys.mem.read a = if a ∈ s.phys.dirty then s.phys.home.read a else if 0x6000000000 ≤ a ∧ a < 0x6100000000 then 0 else s.phys.mem.read a)

/-- R425, R427, R431, R434: what the host writes: a write that is not 8 bytes wide, not aligned, to no register or to BAR2 changes
nothing, and a read that is not 8 bytes wide and aligned gives zero; one to a slot that the device owns, or to a header before READY, is dropped and counted; a header takes the host's bits and is submitted with
OWN set; FWADDR and FABID are written in WAITFW alone. -/
def Obligations.HostWrites : Prop :=
  ∀ (off : Nat) (v : Word) (s : State),
    let i := off / 256
    let n := off % 256 / 8
    let dropped : State := { s with boot := { s.boot with dropped := s.boot.dropped + 1 } }
    (∀ bar width, bar ≠ 0 ∨ width ≠ 8 ∨ off % 8 ≠ 0 → exec (.hostRegisterWrite ⟨bar, width, off⟩ v) s = .next s) ∧
    (∀ bar width, width ≠ 8 ∨ off % 8 ≠ 0 ∨ (bar ≠ 0 ∧ bar ≠ 2) → s.hostRead bar width off = 0) ∧
    (off % 8 = 0 → off < 0x4000 →
      ((s.slotWord i 0).getLsbD 0 = true → exec (.hostRegisterWrite ⟨0, 8, off⟩ v) s = .next dropped) ∧
      ((s.slotWord i 0).getLsbD 0 = false → n ≠ 0 → exec (.hostRegisterWrite ⟨0, 8, off⟩ v) s = .next (inSlot i s (n, v))) ∧
      ((s.slotWord i 0).getLsbD 0 = false → n = 0 → s.boot.phase ≠ .ready → exec (.hostRegisterWrite ⟨0, 8, off⟩ v) s = .next dropped) ∧
      ((s.slotWord i 0).getLsbD 0 = false → n = 0 → s.boot.phase = .ready →
        ∃ t : State, t = inSlot i s (0, (v &&& 0xFFFFFF0000000003#64) ||| (s.slotWord i 0 &&& 0x000000FF00000000#64)) ∧
          exec (.hostRegisterWrite ⟨0, 8, off⟩ v) s = .next
            (if v.getLsbD 0 then { t with host := { t.host with submitted := t.host.submitted ++ [i] } } else t))) ∧
    (off = 0x8000 → exec (.hostRegisterWrite ⟨0, 8, off⟩ v) s = .next (if s.boot.phase = .waitfw then
      { s with boot := { s.boot with fwaddr := v &&& 0xFFFFFFFFFFFFF000#64 } } else s)) ∧
    (off = 0x8008 → exec (.hostRegisterWrite ⟨0, 8, off⟩ v) s = exec (.fwlenWrite v) s) ∧
    (off = 0x8010 → exec (.hostRegisterWrite ⟨0, 8, off⟩ v) s = .next (if s.boot.phase = .waitfw then
      { s with boot := { s.boot with fabid := (v.extractLsb' 0 12).toNat } } else s)) ∧
    (0x4000 ≤ off → off ≠ 0x8000 → off ≠ 0x8008 → off ≠ 0x8010 → exec (.hostRegisterWrite ⟨0, 8, off⟩ v) s = .next s)

/-- R376, R378, R385, R413, R429, R430: LOAD of an object that reads well, fits the MK940 and names no Yiloz entry adds its image
and answers its identity; one that does not answers its status. UNLOAD drops an image that nothing needs. HOST_LAUNCH queues
the record and takes a pool entry. An unknown OP answers 0x0E. -/
def Sys2Proof.Claim.ImageCommands : Prop :=
  (∀ (s : State) (i : Nat), Mail s i 1 → s.boot.trready = true →
    (s.hostBytes (arg s i 1) (arg s i 2) = none → exec .load s = .next (answered s i 0x0F)) ∧
    ∀ bs, s.hostBytes (arg s i 1) (arg s i 2) = some bs → s.nextImage ≤ 0xFFFF →
      (∀ st d, readObject s.nextImage bs = .fails st d →
        exec .load s = .next (if st = 2 then invalid s i d else answered s i st)) ∧
      ∀ img y, readObject s.nextImage bs = .image img y →
        ((∃ r ∈ img.launches, objectReason s img y r ≠ none) → exec .load s = .next (invalid s i 6)) ∧
        ((∀ r ∈ img.launches, objectReason s img y r = none) →
          (∀ b, absentFeature img.needs = some b → exec .load s = .next (answered s i 0x0B [(31, BitVec.ofNat 64 b)])) ∧
          (absentFeature img.needs = none → yilozEntries img = [] → (∀ r ∈ img.launches, recReason s img s.hostPart r = none) →
            exec .load s = .next (if 96 < img.weirf then answered s i 0x0D else
              answered (s.updFw (fun w => { w with images := w.images ++ [img] })) i 0 [(3, BitVec.ofNat 64 img.id)])))) ∧
  (∀ (s : State) (i : Nat), Mail s i 2 →
    exec .unload s = .next
      (if s.image (arg s i 1) = none then invalid s i 4
       else if s.imageUsed (arg s i 1) = true then answered s i 7
       else answered (s.updFw (fun w => { w with images := w.images.filter (fun m => m.id != arg s i 1) })) i 0)) ∧
  (∀ (s : State) (i : Nat), Mail s i 3 →
    let r := (List.range 16).map (fun k => s.slotWord i (1 + k))
    (s.image (recImage r) = none → exec .hostLaunch s = .next (invalid s i 4)) ∧
    ∀ img, s.image (recImage r) = some img →
      (∀ k, recReason s img s.hostPart r = some k → exec .hostLaunch s = .next (invalid s i k)) ∧
      (recReason s img s.hostPart r = none → exec .hostLaunch s = .next
        (if s.poolFree 1 then
          answered (s.updFw (fun w => { w with
            tasks := w.tasks ++ [{ num := s.nextTask, image := img.id, record := r, part := s.hostPart, prio := recPrio r,
                                   seq := s.nextSeq, device := false, pool := some s.freeEntry }]
            pool := setInsert s.freeEntry w.pool })) i 0 [(17, BitVec.ofNat 64 s.nextTask)]
         else answered s i 1))) ∧
  ∀ (s : State) (i op : Nat), Mail s i op → op = 0 ∨ 12 < op → exec .unknownOp s = .next (answered s i 0x0E)

/-- R376, R385 to R388, R429, R430: GRAPH reads a descriptor and answers a new handle; GLAUNCH seals the graph and queues an
instance; EDIT replaces the record of a node of a graph of which no instance runs; FORK copies a graph under a new handle. -/
def Sys2Proof.Claim.GraphCommands : Prop :=
  (∀ (s : State) (i : Nat), Mail s i 4 → s.boot.trready = true →
    (s.image (arg s i 2) = none → exec .graph s = .next (invalid s i 4)) ∧
    ∀ img, s.image (arg s i 2) = some img →
      (∀ e, hostNodes s img (s.slotWord i 1) [] = .inl e → exec .graph s = .next (failedAs s i e)) ∧
      ∀ d, hostNodes s img (s.slotWord i 1) [] = .inr d → exec .graph s = .next
        (answered (s.updFw (fun w => { w with graphs := w.graphs ++
          [{ handle := nextHandle s, owner := none, addr := s.slotWord i 1, image := img.id, sealed := false, reent := d.1,
             nodes := d.2 }] })) i 0 [(3, BitVec.ofNat 64 (nextHandle s))])) ∧
  (∀ (s : State) (i : Nat), Mail s i 5 →
    (s.hostGraph (arg s i 1) = none → exec .glaunch s = .next (invalid s i 8)) ∧
    ∀ g, s.hostGraph (arg s i 1) = some g →
      (s.image g.image = none → exec .glaunch s = .next (invalid s i 4)) ∧
      (s.image g.image ≠ none →
        (∀ e, graphNow s g = .inl e → exec .glaunch s = .next (failedAs s i e)) ∧
        ∀ d, graphNow s g = .inr d → exec .glaunch s = .next
          (if s.poolFree 1 then
            answered (s.updFw (fun w => { w with
              graphs := w.graphs.map (fun x => if x.handle == g.handle then { g with sealed := true, reent := d.1, nodes := d.2 } else x)
              insts := w.insts ++ [{ num := s.nextTask, graph := g.handle, compl := 0, task := none,
                                     nodes := d.2.map (fun _ => (none, none)), pool := some s.freeEntry, seq := s.nextSeq }]
              pool := setInsert s.freeEntry w.pool })) i 0 [(2, BitVec.ofNat 64 s.nextTask)]
           else answered s i 1))) ∧
  (∀ (s : State) (i : Nat), Mail s i 6 →
    let n := arg s i 2
    let r := (List.range 16).map (fun k => s.slotWord i (3 + k))
    (s.hostGraph (arg s i 1) = none → exec .edit s = .next (invalid s i 8)) ∧
    ∀ g img, s.hostGraph (arg s i 1) = some g → s.image g.image = some img →
      (g.nodes.length ≤ n → exec .edit s = .next (invalid s i 8)) ∧
      (n < g.nodes.length →
        (∀ k, recReason s img s.hostPart r = some k → exec .edit s = .next (invalid s i k)) ∧
        (recReason s img s.hostPart r = none → exec .edit s = .next
          (if g.sealed = true ∧ s.graphBusy g = true then answered s i 3 else
            answered (s.updFw (fun w => { w with graphs := w.graphs.map (fun x => if x.handle == g.handle then
              { g with nodes := g.nodes.zipIdx.map (fun x => if x.2 == n then { x.1 with record := r, edited := true } else x.1) }
              else x) })) i 0)))) ∧
  ∀ (s : State) (i : Nat), Mail s i 7 →
    (s.hostGraph (arg s i 1) = none → exec .fork s = .next (invalid s i 8)) ∧
    ∀ g, s.hostGraph (arg s i 1) = some g →
      (∀ e, graphNow s g = .inl e → exec .fork s = .next (failedAs s i e)) ∧
      ∀ d, graphNow s g = .inr d → ∃ addr, exec .fork s = .next
        (answered (s.updFw (fun w => { w with graphs := w.graphs ++
          [{ g with handle := nextHandle s, addr := addr, sealed := false, reent := d.1, nodes := d.2 }] })) i 0
          [(2, BitVec.ofNat 64 (nextHandle s))])

/-- Mailbox commands on images (R413, R429) and on graphs (R386 to R388). The model's choices: the partition of a host launch
(log 16), numbers and handles (log 64), the details of INVALID (log 83), the address of a fork (log 85). -/
def Obligations.HostCommands : Prop := ImageCommands ∧ GraphCommands

/-- R338, R356, R366, R370 to R372, R392, R429, R430: SETCAP applies a cap at or above 210 W and the floors; below 210 W it
applies 210, below the floors it answers their sum or, asked to, scales them; PARTITION defines a partition, HOST_DRAIN sets
its DRAINT, WEIGHTS writes an unsealed store, COUNTERS answers the soft-error counts of a die once the errors since the last
count are added, how many is free (log 91). Dword 4 and BELOW_IDLE of SETCAP (log 74) and detail 0 of INVALID (log 83) are the
model's choices. -/
def Obligations.PackageCommands : Prop :=
  (∀ (s : State) (i : Nat), Mail s i 8 →
    let cap := arg s i 1
    let floors : Nat := (s.fw.parts.map (·.power)).sum
    let idle : State := if floors ≤ 210 then capped s 210 1 1 false else s.updFw (fun w => { w with cap := 210 })
    exec .setcap s = .next
      (if cap < 210 then capAnswer idle i 4 210
       else if floors ≤ cap then capAnswer (capped s cap 1 1 false) i 0 cap
       else if (s.slotWord i 2).getLsbD 0 then capAnswer (capped s cap cap floors true) i 6 cap
       else capAnswer s i 5 floors)) ∧
  (∀ (s : State) (i : Nat), Mail s i 9 →
    (16 ≤ arg s i 1 → exec .partition s = .next (invalid s i 0)) ∧
    (arg s i 1 < 16 →
      let named (k : Nat) : Bool := if k < 64 then (s.slotWord i 2).getLsbD k else (s.slotWord i 3).getLsbD (k - 64)
      ∃ u : State, exec .partition s = .next (answered u i 0) ∧ u.host = s.host ∧
        ∃ p, u.part (arg s i 1) = some p ∧ p.power = arg s i 4 ∧ p.hbm = arg s i 5 ∧ p.issue = min 0xFFFF (arg s i 6) ∧
          (∀ k, k < 128 → (k ∈ p.clusters ↔ named k = true)) ∧
          ∀ q ∈ u.fw.parts, q.num ≠ arg s i 1 → ∀ k, k < 128 → named k = true → k ∉ q.clusters)) ∧
  (∀ (s : State) (i : Nat), Mail s i 10 → exec .hostDrain s = .next
    (if s.part (arg s i 1) = none then invalid s i 0
     else answered (s.updFw (fun w => { w with parts := w.parts.map (fun p =>
      if p.num == arg s i 1 then { p with draint := arg s i 2 } else p) })) i 0)) ∧
  (∀ (s : State) (i : Nat), Mail s i 11 →
    (4 ≤ arg s i 1 ∨ 0x40000000 < arg s i 2 + arg s i 4 → exec .weights s = .next (invalid s i 0)) ∧
    (arg s i 1 < 4 → arg s i 2 + arg s i 4 ≤ 0x40000000 →
      ((s.die (arg s i 1)).sealed = true → exec .weights s = .next (answered s i 3)) ∧
      ((s.die (arg s i 1)).sealed = false →
        (s.hostBytes (arg s i 3) (arg s i 4) = none → exec .weights s = .next (answered s i 0x0F)) ∧
        ∀ bs, s.hostBytes (arg s i 3) (arg s i 4) = some bs →
          ∃ u : State, exec .weights s = .next (answered u i 0) ∧ u.host = s.host ∧ u.cores = s.cores ∧
            (s.phys.mem.wf = true → ∀ a, u.phys.mem.read a =
              (let b := 0x6000000000 + 0x40000000 * arg s i 1 + arg s i 2
               if b ≤ a ∧ a < b + arg s i 4 then bs.getD (a - b) 0 else s.phys.mem.read a))))) ∧
  ∀ (s : State) (i : Nat), Mail s i 12 →
    (4 ≤ arg s i 1 → exec .counters s = .next (invalid s i 0)) ∧
    (arg s i 1 < 4 → ∃ u : State, u.cores = s.cores ∧ u.phys = s.phys ∧ u.fw = s.fw ∧ u.host = s.host ∧
      (∀ k, (s.die (arg s i 1)).soft.get (Fin.ofNat 16 k) ≤ (u.die (arg s i 1)).soft.get (Fin.ofNat 16 k)) ∧
      exec .counters s = .next (answered u i 0 ((List.range 16).map (fun k =>
        (2 + k, BitVec.ofNat 64 ((u.die (arg s i 1)).soft.get (Fin.ofNat 16 k)))))))

/-! ### The encoding, the step and reset -/

/-- The words of a well-formed op decode to that op, every field of it kept, and no word is left over; and no bit of a
word is dropped: whatever an op word or a route word is read as encodes to the same word (R65-R79, R81-R88). -/
def Obligations.RoundTrip : Prop :=
  (∀ i : Instr, isOp i = true → WellFormed i → decode (encode i) = .ok (i, [])) ∧
  (∀ (w : Word) (r : Option RouteF), encodeWord (decodeWord w r) = w) ∧
  (∀ w : Word, isRoute w = true → routeWord (routeOfWord w) = w)

/-- Words that chapters 4 to 22 print beside their assembly text decode to the instruction of that text. -/
def Obligations.SpecWords : Prop :=
  decode [0xA008_C980_0000_0001#64] =
    .ok (.addi
      { stop := true, w := true, d := .near 6, a := .near 6, g := g0, z := false, imm := 1#32 }, []) ∧
  decode [0x1829_0812_0000_8000#64] =
    .ok (.vfmul
      { stop := false, w := true, d := .near 8, a := .near 0, b := .near 4, c := .queue 0, g := g0,
        rm := .rne, t := .tag .fp16, x := 0, z := 0 }, []) ∧
  decode [0x9C38_D091_8800_C000#64] =
    .ok (.vlcd
      { stop := true, w := true, d := .near 6, a := .far 2, b := .near 3, c := .queue 8, g := g0, rm := .rne,
        t := .tag .lc8, x := 0, z := 0 }, []) ∧
  decode [0xB470_C880_81C0_0000#64] =
    .ok (.acas
      { stop := true, w := false, d := .near 6, a := .near 2, b := .queue 1, g := g0, sc := .cluster,
        sz := .dword, disp := 0 }, []) ∧
  decode [0xB248_6892_8010_0000#64] =
    .ok (.vldx
      { stop := true, w := true, d := .near 3, a := .near 2, b := .near 5, g := g0, sc := .core, sz := .byte,
        disp := 0x100000#22 }, []) ∧
  decode [0xE064_E022_FFFF_FFFA#64] =
    .ok (.loop
      { stop := true, a := .near 7, g := g0, rot := 2, shift := 2, disp := 0xFFFFFFFA#32 }, []) ∧
  decode [0xF078_30A1_8000_0003#64] =
    .ok (.weirset
      { stop := true, w := true, d := .near 1, a := .far 2, b := .far 3, g := g0, csr := 0, imm := 3 }, []) ∧
  decode [0xF008_6000_0004_0000#64] =
    .ok (.csrr
      { stop := true, w := true, d := .near 3, a := .queue 0, b := .queue 0, g := g0, csr := 0x010#12,
        imm := 0 }, []) ∧
  decode [0x0001_5008_C800_0111#64] =
    .ok (.pair
      { stop := false, g := g0, sop := 0, sW := true, sD := 5, sA := .queue 0, sB := .near 3, width := 0,
        vop := 0x20#6, vW := false, vD := 0, vA := .queue 0, vB := .near 2, vt := 1 }, []) ∧
  decode [0xC010_A8C4_002F_FFFC#64] =
    .ok (.tfill
      { stop := true, d := 5, a := 0x23#7, b := 8, g := g0, out := .k 2, i1 := .none, i2 := .none,
        i3 := .none, mode := 0 }, []) ∧
  decode [0xD000_7FFF_F492_12A1#64] =
    .ok (.cpy
      { stop := true, out := .k 1, i1 := .none, i2 := .none, i3 := .none, a := .near 4, b := .far 8,
        c := .near 5, rw := false, mode := 0x21#6 }, []) ∧
  decode [0xD220_BFFF_F449_61BF#64] =
    .ok (.rgath
      { stop := true, out := .k 2, i1 := .none, i2 := .none, i3 := .none, a := .near 2, b := .near 5,
        c := .far 3, rw := false, mode := 0x3F#6 } none, [])

/-- A turn of a context runs the decoded instruction: where the context is bound, runs and may issue (no YIELD cycle or
wake cycle left, no step report, kind-A event, notice to drop, breakpoint hit or fetch stall, not in IDLE, no bundle in the debug
issue buffer), the step is the meaning of the instruction at its program counter. The bundle is one op where its word
has S set, or in handler mode (R57, R61); an NI op that asks for a route word takes the word after it (R79). -/
def Obligations.StepRunsDecoded : Prop :=
  ∀ (s : State) (c k : Nat) (rest : List Turn), s.agenda = .ctx c k :: rest →
    let u : State := { s with agenda := rest, cur := { s.cur with core := c, ctx := k } }
    u.counts = true → u.canAct = true → u.stepDue = false → u.dueA = none → u.me.waits.idle = false →
    (u.me.notice = none ∨ u.me.tr.noh = false) → u.bpHits = [] → u.buffered = none → u.fetchStalls = false →
    let w := u.myCore.ispad.readWord u.me.pc.toNat
    let r := u.myCore.ispad.readWord (pcPlus u.me.pc 1).toNat
    ((w.getLsbD 63 = true ∨ (u.me.tr.hm = true ∧ (takesRoute w && isRoute r) = false)) →
      step s = exec (decodeWord w none) u) ∧
    ((takesRoute w && isRoute r) = true → (r.getLsbD 63 = true ∨ u.me.tr.hm = true) →
      step s = exec (decodeWord w (some (routeOfWord r))) u)

/-- The memories keep their canonical form: from every package in which each of them has it, whichever op or event a step
runs, a step that ends in a package leaves one in which each of them has it. That equal memories are equal data rests on this;
the form is the model's own, no rule of the spec. -/
def Obligations.MemoriesStayCanonical : Prop := ∀ s t : State, s.memOk = true → step s = .next t → t.memOk = true

/-- What reset leaves: the boot registers at the reset values of R426, R431 and R434; no task, image, graph, instance
or pool entry and no sealed weight store (R432); every context unbound (R431) with R381's values: registers zero with
tag UNDEF, predicates, masks and schedule bases zero, queues undefined, nx queue empty, tokens LIVE 0 and DONE 1, R22's
control registers, window and standing set empty; every cluster gated (R358); and the memories in canonical form.
That the contexts and clusters hold these values before bring-up is the model's choice (log 3), and that VLOGIC reads 0 until the
first interval is so too (log 105). -/
def Obligations.ResetValues : Prop :=
  let s : State := State.reset
  s.memOk ∧
  (s.boot.phase = .reset ∧ s.boot.fault = 0 ∧ s.boot.trready = false ∧ s.boot.fwaddr = 0 ∧ s.boot.fwlen = 0 ∧
    s.boot.fabid = 0) ∧
  (s.fw.tasks = [] ∧ s.fw.images = [] ∧ s.fw.graphs = [] ∧ s.fw.insts = [] ∧ s.fw.pool = [] ∧ s.inputs = [] ∧ s.abroad = [] ∧
    s.agenda = [] ∧ s.master = 0) ∧
  (∀ d : Fin 4, (s.dies.get d).sealed = false ∧ (s.dies.get d).vlogic = 0) ∧
  (∀ k : Fin 192, (s.clusters.get k).gated = true ∧ (s.clusters.get k).keep = 12) ∧
  (∀ c n : Nat,
    let x : Ctx := (s.core c).ctx n
    x.run = .unbound ∧ (s.core c).cmds = [] ∧ (s.core c).lend.cfg.active = false ∧ (s.core c).slot.st = .free ∧
    (∀ r, x.files.s.get r = {} ∧ x.files.v.get r = {} ∧ x.files.p.get r = 0 ∧ x.files.m.get r = 0) ∧
    (∀ r, x.files.g.get r = {} ∧ x.files.w.get r = {}) ∧ (∀ r, x.files.b.get r = 0) ∧ x.armed = false ∧
    (∀ r, x.q.sq.get r = none ∧ x.q.vq.get r = none ∧ x.q.hq.get r = none) ∧ x.nx = [] ∧
    (∀ r, (x.tok.get r).live = false ∧ (x.tok.get r).done = true) ∧
    (x.csr.fpctl = 0 ∧ x.csr.fpstat = 0 ∧ x.csr.weirw = 448 ∧ x.csr.weirc = 96 ∧ x.csr.cycles = 0 ∧
      x.csr.rngseed = 0 ∧ x.csr.discard = false) ∧
    (x.tr.cause = 0 ∧ x.tr.pc = 0 ∧ x.tr.slot = 0 ∧ x.tr.info0 = 0 ∧ x.tr.info1 = 0 ∧ x.tr.epc = 0 ∧
      x.tr.hm = false) ∧
    x.window = [] ∧ x.standing = [] ∧ x.storeQ = [])
end

