-- ==== Sys2Proof/Laws/Encode.lean ====
section
/-! SUPPORT. The fields of an encoded word, read back: each format's decoder undoes its encoder, so `decodeWord` of
an encoded op is the op its opcode selects. -/

namespace Sys2Proof.Laws

open Machine

theorem extract_append_hi {m n : Nat} (x : BitVec m) (y : BitVec n) (lo len : Nat) (h : n ≤ lo) :
    (x ++ y).extractLsb' lo len = x.extractLsb' (lo - n) len := by
  apply BitVec.eq_of_getLsbD_eq
  intro i hi
  simp only [BitVec.getLsbD_extractLsb', BitVec.getLsbD_append]
  have : ¬ lo + i < n := by omega
  simp [this, show lo + i - n = lo - n + i by omega]

theorem extract_append_lo {m n : Nat} (x : BitVec m) (y : BitVec n) (lo len : Nat) (h : lo + len ≤ n) :
    (x ++ y).extractLsb' lo len = y.extractLsb' lo len := by
  apply BitVec.eq_of_getLsbD_eq
  intro i hi
  simp only [BitVec.getLsbD_extractLsb', BitVec.getLsbD_append]
  have : lo + i < n := by omega
  simp [this]

theorem extract_self {n : Nat} (x : BitVec n) : x.extractLsb' 0 n = x := by simp

theorem operandOf_code (o : Operand) : operandOf (operandCode o) = o := by
  rcases o with r | r | r | r | r | _ | _ | _ | _ | _ | _ | _ | _ | b | p <;>
    first | rfl | (revert r; decide) | (revert b; decide) | (revert p; decide)

theorem dregOf_code (d : DReg) : dregOf (dregCode d) = d := by
  rcases d with r | r | r <;> (revert r; decide)

theorem guardOf_code (g : Guard) : guardOf (guardCode g) = g := by
  rcases g with ⟨i, p⟩; revert i p; decide

theorem tokOf_code (k : Tok) : tokOf (tokCode k) = k := by
  rcases k with n | _
  · revert n; decide
  · rfl

theorem rmOf_code (r : RMode) : rmOf (rmCode r) = r := by cases r <;> rfl

theorem tfOf_code (t : TField) : tfOf (tfCode t) = t := by
  rcases t with t | _
  · cases t <;> rfl
  · rfl

theorem scopeOf_code (s : Scope) : scopeOf (scopeCode s) = s := by cases s <;> rfl

theorem sizeOf_code (s : Size) : sizeOf' (sizeCode s) = s := by cases s <;> rfl

theorem getLsbD_fld (w : Word) (k : Nat) : w.getLsbD k = (fld w k 1).getLsbD 0 := by simp [fld]

theorem fin_code (n : Fin 16) : Fin.ofNat 16 (BitVec.ofNat 4 n.val).toNat = n := by revert n; decide

theorem ofBool_get (b : Bool) : (BitVec.ofBool b).getLsbD 0 = b := by cases b <;> rfl

theorem pairWord_format (f : PairF) : fld (pairWord f) 60 3 = 0#3 := by
  unfold fld pairWord
  repeat
    first
    | exact extract_self _
    | exact (extract_append_lo _ _ _ _ (by decide)).trans (extract_self _)
    | refine (extract_append_hi _ _ _ _ (by decide)).trans ?_

theorem pairOfWord_pairWord (f : PairF) : pairOfWord (pairWord f) = f := by
  have estop : fld (pairWord f) 63 1 = BitVec.ofBool f.stop := by
    unfold fld pairWord
    repeat
      first
      | exact extract_self _
      | exact (extract_append_lo _ _ _ _ (by decide)).trans (extract_self _)
      | refine (extract_append_hi _ _ _ _ (by decide)).trans ?_
  have eg : fld (pairWord f) 55 5 = guardCode f.g := by
    unfold fld pairWord
    repeat
      first
      | exact extract_self _
      | exact (extract_append_lo _ _ _ _ (by decide)).trans (extract_self _)
      | refine (extract_append_hi _ _ _ _ (by decide)).trans ?_
  have esop : fld (pairWord f) 49 6 = f.sop := by
    unfold fld pairWord
    repeat
      first
      | exact extract_self _
      | exact (extract_append_lo _ _ _ _ (by decide)).trans (extract_self _)
      | refine (extract_append_hi _ _ _ _ (by decide)).trans ?_
  have esW : fld (pairWord f) 48 1 = BitVec.ofBool f.sW := by
    unfold fld pairWord
    repeat
      first
      | exact extract_self _
      | exact (extract_append_lo _ _ _ _ (by decide)).trans (extract_self _)
      | refine (extract_append_hi _ _ _ _ (by decide)).trans ?_
  have esD : fld (pairWord f) 44 4 = BitVec.ofNat 4 f.sD.val := by
    unfold fld pairWord
    repeat
      first
      | exact extract_self _
      | exact (extract_append_lo _ _ _ _ (by decide)).trans (extract_self _)
      | refine (extract_append_hi _ _ _ _ (by decide)).trans ?_
  have esA : fld (pairWord f) 37 7 = operandCode f.sA := by
    unfold fld pairWord
    repeat
      first
      | exact extract_self _
      | exact (extract_append_lo _ _ _ _ (by decide)).trans (extract_self _)
      | refine (extract_append_hi _ _ _ _ (by decide)).trans ?_
  have esB : fld (pairWord f) 30 7 = operandCode f.sB := by
    unfold fld pairWord
    repeat
      first
      | exact extract_self _
      | exact (extract_append_lo _ _ _ _ (by decide)).trans (extract_self _)
      | refine (extract_append_hi _ _ _ _ (by decide)).trans ?_
  have ewidth : fld (pairWord f) 28 2 = f.width := by
    unfold fld pairWord
    repeat
      first
      | exact extract_self _
      | exact (extract_append_lo _ _ _ _ (by decide)).trans (extract_self _)
      | refine (extract_append_hi _ _ _ _ (by decide)).trans ?_
  have evop : fld (pairWord f) 22 6 = f.vop := by
    unfold fld pairWord
    repeat
      first
      | exact extract_self _
      | exact (extract_append_lo _ _ _ _ (by decide)).trans (extract_self _)
      | refine (extract_append_hi _ _ _ _ (by decide)).trans ?_
  have evW : fld (pairWord f) 21 1 = BitVec.ofBool f.vW := by
    unfold fld pairWord
    repeat
      first
      | exact extract_self _
      | exact (extract_append_lo _ _ _ _ (by decide)).trans (extract_self _)
      | refine (extract_append_hi _ _ _ _ (by decide)).trans ?_
  have evD : fld (pairWord f) 17 4 = BitVec.ofNat 4 f.vD.val := by
    unfold fld pairWord
    repeat
      first
      | exact extract_self _
      | exact (extract_append_lo _ _ _ _ (by decide)).trans (extract_self _)
      | refine (extract_append_hi _ _ _ _ (by decide)).trans ?_
  have evA : fld (pairWord f) 10 7 = operandCode f.vA := by
    unfold fld pairWord
    repeat
      first
      | exact extract_self _
      | exact (extract_append_lo _ _ _ _ (by decide)).trans (extract_self _)
      | refine (extract_append_hi _ _ _ _ (by decide)).trans ?_
  have evB : fld (pairWord f) 3 7 = operandCode f.vB := by
    unfold fld pairWord
    repeat
      first
      | exact extract_self _
      | exact (extract_append_lo _ _ _ _ (by decide)).trans (extract_self _)
      | refine (extract_append_hi _ _ _ _ (by decide)).trans ?_
  have evt : fld (pairWord f) 0 3 = f.vt := by
    unfold fld pairWord
    repeat
      first
      | exact extract_self _
      | exact (extract_append_lo _ _ _ _ (by decide)).trans (extract_self _)
      | refine (extract_append_hi _ _ _ _ (by decide)).trans ?_
  simp only [pairOfWord, getLsbD_fld, estop, eg, esop, esW, esD, esA, esB, ewidth, evop, evW, evD, evA, evB, evt,
    ofBool_get, fin_code, guardOf_code, operandOf_code]

theorem regWord_format (op : BitVec 8) (f : RegF) : fld (regWord op f) 60 3 = 1#3 := by
  unfold fld regWord
  repeat
    first
    | exact extract_self _
    | exact (extract_append_lo _ _ _ _ (by decide)).trans (extract_self _)
    | refine (extract_append_hi _ _ _ _ (by decide)).trans ?_

theorem regWord_opcode (op : BitVec 8) (f : RegF) : fld (regWord op f) 52 8 = op := by
  unfold fld regWord
  repeat
    first
    | exact extract_self _
    | exact (extract_append_lo _ _ _ _ (by decide)).trans (extract_self _)
    | refine (extract_append_hi _ _ _ _ (by decide)).trans ?_

theorem regOfWord_regWord (op : BitVec 8) (f : RegF) : regOfWord (regWord op f) = f := by
  have estop : fld (regWord op f) 63 1 = BitVec.ofBool f.stop := by
    unfold fld regWord
    repeat
      first
      | exact extract_self _
      | exact (extract_append_lo _ _ _ _ (by decide)).trans (extract_self _)
      | refine (extract_append_hi _ _ _ _ (by decide)).trans ?_
  have ew : fld (regWord op f) 51 1 = BitVec.ofBool f.w := by
    unfold fld regWord
    repeat
      first
      | exact extract_self _
      | exact (extract_append_lo _ _ _ _ (by decide)).trans (extract_self _)
      | refine (extract_append_hi _ _ _ _ (by decide)).trans ?_
  have ed : fld (regWord op f) 45 6 = dregCode f.d := by
    unfold fld regWord
    repeat
      first
      | exact extract_self _
      | exact (extract_append_lo _ _ _ _ (by decide)).trans (extract_self _)
      | refine (extract_append_hi _ _ _ _ (by decide)).trans ?_
  have ea : fld (regWord op f) 38 7 = operandCode f.a := by
    unfold fld regWord
    repeat
      first
      | exact extract_self _
      | exact (extract_append_lo _ _ _ _ (by decide)).trans (extract_self _)
      | refine (extract_append_hi _ _ _ _ (by decide)).trans ?_
  have eb : fld (regWord op f) 31 7 = operandCode f.b := by
    unfold fld regWord
    repeat
      first
      | exact extract_self _
      | exact (extract_append_lo _ _ _ _ (by decide)).trans (extract_self _)
      | refine (extract_append_hi _ _ _ _ (by decide)).trans ?_
  have ec : fld (regWord op f) 24 7 = operandCode f.c := by
    unfold fld regWord
    repeat
      first
      | exact extract_self _
      | exact (extract_append_lo _ _ _ _ (by decide)).trans (extract_self _)
      | refine (extract_append_hi _ _ _ _ (by decide)).trans ?_
  have eg : fld (regWord op f) 19 5 = guardCode f.g := by
    unfold fld regWord
    repeat
      first
      | exact extract_self _
      | exact (extract_append_lo _ _ _ _ (by decide)).trans (extract_self _)
      | refine (extract_append_hi _ _ _ _ (by decide)).trans ?_
  have erm : fld (regWord op f) 16 3 = rmCode f.rm := by
    unfold fld regWord
    repeat
      first
      | exact extract_self _
      | exact (extract_append_lo _ _ _ _ (by decide)).trans (extract_self _)
      | refine (extract_append_hi _ _ _ _ (by decide)).trans ?_
  have et : fld (regWord op f) 12 4 = tfCode f.t := by
    unfold fld regWord
    repeat
      first
      | exact extract_self _
      | exact (extract_append_lo _ _ _ _ (by decide)).trans (extract_self _)
      | refine (extract_append_hi _ _ _ _ (by decide)).trans ?_
  have ex : fld (regWord op f) 8 4 = f.x := by
    unfold fld regWord
    repeat
      first
      | exact extract_self _
      | exact (extract_append_lo _ _ _ _ (by decide)).trans (extract_self _)
      | refine (extract_append_hi _ _ _ _ (by decide)).trans ?_
  have ez : fld (regWord op f) 0 8 = f.z := by
    unfold fld regWord
    repeat
      first
      | exact extract_self _
      | exact (extract_append_lo _ _ _ _ (by decide)).trans (extract_self _)
      | refine (extract_append_hi _ _ _ _ (by decide)).trans ?_
  simp only [regOfWord, getLsbD_fld, estop, ew, ed, ea, eb, ec, eg, erm, et, ex, ez,
    ofBool_get, dregOf_code, guardOf_code, operandOf_code, rmOf_code, tfOf_code]

theorem immWord_format (op : BitVec 8) (f : ImmF) : fld (immWord op f) 60 3 = 2#3 := by
  unfold fld immWord
  repeat
    first
    | exact extract_self _
    | exact (extract_append_lo _ _ _ _ (by decide)).trans (extract_self _)
    | refine (extract_append_hi _ _ _ _ (by decide)).trans ?_

theorem immWord_opcode (op : BitVec 8) (f : ImmF) : fld (immWord op f) 52 8 = op := by
  unfold fld immWord
  repeat
    first
    | exact extract_self _
    | exact (extract_append_lo _ _ _ _ (by decide)).trans (extract_self _)
    | refine (extract_append_hi _ _ _ _ (by decide)).trans ?_

theorem immOfWord_immWord (op : BitVec 8) (f : ImmF) : immOfWord (immWord op f) = f := by
  have estop : fld (immWord op f) 63 1 = BitVec.ofBool f.stop := by
    unfold fld immWord
    repeat
      first
      | exact extract_self _
      | exact (extract_append_lo _ _ _ _ (by decide)).trans (extract_self _)
      | refine (extract_append_hi _ _ _ _ (by decide)).trans ?_
  have ew : fld (immWord op f) 51 1 = BitVec.ofBool f.w := by
    unfold fld immWord
    repeat
      first
      | exact extract_self _
      | exact (extract_append_lo _ _ _ _ (by decide)).trans (extract_self _)
      | refine (extract_append_hi _ _ _ _ (by decide)).trans ?_
  have ed : fld (immWord op f) 45 6 = dregCode f.d := by
    unfold fld immWord
    repeat
      first
      | exact extract_self _
      | exact (extract_append_lo _ _ _ _ (by decide)).trans (extract_self _)
      | refine (extract_append_hi _ _ _ _ (by decide)).trans ?_
  have ea : fld (immWord op f) 38 7 = operandCode f.a := by
    unfold fld immWord
    repeat
      first
      | exact extract_self _
      | exact (extract_append_lo _ _ _ _ (by decide)).trans (extract_self _)
      | refine (extract_append_hi _ _ _ _ (by decide)).trans ?_
  have eg : fld (immWord op f) 33 5 = guardCode f.g := by
    unfold fld immWord
    repeat
      first
      | exact extract_self _
      | exact (extract_append_lo _ _ _ _ (by decide)).trans (extract_self _)
      | refine (extract_append_hi _ _ _ _ (by decide)).trans ?_
  have ez : fld (immWord op f) 32 1 = BitVec.ofBool f.z := by
    unfold fld immWord
    repeat
      first
      | exact extract_self _
      | exact (extract_append_lo _ _ _ _ (by decide)).trans (extract_self _)
      | refine (extract_append_hi _ _ _ _ (by decide)).trans ?_
  have eimm : fld (immWord op f) 0 32 = f.imm := by
    unfold fld immWord
    repeat
      first
      | exact extract_self _
      | exact (extract_append_lo _ _ _ _ (by decide)).trans (extract_self _)
      | refine (extract_append_hi _ _ _ _ (by decide)).trans ?_
  simp only [immOfWord, getLsbD_fld, estop, ew, ed, ea, eg, ez, eimm,
    ofBool_get, dregOf_code, guardOf_code, operandOf_code]

theorem memWord_format (op : BitVec 8) (f : MemF) : fld (memWord op f) 60 3 = 3#3 := by
  unfold fld memWord
  repeat
    first
    | exact extract_self _
    | exact (extract_append_lo _ _ _ _ (by decide)).trans (extract_self _)
    | refine (extract_append_hi _ _ _ _ (by decide)).trans ?_

theorem memWord_opcode (op : BitVec 8) (f : MemF) : fld (memWord op f) 52 8 = op := by
  unfold fld memWord
  repeat
    first
    | exact extract_self _
    | exact (extract_append_lo _ _ _ _ (by decide)).trans (extract_self _)
    | refine (extract_append_hi _ _ _ _ (by decide)).trans ?_

theorem memOfWord_memWord (op : BitVec 8) (f : MemF) : memOfWord (memWord op f) = f := by
  have estop : fld (memWord op f) 63 1 = BitVec.ofBool f.stop := by
    unfold fld memWord
    repeat
      first
      | exact extract_self _
      | exact (extract_append_lo _ _ _ _ (by decide)).trans (extract_self _)
      | refine (extract_append_hi _ _ _ _ (by decide)).trans ?_
  have ew : fld (memWord op f) 51 1 = BitVec.ofBool f.w := by
    unfold fld memWord
    repeat
      first
      | exact extract_self _
      | exact (extract_append_lo _ _ _ _ (by decide)).trans (extract_self _)
      | refine (extract_append_hi _ _ _ _ (by decide)).trans ?_
  have ed : fld (memWord op f) 45 6 = dregCode f.d := by
    unfold fld memWord
    repeat
      first
      | exact extract_self _
      | exact (extract_append_lo _ _ _ _ (by decide)).trans (extract_self _)
      | refine (extract_append_hi _ _ _ _ (by decide)).trans ?_
  have ea : fld (memWord op f) 38 7 = operandCode f.a := by
    unfold fld memWord
    repeat
      first
      | exact extract_self _
      | exact (extract_append_lo _ _ _ _ (by decide)).trans (extract_self _)
      | refine (extract_append_hi _ _ _ _ (by decide)).trans ?_
  have eb : fld (memWord op f) 31 7 = operandCode f.b := by
    unfold fld memWord
    repeat
      first
      | exact extract_self _
      | exact (extract_append_lo _ _ _ _ (by decide)).trans (extract_self _)
      | refine (extract_append_hi _ _ _ _ (by decide)).trans ?_
  have eg : fld (memWord op f) 26 5 = guardCode f.g := by
    unfold fld memWord
    repeat
      first
      | exact extract_self _
      | exact (extract_append_lo _ _ _ _ (by decide)).trans (extract_self _)
      | refine (extract_append_hi _ _ _ _ (by decide)).trans ?_
  have esc : fld (memWord op f) 24 2 = scopeCode f.sc := by
    unfold fld memWord
    repeat
      first
      | exact extract_self _
      | exact (extract_append_lo _ _ _ _ (by decide)).trans (extract_self _)
      | refine (extract_append_hi _ _ _ _ (by decide)).trans ?_
  have esz : fld (memWord op f) 22 2 = sizeCode f.sz := by
    unfold fld memWord
    repeat
      first
      | exact extract_self _
      | exact (extract_append_lo _ _ _ _ (by decide)).trans (extract_self _)
      | refine (extract_append_hi _ _ _ _ (by decide)).trans ?_
  have edisp : fld (memWord op f) 0 22 = f.disp := by
    unfold fld memWord
    repeat
      first
      | exact extract_self _
      | exact (extract_append_lo _ _ _ _ (by decide)).trans (extract_self _)
      | refine (extract_append_hi _ _ _ _ (by decide)).trans ?_
  simp only [memOfWord, getLsbD_fld, estop, ew, ed, ea, eb, eg, esc, esz, edisp,
    ofBool_get, dregOf_code, guardOf_code, operandOf_code, scopeOf_code, sizeOf_code]

theorem tileWord_format (op : BitVec 8) (f : TileF) : fld (tileWord op f) 60 3 = 4#3 := by
  unfold fld tileWord
  repeat
    first
    | exact extract_self _
    | exact (extract_append_lo _ _ _ _ (by decide)).trans (extract_self _)
    | refine (extract_append_hi _ _ _ _ (by decide)).trans ?_

theorem tileWord_opcode (op : BitVec 8) (f : TileF) : fld (tileWord op f) 52 8 = op := by
  unfold fld tileWord
  repeat
    first
    | exact extract_self _
    | exact (extract_append_lo _ _ _ _ (by decide)).trans (extract_self _)
    | refine (extract_append_hi _ _ _ _ (by decide)).trans ?_

theorem tileOfWord_tileWord (op : BitVec 8) (f : TileF) : tileOfWord (tileWord op f) = f := by
  have estop : fld (tileWord op f) 63 1 = BitVec.ofBool f.stop := by
    unfold fld tileWord
    repeat
      first
      | exact extract_self _
      | exact (extract_append_lo _ _ _ _ (by decide)).trans (extract_self _)
      | refine (extract_append_hi _ _ _ _ (by decide)).trans ?_
  have ed : fld (tileWord op f) 45 7 = f.d := by
    unfold fld tileWord
    repeat
      first
      | exact extract_self _
      | exact (extract_append_lo _ _ _ _ (by decide)).trans (extract_self _)
      | refine (extract_append_hi _ _ _ _ (by decide)).trans ?_
  have ea : fld (tileWord op f) 38 7 = f.a := by
    unfold fld tileWord
    repeat
      first
      | exact extract_self _
      | exact (extract_append_lo _ _ _ _ (by decide)).trans (extract_self _)
      | refine (extract_append_hi _ _ _ _ (by decide)).trans ?_
  have eb : fld (tileWord op f) 31 7 = f.b := by
    unfold fld tileWord
    repeat
      first
      | exact extract_self _
      | exact (extract_append_lo _ _ _ _ (by decide)).trans (extract_self _)
      | refine (extract_append_hi _ _ _ _ (by decide)).trans ?_
  have eg : fld (tileWord op f) 26 5 = guardCode f.g := by
    unfold fld tileWord
    repeat
      first
      | exact extract_self _
      | exact (extract_append_lo _ _ _ _ (by decide)).trans (extract_self _)
      | refine (extract_append_hi _ _ _ _ (by decide)).trans ?_
  have eout : fld (tileWord op f) 20 6 = tokCode f.out := by
    unfold fld tileWord
    repeat
      first
      | exact extract_self _
      | exact (extract_append_lo _ _ _ _ (by decide)).trans (extract_self _)
      | refine (extract_append_hi _ _ _ _ (by decide)).trans ?_
  have ei1 : fld (tileWord op f) 14 6 = tokCode f.i1 := by
    unfold fld tileWord
    repeat
      first
      | exact extract_self _
      | exact (extract_append_lo _ _ _ _ (by decide)).trans (extract_self _)
      | refine (extract_append_hi _ _ _ _ (by decide)).trans ?_
  have ei2 : fld (tileWord op f) 8 6 = tokCode f.i2 := by
    unfold fld tileWord
    repeat
      first
      | exact extract_self _
      | exact (extract_append_lo _ _ _ _ (by decide)).trans (extract_self _)
      | refine (extract_append_hi _ _ _ _ (by decide)).trans ?_
  have ei3 : fld (tileWord op f) 2 6 = tokCode f.i3 := by
    unfold fld tileWord
    repeat
      first
      | exact extract_self _
      | exact (extract_append_lo _ _ _ _ (by decide)).trans (extract_self _)
      | refine (extract_append_hi _ _ _ _ (by decide)).trans ?_
  have emode : fld (tileWord op f) 0 2 = f.mode := by
    unfold fld tileWord
    repeat
      first
      | exact extract_self _
      | exact (extract_append_lo _ _ _ _ (by decide)).trans (extract_self _)
      | refine (extract_append_hi _ _ _ _ (by decide)).trans ?_
  simp only [tileOfWord, getLsbD_fld, estop, ed, ea, eb, eg, eout, ei1, ei2, ei3, emode,
    ofBool_get, guardOf_code, tokOf_code]

theorem engWord_format (op : BitVec 8) (f : EngF) : fld (engWord op f) 60 3 = 5#3 := by
  unfold fld engWord
  repeat
    first
    | exact extract_self _
    | exact (extract_append_lo _ _ _ _ (by decide)).trans (extract_self _)
    | refine (extract_append_hi _ _ _ _ (by decide)).trans ?_

theorem engWord_opcode (op : BitVec 8) (f : EngF) : fld (engWord op f) 52 8 = op := by
  unfold fld engWord
  repeat
    first
    | exact extract_self _
    | exact (extract_append_lo _ _ _ _ (by decide)).trans (extract_self _)
    | refine (extract_append_hi _ _ _ _ (by decide)).trans ?_

theorem engOfWord_engWord (op : BitVec 8) (f : EngF) : engOfWord (engWord op f) = f := by
  have estop : fld (engWord op f) 63 1 = BitVec.ofBool f.stop := by
    unfold fld engWord
    repeat
      first
      | exact extract_self _
      | exact (extract_append_lo _ _ _ _ (by decide)).trans (extract_self _)
      | refine (extract_append_hi _ _ _ _ (by decide)).trans ?_
  have eout : fld (engWord op f) 46 6 = tokCode f.out := by
    unfold fld engWord
    repeat
      first
      | exact extract_self _
      | exact (extract_append_lo _ _ _ _ (by decide)).trans (extract_self _)
      | refine (extract_append_hi _ _ _ _ (by decide)).trans ?_
  have ei1 : fld (engWord op f) 40 6 = tokCode f.i1 := by
    unfold fld engWord
    repeat
      first
      | exact extract_self _
      | exact (extract_append_lo _ _ _ _ (by decide)).trans (extract_self _)
      | refine (extract_append_hi _ _ _ _ (by decide)).trans ?_
  have ei2 : fld (engWord op f) 34 6 = tokCode f.i2 := by
    unfold fld engWord
    repeat
      first
      | exact extract_self _
      | exact (extract_append_lo _ _ _ _ (by decide)).trans (extract_self _)
      | refine (extract_append_hi _ _ _ _ (by decide)).trans ?_
  have ei3 : fld (engWord op f) 28 6 = tokCode f.i3 := by
    unfold fld engWord
    repeat
      first
      | exact extract_self _
      | exact (extract_append_lo _ _ _ _ (by decide)).trans (extract_self _)
      | refine (extract_append_hi _ _ _ _ (by decide)).trans ?_
  have ea : fld (engWord op f) 21 7 = operandCode f.a := by
    unfold fld engWord
    repeat
      first
      | exact extract_self _
      | exact (extract_append_lo _ _ _ _ (by decide)).trans (extract_self _)
      | refine (extract_append_hi _ _ _ _ (by decide)).trans ?_
  have eb : fld (engWord op f) 14 7 = operandCode f.b := by
    unfold fld engWord
    repeat
      first
      | exact extract_self _
      | exact (extract_append_lo _ _ _ _ (by decide)).trans (extract_self _)
      | refine (extract_append_hi _ _ _ _ (by decide)).trans ?_
  have ec : fld (engWord op f) 7 7 = operandCode f.c := by
    unfold fld engWord
    repeat
      first
      | exact extract_self _
      | exact (extract_append_lo _ _ _ _ (by decide)).trans (extract_self _)
      | refine (extract_append_hi _ _ _ _ (by decide)).trans ?_
  have erw : fld (engWord op f) 6 1 = BitVec.ofBool f.rw := by
    unfold fld engWord
    repeat
      first
      | exact extract_self _
      | exact (extract_append_lo _ _ _ _ (by decide)).trans (extract_self _)
      | refine (extract_append_hi _ _ _ _ (by decide)).trans ?_
  have emode : fld (engWord op f) 0 6 = f.mode := by
    unfold fld engWord
    repeat
      first
      | exact extract_self _
      | exact (extract_append_lo _ _ _ _ (by decide)).trans (extract_self _)
      | refine (extract_append_hi _ _ _ _ (by decide)).trans ?_
  simp only [engOfWord, getLsbD_fld, estop, eout, ei1, ei2, ei3, ea, eb, ec, erw, emode,
    ofBool_get, operandOf_code, tokOf_code]

theorem brWord_format (op : BitVec 8) (f : BrF) : fld (brWord op f) 60 3 = 6#3 := by
  unfold fld brWord
  repeat
    first
    | exact extract_self _
    | exact (extract_append_lo _ _ _ _ (by decide)).trans (extract_self _)
    | refine (extract_append_hi _ _ _ _ (by decide)).trans ?_

theorem brWord_opcode (op : BitVec 8) (f : BrF) : fld (brWord op f) 52 8 = op := by
  unfold fld brWord
  repeat
    first
    | exact extract_self _
    | exact (extract_append_lo _ _ _ _ (by decide)).trans (extract_self _)
    | refine (extract_append_hi _ _ _ _ (by decide)).trans ?_

theorem brOfWord_brWord (op : BitVec 8) (f : BrF) : brOfWord (brWord op f) = f := by
  have estop : fld (brWord op f) 63 1 = BitVec.ofBool f.stop := by
    unfold fld brWord
    repeat
      first
      | exact extract_self _
      | exact (extract_append_lo _ _ _ _ (by decide)).trans (extract_self _)
      | refine (extract_append_hi _ _ _ _ (by decide)).trans ?_
  have ea : fld (brWord op f) 45 7 = operandCode f.a := by
    unfold fld brWord
    repeat
      first
      | exact extract_self _
      | exact (extract_append_lo _ _ _ _ (by decide)).trans (extract_self _)
      | refine (extract_append_hi _ _ _ _ (by decide)).trans ?_
  have eg : fld (brWord op f) 40 5 = guardCode f.g := by
    unfold fld brWord
    repeat
      first
      | exact extract_self _
      | exact (extract_append_lo _ _ _ _ (by decide)).trans (extract_self _)
      | refine (extract_append_hi _ _ _ _ (by decide)).trans ?_
  have erot : fld (brWord op f) 36 4 = f.rot := by
    unfold fld brWord
    repeat
      first
      | exact extract_self _
      | exact (extract_append_lo _ _ _ _ (by decide)).trans (extract_self _)
      | refine (extract_append_hi _ _ _ _ (by decide)).trans ?_
  have eshift : fld (brWord op f) 32 4 = f.shift := by
    unfold fld brWord
    repeat
      first
      | exact extract_self _
      | exact (extract_append_lo _ _ _ _ (by decide)).trans (extract_self _)
      | refine (extract_append_hi _ _ _ _ (by decide)).trans ?_
  have edisp : fld (brWord op f) 0 32 = f.disp := by
    unfold fld brWord
    repeat
      first
      | exact extract_self _
      | exact (extract_append_lo _ _ _ _ (by decide)).trans (extract_self _)
      | refine (extract_append_hi _ _ _ _ (by decide)).trans ?_
  simp only [brOfWord, getLsbD_fld, estop, ea, eg, erot, eshift, edisp,
    ofBool_get, guardOf_code, operandOf_code]

theorem sysWord_format (op : BitVec 8) (f : SysF) : fld (sysWord op f) 60 3 = 7#3 := by
  unfold fld sysWord
  repeat
    first
    | exact extract_self _
    | exact (extract_append_lo _ _ _ _ (by decide)).trans (extract_self _)
    | refine (extract_append_hi _ _ _ _ (by decide)).trans ?_

theorem sysWord_opcode (op : BitVec 8) (f : SysF) : fld (sysWord op f) 52 8 = op := by
  unfold fld sysWord
  repeat
    first
    | exact extract_self _
    | exact (extract_append_lo _ _ _ _ (by decide)).trans (extract_self _)
    | refine (extract_append_hi _ _ _ _ (by decide)).trans ?_

theorem sysOfWord_sysWord (op : BitVec 8) (f : SysF) : sysOfWord (sysWord op f) = f := by
  have estop : fld (sysWord op f) 63 1 = BitVec.ofBool f.stop := by
    unfold fld sysWord
    repeat
      first
      | exact extract_self _
      | exact (extract_append_lo _ _ _ _ (by decide)).trans (extract_self _)
      | refine (extract_append_hi _ _ _ _ (by decide)).trans ?_
  have ew : fld (sysWord op f) 51 1 = BitVec.ofBool f.w := by
    unfold fld sysWord
    repeat
      first
      | exact extract_self _
      | exact (extract_append_lo _ _ _ _ (by decide)).trans (extract_self _)
      | refine (extract_append_hi _ _ _ _ (by decide)).trans ?_
  have ed : fld (sysWord op f) 45 6 = dregCode f.d := by
    unfold fld sysWord
    repeat
      first
      | exact extract_self _
      | exact (extract_append_lo _ _ _ _ (by decide)).trans (extract_self _)
      | refine (extract_append_hi _ _ _ _ (by decide)).trans ?_
  have ea : fld (sysWord op f) 38 7 = operandCode f.a := by
    unfold fld sysWord
    repeat
      first
      | exact extract_self _
      | exact (extract_append_lo _ _ _ _ (by decide)).trans (extract_self _)
      | refine (extract_append_hi _ _ _ _ (by decide)).trans ?_
  have eb : fld (sysWord op f) 31 7 = operandCode f.b := by
    unfold fld sysWord
    repeat
      first
      | exact extract_self _
      | exact (extract_append_lo _ _ _ _ (by decide)).trans (extract_self _)
      | refine (extract_append_hi _ _ _ _ (by decide)).trans ?_
  have eg : fld (sysWord op f) 26 5 = guardCode f.g := by
    unfold fld sysWord
    repeat
      first
      | exact extract_self _
      | exact (extract_append_lo _ _ _ _ (by decide)).trans (extract_self _)
      | refine (extract_append_hi _ _ _ _ (by decide)).trans ?_
  have ecsr : fld (sysWord op f) 14 12 = f.csr := by
    unfold fld sysWord
    repeat
      first
      | exact extract_self _
      | exact (extract_append_lo _ _ _ _ (by decide)).trans (extract_self _)
      | refine (extract_append_hi _ _ _ _ (by decide)).trans ?_
  have eimm : fld (sysWord op f) 0 14 = f.imm := by
    unfold fld sysWord
    repeat
      first
      | exact extract_self _
      | exact (extract_append_lo _ _ _ _ (by decide)).trans (extract_self _)
      | refine (extract_append_hi _ _ _ _ (by decide)).trans ?_
  simp only [sysOfWord, getLsbD_fld, estop, ew, ed, ea, eb, eg, ecsr, eimm,
    ofBool_get, dregOf_code, guardOf_code, operandOf_code]

/-- An encoded word of each format decodes to the op its opcode selects. -/
theorem decodeWord_pair (f : PairF) (r : Option RouteF) : decodeWord (pairWord f) r = .pair f := by
  unfold decodeWord
  simp only [pairWord_format, pairOfWord_pairWord]
  rfl

theorem decodeWord_reg (op : BitVec 8) (f : RegF) (r : Option RouteF) :
    decodeWord (regWord op f) r = (regOp op.toNat f).getD (.illegalEncoding (regWord op f)) := by
  unfold decodeWord
  simp only [regWord_format, regWord_opcode, regOfWord_regWord]
  rfl

theorem decodeWord_imm (op : BitVec 8) (f : ImmF) (r : Option RouteF) :
    decodeWord (immWord op f) r = (immOp op.toNat f).getD (.illegalEncoding (immWord op f)) := by
  unfold decodeWord
  simp only [immWord_format, immWord_opcode, immOfWord_immWord]
  rfl

theorem decodeWord_mem (op : BitVec 8) (f : MemF) (r : Option RouteF) :
    decodeWord (memWord op f) r = (memOp op.toNat f).getD (.illegalEncoding (memWord op f)) := by
  unfold decodeWord
  simp only [memWord_format, memWord_opcode, memOfWord_memWord]
  rfl

theorem decodeWord_tile (op : BitVec 8) (f : TileF) (r : Option RouteF) :
    decodeWord (tileWord op f) r = (tileOp op.toNat f).getD (.illegalEncoding (tileWord op f)) := by
  unfold decodeWord
  simp only [tileWord_format, tileWord_opcode, tileOfWord_tileWord]
  rfl

theorem decodeWord_br (op : BitVec 8) (f : BrF) (r : Option RouteF) :
    decodeWord (brWord op f) r = (brOp op.toNat f).getD (.illegalEncoding (brWord op f)) := by
  unfold decodeWord
  simp only [brWord_format, brWord_opcode, brOfWord_brWord]
  rfl

theorem decodeWord_sys (op : BitVec 8) (f : SysF) (r : Option RouteF) :
    decodeWord (sysWord op f) r = (sysOp op.toNat f).getD (.illegalEncoding (sysWord op f)) := by
  unfold decodeWord
  simp only [sysWord_format, sysWord_opcode, sysOfWord_sysWord]
  rfl

theorem decodeWord_eng (op : BitVec 8) (f : EngF) (r : Option RouteF) :
    decodeWord (engWord op f) r = (engOp op.toNat f r).getD (.illegalEncoding (engWord op f)) := by
  unfold decodeWord
  simp only [engWord_format, engWord_opcode, engOfWord_engWord]
  rfl

theorem routeOfWord_routeWord (r : RouteF) : routeOfWord (routeWord r) = r := by
  have e1 : fld (routeWord r) 63 1 = BitVec.ofBool r.stop := by
    unfold fld routeWord
    repeat
      first
      | exact extract_self _
      | exact (extract_append_lo _ _ _ _ (by decide)).trans (extract_self _)
      | refine (extract_append_hi _ _ _ _ (by decide)).trans ?_
  have e2 : fld (routeWord r) 0 52 = r.turns := by
    unfold fld routeWord
    repeat
      first
      | exact extract_self _
      | exact (extract_append_lo _ _ _ _ (by decide)).trans (extract_self _)
      | refine (extract_append_hi _ _ _ _ (by decide)).trans ?_
  simp only [routeOfWord, getLsbD_fld, e1, e2, ofBool_get]

theorem isRoute_routeWord (r : RouteF) : isRoute (routeWord r) = true := by
  have e1 : fld (routeWord r) 60 3 = 7#3 := by
    unfold fld routeWord
    repeat
      first
      | exact extract_self _
      | exact (extract_append_lo _ _ _ _ (by decide)).trans (extract_self _)
      | refine (extract_append_hi _ _ _ _ (by decide)).trans ?_
  have e2 : fld (routeWord r) 52 8 = 0xFF#8 := by
    unfold fld routeWord
    repeat
      first
      | exact extract_self _
      | exact (extract_append_lo _ _ _ _ (by decide)).trans (extract_self _)
      | refine (extract_append_hi _ _ _ _ (by decide)).trans ?_
  simp only [isRoute, e1, e2]
  rfl

/-- An NI op's word with its route flag set and S clear takes a route word. -/
theorem takesRoute_engWord (op : BitVec 8) (f : EngF) (hr : f.rw = true) (hs : f.stop = false)
    (ho : ((0x20 ≤ op.toNat && op.toNat < 0x26) || (0x40 ≤ op.toNat && op.toNat < 0x44)) = true) :
    takesRoute (engWord op f) = true := by
  have e1 : fld (engWord op f) 63 1 = BitVec.ofBool f.stop := by
    unfold fld engWord
    repeat
      first
      | exact extract_self _
      | exact (extract_append_lo _ _ _ _ (by decide)).trans (extract_self _)
      | refine (extract_append_hi _ _ _ _ (by decide)).trans ?_
  have e2 : fld (engWord op f) 6 1 = BitVec.ofBool f.rw := by
    unfold fld engWord
    repeat
      first
      | exact extract_self _
      | exact (extract_append_lo _ _ _ _ (by decide)).trans (extract_self _)
      | refine (extract_append_hi _ _ _ _ (by decide)).trans ?_
  simp only [takesRoute, engWord_format, engWord_opcode, getLsbD_fld, e1, e2, ofBool_get, hr, hs, ho]
  rfl

/-- An op without a route word decodes back if its word does. -/
theorem decodeRaw_one (i : Instr) (hr : routeOf i = none) (h : decodeWord (encodeWord i) none = i) :
    decodeRaw (encode i) = some (i, []) := by
  unfold encode
  simp only [hr, decodeRaw, h]

/-- An op with a route word decodes back if its word takes the route word. -/
theorem decodeRaw_two (i : Instr) (r : RouteF) (hr : routeOf i = some r) (ht : takesRoute (encodeWord i) = true)
    (h : decodeWord (encodeWord i) (some r) = i) : decodeRaw (encode i) = some (i, []) := by
  unfold encode
  simp only [hr, decodeRaw, ht, isRoute_routeWord, routeOfWord_routeWord, h, Bool.and_self, if_true]

/-- What being well formed says of one op: none of the three field checks fails. -/
theorem rows_of_wellFormed (i : Instr) (ho : opsOf 0 i = [i]) (hw : WellFormed i) :
    row1Op i = false ∧ row2Op i = false ∧ row3Op i = false := by
  unfold WellFormed fieldReject at hw
  simp only [ho, List.any_cons, List.any_nil, Bool.or_false] at hw
  refine ⟨?_, ?_, ?_⟩
  · cases hh : row1Op i
    · rfl
    · simp [hh] at hw
  · cases hh : row1Op i <;> cases hk : row2Op i <;> simp_all
  · cases hh : row1Op i <;> cases hk : row2Op i <;> cases hl : row3Op i <;> simp_all

/-- The fields a well-formed op must hold zero or in range are so. -/
theorem fieldsOk_of_wellFormed (i : Instr) (ho : opsOf 0 i = [i]) (hw : WellFormed i) : fieldsOk i = true := by
  have h2 := (rows_of_wellFormed i ho hw).2.1
  unfold row2Op at h2
  cases hf : fieldsOk i
  · simp [hf] at h2
  · rfl

/-- A well-formed NI op that carries a route word has RW set and S clear (R79). -/
theorem route_of_wellFormed (i : Instr) (f : EngF) (r : RouteF) (ho : opsOf 0 i = [i]) (hf : niFields i = some f)
    (hr : routeOf i = some r) (hw : WellFormed i) : f.rw = true ∧ f.stop = false := by
  have h3 := (rows_of_wellFormed i ho hw).2.2
  unfold row3Op at h3
  simp only [hf, hr] at h3
  cases h1 : f.rw <;> cases hs : f.stop <;> simp_all

end Sys2Proof.Laws
end

