-- ==== Sys2Proof/Laws/Event.lean ====
section
/-! SUPPORT. What an event does where it is due, and where it is not: one lemma for each of the shared forms that events
of a core, of a command, of a cluster and of a die have. -/

namespace Sys2Proof.Machine

theorem onCore_due {due : State → Bool} {f : State → State} {s : State} (hc : s.cur.core < nCores) (hd : due s = true) :
    onCore due f s = .next (f s) := by
  unfold onCore
  rw [if_neg (Nat.not_le.mpr hc), if_pos hd]

theorem onCore_not_due {due : State → Bool} {f : State → State} {s : State} (hc : s.cur.core < nCores)
    (hd : due s = false) : onCore due f s = .next s := by
  unfold onCore
  rw [if_neg (Nat.not_le.mpr hc), if_neg (by rw [hd]; decide)]

theorem onCore_absent {due : State → Bool} {f : State → State} {s : State} (hc : nCores ≤ s.cur.core) :
    onCore due f s = .fault .noSuchAgent := by
  unfold onCore
  rw [if_pos hc]

theorem onCmd_due {p : State → Cmd → Bool} {f : State → Cmd → State} {s : State} {c : Cmd} (hc : s.cur.core < nCores)
    (hf : s.theCmd = some c) (hd : p s c = true) : onCmd p f s = .next (f s c) := by
  unfold onCmd
  rw [onCore_due hc (by rw [hf]; exact hd), hf]

theorem onCluster_due {due : State → Bool} {f : State → State} {s : State} (hc : s.cur.id < 192) (hd : due s = true) :
    onCluster due f s = .next (f s) := by
  unfold onCluster
  rw [if_neg (Nat.not_le.mpr hc), if_pos hd]

theorem onDie_due {due : State → Bool} {f : State → State} {s : State} (hc : s.cur.id < 4) (hd : due s = true) :
    onDie due f s = .next (f s) := by
  unfold onDie
  rw [if_neg (Nat.not_le.mpr hc), if_pos hd]

end Sys2Proof.Machine
end

