-- ==== Sys2Proof/Laws/State.lean ====
section
/-! SUPPORT. What an update of the state, of a core, of a context leaves in every field: one lemma for each field and
each update, so that no later proof unfolds a record update. -/

namespace Sys2Proof.Machine

/-! ### The sparse list of cores -/

theorem findCore_putCore_same (l : List (Nat × CoreState)) (c : Nat) (x : CoreState) : findCore (putCore l c x) c = x := by
  induction l with
  | nil => simp [putCore, findCore]
  | cons p l ih =>
    obtain ⟨k, y⟩ := p
    unfold putCore
    split
    · simp [findCore]
    · split
      · simp [findCore]
      · rename_i h _; simp [findCore, h, ih]

theorem findCore_putCore_other (l : List (Nat × CoreState)) {c d : Nat} (x : CoreState) (h : d ≠ c) :
    findCore (putCore l c x) d = findCore l d := by
  induction l with
  | nil => simp [putCore, findCore, Ne.symm h]
  | cons p l ih =>
    obtain ⟨k, y⟩ := p
    unfold putCore
    split
    · rename_i e; subst e; simp [findCore, Ne.symm h]
    · split
      · simp [findCore, Ne.symm h]
      · simp [findCore, ih]

theorem putCore_putCore (l : List (Nat × CoreState)) (c : Nat) (x y : CoreState) :
    putCore (putCore l c x) c y = putCore l c y := by
  induction l with
  | nil => simp [putCore]
  | cons p l ih =>
    obtain ⟨k, z⟩ := p
    by_cases h : k = c
    · simp [putCore, h]
    · by_cases h2 : c < k
      · simp [putCore, h, h2]
      · simp [putCore, h, h2, ih]

/-! ### Cores, contexts, clusters -/

@[simp] theorem State.core_setCore (s : State) (c : Nat) (x : CoreState) : (s.setCore c x).core c = x :=
  findCore_putCore_same _ _ _
theorem State.core_setCore_other (s : State) {c d : Nat} (x : CoreState) (h : d ≠ c) : (s.setCore c x).core d = s.core d :=
  findCore_putCore_other _ _ h
@[simp] theorem State.setCore_setCore (s : State) (c : Nat) (x y : CoreState) :
    (s.setCore c x).setCore c y = s.setCore c y := by simp [State.setCore, putCore_putCore]
@[simp] theorem State.core_updCore (s : State) (c : Nat) (f : CoreState → CoreState) : (s.updCore c f).core c = f (s.core c) :=
  State.core_setCore _ _ _
theorem State.core_updCore_other (s : State) {c d : Nat} (f : CoreState → CoreState) (h : d ≠ c) :
    (s.updCore c f).core d = s.core d := State.core_setCore_other _ _ h
@[simp] theorem State.myCore_updMyCore (s : State) (f : CoreState → CoreState) : (s.updMyCore f).myCore = f s.myCore :=
  State.core_setCore _ _ _

@[simp] theorem CoreState.ctx_setCtx (x : CoreState) (k : Nat) (y : Ctx) : (x.setCtx k y).ctx k = y :=
  Vector.getElem_set_self (Fin.ofNat 4 k).isLt
theorem CoreState.ctx_setCtx_other (x : CoreState) {j k : Nat} (y : Ctx) (h : j % 4 ≠ k % 4) :
    (x.setCtx k y).ctx j = x.ctx j := by
  have hne : (Fin.ofNat 4 k).val ≠ (Fin.ofNat 4 j).val := by simp [Fin.ofNat]; omega
  simp only [CoreState.ctx, CoreState.setCtx]
  exact Vector.getElem_set_ne _ _ hne
@[simp] theorem CoreState.setCtx_setCtx (x : CoreState) (k : Nat) (y z : Ctx) :
    (x.setCtx k y).setCtx k z = x.setCtx k z := by
  simp [CoreState.setCtx, Vector.set]

@[simp] theorem State.core_updCtx (s : State) (c k : Nat) (f : Ctx → Ctx) :
    (s.updCtx c k f).core c = (s.core c).setCtx k (f (s.ctx c k)) := State.core_setCore _ _ _
theorem State.core_updCtx_other (s : State) {c d : Nat} (k : Nat) (f : Ctx → Ctx) (h : d ≠ c) :
    (s.updCtx c k f).core d = s.core d := State.core_setCore_other _ _ h
@[simp] theorem State.ctx_updCtx (s : State) (c k : Nat) (f : Ctx → Ctx) : (s.updCtx c k f).ctx c k = f (s.ctx c k) := by
  simp [State.ctx]
theorem State.ctx_updCtx_other (s : State) (c : Nat) {j k : Nat} (f : Ctx → Ctx) (h : j % 4 ≠ k % 4) :
    (s.updCtx c k f).ctx c j = s.ctx c j := by
  simp [State.ctx, CoreState.ctx_setCtx_other _ _ h]
theorem State.ctx_updCtx_core (s : State) {c d : Nat} (j k : Nat) (f : Ctx → Ctx) (h : d ≠ c) :
    (s.updCtx c k f).ctx d j = s.ctx d j := by
  simp [State.ctx, State.core_updCtx_other _ _ _ h]
@[simp] theorem State.updCtx_updCtx (s : State) (c k : Nat) (f g : Ctx → Ctx) :
    (s.updCtx c k f).updCtx c k g = s.updCtx c k (fun x => g (f x)) := by
  simp [State.updCtx, State.ctx]

@[simp] theorem State.me_updMe (s : State) (f : Ctx → Ctx) : (s.updMe f).me = f s.me := State.ctx_updCtx _ _ _ _
@[simp] theorem State.updMe_updMe (s : State) (f g : Ctx → Ctx) :
    (s.updMe f).updMe g = s.updMe (fun x => g (f x)) := State.updCtx_updCtx _ _ _ _ _
@[simp] theorem State.myCore_updMe (s : State) (f : Ctx → Ctx) :
    (s.updMe f).myCore = s.myCore.setCtx s.cur.ctx (f s.me) := State.core_setCore _ _ _
theorem State.core_updMe_other (s : State) {d : Nat} (f : Ctx → Ctx) (h : d ≠ s.cur.core) :
    (s.updMe f).core d = s.core d := State.core_setCore_other _ _ h
theorem State.core_updMyCore_other (s : State) {d : Nat} (f : CoreState → CoreState) (h : d ≠ s.cur.core) :
    (s.updMyCore f).core d = s.core d := State.core_setCore_other _ _ h
@[simp] theorem State.me_updMyCore (s : State) (f : CoreState → CoreState) : (s.updMyCore f).me = (f s.myCore).ctx s.cur.ctx := by
  have h := State.core_updCore s s.cur.core f
  simp only [State.me, State.ctx, State.updMyCore] at *
  rw [show (s.updCore s.cur.core f).cur = s.cur from rfl, h]
  rfl

@[simp] theorem State.cluster_updCluster (s : State) (k : Nat) (f : ClusterState → ClusterState) :
    (s.updCluster k f).cluster k = f (s.cluster k) :=
  Vector.getElem_set_self (Fin.ofNat 192 k).isLt
theorem State.cluster_updCluster_other (s : State) {j k : Nat} (f : ClusterState → ClusterState) (h : j % 192 ≠ k % 192) :
    (s.updCluster k f).cluster j = s.cluster j := by
  have hne : (Fin.ofNat 192 k).val ≠ (Fin.ofNat 192 j).val := by simp [Fin.ofNat]; omega
  simp only [State.cluster, State.updCluster]
  exact Vector.getElem_set_ne _ _ hne

/-! ### Fields an update of the state leaves -/

@[simp] theorem State.setCore_clusters (s : State) (c : Nat) (x : CoreState) : (s.setCore c x).clusters = s.clusters := rfl
@[simp] theorem State.setCore_dies (s : State) (c : Nat) (x : CoreState) : (s.setCore c x).dies = s.dies := rfl
@[simp] theorem State.setCore_phys (s : State) (c : Nat) (x : CoreState) : (s.setCore c x).phys = s.phys := rfl
@[simp] theorem State.setCore_boot (s : State) (c : Nat) (x : CoreState) : (s.setCore c x).boot = s.boot := rfl
@[simp] theorem State.setCore_host (s : State) (c : Nat) (x : CoreState) : (s.setCore c x).host = s.host := rfl
@[simp] theorem State.setCore_fw (s : State) (c : Nat) (x : CoreState) : (s.setCore c x).fw = s.fw := rfl
@[simp] theorem State.setCore_fab (s : State) (c : Nat) (x : CoreState) : (s.setCore c x).fab = s.fab := rfl
@[simp] theorem State.setCore_master (s : State) (c : Nat) (x : CoreState) : (s.setCore c x).master = s.master := rfl
@[simp] theorem State.setCore_agenda (s : State) (c : Nat) (x : CoreState) : (s.setCore c x).agenda = s.agenda := rfl
@[simp] theorem State.setCore_inputs (s : State) (c : Nat) (x : CoreState) : (s.setCore c x).inputs = s.inputs := rfl
@[simp] theorem State.setCore_abroad (s : State) (c : Nat) (x : CoreState) : (s.setCore c x).abroad = s.abroad := rfl
@[simp] theorem State.setCore_cur (s : State) (c : Nat) (x : CoreState) : (s.setCore c x).cur = s.cur := rfl
@[simp] theorem State.setCore_nextId (s : State) (c : Nat) (x : CoreState) : (s.setCore c x).nextId = s.nextId := rfl
@[simp] theorem State.setCore_freeCount (s : State) (c : Nat) (x : CoreState) : (s.setCore c x).freeCount = s.freeCount := rfl
@[simp] theorem State.setCore_dbgReply (s : State) (c : Nat) (x : CoreState) : (s.setCore c x).dbgReply = s.dbgReply := rfl
@[simp] theorem State.setCore_cluster (s : State) (c : Nat) (x : CoreState) (i : Nat) : (s.setCore c x).cluster i = s.cluster i := rfl
@[simp] theorem State.setCore_eff (s : State) (c : Nat) (x : CoreState) (i : Nat) : (s.setCore c x).eff i = s.eff i := rfl
@[simp] theorem State.setCore_task (s : State) (c : Nat) (x : CoreState) (i : Nat) : (s.setCore c x).task i = s.task i := rfl

@[simp] theorem State.updCore_clusters (s : State) (c : Nat) (f : CoreState → CoreState) : (s.updCore c f).clusters = s.clusters := rfl
@[simp] theorem State.updCore_dies (s : State) (c : Nat) (f : CoreState → CoreState) : (s.updCore c f).dies = s.dies := rfl
@[simp] theorem State.updCore_phys (s : State) (c : Nat) (f : CoreState → CoreState) : (s.updCore c f).phys = s.phys := rfl
@[simp] theorem State.updCore_boot (s : State) (c : Nat) (f : CoreState → CoreState) : (s.updCore c f).boot = s.boot := rfl
@[simp] theorem State.updCore_host (s : State) (c : Nat) (f : CoreState → CoreState) : (s.updCore c f).host = s.host := rfl
@[simp] theorem State.updCore_fw (s : State) (c : Nat) (f : CoreState → CoreState) : (s.updCore c f).fw = s.fw := rfl
@[simp] theorem State.updCore_fab (s : State) (c : Nat) (f : CoreState → CoreState) : (s.updCore c f).fab = s.fab := rfl
@[simp] theorem State.updCore_master (s : State) (c : Nat) (f : CoreState → CoreState) : (s.updCore c f).master = s.master := rfl
@[simp] theorem State.updCore_agenda (s : State) (c : Nat) (f : CoreState → CoreState) : (s.updCore c f).agenda = s.agenda := rfl
@[simp] theorem State.updCore_inputs (s : State) (c : Nat) (f : CoreState → CoreState) : (s.updCore c f).inputs = s.inputs := rfl
@[simp] theorem State.updCore_abroad (s : State) (c : Nat) (f : CoreState → CoreState) : (s.updCore c f).abroad = s.abroad := rfl
@[simp] theorem State.updCore_cur (s : State) (c : Nat) (f : CoreState → CoreState) : (s.updCore c f).cur = s.cur := rfl
@[simp] theorem State.updCore_nextId (s : State) (c : Nat) (f : CoreState → CoreState) : (s.updCore c f).nextId = s.nextId := rfl
@[simp] theorem State.updCore_freeCount (s : State) (c : Nat) (f : CoreState → CoreState) : (s.updCore c f).freeCount = s.freeCount := rfl
@[simp] theorem State.updCore_dbgReply (s : State) (c : Nat) (f : CoreState → CoreState) : (s.updCore c f).dbgReply = s.dbgReply := rfl
@[simp] theorem State.updCore_cluster (s : State) (c : Nat) (f : CoreState → CoreState) (i : Nat) : (s.updCore c f).cluster i = s.cluster i := rfl
@[simp] theorem State.updCore_eff (s : State) (c : Nat) (f : CoreState → CoreState) (i : Nat) : (s.updCore c f).eff i = s.eff i := rfl
@[simp] theorem State.updCore_task (s : State) (c : Nat) (f : CoreState → CoreState) (i : Nat) : (s.updCore c f).task i = s.task i := rfl

@[simp] theorem State.updCtx_clusters (s : State) (c k : Nat) (f : Ctx → Ctx) : (s.updCtx c k f).clusters = s.clusters := rfl
@[simp] theorem State.updCtx_dies (s : State) (c k : Nat) (f : Ctx → Ctx) : (s.updCtx c k f).dies = s.dies := rfl
@[simp] theorem State.updCtx_phys (s : State) (c k : Nat) (f : Ctx → Ctx) : (s.updCtx c k f).phys = s.phys := rfl
@[simp] theorem State.updCtx_boot (s : State) (c k : Nat) (f : Ctx → Ctx) : (s.updCtx c k f).boot = s.boot := rfl
@[simp] theorem State.updCtx_host (s : State) (c k : Nat) (f : Ctx → Ctx) : (s.updCtx c k f).host = s.host := rfl
@[simp] theorem State.updCtx_fw (s : State) (c k : Nat) (f : Ctx → Ctx) : (s.updCtx c k f).fw = s.fw := rfl
@[simp] theorem State.updCtx_fab (s : State) (c k : Nat) (f : Ctx → Ctx) : (s.updCtx c k f).fab = s.fab := rfl
@[simp] theorem State.updCtx_master (s : State) (c k : Nat) (f : Ctx → Ctx) : (s.updCtx c k f).master = s.master := rfl
@[simp] theorem State.updCtx_agenda (s : State) (c k : Nat) (f : Ctx → Ctx) : (s.updCtx c k f).agenda = s.agenda := rfl
@[simp] theorem State.updCtx_inputs (s : State) (c k : Nat) (f : Ctx → Ctx) : (s.updCtx c k f).inputs = s.inputs := rfl
@[simp] theorem State.updCtx_abroad (s : State) (c k : Nat) (f : Ctx → Ctx) : (s.updCtx c k f).abroad = s.abroad := rfl
@[simp] theorem State.updCtx_cur (s : State) (c k : Nat) (f : Ctx → Ctx) : (s.updCtx c k f).cur = s.cur := rfl
@[simp] theorem State.updCtx_nextId (s : State) (c k : Nat) (f : Ctx → Ctx) : (s.updCtx c k f).nextId = s.nextId := rfl
@[simp] theorem State.updCtx_freeCount (s : State) (c k : Nat) (f : Ctx → Ctx) : (s.updCtx c k f).freeCount = s.freeCount := rfl
@[simp] theorem State.updCtx_dbgReply (s : State) (c k : Nat) (f : Ctx → Ctx) : (s.updCtx c k f).dbgReply = s.dbgReply := rfl
@[simp] theorem State.updCtx_cluster (s : State) (c k : Nat) (f : Ctx → Ctx) (i : Nat) : (s.updCtx c k f).cluster i = s.cluster i := rfl
@[simp] theorem State.updCtx_eff (s : State) (c k : Nat) (f : Ctx → Ctx) (i : Nat) : (s.updCtx c k f).eff i = s.eff i := rfl
@[simp] theorem State.updCtx_task (s : State) (c k : Nat) (f : Ctx → Ctx) (i : Nat) : (s.updCtx c k f).task i = s.task i := rfl

@[simp] theorem State.updMe_clusters (s : State) (f : Ctx → Ctx) : (s.updMe f).clusters = s.clusters := rfl
@[simp] theorem State.updMe_dies (s : State) (f : Ctx → Ctx) : (s.updMe f).dies = s.dies := rfl
@[simp] theorem State.updMe_phys (s : State) (f : Ctx → Ctx) : (s.updMe f).phys = s.phys := rfl
@[simp] theorem State.updMe_boot (s : State) (f : Ctx → Ctx) : (s.updMe f).boot = s.boot := rfl
@[simp] theorem State.updMe_host (s : State) (f : Ctx → Ctx) : (s.updMe f).host = s.host := rfl
@[simp] theorem State.updMe_fw (s : State) (f : Ctx → Ctx) : (s.updMe f).fw = s.fw := rfl
@[simp] theorem State.updMe_fab (s : State) (f : Ctx → Ctx) : (s.updMe f).fab = s.fab := rfl
@[simp] theorem State.updMe_master (s : State) (f : Ctx → Ctx) : (s.updMe f).master = s.master := rfl
@[simp] theorem State.updMe_agenda (s : State) (f : Ctx → Ctx) : (s.updMe f).agenda = s.agenda := rfl
@[simp] theorem State.updMe_inputs (s : State) (f : Ctx → Ctx) : (s.updMe f).inputs = s.inputs := rfl
@[simp] theorem State.updMe_abroad (s : State) (f : Ctx → Ctx) : (s.updMe f).abroad = s.abroad := rfl
@[simp] theorem State.updMe_cur (s : State) (f : Ctx → Ctx) : (s.updMe f).cur = s.cur := rfl
@[simp] theorem State.updMe_nextId (s : State) (f : Ctx → Ctx) : (s.updMe f).nextId = s.nextId := rfl
@[simp] theorem State.updMe_freeCount (s : State) (f : Ctx → Ctx) : (s.updMe f).freeCount = s.freeCount := rfl
@[simp] theorem State.updMe_dbgReply (s : State) (f : Ctx → Ctx) : (s.updMe f).dbgReply = s.dbgReply := rfl
@[simp] theorem State.updMe_cluster (s : State) (f : Ctx → Ctx) (i : Nat) : (s.updMe f).cluster i = s.cluster i := rfl
@[simp] theorem State.updMe_eff (s : State) (f : Ctx → Ctx) (i : Nat) : (s.updMe f).eff i = s.eff i := rfl
@[simp] theorem State.updMe_task (s : State) (f : Ctx → Ctx) (i : Nat) : (s.updMe f).task i = s.task i := rfl

@[simp] theorem State.updMyCore_clusters (s : State) (f : CoreState → CoreState) : (s.updMyCore f).clusters = s.clusters := rfl
@[simp] theorem State.updMyCore_dies (s : State) (f : CoreState → CoreState) : (s.updMyCore f).dies = s.dies := rfl
@[simp] theorem State.updMyCore_phys (s : State) (f : CoreState → CoreState) : (s.updMyCore f).phys = s.phys := rfl
@[simp] theorem State.updMyCore_boot (s : State) (f : CoreState → CoreState) : (s.updMyCore f).boot = s.boot := rfl
@[simp] theorem State.updMyCore_host (s : State) (f : CoreState → CoreState) : (s.updMyCore f).host = s.host := rfl
@[simp] theorem State.updMyCore_fw (s : State) (f : CoreState → CoreState) : (s.updMyCore f).fw = s.fw := rfl
@[simp] theorem State.updMyCore_fab (s : State) (f : CoreState → CoreState) : (s.updMyCore f).fab = s.fab := rfl
@[simp] theorem State.updMyCore_master (s : State) (f : CoreState → CoreState) : (s.updMyCore f).master = s.master := rfl
@[simp] theorem State.updMyCore_agenda (s : State) (f : CoreState → CoreState) : (s.updMyCore f).agenda = s.agenda := rfl
@[simp] theorem State.updMyCore_inputs (s : State) (f : CoreState → CoreState) : (s.updMyCore f).inputs = s.inputs := rfl
@[simp] theorem State.updMyCore_abroad (s : State) (f : CoreState → CoreState) : (s.updMyCore f).abroad = s.abroad := rfl
@[simp] theorem State.updMyCore_cur (s : State) (f : CoreState → CoreState) : (s.updMyCore f).cur = s.cur := rfl
@[simp] theorem State.updMyCore_nextId (s : State) (f : CoreState → CoreState) : (s.updMyCore f).nextId = s.nextId := rfl
@[simp] theorem State.updMyCore_freeCount (s : State) (f : CoreState → CoreState) : (s.updMyCore f).freeCount = s.freeCount := rfl
@[simp] theorem State.updMyCore_dbgReply (s : State) (f : CoreState → CoreState) : (s.updMyCore f).dbgReply = s.dbgReply := rfl
@[simp] theorem State.updMyCore_cluster (s : State) (f : CoreState → CoreState) (i : Nat) : (s.updMyCore f).cluster i = s.cluster i := rfl
@[simp] theorem State.updMyCore_eff (s : State) (f : CoreState → CoreState) (i : Nat) : (s.updMyCore f).eff i = s.eff i := rfl
@[simp] theorem State.updMyCore_task (s : State) (f : CoreState → CoreState) (i : Nat) : (s.updMyCore f).task i = s.task i := rfl

@[simp] theorem State.updCluster_cores (s : State) (k : Nat) (f : ClusterState → ClusterState) : (s.updCluster k f).cores = s.cores := rfl
@[simp] theorem State.updCluster_dies (s : State) (k : Nat) (f : ClusterState → ClusterState) : (s.updCluster k f).dies = s.dies := rfl
@[simp] theorem State.updCluster_phys (s : State) (k : Nat) (f : ClusterState → ClusterState) : (s.updCluster k f).phys = s.phys := rfl
@[simp] theorem State.updCluster_boot (s : State) (k : Nat) (f : ClusterState → ClusterState) : (s.updCluster k f).boot = s.boot := rfl
@[simp] theorem State.updCluster_host (s : State) (k : Nat) (f : ClusterState → ClusterState) : (s.updCluster k f).host = s.host := rfl
@[simp] theorem State.updCluster_fw (s : State) (k : Nat) (f : ClusterState → ClusterState) : (s.updCluster k f).fw = s.fw := rfl
@[simp] theorem State.updCluster_fab (s : State) (k : Nat) (f : ClusterState → ClusterState) : (s.updCluster k f).fab = s.fab := rfl
@[simp] theorem State.updCluster_master (s : State) (k : Nat) (f : ClusterState → ClusterState) : (s.updCluster k f).master = s.master := rfl
@[simp] theorem State.updCluster_agenda (s : State) (k : Nat) (f : ClusterState → ClusterState) : (s.updCluster k f).agenda = s.agenda := rfl
@[simp] theorem State.updCluster_inputs (s : State) (k : Nat) (f : ClusterState → ClusterState) : (s.updCluster k f).inputs = s.inputs := rfl
@[simp] theorem State.updCluster_abroad (s : State) (k : Nat) (f : ClusterState → ClusterState) : (s.updCluster k f).abroad = s.abroad := rfl
@[simp] theorem State.updCluster_cur (s : State) (k : Nat) (f : ClusterState → ClusterState) : (s.updCluster k f).cur = s.cur := rfl
@[simp] theorem State.updCluster_nextId (s : State) (k : Nat) (f : ClusterState → ClusterState) : (s.updCluster k f).nextId = s.nextId := rfl
@[simp] theorem State.updCluster_freeCount (s : State) (k : Nat) (f : ClusterState → ClusterState) : (s.updCluster k f).freeCount = s.freeCount := rfl
@[simp] theorem State.updCluster_dbgReply (s : State) (k : Nat) (f : ClusterState → ClusterState) : (s.updCluster k f).dbgReply = s.dbgReply := rfl
@[simp] theorem State.updCluster_core (s : State) (k : Nat) (f : ClusterState → ClusterState) (i : Nat) : (s.updCluster k f).core i = s.core i := rfl
@[simp] theorem State.updCluster_me (s : State) (k : Nat) (f : ClusterState → ClusterState) : (s.updCluster k f).me = s.me := rfl
@[simp] theorem State.updCluster_myCore (s : State) (k : Nat) (f : ClusterState → ClusterState) : (s.updCluster k f).myCore = s.myCore := rfl
@[simp] theorem State.updCluster_task (s : State) (k : Nat) (f : ClusterState → ClusterState) (i : Nat) : (s.updCluster k f).task i = s.task i := rfl

@[simp] theorem State.updDie_cores (s : State) (d : Nat) (f : DieState → DieState) : (s.updDie d f).cores = s.cores := rfl
@[simp] theorem State.updDie_clusters (s : State) (d : Nat) (f : DieState → DieState) : (s.updDie d f).clusters = s.clusters := rfl
@[simp] theorem State.updDie_phys (s : State) (d : Nat) (f : DieState → DieState) : (s.updDie d f).phys = s.phys := rfl
@[simp] theorem State.updDie_boot (s : State) (d : Nat) (f : DieState → DieState) : (s.updDie d f).boot = s.boot := rfl
@[simp] theorem State.updDie_host (s : State) (d : Nat) (f : DieState → DieState) : (s.updDie d f).host = s.host := rfl
@[simp] theorem State.updDie_fw (s : State) (d : Nat) (f : DieState → DieState) : (s.updDie d f).fw = s.fw := rfl
@[simp] theorem State.updDie_fab (s : State) (d : Nat) (f : DieState → DieState) : (s.updDie d f).fab = s.fab := rfl
@[simp] theorem State.updDie_master (s : State) (d : Nat) (f : DieState → DieState) : (s.updDie d f).master = s.master := rfl
@[simp] theorem State.updDie_agenda (s : State) (d : Nat) (f : DieState → DieState) : (s.updDie d f).agenda = s.agenda := rfl
@[simp] theorem State.updDie_inputs (s : State) (d : Nat) (f : DieState → DieState) : (s.updDie d f).inputs = s.inputs := rfl
@[simp] theorem State.updDie_abroad (s : State) (d : Nat) (f : DieState → DieState) : (s.updDie d f).abroad = s.abroad := rfl
@[simp] theorem State.updDie_cur (s : State) (d : Nat) (f : DieState → DieState) : (s.updDie d f).cur = s.cur := rfl
@[simp] theorem State.updDie_nextId (s : State) (d : Nat) (f : DieState → DieState) : (s.updDie d f).nextId = s.nextId := rfl
@[simp] theorem State.updDie_freeCount (s : State) (d : Nat) (f : DieState → DieState) : (s.updDie d f).freeCount = s.freeCount := rfl
@[simp] theorem State.updDie_dbgReply (s : State) (d : Nat) (f : DieState → DieState) : (s.updDie d f).dbgReply = s.dbgReply := rfl
@[simp] theorem State.updDie_core (s : State) (d : Nat) (f : DieState → DieState) (i : Nat) : (s.updDie d f).core i = s.core i := rfl
@[simp] theorem State.updDie_me (s : State) (d : Nat) (f : DieState → DieState) : (s.updDie d f).me = s.me := rfl
@[simp] theorem State.updDie_myCore (s : State) (d : Nat) (f : DieState → DieState) : (s.updDie d f).myCore = s.myCore := rfl
@[simp] theorem State.updDie_cluster (s : State) (d : Nat) (f : DieState → DieState) (i : Nat) : (s.updDie d f).cluster i = s.cluster i := rfl
@[simp] theorem State.updDie_eff (s : State) (d : Nat) (f : DieState → DieState) (i : Nat) : (s.updDie d f).eff i = s.eff i := rfl
@[simp] theorem State.updDie_task (s : State) (d : Nat) (f : DieState → DieState) (i : Nat) : (s.updDie d f).task i = s.task i := rfl

@[simp] theorem State.updFw_cores (s : State) (f : Firmware → Firmware) : (s.updFw f).cores = s.cores := rfl
@[simp] theorem State.updFw_clusters (s : State) (f : Firmware → Firmware) : (s.updFw f).clusters = s.clusters := rfl
@[simp] theorem State.updFw_dies (s : State) (f : Firmware → Firmware) : (s.updFw f).dies = s.dies := rfl
@[simp] theorem State.updFw_phys (s : State) (f : Firmware → Firmware) : (s.updFw f).phys = s.phys := rfl
@[simp] theorem State.updFw_boot (s : State) (f : Firmware → Firmware) : (s.updFw f).boot = s.boot := rfl
@[simp] theorem State.updFw_host (s : State) (f : Firmware → Firmware) : (s.updFw f).host = s.host := rfl
@[simp] theorem State.updFw_fab (s : State) (f : Firmware → Firmware) : (s.updFw f).fab = s.fab := rfl
@[simp] theorem State.updFw_master (s : State) (f : Firmware → Firmware) : (s.updFw f).master = s.master := rfl
@[simp] theorem State.updFw_agenda (s : State) (f : Firmware → Firmware) : (s.updFw f).agenda = s.agenda := rfl
@[simp] theorem State.updFw_inputs (s : State) (f : Firmware → Firmware) : (s.updFw f).inputs = s.inputs := rfl
@[simp] theorem State.updFw_abroad (s : State) (f : Firmware → Firmware) : (s.updFw f).abroad = s.abroad := rfl
@[simp] theorem State.updFw_cur (s : State) (f : Firmware → Firmware) : (s.updFw f).cur = s.cur := rfl
@[simp] theorem State.updFw_nextId (s : State) (f : Firmware → Firmware) : (s.updFw f).nextId = s.nextId := rfl
@[simp] theorem State.updFw_freeCount (s : State) (f : Firmware → Firmware) : (s.updFw f).freeCount = s.freeCount := rfl
@[simp] theorem State.updFw_dbgReply (s : State) (f : Firmware → Firmware) : (s.updFw f).dbgReply = s.dbgReply := rfl
@[simp] theorem State.updFw_core (s : State) (f : Firmware → Firmware) (i : Nat) : (s.updFw f).core i = s.core i := rfl
@[simp] theorem State.updFw_me (s : State) (f : Firmware → Firmware) : (s.updFw f).me = s.me := rfl
@[simp] theorem State.updFw_myCore (s : State) (f : Firmware → Firmware) : (s.updFw f).myCore = s.myCore := rfl
@[simp] theorem State.updFw_cluster (s : State) (f : Firmware → Firmware) (i : Nat) : (s.updFw f).cluster i = s.cluster i := rfl
@[simp] theorem State.updFw_eff (s : State) (f : Firmware → Firmware) (i : Nat) : (s.updFw f).eff i = s.eff i := rfl

@[simp] theorem State.updTask_cores (s : State) (n : Nat) (f : Task → Task) : (s.updTask n f).cores = s.cores := rfl
@[simp] theorem State.updTask_clusters (s : State) (n : Nat) (f : Task → Task) : (s.updTask n f).clusters = s.clusters := rfl
@[simp] theorem State.updTask_dies (s : State) (n : Nat) (f : Task → Task) : (s.updTask n f).dies = s.dies := rfl
@[simp] theorem State.updTask_phys (s : State) (n : Nat) (f : Task → Task) : (s.updTask n f).phys = s.phys := rfl
@[simp] theorem State.updTask_boot (s : State) (n : Nat) (f : Task → Task) : (s.updTask n f).boot = s.boot := rfl
@[simp] theorem State.updTask_host (s : State) (n : Nat) (f : Task → Task) : (s.updTask n f).host = s.host := rfl
@[simp] theorem State.updTask_fab (s : State) (n : Nat) (f : Task → Task) : (s.updTask n f).fab = s.fab := rfl
@[simp] theorem State.updTask_master (s : State) (n : Nat) (f : Task → Task) : (s.updTask n f).master = s.master := rfl
@[simp] theorem State.updTask_agenda (s : State) (n : Nat) (f : Task → Task) : (s.updTask n f).agenda = s.agenda := rfl
@[simp] theorem State.updTask_inputs (s : State) (n : Nat) (f : Task → Task) : (s.updTask n f).inputs = s.inputs := rfl
@[simp] theorem State.updTask_abroad (s : State) (n : Nat) (f : Task → Task) : (s.updTask n f).abroad = s.abroad := rfl
@[simp] theorem State.updTask_cur (s : State) (n : Nat) (f : Task → Task) : (s.updTask n f).cur = s.cur := rfl
@[simp] theorem State.updTask_nextId (s : State) (n : Nat) (f : Task → Task) : (s.updTask n f).nextId = s.nextId := rfl
@[simp] theorem State.updTask_freeCount (s : State) (n : Nat) (f : Task → Task) : (s.updTask n f).freeCount = s.freeCount := rfl
@[simp] theorem State.updTask_dbgReply (s : State) (n : Nat) (f : Task → Task) : (s.updTask n f).dbgReply = s.dbgReply := rfl
@[simp] theorem State.updTask_core (s : State) (n : Nat) (f : Task → Task) (i : Nat) : (s.updTask n f).core i = s.core i := rfl
@[simp] theorem State.updTask_me (s : State) (n : Nat) (f : Task → Task) : (s.updTask n f).me = s.me := rfl
@[simp] theorem State.updTask_myCore (s : State) (n : Nat) (f : Task → Task) : (s.updTask n f).myCore = s.myCore := rfl
@[simp] theorem State.updTask_cluster (s : State) (n : Nat) (f : Task → Task) (i : Nat) : (s.updTask n f).cluster i = s.cluster i := rfl
@[simp] theorem State.updTask_eff (s : State) (n : Nat) (f : Task → Task) (i : Nat) : (s.updTask n f).eff i = s.eff i := rfl

@[simp] theorem State.report_cores (s : State) (r : FaultRec) : (s.report r).cores = s.cores := rfl
@[simp] theorem State.report_clusters (s : State) (r : FaultRec) : (s.report r).clusters = s.clusters := rfl
@[simp] theorem State.report_dies (s : State) (r : FaultRec) : (s.report r).dies = s.dies := rfl
@[simp] theorem State.report_phys (s : State) (r : FaultRec) : (s.report r).phys = s.phys := rfl
@[simp] theorem State.report_boot (s : State) (r : FaultRec) : (s.report r).boot = s.boot := rfl
@[simp] theorem State.report_host (s : State) (r : FaultRec) : (s.report r).host = s.host := rfl
@[simp] theorem State.report_fab (s : State) (r : FaultRec) : (s.report r).fab = s.fab := rfl
@[simp] theorem State.report_master (s : State) (r : FaultRec) : (s.report r).master = s.master := rfl
@[simp] theorem State.report_agenda (s : State) (r : FaultRec) : (s.report r).agenda = s.agenda := rfl
@[simp] theorem State.report_inputs (s : State) (r : FaultRec) : (s.report r).inputs = s.inputs := rfl
@[simp] theorem State.report_abroad (s : State) (r : FaultRec) : (s.report r).abroad = s.abroad := rfl
@[simp] theorem State.report_cur (s : State) (r : FaultRec) : (s.report r).cur = s.cur := rfl
@[simp] theorem State.report_nextId (s : State) (r : FaultRec) : (s.report r).nextId = s.nextId := rfl
@[simp] theorem State.report_freeCount (s : State) (r : FaultRec) : (s.report r).freeCount = s.freeCount := rfl
@[simp] theorem State.report_dbgReply (s : State) (r : FaultRec) : (s.report r).dbgReply = s.dbgReply := rfl
@[simp] theorem State.report_core (s : State) (r : FaultRec) (i : Nat) : (s.report r).core i = s.core i := rfl
@[simp] theorem State.report_me (s : State) (r : FaultRec) : (s.report r).me = s.me := rfl
@[simp] theorem State.report_myCore (s : State) (r : FaultRec) : (s.report r).myCore = s.myCore := rfl
@[simp] theorem State.report_cluster (s : State) (r : FaultRec) (i : Nat) : (s.report r).cluster i = s.cluster i := rfl
@[simp] theorem State.report_eff (s : State) (r : FaultRec) (i : Nat) : (s.report r).eff i = s.eff i := rfl

@[simp] theorem State.raiseIrq_cores (s : State) (v : Nat) : (s.raiseIrq v).cores = s.cores := rfl
@[simp] theorem State.raiseIrq_clusters (s : State) (v : Nat) : (s.raiseIrq v).clusters = s.clusters := rfl
@[simp] theorem State.raiseIrq_dies (s : State) (v : Nat) : (s.raiseIrq v).dies = s.dies := rfl
@[simp] theorem State.raiseIrq_phys (s : State) (v : Nat) : (s.raiseIrq v).phys = s.phys := rfl
@[simp] theorem State.raiseIrq_boot (s : State) (v : Nat) : (s.raiseIrq v).boot = s.boot := rfl
@[simp] theorem State.raiseIrq_fw (s : State) (v : Nat) : (s.raiseIrq v).fw = s.fw := rfl
@[simp] theorem State.raiseIrq_fab (s : State) (v : Nat) : (s.raiseIrq v).fab = s.fab := rfl
@[simp] theorem State.raiseIrq_master (s : State) (v : Nat) : (s.raiseIrq v).master = s.master := rfl
@[simp] theorem State.raiseIrq_agenda (s : State) (v : Nat) : (s.raiseIrq v).agenda = s.agenda := rfl
@[simp] theorem State.raiseIrq_inputs (s : State) (v : Nat) : (s.raiseIrq v).inputs = s.inputs := rfl
@[simp] theorem State.raiseIrq_abroad (s : State) (v : Nat) : (s.raiseIrq v).abroad = s.abroad := rfl
@[simp] theorem State.raiseIrq_cur (s : State) (v : Nat) : (s.raiseIrq v).cur = s.cur := rfl
@[simp] theorem State.raiseIrq_nextId (s : State) (v : Nat) : (s.raiseIrq v).nextId = s.nextId := rfl
@[simp] theorem State.raiseIrq_freeCount (s : State) (v : Nat) : (s.raiseIrq v).freeCount = s.freeCount := rfl
@[simp] theorem State.raiseIrq_dbgReply (s : State) (v : Nat) : (s.raiseIrq v).dbgReply = s.dbgReply := rfl
@[simp] theorem State.raiseIrq_core (s : State) (v : Nat) (i : Nat) : (s.raiseIrq v).core i = s.core i := rfl
@[simp] theorem State.raiseIrq_me (s : State) (v : Nat) : (s.raiseIrq v).me = s.me := rfl
@[simp] theorem State.raiseIrq_myCore (s : State) (v : Nat) : (s.raiseIrq v).myCore = s.myCore := rfl
@[simp] theorem State.raiseIrq_cluster (s : State) (v : Nat) (i : Nat) : (s.raiseIrq v).cluster i = s.cluster i := rfl
@[simp] theorem State.raiseIrq_eff (s : State) (v : Nat) (i : Nat) : (s.raiseIrq v).eff i = s.eff i := rfl
@[simp] theorem State.raiseIrq_task (s : State) (v : Nat) (i : Nat) : (s.raiseIrq v).task i = s.task i := rfl

/-! ### Fields an update of a context in its core leaves -/

@[simp] theorem CoreState.setCtx_spad (x : CoreState) (k : Nat) (y : Ctx) : (x.setCtx k y).spad = x.spad := rfl
@[simp] theorem CoreState.setCtx_spadPoison (x : CoreState) (k : Nat) (y : Ctx) : (x.setCtx k y).spadPoison = x.spadPoison := rfl
@[simp] theorem CoreState.setCtx_ispad (x : CoreState) (k : Nat) (y : Ctx) : (x.setCtx k y).ispad = x.ispad := rfl
@[simp] theorem CoreState.setCtx_tiles (x : CoreState) (k : Nat) (y : Ctx) : (x.setCtx k y).tiles = x.tiles := rfl
@[simp] theorem CoreState.setCtx_stripes (x : CoreState) (k : Nat) (y : Ctx) : (x.setCtx k y).stripes = x.stripes := rfl
@[simp] theorem CoreState.setCtx_accs (x : CoreState) (k : Nat) (y : Ctx) : (x.setCtx k y).accs = x.accs := rfl
@[simp] theorem CoreState.setCtx_shadow (x : CoreState) (k : Nat) (y : Ctx) : (x.setCtx k y).shadow = x.shadow := rfl
@[simp] theorem CoreState.setCtx_wbuf (x : CoreState) (k : Nat) (y : Ctx) : (x.setCtx k y).wbuf = x.wbuf := rfl
@[simp] theorem CoreState.setCtx_wloaded (x : CoreState) (k : Nat) (y : Ctx) : (x.setCtx k y).wloaded = x.wloaded := rfl
@[simp] theorem CoreState.setCtx_cmds (x : CoreState) (k : Nat) (y : Ctx) : (x.setCtx k y).cmds = x.cmds := rfl
@[simp] theorem CoreState.setCtx_abandon (x : CoreState) (k : Nat) (y : Ctx) : (x.setCtx k y).abandon = x.abandon := rfl
@[simp] theorem CoreState.setCtx_sched (x : CoreState) (k : Nat) (y : Ctx) : (x.setCtx k y).sched = x.sched := rfl
@[simp] theorem CoreState.setCtx_resid (x : CoreState) (k : Nat) (y : Ctx) : (x.setCtx k y).resid = x.resid := rfl
@[simp] theorem CoreState.setCtx_lend (x : CoreState) (k : Nat) (y : Ctx) : (x.setCtx k y).lend = x.lend := rfl
@[simp] theorem CoreState.setCtx_banks (x : CoreState) (k : Nat) (y : Ctx) : (x.setCtx k y).banks = x.banks := rfl
@[simp] theorem CoreState.setCtx_slot (x : CoreState) (k : Nat) (y : Ctx) : (x.setCtx k y).slot = x.slot := rfl
@[simp] theorem CoreState.setCtx_displaced (x : CoreState) (k : Nat) (y : Ctx) : (x.setCtx k y).displaced = x.displaced := rfl
@[simp] theorem CoreState.setCtx_issueBuf (x : CoreState) (k : Nat) (y : Ctx) : (x.setCtx k y).issueBuf = x.issueBuf := rfl
@[simp] theorem CoreState.setCtx_tlb (x : CoreState) (k : Nat) (y : Ctx) : (x.setCtx k y).tlb = x.tlb := rfl
@[simp] theorem CoreState.setCtx_copyLeft (x : CoreState) (k : Nat) (y : Ctx) : (x.setCtx k y).copyLeft = x.copyLeft := rfl
@[simp] theorem CoreState.setCtx_copyBud (x : CoreState) (k : Nat) (y : Ctx) : (x.setCtx k y).copyBud = x.copyBud := rfl
@[simp] theorem CoreState.setCtx_use (x : CoreState) (k : Nat) (y : Ctx) : (x.setCtx k y).use = x.use := rfl

/-! ### Fields an update of a context leaves -/

@[simp] theorem Ctx.pushS_run (c : Ctx) (x : SVal) : (c.pushS x).run = c.run := by
  unfold Ctx.pushS; split <;> rfl
@[simp] theorem Ctx.pushS_pc (c : Ctx) (x : SVal) : (c.pushS x).pc = c.pc := by
  unfold Ctx.pushS; split <;> rfl
@[simp] theorem Ctx.pushS_files (c : Ctx) (x : SVal) : (c.pushS x).files = c.files := by
  unfold Ctx.pushS; split <;> rfl
@[simp] theorem Ctx.pushS_sc (c : Ctx) (x : SVal) : (c.pushS x).sc = c.sc := by
  unfold Ctx.pushS; split <;> rfl
@[simp] theorem Ctx.pushS_t (c : Ctx) (x : SVal) : (c.pushS x).t = c.t := by
  unfold Ctx.pushS; split <;> rfl
@[simp] theorem Ctx.pushS_armed (c : Ctx) (x : SVal) : (c.pushS x).armed = c.armed := by
  unfold Ctx.pushS; split <;> rfl
@[simp] theorem Ctx.pushS_nx (c : Ctx) (x : SVal) : (c.pushS x).nx = c.nx := by
  unfold Ctx.pushS; split <;> rfl
@[simp] theorem Ctx.pushS_nxHead (c : Ctx) (x : SVal) : (c.pushS x).nxHead = c.nxHead := by
  unfold Ctx.pushS; split <;> rfl
@[simp] theorem Ctx.pushS_tok (c : Ctx) (x : SVal) : (c.pushS x).tok = c.tok := by
  unfold Ctx.pushS; split <;> rfl
@[simp] theorem Ctx.pushS_storeQ (c : Ctx) (x : SVal) : (c.pushS x).storeQ = c.storeQ := by
  unfold Ctx.pushS; split <;> rfl
@[simp] theorem Ctx.pushS_loadQ (c : Ctx) (x : SVal) : (c.pushS x).loadQ = c.loadQ := by
  unfold Ctx.pushS; split <;> rfl
@[simp] theorem Ctx.pushS_csr (c : Ctx) (x : SVal) : (c.pushS x).csr = c.csr := by
  unfold Ctx.pushS; split <;> rfl
@[simp] theorem Ctx.pushS_tr (c : Ctx) (x : SVal) : (c.pushS x).tr = c.tr := by
  unfold Ctx.pushS; split <;> rfl
@[simp] theorem Ctx.pushS_standing (c : Ctx) (x : SVal) : (c.pushS x).standing = c.standing := by
  unfold Ctx.pushS; split <;> rfl
@[simp] theorem Ctx.pushS_window (c : Ctx) (x : SVal) : (c.pushS x).window = c.window := by
  unfold Ctx.pushS; split <;> rfl
@[simp] theorem Ctx.pushS_pend (c : Ctx) (x : SVal) : (c.pushS x).pend = c.pend := by
  unfold Ctx.pushS; split <;> rfl
@[simp] theorem Ctx.pushS_notice (c : Ctx) (x : SVal) : (c.pushS x).notice = c.notice := by
  unfold Ctx.pushS; split <;> rfl
@[simp] theorem Ctx.pushS_denied (c : Ctx) (x : SVal) : (c.pushS x).denied = c.denied := by
  unfold Ctx.pushS; split <;> rfl
@[simp] theorem Ctx.pushS_deniedCycles (c : Ctx) (x : SVal) : (c.pushS x).deniedCycles = c.deniedCycles := by
  unfold Ctx.pushS; split <;> rfl
@[simp] theorem Ctx.pushS_scaled (c : Ctx) (x : SVal) : (c.pushS x).scaled = c.scaled := by
  unfold Ctx.pushS; split <;> rfl
@[simp] theorem Ctx.pushS_waits (c : Ctx) (x : SVal) : (c.pushS x).waits = c.waits := by
  unfold Ctx.pushS; split <;> rfl
@[simp] theorem Ctx.pushS_dbg (c : Ctx) (x : SVal) : (c.pushS x).dbg = c.dbg := by
  unfold Ctx.pushS; split <;> rfl
@[simp] theorem Ctx.pushS_task (c : Ctx) (x : SVal) : (c.pushS x).task = c.task := by
  unfold Ctx.pushS; split <;> rfl
@[simp] theorem Ctx.pushS_firstIssue (c : Ctx) (x : SVal) : (c.pushS x).firstIssue = c.firstIssue := by
  unfold Ctx.pushS; split <;> rfl

@[simp] theorem Ctx.pushV_run (c : Ctx) (x : VVal) : (c.pushV x).run = c.run := by
  unfold Ctx.pushV; split <;> rfl
@[simp] theorem Ctx.pushV_pc (c : Ctx) (x : VVal) : (c.pushV x).pc = c.pc := by
  unfold Ctx.pushV; split <;> rfl
@[simp] theorem Ctx.pushV_files (c : Ctx) (x : VVal) : (c.pushV x).files = c.files := by
  unfold Ctx.pushV; split <;> rfl
@[simp] theorem Ctx.pushV_sc (c : Ctx) (x : VVal) : (c.pushV x).sc = c.sc := by
  unfold Ctx.pushV; split <;> rfl
@[simp] theorem Ctx.pushV_t (c : Ctx) (x : VVal) : (c.pushV x).t = c.t := by
  unfold Ctx.pushV; split <;> rfl
@[simp] theorem Ctx.pushV_armed (c : Ctx) (x : VVal) : (c.pushV x).armed = c.armed := by
  unfold Ctx.pushV; split <;> rfl
@[simp] theorem Ctx.pushV_nx (c : Ctx) (x : VVal) : (c.pushV x).nx = c.nx := by
  unfold Ctx.pushV; split <;> rfl
@[simp] theorem Ctx.pushV_nxHead (c : Ctx) (x : VVal) : (c.pushV x).nxHead = c.nxHead := by
  unfold Ctx.pushV; split <;> rfl
@[simp] theorem Ctx.pushV_tok (c : Ctx) (x : VVal) : (c.pushV x).tok = c.tok := by
  unfold Ctx.pushV; split <;> rfl
@[simp] theorem Ctx.pushV_storeQ (c : Ctx) (x : VVal) : (c.pushV x).storeQ = c.storeQ := by
  unfold Ctx.pushV; split <;> rfl
@[simp] theorem Ctx.pushV_loadQ (c : Ctx) (x : VVal) : (c.pushV x).loadQ = c.loadQ := by
  unfold Ctx.pushV; split <;> rfl
@[simp] theorem Ctx.pushV_csr (c : Ctx) (x : VVal) : (c.pushV x).csr = c.csr := by
  unfold Ctx.pushV; split <;> rfl
@[simp] theorem Ctx.pushV_tr (c : Ctx) (x : VVal) : (c.pushV x).tr = c.tr := by
  unfold Ctx.pushV; split <;> rfl
@[simp] theorem Ctx.pushV_standing (c : Ctx) (x : VVal) : (c.pushV x).standing = c.standing := by
  unfold Ctx.pushV; split <;> rfl
@[simp] theorem Ctx.pushV_window (c : Ctx) (x : VVal) : (c.pushV x).window = c.window := by
  unfold Ctx.pushV; split <;> rfl
@[simp] theorem Ctx.pushV_pend (c : Ctx) (x : VVal) : (c.pushV x).pend = c.pend := by
  unfold Ctx.pushV; split <;> rfl
@[simp] theorem Ctx.pushV_notice (c : Ctx) (x : VVal) : (c.pushV x).notice = c.notice := by
  unfold Ctx.pushV; split <;> rfl
@[simp] theorem Ctx.pushV_denied (c : Ctx) (x : VVal) : (c.pushV x).denied = c.denied := by
  unfold Ctx.pushV; split <;> rfl
@[simp] theorem Ctx.pushV_deniedCycles (c : Ctx) (x : VVal) : (c.pushV x).deniedCycles = c.deniedCycles := by
  unfold Ctx.pushV; split <;> rfl
@[simp] theorem Ctx.pushV_scaled (c : Ctx) (x : VVal) : (c.pushV x).scaled = c.scaled := by
  unfold Ctx.pushV; split <;> rfl
@[simp] theorem Ctx.pushV_waits (c : Ctx) (x : VVal) : (c.pushV x).waits = c.waits := by
  unfold Ctx.pushV; split <;> rfl
@[simp] theorem Ctx.pushV_dbg (c : Ctx) (x : VVal) : (c.pushV x).dbg = c.dbg := by
  unfold Ctx.pushV; split <;> rfl
@[simp] theorem Ctx.pushV_task (c : Ctx) (x : VVal) : (c.pushV x).task = c.task := by
  unfold Ctx.pushV; split <;> rfl
@[simp] theorem Ctx.pushV_firstIssue (c : Ctx) (x : VVal) : (c.pushV x).firstIssue = c.firstIssue := by
  unfold Ctx.pushV; split <;> rfl

@[simp] theorem Ctx.writeS_run (c : Ctx) (d : DReg) (x : SVal) : (c.writeS d x).run = c.run := by cases d <;> rfl
@[simp] theorem Ctx.writeS_pc (c : Ctx) (d : DReg) (x : SVal) : (c.writeS d x).pc = c.pc := by cases d <;> rfl
@[simp] theorem Ctx.writeS_q (c : Ctx) (d : DReg) (x : SVal) : (c.writeS d x).q = c.q := by cases d <;> rfl
@[simp] theorem Ctx.writeS_sc (c : Ctx) (d : DReg) (x : SVal) : (c.writeS d x).sc = c.sc := by cases d <;> rfl
@[simp] theorem Ctx.writeS_t (c : Ctx) (d : DReg) (x : SVal) : (c.writeS d x).t = c.t := by cases d <;> rfl
@[simp] theorem Ctx.writeS_armed (c : Ctx) (d : DReg) (x : SVal) : (c.writeS d x).armed = c.armed := by cases d <;> rfl
@[simp] theorem Ctx.writeS_nx (c : Ctx) (d : DReg) (x : SVal) : (c.writeS d x).nx = c.nx := by cases d <;> rfl
@[simp] theorem Ctx.writeS_nxHead (c : Ctx) (d : DReg) (x : SVal) : (c.writeS d x).nxHead = c.nxHead := by cases d <;> rfl
@[simp] theorem Ctx.writeS_tok (c : Ctx) (d : DReg) (x : SVal) : (c.writeS d x).tok = c.tok := by cases d <;> rfl
@[simp] theorem Ctx.writeS_storeQ (c : Ctx) (d : DReg) (x : SVal) : (c.writeS d x).storeQ = c.storeQ := by cases d <;> rfl
@[simp] theorem Ctx.writeS_loadQ (c : Ctx) (d : DReg) (x : SVal) : (c.writeS d x).loadQ = c.loadQ := by cases d <;> rfl
@[simp] theorem Ctx.writeS_csr (c : Ctx) (d : DReg) (x : SVal) : (c.writeS d x).csr = c.csr := by cases d <;> rfl
@[simp] theorem Ctx.writeS_tr (c : Ctx) (d : DReg) (x : SVal) : (c.writeS d x).tr = c.tr := by cases d <;> rfl
@[simp] theorem Ctx.writeS_standing (c : Ctx) (d : DReg) (x : SVal) : (c.writeS d x).standing = c.standing := by cases d <;> rfl
@[simp] theorem Ctx.writeS_window (c : Ctx) (d : DReg) (x : SVal) : (c.writeS d x).window = c.window := by cases d <;> rfl
@[simp] theorem Ctx.writeS_pend (c : Ctx) (d : DReg) (x : SVal) : (c.writeS d x).pend = c.pend := by cases d <;> rfl
@[simp] theorem Ctx.writeS_notice (c : Ctx) (d : DReg) (x : SVal) : (c.writeS d x).notice = c.notice := by cases d <;> rfl
@[simp] theorem Ctx.writeS_denied (c : Ctx) (d : DReg) (x : SVal) : (c.writeS d x).denied = c.denied := by cases d <;> rfl
@[simp] theorem Ctx.writeS_deniedCycles (c : Ctx) (d : DReg) (x : SVal) : (c.writeS d x).deniedCycles = c.deniedCycles := by cases d <;> rfl
@[simp] theorem Ctx.writeS_scaled (c : Ctx) (d : DReg) (x : SVal) : (c.writeS d x).scaled = c.scaled := by cases d <;> rfl
@[simp] theorem Ctx.writeS_waits (c : Ctx) (d : DReg) (x : SVal) : (c.writeS d x).waits = c.waits := by cases d <;> rfl
@[simp] theorem Ctx.writeS_dbg (c : Ctx) (d : DReg) (x : SVal) : (c.writeS d x).dbg = c.dbg := by cases d <;> rfl
@[simp] theorem Ctx.writeS_task (c : Ctx) (d : DReg) (x : SVal) : (c.writeS d x).task = c.task := by cases d <;> rfl
@[simp] theorem Ctx.writeS_firstIssue (c : Ctx) (d : DReg) (x : SVal) : (c.writeS d x).firstIssue = c.firstIssue := by cases d <;> rfl

@[simp] theorem Ctx.writeV_run (c : Ctx) (d : DReg) (x : VVal) : (c.writeV d x).run = c.run := by cases d <;> rfl
@[simp] theorem Ctx.writeV_pc (c : Ctx) (d : DReg) (x : VVal) : (c.writeV d x).pc = c.pc := by cases d <;> rfl
@[simp] theorem Ctx.writeV_q (c : Ctx) (d : DReg) (x : VVal) : (c.writeV d x).q = c.q := by cases d <;> rfl
@[simp] theorem Ctx.writeV_sc (c : Ctx) (d : DReg) (x : VVal) : (c.writeV d x).sc = c.sc := by cases d <;> rfl
@[simp] theorem Ctx.writeV_t (c : Ctx) (d : DReg) (x : VVal) : (c.writeV d x).t = c.t := by cases d <;> rfl
@[simp] theorem Ctx.writeV_armed (c : Ctx) (d : DReg) (x : VVal) : (c.writeV d x).armed = c.armed := by cases d <;> rfl
@[simp] theorem Ctx.writeV_nx (c : Ctx) (d : DReg) (x : VVal) : (c.writeV d x).nx = c.nx := by cases d <;> rfl
@[simp] theorem Ctx.writeV_nxHead (c : Ctx) (d : DReg) (x : VVal) : (c.writeV d x).nxHead = c.nxHead := by cases d <;> rfl
@[simp] theorem Ctx.writeV_tok (c : Ctx) (d : DReg) (x : VVal) : (c.writeV d x).tok = c.tok := by cases d <;> rfl
@[simp] theorem Ctx.writeV_storeQ (c : Ctx) (d : DReg) (x : VVal) : (c.writeV d x).storeQ = c.storeQ := by cases d <;> rfl
@[simp] theorem Ctx.writeV_loadQ (c : Ctx) (d : DReg) (x : VVal) : (c.writeV d x).loadQ = c.loadQ := by cases d <;> rfl
@[simp] theorem Ctx.writeV_csr (c : Ctx) (d : DReg) (x : VVal) : (c.writeV d x).csr = c.csr := by cases d <;> rfl
@[simp] theorem Ctx.writeV_tr (c : Ctx) (d : DReg) (x : VVal) : (c.writeV d x).tr = c.tr := by cases d <;> rfl
@[simp] theorem Ctx.writeV_standing (c : Ctx) (d : DReg) (x : VVal) : (c.writeV d x).standing = c.standing := by cases d <;> rfl
@[simp] theorem Ctx.writeV_window (c : Ctx) (d : DReg) (x : VVal) : (c.writeV d x).window = c.window := by cases d <;> rfl
@[simp] theorem Ctx.writeV_pend (c : Ctx) (d : DReg) (x : VVal) : (c.writeV d x).pend = c.pend := by cases d <;> rfl
@[simp] theorem Ctx.writeV_notice (c : Ctx) (d : DReg) (x : VVal) : (c.writeV d x).notice = c.notice := by cases d <;> rfl
@[simp] theorem Ctx.writeV_denied (c : Ctx) (d : DReg) (x : VVal) : (c.writeV d x).denied = c.denied := by cases d <;> rfl
@[simp] theorem Ctx.writeV_deniedCycles (c : Ctx) (d : DReg) (x : VVal) : (c.writeV d x).deniedCycles = c.deniedCycles := by cases d <;> rfl
@[simp] theorem Ctx.writeV_scaled (c : Ctx) (d : DReg) (x : VVal) : (c.writeV d x).scaled = c.scaled := by cases d <;> rfl
@[simp] theorem Ctx.writeV_waits (c : Ctx) (d : DReg) (x : VVal) : (c.writeV d x).waits = c.waits := by cases d <;> rfl
@[simp] theorem Ctx.writeV_dbg (c : Ctx) (d : DReg) (x : VVal) : (c.writeV d x).dbg = c.dbg := by cases d <;> rfl
@[simp] theorem Ctx.writeV_task (c : Ctx) (d : DReg) (x : VVal) : (c.writeV d x).task = c.task := by cases d <;> rfl
@[simp] theorem Ctx.writeV_firstIssue (c : Ctx) (d : DReg) (x : VVal) : (c.writeV d x).firstIssue = c.firstIssue := by cases d <;> rfl

@[simp] theorem Ctx.writeP_run (c : Ctx) (p : Fin 16) (x : PMask) : (c.writeP p x).run = c.run := by
  unfold Ctx.writeP; split <;> rfl
@[simp] theorem Ctx.writeP_pc (c : Ctx) (p : Fin 16) (x : PMask) : (c.writeP p x).pc = c.pc := by
  unfold Ctx.writeP; split <;> rfl
@[simp] theorem Ctx.writeP_q (c : Ctx) (p : Fin 16) (x : PMask) : (c.writeP p x).q = c.q := by
  unfold Ctx.writeP; split <;> rfl
@[simp] theorem Ctx.writeP_sc (c : Ctx) (p : Fin 16) (x : PMask) : (c.writeP p x).sc = c.sc := by
  unfold Ctx.writeP; split <;> rfl
@[simp] theorem Ctx.writeP_t (c : Ctx) (p : Fin 16) (x : PMask) : (c.writeP p x).t = c.t := by
  unfold Ctx.writeP; split <;> rfl
@[simp] theorem Ctx.writeP_armed (c : Ctx) (p : Fin 16) (x : PMask) : (c.writeP p x).armed = c.armed := by
  unfold Ctx.writeP; split <;> rfl
@[simp] theorem Ctx.writeP_nx (c : Ctx) (p : Fin 16) (x : PMask) : (c.writeP p x).nx = c.nx := by
  unfold Ctx.writeP; split <;> rfl
@[simp] theorem Ctx.writeP_nxHead (c : Ctx) (p : Fin 16) (x : PMask) : (c.writeP p x).nxHead = c.nxHead := by
  unfold Ctx.writeP; split <;> rfl
@[simp] theorem Ctx.writeP_tok (c : Ctx) (p : Fin 16) (x : PMask) : (c.writeP p x).tok = c.tok := by
  unfold Ctx.writeP; split <;> rfl
@[simp] theorem Ctx.writeP_storeQ (c : Ctx) (p : Fin 16) (x : PMask) : (c.writeP p x).storeQ = c.storeQ := by
  unfold Ctx.writeP; split <;> rfl
@[simp] theorem Ctx.writeP_loadQ (c : Ctx) (p : Fin 16) (x : PMask) : (c.writeP p x).loadQ = c.loadQ := by
  unfold Ctx.writeP; split <;> rfl
@[simp] theorem Ctx.writeP_csr (c : Ctx) (p : Fin 16) (x : PMask) : (c.writeP p x).csr = c.csr := by
  unfold Ctx.writeP; split <;> rfl
@[simp] theorem Ctx.writeP_tr (c : Ctx) (p : Fin 16) (x : PMask) : (c.writeP p x).tr = c.tr := by
  unfold Ctx.writeP; split <;> rfl
@[simp] theorem Ctx.writeP_standing (c : Ctx) (p : Fin 16) (x : PMask) : (c.writeP p x).standing = c.standing := by
  unfold Ctx.writeP; split <;> rfl
@[simp] theorem Ctx.writeP_window (c : Ctx) (p : Fin 16) (x : PMask) : (c.writeP p x).window = c.window := by
  unfold Ctx.writeP; split <;> rfl
@[simp] theorem Ctx.writeP_pend (c : Ctx) (p : Fin 16) (x : PMask) : (c.writeP p x).pend = c.pend := by
  unfold Ctx.writeP; split <;> rfl
@[simp] theorem Ctx.writeP_notice (c : Ctx) (p : Fin 16) (x : PMask) : (c.writeP p x).notice = c.notice := by
  unfold Ctx.writeP; split <;> rfl
@[simp] theorem Ctx.writeP_denied (c : Ctx) (p : Fin 16) (x : PMask) : (c.writeP p x).denied = c.denied := by
  unfold Ctx.writeP; split <;> rfl
@[simp] theorem Ctx.writeP_deniedCycles (c : Ctx) (p : Fin 16) (x : PMask) : (c.writeP p x).deniedCycles = c.deniedCycles := by
  unfold Ctx.writeP; split <;> rfl
@[simp] theorem Ctx.writeP_scaled (c : Ctx) (p : Fin 16) (x : PMask) : (c.writeP p x).scaled = c.scaled := by
  unfold Ctx.writeP; split <;> rfl
@[simp] theorem Ctx.writeP_waits (c : Ctx) (p : Fin 16) (x : PMask) : (c.writeP p x).waits = c.waits := by
  unfold Ctx.writeP; split <;> rfl
@[simp] theorem Ctx.writeP_dbg (c : Ctx) (p : Fin 16) (x : PMask) : (c.writeP p x).dbg = c.dbg := by
  unfold Ctx.writeP; split <;> rfl
@[simp] theorem Ctx.writeP_task (c : Ctx) (p : Fin 16) (x : PMask) : (c.writeP p x).task = c.task := by
  unfold Ctx.writeP; split <;> rfl
@[simp] theorem Ctx.writeP_firstIssue (c : Ctx) (p : Fin 16) (x : PMask) : (c.writeP p x).firstIssue = c.firstIssue := by
  unfold Ctx.writeP; split <;> rfl

@[simp] theorem Ctx.writeM_run (c : Ctx) (p : Fin 16) (x : TMask) : (c.writeM p x).run = c.run := by
  unfold Ctx.writeM; split <;> rfl
@[simp] theorem Ctx.writeM_pc (c : Ctx) (p : Fin 16) (x : TMask) : (c.writeM p x).pc = c.pc := by
  unfold Ctx.writeM; split <;> rfl
@[simp] theorem Ctx.writeM_q (c : Ctx) (p : Fin 16) (x : TMask) : (c.writeM p x).q = c.q := by
  unfold Ctx.writeM; split <;> rfl
@[simp] theorem Ctx.writeM_sc (c : Ctx) (p : Fin 16) (x : TMask) : (c.writeM p x).sc = c.sc := by
  unfold Ctx.writeM; split <;> rfl
@[simp] theorem Ctx.writeM_t (c : Ctx) (p : Fin 16) (x : TMask) : (c.writeM p x).t = c.t := by
  unfold Ctx.writeM; split <;> rfl
@[simp] theorem Ctx.writeM_armed (c : Ctx) (p : Fin 16) (x : TMask) : (c.writeM p x).armed = c.armed := by
  unfold Ctx.writeM; split <;> rfl
@[simp] theorem Ctx.writeM_nx (c : Ctx) (p : Fin 16) (x : TMask) : (c.writeM p x).nx = c.nx := by
  unfold Ctx.writeM; split <;> rfl
@[simp] theorem Ctx.writeM_nxHead (c : Ctx) (p : Fin 16) (x : TMask) : (c.writeM p x).nxHead = c.nxHead := by
  unfold Ctx.writeM; split <;> rfl
@[simp] theorem Ctx.writeM_tok (c : Ctx) (p : Fin 16) (x : TMask) : (c.writeM p x).tok = c.tok := by
  unfold Ctx.writeM; split <;> rfl
@[simp] theorem Ctx.writeM_storeQ (c : Ctx) (p : Fin 16) (x : TMask) : (c.writeM p x).storeQ = c.storeQ := by
  unfold Ctx.writeM; split <;> rfl
@[simp] theorem Ctx.writeM_loadQ (c : Ctx) (p : Fin 16) (x : TMask) : (c.writeM p x).loadQ = c.loadQ := by
  unfold Ctx.writeM; split <;> rfl
@[simp] theorem Ctx.writeM_csr (c : Ctx) (p : Fin 16) (x : TMask) : (c.writeM p x).csr = c.csr := by
  unfold Ctx.writeM; split <;> rfl
@[simp] theorem Ctx.writeM_tr (c : Ctx) (p : Fin 16) (x : TMask) : (c.writeM p x).tr = c.tr := by
  unfold Ctx.writeM; split <;> rfl
@[simp] theorem Ctx.writeM_standing (c : Ctx) (p : Fin 16) (x : TMask) : (c.writeM p x).standing = c.standing := by
  unfold Ctx.writeM; split <;> rfl
@[simp] theorem Ctx.writeM_window (c : Ctx) (p : Fin 16) (x : TMask) : (c.writeM p x).window = c.window := by
  unfold Ctx.writeM; split <;> rfl
@[simp] theorem Ctx.writeM_pend (c : Ctx) (p : Fin 16) (x : TMask) : (c.writeM p x).pend = c.pend := by
  unfold Ctx.writeM; split <;> rfl
@[simp] theorem Ctx.writeM_notice (c : Ctx) (p : Fin 16) (x : TMask) : (c.writeM p x).notice = c.notice := by
  unfold Ctx.writeM; split <;> rfl
@[simp] theorem Ctx.writeM_denied (c : Ctx) (p : Fin 16) (x : TMask) : (c.writeM p x).denied = c.denied := by
  unfold Ctx.writeM; split <;> rfl
@[simp] theorem Ctx.writeM_deniedCycles (c : Ctx) (p : Fin 16) (x : TMask) : (c.writeM p x).deniedCycles = c.deniedCycles := by
  unfold Ctx.writeM; split <;> rfl
@[simp] theorem Ctx.writeM_scaled (c : Ctx) (p : Fin 16) (x : TMask) : (c.writeM p x).scaled = c.scaled := by
  unfold Ctx.writeM; split <;> rfl
@[simp] theorem Ctx.writeM_waits (c : Ctx) (p : Fin 16) (x : TMask) : (c.writeM p x).waits = c.waits := by
  unfold Ctx.writeM; split <;> rfl
@[simp] theorem Ctx.writeM_dbg (c : Ctx) (p : Fin 16) (x : TMask) : (c.writeM p x).dbg = c.dbg := by
  unfold Ctx.writeM; split <;> rfl
@[simp] theorem Ctx.writeM_task (c : Ctx) (p : Fin 16) (x : TMask) : (c.writeM p x).task = c.task := by
  unfold Ctx.writeM; split <;> rfl
@[simp] theorem Ctx.writeM_firstIssue (c : Ctx) (p : Fin 16) (x : TMask) : (c.writeM p x).firstIssue = c.firstIssue := by
  unfold Ctx.writeM; split <;> rfl

@[simp] theorem Ctx.resultS_run (c : Ctx) (w : Bool) (d : DReg) (x : SVal) : (c.resultS w d x).run = c.run := by
  unfold Ctx.resultS; split <;> simp
@[simp] theorem Ctx.resultS_pc (c : Ctx) (w : Bool) (d : DReg) (x : SVal) : (c.resultS w d x).pc = c.pc := by
  unfold Ctx.resultS; split <;> simp
@[simp] theorem Ctx.resultS_sc (c : Ctx) (w : Bool) (d : DReg) (x : SVal) : (c.resultS w d x).sc = c.sc := by
  unfold Ctx.resultS; split <;> simp
@[simp] theorem Ctx.resultS_t (c : Ctx) (w : Bool) (d : DReg) (x : SVal) : (c.resultS w d x).t = c.t := by
  unfold Ctx.resultS; split <;> simp
@[simp] theorem Ctx.resultS_armed (c : Ctx) (w : Bool) (d : DReg) (x : SVal) : (c.resultS w d x).armed = c.armed := by
  unfold Ctx.resultS; split <;> simp
@[simp] theorem Ctx.resultS_nx (c : Ctx) (w : Bool) (d : DReg) (x : SVal) : (c.resultS w d x).nx = c.nx := by
  unfold Ctx.resultS; split <;> simp
@[simp] theorem Ctx.resultS_nxHead (c : Ctx) (w : Bool) (d : DReg) (x : SVal) : (c.resultS w d x).nxHead = c.nxHead := by
  unfold Ctx.resultS; split <;> simp
@[simp] theorem Ctx.resultS_tok (c : Ctx) (w : Bool) (d : DReg) (x : SVal) : (c.resultS w d x).tok = c.tok := by
  unfold Ctx.resultS; split <;> simp
@[simp] theorem Ctx.resultS_storeQ (c : Ctx) (w : Bool) (d : DReg) (x : SVal) : (c.resultS w d x).storeQ = c.storeQ := by
  unfold Ctx.resultS; split <;> simp
@[simp] theorem Ctx.resultS_loadQ (c : Ctx) (w : Bool) (d : DReg) (x : SVal) : (c.resultS w d x).loadQ = c.loadQ := by
  unfold Ctx.resultS; split <;> simp
@[simp] theorem Ctx.resultS_csr (c : Ctx) (w : Bool) (d : DReg) (x : SVal) : (c.resultS w d x).csr = c.csr := by
  unfold Ctx.resultS; split <;> simp
@[simp] theorem Ctx.resultS_tr (c : Ctx) (w : Bool) (d : DReg) (x : SVal) : (c.resultS w d x).tr = c.tr := by
  unfold Ctx.resultS; split <;> simp
@[simp] theorem Ctx.resultS_standing (c : Ctx) (w : Bool) (d : DReg) (x : SVal) : (c.resultS w d x).standing = c.standing := by
  unfold Ctx.resultS; split <;> simp
@[simp] theorem Ctx.resultS_window (c : Ctx) (w : Bool) (d : DReg) (x : SVal) : (c.resultS w d x).window = c.window := by
  unfold Ctx.resultS; split <;> simp
@[simp] theorem Ctx.resultS_pend (c : Ctx) (w : Bool) (d : DReg) (x : SVal) : (c.resultS w d x).pend = c.pend := by
  unfold Ctx.resultS; split <;> simp
@[simp] theorem Ctx.resultS_notice (c : Ctx) (w : Bool) (d : DReg) (x : SVal) : (c.resultS w d x).notice = c.notice := by
  unfold Ctx.resultS; split <;> simp
@[simp] theorem Ctx.resultS_denied (c : Ctx) (w : Bool) (d : DReg) (x : SVal) : (c.resultS w d x).denied = c.denied := by
  unfold Ctx.resultS; split <;> simp
@[simp] theorem Ctx.resultS_deniedCycles (c : Ctx) (w : Bool) (d : DReg) (x : SVal) : (c.resultS w d x).deniedCycles = c.deniedCycles := by
  unfold Ctx.resultS; split <;> simp
@[simp] theorem Ctx.resultS_scaled (c : Ctx) (w : Bool) (d : DReg) (x : SVal) : (c.resultS w d x).scaled = c.scaled := by
  unfold Ctx.resultS; split <;> simp
@[simp] theorem Ctx.resultS_waits (c : Ctx) (w : Bool) (d : DReg) (x : SVal) : (c.resultS w d x).waits = c.waits := by
  unfold Ctx.resultS; split <;> simp
@[simp] theorem Ctx.resultS_dbg (c : Ctx) (w : Bool) (d : DReg) (x : SVal) : (c.resultS w d x).dbg = c.dbg := by
  unfold Ctx.resultS; split <;> simp
@[simp] theorem Ctx.resultS_task (c : Ctx) (w : Bool) (d : DReg) (x : SVal) : (c.resultS w d x).task = c.task := by
  unfold Ctx.resultS; split <;> simp
@[simp] theorem Ctx.resultS_firstIssue (c : Ctx) (w : Bool) (d : DReg) (x : SVal) : (c.resultS w d x).firstIssue = c.firstIssue := by
  unfold Ctx.resultS; split <;> simp

@[simp] theorem Ctx.resultV_run (c : Ctx) (w : Bool) (d : DReg) (x : VVal) : (c.resultV w d x).run = c.run := by
  unfold Ctx.resultV; split <;> simp
@[simp] theorem Ctx.resultV_pc (c : Ctx) (w : Bool) (d : DReg) (x : VVal) : (c.resultV w d x).pc = c.pc := by
  unfold Ctx.resultV; split <;> simp
@[simp] theorem Ctx.resultV_sc (c : Ctx) (w : Bool) (d : DReg) (x : VVal) : (c.resultV w d x).sc = c.sc := by
  unfold Ctx.resultV; split <;> simp
@[simp] theorem Ctx.resultV_t (c : Ctx) (w : Bool) (d : DReg) (x : VVal) : (c.resultV w d x).t = c.t := by
  unfold Ctx.resultV; split <;> simp
@[simp] theorem Ctx.resultV_armed (c : Ctx) (w : Bool) (d : DReg) (x : VVal) : (c.resultV w d x).armed = c.armed := by
  unfold Ctx.resultV; split <;> simp
@[simp] theorem Ctx.resultV_nx (c : Ctx) (w : Bool) (d : DReg) (x : VVal) : (c.resultV w d x).nx = c.nx := by
  unfold Ctx.resultV; split <;> simp
@[simp] theorem Ctx.resultV_nxHead (c : Ctx) (w : Bool) (d : DReg) (x : VVal) : (c.resultV w d x).nxHead = c.nxHead := by
  unfold Ctx.resultV; split <;> simp
@[simp] theorem Ctx.resultV_tok (c : Ctx) (w : Bool) (d : DReg) (x : VVal) : (c.resultV w d x).tok = c.tok := by
  unfold Ctx.resultV; split <;> simp
@[simp] theorem Ctx.resultV_storeQ (c : Ctx) (w : Bool) (d : DReg) (x : VVal) : (c.resultV w d x).storeQ = c.storeQ := by
  unfold Ctx.resultV; split <;> simp
@[simp] theorem Ctx.resultV_loadQ (c : Ctx) (w : Bool) (d : DReg) (x : VVal) : (c.resultV w d x).loadQ = c.loadQ := by
  unfold Ctx.resultV; split <;> simp
@[simp] theorem Ctx.resultV_csr (c : Ctx) (w : Bool) (d : DReg) (x : VVal) : (c.resultV w d x).csr = c.csr := by
  unfold Ctx.resultV; split <;> simp
@[simp] theorem Ctx.resultV_tr (c : Ctx) (w : Bool) (d : DReg) (x : VVal) : (c.resultV w d x).tr = c.tr := by
  unfold Ctx.resultV; split <;> simp
@[simp] theorem Ctx.resultV_standing (c : Ctx) (w : Bool) (d : DReg) (x : VVal) : (c.resultV w d x).standing = c.standing := by
  unfold Ctx.resultV; split <;> simp
@[simp] theorem Ctx.resultV_window (c : Ctx) (w : Bool) (d : DReg) (x : VVal) : (c.resultV w d x).window = c.window := by
  unfold Ctx.resultV; split <;> simp
@[simp] theorem Ctx.resultV_pend (c : Ctx) (w : Bool) (d : DReg) (x : VVal) : (c.resultV w d x).pend = c.pend := by
  unfold Ctx.resultV; split <;> simp
@[simp] theorem Ctx.resultV_notice (c : Ctx) (w : Bool) (d : DReg) (x : VVal) : (c.resultV w d x).notice = c.notice := by
  unfold Ctx.resultV; split <;> simp
@[simp] theorem Ctx.resultV_denied (c : Ctx) (w : Bool) (d : DReg) (x : VVal) : (c.resultV w d x).denied = c.denied := by
  unfold Ctx.resultV; split <;> simp
@[simp] theorem Ctx.resultV_deniedCycles (c : Ctx) (w : Bool) (d : DReg) (x : VVal) : (c.resultV w d x).deniedCycles = c.deniedCycles := by
  unfold Ctx.resultV; split <;> simp
@[simp] theorem Ctx.resultV_scaled (c : Ctx) (w : Bool) (d : DReg) (x : VVal) : (c.resultV w d x).scaled = c.scaled := by
  unfold Ctx.resultV; split <;> simp
@[simp] theorem Ctx.resultV_waits (c : Ctx) (w : Bool) (d : DReg) (x : VVal) : (c.resultV w d x).waits = c.waits := by
  unfold Ctx.resultV; split <;> simp
@[simp] theorem Ctx.resultV_dbg (c : Ctx) (w : Bool) (d : DReg) (x : VVal) : (c.resultV w d x).dbg = c.dbg := by
  unfold Ctx.resultV; split <;> simp
@[simp] theorem Ctx.resultV_task (c : Ctx) (w : Bool) (d : DReg) (x : VVal) : (c.resultV w d x).task = c.task := by
  unfold Ctx.resultV; split <;> simp
@[simp] theorem Ctx.resultV_firstIssue (c : Ctx) (w : Bool) (d : DReg) (x : VVal) : (c.resultV w d x).firstIssue = c.firstIssue := by
  unfold Ctx.resultV; split <;> simp

end Sys2Proof.Machine
end

