-- ==== Sys2Proof/Laws/Issue.lean ====
section
/-! SUPPORT. What the issue of an op that stands alone can do: the bundle laid out, the decision, and the state after
retirement. -/

namespace Sys2Proof.Machine

/-! ### Laying out one op -/

/-- An op word that is neither a pair word nor a route word, and replays nothing. -/
def Instr.plain (i : Instr) : Prop :=
  opsOf (encodeWord i) i = [i] ∧ (∀ w, i ≠ .illegalEncoding w) ∧ (∀ f, i ≠ .cstage f)

/-- The same as a Boolean. -/
def Instr.isPlain (i : Instr) : Bool :=
  match i with
  | .pair _ | .illegalEncoding _ | .cstage _ => false
  | _ => true

theorem plain_of {i : Instr} (h : Instr.isPlain i = true) : Instr.plain i := by
  refine ⟨?_, ?_, ?_⟩
  · cases i <;> first | rfl | cases h
  · rintro w rfl; cases h
  · rintro f rfl; cases h

theorem layout_lone (s : State) (i : Instr) (h : Instr.plain i) :
    layout (pcPlus s.me.pc (wordsOf i)) 0 [⟨s.me.pc, encodeWord i, i⟩] = ([s.lone i], []) := by
  obtain ⟨h1, h2, _⟩ := h
  unfold layout
  have hs : (match i with | .illegalEncoding w => isRoute w | _ => false) = false := by
    cases i <;> first | rfl | exact absurd rfl (h2 _)
  simp only [h1, layout]
  rfl

theorem expand_lone (s : State) (i : Instr) (h : Instr.plain i) : s.expand [s.lone i] = [s.lone i] := by
  obtain ⟨_, _, h3⟩ := h
  cases i <;> first | rfl | exact absurd rfl (h3 _)

/-- The random word of a lone op and the generator after it (R49). -/
def Sem.draw (m : Sem) (s : State) : Word × Word :=
  match m.pops s with
  | .no => (0, s.me.csr.rngseed)
  | _ => rngPop s.me.csr.rngseed

theorem lay_lone (s : State) (i : Instr) (m : Sem) (h : Instr.plain i) :
    s.lay (fun _ => m) (s.single i) =
      ⟨[s.lone i], [], [(s.lone i (m.draw s).1, m)], (m.draw s).2⟩ := by
  unfold State.lay State.single
  simp only [layout_lone s i h, expand_lone s i h, List.map_cons, List.map_nil]
  unfold Sem.draw
  cases hp : m.pops s <;> simp [rngPlan, hp] <;> rfl

/-! ### Rows 1 to 9 of one op -/

theorem farCount_le (i : Instr) : farCount i ≤ 4 := by
  have h : (srcs i).length ≤ 4 := by
    cases i <;> simp only [srcs] <;> (try split) <;> simp
  exact le_trans (List.length_filter_le _ _) h

theorem classUnits_pos (k : UClass) : 0 < classUnits k := by cases k <;> decide

theorem rows15_lone (s : State) (i : Instr) (h : Instr.plain i) (hw : WellFormed i) (hc : s.row2Ctx i = false) :
    s.rows15 none [s.lone i] [] [] = none := by
  obtain ⟨h1, h2, _⟩ := h
  have ho : opsOf 0 i = [i] := by
    cases i <;> first | rfl | (simp [opsOf] at h1)
  unfold WellFormed fieldReject at hw
  simp only [ho, List.any_cons, List.any_nil, Bool.or_false] at hw
  have r1 : row1Op i = false := by
    cases hh : row1Op i
    · rfl
    · simp [hh] at hw
  have r2 : row2Op i = false := by
    cases hh : row2Op i
    · rfl
    · simp [r1, hh] at hw
  have r3 : row3Op i = false := by
    cases hh : row3Op i
    · rfl
    · simp [r1, r2, hh] at hw
  have hu : unitOver [] [s.lone i] = none := by
    unfold unitOver State.lone
    cases hk : classOf i with
    | none => simp [unitOver]
    | some k => simp [unitOver, Nat.pos_iff_ne_zero.mp (classUnits_pos k)]
  have hf : farOver 0 [s.lone i] = none := by
    have := farCount_le i
    unfold farOver State.lone
    simp [farOver, Nat.not_lt.mpr this]
  simp [State.rows15, failing, failingReplays, lowest, State.lone, r1, r2, r3, hc] at *
  simp [hu, hf]

theorem row6_lone (s : State) (i : Instr) (r : Word) (h : ∀ x ∈ srcs i, s.me.srcFail x = none) :
    s.row6 (s.lone i r) = none := by
  unfold State.row6
  rw [List.findSome?_eq_none_iff]
  intro x hx
  have : x ∈ srcs i := by
    simp only [row6Order, List.mem_append, List.mem_flatMap, List.mem_filter, State.lone] at hx
    obtain ⟨_, _, hx⟩ | hx := hx <;> exact hx.1
  rw [h x this]

theorem declared_lone (s : State) (i : Instr) : declared [s.lone i] = weightOf i := by
  simp [declared, State.lone]

theorem rows89_lone (s : State) (i : Instr)
    (h : s.me.tr.hm = true ∨
      (weightOf i + standSum s.me.standing ≤ s.me.csr.weira ∧
       weightOf i + standSum s.me.standing + (s.me.window.take 7).sum ≤ s.me.csr.weirw)) :
    s.me.rows89 [s.lone i] = none := by
  unfold Ctx.rows89
  rw [declared_lone]
  rcases h with h | h
  · simp [h]
  · have h1 : ¬ s.me.csr.weira < weightOf i + standSum s.me.standing := by omega
    have h2 : ¬ s.me.csr.weirw < weightOf i + standSum s.me.standing := by omega
    simp [h1, h2]

theorem windowFull_lone (s : State) (i : Instr)
    (h : s.me.tr.hm = true ∨
      (weightOf i + standSum s.me.standing ≤ s.me.csr.weira ∧
       weightOf i + standSum s.me.standing + (s.me.window.take 7).sum ≤ s.me.csr.weirw)) :
    s.me.windowFull (declared [s.lone i] + standSum s.me.standing) = false := by
  rw [declared_lone]
  unfold Ctx.windowFull
  rcases h with h | h
  · simp [h]
  · simp only [Bool.and_eq_false_iff, decide_eq_false_iff_not]
    right; omega

theorem denies_lone (c : Ctx) (ni : Nat) (h : c.csr.issueLeft ≠ 0 ∨ (c.tr.hm = true ∧ c.tr.res ≠ 0))
    (hn : c.csr.niLeft = 0xFFFF ∨ ni ≤ c.csr.niLeft) : c.denies ni = none := by
  have h1 : (c.csr.issueLeft == 0 && (!c.tr.hm || c.tr.res == 0)) = false := by
    rcases h with h | ⟨h, h'⟩
    · simp [h]
    · simp [h, h']
  have h2 : (c.csr.niLeft != 0xFFFF && decide (c.csr.niLeft < ni)) = false := by
    rcases hn with h | h
    · simp [h]
    · simp [Nat.not_lt.mpr h]
  simp [Ctx.denies, h1, h2]

/-! ### The decision -/

/-- An op that stands alone waits on no op before it. -/
theorem orderWaits_lone (L : Live) (a : At) (o : Out) : orderWaits L [] [(a, o)] = false := by
  unfold orderWaits tokenHolds
  simp
  refine ⟨?_, ?_⟩ <;> split <;> simp

/-- A bundle of one op replays no entry. -/
theorem replays_lone (s : State) (i : Instr) (m : Sem) (w : Word) :
    (⟨[s.lone i], [], [(s.lone i (m.draw s).1, m)], w⟩ : Laid).replays = [] := rfl

/-- What an op asks for itself besides `State.Ready`: its tags pass, no slot makes it wait or fails, it does not wait, its
NI requests are in the budget, its tokens are free, its execution traps and waits on nothing, and its accesses need no bank in
two rows. -/
structure State.Passes (s : State) (i : Instr) (m : Sem) (o : Out) : Prop where
  tags : m.tags s = none
  slotWaits : (m.slots s).any s.slotWaits = false
  slotFail : ∀ u ∈ m.slots s, s.slotFail (s.lone i (m.draw s).1) u = none
  stall : m.stall s (s.lone i (m.draw s).1) = false
  waits : m.waits s (s.lone i (m.draw s).1) = false := by rfl
  ni : s.me.csr.niLeft = 0xFFFF ∨ m.ni s ≤ s.me.csr.niLeft
  tokenWaits : tokenWaits s.me [s.lone i (m.draw s).1] = false
  engine : engineFault s.me [] [s.lone i (m.draw s).1] = none
  reuse : tokenReuse s.me [] [s.lone i (m.draw s).1] = none
  run : m.run s (s.lone i (m.draw s).1) = o
  trap : o.trap = none
  mem : s.memTrap [(s.lone i (m.draw s).1, o)] = none
  flags : s.me.tr.hm = true ∨ flagTrap s.me.csr.fpctl [(0, o.flags)] = none
  acc : s.accWaits [(s.lone i (m.draw s).1, o)] = false
  banks : s.extraCycles [(s.lone i (m.draw s).1, o)] = 0

theorem judge_lone (s : State) (i : Instr) (m : Sem) (o : Out) (h : Instr.plain i) (hr : s.Ready i) (hp : s.Passes i m o) :
    s.judge (s.lay (fun _ => m) (s.single i)) none = .issue := by
  obtain ⟨-, hw, hc, hop, hwt, hib, hed, -, -⟩ := hr
  have hx : s.execTrap [s.lone i (m.draw s).1] [(s.lone i (m.draw s).1, o)] = none := by
    unfold State.execTrap
    rw [hp.reuse]
    simp only [List.findSome?_cons, hp.trap, Option.map_none, List.findSome?_nil, hp.mem, List.map_cons, List.map_nil]
    rcases hp.flags with hf | hf
    · simp [hf]
    · rw [show (s.lone i (m.draw s).1).slot = 0 from rfl, hf]; simp
  have h7 : s.row7 (s.lone i (m.draw s).1) m = none := by
    unfold State.row7
    rw [hp.tags]
    simp only
    rw [List.findSome?_eq_none_iff]
    exact hp.slotFail
  have how : opWaits s 0 [(s.lone i (m.draw s).1, m)] = none := by simp [opWaits, hp.waits]
  rw [lay_lone s i m h]
  unfold State.judge
  simp only [replays_lone, rows15_lone s i h hw hc, orderWaits_lone, List.findSome?_cons, List.findSome?_nil, row6_lone s i _ hop, List.any_cons,
    List.any_nil, hp.slotWaits, Bool.or_false, h7, rows89_lone s i hwt, windowFull_lone s i hwt, List.map_cons, List.map_nil,
    List.sum_cons, List.sum_nil, Nat.add_zero, denies_lone s.me _ hib hp.ni, hed, hp.tokenWaits, hp.stall, how, hp.engine, State.outs,
    hp.run, hx, hp.acc, if_false, Bool.false_eq_true]

/-! ### Retirement -/

/-- The state of a lone op before its effect. -/
def State.opened (s : State) (m : Sem) : State := s.updMe (·.begin (m.draw s).2)

/-- What the retirement of a lone op adds to its effect. -/
def State.closed (s : State) (i : Instr) (m : Sem) (o : Out) (L : Live) : State :=
  let w := weightOf i + standSum s.me.standing
  let s1 := (L.s.updMe (fun c => { c with standing := standStep (s.lone i (m.draw s).1) c.standing })).updMe
    (fun c => c.after s.me.tr.hm (L.next.getD (pcPlus s.me.pc (wordsOf i))) (orFlags [(0, orFlags o.flags)]) (m.ni s) w)
  let s2 := s1.updMyCore (fun x =>
    let u := x.useNow (s.eff s.cur.core)
    { x with use := { u with units := u.units ++ unitsOf [s.lone i],
                             weight := u.weight + (if isEddy s.cur.ctx then weightOf i else w),
                             owner := u.owner || !isEddy s.cur.ctx,
                             stood := if isEddy s.cur.ctx then (s.cur.ctx, standSum s.me.standing) :: u.stood else u.stood } })
  s2.updCluster (clusterOf s.cur.core) (fun k => { k with charge := k.charge + m.charge s, issuedNow := true })

theorem landNx_calm (s : State) (c k : Nat) (h : ∀ e ∈ (s.ctx c k).nx, e.due ≠ 1) : s.landNx c k = s := by
  unfold State.landNx
  have : (s.ctx c k).nx.any (fun e => e.due == 1) = false := by
    rw [List.any_eq_false]; intro e he; simpa using h e he
  simp [this]

theorem begin_nx_calm (c : Ctx) (seed : Word) (h : ∀ e ∈ c.nx, e.due = 0 ∨ 2 < e.due) :
    ∀ e ∈ (c.begin seed).nx, e.due ≠ 1 := by
  intro e he
  unfold Ctx.begin at he
  by_cases hm : c.tr.hm = true
  · simp only [hm, if_true] at he
    rcases h e he with h | h <;> omega
  · simp only [hm, if_false, Bool.false_eq_true, Ctx.countNx, List.mem_map] at he
    obtain ⟨x, hx, rfl⟩ := he
    rcases h x hx with h | h
    · simp [h]
    · rw [if_neg (by omega)]; simp only; omega

theorem opened_ctx (s : State) (m : Sem) :
    (s.opened m).ctx s.cur.core s.cur.ctx = s.me.begin (m.draw s).2 :=
  State.ctx_updCtx _ _ _ _

theorem opened_landNx (s : State) (m : Sem) (h : ∀ e ∈ s.me.nx, e.due = 0 ∨ 2 < e.due) :
    (s.opened m).landNx s.cur.core s.cur.ctx = s.opened m :=
  landNx_calm _ _ _ (by rw [opened_ctx]; exact begin_nx_calm _ _ h)

theorem issueOne_next (s : State) (i : Instr) (m : Sem) (o : Out) (h : Instr.plain i) (hr : s.Ready i) (hp : s.Passes i m o) :
    issueOne m i s = .next ((s.closed i m o (o.eff { s := s.opened m })).leaveBuf) := by
  have hj := judge_lone s i m o h hr hp
  obtain ⟨ha, -, -, -, -, -, -, hnx, -⟩ := hr
  have hl := opened_landNx s m hnx
  unfold issueOne
  rw [if_neg (Nat.not_le.mpr ha)]
  unfold State.issue State.issueLaid
  rw [show (s.single i).long = none from rfl, hj]
  simp only
  refine congrArg (fun t => Host.Outcome.next (State.leaveBuf t)) ?_
  rw [lay_lone s i m h]
  unfold State.retire State.closed
  simp only [State.outs, List.map_cons, List.map_nil, hp.run, declared_lone, List.sum_cons, List.sum_nil, Nat.add_zero]
  rw [show s.updMe (fun x => x.begin (m.draw s).2) = s.opened m from rfl, hl]
  simp only [effects, List.foldl_cons, List.foldl_nil, hp.banks, if_true]
  rfl
end Sys2Proof.Machine
end

