-- ==== Sys2Proof/Laws/Retire.lean ====
section
/-! SUPPORT. The context and the rest of the package after the retirement of an op that changes its own context only. -/

namespace Sys2Proof.Machine

/-! ### The opening of a retirement -/

@[simp] theorem Ctx.begin_run (c : Ctx) (w : Word) : (c.begin w).run = c.run := by unfold Ctx.begin; split <;> rfl
@[simp] theorem Ctx.begin_pc (c : Ctx) (w : Word) : (c.begin w).pc = c.pc := by unfold Ctx.begin; split <;> rfl
@[simp] theorem Ctx.begin_files (c : Ctx) (w : Word) : (c.begin w).files = c.files := by unfold Ctx.begin; split <;> rfl
@[simp] theorem Ctx.begin_q (c : Ctx) (w : Word) : (c.begin w).q = c.q := by unfold Ctx.begin; split <;> rfl
@[simp] theorem Ctx.begin_sc (c : Ctx) (w : Word) : (c.begin w).sc = c.sc := by unfold Ctx.begin; split <;> rfl
@[simp] theorem Ctx.begin_t (c : Ctx) (w : Word) : (c.begin w).t = c.t := by unfold Ctx.begin; split <;> rfl
@[simp] theorem Ctx.begin_armed (c : Ctx) (w : Word) : (c.begin w).armed = c.armed := by unfold Ctx.begin; split <;> rfl
@[simp] theorem Ctx.begin_nxHead (c : Ctx) (w : Word) : (c.begin w).nxHead = c.nxHead := by unfold Ctx.begin; split <;> rfl
@[simp] theorem Ctx.begin_tok (c : Ctx) (w : Word) : (c.begin w).tok = c.tok := by unfold Ctx.begin; split <;> rfl
@[simp] theorem Ctx.begin_storeQ (c : Ctx) (w : Word) : (c.begin w).storeQ = c.storeQ := by unfold Ctx.begin; split <;> rfl
@[simp] theorem Ctx.begin_loadQ (c : Ctx) (w : Word) : (c.begin w).loadQ = c.loadQ := by unfold Ctx.begin; split <;> rfl
@[simp] theorem Ctx.begin_csr (c : Ctx) (w : Word) : (c.begin w).csr = { c.csr with rngseed := w } := by
  unfold Ctx.begin; split <;> rfl
@[simp] theorem Ctx.begin_tr (c : Ctx) (w : Word) : (c.begin w).tr = c.tr := by unfold Ctx.begin; split <;> rfl
@[simp] theorem Ctx.begin_standing (c : Ctx) (w : Word) : (c.begin w).standing = c.standing := by
  unfold Ctx.begin; split <;> rfl
@[simp] theorem Ctx.begin_window (c : Ctx) (w : Word) : (c.begin w).window = c.window := by unfold Ctx.begin; split <;> rfl
@[simp] theorem Ctx.begin_pend (c : Ctx) (w : Word) : (c.begin w).pend = c.pend := by unfold Ctx.begin; split <;> rfl
@[simp] theorem Ctx.begin_dbg (c : Ctx) (w : Word) : (c.begin w).dbg = c.dbg := by unfold Ctx.begin; split <;> rfl
@[simp] theorem Ctx.begin_waits (c : Ctx) (w : Word) :
    (c.begin w).waits = { c.waits with held := false, waiting := false, since := 0, wakeNow := false, idleWoken := false,
                                         lendOld := none, lendOn := none } := by
  unfold Ctx.begin; split <;> rfl

/-! ### The closing of a retirement -/

/-- The budgets after a bundle are the only thing that drawing on them changes (R190, R366). -/
theorem Ctx.drawn_eq (c : Ctx) (hm : Bool) (ni : Nat) :
    ∃ r i n, c.drawn hm ni =
      { c with tr := { c.tr with res := r }, csr := { c.csr with issueLeft := i, niLeft := n } } := by
  unfold Ctx.drawn
  by_cases h1 : (hm && c.tr.res != 0) = true
  · rw [if_pos h1]
    by_cases h3 : (c.csr.niLeft == 0xFFFF) = true
    · exact ⟨c.tr.res - 1, c.csr.issueLeft, c.csr.niLeft, if_pos h3⟩
    · exact ⟨c.tr.res - 1, c.csr.issueLeft, c.csr.niLeft - ni, if_neg h3⟩
  · rw [if_neg h1]
    by_cases h2 : (c.csr.issueLeft == 0xFFFF) = true
    · rw [if_pos h2]
      by_cases h3 : (c.csr.niLeft == 0xFFFF) = true
      · exact ⟨c.tr.res, c.csr.issueLeft, c.csr.niLeft, if_pos h3⟩
      · exact ⟨c.tr.res, c.csr.issueLeft, c.csr.niLeft - ni, if_neg h3⟩
    · rw [if_neg h2]
      by_cases h3 : (c.csr.niLeft == 0xFFFF) = true
      · exact ⟨c.tr.res, c.csr.issueLeft - 1, c.csr.niLeft, if_pos h3⟩
      · exact ⟨c.tr.res, c.csr.issueLeft - 1, c.csr.niLeft - ni, if_neg h3⟩

/-- What the closing of a retirement writes in a context (R25, R42, R190, R206, R366). -/
theorem Ctx.after_eq (c : Ctx) (hm : Bool) (pc : BitVec 16) (fl : Flags) (ni w : Nat) :
    ∃ r i n, c.after hm pc fl ni w =
      { c with
        pc := pc, firstIssue := true, window := ((if hm then 0 else w) :: c.window).take 7,
        tr := { c.tr with res := r },
        csr := { c.csr with fpstat := c.csr.fpstat ||| fl, issueLeft := i, niLeft := n, cycles := c.csr.cycles + 1 },
        dbg := { c.dbg with stepDone := c.dbg.stepDone || c.dbg.step } } := by
  unfold Ctx.after
  obtain ⟨r, i, n, h⟩ := Ctx.drawn_eq
    { c with pc := pc, firstIssue := true, csr := { c.csr with fpstat := c.csr.fpstat ||| fl },
             dbg := { c.dbg with stepDone := c.dbg.stepDone || c.dbg.step } } hm ni
  refine ⟨r, i, n, ?_⟩
  simp only [h, Ctx.tick, if_true]

/-- The standing set after an op that carries none and consumes no token. -/
theorem standStep_plain (a : At) (l : List Standing) (h : (tokFields a.i).1 = []) (h0 : standingOf a.i = 0)
    (hm : accOf a.i = none) : standStep a l = l := by
  unfold standStep
  simp only [h, h0, decide_true, Bool.true_or, if_true]
  have hf : l.filter (fun x => !(x.tok != .none && ([] : List Tok).contains x.tok)) = l := by simp
  rw [hf]
  cases hi : a.i <;> first | rfl | (rw [hi] at hm; cases hm)

/-! ### An op that changes its own context only -/

/-- The op's effect is a change of its context and the choice of the next offset. -/
def Out.local (o : Out) (g : Ctx → Ctx) (n : Option (BitVec 16)) : Prop :=
  ∀ L : Live, L.next = none → o.eff L = { s := L.s.updMe g, next := n }

theorem leaveBuf_none (s : State) (h : s.myCore.issueBuf = none) : s.leaveBuf = s := by
  simp [State.leaveBuf, State.buffered, h]

theorem core_closed_other (s : State) (g : Ctx → Ctx) (f : CoreState → CoreState) {c : Nat} (h : c ≠ s.cur.core) :
    ((s.updMe g).updMyCore f).core c = s.core c :=
  (State.core_updMyCore_other (s.updMe g) f h).trans (State.core_updMe_other s g h)

theorem core_closed (s : State) (g : Ctx → Ctx) (f : CoreState → CoreState) :
    ((s.updMe g).updMyCore f).core s.cur.core = f (s.myCore.setCtx s.cur.ctx (g s.me)) :=
  (State.core_updCore (s.updMe g) s.cur.core f).trans (congrArg f (State.core_updCtx s s.cur.core s.cur.ctx g))

/-- An op that changes its own context only: the context it leaves, and nothing elsewhere. -/
theorem issueOne_local (s : State) (i : Instr) (m : Sem) (o : Out) (g : Ctx → Ctx) (n : Option (BitVec 16))
    (h : Instr.plain i) (hr : s.Ready i) (hp : s.Passes i m o) (hl : o.local g n) :
    ∃ t, issueOne m i s = .next t ∧ s.SameElsewhere t ∧
      ∃ r il nl, t.me = { g (s.me.begin (m.draw s).2) with
        standing := standStep (s.lone i (m.draw s).1) (g (s.me.begin (m.draw s).2)).standing,
        pc := n.getD (pcPlus s.me.pc (wordsOf i)), firstIssue := true,
        window := ((if s.me.tr.hm then 0 else weightOf i + standSum s.me.standing) ::
          (g (s.me.begin (m.draw s).2)).window).take 7,
        tr := { (g (s.me.begin (m.draw s).2)).tr with res := r },
        csr := { (g (s.me.begin (m.draw s).2)).csr with
          fpstat := (g (s.me.begin (m.draw s).2)).csr.fpstat ||| orFlags [(0, orFlags o.flags)],
          issueLeft := il, niLeft := nl, cycles := (g (s.me.begin (m.draw s).2)).csr.cycles + 1 },
        dbg := { (g (s.me.begin (m.draw s).2)).dbg with
          stepDone := (g (s.me.begin (m.draw s).2)).dbg.stepDone || (g (s.me.begin (m.draw s).2)).dbg.step } } := by
  have hb := hr.2.2.2.2.2.2.2.2
  refine ⟨_, issueOne_next s i m o h hr hp, ?_⟩
  rw [hl _ rfl]
  obtain ⟨r, il, nl, ha⟩ := Ctx.after_eq
    { g (s.me.begin (m.draw s).2) with
      standing := standStep (s.lone i (m.draw s).1) (g (s.me.begin (m.draw s).2)).standing }
    s.me.tr.hm (n.getD (pcPlus s.me.pc (wordsOf i))) (orFlags [(0, orFlags o.flags)]) (m.ni s)
    (weightOf i + standSum s.me.standing)
  have hlb : ∀ t : State, t.myCore.issueBuf = none → t.leaveBuf = t := leaveBuf_none
  rw [hlb _ (by simp [State.closed, State.opened, hb])]
  refine ⟨⟨⟨rfl, rfl, rfl, rfl, rfl, rfl, rfl, rfl, rfl, rfl, rfl, rfl, ?_, ?_⟩, rfl, ?_, ?_⟩, r, il, nl, ?_⟩
  · intro c hc
    simp only [State.closed, State.opened, State.updMe_updMe, State.updCluster_core]
    exact core_closed_other s _ _ hc
  · intro j
    simp only [State.closed]
    by_cases hj : j % 192 = clusterOf s.cur.core % 192
    · have he : ∀ (x : State) (f : ClusterState → ClusterState),
          (x.updCluster (clusterOf s.cur.core) f).cluster j = f (x.cluster j) := by
        intro x f
        have h1 : Fin.ofNat 192 j = Fin.ofNat 192 (clusterOf s.cur.core) := by ext; simpa using hj
        have := State.cluster_updCluster x (clusterOf s.cur.core) f
        simp only [State.cluster] at *
        rw [h1]; exact this
      rw [he]
      rfl
    · rw [State.cluster_updCluster_other _ _ hj]
      rfl
  · intro k hk
    simp only [State.closed, State.opened, State.ctx, State.updCluster_core, State.updMe_updMe]
    rw [core_closed s]
    exact CoreState.ctx_setCtx_other _ _ hk
  · simp only [State.closed, State.opened, State.updMe_updMe, State.updCluster_myCore, State.myCore_updMyCore,
      State.myCore_updMe]
    rfl
  · simp only [State.closed, State.opened, State.updMe_updMe, State.updCluster_me, State.me_updMyCore, State.myCore_updMe]
    show (s.myCore.setCtx s.cur.ctx _).ctx s.cur.ctx = _
    rw [CoreState.ctx_setCtx]
    exact ha

end Sys2Proof.Machine
end

