-- ==== Sys2Proof/Laws/Result.lean ====
section
/-! SUPPORT. What delivering a result leaves in the queues and the registers, and that an op whose effect is one delivery
is done by it. -/

namespace Sys2Proof.Machine

open Sys2Proof.Claim

theorem pushQ_zero (q : Vector (Option α) 16) (x : α) : (pushQ q x).get 0 = some x :=
  Vector.getElem_ofFn (i := 0) (by omega)

theorem pushQ_succ (q : Vector (Option α) 16) (x : α) (n : Nat) (h : n + 1 < 16) :
    (pushQ q x).get ⟨n + 1, h⟩ = q.get ⟨n, by omega⟩ :=
  Vector.getElem_ofFn (i := n + 1) h

theorem pushQ_pushed (q : Vector (Option α) 16) (x : α) : Pushed q (pushQ q x) x := ⟨pushQ_zero q x, pushQ_succ q x⟩

theorem get_set (v : Vector α n) (i r : Fin n) (x : α) : (v.set i x).get r = if r = i then x else v.get r := by
  by_cases h : r = i
  · subst h; rw [if_pos rfl]; exact Vector.getElem_set_self _
  · rw [if_neg h]; exact Vector.getElem_set_ne _ _ (fun e => h (Fin.ext e.symm))

/-- A scalar result's queues. -/
theorem resultS_q (c : Ctx) (w : Bool) (d : DReg) (v : SVal) : (c.resultS w d v).q = (c.pushS v).q := by
  unfold Ctx.resultS; split <;> simp

/-- A scalar result's registers. -/
theorem resultS_files (c : Ctx) (w : Bool) (d : DReg) (v : SVal) :
    (c.resultS w d v).files = if w then (c.writeS d v).files else c.files := by
  unfold Ctx.resultS
  cases w
  · simp
  · cases d <;> simp [Ctx.writeS]

/-- A vector result's queues. -/
theorem resultV_q (c : Ctx) (w : Bool) (d : DReg) (v : VVal) : (c.resultV w d v).q = (c.pushV v).q := by
  unfold Ctx.resultV; split <;> simp

/-- A vector result's registers. -/
theorem resultV_files (c : Ctx) (w : Bool) (d : DReg) (v : VVal) :
    (c.resultV w d v).files = if w then (c.writeV d v).files else c.files := by
  unfold Ctx.resultV
  cases w
  · simp
  · cases d <;> simp [Ctx.writeV]

theorem scalarPushed_of (s t : State) (c : Ctx) (v : SVal) (hq : c.q = s.me.q) (hm : c.tr.hm = s.me.tr.hm)
    (h : t.me.q = (c.pushS v).q) : ScalarPushed s t v := by
  unfold ScalarPushed
  rw [h]
  unfold Ctx.pushS
  by_cases hh : s.me.tr.hm = true
  · simp [hm, hh, hq, pushQ_pushed]
  · simp [hm, hh, hq, pushQ_pushed]

theorem scalarWritten_of (s t : State) (c : Ctx) (w : Bool) (d : DReg) (v : SVal) (hf : c.files = s.me.files)
    (h : t.me.files = if w then (c.writeS d v).files else c.files) : ScalarWritten s t w d v := by
  unfold ScalarWritten
  rw [h]
  cases w
  · simp [hf]
  · cases d <;> simp [Ctx.writeS, hf, get_set, eq_comm]

/-- An op that produces no token and carries no standing weight. -/
def Instr.light (i : Instr) : Prop := (tokFields i).1 = [] ∧ (tokFields i).2 = .none ∧ standingOf i = 0 ∧ accOf i = none

theorem tokenWaits_light (c : Ctx) (a : At) (h : Instr.light a.i) : tokenWaits c [a] = false := by
  obtain ⟨-, h2, _⟩ := h
  simp [tokenWaits, h2]
theorem engineFault_light (c : Ctx) (a : At) (h : Instr.light a.i) : engineFault c [] [a] = none := by
  simp [engineFault, h.1, inToks]
theorem tokenReuse_light (c : Ctx) (a : At) (h : Instr.light a.i) : tokenReuse c [] [a] = none := by
  simp [tokenReuse, h.2.1]

/-- What a light op without slots, waits, NI requests, traps, memory accesses and enabled flags asks for. -/
theorem passes_light (s : State) (i : Instr) (m : Sem) (o : Out) (hl : Instr.light i) (htag : m.tags s = none)
    (hslots : m.slots s = []) (hstall : ∀ a, m.stall s a = false ∧ m.waits s a = false) (hni : m.ni s = 0)
    (hrun : m.run s (s.lone i (m.draw s).1) = o) (htrap : o.trap = none) (haccs : o.accs = [])
    (hflags : s.me.tr.hm = true ∨ flagTrap s.me.csr.fpctl [(0, o.flags)] = none) : s.Passes i m o where
  tags := htag
  slotWaits := by rw [hslots]; rfl
  slotFail := by rw [hslots]; simp
  stall := (hstall _).1
  waits := (hstall _).2
  ni := by rw [hni]; simp
  tokenWaits := tokenWaits_light _ _ hl
  engine := engineFault_light _ _ hl
  reuse := tokenReuse_light _ _ hl
  run := hrun
  trap := htrap
  mem := by simp [State.memTrap, haccs]
  flags := hflags
  acc := by simp [State.accWaits, haccs]
  banks := by simp [State.extraCycles, haccs]

theorem flagTrap_nil (x : BitVec 12) : flagTrap x [(0, [])] = none := by
  simp only [flagTrap, orFlags, List.map_cons, List.map_nil, List.foldl_nil, List.foldl_cons, flagCauses]
  simp [BitVec.getLsbD_zero]

/-- A light op whose effect on its context leaves all but queues and files, and whose next offset is the one behind it. -/
theorem issueOne_steps (s : State) (i : Instr) (m : Sem) (o : Out) (g : Ctx → Ctx) (h : Instr.plain i) (hl : Instr.light i)
    (hr : s.Ready i) (hp : s.Passes i m o) (hg : o.local g none)
    (hk : ∀ c : Ctx, g c = { c with q := (g c).q, files := (g c).files }) :
    ∃ t, issueOne m i s = .next t ∧ Steps s t i (orFlags o.flags) ∧ t.me.csr.rngseed = (m.draw s).2 ∧
      t.me.q = (g (s.me.begin (m.draw s).2)).q ∧ t.me.files = (g (s.me.begin (m.draw s).2)).files := by
  obtain ⟨t, ht, hse, r, il, nl, hme⟩ := issueOne_local s i m o g none h hr hp hg
  have hst : standStep (s.lone i (m.draw s).1) (g (s.me.begin (m.draw s).2)).standing = s.me.standing := by
    rw [hk]
    simp only [Ctx.begin_standing]
    exact standStep_plain _ _ hl.1 hl.2.2.1 hl.2.2.2
  rw [hst] at hme
  rw [hk (s.me.begin (m.draw s).2)] at hme
  have hor : orFlags [(0, orFlags o.flags)] = orFlags o.flags := by simp [orFlags]
  refine ⟨t, ht, ⟨hse, ?_, ?_, ?_, ?_, ?_⟩, ?_, ?_, ?_⟩
  · unfold Ctx.Retired
    rw [hme]
    simp only [Ctx.begin_csr, Ctx.begin_tr, Ctx.begin_dbg]
    unfold Ctx.begin
    split <;> rfl
  · rw [hme]; rfl
  · rw [hme]; simp
  · rw [hme, hor]; simp
  · rw [hme]
  · rw [hme]; simp
  · rw [hme]
  · rw [hme]

/-- A light op whose effect is one scalar result. -/
theorem issueOne_scalar (s : State) (i : Instr) (m : Sem) (o : Out) (w : Bool) (d : DReg) (v : SVal) (h : Instr.plain i)
    (hl : Instr.light i) (hr : s.Ready i) (hp : s.Passes i m o) (hg : o.local (fun c => c.resultS w d v) none)
    (hd : (m.draw s).2 = s.me.csr.rngseed) :
    ∃ t, issueOne m i s = .next t ∧ ScalarDone s t i w d v (orFlags o.flags) := by
  obtain ⟨t, ht, hs, hrng, hq, hf⟩ := issueOne_steps s i m o _ h hl hr hp hg (fun c => by
    unfold Ctx.resultS Ctx.pushS
    cases w
    · simp only [Bool.false_eq_true, if_false]; split <;> rfl
    · simp only [if_true]; cases d <;> simp only [Ctx.writeS] <;> split <;> rfl)
  refine ⟨t, ht, hs, hrng.trans hd, ?_, ?_⟩
  · exact scalarPushed_of s t (s.me.begin (m.draw s).2) v (by simp) (by simp) (hq.trans (resultS_q _ _ _ _))
  · exact scalarWritten_of s t (s.me.begin (m.draw s).2) w d v (by simp) (hf.trans (resultS_files _ _ _ _))

end Sys2Proof.Machine
end

