-- ==== Sys2Proof/Laws/Scalar.lean ====
section
/-! SUPPORT. The scalar ops (R110-R119): their tag check, and that each is done by the value it delivers. -/

namespace Sys2Proof.Machine

open Sys2Proof.Claim

/-- The tag that an op asks for reaches special operands only. -/
theorem readS_tag (c : Ctx) (id : Word) (t u : Tag) (o : Operand) (h : isSpecial o = false) :
    c.readS id t o = c.readS id u o := by
  cases o <;> simp_all [isSpecial, Ctx.readS]

theorem rdS_tag (s : State) (t u : Tag) (o : Operand) (h : isSpecial o = false) : s.rdS t o = s.rdS u o :=
  readS_tag _ _ _ _ _ h

theorem tagFail_none (s : State) (t req : Tag) (l : List Tag) (x : Src) (hv : x.vec = false)
    (h : isSpecial x.o = false → l.contains (s.rdS .int64 x.o).tag) (h3 : isSpecial x.o = true → x.idx ≠ 3) :
    s.tagFail t l req x = none := by
  unfold State.tagFail
  cases hs : isSpecial x.o
  · have := h hs
    simp only [Bool.false_and, Bool.false_eq_true, if_false, hv]
    rw [rdS_tag s t .int64 x.o hs, this]; rfl
  · simp [h3 hs]

/-- An op all of whose sources are scalar and none of which is a D field. -/
def Instr.abc (i : Instr) : Prop := ∀ x ∈ srcs i, x.vec = false ∧ x.idx ≠ 3

theorem abc_one {i : Instr} {a : Operand} (h : srcs i = [⟨0, a, false⟩]) : Instr.abc i := by
  intro x hx; rw [h] at hx; simp only [List.mem_singleton] at hx; subst hx; simp
theorem abc_two {i : Instr} {a b : Operand} (h : srcs i = [⟨0, a, false⟩, ⟨1, b, false⟩]) : Instr.abc i := by
  intro x hx; rw [h] at hx; simp only [List.mem_cons, List.not_mem_nil, or_false] at hx
  rcases hx with rfl | rfl <;> simp
theorem abc_three {i : Instr} {a b c : Operand} (h : srcs i = [⟨0, a, false⟩, ⟨1, b, false⟩, ⟨2, c, false⟩]) :
    Instr.abc i := by
  intro x hx; rw [h] at hx; simp only [List.mem_cons, List.not_mem_nil, or_false] at hx
  rcases hx with rfl | rfl | rfl <;> simp

theorem scalarTags_none (s : State) (f : RegF) (i : Instr) (hi : Instr.abc i)
    (h : f.t = .any ∨ ∀ x ∈ srcs i, isSpecial x.o = false → .tag (s.rdS .int64 x.o).tag = f.t) : scalarTags f i s = none := by
  unfold scalarTags
  rcases h with h | h
  · rw [h]
  · cases ht : f.t with
    | any => rfl
    | tag t =>
      rw [ht] at h
      simp only
      rw [List.findSome?_eq_none_iff]
      intro x hx
      refine tagFail_none s t t [t] x (hi x hx).1 (fun hs => ?_) (fun _ => (hi x hx).2)
      have := h x hx hs
      simp only [TField.tag.injEq] at this
      simp [this]

/-- A well-formed op that is no pair word meets every field check of its entry (row 2 of R80). -/
theorem fieldsOk_of_wf {i : Instr} (h : WellFormed i) (hi : opsOf 0 i = [i]) : fieldsOk i = true := by
  unfold WellFormed fieldReject at h
  rw [hi] at h
  cases hh : fieldsOk i
  · simp only [List.any_cons, List.any_nil, Bool.or_false] at h
    have h2 : row2Op i = true := by simp [row2Op, hh]
    rw [h2] at h
    split at h <;> simp at h
  · rfl

theorem scalarX_of_ok {b c : Bool} {f : RegF} (h : scalarOk b c f = true) : scalarX f = true := by
  unfold scalarOk at h
  simp only [Bool.and_eq_true] at h
  exact h.1.1.1.1

/-- A scalar REG op, its flags not trapping, is done by the value it delivers (R110). -/
theorem issueOne_semScalar (s : State) (f : RegF) (i : Instr) (fn : ScalarFn) (fl : State → LaneFlags) (h : Instr.plain i)
    (hl : Instr.light i) (ha : Instr.abc i) (hr : s.Ready i)
    (ht : f.t = .any ∨ ∀ x ∈ srcs i, isSpecial x.o = false → .tag (s.rdS .int64 x.o).tag = f.t)
    (hf : s.me.tr.hm = true ∨ flagTrap s.me.csr.fpctl [(0, fl s)] = none) :
    ∃ t, issueOne (semScalar f i fn fl) i s = .next t ∧ ScalarDone s t i f.w f.d (scalarOut f fn s) (orFlags (fl s)) :=
  issueOne_scalar s i (semScalar f i fn fl) { flags := fl s, eff := Live.me (fun c => c.resultS f.w f.d (scalarOut f fn s)) }
    f.w f.d (scalarOut f fn s) h hl hr
    (passes_light s i _ _ hl (scalarTags_none s f i ha ht) rfl (fun _ => ⟨rfl, rfl⟩) rfl rfl rfl rfl hf)
    (fun L hn => by simp [Live.me, ← hn]) rfl

end Sys2Proof.Machine
end

