-- ==== Sys2Proof/Laws/Lane.lean ====
section
/-! SUPPORT. Lanes of vector values: packing and splitting agree, and what a guarded merge holds in each lane. -/

namespace Sys2Proof.Machine

open Sys2Proof.Claim

theorem joinNat_lt (w : Nat) (l : List Nat) : joinNat w l < 2 ^ (w * l.length) := by
  induction l with
  | nil => simp [joinNat]
  | cons x l ih =>
    have hx : x % 2 ^ w < 2 ^ w := Nat.mod_lt _ (by positivity)
    rw [joinNat, List.length_cons, Nat.mul_succ, Nat.pow_add, Nat.mul_comm (2 ^ (w * l.length))]
    have : 2 ^ w * (joinNat w l + 1) ≤ 2 ^ w * 2 ^ (w * l.length) := Nat.mul_le_mul_left _ ih
    rw [Nat.mul_add, Nat.mul_one] at this
    omega

theorem joinNat_at (w : Nat) (l : List Nat) (i : Nat) (h : i < l.length) :
    joinNat w l / 2 ^ (w * i) % 2 ^ w = l[i] % 2 ^ w := by
  induction l generalizing i with
  | nil => simp at h
  | cons x l ih =>
    have hx : x % 2 ^ w < 2 ^ w := Nat.mod_lt _ (by positivity)
    have hp : 0 < 2 ^ w := by positivity
    rw [joinNat]
    cases i with
    | zero => simp
    | succ i =>
      rw [Nat.mul_succ, Nat.add_comm (w * i) w, Nat.pow_add, ← Nat.div_div_eq_div_mul, Nat.add_mul_div_left _ _ hp,
        Nat.div_eq_of_lt hx, Nat.zero_add]
      simpa using ih i (by simpa using h)

theorem splitNat_length (w n x : Nat) : (splitNat w n x).length = n := by
  induction n generalizing x with
  | zero => rfl
  | succ n ih => simp [splitNat, ih]

theorem splitNat_at (w n x i : Nat) (h : i < n) :
    (splitNat w n x)[i]'(by rw [splitNat_length]; exact h) = x / 2 ^ (w * i) % 2 ^ w := by
  induction n generalizing x i with
  | zero => omega
  | succ n ih =>
    cases i with
    | zero => simp [splitNat]
    | succ i =>
      simp only [splitNat, List.getElem_cons_succ]
      rw [ih (x / 2 ^ w) i (by omega), Nat.mul_succ, Nat.add_comm (w * i) w, Nat.pow_add, Nat.div_div_eq_div_mul]

theorem lanesOf_length (w : Nat) (v : VWord) : (lanesOf w v).length = 2048 / w := splitNat_length _ _ _

theorem lane_toNat (w : Nat) (v : VWord) (i : Nat) : (v.extractLsb' (w * i) w).toNat = v.toNat / 2 ^ (w * i) % 2 ^ w := by
  rw [BitVec.extractLsb'_toNat, Nat.shiftRight_eq_div_pow]

theorem lanesOf_at (w : Nat) (v : VWord) (i : Nat) (h : i < 2048 / w) :
    (lanesOf w v)[i]'(by rw [lanesOf_length]; exact h) = (v.extractLsb' (w * i) w).toNat := by
  rw [lane_toNat]; exact splitNat_at _ _ _ _ h

/-- A lane of packed elements. -/
theorem lane_packLanes (w : Nat) (l : List Nat) (i : Nat) (h : i < l.length) (hl : w * l.length ≤ 2048) :
    (packLanes w l).extractLsb' (w * i) w = BitVec.ofNat w l[i] := by
  apply BitVec.eq_of_toNat_eq
  rw [lane_toNat, packLanes, BitVec.toNat_ofNat, BitVec.toNat_ofNat,
    Nat.mod_eq_of_lt (lt_of_lt_of_le (joinNat_lt w l) (Nat.pow_le_pow_right (by omega) hl))]
  exact joinNat_at w l i h

theorem laneCount_le (w : Nat) : w * (2048 / w) ≤ 2048 := Nat.mul_div_le _ _

/-- What a guarded merge holds in a lane (R132). -/
theorem lane_mergeV (s : State) (g : Guard) (w : Nat) (tag : Tag) (a : VVal) (res : List Nat) (i : Nat)
    (hres : res.length = 2048 / w) (hi : i < 2048 / w) :
    (mergeV w tag (s.laneMask g (laneCount w)) (some a) res).v.extractLsb' (w * i) w =
      if s.me.guardBit g i then BitVec.ofNat w (res[i]'(by omega)) else a.v.extractLsb' (w * i) w := by
  have hm : (s.laneMask g (laneCount w)).length = 2048 / w := by simp [State.laneMask, laneCount]
  unfold mergeV
  by_cases hany : (s.laneMask g (laneCount w)).any id = true
  · simp only [hany, if_true]
    rw [lane_packLanes _ _ _ (by simp [hm, hres, lanesOf_length, hi])
      (by simp only [List.length_map, List.length_zip, hm, hres, lanesOf_length, Nat.min_self]; exact laneCount_le w)]
    simp only [List.getElem_map, List.getElem_zip, State.laneMask, List.getElem_range, lanesOf_at w a.v i hi]
    split
    · rfl
    · simp only [BitVec.ofNat_toNat, BitVec.setWidth_eq]
  · simp only [hany]
    have : s.me.guardBit g i = false := by
      rw [Bool.not_eq_true, List.any_eq_false] at hany
      have := hany (s.me.guardBit g i) (by
        simp only [State.laneMask, List.mem_map, List.mem_range]
        exact ⟨i, hi, rfl⟩)
      simpa using this
    simp [this]

theorem tag_mergeV (s : State) (g : Guard) (w : Nat) (tag : Tag) (a : VVal) (res : List Nat) :
    (mergeV w tag (s.laneMask g (laneCount w)) (some a) res).tag =
      if ∃ i < 2048 / w, s.me.guardBit g i = true then tag else a.tag := by
  have key : ((s.laneMask g (laneCount w)).any id = true) ↔ ∃ i < 2048 / w, s.me.guardBit g i = true := by
    simp only [State.laneMask, List.any_map, List.any_eq_true, List.mem_range, laneCount, Function.comp_apply, id]
  unfold mergeV
  by_cases h : (s.laneMask g (laneCount w)).any id = true
  · simp only [h, if_true]; rw [if_pos (key.mp h)]
  · simp only [h]; rw [if_neg (fun hh => h (key.mpr hh))]; simp

theorem poison_mergeV (s : State) (g : Guard) (w : Nat) (tag : Tag) (a : VVal) (res : List Nat) :
    (mergeV w tag (s.laneMask g (laneCount w)) (some a) res).poison = none := by
  unfold mergeV; simp only; split <;> rfl

/-- A vector result's queues. -/
theorem vectorPushed_of (s t : State) (c : Ctx) (v : VVal) (hq : c.q = s.me.q) (hm : c.tr.hm = s.me.tr.hm)
    (h : t.me.q = (c.pushV v).q) : VectorPushed s t v := by
  unfold VectorPushed
  rw [h]
  unfold Ctx.pushV
  by_cases hh : s.me.tr.hm = true
  · simp [hm, hh, hq]
  · simp [hm, hh, hq, pushQ_pushed]

theorem vectorWritten_of (s t : State) (c : Ctx) (w : Bool) (d : DReg) (v : VVal) (hf : c.files = s.me.files)
    (h : t.me.files = if w then (c.writeV d v).files else c.files) : VectorWritten s t w d v := by
  unfold VectorWritten
  rw [h]
  cases w
  · simp [hf]
  · cases d <;> simp [Ctx.writeV, hf, get_set, eq_comm]

/-- A light op whose effect is one vector result. -/
theorem issueOne_vector (s : State) (i : Instr) (m : Sem) (o : Out) (w : Bool) (d : DReg) (v : VVal) (h : Instr.plain i)
    (hl : Instr.light i) (hr : s.Ready i) (hp : s.Passes i m o) (hg : o.local (fun c => c.resultV w d v) none) :
    ∃ t, issueOne m i s = .next t ∧ VectorDrew s t i w d v (orFlags o.flags) (m.draw s).2 := by
  obtain ⟨t, ht, hs, hrng, hq, hf⟩ := issueOne_steps s i m o _ h hl hr hp hg (fun c => by
    unfold Ctx.resultV Ctx.pushV
    cases w
    · simp only [Bool.false_eq_true, if_false]; split <;> rfl
    · simp only [if_true]; cases d <;> simp only [Ctx.writeV] <;> split <;> rfl)
  refine ⟨t, ht, hs, hrng, ?_, ?_⟩
  · exact vectorPushed_of s t (s.me.begin (m.draw s).2) v (by simp) (by simp) (hq.trans (resultV_q _ _ _ _))
  · exact vectorWritten_of s t (s.me.begin (m.draw s).2) w d v (by simp) (hf.trans (resultV_files _ _ _ _))

/-- A light op whose effect is one mask result in a predicate (R135). -/
theorem issueOne_pred (s : State) (i : Instr) (m : Sem) (o : Out) (p : Fin 16) (x : PMask) (h : Instr.plain i)
    (hl : Instr.light i) (hr : s.Ready i) (hp : s.Passes i m o)
    (hg : o.local (fun c => (c.pushV { v := x.setWidth 2048, tag := .bits }).writeP p x) none)
    (hd : (m.draw s).2 = s.me.csr.rngseed) :
    ∃ t, issueOne m i s = .next t ∧ PredDone s t i p x (orFlags o.flags) := by
  obtain ⟨t, ht, hs, hrng, hq, hf⟩ := issueOne_steps s i m o _ h hl hr hp hg (fun c => by
    unfold Ctx.writeP Ctx.pushV
    by_cases h0 : p = 0
    · simp only [h0, if_true]; split <;> rfl
    · simp only [h0, if_false]; split <;> rfl)
  have hfi : t.me.files = if p = 0 then s.me.files else { s.me.files with p := s.me.files.p.set p x } := by
    rw [hf]
    unfold Ctx.writeP
    by_cases h0 : p = 0
    · simp [h0]
    · simp [h0]
  refine ⟨t, ht, hs, hrng.trans hd, ?_, ?_, ?_⟩
  · refine vectorPushed_of s t (s.me.begin (m.draw s).2) _ (by simp) (by simp) (hq.trans ?_)
    unfold Ctx.writeP; split <;> rfl
  · intro r
    unfold Ctx.pred
    rw [hfi]
    by_cases h0 : p = 0
    · simp [h0]
    · by_cases hr0 : r = 0
      · subst hr0; simp [Ne.symm h0]
      · simp only [h0, hr0, if_false, get_set]
        simp [h0]
  · rw [hfi]
    by_cases h0 : p = 0 <;> simp [h0]

/-- With every trap enable of FPCTL clear no flag traps (R41, R42). -/
theorem flagTrap_disabled (x : BitVec 12) (l : List (Nat × LaneFlags)) (h : x.extractLsb' 5 7 = 0#7) :
    flagTrap x l = none := by
  have hb : ∀ k, 5 ≤ k → k < 12 → x.getLsbD k = false := by
    intro k h1 h2
    have := congrArg (fun y : BitVec 7 => y.getLsbD (k - 5)) h
    simp only [BitVec.getLsbD_extractLsb', BitVec.getLsbD_zero] at this
    rw [show 5 + (k - 5) = k by omega] at this
    simpa [show k - 5 < 7 by omega] using this
  unfold flagTrap
  simp only
  rw [List.findSome?_eq_none_iff]
  intro f hf
  have : x.getLsbD f.2.1 = false := by
    simp only [flagCauses, List.mem_cons, List.not_mem_nil, or_false] at hf
    rcases hf with rfl | rfl | rfl | rfl | rfl | rfl | rfl <;> exact hb _ (by decide) (by decide)
  simp [this]

/-- A vector op whose tags pass and whose flags do not trap is done by its merged lanes. -/
theorem issueOne_semVec (s : State) (i : Instr) (w : Bool) (d : DReg) (g : Guard) (rw : Nat) (tag : Tag)
    (tags : State → Option TagFail) (first : State → Option VVal) (res : State → At → List FRes) (free : State → List Bool)
    (h : Instr.plain i) (hl : Instr.light i) (hr : s.Ready i) (ht : tags s = none)
    (hf : s.me.tr.hm = true ∨
      flagTrap s.me.csr.fpctl [(0, laneFlags (s.laneMask g (laneCount rw)) (res s (s.lone i 0)))] = none) :
    ∃ t, issueOne (semVec i w d g rw tag tags first res free) i s = .next t ∧
      VectorDone s t i w d
        (mergeV rw tag (s.laneMask g (laneCount rw)) (first s) ((res s (s.lone i 0)).map (·.1)))
        (orFlags (laneFlags (s.laneMask g (laneCount rw)) (res s (s.lone i 0)))) :=
  issueOne_vector s i (semVec i w d g rw tag tags first res free)
    ((semVec i w d g rw tag tags first res free).run s (s.lone i 0)) w d _ h hl hr
    (passes_light s i _ _ hl ht rfl (fun _ => ⟨rfl, rfl⟩) rfl rfl rfl rfl hf) (fun L hn => by simp [semVec, Live.me, ← hn])

theorem uncheckedTag_of {o : Operand} (t : Tag) (h : isSpecial o = false) : uncheckedTag o t = t := by
  cases o <;> first | rfl | cases h

/-- The tag checks of a vector op pass where every field that is not special carries an accepted tag. -/
theorem vecTags_none (s : State) (f : RegF) (i : Instr) (accept : Src → List Tag × Tag)
    (h : ∀ x ∈ srcs i, isSpecial x.o = false →
      (if x.vec then (s.rdV .int64 x.o).tag else (s.rdS .int64 x.o).tag) ∈ (accept x).1)
    (h3 : ∀ x ∈ srcs i, x.idx ≠ 3) : vecTags f i accept s = none := by
  unfold vecTags
  rw [List.findSome?_eq_none_iff]
  intro x hx
  unfold State.tagFail
  cases hs : isSpecial x.o
  · have := h x hx hs
    have hv : ∀ t u : Tag, s.rdV t x.o = s.rdV u x.o := by
      intro t u
      cases ho : x.o <;> simp_all [isSpecial, State.rdV, Ctx.readV]
    rw [uncheckedTag_of _ hs, rdS_tag s (vT f) .int64 x.o hs, hv (vT f) .int64]
    simp only [Bool.false_and, Bool.false_eq_true, if_false]
    rw [if_pos (List.contains_iff_mem.mpr this)]
  · simp [h3 x hx]

/-- The lengths of lane-wise results. -/
theorem intLanes_length (f : RegF) (fn : LaneFn) (s : State) : (intLanes f fn s).length = 2048 / tagWidth (vT f) := by
  have hb : (vB f s).length = 2048 / tagWidth (vT f) := by
    unfold vB; simp only; split
    · simp [laneCount]
    · exact lanesOf_length _ _
  simp [intLanes, vA, vC, lanesOf_length, hb]

end Sys2Proof.Machine
end

