-- ==== Sys2Proof/Laws/Mem.lean ====
section
/-! SUPPORT. Every memory operation keeps the canonical form, and what a read gives after each. -/

namespace Sys2Proof.Machine

/-! ### Entries from an address on -/

theorem Mem.wfFrom_mono {lo lo' : Nat} (h : lo ≤ lo') (m : Mem) (hw : Mem.wfFrom lo' m = true) : Mem.wfFrom lo m = true := by
  cases m with
  | nil => rfl
  | cons p m =>
    obtain ⟨a, b⟩ := p
    simp only [Mem.wfFrom, Bool.and_eq_true, decide_eq_true_eq] at hw ⊢
    exact ⟨⟨le_trans h hw.1.1, hw.1.2⟩, hw.2⟩

theorem Mem.read_below (m : Mem) {lo a : Nat} (hw : Mem.wfFrom lo m = true) (h : a < lo) : m.read a = Mem.default := by
  induction m generalizing lo with
  | nil => rfl
  | cons p m ih =>
    obtain ⟨x, b⟩ := p
    simp only [Mem.wfFrom, Bool.and_eq_true, decide_eq_true_eq] at hw
    have hx : x ≠ a := by omega
    simp only [Mem.read, hx, if_false]
    exact ih hw.2 (by omega)

/-- All entries of a memory lie below an address. -/
def Mem.endsBy (hi : Nat) (m : Mem) : Prop := ∀ c ∈ m, c.1 < hi

theorem Mem.wfFrom_append {lo mid : Nat} (m k : Mem) (hm : Mem.wfFrom lo m = true) (he : Mem.endsBy mid m) (hl : lo ≤ mid)
    (hk : Mem.wfFrom mid k = true) : Mem.wfFrom lo (m ++ k) = true := by
  induction m generalizing lo with
  | nil => exact Mem.wfFrom_mono hl _ hk
  | cons p m ih =>
    obtain ⟨x, b⟩ := p
    simp only [Mem.wfFrom, List.cons_append, Bool.and_eq_true, decide_eq_true_eq] at hm ⊢
    have hx : x < mid := he (x, b) (by simp)
    exact ⟨hm.1, ih hm.2 (fun c hc => he c (by simp [hc])) (by omega)⟩

theorem Mem.read_append {mid a : Nat} (m k : Mem) (he : Mem.endsBy mid m) (hk : Mem.wfFrom mid k = true) :
    (m ++ k : Mem).read a = if a < mid then m.read a else k.read a := by
  induction m with
  | nil =>
    split
    · exact Mem.read_below _ hk ‹_›
    · rfl
  | cons p m ih =>
    obtain ⟨x, b⟩ := p
    have hx : x < mid := he (x, b) (by simp)
    have ih := ih (fun c hc => he c (by simp [hc]))
    by_cases h : x = a
    · subst h; simp [Mem.read, hx]
    · simp only [List.cons_append, Mem.read, h, if_false]; exact ih

theorem Mem.below_endsBy (m : Mem) (a : Nat) : Mem.endsBy a (m.below a) := by
  induction m with
  | nil => intro c hc; simp [Mem.below] at hc
  | cons p m ih =>
    intro c hc
    unfold Mem.below at hc
    split at hc
    · simp only [List.mem_cons] at hc
      rcases hc with rfl | hc
      · assumption
      · exact ih c hc
    · simp at hc

theorem Mem.below_wfFrom (m : Mem) (a lo : Nat) (hw : Mem.wfFrom lo m = true) : Mem.wfFrom lo (m.below a) = true := by
  induction m generalizing lo with
  | nil => rfl
  | cons p m ih =>
    obtain ⟨x, b⟩ := p
    unfold Mem.below
    simp only [Mem.wfFrom, Bool.and_eq_true] at hw
    split
    · simp only [Mem.wfFrom, Bool.and_eq_true]; exact ⟨hw.1, ih _ hw.2⟩
    · rfl

theorem Mem.above_wfFrom (m : Mem) (a lo : Nat) (hw : Mem.wfFrom lo m = true) : Mem.wfFrom a (m.above a) = true := by
  induction m generalizing lo with
  | nil => rfl
  | cons p m ih =>
    obtain ⟨x, b⟩ := p
    unfold Mem.above
    simp only [Mem.wfFrom, Bool.and_eq_true, decide_eq_true_eq] at hw
    split
    · exact ih _ hw.2
    · simp only [Mem.wfFrom, Bool.and_eq_true, decide_eq_true_eq]; exact ⟨⟨by omega, hw.1.2⟩, hw.2⟩

theorem Mem.read_belowPart (m : Mem) (a x lo : Nat) (hw : Mem.wfFrom lo m = true) (h : x < a) : (m.below a).read x = m.read x := by
  induction m generalizing lo with
  | nil => rfl
  | cons p m ih =>
    obtain ⟨y, b⟩ := p
    unfold Mem.below
    simp only [Mem.wfFrom, Bool.and_eq_true, decide_eq_true_eq] at hw
    split
    · simp only [Mem.read]; rw [ih _ hw.2]
    · rename_i hn
      have hy : a ≤ y := by simp only at hn; omega
      have : y ≠ x := by omega
      simp only [Mem.read, this, if_false]
      exact (Mem.read_below m (a := x) hw.2 (by omega)).symm

theorem Mem.read_abovePart (m : Mem) (a x : Nat) (h : a ≤ x) : (m.above a).read x = m.read x := by
  induction m with
  | nil => rfl
  | cons p m ih =>
    obtain ⟨y, b⟩ := p
    unfold Mem.above
    split
    · have : y ≠ x := by simp only at *; omega
      simp only [Mem.read, this, if_false]; exact ih
    · rfl

theorem Mem.cellsOf_wfFrom (a : Nat) (bs : List Byte) : Mem.wfFrom a (Mem.cellsOf a bs) = true := by
  induction bs generalizing a with
  | nil => rfl
  | cons b bs ih =>
    unfold Mem.cellsOf
    split
    · exact Mem.wfFrom_mono (by omega) _ (ih _)
    · simp only [Mem.wfFrom, Bool.and_eq_true, decide_eq_true_eq, bne_iff_ne]; exact ⟨⟨Nat.le_refl _, ‹_›⟩, ih _⟩

theorem Mem.cellsOf_endsBy (a : Nat) (bs : List Byte) : Mem.endsBy (a + bs.length) (Mem.cellsOf a bs) := by
  induction bs generalizing a with
  | nil => intro c hc; simp [Mem.cellsOf] at hc
  | cons b bs ih =>
    intro c hc
    unfold Mem.cellsOf at hc
    have ih := ih (a + 1)
    split at hc
    · have := ih c hc; simp only [List.length_cons]; omega
    · simp only [List.mem_cons] at hc
      rcases hc with rfl | hc
      · simp
      · have := ih c hc; simp only [List.length_cons]; omega

theorem Mem.read_cellsOf (a : Nat) (bs : List Byte) (x : Nat) :
    (Mem.cellsOf a bs).read x = if a ≤ x then bs.getD (x - a) Mem.default else Mem.default := by
  induction bs generalizing a with
  | nil => simp [Mem.cellsOf, Mem.read]
  | cons b bs ih =>
    have key : a + 1 ≤ x → (b :: bs).getD (x - a) Mem.default = bs.getD (x - (a + 1)) Mem.default := by
      intro h; rw [show x - a = (x - (a + 1)) + 1 by omega]; simp
    have ih := ih (a + 1)
    unfold Mem.cellsOf
    rcases Nat.lt_trichotomy x a with h | h | h
    · rw [if_neg (show ¬ a + 1 ≤ x by omega)] at ih
      rw [if_neg (show ¬ a ≤ x by omega)]
      split
      · exact ih
      · rw [Mem.read, if_neg (show ¬ a = x by omega)]; exact ih
    · subst h
      rw [if_neg (show ¬ x + 1 ≤ x by omega)] at ih
      split
      · rw [ih]; simp [*]
      · simp [Mem.read]
    · rw [if_pos (show a + 1 ≤ x by omega)] at ih
      rw [if_pos (show a ≤ x by omega), key h]
      split
      · exact ih
      · rw [Mem.read, if_neg (show ¬ a = x by omega)]; exact ih

/-! ### Writing -/

theorem Mem.wf_writeBytes (m : Mem) (a : Nat) (bs : List Byte) (h : m.wf = true) : (m.writeBytes a bs).wf = true :=
  Mem.wfFrom_append _ _ (Mem.below_wfFrom _ _ _ h) (Mem.below_endsBy _ _) (Nat.zero_le _)
    (Mem.wfFrom_append _ _ (Mem.cellsOf_wfFrom _ _) (Mem.cellsOf_endsBy _ _) (by omega) (Mem.above_wfFrom _ _ _ h))

/-- Reading after writing: the byte written inside the run, the byte before outside it. -/
theorem Mem.read_writeBytes (m : Mem) (a : Nat) (bs : List Byte) (x : Nat) (h : m.wf = true) :
    (m.writeBytes a bs).read x = if a ≤ x ∧ x < a + bs.length then bs.getD (x - a) Mem.default else m.read x := by
  have hk : Mem.wfFrom a (Mem.cellsOf a bs ++ m.above (a + bs.length)) = true :=
    Mem.wfFrom_append _ _ (Mem.cellsOf_wfFrom _ _) (Mem.cellsOf_endsBy _ _) (by omega) (Mem.above_wfFrom _ _ _ h)
  rw [Mem.writeBytes, Mem.read_append _ _ (Mem.below_endsBy _ _) hk,
    Mem.read_append _ _ (Mem.cellsOf_endsBy _ _) (Mem.above_wfFrom _ _ _ h)]
  by_cases h1 : x < a
  · simp only [h1, if_true, show ¬ (a ≤ x ∧ x < a + bs.length) by omega, if_false]
    exact Mem.read_belowPart _ _ _ _ h h1
  · by_cases h2 : x < a + bs.length
    · simp only [h1, if_false, h2, if_true, show a ≤ x by omega, true_and, Mem.read_cellsOf]
    · simp only [h1, if_false, h2, and_false]
      exact Mem.read_abovePart _ _ _ (by omega)

theorem Mem.wf_write (m : Mem) (a : Nat) (b : Byte) (h : m.wf = true) : (m.write a b).wf = true := Mem.wf_writeBytes _ _ _ h

theorem Mem.read_write (m : Mem) (a : Nat) (b : Byte) (x : Nat) (h : m.wf = true) :
    (m.write a b).read x = if x = a then b else m.read x := by
  rw [Mem.write, Mem.read_writeBytes _ _ _ _ h]
  by_cases hx : x = a
  · subst hx; simp
  · have : ¬ (a ≤ x ∧ x < a + [b].length) := by simp only [List.length_singleton]; omega
    simp only [this, if_false, hx]

theorem Mem.wf_writeCells (m : Mem) (cs : List (Nat × Byte)) (h : m.wf = true) : (m.writeCells cs).wf = true := by
  induction cs generalizing m with
  | nil => exact h
  | cons c cs ih => exact ih _ (Mem.wf_write _ _ _ h)

/-- Writing at listed addresses leaves every other address. -/
theorem Mem.read_writeCells_other (m : Mem) (cs : List (Nat × Byte)) (x : Nat) (h : m.wf = true) (hx : ∀ c ∈ cs, c.1 ≠ x) :
    (m.writeCells cs).read x = m.read x := by
  induction cs generalizing m with
  | nil => rfl
  | cons c cs ih =>
    have := ih (m.write c.1 c.2) (Mem.wf_write _ _ _ h) (fun d hd => hx d (by simp [hd]))
    rw [Mem.read_write _ _ _ _ h, if_neg (Ne.symm (hx c (by simp)))] at this
    exact this

theorem Mem.wf_writeWord (m : Mem) (a : Nat) (w : Word) (h : m.wf = true) : (m.writeWord a w).wf = true :=
  Mem.wf_writeBytes _ _ _ h

/-! ### Clearing -/

theorem Mem.wf_clear (m : Mem) (a n : Nat) (h : m.wf = true) : (m.clear a n).wf = true :=
  Mem.wfFrom_append _ _ (Mem.below_wfFrom _ _ _ h) (Mem.below_endsBy _ _) (Nat.zero_le _)
    (Mem.wfFrom_mono (by omega) _ (Mem.above_wfFrom _ (a + n) _ h))

theorem Mem.read_clear (m : Mem) (a n x : Nat) (h : m.wf = true) :
    (m.clear a n).read x = if a ≤ x ∧ x < a + n then Mem.default else m.read x := by
  rw [Mem.clear, Mem.read_append _ _ (Mem.below_endsBy _ _)
    (Mem.wfFrom_mono (show a ≤ a + n by omega) _ (Mem.above_wfFrom _ _ _ h))]
  by_cases h1 : x < a
  · simp only [h1, if_true, show ¬ (a ≤ x ∧ x < a + n) by omega, if_false]
    exact Mem.read_belowPart _ _ _ _ h h1
  · by_cases h2 : x < a + n
    · simp only [h1, if_false, h2, show a ≤ x by omega, and_self, if_true]
      exact Mem.read_below _ (Mem.above_wfFrom _ _ _ h) h2
    · simp only [h1, if_false, h2, and_false]
      exact Mem.read_abovePart _ _ _ (by omega)

/-! ### Reading runs -/

theorem Mem.fill_eq (n a : Nat) (m : Mem) (h : Mem.wfFrom a m = true) :
    Mem.fill n a m = (List.range n).map (fun i => m.read (a + i)) := by
  induction n generalizing a m with
  | zero => rfl
  | succ n ih =>
    rw [List.range_succ_eq_map, List.map_cons, List.map_map]
    cases m with
    | nil =>
      rw [Mem.fill, ih _ _ rfl]
      simp [Mem.read, Function.comp_def]
    | cons p m =>
      obtain ⟨x, b⟩ := p
      simp only [Mem.wfFrom, Bool.and_eq_true, decide_eq_true_eq] at h
      unfold Mem.fill
      split
      · rename_i e
        subst e
        rw [ih _ _ h.2]
        simp [Mem.read, Function.comp_def]
        intro i _
        rw [show x + 1 + i = x + (i + 1) by omega]
      · have hx : a + 1 ≤ x := by omega
        rw [ih _ _ (by simp [Mem.wfFrom, hx, h.1.2, h.2])]
        simp only [Function.comp_def, Nat.add_zero, List.cons.injEq]
        refine ⟨?_, ?_⟩
        · rw [Mem.read, if_neg (by omega)]
          exact (Mem.read_below m h.2 (by omega)).symm
        · apply List.map_congr_left
          intro i _
          rw [show a + 1 + i = a + i.succ by omega]

theorem Mem.readBytes_eq (m : Mem) (a n : Nat) (h : m.wf = true) :
    m.readBytes a n = (List.range n).map (fun i => m.read (a + i)) := by
  rw [Mem.readBytes, Mem.fill_eq _ _ _ (Mem.above_wfFrom _ _ _ h)]
  apply List.map_congr_left
  intro i _
  exact Mem.read_abovePart _ _ _ (by omega)

/-- Equal memories are equal data: two memories in canonical form that read alike are one list. -/
theorem Mem.ext_wfFrom (m k : Mem) (lo : Nat) (hm : Mem.wfFrom lo m = true) (hk : Mem.wfFrom lo k = true)
    (h : ∀ a, m.read a = k.read a) : m = k := by
  induction m generalizing k lo with
  | nil =>
    cases k with
    | nil => rfl
    | cons p k =>
      obtain ⟨x, b⟩ := p
      have := h x
      simp only [Mem.wfFrom, Bool.and_eq_true, bne_iff_ne] at hk
      simp [Mem.read] at this
      exact absurd this.symm hk.1.2
  | cons p m ih =>
    obtain ⟨x, b⟩ := p
    simp only [Mem.wfFrom, Bool.and_eq_true, decide_eq_true_eq, bne_iff_ne] at hm
    cases k with
    | nil =>
      have := h x
      simp [Mem.read] at this
      exact absurd this hm.1.2
    | cons q k =>
      obtain ⟨y, d⟩ := q
      simp only [Mem.wfFrom, Bool.and_eq_true, decide_eq_true_eq, bne_iff_ne] at hk
      have hxy : x = y := by
        rcases Nat.lt_trichotomy x y with l | l | l
        · have := h x
          rw [Mem.read, if_pos rfl, Mem.read, if_neg (by omega), Mem.read_below k hk.2 (by omega)] at this
          exact absurd this hm.1.2
        · exact l
        · have := h y
          rw [Mem.read, if_neg (by omega), Mem.read_below m hm.2 (by omega), Mem.read, if_pos rfl] at this
          exact absurd this.symm hk.1.2
      subst hxy
      have hb := h x
      simp only [Mem.read, if_true] at hb
      subst hb
      have : m = k := ih k (x + 1) hm.2 hk.2 (fun a => by
        by_cases e : x = a
        · subst e; rw [Mem.read_below m hm.2 (by omega), Mem.read_below k hk.2 (by omega)]
        · have := h a; simp only [Mem.read, e, if_false] at this; exact this)
      rw [this]

theorem Mem.ext_wf (m k : Mem) (hm : m.wf = true) (hk : k.wf = true) (h : ∀ a, m.read a = k.read a) : m = k :=
  Mem.ext_wfFrom m k 0 hm hk h

end Sys2Proof.Machine
end

