-- ==== Sys2Proof/Laws/PerInstr.lean ====
section
/-! SUPPORT. Per-instruction laws: for each constructor of `Instr`, that the words of a well-formed op, read back
without any check, give that op and leave no word over. -/

namespace Sys2Proof.Laws

open Machine

/-- What the family RoundTrip says of an instruction: if it is an op and well formed, its words read back as it. -/
def RoundTrip.Statement (i : Instr) : Prop :=
  isOp i = true → WellFormed i → decodeRaw (encode i) = some (i, [])

theorem RoundTrip.add (f : RegF) : RoundTrip.Statement (.add f) :=
  fun _ _ => decodeRaw_one _ rfl (decodeWord_reg 0x00#8 f none)
theorem RoundTrip.sub (f : RegF) : RoundTrip.Statement (.sub f) :=
  fun _ _ => decodeRaw_one _ rfl (decodeWord_reg 0x01#8 f none)
theorem RoundTrip.mul (f : RegF) : RoundTrip.Statement (.mul f) :=
  fun _ _ => decodeRaw_one _ rfl (decodeWord_reg 0x02#8 f none)
theorem RoundTrip.mulh (f : RegF) : RoundTrip.Statement (.mulh f) :=
  fun _ _ => decodeRaw_one _ rfl (decodeWord_reg 0x03#8 f none)
theorem RoundTrip.div (f : RegF) : RoundTrip.Statement (.div f) :=
  fun _ _ => decodeRaw_one _ rfl (decodeWord_reg 0x04#8 f none)
theorem RoundTrip.rem (f : RegF) : RoundTrip.Statement (.rem f) :=
  fun _ _ => decodeRaw_one _ rfl (decodeWord_reg 0x05#8 f none)
theorem RoundTrip.and (f : RegF) : RoundTrip.Statement (.and f) :=
  fun _ _ => decodeRaw_one _ rfl (decodeWord_reg 0x06#8 f none)
theorem RoundTrip.or (f : RegF) : RoundTrip.Statement (.or f) :=
  fun _ _ => decodeRaw_one _ rfl (decodeWord_reg 0x07#8 f none)
theorem RoundTrip.xor (f : RegF) : RoundTrip.Statement (.xor f) :=
  fun _ _ => decodeRaw_one _ rfl (decodeWord_reg 0x08#8 f none)
theorem RoundTrip.andn (f : RegF) : RoundTrip.Statement (.andn f) :=
  fun _ _ => decodeRaw_one _ rfl (decodeWord_reg 0x09#8 f none)
theorem RoundTrip.shl (f : RegF) : RoundTrip.Statement (.shl f) :=
  fun _ _ => decodeRaw_one _ rfl (decodeWord_reg 0x0a#8 f none)
theorem RoundTrip.shr (f : RegF) : RoundTrip.Statement (.shr f) :=
  fun _ _ => decodeRaw_one _ rfl (decodeWord_reg 0x0b#8 f none)
theorem RoundTrip.sar (f : RegF) : RoundTrip.Statement (.sar f) :=
  fun _ _ => decodeRaw_one _ rfl (decodeWord_reg 0x0c#8 f none)
theorem RoundTrip.rot (f : RegF) : RoundTrip.Statement (.rot f) :=
  fun _ _ => decodeRaw_one _ rfl (decodeWord_reg 0x0d#8 f none)
theorem RoundTrip.clz (f : RegF) : RoundTrip.Statement (.clz f) :=
  fun _ _ => decodeRaw_one _ rfl (decodeWord_reg 0x0e#8 f none)
theorem RoundTrip.popc (f : RegF) : RoundTrip.Statement (.popc f) :=
  fun _ _ => decodeRaw_one _ rfl (decodeWord_reg 0x0f#8 f none)
theorem RoundTrip.min (f : RegF) : RoundTrip.Statement (.min f) :=
  fun _ _ => decodeRaw_one _ rfl (decodeWord_reg 0x10#8 f none)
theorem RoundTrip.max (f : RegF) : RoundTrip.Statement (.max f) :=
  fun _ _ => decodeRaw_one _ rfl (decodeWord_reg 0x11#8 f none)
theorem RoundTrip.minu (f : RegF) : RoundTrip.Statement (.minu f) :=
  fun _ _ => decodeRaw_one _ rfl (decodeWord_reg 0x12#8 f none)
theorem RoundTrip.maxu (f : RegF) : RoundTrip.Statement (.maxu f) :=
  fun _ _ => decodeRaw_one _ rfl (decodeWord_reg 0x13#8 f none)
theorem RoundTrip.sel (f : RegF) : RoundTrip.Statement (.sel f) :=
  fun _ _ => decodeRaw_one _ rfl (decodeWord_reg 0x14#8 f none)
theorem RoundTrip.cmp (f : RegF) : RoundTrip.Statement (.cmp f) :=
  fun _ _ => decodeRaw_one _ rfl (decodeWord_reg 0x15#8 f none)
theorem RoundTrip.madd (f : RegF) : RoundTrip.Statement (.madd f) :=
  fun _ _ => decodeRaw_one _ rfl (decodeWord_reg 0x16#8 f none)
theorem RoundTrip.extr (f : RegF) : RoundTrip.Statement (.extr f) :=
  fun _ _ => decodeRaw_one _ rfl (decodeWord_reg 0x17#8 f none)
theorem RoundTrip.ins (f : RegF) : RoundTrip.Statement (.ins f) :=
  fun _ _ => decodeRaw_one _ rfl (decodeWord_reg 0x18#8 f none)
theorem RoundTrip.bswap (f : RegF) : RoundTrip.Statement (.bswap f) :=
  fun _ _ => decodeRaw_one _ rfl (decodeWord_reg 0x19#8 f none)
theorem RoundTrip.shadd (f : RegF) : RoundTrip.Statement (.shadd f) :=
  fun _ _ => decodeRaw_one _ rfl (decodeWord_reg 0x1a#8 f none)
theorem RoundTrip.movc (f : RegF) : RoundTrip.Statement (.movc f) :=
  fun _ _ => decodeRaw_one _ rfl (decodeWord_reg 0x1b#8 f none)
theorem RoundTrip.pair (f : PairF) : RoundTrip.Statement (.pair f) :=
  fun _ _ => decodeRaw_one _ rfl (decodeWord_pair f none)
theorem RoundTrip.addi (f : ImmF) : RoundTrip.Statement (.addi f) :=
  fun _ _ => decodeRaw_one _ rfl (decodeWord_imm 0x00#8 f none)
theorem RoundTrip.andi (f : ImmF) : RoundTrip.Statement (.andi f) :=
  fun _ _ => decodeRaw_one _ rfl (decodeWord_imm 0x01#8 f none)
theorem RoundTrip.ori (f : ImmF) : RoundTrip.Statement (.ori f) :=
  fun _ _ => decodeRaw_one _ rfl (decodeWord_imm 0x02#8 f none)
theorem RoundTrip.xori (f : ImmF) : RoundTrip.Statement (.xori f) :=
  fun _ _ => decodeRaw_one _ rfl (decodeWord_imm 0x03#8 f none)
theorem RoundTrip.shli (f : ImmF) : RoundTrip.Statement (.shli f) :=
  fun _ _ => decodeRaw_one _ rfl (decodeWord_imm 0x04#8 f none)
theorem RoundTrip.shri (f : ImmF) : RoundTrip.Statement (.shri f) :=
  fun _ _ => decodeRaw_one _ rfl (decodeWord_imm 0x05#8 f none)
theorem RoundTrip.sari (f : ImmF) : RoundTrip.Statement (.sari f) :=
  fun _ _ => decodeRaw_one _ rfl (decodeWord_imm 0x06#8 f none)
theorem RoundTrip.li (f : ImmF) : RoundTrip.Statement (.li f) :=
  fun _ _ => decodeRaw_one _ rfl (decodeWord_imm 0x07#8 f none)
theorem RoundTrip.lih (f : ImmF) : RoundTrip.Statement (.lih f) :=
  fun _ _ => decodeRaw_one _ rfl (decodeWord_imm 0x08#8 f none)
theorem RoundTrip.cmpi (f : ImmF) : RoundTrip.Statement (.cmpi f) :=
  fun _ _ => decodeRaw_one _ rfl (decodeWord_imm 0x09#8 f none)
theorem RoundTrip.muli (f : ImmF) : RoundTrip.Statement (.muli f) :=
  fun _ _ => decodeRaw_one _ rfl (decodeWord_imm 0x0a#8 f none)
theorem RoundTrip.vadd (f : RegF) : RoundTrip.Statement (.vadd f) :=
  fun _ _ => decodeRaw_one _ rfl (decodeWord_reg 0x40#8 f none)
theorem RoundTrip.vsub (f : RegF) : RoundTrip.Statement (.vsub f) :=
  fun _ _ => decodeRaw_one _ rfl (decodeWord_reg 0x41#8 f none)
theorem RoundTrip.vmul (f : RegF) : RoundTrip.Statement (.vmul f) :=
  fun _ _ => decodeRaw_one _ rfl (decodeWord_reg 0x42#8 f none)
theorem RoundTrip.vmulh (f : RegF) : RoundTrip.Statement (.vmulh f) :=
  fun _ _ => decodeRaw_one _ rfl (decodeWord_reg 0x43#8 f none)
theorem RoundTrip.vmin (f : RegF) : RoundTrip.Statement (.vmin f) :=
  fun _ _ => decodeRaw_one _ rfl (decodeWord_reg 0x44#8 f none)
theorem RoundTrip.vmax (f : RegF) : RoundTrip.Statement (.vmax f) :=
  fun _ _ => decodeRaw_one _ rfl (decodeWord_reg 0x45#8 f none)
theorem RoundTrip.vand (f : RegF) : RoundTrip.Statement (.vand f) :=
  fun _ _ => decodeRaw_one _ rfl (decodeWord_reg 0x46#8 f none)
theorem RoundTrip.vor (f : RegF) : RoundTrip.Statement (.vor f) :=
  fun _ _ => decodeRaw_one _ rfl (decodeWord_reg 0x47#8 f none)
theorem RoundTrip.vxor (f : RegF) : RoundTrip.Statement (.vxor f) :=
  fun _ _ => decodeRaw_one _ rfl (decodeWord_reg 0x48#8 f none)
theorem RoundTrip.vandn (f : RegF) : RoundTrip.Statement (.vandn f) :=
  fun _ _ => decodeRaw_one _ rfl (decodeWord_reg 0x49#8 f none)
theorem RoundTrip.vshl (f : RegF) : RoundTrip.Statement (.vshl f) :=
  fun _ _ => decodeRaw_one _ rfl (decodeWord_reg 0x4a#8 f none)
theorem RoundTrip.vshr (f : RegF) : RoundTrip.Statement (.vshr f) :=
  fun _ _ => decodeRaw_one _ rfl (decodeWord_reg 0x4b#8 f none)
theorem RoundTrip.vsar (f : RegF) : RoundTrip.Statement (.vsar f) :=
  fun _ _ => decodeRaw_one _ rfl (decodeWord_reg 0x4c#8 f none)
theorem RoundTrip.vabs (f : RegF) : RoundTrip.Statement (.vabs f) :=
  fun _ _ => decodeRaw_one _ rfl (decodeWord_reg 0x4d#8 f none)
theorem RoundTrip.vcmp (f : RegF) : RoundTrip.Statement (.vcmp f) :=
  fun _ _ => decodeRaw_one _ rfl (decodeWord_reg 0x4e#8 f none)
theorem RoundTrip.vsel (f : RegF) : RoundTrip.Statement (.vsel f) :=
  fun _ _ => decodeRaw_one _ rfl (decodeWord_reg 0x4f#8 f none)
theorem RoundTrip.vdot4 (f : RegF) : RoundTrip.Statement (.vdot4 f) :=
  fun _ _ => decodeRaw_one _ rfl (decodeWord_reg 0x50#8 f none)
theorem RoundTrip.vmadd (f : RegF) : RoundTrip.Statement (.vmadd f) :=
  fun _ _ => decodeRaw_one _ rfl (decodeWord_reg 0x51#8 f none)
theorem RoundTrip.vpopc (f : RegF) : RoundTrip.Statement (.vpopc f) :=
  fun _ _ => decodeRaw_one _ rfl (decodeWord_reg 0x52#8 f none)
theorem RoundTrip.vfadd (f : RegF) : RoundTrip.Statement (.vfadd f) :=
  fun _ _ => decodeRaw_one _ rfl (decodeWord_reg 0x80#8 f none)
theorem RoundTrip.vfsub (f : RegF) : RoundTrip.Statement (.vfsub f) :=
  fun _ _ => decodeRaw_one _ rfl (decodeWord_reg 0x81#8 f none)
theorem RoundTrip.vfmul (f : RegF) : RoundTrip.Statement (.vfmul f) :=
  fun _ _ => decodeRaw_one _ rfl (decodeWord_reg 0x82#8 f none)
theorem RoundTrip.vfma (f : RegF) : RoundTrip.Statement (.vfma f) :=
  fun _ _ => decodeRaw_one _ rfl (decodeWord_reg 0x83#8 f none)
theorem RoundTrip.vfnma (f : RegF) : RoundTrip.Statement (.vfnma f) :=
  fun _ _ => decodeRaw_one _ rfl (decodeWord_reg 0x84#8 f none)
theorem RoundTrip.vfmin (f : RegF) : RoundTrip.Statement (.vfmin f) :=
  fun _ _ => decodeRaw_one _ rfl (decodeWord_reg 0x85#8 f none)
theorem RoundTrip.vfmax (f : RegF) : RoundTrip.Statement (.vfmax f) :=
  fun _ _ => decodeRaw_one _ rfl (decodeWord_reg 0x86#8 f none)
theorem RoundTrip.vfabs (f : RegF) : RoundTrip.Statement (.vfabs f) :=
  fun _ _ => decodeRaw_one _ rfl (decodeWord_reg 0x87#8 f none)
theorem RoundTrip.vfneg (f : RegF) : RoundTrip.Statement (.vfneg f) :=
  fun _ _ => decodeRaw_one _ rfl (decodeWord_reg 0x88#8 f none)
theorem RoundTrip.vfcmp (f : RegF) : RoundTrip.Statement (.vfcmp f) :=
  fun _ _ => decodeRaw_one _ rfl (decodeWord_reg 0x89#8 f none)
theorem RoundTrip.vfrcp (f : RegF) : RoundTrip.Statement (.vfrcp f) :=
  fun _ _ => decodeRaw_one _ rfl (decodeWord_reg 0x8a#8 f none)
theorem RoundTrip.vfrsq (f : RegF) : RoundTrip.Statement (.vfrsq f) :=
  fun _ _ => decodeRaw_one _ rfl (decodeWord_reg 0x8b#8 f none)
theorem RoundTrip.vfexp2 (f : RegF) : RoundTrip.Statement (.vfexp2 f) :=
  fun _ _ => decodeRaw_one _ rfl (decodeWord_reg 0x8c#8 f none)
theorem RoundTrip.vflog2 (f : RegF) : RoundTrip.Statement (.vflog2 f) :=
  fun _ _ => decodeRaw_one _ rfl (decodeWord_reg 0x8d#8 f none)
theorem RoundTrip.vfdiv (f : RegF) : RoundTrip.Statement (.vfdiv f) :=
  fun _ _ => decodeRaw_one _ rfl (decodeWord_reg 0x8e#8 f none)
theorem RoundTrip.vfsqrt (f : RegF) : RoundTrip.Statement (.vfsqrt f) :=
  fun _ _ => decodeRaw_one _ rfl (decodeWord_reg 0x8f#8 f none)
theorem RoundTrip.vfclass (f : RegF) : RoundTrip.Statement (.vfclass f) :=
  fun _ _ => decodeRaw_one _ rfl (decodeWord_reg 0x90#8 f none)
theorem RoundTrip.vfscale (f : RegF) : RoundTrip.Statement (.vfscale f) :=
  fun _ _ => decodeRaw_one _ rfl (decodeWord_reg 0x91#8 f none)
theorem RoundTrip.vfdot2 (f : RegF) : RoundTrip.Statement (.vfdot2 f) :=
  fun _ _ => decodeRaw_one _ rfl (decodeWord_reg 0x92#8 f none)
theorem RoundTrip.vcvt (f : RegF) : RoundTrip.Statement (.vcvt f) :=
  fun _ _ => decodeRaw_one _ rfl (decodeWord_reg 0xc0#8 f none)
theorem RoundTrip.vqnt (f : RegF) : RoundTrip.Statement (.vqnt f) :=
  fun _ _ => decodeRaw_one _ rfl (decodeWord_reg 0xc1#8 f none)
theorem RoundTrip.vdqnt (f : RegF) : RoundTrip.Statement (.vdqnt f) :=
  fun _ _ => decodeRaw_one _ rfl (decodeWord_reg 0xc2#8 f none)
theorem RoundTrip.vlcd (f : RegF) : RoundTrip.Statement (.vlcd f) :=
  fun _ _ => decodeRaw_one _ rfl (decodeWord_reg 0xc3#8 f none)
theorem RoundTrip.vperm (f : RegF) : RoundTrip.Statement (.vperm f) :=
  fun _ _ => decodeRaw_one _ rfl (decodeWord_reg 0xc5#8 f none)
theorem RoundTrip.vshuf (f : RegF) : RoundTrip.Statement (.vshuf f) :=
  fun _ _ => decodeRaw_one _ rfl (decodeWord_reg 0xc6#8 f none)
theorem RoundTrip.vbcast (f : RegF) : RoundTrip.Statement (.vbcast f) :=
  fun _ _ => decodeRaw_one _ rfl (decodeWord_reg 0xc7#8 f none)
theorem RoundTrip.vred (f : RegF) : RoundTrip.Statement (.vred f) :=
  fun _ _ => decodeRaw_one _ rfl (decodeWord_reg 0xc8#8 f none)
theorem RoundTrip.vscan (f : RegF) : RoundTrip.Statement (.vscan f) :=
  fun _ _ => decodeRaw_one _ rfl (decodeWord_reg 0xc9#8 f none)
theorem RoundTrip.vcmprs (f : RegF) : RoundTrip.Statement (.vcmprs f) :=
  fun _ _ => decodeRaw_one _ rfl (decodeWord_reg 0xca#8 f none)
theorem RoundTrip.vexpnd (f : RegF) : RoundTrip.Statement (.vexpnd f) :=
  fun _ _ => decodeRaw_one _ rfl (decodeWord_reg 0xcb#8 f none)
theorem RoundTrip.vslide (f : RegF) : RoundTrip.Statement (.vslide f) :=
  fun _ _ => decodeRaw_one _ rfl (decodeWord_reg 0xcc#8 f none)
theorem RoundTrip.vclmul (f : RegF) : RoundTrip.Statement (.vclmul f) :=
  fun _ _ => decodeRaw_one _ rfl (decodeWord_reg 0xcd#8 f none)
theorem RoundTrip.vextr (f : RegF) : RoundTrip.Statement (.vextr f) :=
  fun _ _ => decodeRaw_one _ rfl (decodeWord_reg 0xcf#8 f none)
theorem RoundTrip.vins (f : RegF) : RoundTrip.Statement (.vins f) :=
  fun _ _ => decodeRaw_one _ rfl (decodeWord_reg 0xd0#8 f none)
theorem RoundTrip.vretag (f : RegF) : RoundTrip.Statement (.vretag f) :=
  fun _ _ => decodeRaw_one _ rfl (decodeWord_reg 0xd1#8 f none)
theorem RoundTrip.vli (f : ImmF) : RoundTrip.Statement (.vli f) :=
  fun _ _ => decodeRaw_one _ rfl (decodeWord_imm 0x40#8 f none)
theorem RoundTrip.vaddi (f : ImmF) : RoundTrip.Statement (.vaddi f) :=
  fun _ _ => decodeRaw_one _ rfl (decodeWord_imm 0x41#8 f none)
theorem RoundTrip.seed (f : SysF) : RoundTrip.Statement (.seed f) :=
  fun _ _ => decodeRaw_one _ rfl (decodeWord_sys 0x0f#8 f none)
theorem RoundTrip.rngpop (f : SysF) : RoundTrip.Statement (.rngpop f) :=
  fun _ _ => decodeRaw_one _ rfl (decodeWord_sys 0x10#8 f none)
theorem RoundTrip.ld (f : MemF) : RoundTrip.Statement (.ld f) :=
  fun _ _ => decodeRaw_one _ rfl (decodeWord_mem 0x00#8 f none)
theorem RoundTrip.ldu (f : MemF) : RoundTrip.Statement (.ldu f) :=
  fun _ _ => decodeRaw_one _ rfl (decodeWord_mem 0x01#8 f none)
theorem RoundTrip.st (f : MemF) : RoundTrip.Statement (.st f) :=
  fun _ _ => decodeRaw_one _ rfl (decodeWord_mem 0x02#8 f none)
theorem RoundTrip.ldp (f : MemF) : RoundTrip.Statement (.ldp f) :=
  fun _ _ => decodeRaw_one _ rfl (decodeWord_mem 0x03#8 f none)
theorem RoundTrip.stp (f : MemF) : RoundTrip.Statement (.stp f) :=
  fun _ _ => decodeRaw_one _ rfl (decodeWord_mem 0x04#8 f none)
theorem RoundTrip.vld (f : MemF) : RoundTrip.Statement (.vld f) :=
  fun _ _ => decodeRaw_one _ rfl (decodeWord_mem 0x20#8 f none)
theorem RoundTrip.vst (f : MemF) : RoundTrip.Statement (.vst f) :=
  fun _ _ => decodeRaw_one _ rfl (decodeWord_mem 0x21#8 f none)
theorem RoundTrip.vlds (f : MemF) : RoundTrip.Statement (.vlds f) :=
  fun _ _ => decodeRaw_one _ rfl (decodeWord_mem 0x22#8 f none)
theorem RoundTrip.vsts (f : MemF) : RoundTrip.Statement (.vsts f) :=
  fun _ _ => decodeRaw_one _ rfl (decodeWord_mem 0x23#8 f none)
theorem RoundTrip.vldx (f : MemF) : RoundTrip.Statement (.vldx f) :=
  fun _ _ => decodeRaw_one _ rfl (decodeWord_mem 0x24#8 f none)
theorem RoundTrip.vstx (f : MemF) : RoundTrip.Statement (.vstx f) :=
  fun _ _ => decodeRaw_one _ rfl (decodeWord_mem 0x25#8 f none)
theorem RoundTrip.vldb (f : MemF) : RoundTrip.Statement (.vldb f) :=
  fun _ _ => decodeRaw_one _ rfl (decodeWord_mem 0x26#8 f none)
theorem RoundTrip.aadd (f : MemF) : RoundTrip.Statement (.aadd f) :=
  fun _ _ => decodeRaw_one _ rfl (decodeWord_mem 0x40#8 f none)
theorem RoundTrip.amin (f : MemF) : RoundTrip.Statement (.amin f) :=
  fun _ _ => decodeRaw_one _ rfl (decodeWord_mem 0x41#8 f none)
theorem RoundTrip.amax (f : MemF) : RoundTrip.Statement (.amax f) :=
  fun _ _ => decodeRaw_one _ rfl (decodeWord_mem 0x42#8 f none)
theorem RoundTrip.aand (f : MemF) : RoundTrip.Statement (.aand f) :=
  fun _ _ => decodeRaw_one _ rfl (decodeWord_mem 0x43#8 f none)
theorem RoundTrip.aor (f : MemF) : RoundTrip.Statement (.aor f) :=
  fun _ _ => decodeRaw_one _ rfl (decodeWord_mem 0x44#8 f none)
theorem RoundTrip.axor (f : MemF) : RoundTrip.Statement (.axor f) :=
  fun _ _ => decodeRaw_one _ rfl (decodeWord_mem 0x45#8 f none)
theorem RoundTrip.aswp (f : MemF) : RoundTrip.Statement (.aswp f) :=
  fun _ _ => decodeRaw_one _ rfl (decodeWord_mem 0x46#8 f none)
theorem RoundTrip.acas (f : MemF) : RoundTrip.Statement (.acas f) :=
  fun _ _ => decodeRaw_one _ rfl (decodeWord_mem 0x47#8 f none)
theorem RoundTrip.aminu (f : MemF) : RoundTrip.Statement (.aminu f) :=
  fun _ _ => decodeRaw_one _ rfl (decodeWord_mem 0x48#8 f none)
theorem RoundTrip.amaxu (f : MemF) : RoundTrip.Statement (.amaxu f) :=
  fun _ _ => decodeRaw_one _ rfl (decodeWord_mem 0x49#8 f none)
theorem RoundTrip.mark (f : MemF) : RoundTrip.Statement (.mark f) :=
  fun _ _ => decodeRaw_one _ rfl (decodeWord_mem 0x60#8 f none)
theorem RoundTrip.fence (f : MemF) : RoundTrip.Statement (.fence f) :=
  fun _ _ => decodeRaw_one _ rfl (decodeWord_mem 0x61#8 f none)
theorem RoundTrip.cwb (f : MemF) : RoundTrip.Statement (.cwb f) :=
  fun _ _ => decodeRaw_one _ rfl (decodeWord_mem 0x63#8 f none)
theorem RoundTrip.cinv (f : MemF) : RoundTrip.Statement (.cinv f) :=
  fun _ _ => decodeRaw_one _ rfl (decodeWord_mem 0x64#8 f none)
theorem RoundTrip.tzero (f : TileF) : RoundTrip.Statement (.tzero f) :=
  fun _ _ => decodeRaw_one _ rfl (decodeWord_tile 0x00#8 f none)
theorem RoundTrip.tfill (f : TileF) : RoundTrip.Statement (.tfill f) :=
  fun _ _ => decodeRaw_one _ rfl (decodeWord_tile 0x01#8 f none)
theorem RoundTrip.tident (f : TileF) : RoundTrip.Statement (.tident f) :=
  fun _ _ => decodeRaw_one _ rfl (decodeWord_tile 0x02#8 f none)
theorem RoundTrip.tclass (f : TileF) : RoundTrip.Statement (.tclass f) :=
  fun _ _ => decodeRaw_one _ rfl (decodeWord_tile 0x03#8 f none)
theorem RoundTrip.tcopy (f : TileF) : RoundTrip.Statement (.tcopy f) :=
  fun _ _ => decodeRaw_one _ rfl (decodeWord_tile 0x04#8 f none)
theorem RoundTrip.ttag (f : TileF) : RoundTrip.Statement (.ttag f) :=
  fun _ _ => decodeRaw_one _ rfl (decodeWord_tile 0x05#8 f none)
theorem RoundTrip.tmask (f : TileF) : RoundTrip.Statement (.tmask f) :=
  fun _ _ => decodeRaw_one _ rfl (decodeWord_tile 0x06#8 f none)
theorem RoundTrip.tstate (f : TileF) : RoundTrip.Statement (.tstate f) :=
  fun _ _ => decodeRaw_one _ rfl (decodeWord_tile 0x07#8 f none)
theorem RoundTrip.mcfg (f : TileF) : RoundTrip.Statement (.mcfg f) :=
  fun _ _ => decodeRaw_one _ rfl (decodeWord_tile 0x20#8 f none)
theorem RoundTrip.mgo (f : TileF) : RoundTrip.Statement (.mgo f) :=
  fun _ _ => decodeRaw_one _ rfl (decodeWord_tile 0x21#8 f none)
theorem RoundTrip.mswap (f : TileF) : RoundTrip.Statement (.mswap f) :=
  fun _ _ => decodeRaw_one _ rfl (decodeWord_tile 0x22#8 f none)
theorem RoundTrip.mread (f : TileF) : RoundTrip.Statement (.mread f) :=
  fun _ _ => decodeRaw_one _ rfl (decodeWord_tile 0x23#8 f none)
theorem RoundTrip.mdrain (f : TileF) : RoundTrip.Statement (.mdrain f) :=
  fun _ _ => decodeRaw_one _ rfl (decodeWord_tile 0x24#8 f none)
theorem RoundTrip.mzero (f : TileF) : RoundTrip.Statement (.mzero f) :=
  fun _ _ => decodeRaw_one _ rfl (decodeWord_tile 0x25#8 f none)
theorem RoundTrip.mstep (f : TileF) : RoundTrip.Statement (.mstep f) :=
  fun _ _ => decodeRaw_one _ rfl (decodeWord_tile 0x26#8 f none)
theorem RoundTrip.mwload (f : TileF) : RoundTrip.Statement (.mwload f) :=
  fun _ _ => decodeRaw_one _ rfl (decodeWord_tile 0x27#8 f none)
theorem RoundTrip.mstop (f : TileF) : RoundTrip.Statement (.mstop f) :=
  fun _ _ => decodeRaw_one _ rfl (decodeWord_tile 0x28#8 f none)
theorem RoundTrip.cpy (f : EngF) : RoundTrip.Statement (.cpy f) :=
  fun _ _ => decodeRaw_one _ rfl (decodeWord_eng 0x00#8 f none)
theorem RoundTrip.cpy2d (f : EngF) : RoundTrip.Statement (.cpy2d f) :=
  fun _ _ => decodeRaw_one _ rfl (decodeWord_eng 0x01#8 f none)
theorem RoundTrip.csched (f : EngF) : RoundTrip.Statement (.csched f) :=
  fun _ _ => decodeRaw_one _ rfl (decodeWord_eng 0x02#8 f none)
theorem RoundTrip.cstage (f : EngF) : RoundTrip.Statement (.cstage f) :=
  fun _ _ => decodeRaw_one _ rfl (decodeWord_eng 0x03#8 f none)
theorem RoundTrip.ovl (f : EngF) : RoundTrip.Statement (.ovl f) :=
  fun _ _ => decodeRaw_one _ rfl (decodeWord_eng 0x04#8 f none)
theorem RoundTrip.dcpy (f : EngF) : RoundTrip.Statement (.dcpy f) :=
  fun _ _ => decodeRaw_one _ rfl (decodeWord_eng 0x05#8 f none)
theorem RoundTrip.rget (f : EngF) (r : Option RouteF) : RoundTrip.Statement (.rget f r) := by
  intro _ hw
  cases r with
  | none => exact decodeRaw_one _ rfl (decodeWord_eng 0x20#8 f none)
  | some r =>
    have hr := route_of_wellFormed (.rget f (some r)) f r rfl rfl rfl hw
    exact decodeRaw_two _ r rfl (takesRoute_engWord 0x20#8 f hr.1 hr.2 rfl) (decodeWord_eng 0x20#8 f (some r))
theorem RoundTrip.rput (f : EngF) (r : Option RouteF) : RoundTrip.Statement (.rput f r) := by
  intro _ hw
  cases r with
  | none => exact decodeRaw_one _ rfl (decodeWord_eng 0x21#8 f none)
  | some r =>
    have hr := route_of_wellFormed (.rput f (some r)) f r rfl rfl rfl hw
    exact decodeRaw_two _ r rfl (takesRoute_engWord 0x21#8 f hr.1 hr.2 rfl) (decodeWord_eng 0x21#8 f (some r))
theorem RoundTrip.rgath (f : EngF) (r : Option RouteF) : RoundTrip.Statement (.rgath f r) := by
  intro _ hw
  cases r with
  | none => exact decodeRaw_one _ rfl (decodeWord_eng 0x22#8 f none)
  | some r =>
    have hr := route_of_wellFormed (.rgath f (some r)) f r rfl rfl rfl hw
    exact decodeRaw_two _ r rfl (takesRoute_engWord 0x22#8 f hr.1 hr.2 rfl) (decodeWord_eng 0x22#8 f (some r))
theorem RoundTrip.rscat (f : EngF) (r : Option RouteF) : RoundTrip.Statement (.rscat f r) := by
  intro _ hw
  cases r with
  | none => exact decodeRaw_one _ rfl (decodeWord_eng 0x23#8 f none)
  | some r =>
    have hr := route_of_wellFormed (.rscat f (some r)) f r rfl rfl rfl hw
    exact decodeRaw_two _ r rfl (takesRoute_engWord 0x23#8 f hr.1 hr.2 rfl) (decodeWord_eng 0x23#8 f (some r))
theorem RoundTrip.mcst (f : EngF) (r : Option RouteF) : RoundTrip.Statement (.mcst f r) := by
  intro _ hw
  cases r with
  | none => exact decodeRaw_one _ rfl (decodeWord_eng 0x24#8 f none)
  | some r =>
    have hr := route_of_wellFormed (.mcst f (some r)) f r rfl rfl rfl hw
    exact decodeRaw_two _ r rfl (takesRoute_engWord 0x24#8 f hr.1 hr.2 rfl) (decodeWord_eng 0x24#8 f (some r))
theorem RoundTrip.ratom (f : EngF) (r : Option RouteF) : RoundTrip.Statement (.ratom f r) := by
  intro _ hw
  cases r with
  | none => exact decodeRaw_one _ rfl (decodeWord_eng 0x25#8 f none)
  | some r =>
    have hr := route_of_wellFormed (.ratom f (some r)) f r rfl rfl rfl hw
    exact decodeRaw_two _ r rfl (takesRoute_engWord 0x25#8 f hr.1 hr.2 rfl) (decodeWord_eng 0x25#8 f (some r))
theorem RoundTrip.binit (f : EngF) (r : Option RouteF) : RoundTrip.Statement (.binit f r) := by
  intro _ hw
  cases r with
  | none => exact decodeRaw_one _ rfl (decodeWord_eng 0x40#8 f none)
  | some r =>
    have hr := route_of_wellFormed (.binit f (some r)) f r rfl rfl rfl hw
    exact decodeRaw_two _ r rfl (takesRoute_engWord 0x40#8 f hr.1 hr.2 rfl) (decodeWord_eng 0x40#8 f (some r))
theorem RoundTrip.barr (f : EngF) (r : Option RouteF) : RoundTrip.Statement (.barr f r) := by
  intro _ hw
  cases r with
  | none => exact decodeRaw_one _ rfl (decodeWord_eng 0x41#8 f none)
  | some r =>
    have hr := route_of_wellFormed (.barr f (some r)) f r rfl rfl rfl hw
    exact decodeRaw_two _ r rfl (takesRoute_engWord 0x41#8 f hr.1 hr.2 rfl) (decodeWord_eng 0x41#8 f (some r))
theorem RoundTrip.bwait (f : EngF) (r : Option RouteF) : RoundTrip.Statement (.bwait f r) := by
  intro _ hw
  cases r with
  | none => exact decodeRaw_one _ rfl (decodeWord_eng 0x42#8 f none)
  | some r =>
    have hr := route_of_wellFormed (.bwait f (some r)) f r rfl rfl rfl hw
    exact decodeRaw_two _ r rfl (takesRoute_engWord 0x42#8 f hr.1 hr.2 rfl) (decodeWord_eng 0x42#8 f (some r))
theorem RoundTrip.bread (f : EngF) (r : Option RouteF) : RoundTrip.Statement (.bread f r) := by
  intro _ hw
  cases r with
  | none => exact decodeRaw_one _ rfl (decodeWord_eng 0x43#8 f none)
  | some r =>
    have hr := route_of_wellFormed (.bread f (some r)) f r rfl rfl rfl hw
    exact decodeRaw_two _ r rfl (takesRoute_engWord 0x43#8 f hr.1 hr.2 rfl) (decodeWord_eng 0x43#8 f (some r))
theorem RoundTrip.tkwait (f : EngF) : RoundTrip.Statement (.tkwait f) :=
  fun _ _ => decodeRaw_one _ rfl (decodeWord_eng 0x50#8 f none)
theorem RoundTrip.tktest (f : EngF) : RoundTrip.Statement (.tktest f) :=
  fun _ _ => decodeRaw_one _ rfl (decodeWord_eng 0x51#8 f none)
theorem RoundTrip.tkjoin (f : EngF) : RoundTrip.Statement (.tkjoin f) :=
  fun _ _ => decodeRaw_one _ rfl (decodeWord_eng 0x52#8 f none)
theorem RoundTrip.br (f : BrF) : RoundTrip.Statement (.br f) :=
  fun _ _ => decodeRaw_one _ rfl (decodeWord_br 0x00#8 f none)
theorem RoundTrip.brz (f : BrF) : RoundTrip.Statement (.brz f) :=
  fun _ _ => decodeRaw_one _ rfl (decodeWord_br 0x01#8 f none)
theorem RoundTrip.brnz (f : BrF) : RoundTrip.Statement (.brnz f) :=
  fun _ _ => decodeRaw_one _ rfl (decodeWord_br 0x02#8 f none)
theorem RoundTrip.call (f : BrF) : RoundTrip.Statement (.call f) :=
  fun _ _ => decodeRaw_one _ rfl (decodeWord_br 0x03#8 f none)
theorem RoundTrip.ret (f : BrF) : RoundTrip.Statement (.ret f) :=
  fun _ _ => decodeRaw_one _ rfl (decodeWord_br 0x04#8 f none)
theorem RoundTrip.jmpi (f : BrF) : RoundTrip.Statement (.jmpi f) :=
  fun _ _ => decodeRaw_one _ rfl (decodeWord_br 0x05#8 f none)
theorem RoundTrip.loop (f : BrF) : RoundTrip.Statement (.loop f) :=
  fun _ _ => decodeRaw_one _ rfl (decodeWord_br 0x06#8 f none)
theorem RoundTrip.endOp (f : BrF) : RoundTrip.Statement (.endOp f) :=
  fun _ _ => decodeRaw_one _ rfl (decodeWord_br 0x07#8 f none)
theorem RoundTrip.yield (f : BrF) : RoundTrip.Statement (.yield f) :=
  fun _ _ => decodeRaw_one _ rfl (decodeWord_br 0x08#8 f none)
theorem RoundTrip.calli (f : BrF) : RoundTrip.Statement (.calli f) :=
  fun _ _ => decodeRaw_one _ rfl (decodeWord_br 0x09#8 f none)
theorem RoundTrip.csrr (f : SysF) : RoundTrip.Statement (.csrr f) :=
  fun _ _ => decodeRaw_one _ rfl (decodeWord_sys 0x00#8 f none)
theorem RoundTrip.csrw (f : SysF) : RoundTrip.Statement (.csrw f) :=
  fun _ _ => decodeRaw_one _ rfl (decodeWord_sys 0x01#8 f none)
theorem RoundTrip.csrs (f : SysF) : RoundTrip.Statement (.csrs f) :=
  fun _ _ => decodeRaw_one _ rfl (decodeWord_sys 0x02#8 f none)
theorem RoundTrip.csrc (f : SysF) : RoundTrip.Statement (.csrc f) :=
  fun _ _ => decodeRaw_one _ rfl (decodeWord_sys 0x03#8 f none)
theorem RoundTrip.trap (f : SysF) : RoundTrip.Statement (.trap f) :=
  fun _ _ => decodeRaw_one _ rfl (decodeWord_sys 0x04#8 f none)
theorem RoundTrip.eret (f : SysF) : RoundTrip.Statement (.eret f) :=
  fun _ _ => decodeRaw_one _ rfl (decodeWord_sys 0x05#8 f none)
theorem RoundTrip.brk (f : SysF) : RoundTrip.Statement (.brk f) :=
  fun _ _ => decodeRaw_one _ rfl (decodeWord_sys 0x06#8 f none)
theorem RoundTrip.weirset (f : SysF) : RoundTrip.Statement (.weirset f) := by
  intro _ hw
  have hf := fieldsOk_of_wellFormed (.weirset f) rfl hw
  have hi : f.imm = 3#14 := by
    have h2 : (wdOk f.w f.d && f.csr == 0 && f.imm == 3) = true := hf
    simp only [Bool.and_eq_true, beq_iff_eq] at h2
    simp [h2]
  refine decodeRaw_one _ rfl ((decodeWord_sys _ f none).trans ?_)
  simp [sysOp, hi]
theorem RoundTrip.weirsetBa (f : SysF) : RoundTrip.Statement (.weirsetBa f) := by
  intro _ hw
  have hf := fieldsOk_of_wellFormed (.weirsetBa f) rfl hw
  have hi : f.imm = 1#14 := by
    have h2 : (wdOk f.w f.d && f.csr == 0 && f.imm == 1 && unused f.b) = true := hf
    simp only [Bool.and_eq_true, beq_iff_eq] at h2
    simp [h2]
  refine decodeRaw_one _ rfl ((decodeWord_sys _ f none).trans ?_)
  simp [sysOp, hi]
theorem RoundTrip.weirsetWa (f : SysF) : RoundTrip.Statement (.weirsetWa f) := by
  intro _ hw
  have hf := fieldsOk_of_wellFormed (.weirsetWa f) rfl hw
  have hi : f.imm = 2#14 := by
    have h2 : (wdOk f.w f.d && f.csr == 0 && f.imm == 2 && unused f.b) = true := hf
    simp only [Bool.and_eq_true, beq_iff_eq] at h2
    simp [h2]
  refine decodeRaw_one _ rfl ((decodeWord_sys _ f none).trans ?_)
  simp [sysOp, hi]
theorem RoundTrip.weirq (f : SysF) : RoundTrip.Statement (.weirq f) :=
  fun _ _ => decodeRaw_one _ rfl (decodeWord_sys 0x08#8 f none)
theorem RoundTrip.lend (f : SysF) : RoundTrip.Statement (.lend f) :=
  fun _ _ => decodeRaw_one _ rfl (decodeWord_sys 0x09#8 f none)
theorem RoundTrip.revoke (f : SysF) : RoundTrip.Statement (.revoke f) :=
  fun _ _ => decodeRaw_one _ rfl (decodeWord_sys 0x0a#8 f none)
theorem RoundTrip.eddy (f : SysF) : RoundTrip.Statement (.eddy f) := by
  intro _ hw
  have hf := fieldsOk_of_wellFormed (.eddy f) rfl hw
  have hi : f.imm = 0#14 := by
    have h2 : (wdOk f.w f.d && f.csr == 0 && f.imm == 0) = true := hf
    simp only [Bool.and_eq_true, beq_iff_eq] at h2
    simp [h2]
  refine decodeRaw_one _ rfl ((decodeWord_sys _ f none).trans ?_)
  simp [sysOp, hi]
theorem RoundTrip.eddyRes (f : SysF) : RoundTrip.Statement (.eddyRes f) := by
  intro _ hw
  have hf := fieldsOk_of_wellFormed (.eddyRes f) rfl hw
  have hi : f.imm = 1#14 := by
    have h2 : (wdOk f.w f.d && unused f.b && f.csr == 0 && f.imm == 1) = true := hf
    simp only [Bool.and_eq_true, beq_iff_eq] at h2
    simp [h2]
  refine decodeRaw_one _ rfl ((decodeWord_sys _ f none).trans ?_)
  simp [sysOp, hi]
theorem RoundTrip.park (f : SysF) : RoundTrip.Statement (.park f) :=
  fun _ _ => decodeRaw_one _ rfl (decodeWord_sys 0x0c#8 f none)
theorem RoundTrip.launch (f : SysF) : RoundTrip.Statement (.launch f) := by
  intro _ hw
  have hf := fieldsOk_of_wellFormed (.launch f) rfl hw
  have hi : f.imm = 0#14 := by
    have h2 : (wdOk f.w f.d && unused f.b && f.csr == 0 && f.imm == 0) = true := hf
    simp only [Bool.and_eq_true, beq_iff_eq] at h2
    simp [h2]
  refine decodeRaw_one _ rfl ((decodeWord_sys _ f none).trans ?_)
  simp [sysOp, hi]
theorem RoundTrip.launchNb (f : SysF) : RoundTrip.Statement (.launchNb f) := by
  intro _ hw
  have hf := fieldsOk_of_wellFormed (.launchNb f) rfl hw
  have hi : f.imm = 1#14 := by
    have h2 : (wdOk f.w f.d && unused f.b && f.csr == 0 && f.imm == 1) = true := hf
    simp only [Bool.and_eq_true, beq_iff_eq] at h2
    simp [h2]
  refine decodeRaw_one _ rfl ((decodeWord_sys _ f none).trans ?_)
  simp [sysOp, hi]
theorem RoundTrip.launchG (f : SysF) : RoundTrip.Statement (.launchG f) := by
  intro _ hw
  have hf := fieldsOk_of_wellFormed (.launchG f) rfl hw
  have hi : f.imm = 2#14 := by
    have h2 : (wdOk f.w f.d && f.csr == 0 && f.imm == 2) = true := hf
    simp only [Bool.and_eq_true, beq_iff_eq] at h2
    simp [h2]
  refine decodeRaw_one _ rfl ((decodeWord_sys _ f none).trans ?_)
  simp [sysOp, hi]
theorem RoundTrip.ntreq (f : SysF) : RoundTrip.Statement (.ntreq f) := by
  intro _ hw
  have hf := fieldsOk_of_wellFormed (.ntreq f) rfl hw
  have hi : f.imm = 0#14 := by
    have h2 : (noWD f.w f.d && unused f.a && unused f.b && f.csr == 0 && f.imm == 0) = true := hf
    simp only [Bool.and_eq_true, beq_iff_eq] at h2
    simp [h2]
  refine decodeRaw_one _ rfl ((decodeWord_sys _ f none).trans ?_)
  simp [sysOp, hi]
theorem RoundTrip.ntreqPop (f : SysF) : RoundTrip.Statement (.ntreqPop f) := by
  intro _ hw
  have hf := fieldsOk_of_wellFormed (.ntreqPop f) rfl hw
  have hi : f.imm = 1#14 := by
    have h2 : (noWD f.w f.d && unused f.a && unused f.b && f.csr == 0 && f.imm == 1) = true := hf
    simp only [Bool.and_eq_true, beq_iff_eq] at h2
    simp [h2]
  refine decodeRaw_one _ rfl ((decodeWord_sys _ f none).trans ?_)
  simp [sysOp, hi]
theorem RoundTrip.waitev (f : SysF) : RoundTrip.Statement (.waitev f) :=
  fun _ _ => decodeRaw_one _ rfl (decodeWord_sys 0x11#8 f none)
theorem RoundTrip.idle (f : SysF) : RoundTrip.Statement (.idle f) :=
  fun _ _ => decodeRaw_one _ rfl (decodeWord_sys 0x12#8 f none)
theorem RoundTrip.illegalEncoding (w : Word) : RoundTrip.Statement (.illegalEncoding w) :=
  fun _ h => nomatch (show some Machine.Reject.illegalEncoding = none from h)
theorem RoundTrip.machineCheck (m : McheckInfo) : RoundTrip.Statement (.machineCheck m) :=
  fun h => nomatch (show false = true from h)
theorem RoundTrip.firmwareEddyBind (b : EddyBindInfo) : RoundTrip.Statement (.firmwareEddyBind b) :=
  fun h => nomatch (show false = true from h)
theorem RoundTrip.taskBind (b : BindInfo) : RoundTrip.Statement (.taskBind b) :=
  fun h => nomatch (show false = true from h)
theorem RoundTrip.contextRestore (cores : List Nat) : RoundTrip.Statement (.contextRestore cores) :=
  fun h => nomatch (show false = true from h)
theorem RoundTrip.tlbInvalidation (n : InvalInfo) : RoundTrip.Statement (.tlbInvalidation n) :=
  fun h => nomatch (show false = true from h)
theorem RoundTrip.pageMigration (m : MigrateInfo) : RoundTrip.Statement (.pageMigration m) :=
  fun h => nomatch (show false = true from h)
theorem RoundTrip.scrub (bad : Bool) : RoundTrip.Statement (.scrub bad) :=
  fun h => nomatch (show false = true from h)
theorem RoundTrip.debugRead (t : DebugTarget) : RoundTrip.Statement (.debugRead t) :=
  fun h => nomatch (show false = true from h)
theorem RoundTrip.debugWrite (t : DebugTarget) (v : VWord) (tag : Tag) : RoundTrip.Statement (.debugWrite t v tag) :=
  fun h => nomatch (show false = true from h)
theorem RoundTrip.brkPlant (off task : Nat) : RoundTrip.Statement (.brkPlant off task) :=
  fun h => nomatch (show false = true from h)
theorem RoundTrip.fwlenWrite (v : Word) : RoundTrip.Statement (.fwlenWrite v) :=
  fun h => nomatch (show false = true from h)
theorem RoundTrip.hostRegisterWrite (a : BarAccess) (v : Word) : RoundTrip.Statement (.hostRegisterWrite a v) :=
  fun h => nomatch (show false = true from h)
theorem RoundTrip.rom (railOk : Bool) : RoundTrip.Statement (.rom railOk) :=
  fun h => nomatch (show false = true from h)
theorem RoundTrip.loading (readOk : Bool) : RoundTrip.Statement (.loading readOk) :=
  fun h => nomatch (show false = true from h)
theorem RoundTrip.bringup (r : TrainInfo) : RoundTrip.Statement (.bringup r) :=
  fun h => nomatch (show false = true from h)
theorem RoundTrip.selftest (r : TestInfo) : RoundTrip.Statement (.selftest r) :=
  fun h => nomatch (show false = true from h)
theorem RoundTrip.cxlPortRetrain (decs : List CxlDecoder) : RoundTrip.Statement (.cxlPortRetrain decs) :=
  fun h => nomatch (show false = true from h)
theorem RoundTrip.stalledBundleIssue : RoundTrip.Statement .stalledBundleIssue :=
  fun h => nomatch (show false = true from h)
theorem RoundTrip.kindAFault : RoundTrip.Statement .kindAFault :=
  fun h => nomatch (show false = true from h)
theorem RoundTrip.throttleNotice : RoundTrip.Statement .throttleNotice :=
  fun h => nomatch (show false = true from h)
theorem RoundTrip.waitevWake : RoundTrip.Statement .waitevWake :=
  fun h => nomatch (show false = true from h)
theorem RoundTrip.waitevBound : RoundTrip.Statement .waitevBound :=
  fun h => nomatch (show false = true from h)
theorem RoundTrip.yieldExpiry : RoundTrip.Statement .yieldExpiry :=
  fun h => nomatch (show false = true from h)
theorem RoundTrip.contextWake : RoundTrip.Statement .contextWake :=
  fun h => nomatch (show false = true from h)
theorem RoundTrip.nextTileLanding : RoundTrip.Statement .nextTileLanding :=
  fun h => nomatch (show false = true from h)
theorem RoundTrip.sequencerCommandStart : RoundTrip.Statement .sequencerCommandStart :=
  fun h => nomatch (show false = true from h)
theorem RoundTrip.matrixStep : RoundTrip.Statement .matrixStep :=
  fun h => nomatch (show false = true from h)
theorem RoundTrip.mzeroComplete : RoundTrip.Statement .mzeroComplete :=
  fun h => nomatch (show false = true from h)
theorem RoundTrip.mwloadComplete : RoundTrip.Statement .mwloadComplete :=
  fun h => nomatch (show false = true from h)
theorem RoundTrip.mdrainStart : RoundTrip.Statement .mdrainStart :=
  fun h => nomatch (show false = true from h)
theorem RoundTrip.mdrainComplete : RoundTrip.Statement .mdrainComplete :=
  fun h => nomatch (show false = true from h)
theorem RoundTrip.tileOpStart : RoundTrip.Statement .tileOpStart :=
  fun h => nomatch (show false = true from h)
theorem RoundTrip.tileOpComplete : RoundTrip.Statement .tileOpComplete :=
  fun h => nomatch (show false = true from h)
theorem RoundTrip.copyCommandStart : RoundTrip.Statement .copyCommandStart :=
  fun h => nomatch (show false = true from h)
theorem RoundTrip.copyChunkComplete : RoundTrip.Statement .copyChunkComplete :=
  fun h => nomatch (show false = true from h)
theorem RoundTrip.copyCommandComplete : RoundTrip.Statement .copyCommandComplete :=
  fun h => nomatch (show false = true from h)
theorem RoundTrip.ovlComplete : RoundTrip.Statement .ovlComplete :=
  fun h => nomatch (show false = true from h)
theorem RoundTrip.dcpyCommandStart : RoundTrip.Statement .dcpyCommandStart :=
  fun h => nomatch (show false = true from h)
theorem RoundTrip.dcpyChunkComplete : RoundTrip.Statement .dcpyChunkComplete :=
  fun h => nomatch (show false = true from h)
theorem RoundTrip.dcpyComplete : RoundTrip.Statement .dcpyComplete :=
  fun h => nomatch (show false = true from h)
theorem RoundTrip.niCommandStart : RoundTrip.Statement .niCommandStart :=
  fun h => nomatch (show false = true from h)
theorem RoundTrip.remoteRequestArrival : RoundTrip.Statement .remoteRequestArrival :=
  fun h => nomatch (show false = true from h)
theorem RoundTrip.remoteReplyLanding : RoundTrip.Statement .remoteReplyLanding :=
  fun h => nomatch (show false = true from h)
theorem RoundTrip.mcstLanding : RoundTrip.Statement .mcstLanding :=
  fun h => nomatch (show false = true from h)
theorem RoundTrip.binitLanding : RoundTrip.Statement .binitLanding :=
  fun h => nomatch (show false = true from h)
theorem RoundTrip.barrierArrival : RoundTrip.Statement .barrierArrival :=
  fun h => nomatch (show false = true from h)
theorem RoundTrip.bwaitReread : RoundTrip.Statement .bwaitReread :=
  fun h => nomatch (show false = true from h)
theorem RoundTrip.bwaitTimeout : RoundTrip.Statement .bwaitTimeout :=
  fun h => nomatch (show false = true from h)
theorem RoundTrip.revokeSquash : RoundTrip.Statement .revokeSquash :=
  fun h => nomatch (show false = true from h)
theorem RoundTrip.bankPark : RoundTrip.Statement .bankPark :=
  fun h => nomatch (show false = true from h)
theorem RoundTrip.regionReclaim : RoundTrip.Statement .regionReclaim :=
  fun h => nomatch (show false = true from h)
theorem RoundTrip.keepRegionCopyOut : RoundTrip.Statement .keepRegionCopyOut :=
  fun h => nomatch (show false = true from h)
theorem RoundTrip.firmwareRevoke : RoundTrip.Statement .firmwareRevoke :=
  fun h => nomatch (show false = true from h)
theorem RoundTrip.lendComplete : RoundTrip.Statement .lendComplete :=
  fun h => nomatch (show false = true from h)
theorem RoundTrip.eddySave : RoundTrip.Statement .eddySave :=
  fun h => nomatch (show false = true from h)
theorem RoundTrip.eddyBankFree : RoundTrip.Statement .eddyBankFree :=
  fun h => nomatch (show false = true from h)
theorem RoundTrip.contextRelease : RoundTrip.Statement .contextRelease :=
  fun h => nomatch (show false = true from h)
theorem RoundTrip.taskEnd : RoundTrip.Statement .taskEnd :=
  fun h => nomatch (show false = true from h)
theorem RoundTrip.preemptionDecision : RoundTrip.Statement .preemptionDecision :=
  fun h => nomatch (show false = true from h)
theorem RoundTrip.drainTimeout : RoundTrip.Statement .drainTimeout :=
  fun h => nomatch (show false = true from h)
theorem RoundTrip.checkpoint : RoundTrip.Statement .checkpoint :=
  fun h => nomatch (show false = true from h)
theorem RoundTrip.graphNodeLaunch : RoundTrip.Statement .graphNodeLaunch :=
  fun h => nomatch (show false = true from h)
theorem RoundTrip.graphInstanceComplete : RoundTrip.Statement .graphInstanceComplete :=
  fun h => nomatch (show false = true from h)
theorem RoundTrip.intervalBoundary : RoundTrip.Statement .intervalBoundary :=
  fun h => nomatch (show false = true from h)
theorem RoundTrip.patternChange : RoundTrip.Statement .patternChange :=
  fun h => nomatch (show false = true from h)
theorem RoundTrip.permitRefill : RoundTrip.Statement .permitRefill :=
  fun h => nomatch (show false = true from h)
theorem RoundTrip.budgetPeriodStart : RoundTrip.Statement .budgetPeriodStart :=
  fun h => nomatch (show false = true from h)
theorem RoundTrip.dieBudgetPeriodStart : RoundTrip.Statement .dieBudgetPeriodStart :=
  fun h => nomatch (show false = true from h)
theorem RoundTrip.regionPowerOn : RoundTrip.Statement .regionPowerOn :=
  fun h => nomatch (show false = true from h)
theorem RoundTrip.stripeDrowsy : RoundTrip.Statement .stripeDrowsy :=
  fun h => nomatch (show false = true from h)
theorem RoundTrip.refreshSlotAdvance : RoundTrip.Statement .refreshSlotAdvance :=
  fun h => nomatch (show false = true from h)
theorem RoundTrip.migrationRewalk : RoundTrip.Statement .migrationRewalk :=
  fun h => nomatch (show false = true from h)
theorem RoundTrip.invalidationComplete : RoundTrip.Statement .invalidationComplete :=
  fun h => nomatch (show false = true from h)
theorem RoundTrip.debugHalt : RoundTrip.Statement .debugHalt :=
  fun h => nomatch (show false = true from h)
theorem RoundTrip.debugResume : RoundTrip.Statement .debugResume :=
  fun h => nomatch (show false = true from h)
theorem RoundTrip.addressBreakpoint : RoundTrip.Statement .addressBreakpoint :=
  fun h => nomatch (show false = true from h)
theorem RoundTrip.singleStep : RoundTrip.Statement .singleStep :=
  fun h => nomatch (show false = true from h)
theorem RoundTrip.displacedOpExecute : RoundTrip.Statement .displacedOpExecute :=
  fun h => nomatch (show false = true from h)
theorem RoundTrip.load : RoundTrip.Statement .load :=
  fun h => nomatch (show false = true from h)
theorem RoundTrip.unload : RoundTrip.Statement .unload :=
  fun h => nomatch (show false = true from h)
theorem RoundTrip.hostLaunch : RoundTrip.Statement .hostLaunch :=
  fun h => nomatch (show false = true from h)
theorem RoundTrip.graph : RoundTrip.Statement .graph :=
  fun h => nomatch (show false = true from h)
theorem RoundTrip.glaunch : RoundTrip.Statement .glaunch :=
  fun h => nomatch (show false = true from h)
theorem RoundTrip.edit : RoundTrip.Statement .edit :=
  fun h => nomatch (show false = true from h)
theorem RoundTrip.fork : RoundTrip.Statement .fork :=
  fun h => nomatch (show false = true from h)
theorem RoundTrip.setcap : RoundTrip.Statement .setcap :=
  fun h => nomatch (show false = true from h)
theorem RoundTrip.partition : RoundTrip.Statement .partition :=
  fun h => nomatch (show false = true from h)
theorem RoundTrip.hostDrain : RoundTrip.Statement .hostDrain :=
  fun h => nomatch (show false = true from h)
theorem RoundTrip.weights : RoundTrip.Statement .weights :=
  fun h => nomatch (show false = true from h)
theorem RoundTrip.counters : RoundTrip.Statement .counters :=
  fun h => nomatch (show false = true from h)
theorem RoundTrip.unknownOp : RoundTrip.Statement .unknownOp :=
  fun h => nomatch (show false = true from h)
theorem RoundTrip.packageReset : RoundTrip.Statement .packageReset :=
  fun h => nomatch (show false = true from h)
theorem RoundTrip.flitReplay : RoundTrip.Statement .flitReplay :=
  fun h => nomatch (show false = true from h)
theorem RoundTrip.linkRetire : RoundTrip.Statement .linkRetire :=
  fun h => nomatch (show false = true from h)
theorem RoundTrip.routerRetire : RoundTrip.Statement .routerRetire :=
  fun h => nomatch (show false = true from h)
theorem RoundTrip.fabricTimeout : RoundTrip.Statement .fabricTimeout :=
  fun h => nomatch (show false = true from h)
theorem RoundTrip.cxlPortDown : RoundTrip.Statement .cxlPortDown :=
  fun h => nomatch (show false = true from h)
theorem RoundTrip.debugAttach : RoundTrip.Statement .debugAttach :=
  fun h => nomatch (show false = true from h)

end Sys2Proof.Laws
end

