-- ==== Sys2Proof/Laws/Trap.lean ====
section
/-! SUPPORT. Taking a trap at a boundary: a context that sleeps loses its SLEEP bit, then enters its handler, halts, or
traps twice (R129, R185-R187, R191). -/

namespace Sys2Proof.Machine

/-! ### Writes of scratchpad leave every context as it is -/

@[simp] theorem CoreState.updTile_ctxs (x : CoreState) (n : Nat) (f : TileEnt → TileEnt) : (x.updTile n f).ctxs = x.ctxs := rfl

@[simp] theorem CoreState.downgrade_ctxs (x : CoreState) (o : Nat) : (x.downgrade o).ctxs = x.ctxs := rfl

@[simp] theorem CoreState.downgrades_ctxs (os : List Nat) (x : CoreState) : (os.foldl CoreState.downgrade x).ctxs = x.ctxs := by
  induction os generalizing x with
  | nil => rfl
  | cons o os ih => exact (ih _).trans rfl

@[simp] theorem CoreState.spadCells_ctxs (x : CoreState) (l : List (Nat × Byte)) : (x.spadCells l).ctxs = x.ctxs :=
  CoreState.downgrades_ctxs _ _

@[simp] theorem CoreState.spadWrite_ctxs (x : CoreState) (o : Nat) (bs : List Byte) : (x.spadWrite o bs).ctxs = x.ctxs := by
  unfold CoreState.spadWrite
  dsimp only
  split
  · exact CoreState.spadCells_ctxs x _
  · exact CoreState.downgrades_ctxs _ _

/-! ### A change of cores that leaves their contexts -/

/-- A change of a core that keeps its contexts keeps every context of the package. -/
theorem State.ctx_updCore_kept (s : State) (d : Nat) (f : CoreState → CoreState) (h : (f (s.core d)).ctxs = (s.core d).ctxs)
    (c k : Nat) : (s.updCore d f).ctx c k = s.ctx c k := by
  unfold State.ctx CoreState.ctx
  by_cases e : c = d
  · subst e; rw [State.core_updCore, h]
  · rw [State.core_updCore_other s f e]

@[simp] theorem State.writeObj_ctx (s : State) (c0 o : Nat) (b : BitVec 128) (c k : Nat) :
    (s.writeObj c0 o b).ctx c k = s.ctx c k :=
  State.ctx_updCore_kept s c0 _ (CoreState.spadWrite_ctxs _ _ _) c k

/-- Changing a SLEEP bit: one core's scratchpad may change, nothing else. -/
theorem State.setSleep_cases (s : State) (a : Word) (on : Bool) :
    s.setSleep a on = s ∨ ∃ c o b, s.setSleep a on = s.writeObj c o b := by
  unfold State.setSleep
  split
  · exact .inr ⟨_, _, _, rfl⟩
  · exact .inl rfl

@[simp] theorem State.setSleep_ctx (s : State) (a : Word) (on : Bool) (c k : Nat) : (s.setSleep a on).ctx c k = s.ctx c k := by
  obtain h | ⟨_, _, _, h⟩ := s.setSleep_cases a on <;> rw [h]
  exact State.writeObj_ctx _ _ _ _ _ _

@[simp] theorem State.setSleep_cur (s : State) (a : Word) (on : Bool) : (s.setSleep a on).cur = s.cur := by
  obtain h | ⟨_, _, _, h⟩ := s.setSleep_cases a on <;> (rw [h]; try rfl)

@[simp] theorem State.setSleep_fw (s : State) (a : Word) (on : Bool) : (s.setSleep a on).fw = s.fw := by
  obtain h | ⟨_, _, _, h⟩ := s.setSleep_cases a on <;> (rw [h]; try rfl)

/-! ### A context taken while it sleeps -/

@[simp] theorem State.unsleep_cur (s : State) : s.unsleep.cur = s.cur := by
  unfold State.unsleep
  split <;> simp [State.updMe]

@[simp] theorem State.unsleep_fw (s : State) : s.unsleep.fw = s.fw := by
  unfold State.unsleep
  split <;> simp [State.updMe]

/-- What a taken context keeps: all but where it slept. -/
def Ctx.unslept (c : Ctx) : Ctx :=
  { c with waits := if c.waits.sleptAt.isSome then { c.waits with asleep := none, sleptAt := none } else c.waits }

@[simp] theorem Ctx.unslept_tr (c : Ctx) : c.unslept.tr = c.tr := rfl
@[simp] theorem Ctx.unslept_pc (c : Ctx) : c.unslept.pc = c.pc := rfl
@[simp] theorem Ctx.unslept_q (c : Ctx) : c.unslept.q = c.q := rfl
@[simp] theorem Ctx.unslept_files (c : Ctx) : c.unslept.files = c.files := rfl
@[simp] theorem Ctx.unslept_tok (c : Ctx) : c.unslept.tok = c.tok := rfl
@[simp] theorem Ctx.unslept_storeQ (c : Ctx) : c.unslept.storeQ = c.storeQ := rfl
@[simp] theorem Ctx.unslept_loadQ (c : Ctx) : c.unslept.loadQ = c.loadQ := rfl
@[simp] theorem Ctx.unslept_standing (c : Ctx) : c.unslept.standing = c.standing := rfl
@[simp] theorem Ctx.unslept_csr (c : Ctx) : c.unslept.csr = c.csr := rfl
@[simp] theorem Ctx.unslept_pend (c : Ctx) : c.unslept.pend = c.pend := rfl
@[simp] theorem Ctx.unslept_notice (c : Ctx) : c.unslept.notice = c.notice := rfl

@[simp] theorem State.unsleep_me (s : State) : s.unsleep.me = s.me.unslept := by
  unfold State.unsleep Ctx.unslept
  cases h : s.me.waits.sleptAt with
  | some a =>
    have hm : (s.setSleep a false).me = s.me := by
      unfold State.me; rw [State.setSleep_cur, State.setSleep_ctx]
    exact (State.me_updMe _ _).trans (by rw [hm]; rfl)
  | none => rfl

/-- A context of which no BWAIT set its SLEEP bit is taken without a change. -/
theorem State.unsleep_eq (s : State) (h : s.me.waits.sleptAt = none) : s.unsleep = s := by
  unfold State.unsleep; rw [h]

/-! ### Taking a trap -/

theorem State.takeTrap_enter (s : State) (t : Trap) (pc : BitVec 16) (n : Nat) (hm : s.me.tr.hm = false)
    (hn : s.me.tr.noh = false) : s.takeTrap t pc n = s.updMe (fun c => c.enter t pc n) := by
  unfold State.takeTrap; simp [hm, hn]

/-- The trap record of a context that halts with a cause (R187). -/
def Ctx.noted (c : Ctx) (t : Trap) (pc : BitVec 16) : Ctx :=
  { c with tr := { c.tr with
      cause := BitVec.ofNat 7 t.cause, pc := pc, slot := BitVec.ofNat 5 t.slot, info0 := t.info0, info1 := t.info1 } }

/-- Keeping a trap record changes a task only. -/
@[simp] theorem State.keepRecord_cur (s : State) (r : TrapRec) : (s.keepRecord r).cur = s.cur := by
  unfold State.keepRecord; split; split <;> rfl; rfl
@[simp] theorem State.keepRecord_core (s : State) (r : TrapRec) (c : Nat) : (s.keepRecord r).core c = s.core c := by
  unfold State.keepRecord; split; split <;> rfl; rfl
@[simp] theorem State.keepRecord_me (s : State) (r : TrapRec) : (s.keepRecord r).me = s.me := by
  unfold State.me State.ctx; rw [State.keepRecord_cur, State.keepRecord_core]
@[simp] theorem State.keepRecord_reports (s : State) (r : TrapRec) : (s.keepRecord r).fw.reports = s.fw.reports := by
  unfold State.keepRecord; split; split <;> rfl; rfl

theorem State.takeTrap_halt (s : State) (t : Trap) (pc : BitVec 16) (n : Nat) (hm : s.me.tr.hm = false)
    (hn : s.me.tr.noh = true) :
    s.takeTrap t pc n =
      (((s.updMe (fun c => c.noted t pc)).keepRecord ⟨t.cause, pc, t.slot, t.info0, t.info1⟩).report
        ⟨t.cause, t.info0, t.info1⟩).haltCtx s.cur.core s.cur.ctx t.cause := by
  unfold State.takeTrap; simp [hm, hn, Ctx.noted]

@[simp] theorem State.report_reports (s : State) (r : FaultRec) : (s.report r).fw.reports = s.fw.reports ++ [r] := rfl

@[simp] theorem CoreState.updBank_ctxs (x : CoreState) (k : Nat) (f : EddyBank → EddyBank) : (x.updBank k f).ctxs = x.ctxs := rfl

@[simp] theorem State.haltCtx_ctx (s : State) (c k n : Nat) :
    (s.haltCtx c k n).ctx c k = { s.ctx c k with run := .halted n, waits := {} } := by
  have h : ((s.updCtx c k (fun x => { x with run := .halted n, waits := {} })).updCore c (fun x => x.dropBuf k)).ctx c k =
      { s.ctx c k with run := .halted n, waits := {} } :=
    (State.ctx_updCore_kept (s.updCtx c k _) c (fun x => x.dropBuf k) rfl c k).trans (State.ctx_updCtx _ _ _ _)
  unfold State.haltCtx
  dsimp only
  split
  · rw [State.ctx_updCore_kept _ _ _ rfl]; exact h
  · exact h

@[simp] theorem State.haltCtx_fw (s : State) (c k n : Nat) : (s.haltCtx c k n).fw = s.fw := by
  unfold State.haltCtx; dsimp only; split <;> rfl
@[simp] theorem State.haltCtx_cur (s : State) (c k n : Nat) : (s.haltCtx c k n).cur = s.cur := by
  unfold State.haltCtx; dsimp only; split <;> rfl

theorem State.haltCtx_me (s : State) (n : Nat) :
    (s.haltCtx s.cur.core s.cur.ctx n).me = { s.me with run := .halted n, waits := {} } := by
  unfold State.me; rw [State.haltCtx_cur]; exact State.haltCtx_ctx _ _ _ _

@[simp] theorem State.faultReported_me (s : State) (r : FaultRec) : (s.faultReported r).me = s.me := by
  unfold State.faultReported
  split
  · exact (State.me_updMyCore _ _).trans rfl
  · rfl
@[simp] theorem State.faultReported_cur (s : State) (r : FaultRec) : (s.faultReported r).cur = s.cur := by
  unfold State.faultReported; split <;> rfl
@[simp] theorem State.faultReported_fw (s : State) (r : FaultRec) : (s.faultReported r).fw = s.fw := by
  unfold State.faultReported; split <;> rfl

/-! ### A kind-A event taken at the boundary -/

@[simp] theorem Ctx.tick_fpstat (c : Ctx) (w : Nat) : (c.tick w).csr.fpstat = c.csr.fpstat := by
  unfold Ctx.tick; dsimp only; split <;> rfl

@[simp] theorem State.leaveBuf_me (s : State) : s.leaveBuf.me = s.me := by
  unfold State.leaveBuf
  split
  · exact (State.me_updMyCore _ _).trans rfl
  · rfl
@[simp] theorem State.leaveBuf_cur (s : State) : s.leaveBuf.cur = s.cur := by unfold State.leaveBuf; split <;> rfl
@[simp] theorem State.leaveBuf_fw (s : State) : s.leaveBuf.fw = s.fw := by unfold State.leaveBuf; split <;> rfl

theorem State.enterA_enter (s : State) (r : FaultRec) (hh : s.me.tr.hm = false) (hn : s.me.tr.noh = false) :
    (s.enterA r).me = (s.unsleep.me.tick 0).enter (kindATrap r) s.me.pc 0 := by
  have hme : (s.unsleep.leaveBuf.updMe (fun c => c.tick 0)).me = (s.unsleep.me).tick 0 := by
    rw [State.me_updMe, State.leaveBuf_me]
  unfold State.enterA
  dsimp only
  rw [State.takeTrap_enter]
  · rw [State.me_updMe, hme]; simp
  · rw [hme]; simpa [Ctx.tick] using hh
  · rw [hme]; simpa [Ctx.tick] using hn

theorem State.enterA_halt (s : State) (r : FaultRec) (hh : s.me.tr.hm = false) (hn : s.me.tr.noh = true) :
    (s.enterA r).me =
      { (s.unsleep.me.tick 0).noted (kindATrap r) s.me.pc with run := .halted r.cause, waits := {} } ∧
    (s.enterA r).fw.reports = s.fw.reports ++ [r] := by
  have hme : (s.unsleep.leaveBuf.updMe (fun c => c.tick 0)).me = (s.unsleep.me).tick 0 := by
    rw [State.me_updMe, State.leaveBuf_me]
  have hpc : s.unsleep.leaveBuf.me.pc = s.me.pc := by simp
  unfold State.enterA
  dsimp only
  rw [hpc, State.takeTrap_halt _ _ _ _ (by rw [hme]; simpa [Ctx.tick] using hh) (by rw [hme]; simpa [Ctx.tick] using hn)]
  generalize hu : s.unsleep.leaveBuf.updMe (fun c => c.tick 0) = v at *
  have hc : ∀ (w : State) (q : TrapRec) (f : FaultRec), ((w.keepRecord q).report f).cur = w.cur := by
    intro w q f; exact State.keepRecord_cur w q
  have hv : (v.updMe (fun c => c.noted (kindATrap r) s.me.pc)).cur = v.cur := rfl
  constructor
  · have h1 := State.haltCtx_me (((v.updMe (fun c => c.noted (kindATrap r) s.me.pc)).keepRecord
      ⟨r.cause, s.me.pc, 31, r.info0, r.info1⟩).report ⟨r.cause, r.info0, r.info1⟩) r.cause
    rw [hc, hv] at h1
    refine h1.trans ?_
    rw [State.report_me, State.keepRecord_me, State.me_updMe, hme]
  · have hw : v.fw = s.fw := by rw [← hu]; simp [State.updMe]
    rw [State.haltCtx_fw, State.report_reports, State.keepRecord_reports]
    simp [State.updMe, hw, kindATrap]

end Sys2Proof.Machine
end

