-- ==== Sys2Proof/Machine/Assembler.lean ====
section
/-! DEFINITION. flavy-as, its first pass: lines, macros, conditionals and directives, up to the locations of all labels
(R89-R91, R102-R109; log 92, DEDUCED). -/

namespace Sys2Proof.Machine

/-! ### What the first pass gathers -/

/-- A symbol: its procedure where it is local to one, its value, its kind in the object (R411), its size, the overlay of a text
label, and the line that defines it. -/
structure Sym where
  name : Text
  scope : Option Text
  value : Word
  kind : Nat
  size : Nat := 0
  ovl : Option Nat := none
  glob : Bool := false
  line : Nat := 0
  deriving DecidableEq, Repr

/-- An op line in its overlay: its words, the vector half joined to it, whether it continues the bundle, its procedure, its
offset and size, and its line. -/
structure OpItem where
  op : List Lex
  half : Option (List Lex)
  cont : Bool
  scope : Option Text
  ovl : Nat
  off : Nat
  size : Nat
  line : Nat
  deriving DecidableEq, Repr

/-- The bytes a data directive emits: given, or values of a size to be evaluated, `times` copies (R103). -/
inductive DataVal where
  | bytes (l : List Byte)
  | values (size times : Nat) (l : List (List Lex))
  deriving DecidableEq, Repr

/-- Bytes at an offset of `.data`. -/
structure DataItem where
  off : Nat
  val : DataVal
  scope : Option Text
  line : Nat
  deriving DecidableEq, Repr

/-- A `.tile` line: slot, kind (R411), tag and the words of the constant. -/
structure TileLine where
  slot : Nat
  kind : Nat
  tag : Nat
  const : List Lex
  scope : Option Text
  line : Nat
  deriving DecidableEq, Repr

/-- A `.route` line. -/
structure RouteLine where
  name : Text
  turns : List Nat
  dcol : Int
  drow : Int
  deriving DecidableEq, Repr

/-- An entry line of a `.sched` block. -/
structure SchedLine where
  stage : List Lex
  op : List Lex
  scope : Option Text
  line : Nat
  deriving DecidableEq, Repr

/-- An `.eddy` line: name, entry label, share. -/
structure EddyLine where
  name : Text
  entry : Text
  share : Nat
  deriving DecidableEq, Repr

/-- A `.keep` or `.discard` region: first slot and slots. -/
structure RegionLine where
  keep : Bool
  start : Nat
  count : Nat
  deriving DecidableEq, Repr

/-- A `.launch` line: its name and its keys. -/
structure LaunchLine where
  name : Text
  keys : List (List Lex)
  scope : Option Text
  line : Nat
  deriving DecidableEq, Repr

/-- A macro. -/
structure Macro where
  name : Text
  params : List Text
  body : List Text
  deriving DecidableEq, Repr

/-- An open `.if`: whether its lines count, whether a branch was chosen or none may be, whether `.else` was seen, and the
overlay, procedure and depth of macro bodies it stands in (R109). -/
structure IfFrame where
  live : Bool
  done : Bool
  els : Bool
  ovl : Option Nat
  proc : Option Text
  depth : Nat
  deriving DecidableEq, Repr

/-- A section (R102). -/
inductive Sec where
  | text | data | bss
  deriving DecidableEq, Repr

/-- What the coming lines belong to: the source, a macro's body, a `.sched` block, a `.yiloz` block. -/
inductive Inside where
  | source
  | mac (m : Macro)
  | sched
  | yiloz
  deriving DecidableEq, Repr

/-- The assembler after some lines. -/
structure Asm where
  line : Nat := 0
  /-- How many macro bodies the line stands in. -/
  depth : Nat := 0
  inside : Inside := .source
  ifs : List IfFrame := []
  macros : List Macro := []
  sec : Sec := .text
  /-- The open overlay: number, offset, location. -/
  ovl : Option (Nat × Nat × Nat) := none
  /-- The overlays: number and offset. -/
  ovls : List (Nat × Nat) := []
  proc : Option Text := none
  dloc : Nat := 0
  bloc : Option Nat := none
  /-- Where `.bss` begins when no `.org` places it, and whether it did. -/
  bssAt : Nat := 0
  bssAuto : Bool := false
  syms : List Sym := []
  /-- The labels of the pass before, which a line may use before it comes to them. -/
  known : List Sym := []
  exports : List (Option Text × Text) := []
  ops : List OpItem := []
  data : List DataItem := []
  bss : List (Nat × Nat) := []
  /-- Scratchpad ranges in use: first offset and end. -/
  spans : List (Nat × Nat) := []
  tiles : List TileLine := []
  routes : List RouteLine := []
  scheds : List (Text × List SchedLine) := []
  regions : List RegionLine := []
  eddies : List EddyLine := []
  launches : List LaunchLine := []
  yiloz : List (Text × List Text) := []
  mmrev : Option Nat := none
  floor : Option Nat := none
  adjacent : Bool := true
  /-- Whether a bundle is open, whether the last op may take a vector half, and whether the next op line continues the bundle of
  a macro's invocation. -/
  isOpen : Bool := false
  joins : Bool := false
  carry : Bool := false
  deriving DecidableEq, Repr

/-! ### Symbols -/

/-- Whether a symbol counts outside its procedure: it is local to none, or `.global` exports it (R104). -/
def Asm.isGlobal (a : Asm) (s : Sym) : Bool :=
  s.scope.isNone || s.glob || a.exports.any (fun e => e.2 == s.name && (e.1.isNone || e.1 == s.scope))

/-- The value of a symbol among `syms` at a line of a procedure: local before global; a constant counts from its definition on
(R104). -/
def Asm.envOf (a : Asm) (syms : List Sym) (scope : Option Text) (line : Nat) : Env := fun t =>
  let l := syms.filter (fun s => s.name == t && (s.kind != 2 || decide (s.line < line)))
  match l.find? (fun s => scope.isSome && s.scope == scope) with
  | some s => some s.value
  | none => (l.find? a.isGlobal).map (·.value)

/-- The value of a symbol at a line of a procedure; a label may be used before its line. -/
def Asm.env (a : Asm) (scope : Option Text) (line : Nat) : Env :=
  a.envOf (a.syms ++ a.known.filter (fun s => s.kind != 2)) scope line

/-- The value of an expression at the current line. -/
def Asm.eval (a : Asm) (l : List Lex) : Option Word := evalExpr (a.env a.proc a.line) l

/-- The value of an expression of symbols that are defined already: `.equ` and `.if` (R104, R109). -/
def Asm.evalSeen (a : Asm) (l : List Lex) : Option Word := evalExpr (a.envOf a.syms a.proc a.line) l

/-- The value of an expression as a number up to a limit. -/
def Asm.evalNat (a : Asm) (hi : Nat) (l : List Lex) : Option Nat :=
  (a.eval l).bind (fun v => if v.toNat ≤ hi then some v.toNat else none)

/-- Defining a symbol, once in its scope. -/
def Asm.define (a : Asm) (s : Sym) : Option Asm :=
  if !isSymbol s.name ∨ a.syms.any (fun x => x.name == s.name && x.scope == s.scope) then none
  else some { a with syms := a.syms ++ [{ s with line := a.line }] }

/-- The location counter (R102). -/
def Asm.here (a : Asm) : Option Nat :=
  match a.sec with
  | .text => a.ovl.map (·.2.2)
  | .data => some a.dloc
  | .bss => some (a.bloc.getD a.bssAt)

/-- The symbol of a label: a text label of the open overlay, or a data label (R411). -/
def Asm.labelSym (a : Asm) (t : Text) (n : Nat) : Sym :=
  match a.sec, a.ovl with
  | .text, some o => { name := t, scope := a.proc, value := BitVec.ofNat 64 n, kind := 0, ovl := some o.1 }
  | _, _ => { name := t, scope := a.proc, value := BitVec.ofNat 64 n, kind := 1 }

/-- A label at the location counter; labels inside a procedure are local to it, and one in a `.bss` that nothing has placed
stands behind `.data` (R102, R104). -/
def Asm.label (a : Asm) (t : Text) : Option Asm :=
  a.here.bind (fun n =>
    ({ a with joins := false, bssAuto := a.bssAuto || (decide (a.sec = Sec.bss) && a.bloc.isNone) }).define (a.labelSym t n))

/-! ### Pairs (R91) -/

/-- The mnemonic and suffixes of an op line. -/
def mnemonicOf : List Lex → List Text
  | .word t :: _ => splitAtAll (· == '.') (lower t)
  | _ => []

/-- Whether an op line's mnemonic is one that a test on its form accepts. -/
def formIs (p : OpForm → Bool) (l : List Lex) : Bool :=
  match mnemonicOf l with
  | m :: _ => (formOf m).any p
  | [] => false

/-- A scalar op of a pair word: opcode 0x00-0x1B. -/
def pairsScalar (f : OpForm) : Bool := f.fmt == 1 && decide (f.opc < 0x1C)
/-- A vector op of a pair word: opcode 0x40-0x52 or 0x80-0x92. -/
def pairsVector (f : OpForm) : Bool :=
  f.fmt == 1 && (decide (0x40 ≤ f.opc ∧ f.opc ≤ 0x52) || decide (0x80 ≤ f.opc ∧ f.opc ≤ 0x92))

/-- The VT code of a T code (R70). -/
def vtOf (t : Nat) : Option Nat := (List.range 8).find? (fun v => tagCode (vtTag (BitVec.ofNat 3 v)) == t)

/-- A field of a REG word written as a sum. -/
def regField (o : AsmOp) (lo n : Nat) : Nat := o.bits / 2 ^ lo % 2 ^ n

/-- A destination near or `_`. -/
def nearDest (o : AsmOp) : Bool := regField o 51 1 == 0 || decide (regField o 45 6 < 16)

/-- Whether an op uses field C, as a source or as a condition or tag that its suffixes set. -/
def usesC (f : OpForm) : Bool :=
  f.slots.any (fun x => match x with | .src 24 _ => true | _ => false) || f.sufs.any (fun g => g.pos == 24)

/-- Whether two op lines may form a pair word (R91). X must be zero in the vector half, since R71 gives it no other value. -/
def canPair (s v : AsmOp) (suf : List Text) : Bool :=
  pairsScalar s.form && pairsVector v.form && suf.all (fun t => (named tagSuffixes t).isNone && (sufRM.spell.value t).isNone) &&
  (vtOf (regField v 12 4)).isSome && regField v 16 3 == 0 && regField v 8 4 == 0 && nearDest s && nearDest v &&
  [s, v].all (fun o => (regField o 24 7 == 0 || regField o 24 7 == 0x60) && !usesC o.form)

/-- The pair word of two halves under the guard of the second (R70, R95). -/
def pairWord (s v : AsmOp) (stop : Bool) : Word :=
  let vop := if v.form.opc < 0x80 then v.form.opc - 0x40 else v.form.opc - 0x60
  BitVec.ofNat 64 ((if stop then 2 ^ 63 else 0) + regField v 19 5 * 2 ^ 55 + s.form.opc * 2 ^ 49 + regField s 51 1 * 2 ^ 48 +
    regField s 45 4 * 2 ^ 44 + regField s 38 7 * 2 ^ 37 + regField s 31 7 * 2 ^ 30 + regField s 8 2 * 2 ^ 28 + vop * 2 ^ 22 +
    regField v 51 1 * 2 ^ 21 + regField v 45 4 * 2 ^ 17 + regField v 38 7 * 2 ^ 10 + regField v 31 7 * 2 ^ 3 +
    (vtOf (regField v 12 4)).getD 0)

/-- Cutting a line at a `+` outside brackets. -/
def atPlus (d : Nat) : List Lex → Option (List Lex × List Lex)
  | [] => none
  | x :: xs =>
    if d = 0 ∧ x.isSym '+' then some ([], xs)
    else (atPlus (if x.isSym '[' || x.isSym '(' then d + 1 else if x.isSym ']' || x.isSym ')' then d - 1 else d) xs).map
      (fun r => (x :: r.1, r.2))

/-- The two halves of an explicit pair line, none where the line is one op. -/
def pairHalves (l : List Lex) : Option (List Lex × List Lex) := if formIs pairsScalar l then atPlus 0 l else none

/-- Whether a vector line joins the scalar line before it under `.pairing adjacent` (R91). -/
def joinable (s v : List Lex) : Bool :=
  formIs pairsScalar s && formIs pairsVector v && (pairHalves s).isNone &&
  (match readOp {} (fun _ => none) s, readOp {} (fun _ => none) v with
   | some x, some y => canPair x y ((mnemonicOf s).drop 1) && regField x 19 5 == regField y 19 5
   | _, _ => false)

/-! ### Op lines (R90, R97) -/

/-- Whether a line has a route. -/
def hasRoute (l : List Lex) : Bool := l.any (·.isWord "via")

/-- An op line. Blank, comment and conditional lines between two op lines do not keep the second from directly following the
first (Log 96, DESIGN CHOICE). -/
def Asm.opLine (a : Asm) (cont : Bool) (l : List Lex) : Option Asm :=
  match a.sec, a.ovl with
  | .text, some (n, start, loc) =>
    if cont && !a.isOpen then none
    else
      let new : Option Asm :=
        let size := if hasRoute l then 2 else 1
        if 0x10000 < loc + 8 * size then none
        else
          some { a with
            ops := a.ops ++ [⟨l, none, cont, a.proc, n, loc, size, a.line⟩]
            ovl := some (n, start, loc + 8 * size)
            isOpen := true
            joins := a.adjacent && size == 1 && (pairHalves l).isNone }
      match a.ops.getLast? with
      | some x =>
        if cont && a.joins && a.adjacent && joinable x.op l then
          some { a with ops := a.ops.dropLast ++ [{ x with half := some l }], joins := false }
        else new
      | none => new
  | _, _ => none

/-! ### Data directives (R102, R103) -/

/-- Taking `n` bytes at the location counter of `.data` or `.bss`. -/
def Asm.takeBytes (a : Asm) (n : Nat) (v : Option DataVal) : Option Asm :=
  match a.sec with
  | .text => none
  | .data =>
    if 0x80000 < a.dloc + n then none
    else
      some { a with
        dloc := a.dloc + n
        spans := if n = 0 then a.spans else a.spans ++ [(a.dloc, a.dloc + n)]
        data := if n = 0 then a.data else
          a.data ++ [⟨a.dloc, v.getD (.bytes (List.replicate n 0)), a.proc, a.line⟩] }
  | .bss =>
    let at_ := a.bloc.getD a.bssAt
    if v.isSome ∨ 0x80000 < at_ + n then none
    else
      some { a with
        bloc := some (at_ + n)
        bssAuto := a.bssAuto || a.bloc.isNone
        spans := if n = 0 then a.spans else a.spans ++ [(at_, at_ + n)]
        bss := if n = 0 then a.bss else a.bss ++ [(at_, n)] }

/-- A power of ten. -/
def decimalDigits (t : Text) : Option (Nat × Nat) :=
  match splitAtAll (· == '.') t with
  | [i] => (digitsFrom 10 false 0 i).map (·, 0)
  | [i, f] => (digitsFrom 10 false 0 (i ++ f)).map (·, f.length)
  | _ => none

/-- A decimal real as digits times a power of ten: `d.d`, with an exponent after `e`. -/
def realParts (l : List Lex) : Option (Nat × Int) :=
  match l with
  | [.num t] =>
    match splitAtAll (· == 'e') (lower t) with
    | [m] => (decimalDigits m).map (fun p => (p.1, -(p.2 : Int)))
    | [m, e] =>
      match decimalDigits m, decimal e with
      | some p, some k => some (p.1, (k : Int) - (p.2 : Int))
      | _, _ => none
    | _ => none
  | [.num t, .sym c, .num e] =>
    match splitAtAll (· == 'e') (lower t), decimal e with
    | [m, []], some k =>
      if c = '-' ∨ c = '+' then (decimalDigits m).map (fun p => (p.1, (if c = '-' then -(k : Int) else k) - (p.2 : Int))) else none
    | _, _ => none
  | _ => none

/-- The bits of a real in a format, rounded RNE; none where it overflows (R103). -/
def realBits (tag : Tag) (neg : Bool) (l : List Lex) : Option Nat :=
  let f := fmtOf tag
  match l with
  | [.word t] =>
    if lower t = "inf".toList then some (f.signBit neg + f.infBits)
    else if lower t = "nan".toList ∧ !neg then some f.nan
    else none
  | _ =>
    match realParts l with
    | some (m, e) =>
      if m = 0 then some (f.signBit neg)
      else
        let r := roundQuot f .rne 0 neg (m * 10 ^ e.toNat) (10 ^ (-e).toNat) 0
        if r.2 &&& fOF = 0 then some r.1 else none
    | none => none

/-- One operand of `.f16`, `.bf16`, `.f32` or `.f64`. -/
def realOperand (tag : Tag) (l : List Lex) : Option (List Byte) :=
  let v := match l with
    | .sym '-' :: r => realBits tag true r
    | .sym '+' :: r => realBits tag false r
    | r => realBits tag false r
  v.map (leBytes (tagWidth tag / 8))

/-- `.byte` to `.dword`. -/
def Asm.values (a : Asm) (size : Nat) (ps : List (List Lex)) : Option Asm :=
  if ps.isEmpty then none else a.takeBytes (size * ps.length) (some (.values size 1 ps))

/-- `.f16` to `.f64`. -/
def Asm.reals (a : Asm) (tag : Tag) (ps : List (List Lex)) : Option Asm :=
  if ps.isEmpty then none
  else (ps.mapM (realOperand tag)).bind (fun l => a.takeBytes (tagWidth tag / 8 * ps.length) (some (.bytes l.flatten)))

/-- Advancing to a multiple, filling with zero. -/
def Asm.alignTo (a : Asm) (m : Nat) : Option Asm := a.here.bind (fun n => a.takeBytes ((m - n % m) % m) none)

/-- `.org`. -/
def Asm.org (a : Asm) (v : Nat) : Option Asm :=
  match a.sec with
  | .text => none
  | .data => if a.dloc ≤ v then some { a with dloc := v } else none
  | .bss =>
    match a.bloc with
    | some n => if n ≤ v then some { a with bloc := some v } else none
    | none => some { a with bloc := some v }

/-! ### Structure and declarations (R104-R107) -/

/-- `.overlay`. -/
def Asm.overlay (a : Asm) (ps : List (List Lex)) : Option Asm :=
  match ps with
  | [x, y] =>
    match a.ovl, a.evalNat 255 x, a.evalNat 0xFFFF y with
    | none, some n, some off =>
      if off % 8 = 0 ∧ !a.ovls.any (fun o => o.1 == n) then
        some { a with ovl := some (n, off, off), ovls := a.ovls ++ [(n, off)], isOpen := false }
      else none
    | _, _, _ => none
  | _ => none

/-- `.endproc`: the procedure's symbol takes its size, the bytes of text since its `.proc`. -/
def Asm.endProc (a : Asm) : Option Asm :=
  match a.proc, a.ovl.map (·.2.2) with
  | some p, some n =>
    some { a with
      proc := none
      syms := a.syms.map (fun s => if s.name == p && s.kind == 3 && s.scope.isNone then { s with size := n - s.value.toNat } else s) }
  | _, _ => none

/-- `.proc`. -/
def Asm.startProc (a : Asm) (t : Text) : Option Asm :=
  match a.proc, a.sec, a.ovl with
  | none, .text, some (n, _, loc) =>
    (a.define { name := t, scope := none, value := BitVec.ofNat 64 loc, kind := 3, ovl := some n, glob := true }).map
      (fun b => { b with proc := some t })
  | _, _, _ => none

/-- `.tile` (R105). -/
def Asm.tile (a : Asm) (ps : List (List Lex)) : Option Asm :=
  match ps with
  | [s, [.word t], k :: c] =>
    match prefixedLex "t" 127 s, (if t.head? = some '.' then named tagSuffixes (t.drop 1) else named tagSuffixes t) with
    | some slot, some tag =>
      let kind := if k.isWord "zero" then some 0 else if k.isWord "const" then some 1 else if k.isWord "ident" then some 2
        else if k.isWord "data" then some 3 else none
      match kind with
      | some n =>
        if tag = 15 ∨ (n = 1) ≠ (c ≠ []) ∨ a.tiles.any (fun x => x.slot == slot) then none
        else some { a with tiles := a.tiles ++ [⟨slot, n, tag, c, a.proc, a.line⟩] }
      | none => none
    | _, _ => none
  | _ => none

/-- A turn letter (R105). -/
def turnLetter (c : Char) : Option Nat := if c = 's' then some 1 else if c = 'l' then some 2 else if c = 'r' then some 3 else none

/-- Where turns lead from a heading: columns and rows of hops (R314). North is a row less. -/
def follow : Int × Int → List Nat → Int × Int
  | _, [] => (0, 0)
  | (x, y), t :: ts =>
    let h := if t = 2 then (y, -x) else if t = 3 then (-y, x) else (x, y)
    let r := follow h ts
    (h.1 + r.1, h.2 + r.2)

/-- A signed number of a range. -/
def Asm.evalInt (a : Asm) (lim : Nat) (l : List Lex) : Option Int :=
  (a.eval l).bind (fun v => if v.toInt.natAbs ≤ lim then some v.toInt else none)

/-- `.route`: the turns must lead where the declaration says (R105, R415). -/
def Asm.route (a : Asm) (ps : List (List Lex)) : Option Asm :=
  match ps with
  | [[.word name], [.word turns], c, r] =>
    match (lower turns).mapM turnLetter, a.evalInt 63 c, a.evalInt 63 r with
    | some ts, some dc, some dr =>
      if isSymbol name ∧ ts.length ≤ 26 ∧ !a.routes.any (fun x => x.name == name) ∧ follow (if 0 ≤ dc then 1 else -1, 0) ts = (dc, dr) then
        some { a with routes := a.routes ++ [⟨name, ts, dc, dr⟩] }
      else none
    | _, _, _ => none
  | _ => none

/-- `.keep` and `.discard` (R105). -/
def Asm.region (a : Asm) (keep : Bool) (ps : List (List Lex)) : Option Asm :=
  match ps with
  | [x, y] =>
    match a.evalNat 0x80000 x, a.evalNat 0x80000 y with
    | some s, some n =>
      let f := s / 4096
      let c := n / 4096
      if s % 4096 = 0 ∧ n % 4096 = 0 ∧ 0 < n ∧ s + n ≤ 0x80000 ∧ a.regions.all (fun r => decide (r.start + r.count ≤ f) || decide (f + c ≤ r.start)) then
        some { a with regions := a.regions ++ [⟨keep, f, c⟩] }
      else none
    | _, _ => none
  | _ => none

/-- `.eddy` (R105). -/
def Asm.eddy (a : Asm) (ps : List (List Lex)) : Option Asm :=
  match ps with
  | [[.word name], [.word entry], w] =>
    match a.evalNat 96 w with
    | some n =>
      if isSymbol name ∧ a.eddies.length < 64 ∧ !a.eddies.any (fun e => e.name == name) then
        some { a with eddies := a.eddies ++ [⟨name, entry, n⟩] }
      else none
    | none => none
  | _ => none

/-- An entry line of a `.sched` block: `stage n, op` (R107). -/
def Asm.schedLine (a : Asm) (l : List Lex) : Option Asm :=
  match l with
  | x :: r =>
    match commaParts r, a.scheds.getLast? with
    | s :: _, some (name, es) =>
      if x.isWord "stage" ∧ es.length < 256 then
        some { a with scheds := a.scheds.dropLast ++ [(name, es ++ [⟨s, r.drop (s.length + 1), a.proc, a.line⟩])] }
      else none
    | _, _ => none
  | [] => some a

/-- A directive whose operands are one name. -/
def oneName : List (List Lex) → Option Text
  | [[.word t]] => if isSymbol t then some t else none
  | _ => none

/-- The directives of R103. -/
def Asm.dataDirective (a : Asm) (d : String) (ps : List (List Lex)) : Option Asm :=
  if d = ".byte" then a.values 1 ps
  else if d = ".half" then a.values 2 ps
  else if d = ".word" then a.values 4 ps
  else if d = ".dword" then a.values 8 ps
  else if d = ".f16" then a.reals .fp16 ps
  else if d = ".bf16" then a.reals .bf16 ps
  else if d = ".f32" then a.reals .fp32 ps
  else if d = ".f64" then a.reals .fp64 ps
  else if d = ".fill" then
    match ps with
    | [x, y, v] =>
      match a.evalNat 0x80000 x, a.evalNat 8 y with
      | some n, some size => if [1, 2, 4, 8].contains size then a.takeBytes (n * size) (some (.values size n [v])) else none
      | _, _ => none
    | _ => none
  else if d = ".space" then match ps with | [x] => (a.evalNat 0x80000 x).bind (a.takeBytes · none) | _ => none
  else if d = ".align" then match ps with | [x] => (a.evalNat 19 x).bind (fun n => a.alignTo (2 ^ n)) | _ => none
  else if d = ".org" then match ps with | [x] => (a.evalNat 0x80000 x).bind a.org | _ => none
  else none

/-- The directives of R104 and R105; of several `.weirfloor` the last holds. Log 96, DESIGN CHOICE. -/
def Asm.directive (a : Asm) (d : String) (ps : List (List Lex)) : Option Asm :=
  if d = ".text" then if ps = [] then some { a with sec := .text, isOpen := false } else none
  else if d = ".data" then if ps = [] then some { a with sec := .data, isOpen := false } else none
  else if d = ".bss" then if ps = [] then some { a with sec := .bss, isOpen := false } else none
  else if d = ".overlay" then a.overlay ps
  else if d = ".endoverlay" then if ps = [] ∧ a.ovl.isSome then some { a with ovl := none, isOpen := false } else none
  else if d = ".proc" then (oneName ps).bind a.startProc
  else if d = ".endproc" then if ps = [] then a.endProc else none
  else if d = ".global" then (oneName ps).map (fun t => { a with exports := a.exports ++ [(a.proc, t)] })
  else if d = ".equ" then
    match ps with
    | [[.word t], x] => (a.evalSeen x).bind (fun v => a.define { name := t, scope := none, value := v, kind := 2 })
    | _ => none
  else if d = ".mmrev" then
    match ps with
    | [x] => (a.evalNat 3 x).bind (fun n => if a.mmrev.isNone ∧ 1 ≤ n then some { a with mmrev := some n } else none)
    | _ => none
  else if d = ".weirfloor" then match ps with | [x] => (a.evalNat 96 x).map (fun n => { a with floor := some n }) | _ => none
  else if d = ".pairing" then
    match ps with
    | [[x]] => if x.isWord "off" then some { a with adjacent := false } else if x.isWord "adjacent" then some { a with adjacent := true } else none
    | _ => none
  else if d = ".tile" then a.tile ps
  else if d = ".barrier" then
    (oneName ps).bind (fun t => if a.sec = .text then none else ((a.alignTo 16).bind (fun b => b.label t)).bind (fun b => b.takeBytes 16 none))
  else if d = ".route" then a.route ps
  else if d = ".keep" then a.region true ps
  else if d = ".discard" then a.region false ps
  else if d = ".eddy" then a.eddy ps
  else if d = ".launch" then
    match ps with
    | [.word t] :: keys =>
      if isSymbol t ∧ !a.launches.any (fun x => x.name == t) then some { a with launches := a.launches ++ [⟨t, keys, a.proc, a.line⟩] } else none
    | _ => none
  else if d = ".sched" then
    (oneName ps).bind (fun t => if a.scheds.any (fun x => x.1 == t) then none else some { a with scheds := a.scheds ++ [(t, [])], inside := .sched })
  else if d = ".yiloz" then
    (oneName ps).bind (fun t => if a.yiloz.any (fun x => x.1 == t) then none else some { a with yiloz := a.yiloz ++ [(t, [])], inside := .yiloz })
  else a.dataDirective d ps

/-! ### Macros and conditionals (R108, R109) -/

/-- Whether the lines count. -/
def Asm.live (a : Asm) : Bool := a.ifs.all (·.live)

/-- `.if`, `.else` and `.endif`. -/
def Asm.conditional (a : Asm) (d : String) (ps : List (List Lex)) : Option Asm :=
  let o := a.ovl.map (·.1)
  if d = ".if" then
    if 16 ≤ a.ifs.length then none
    else if !a.live then some { a with ifs := ⟨false, true, false, o, a.proc, a.depth⟩ :: a.ifs }
    else match ps with
      | [x] => (a.evalSeen x).map (fun (v : Word) => { a with ifs := ⟨v != 0#64, v != 0#64, false, o, a.proc, a.depth⟩ :: a.ifs })
      | _ => none
  else
    match a.ifs with
    | f :: fs =>
      if f.ovl ≠ o ∨ f.proc ≠ a.proc ∨ f.depth ≠ a.depth ∨ ps ≠ [] then none
      else if d = ".endif" then some { a with ifs := fs }
      else if f.els then none
      else some { a with ifs := { f with live := !f.done, done := true, els := true } :: fs }
    | [] => none

/-- The comma parts of text outside brackets, without the spaces around them. -/
def textParts (d : Nat) : Text → List Text
  | [] => [[]]
  | c :: cs =>
    let r := textParts (if c == '(' || c == '[' then d + 1 else if c == ')' || c == ']' then d - 1 else d) cs
    if d = 0 && c == ',' then [] :: r
    else
      match r with
      | [] => [[c]]
      | y :: ys => (c :: y) :: ys

/-- Text without the spaces around it. -/
def trim (t : Text) : Text := ((t.dropWhile Char.isWhitespace).reverse.dropWhile Char.isWhitespace).reverse

/-- The operands of a macro line. -/
def textArgs (t : Text) : List Text := if trim t = [] then [] else (textParts 0 t).map trim

/-- The argument of the longest parameter name that text begins with. -/
def argAt (m : List (Text × Text)) (t : Text) : Option (Text × Text) :=
  let l := m.filter (fun x => x.1 == t.take x.1.length)
  (l.find? (fun x => l.all (fun y => decide (y.1.length ≤ x.1.length)))).map (fun x => (x.2, t.drop x.1.length))

/-- A body line with every `%p` replaced by its argument. -/
def substitute (m : List (Text × Text)) : Nat → Text → Text
  | 0, t => t
  | _ + 1, [] => []
  | n + 1, c :: cs =>
    if c == '%' then
      match argAt m cs with
      | some (x, r) => x ++ substitute m n r
      | none => c :: substitute m n cs
    else c :: substitute m n cs

/-- A line of source: its label, whether `|` stands before it, and the text after both. -/
structure SrcLine where
  label : Option Text
  cont : Bool
  body : Text
  deriving DecidableEq, Repr

/-- A label at the head of a text. -/
def labelOf (t : Text) : Option (Text × Text) :=
  let w := t.takeWhile isWordChar
  match (t.drop w.length).dropWhile Char.isWhitespace with
  | ':' :: r => if isSymbol w then some (w, trim r) else none
  | _ => none

/-- Cutting a line: a label and a `|` in either order, then the rest (R89, R90). -/
def cutLine (t : Text) : SrcLine :=
  let body := trim t
  let bar : Text → Bool × Text := fun x => match x with | '|' :: r => (true, trim r) | r => (false, r)
  match labelOf body with
  | some (l, r) => let b := bar r; ⟨some l, b.1, b.2⟩
  | none =>
    let b := bar body
    if b.1 then
      match labelOf b.2 with
      | some (l, r) => ⟨some l, true, r⟩
      | none => ⟨none, true, b.2⟩
    else ⟨none, false, b.2⟩

/-- The first word of a text and the rest. -/
def firstWord (t : Text) : Text × Text :=
  let w := t.takeWhile (fun c => !c.isWhitespace && c != ',')
  (w, t.drop w.length)

/-- The parameters of a `.macro` line: its name, then up to 16 names. -/
def macroHead (t : Text) : Option Macro :=
  match textArgs t with
  | n :: ps => if isSymbol n ∧ ps.length ≤ 16 ∧ ps.Nodup then some ⟨n, ps.map (fun p => p.dropWhile (· == '%')), []⟩ else none
  | [] => none

/-- The label of a line (R89). -/
def Asm.labelled (a : Asm) (s : SrcLine) : Option Asm := match s.label with | some t => a.label t | none => some a

/-- A line of the source that is no macro line and no invocation. When the first line of a macro's body is no op line, the `|`
of the invocation goes to the first op line of the body (Log 96, DESIGN CHOICE). -/
def Asm.plainLine (a : Asm) (s : SrcLine) : Option Asm :=
  match lexNative s.body, a.labelled s with
  | some l, some b =>
    match l with
    | [] => if s.cont then none else some (if s.label.isSome then { b with joins := false } else b)
    | .word t :: r =>
      if t.head? = some '.' then
        if s.cont then none else ({ b with joins := false }).directive (String.ofList (lower t)) (commaParts r)
      else (({ b with carry := false }).opLine (s.cont || b.carry) l)
    | _ => none
  | _, _ => none

/-- Whether a text begins with a directive. -/
def isDirective (d : String) (t : Text) : Bool := lower (firstWord t).1 == d.toList

/-- Whether a text begins with `.if`, `.else` or `.endif`. -/
def isConditional (t : Text) : Bool := isDirective ".if" t || isDirective ".else" t || isDirective ".endif" t

/-- A conditional line; its label counts where the line itself does (R89, R109). -/
def Asm.condLine (a : Asm) (s : SrcLine) : Option Asm :=
  let d := String.ofList (lower (firstWord s.body).1)
  let counts := if d = ".if" then a.live else (a.ifs.drop 1).all (·.live)
  if s.cont then none
  else
    match (if counts then a.labelled s else some a), lexNative (firstWord s.body).2 with
    | some b, some l => b.conditional d (commaParts l)
    | _, _ => none

/-- An invocation of a macro: its body stands for the line (R108, R109). -/
def Asm.invoke (sub : List Text → Asm → Option Asm) (a : Asm) (s : SrcLine) (m : Macro) : Option Asm :=
  let args := textArgs (firstWord s.body).2
  if args.length ≠ m.params.length ∨ (s.cont ∧ a.inside ≠ .source) then none
  else
    (a.labelled s).bind (fun b =>
      let lines := m.body.map (fun l => substitute (m.params.zip args) l.length l)
      (sub lines { b with carry := b.carry || s.cont, depth := b.depth + 1 }).bind (fun c =>
        if c.ifs.length = b.ifs.length ∧ c.inside = b.inside then some { c with carry := false, depth := b.depth } else none))

/-- One line; `sub` runs the lines of a macro's body. -/
def Asm.source (sub : List Text → Asm → Option Asm) (a0 : Asm) (raw : Text) : Option Asm :=
  let a := { a0 with line := a0.line + 1 }
  let t := raw.takeWhile (· != ';')
  let s := cutLine t
  match a.inside with
  | .yiloz =>
    if isDirective ".endyiloz" s.body then ({ a with inside := .source }).labelled s
    else
      match a.yiloz.getLast? with
      | some (n, ls) => some { a with yiloz := a.yiloz.dropLast ++ [(n, ls ++ [raw])] }
      | none => none
  | .mac m =>
    if isDirective ".endm" s.body then ({ a with inside := .source, macros := a.macros ++ [m] }).labelled s
    else if isDirective (".mac" ++ "ro") s.body then none
    else some { a with inside := .mac { m with body := m.body ++ [t] } }
  | _ =>
    if isConditional s.body then a.condLine s
    else if !a.live then some a
    else if a.inside = .sched ∧ isDirective ".endsched" s.body then ({ a with inside := .source }).labelled s
    else if a.inside = .source ∧ isDirective (".mac" ++ "ro") s.body then
      (macroHead (firstWord s.body).2).bind (fun m =>
        if a.macros.any (fun x => x.name == m.name) then none
        else (a.labelled s).map (fun b => { b with inside := .mac m, joins := false }))
    else
      match a.macros.find? (fun m => m.name == (firstWord s.body).1) with
      | some m => a.invoke sub s m
      | none =>
        if a.inside = .sched then
          if s.cont then none
          else (a.labelled s).bind (fun b => (lexNative s.body).bind b.schedLine)
        else a.plainLine s

/-- Lines in order; `sub` runs the lines of a macro's body. -/
def runLines (sub : List Text → Asm → Option Asm) : List Text → Asm → Option Asm
  | [], a => some a
  | l :: ls, a => (a.source sub l).bind (runLines sub ls)

/-- Lines with macros to a depth (R108). -/
def runDepth : Nat → List Text → Asm → Option Asm
  | 0 => runLines (fun _ _ => none)
  | n + 1 => runLines (runDepth n)

/-- Lines in order, going on after a line that is refused. -/
def farLines (sub : List Text → Asm → Option Asm) : List Text → Asm → Asm
  | [], a => a
  | l :: ls, a => farLines sub ls ((a.source sub l).getD { a with line := a.line + 1 })

/-- Lines with macros to a depth, going on after a line that is refused, one of a macro's body too: an invocation stands for the
lines of its body (R108). -/
def runFar : Nat → List Text → Asm → Asm
  | 0 => farLines (fun _ _ => none)
  | n + 1 => farLines (fun ls a => some (runFar n ls a))

/-- Symbols with the exported ones marked; none where an export names no local label (R104). -/
def exportSyms : List (Option Text × Text) → List Sym → Option (List Sym)
  | [], l => some l
  | (scope, t) :: r, l =>
    let hits := l.filter (fun s => s.name == t && s.scope.isSome && (scope.isNone || s.scope == scope))
    if hits.length ≠ 1 ∨ l.any (fun s => s.name == t && (s.scope.isNone || s.glob)) then none
    else exportSyms r (l.map (fun s => if hits.contains s then { s with glob := true } else s))

/-- What a pass goes by and finds: where `.bss` begins unless `.org` places it, and the labels (R102, R104). -/
structure Guess where
  bssAt : Nat := 0
  known : List Sym := []
  deriving DecidableEq, Repr

/-- A pass begins. -/
def Guess.start (g : Guess) : Asm := { bssAt := g.bssAt, known := g.known }

/-- What the lines of a pass found: `.bss` follows the end of `.data` (R102). -/
def Asm.found (a : Asm) : Guess := ⟨if a.bssAuto then a.dloc else 0, (exportSyms a.exports a.syms).getD a.syms⟩

/-- The lines of a source. -/
def sourceLines (src : Text) : List Text := splitAtAll (· == '\n') src

/-- Passes until one finds what it went by. -/
def settleGuess (src : List Text) : Nat → Guess → Guess
  | 0, g => g
  | n + 1, g =>
    let h := (runFar 16 src g.start).found
    if h = g then g else settleGuess src n h

/-- A pass over a source; every block must be closed, and it must find what it went by. -/
def passWith (g : Guess) (src : List Text) : Option Asm :=
  (runDepth 16 src g.start).bind (fun a =>
    if a.inside = .source ∧ a.ifs = [] ∧ a.ovl = none ∧ a.proc = none ∧ a.found = g then some a else none)

/-- The pass whose labels and whose `.bss` are where it takes them to be (R102). Log 92, DEDUCED. -/
def passes (src : Text) : Option Asm := passWith (settleGuess (sourceLines src) 16 {}) (sourceLines src)

end Sys2Proof.Machine
end

