-- ==== Sys2Proof/Machine/ObjectFile.lean ====
section
/-! DEFINITION. flavy-as, its second pass: op words, bundles, declarations, and the code object that flavy-as and flavy-ld write
(R90, R91, R97, R100, R101, R103-R107, R217, R374, R410-R412; log 92, DEDUCED). -/

namespace Sys2Proof.Machine

/-! ### Op words and bundles -/

/-- The words of an op line, its ops for R412, and its route. -/
structure Encoded where
  words : List Word
  ops : List AsmOp
  via : Option Text := none
  deriving DecidableEq, Repr

/-- The turns of a route as a route word holds them (R79, R105). -/
def turnsWord (stop : Bool) (turns : List Nat) : Word := withStop stop (BitVec.ofNat 64 (0x7FF * 2 ^ 52 + joinNat 2 turns))

/-- One op of an op line. -/
def Asm.encodeOp (a : Asm) (it : OpItem) (stop : Bool) : Option Encoded :=
  match readOp {} (a.env it.scope it.line) it.op with
  | some o =>
    let disp : Option Nat :=
      match o.target with
      | none => some 0
      | some t => (evalExpr (a.env it.scope it.line) t).bind (fun v => branchDisp v it.off)
    match disp, o.via with
    | some d, none => some ⟨[o.word (fun _ => 63) d stop], [o], none⟩
    | some d, some r =>
      (a.routes.find? (fun x => x.name == r)).map (fun x =>
        ⟨[o.word (fun _ => 63) d false, turnsWord stop x.turns], [o], some r⟩)
    | none, _ => none
  | none => none

/-- A pair word from its two lines; `same`: each half has its own guard and they are equal; else the guard stands once, at the
end (R95). -/
def Asm.encodePair (a : Asm) (it : OpItem) (s v : List Lex) (same stop : Bool) : Option Encoded :=
  match readOp {} (a.env it.scope it.line) s, readOp {} (a.env it.scope it.line) v with
  | some x, some y =>
    if canPair x y ((mnemonicOf s).drop 1) ∧ (if same then regField x 19 5 = regField y 19 5 else !s.any (·.isSym '?')) then
      some ⟨[pairWord x y stop], [x, y], none⟩
    else none
  | _, _ => none

/-- An op line. -/
def Asm.encode (a : Asm) (it : OpItem) (stop : Bool) : Option Encoded :=
  match it.half, pairHalves it.op with
  | some v, _ => a.encodePair it it.op v true stop
  | none, some (s, v) => a.encodePair it s v false stop
  | none, none => a.encodeOp it stop

/-- The op lines of an overlay in bundles (R90). -/
def bundleLines : List OpItem → List (List OpItem)
  | [] => []
  | x :: xs =>
    match bundleLines xs, xs.head? with
    | b :: bs, some y => if y.cont then (x :: b) :: bs else [x] :: b :: bs
    | bs, _ => [x] :: bs

/-- A bundle encoded, with S in its last word. -/
def Asm.encodeBundle (a : Asm) : List OpItem → Option (List Encoded)
  | [] => some []
  | [x] => (a.encode x true).map ([·])
  | x :: xs =>
    match a.encode x false, a.encodeBundle xs with
    | some e, some es => some (e :: es)
    | _, _ => none

/-- The declared weight of words (R202). -/
def declaredWords (ws : List Word) : Nat := declaredOf' (bundleOf (placeWords 0 ws))
where
  /-- The sum over the ops of a bundle. -/
  declaredOf' (b : Fetched) : Nat := (b.items.map (fun x => ((opsOf x.word x.i).map weightOf).sum)).sum

/-- The text of an object: its overlays, route relocations, the listing's weight of each bundle (overlay, offset, wu; R101),
and its ops. -/
structure TextPart where
  overlays : List Overlay := []
  relocs : List (Nat × Nat × Nat) := []
  listing : List (Nat × Nat × Nat) := []
  ops : List AsmOp := []
  deriving DecidableEq, Repr

/-- A bundle added to a text: it must pass the checks of R101. -/
def Asm.addBundle (a : Asm) (t : TextPart) (o : Overlay) (b : List OpItem) : Option (TextPart × Overlay) :=
  match a.encodeBundle b with
  | some es =>
    let ws := es.flatMap (·.words)
    let off := (b.head?.map (·.off)).getD 0
    if bundleLegal ws then
      some ({ t with
          relocs := t.relocs ++ (b.zip es).filterMap (fun x =>
            x.2.via.bind (fun r => (a.routes.findIdx? (fun y => y.name == r)).map (fun i => (i, o.num, x.1.off + 8))))
          listing := t.listing ++ [(o.num, off, declaredWords ws)]
          ops := t.ops ++ es.flatMap (·.ops) },
        { o with words := o.words ++ ws })
    else none
  | none => none

/-- The bundles of an overlay. -/
def Asm.addBundles (a : Asm) (t : TextPart) (o : Overlay) : List (List OpItem) → Option (TextPart × Overlay)
  | [] => some (t, o)
  | b :: bs => (a.addBundle t o b).bind (fun r => a.addBundles r.1 r.2 bs)

/-- All overlays. -/
def Asm.addOverlays (a : Asm) (t : TextPart) : List (Nat × Nat) → Option TextPart
  | [] => some t
  | (n, off) :: rest =>
    (a.addBundles t ⟨n, off, []⟩ (bundleLines (a.ops.filter (fun x => x.ovl == n)))).bind (fun r =>
      a.addOverlays { r.1 with overlays := r.1.overlays ++ [r.2] } rest)

/-! ### Data -/

/-- The bytes of a data item. -/
def Asm.dataBytes (a : Asm) (d : DataItem) : Option (List Byte) :=
  match d.val with
  | .bytes l => some l
  | .values size times l =>
    (l.mapM (fun x => (evalExpr (a.env d.scope d.line) x).bind (fun v =>
      if fitsEither (8 * size) v then some (leBytes size (v.toNat % 2 ^ (8 * size))) else none))).map
      (fun bs => (List.replicate times bs.flatten).flatten)

/-- Bytes at rising offsets as runs without a gap. -/
def mergeRuns : List (Nat × List Byte) → List (Nat × List Byte)
  | [] => []
  | (o, b) :: r =>
    match mergeRuns r with
    | (o2, b2) :: r2 => if o + b.length = o2 then (o, b ++ b2) :: r2 else (o, b) :: (o2, b2) :: r2
    | [] => [(o, b)]

/-- Ranges at rising offsets without a gap. -/
def mergeSpans : List (Nat × Nat) → List (Nat × Nat)
  | [] => []
  | (o, n) :: r =>
    match mergeSpans r with
    | (o2, n2) :: r2 => if o + n = o2 then (o, n + n2) :: r2 else (o, n) :: (o2, n2) :: r2
    | [] => [(o, n)]

/-- Two items of the scratchpad do not overlap (R102). -/
def disjointSpans : List (Nat × Nat) → Bool
  | [] => true
  | x :: xs => xs.all (fun y => decide (x.2 ≤ y.1) || decide (y.2 ≤ x.1)) && disjointSpans xs

/-! ### Declarations -/

/-- The overlay and offset of a text label that `.launch` and `.eddy` lines name: the global one, else the only local one of
that name. -/
def Asm.textLabel (a : Asm) (t : Text) : Option (Nat × Nat) :=
  let l := a.syms.filter (fun s => s.name == t && s.ovl.isSome)
  match l.find? (fun s => s.scope.isNone || s.glob) with
  | some s => s.ovl.map (·, s.value.toNat)
  | none => match l with | [s] => s.ovl.map (·, s.value.toNat) | _ => none

/-- The words of a key `name=...` of a launch line, none where it is written twice. -/
def launchKey (k : String) (keys : List (List Lex)) : Option (Option (List Lex)) :=
  match keys.filter (fun p => match p with | x :: y :: _ => x.isWord k && y.isSym '=' | _ => false) with
  | [] => some none
  | [_ :: _ :: v] => some (some v)
  | _ => none

/-- The number a key gives, up to a limit; a default where it is absent. -/
def Asm.keyNat (a : Asm) (x : LaunchLine) (k : String) (lo hi dflt : Nat) : Option Nat :=
  match launchKey k x.keys with
  | some none => some dflt
  | some (some v) =>
    (evalExpr (a.env x.scope x.line) v).bind (fun w => if lo ≤ w.toNat ∧ w.toNat ≤ hi then some w.toNat else none)
  | none => none

/-- The keys of a launch line (R106, R217, R375). -/
def launchKeys : List String :=
  ["entry", "cores", "children", "prio", "estimate", "sched", "handler", "shape", "nxlimit", "compl", "arg0", "arg1", "arg2", "arg3",
   "arg4", "arg5", "arg6", "arg7"]

/-- Whether every part of a launch line is a key or `restartable`. -/
def launchParts (keys : List (List Lex)) : Bool :=
  keys.all (fun p =>
    match p with
    | [x] => x.isWord "restartable"
    | x :: y :: _ => y.isSym '=' && launchKeys.any (fun k => x.isWord k)
    | [] => false)

/-- The one word of a key. -/
def keyWord (k : String) (keys : List (List Lex)) : Option Text :=
  match launchKey k keys with
  | some (some [.word t]) => some t
  | _ => none

/-- Where a launch begins: a text label or a Yiloz procedure (R106, R418). -/
def Asm.launchEntry (a : Asm) (ps : List YProc) (t : Text) : Option (Nat × Nat) :=
  match ps.find? (fun p => p.name == t) with
  | some p => some (p.ovl, p.at_)
  | none => a.textLabel t

/-- The SHAPE of a launch (R375). -/
def shapeOf (keys : List (List Lex)) (cores : Nat) : Option Nat :=
  match launchKey "shape" keys with
  | some none => some (if cores ≤ 16 then 3 else 0)
  | some (some [x]) => (["any", "cluster", "die", "aligned"].findIdx? (fun s => x.isWord s))
  | _ => none

/-- The launch record of a line (R374). -/
def Asm.launchRecord (a : Asm) (ps : List YProc) (x : LaunchLine) : Option (List Word) :=
  let m : Nat := 2 ^ 64 - 1
  let handler : Option (Option (Nat × Nat)) :=
    match launchKey "handler" x.keys with
    | some none => some none
    | some (some [.word t]) => (a.textLabel t).map some
    | _ => none
  let sched : Option Nat :=
    match launchKey "sched" x.keys with
    | some none => some 0xFF
    | some (some [.word t]) => a.scheds.findIdx? (fun s => s.1 == t)
    | _ => none
  match (keyWord "entry" x.keys).bind (a.launchEntry ps), a.keyNat x "cores" 1 3072 0, handler, sched,
      (List.range 8).mapM (fun i => a.keyNat x ("arg" ++ toString i) 0 m 0) with
  | some (ovl, off), some cores, some h, some sc, some args =>
    match a.keyNat x "children" 0 1024 0, a.keyNat x "prio" 0 15 0, a.keyNat x "estimate" 0 m 0, a.keyNat x "nxlimit" 0 m 0,
        a.keyNat x "compl" 0 m 0, shapeOf x.keys cores with
    | some children, some prio, some est, some nx, some cmpl, some shape =>
      if cores = 0 ∨ !launchParts x.keys ∨ h.any (fun y => y.1 != ovl) then none
      else
        let rst := if x.keys.any (fun p => p.length == 1) then 1 else 0
        let d0 := ovl * 2 ^ 40 + off / 8 * 2 ^ 24 + prio * 2 ^ 20 + rst * 2 ^ 19 + shape * 2 ^ 12 + (cores - 1)
        let d1 := children * 2 ^ 42 + sc * 2 ^ 32 + (match h with | some y => y.2 / 8 * 2 ^ 19 | none => 2 ^ 18)
        some ([d0, d1, est, nx] ++ args ++ [cmpl, 0, 0, 0] |>.map (BitVec.ofNat 64))
    | _, _, _, _, _, _ => none
  | _, _, _, _, _ => none

/-- A schedule entry: a CPY or CPY2D word with its stage (R107, R287). -/
def Asm.schedEntry (a : Asm) (x : SchedLine) : Option SchedEnt :=
  match readOp { sched := true } (a.env x.scope x.line) x.op, evalExpr (a.env x.scope x.line) x.stage with
  | some o, some s =>
    let w := o.word (fun _ => 63) 0 true
    if o.form.fmt = 5 ∧ o.form.opc < 2 ∧ s.toNat < 64 ∧ !row2Op (decodeWord w none) then some ⟨w, s.toNat⟩ else none
  | _, _ => none

/-- A `.tile` record (R411); the constant fits one element. -/
def Asm.tileRecord (a : Asm) (x : TileLine) : Option (List Word) :=
  let w := tagWidth (tagOf x.tag)
  let c : Option Nat :=
    if x.kind = 1 then
      (evalExpr (a.env x.scope x.line) x.const).bind (fun v => if fitsEither w v then some (v.toNat % 2 ^ w) else none)
    else some 0
  c.map (fun n => [BitVec.ofNat 64 (x.slot + x.kind * 2 ^ 8 + x.tag * 2 ^ 12), BitVec.ofNat 64 n])

/-! ### The object (R410-R412) -/

/-- Bytes padded with zeros to whole dwords. -/
def padded (l : List Byte) : List Byte := l ++ List.replicate ((8 - l.length % 8) % 8) 0

/-- Sections at offsets from one on, each at a dword. -/
def placeSections (off : Nat) : List (Nat × List Byte) → List (Nat × Nat × List Byte)
  | [] => []
  | (ty, b) :: r => (ty, off, b) :: placeSections (off + (padded b).length) r

/-- The offsets of NUL-terminated names one after another. -/
def nameOffsets (off : Nat) : List Text → List Nat
  | [] => []
  | t :: ts => off :: nameOffsets (off + t.length + 1) ts

/-- Where each overlay's words begin in section 0x02. -/
def wordOffsets (off : Nat) : List Overlay → List Nat
  | [] => []
  | o :: os => off :: wordOffsets (off + 8 * o.words.length) os

/-- The first offset of whole 16 KiB at or above ends (R241). -/
def extentOf (ends : List Nat) : Nat := (ends.foldl max 0 + 0x3FFF) / 0x4000 * 0x4000

/-- The bytes of a signed byte. -/
def signedByte (x : Int) : Nat := (x % 256).toNat

/-- The symbols an object lists: the labels, constants and procedures, then the launches, routes, schedules, eddy entries and
Yiloz procedures by their numbers (R411; log 92, DEDUCED). -/
def Asm.objectSyms (a : Asm) (ps : List YProc) : List Sym :=
  let numbered (k : Nat) (l : List Text) : List Sym :=
    l.zipIdx.map (fun x => { name := x.1, scope := none, value := BitVec.ofNat 64 x.2, kind := k, glob := true })
  a.syms ++ numbered 4 (a.launches.map (·.name)) ++ numbered 5 (a.routes.map (·.name)) ++ numbered 6 (a.scheds.map (·.1)) ++
    numbered 7 (a.eddies.map (·.name)) ++ numbered 8 (ps.map (·.name))

/-- The text of the Yiloz blocks, each introduced by its name line (R411). -/
def Asm.yilozText (a : Asm) : Text :=
  a.yiloz.flatMap (fun y => ".yiloz ".toList ++ y.1 ++ ['\n'] ++ y.2.flatMap (fun l => l ++ ['\n']))

/-- The sections of an object from its assembled parts (R411). -/
def Asm.sections (a : Asm) (t : TextPart) (data : List (Nat × List Byte)) (tiles : List (List Word)) (launches : List (List Word))
    (scheds : List (List SchedEnt)) (eddies : List (Nat × Nat × Nat)) : List (Nat × List Byte) :=
  let syms := a.objectSyms (yilozProcs a.yilozText)
  let names := a.routes.map (·.name) ++ syms.map (·.name)
  let offs := nameOffsets 0 names
  let wd := BitVec.ofNat 64
  let bytes : List Nat → List Byte := fun l => l.flatMap (leBytes 8)
  let words : List Word → List Byte := fun l => l.flatMap (fun w => leBytes 8 w.toNat)
  let all : List (Nat × List Byte) :=
    [(1, bytes ((t.overlays.zip (wordOffsets 0 t.overlays)).flatMap (fun x =>
        [x.1.num * 2 ^ 32 + x.1.words.length * 2 ^ 16 + x.1.off, x.2]))),
     (2, words (t.overlays.flatMap (·.words))),
     (3, data.flatMap (fun x => leBytes 8 (x.2.length * 2 ^ 32 + x.1) ++ padded x.2)),
     (4, bytes ((mergeSpans a.bss).map (fun x => x.2 * 2 ^ 32 + x.1))),
     (5, words tiles.flatten),
     (6, words launches.flatten),
     (7, words (scheds.flatMap (fun l => wd l.length :: l.flatMap (fun e => [e.word, wd e.stage])))),
     (8, bytes ((a.routes.zip offs).flatMap (fun x =>
        [joinNat 2 x.1.turns, signedByte x.1.dcol + signedByte x.1.drow * 2 ^ 8 + x.2 * 2 ^ 32]))),
     (9, bytes (t.relocs.map (fun x => x.1 * 2 ^ 48 + x.2.1 * 2 ^ 40 + x.2.2))),
     (10, bytes (a.regions.map (fun x => (if x.keep then 2 ^ 63 else 0) + x.count * 2 ^ 8 + x.start))),
     (11, bytes (eddies.map (fun x => x.1 * 2 ^ 40 + x.2.2 * 2 ^ 32 + x.2.1))),
     (12, bytes ((syms.zip (offs.drop a.routes.length)).flatMap (fun x =>
        [x.1.value.toNat, x.2 * 2 ^ 32 + x.1.size, x.1.kind + (if x.1.scope.isNone || x.1.glob then 2 ^ 8 else 0)]))),
     (13, names.flatMap (fun n => bytesOfText n ++ [0])),
     (14, bytesOfText a.yilozText)]
  all.filter (fun x => !x.2.isEmpty)

/-- The bytes of an object: header, directory, sections (R410). Log 92, DEDUCED. -/
def objectBytes (mmrev weirf needs extent : Nat) (l : List (Nat × List Byte)) : List Byte :=
  let placed := placeSections (64 + 16 * l.length) l
  let dir := placed.flatMap (fun x => leBytes 8 (x.2.1 * 2 ^ 8 + x.1) ++ leBytes 8 x.2.2.length)
  let body := dir ++ placed.flatMap (fun x => padded x.2.2)
  [0x5358 * 2 ^ 48 + 1 * 2 ^ 32 + mmrev * 2 ^ 24 + weirf * 2 ^ 16 + needs, 64 + body.length, 64 * 2 ^ 8 + l.length, extent,
    (crc32 body).toNat, 0, 0, 0].flatMap (leBytes 8) ++ body

/-- An assembled source: the object, and the declared weight of each bundle (overlay, offset, wu) that the listing shows
(R101). -/
structure Assembled where
  object : List Byte
  listing : List (Nat × Nat × Nat)
  deriving DecidableEq, Repr

/-- The second pass. Log 92, DEDUCED. -/
def Asm.finish (a0 : Asm) : Option Assembled :=
  match exportSyms a0.exports a0.syms, a0.mmrev with
  | some syms, some mmrev =>
    let a := { a0 with syms := syms, known := [] }
    let ps := yilozProcs a.yilozText
    match a.addOverlays {} a.ovls, a.data.mapM a.dataBytes, a.tiles.mapM a.tileRecord, a.launches.mapM (a.launchRecord ps),
        a.scheds.mapM (fun s => s.2.mapM a.schedEntry),
        a.eddies.mapM (fun e => (a.textLabel e.entry).map (fun x => (x.1, x.2, e.share))) with
    | some t, some data, some tiles, some launches, some scheds, some eddies =>
      if disjointSpans a.spans then
        let runs := mergeRuns ((a.data.map (·.off)).zip data)
        let weirf := a.floor.getD ((t.listing.map (·.2.2)).foldl max 0)
        let needs := featuresOf t.ops ||| (if a.eddies.isEmpty then 0 else 4) ||| (if a.scheds.isEmpty then 0 else 8)
        let extent := extentOf (a.spans.map (·.2) ++ a.tiles.map (fun x => (x.slot + 1) * 4096) ++
          a.regions.map (fun r => (r.start + r.count) * 4096))
        some ⟨objectBytes mmrev weirf needs extent (a.sections t runs tiles launches scheds eddies), t.listing⟩
      else none
    | _, _, _, _, _, _ => none
  | _, _ => none

/-- flavy-as: the object and listing of a source, none where the source has an error (R89-R109, R410-R412). Log 92, DEDUCED. -/
def assemble (src : Text) : Option Assembled := (passes src).bind Asm.finish

end Sys2Proof.Machine
end

