-- ==== Sys2Proof/Tests/Slice0.lean ====
section
/-! SUPPORT. Tests of the model, each of one word or one step, with the results that the spec prints or its rules give; and for
every statement of the certificate with hypotheses a state and operands that meet them. -/

namespace Sys2Proof.Tests

open Machine

set_option Elab.async false

/-- A REG word: S, W = 1, D = far 3, A = q2, B = near 5, C = pred 3, G = !p2, RM = RDN, T = INT32, X = 6 (R72). -/
def regWord (op : Nat) : Word := 0x900A_6092_F392_4600#64 ||| (BitVec.ofNat 64 op <<< 52)
def regFields : RegF :=
  { stop := true, w := true, d := .far 3, a := .queue 2, b := .near 5, c := .pred 3, g := ⟨true, 2⟩, rm := .rdn,
    t := .tag .int32, x := 6, z := 0 }

theorem test_decode_reg_add :
    [0x00, 0x01, 0x02, 0x03, 0x04, 0x05, 0x06, 0x07, 0x08, 0x09, 0x0A, 0x0B, 0x0C, 0x0D].map (fun n =>
      decodeWord (regWord n) none) =
    ([.add, .sub, .mul, .mulh, .div, .rem, .and, .or, .xor, .andn, .shl, .shr, .sar, .rot] :
      List (RegF → Instr)).map (fun i => i regFields) := by decide

theorem test_decode_reg_clz :
    [0x0E, 0x0F, 0x10, 0x11, 0x12, 0x13, 0x14, 0x15, 0x16, 0x17, 0x18, 0x19, 0x1A, 0x1B].map (fun n =>
      decodeWord (regWord n) none) =
    ([.clz, .popc, .min, .max, .minu, .maxu, .sel, .cmp, .madd, .extr, .ins, .bswap, .shadd, .movc] :
      List (RegF → Instr)).map (fun i => i regFields) := by decide

theorem test_decode_reg_vadd :
    [0x40, 0x41, 0x42, 0x43, 0x44, 0x45, 0x46, 0x47, 0x48, 0x49, 0x4A, 0x4B, 0x4C, 0x4D].map (fun n =>
      decodeWord (regWord n) none) =
    ([.vadd, .vsub, .vmul, .vmulh, .vmin, .vmax, .vand, .vor, .vxor, .vandn, .vshl, .vshr, .vsar, .vabs] :
      List (RegF → Instr)).map (fun i => i regFields) := by decide

theorem test_decode_reg_vcmp :
    [0x4E, 0x4F, 0x50, 0x51, 0x52, 0x80, 0x81, 0x82, 0x83, 0x84, 0x85, 0x86, 0x87, 0x88].map (fun n =>
      decodeWord (regWord n) none) =
    ([.vcmp, .vsel, .vdot4, .vmadd, .vpopc, .vfadd, .vfsub, .vfmul, .vfma, .vfnma, .vfmin, .vfmax, .vfabs, .vfneg] :
      List (RegF → Instr)).map (fun i => i regFields) := by decide

theorem test_decode_reg_vfcmp :
    [0x89, 0x8A, 0x8B, 0x8C, 0x8D, 0x8E, 0x8F, 0x90, 0x91, 0x92, 0xC0, 0xC1, 0xC2, 0xC3].map (fun n =>
      decodeWord (regWord n) none) =
    ([.vfcmp, .vfrcp, .vfrsq, .vfexp2, .vflog2, .vfdiv, .vfsqrt, .vfclass, .vfscale, .vfdot2, .vcvt, .vqnt,
      .vdqnt, .vlcd] :
      List (RegF → Instr)).map (fun i => i regFields) := by decide

theorem test_decode_reg_vperm :
    [0xC5, 0xC6, 0xC7, 0xC8, 0xC9, 0xCA, 0xCB, 0xCC, 0xCD, 0xCF, 0xD0, 0xD1].map (fun n =>
      decodeWord (regWord n) none) =
    ([.vperm, .vshuf, .vbcast, .vred, .vscan, .vcmprs, .vexpnd, .vslide, .vclmul, .vextr, .vins, .vretag] :
      List (RegF → Instr)).map (fun i => i regFields) := by decide

/-- An IMM word: W = 1, D = near 9, A = far 7, G = p5, imm32 = 0x8001_0002 (R73). -/
def immWord (op : Nat) : Word := 0x2009_31CA_8001_0002#64 ||| (BitVec.ofNat 64 op <<< 52)
def immFields : ImmF :=
  { stop := false, w := true, d := .near 9, a := .far 7, g := ⟨false, 5⟩, z := false, imm := 0x80010002#32 }

theorem test_decode_imm_addi :
    [0x00, 0x01, 0x02, 0x03, 0x04, 0x05, 0x06, 0x07, 0x08, 0x09, 0x0A, 0x40, 0x41].map (fun n =>
      decodeWord (immWord n) none) =
    ([.addi, .andi, .ori, .xori, .shli, .shri, .sari, .li, .lih, .cmpi, .muli, .vli, .vaddi] :
      List (ImmF → Instr)).map (fun i => i immFields) := by decide

/-- A MEM word: S, D = near 4, A = q1, B = special zero, G = p0, SC = 2, SZ = 1, disp = -3 (R74). -/
def memWord (op : Nat) : Word := 0xB000_8070_027F_FFFD#64 ||| (BitVec.ofNat 64 op <<< 52)
def memFields : MemF :=
  { stop := true, w := false, d := .near 4, a := .queue 1, b := .zero, g := ⟨false, 0⟩, sc := .package, sz := .half,
    disp := 0x3FFFFD#22 }

theorem test_decode_mem_ld :
    [0x00, 0x01, 0x02, 0x03, 0x04, 0x20, 0x21, 0x22, 0x23, 0x24, 0x25, 0x26, 0x40, 0x41].map (fun n =>
      decodeWord (memWord n) none) =
    ([.ld, .ldu, .st, .ldp, .stp, .vld, .vst, .vlds, .vsts, .vldx, .vstx, .vldb, .aadd, .amin] :
      List (MemF → Instr)).map (fun i => i memFields) := by decide

theorem test_decode_mem_amax :
    [0x42, 0x43, 0x44, 0x45, 0x46, 0x47, 0x48, 0x49, 0x60, 0x61, 0x63, 0x64].map (fun n =>
      decodeWord (memWord n) none) =
    ([.amax, .aand, .aor, .axor, .aswp, .acas, .aminu, .amaxu, .mark, .fence, .cwb, .cinv] :
      List (MemF → Instr)).map (fun i => i memFields) := by decide

/-- A TILE word: D = 5, A = 0x23, B = 8, G = p1, OUT = k2, IN = k0, k62, none, MODE = 1 (R75). -/
def tileWord (op : Nat) : Word := 0x4000_A8C4_0420_3EFD#64 ||| (BitVec.ofNat 64 op <<< 52)
def tileFields : TileF :=
  { stop := false, d := 5, a := 0x23, b := 8, g := ⟨false, 1⟩, out := .k 2, i1 := .k 0, i2 := .k 62, i3 := .none,
    mode := 1 }

theorem test_decode_tile_tzero :
    [0x00, 0x01, 0x02, 0x03, 0x04, 0x05, 0x06, 0x07, 0x20, 0x21, 0x22, 0x23, 0x24, 0x25].map (fun n =>
      decodeWord (tileWord n) none) =
    ([.tzero, .tfill, .tident, .tclass, .tcopy, .ttag, .tmask, .tstate, .mcfg, .mgo, .mswap, .mread, .mdrain,
      .mzero] :
      List (TileF → Instr)).map (fun i => i tileFields) := by decide

theorem test_decode_tile_mstep :
    [0x26, 0x27, 0x28].map (fun n =>
      decodeWord (tileWord n) none) =
    ([.mstep, .mwload, .mstop] :
      List (TileF → Instr)).map (fun i => i tileFields) := by decide

/-- An ENGINE word: S, OUT = k1, IN = none, k7, none, A = near 4, B = far 8, C = pred 15, RW = 0, MODE = 0x21 (R76). -/
def engWord (op : Nat) : Word := 0xD000_7F1F_F492_3FA1#64 ||| (BitVec.ofNat 64 op <<< 52)
def engFields : EngF :=
  { stop := true, out := .k 1, i1 := .none, i2 := .k 7, i3 := .none, a := .near 4, b := .far 8, c := .pred 15,
    rw := false, mode := 0x21 }

theorem test_decode_eng_cpy :
    [0x00, 0x01, 0x02, 0x03, 0x04, 0x05, 0x50, 0x51, 0x52].map (fun n =>
      decodeWord (engWord n) none) =
    ([.cpy, .cpy2d, .csched, .cstage, .ovl, .dcpy, .tkwait, .tktest, .tkjoin] :
      List (EngF → Instr)).map (fun i => i engFields) := by decide

theorem test_decode_eng_ni :
    [0x20, 0x21, 0x22, 0x23, 0x24, 0x25, 0x40, 0x41, 0x42, 0x43].map (fun n =>
      decodeWord (engWord n) none) =
    ([.rget, .rput, .rgath, .rscat, .mcst, .ratom, .binit, .barr, .bwait, .bread] :
      List (EngF → Option RouteF → Instr)).map (fun i => i engFields none) := by decide

/-- A BRANCH word: S, A = near 7, G = !p3, ROT = 2, SHIFT = 5, disp = -6 (R77). -/
def brWord (op : Nat) : Word := 0xE004_F325_FFFF_FFFA#64 ||| (BitVec.ofNat 64 op <<< 52)
def brFields : BrF :=
  { stop := true, a := .near 7, g := ⟨true, 3⟩, rot := 2, shift := 5, disp := 0xFFFFFFFA#32 }

theorem test_decode_br_br :
    [0x00, 0x01, 0x02, 0x03, 0x04, 0x05, 0x06, 0x07, 0x08, 0x09].map (fun n =>
      decodeWord (brWord n) none) =
    ([.br, .brz, .brnz, .call, .ret, .jmpi, .loop, .endOp, .yield, .calli] :
      List (BrF → Instr)).map (fun i => i brFields) := by decide

/-- A SYSTEM word: S, W = 1, D = near 1, A = far 2, B = far 3, G = p0, CSR = 0x123, IMM14 = 0 (R78). -/
def sysWord (op : Nat) : Word := 0xF008_30A1_8048_C000#64 ||| (BitVec.ofNat 64 op <<< 52)
def sysFields : SysF :=
  { stop := true, w := true, d := .near 1, a := .far 2, b := .far 3, g := ⟨false, 0⟩, csr := 0x123, imm := 0 }

theorem test_decode_sys_csrr :
    [0x00, 0x01, 0x02, 0x03, 0x04, 0x05, 0x06, 0x07, 0x08, 0x09, 0x0A, 0x0B, 0x0C, 0x0D].map (fun n =>
      decodeWord (sysWord n) none) =
    ([.csrr, .csrw, .csrs, .csrc, .trap, .eret, .brk, .weirset, .weirq, .lend, .revoke, .eddy, .park, .launch] :
      List (SysF → Instr)).map (fun i => i sysFields) := by decide

theorem test_decode_sys_ntreq :
    [0x0E, 0x0F, 0x10, 0x11, 0x12].map (fun n =>
      decodeWord (sysWord n) none) =
    ([.ntreq, .seed, .rngpop, .waitev, .idle] :
      List (SysF → Instr)).map (fun i => i sysFields) := by decide

/-- IMM14 chooses among the forms of WEIRSET, EDDY, LAUNCH and NTREQ (R214, R305, R384, R390). -/
theorem test_decode_sys_forms :
    [(0x07, 1), (0x07, 2), (0x0B, 1), (0x0D, 1), (0x0D, 2), (0x0E, 1)].map (fun p =>
      decodeWord (sysWord p.1 ||| BitVec.ofNat 64 p.2) none) =
    [.weirsetBa { sysFields with imm := 1 }, .weirsetWa { sysFields with imm := 2 }, .eddyRes { sysFields with imm := 1 },
      .launchNb { sysFields with imm := 1 }, .launchG { sysFields with imm := 2 },
      .ntreqPop { sysFields with imm := 1 }] := by decide

/-- A pair word: G = p3, sop = 4, W = 1, D = s15, A = q15, B = far 31, WIDTH = 2; vop = 0x2C, W = 1, D = v9, A = near 14,
B = pred 1, VT = 5 (R70). -/
theorem test_decode_pair :
    decodeWord 0x0189_F1F7_EB32_BB8D#64 none =
      .pair { stop := false, g := ⟨false, 3⟩, sop := 4, sW := true, sD := 15, sA := .queue 15, sB := .far 31, width := 2,
              vop := 0x2C, vW := true, vD := 9, vA := .near 14, vB := .pred 1, vt := 5 } := by decide

/-- An NI op with RW set and S clear takes the route word behind it (R79). -/
theorem test_decode_route :
    decode [0x5200_7FFF_F492_12C0#64, 0xFFF0_0000_0000_0006#64, 5#64] =
      .ok (.rget { stop := false, out := .k 1, i1 := .none, i2 := .none, i3 := .none, a := .near 4, b := .far 8, c := .near 5,
                   rw := true, mode := 0 } (some { stop := true, turns := 0x6 }), [5#64]) := by rfl

/-- Unassigned opcodes decode to the word that traps (R88). -/
theorem test_decode_unassigned :
    [0x91C0_0000_0000_0000#64, 0xA0B0_0000_0000_0000#64, 0xB620_0000_0000_0000#64, 0xC080_0000_0000_0000#64,
      0xD060_0000_0000_0000#64, 0xE0A0_0000_0000_0000#64, 0xF130_0000_0000_0000#64].map (fun w => decodeWord w none) =
    [.illegalEncoding 0x91C0_0000_0000_0000#64, .illegalEncoding 0xA0B0_0000_0000_0000#64,
      .illegalEncoding 0xB620_0000_0000_0000#64, .illegalEncoding 0xC080_0000_0000_0000#64,
      .illegalEncoding 0xD060_0000_0000_0000#64, .illegalEncoding 0xE0A0_0000_0000_0000#64,
      .illegalEncoding 0xF130_0000_0000_0000#64] := by decide

/-! ### Instructions with plain fields -/

/-- A REG op `s3 := s1 op s2` without a tag check. -/
def regF : RegF :=
  { stop := true, w := true, d := .near 3, a := .near 1, b := .near 2, c := .queue 0, g := ⟨false, 0⟩, rm := .rne,
    t := .any, x := 0, z := 0 }
/-- A unary REG op `s3 := op s1`. -/
def regF1 : RegF := { regF with b := .queue 0 }
/-- A vector REG op `v3 := v1 op v2` under a tag. -/
def vecF (t : Tag) : RegF := { regF with t := .tag t }
/-- An IMM op `s3 := s1 op imm`. -/
def immF : ImmF := { stop := true, w := true, d := .near 3, a := .near 1, g := ⟨false, 0⟩, z := false, imm := 0 }
/-- A load of a dword at s1. -/
def memF : MemF :=
  { stop := true, w := true, d := .near 3, a := .near 1, b := .queue 0, g := ⟨false, 0⟩, sc := .core, sz := .dword, disp := 0 }
/-- A store of s2 at s1. -/
def stF : MemF := { memF with w := false, d := .near 0, b := .near 2 }
/-- A vector memory op at s1 under a tag code. -/
def vmF (t : Nat) : MemF := { memF with sz := .byte, disp := BitVec.ofNat 22 (t * 2 ^ 18) }
/-- A tile op without tokens. -/
def tileF : TileF :=
  { stop := true, d := 1, a := 0, b := 0, g := ⟨false, 0⟩, out := .none, i1 := .none, i2 := .none, i3 := .none, mode := 0 }
/-- An engine op without tokens, its operands s1, s2 and s3. -/
def engF : EngF :=
  { stop := true, out := .none, i1 := .none, i2 := .none, i3 := .none, a := .near 1, b := .near 2, c := .near 3, rw := false,
    mode := 0 }
/-- A branch of three words back. -/
def brF : BrF := { stop := true, a := .queue 0, g := ⟨false, 0⟩, rot := 0, shift := 0, disp := 0xFFFFFFFD#32 }
/-- A system op without operands. -/
def sysF : SysF :=
  { stop := true, w := false, d := .near 0, a := .queue 0, b := .queue 0, g := ⟨false, 0⟩, csr := 0, imm := 0 }
/-- A pair word: ADD s3 := s1 + s2 with VADD v3 := v1 + v2 of INT32. -/
def pairF : PairF :=
  { stop := true, g := ⟨false, 0⟩, sop := 0, sW := true, sD := 3, sA := .near 1, sB := .near 2, width := 0, vop := 0,
    vW := true, vD := 3, vA := .near 1, vB := .near 2, vt := 4 }

/-! ### Well-formedness: an ill-formed term for each check -/

/-- Row 1 of R80: a reserved special, RM 5 outside the converters, a predicate as a destination, p0 as one, an unassigned
encoding, m0 as TMASK's destination. -/
theorem test_ill_row1 :
    [Instr.add { regF with a := .special7 }, .sub { regF with b := .base 0 }, .add { regF with rm := .stoch },
      .add { regF with d := .pred 1 }, .cmp { regF with c := .zero, d := .pred 0 }, .illegalEncoding 5,
      .tmask { tileF with d := 0 }, .pair { pairF with sop := 28 }, .pair { pairF with vop := 20 }].map
      Machine.fieldReject = List.replicate 9 (some .illegalEncoding) := by decide

/-- Row 2 of R80 for REG and IMM ops: a queue or near level with [4] set, width 3, RM, reserved bits, T, an unused B or C, D
without W, MOVC without W, the limits of X, VSLIDE's X[3], the converters' destination and part, VRED's operation, bit 32,
a shift of 64, CMPI's condition 7, VLI's tag and immediate. -/
theorem test_ill_row2_register :
    [Instr.add { regF with a := .badQueue 1 }, .add { regF with b := .badNear 1 }, .add { regF with x := 3 },
      .add { regF with rm := .rtz }, .add { regF with z := 1 }, .add { regF with t := .tag .fp32 }, .clz regF,
      .add { regF with c := .one }, .add { regF with w := false }, .movc { regF1 with w := false },
      .cmp { regF with c := .near 1 }, .vadd { vecF .int32 with x := 1 }, .vadd { vecF .fp32 with x := 0 },
      .vslide { vecF .int32 with c := .near 3 }, .vcvt { vecF .fp32 with b := .queue 0 },
      .vlcd { vecF .lc8 with c := .queue 8, x := 8 }, .vred { vecF .int32 with b := .queue 0, x := 6 },
      .addi { immF with z := true }, .shli { immF with imm := 64 }, .cmpi { immF with imm := 0xE0000000#32 },
      .vli { immF with a := .queue 0 }, .vli { immF with a := .queue 1, imm := 256 }].map
      Machine.fieldReject = List.replicate 22 (some .reservedField) := by decide

/-- Row 2 of R80 for the other formats: scope, size, T and D of memory ops; tag, guard, mode and slot fields of tile ops;
modes, RW and token fields of engine ops; the fields of branches and system ops; a turn behind the end of a route. -/
theorem test_ill_row2_other :
    [Instr.ld { memF with sc := .cluster }, .st { stF with w := true }, .vld memF, .vld (vmF 15), .vst (vmF 4),
      .aadd { memF with sz := .half }, .acas { memF with w := true }, .fence { stF with a := .near 1 },
      .tfill { tileF with b := 0 }, .tident { tileF with a := 14 }, .tclass { tileF with a := 1 }, .tcopy { tileF with a := 1 },
      .ttag { tileF with a := 15 }, .tmask { tileF with b := 32 }, .tstate { tileF with g := ⟨true, 0⟩ },
      .mcfg { tileF with d := 7 }, .mgo { tileF with d := 4 }, .mdrain { tileF with a := 4 }, .mzero { tileF with d := 0 },
      .mstep { tileF with mode := 1 }, .mstop { tileF with d := 1 }, .cpy { engF with rw := true }, .cpy { engF with mode := 1 },
      .csched { engF with out := .k 1 }, .dcpy { engF with mode := 2 }, .rget { engF with mode := 1 } none,
      .mcst { engF with mode := 5 } none, .ratom { engF with mode := 10 } none, .barr { engF with b := .queue 0 } none,
      .bwait { engF with i1 := .k 1 } none, .tkwait engF, .br { brF with a := .near 1 }, .ret { brF with a := .near 1 },
      .loop { brF with a := .near 1, rot := 9 }, .loop { brF with a := .zero }, .endOp brF, .csrr { sysF with imm := 1 },
      .eret { sysF with csr := 1 }, .weirset { sysF with imm := 2 }, .eddy { sysF with imm := 1 }, .launchG sysF,
      .ntreqPop sysF, .idle { sysF with a := .near 1 }, .rget engF (some { stop := true, turns := 0x30 })].map
      Machine.fieldReject = List.replicate 44 (some .reservedField) := by decide

/-- Row 3 of R80: RW with S set, RW without a route word, a route word without RW. -/
theorem test_ill_row3 :
    [Instr.rget { engF with rw := true } (some { stop := true, turns := 0 }), .rget { engF with rw := true, stop := false } none,
      .rget engF (some { stop := true, turns := 0 })].map Machine.fieldReject =
    List.replicate 3 (some .routeMisplaced) := by decide

/-- The plain terms above are well formed. -/
theorem test_well_formed :
    [Instr.add regF, .clz regF1, .vadd (vecF .int32), .addi immF, .ld memF, .st stF, .vld (vmF 4), .tzero { tileF with a := 4 },
      .mgo tileF, .cpy engF, .rget engF none, .br brF, .eret sysF, .pair pairF, .taskEnd].map wellFormed =
    List.replicate 15 true := by decide

/-! ### Small states -/

/-- An owner context that runs, with a handler at 0x100. -/
def ownCtx : Ctx := { Ctx.reset with run := .run, tr := { Ctx.reset.tr with noh := false, vec := 0x100#16 } }
/-- A core whose owner runs and whose first stripe has power. -/
def ownCore : CoreState :=
  { CoreState.reset with
    ctxs := CoreState.reset.ctxs.set 0 ownCtx
    slot := { CoreState.reset.slot with st := .run }
    stripes := CoreState.reset.stripes.set 0 { pw := .awake } }
/-- A package whose core 0 is that core. -/
def own : State := { State.reset with cores := [(0, ownCore)] }
/-- The same with its owner context changed. -/
def withCtx (f : Ctx → Ctx) : State := own.updCtx 0 0 f
/-- The same with the core changed. -/
def withCore (f : CoreState → CoreState) : State := own.updCore 0 f
/-- A scalar near register set. -/
def setS (n : Fin 16) (v : Word) (c : Ctx) (t : Tag := .int64) : Ctx :=
  { c with files := { c.files with s := c.files.s.set n { v := v, tag := t } } }
/-- A vector near register set. -/
def setV (n : Fin 16) (v : VWord) (t : Tag) (c : Ctx) : Ctx :=
  { c with files := { c.files with v := c.files.v.set n { v := v, tag := t } } }
/-- s1 and s2 set. -/
def s12 (a b : Word) : State := withCtx (fun c => setS 2 b (setS 1 a c))
/-- s1, s2 and s3 set. -/
def s123 (a b c : Word) : State := withCtx (fun x => setS 3 c (setS 2 b (setS 1 a x)))
/-- v1 and v2 set. -/
def v12 (t : Tag) (a b : VWord) : State := withCtx (fun c => setV 2 b t (setV 1 a t c))
/-- The state after an instruction. -/
def after (i : Instr) (s : State) : Option State := match exec i s with | .next t => some t | _ => none
/-- What is read of the state after an instruction. -/
def reads (i : Instr) (s : State) (f : State → α) : Option α := (after i s).map f
/-- The value an instruction pushes on the scalar queue. -/
def pushes (i : Instr) (s : State) : Option Word := ((after i s).bind (fun t => t.me.q.sq.get 0)).map (·.v)
/-- Lane `k` of `w` bits of the value an instruction pushes on the vector queue. -/
def lanes (i : Instr) (s : State) (w : Nat) (k : List Nat) : Option (List Nat) :=
  ((after i s).bind (fun t => t.me.q.vq.get 0)).map (fun v => k.map (fun n => (v.v.extractLsb' (w * n) w).toNat))
/-- The trap an instruction takes: cause, TRAPINFO0, the return offset, the new program counter. -/
def traps (i : Instr) (s : State) : Option (Nat × Word × Nat × Nat) :=
  reads i s (fun t => (t.me.tr.cause.toNat, t.me.tr.info0, t.me.tr.epc.toNat, t.me.pc.toNat))

/-! ### Scalar ops (R113-R119) -/

/-- 0x7FFF_FFFF + 1 under width 01 is -2^31, tagged INT32. -/
theorem test_add_width32 :
    reads (.add { regF with x := 1 }) (s12 0x7FFFFFFF 1) (fun t => t.me.files.s.get 3) =
      some { v := 0xFFFFFFFF80000000, tag := .int32 } := by decide
theorem test_sub_borrows : pushes (.sub regF) (s12 0 1) = some (BitVec.allOnes 64) := by decide
theorem test_mul_low : pushes (.mul regF) (s12 0x100000001 0x100000001) = some 0x200000001 := by decide
theorem test_mulh_signed : pushes (.mulh regF) (s12 0x8000000000000000 2) = some (BitVec.allOnes 64) := by decide
/-- A zero divisor: all ones, IDZ in FPSTAT[6] (R114). -/
theorem test_div_zero :
    reads (.div regF) (s12 7 0) (fun t => (t.me.files.s.get 3, t.me.csr.fpstat)) =
      some ({ v := BitVec.allOnes 64, tag := .int64 }, 0x40#7) := by decide
theorem test_div_truncates : pushes (.div regF) (s12 (-7) 2) = some (-3) := by decide
theorem test_rem_sign : pushes (.rem regF) (s12 (-7) 2) = some (-1) := by decide
theorem test_andn : pushes (.andn regF) (s12 0xFF 0x0F) = some 0xF0 := by decide
/-- The count is B modulo the width. -/
theorem test_shl_count : pushes (.shl regF) (s12 1 65) = some 2 := by decide
theorem test_sar_sign : pushes (.sar regF) (s12 (-8) 1) = some (-4) := by decide
theorem test_rot_wraps : pushes (.rot regF) (s12 0x8000000000000001 1) = some 3 := by decide
theorem test_clz : pushes (.clz regF1) (s12 1 0) = some 63 := by decide
theorem test_popc : pushes (.popc regF1) (s12 0xF0F1 0) = some 9 := by decide
theorem test_min_signed : pushes (.min regF) (s12 (-1) 1) = some (-1) := by decide
theorem test_minu_unsigned : pushes (.minu regF) (s12 (-1) 1) = some 1 := by decide
theorem test_bswap : pushes (.bswap regF1) (s12 0x0102030405060708 0) = some 0x0807060504030201 := by decide
theorem test_madd : pushes (.madd { regF with c := .near 3 }) (s123 3 4 5) = some 17 := by decide
theorem test_movc_tag :
    reads (.movc { regF1 with t := .tag .fp32 }) (s12 5 0) (fun t => (t.me.files.s.get 3).tag) = some .fp32 := by decide
/-- Guarded off, A's bits and tag are delivered (R16). -/
theorem test_add_guarded_off : pushes (.add { regF with g := ⟨true, 0⟩ }) (s12 5 6) = some 5 := by decide
theorem test_addi_negative : pushes (.addi { immF with imm := 0xFFFFFFFF#32 }) (s12 5 0) = some 4 := by decide
/-- `LI _, 0x9ABC_DEF0` and `LIH s4, q1, 0x1234_5678` build 0x1234_5678_9ABC_DEF0 (R118). -/
theorem test_lih :
    pushes (.lih { immF with imm := 0x12345678#32 }) (s12 0xFFFFFFFF9ABCDEF0 0) = some 0x123456789ABCDEF0 := by decide
theorem test_cmpi_equal : pushes (.cmpi { immF with imm := 5 }) (s12 5 0) = some 1 := by decide
/-- The first word of a generator seeded with 0 (R48). -/
theorem test_rngpop_first :
    pushes (.rngpop { sysF with w := true, d := .near 3 }) own = some 0xE220A8397B1DCDAF := by decide

/-! ### Vector ops -/

/-- Lanes add modulo their width, without a carry into the next (R137). -/
theorem test_vadd_lanes :
    lanes (.vadd (vecF .int8)) (v12 .int8 0x01FF#2048 0x0101#2048) 8 [0, 1, 2] = some [0, 2, 0] := by decide +kernel
/-- 1.5 x 2 = 3 in FP16 (R53, R140). -/
theorem test_vfmul_half :
    lanes (.vfmul (vecF .fp16)) (v12 .fp16 0x3E00#2048 0x4000#2048) 16 [0, 1] = some [0x4200, 0] := by decide +kernel
/-- 1/0 in FP32 is +infinity, with DZ in FPSTAT[1] (R42). -/
theorem test_vfdiv_zero :
    reads (.vfdiv { vecF .fp32 with g := ⟨false, 1⟩ })
        (withCtx (fun c => { setV 2 0 .fp32 (setV 1 0x3F800000#2048 .fp32 c) with
          files := { (setV 2 0 .fp32 (setV 1 0x3F800000#2048 .fp32 c)).files with p := c.files.p.set 1 1 } }))
        (fun t => ((t.me.files.v.get 3).v.extractLsb' 0 32, t.me.csr.fpstat)) =
      some (0x7F800000#32, 0x02#7) := by decide +kernel
/-- `VLI.h v1, 0x3C00` fills 128 lanes with 1.0 (R160). -/
theorem test_vli_half :
    lanes (.vli { immF with a := .queue 8, imm := 0x3C00 }) own 16 [0, 127] = some [0x3C00, 0x3C00] := by decide +kernel
/-- The sum of the INT32 lanes 1, 2, 3 and zeros (R154). -/
theorem test_vred_sum :
    pushes (.vred { vecF .int32 with b := .queue 0 }) (v12 .int32 0x000000030000000200000001#2048 0) = some 6 := by decide +kernel
/-- A lane count of INT32 -1 narrows to INT8 -1 in lane 0 (R147). -/
theorem test_vcvt_narrow :
    lanes (.vcvt { vecF .int32 with b := .queue 0, c := .queue 1 }) (v12 .int32 0xFFFFFFFF#2048 0) 8 [0, 1, 255] =
      some [255, 0, 0] := by decide +kernel
/-- VSLIDE and VEXTR pick lanes by number (R156, R157). -/
theorem test_vextr :
    pushes (.vextr { vecF .int32 with x := 8, b := .near 2 })
      (withCtx (fun c => setS 2 1 (setV 1 0x000000070000000500000001#2048 .int32 c))) = some 5 := by decide +kernel

/-! ### Memory -/

/-- LD sign-extends a byte, LDU does not (R171). -/
theorem test_ld_byte :
    (pushes (.ld { memF with sz := .byte }) ((s12 0x40 0).updCore 0 (fun x => { x with spad := [(0x40, 0x80#8)] })),
      pushes (.ldu { memF with sz := .byte }) ((s12 0x40 0).updCore 0 (fun x => { x with spad := [(0x40, 0x80#8)] }))) =
      (some 0xFFFFFFFFFFFFFF80, some 0x80) := by decide
/-- A store waits in the queue (R166); a load of its word is performed after it (R167). -/
theorem test_load_after_store :
    (reads (.st { stF with sz := .word }) (s12 0x40 0x11223344) (fun t =>
      (t.myCore.spad.read 0x40, pushes (.ldu { memF with sz := .half, disp := 1 }) t))) =
      some (0x00#8, some 0x2233) := by decide
/-- AADD performs at once and pushes the old value (R175). -/
theorem test_aadd :
    reads (.aadd { memF with b := .near 2 }) ((s12 0x40 5).updCore 0 (fun x => { x with spad := [(0x40, 0xFF#8)] }))
      (fun t => (t.me.q.sq.get 0, t.myCore.spad.read 0x40, t.myCore.spad.read 0x41)) =
      some (some { v := 0xFF, tag := .int64 }, 0x04#8, 0x01#8) := by decide
/-- A load outside the scratchpad and outside every range traps with the address in TRAPINFO0 (R178). -/
theorem test_ld_unmapped :
    reads (.ld memF) (s12 0x90000 0) (fun t => (t.me.tr.info0, t.me.pc)) = some (0x90000, 0x100#16) := by decide

/-! ### Control and traps -/

/-- Three words back from 0x40 (R77). -/
theorem test_br_back : reads (.br brF) (withCtx (fun c => { c with pc := 0x40 })) (fun t => t.me.pc) = some 0x28#16 := by decide
/-- BRZ falls through on a value that is not zero (R120). -/
theorem test_brz_falls :
    reads (.brz { brF with a := .near 1 }) ((s12 1 0).updCtx 0 0 (fun c => { c with pc := 0x40 })) (fun t => t.me.pc) =
      some 0x48#16 := by decide
/-- CALL pushes the offset behind itself (R121). -/
theorem test_call_pushes : pushes (.call brF) (withCtx (fun c => { c with pc := 0x40 })) = some 0x48 := by decide
/-- LOOP with the count at 1 falls through and leaves 0 (R123). -/
theorem test_loop_ends :
    reads (.loop { brF with a := .near 1 }) ((s12 1 0).updCtx 0 0 (fun c => { c with pc := 0x40 }))
      (fun t => (t.me.pc, (t.me.files.s.get 1).v)) = some (0x48#16, 0) := by decide
theorem test_end : reads (.endOp { brF with disp := 0 }) own (fun t => t.me.run) = some .ended := by decide
/-- An unassigned opcode traps with cause 0x00 and its word, at the handler, EPC at the word (R88, R186, R193). -/
theorem test_illegal_traps :
    traps (.illegalEncoding 0x91C0000000000000#64) (withCtx (fun c => { c with pc := 0x40 })) =
      some (0x00, 0x91C0000000000000#64, 0x40, 0x100) := by decide
/-- BRK 5 traps with cause 0x50 and 5 in TRAPINFO1 (R197). -/
theorem test_brk : reads (.brk { sysF with imm := 5 }) own (fun t => (t.me.tr.cause, t.me.tr.info1)) = some (0x50#7, 5) := by
  decide
/-- ERET returns to EPC and leaves handler mode (R198); outside it, PRIVILEGE. -/
theorem test_eret :
    reads (.eret sysF) (withCtx (fun c => { c with pc := 0x108, tr := { c.tr with hm := true, epc := 0x43 } }))
      (fun t => (t.me.pc, t.me.tr.hm)) = some (0x40#16, false) := by decide
theorem test_eret_privilege : reads (.eret sysF) own (fun t => t.me.tr.cause) = some 0x52#7 := by decide
/-- CSRW of EPC outside handler mode traps with cause 0x52 and its number (R22). -/
theorem test_csrw_privilege :
    reads (.csrw { sysF with a := .near 1, csr := 0x016 }) (s12 8 0) (fun t => (t.me.tr.cause, t.me.tr.info0)) =
      some (0x52#7, 0x16) := by decide
theorem test_csrr_weirw : pushes (.csrr { sysF with w := true, d := .near 3, csr := 0x005 }) own = some 448 := by decide
/-- WEIRSET below WEIRF traps, between the limits it takes effect and pushes the old weirs (R214). -/
theorem test_weirset :
    reads (.weirset { sysF with w := true, d := .near 3, a := .near 1, b := .near 2, imm := 3 }) (s12 80 640)
      (fun t => (t.me.csr.weira, t.me.csr.weirw)) = some (80, 640) := by decide
/-- An operand of the wrong tag: cause 0x06, found 5, required 4, field 0 (R19, R193). -/
theorem test_tag_trap :
    reads (.add { regF with t := .tag .int32 }) (s12 1 2) (fun t => (t.me.tr.cause, t.me.tr.info1)) = some (0x06#7, 0x45) := by
  decide

/-! ### Tiles and engines -/

/-- TZERO moves its slot to FILLING (R225, R234). -/
theorem test_tzero :
    reads (.tzero { tileF with a := 4, out := .k 2 }) own (fun t => ((t.myCore.tile 1).st, (t.me.tok.get 2).done)) =
      some (.filling, false) := by decide
/-- The last two rows of a TZERO of slot 1 are written in one cycle (R233). -/
theorem test_tile_rows :
    reads .tileOpStart
        { (withCore (fun x => { x with spad := [(4097, 9#8), (8065, 9#8)], cmds :=
            [{ id := 1, ctx := 0, tok := .k 2, deps := [], kind := .tzero 1 none, started := true, next := 30,
               buf := List.replicate 4096 0 }] })) with cur := { own.cur with id := 1 } }
        (fun t => t.myCore.spad) = some [(4097, 9#8)] := by decide +kernel
/-- MCFG stores a level word whose reserved bits are zero (R248, R260). -/
theorem test_mcfg_level :
    reads (.mcfg { tileF with a := 0x21, d := 0 }) (s12 0x0301FF0002000000 0) (fun t => t.myCore.shadow.get 0) =
      some 0x0301FF0002000000 := by decide
/-- MSWAP exchanges the banks (R246). -/
theorem test_mswap :
    reads (.mswap { tileF with d := 0 }) (withCore (fun x =>
        { x with accs := x.accs.set 0 { work := { fp64 := true }, vis := { mem := [(0, 1#8)] } } }))
      (fun t => ((t.myCore.accs.get 0).work, (t.myCore.accs.get 0).vis)) =
      some ({ mem := [(0, 1#8)] }, { fp64 := true }) := by decide
/-- TKTEST of a command that has not ended pushes 0 and drops the token (R281). -/
theorem test_tktest_pending :
    pushes (.tktest { engF with a := .queue 0, b := .queue 0, c := .queue 0, i1 := .k 5 })
      (withCtx (fun c => { c with tok := c.tok.set 5 { live := true, done := false, cmd := 9 } })) = some 0 := by decide
/-- A copy of no bytes starts nothing: its token is LIVE and DONE (R284). -/
theorem test_cpy_empty :
    reads (.cpy { engF with out := .k 4 }) (s123 0x100 0x200 0)
      (fun t => ((t.me.tok.get 4).live, (t.me.tok.get 4).done, t.myCore.cmds.length)) = some (true, true, 0) := by decide

/-! ### Events -/

/-- k of 16 pulses: with k = 12, slot 3 is dropped, slot 0 too (R359). -/
theorem test_pattern : (List.range 16).map (keepsSlot 12) =
    [false, true, true, true, false, true, true, true, false, true, true, true, false, true, true, true] := by decide
/-- A nonzero FWLEN in WAITFW starts LOADING; in any other phase it is ignored (R431). -/
theorem test_fwlen :
    (reads (.fwlenWrite 64) { own with boot := { own.boot with phase := .waitfw } } (fun t => t.boot.phase),
      reads (.fwlenWrite 64) own (fun t => t.boot.phase)) = (some .loading, some .reset) := by decide
/-- The last cycle of a YIELD (R125). -/
theorem test_yield_expiry :
    reads .yieldExpiry (withCtx (fun c => { c with waits := { c.waits with yield := 1 } })) (fun t => t.me.waits.yield) =
      some 0 := by decide
/-- A wake of a context that does not wait is kept (R127). -/
theorem test_context_wake : reads .contextWake own (fun t => t.me.tr.wake) = some true := by decide
/-- A machine check halts the context with cause 0x5F (R200). -/
theorem test_machine_check :
    reads (.machineCheck { core := 0, ctxs := [0], unit := 3, syndrome := 9 }) own (fun t => t.me.run) =
      some (.halted 0x5F) := by decide
/-- A replayed flit is counted (R436). -/
theorem test_flit_replay : reads .flitReplay own (fun t => (t.die 0).soft.get 15) = some 1 := by decide
/-- An event of a core outside the package stops the step. -/
theorem test_no_such_agent : exec .regionReclaim { own with cur := { own.cur with core := 3072 } } = .fault .noSuchAgent := by
  rfl

/-! ### The step -/

/-- From reset with nothing placed the first step is a master pulse (log 2). -/
theorem test_first_step : (match step State.reset with | .next t => t.master | _ => 0) = 1 := by decide
/-- A word placed where the next fetch reads runs in the next step (log 1): `ADDI s6, s6, 1`. -/
theorem test_placed_word_runs :
    (match step (State.reset.withFetchWord 64 0xA008C98000000001) with | .next t => t.me.files.s.get 6 | _ => {}) =
      { v := 1, tag := .int64 } := by decide

/-! ### What the statements assume is met: a state and operands for every statement with hypotheses

Each theorem below states the hypotheses of one statement, or of one clause of it, for one instruction it names. -/

open Claim

/-- A memory access that passes, as a Boolean. -/
def accOk (s : State) (a : Acc1) : Bool :=
  [1, 2, 3, 4, 5].all (fun r => s.accFails s.cur.core s.cur.ctx s.myTask a r == none) &&
  !s.accMigrating s.cur.core s.myTask a &&
  (isEddy s.cur.ctx || (match s.ownOff s.cur.core a.va with
    | some o => !s.myCore.ownerBlocked o && !s.myCore.ownerBlocked (o + a.n - 1)
    | none => true))

theorem accPasses_of_accOk {s : State} {a : Acc1} (h : accOk s a = true) : AccPasses s a := by
  simp only [accOk, Bool.and_eq_true, List.all_eq_true, beq_iff_eq, Bool.not_eq_true', Bool.or_eq_true] at h
  refine ⟨h.1.1, h.1.2, h.2.imp id (fun h o ho => ?_)⟩
  rw [ho] at h
  simpa using h

/-- Handler mode. -/
def inHandler (s : State) : State := s.updMe (fun c => { c with tr := { c.tr with hm := true } })
/-- A guard that is off in every lane. -/
def off : Guard := ⟨true, 0⟩

theorem meets_scalarSums : (s12 3 4).Ready (.add { regF with t := .tag .int64 }) ∧
    TagsMatch (s12 3 4) (.add { regF with t := .tag .int64 }) (.tag .int64) := by decide
theorem meets_scalarChoices : (s12 3 4).Ready (.minu regF) ∧ TagsMatch (s12 3 4) (.minu regF) .any := by decide
theorem meets_scalarShifts : (s12 3 64).Ready (.shl regF) ∧ TagsMatch (s12 3 64) (.shl regF) .any := by decide
theorem meets_scalarDivision : (s12 3 0).Ready (.div regF) ∧ TagsMatch (s12 3 0) (.div regF) .any ∧
    ((s12 3 0).me.tr.hm = true ∨ (s12 3 0).me.csr.fpctl.getLsbD 10 = false ∨ byZero regF (s12 3 0) = false) := by decide
/-- FPCTL with one bit set. -/
def enabling (b : Nat) (s : State) : State :=
  s.updMe (fun c => { c with csr := { c.csr with fpctl := BitVec.twoPow _ b } })
theorem meets_scalarDivision_traps : (enabling 10 (s12 3 0)).Ready (.div regF) ∧ Handles (enabling 10 (s12 3 0)) ∧
    (enabling 10 (s12 3 0)).me.csr.fpctl.getLsbD 10 = true ∧ byZero regF (enabling 10 (s12 3 0)) = true := by decide
theorem meets_scalarCompare : (s12 3 4).Ready (.cmp { regF with c := .zero, d := .pred 1 }) ∧
    TagsMatch (s12 3 4) (.cmp { regF with c := .zero, d := .pred 1 }) .any := by decide
theorem meets_moveRetags : (s12 3 4).Ready (.movc { regF1 with t := .tag .fp32 }) := by decide
theorem meets_immediateOps : (s12 3 4).Ready (.addi immF) ∧ own.Ready (.li { immF with a := .queue 0 }) := by decide
theorem meets_immediateCompare : (s12 3 4).Ready (.cmpi { immF with d := .pred 15 }) := by decide

theorem meets_vectorIntegers : (v12 .int8 1 2).Ready (.vadd (vecF .int8)) ∧
    VecTagsMatch (v12 .int8 1 2) (.vadd (vecF .int8)) (tagT (vecF .int8)) := by decide +kernel
/-- v1, v2 and v3 set. -/
def v123 (t u : Tag) (a b c : VWord) : State := withCtx (fun x => setV 3 c u (setV 2 b t (setV 1 a t x)))
/-- v1 set, s2 and s3 set. -/
def v1s23 (t : Tag) (a : VWord) (b c : Word) : State := withCtx (fun x => setS 3 c (setS 2 b (setV 1 a t x)))
theorem meets_vectorSelect : (v123 .int8 .bits 1 2 3).Ready (.vsel { vecF .int8 with c := .near 3 }) ∧
    VecTagsMatch (v123 .int8 .bits 1 2 3) (.vsel { vecF .int8 with c := .near 3 })
      (fun x t => if x.idx = 2 then t = .bits else tagT (vecF .int8) x t) := by decide +kernel
theorem meets_vectorDot : (v123 .int8 .int32 1 2 3).Ready (.vdot4 { vecF .int8 with c := .near 3 }) ∧
    VecTagsMatch (v123 .int8 .int32 1 2 3) (.vdot4 { vecF .int8 with c := .near 3 })
      (fun x t => if x.idx = 2 then t = .int32 else tagT (vecF .int8) x t) := by decide +kernel
theorem meets_vectorCompares :
    ((v12 .int8 1 2).Ready (.vcmp { vecF .int8 with d := .pred 1 }) ∧
      VecTagsMatch (v12 .int8 1 2) (.vcmp { vecF .int8 with d := .pred 1 }) (tagT (vecF .int8))) ∧
    (v12 .fp16 1 2).Ready (.vfcmp { vecF .fp16 with d := .pred 1 }) ∧
      VecTagsMatch (v12 .fp16 1 2) (.vfcmp { vecF .fp16 with d := .pred 1 }) (tagT (vecF .fp16)) ∧
      NoFlagTraps (v12 .fp16 1 2) := by decide +kernel
theorem meets_vectorFloats : (v12 .fp16 1 2).Ready (.vfadd (vecF .fp16)) ∧
    VecTagsMatch (v12 .fp16 1 2) (.vfadd (vecF .fp16)) (tagT (vecF .fp16)) ∧ NoFlagTraps (v12 .fp16 1 2) := by decide +kernel
/-- IV, the second flag of R42, enabled, lane 0 a signalling NaN, and no other flag enabled. -/
theorem meets_vectorFloats_traps :
    let s := enabling 5 (v12 .fp16 0x7C01 0x3C00)
    let r (k : Nat) : FRes := ((fpTable.head?.map (·.2)).getD (fun _ _ _ _ _ => (0, 0))) (vFmt (vecF .fp16)) (vRM (vecF .fp16) s)
      (laneA (vecF .fp16) s 16 k).toNat (laneB (vecF .fp16) s 16 k).toNat (laneC (vecF .fp16) s 16 k).toNat
    Handles s ∧ flagTable[1]? = some (0, 5) ∧ s.me.csr.fpctl.getLsbD 5 = true ∧ (r 0).2.getLsbD 0 = true ∧
      s.me.guardBit (vecF .fp16).g 0 = true ∧ s.me.csr.fpctl.getLsbD 10 = false := by decide +kernel
/-- A unary vector REG op. -/
def vec1 (t : Tag) : RegF := { vecF t with b := .queue 0 }
theorem meets_vfabs : (v12 .fp32 1 2).Ready (.vfabs (vec1 .fp32)) ∧
    VecTagsMatch (v12 .fp32 1 2) (.vfabs (vec1 .fp32)) (tagT (vec1 .fp32)) := by decide +kernel
theorem meets_vfneg : (v12 .fp32 1 2).Ready (.vfneg (vec1 .fp32)) ∧
    VecTagsMatch (v12 .fp32 1 2) (.vfneg (vec1 .fp32)) (tagT (vec1 .fp32)) := by decide +kernel
theorem meets_vfclass : (v12 .fp32 1 2).Ready (.vfclass (vec1 .fp32)) ∧
    VecTagsMatch (v12 .fp32 1 2) (.vfclass (vec1 .fp32)) (tagT (vec1 .fp32)) := by decide +kernel
theorem meets_vfscale : (v1s23 .fp32 1 2 3).Ready (.vfscale { vecF .fp32 with x := 8 }) ∧
    VecTagsMatch (v1s23 .fp32 1 2 3) (.vfscale { vecF .fp32 with x := 8 }) (fun x t =>
      if x.idx = 1 then (if x.vec then t = sintOf (tagWidth (vT { vecF .fp32 with x := 8 })) else indexTag t)
      else tagT { vecF .fp32 with x := 8 } x t) ∧ NoFlagTraps (v1s23 .fp32 1 2 3) := by decide +kernel
theorem meets_vfdot2 : (v123 .fp16 .fp32 1 2 3).Ready (.vfdot2 { vecF .fp16 with c := .near 3 }) ∧
    VecTagsMatch (v123 .fp16 .fp32 1 2 3) (.vfdot2 { vecF .fp16 with c := .near 3 })
      (fun x t => if x.idx = 2 then t = .fp32 else tagT (vecF .fp16) x t) ∧ NoFlagTraps (v123 .fp16 .fp32 1 2 3) := by
  decide +kernel
/-- A converter from one tag to the one with code `d`. -/
def cvtF (t : Tag) (d : Fin 16) : RegF := { vec1 t with c := .queue d }
theorem meets_converters_vcvt : (v12 .fp32 1 2).Ready (.vcvt (cvtF .fp32 8)) ∧
    VecTagsMatch (v12 .fp32 1 2) (.vcvt (cvtF .fp32 8)) (tagT (cvtF .fp32 8)) ∧ NoFlagTraps (v12 .fp32 1 2) ∧
    (v12 .bits 1 2).Ready (.vcvt (cvtF .bits 8)) ∧
    VecTagsMatch (v12 .bits 1 2) (.vcvt (cvtF .bits 8)) (tagT (cvtF .bits 8)) ∧ NoFlagTraps (v12 .bits 1 2) := by decide +kernel
theorem meets_converters_vqnt : (v12 .fp32 1 2).Ready (.vqnt { cvtF .fp32 6 with x := 1 }) ∧
    VecTagsMatch (v12 .fp32 1 2) (.vqnt { cvtF .fp32 6 with x := 1 }) (tagT (cvtF .fp32 6)) ∧
    NoFlagTraps (v12 .fp32 1 2) ∧ (v12 .fp32 1 2).Ready (.vqnt (cvtF .fp32 6)) := by decide +kernel
/-- v1 with one tag and v2 with another. -/
def v12' (t u : Tag) (a b : VWord) : State := withCtx (fun c => setV 2 b u (setV 1 a t c))
theorem meets_converters_vdqnt : (v12' .int8 .scale8 1 2).Ready (.vdqnt { cvtF .int8 8 with b := .near 2 }) ∧
    VecTagsMatch (v12' .int8 .scale8 1 2) (.vdqnt { cvtF .int8 8 with b := .near 2 })
      (fun x t => if x.idx = 1 then t = .scale8 else tagT (cvtF .int8 8) x t) ∧
    NoFlagTraps (v12' .int8 .scale8 1 2) := by decide +kernel
theorem meets_converters_vlcd : (v12' .lc8 .scale8 1 2).Ready (.vlcd { cvtF .lc8 8 with b := .near 2 }) ∧
    VecTagsMatch (v12' .lc8 .scale8 1 2) (.vlcd { cvtF .lc8 8 with b := .near 2 })
      (fun x t => if x.idx = 1 then t = .scale8 else tagT (cvtF .lc8 8) x t) ∧
    NoFlagTraps (v12' .lc8 .scale8 1 2) := by decide +kernel
theorem meets_laneMoves_vperm : (v12' .int8 .uint8 1 2).Ready (.vperm (vecF .int8)) ∧
    VecTagsMatch (v12' .int8 .uint8 1 2) (.vperm (vecF .int8)) (fun x t => if x.idx = 1 then
      (if x.vec then (t = sintOf (tagWidth (vT (vecF .int8))) ∨ (tagWidth (vT (vecF .int8)) = 8 ∧ t = .uint8)) else indexTag t)
      else tagT (vecF .int8) x t) := by decide +kernel
theorem meets_laneMoves_vshuf : (v12 .int8 1 2).Ready (.vshuf (vecF .int8)) ∧
    VecTagsMatch (v12 .int8 1 2) (.vshuf (vecF .int8)) (tagT (vecF .int8)) := by decide +kernel
theorem meets_laneMoves_vbcast : (s12 1 2).Ready (.vbcast (vec1 .int64)) ∧
    VecTagsMatch (s12 1 2) (.vbcast (vec1 .int64)) (tagT (vec1 .int64)) := by decide
theorem meets_laneMoves_masked : (v12' .int8 .bits 1 2).Ready (.vcmprs (vecF .int8)) ∧
    (v12' .int8 .bits 1 2).Ready (.vexpnd (vecF .int8)) ∧
    VecTagsMatch (v12' .int8 .bits 1 2) (.vcmprs (vecF .int8))
      (fun x t => if x.idx = 1 then t = .bits else tagT (vecF .int8) x t) ∧
    VecTagsMatch (v12' .int8 .bits 1 2) (.vexpnd (vecF .int8))
      (fun x t => if x.idx = 1 then t = .bits else tagT (vecF .int8) x t) := by decide +kernel
/-- v1 and v3 under a tag, s2 set. -/
def v13s2 (t : Tag) (a c : VWord) (b : Word) : State := withCtx (fun x => setS 2 b (setV 3 c t (setV 1 a t x)))
theorem meets_laneMoves_vslide : (v13s2 .int8 1 2 300).Ready (.vslide { vecF .int8 with x := 8, c := .near 3 }) ∧
    VecTagsMatch (v13s2 .int8 1 2 300) (.vslide { vecF .int8 with x := 8, c := .near 3 })
      (fun x t => if x.idx = 1 then indexTag t else tagT (vecF .int8) x t) := by decide +kernel
/-- v1 under INT32, s2 an index and s3 an INT32 element. -/
def v1s2s3 : State := withCtx (fun x => setS 3 9 (setS 2 70 (setV 1 5 .int32 x)) .int32)
theorem meets_laneMoves_vins : v1s2s3.Ready (.vins { vecF .int32 with x := 8, c := .near 3 }) ∧
    VecTagsMatch v1s2s3 (.vins { vecF .int32 with x := 8, c := .near 3 })
      (fun x t => if x.idx = 1 then indexTag t else tagT (vecF .int32) x t) := by decide +kernel
theorem meets_laneMoves_vextr : v1s2s3.Ready (.vextr { vecF .int32 with x := 8 }) ∧
    VecTagsMatch v1s2s3 (.vextr { vecF .int32 with x := 8 })
      (fun x t => if x.idx = 1 then indexTag t else tagT (vecF .int32) x t) := by decide +kernel
theorem meets_laneMoves_vclmul : (v1s23 .bits 1 2 3).Ready (.vclmul { vecF .bits with x := 8 }) ∧
    VecTagsMatch (v1s23 .bits 1 2 3) (.vclmul { vecF .bits with x := 8 })
      (fun x t => if x.vec then t = vT { vecF .bits with x := 8 } else (indexTag t ∨ t = .bits)) := by decide +kernel
theorem meets_reductions_vred : (v12 .int32 1 2).Ready (.vred (vec1 .int32)) ∧
    VecTagsMatch (v12 .int32 1 2) (.vred (vec1 .int32)) (tagT (vec1 .int32)) ∧ NoFlagTraps (v12 .int32 1 2) := by decide +kernel
theorem meets_reductions_vscan : (v12 .int32 1 2).Ready (.vscan (vec1 .int32)) ∧
    VecTagsMatch (v12 .int32 1 2) (.vscan (vec1 .int32)) (tagT (vec1 .int32)) := by decide +kernel
theorem meets_reductions_float : (v12 .fp32 1 2).Ready (.vred (vec1 .fp32)) ∧
    VecTagsMatch (v12 .fp32 1 2) (.vred (vec1 .fp32)) (tagT (vec1 .fp32)) := by decide +kernel
theorem meets_vectorImmediates : (v12 .int32 1 2).Ready (.vretag { vec1 .int32 with t := .any }) ∧
    own.Ready (.vli { immF with a := .queue 8, imm := 0x3C00 }) ∧ (v12 .int32 1 2).Ready (.vaddi immF) ∧
    VecTagsMatch (v12 .int32 1 2) (.vaddi immF) (fun _ t => isIntTag t = true) := by decide +kernel

/-! Memory. -/

theorem meets_scalarLoads : (s12 0x40 0).Ready (.ld memF) ∧ (s12 0x40 0).active memF.g = true ∧
    AccPasses (s12 0x40 0) (plainAcc memF 0 (s12 0x40 0)) :=
  ⟨by decide, by decide, accPasses_of_accOk (by decide)⟩
theorem meets_scalarLoads_window : (s12 0x40 0).Ready (.ldp memF) ∧
    AccPasses (s12 0x40 0) (windowAcc memF 0 (s12 0x40 0)) := ⟨by decide, accPasses_of_accOk (by decide)⟩
/-- An access that fails each row of R178: misaligned, of another core, gated, unmapped, and without permission. -/
theorem meets_accessTraps :
    let s := own
    let a (va : Word) (n : Nat) : Acc1 := { lane := 0, va := va, n := n, kind := 0, aligned := true }
    let fails (a : Acc1) (row : Nat) : Option Nat := s.accFails s.cur.core s.cur.ctx s.myTask a row
    Handles s ∧ fails (a 0x41 2) 1 = some 0x22 ∧ fails (a 0xFE00000000100000 8) 2 = some 0x24 ∧ fails (a 0x7FFF8 8) 3 = some 0x25 ∧
      fails (a 0x90000 8) 4 = some 0x20 ∧ (∀ r ∈ [1, 2, 3], fails (a 0x90000 8) r = none) := by decide +kernel
theorem meets_scalarLoads_traps : (s12 0x90000 0).Ready (.ld memF) ∧ Handles (s12 0x90000 0) ∧
    Reports (s12 0x90000 0) [plainAcc memF 0 (s12 0x90000 0)] (plainAcc memF 0 (s12 0x90000 0)) 0x20 :=
  ⟨by decide, by decide, 4, by decide, [], [], rfl, by decide, by decide, by decide⟩
theorem meets_scalarLoads_off : own.Ready (.ld { memF with g := off }) ∧ own.active off = false := by decide
theorem meets_scalarStores : (s12 0x40 7).Ready (.st stF) ∧ (s12 0x40 7).active stF.g = true ∧
    AccPasses (s12 0x40 7) (plainAcc stF 1 (s12 0x40 7)) := ⟨by decide, by decide, accPasses_of_accOk (by decide)⟩
/-- Every stripe with power. -/
def powered (s : State) : State := s.updMyCore (fun x => { x with stripes := Vector.replicate _ { pw := .awake } })
/-- The last dword of the scratchpad. -/
theorem meets_scalarStores_top : (powered (s12 0x7FFF8 7)).Ready (.st stF) ∧
    AccPasses (powered (s12 0x7FFF8 7)) (plainAcc stF 1 (powered (s12 0x7FFF8 7))) :=
  ⟨by decide, accPasses_of_accOk (by decide)⟩
theorem meets_scalarStores_off : own.Ready (.st { stF with g := off }) ∧ own.active off = false := by decide
/-- An atomic of s2 at s1. -/
def atF : MemF := { memF with b := .near 2 }
theorem meets_atomics : (s12 0x40 7).Ready (.aadd atF) ∧ (s12 0x40 7).active atF.g = true ∧
    AccPasses (s12 0x40 7) (atomAcc atF (s12 0x40 7)) := ⟨by decide, by decide, accPasses_of_accOk (by decide)⟩
theorem meets_atomics_off : own.Ready (.aadd { atF with g := off }) ∧ own.active off = false := by decide
theorem meets_vectorLoads : (s12 0x40 0).Ready (.vld (vmF 8)) ∧ IndexOk (s12 0x40 0) (vmF 8) .contiguous ∧
    ∀ a ∈ elemAccs .contiguous 4 0 (elems (vmF 8) .contiguous .fp32 (s12 0x40 0)) (s12 0x40 0), AccPasses (s12 0x40 0) a :=
  ⟨by decide +kernel, by decide +kernel, fun _ h => accPasses_of_accOk (List.all_eq_true.mp (by decide +kernel :
    (elemAccs .contiguous 4 0 (elems (vmF 8) .contiguous .fp32 (s12 0x40 0)) (s12 0x40 0)).all (accOk (s12 0x40 0)) = true) _ h)⟩
theorem meets_vectorLoads_vldb : (s12 0x40 0).Ready (.vldb (vmF 8)) ∧
    (∃ j < 2048 / tagWidth (tagOf (memT (vmF 8))), (s12 0x40 0).me.guardBit (vmF 8).g j = true) ∧
    AccPasses (s12 0x40 0) { lane := 0, va := 0x40, n := 4, kind := 0 } :=
  ⟨by decide +kernel, by decide +kernel, accPasses_of_accOk (by decide)⟩
theorem meets_vectorLoads_off : own.Ready (.vldb { vmF 8 with g := off }) ∧
    ¬ ∃ j < 2048 / tagWidth (tagOf (memT (vmF 8))), own.me.guardBit off j = true := by decide +kernel
/-- s1 an address, v2 data. -/
def s1v2 (a : Word) (t : Tag) (b : VWord) : State := withCtx (fun c => setS 1 a (setV 2 b t c))
theorem meets_vectorStores : (s1v2 0x40 .fp32 5).Ready (.vst { vmF 8 with w := false, d := .near 0, b := .near 2 }) ∧
    ((s1v2 0x40 .fp32 5).rdV .fp32 (.near 2)).tag = .fp32 ∧
    ∀ a ∈ elemAccs .contiguous 4 1 (elems (vmF 8) .contiguous .fp32 (s1v2 0x40 .fp32 5)) (s1v2 0x40 .fp32 5),
      AccPasses (s1v2 0x40 .fp32 5) a :=
  ⟨by decide +kernel, by decide +kernel, fun _ h => accPasses_of_accOk (List.all_eq_true.mp (by decide +kernel :
    (elemAccs .contiguous 4 1 (elems (vmF 8) .contiguous .fp32 (s1v2 0x40 .fp32 5)) (s1v2 0x40 .fp32 5)).all
      (accOk (s1v2 0x40 .fp32 5)) = true) _ h)⟩
theorem meets_orderingOps : own.Ready (.mark { stF with a := .queue 0, b := .queue 0, sz := .byte }) ∧
    (s12 0x40 0).Ready (.cwb { stF with b := .queue 0, sz := .byte }) ∧
    AccPasses (s12 0x40 0) { lane := 0, va := 0x40, n := 1, kind := 3 } :=
  ⟨by decide, by decide, accPasses_of_accOk (by decide)⟩
theorem meets_orderingOps_off : own.Ready (.cinv { stF with b := .queue 0, sz := .byte, g := off }) ∧
    own.active off = false := by decide
theorem meets_storePerformed :
    let s := withCtx (fun c => { c with storeQ := [.store [(.spad 0x40, 1), (.spad 0x41, 2)]] })
    s.phys.mem.wf = true ∧ (s.core 0).spad.wf = true ∧
      (s.ctx 0 0).storeQ = .store ([(.spad 0x40, 1)] ++ (.spad 0x41, 2) :: []) :: [] ∧ (s.core 0).gated 0x41 = false := by
  decide

/-! Control. -/

/-- The context at offset 0x40, s1 set. -/
def at40 (a : Word) : State := (s12 a 0).updCtx 0 0 (fun c => { c with pc := 0x40 })
theorem meets_branches : (at40 0).Ready (.brz { brF with a := .near 1 }) ∧ legalTarget (direct brF (at40 0)) ∧
    (at40 0x80).Ready (.calli { brF with a := .near 1, disp := 0 }) ∧
    legalTarget (indirect { brF with a := .near 1, disp := 0 } (at40 0x80)) := by decide
theorem meets_branchTargetTraps : own.Ready (.br brF) ∧ Handles own ∧ own.active brF.g = true ∧
    ¬ legalTarget (direct brF own) := by decide
theorem meets_loops : (at40 5).Ready (.loop { brF with a := .near 1 }) ∧ legalTarget (direct brF (at40 5)) ∧
    (at40 5).active brF.g = true := by decide
theorem meets_loops_ends : (s12 1 0).Ready (.loop { brF with a := .near 1 }) ∧
    ¬ 0 < ((s12 1 0).val (.near 1) - 1).toInt + (max 0 1 : Nat) - 1 := by decide
theorem meets_endAndYield : own.Ready (.endOp { brF with disp := 0 }) ∧ own.me.tr.hm = false ∧
    (s12 9 0).Ready (.yield { brF with a := .near 1, disp := 0 }) ∧ (s12 9 0).me.tr.hm = false := by decide
theorem meets_waits : (s12 0x40 9).Ready (.waitev { sysF with a := .near 1, b := .near 2 }) ∧
    AccPasses (s12 0x40 9) (waitAcc { sysF with a := .near 1, b := .near 2 } (s12 0x40 9)) ∧
    waitWord { sysF with a := .near 1, b := .near 2 } (s12 0x40 9) ≠ (s12 0x40 9).val (.near 2) :=
  ⟨by decide, accPasses_of_accOk (by decide), by decide⟩
/-- A WAITEV whose bound has passed, its dword equal to B. -/
theorem meets_waits_bound :
    let s := (s12 0x40 0).updMe (fun c => { c with waits := { c.waits with held := true, waiting := true, since := 64 } })
    let f := { sysF with a := .near 1, b := .near 2, imm := 1 }
    s.Ready (.waitev f) ∧ waitWord f s = s.val (.near 2) ∧ 64 * f.imm.toNat ≤ waited s := by decide
theorem meets_waits_idle : own.Ready (.idle sysF) ∧ own.me.tr.hm = false ∧ own.active sysF.g = true ∧
    own.me.tr.wake = false ∧ own.me.waits.wakeNow = false ∧
    (withCtx (fun c => { c with tr := { c.tr with wake := true } })).Ready (.idle sysF) := by decide

/-! Control registers, traps, weirs. -/

theorem meets_csrReads : own.Ready (.csrr { sysF with csr := 0x230 }) ∧ (0x230 : Nat) ∈ csrNumbers := by decide
theorem meets_csrWrites : (s12 0x20 0).Ready (.csrw { sysF with a := .near 1, csr := 0x002 }) ∧ (2 : Nat) ∈ userCsrs ∧
    (inHandler (s12 0x20 0)).Ready (.csrc { sysF with a := .near 1, csr := 0x017 }) ∧ (0x17 : Nat) ∈ trapCsrs := by decide
/-- A lend asked for: region [4, 4 + 2), share 8. -/
theorem meets_lendWrites : (s12 0x80204 0).Ready (.csrw { sysF with a := .near 1, csr := 0x020 }) ∧
    (s12 0x80204 0).active sysF.g = true ∧ (s12 0x80204 0).cur.ctx % 4 = 0 ∧
    (s12 0x80204 0).myCore.lend.cfg.active = false := by decide
/-- A record: 3 children, no schedule, no handler; items 0 to 4. -/
def ownRecord : List Word := [0, 0x00000CFF00040000, 0, 5, 0, 0, 0, 0, 0, 0, 0, 0, 0, 0, 0, 0]
/-- A running task with that record and ring 0 of die 0. -/
def ownTask : Task :=
  { num := 1, image := 1, record := ownRecord, part := 0, prio := 0, seq := 1, device := false, st := .bound,
    rings := [{ die := 0, num := 0, base := 0, log := 4 }] }
/-- Its image: one overlay, one eddy of share 8. -/
def ownImage : Image :=
  { id := 1, mmrev := 1, weirf := 36, needs := 0, extent := 0, overlays := [⟨0, 0, [0]⟩], data := [], bss := [], tiles := [],
    launches := [], scheds := [], routes := [], regions := [], eddies := [⟨0, 8, 0⟩] }
/-- The owner bound to that task. -/
def bound (s : State) : State :=
  ((s.updFw (fun w => { w with tasks := [ownTask], images := [ownImage], parts := [{ num := 0, clusters := [0] }] })).updMe
    (fun c => { c with task := some 1 })).updMyCore (fun x => { x with slot := { x.slot with task := 1 } })
theorem meets_ringWrites :
    (bound (s12 0 0)).Ready (.csrw { sysF with a := .near 1, csr := 0x214 }) ∧ (bound (s12 0 0)).me.task = some 1 ∧
    (bound (s12 0 0)).ringNo 0x214 = some { die := 0, num := 0, base := 0, log := 4 } ∧
    Ring.used { die := 0, num := 0, base := 0, log := 4, head := 0 } ≤ 2 ^ 4 := by decide
theorem meets_csrPrivilege : (s12 8 0).Ready (.csrw { sysF with a := .near 1, csr := 0x001 }) ∧ Handles (s12 8 0) ∧
    (1 : Nat) ∈ roCsrs ∧ (0x17 : Nat) ∈ trapCsrs := by decide
theorem meets_softwareTraps : own.Ready (.brk sysF) ∧ Handles own ∧ own.myTask = none ∧
    own.myCore.displaced.any (fun d => d.off == own.me.pc.toNat) = false ∧ own.Ready (.brk { sysF with g := off }) ∧
    own.active off = false ∧ (s12 5 0).Ready (.trap { sysF with a := .near 1 }) := by decide
theorem meets_handlerReturn : (inHandler own).Ready (.eret sysF) ∧ (inHandler own).me.tr.hm = true ∧
    own.Ready (.eret sysF) ∧ Handles own := by decide
theorem meets_weirs : (s12 80 640).Ready (.weirset { sysF with a := .near 1, b := .near 2, imm := 3 }) ∧
    weiraTakes (s12 80 640) 80 ∧ weirwTakes (s12 80 640) 640 := by decide
theorem meets_weirs_refused : (s12 97 0).Ready (.weirsetBa { sysF with a := .near 1, imm := 1 }) ∧ ¬ weiraTakes (s12 97 0) 97 ∧
    Handles (s12 97 0) := by decide
theorem meets_weirs_off : own.Ready (.weirsetWa { sysF with a := .near 1, imm := 2, g := off }) ∧
    own.Ready (.weirq { sysF with imm := 2 }) := by decide
theorem meets_generator : (s12 9 0).Ready (.seed { sysF with a := .near 1 }) ∧ own.Ready (.rngpop sysF) := by decide

/-! Tiles, the matrix unit, copies. -/

theorem meets_tileWriters : own.Ready (.tzero { tileF with a := 4 }) ∧ Owner own ∧ own.me.tguardBit tileF.g 1 = true ∧
    SlotFree own 1 false := by decide
theorem meets_tileWriters_tokens : TokensReady own (tins tileF) .none ∧ TokensReady own (eins engF) (.k 6) := by decide
theorem meets_tileWriters_off : own.Ready (.tzero { tileF with a := 4, g := off }) ∧ own.me.tguardBit off 1 = false := by decide
theorem meets_tileWriters_mdrain : own.Ready (.mdrain { tileF with b := 8 }) ∧
    tagAt 8 ∈ drainTags (visible own 0) := by decide
theorem meets_tileTable : own.Ready (.ttag { tileF with a := 4 }) ∧ own.Ready (.tmask tileF) ∧ own.Ready (.tstate { tileF with d := 0 }) ∧
    own.Ready (.ttag { tileF with a := 4, g := off }) := by decide
theorem meets_matrixTable : (s12 0 0).Ready (.mcfg { tileF with d := 0, a := 0x21 }) ∧
    cfgPasses 0 ((s12 0 0).val (operandOf 0x21)) := by decide
theorem meets_matrixTable_refused : (s12 1 0).Ready (.mcfg { tileF with d := 0, a := 0x21 }) ∧
    ¬ cfgPasses 0 ((s12 1 0).val (operandOf 0x21)) ∧ Handles (s12 1 0) := by decide
theorem meets_matrixTable_others : own.Ready (.mswap { tileF with d := 0 }) ∧ own.Ready (.mread { tileF with d := 0, a := 0x21 }) ∧
    own.Ready (.mstop { tileF with d := 0 }) ∧ own.myCore.cmds = [] := by decide
/-- A shadow global word of one level and FP16 pairs, from the weight buffer. -/
def withGlob : State := withCore (fun x => { x with shadow := x.shadow.set 6 0x06648000#64 })
theorem meets_matrixCommands : withGlob.Ready (.mgo { tileF with d := 0 }) ∧ TokensReady withGlob (tins tileF) .none ∧
    SeqRoom withGlob ∧ (glob withGlob).extractLsb' 15 3 ≠ 0 := by decide
theorem meets_matrixCommands_mstep :
    withGlob.Ready (.mstep { tileF with d := 0, a := 1, b := 2 }) ∧ withGlob.me.tguardBit tileF.g 1 = true ∧
    tagsPass (glob withGlob) ∧ withGlob.Ready (.mstep { tileF with d := 0, a := 1, b := 2, g := off }) := by decide
theorem meets_matrixTable_stops :
    let s := withCore (fun x => { x with cmds := [{ id := 7, ctx := 0, tok := .none, deps := [], kind := .mstep 0 0 1 2, started := true, next := 3 }] })
    s.Ready (.mstop { tileF with d := 0 }) ∧ (s.myCore.cmds.filter (·.kind.isSeq)).map (·.next) = [3] := by decide
theorem meets_matrixCommands_refused : own.Ready (.mgo { tileF with d := 0 }) ∧ (glob own).extractLsb' 15 3 = 0 ∧ Handles own ∧
    (let s := withCore (fun x => { x with shadow := x.shadow.set 6 0x02648000#64 })
     s.Ready (.mstep { tileF with d := 0, a := 1, b := 2 }) ∧ ¬ tagsPass (glob s)) := by decide
/-- Slots 1 and 2 READY. -/
def readyTiles (s : State) : State :=
  s.updMyCore (fun x => (x.updTile 1 (fun e => { e with st := .ready })).updTile 2 (fun e => { e with st := .ready }))
theorem meets_matrixCommands_slots : SlotFree (readyTiles withGlob) 1 true ∧ SlotFree (readyTiles withGlob) 2 true := by decide
theorem meets_copyCommands : (s123 0x100 0x200 0).Ready (.cpy engF) ∧ bytesOf false ((s123 0x100 0x200 0).val engF.c) = 0 ∧
    (s123 0x100 0x200 8).Ready (.cpy engF) ∧ bytesOf false ((s123 0x100 0x200 8).val engF.c) ≠ 0 ∧
    CopyRoom (s123 0x100 0x200 8) := by decide
theorem meets_copyCommands_tile : (s123 0x1000 0x3000 0x1000).Ready (.cpy { engF with mode := 61 }) ∧
    WholeSlots { engF with mode := 61 } false (s123 0x1000 0x3000 0x1000) 0x1000 ∧
    ∀ k ∈ runSlots 0x1000 (bytesOf false ((s123 0x1000 0x3000 0x1000).val engF.c)),
      SlotFree (s123 0x1000 0x3000 0x1000) k false := by decide
theorem meets_copyCommands_misaligned : (s123 0x1008 0x3000 0x1000).Ready (.cpy { engF with mode := 61 }) ∧
    (∀ o, ¬ WholeSlots { engF with mode := 61 } false (s123 0x1008 0x3000 0x1000) o) ∧ Handles (s123 0x1008 0x3000 0x1000) := by
  refine ⟨by decide, fun o h => ?_, by decide⟩
  have e : (s123 0x1008 0x3000 0x1000).ownOff 0 0x1008 = some 0x1008 := by decide
  have h1 : some 0x1008 = some o := e.symm.trans h.1
  have h2 := h.2.1
  cases h1
  exact absurd h2 (by decide)
theorem meets_copyCommands_ovl : (s12 3 0).Ready (.ovl { engF with b := .queue 0, c := .queue 0 }) ∧ CopyRoom (s12 3 0) := by decide
/-- A replayed copy of s3 bytes from s2 to s1, in the first stage. -/
def inStage (s : State) : State :=
  (s.updMyCore (fun x => { x with sched := [⟨encodeWord (.cpy engF), 0⟩] })).updMe (fun c => { c with t := 1, sc := 0, armed := true })
theorem meets_copySchedule : (s123 1 2 3).Ready (.csched engF) ∧
    own.Ready (.cstage { engF with a := .queue 0, b := .queue 0, c := .queue 0 }) ∧ staged own = [] := by decide
theorem meets_copySchedule_staged :
    let s := inStage (s123 0x100 0x200 8)
    s.Ready (.cstage { engF with a := .queue 0, b := .queue 0, c := .queue 0 }) ∧
    staged s = [(0, ⟨encodeWord (.cpy engF), 0⟩)] ∧ CopyRoom s ∧ decodeWord (encodeWord (.cpy engF)) none = .cpy engF ∧
    s.val engF.c ≠ 0 ∧ ∀ x ∈ srcs (.cpy engF), s.me.srcFail x = none := by decide

/-- Two replayed copies in the first stage, a CPY and a CPY2D, each with tokens; k7's command has not ended. -/
def inStages (s : State) : State :=
  let word (two : Bool) (o : Fin 63) (i : Fin 63) : Word := encodeWord (entryOp (two, { engF with out := .k o, i1 := .k i }))
  let toks (v : Vector Token 63) : Vector Token 63 :=
    (v.set 7 { live := true, done := false, cmd := 77 }).set 5 { live := true, done := true, cmd := 3 }
  (s.updMyCore (fun x => { x with sched := [⟨word false 4 5, 0⟩, ⟨word true 6 4, 0⟩] })).updMe
    (fun c => { c with t := 1, sc := 0, armed := true, tok := toks c.tok })
theorem meets_copySchedule_several :
    let s := inStages (s123 0x1000 0x4000 0x10)
    let f : EngF := { engF with a := .queue 0, b := .queue 0, c := .queue 0, out := .k 9, i1 := .k 7 }
    s.Ready (.cstage f) ∧ Owner s ∧ TokensReady s (eins f) f.out ∧
      (staged s).map (fun p => (p.1, decodeWord p.2.word none)) =
        [(0, entryOp (false, { engF with out := .k 4, i1 := .k 5 })), (1, entryOp (true, { engF with out := .k 6, i1 := .k 4 }))] ∧
      s.judge (s.lay (semStaged f) (s.single (.cstage f))) none = .issue := by decide +kernel

/-! Remote access, barriers, tokens. -/

theorem meets_blockTransfers : (s123 0x100 0x200 0).Ready (.dcpy engF) ∧ (s123 0x100 0x200 8).Ready (.dcpy engF) ∧
    dcpyCount (s123 0x100 0x200 8) (dcpyEngine (s123 0x100 0x200 8) 0 none 0 0x100) < 64 := by decide
theorem meets_blockTransfers_ring : (bound (s123 0x100 0x200 8)).Ready (.dcpy { engF with mode := 4 }) ∧
    (bound (s123 0x100 0x200 8)).me.task = some 1 ∧
    ringOf (bound (s123 0x100 0x200 8)).myTask (dieOf 0) 0 = some { die := 0, num := 0, base := 0, log := 4 } := by decide
theorem meets_blockTransfers_noRing : (s123 0x100 0x200 8).Ready (.dcpy { engF with mode := 4 }) ∧ Handles (s123 0x100 0x200 8) ∧
    ringOf (s123 0x100 0x200 8).myTask (dieOf 0) 0 = none := by decide
theorem meets_remoteCommands : (s123 0x100 0x200 8).Ready (.rget engF none) ∧ NiRoom (s123 0x100 0x200 8) ∧
    NiBudget (s123 0x100 0x200 8) 1 ∧ LocalRange (s123 0x100 0x200 8) 0x100 8 ∧ RemoteRange (s123 0x100 0x200 8) 0x200 8 ∧
    (s123 0x100 0x200 0).Ready (.rput engF none) :=
  ⟨by decide, by decide, by decide, by decide, ⟨⟨0, 0, 0x200⟩, by decide, by decide⟩, by decide⟩
theorem meets_remoteCommands_gather :
    let s := withCtx (fun c => setV 2 0 .int32 (setS 3 0 (setS 1 0x100 c)))
    s.Ready (.rgath engF none) ∧ NiRoom s ∧ NiBudget s (engF.mode.toNat + 1) ∧ (s.rdV .int32 engF.b).tag = .int32 ∧
      LocalRange s 0x100 ((engF.mode.toNat + 1) * 2 ^ ((s.val engF.c).extractLsb' 19 4).toNat) := by decide
theorem meets_remoteCommands_barrier : (s12 0x200 4).Ready (.binit { engF with c := .queue 0 } none) ∧ ObjectAt (s12 0x200 4) 0x200 ∧
    (s12 0x200 4).Ready (.barr { engF with b := .queue 0, c := .queue 0, mode := 1 } none) :=
  ⟨by decide, ⟨by decide, ⟨⟨0, 0, 0x200⟩, by decide, by decide, by decide⟩⟩, by decide⟩
theorem meets_multicast : (s123 0x100 7 3).Ready (.mcst { engF with mode := 3 } none) ∧ NiRoom (s123 0x100 7 3) ∧
    NiBudget (s123 0x100 7 3) 1 ∧ mcstLen { engF with mode := 3 } = 8 ∧ LocalRange (s123 0x100 7 3) 0x100 8 ∧ (s123 0x100 7 0).Ready (.mcst { engF with mode := 3 } none) := by decide
/-- A barrier object of four at 0x200, in phase 0. -/
def withObject (s : State) : State := s.updMyCore (fun x => { x with spad := [(0x200, 4#8), (0x204, 0x20#8)] })
theorem meets_barrierWaits : (withObject (bound (s123 0x200 1 0))).Ready (.bwait engF none) ∧
    (withObject (bound (s123 0x200 1 0))).me.waits.asleep = none ∧
    ObjectAt (withObject (bound (s123 0x200 1 0))) 0x200 ∧ ObjectFree (withObject (bound (s123 0x200 1 0))) 0x200 ∧
    bwaitSays ((withObject (bound (s123 0x200 1 0))).readObj 0x200) 1 0 0 = some 0 :=
  ⟨by decide, by decide, ⟨by decide, ⟨⟨0, 0, 0x200⟩, by decide, by decide, by decide⟩⟩, fun _ _ _ _ => rfl, by decide +kernel⟩
theorem meets_barrierWaits_sleeps : (withObject (bound (s123 0x200 0 9))).Ready (.bwait engF none) ∧
    bwaitSays ((withObject (bound (s123 0x200 0 9))).readObj 0x200) 0 0 9 = none := by decide +kernel
theorem meets_barrierWaits_bread : (withObject (bound (s12 0x200 0))).Ready (.bread { engF with b := .queue 0, c := .queue 0 } none) ∧
    ObjectAt (withObject (bound (s12 0x200 0))) 0x200 ∧ ObjectFree (withObject (bound (s12 0x200 0))) 0x200 :=
  ⟨by decide, ⟨by decide, ⟨⟨0, 0, 0x200⟩, by decide, by decide, by decide⟩⟩, fun _ _ _ _ => rfl⟩
/-- An ENGINE op on a token alone. -/
def tokF : EngF := { engF with a := .queue 0, b := .queue 0, c := .queue 0, i1 := .k 5 }
/-- Token 5 LIVE, its command DONE or not. -/
def withTok (done : Bool) : State := withCtx (fun c => { c with tok := c.tok.set 5 { live := true, done := done, cmd := 9 } })
theorem meets_tokenOps : (withTok true).Ready (.tkwait tokF) ∧
    ∀ k ∈ inToks (eins tokF), ((withTok true).me.tok.get k).done = true := by decide
theorem meets_tokenOps_pending : (withTok false).Ready (.tktest tokF) ∧ (withTok false).Ready (.tkjoin { tokF with out := .k 6 }) := by
  decide
theorem meets_tokenOps_done : TokensReady (withTok true) (eins tokF) .none := by decide
theorem meets_tokenOps_tokens : TokensReady (withTok false) (eins tokF) (.k 6) := by decide

/-! Lends and launches. -/

/-- A lend in force: slots 4 and 5, share 16. -/
def lent (s : State) : State :=
  s.updMyCore (fun x => { x with lend := { x.lend with cfg := { active := true, start := 4, count := 2, share := 16 } } })
/-- Room for a share of 16 beside the owner's. -/
def roomy (s : State) : State := s.updMe (fun c => { c with csr := { c.csr with weirc := 96, weira := 80, weirw := 640 } })
theorem meets_lends : (roomy (s12 0x100204 0)).Ready (.lend { sysF with a := .near 1 }) ∧
    lendAccepts (roomy (s12 0x100204 0)) 0x100204 ∧ (roomy (s12 0x100204 0)).myCore.lend.rev = [] := by decide
/-- The stripes of a core gated or awake. -/
def striped (pw : Power) (s : State) : State :=
  s.updMyCore (fun x => { x with stripes := Vector.replicate 32 { pw := pw } })
theorem meets_lends_dark :
    let s := striped .gated (roomy (s12 0x100204 0))
    s.Ready (.lend { sysF with a := .near 1 }) ∧ lendAccepts s 0x100204 ∧ Dark s.myCore 4 2 ∧ s.me.waits.lendOn = none ∧
      ¬ Dark (striped .awake s).myCore 4 2 ∧ (striped .awake s).Ready (.lend { sysF with a := .near 1 }) := by decide
theorem meets_lends_refused : (s12 0 0).Ready (.lend { sysF with a := .near 1 }) ∧ ¬ lendAccepts (s12 0 0) 0 ∧
    Handles (s12 0 0) ∧ own.Ready (.lend { sysF with a := .near 1, g := off }) := by decide
theorem meets_lends_revoke : (lent own).Ready (.revoke sysF) ∧ (lent own).myCore.lend.cfg.active = true := by decide
theorem meets_eddies : (lent (bound (s12 0 9))).Ready (.eddy { sysF with a := .near 1, b := .near 2 }) ∧
    (lent (bound (s12 0 9))).myTask = some ownTask ∧ (lent (bound (s12 0 9))).image 1 = some ownImage ∧
    ownImage.eddies[(0 : Nat)]? = some ⟨0, 8, 0⟩ ∧ bankGranted (lent (bound (s12 0 9))) 8 = some 1 := by decide
theorem meets_eddies_res : (lent (s12 1 0)).Ready (.eddyRes { sysF with a := .near 1, imm := 1 }) ∧
    own.Ready (.eddyRes { sysF with a := .near 1, imm := 1, g := off }) := by decide
/-- Bank 2 runs. -/
def bank2 (s : State) : State := s.updMyCore (fun x => x.updBank 2 (fun b => { b with st := .run, origin := false }))
theorem meets_eddies_park : (bank2 (s12 2 0)).Ready (.park { sysF with a := .near 1 }) ∧
    ((bank2 (s12 2 0)).myCore.bank 2).st = .run ∧ ((bank2 (s12 2 0)).myCore.bank 2).origin = false := by decide
/-- The record at 0x40, and a descriptor of one node of it at 0x100. -/
def withRecord (s : State) : State :=
  s.updMyCore (fun x => { x with spad := [(0x4A, 0x04#8), (0x4C, 0xFF#8), (0x4D, 0x0C#8), (0x108, 0x40#8)] })
theorem meets_launches :
    let s := withRecord (bound (s12 0x40 0))
    s.Ready (.launch { sysF with a := .near 1 }) ∧ Owner s ∧ recordReason s.drainMe 0x40 = none ∧
      launchReadWaits s.drainMe 0x40 128 = false ∧ launchesLeft s ownTask := by decide +kernel
theorem meets_launches_graph :
    let s := withRecord (bound (s12 0x100 0))
    s.Ready (.launchG { sysF with a := .near 1, b := .near 2, imm := 2 }) ∧ Owner s ∧ graphReason s.drainMe 0x100 = none ∧
      graphWaits s.drainMe 0x100 = false ∧ launchesLeft s ownTask := by decide +kernel
theorem meets_launches_invalid :
    let s := bound (s12 0x48 0)
    s.Ready (.launch { sysF with a := .near 1 }) ∧ Owner s ∧ Handles s ∧ s.myTask = some ownTask ∧
      launchReadWaits s.drainMe 0x48 128 = false ∧ recordReason s.drainMe 0x48 = some 1 := by decide +kernel
/-- Three launches made. -/
def spent (s : State) : State := s.updFw (fun w => { w with tasks := [{ ownTask with used := 3 }] })
theorem meets_launches_bound :
    let s := spent (withRecord (bound (s12 0x40 0)))
    s.Ready (.launchNb { sysF with a := .near 1, imm := 1 }) ∧ Owner s ∧ launchReadWaits s.drainMe 0x40 128 = false ∧
      recordReason s.drainMe 0x40 = none ∧ s.myTask = some { ownTask with used := 3 } ∧
      recChildren ownTask.record ≤ 3 := by decide +kernel
theorem meets_nextTiles : (bound own).Ready (.ntreq sysF) ∧ (bound own).me.task = some 1 ∧ (bound own).task 1 = some ownTask ∧
    (bound own).me.nx.length < 4 ∧ ((bound own).updMe (fun c => { c with nx := [⟨0, 0⟩] })).Ready (.ntreqPop { sysF with imm := 1 }) := by
  decide

/-! Pair words and traps at issue. -/

/-- s1, s2, v1 and v2 set. -/
def s12v12 : State := withCtx (fun c => setV 2 5 .int32 (setV 1 6 .int32 (setS 2 3 (setS 1 4 c))))
theorem meets_pairWords : pairScalar pairF = some (.add (pairScalarF pairF)) ∧ pairVector pairF = some (.vadd (pairVectorF pairF)) ∧
    PairReady s12v12 pairF (.add (pairScalarF pairF)) (.vadd (pairVectorF pairF)) ∧
    VecTagsMatch s12v12 (.vadd (pairVectorF pairF)) (tagT (pairVectorF pairF)) := by decide +kernel
/-- A quotient beside a floating-point sum, on FP32 vectors, where no flag traps. -/
def floatF : PairF := { pairF with sop := 4, vop := 32, vt := 0 }
theorem meets_pairWords_float :
    let s := withCtx (fun c => setV 2 5 .fp32 (setV 1 6 .fp32 (setS 2 0 (setS 1 4 c))))
    pairScalar floatF = some (.div (pairScalarF floatF)) ∧ pairVector floatF = some (.vfadd (pairVectorF floatF)) ∧
    PairReady s floatF (.div (pairScalarF floatF)) (.vfadd (pairVectorF floatF)) ∧
    VecTagsMatch s (.vfadd (pairVectorF floatF)) (halfTag (pairVectorF floatF) (.vfadd (pairVectorF floatF))) ∧
    NoFlagTraps s := by decide +kernel
/-- Both flags are left: IDZ of the quotient by zero, in the same bundle as a sum without a flag. -/
theorem test_pairWords_flags :
    let s := withCtx (fun c => setV 2 0 .fp32 (setV 1 0 .fp32 (setS 2 0 (setS 1 4 c))))
    (match exec (.pair floatF) s with | .next t => t.me.csr.fpstat == 0x40#7 | _ => false) = true := by decide +kernel
theorem meets_illegalWords_asleep : (own.updMe (fun c => { c with waits := { c.waits with sleptAt := some 0x200 } })).me.tr.noh = false ∧
    own.me.tr.hm = false := by decide
theorem meets_illegalWords : isRoute 0x91C0000000000000#64 = false ∧ Handles own ∧ own.myCore.issueBuf = none ∧
    (inHandler own).me.tr.hm = true := by decide
/-- The first source field is undefined: A names the newest queue entry and nothing has been pushed. -/
theorem meets_operandTraps :
    opsOf 0 (.add { regF with a := .queue 0 }) = [.add { regF with a := .queue 0 }] ∧ WellFormed (.add { regF with a := .queue 0 }) ∧
    own.row2Ctx (.add { regF with a := .queue 0 }) = false ∧ CanTrap own ∧
    ((row6Order (srcs (.add { regF with a := .queue 0 }))).find? (fun x => own.me.srcFail x != none)).isSome = true := by decide
theorem meets_operandTraps_tag : (s12 1 2).Ready (.add { regF with t := .tag .int32 }) ∧ Handles (s12 1 2) ∧
    ((srcs (.add { regF with t := .tag .int32 })).find? (fun x => !isSpecial x.o && ((s12 1 2).rdS .int64 x.o).tag != .int32)).isSome =
      true := by decide
theorem meets_allowanceTraps :
    let s := (s12 1 2).updMe (fun c => { c with csr := { c.csr with weira := 0 } })
    CanTrap s ∧ s.me.csr.weira < weightOf (.add regF) + (s.me.standing.map (·.wt)).sum := by decide
theorem meets_allowanceTraps_window :
    let s := (s12 1 2).updMe (fun c => { c with csr := { c.csr with weirw := 10 }, window := [10] })
    CanTrap s ∧ weightOf (.add regF) ≤ s.me.csr.weirw ∧ s.me.csr.weirw < weightOf (.add regF) + (s.me.window.take 7).sum := by
  decide

/-! Boundaries of a context. -/

/-- The owner on a word of two SEED ops that fits no trap, its bundle held. -/
def heldOn (w : Word) (s : State) : State :=
  (s.updMyCore (fun x => { x with ispad := x.ispad.writeWord 0 w })).updMe (fun c => { c with waits := { c.waits with held := true } })
theorem meets_heldBundles :
    let s := heldOn (encodeWord (.waitev { sysF with a := .near 1, b := .near 2, imm := 1 })) (s12 0x40 9)
    Acts s ∧ s.me.waits.held = true ∧ s.dueA = none ∧ s.fetchStalls = false ∧
      (match s.judge (s.lay semOf s.fetched) s.fetched.long with | .stall _ => false | _ => true) = true ∧
      s.fetched.items.map (·.i) = [.waitev { sysF with a := .near 1, b := .near 2, imm := 1 }] ∧
      waitWord { sysF with a := .near 1, b := .near 2, imm := 1 } s ≠ s.val (.near 2) := by decide +kernel
theorem meets_heldBundles_bwait :
    let s := (heldOn (encodeWord (.bwait engF none)) (withObject (bound (s123 0x200 1 0)))).updMe
      (fun c => { c with waits := { c.waits with wakeNow := true, asleep := some 0x200 } })
    Acts s ∧ s.dueA = none ∧ s.me.waits.wakeNow = true ∧ s.fetched.items.map (·.i) = [.bwait engF none] := by decide +kernel
/-- A fault pending in the owner, and a notice. -/
def faulted : State := withCtx (fun c => { c with pend := [{ soft := false, record := ⟨0x26, 1, 2⟩ }] })
theorem meets_kindAEvents : Acts faulted ∧ faulted.me.tr.hm = false ∧ faulted.me.notice = none ∧ faulted.me.tr.noh = false ∧
    (∀ q ∈ faulted.me.pend, q.soft = false) ∧ Acts (faulted.updMe (fun c => { c with notice := some (1, 2) })) := by decide
/-- A software trap pending behind a fault, in the turn of its context. -/
theorem meets_kindAEvents_soft :
    let s := { faulted with agenda := [.ctx 0 0] }
    let s := s.updMe (fun c => { c with pend := c.pend ++ [{ soft := true, record := ⟨0x51, 0, 4⟩ }] })
    let u : State := { s with agenda := [], cur := { s.cur with core := 0, ctx := 0 } }
    u.counts = true ∧ Acts u ∧ u.me.tr.hm = false ∧ u.me.pend.find? (·.soft) = some { soft := true, record := ⟨0x51, 0, 4⟩ } := by
  decide
theorem meets_contextWakes :
    (withCtx (fun c => { c with waits := { c.waits with yield := 1 } })).me.waits.yield = 1 ∧ own.me.run ≠ .unbound ∧
    (∃ e ∈ (withCtx (fun c => { c with nx := [⟨0, 1⟩] })).me.nx, e.due = 1) := by decide

/-! Commands of the engines. -/

/-- A command of the owner. -/
def cmdOf (k : CmdKind) (started : Bool := false) : Cmd := { id := 7, ctx := 0, tok := .none, deps := [], kind := k, started := started }
/-- The package with that command alone, the next event being its. -/
def queued (c : Cmd) (s : State := own) : State :=
  { (s.updMyCore (fun x => { x with cmds := [c] })) with cur := { s.cur with id := 7 } }
theorem meets_fillersStart : TheCmd (queued (cmdOf (.tzero 1 none))) (cmdOf (.tzero 1 none)) ∧
    (cmdOf (.tzero 1 none)).kind.isTile = true ∧ (cmdOf (.tzero 1 none)).kind.fillSlot = some 1 ∧
    MayStart (cmdOf (.tzero 1 none)) ∧ (cmdOf (.tzero 1 none)).inFault = none ∧
    (queued (cmdOf (.tzero 1 none))).myCore.ownerBlocked 4096 = false ∧ readsSlot (.tzero 1 none) = none ∧
    Oldest (queued (cmdOf (.mdrain 0 .fp32 0 1))) CmdKind.isDrain (cmdOf (.mdrain 0 .fp32 0 1)) := by decide
theorem meets_fillersStart_rows :
    let c := cmdOf (.tfill 127 .fp32 5) true
    TheCmd (queued c) c ∧ c.next < 32 ∧ (queued c).myCore.ownerBlocked (4096 * 127) = false ∧
      (queued c).myCore.spad.wf = true := by decide
theorem meets_fillersStart_lost :
    let c : Cmd := { cmdOf (.tfill 1 .fp32 5) true with lost := [1] }
    TheCmd (queued c) c ∧ c.next < 32 ∧ (queued c).myCore.ownerBlocked 4096 = false ∧ (queued c).myCore.gated 4096 = false := by
  decide
/-- A filler that has written its rows. -/
def filled : Cmd := { cmdOf (.tfill 127 .fp32 5) true with next := 32 }
theorem meets_fillersEnd : TheCmd (queued filled) filled ∧ 32 ≤ filled.next ∧
    Oldest (queued (cmdOf (.mdrain 0 .fp32 0 1) true)) CmdKind.isDrain (cmdOf (.mdrain 0 .fp32 0 1) true) ∧
    Tag.fp32 ∈ drainTags (visible own 0) ∧ (visible own 0).mem.wf = true := by decide
theorem meets_sequencerCommands : Oldest (queued (cmdOf (.mwload 0 0 1))) CmdKind.isSeq (cmdOf (.mwload 0 0 1)) ∧
    MayStart (cmdOf (.mwload 0 0 1)) ∧ (∀ i < 1, own.myCore.ownerBlocked (0 + 256 * i) = false) ∧ own.myCore.abandon = false ∧
    mwloadBad own 0 0 1 = none ∧ mwloadBad own 0 0 0 = some 5 ∧
    Oldest (queued (cmdOf (.mzero 0 true) true)) CmdKind.isSeq (cmdOf (.mzero 0 true) true) := by decide
theorem meets_matrixSteps :
    let c := cmdOf (.mstep 0 0x06608000#64 1 2) true
    let s := queued c (readyTiles own)
    Oldest s CmdKind.isSeq c ∧ ∃ p, stepCmd c = some p ∧ stepWaits s.myCore p = false := by
  refine ⟨by decide, _, rfl, by decide⟩
theorem meets_copyStarts : CopyNext (queued (cmdOf (.cpy false 0x100 0x200 8 0 none))) (cmdOf (.cpy false 0x100 0x200 8 0 none)) ∧
    CopyNext (queued (cmdOf (.ovl 0)) (bound own)) (cmdOf (.ovl 0)) := by decide
/-- The core's record names the image of the task. -/
def imaged (s : State) : State := (bound s).updMyCore (fun x => { x with slot := { x.slot with img := 1 } })
theorem meets_copyStarts_ovl : (queued (cmdOf (.ovl 0) true) (imaged own)).ovlFor 0 0 = some ⟨0, 0, [0]⟩ ∧
    0 < copyMay (queued (cmdOf (.ovl 0) true) (imaged own)) 1 ∧
    (queued (cmdOf (.ovl 0) true) (imaged own)).imageOfCore 0 = some ownImage := by decide
theorem meets_copyChunks :
    let c := cmdOf (.cpy false 0x100 0x200 8 0 none) true
    let s := queued c
    TheCmd s c ∧ s.chunkDue c = true ∧ 0 < copyMay s 1 ∧
      (let x := s.chunkSides (s.portOf c) (chunkRest c)
       s.chunkReason (s.portOf c) (chunkRest c) x = none ∧ ∀ p ∈ s.chunkPoison x, p = false) ∧
      ({ c with next := 1 } : Cmd).chunks ≤ 1 := by decide +kernel
theorem meets_dieTransfers :
    let c := cmdOf (.dcpy 0x100 0x200 8 0 none)
    let s := queued c
    TheCmd s c ∧ MayStart c ∧ c.fault = none ∧ dcpyFirst s.myCore c = true ∧
      dcpyRunning s c.eng < 4 ∧ s.chunkDue { c with started := true } = true ∧
      0 < s.dieRoom (dcpyDie c) none 1 ∧ c.chunks = 1 := by decide +kernel
theorem meets_dieTransfers_ring :
    let c := cmdOf (.dcpy 0x100 0x200 8 0 (some 0))
    let s := queued { c with ended := true } (bound own)
    s.taskOf 0 0 = some ownTask ∧ ringOf (some ownTask) 0 0 = some { die := 0, num := 0, base := 0, log := 4 } ∧
      (∀ y ∈ (piecesOf 0 32).map (fun y => (s.side ⟨0, some ownTask, true, []⟩ true y, y.2)), y.1 ≠ .wait) := by decide +kernel

/-! The network. -/

theorem meets_remoteRequests : NiStarts (queued (cmdOf (.rget 0x100 0x200 8 none))) (cmdOf (.rget 0x100 0x200 8 none)) ∧
    ¬ Away (queued (cmdOf (.rget 0x100 0x200 8 none))) (cmdOf (.rget 0x100 0x200 8 none)) := by decide
/-- A started read of eight bytes with its one request. -/
def asked (landed : Bool) : Cmd :=
  { cmdOf (.rget 0x100 0x200 8 none) true with reqs := [{ idx := 0, arrived := landed, data := if landed then List.replicate 8 7 else [] }] }
theorem meets_remoteRequests_arrival : Arrives (queued (asked false)) (asked false) { idx := 0 } ⟨0, 0, 0x200⟩ ∧
    turnedAway (queued (asked false)) (asked false) ⟨0, 0, 0x200⟩ 8 = 2 ∧
    turnedAway (queued (asked false) (bound own)) (asked false) ⟨0, 0, 0x200⟩ 8 = 0 := by decide +kernel
/-- A request of package 5 for eight bytes of core 0, of the task that is bound there. -/
def peer (op : FarOp) : FarReq := { pkg := 5, core := 9, ctx := 0, seq := 1, ord := false, task := 1, target := 0, off := 0x200, op := op }
theorem meets_peerRequests : own.fromPeer (peer (.read 8)) = true ∧ own.fromPeer (peer (.write [1, 2] false)) = true ∧
    own.refusal (some 1) ⟨own.boot.pkg, 0, 0x200⟩ 8 ≠ 0 ∧
    (bound own).refusal (some 1) ⟨own.boot.pkg, 0, 0x200⟩ 8 = 0 ∧ own.myCore.spadBad 0x200 8 = false := by decide +kernel
theorem meets_peerRequests_late :
    let s := { own with fab := { own.fab with ordered := [{ peer (.write [1] false) with seq := 2, ord := true }] } }
    s.fromPeer (peer (.write [1] false)) = true ∧
      ∃ o ∈ s.fab.ordered, o.pkg = 5 ∧ o.core = 9 ∧ o.ctx = 0 ∧ o.target = 0 ∧ 1 < o.seq := by decide
theorem meets_remoteReplies : TheCmd (queued (asked true)) (asked true) ∧
    (asked true).reqs.find? (fun q => q.idx == 0) = some { idx := 0, arrived := true, data := List.replicate 8 7 } ∧
    (asked true).mayLand { idx := 0, arrived := true, data := List.replicate 8 7 } = true := by decide
theorem meets_remoteReplies_mcst :
    let c := cmdOf (.mcst 0x100 [1, 2] 3) true
    TheCmd (queued c) c ∧ c.due ≤ (queued c).eff 0 ∧ c.inFault = none := by decide
theorem meets_barrierObjects :
    let c := cmdOf (.barr 0x200 1) true
    let s := queued c (withObject (bound own))
    AtObject s c ⟨0, 0, 0x200⟩ ∧ (s.core 0).spadBad 0x200 16 = false ∧ (objectAt s ⟨0, 0, 0x200⟩).getLsbD 37 = true ∧
      objExpect (objectAt s ⟨0, 0, 0x200⟩) = 4 ∧ objCount (objectAt s ⟨0, 0, 0x200⟩) = 0 := by decide +kernel
theorem meets_fabricEvents :
    let c : Cmd := { cmdOf (.rget 0x100 0x200 8 none) true with reqs := [{ idx := 0, link := some 2 }] }
    let s := { queued c with master := 8000000 }
    TheCmd s c ∧ c.reqs.find? (fun q => q.idx == 0) = some { idx := 0, link := some 2 } ∧ 0 + 8000000 ≤ s.master ∧
      (s.cluster 7).routerRetired = false ∧ ({ s with fab := { s.fab with cxlUp := [7] } } : State).fab.cxlUp = [7] := by decide

/-! Lends and eddies over time. -/

/-- A revocation of slots 4 and 5, begun 24 cycles ago, and an effective cycle of 24. -/
def revoking (r : Revoke) (s : State := own) : State :=
  (s.updMyCore (fun x => { x with lend := { x.lend with rev := [r] } })).updCluster 0 (fun k => { k with eff := 24, gated := false })
/-- The revocation. -/
def rev0 : Revoke := { at0 := 0, banks := [2], region := true, keep := false, start := 4, count := 2 }
theorem meets_revocations : FirstRev (revoking rev0) (fun q => q.squashed = false ∧ q.at0 + 16 ≤ (revoking rev0).eff 0) [] rev0 [] ∧
    FirstRev (revoking { rev0 with squashed := true })
      (fun q => q.squashed = true ∧ q.parked = false ∧ q.at0 + 21 ≤ (revoking { rev0 with squashed := true }).eff 0) []
      { rev0 with squashed := true } [] := by decide
theorem meets_revocations_reclaim :
    FirstRev (revoking { rev0 with parked := true })
      (fun q => q.parked = true ∧ q.region = true ∧ q.at0 + 24 ≤ (revoking { rev0 with parked := true }).eff 0) []
      { rev0 with parked := true } [] ∧ (revoking { rev0 with parked := true }).myCore.lend.cfg.busy = false ∧
    (lent own).myCore.lend.cfg.active = true := by decide
theorem meets_lendCompletes :
    let s := (lent own).updMyCore (fun x => { x with lend := { x.lend with filling := true } })
    s.myCore.lend.filling = true ∧ s.myCore.spad.wf = true ∧ s.myCore.lend.cfg.start + s.myCore.lend.cfg.count ≤ 128 ∧
      s.myCore.lend.kept = none := by decide
/-- Bank 2 in a state, its context the running one. -/
def inBank (st : BankSt) (origin : Bool) : State :=
  let s := withCore (fun x => x.updBank 2 (fun b => { b with st := st, origin := origin }))
  { s with cur := { s.cur with ctx := 2 } }
theorem meets_eddyEnds : Eddying (inBank .ending false) ∧ ((inBank .ending false).myCore.bank 2).st = .ending ∧
    (inBank .ending false).me.storeQ = [] ∧ (inBank .ending false).myCore.cmds = [] ∧
    (inBank .parked true).myCore.fwEddy 2 = true ∧ (inBank .saving true).myCore.fwEddy 2 = true ∧
    (let s := bound (inBank .saving true)
     Eddying s ∧ s.myCore.cmds = [] ∧ s.me.task = some 1 ∧ s.task 1 = some ownTask ∧ s.image ownTask.image = some ownImage) := by
  decide
/-- A pending task 2 of the image. -/
def pendTask : Task := { ownTask with num := 2, st := .pending, rings := [], seq := 2 }
/-- READY, with that task in its queue and core 0 free. -/
def ready (s : State) : State :=
  { (s.updFw (fun w => { w with tasks := w.tasks ++ [pendTask], images := [ownImage], parts := [{ num := 0, clusters := [0] }] })) with
    boot := { s.boot with phase := .ready } }
theorem meets_eddyEnds_bind :
    let s := ready (lent own)
    let b : EddyBindInfo :=
      { core := 0, bank := 2, task := 2, share := 16, priv := 0, ranges := [⟨3, 0xF000, 0⟩], root := none, restore := false }
    s.task 2 = some pendTask ∧ s.tenantCode pendTask = some (ownImage, ⟨0, 0, [0]⟩) ∧
      s.mayLodge b pendTask { ownImage with weirf := 8 } ⟨0, 0, [0]⟩ = true ∧
      (let s := s.updCluster 0 (fun k => { k with gated := true })
       s.mayLodge b pendTask { ownImage with weirf := 8 } ⟨0, 0, [0]⟩ = true ∧ (s.cluster (b.core / 16)).gated = true ∧
        (s.core b.core).spad.wf = true) := by decide +kernel

/-! Tasks, power, memory, the debugger. -/

/-- READY on a package whose cores are free. -/
def idleReady : State := ready { State.reset with cur := own.cur }
/-- A bind of task 2 on core 0, with a window of 64 KiB for each context. -/
def binding : BindInfo :=
  { part := 0, cores := [0], ranges := [⟨3, 0x4F000, 0⟩], root := none, rings := []
    privs := [⟨0, 0, 0x10000⟩, ⟨0, 1, 0x20000⟩, ⟨0, 2, 0x30000⟩, ⟨0, 3, 0x40000⟩] }
theorem meets_taskBinds : Binds idleReady binding pendTask ownImage := by decide +kernel
theorem meets_taskEnds :
    let s := withCtx (fun c => { c with run := .ended })
    s.myCore.slot.st ≠ .release ∧ s.me.run = .ended ∧ s.me.storeQ = [] ∧ s.myCore.cmds = [] ∧
      (withCore (fun x => { x with slot := { x.slot with st := .release } })).myCore.slot.st = .release ∧
      (withCore (fun x => { x with slot := { x.slot with st := .release } })).sleptOn 0 = false := by decide
theorem meets_taskEnds_halted :
    let t := { ownTask with cores := [0] }
    let s := ((bound own).updFw (fun w => { w with tasks := [t] })).updMe (fun c => { c with run := .halted 0x26 })
    EndsWith s t 0x26 := by decide
/-- Task 1 runs on core 0 below task 2, which waits in a partition of one cluster for all its cores. -/
theorem meets_preemption :
    let t := { ownTask with cores := List.range 16, prio := 0 }
    let h := { pendTask with prio := 1, record := pendTask.record.set 0 15 }
    let s := ready (bound own)
    let s : State := (s.updFw (fun w => { w with tasks := [t, h] }))
    let s : State := (List.range 16).foldl (fun s c => s.updCore c (fun x => { x with slot := { x.slot with st := .run, task := 1 } })) s
    s.boot.phase = .ready ∧ s.cur.id = 0 ∧ s.head 0 = some h ∧ s.image h.image = some ownImage ∧ s.blocked h ownImage = true ∧ s.victim h ownImage = some t := by decide +kernel
theorem meets_preemption_ends :
    let t := { ownTask with cores := [0], drainAt := some 0, ckpt := true }
    let s := ((bound own).updFw (fun w => { w with tasks := [t] })).updMyCore (fun x => { x with slot := { x.slot with task := 1 } })
    let s : State := { s with cur := { s.cur with id := 1 } }
    s.task s.cur.id = some t ∧ t.st = .bound ∧ s.image t.image = some ownImage ∧ 0 ≤ s.eff 0 ∧ Holds s t 0 ∧
      ∀ c ∈ t.cores, (s.core c).mayForget = true := by decide
/-- A saved task with the image of core 0 at 0x8000: a header of format 1 and of 64 bytes, no section (R398). -/
def savedTask : Task := { pendTask with st := .saved, saved := [{ core := 0, addr := 0x8000, st := CoreState.reset }] }
theorem meets_preemption_restore :
    let s := idleReady.updFw (fun w => { w with tasks := [savedTask] })
    let s : State := { s with phys := { s.phys with mem := [(0x8006, 1#8), (0x8018, 0x40#8)] } }
    s.boot.phase = .ready ∧ s.head (s.partOf [0]) = some savedTask ∧ s.image savedTask.image = some ownImage ∧
      savedTask.st = .saved ∧ savedTask.sameCores [0] = true ∧ s.taskRoom savedTask [0] = true ∧
      s.coreFree 0 ownImage 0 = true ∧ (s.core 0).clear = true ∧
      (∀ p ∈ savedTask.saved.zip [0], s.restoreStatus p.1 ownImage p.2 = .ok) := by decide +kernel
/-- A graph of two nodes, the second behind the first, and an instance of it with outcomes. -/
def withInst (a b : Option Nat) : State :=
  (bound own).updFw (fun w => { w with
    graphs := [{ handle := 3, owner := none, addr := 0, image := 1, sealed := true, reent := false,
                 nodes := [⟨ownRecord, 0, false⟩, ⟨ownRecord, 1, false⟩] }]
    insts := [{ num := 7, graph := 3, compl := 0, task := none, nodes := [(some 1, a), (none, b)], pool := some 0, seq := 1 }] })
theorem meets_graphSteps :
    let s (a : Option Nat) : State := { withInst a none with cur := { own.cur with id := 7, idx := 1 } }
    ∃ i g, NodeWaits (s (some 0xFE)) i g 1 ⟨ownRecord, 1, false⟩ ∧ (∀ c ∈ i.preds 1, c = some 0xFE) := by
  refine ⟨_, _, ⟨rfl, rfl, rfl, ?_⟩, ?_⟩ <;> decide
theorem meets_graphSteps_end :
    ∃ i, ({ withInst (some 0xFE) (some 0xFC) with cur := { own.cur with id := 7 } } : State).inst 7 = some i ∧
      (∀ n ∈ i.nodes, n.2 ≠ none) ∧ i.pool ≠ none := by
  exact ⟨_, rfl, by decide⟩
theorem meets_powerControl : ({ own with master := 1600 } : State).cur.id < 4 ∧ (own.die 0).interval < 1600 / 800 ∧
    (own.cluster 0).pairs < 1600 / 1600 ∧ (own.updCluster 0 (fun k => { k with pendKeep := some 9 })).master % 16 = 0 := by decide
/-- Two clusters of one die that request boost, the first with fewer permits. -/
theorem meets_powerControl_grants :
    let k (p : Nat) (k : ClusterState) : ClusterState :=
      { k with gated := false, keep := 12, bud := 4000, permits := p, issuedNow := true, kps := 0, kis := 0 }
    let s := (own.updCluster 0 (k 3)).updCluster 1 (k 9)
    Requests (s.cluster 0) ∧ Requests (s.cluster 1) ∧ (s.cluster 0).grant = false ∧ (s.cluster 1).grant = false ∧
      GrantedBefore s 1 0 := by decide
theorem meets_periodStarts_stripes :
    let s := (withCore (fun x => { x with slot := { x.slot with st := .bind } })).updCluster 0 (fun k => { k with gated := false })
    s.cur.id < 192 ∧ (s.cluster s.cur.id).gated = false ∧ (s.core (16 * s.cur.id + 0)).slot.st = .bind ∧
      (s.core (16 * s.cur.id + 0)).onAt ≤ s.master := by decide
theorem meets_periodStarts : ((own.updCluster 0 (fun k => { k with eff := 4096 })).cluster 0).periods < 4096 / 4096 ∧
    (own.die 0).periods < 4096 / 4096 ∧ (own.die 0).refresh < 1600 / 1600 ∧
    ((own.updCluster 0 (fun k => { k with powerOn := some 0 })).cluster 0).gated = true ∧
    (own.myCore.stripes.get ⟨0, by decide⟩).pw = .awake := by decide
/-- A root table in page 1 of HBM whose five levels lead to a leaf of page 0 (R344). -/
def paged : State :=
  let s := (bound own).updFw (fun w => { w with tasks := [{ ownTask with root := some 1 }] })
  { s with phys := { s.phys with mem := [(0x1000, 0x01#8), (0x1001, 0x20#8), (0x2000, 0x01#8), (0x2001, 0x30#8), (0x3000, 0x01#8),
    (0x3001, 0x40#8), (0x4000, 0x01#8), (0x4001, 0x50#8), (0x5000, 0x0F#8), (0x5001, 0x60#8)] } }
theorem meets_invalidations : ∃ l, paged.leafAt (paged.task 1) 0 = some l ∧
    paged.mayMigrate { task := 1, va := 0, dest := 0x7000 } l = true :=
  ⟨(paged.leafAt (paged.task 1) 0).get (by decide +kernel), by decide +kernel, by decide +kernel⟩
theorem meets_invalidations_complete :
    let i : Inval := ⟨7, { asid := 1, all := true, lo := 0, hi := 0, entryPa := none, entry := 0 }⟩
    let s : State := { own with phys := { own.phys with invals := [i] }, cur := { own.cur with id := 7 } }
    s.phys.invals.find? (fun i => i.num == 7) = some i ∧ (∀ p ∈ s.cores, p.2.holdsOld i.info = false) ∧
      s.physTarget (64 * 7) = .hbm := by decide +kernel
theorem meets_debugControl :
    let s := (bound own).updFw (fun w => { w with tasks := [{ ownTask with debug := true }] })
    s.runs = true ∧ s.myTask = some { ownTask with debug := true } ∧
      (own.updMe (fun c => { c with dbg := { c.dbg with halted := true } })).me.dbg.halted = true ∧
      (let u := own.updMe (fun c => { c with dbg := { c.dbg with stepDone := true } })
       u.runs = true ∧ u.me.dbg.stepDone = true ∧ u.dueA = none) := by decide
/-- An address breakpoint on offset 0 for fetches, and a planted BRK at 0. -/
theorem meets_debugControl_breakpoint :
    let s := own.updMe (fun c => { c with dbg := { c.dbg with abp := c.dbg.abp.set 3 0x80000000#64 } })
    Acts s ∧ s.dueA = none ∧ s.bpFirst.isSome = true := by decide +kernel
theorem meets_debugControl_plant : (bound own).task 1 ≠ none ∧ (bound own).myCore.freeDisplaced = some 0 ∧
    (bound own).myCore.displaced = [] := by decide
theorem meets_debugControl_displaced :
    let s := withCore (fun x => { x with displaced := [⟨0, 0, 0, 1⟩] })
    Acts s ∧ s.myTask = none ∧ (∃ w ∈ s.fetchWords s.myCore.ispad, ∃ d ∈ s.myCore.displaced, d.off = w.1.toNat) := by decide +kernel
theorem meets_debugAccess : own.myCore.reach 0 = .busy ∧ own.myCore.reach 1 = .free ∧
    (withCtx (fun c => { c with dbg := { c.dbg with halted := true } })).myCore.reach 0 = .halted ∧
    own.myCore.gated 0 = false ∧ own.myCore.gated 0x7FFF8 = true ∧
    (withCtx (fun c => { c with dbg := { c.dbg with halted := true }, nx := [⟨5, 0⟩] })).me.nx[0]? = some ⟨5, 0⟩ := by decide

/-! Bring-up and the host port. -/

/-- A package in a phase. -/
def inPh (p : Phase) : State := { own with boot := { own.boot with phase := p, trready := true } }
theorem meets_bringUp : (inPh .loading).hostBytes 0 0 = some [] ∧ (inPh .rom).boot.phase = .rom ∧
    (inPh .selftest).boot.phase = .selftest := by decide
theorem meets_hostWrites : (0x3F08 % 8 = 0 ∧ 0x3F08 < 0x4000) ∧ ((inPh .ready).slotWord 63 0).getLsbD 0 = false ∧
    (({ own with host := { own.host with slots := [(0x3F00, 1#8)] } } : State).slotWord 63 0).getLsbD 0 = true := by decide
/-- Slot 0 holds a submitted command with an OP and the bytes of its operands. -/
def mailed (op : Nat) (m : Mem) : State :=
  let s := bound (inPh .ready)
  { s with host := { s.host with slots := [(0, 1#8), (5, BitVec.ofNat 8 op)] ++ m, submitted := [0] } }
theorem meets_mailbox : (List.range 13).all (fun op => decide (Mail (mailed (op + 1) []) 0 (op + 1))) = true := by decide
/-- An object of a header alone (R410): the magic, revision 1, a length of 64. -/
def header : Mem := [(0x1003, 0x01#8), (0x1006, 0x58#8), (0x1007, 0x53#8), (0x1008, 0x40#8)]
theorem meets_imageCommands :
    let s := mailed 1 [(9, 0x10#8), (16, 0x40#8)]
    let s : State := { s with host := { s.host with mem := header } }
    s.hostBytes (arg s 0 1) (arg s 0 2) = some (header.readBytes 0x1000 64) ∧ s.nextImage ≤ 0xFFFF ∧
    (match readObject s.nextImage (header.readBytes 0x1000 64) with
     | .image img _ => decide (img.launches = [] ∧ absentFeature img.needs = none ∧ yilozEntries img = [])
     | .fails _ _ => false) = true := by decide +kernel
theorem meets_imageCommands_others : (mailed 2 [(8, 1#8)]).image (arg (mailed 2 [(8, 1#8)]) 0 1) = some ownImage ∧
    (mailed 2 [(8, 2#8)]).image (arg (mailed 2 [(8, 2#8)]) 0 1) = none ∧ (mailed 3 []).poolFree 1 = true := by decide
theorem meets_graphCommands :
    (mailed 4 [(16, 1#8)]).image (arg (mailed 4 [(16, 1#8)]) 0 2) = some ownImage ∧
    (match hostNodes (mailed 4 [(16, 1#8)]) ownImage ((mailed 4 [(16, 1#8)]).slotWord 0 1) [] with
     | .inl _ => false | .inr _ => true) = false ∧
    (mailed 5 []).hostGraph 0 = none := by decide +kernel
/-- A graph of the host's, handle 3, of one node at host address 0, whose record is of zeros but for SCHED. -/
def withGraph (op : Nat) : State :=
  let s := mailed op [(8, 3#8)]
  let g : Graph := ⟨3, none, 0x1000, 1, false, false, [⟨ownRecord, 0, false⟩]⟩
  let s : State := { s with host := { s.host with mem := [(0x1009, 0x20#8), (0x200A, 0x04#8), (0x200C, 0xFF#8), (0x200D, 0x0C#8)] } }
  s.updFw (fun w => { w with graphs := [g] })
theorem meets_graphCommands_launch : ∃ g, (withGraph 5).hostGraph (arg (withGraph 5) 0 1) = some g ∧
    (withGraph 5).image g.image = some ownImage ∧ 0 < g.nodes.length ∧
    (match graphNow (withGraph 5) g with | .inl _ => false | .inr _ => true) = true := by
  exact ⟨_, rfl, by decide +kernel⟩
theorem meets_packageCommands : arg (mailed 8 [(8, 209#8)]) 0 1 < 210 ∧ arg (mailed 9 [(8, 15#8)]) 0 1 < 16 ∧
    ¬ arg (mailed 9 [(8, 16#8)]) 0 1 < 16 ∧ (mailed 10 []).part 0 ≠ none ∧ arg (mailed 11 [(8, 3#8)]) 0 1 < 4 ∧
    ((mailed 11 []).die 3).sealed = false ∧ 4 ≤ arg (mailed 12 [(8, 4#8)]) 0 1 := by decide

/-! The encoding and the step. -/

theorem meets_roundTrip : isOp (.add regF) = true ∧ WellFormed (.add regF) ∧ isRoute 0xFFF0000000000000#64 = true := by decide
theorem meets_stepRunsDecoded :
    let s : State := { own with agenda := [.ctx 0 0] }
    let u : State := { s with agenda := [], cur := { s.cur with core := 0, ctx := 0 } }
    let u : State := u.updMyCore (fun x => { x with ispad := x.ispad.writeWord 0 (encodeWord (.add regF)) })
    u.counts = true ∧ u.canAct = true ∧ u.stepDue = false ∧ u.dueA = none ∧ u.me.waits.idle = false ∧ u.me.notice = none ∧
      u.bpHits = [] ∧
      u.buffered = none ∧ u.fetchStalls = false ∧ (u.myCore.ispad.readWord u.me.pc.toNat).getLsbD 63 = true := by decide +kernel

/-! ### flavy-as and Yiloz -/

/-- The word of a line without symbols. -/
def lineWord (t : String) : Option Word :=
  (lex t.toList).bind (fun l => (readOp {} (fun _ => none) l).map (fun o => o.word (fun _ => 63) 0 true))

/-- Lines that the spec prints with their words (S set where the line stands alone). -/
theorem test_asm_lines :
    ["VFMA.h.rn v4, e1, w3, v1", "ACAS.z8.cl s6, [s2], q2", "TFILL.h t5, s3 => k2", "TKJOIN => k9 <= k1, k2"].map lineWord =
      [some 0x98388021A1008000#64, some 0xB470C88081C00000#64, some 0xC010A8C4002FFFFC#64, some 0xD522410BF0000000#64] := by
  decide +kernel

/-- A listing gives the suffixes in the order T, RM, width, SZ, SC, the entry's own (R92), without defaults (log 96). -/
theorem test_heading :
    [("vfma", 0x98388021A1038000#64), ("acas", 0xB470C88081C00000#64)].map (fun p =>
      (formOf p.1.toList).map (fun f => f.heading p.2)) =
      [some "vfma.h.ru".toList, some "acas.cl".toList] := by decide +kernel

/-- The small program of spec 04. -/
def smallSource : String :=
  ".mmrev 3\n.weirfloor 4\n.data\n.org 0x0100\nval: .dword 40\nout: .dword 0\n.text\n" ++
  ".overlay 0, 0x0000\n.proc main\nmain: LD.z8 s1, [zero + val] ; MEM\nADDI s2, q1, 2\n" ++
  "ST.z8 [zero + out], q1\n| END\n.endproc\n.endoverlay\n.launch demo, entry=main, cores=1\n"

/-- The words that spec 04 prints for its small program, and the weights 3, 2 and 4 of its three bundles. -/
theorem test_asm_program :
    (assemble smallSource.toList).map (fun a => (dwordsOf ((a.object.drop 0xB0).take 32), a.listing)) =
      some ([0xB008380000C00100#64, 0xA008400000000002#64, 0x3020180000C00108#64, 0xE070000000000000#64],
        [(0, 0, 3), (0, 8, 2), (0, 16, 4)]) := by decide +kernel

/-- The dot product of spec 24. -/
def dotSource : String :=
  ".yiloz dotsrc\nproc dot(%x, %y, %n, %c, %out), level=loop, near=2/2, ovl=0, at=0x0000\n" ++
  "VLI.f %acc, 0\nrepeat %c\nvldp.f %a, %x, %n\nvldp.f %b, %y, %n\nVFMA.f %acc, %a, %b, %acc\n" ++
  "ADDI %x, %x, 256\nADDI %y, %y, 256\nADDI %n, %n, -64\nendrepeat\nVRED.f.add %s, %acc\n" ++
  "ST.z4 [%out], %s\nret\nend\n.endyiloz\n"

/-- The words that spec 24 prints for its translation: the copy of %x, the VLI, the BRZ and the first load. -/
theorem test_yiloz_dot :
    (translateAt ({} : YSource) dotSource.toList 0 0).map (fun t =>
      [0, 2, 5, 8].map (fun i => t.words.getD i 0)) =
      some [0x100816300000F000#64, 0xA408028000000000#64, 0xE018200000000009#64, 0x3200080004280000#64] := by decide +kernel

end Sys2Proof.Tests
end

