-- ==== Sys2Proof/Proofs/Reset.lean ====
section
/-! PROOFS. The state after reset (R426, R431, R432, R381). -/

namespace Sys2Proof.Machine

/-- No core is listed after reset, so each reads as `CoreState.reset`. -/
theorem State.core_reset (c : Nat) : State.reset.core c = CoreState.reset := rfl

theorem CoreState.ctx_reset (n : Nat) : CoreState.reset.ctx n = Ctx.reset := Vector.get_replicate 4 Ctx.reset (Fin.ofNat 4 n)

theorem State.dies_reset (d : Fin 4) : State.reset.dies.get d = { soft := .replicate 16 0 } := Vector.get_replicate 4 _ d

theorem State.clusters_reset (k : Fin 192) : State.reset.clusters.get k = {} := Vector.get_replicate 192 _ k

/-- Settles O60: every context of every core is `Ctx.reset`, whose files, queues and tokens are constant vectors. -/
theorem resetValues : Obligations.ResetValues := by
  unfold Obligations.ResetValues
  refine ⟨by decide, ⟨rfl, rfl, rfl, rfl, rfl, rfl⟩, ⟨rfl, rfl, rfl, rfl, rfl, rfl, rfl, rfl, rfl⟩,
    fun d => ?dies, fun k => ?clusters, fun c n => ?contexts⟩
  case dies => rw [State.dies_reset]; exact ⟨rfl, rfl⟩
  case clusters => rw [State.clusters_reset]; exact ⟨rfl, rfl⟩
  case contexts =>
    rw [State.core_reset, CoreState.ctx_reset]
    simp [Ctx.reset, CoreState.reset]

end Sys2Proof.Machine
end

