-- ==== Sys2Proof/Proofs/PairWords.lean ====
section
/-! PROOFS. Pair words (R70, R71): the statement gives VFMIN and VFMAX no result. -/

namespace Sys2Proof.Machine

open Sys2Proof.Claim

/-- The pair word of ADD and VFMIN (sop 0, vop 37) on zeros, with no result written. -/
def addMinPair : PairF :=
  { stop := true, g := ⟨false, 0⟩, sop := 0, sW := false, sD := 0, sA := .zero, sB := .zero, width := 0,
    vop := 37, vW := false, vD := 0, vA := .zero, vB := .zero, vt := 0 }

/-- No form of `FloatHalf` is that of VFMIN: R141's ops are in neither its table nor its other cases. -/
theorem not_floatHalf_vfmin (s : State) (h : RegF) (u : VVal) (fl : Flags) : ¬ FloatHalf s h (.vfmin h) u fl := by
  unfold FloatHalf
  rintro (⟨q, hq, he, -⟩ | ⟨he, -⟩ | ⟨he, -⟩ | ⟨he, -⟩ | ⟨he, -⟩ | ⟨he, -⟩ | ⟨he, -⟩)
  · simp only [fpTable, List.mem_cons, List.not_mem_nil, or_false] at hq
    rcases hq with rfl | rfl | rfl | rfl | rfl | rfl | rfl | rfl | rfl | rfl | rfl <;> cases he
  all_goals cases he

/-- Refutes O33: R70 names VFMIN (vop 37) and VFMAX (vop 38) as vector halves, and after reset a pair of ADD and VFMIN on zeros
meets every condition of the statement, but `FloatHalf`, which is to give the result of the half, has a case for every op of vop 32
to 50 except these two. What the model does with them is not at fault. -/
theorem not_pairWords : ¬ Obligations.PairWords := by
  unfold Obligations.PairWords
  intro h
  have ready : PairReady State.reset addMinPair (.add (pairScalarF addMinPair)) (.vfmin (pairVectorF addMinPair)) := by decide
  have tags : VecTagsMatch State.reset (.vfmin (pairVectorF addMinPair))
      (halfTag (pairVectorF addMinPair) (.vfmin (pairVectorF addMinPair))) := by decide
  obtain ⟨_, _, u, _, fv, -, -, -, half⟩ := (h addMinPair State.reset _ _ rfl rfl ready tags).2 (by decide) (Or.inr rfl)
  exact not_floatHalf_vfmin _ _ u fv half

end Sys2Proof.Machine
end

