-- ==== Sys2Proof/Proofs/Issue.lean ====
section
/-! PROOFS. Every op word is issued as its bundle, and what becomes of a bundle of one op that does not retire: it enters the handler
(R186) by the first row that fails, or it stalls. -/

namespace Sys2Proof.Machine

open Sys2Proof.Claim

/-! ### The meaning of an op word -/

/-- An op word that is neither a pair word nor CSTAGE means: the bundle of that op with the op's own part (R10, R58). -/
theorem exec_op (i : Instr) (s : State) (h : (classOf i).isSome = true) (hp : Instr.isPlain i = true) :
    exec i s = issueOne (semOf i) i s := by
  cases i <;> cases h <;> cases hp <;> rfl

/-- What names a source field is an op, and neither a pair word nor CSTAGE. -/
theorem isPlain_of_srcs {i : Instr} (h : srcs i ≠ []) : (classOf i).isSome = true ∧ Instr.isPlain i = true := by
  have hi : ((classOf i).isSome && Instr.isPlain i || (srcs i).isEmpty) = true := by cases i <;> rfl
  rw [List.isEmpty_eq_false_iff.mpr h, Bool.or_false, Bool.and_eq_true] at hi
  exact hi

/-! ### A change of the running context only -/

/-- A change of the running context leaves everything elsewhere. -/
theorem sameElsewhere_updMe (s : State) (f : Ctx → Ctx) : s.SameElsewhere (s.updMe f) := by
  refine ⟨⟨rfl, rfl, rfl, rfl, rfl, rfl, rfl, rfl, rfl, rfl, rfl, rfl, fun c hc => State.core_updMe_other s f hc, fun _ => rfl⟩,
    rfl, fun k hk => State.ctx_updCtx_other s s.cur.core f hk, ?_⟩
  rw [State.myCore_updMe]
  rfl

theorem Ctx.tick_rngseed (c : Ctx) (w : Nat) : (c.tick w).csr.rngseed = c.csr.rngseed := by
  unfold Ctx.tick; dsimp only; split <;> rfl

/-- A trap of kind P in a context that has a handler: the handler is entered, nothing else happens (R182, R186). -/
theorem entered_takeTrap (s : State) (t : Trap) (n : Nat) (hh : Handles s) (hk : t.kind = .P) :
    Entered s (s.trapCycle.takeTrap t s.me.pc n) t.cause t.slot t.info0 t.info1 n := by
  obtain ⟨hm, hn, -⟩ := hh
  have htr : s.trapCycle.me.tr = s.me.tr := by simp [State.trapCycle, Ctx.tick]
  rw [State.takeTrap_enter _ _ _ _ (by rw [htr, hm]) (by rw [htr, hn])]
  unfold State.trapCycle
  rw [State.updMe_updMe]
  refine ⟨sameElsewhere_updMe s _, ?_⟩
  rw [State.me_updMe]
  exact ⟨by simp [Ctx.enter, Ctx.tick, hk], rfl, rfl, rfl, Vector.get_replicate 16 none, rfl, rfl, rfl, rfl, rfl,
    Ctx.tick_fpstat s.me 0, Ctx.tick_rngseed s.me 0⟩

/-- A bundle of one op that traps enters the handler. -/
theorem issueOne_traps (s : State) (i : Instr) (m : Sem) (t : Trap) (hs : CanTrap s)
    (hj : s.judge (s.lay (fun _ => m) (s.single i)) none = .trap t) (hk : t.kind = .P) (hb : t.cause ≠ 0x50) :
    ∃ u, issueOne m i s = .next u ∧ Entered s u t.cause t.slot t.info0 t.info1 (wordsOf i) := by
  obtain ⟨hcore, hh, hbuf⟩ := hs
  have he := entered_takeTrap s t (wordsOf i) hh hk
  have hu : (s.trapCycle.takeTrap t s.me.pc (wordsOf i)).leaveBuf = s.trapCycle.takeTrap t s.me.pc (wordsOf i) := by
    refine leaveBuf_none _ ?_
    obtain ⟨-, -, -, hcore⟩ := he.1
    exact (congrArg CoreState.issueBuf hcore).trans hbuf
  refine ⟨_, ?_, he⟩
  unfold issueOne
  rw [if_neg (Nat.not_le.mpr hcore)]
  unfold State.issue State.issueLaid
  rw [show (s.single i).long = none from rfl, hj]
  simp only [State.trapBundle, State.unsleep_eq s hh.2.2, if_neg hb]
  rw [show (s.single i).blen = wordsOf i from rfl, hu]

/-- A bundle of one op that waits before it issues is held for a cycle. -/
theorem issueOne_stalled (s : State) (i : Instr) (m : Sem) (hc : s.cur.core < nCores)
    (hj : s.judge (s.lay (fun _ => m) (s.single i)) none = .stall .wait) : issueOne m i s = .next s.stalled := by
  unfold issueOne
  rw [if_neg (Nat.not_le.mpr hc)]
  unfold State.issue State.issueLaid
  rw [show (s.single i).long = none from rfl, hj]

/-! ### The decision on one op, row by row (R80) -/

/-- Row 7 of an op that names no slot is its tag check. -/
theorem row7_slotless {s : State} {m : Sem} (hslots : m.slots s = []) (htags : m.tags s = none) (a : At) : s.row7 a m = none := by
  unfold State.row7
  simp only [htags, hslots, List.findSome?_nil]

/-- A failing tag check is row 7's trap (R193). -/
theorem row7_tags {s : State} {m : Sem} {x : TagFail} (htags : m.tags s = some x) (a : At) :
    s.row7 a m = some { kind := .P, cause := 0x06, slot := a.slot, info0 := a.word,
                        info1 := wd (x.found + 16 * x.req + 256 * x.field) } := by
  unfold State.row7
  rw [htags]

section
variable {s : State} {i : Instr} {m : Sem} (h : Instr.plain i) (hw : WellFormed i) (hc : s.row2Ctx i = false)
include h hw hc

theorem judge_row6 {t : Trap} (h6 : s.row6 (s.lone i (m.draw s).1) = some t) :
    s.judge (s.lay (fun _ => m) (s.single i)) none = .trap t := by
  rw [lay_lone s i m h]
  unfold State.judge
  simp only [replays_lone, rows15_lone s i h hw hc, List.findSome?_cons, h6]

variable (hop : ∀ x ∈ srcs i, s.me.srcFail x = none) (hslots : m.slots s = [])
include hop hslots

theorem judge_row7 {t : Trap} (h7 : s.row7 (s.lone i (m.draw s).1) m = some t) :
    s.judge (s.lay (fun _ => m) (s.single i)) none = .trap t := by
  rw [lay_lone s i m h]
  unfold State.judge
  simp only [replays_lone, rows15_lone s i h hw hc, List.findSome?_cons, List.findSome?_nil, row6_lone s i _ hop, List.any_cons,
    List.any_nil, hslots, Bool.or_self, Bool.false_eq_true, if_false, h7]

theorem judge_rows89 {t : Trap} (htags : m.tags s = none) (h89 : s.me.rows89 [s.lone i] = some t) :
    s.judge (s.lay (fun _ => m) (s.single i)) none = .trap t := by
  rw [lay_lone s i m h]
  unfold State.judge
  simp only [replays_lone, rows15_lone s i h hw hc, List.findSome?_cons, List.findSome?_nil, row6_lone s i _ hop, List.any_cons,
    List.any_nil, hslots, Bool.or_self, Bool.false_eq_true, if_false, row7_slotless hslots htags, h89]

theorem judge_window (htags : m.tags s = none) (h89 : s.me.rows89 [s.lone i] = none)
    (hfull : s.me.windowFull (weightOf i + standSum s.me.standing) = true) :
    s.judge (s.lay (fun _ => m) (s.single i)) none = .stall .wait := by
  rw [lay_lone s i m h]
  unfold State.judge
  simp only [replays_lone, rows15_lone s i h hw hc, List.findSome?_cons, List.findSome?_nil, row6_lone s i _ hop, List.any_cons,
    List.any_nil, hslots, Bool.or_self, Bool.false_eq_true, if_false, row7_slotless hslots htags, h89, declared_lone, hfull,
    if_true]

end

/-- A light op that may issue and whose own check fails traps by group 2 of R452. -/
theorem judge_own {s : State} {i : Instr} {m : Sem} {x : TrapInfo} (h : Instr.plain i) (hl : Instr.light i) (hr : s.Ready i)
    (htags : m.tags s = none) (hslots : m.slots s = []) (hstall : ∀ a, m.stall s a = false) (hni : m.ni s = 0)
    (hrun : (m.run s (s.lone i (m.draw s).1)).trap = some x) :
    s.judge (s.lay (fun _ => m) (s.single i)) none =
      .trap { kind := .P, cause := x.cause, slot := 0, info0 := x.info0, info1 := x.info1 } := by
  obtain ⟨-, hw, hc, hop, hwt, hib, hed, -, -⟩ := hr
  have hx : s.execTrap [s.lone i (m.draw s).1] [(s.lone i (m.draw s).1, m.run s (s.lone i (m.draw s).1))] =
      some { kind := .P, cause := x.cause, slot := 0, info0 := x.info0, info1 := x.info1 } := by
    unfold State.execTrap
    rw [tokenReuse_light _ _ hl]
    simp only [List.findSome?_cons, hrun, Option.map_some]
    rfl
  rw [lay_lone s i m h]
  unfold State.judge
  simp only [replays_lone, rows15_lone s i h hw hc, orderWaits_lone, List.findSome?_cons, List.findSome?_nil, row6_lone s i _ hop,
    List.any_cons, List.any_nil, hslots, Bool.or_self, row7_slotless hslots htags, rows89_lone s i hwt,
    windowFull_lone s i hwt, List.map_cons, List.map_nil, List.sum_cons, List.sum_nil, Nat.add_zero, hni,
    denies_lone s.me _ hib (Or.inr (Nat.zero_le _)), hed, tokenWaits_light s.me (s.lone i (m.draw s).1) hl, hstall,
    engineFault_light s.me (s.lone i (m.draw s).1) hl, State.outs, hx,
    if_false, Bool.false_eq_true]

end Sys2Proof.Machine
end

