-- ==== Sys2Proof/Proofs/IssueTraps.lean ====
section
/-! PROOFS. The traps of operands (rows 4 to 6 of R80) and of the allowance (R205 to R208). -/

namespace Sys2Proof.Machine

open Sys2Proof.Claim

/-! ### The first failure in a list -/

/-- The first element that a test finds decides a search that passes over every element the test does not find. -/
theorem findSome?_of_find? {α β : Type} {l : List α} {p : α → Bool} {f : α → Option β} {x : α} {b : β} (h : l.find? p = some x)
    (hskip : ∀ y ∈ l, p y = false → f y = none) (hx : f x = some b) : l.findSome? f = some b := by
  obtain ⟨-, before, after, rfl, hb⟩ := List.find?_eq_some_iff_append.mp h
  refine List.findSome?_eq_some_iff.mpr ⟨before, x, after, rfl, hx, fun y hy => hskip y ?_ ?_⟩
  · exact List.mem_append_left _ hy
  · simpa using hb y hy

/-! ### Row 6 -/

/-- What row 6 reports of an op: the cause and the information words of its first failing source field. -/
theorem row6_of_find {s : State} {i : Instr} {x : Src} (r : Word)
    (h : (row6Order (srcs i)).find? (fun x => s.me.srcFail x != none) = some x) :
    (∃ va, s.me.srcFail x = some (.poisoned va) ∧
      s.row6 (s.lone i r) = some { kind := .P, cause := 0x23, slot := 0, info0 := va }) ∨
    (s.me.srcFail x = some .undefined ∧
      s.row6 (s.lone i r) = some { kind := .P, cause := 0x07, slot := 0, info0 := encodeWord i, info1 := wd x.idx }) := by
  have hfail := List.find?_some h
  cases hx : s.me.srcFail x with
  | none => simp [hx] at hfail
  | some e =>
    cases e with
    | undefined => exact .inr ⟨rfl, findSome?_of_find? h (fun y _ hy => by simp at hy; simp [hy]) (by simp only [hx]; rfl)⟩
    | poisoned va => exact .inl ⟨va, rfl, findSome?_of_find? h (fun y _ hy => by simp at hy; simp [hy]) (by simp only [hx]; rfl)⟩

theorem exec_traps_row6 {i : Instr} {s : State} (hw : WellFormed i) (hc : s.row2Ctx i = false) (ht : CanTrap s) {x : Src}
    (h : (row6Order (srcs i)).find? (fun x => s.me.srcFail x != none) = some x) :
    ∃ t, exec i s = .next t ∧
      match s.me.srcFail x with
      | some (.poisoned va) => Entered s t 0x23 0 va 0 (wordsOf i)
      | _ => Entered s t 0x07 0 (encodeWord i) (BitVec.ofNat 64 x.idx) (wordsOf i) := by
  have hs : srcs i ≠ [] := by rintro hs; rw [hs] at h; cases h
  obtain ⟨hop, hp⟩ := isPlain_of_srcs hs
  rw [exec_op i s hop hp]
  obtain ⟨va, hx, h6⟩ | ⟨hx, h6⟩ := row6_of_find ((semOf i).draw s).1 h <;> rw [hx]
  · exact issueOne_traps s i (semOf i) _ ht (judge_row6 (plain_of hp) hw hc h6) rfl (by simp)
  · exact issueOne_traps s i (semOf i) _ ht (judge_row6 (plain_of hp) hw hc h6) rfl (by simp)

/-! ### The scalar ops of R113 -/

/-- What the ops of the scalar tables share: they stand alone in one word, name scalar sources in A, B and C, ask nothing of the
context, and mean a scalar function without flags (R110 to R113). -/
structure ScalarOp (f : RegF) (i : Instr) : Prop where
  plain : Instr.isPlain i = true
  abc : Instr.abc i
  words : wordsOf i = 1
  row2Ctx : ∀ s : State, s.row2Ctx i = false
  exec : ∃ fn, ∀ s, exec i s = issueOne (semScalar f i fn noFlags) i s

theorem scalarOp_of_mem {p : (RegF → Instr) × TableFn} (hp : p ∈ scalarTable) (f : RegF) : ScalarOp f (p.1 f) := by
  simp only [scalarTable, sums, choices, shifts, List.cons_append, List.nil_append, List.mem_cons, List.not_mem_nil, or_false] at hp
  rcases hp with rfl | rfl | rfl | rfl | rfl | rfl | rfl | rfl | rfl | rfl | rfl | rfl | rfl | rfl | rfl | rfl | rfl | rfl | rfl |
    rfl | rfl | rfl | rfl | rfl <;>
  exact ⟨rfl, by simp [Instr.abc, srcs], rfl, fun s => by simp [State.row2Ctx, vecPush], _, fun _ => rfl⟩

/-! ### Row 7 -/

/-- The tag check of a scalar op fails with the tag found, T and the field of the first operand that does not carry T (R19,
R193). -/
theorem scalarTags_of_find {s : State} {f : RegF} {i : Instr} {u : Tag} {x : Src} (hi : Instr.abc i) (ht : f.t = .tag u)
    (h : (srcs i).find? (fun x => !isSpecial x.o && (s.rdS .int64 x.o).tag != u) = some x) :
    scalarTags f i s = some ⟨tagCode (s.rdS .int64 x.o).tag, tagCode u, x.idx⟩ := by
  unfold scalarTags
  rw [ht]
  refine findSome?_of_find? h (fun y hy hpass => ?_) ?_
  · refine tagFail_none s u u [u] y (hi y hy).1 (fun hs => ?_) (fun _ => (hi y hy).2)
    have htag : (s.rdS .int64 y.o).tag = u := by simpa [hs] using hpass
    simp [htag]
  · have hfail := List.find?_some h
    simp only [Bool.and_eq_true, Bool.not_eq_true', bne_iff_ne, ne_eq] at hfail
    obtain ⟨hs, htag⟩ := hfail
    simp [State.tagFail, hs, (hi x (List.mem_of_find?_eq_some h)).1, rdS_tag s u .int64 x.o hs, htag]

theorem scalar_traps_tag {i : Instr} {f : RegF} {s : State} {u : Tag} (hi : ScalarOp f i) (hr : s.Ready i) (hh : Handles s)
    (ht : f.t = .tag u) {x : Src}
    (h : (srcs i).find? (fun x => !isSpecial x.o && (s.rdS .int64 x.o).tag != u) = some x) :
    ∃ t, exec i s = .next t ∧
      Entered s t 0x06 0 (encodeWord i) (BitVec.ofNat 64 (tagCode (s.rdS .int64 x.o).tag + 16 * tagCode u + 256 * x.idx)) 1 := by
  obtain ⟨hcore, hw, hc, hop, -, -, -, -, hbuf⟩ := hr
  obtain ⟨fn, hexec⟩ := hi.exec
  rw [hexec, ← hi.words]
  exact issueOne_traps s i _ _ ⟨hcore, hh, hbuf⟩
    (judge_row7 (m := semScalar f i fn noFlags) (plain_of hi.plain) hw hc hop rfl (row7_tags (scalarTags_of_find hi.abc ht h) _))
    rfl (by simp)

/-! ### Rows 8 and 9, and the window -/

/-- Rows 8 and 9 report the lone op, whether the standing weight alone exceeds the limit or only with the op's own (R207,
R208). -/
theorem over_lone {s : State} {i : Instr} {limit : Nat} (h : limit < weightOf i + standSum s.me.standing) :
    (if limit < standSum s.me.standing then [s.lone i].head?.map (fun a => (a.slot, a.word))
      else overAt limit (standSum s.me.standing) [s.lone i]) = some (0, encodeWord i) := by
  split
  · rfl
  · have h' : limit < standSum s.me.standing + weightOf i := by omega
    simp [overAt, State.lone, h']

theorem rows89_weira {s : State} {i : Instr} (hm : s.me.tr.hm = false)
    (h : s.me.csr.weira < weightOf i + standSum s.me.standing) :
    s.me.rows89 [s.lone i] = some { kind := .P, cause := 0x03, slot := 0, info0 := encodeWord i,
                                    info1 := wd (weightOf i + standSum s.me.standing) } := by
  simp only [Ctx.rows89, declared_lone, hm, over_lone h, h, if_true, Bool.false_eq_true, if_false, Option.getD_some]

theorem rows89_weirw {s : State} {i : Instr} (hm : s.me.tr.hm = false)
    (ha : weightOf i + standSum s.me.standing ≤ s.me.csr.weira) (h : s.me.csr.weirw < weightOf i + standSum s.me.standing) :
    s.me.rows89 [s.lone i] = some { kind := .P, cause := 0x04, slot := 0, info0 := encodeWord i,
                                    info1 := wd (weightOf i + standSum s.me.standing) } := by
  simp only [Ctx.rows89, declared_lone, hm, over_lone h, h, Nat.not_lt.mpr ha, if_true, Bool.false_eq_true, if_false,
    Option.getD_some]

theorem rows89_none {s : State} {i : Instr} (ha : weightOf i + standSum s.me.standing ≤ s.me.csr.weira)
    (hw : weightOf i + standSum s.me.standing ≤ s.me.csr.weirw) : s.me.rows89 [s.lone i] = none := by
  simp only [Ctx.rows89, declared_lone, Nat.not_lt.mpr ha, Nat.not_lt.mpr hw, if_false, ite_self]

/-- A cycle in which a bundle waits leaves nothing but a window position of weight 0, the cycle and the wait (R206). -/
theorem stalled_leaves (s : State) :
    s.SameElsewhere s.stalled ∧ RegsKept s.me s.stalled ∧ s.stalled.me.pc = s.me.pc ∧ s.stalled.me.tr = s.me.tr ∧
      s.stalled.me.window = (0 :: s.me.window).take 7 := by
  refine ⟨sameElsewhere_updMe s _, ?_⟩
  unfold State.stalled RegsKept
  rw [State.me_updMe]
  exact ⟨⟨rfl, rfl, Ctx.tick_rngseed s.me 0⟩, rfl, rfl, rfl⟩

theorem scalar_allowance {i : Instr} {f : RegF} {s : State} (hi : ScalarOp f i) (hw : WellFormed i) (ht : CanTrap s)
    (hop : ∀ x ∈ srcs i, s.me.srcFail x = none) (htags : TagsMatch s i f.t) :
    let w := weightOf i + (s.me.standing.map (·.wt)).sum
    (s.me.csr.weira < w → ∃ t, exec i s = .next t ∧ Entered s t 0x03 0 (encodeWord i) (BitVec.ofNat 64 w) 1) ∧
    (w ≤ s.me.csr.weira → s.me.csr.weirw < w →
      ∃ t, exec i s = .next t ∧ Entered s t 0x04 0 (encodeWord i) (BitVec.ofNat 64 w) 1) ∧
    (w ≤ s.me.csr.weira → w ≤ s.me.csr.weirw → s.me.csr.weirw < w + (s.me.window.take 7).sum →
      ∃ t, exec i s = .next t ∧ s.SameElsewhere t ∧ RegsKept s.me t ∧ t.me.pc = s.me.pc ∧ t.me.tr = s.me.tr ∧
        t.me.window = (0 :: s.me.window).take 7) := by
  rw [show (s.me.standing.map (·.wt)).sum = standSum s.me.standing from rfl]
  obtain ⟨fn, hexec⟩ := hi.exec
  have hm : s.me.tr.hm = false := ht.2.1.1
  have hpl := plain_of hi.plain
  have hc := hi.row2Ctx s
  have h7 : (semScalar f i fn noFlags).tags s = none := scalarTags_none s f i hi.abc htags
  rw [hexec, ← hi.words]
  refine ⟨fun ha => ?weira, fun ha hb => ?weirw, fun ha hb hfull => ?window⟩
  case weira =>
    exact issueOne_traps s i _ _ ht (judge_rows89 hpl hw hc hop rfl h7 (rows89_weira hm ha)) rfl (by simp)
  case weirw =>
    exact issueOne_traps s i _ _ ht (judge_rows89 hpl hw hc hop rfl h7 (rows89_weirw hm ha hb)) rfl (by simp)
  case window =>
    exact ⟨_, issueOne_stalled s i _ ht.1 (judge_window hpl hw hc hop rfl h7 (rows89_none ha hb)
      (by simpa [Ctx.windowFull, hm] using hfull)), stalled_leaves s⟩

/-- Settles O35: the first row of R80 that fails decides the trap, and the window check the wait; the scalar ops share one form. -/
theorem issueTraps : Obligations.IssueTraps := by
  unfold Obligations.IssueTraps OperandTraps AllowanceTraps
  exact ⟨⟨fun i s _ hw hc ht x h => exec_traps_row6 hw hc ht h,
    fun p hp f s u hr hh ht x h => scalar_traps_tag (scalarOp_of_mem hp f) hr hh ht h⟩,
    fun p hp f s hw ht hop htags => scalar_allowance (scalarOp_of_mem hp f) hw ht hop htags⟩

end Sys2Proof.Machine
end

