-- ==== Sys2Proof/Proofs/CsrLayout.lean ====
section
/-! PROOFS. The layouts of the control registers: a word written as its fields side by side is the disjunction of its fields, each
at its place (R22, R194, R294, R296, R340, R351, R360, R362, R368, R389, R436). -/

namespace Sys2Proof.Machine

open Sys2Proof.Claim

/-! ### Fields side by side and fields at their places -/

/-- A word of two parts, the upper one shifted over the lower one. -/
theorem setWidth_append {m n : Nat} (x : BitVec m) (y : BitVec n) (k : Nat) :
    (x ++ y).setWidth k = x.setWidth k <<< n ||| y.setWidth k := by
  ext i hi
  simp only [BitVec.getElem_setWidth, BitVec.getLsbD_append, BitVec.getElem_or, BitVec.getElem_shiftLeft]
  by_cases h : i < n
  · simp [h]
  · have hy : y.getLsbD i = false := BitVec.getLsbD_of_ge _ _ (by omega)
    simp [h, hy]

theorem setWidth_ofBool (b : Bool) : (BitVec.ofBool b).setWidth 64 = bit64 0 b := by cases b <;> rfl
theorem setWidth_ofNat (w v : Nat) : (BitVec.ofNat w v).setWidth 64 = at64 0 w v := (BitVec.shiftLeft_zero _).symm
theorem setWidth_eq_at64 {w : Nat} (x : BitVec w) : x.setWidth 64 = at64 0 w x.toNat := by
  rw [← setWidth_ofNat, BitVec.ofNat_toNat, BitVec.setWidth_eq]

@[simp] theorem bit64_shift (j k : Nat) (b : Bool) : bit64 j b <<< k = bit64 (j + k) b := by
  cases b
  · exact BitVec.zero_shiftLeft _
  · simp [bit64, BitVec.twoPow, BitVec.shiftLeft_add]
@[simp] theorem at64_shift (j k w v : Nat) : at64 j w v <<< k = at64 (j + k) w v := (BitVec.shiftLeft_add _ _ _).symm

@[simp] theorem at64_zero (k w : Nat) : at64 k w 0 = 0#64 := by simp [at64]

/-- A word that is one bit. -/
theorem wd_bnat (b : Bool) : wd (bnat b) = bit64 0 b := by cases b <;> rfl

/-- A field holds a number modulo its range. -/
theorem at64_mod (k w v : Nat) : at64 k w (v % 2 ^ w) = at64 k w v := by
  rw [at64, at64, BitVec.eq_of_toNat_eq (x := BitVec.ofNat w (v % 2 ^ w)) (y := BitVec.ofNat w v) (by simp)]

/-! ### The registers -/

theorem lendWord_eq (l : LendCfg) :
    lendWord l = bit64 31 l.active ||| bit64 30 l.busy ||| bit64 25 l.auto ||| bit64 24 l.keep ||| at64 16 7 l.share |||
      at64 8 8 l.count ||| at64 0 7 l.start := by
  rw [← BitVec.setWidth_eq (lendWord l), lendWord]
  repeat rw [setWidth_append]
  simp [setWidth_ofBool, setWidth_ofNat, BitVec.shiftLeft_or_distrib]

theorem budget_eq (x : CoreState) (c : Ctx) :
    budget x c = at64 32 16 (if x.copyBud = 0xFFFF then 0xFFFF else x.copyLeft / 64) ||| at64 16 16 c.csr.niLeft |||
      at64 0 16 c.csr.issueLeft := by
  rw [← BitVec.setWidth_eq (budget x c), budget]
  repeat rw [setWidth_append]
  simp [setWidth_ofNat, BitVec.shiftLeft_or_distrib, copyUnits]

theorem estat_eq (c : Ctx) :
    estat c = at64 16 3 c.tr.res ||| at64 8 5 c.tr.blen.toNat ||| bit64 5 c.tr.eng ||| bit64 4 c.tr.dt |||
      bit64 3 (decide (c.pend ≠ [] ∨ c.notice ≠ none)) ||| bit64 1 c.tr.wake ||| bit64 0 c.tr.hm := by
  have hpend : (c.pend != [] || c.notice.isSome) = decide (c.pend ≠ [] ∨ c.notice ≠ none) := by
    cases c.pend <;> cases c.notice <;> simp
  rw [← BitVec.setWidth_eq (estat c), estat, hpend]
  repeat rw [setWidth_append]
  simp [setWidth_ofBool, setWidth_ofNat, setWidth_eq_at64 c.tr.blen, BitVec.shiftLeft_or_distrib]

theorem bankWord_eq (b : EddyBank) : (bankWord b).setWidth 64 = bankField 0 b := by
  rw [bankWord]
  repeat rw [setWidth_append]
  simp [setWidth_ofBool, setWidth_ofNat, BitVec.shiftLeft_or_distrib, bankField]
  rfl

theorem bankField_shift (j k : Nat) (b : EddyBank) : bankField j b <<< k = bankField (j + k) b := by
  simp [bankField, BitVec.shiftLeft_or_distrib, Nat.add_right_comm]

theorem eddystat_eq (x : CoreState) :
    eddystat x = bankField 48 (x.bank 3) ||| bankField 32 (x.bank 2) ||| bankField 16 (x.bank 1) := by
  rw [← BitVec.setWidth_eq (eddystat x), eddystat]
  repeat rw [setWidth_append]
  simp [bankWord_eq, bankField_shift, BitVec.shiftLeft_or_distrib]

theorem nxstat_eq (c : Ctx) :
    nxstat c = at64 8 2 c.nxHead ||| at64 4 3 c.nx.length ||| at64 0 3 (c.nx.filter (fun e => e.due == 0)).length := by
  rw [← BitVec.setWidth_eq (nxstat c), nxstat]
  repeat rw [setWidth_append]
  simp [setWidth_ofNat, BitVec.shiftLeft_or_distrib, Ctx.nxLanded]

theorem wspos_eq (s : State) (die : Nat) :
    wspos s die = bit64 63 (s.die die).sealed ||| at64 16 32 ((s.die die).refresh / 16) ||| at64 4 11 ((s.master - 1) % 1600) |||
      at64 0 4 ((s.die die).refresh % 16) := by
  rw [show (s.die die).refresh % 16 = (s.die die).refresh % 2 ^ 4 from rfl, at64_mod, ← BitVec.setWidth_eq (wspos s die), wspos]
  repeat rw [setWidth_append]
  simp [setWidth_ofBool, setWidth_ofNat, BitVec.shiftLeft_or_distrib]

theorem patternMask_eq (k : Nat) :
    patternMask k = joinNat 1 ((List.range 16).map (fun i => if (i + 1) * k / 16 - i * k / 16 = 1 then 1 else 0)) := by
  simp [patternMask, keptSlot, bnat]

theorem pwrstat_eq (k : ClusterState) :
    pwrstat k =
      at64 32 16 (joinNat 1 ((List.range 16).map (fun i => if (i + 1) * k.keep / 16 - i * k.keep / 16 = 1 then 1 else 0))) |||
        at64 16 6 k.cool ||| at64 8 7 k.permits ||| bit64 7 k.fall ||| bit64 5 k.grant ||| at64 0 5 k.keep := by
  rw [← patternMask_eq, ← BitVec.setWidth_eq (pwrstat k), pwrstat]
  repeat rw [setWidth_append]
  simp [setWidth_ofBool, setWidth_ofNat, BitVec.shiftLeft_or_distrib]

theorem cpctl_eq (k : ClusterState) : cpctl k = at64 32 5 k.kis ||| at64 24 5 k.kps ||| at64 0 22 k.bud := by
  rw [← BitVec.setWidth_eq (cpctl k), cpctl]
  repeat rw [setWidth_append]
  simp [setWidth_ofNat, BitVec.shiftLeft_or_distrib]

theorem fabstat_eq (s : State) : fabstat s = at64 32 12 s.boot.pkg ||| s.fab.up.setWidth 64 := by
  rw [← BitVec.setWidth_eq (fabstat s), fabstat]
  repeat rw [setWidth_append]
  simp [setWidth_ofNat]

theorem ringcfg_eq (r : Ring) : ringcfg (some r) = (r.base >>> 12 <<< 12) ||| bit64 5 true ||| at64 0 5 r.log := by
  have hbase : (r.base.extractLsb' 12 52).setWidth 64 <<< 12 = r.base >>> 12 <<< 12 := by
    ext i hi
    simp only [BitVec.getElem_shiftLeft, BitVec.getElem_setWidth, BitVec.getLsbD_extractLsb', BitVec.getElem_ushiftRight]
    by_cases h : i < 12
    · simp [h]
    · simp [h, show i - 12 < 52 by omega]
  rw [← BitVec.setWidth_eq (ringcfg (some r)), ringcfg]
  repeat rw [setWidth_append]
  simp [setWidth_ofNat, BitVec.shiftLeft_or_distrib, hbase, bit64, BitVec.twoPow]

theorem ringptr_eq (r : Ring) : ringptr (some r) = at64 32 32 r.tail ||| at64 0 32 r.head := by
  rw [← BitVec.setWidth_eq (ringptr (some r)), ringptr]
  repeat rw [setWidth_append]
  simp [setWidth_ofNat]

end Sys2Proof.Machine
end

