-- ==== Sys2Proof/Proofs/CsrReads.lean ====
section
/-! PROOFS. What CSRR delivers (R22, R195). -/

namespace Sys2Proof.Machine

open Sys2Proof.Claim

/-! ### The value of a register -/

theorem ringNo_eq_ringAt (s : State) (n : Nat) : s.ringNo n = ringAt n s := by
  unfold State.ringNo ringOf ringAt State.myTask
  cases s.me.task.bind s.task <;> rfl

/-- RINGCFG of a ring holds its layout, or zero where the ring does not exist (R351). -/
theorem csr_ringcfg {n : Nat} (s : State) (h : 0x210 ≤ n) (h' : n < 0x214) : s.csr n = csrVal n s := by
  obtain rfl | rfl | rfl | rfl : n = 0x210 ∨ n = 0x211 ∨ n = 0x212 ∨ n = 0x213 := by omega
  all_goals
    simp only [State.csr, csrVal, ringNo_eq_ringAt]
    cases ringAt _ s with
    | none => rfl
    | some r => exact ringcfg_eq r

/-- RINGPTR of a ring holds its layout, or zero where the ring does not exist (R351). -/
theorem csr_ringptr {n : Nat} (s : State) (h : 0x214 ≤ n) (h' : n < 0x218) : s.csr n = csrVal n s := by
  obtain rfl | rfl | rfl | rfl : n = 0x214 ∨ n = 0x215 ∨ n = 0x216 ∨ n = 0x217 := by omega
  all_goals
    simp only [State.csr, csrVal, ringNo_eq_ringAt]
    cases ringAt _ s with
    | none => rfl
    | some r => exact ringptr_eq r

/-- Every listed register reads as its fields, each at its place. -/
theorem csr_eq_csrVal {n : Nat} (s : State) (h : n ∈ csrNumbers) : s.csr n = csrVal n s := by
  simp only [csrNumbers, List.mem_cons, List.not_mem_nil, or_false] at h
  rcases h with rfl | rfl | rfl | rfl | rfl | rfl | rfl | rfl | rfl | rfl | rfl | rfl | rfl | rfl | rfl | rfl | rfl | rfl |
    rfl | rfl | rfl | rfl | rfl | rfl | rfl | rfl | rfl | rfl | rfl | rfl | rfl | rfl | rfl | rfl | rfl | rfl
  any_goals exact csr_ringcfg s (of_decide_eq_true rfl) (of_decide_eq_true rfl)
  any_goals exact csr_ringptr s (of_decide_eq_true rfl) (of_decide_eq_true rfl)
  all_goals simp only [State.csr, csrVal, budget_eq, lendWord_eq, eddystat_eq, nxstat_eq, estat_eq, wspos_eq, pwrstat_eq, cpctl_eq,
    fabstat_eq, trapvec, wd_bnat]
  all_goals rfl

/-! ### CSRR -/

theorem csrAccess_listed : ∀ n ∈ csrNumbers, csrAccess n ≠ none := by decide

/-- No read of a listed register is refused (R22, R195). -/
theorem csrPrivilege_read {n : Nat} (s : State) (h : n ∈ csrNumbers) : csrPrivilege false n s = none := by
  unfold csrPrivilege
  cases ha : csrAccess n with
  | none => exact absurd ha (csrAccess_listed n h)
  | some k => cases k <;> rfl

/-- Settles O19: a read of a listed register is not refused, and each register's word is the disjunction of its fields. -/
theorem csrReads : Obligations.CsrReads := by
  intro f s hr hn
  have h := issueOne_scalar s (.csrr f) (semCsrr f) _ f.w f.d { v := if s.active f.g then s.csr f.csr.toNat else 0, tag := .int64 }
    (plain_of rfl) ⟨rfl, rfl, rfl, rfl⟩ hr
    (passes_light s _ _ _ ⟨rfl, rfl, rfl, rfl⟩ rfl rfl (fun _ => ⟨rfl, rfl⟩) rfl rfl (csrPrivilege_read s hn) rfl
      (Or.inr (flagTrap_nil _)))
    (fun _ hL => congrArg (Live.mk _) hL) rfl
  rw [← csr_eq_csrVal s hn]
  exact h

end Sys2Proof.Machine
end

