-- ==== Sys2Proof/Proofs/Beside.lean ====
section
/-! PROOFS. An op that stores in the special registers of its context, and one that also changes the package beside its context: what
retirement leaves is the same, with the change beside it. -/

namespace Sys2Proof.Machine

open Sys2Proof.Claim

/-! ### A change beside the running context -/

/-- A change of what no retirement touches: neither the running context nor what SameElsewhere excepts. -/
structure Beside (U : State → State) : Prop where
  me : ∀ s, (U s).me = s.me
  issueBuf : ∀ s, (U s).myCore.issueBuf = s.myCore.issueBuf
  same : ∀ s t, s.SameElsewhere t → (U s).SameElsewhere (U t)
  closed : ∀ (s : State) (i : Instr) (m : Sem) (o : Out) (L : Live),
    s.closed i m o { L with s := U L.s } = U (s.closed i m o L)

theorem beside_id : Beside id := ⟨fun _ => rfl, fun _ => rfl, fun _ _ h => h, fun _ _ _ _ _ => rfl⟩

theorem beside_updFw (f : Firmware → Firmware) : Beside (State.updFw · f) where
  me _ := rfl
  issueBuf _ := rfl
  same s t h := by
    obtain ⟨⟨h1, h2, h3, hfw, h4⟩, h⟩ := h
    exact ⟨⟨h1, h2, h3, congrArg f hfw, h4⟩, h⟩
  closed _ _ _ _ _ := rfl

theorem beside_updRing (k die n : Nat) (f : Ring → Ring) : Beside (State.updRing · k die n f) := by
  unfold State.updRing State.updTask
  exact beside_updFw _

/-- A change of the core's lend. -/
def CoreState.updLend (f : Lend → Lend) (x : CoreState) : CoreState := { x with lend := f x.lend }

theorem updMe_updLend (s : State) (f : Lend → Lend) (g : Ctx → Ctx) :
    (s.updMyCore (CoreState.updLend f)).updMe g = (s.updMe g).updMyCore (CoreState.updLend f) := by
  simp only [State.updMe, State.updMyCore, State.updCtx, State.updCore, State.ctx, State.setCore_cur, State.core_setCore,
    State.setCore_setCore]
  rfl

theorem updMyCore_updLend (s : State) (f : Lend → Lend) (g : CoreState → CoreState)
    (h : ∀ x, g (x.updLend f) = (g x).updLend f) :
    (s.updMyCore (CoreState.updLend f)).updMyCore g = (s.updMyCore g).updMyCore (CoreState.updLend f) := by
  simp only [State.updMyCore, State.updCore, State.setCore_cur, State.core_setCore, State.setCore_setCore, h]

theorem beside_updLend (f : Lend → Lend) : Beside (State.updMyCore · (CoreState.updLend f)) where
  me s := State.me_updMyCore s _
  issueBuf s := by simp [CoreState.updLend]
  same s t h := by
    obtain ⟨⟨h1, h2, h3, h4, h5, h6, h7, h8, h9, hcur, h10, h11, hcore, hcl⟩, hid, hctx, hmine⟩ := h
    refine ⟨⟨h1, h2, h3, h4, h5, h6, h7, h8, h9, hcur, h10, h11, fun c hc => ?_, hcl⟩, hid, fun k hk => ?_, ?_⟩
    · rw [State.core_updMyCore_other t _ (by rw [hcur]; exact hc), State.core_updMyCore_other s _ hc, hcore c hc]
    · have ht : (t.updMyCore (CoreState.updLend f)).core s.cur.core = (t.core s.cur.core).updLend f := by
        rw [← hcur]; exact State.myCore_updMyCore t _
      have hs : (s.updMyCore (CoreState.updLend f)).core s.cur.core = s.myCore.updLend f := State.myCore_updMyCore s _
      simp only [State.ctx, State.updMyCore_cur, ht, hs]
      exact hctx k hk
    · simp only [State.myCore_updMyCore]
      exact congrArg (CoreState.updLend f) hmine
  closed s i m o L := by
    simp only [State.closed, updMe_updLend]
    rw [updMyCore_updLend]
    · rfl
    · exact fun _ => rfl

/-! ### A retirement that stores in special registers -/

/-- Storing in the control and trap registers of a context. -/
def Ctx.storing (kc : Csrs → Csrs) (kt : TrapRegs → TrapRegs) (c : Ctx) : Ctx := { c with csr := kc c.csr, tr := kt c.tr }

/-- A scalar result changes queues and registers only. -/
theorem resultS_eq (c : Ctx) (w : Bool) (d : DReg) (v : SVal) :
    c.resultS w d v = { c with q := (c.resultS w d v).q, files := (c.resultS w d v).files } := by
  unfold Ctx.resultS Ctx.pushS
  cases w
  · simp only [Bool.false_eq_true, if_false]; split <;> rfl
  · simp only [if_true]; cases d <;> simp only [Ctx.writeS] <;> split <;> rfl

theorem Ctx.begin_task (c : Ctx) (w : Word) : (c.begin w).task = c.task := by unfold Ctx.begin; split <;> rfl

/-- A light op that delivers a scalar result and stores in the special registers of its context. -/
theorem issueOne_stored (s : State) (i : Instr) (m : Sem) (o : Out) (kc : Csrs → Csrs) (kt : TrapRegs → TrapRegs) (w : Bool)
    (d : DReg) (v : SVal) (h : Instr.plain i) (hl : Instr.light i) (hr : s.Ready i) (hp : s.Passes i m o)
    (hg : o.local (fun c => (c.resultS w d v).storing kc kt) none) (hd : (m.draw s).2 = s.me.csr.rngseed) :
    ∃ t, issueOne m i s = .next t ∧ ScalarDoneAs s (s.me.storing kc kt) t i w d v (orFlags o.flags) := by
  obtain ⟨t, ht, hse, r, il, nl, hme⟩ := issueOne_local s i m o _ none h hr hp hg
  have hst : standStep (s.lone i (m.draw s).1) s.me.standing = s.me.standing := standStep_plain _ _ hl.1 hl.2.2.1 hl.2.2.2
  have hor : orFlags [(0, orFlags o.flags)] = orFlags o.flags := by simp [orFlags]
  have hcsr : (s.me.begin (m.draw s).2).csr = s.me.csr := by rw [Ctx.begin_csr, hd]
  simp only [Ctx.storing, Ctx.resultS_standing, Ctx.resultS_csr, Ctx.resultS_tr, Ctx.resultS_window, Ctx.resultS_dbg,
    Ctx.begin_standing, Ctx.begin_window, Ctx.begin_tr, Ctx.begin_dbg, hst, hor, hcsr] at hme
  refine ⟨t, ht, ⟨hse, ?_, ?_, ?_, ?_, ?_⟩, ?_, ?_, ?_⟩
  · unfold Ctx.Retired
    rw [hme, resultS_eq]
    unfold Ctx.begin Ctx.storing
    split <;> rfl
  · rw [hme]; rfl
  · rw [hme]; rfl
  · rw [hme]; rfl
  · rw [hme]; rfl
  · rw [hme]; rfl
  · refine scalarPushed_of s t (s.me.begin (m.draw s).2) v (by simp) (by simp) ?_
    rw [hme]; exact resultS_q _ _ _ _
  · refine scalarWritten_of s t (s.me.begin (m.draw s).2) w d v (by simp) ?_
    rw [hme]; exact resultS_files _ _ _ _

/-- An op that changes its context by `g` and, beside it, the package by `U`, leaves what an op with the one change leaves,
changed by `U`. -/
theorem issueOne_beside (s : State) (i : Instr) (m : Sem) (o : Out) (g : Ctx → Ctx) {U : State → State} (hU : Beside U)
    (h : Instr.plain i) (hr : s.Ready i) (hp : s.Passes i m o)
    (ho : o.eff { s := s.opened m } = { s := U ((s.opened m).updMe g) }) {P : State → Prop}
    (hP : ∀ m' o', s.Passes i m' o' → o'.local g none → o'.flags = o.flags → m'.draw s = m.draw s →
      ∃ t, issueOne m' i s = .next t ∧ P t) : ∃ t, issueOne m i s = .next (U t) ∧ P t := by
  have hp' : s.Passes i { m with run := fun _ _ => { o with eff := Live.me g } } { o with eff := Live.me g } :=
    { hp with run := rfl }
  have hl : Out.local { o with eff := Live.me g } g none := fun L hn => by simp [Live.me, ← hn]
  obtain ⟨t, ht, hPt⟩ := hP _ _ hp' hl rfl rfl
  have hempty : s.myCore.issueBuf = none := by
    obtain ⟨-, -, -, -, -, -, -, -, hempty⟩ := hr
    exact hempty
  have hbuf : (s.closed i m o { s := (s.opened m).updMe g }).myCore.issueBuf = none := by
    simp [State.closed, State.opened, hempty]
  have ht' : s.closed i m o { s := (s.opened m).updMe g } = t := by
    rw [issueOne_next s i _ _ h hr hp'] at ht
    exact (leaveBuf_none _ hbuf).symm.trans (Host.Outcome.next.inj ht)
  refine ⟨t, ?_, hPt⟩
  rw [issueOne_next s i m o h hr hp, ho, hU.closed s i m o { s := (s.opened m).updMe g },
    leaveBuf_none _ ((hU.issueBuf _).trans hbuf), ht']

/-- A result is delivered where a change beside the context was made too. -/
theorem ScalarDoneAs.beside {s t : State} {c : Ctx} {i : Instr} {w : Bool} {d : DReg} {v : SVal} {fl : Flags} {U : State → State}
    (hU : Beside U) (h : ScalarDoneAs s c t i w d v fl) : ScalarDoneAs (U s) c (U t) i w d v fl := by
  unfold ScalarDoneAs StepsAs StepsTo ScalarPushed ScalarWritten at *
  rw [hU.me, hU.me]
  obtain ⟨⟨hse, hst⟩, hres⟩ := h
  exact ⟨⟨hU.same s t hse, hst⟩, hres⟩

end Sys2Proof.Machine
end

