-- ==== Sys2Proof/Proofs/CsrWrites.lean ====
section
/-! PROOFS. What CSRW, CSRS and CSRC store (R22, R41, R193-R195, R294, R351) and what privilege refuses (R182). -/

namespace Sys2Proof.Machine

open Sys2Proof.Claim

/-! ### The three writes (R195) -/

theorem w1c_eq (k : CsrOp) (b v : Bool) : k.w1c b v = (b && !(k != .clear && v)) := by
  cases k <;> cases b <;> cases v <;> rfl

/-- A write of a register of the context stores in the special registers of the context what the spec says. -/
theorem csrWrite_stored {n : Nat} (hn : n ∈ userCsrs ∨ n ∈ trapCsrs) (k : CsrOp) (x v : Word) :
    ∃ kc kt, (∀ s : State, s.csrWrite k n x v = s.updMe (Ctx.storing kc kt)) ∧
      ∀ c, csrStored n x v (k != .clear) c = c.storing kc kt := by
  simp only [userCsrs, trapCsrs, List.mem_cons, List.not_mem_nil, or_false] at hn
  rcases hn with (rfl | rfl | rfl | rfl) | rfl | rfl | rfl | rfl | rfl | rfl | rfl | rfl
  · exact ⟨fun r => { r with fpctl := fpctlStore x }, id, fun _ => rfl, fun _ => rfl⟩
  · exact ⟨fun r => { r with fpstat := x.setWidth 7 }, id, fun _ => rfl, fun _ => rfl⟩
  · exact ⟨fun r => { r with rngseed := x }, id, fun _ => rfl, fun _ => rfl⟩
  · refine ⟨fun r => { r with discard := k.w1c r.discard (bitAt 0 v) }, id, fun _ => rfl, fun c => ?_⟩
    simp only [csrStored, Ctx.storing, w1c_eq]; rfl
  · exact ⟨id, fun r => { r with cause := x.setWidth 7 }, fun _ => rfl, fun _ => rfl⟩
  · exact ⟨id, fun r => { r with pc := alignPc (x.setWidth 16) }, fun _ => rfl, fun _ => rfl⟩
  · exact ⟨id, fun r => { r with slot := x.setWidth 5 }, fun _ => rfl, fun _ => rfl⟩
  · exact ⟨id, fun r => { r with info0 := x }, fun _ => rfl, fun _ => rfl⟩
  · exact ⟨id, fun r => { r with info1 := x }, fun _ => rfl, fun _ => rfl⟩
  · exact ⟨id, fun r => { r with vec := alignPc (x.setWidth 16), noh := bitAt 0 x }, fun _ => rfl, fun _ => rfl⟩
  · exact ⟨id, fun r => { r with epc := alignPc (x.setWidth 16) }, fun _ => rfl, fun _ => rfl⟩
  · refine ⟨id, fun r => { r with wake := bitAt 1 x, dt := k.w1c r.dt (bitAt 4 v) }, fun _ => rfl, fun c => ?_⟩
    simp only [csrStored, Ctx.storing, w1c_eq]; rfl

/-- What the three writes have in common: each is the model's write by one of its three ways. -/
theorem csrWrites_cases {p : (SysF → Instr) × (Word → Word → Word) × Bool} (hp : p ∈ csrWrites) :
    ∃ k : CsrOp, p.2.1 = k.value ∧ p.2.2 = (k != .clear) ∧ ∀ f,
      (∀ s, exec (p.1 f) s = issueOne (semCsrWrite f (p.1 f) k) (p.1 f) s) ∧
      Instr.plain (p.1 f) ∧ Instr.light (p.1 f) ∧ wordsOf (p.1 f) = 1 := by
  simp only [csrWrites, List.mem_cons, List.not_mem_nil, or_false] at hp
  rcases hp with rfl | rfl | rfl
  · exact ⟨.write, rfl, rfl, fun f => ⟨fun _ => rfl, plain_of rfl, ⟨rfl, rfl, rfl, rfl⟩, rfl⟩⟩
  · exact ⟨.set, rfl, rfl, fun f => ⟨fun _ => rfl, plain_of rfl, ⟨rfl, rfl, rfl, rfl⟩, rfl⟩⟩
  · exact ⟨.clear, rfl, rfl, fun f => ⟨fun _ => rfl, plain_of rfl, ⟨rfl, rfl, rfl, rfl⟩, rfl⟩⟩

/-- The writable fields of LENDCFG (R294). -/
theorem lendOf_eq (x : Word) (l : LendCfg) :
    lendOf x l = { l with
      auto := x.getLsbD 25, keep := x.getLsbD 24, share := (x.extractLsb' 16 7).toNat,
      count := (x.extractLsb' 8 8).toNat, start := (x.extractLsb' 0 7).toNat } := by
  simp [lendOf, bitAt, bitsOf, Nat.shiftRight_eq_div_pow]

/-- A write of RINGPTR moves the ring's HEAD (R351). -/
theorem csrWrite_ring {n : Nat} (h : 0x214 ≤ n) (h' : n ≤ 0x217) (s : State) (k : CsrOp) (x v : Word) {t : Nat}
    (ht : s.me.task = some t) : s.csrWrite k n x v =
      s.updRing t (dieOf s.cur.core) (n % 4) (fun r => { r with head := x.toNat % 2 ^ 32 }) := by
  obtain rfl | rfl | rfl | rfl : n = 0x214 ∨ n = 0x215 ∨ n = 0x216 ∨ n = 0x217 := by omega
  all_goals simp [State.csrWrite, ht]

/-! ### What a write is checked for -/

theorem csrPrivilege_user {n : Nat} (s : State) (h : n ∈ userCsrs) : csrPrivilege true n s = none := by
  simp only [userCsrs, List.mem_cons, List.not_mem_nil, or_false] at h
  rcases h with rfl | rfl | rfl | rfl <;> rfl

theorem csrAccess_trapCsrs : ∀ n ∈ trapCsrs, csrAccess n = some .rwh := by decide
theorem csrAccess_roCsrs : ∀ n ∈ roCsrs, csrAccess n = some .ro := by decide

theorem csrPrivilege_handler {n : Nat} (s : State) (h : n ∈ trapCsrs) :
    csrPrivilege true n s = if s.me.tr.hm then none else some ⟨0x52, wd n, 0⟩ := by
  unfold csrPrivilege
  rw [csrAccess_trapCsrs n h]
  cases s.me.tr.hm <;> rfl

theorem csrPrivilege_readOnly {n : Nat} (s : State) (h : n ∈ roCsrs) : csrPrivilege true n s = some ⟨0x52, wd n, 0⟩ := by
  unfold csrPrivilege
  rw [csrAccess_roCsrs n h]
  rfl

theorem csrPrivilege_lend (s : State) :
    csrPrivilege true 0x020 s = if isEddy s.cur.ctx then some ⟨0x52, wd 0x020, 0⟩ else none := by
  unfold csrPrivilege
  cases isEddy s.cur.ctx <;> rfl

theorem csrPrivilege_ring {n : Nat} (h : 0x214 ≤ n) (h' : n ≤ 0x217) (s : State) : csrPrivilege true n s = none := by
  obtain rfl | rfl | rfl | rfl : n = 0x214 ∨ n = 0x215 ∨ n = 0x216 ∨ n = 0x217 := by omega
  all_goals rfl

/-- A register of the context takes any value. -/
theorem csrValue_none {n : Nat} (x : Word) (s : State) (h : n ∈ userCsrs ∨ n ∈ trapCsrs) : csrValue n x s = none := by
  have hn : n ≠ 0x020 ∧ n < 0x214 := by
    simp only [userCsrs, trapCsrs, List.mem_cons, List.not_mem_nil, or_false] at h
    omega
  unfold csrValue
  rw [if_neg (fun hx => hn.1 hx.1), if_neg (by omega)]

/-! ### Writes -/

theorem csrWrite_trap (f : SysF) (i : Instr) (k : CsrOp) (s : State) (a : At) :
    ((semCsrWrite f i k).run s a).trap = firstTrap [csrPrivilege true f.csr.toNat s,
      if s.active f.g then csrValue f.csr.toNat (k.value (s.csr f.csr.toNat) (csrOpd f s)) s else none] := rfl

theorem csrWrite_eff_off {f : SysF} {s : State} (h : s.active f.g = false) (i : Instr) (k : CsrOp) (a : At) :
    ((semCsrWrite f i k).run s a).eff = Live.me (fun c => c.resultS f.w f.d (offA s f.a)) := by
  simp only [semCsrWrite, h, Bool.false_eq_true, if_false]
  rfl

theorem csrWrite_eff_on {f : SysF} {s : State} (h : s.active f.g = true) (i : Instr) (k : CsrOp) (a : At) :
    ((semCsrWrite f i k).run s a).eff = Live.st (fun l =>
      (l.updMe (fun c => c.resultS f.w f.d { v := s.csr f.csr.toNat, tag := .int64 })).csrWrite k f.csr.toNat
        (k.value (s.csr f.csr.toNat) (csrOpd f s)) (csrOpd f s)) := by
  simp only [semCsrWrite, h, if_true]
  rfl

/-- A write that neither its register nor its value refuses passes every check. -/
theorem csrWrite_passes {s : State} {i : Instr} {f : SysF} {k : CsrOp} (hl : Instr.light i)
    (hpriv : csrPrivilege true f.csr.toNat s = none)
    (hval : s.active f.g = true → csrValue f.csr.toNat (k.value (s.csr f.csr.toNat) (csrOpd f s)) s = none) :
    s.Passes i (semCsrWrite f i k) ((semCsrWrite f i k).run s (s.lone i ((semCsrWrite f i k).draw s).1)) := by
  refine passes_light s i _ _ hl rfl rfl (fun _ => ⟨rfl, rfl⟩) rfl rfl ?_ rfl (Or.inr (flagTrap_nil _))
  rw [csrWrite_trap, hpriv]
  cases ha : s.active f.g with
  | false => rfl
  | true => rw [hval ha]; rfl

section
variable {s : State} {i : Instr} {f : SysF} {k : CsrOp} (h : Instr.plain i) (hl : Instr.light i) (hr : s.Ready i)
include h hl hr

/-- A write that its register's privilege refuses enters the handler (R182). -/
theorem csrWrite_refused {x : TrapInfo} (hh : Handles s) (hpriv : csrPrivilege true f.csr.toNat s = some x) (hx : x.cause = 0x52) :
    ∃ t, issueOne (semCsrWrite f i k) i s = .next t ∧ Entered s t 0x52 0 x.info0 x.info1 (wordsOf i) := by
  have hj := judge_own (m := semCsrWrite f i k) (x := x) h hl hr rfl rfl (fun _ => rfl) rfl (by
    simp only [csrWrite_trap, firstTrap, hpriv, List.findSome?_cons, id_eq])
  obtain ⟨hc, -, -, -, -, -, -, -, hb⟩ := hr
  rw [hx] at hj
  exact issueOne_traps s i _ _ ⟨hc, hh, hb⟩ hj rfl (show (0x52 : Nat) ≠ 0x50 by decide)

variable (hpriv : csrPrivilege true f.csr.toNat s = none)
include hpriv

/-- A write guarded off pushes A. -/
theorem csrWrite_off (ha : s.active f.g = false) :
    ∃ t, issueOne (semCsrWrite f i k) i s = .next t ∧ ScalarDone s t i f.w f.d (offA s f.a) 0 :=
  issueOne_scalar s i _ _ f.w f.d (offA s f.a) h hl hr
    (csrWrite_passes hl hpriv (fun hx => absurd (ha.symm.trans hx) Bool.false_ne_true))
    (fun L hL => by simp [csrWrite_eff_off ha, Live.me, ← hL]) rfl

/-- An active write pushes the old value; its store in the context is `kc` and `kt`, its store beside it is `U`. -/
theorem csrWrite_on (ha : s.active f.g = true)
    (hval : csrValue f.csr.toNat (k.value (s.csr f.csr.toNat) (csrOpd f s)) s = none) {kc : Csrs → Csrs}
    {kt : TrapRegs → TrapRegs} {U : State → State} (hU : Beside U)
    (hw : ∀ g : Ctx → Ctx, (∀ c, (g c).task = c.task) →
      (s.updMe g).csrWrite k f.csr.toNat (k.value (s.csr f.csr.toNat) (csrOpd f s)) (csrOpd f s) =
        U (s.updMe (fun c => (g c).storing kc kt))) :
    ∃ t, issueOne (semCsrWrite f i k) i s = .next t ∧
      ScalarDoneAs (U s) (s.me.storing kc kt) t i f.w f.d { v := s.csr f.csr.toNat, tag := .int64 } 0 := by
  have ho := csrWrite_eff_on ha i k (s.lone i ((semCsrWrite f i k).draw s).1)
  obtain ⟨t, ht, hdone⟩ := issueOne_beside s i (semCsrWrite f i k) _
    (fun c => (c.resultS f.w f.d { v := s.csr f.csr.toNat, tag := .int64 }).storing kc kt) hU h hr
    (csrWrite_passes hl hpriv (fun _ => hval))
    (by
      rw [ho, Live.st, State.opened, State.updMe_updMe, State.updMe_updMe, hw _ (fun c => by rw [Ctx.resultS_task, Ctx.begin_task])])
    (P := fun t => ScalarDoneAs s (s.me.storing kc kt) t i f.w f.d { v := s.csr f.csr.toNat, tag := .int64 } 0)
    (fun m' o' hp hg hfl hd => by
      have := issueOne_stored s i m' o' kc kt f.w f.d _ h hl hr hp hg (by rw [hd]; rfl)
      rw [hfl] at this
      exact this)
  exact ⟨U t, ht, ScalarDoneAs.beside hU hdone⟩
end

/-! ### The obligation -/

theorem csrWrites_holds : CsrWrites := by
  intro p hp f s hr hn
  obtain ⟨k, hval, hone, hf⟩ := csrWrites_cases hp
  obtain ⟨hexec, hplain, hlight, -⟩ := hf f
  have hpriv : csrPrivilege true f.csr.toNat s = none := by
    rcases hn with hn | ⟨hn, hm⟩
    · exact csrPrivilege_user s hn
    · rw [csrPrivilege_handler s hn, hm]; rfl
  replace hn : f.csr.toNat ∈ userCsrs ∨ f.csr.toNat ∈ trapCsrs := hn.imp id And.left
  rw [hexec, hval, hone]
  cases ha : s.active f.g with
  | false => exact csrWrite_off hplain hlight hr hpriv ha
  | true =>
    obtain ⟨kc, kt, hw, hstored⟩ := csrWrite_stored hn k (k.value (s.csr f.csr.toNat) (csrOpd f s)) (csrOpd f s)
    rw [hstored]
    exact csrWrite_on hplain hlight hr hpriv ha (csrValue_none _ s hn) beside_id (fun g _ => by
      rw [hw, State.updMe_updMe]; rfl)

theorem lendAndRingWrites : LendAndRingWrites := by
  intro p hp f s hr ha
  obtain ⟨k, hval, -, hf⟩ := csrWrites_cases hp
  obtain ⟨hexec, hplain, hlight, -⟩ := hf f
  simp only [hval]
  rw [hexec]
  refine ⟨fun hn howner hlend => ?_, fun hlo hhi t r ht hring hused => ?_⟩
  · have hn' : f.csr.toNat = 0x020 := congrArg BitVec.toNat hn
    have h := csrWrite_on (k := k) hplain hlight hr (by rw [hn', csrPrivilege_lend, isEddy, howner]; rfl) ha
      (by rw [hn', csrValue, hlend]; rfl) (kc := id) (kt := id)
      (beside_updLend (fun l => { l with cfg := lendOf (k.value (s.csr f.csr.toNat) (csrOpd f s)) l.cfg }))
      (fun g _ => by rw [hn']; rfl)
    simp only [lendOf_eq] at h
    exact h
  · refine csrWrite_on hplain hlight hr (csrPrivilege_ring hlo hhi s) ha ?_ (kc := id) (kt := id)
      (beside_updRing t (dieOf s.cur.core) (f.csr.toNat % 4) _) (fun g hg => ?_)
    · rw [csrValue, if_neg (by omega), if_pos ⟨hlo, hhi⟩, hring]
      exact if_neg (Nat.not_lt.mpr hused)
    · exact csrWrite_ring hlo hhi _ k _ _ ((congrArg Ctx.task (State.me_updMe s g)).trans ((hg _).trans ht))

theorem csrPrivilege_traps : CsrPrivilege := by
  intro p hp f s hr hh hn
  obtain ⟨k, -, -, hf⟩ := csrWrites_cases hp
  obtain ⟨hexec, hplain, hlight, hwords⟩ := hf f
  have hpriv : csrPrivilege true f.csr.toNat s = some ⟨0x52, wd f.csr.toNat, 0⟩ := by
    rcases hn with hn | hn | ⟨hn, heddy⟩
    · exact csrPrivilege_readOnly s hn
    · rw [csrPrivilege_handler s hn, hh.1]; rfl
    · rw [hn, show (0x020#12).toNat = 0x020 from rfl, csrPrivilege_lend, isEddy, bne_iff_ne.mpr heddy]; rfl
  have hnum : wd f.csr.toNat = f.csr.setWidth 64 := (BitVec.ofNat_toNat 64 f.csr)
  rw [hexec, ← hnum, ← hwords]
  exact csrWrite_refused hplain hlight hr hh hpriv rfl

/-- Settles O20: a write stores in its context or beside it, and the check on the register is the first of group 2. -/
theorem csrAccess_holds : Obligations.CsrAccess := ⟨csrWrites_holds, lendAndRingWrites, csrPrivilege_traps⟩

end Sys2Proof.Machine
end

