-- ==== Sys2Proof/Proofs/FlagTraps.lean ====
section
/-! PROOFS. Ops whose only own check is that of their flags: the flags of their lanes, and the trap of the lowest enabled flag
raised (R17, R42, R193). -/

namespace Sys2Proof.Machine

open Sys2Proof.Claim

/-! ### The flags of a list of lanes -/

theorem zipIdx_range (n : Nat) : (List.range n).zipIdx = (List.range n).map (fun k => (k, k)) :=
  List.ext_getElem (by simp) (by simp)

theorem zipIdx_map_range (n : Nat) (f : Nat → α) : ((List.range n).map f).zipIdx = (List.range n).map (fun k => (f k, k)) := by
  rw [List.zipIdx_map, zipIdx_range, List.map_map]; rfl

theorem orFlags_getLsbD (l : LaneFlags) (b : Nat) : (orFlags l).getLsbD b = true ↔ ∃ p ∈ l, p.2.getLsbD b = true := by
  have key : ∀ x : Flags, (l.foldl (fun a p => a ||| p.2) x).getLsbD b = true ↔
      x.getLsbD b = true ∨ ∃ p ∈ l, p.2.getLsbD b = true := by
    induction l with
    | nil => simp
    | cons p l ih => intro x; simp [ih, BitVec.getLsbD_or, or_assoc]
  simpa [orFlags] using key 0

theorem flags_ne_zero {x : Flags} {b : Nat} (h : x.getLsbD b = true) : x ≠ 0#7 := by
  rintro rfl; simp at h

/-- The flags of lanes listed by number: the active lanes that raise any, in lane order. -/
theorem laneFlags_range (n : Nat) (m : Nat → Bool) (r : Nat → FRes) :
    laneFlags ((List.range n).map m) ((List.range n).map r) =
      (List.range n).filterMap (fun k => if m k && (r k).2 != 0 then some (k, (r k).2) else none) := by
  unfold laneFlags
  rw [List.zip_map', zipIdx_map_range, List.filterMap_map]
  rfl

/-- Lanes that raise nothing list no flag. -/
theorem laneFlags_silent (n : Nat) (m : Nat → Bool) (r : Nat → FRes) (h : ∀ k, (r k).2 = 0) :
    laneFlags ((List.range n).map m) ((List.range n).map r) = [] := by
  rw [laneFlags_range]; simp [h]

theorem flagsOf_laneFlags (s : State) (g : Guard) (n : Nat) (r : Nat → FRes) :
    FlagsOf s g n (fun k => (r k).2) (orFlags (laneFlags (s.laneMask g n) ((List.range n).map r))) := by
  intro b
  rw [orFlags_getLsbD, State.laneMask, laneFlags_range]
  constructor
  · rintro ⟨p, hp, hb⟩
    obtain ⟨k, hk, hp⟩ := List.mem_filterMap.mp hp
    split at hp
    · rename_i hc
      cases hp
      exact ⟨k, List.mem_range.mp hk, (Bool.and_eq_true _ _ ▸ hc).1, hb⟩
    · cases hp
  · rintro ⟨k, hk, hg, hb⟩
    have hne := flags_ne_zero hb
    exact ⟨(k, (r k).2), List.mem_filterMap.mpr ⟨k, List.mem_range.mpr hk, by simp [hg, hne]⟩, hb⟩

/-- The lane that is reported for a flag: the lowest that raised it (R193). -/
theorem firstRaised_lanes {n b k : Nat} {m : Nat → Bool} {r : Nat → FRes} (hk : k < n) (hm : m k = true)
    (hb : (r k).2.getLsbD b = true) (hlow : ∀ j < k, m j = true → (r j).2.getLsbD b = false) :
    firstRaised b [(0, laneFlags ((List.range n).map m) ((List.range n).map r))] = some (0, k) := by
  have hne := flags_ne_zero hb
  have hfind : (List.range n).find? (fun a =>
      (if m a && (r a).2 != 0 then some (a, (r a).2) else none).any (fun p : Nat × Flags => p.2.getLsbD b)) = some k := by
    rw [List.find?_range_eq_some]
    refine ⟨by simp [hm, hne, hb], List.mem_range.mpr hk, fun j hj => ?_⟩
    cases hmj : m j
    · simp
    · have := hlow j hj hmj; split <;> simp [this]
  unfold firstRaised
  rw [laneFlags_range, List.find?_filterMap, hfind]
  simp [hm, hne]

/-! ### The choice of the trap -/

/-- The first index whose element a search finds decides it. -/
theorem findSome?_of_getElem? {l : List α} {f : α → Option β} {c : Nat} {x : α} {b : β} (hx : l[c]? = some x) (hb : f x = some b)
    (hskip : ∀ d < c, ∀ y, l[d]? = some y → f y = none) : l.findSome? f = some b := by
  induction l generalizing c with
  | nil => simp at hx
  | cons y l ih =>
    cases c with
    | zero => cases hx; rw [List.findSome?_cons, hb]
    | succ c =>
      rw [List.findSome?_cons, hskip 0 (by omega) y rfl]
      exact ih hx (fun d hd z hz => hskip (d + 1) (by omega) z hz)

/-- The model's order of the flags is that of R42: causes ascend from 0x10. -/
theorem flagCauses_getElem? (c : Nat) : flagCauses[c]? = flagTable[c]?.map (fun e => (e.1, e.2, 0x10 + c)) := by
  rw [show flagCauses = flagTable.zipIdx.map (fun p => (p.1.1, p.1.2, 0x10 + p.2)) from rfl, List.getElem?_map,
    List.getElem?_zipIdx, Option.map_map, Nat.zero_add]
  rfl

theorem orFlags_lone (l : LaneFlags) : orFlags [(0, orFlags l)] = orFlags l := by simp [orFlags]

/-- The trap of an op that stands alone: that of the lowest enabled flag its active lanes raise, at the lowest of those lanes. -/
theorem flagTrap_lanes {s : State} {g : Guard} {n : Nat} {r : Nat → FRes} {c k : Nat} {e : Nat × Nat}
    (he : flagTable[c]? = some e) (hen : s.me.csr.fpctl.getLsbD e.2 = true)
    (hk : k < n) (hg : s.me.guardBit g k = true) (hb : (r k).2.getLsbD e.1 = true)
    (hlow : ∀ j < k, s.me.guardBit g j = true → (r j).2.getLsbD e.1 = false)
    (hfirst : ∀ d < c, ∀ e', flagTable[d]? = some e' → s.me.csr.fpctl.getLsbD e'.2 = true →
      ∀ j < n, s.me.guardBit g j = true → (r j).2.getLsbD e'.1 = false) :
    flagTrap s.me.csr.fpctl [(0, laneFlags (s.laneMask g n) ((List.range n).map r))] =
      some { kind := .P, cause := 0x10 + c, slot := 0, info0 := wd k,
             info1 := (orFlags (laneFlags (s.laneMask g n) ((List.range n).map r))).setWidth 64 } := by
  have hof := flagsOf_laneFlags s g n r
  unfold flagTrap
  simp only [List.map_cons, List.map_nil, orFlags_lone]
  refine findSome?_of_getElem? (c := c) (by rw [flagCauses_getElem?, he]; rfl) ?found (fun d hd y hy => ?earlier)
  case found =>
    have hraised := (hof e.1).mpr ⟨k, hk, hg, hb⟩
    simp only [hraised, hen, Bool.and_self, if_true]
    rw [State.laneMask, firstRaised_lanes hk hg hb hlow]
  case earlier =>
    rw [flagCauses_getElem?] at hy
    obtain ⟨e', he', rfl⟩ := Option.map_eq_some_iff.mp hy
    rw [if_neg]
    rw [Bool.and_eq_true, hof e'.1]
    rintro ⟨⟨j, hj, hgj, hbj⟩, hen'⟩
    rw [hfirst d hd e' he' hen' j hj hgj] at hbj
    cases hbj

/-- Where no flag traps, none does. -/
theorem flagTrap_of_noFlagTraps {s : State} (h : NoFlagTraps s) (l : List (Nat × LaneFlags)) :
    s.me.tr.hm = true ∨ flagTrap s.me.csr.fpctl l = none :=
  h.imp_right (fun hx => flagTrap_disabled _ _ hx)

/-! ### Ops whose only own check is that of their flags -/

/-- The op names no slot, waits for nothing, asks for no NI request, touches no memory and has no trap of group 2; its tags
pass. -/
structure Sem.OnlyFlags (m : Sem) (s : State) : Prop where
  tags : m.tags s = none
  slots : m.slots s = [] := by rfl
  stall : ∀ a, m.stall s a = false ∧ m.waits s a = false := by exact fun _ => ⟨rfl, rfl⟩
  ni : m.ni s = 0 := by rfl
  trap : ∀ a, (m.run s a).trap = none := by exact fun _ => rfl
  accs : ∀ a, (m.run s a).accs = [] := by exact fun _ => rfl

/-- What the model runs of an op that stands alone. -/
abbrev Sem.out (m : Sem) (s : State) (i : Instr) : Out := m.run s (s.lone i (m.draw s).1)

theorem Sem.OnlyFlags.passes {m : Sem} {s : State} {i : Instr} (h : m.OnlyFlags s) (hl : Instr.light i)
    (hf : s.me.tr.hm = true ∨ flagTrap s.me.csr.fpctl [(0, (m.out s i).flags)] = none) : s.Passes i m (m.out s i) :=
  passes_light s i m _ hl h.tags h.slots h.stall h.ni rfl (h.trap _) (h.accs _) hf

/-- An op that may issue and whose flags trap does so by group 4 of R452. -/
theorem Sem.OnlyFlags.judge {m : Sem} {s : State} {i : Instr} {x : Trap} (h : m.OnlyFlags s) (hp : Instr.plain i)
    (hl : Instr.light i) (hr : s.Ready i) (hm : s.me.tr.hm = false)
    (hx : flagTrap s.me.csr.fpctl [(0, (m.out s i).flags)] = some x) :
    s.judge (s.lay (fun _ => m) (s.single i)) none = .trap x := by
  obtain ⟨-, hw, hc, hop, hwt, hib, hed, -, -⟩ := hr
  have hmem : s.memTrap [(s.lone i (m.draw s).1, m.out s i)] = none := by simp [State.memTrap, h.accs]
  have hexec : s.execTrap [s.lone i (m.draw s).1] [(s.lone i (m.draw s).1, m.out s i)] = some x := by
    unfold State.execTrap
    rw [tokenReuse_light _ _ hl]
    simp only [List.findSome?_cons, h.trap, Option.map_none, List.findSome?_nil, hmem, hm, Bool.false_eq_true, if_false]
    exact hx
  rw [lay_lone s i m hp]
  unfold State.judge
  simp only [replays_lone, rows15_lone s i hp hw hc, orderWaits_lone, List.findSome?_cons, List.findSome?_nil, row6_lone s i _ hop,
    List.any_cons, List.any_nil, h.slots, Bool.or_self, row7_slotless h.slots h.tags, rows89_lone s i hwt,
    windowFull_lone s i hwt, List.map_cons, List.map_nil, List.sum_cons, List.sum_nil, Nat.add_zero, h.ni,
    denies_lone s.me _ hib (Or.inr (Nat.zero_le _)), hed, tokenWaits_light s.me (s.lone i (m.draw s).1) hl, (h.stall _).1,
    engineFault_light s.me (s.lone i (m.draw s).1) hl, State.outs, hexec, if_false, Bool.false_eq_true]

theorem State.canTrap_of_ready {s : State} {i : Instr} (hr : s.Ready i) (hh : Handles s) : CanTrap s := by
  obtain ⟨hcore, -, -, -, -, -, -, -, hbuf⟩ := hr
  exact ⟨hcore, hh, hbuf⟩

/-- No flag's trap is a BRK. -/
theorem flagTrap_kind {x : BitVec 12} {l : List (Nat × LaneFlags)} {t : Trap} (h : flagTrap x l = some t) :
    t.kind = .P ∧ t.cause ≠ 0x50 := by
  unfold flagTrap at h
  obtain ⟨f, hf, h⟩ := List.exists_of_findSome?_eq_some h
  split at h
  · split at h
    · cases h
      refine ⟨rfl, ?_⟩
      simp only [flagCauses, List.mem_cons, List.not_mem_nil, or_false] at hf
      rcases hf with rfl | rfl | rfl | rfl | rfl | rfl | rfl <;> simp
    · cases h
  · cases h

/-- An op that stands alone in one word, produces no token and carries no standing weight. -/
structure Instr.Single (i : Instr) : Prop where
  plain : Instr.isPlain i = true
  light : Instr.light i
  words : wordsOf i = 1

/-- An op whose flags trap enters the handler with the trap. -/
theorem Sem.OnlyFlags.enters {m : Sem} {s : State} {i : Instr} {x : Trap} (h : m.OnlyFlags s) (hi : Instr.Single i)
    (hr : s.Ready i) (hh : Handles s) (hx : flagTrap s.me.csr.fpctl [(0, (m.out s i).flags)] = some x) :
    ∃ t, issueOne m i s = .next t ∧ Entered s t x.cause x.slot x.info0 x.info1 1 := by
  obtain ⟨hk, hb⟩ := flagTrap_kind hx
  rw [← hi.words]
  exact issueOne_traps s i m x (State.canTrap_of_ready hr hh) (h.judge (plain_of hi.plain) hi.light hr hh.1 hx) hk hb

/-- An op whose flags are those of its lanes traps as R42 and R193 say. -/
theorem Sem.OnlyFlags.flagsTrap {m : Sem} {s : State} {i : Instr} {g : Guard} {n : Nat} {r : Nat → FRes}
    (hexec : exec i s = issueOne m i s) (h : m.OnlyFlags s) (hi : Instr.Single i) (hr : s.Ready i)
    (hflags : (m.out s i).flags = laneFlags (s.laneMask g n) ((List.range n).map r)) :
    FlagsTrap s i g n (fun k => (r k).2) := by
  intro hh c k e he hen hk hlow hfirst
  obtain ⟨hkn, hg, hb⟩ := hk
  have htrap := flagTrap_lanes he hen hkn hg hb
    (fun j hj hgj => Bool.not_eq_true _ ▸ fun hbj => hlow j hj ⟨by omega, hgj, hbj⟩)
    (fun d hd e' he' hen' j hj hgj => Bool.not_eq_true _ ▸ fun hbj => hfirst d hd e' he' hen' j ⟨hj, hgj, hbj⟩)
  rw [← hflags] at htrap
  obtain ⟨t, ht, hent⟩ := h.enters hi hr hh htrap
  exact ⟨t, _, hexec.trans ht, hflags ▸ flagsOf_laneFlags s g n r, hent⟩

end Sys2Proof.Machine
end

