-- ==== Sys2Proof/Proofs/Generator.lean ====
section
/-! PROOFS. The generator (R47, R49, R162, R163). -/

namespace Sys2Proof.Machine

open Sys2Proof.Claim

/-- The model's pop is that of R47. -/
theorem rngPop_eq (x : Word) : rngPop x = popped x := rfl

theorem single_seed (f : SysF) : Instr.Single (.seed f) := ⟨rfl, ⟨rfl, rfl, rfl, rfl⟩, rfl⟩
theorem single_rngpop (f : SysF) : Instr.Single (.rngpop f) := ⟨rfl, ⟨rfl, rfl, rfl, rfl⟩, rfl⟩

/-- What SEED makes of its context. -/
def Ctx.seeded (c : Ctx) (f : SysF) (s : State) : Ctx :=
  { c with csr := { c.csr with rngseed := if s.active f.g then s.val f.a else c.csr.rngseed } }

theorem semSeed_eff (f : SysF) (s : State) (a : At) : ((semSeed f).run s a).eff = Live.me (fun c => c.seeded f s) := by
  unfold Ctx.seeded
  by_cases h : s.active f.g = true <;> simp [semSeed, h]

/-- An op whose effect is the writing of its generator is done by it. -/
theorem issueOne_seeded (s : State) (i : Instr) (m : Sem) (o : Out) (f : SysF) (hi : Instr.Single i) (hr : s.Ready i)
    (hp : s.Passes i m o) (hg : o.local (fun c => c.seeded f s) none) (hd : (m.draw s).2 = s.me.csr.rngseed) :
    ∃ t, issueOne m i s = .next t ∧ t.me.q = s.me.q ∧ t.me.files = s.me.files ∧ Steps s t i (orFlags o.flags) ∧
      t.me.csr.rngseed = if s.active f.g then s.val f.a else s.me.csr.rngseed := by
  obtain ⟨t, ht, hse, r, il, nl, hme⟩ := issueOne_local s i m o _ none (plain_of hi.plain) hr hp hg
  have hst : standStep (s.lone i (m.draw s).1) s.me.standing = s.me.standing :=
    standStep_plain _ _ hi.light.1 hi.light.2.2.1 hi.light.2.2.2
  have hcsr : (s.me.begin (m.draw s).2).csr = s.me.csr := by rw [Ctx.begin_csr, hd]
  simp only [Ctx.seeded, Ctx.begin_standing, Ctx.begin_window, Ctx.begin_tr, Ctx.begin_dbg, hst, orFlags_lone, hcsr] at hme
  refine ⟨t, ht, by rw [hme]; simp, by rw [hme]; simp, ⟨hse, ?retired, ?pc, ?cycles, ?flags, ?standing⟩, by rw [hme]⟩
  case retired =>
    unfold Ctx.Retired
    rw [hme]
    unfold Ctx.begin
    split <;> rfl
  case pc => rw [hme]; rfl
  case cycles => rw [hme]
  case flags => rw [hme]
  case standing => rw [hme]

theorem seed_done (f : SysF) (s : State) (hr : s.Ready (.seed f)) :
    ∃ t, exec (.seed f) s = .next t ∧ t.me.q = s.me.q ∧ t.me.files = s.me.files ∧ Steps s t (.seed f) 0 ∧
      t.me.csr.rngseed = if s.active f.g then s.val f.a else s.me.csr.rngseed := by
  have hm : (semSeed f).OnlyFlags s := { tags := rfl }
  exact issueOne_seeded s _ (semSeed f) _ f (single_seed f) hr (hm.passes (single_seed f).light (Or.inr (flagTrap_nil _)))
    (fun L hn => by rw [semSeed_eff]; simp [Live.me, ← hn]) rfl

theorem rngpop_done (f : SysF) (s : State) (hr : s.Ready (.rngpop f)) :
    ∃ t, exec (.rngpop f) s = .next t ∧ Steps s t (.rngpop f) 0 ∧ t.me.csr.rngseed = (popped s.me.csr.rngseed).2 ∧
      let v : SVal := { v := if s.active f.g then (popped s.me.csr.rngseed).1 else 0, tag := .int64 }
      ScalarPushed s t v ∧ ScalarWritten s t f.w f.d v := by
  have hm : (semRngpop f).OnlyFlags s := { tags := rfl }
  obtain ⟨t, ht, hs, hrng, hq, hf⟩ := issueOne_steps s (.rngpop f) (semRngpop f) _
    (fun c => c.resultS f.w f.d { v := if s.active f.g then (popped s.me.csr.rngseed).1 else 0, tag := .int64 })
    (plain_of rfl) (single_rngpop f).light hr (hm.passes (single_rngpop f).light (Or.inr (flagTrap_nil _)))
    (fun L hn => by simp only [Sem.out, semRngpop, Live.me, ← hn]; rfl)
    (fun c => resultS_eq c _ _ _)
  exact ⟨t, ht, hs, hrng, scalarPushed_of s t (s.me.begin _) _ (by simp) (by simp) (hq.trans (resultS_q _ _ _ _)),
    scalarWritten_of s t (s.me.begin _) _ _ _ (by simp) (hf.trans (resultS_files _ _ _ _))⟩

/-- Settles O23: SEED writes the generator alone; RNGPOP draws before its guard is looked at. -/
theorem generator : Obligations.Generator := ⟨seed_done, rngpop_done⟩

end Sys2Proof.Machine
end

