-- ==== Sys2Proof/Proofs/LaneOps.lean ====
section
/-! PROOFS. Ops with a vector result, lane by lane: operands listed by lane number, the guarded merge, and an op done by its lane
results and flags (R130 to R132, R17, R42). -/

namespace Sys2Proof.Machine

open Sys2Proof.Claim

/-! ### Tags -/

theorem mem_acceptT {f : RegF} {x : Src} {t : Tag} (h : tagT f x t) : t ∈ (acceptT f x).1 := by
  unfold acceptT
  rcases h with rfl | ⟨hv, hl, ht⟩
  · dsimp only; split <;> simp
  · rw [if_neg (by simp [hv, hl])]
    rcases ht with rfl | rfl <;> simp

theorem mem_accept_at {f : RegF} {x : Src} {t u : Tag} {n : Nat} {l : List Tag × Tag} (hl : t = u → t ∈ l.1)
    (h : if x.idx = n then t = u else tagT f x t) : t ∈ (if x.idx = n then l else acceptT f x).1 := by
  by_cases hx : x.idx = n
  · rw [if_pos hx] at h ⊢; exact hl h
  · rw [if_neg hx] at h ⊢; exact mem_acceptT h

/-- A vector op stands alone in one word, produces no token, carries no standing weight and names no source in D. -/
structure Instr.Lanewise (i : Instr) : Prop extends Instr.Single i where
  noD : ∀ x ∈ srcs i, x.idx ≠ 3

theorem vecTags_of_match {s : State} {f : RegF} {i : Instr} {accept : Src → List Tag × Tag} {ok : Src → Tag → Prop}
    (hi : Instr.Lanewise i) (h : VecTagsMatch s i ok) (hok : ∀ x t, ok x t → t ∈ (accept x).1) : vecTags f i accept s = none :=
  vecTags_none s f i accept (fun x hx hs => hok _ _ (h x hx hs)) hi.noD

/-! ### Lanes by number -/

theorem laneAt_eq (w : Nat) (v : VWord) (k : Nat) : laneAt w v k = (lane w v k).toNat := (lane_toNat w v k).symm

theorem lanesOf_eq (w : Nat) (v : VWord) : lanesOf w v = (List.range (2048 / w)).map (fun k => (lane w v k).toNat) :=
  List.ext_getElem (by simp [lanesOf_length]) (fun k hk _ => by
    rw [lanesOf_at w v k (by rwa [lanesOf_length] at hk)]; simp [lane])

theorem vA_eq (f : RegF) (s : State) :
    vA f s = (List.range (2048 / tagWidth (vT f))).map (fun k => (laneA f s (tagWidth (vT f)) k).toNat) := lanesOf_eq _ _

theorem vC_eq (f : RegF) (s : State) :
    vC f s = (List.range (2048 / tagWidth (vT f))).map (fun k => (laneC f s (tagWidth (vT f)) k).toNat) := lanesOf_eq _ _

theorem replicate_eq_range (n : Nat) (x : α) : List.replicate n x = (List.range n).map (fun _ => x) := by
  rw [List.map_const', List.length_range]

theorem vB_eq (f : RegF) (s : State) :
    vB f s = (List.range (2048 / tagWidth (vT f))).map (fun k => (laneB f s (tagWidth (vT f)) k).toNat) := by
  unfold vB laneB vX3
  dsimp only
  split
  · rw [replicate_eq_range]; simp [laneCount, BitVec.toNat_setWidth]
  · exact lanesOf_eq _ _

theorem vBInt_eq (f : RegF) (s : State) :
    vBInt f s = (List.range (2048 / tagWidth (vT f))).map (fun k => (laneBInt f s (tagWidth (vT f)) k).toNat) := by
  unfold vBInt laneBInt vX3
  dsimp only
  split
  · rw [replicate_eq_range]; simp [laneCount, BitVec.toNat_setWidth]
  · exact lanesOf_eq _ _

/-! ### Elements as integers (R27) -/

theorem intVal_eq {t : Tag} (ht : isIntTag t = true) (x : BitVec (tagWidth t)) :
    intVal t x.toNat = if t != .uint8 then x.toInt else (x.toNat : Int) := by
  have hx := x.isLt
  cases t <;> cases ht
  all_goals
    simp only [tagWidth] at x hx
    simp [intVal, tagWidth, BitVec.toInt_eq_toNat_cond]
    omega

theorem tagWidth_cases (t : Tag) : tagWidth t = 8 ∨ tagWidth t = 16 ∨ tagWidth t = 32 ∨ tagWidth t = 64 := by cases t <;> decide

/-- Integers of the width of a tag read as two's complement. -/
theorem intVal_sintOf (t : Tag) (x : BitVec (tagWidth t)) : intVal (sintOf (tagWidth t)) x.toNat = x.toInt := by
  have key : ∀ w, (w = 8 ∨ w = 16 ∨ w = 32 ∨ w = 64) → ∀ y : BitVec w, intVal (sintOf w) y.toNat = y.toInt := by
    rintro w (rfl | rfl | rfl | rfl) y
    · exact intVal_eq (t := .int8) rfl y
    · exact intVal_eq (t := .int16) rfl y
    · exact intVal_eq (t := .int32) rfl y
    · exact intVal_eq (t := .int64) rfl y
  exact key _ (tagWidth_cases t) x

/-! ### The guarded merge -/

theorem merged_mergeV (s : State) (g : Guard) (w : Nat) (tag : Tag) (a : VVal) (r : Nat → Nat) :
    Merged s g w tag a (fun k => BitVec.ofNat w (r k))
      (mergeV w tag (s.laneMask g (laneCount w)) (some a) ((List.range (2048 / w)).map r)) := by
  refine ⟨fun k hk => ?_, tag_mergeV s g w tag a _, poison_mergeV s g w tag a _⟩
  unfold lane
  rw [lane_mergeV s g w tag a _ k (by simp) hk]
  simp

/-- A merge depends on its lanes alone. -/
theorem Merged.congr {s : State} {g : Guard} {w : Nat} {tag : Tag} {a v : VVal} {r r' : Nat → BitVec w} (h : Merged s g w tag a r v)
    (hr : ∀ k < 2048 / w, r k = r' k) : Merged s g w tag a r' v := by
  obtain ⟨hl, ht, hp⟩ := h
  exact ⟨fun k hk => hr k hk ▸ hl k hk, ht, hp⟩

/-! ### Ops done by their lanes -/

/-- A change of the running context is all that such an effect does. -/
theorem local_me {o : Out} {g : Ctx → Ctx} (h : o.eff = Live.me g) : o.local g none := by
  intro L hn
  rw [h, Live.me, ← hn]

section
variable {i : Instr} {f : RegF} {s : State} {w : Nat} {tag : Tag} {tags : State → Option TagFail} {first : State → Option VVal}
  {res : State → At → List FRes} {free : State → List Bool} {a : VVal} {r : Nat → FRes}
  (hexec : exec i s = issueOne (semVec i f.w f.d f.g w tag tags first res free) i s)
  (hi : Instr.Lanewise i) (hr : s.Ready i) (htags : tags s = none)
  (hres : ∀ b, res s b = (List.range (2048 / w)).map r)
include hexec hi hr htags hres

/-- A vector op whose flags do not trap delivers the merge of its lane results. -/
theorem semVec_lanes (hfirst : first s = some a)
    (hf : s.me.tr.hm = true ∨
      flagTrap s.me.csr.fpctl [(0, laneFlags (s.laneMask f.g (2048 / w)) ((List.range (2048 / w)).map r))] = none) :
    ∃ t v, exec i s = .next t ∧
      VectorDone s t i f.w f.d v (orFlags (laneFlags (s.laneMask f.g (2048 / w)) ((List.range (2048 / w)).map r))) ∧
      Merged s f.g w tag a (fun k => BitVec.ofNat w (r k).1) v := by
  obtain ⟨t, ht, hd⟩ := issueOne_semVec s i f.w f.d f.g w tag tags first res free (plain_of hi.plain) hi.light hr htags
    (by rw [hres]; exact hf)
  rw [hres] at hd
  refine ⟨t, _, hexec.trans ht, hd, ?_⟩
  rw [hfirst, List.map_map]
  exact merged_mergeV s f.g w tag a _

theorem semVec_done (hfirst : first s = some a) (hno : NoFlagTraps s) : FpDone f s i w tag a r := by
  obtain ⟨t, v, ht, hd, hm⟩ := semVec_lanes hexec hi hr htags hres hfirst (flagTrap_of_noFlagTraps hno _)
  exact ⟨t, v, _, ht, hd, hm, flagsOf_laneFlags s f.g (2048 / w) r⟩

theorem semVec_flagsTrap : FlagsTrap s i f.g (2048 / w) (fun k => (r k).2) :=
  Sem.OnlyFlags.flagsTrap (m := semVec i f.w f.d f.g w tag tags first res free) hexec { tags := htags } hi.toSingle hr
    (by simp [Sem.out, semVec, hres, laneCount])

/-- A vector op none of whose lanes raises a flag. -/
theorem semVec_silent (hfirst : first s = some a) (hz : ∀ k, (r k).2 = 0) :
    ∃ t v, exec i s = .next t ∧ VectorDone s t i f.w f.d v 0 ∧ Merged s f.g w tag a (fun k => BitVec.ofNat w (r k).1) v := by
  have hl : laneFlags (s.laneMask f.g (2048 / w)) ((List.range (2048 / w)).map r) = [] := laneFlags_silent _ _ _ hz
  have := semVec_lanes hexec hi hr htags hres hfirst (Or.inr (by rw [hl]; exact flagTrap_nil _))
  rwa [hl] at this

end

end Sys2Proof.Machine
end

