-- ==== Sys2Proof/Proofs/FloatOrder.lean ====
section
/-! PROOFS. Decoded elements against their bits: NaNs, and the order of the others as that of their signed magnitudes (R28, R29,
R31, R141, R142). -/

namespace Sys2Proof.Machine

open Sys2Proof.Claim

/-! ### Decoding by magnitude -/

/-- The finite value of a magnitude (R28): exponent field and mantissa are its quotient and remainder by 2^mw. -/
def FVal.ofMag (f : Fmt) (neg : Bool) (x : Nat) : FVal :=
  if x / 2 ^ f.mw = 0 then .fin neg x f.qmin
  else .fin neg (x % 2 ^ f.mw + 2 ^ f.mw) (f.qmin + ((x / 2 ^ f.mw : Nat) : Int) - 1)

/-- The exponent field is all ones from the magnitude of infinity on. -/
theorem expOnes_iff {f : Fmt} {x : Nat} (hx : x < 2 ^ (f.ew + f.mw)) : x / 2 ^ f.mw = 2 ^ f.ew - 1 ↔ f.infBits ≤ x := by
  have hp : 0 < 2 ^ f.mw := by positivity
  have hlt : x / 2 ^ f.mw < 2 ^ f.ew := by rw [Nat.div_lt_iff_lt_mul hp, ← Nat.pow_add]; exact hx
  have hle : f.infBits ≤ x ↔ 2 ^ f.ew - 1 ≤ x / 2 ^ f.mw := by rw [Fmt.infBits, Nat.le_div_iff_mul_le hp]
  omega

theorem fdec_eq_ieee {f : Fmt} {x : Nat} (he : f.e4m3 = false) {u : Nat} (hu : x % 2 ^ (f.ew + f.mw) = u) :
    fdec f x = if f.infBits < u then .nan (f.sig && decide (u < f.nan))
      else if u = f.infBits then .inf (x / 2 ^ (f.ew + f.mw) % 2 == 1)
      else .ofMag f (x / 2 ^ (f.ew + f.mw) % 2 == 1) u := by
  have hp : 0 < 2 ^ f.mw := by positivity
  have hexp : x / 2 ^ f.mw % 2 ^ f.ew = u / 2 ^ f.mw := by
    rw [← hu, Nat.add_comm, Nat.pow_add, Nat.mod_mul_right_div_self]
  have hman : x % 2 ^ f.mw = u % 2 ^ f.mw := by
    rw [← hu, Nat.mod_mod_of_dvd _ (Nat.pow_dvd_pow 2 (Nat.le_add_left _ _))]
  have hones := expOnes_iff (f := f) (x := u) (hu ▸ Nat.mod_lt _ (by positivity))
  have hdm := Nat.div_add_mod u (2 ^ f.mw)
  have hnan : f.nan = f.infBits + 2 ^ (f.mw - 1) := by simp [Fmt.nan, he]
  unfold fdec
  simp only [he, hexp, hman, Bool.false_eq_true, if_false]
  by_cases hinf : f.infBits ≤ u
  · have hq := hones.mpr hinf
    have hu' : f.infBits + u % 2 ^ f.mw = u := by rw [Fmt.infBits, ← hq, Nat.mul_comm]; exact hdm
    rw [if_pos hq]
    by_cases hz : u % 2 ^ f.mw = 0
    · rw [if_pos hz, if_neg (by omega), if_pos (by omega)]
    · rw [if_neg hz, if_pos (by omega)]
      have hquiet : u % 2 ^ f.mw / 2 ^ (f.mw - 1) = 0 ↔ u < f.nan := by
        rw [Nat.div_eq_zero_iff_lt (by positivity), hnan]; omega
      simp only [← hquiet, beq_eq_decide]
  · have hle : ¬ f.infBits < u := by omega
    have hne : ¬ u = f.infBits := by omega
    rw [if_neg (mt hones.mp hinf), if_neg hle, if_neg hne, FVal.ofMag]
    by_cases hz : u / 2 ^ f.mw = 0
    · have hsub : u % 2 ^ f.mw = u := by rw [hz] at hdm; omega
      rw [if_pos hz, if_pos hz, hsub]
    · rw [if_neg hz, if_neg hz]

theorem fdec_eq_e4m3 {x : Nat} {u : Nat} (hu : x % 2 ^ 7 = u) :
    fdec (fmtOf .e4m3) x = if u = 0x7F then .nan false else .ofMag (fmtOf .e4m3) (x / 2 ^ 7 % 2 == 1) u := by
  have hexp : x / 2 ^ 3 % 2 ^ 4 = u / 2 ^ 3 := by omega
  have hman : x % 2 ^ 3 = u % 2 ^ 3 := by omega
  rw [show fmtOf .e4m3 = ⟨4, 3, 7, true, false⟩ from rfl]
  unfold fdec FVal.ofMag
  simp only [hexp, hman, if_true]
  by_cases hn : u = 0x7F
  · rw [if_pos hn, if_pos (by omega)]
  · have hne : ¬ (u / 2 ^ 3 = 15 ∧ u % 2 ^ 3 = 7) := by omega
    rw [if_neg hn, if_neg hne]
    by_cases hz : u / 2 ^ 3 = 0
    · rw [if_pos hz, if_pos hz, show u % 2 ^ 3 = u by omega]
    · rw [if_neg hz, if_neg hz]; rfl

/-! ### The bits of an element -/

theorem msb_eq_div {w n : Nat} (x : BitVec w) (hw : w = n + 1) : (x.toNat / 2 ^ n % 2 == 1) = x.msb := by
  subst hw
  rw [BitVec.msb_eq_decide, Nat.add_sub_cancel, beq_eq_decide]
  have hx := x.isLt
  rw [Nat.pow_succ] at hx
  have hp : 0 < 2 ^ n := by positivity
  by_cases h : 2 ^ n ≤ x.toNat
  · have : x.toNat / 2 ^ n = 1 := Nat.div_eq_of_lt_le (by omega) (by omega)
    simp [this, h]
  · simp [Nat.div_eq_of_lt (Nat.lt_of_not_le h), h]

/-- The formats with infinities: their limits and their width (R28 to R31). -/
theorem fmtOf_ieee {t : Tag} (ht : isFpTag t = true) (hne : t ≠ .e4m3) :
    (fmtOf t).e4m3 = false ∧ topMag t = (fmtOf t).infBits ∧ canonNaN t = (fmtOf t).nan ∧
      decide (tagWidth t ≠ 8) = (fmtOf t).sig ∧ tagWidth t = (fmtOf t).ew + (fmtOf t).mw + 1 := by
  revert ht hne; cases t <;> decide

/-- Decoding an element: a NaN, else an infinity where the format has one, else the finite value of its magnitude. -/
theorem fdec_bits {t : Tag} (ht : isFpTag t = true) (x : BitVec (tagWidth t)) :
    fdec (fmtOf t) x.toNat =
      if isNaN t x = true then .nan (isSNaN t x)
      else if t ≠ .e4m3 ∧ magOf x = topMag t then .inf x.msb
      else .ofMag (fmtOf t) x.msb (magOf x) := by
  by_cases he : t = .e4m3
  · subst he
    rw [fdec_eq_e4m3 (u := magOf x) rfl, msb_eq_div (n := 7) x rfl]
    simp only [isNaN, isSNaN, tagWidth, if_true, beq_iff_eq, ne_eq, not_true_eq_false, false_and, if_false, decide_false,
      Bool.false_and]
    rfl
  · obtain ⟨h8, htop, hcan, hsig, hw⟩ := fmtOf_ieee ht he
    have hmag : x.toNat % 2 ^ ((fmtOf t).ew + (fmtOf t).mw) = magOf x := by
      rw [magOf, show tagWidth t - 1 = (fmtOf t).ew + (fmtOf t).mw by omega]
    have hnan : isNaN t x = decide ((fmtOf t).infBits < magOf x) := by simp [isNaN, he, htop]
    rw [fdec_eq_ieee h8 hmag, msb_eq_div x hw, isSNaN, hsig, hcan, hnan, htop]
    by_cases hn : (fmtOf t).infBits < magOf x <;> simp [hn, he]

theorem isNan_ofMag (f : Fmt) (neg : Bool) (x : Nat) : (FVal.ofMag f neg x).isNan = false := by
  unfold FVal.ofMag; split <;> rfl

theorem isSig_ofMag (f : Fmt) (neg : Bool) (x : Nat) : (FVal.ofMag f neg x).isSig = false := by
  unfold FVal.ofMag; split <;> rfl

theorem neg_ofMag (f : Fmt) (neg : Bool) (x : Nat) : (FVal.ofMag f neg x).neg = neg := by
  unfold FVal.ofMag; split <;> rfl

theorem isNaN_of_isSNaN {t : Tag} {w : Nat} {x : BitVec w} (h : isSNaN t x = true) : isNaN t x = true := by
  simp only [isSNaN, Bool.and_eq_true] at h; exact h.1.2

section
variable {t : Tag} (ht : isFpTag t = true) (x : BitVec (tagWidth t))
include ht

theorem isNan_fdec : (fdec (fmtOf t) x.toNat).isNan = isNaN t x := by
  rw [fdec_bits ht]
  cases hn : isNaN t x
  · rw [if_neg Bool.false_ne_true]; split
    · rfl
    · exact isNan_ofMag _ _ _
  · rfl

theorem isSig_fdec : (fdec (fmtOf t) x.toNat).isSig = isSNaN t x := by
  rw [fdec_bits ht]
  cases hn : isNaN t x
  · have hs : isSNaN t x = false := Bool.eq_false_iff.mpr (fun h => by rw [isNaN_of_isSNaN h] at hn; cases hn)
    rw [if_neg Bool.false_ne_true, hs]; split
    · rfl
    · exact isSig_ofMag _ _ _
  · rfl

theorem neg_fdec (hn : isNaN t x = false) : (fdec (fmtOf t) x.toNat).neg = x.msb := by
  rw [fdec_bits ht, hn, if_neg Bool.false_ne_true]
  split
  · rfl
  · exact neg_ofMag _ _ _

end

/-! ### The order of values -/

/-- The sign of a comparison of integers. -/
def cmpInt (a b : Int) : Int := if a < b then -1 else if b < a then 1 else 0

theorem cmpInt_congr {a b c d : Int} (h1 : a < b ↔ c < d) (h2 : b < a ↔ d < c) : cmpInt a b = cmpInt c d := by
  simp [cmpInt, h1, h2]

theorem cmpInt_of_lt {a b : Int} (h : a < b) : cmpInt a b = -1 := if_pos h
theorem cmpInt_of_gt {a b : Int} (h : b < a) : cmpInt a b = 1 := by
  rw [cmpInt, if_neg (by omega), if_pos h]

/-- A magnitude with a sign. -/
def signed (neg : Bool) (x : Nat) : Int := if neg then -(x : Int) else x

theorem rankOf_eq {w : Nat} (x : BitVec w) : rankOf x = signed x.msb (magOf x) := rfl

/-- A strictly increasing map of magnitudes that keeps zero keeps the order of signed magnitudes. -/
theorem signed_lt_iff {v : Nat → Nat} (hv : StrictMono v) (h0 : v 0 = 0) (m n : Bool) (x y : Nat) :
    signed m (v x) < signed n (v y) ↔ signed m x < signed n y := by
  have hxy := hv.lt_iff_lt (a := x) (b := y)
  have hyx := hv.lt_iff_lt (a := y) (b := x)
  have hx := hv.lt_iff_lt (a := 0) (b := x)
  have hy := hv.lt_iff_lt (a := 0) (b := y)
  rw [h0] at hx hy
  cases m <;> cases n <;> simp only [signed, Bool.false_eq_true, if_false, if_true] <;> omega

/-- The finite value of a magnitude in units of the smallest subnormal. -/
def unitsOfMag (f : Fmt) (x : Nat) : Nat :=
  if x / 2 ^ f.mw = 0 then x else (x % 2 ^ f.mw + 2 ^ f.mw) * 2 ^ (x / 2 ^ f.mw - 1)

theorem unitsOfMag_zero (f : Fmt) : unitsOfMag f 0 = 0 := by simp [unitsOfMag]

theorem unitsOfMag_strictMono (f : Fmt) : StrictMono (unitsOfMag f) := by
  refine strictMono_nat_of_lt_succ (fun x => ?_)
  have hp : 0 < 2 ^ f.mw := by positivity
  unfold unitsOfMag
  generalize 2 ^ f.mw = p at hp
  have hr := Nat.mod_lt x hp
  have hdm := Nat.div_add_mod x p
  generalize x / p = q, x % p = r at hr hdm
  subst hdm
  rcases Nat.lt_or_ge (r + 1) p with hlt | hge
  · rw [Nat.add_assoc, Nat.mul_add_div hp, Nat.div_eq_of_lt hlt, Nat.mul_add_mod, Nat.mod_eq_of_lt hlt, Nat.add_zero]
    split
    · omega
    · exact Nat.mul_lt_mul_of_pos_right (by omega) (by positivity)
  · rw [Nat.add_assoc, show r + 1 = p by omega, ← Nat.mul_succ, Nat.mul_div_cancel_left _ hp, Nat.mul_mod_right, Nat.zero_add,
      if_neg (Nat.succ_ne_zero q), Nat.succ_sub_one]
    cases q with
    | zero => rw [if_pos rfl]; omega
    | succ n =>
      rw [if_neg (Nat.succ_ne_zero n), Nat.succ_sub_one, Nat.pow_succ, Nat.mul_comm (2 ^ n) 2, ← Nat.mul_assoc]
      exact Nat.mul_lt_mul_of_pos_right (by omega) (by positivity)

/-- A term over a smaller unit. -/
theorem Term.at_shift {x : Term} {q e : Int} (h : q ≤ e) (he : e ≤ x.e) : x.at q = x.at e * 2 ^ (e - q).toNat := by
  have hs : (x.e - q).toNat = (x.e - e).toNat + (e - q).toNat := by omega
  unfold Term.at
  simp only [hs, pow_add]
  split <;> ring

/-- The comparison of finite values in a common unit. -/
theorem fcmp_fin {q e1 e2 : Int} (m n : Bool) (x y : Nat) (h1 : q ≤ e1) (h2 : q ≤ e2) :
    fcmp (.fin m x e1) (.fin n y e2) = cmpInt (Term.at ⟨m, x, e1⟩ q) (Term.at ⟨n, y, e2⟩ q) := by
  have hq : q ≤ min e1 e2 := le_min h1 h2
  rw [Term.at_shift hq (min_le_left e1 e2), Term.at_shift hq (min_le_right e1 e2)]
  have hp : (0 : Int) < 2 ^ (min e1 e2 - q).toNat := by positivity
  exact cmpInt_congr (Iff.symm (Int.mul_lt_mul_right hp)) (Iff.symm (Int.mul_lt_mul_right hp))

theorem ofMag_eq (f : Fmt) (neg : Bool) (x : Nat) :
    ∃ m e, FVal.ofMag f neg x = .fin neg m e ∧ f.qmin ≤ e ∧ Term.at ⟨neg, m, e⟩ f.qmin = signed neg (unitsOfMag f x) := by
  unfold FVal.ofMag unitsOfMag
  generalize x / 2 ^ f.mw = k
  split
  · exact ⟨_, _, rfl, le_refl _, by simp [Term.at, signed]⟩
  · refine ⟨_, _, rfl, by omega, ?_⟩
    have hs : (f.qmin + (k : Int) - 1 - f.qmin).toNat = k - 1 := by omega
    simp only [Term.at, signed, hs]
    push_cast
    rfl

theorem fcmp_ofMag (f : Fmt) (m n : Bool) (x y : Nat) : fcmp (.ofMag f m x) (.ofMag f n y) = cmpInt (signed m x) (signed n y) := by
  obtain ⟨a, e1, h1, hq1, hv1⟩ := ofMag_eq f m x
  obtain ⟨b, e2, h2, hq2, hv2⟩ := ofMag_eq f n y
  rw [h1, h2, fcmp_fin m n a b hq1 hq2, hv1, hv2]
  have hmono := unitsOfMag_strictMono f
  exact cmpInt_congr (signed_lt_iff hmono (unitsOfMag_zero f) m n x y) (signed_lt_iff hmono (unitsOfMag_zero f) n m y x)

theorem fcmp_inf_ofMag (f : Fmt) (m n : Bool) {x y : Nat} (h : y < x) :
    fcmp (.inf m) (.ofMag f n y) = cmpInt (signed m x) (signed n y) := by
  obtain ⟨b, e, hb, -, -⟩ := ofMag_eq f n y
  rw [hb]
  cases m <;> cases n <;> simp [fcmp, signed, cmpInt] <;> omega

theorem fcmp_ofMag_inf (f : Fmt) (m n : Bool) {x y : Nat} (h : x < y) :
    fcmp (.ofMag f m x) (.inf n) = cmpInt (signed m x) (signed n y) := by
  obtain ⟨a, e, ha, -, -⟩ := ofMag_eq f m x
  rw [ha]
  cases m <;> cases n <;> simp [fcmp, signed, cmpInt] <;> omega

theorem fcmp_inf_inf (m n : Bool) {x : Nat} (h : 0 < x) : fcmp (.inf m) (.inf n) = cmpInt (signed m x) (signed n x) := by
  cases m <;> cases n <;> simp [fcmp, signed, cmpInt] <;> omega

theorem magOf_le_of_not_nan {t : Tag} {w : Nat} {x : BitVec w} (h : isNaN t x = false) (ht : t ≠ .e4m3) : magOf x ≤ topMag t := by
  simpa [isNaN, ht] using h

/-- Elements that are no NaN are ordered as their ranks are. -/
theorem fcmp_fdec {t : Tag} (ht : isFpTag t = true) (x y : BitVec (tagWidth t)) (hx : isNaN t x = false) (hy : isNaN t y = false) :
    fcmp (fdec (fmtOf t) x.toNat) (fdec (fmtOf t) y.toNat) = cmpInt (rankOf x) (rankOf y) := by
  have htop : 0 < topMag t := by cases t <;> decide
  have below : ∀ z : BitVec (tagWidth t), isNaN t z = false → t ≠ .e4m3 →
      ¬(t ≠ .e4m3 ∧ magOf z = topMag t) → magOf z < topMag t :=
    fun z hz he hne => lt_of_le_of_ne (magOf_le_of_not_nan hz he) (fun h => hne ⟨he, h⟩)
  rw [fdec_bits ht, fdec_bits ht, hx, hy, rankOf_eq, rankOf_eq]
  simp only [Bool.false_eq_true, if_false]
  split
  · rename_i hix
    rw [hix.2]
    split
    · rename_i hiy; rw [hiy.2]; exact fcmp_inf_inf _ _ htop
    · rename_i hiy; exact fcmp_inf_ofMag _ _ _ (below y hy hix.1 hiy)
  · rename_i hix
    split
    · rename_i hiy; rw [hiy.2]; exact fcmp_ofMag_inf _ _ _ (below x hx hiy.1 hix)
    · exact fcmp_ofMag _ _ _ _ _

end Sys2Proof.Machine
end

