-- ==== Sys2Proof/Proofs/VectorFloat.lean ====
section
/-! PROOFS. The vector floating-point ops (R140 to R145). -/

namespace Sys2Proof.Machine

open Sys2Proof.Claim

/-! ### The tag of a well-formed op -/

theorem vT_of_tIs {p : Tag → Bool} {f : RegF} (h : tIs p f = true) : p (vT f) = true := by
  unfold tIs at h
  unfold vT
  split at h
  · rename_i hv; rw [hv]; exact h
  · cases h

theorem vT_of_vecOk {p : Tag → Bool} {x3 : Option Bool} {lim : Nat} {b c : Bool} {f : RegF} (h : vecOk p x3 lim b c f = true) :
    p (vT f) = true := by
  simp only [vecOk, Bool.and_eq_true] at h
  obtain ⟨⟨⟨⟨⟨⟨htag, -⟩, -⟩, -⟩, -⟩, -⟩, -⟩ := h
  exact vT_of_tIs htag

theorem wf_of_ready {s : State} {i : Instr} (h : s.Ready i) : WellFormed i := h.2.1

theorem vT_of_vecOk_rm {p : Tag → Bool} {x3 : Option Bool} {lim : Nat} {b c : Bool} {f : RegF}
    (h : (vecOk p x3 lim b c f && rmZero f) = true) : p (vT f) = true := vT_of_vecOk (Bool.and_eq_true _ _ ▸ h).1

/-! ### Lane-wise ops (R140, R141) -/

theorem fpLanes_eq (f : RegF) (fn : FpFn) (s : State) :
    fpLanes f fn s = (List.range (2048 / tagWidth (vT f))).map (fun k =>
      fn (vFmt f) (vRM f s) (laneA f s (tagWidth (vT f)) k).toNat (laneB f s (tagWidth (vT f)) k).toNat
        (laneC f s (tagWidth (vT f)) k).toNat) := by
  unfold fpLanes
  rw [vA_eq, vB_eq, vC_eq, List.zip_map', List.zip_map', List.map_map]
  rfl

/-- An op of R140 or R141 with its lane function. -/
structure FpOp (i : RegF → Instr) (fn : FpFn) : Prop where
  lanewise : ∀ f, Instr.Lanewise (i f)
  exec : ∃ usesB, ∀ f s, exec (i f) s = issueOne (semVFp f (i f) usesB fn) (i f) s

theorem fpOp_of_mem {p : (RegF → Instr) × FpFn} (hp : p ∈ fpTable) : FpOp p.1 p.2 := by
  simp only [fpTable, List.mem_cons, List.not_mem_nil, or_false] at hp
  rcases hp with rfl | rfl | rfl | rfl | rfl | rfl | rfl | rfl | rfl | rfl | rfl <;>
  exact ⟨fun f => { plain := rfl, light := ⟨rfl, rfl, rfl, rfl⟩, words := rfl, noD := by simp [srcs, vecB] }, _, fun _ _ => rfl⟩

theorem fpOp_vfmin : FpOp .vfmin fnVfmin :=
  ⟨fun f => { plain := rfl, light := ⟨rfl, rfl, rfl, rfl⟩, words := rfl, noD := by simp [srcs, vecB] }, _, fun _ _ => rfl⟩

theorem fpOp_vfmax : FpOp .vfmax fnVfmax :=
  ⟨fun f => { plain := rfl, light := ⟨rfl, rfl, rfl, rfl⟩, words := rfl, noD := by simp [srcs, vecB] }, _, fun _ _ => rfl⟩

theorem FpOp.holds {i : RegF → Instr} {fn : FpFn} (h : FpOp i fn) {f : RegF} {s : State} (hr : s.Ready (i f))
    (ht : VecTagsMatch s (i f) (tagT f)) {r : Nat → FRes}
    (hfn : ∀ k, fn (vFmt f) (vRM f s) (laneA f s (tagWidth (vT f)) k).toNat (laneB f s (tagWidth (vT f)) k).toNat
      (laneC f s (tagWidth (vT f)) k).toNat = r k) :
    (NoFlagTraps s → FpDone f s (i f) (tagWidth (vT f)) (vT f) (s.rdV (vT f) f.a) r) ∧
    FlagsTrap s (i f) f.g (2048 / tagWidth (vT f)) (fun k => (r k).2) := by
  obtain ⟨usesB, hexec⟩ := h.exec
  have htags : vecTags f (i f) (acceptT f) s = none := vecTags_of_match (h.lanewise f) ht (fun _ _ => mem_acceptT)
  have hres : fpLanes f fn s = (List.range (2048 / tagWidth (vT f))).map r := by
    rw [fpLanes_eq]; exact congrArg (List.map · _) (funext hfn)
  exact ⟨fun hno => semVec_done (hexec f s) (h.lanewise f) hr htags (fun _ => hres) rfl hno,
    semVec_flagsTrap (hexec f s) (h.lanewise f) hr htags (fun _ => hres)⟩

/-! ### VFMIN and VFMAX (R141) -/

theorem fbelow_fdec {t : Tag} (ht : isFpTag t = true) (x y : BitVec (tagWidth t)) (hx : isNaN t x = false) (hy : isNaN t y = false) :
    fbelow (fdec (fmtOf t) x.toNat) (fdec (fmtOf t) y.toNat) = fpBelow x y := by
  unfold fbelow fpBelow
  simp only [fcmp_fdec ht x y hx hy, neg_fdec ht x hx, neg_fdec ht y hy]
  rcases Int.lt_trichotomy (rankOf x) (rankOf y) with h | h | h
  · simp [cmpInt_of_lt h, h]
  · simp [cmpInt, h]
  · simp [cmpInt_of_gt h, Int.not_lt.mpr (Int.le_of_lt h), Int.ne_of_gt h]

theorem nan_fmtOf {t : Tag} (ht : isFpTag t = true) : (fmtOf t).nan = canonNaN t := by
  revert ht; cases t <;> decide

theorem sigFlag_pair (a b : FVal) : sigFlag [a, b] = if (a.isSig || b.isSig) = true then 0x01#7 else 0 := by
  simp only [sigFlag, List.any_cons, List.any_nil, Bool.or_false]; rfl

theorem fminmax_eq {t : Tag} (ht : isFpTag t = true) (isMax : Bool) (x y : BitVec (tagWidth t)) :
    fminmax (fmtOf t) isMax x.toNat y.toNat = minMaxLane t isMax x y := by
  unfold fminmax minMaxLane
  simp only [isNan_fdec ht]
  by_cases hn : (isNaN t x || isNaN t y) = true
  · rw [if_pos hn, if_pos hn, nanRes, nan_fmtOf ht, sigFlag_pair, isSig_fdec ht, isSig_fdec ht]
  · rw [if_neg hn, if_neg hn]
    simp only [Bool.not_eq_true, Bool.or_eq_false_iff] at hn
    rw [fbelow_fdec ht x y hn.1 hn.2, fbelow_fdec ht y x hn.2 hn.1]
    split <;> split <;> rfl

theorem minMax_holds {i : RegF → Instr} {isMax : Bool} (h : FpOp i (fun f _ a b _ => fminmax f isMax a b)) {f : RegF} {s : State}
    (hfp : isFpTag (vT f) = true) (hr : s.Ready (i f)) (ht : VecTagsMatch s (i f) (tagT f)) :
    let r (k : Nat) : FRes := minMaxLane (vT f) isMax (laneA f s (tagWidth (vT f)) k) (laneB f s (tagWidth (vT f)) k)
    (NoFlagTraps s → FpDone f s (i f) (tagWidth (vT f)) (vT f) (s.rdV (vT f) f.a) r) ∧
    FlagsTrap s (i f) f.g (2048 / tagWidth (vT f)) (fun k => (r k).2) :=
  h.holds hr ht (fun _ => fminmax_eq hfp isMax _ _)

theorem vectorFloats : VectorFloats := by
  refine ⟨fun p hp f s hr ht => (fpOp_of_mem hp).holds hr ht (fun _ => rfl), fun p hp f s hr ht => ?_⟩
  simp only [List.mem_cons, List.not_mem_nil, or_false] at hp
  rcases hp with rfl | rfl
  · exact minMax_holds fpOp_vfmin (vT_of_vecOk_rm (fieldsOk_of_wf (wf_of_ready hr) rfl)) hr ht
  · exact minMax_holds fpOp_vfmax (vT_of_vecOk_rm (fieldsOk_of_wf (wf_of_ready hr) rfl)) hr ht

/-! ### The ops with a form of their own (R140, R143 to R145) -/

theorem tagWidth_fp {t : Tag} (ht : isFpTag t = true) : tagWidth t = (fmtOf t).ew + (fmtOf t).mw + 1 := by
  revert ht; cases t <;> decide

theorem fpOp_vfabs : FpOp .vfabs fnVfabs :=
  ⟨fun f => { plain := rfl, light := ⟨rfl, rfl, rfl, rfl⟩, words := rfl, noD := by simp [srcs] }, _, fun _ _ => rfl⟩

theorem fpOp_vfneg : FpOp .vfneg fnVfneg :=
  ⟨fun f => { plain := rfl, light := ⟨rfl, rfl, rfl, rfl⟩, words := rfl, noD := by simp [srcs] }, _, fun _ _ => rfl⟩

/-- A lane-wise op that raises no flag moves lanes. -/
theorem FpOp.moves {i : RegF → Instr} {fn : FpFn} (h : FpOp i fn) {f : RegF} {s : State} (hr : s.Ready (i f))
    (ht : VecTagsMatch s (i f) (tagT f)) (hz : ∀ m a b c, (fn (vFmt f) m a b c).2 = 0) {r : Nat → BitVec (tagWidth (vT f))}
    (hfn : ∀ k, BitVec.ofNat _ (fn (vFmt f) (vRM f s) (laneA f s (tagWidth (vT f)) k).toNat
      (laneB f s (tagWidth (vT f)) k).toNat (laneC f s (tagWidth (vT f)) k).toNat).1 = r k) :
    MoveDone f s (i f) r := by
  obtain ⟨usesB, hexec⟩ := h.exec
  obtain ⟨t, v, hex, hd, hm⟩ := semVec_silent (hexec f s) (h.lanewise f) hr
    (vecTags_of_match (h.lanewise f) ht (fun _ _ => mem_acceptT)) (fun _ => fpLanes_eq f fn s) rfl (fun _ => hz _ _ _ _)
  exact ⟨t, v, hex, hd, Merged.congr hm (fun k _ => hfn k)⟩

/-- Clearing the top bit leaves the number below it. -/
theorem ofNat_mod_clear {w n : Nat} (x : BitVec w) (hw : w = n + 1) :
    BitVec.ofNat w (x.toNat % 2 ^ n) = x &&& ~~~(BitVec.twoPow w (w - 1)) := by
  subst hw
  refine BitVec.eq_of_getLsbD_eq (fun k hk => ?_)
  rw [BitVec.getLsbD_and, BitVec.getLsbD_not, BitVec.getLsbD_twoPow, BitVec.getLsbD_ofNat, Nat.testBit_mod_two_pow,
    BitVec.testBit_toNat, Nat.add_sub_cancel]
  by_cases h : k = n
  · simp [h]
  · simp [hk, Ne.symm h, show k < n by omega]

/-- Adding the top bit inverts it. -/
theorem ofNat_add_invert {w n : Nat} (x : BitVec w) (hw : w = n + 1) :
    BitVec.ofNat w ((x.toNat + 2 ^ n) % 2 ^ w) = x ^^^ BitVec.twoPow w (w - 1) := by
  subst hw
  refine BitVec.eq_of_getLsbD_eq (fun k hk => ?_)
  rw [BitVec.getLsbD_xor, BitVec.getLsbD_twoPow, BitVec.getLsbD_ofNat, Nat.testBit_mod_two_pow, Nat.add_comm x.toNat, Nat.add_sub_cancel]
  by_cases h : k = n
  · rw [h, Nat.testBit_two_pow_add_eq, BitVec.testBit_toNat]; simp
  · rw [Nat.testBit_two_pow_add_gt (by omega), BitVec.testBit_toNat]; simp [hk, Ne.symm h]

theorem width_fmtOf {t : Tag} (ht : isFpTag t = true) : (fmtOf t).width = tagWidth t := by
  rw [tagWidth_fp ht, Fmt.width]; omega

theorem vfabs_holds (f : RegF) (s : State) (hr : s.Ready (.vfabs f)) (ht : VecTagsMatch s (.vfabs f) (tagT f)) :
    MoveDone f s (.vfabs f) (fun k => laneA f s _ k &&& ~~~(BitVec.twoPow _ (tagWidth (vT f) - 1))) :=
  fpOp_vfabs.moves hr ht (fun _ _ _ _ => rfl)
    (fun _ => ofNat_mod_clear _ (tagWidth_fp (vT_of_vecOk_rm (fieldsOk_of_wf (wf_of_ready hr) rfl))))

theorem vfneg_holds (f : RegF) (s : State) (hr : s.Ready (.vfneg f)) (ht : VecTagsMatch s (.vfneg f) (tagT f)) :
    MoveDone f s (.vfneg f) (fun k => laneA f s _ k ^^^ BitVec.twoPow _ (tagWidth (vT f) - 1)) := by
  have hfp : isFpTag (vT f) = true := vT_of_vecOk_rm (fieldsOk_of_wf (wf_of_ready hr) rfl)
  refine fpOp_vfneg.moves hr ht (fun _ _ _ _ => rfl) (fun k => ?_)
  rw [fnVfneg, vFmt, width_fmtOf hfp]
  exact ofNat_add_invert _ (tagWidth_fp hfp)

theorem lanewise_vfclass (f : RegF) : Instr.Lanewise (.vfclass f) :=
  { plain := rfl, light := ⟨rfl, rfl, rfl, rfl⟩, words := rfl, noD := by simp [srcs] }

theorem vfclass_holds (f : RegF) (s : State) (hr : s.Ready (.vfclass f)) (ht : VecTagsMatch s (.vfclass f) (tagT f)) :
    FpDone f s (.vfclass f) (tagWidth (vT f)) (sintOf (tagWidth (vT f))) (s.rdV (vT f) f.a)
      (fun k => (fclass (vFmt f) (laneA f s (tagWidth (vT f)) k).toNat, 0)) := by
  obtain ⟨t, v, hex, hd, hm⟩ := semVec_silent (i := .vfclass f) (f := f) (s := s) rfl (lanewise_vfclass f) hr
    (vecTags_of_match (lanewise_vfclass f) ht (fun _ _ => mem_acceptT))
    (r := fun k => (fclass (vFmt f) (laneA f s (tagWidth (vT f)) k).toNat, 0))
    (fun _ => by rw [vA_eq, List.map_map]; rfl) rfl (fun _ => rfl)
  exact ⟨t, v, 0, hex, hd, hm, by intro b; simp⟩

/-! ### VFSCALE (R144) -/

theorem lanewise_vfscale (f : RegF) : Instr.Lanewise (.vfscale f) :=
  { plain := rfl, light := ⟨rfl, rfl, rfl, rfl⟩, words := rfl, noD := by simp [srcs, vecB] }

/-- The tags of VFSCALE: T in A, in B the signed integer tag of the width, as a scalar INT64 or INT32. -/
theorem mem_acceptScale {f : RegF} {x : Src} {t : Tag}
    (h : if x.idx = 1 then (if x.vec then t = sintOf (tagWidth (vT f)) else indexTag t) else tagT f x t) :
    t ∈ (acceptScale f x).1 := by
  unfold acceptScale
  by_cases hx : x.idx = 1
  · rw [if_pos hx] at h ⊢
    cases hv : x.vec
    · rw [hv, if_neg Bool.false_ne_true] at h; rcases h with rfl | rfl <;> simp
    · rw [hv, if_pos rfl] at h; simp [h]
  · rw [if_neg hx] at h ⊢; exact mem_acceptT h

theorem vfscale_res (f : RegF) (s : State) :
    ((vA f s).zip (vBInt f s)).map (fun p =>
        fscale (vFmt f) (vRM f s) (fdec (vFmt f) p.1) (intVal (sintOf (tagWidth (vT f))) p.2)) =
      (List.range (2048 / tagWidth (vT f))).map (fun k => fscale (vFmt f) (vRM f s)
        (fdec (vFmt f) (laneA f s (tagWidth (vT f)) k).toNat) (laneBInt f s (tagWidth (vT f)) k).toInt) := by
  rw [vA_eq, vBInt_eq, List.zip_map', List.map_map]
  exact congrArg (List.map · _) (funext fun k => by
    rw [Function.comp_apply, intVal_sintOf])

theorem vfscale_holds (f : RegF) (s : State) (hr : s.Ready (.vfscale f))
    (ht : VecTagsMatch s (.vfscale f) (fun x t =>
      if x.idx = 1 then (if x.vec then t = sintOf (tagWidth (vT f)) else indexTag t) else tagT f x t)) :
    let w := tagWidth (vT f)
    let r (k : Nat) : FRes := fscale (vFmt f) (vRM f s) (fdec (vFmt f) (laneA f s w k).toNat) (laneBInt f s w k).toInt
    (NoFlagTraps s → FpDone f s (.vfscale f) w (vT f) (s.rdV (vT f) f.a) r) ∧
    FlagsTrap s (.vfscale f) f.g (2048 / w) (fun k => (r k).2) := by
  have htags : vecTags f (.vfscale f) (acceptScale f) s = none :=
    vecTags_of_match (lanewise_vfscale f) ht (fun _ _ => mem_acceptScale)
  exact ⟨fun hno => semVec_done rfl (lanewise_vfscale f) hr htags (fun _ => vfscale_res f s) rfl hno,
    semVec_flagsTrap (f := f) (s := s) rfl (lanewise_vfscale f) hr htags (fun _ => vfscale_res f s)⟩

/-! ### VFDOT2 (R145) -/

theorem lanewise_vfdot2 (f : RegF) : Instr.Lanewise (.vfdot2 f) :=
  { plain := rfl, light := ⟨rfl, rfl, rfl, rfl⟩, words := rfl, noD := by simp [srcs, vecB] }

/-- The two halves of a scalar. -/
theorem splitNat_two (v : Word) : splitNat 16 2 v.toNat = (List.range 2).map (fun j => (v.extractLsb' (16 * j) 16).toNat) := by
  simp [splitNat, List.range_succ, BitVec.extractLsb'_toNat, Nat.shiftRight_eq_div_pow]

/-- Copies of a pair, by number. -/
theorem flatten_replicate_pair (n : Nat) (p : Nat → α) :
    (List.replicate n ((List.range 2).map p)).flatten = (List.range (2 * n)).map (fun k => p (k % 2)) := by
  induction n with
  | zero => rfl
  | succ n ih =>
    rw [List.replicate_succ', List.flatten_concat, ih, Nat.mul_succ, List.range_add, List.map_append, List.map_map]
    simp [List.range_succ]

/-- Half `j` of B in lane `k` of VFDOT2: with X[3] the two low halves of the scalar serve every lane. -/
def dotHalf (f : RegF) (s : State) (k : Nat) : BitVec 16 :=
  if f.x.getLsbD 3 then (s.rdS (vT f) f.b).v.extractLsb' (16 * (k % 2)) 16 else lane 16 (s.rdV (vT f) f.b).v k

theorem dot2B_eq (f : RegF) (s : State) : dot2B f s = (List.range 128).map (fun k => (dotHalf f s k).toNat) := by
  unfold dot2B dotHalf vX3
  split
  · rw [splitNat_two, flatten_replicate_pair]
  · exact lanesOf_eq _ _

theorem getD_map_range (n k : Nat) (f : Nat → α) (d : α) (h : k < n) : ((List.range n).map f).getD k d = f k := by
  simp [List.getD_eq_getElem?_getD, h]

theorem dot2Lanes_eq (f : RegF) (s : State) :
    dot2Lanes f s = (List.range 64).map (fun k =>
      fdot2 (fmtOf .fp32) (vRM f s) (fdec (fmtOf .fp32) (lane 32 (s.rdV .fp32 f.c).v k).toNat)
        (fdec (vFmt f) (laneA f s 16 (2 * k)).toNat) (fdec (vFmt f) (dotHalf f s (2 * k)).toNat)
        (fdec (vFmt f) (laneA f s 16 (2 * k + 1)).toNat) (fdec (vFmt f) (dotHalf f s (2 * k + 1)).toNat)) := by
  unfold dot2Lanes
  simp only [dot2B_eq, lanesOf_eq, List.map_map, zipIdx_map_range]
  refine List.map_congr_left (fun k hk => ?_)
  have hk : k < 64 := List.mem_range.mp hk
  simp only [Function.comp_apply]
  rw [getD_map_range _ _ _ _ (by omega), getD_map_range _ _ _ _ (by omega), getD_map_range _ _ _ _ (by omega),
    getD_map_range _ _ _ _ (by omega)]
  rfl

theorem vfdot2_holds (f : RegF) (s : State) (hr : s.Ready (.vfdot2 f))
    (ht : VecTagsMatch s (.vfdot2 f) (fun x t => if x.idx = 2 then t = .fp32 else tagT f x t)) :
    let r (k : Nat) : FRes :=
      let b (j : Nat) : BitVec 16 :=
        if f.x.getLsbD 3 then (s.rdS (vT f) f.b).v.extractLsb' (16 * j) 16 else lane 16 (s.rdV (vT f) f.b).v (2 * k + j)
      fdot2 (fmtOf .fp32) (vRM f s) (fdec (fmtOf .fp32) (lane 32 (s.rdV .fp32 f.c).v k).toNat)
        (fdec (vFmt f) (laneA f s 16 (2 * k)).toNat) (fdec (vFmt f) (b 0).toNat)
        (fdec (vFmt f) (laneA f s 16 (2 * k + 1)).toNat) (fdec (vFmt f) (b 1).toNat)
    (NoFlagTraps s → FpDone f s (.vfdot2 f) 32 .fp32 (s.rdV .fp32 f.c) r) ∧
    FlagsTrap s (.vfdot2 f) f.g 64 (fun k => (r k).2) := by
  intro r
  have htags : vecTags f (.vfdot2 f) (acceptDot2 f) s = none :=
    vecTags_of_match (lanewise_vfdot2 f) ht (fun _ _ => mem_accept_at (fun h => by simp [h]))
  have hres : dot2Lanes f s = (List.range 64).map r := by
    rw [dot2Lanes_eq]
    simp only [dotHalf, Nat.mul_add_mod, Nat.mul_mod_right]
    rfl
  exact ⟨fun hno => semVec_done rfl (lanewise_vfdot2 f) hr htags (fun _ => hres) rfl hno,
    semVec_flagsTrap (f := f) (s := s) (w := 32) rfl (lanewise_vfdot2 f) hr htags (fun _ => hres)⟩

/-- Settles O6: every op is done by its lane results, listed by lane number; for VFMIN and VFMAX the decoded order is that of the
bits. -/
theorem vectorFloatOps : Obligations.VectorFloatOps :=
  ⟨vectorFloats, vfabs_holds, vfneg_holds, vfclass_holds, vfscale_holds, vfdot2_holds⟩

end Sys2Proof.Machine
end

