-- ==== Sys2Proof/Proofs/VectorCompare.lean ====
section
/-! PROOFS. Ops with a mask result (R135), and the conditions of VCMP and VFCMP (R138, R142). -/

namespace Sys2Proof.Machine

open Sys2Proof.Claim

/-! ### The bits of a mask -/

theorem testBit_joinNat_bits (n : Nat) (b : Nat → Bool) (k : Nat) :
    (joinNat 1 ((List.range n).map (fun i => bnat (b i)))).testBit k = (decide (k < n) && b k) := by
  by_cases hk : k < n
  · have h := joinNat_at 1 ((List.range n).map (fun i => bnat (b i))) k (by simpa using hk)
    rw [Nat.one_mul, List.getElem_map, List.getElem_range] at h
    rw [Nat.testBit_eq_decide_div_mod_eq, show (2 : Nat) = 2 ^ 1 from rfl, ← Nat.pow_mul, Nat.one_mul, h]
    cases hb : b k <;> simp [hk, bnat]
  · have hlt := joinNat_lt 1 ((List.range n).map (fun i => bnat (b i)))
    rw [Nat.one_mul, List.length_map, List.length_range] at hlt
    rw [Nat.testBit_lt_two_pow (lt_of_lt_of_le hlt (Nat.pow_le_pow_right (by omega) (Nat.le_of_not_lt hk)))]
    simp [hk]

/-- The bits an inactive lane of a mask result keeps: the old ones of the predicate that D names (R135). -/
def oldMask (w : Bool) (d : DReg) (c : Ctx) (k : Nat) : Bool :=
  match w, d with | true, .pred p => (c.pred p).getLsbD k | _, _ => false

theorem maskOf_eq (s : State) (g : Guard) (w : Bool) (d : DReg) (n : Nat) (c : Nat → Bool) :
    maskOf w d s.me (s.laneMask g n) ((List.range n).map c) =
      joinNat 1 ((List.range n).map (fun k => bnat (if s.me.guardBit g k then c k else oldMask w d s.me k))) := by
  unfold maskOf State.laneMask
  dsimp only
  rw [List.zip_map', zipIdx_map_range, List.map_map]
  cases w <;> cases d <;> rfl

theorem testBit_maskOf (s : State) (g : Guard) (w : Bool) (d : DReg) (n : Nat) (c : Nat → Bool) (k : Nat) :
    (maskOf w d s.me (s.laneMask g n) ((List.range n).map c)).testBit k =
      (decide (k < n) && if s.me.guardBit g k then c k else oldMask w d s.me k) := by
  rw [maskOf_eq, testBit_joinNat_bits]

theorem maskOf_lt (s : State) (g : Guard) (w : Bool) (d : DReg) (n : Nat) (c : Nat → Bool) :
    maskOf w d s.me (s.laneMask g n) ((List.range n).map c) < 2 ^ n := by
  refine Nat.lt_pow_two_of_testBit _ (fun k hk => ?_)
  rw [testBit_maskOf]; simp [Nat.not_lt.mpr hk]

theorem laneCount_le_256 (t : Tag) : 2048 / tagWidth t ≤ 256 := by cases t <;> decide

/-! ### The two deliveries of a mask -/

/-- D names a predicate that the op writes. -/
def NamesPred (w : Bool) (d : DReg) (p : Fin 16) : Prop := w = true ∧ d = .pred p

theorem oldMask_vector {w : Bool} {d : DReg} (h : ¬ ∃ p, NamesPred w d p) (c : Ctx) (k : Nat) : oldMask w d c k = false := by
  cases w with
  | false => rfl
  | true => cases d with
    | pred p => exact absurd ⟨p, rfl, rfl⟩ h
    | _ => rfl

theorem deliverMask_vector {w : Bool} {d : DReg} (h : ¬ ∃ p, NamesPred w d p) (m : Nat) :
    deliverMask w d m = fun c => c.resultV w d { v := BitVec.ofNat 2048 m, tag := .bits } := by
  cases w with
  | false => rfl
  | true => cases d with
    | pred p => exact absurd ⟨p, rfl, rfl⟩ h
    | _ => rfl

theorem maskDone_vector {s t : State} {i : Instr} {w : Bool} {d : DReg} {g : Guard} {n : Nat} {cond : Nat → Bool} {fl : Flags}
    (h : ¬ ∃ p, NamesPred w d p) {v : VVal} (htag : v.tag = .bits) (hpoison : v.poison = none)
    (hbits : ∀ k, v.v.getLsbD k = (decide (k < n) && (s.me.guardBit g k && cond k))) (hd : VectorDone s t i w d v fl) :
    MaskDone s t i w d g n cond fl := by
  cases w with
  | false => exact ⟨v, htag, hpoison, hbits, hd⟩
  | true => cases d with
    | pred p => exact absurd ⟨p, rfl, rfl⟩ h
    | _ => exact ⟨v, htag, hpoison, hbits, hd⟩

theorem setWidth_mask {m n : Nat} (hm : m < 2 ^ n) (hn : n ≤ 256) : (BitVec.ofNat 256 m).setWidth 2048 = BitVec.ofNat 2048 m := by
  have h := lt_of_lt_of_le hm (Nat.pow_le_pow_right (by omega) hn)
  apply BitVec.eq_of_toNat_eq
  rw [BitVec.toNat_setWidth, BitVec.toNat_ofNat, BitVec.toNat_ofNat, Nat.mod_eq_of_lt h]

/-! ### Ops done by their mask -/

section
variable {i : Instr} {f : RegF} {s : State} {tags : State → Option TagFail} {cond : State → List (Bool × Flags)}
  {free : State → List Bool} {c : Nat → Bool × Flags}
  (hexec : exec i s = issueOne (semMask f i tags cond free) i s)
  (hi : Instr.Lanewise i) (hr : s.Ready i) (htags : tags s = none)
  (hcond : cond s = (List.range (2048 / tagWidth (vT f))).map c)

include hcond in
/-- What a mask op runs: the flags of its lanes and the delivery of its mask. -/
theorem semMask_run (a : At) :
    ((semMask f i tags cond free).run s a).flags = laneFlags (s.laneMask f.g (2048 / tagWidth (vT f)))
      ((List.range (2048 / tagWidth (vT f))).map (fun k => (0, (c k).2))) ∧
    ((semMask f i tags cond free).run s a).eff =
      Live.me (deliverMask f.w f.d (maskOf f.w f.d s.me (s.laneMask f.g (2048 / tagWidth (vT f)))
        ((List.range (2048 / tagWidth (vT f))).map (fun k => (c k).1)))) := by
  simp only [semMask, hcond, List.map_map]
  exact ⟨rfl, rfl⟩

include hexec hi hr htags hcond

/-- A mask op whose flags do not trap delivers the mask of its conditions. -/
theorem semMask_done
    (hf : s.me.tr.hm = true ∨ flagTrap s.me.csr.fpctl [(0, laneFlags (s.laneMask f.g (2048 / tagWidth (vT f)))
      ((List.range (2048 / tagWidth (vT f))).map (fun k => (0, (c k).2))))] = none) :
    ∃ t, exec i s = .next t ∧ MaskDone s t i f.w f.d f.g (2048 / tagWidth (vT f)) (fun k => (c k).1)
      (orFlags (laneFlags (s.laneMask f.g (2048 / tagWidth (vT f)))
        ((List.range (2048 / tagWidth (vT f))).map (fun k => (0, (c k).2))))) := by
  have hm : (semMask f i tags cond free).OnlyFlags s := { tags := htags }
  obtain ⟨hflags, heff⟩ := semMask_run (i := i) (tags := tags) (free := free) hcond
    (s.lone i ((semMask f i tags cond free).draw s).1)
  rw [← hflags] at hf ⊢
  have hp := hm.passes hi.light hf
  have hbit := testBit_maskOf s f.g f.w f.d (2048 / tagWidth (vT f)) (fun k => (c k).1)
  have hlt := maskOf_lt s f.g f.w f.d (2048 / tagWidth (vT f)) (fun k => (c k).1)
  have h256 := laneCount_le_256 (vT f)
  generalize maskOf f.w f.d s.me _ _ = m at heff hbit hlt
  rw [hexec]
  by_cases hpred : ∃ p, NamesPred f.w f.d p
  · obtain ⟨p, hw, hd⟩ := hpred
    rw [hw, hd] at heff hbit ⊢
    obtain ⟨t, ht, hdone⟩ := issueOne_pred s i _ _ p (BitVec.ofNat 256 m) (plain_of hi.plain) hi.light hr hp
      (local_me (by rw [Sem.out, heff, setWidth_mask hlt h256]; rfl)) rfl
    refine ⟨t, ht, _, fun k => ?_, hdone⟩
    rw [BitVec.getLsbD_ofNat, hbit]
    by_cases hk : k < 2048 / tagWidth (vT f)
    · simp [hk, show k < 256 by omega, oldMask]
    · simp [hk]
  · rw [deliverMask_vector hpred] at heff
    obtain ⟨t, ht, hdone⟩ := issueOne_vector s i _ _ f.w f.d _ (plain_of hi.plain) hi.light hr hp (local_me heff)
    refine ⟨t, ht, maskDone_vector hpred rfl rfl (fun k => ?_) hdone⟩
    rw [BitVec.getLsbD_ofNat, hbit, oldMask_vector hpred]
    by_cases hk : k < 2048 / tagWidth (vT f)
    · simp [hk, show k < 2048 by omega]
    · simp [hk]

theorem semMask_flagsTrap : FlagsTrap s i f.g (2048 / tagWidth (vT f)) (fun k => (c k).2) :=
  Sem.OnlyFlags.flagsTrap (r := fun k => (0, (c k).2)) hexec { tags := htags } hi.toSingle hr (semMask_run hcond _).1

end

/-! ### VCMP (R138) -/

theorem vcmpCond_eq {t : Tag} (ht : isIntTag t = true) (k : Nat) (a b : BitVec (tagWidth t)) :
    vcmpCond t k a.toNat b.toNat = laneCond k (t != .uint8) a b := by
  have hlt : decide (intVal t a.toNat < intVal t b.toNat) = if t != .uint8 then a.slt b else a.ult b := by
    rw [intVal_eq ht, intVal_eq ht]
    split
    · exact (BitVec.slt_eq_decide ..).symm
    · simp [BitVec.ult_eq_decide]
  have heq : (a.toNat == b.toNat) = (a == b) := by rw [Bool.eq_iff_iff]; simp [BitVec.toNat_eq]
  have hult : decide (a.toNat < b.toNat) = a.ult b := (BitVec.ult_eq_decide ..).symm
  unfold vcmpCond laneCond
  rw [hlt, heq, bne, heq, hult]
  rfl

theorem lanewise_vcmp (f : RegF) : Instr.Lanewise (.vcmp f) :=
  { plain := rfl, light := ⟨rfl, rfl, rfl, rfl⟩, words := rfl, noD := by simp [srcs, vecB] }

theorem vcmp_holds (f : RegF) (s : State) (hr : s.Ready (.vcmp f)) (ht : VecTagsMatch s (.vcmp f) (tagT f)) :
    ∃ t, exec (.vcmp f) s = .next t ∧
      MaskDone s t (.vcmp f) f.w f.d f.g (2048 / tagWidth (vT f))
        (fun k => laneCond (f.x.toNat % 8) (vT f != .uint8) (laneA f s (tagWidth (vT f)) k) (laneB f s _ k)) 0 := by
  have hint : isIntTag (vT f) = true := vT_of_vecOk_rm (fieldsOk_of_wf (wf_of_ready hr) rfl)
  have htags : vecTags f (.vcmp f) (acceptT f) s = none := vecTags_of_match (lanewise_vcmp f) ht (fun _ _ => mem_acceptT)
  have hl : laneFlags (s.laneMask f.g (2048 / tagWidth (vT f))) ((List.range (2048 / tagWidth (vT f))).map (fun _ => (0, 0))) = [] :=
    laneFlags_silent _ _ _ (fun _ => rfl)
  have hdone := semMask_done (i := .vcmp f) rfl (lanewise_vcmp f) hr htags
    (c := fun k => (laneCond (f.x.toNat % 8) (vT f != .uint8) (laneA f s (tagWidth (vT f)) k) (laneB f s _ k), 0))
    (by rw [vA_eq, vB_eq, List.zip_map', List.map_map]
        exact congrArg (List.map · _) (funext fun k => by rw [Function.comp_apply, vcmpCond_eq hint]))
    (Or.inr (by rw [hl]; exact flagTrap_nil _))
  rwa [hl] at hdone

/-! ### VFCMP (R142) -/

/-- The signs of a comparison as conditions on what is compared. -/
theorem cmpInt_beq (a b : Int) :
    (cmpInt a b == 0) = decide (a = b) ∧ (cmpInt a b == -1) = decide (a < b) ∧ (cmpInt a b == 1) = decide (b < a) := by
  rcases Int.lt_trichotomy a b with h | h | h
  · rw [cmpInt_of_lt h]; simp [h, Int.ne_of_lt h, Int.le_of_lt h]
  · simp [cmpInt, h]
  · rw [cmpInt_of_gt h]; simp [h, Int.ne_of_gt h, Int.le_of_lt h]

theorem vfcmpLane_eq {t : Tag} (ht : isFpTag t = true) (k : Nat) (a b : BitVec (tagWidth t)) :
    vfcmpLane (fmtOf t) k a.toNat b.toNat = (fpCond t k a b, fpCondFlags t k a b) := by
  unfold vfcmpLane fpCond fpCondFlags
  simp only [isNan_fdec ht, isSig_fdec ht]
  refine Prod.ext ?_ rfl
  by_cases hn : (isNaN t a || isNaN t b) = true
  · simp [hn] <;> rfl
  · rw [Bool.not_eq_true] at hn
    obtain ⟨ha, hb⟩ := Bool.or_eq_false_iff.mp hn
    obtain ⟨h0, hlt, hgt⟩ := cmpInt_beq (rankOf a) (rankOf b)
    simp only [hn, fcmp_fdec ht a b ha hb, bne, h0, hlt, hgt, Bool.not_false, Bool.true_and, Bool.false_or, ← decide_not, Int.not_lt] <;>
      rfl

theorem lanewise_vfcmp (f : RegF) : Instr.Lanewise (.vfcmp f) :=
  { plain := rfl, light := ⟨rfl, rfl, rfl, rfl⟩, words := rfl, noD := by simp [srcs, vecB] }

theorem vfcmp_holds (f : RegF) (s : State) (hr : s.Ready (.vfcmp f)) (ht : VecTagsMatch s (.vfcmp f) (tagT f)) :
    let w := tagWidth (vT f)
    let flags (k : Nat) : Flags := fpCondFlags (vT f) (f.x.toNat % 8) (laneA f s w k) (laneB f s w k)
    (NoFlagTraps s →
      ∃ t fl, exec (.vfcmp f) s = .next t ∧
        MaskDone s t (.vfcmp f) f.w f.d f.g (2048 / w)
          (fun k => fpCond (vT f) (f.x.toNat % 8) (laneA f s w k) (laneB f s w k)) fl ∧
        FlagsOf s f.g (2048 / w) flags fl) ∧
    FlagsTrap s (.vfcmp f) f.g (2048 / w) flags := by
  intro w flags
  have hfp : isFpTag (vT f) = true := vT_of_vecOk_rm (fieldsOk_of_wf (wf_of_ready hr) rfl)
  have htags : vecTags f (.vfcmp f) (acceptT f) s = none := vecTags_of_match (lanewise_vfcmp f) ht (fun _ _ => mem_acceptT)
  have hcond : ((vA f s).zip (vB f s)).map (fun p => vfcmpLane (vFmt f) (f.x.toNat % 8) p.1 p.2) =
      (List.range (2048 / w)).map (fun k => (fpCond (vT f) (f.x.toNat % 8) (laneA f s w k) (laneB f s w k), flags k)) := by
    rw [vA_eq, vB_eq, List.zip_map', List.map_map]
    exact congrArg (List.map · _) (funext fun k => vfcmpLane_eq hfp _ _ _)
  refine ⟨fun hno => ?_, semMask_flagsTrap rfl (lanewise_vfcmp f) hr htags hcond⟩
  obtain ⟨t, ht, hd⟩ := semMask_done (i := .vfcmp f) rfl (lanewise_vfcmp f) hr htags hcond (flagTrap_of_noFlagTraps hno _)
  exact ⟨t, _, ht, hd, flagsOf_laneFlags s f.g (2048 / w) (fun k => (0, flags k))⟩

/-- Settles O5: both ops are done by the conditions of their lanes; VFCMP orders decoded elements as their bits are ordered. -/
theorem vectorCompares : Obligations.VectorCompares := ⟨vcmp_holds, vfcmp_holds⟩

end Sys2Proof.Machine
end

