-- ==== Sys2Proof/Proofs/ScalarForms.lean ====
section
/-! PROOFS. The scalar ops over bit vectors (R110, R113), and those with a rule of their own: division, CMP, MOVC (R114 to
R116). -/

namespace Sys2Proof.Machine

open Sys2Proof.Claim

/-! ### Numbers read as integers -/

theorem asInt_toNat {n : Nat} (hn : 0 < n) (sg : Bool) (x : BitVec n) :
    asInt n sg x.toNat = if sg then x.toInt else (x.toNat : Int) := by
  obtain ⟨m, rfl⟩ := Nat.exists_eq_succ_of_ne_zero (Nat.pos_iff_ne_zero.mp hn)
  have hp : (2 : Nat) ^ (m + 1) = 2 * 2 ^ m := by rw [Nat.pow_succ, Nat.mul_comm]
  unfold asInt
  cases sg
  · simp
  · rw [BitVec.toInt_eq_toNat_cond]
    simp only [Bool.true_and, decide_eq_true_eq, Nat.succ_eq_add_one, Nat.add_sub_cancel, if_true]
    by_cases h : 2 ^ m ≤ x.toNat
    · rw [if_pos h, if_neg (by omega)]; push_cast; rfl
    · rw [if_neg h, if_pos (by omega)]

theorem intBits_eq_ofInt (n : Nat) (z : Int) : intBits n z = (BitVec.ofInt n z).toNat := by
  rw [intBits, BitVec.toNat_ofInt]; push_cast; rfl

/-- A comparison of numbers read as signed or as unsigned. -/
theorem asInt_lt {n : Nat} (hn : 0 < n) (sg : Bool) (x y : BitVec n) :
    asInt n sg x.toNat < asInt n sg y.toNat ↔ (if sg then x.slt y else x.ult y) = true := by
  rw [asInt_toNat hn, asInt_toNat hn]
  cases sg <;> simp [BitVec.slt_eq_decide, BitVec.ult_eq_decide]

/-! ### The mould of R110 -/

/-- A function of the model agrees with one over bit vectors at the two widths of a scalar op. -/
def AgreesWith (fn : ScalarFn) (r : TableFn) : Prop :=
  ∀ n, n = 32 ∨ n = 64 → ∀ (sg : Bool) (a b c : BitVec n), fn n sg a.toNat b.toNat c.toNat = (r n sg a b c).toNat

theorem opd_toNat (n : Nat) (f : RegF) (s : State) (o : Operand) :
    (s.rdS (scalarOpTag f) o).v.toNat % 2 ^ n = (opd n f s o).toNat := (BitVec.toNat_setWidth ..).symm

theorem scalarX_lt {f : RegF} (h : scalarX f = true) : f.x.toNat < 3 := by
  simp only [scalarX, Bool.and_eq_true, decide_eq_true_eq] at h
  exact h.1.1

/-- Guarded off, the table gives A with its tag (R16). -/
theorem tableVal_guardedOff {f : RegF} (r : TableFn) {s : State} (ha : ¬ s.active f.g = true) : tableVal f r s = scalarFirst f s := by
  rw [tableVal, if_neg ha, scalarFirst]
  cases f.t <;> cases f.a <;> rfl

theorem scalarExt_signed {f : RegF} (hx : f.x.toNat % 4 = 1) (r : BitVec 32) : scalarExt f r.toNat = r.signExtend 64 := by
  rw [scalarExt, if_pos hx, Nat.mod_eq_of_lt r.isLt, asInt_toNat (by decide), if_pos rfl]; rfl

theorem scalarExt_unsigned {f : RegF} {n : Nat} (hx : f.x.toNat % 4 ≠ 1) (r : BitVec n) : scalarExt f r.toNat = r.setWidth 64 := by
  rw [scalarExt, if_neg hx]; exact BitVec.ofNat_toNat ..

/-- What a scalar REG op delivers is its value of the table. -/
theorem scalarOut_eq {f : RegF} {fn : ScalarFn} {r : TableFn} (s : State) (hx : f.x.toNat < 3) (h : AgreesWith fn r) :
    scalarOut f fn s = tableVal f r s := by
  by_cases ha : s.active f.g = true
  · rw [scalarOut, tableVal, if_pos ha, if_pos ha]
    obtain h0 | h1 | h2 : f.x.toNat % 4 = 0 ∨ f.x.toNat % 4 = 1 ∨ f.x.toNat % 4 = 2 := by omega
    · have hr : scalarRaw f fn s = (r 64 true (opd 64 f s f.a) (opd 64 f s f.b) (opd 64 f s f.c)).toNat := by
        simp only [scalarRaw, scalarBits, scalarSigned, h0, opd_toNat]; exact h 64 (.inr rfl) ..
      rw [hr, scalarExt_unsigned (by omega)]
      simp [scalarTag, h0]
    · have hr : scalarRaw f fn s = (r 32 true (opd 32 f s f.a) (opd 32 f s f.b) (opd 32 f s f.c)).toNat := by
        simp only [scalarRaw, scalarBits, scalarSigned, h1, opd_toNat]; exact h 32 (.inl rfl) ..
      rw [hr, scalarExt_signed h1]
      simp [scalarTag, h1]
    · have hr : scalarRaw f fn s = (r 32 false (opd 32 f s f.a) (opd 32 f s f.b) (opd 32 f s f.c)).toNat := by
        simp only [scalarRaw, scalarBits, scalarSigned, h2, opd_toNat]; exact h 32 (.inl rfl) ..
      rw [hr, scalarExt_unsigned (by omega)]
      simp [scalarTag, h2]
  · rw [scalarOut, if_neg ha, tableVal_guardedOff r ha]

/-! ### DIV and REM (R114) -/

theorem toNat_eq_zero {n : Nat} (x : BitVec n) : x.toNat = 0 ↔ x = 0 :=
  ⟨fun h => BitVec.eq_of_toNat_eq h, fun h => h ▸ rfl⟩

/-- The signed quotient, which overflows where the most negative number is divided by -1. -/
theorem ofInt_tdiv {n : Nat} (a b : BitVec n) : BitVec.ofInt n (a.toInt.tdiv b.toInt) = a.sdiv b :=
  BitVec.eq_of_toInt_eq (by rw [BitVec.toInt_ofInt, BitVec.toInt_sdiv])

theorem ofInt_tmod {n : Nat} (a b : BitVec n) : BitVec.ofInt n (a.toInt.tmod b.toInt) = a.srem b := by
  rw [← BitVec.toInt_srem, BitVec.ofInt_toInt]

theorem ofInt_div {n : Nat} (a b : BitVec n) : BitVec.ofInt n ((a.toNat : Int).tdiv b.toNat) = a / b := by
  rw [← Int.ofNat_tdiv, ← BitVec.toNat_udiv, BitVec.ofInt_natCast, BitVec.ofNat_toNat, BitVec.setWidth_eq]

theorem ofInt_mod {n : Nat} (a b : BitVec n) : BitVec.ofInt n ((a.toNat : Int).tmod b.toNat) = a % b := by
  rw [← Int.ofNat_tmod, ← BitVec.toNat_umod, BitVec.ofInt_natCast, BitVec.ofNat_toNat, BitVec.setWidth_eq]

theorem agrees_div : AgreesWith fnDiv (fun n sg a b _ => if b = 0 then BitVec.allOnes n else if sg then a.sdiv b else a / b) := by
  intro n hn sg a b _
  have hpos : 0 < n := by omega
  unfold fnDiv
  dsimp only
  by_cases hb : b = 0
  · rw [if_pos ((toNat_eq_zero b).mpr hb), if_pos hb, BitVec.toNat_allOnes]
  · rw [if_neg (mt (toNat_eq_zero b).mp hb), if_neg hb, intBits_eq_ofInt, asInt_toNat hpos, asInt_toNat hpos]
    cases sg
    · exact congrArg BitVec.toNat (ofInt_div a b)
    · exact congrArg BitVec.toNat (ofInt_tdiv a b)

theorem agrees_rem : AgreesWith fnRem (fun _ sg a b _ => if b = 0 then a else if sg then a.srem b else a % b) := by
  intro n hn sg a b _
  have hpos : 0 < n := by omega
  unfold fnRem
  dsimp only
  by_cases hb : b = 0
  · rw [if_pos ((toNat_eq_zero b).mpr hb), if_pos hb]
  · rw [if_neg (mt (toNat_eq_zero b).mp hb), if_neg hb, intBits_eq_ofInt, asInt_toNat hpos, asInt_toNat hpos]
    cases sg
    · exact congrArg BitVec.toNat (ofInt_mod a b)
    · exact congrArg BitVec.toNat (ofInt_tmod a b)

/-- An op divides by zero where its divisor, cut to its width, is zero. -/
theorem divFlags_eq (f : RegF) (s : State) : divFlags f s = if byZero f s then [(0, fIDZ)] else [] := by
  have hz : ((s.rdS (scalarOpTag f) f.b).v.toNat % 2 ^ scalarBits f == 0) =
      if f.x.toNat % 4 = 0 then opd 64 f s f.b == 0 else opd 32 f s f.b == 0 := by
    have key : ∀ n, ((s.rdS (scalarOpTag f) f.b).v.toNat % 2 ^ n == 0) = (opd n f s f.b == 0) := fun n => by
      rw [opd_toNat, Bool.eq_iff_iff, beq_iff_eq, beq_iff_eq, toNat_eq_zero]
    unfold scalarBits
    split <;> exact key _
  unfold divFlags byZero
  rw [hz]

/-- The trap of IDZ, the lowest cause of all (R42). -/
theorem flagTrap_idz (x : BitVec 12) : flagTrap x [(0, [(0, fIDZ)])] =
    if x.getLsbD 10 then some { kind := .P, cause := 0x10, slot := 0, info0 := 0, info1 := 0x40 } else none := by
  have hall : orFlags [(0, orFlags [(0, fIDZ)])] = fIDZ := by decide
  unfold flagTrap
  simp only [List.map_cons, List.map_nil, hall]
  cases hx : x.getLsbD 10
  · rw [List.findSome?_eq_none_iff.mpr]
    · rfl
    · intro e he
      have hoff : (fIDZ.getLsbD e.1 && x.getLsbD e.2.1) = false := by
        simp only [flagCauses, List.mem_cons, List.not_mem_nil, or_false] at he
        rcases he with rfl | rfl | rfl | rfl | rfl | rfl | rfl
        · rw [hx]; rfl
        all_goals rfl
      rw [hoff]; rfl
  · simp [flagCauses, hx, fIDZ, firstRaised, wd]

/-- DIV or REM: what the two share. -/
structure DivOp (i : RegF → Instr) (r : TableFn) : Prop where
  single : ∀ f, Instr.Single (i f)
  abc : ∀ f, Instr.abc (i f)
  fields : ∀ f, fieldsOk (i f) = scalarOk true false f
  lone : ∀ f, opsOf 0 (i f) = [i f]
  exec : ∃ fn, AgreesWith fn r ∧ ∀ f s, exec (i f) s = issueOne (semScalar f (i f) fn (divFlags f)) (i f) s

theorem divOp_of_mem {p : (RegF → Instr) × TableFn} (hp : p ∈ divs) : DivOp p.1 p.2 := by
  simp only [divs, List.mem_cons, List.not_mem_nil, or_false] at hp
  rcases hp with rfl | rfl
  · exact ⟨fun _ => ⟨rfl, ⟨rfl, rfl, rfl, rfl⟩, rfl⟩, fun _ => abc_two rfl, fun _ => rfl, fun _ => rfl,
      _, agrees_div, fun _ _ => rfl⟩
  · exact ⟨fun _ => ⟨rfl, ⟨rfl, rfl, rfl, rfl⟩, rfl⟩, fun _ => abc_two rfl, fun _ => rfl, fun _ => rfl,
      _, agrees_rem, fun _ _ => rfl⟩

theorem DivOp.done {i : RegF → Instr} {r : TableFn} (h : DivOp i r) {f : RegF} {s : State} (hr : s.Ready (i f))
    (ht : TagsMatch s (i f) f.t) (hno : s.me.tr.hm = true ∨ s.me.csr.fpctl.getLsbD 10 = false ∨ byZero f s = false) :
    ∃ t, Machine.exec (i f) s = .next t ∧ ScalarDone s t (i f) f.w f.d (tableVal f r s) (if byZero f s then 0x40#7 else 0) := by
  obtain ⟨fn, hag, hexec⟩ := h.exec
  have hx := scalarX_lt (scalarX_of_ok (h.fields f ▸ fieldsOk_of_wf (wf_of_ready hr) (h.lone f)))
  obtain ⟨t, hst, hd⟩ := issueOne_semScalar s f (i f) fn (divFlags f) (plain_of (h.single f).plain) (h.single f).light (h.abc f)
    hr ht (by
      rw [divFlags_eq]
      rcases hno with hm | hdis | hz
      · exact .inl hm
      · refine .inr ?_; split
        · rw [flagTrap_idz, hdis]; rfl
        · exact flagTrap_nil _
      · rw [hz]; exact .inr (flagTrap_nil _))
  refine ⟨t, (hexec f s).trans hst, ?_⟩
  rw [scalarOut_eq s hx hag, divFlags_eq] at hd
  cases hz : byZero f s <;> rw [hz] at hd <;> exact hd

theorem DivOp.traps {i : RegF → Instr} {r : TableFn} (h : DivOp i r) {f : RegF} {s : State} (hr : s.Ready (i f))
    (ht : TagsMatch s (i f) f.t) (hh : Handles s) (hen : s.me.csr.fpctl.getLsbD 10 = true) (hz : byZero f s = true) :
    ∃ t, Machine.exec (i f) s = .next t ∧ Entered s t 0x10 0 0 0x40 1 := by
  obtain ⟨fn, -, hexec⟩ := h.exec
  rw [hexec]
  have hm : (semScalar f (i f) fn (divFlags f)).OnlyFlags s := { tags := scalarTags_none s f (i f) (h.abc f) ht }
  refine hm.enters (h.single f) hr hh (x := { kind := .P, cause := 0x10, slot := 0, info0 := 0, info1 := 0x40 }) ?_
  show flagTrap s.me.csr.fpctl [(0, divFlags f s)] = _
  rw [divFlags_eq, hz, if_pos rfl, flagTrap_idz, hen]
  rfl

theorem scalarDivision : ScalarDivision := fun _ hp _ _ hr ht =>
  ⟨fun hno => (divOp_of_mem hp).done hr ht hno, fun hh hen hz => (divOp_of_mem hp).traps hr ht hh hen hz⟩

/-! ### CMP (R115) -/

/-- The comparison of a CMP as a scalar function. -/
def fnCmp (c : Operand) : ScalarFn := fun n sg a b _ => intBits n (cmpRes (cmpCond c) n sg a b)

theorem cmpRes_range (k n : Nat) (sg : Bool) (a b : Nat) :
    cmpRes k n sg a b = 0 ∨ cmpRes k n sg a b = 1 ∨ cmpRes k n sg a b = -1 := by
  have two : ∀ (p : Prop) [Decidable p], (if p then (1 : Int) else 0) = 0 ∨ (if p then (1 : Int) else 0) = 1 ∨
      (if p then (1 : Int) else 0) = -1 := fun p _ => by by_cases h : p <;> simp [h]
  have two' : ∀ (p : Prop) [Decidable p], (if p then (0 : Int) else 1) = 0 ∨ (if p then (0 : Int) else 1) = 1 ∨
      (if p then (0 : Int) else 1) = -1 := fun p _ => by by_cases h : p <;> simp [h]
  unfold cmpRes
  dsimp only
  split
  · exact two _
  · exact two' _
  · exact two _
  · exact two' _
  · exact two _
  · exact two' _
  · by_cases h : asInt n sg a < asInt n sg b
    · rw [if_pos h]; simp
    · rw [if_neg h]; exact two _

/-- The comparison over bit vectors is that over the numbers they hold. -/
theorem cmpFn_eq (c : Operand) {n : Nat} (hn : 0 < n) (sg : Bool) (a b x : BitVec n) :
    cmpFn c n sg a b x = BitVec.ofInt n (cmpRes (cmpCond c) n sg a.toNat b.toNat) := by
  have heq : a.toNat = b.toNat ↔ a = b := BitVec.toNat_eq.symm
  have hult : a.toNat < b.toNat ↔ a.ult b = true := by simp [BitVec.ult_eq_decide]
  have hzero : BitVec.ofInt n 0 = 0 := BitVec.ofInt_ofNat ..
  have hone : BitVec.ofInt n 1 = 1 := BitVec.ofInt_ofNat ..
  have hall : BitVec.ofInt n (-1) = BitVec.allOnes n := by rw [BitVec.ofInt_neg, hone]; exact BitVec.neg_one_eq_allOnes
  unfold cmpFn cmpRes
  simp only [asInt_lt hn, heq, hult]
  cases c <;> simp only [cmpCond, apply_ite (BitVec.ofInt n), hzero, hone, hall]

theorem agrees_cmp (c : Operand) : AgreesWith (fnCmp c) (cmpFn c) := by
  intro n hn sg a b x
  rw [fnCmp, intBits_eq_ofInt, cmpFn_eq c (by omega)]

theorem cmpFn_beq_zero (c : Operand) {n : Nat} (hn : n = 32 ∨ n = 64) (sg : Bool) (a b x : BitVec n) :
    (cmpFn c n sg a b x == 0) = decide (cmpRes (cmpCond c) n sg a.toNat b.toNat = 0) := by
  rw [cmpFn_eq c (by omega)]
  rcases cmpRes_range (cmpCond c) n sg a.toNat b.toNat with h | h | h <;> rw [h] <;> rcases hn with rfl | rfl <;> rfl

theorem cmpOf_eq_zero {f : RegF} (s : State) (hx : f.x.toNat < 3) : decide (cmpOf f s = 0) = cmpZero f s := by
  unfold cmpOf cmpZero
  obtain h0 | h1 | h2 : f.x.toNat % 4 = 0 ∨ f.x.toNat % 4 = 1 ∨ f.x.toNat % 4 = 2 := by omega
  · simp only [scalarBits, scalarSigned, h0, opd_toNat]; exact (cmpFn_beq_zero _ (.inr rfl) ..).symm
  · simp only [scalarBits, scalarSigned, h1, opd_toNat]; exact (cmpFn_beq_zero _ (.inl rfl) ..).symm
  · simp only [scalarBits, scalarSigned, h2, opd_toNat]; exact (cmpFn_beq_zero _ (.inl rfl) ..).symm

theorem single_cmp (f : RegF) : Instr.Single (.cmp f) := ⟨rfl, ⟨rfl, rfl, rfl, rfl⟩, rfl⟩

/-- The mask of a comparison (R115). -/
theorem cmpMask_eq {f : RegF} (s : State) (hx : f.x.toNat < 3) (p : Fin 16) :
    (if s.active f.g then (if cmpOf f s = 0 then 0 else BitVec.allOnes 256) else s.me.pred p) = cmpMask s f.g p (cmpZero f s) := by
  rw [cmpMask, ← cmpOf_eq_zero s hx]; simp

theorem semCmp_eff (f : RegF) (s : State) (a : At) : ((semCmp f).run s a).eff =
    Live.me (cmpDeliver f.w f.d (s.active f.g) (cmpOf f s) (scalarOut f (fnCmp f.c) s) s.me) := rfl

theorem cmpDeliver_scalar {w : Bool} {d : DReg} (h : ¬ ∃ p, NamesPred w d p) (act : Bool) (r : Int) (v : SVal) (c : Ctx) :
    cmpDeliver w d act r v c = fun c => c.resultS w d v := by
  cases w with
  | false => rfl
  | true => cases d with
    | pred p => exact absurd ⟨p, rfl, rfl⟩ h
    | _ => rfl

theorem scalarCompare : ScalarCompare := by
  intro f s hr ht
  have hok := fieldsOk_of_wf (wf_of_ready hr) rfl
  have hx := scalarX_lt (scalarX_of_ok (Bool.and_eq_true _ _ ▸ hok : _ ∧ _).1)
  have hm : (semCmp f).OnlyFlags s := { tags := scalarTags_none s f (.cmp f) (abc_two rfl) ht }
  have hp := hm.passes (single_cmp f).light (Or.inr (flagTrap_nil _))
  by_cases hpred : ∃ p, NamesPred f.w f.d p
  · obtain ⟨p, hw, hd⟩ := hpred
    obtain ⟨t, hst, hdone⟩ := issueOne_pred s (.cmp f) (semCmp f) _ p (cmpMask s f.g p (cmpZero f s)) (plain_of rfl)
      (single_cmp f).light hr hp (local_me (by rw [Sem.out, semCmp_eff, hw, hd, ← cmpMask_eq s hx]; rfl)) rfl
    refine ⟨t, hst, ?_⟩
    rw [hw, hd]
    exact hdone
  · obtain ⟨t, hst, hdone⟩ := issueOne_scalar s (.cmp f) (semCmp f) _ f.w f.d (tableVal f (cmpFn f.c) s) (plain_of rfl)
      (single_cmp f).light hr hp
      (local_me (by rw [Sem.out, semCmp_eff, cmpDeliver_scalar hpred, scalarOut_eq s hx (agrees_cmp f.c)])) rfl
    refine ⟨t, hst, ?_⟩
    generalize f.w = w, f.d = d at hpred hdone
    cases w with
    | false => exact hdone
    | true => cases d with
      | pred p => exact absurd ⟨p, rfl, rfl⟩ hpred
      | _ => exact hdone

/-! ### MOVC (R116) -/

theorem movcOut_tag {f : RegF} {u : Tag} (s : State) (ht : f.t = .tag u) : movcOut f s =
    { v := (s.rdS (scalarOpTag f) f.a).v, tag := if s.active f.g then u else (s.rdS u f.a).tag } := by
  simp only [movcOut, scalarOpTag, ht]

theorem movcOut_any {f : RegF} (s : State) (ht : f.t = .any) (hx : f.x = 0) : movcOut f s =
    { v := (s.rdS (scalarOpTag f) f.a).v, tag := (s.rdS .int64 f.a).tag } := by
  simp [movcOut, scalarOpTag, ht, scalarTag, hx]

theorem moveRetags : MoveRetags := by
  intro f s hr
  have hok : (f.w && f.x == 0 && f.rm == .rne && f.z == 0 && unused f.b && unusedC f.c) = true :=
    fieldsOk_of_wf (wf_of_ready hr) rfl
  have hx : f.x = 0 := by
    simp only [Bool.and_eq_true, beq_iff_eq] at hok
    obtain ⟨⟨⟨⟨⟨-, hx⟩, -⟩, -⟩, -⟩, -⟩ := hok
    exact hx
  have hm : (semMovc f).OnlyFlags s := { tags := rfl }
  have hl : Instr.light (.movc f) := ⟨rfl, rfl, rfl, rfl⟩
  obtain ⟨t, hst, hd⟩ := issueOne_scalar s (.movc f) (semMovc f) _ f.w f.d _ (plain_of rfl) hl hr
    (hm.passes hl (Or.inr (flagTrap_nil _))) (local_me rfl) rfl
  refine ⟨t, hst, ?_⟩
  cases ht : f.t with
  | tag u => rw [movcOut_tag s ht] at hd; exact hd
  | any => rw [movcOut_any s ht hx] at hd; exact hd

/-- Settles O2: DIV, REM and CMP deliver their functions over bit vectors; IDZ is the lowest cause, so its trap is the first. -/
theorem scalarForms : Obligations.ScalarForms := ⟨scalarDivision, scalarCompare, moveRetags⟩

end Sys2Proof.Machine
end

