-- ==== Sys2Proof/Proofs/Converter.lean ====
section
/-! PROOFS. The converter ops (R146 to R150): the random word, the lanes filled, and the merge of R132 and R146. -/

namespace Sys2Proof.Machine

open Sys2Proof.Claim

/-! ### Packed lanes by number -/

theorem lane_packLanes_range {w n : Nat} (r : Nat → Nat) {k : Nat} (hk : k < n) (hn : w * n ≤ 2048) :
    lane w (packLanes w ((List.range n).map r)) k = BitVec.ofNat w (r k) := by
  rw [lane, lane_packLanes w _ k (by simpa using hk) (by simpa using hn), List.getElem_map, List.getElem_range]

theorem lane_packLanes_above {w n : Nat} (r : Nat → Nat) {k : Nat} (hk : n ≤ k) (hn : w * n ≤ 2048) :
    lane w (packLanes w ((List.range n).map r)) k = 0 := by
  have hlt := joinNat_lt w ((List.range n).map r)
  rw [List.length_map, List.length_range] at hlt
  apply BitVec.eq_of_toNat_eq
  rw [lane, lane_toNat, packLanes, BitVec.toNat_ofNat, Nat.mod_eq_of_lt (lt_of_lt_of_le hlt (Nat.pow_le_pow_right (by omega) hn)),
    Nat.div_eq_of_lt (lt_of_lt_of_le hlt (Nat.pow_le_pow_right (by omega) (Nat.mul_le_mul_left w hk)))]
  rfl

/-! ### The lanes that are filled -/

/-- The lanes that are not filled raise nothing. -/
theorem laneFlags_filled (n l : Nat) (m : Nat → Bool) (r : Nat → FRes) :
    laneFlags ((List.range l).map m) ((List.range l).map (fun k => if k < n then r k else (0, 0))) =
      laneFlags ((List.range (min n l)).map m) ((List.range (min n l)).map r) := by
  rw [laneFlags_range, laneFlags_range]
  induction l with
  | zero => simp
  | succ l ih =>
    rw [List.range_succ, List.filterMap_append, ih]
    by_cases hl : l < n
    · rw [Nat.min_eq_right (Nat.le_of_lt hl), Nat.min_eq_right hl, List.range_succ, List.filterMap_append]
      simp only [List.filterMap_cons, List.filterMap_nil, if_pos hl]
    · rw [Nat.min_eq_left (Nat.le_of_not_lt hl), Nat.min_eq_left (by omega)]
      simp [hl]

theorem any_laneMask (s : State) (g : Guard) (w : Nat) :
    (s.laneMask g (laneCount w)).any id = true ↔ ∃ k < 2048 / w, s.me.guardBit g k = true := by
  simp only [State.laneMask, List.any_map, List.any_eq_true, List.mem_range, laneCount, Function.comp_apply, id]

/-- A merge with some lane active holds its result lanes under any mask. -/
theorem mergeV_range {w : Nat} (tag : Tag) (m : Nat → Bool) (a : VVal) (r : Nat → Nat) (h : ∃ k < 2048 / w, m k = true) :
    mergeV w tag ((List.range (2048 / w)).map m) (some a) ((List.range (2048 / w)).map r) =
      { v := packLanes w ((List.range (2048 / w)).map (fun k => if m k then r k else (lane w a.v k).toNat)), tag := tag } := by
  have hany : ((List.range (2048 / w)).map m).any id = true := by
    simpa only [List.any_map, List.any_eq_true, List.mem_range, Function.comp_apply, id] using h
  unfold mergeV
  simp only [hany, if_true, lanesOf_eq, List.zip_map', List.map_map]
  rfl

section
variable {s : State} {g : Guard} {w : Nat} (tag : Tag) (a : VVal) (n : Nat) (r : Nat → Nat)

/-- The merge of a converter op with some lane active: filled lanes merge, the others are zero whatever the guard. -/
theorem mergeFilled_active (h : ∃ k < 2048 / w, s.me.guardBit g k = true) :
    mergeFilled n w tag (s.laneMask g (laneCount w)) a ((List.range (2048 / w)).map (fun k => if k < n then r k else 0)) =
      { v := packLanes w ((List.range (2048 / w)).map (fun k =>
          if n ≤ k then 0 else if s.me.guardBit g k then r k else (lane w a.v k).toNat)), tag := tag } := by
  obtain ⟨j, hj, hg⟩ := h
  rw [mergeFilled, if_pos ((any_laneMask s g w).mpr ⟨j, hj, hg⟩), State.laneMask, laneCount, zipIdx_map_range, List.map_map]
  refine (mergeV_range tag _ a _ ⟨j, hj, by simp [hg]⟩).trans ?_
  refine congrArg (fun v : VWord => ({ v := v, tag := tag } : VVal))
    (congrArg (packLanes w) (congrArg (List.map · _) (funext fun k => ?_)))
  by_cases hk : n ≤ k
  · simp [hk, Nat.not_lt.mpr hk]
  · simp [hk, Nat.lt_of_not_le hk]

theorem mergeFilled_idle (h : ¬ ∃ k < 2048 / w, s.me.guardBit g k = true) (l : List Nat) :
    mergeFilled n w tag (s.laneMask g (laneCount w)) a l = { v := a.v, tag := a.tag } := by
  rw [mergeFilled, if_neg (mt (any_laneMask s g w).mp h)]

end

/-! ### Converter ops done by their lanes -/

/-- What a converter op draws (R49). -/
theorem draw_converter {m : Sem} {f : RegF} {s : State} (h : m.pops s = cvtPops f s) : m.draw s = (cvtWord f s, cvtSeed f s) := by
  unfold Sem.draw cvtWord cvtSeed
  rw [h, cvtPops]
  by_cases hs : cvtRM f s = .stoch
  · rw [hs]; rfl
  · rw [if_neg hs, if_neg hs, if_neg (by simpa using hs)]

theorem cvtByte_eq (f : RegF) (s : State) (i : Instr) (k : Nat) :
    cvtByte (cvtRM f s) (s.lone i (cvtWord f s)) k = cvtRnd f s k := by
  unfold cvtByte cvtRnd
  by_cases hs : cvtRM f s = .stoch
  · rw [hs]; rfl
  · rw [if_neg hs, if_neg (by simpa using hs)]

section
variable {i : Instr} {f : RegF} {s : State} {accept : Src → List Tag × Tag} {n : Nat} {fn : State → RMode → Nat → Nat → FRes}
  {r : Nat → FRes} (hexec : exec i s = issueOne (semCvt f i accept n fn) i s) (hi : Instr.Lanewise i) (hr : s.Ready i)
  (htags : vecTags f i accept s = none) (hfn : ∀ k, fn s (cvtRM f s) (cvtRnd f s k) k = r k)

include hfn in
theorem semCvt_run :
    ((semCvt f i accept n fn).out s i).flags =
      laneFlags (s.laneMask f.g (min n (2048 / tagWidth (cvtD f)))) ((List.range (min n (2048 / tagWidth (cvtD f)))).map r) ∧
    ((semCvt f i accept n fn).out s i).eff = Live.me (fun c => c.resultV f.w f.d
      (mergeFilled n (tagWidth (cvtD f)) (cvtD f) (s.laneMask f.g (laneCount (tagWidth (cvtD f)))) (s.rdV (vT f) f.a)
        ((List.range (2048 / tagWidth (cvtD f))).map (fun k => if k < n then (r k).1 else 0)))) := by
  have hres : (List.range (laneCount (tagWidth (cvtD f)))).map (fun k =>
      if k < n then fn s (cvtRM f s) (cvtByte (cvtRM f s) (s.lone i ((semCvt f i accept n fn).draw s).1) k) k else (0, 0)) =
      (List.range (2048 / tagWidth (cvtD f))).map (fun k => if k < n then r k else (0, 0)) := by
    refine congrArg (List.map · _) (funext fun k => ?_)
    rw [draw_converter (m := semCvt f i accept n fn) (f := f) rfl, cvtByte_eq, hfn]
  unfold Sem.out
  simp only [semCvt] at hres ⊢
  rw [hres]
  refine ⟨laneFlags_filled n _ _ r, ?_⟩
  rw [List.map_map]
  have hval : (fun k => ((if k < n then r k else (0, 0)) : FRes).1) = fun k => if k < n then (r k).1 else 0 :=
    funext fun k => by split <;> rfl
  rw [← hval]
  rfl

include hexec hi hr htags hfn

/-- A converter op is done by the lanes it fills, or traps by their flags. -/
theorem semCvt_holds : (NoFlagTraps s → CvtDone f s i n r) ∧
    FlagsTrap s i f.g (min n (2048 / tagWidth (cvtD f))) (fun k => (r k).2) := by
  have hm : (semCvt f i accept n fn).OnlyFlags s := { tags := htags }
  obtain ⟨hflags, heff⟩ := semCvt_run (i := i) (accept := accept) (n := n) hfn
  refine ⟨fun hno => ?_, hm.flagsTrap hexec hi.toSingle hr hflags⟩
  obtain ⟨t, ht, hd⟩ := issueOne_vector s i _ _ f.w f.d _ (plain_of hi.plain) hi.light hr
    (hm.passes hi.light (flagTrap_of_noFlagTraps hno _)) (local_me heff)
  rw [draw_converter (m := semCvt f i accept n fn) (f := f) rfl, hflags] at hd
  refine ⟨t, _, _, hexec.trans ht, hd, ?_, flagsOf_laneFlags s f.g _ r, ?_⟩
  · by_cases h : ∃ k < 2048 / tagWidth (cvtD f), s.me.guardBit f.g k = true
    · rw [mergeFilled_active _ _ n _ h]
    · rw [mergeFilled_idle _ _ n h]
  · split
    · rename_i h
      rw [mergeFilled_active _ _ n _ h]
      refine ⟨rfl, fun k hk => ?_⟩
      rw [lane_packLanes_range _ hk (laneCount_le _)]
      split
      · rfl
      · split
        · rfl
        · simp
    · rename_i h
      rw [mergeFilled_idle _ _ n h]
      exact ⟨rfl, rfl⟩

end

/-! ### The tags of a converter op -/

theorem cvtOk_tags {p : Tag → Tag → Nat → Bool} {f : RegF} (h : cvtOk p f = true) : p (vT f) (cvtD f) (f.x.toNat % 8) = true := by
  simp only [cvtOk, Bool.and_eq_true] at h
  obtain ⟨-, h⟩ := h
  unfold vT cvtD
  split at h
  · rename_i ht hd; rw [ht, hd]; exact h
  · cases h

theorem mem_acceptScaled {f : RegF} {x : Src} {t : Tag} (h : if x.idx = 1 then t = .scale8 else tagT f x t) :
    t ∈ (acceptScaled f x).1 := mem_accept_at (fun h => by simp [h]) h

theorem lanewise_vcvt (f : RegF) : Instr.Lanewise (.vcvt f) :=
  { plain := rfl, light := ⟨rfl, rfl, rfl, rfl⟩, words := rfl, noD := by simp [srcs] }
theorem lanewise_vqnt (f : RegF) : Instr.Lanewise (.vqnt f) :=
  { plain := rfl, light := ⟨rfl, rfl, rfl, rfl⟩, words := rfl, noD := by simp [srcs] }
theorem lanewise_vdqnt (f : RegF) : Instr.Lanewise (.vdqnt f) :=
  { plain := rfl, light := ⟨rfl, rfl, rfl, rfl⟩, words := rfl, noD := by simp [srcs] }
theorem lanewise_vlcd (f : RegF) : Instr.Lanewise (.vlcd f) :=
  { plain := rfl, light := ⟨rfl, rfl, rfl, rfl⟩, words := rfl, noD := by simp [srcs] }

/-! ### VCVT (R147) -/

theorem vcvt_bits {f : RegF} {s : State} (hb : vT f = .bits ∨ cvtD f = .bits) (hr : s.Ready (.vcvt f))
    (ht : VecTagsMatch s (.vcvt f) (tagT f)) :
    ∃ t v, exec (.vcvt f) s = .next t ∧ VectorDrew s t (.vcvt f) f.w f.d v 0 (cvtSeed f s) ∧
      v.v = (s.rdV (vT f) f.a).v ∧
      v.tag = (if ∃ k < 2048 / tagWidth (cvtD f), s.me.guardBit f.g k = true then cvtD f else (s.rdV (vT f) f.a).tag) := by
  have htags : vecTags f (.vcvt f) (acceptT f) s = none := vecTags_of_match (lanewise_vcvt f) ht (fun _ _ => mem_acceptT)
  have hsem := show semVcvt f = _ from if_pos hb
  have hm : (semVcvt f).OnlyFlags s := by rw [hsem]; exact { tags := htags }
  have hout : (semVcvt f).out s (.vcvt f) = { eff := Live.me (fun c => c.resultV f.w f.d (vcvtBits f s)) } := by
    unfold Sem.out; rw [hsem]
  obtain ⟨t, hst, hd⟩ := issueOne_vector s (.vcvt f) (semVcvt f) _ f.w f.d (vcvtBits f s) (plain_of rfl) (lanewise_vcvt f).light hr
    (hm.passes (lanewise_vcvt f).light (Or.inr (by rw [hout]; exact flagTrap_nil _))) (local_me (by rw [hout]))
  rw [draw_converter (m := semVcvt f) (f := f) (by rw [hsem]), hout] at hd
  refine ⟨t, _, hst, hd, rfl, ?_⟩
  unfold vcvtBits
  dsimp only
  by_cases h : ∃ k < 2048 / tagWidth (cvtD f), s.me.guardBit f.g k = true
  · rw [if_pos h, if_pos ((any_laneMask s f.g _).mpr h)]
  · rw [if_neg h, if_neg (mt (any_laneMask s f.g _).mp h)]

theorem min_left_self (a b : Nat) : min (min a b) b = min a b := by omega

theorem vcvt_holds (f : RegF) (s : State) (hr : s.Ready (.vcvt f)) (ht : VecTagsMatch s (.vcvt f) (tagT f)) :
    let n := min (2048 / tagWidth (vT f)) (2048 / tagWidth (cvtD f))
    let r (k : Nat) : FRes := cvtElem (vT f) (cvtD f) (cvtRM f s) (cvtRnd f s k)
      (laneA f s (tagWidth (vT f)) (if tagWidth (vT f) < tagWidth (cvtD f)
        then f.x.toNat % 8 * (2048 / tagWidth (cvtD f)) + k else k)).toNat
    if vT f = .bits ∨ cvtD f = .bits then
      ∃ t v, exec (.vcvt f) s = .next t ∧ VectorDrew s t (.vcvt f) f.w f.d v 0 (cvtSeed f s) ∧
        v.v = (s.rdV (vT f) f.a).v ∧
        v.tag = (if ∃ k < 2048 / tagWidth (cvtD f), s.me.guardBit f.g k = true then cvtD f else (s.rdV (vT f) f.a).tag)
    else
      (NoFlagTraps s → CvtDone f s (.vcvt f) n r) ∧ FlagsTrap s (.vcvt f) f.g n (fun k => (r k).2) := by
  intro n r
  have htags : vecTags f (.vcvt f) (acceptT f) s = none := vecTags_of_match (lanewise_vcvt f) ht (fun _ _ => mem_acceptT)
  split
  · rename_i hb; exact vcvt_bits hb hr ht
  · rename_i hb
    have hexec : exec (.vcvt f) s = issueOne (semVcvt f) (.vcvt f) s := rfl
    rw [show semVcvt f = _ from if_neg hb] at hexec
    have h := semCvt_holds hexec (lanewise_vcvt f) hr htags (r := r) (fun k => by rw [laneAt_eq]; rfl)
    rwa [show min (vcvtFill f) (2048 / tagWidth (cvtD f)) = n from min_left_self _ _] at h

/-! ### VDQNT and VLCD (R149, R150) -/

theorem vdqnt_holds (f : RegF) (s : State) (hr : s.Ready (.vdqnt f))
    (ht : VecTagsMatch s (.vdqnt f) (fun x t => if x.idx = 1 then t = .scale8 else tagT f x t)) :
    let n := 2048 / tagWidth (cvtD f)
    let r (k : Nat) : FRes :=
      let e := f.x.toNat % 8 * n + k
      dqntElem (vT f) (cvtD f) (cvtRM f s) (cvtRnd f s k) (lane 8 (s.rdV .scale8 f.b).v (e / 8)).toNat (laneA f s 8 e).toNat
    (NoFlagTraps s → CvtDone f s (.vdqnt f) n r) ∧ FlagsTrap s (.vdqnt f) f.g n (fun k => (r k).2) := by
  intro n r
  have htags : vecTags f (.vdqnt f) (acceptScaled f) s = none :=
    vecTags_of_match (lanewise_vdqnt f) ht (fun _ _ => mem_acceptScaled)
  have h := semCvt_holds (i := .vdqnt f) (r := r) rfl (lanewise_vdqnt f) hr htags (fun k => by simp only [laneAt_eq]; rfl)
  rwa [show min (laneCount (tagWidth (cvtD f))) (2048 / tagWidth (cvtD f)) = n from Nat.min_self _] at h

theorem vlcd_holds (f : RegF) (s : State) (hr : s.Ready (.vlcd f))
    (ht : VecTagsMatch s (.vlcd f) (fun x t => if x.idx = 1 then t = .scale8 else tagT f x t)) :
    let n := 2048 / tagWidth (cvtD f)
    let r (k : Nat) : FRes :=
      let e := f.x.toNat % 8 * (n / 8) + k / 8
      lc8Elem (cvtD f) (cvtRM f s) (cvtRnd f s k) (lane 8 (s.rdV .scale8 f.b).v e).toNat (laneA f s 16 e).toNat (k % 8)
    (NoFlagTraps s → CvtDone f s (.vlcd f) n r) ∧ FlagsTrap s (.vlcd f) f.g n (fun k => (r k).2) := by
  intro n r
  have htags : vecTags f (.vlcd f) (acceptScaled f) s = none :=
    vecTags_of_match (lanewise_vlcd f) ht (fun _ _ => mem_acceptScaled)
  have h := semCvt_holds (i := .vlcd f) (r := r) rfl (lanewise_vlcd f) hr htags (fun k => by simp only [laneAt_eq]; rfl)
  rwa [show min (laneCount (tagWidth (cvtD f))) (2048 / tagWidth (cvtD f)) = n from Nat.min_self _] at h

/-! ### VQNT (R148) -/

theorem vqnt_tags {f : RegF} {s : State} (hr : s.Ready (.vqnt f)) : isFpTag (vT f) = true ∧ tagWidth (cvtD f) = 8 := by
  have hok : (cvtOk vqntOk f && unused f.b) = true := fieldsOk_of_wf (wf_of_ready hr) rfl
  have h := cvtOk_tags (Bool.and_eq_true _ _ ▸ hok : _ ∧ _).1
  simp only [vqntOk, half16, Bool.and_eq_true, Bool.or_eq_true, beq_iff_eq] at h
  obtain ⟨⟨ht, hd⟩, -⟩ := h
  refine ⟨?_, ?_⟩
  · rcases ht with ht | ht | ht <;> rw [ht] <;> rfl
  · rcases hd with (hd | hd) | hd <;> rw [hd] <;> rfl

/-- The flags of VQNT with `.scale`, by lane. -/
theorem qntScaleFlags_eq {f : RegF} (s : State) (hfp : isFpTag (vT f) = true) :
    qntScaleFlags f s = laneFlags (s.laneMask f.g (2048 / tagWidth (vT f))) ((List.range (2048 / tagWidth (vT f))).map (fun k =>
      ((0, if isSNaN (vT f) (laneA f s (tagWidth (vT f)) k) then 0x01#7 else 0) : FRes))) := by
  unfold qntScaleFlags
  dsimp only
  rw [lanesOf_eq, List.map_map]
  refine congrArg (laneFlags _) (congrArg (List.map · _) (funext fun k => ?_))
  rw [Function.comp_apply, isSig_fdec hfp]
  rfl

theorem vqnt_scale {f : RegF} {s : State} (hx : f.x.getLsbD 0 = true) (hr : s.Ready (.vqnt f))
    (ht : VecTagsMatch s (.vqnt f) (tagT f)) :
    let n := 2048 / tagWidth (vT f)
    let sig (k : Nat) : Flags := if isSNaN (vT f) (laneA f s (tagWidth (vT f)) k) then 0x01#7 else 0
    (NoFlagTraps s →
      ∃ t v fl, exec (.vqnt f) s = .next t ∧ VectorDrew s t (.vqnt f) f.w f.d v fl (cvtSeed f s) ∧ v.tag = .scale8 ∧
        v.poison = none ∧ FlagsOf s f.g n sig fl ∧
        ∀ j, j < 256 → lane 8 v.v j = if j < n / 8 then BitVec.ofNat 8 (qntScale f s j) else 0) ∧
    FlagsTrap s (.vqnt f) f.g n sig := by
  intro n sig
  obtain ⟨hfp, -⟩ := vqnt_tags hr
  have htags : vecTags f (.vqnt f) (acceptT f) s = none := vecTags_of_match (lanewise_vqnt f) ht (fun _ _ => mem_acceptT)
  have hsem := show semVqnt f = _ from if_pos hx
  have hm : (semVqnt f).OnlyFlags s := by rw [hsem]; exact { tags := htags }
  have hflags : ((semVqnt f).out s (.vqnt f)).flags =
      laneFlags (s.laneMask f.g n) ((List.range n).map (fun k => (0, sig k))) := by
    rw [← qntScaleFlags_eq s hfp]; unfold Sem.out; rw [hsem]
  have heff : ((semVqnt f).out s (.vqnt f)).eff = Live.me (fun c => c.resultV f.w f.d (qntScales f s)) := by
    unfold Sem.out; rw [hsem]
  refine ⟨fun hno => ?_, hm.flagsTrap (r := fun k => (0, sig k)) rfl (lanewise_vqnt f).toSingle hr hflags⟩
  obtain ⟨t, hst, hd⟩ := issueOne_vector s (.vqnt f) (semVqnt f) _ f.w f.d (qntScales f s) (plain_of rfl) (lanewise_vqnt f).light hr
    (hm.passes (lanewise_vqnt f).light (flagTrap_of_noFlagTraps hno _)) (local_me heff)
  rw [draw_converter (m := semVqnt f) (f := f) (by rw [hsem]), hflags] at hd
  refine ⟨t, _, _, hst, hd, rfl, rfl, flagsOf_laneFlags s f.g n (fun k => (0, sig k)), fun j hj => ?_⟩
  have hn : 8 * (n / 8) ≤ 2048 := le_trans (Nat.mul_div_le n 8) (Nat.div_le_self _ _)
  split
  · rename_i hlt; exact lane_packLanes_range _ hlt hn
  · rename_i hge; exact lane_packLanes_above _ (Nat.le_of_not_lt hge) hn

theorem vqnt_elem {f : RegF} {s : State} (hx : ¬ f.x.getLsbD 0 = true) (hr : s.Ready (.vqnt f))
    (ht : VecTagsMatch s (.vqnt f) (tagT f)) :
    let n := 2048 / tagWidth (vT f)
    let r (k : Nat) : FRes := qntLane f s (cvtRM f s) (cvtRnd f s k) k
    (NoFlagTraps s → CvtDone f s (.vqnt f) n r) ∧ FlagsTrap s (.vqnt f) f.g n (fun k => (r k).2) := by
  intro n r
  obtain ⟨-, hd8⟩ := vqnt_tags hr
  have htags : vecTags f (.vqnt f) (acceptT f) s = none := vecTags_of_match (lanewise_vqnt f) ht (fun _ _ => mem_acceptT)
  have hexec : exec (.vqnt f) s = issueOne (semVqnt f) (.vqnt f) s := rfl
  rw [show semVqnt f = _ from if_neg hx] at hexec
  have h := semCvt_holds (r := r) hexec (lanewise_vqnt f) hr htags (fun _ => rfl)
  rwa [hd8, show min (laneCount (tagWidth (vT f))) (2048 / 8) = n from Nat.min_eq_left (laneCount_le_256 _)] at h

theorem vqnt_holds (f : RegF) (s : State) (hr : s.Ready (.vqnt f)) (ht : VecTagsMatch s (.vqnt f) (tagT f)) :
    let n := 2048 / tagWidth (vT f)
    let sig (k : Nat) : Flags := if isSNaN (vT f) (laneA f s (tagWidth (vT f)) k) then 0x01#7 else 0
    let r (k : Nat) : FRes := qntLane f s (cvtRM f s) (cvtRnd f s k) k
    if f.x.getLsbD 0 then
      (NoFlagTraps s →
        ∃ t v fl, exec (.vqnt f) s = .next t ∧ VectorDrew s t (.vqnt f) f.w f.d v fl (cvtSeed f s) ∧ v.tag = .scale8 ∧
          v.poison = none ∧ FlagsOf s f.g n sig fl ∧
          ∀ j, j < 256 → lane 8 v.v j = if j < n / 8 then BitVec.ofNat 8 (qntScale f s j) else 0) ∧
      FlagsTrap s (.vqnt f) f.g n sig
    else (NoFlagTraps s → CvtDone f s (.vqnt f) n r) ∧ FlagsTrap s (.vqnt f) f.g n (fun k => (r k).2) := by
  intro n sig r
  split
  · rename_i hx; exact vqnt_scale hx hr ht
  · rename_i hx; exact vqnt_elem hx hr ht

/-- Settles O7: the random word is drawn as R49 says, and each op is done by the lanes it fills. -/
theorem converters : Obligations.Converters := ⟨vcvt_holds, vqnt_holds, vdqnt_holds, vlcd_holds⟩

end Sys2Proof.Machine
end

