-- ==== Sys2Proof/Proofs/Reduction.lean ====
section
/-! PROOFS. Reductions and scans (R51, R52, R134, R154): a tree of a commutative combination is its running combination. -/

namespace Sys2Proof.Machine

open Sys2Proof.Claim

/-! ### Combinations -/

/-- A combination that is commutative and associative, with its identity. -/
structure Combines (op : BitVec w → BitVec w → BitVec w) (u : BitVec w) : Prop where
  comm : ∀ a b, op a b = op b a
  assoc : ∀ a b c, op (op a b) c = op a (op b c)
  unit : ∀ a, op u a = a

section
variable {w : Nat} {op : BitVec w → BitVec w → BitVec w} {u : BitVec w} (h : Combines op u)
include h

theorem Combines.foldl_eq (x : BitVec w) (l : List (BitVec w)) : l.foldl op x = op x (l.foldl op u) := by
  induction l generalizing x with
  | nil => rw [List.foldl_nil, List.foldl_nil, h.comm, h.unit]
  | cons y l ih => rw [List.foldl_cons, List.foldl_cons, ih, ih (op u y), h.unit, h.assoc]

theorem Combines.foldl_cons (x : BitVec w) (l : List (BitVec w)) : (x :: l).foldl op u = op x (l.foldl op u) := by
  rw [List.foldl_cons, h.unit, h.foldl_eq]

theorem Combines.foldl_append (a b : List (BitVec w)) : (a ++ b).foldl op u = op (a.foldl op u) (b.foldl op u) := by
  rw [List.foldl_append, h.foldl_eq]

/-- Combining two lists place by place and then all is combining all of both. -/
theorem Combines.foldl_zipWith (a b : List (BitVec w)) (hl : a.length = b.length) :
    (List.zipWith op a b).foldl op u = op (a.foldl op u) (b.foldl op u) := by
  induction a generalizing b with
  | nil => cases b with
    | nil => exact (h.unit u).symm
    | cons y b => cases hl
  | cons x a ih => cases b with
    | nil => cases hl
    | cons y b =>
      rw [List.zipWith_cons_cons, h.foldl_cons, h.foldl_cons, h.foldl_cons, ih b (by simpa using hl)]
      generalize a.foldl op u = p, b.foldl op u = q
      calc op (op x y) (op p q) = op x (op (op y p) q) := by rw [h.assoc, h.assoc]
        _ = op x (op (op p y) q) := by rw [h.comm y p]
        _ = op (op x p) (op y q) := by rw [h.assoc, h.assoc]

theorem Combines.headD_one {l : List (BitVec w)} (hl : l.length = 1) : (l.map BitVec.toNat).headD 0 = (l.foldl op u).toNat := by
  obtain ⟨x, rfl⟩ := List.length_eq_one_iff.mp hl
  rw [h.foldl_cons, List.foldl_nil, h.comm, h.unit]; rfl

end

/-! ### The tree and the scan over numbers (R51, R52) -/

theorem laneFlags_nil {mask : List Bool} {res : List FRes} (h : ∀ p ∈ res, p.2 = 0) : laneFlags mask res = [] := by
  unfold laneFlags
  rw [List.filterMap_eq_nil_iff]
  intro p hp
  obtain ⟨-, -, hz⟩ := List.mem_zipIdx hp
  have hmem : p.1.2 ∈ res := by
    have := List.getElem_mem (l := mask.zip res) (n := p.2 - 0) (by simpa using (List.mem_zipIdx hp).2.1)
    rw [← hz] at this
    exact (List.of_mem_zip this).2
  simp [h _ hmem]

section
variable {w : Nat} {op : BitVec w → BitVec w → BitVec w} {u : BitVec w} {num : Nat → Nat → FRes}
  (hnum : ∀ a b : BitVec w, num a.toNat b.toNat = ((op a b).toNat, 0))
include hnum

/-- One stage of the tree combines two halves place by place and raises nothing. -/
theorem redTree_stage (a b : List (BitVec w)) :
    (((a.map BitVec.toNat).zip (b.map BitVec.toNat)).map (fun p => num p.1 p.2)) =
      (List.zipWith op a b).map (fun x => (x.toNat, 0)) := by
  rw [List.zip_map, List.map_map, ← List.map_uncurry_zip_eq_zipWith, List.map_map]
  exact congrArg (List.map · _) (funext fun p => hnum p.1 p.2)

/-- The tree over a power of two of lanes gives their running combination, and raises nothing. -/
theorem redTree_eq (h : Combines op u) (n m : Nat) (hmn : m ≤ n) (l : List (BitVec w)) (hl : l.length = 2 ^ m) (fl : LaneFlags) :
    redTree num n (l.map BitVec.toNat) fl = ((l.foldl op u).toNat, fl) := by
  induction n generalizing m l fl with
  | zero =>
    obtain rfl : m = 0 := by omega
    rw [redTree, h.headD_one hl]
  | succ n ih =>
    cases m with
    | zero => rw [redTree, if_pos (by simp [hl]), h.headD_one hl]
    | succ m =>
      have hp : 0 < 2 ^ m := by positivity
      have hhalf : (l.map BitVec.toNat).length / 2 = 2 ^ m := by rw [List.length_map, hl, Nat.pow_succ]; omega
      have hpow : 2 ^ (m + 1) = 2 ^ m + 2 ^ m := by omega
      have htake : (l.take (2 ^ m)).length = 2 ^ m := by rw [List.length_take]; omega
      have hdrop : (l.drop (2 ^ m)).length = 2 ^ m := by rw [List.length_drop]; omega
      rw [redTree, if_neg (by rw [List.length_map]; omega)]
      simp only [hhalf, ← List.map_take, ← List.map_drop, redTree_stage hnum, List.map_map]
      rw [laneFlags_nil (fun p hp => by obtain ⟨x, -, rfl⟩ := List.mem_map.mp hp; rfl), List.append_nil]
      have hlen : (List.zipWith op (l.take (2 ^ m)) (l.drop (2 ^ m))).length = 2 ^ m := by
        rw [List.length_zipWith, htake, hdrop, Nat.min_self]
      have hrec := ih m (by omega) (List.zipWith op (l.take (2 ^ m)) (l.drop (2 ^ m))) hlen fl
      rw [h.foldl_zipWith _ _ (htake.trans hdrop.symm), ← h.foldl_append, List.take_append_drop] at hrec
      exact hrec

/-- The running values of a scan, and that they raise nothing. -/
theorem scanFrom_eq (y : BitVec w) (l : List (BitVec w)) :
    scanFrom num y.toNat (l.map BitVec.toNat) =
      (List.range l.length).map (fun k => (((l.take (k + 1)).foldl op y).toNat, 0)) := by
  induction l generalizing y with
  | nil => rfl
  | cons x l ih =>
    rw [List.map_cons, scanFrom, hnum, List.length_cons, List.range_succ_eq_map, List.map_cons, List.map_map]
    simp only
    rw [ih]
    rfl

/-- The running values of a scan from its first value on. -/
theorem scanFrom_cons (h : Combines op u) (x : BitVec w) (l : List (BitVec w)) :
    (x.toNat, 0) :: scanFrom num x.toNat (l.map BitVec.toNat) =
      (List.range (l.length + 1)).map (fun k => ((((x :: l).take (k + 1)).foldl op u).toNat, 0)) := by
  rw [scanFrom_eq hnum, List.range_succ_eq_map, List.map_cons, List.map_map]
  simp only [List.take_succ_cons, List.foldl_cons, h.unit, List.take_zero, List.foldl_nil]
  rfl

end

/-! ### The integer combinations (R51, R154) -/

/-- An element as the integer it is compared by. -/
def elemInt (sg : Bool) (x : BitVec w) : Int := if sg then x.toInt else x.toNat

theorem elemInt_inj {sg : Bool} {x y : BitVec w} (h : elemInt sg x = elemInt sg y) : x = y := by
  cases sg
  · exact BitVec.eq_of_toNat_eq (by simpa [elemInt] using h)
  · exact BitVec.eq_of_toInt_eq (by simpa [elemInt] using h)

theorem elemInt_lt (sg : Bool) (x y : BitVec w) : (if sg then x.slt y else x.ult y) = true ↔ elemInt sg x < elemInt sg y := by
  cases sg <;> simp [elemInt, BitVec.slt_eq_decide, BitVec.ult_eq_decide]

theorem elemInt_max (sg : Bool) (x y : BitVec w) : elemInt sg (redFn 1 sg x y) = max (elemInt sg x) (elemInt sg y) := by
  unfold redFn
  simp only [elemInt_lt]
  split
  · rename_i h; exact (max_eq_right (le_of_lt h)).symm
  · rename_i h; exact (max_eq_left (not_lt.mp h)).symm

theorem elemInt_min (sg : Bool) (x y : BitVec w) : elemInt sg (redFn 2 sg x y) = min (elemInt sg x) (elemInt sg y) := by
  unfold redFn
  simp only [elemInt_lt]
  split
  · rename_i h; exact (min_eq_right (le_of_lt h)).symm
  · rename_i h; exact (min_eq_left (not_lt.mp h)).symm

theorem elemInt_bounds {sg : Bool} (hw : 0 < w) (x : BitVec w) :
    elemInt sg (redUnit 1 sg w) ≤ elemInt sg x ∧ elemInt sg x ≤ elemInt sg (redUnit 2 sg w) := by
  cases sg
  · have := x.isLt
    simp only [elemInt, redUnit, Bool.false_eq_true, if_false, BitVec.toNat_allOnes]
    exact ⟨by simp, by omega⟩
  · simp only [elemInt, redUnit, if_true, BitVec.toInt_intMin_of_pos hw, BitVec.toInt_intMax]
    exact ⟨x.le_toInt, BitVec.toInt_le⟩

theorem combines_redFn (k : Nat) (sg : Bool) {w : Nat} (hw : 0 < w) : Combines (redFn (w := w) k sg) (redUnit k sg w) := by
  match k with
  | 0 => exact ⟨BitVec.add_comm, BitVec.add_assoc, fun a => BitVec.zero_add a⟩
  | 1 =>
    exact ⟨fun a b => elemInt_inj (sg := sg) (by rw [elemInt_max, elemInt_max, max_comm]),
      fun a b c => elemInt_inj (sg := sg) (by simp only [elemInt_max, max_assoc]),
      fun a => elemInt_inj (sg := sg) (by rw [elemInt_max, max_eq_right (elemInt_bounds hw a).1])⟩
  | 2 =>
    exact ⟨fun a b => elemInt_inj (sg := sg) (by rw [elemInt_min, elemInt_min, min_comm]),
      fun a b c => elemInt_inj (sg := sg) (by simp only [elemInt_min, min_assoc]),
      fun a => elemInt_inj (sg := sg) (by rw [elemInt_min, min_eq_right (elemInt_bounds hw a).2])⟩
  | 3 => exact ⟨BitVec.and_comm, BitVec.and_assoc, fun _ => BitVec.allOnes_and⟩
  | 4 => exact ⟨BitVec.or_comm, BitVec.or_assoc, fun _ => BitVec.zero_or⟩
  | _ + 5 => exact ⟨BitVec.xor_comm, BitVec.xor_assoc, fun _ => BitVec.zero_xor⟩

/-! ### The reductions of the model over bit vectors -/

theorem intVal_elemInt {t : Tag} (ht : isIntTag t = true) (x : BitVec (tagWidth t)) : intVal t x.toNat = elemInt (t != .uint8) x :=
  intVal_eq ht x

/-- A tag and an operation of VRED or VSCAN that is not a floating-point one (R154). -/
structure IntRed (t : Tag) (k : Nat) : Prop where
  notFp : isFpTag t = false
  int : k < 3 → isIntTag t = true

theorem IntRed.op {t : Tag} {k : Nat} (h : IntRed t k) (rm : RMode) (a b : BitVec (tagWidth t)) :
    redOp t k rm a.toNat b.toNat = ((redFn k (t != .uint8) a b).toNat, 0) := by
  unfold redOp
  simp only [h.notFp, Bool.false_eq_true, if_false]
  match k with
  | 0 => rfl
  | 1 => simp only [intVal_elemInt (h.int (by omega)), redFn, elemInt_lt, apply_ite BitVec.toNat]
  | 2 => simp only [intVal_elemInt (h.int (by omega)), redFn, elemInt_lt, apply_ite BitVec.toNat]
  | 3 => exact congrArg (·, 0) (BitVec.toNat_and a b).symm
  | 4 => exact congrArg (·, 0) (BitVec.toNat_or a b).symm
  | _ + 5 => exact congrArg (·, 0) (BitVec.toNat_xor a b).symm

theorem intRange_min {t : Tag} (ht : isIntTag t = true) :
    intBits (tagWidth t) (intRange t).1 = (redUnit 1 (t != .uint8) (tagWidth t)).toNat := by
  cases t <;> cases ht <;> decide

theorem intRange_max {t : Tag} (ht : isIntTag t = true) :
    intBits (tagWidth t) (intRange t).2 = (redUnit 2 (t != .uint8) (tagWidth t)).toNat := by
  cases t <;> cases ht <;> decide

theorem IntRed.ident {t : Tag} {k : Nat} (h : IntRed t k) : redIdent t k = (redUnit k (t != .uint8) (tagWidth t)).toNat := by
  unfold redIdent
  simp only [h.notFp, Bool.false_eq_true, if_false]
  match k with
  | 0 => rfl
  | 1 => exact intRange_min (h.int (by omega))
  | 2 => exact intRange_max (h.int (by omega))
  | 3 => exact BitVec.toNat_allOnes.symm
  | 4 => rfl
  | _ + 5 => rfl

/-! ### The lanes a reduction combines (R51) -/

/-- What a lane contributes: its element where it is active, the identity where it is not. -/
def redLane (f : RegF) (s : State) (j : Nat) : BitVec (tagWidth (vT f)) :=
  if s.me.guardBit f.g j then laneA f s (tagWidth (vT f)) j else redUnit (f.x.toNat % 8) (vT f != .uint8) (tagWidth (vT f))

theorem runningRed_eq (f : RegF) (s : State) (k : Nat) : runningRed f s (tagWidth (vT f)) k =
    ((List.range (k + 1)).map (redLane f s)).foldl (redFn (f.x.toNat % 8) (vT f != .uint8))
      (redUnit (f.x.toNat % 8) (vT f != .uint8) (tagWidth (vT f))) := rfl

theorem tagWidth_pos (t : Tag) : 0 < tagWidth t := by cases t <;> decide

theorem laneCount_pow (t : Tag) : ∃ m ≤ 8, 2048 / tagWidth t = 2 ^ m := by
  obtain h | h | h | h := tagWidth_cases t <;> rw [h]
  · exact ⟨8, by decide⟩
  · exact ⟨7, by decide⟩
  · exact ⟨6, by decide⟩
  · exact ⟨5, by decide⟩

theorem laneCount_pos (t : Tag) : 0 < 2048 / tagWidth t := by
  obtain ⟨m, -, h⟩ := laneCount_pow t
  rw [h]; positivity

theorem redIn_range (f : RegF) (s : State) : redIn f s = (List.range (2048 / tagWidth (vT f))).map (fun j =>
    if s.me.guardBit f.g j then (laneA f s (tagWidth (vT f)) j).toNat else redIdent (vT f) (f.x.toNat % 8)) := by
  unfold redIn
  rw [vA_eq, State.laneMask, vL, laneCount, List.zip_map', List.map_map]
  rfl

section
variable {f : RegF} (h : IntRed (vT f) (f.x.toNat % 8)) (s : State)
include h

theorem redIn_eq : redIn f s = ((List.range (2048 / tagWidth (vT f))).map (redLane f s)).map BitVec.toNat := by
  rw [redIn_range, List.map_map]
  refine congrArg (List.map · _) (funext fun j => ?_)
  rw [Function.comp_apply, redLane, apply_ite BitVec.toNat, h.ident]

/-- The tree of VRED gives the running combination of all lanes, and raises nothing. -/
theorem redOf_int : redOf f s = ((runningRed f s (tagWidth (vT f)) (2048 / tagWidth (vT f) - 1)).toNat, []) := by
  obtain ⟨m, hm, hn⟩ := laneCount_pow (vT f)
  unfold redOf
  rw [redIn_eq h, redTree_eq (h.op (vRM f s)) (combines_redFn _ _ (tagWidth_pos _)) 8 m hm _ (by simp [hn]), runningRed_eq,
    Nat.sub_add_cancel (laneCount_pos _)]

/-- The lanes of VSCAN are the running combinations, and raise nothing. -/
theorem scanLanes_int : scanLanes f s =
    (List.range (2048 / tagWidth (vT f))).map (fun k => ((runningRed f s (tagWidth (vT f)) k).toNat, 0)) := by
  have hlen : ((List.range (2048 / tagWidth (vT f))).map (redLane f s)).length = 2048 / tagWidth (vT f) := by simp
  have hrun : ∀ k < 2048 / tagWidth (vT f), runningRed f s (tagWidth (vT f)) k =
      (((List.range (2048 / tagWidth (vT f))).map (redLane f s)).take (k + 1)).foldl (redFn (f.x.toNat % 8) (vT f != .uint8))
        (redUnit (f.x.toNat % 8) (vT f != .uint8) (tagWidth (vT f))) := fun k hk => by
    rw [runningRed_eq, ← List.map_take, List.take_range, Nat.min_eq_left hk]
  have hpos := laneCount_pos (vT f)
  unfold scanLanes
  rw [redIn_eq h]
  generalize (List.range (2048 / tagWidth (vT f))).map (redLane f s) = lanes at hlen hrun
  cases lanes with
  | nil => rw [← hlen] at hpos; cases hpos
  | cons x l =>
    have hfirst : scanFirst (vT f) x.toNat = (x.toNat, 0) := by rw [scanFirst, h.notFp]; rfl
    simp only [List.map_cons, hfirst]
    rw [scanFrom_cons (h.op (vRM f s)) (combines_redFn _ _ (tagWidth_pos _)), ← List.length_cons, hlen]
    exact List.map_congr_left (fun k hk => by rw [hrun k (List.mem_range.mp hk)])

end

/-! ### VRED and VSCAN (R154) -/

theorem intRed_of_ok {f : RegF} (hok : vredOk f = true) (hfp : isFpTag (vT f) = false) : IntRed (vT f) (f.x.toNat % 8) := by
  refine ⟨hfp, fun hk => ?_⟩
  unfold vredOk at hok
  simp only [Bool.and_eq_true] at hok
  obtain ⟨-, hop⟩ := hok
  by_cases hk3 : f.x.toNat < 3
  · rw [if_pos hk3, Bool.and_eq_true] at hop
    have := vT_of_tIs hop.1
    rwa [hfp, Bool.or_false] at this
  · rw [if_neg hk3] at hop
    by_cases hk6 : f.x.toNat < 6
    · omega
    · rw [if_neg hk6] at hop; cases hop

theorem placeElem_toNat (t : Tag) (x : BitVec (tagWidth t)) : placeElem t x.toNat = placed t x := by
  unfold placeElem placed
  simp only [Nat.mod_eq_of_lt x.isLt]
  split
  · have hint : (if 2 ^ (tagWidth t - 1) ≤ x.toNat then (x.toNat : Int) - 2 ^ tagWidth t else x.toNat) = x.toInt := by
      have := asInt_toNat (tagWidth_pos t) true x
      simpa [asInt] using this
    rw [hint]; rfl
  · exact BitVec.ofNat_toNat ..

theorem lanewise_vred (f : RegF) : Instr.Lanewise (.vred f) :=
  { plain := rfl, light := ⟨rfl, rfl, rfl, rfl⟩, words := rfl, noD := by simp [srcs] }
theorem lanewise_vscan (f : RegF) : Instr.Lanewise (.vscan f) :=
  { plain := rfl, light := ⟨rfl, rfl, rfl, rfl⟩, words := rfl, noD := by simp [srcs] }

theorem vred_holds (f : RegF) (s : State) (hr : s.Ready (.vred f)) (ht : VecTagsMatch s (.vred f) (tagT f)) (hno : NoFlagTraps s) :
    ∃ t, exec (.vred f) s = .next t ∧
      if isFpTag (vT f) then
        ScalarDone s t (.vred f) f.w f.d { v := placeElem (vT f) (redOf f s).1, tag := vT f } (orFlags (redOf f s).2)
      else
        ScalarDone s t (.vred f) f.w f.d
          { v := placed (vT f) (runningRed f s (tagWidth (vT f)) (2048 / tagWidth (vT f) - 1)), tag := vT f } 0 := by
  have hm : (semVred f).OnlyFlags s := { tags := vecTags_of_match (lanewise_vred f) ht (fun _ _ => mem_acceptT) }
  obtain ⟨t, hst, hd⟩ := issueOne_scalar s (.vred f) (semVred f) _ f.w f.d { v := placeElem (vT f) (redOf f s).1, tag := vT f }
    (plain_of rfl) (lanewise_vred f).light hr (hm.passes (lanewise_vred f).light (flagTrap_of_noFlagTraps hno _)) (local_me rfl) rfl
  refine ⟨t, hst, ?_⟩
  change ScalarDone s t (.vred f) f.w f.d _ (orFlags (redOf f s).2) at hd
  cases hfp : isFpTag (vT f) with
  | true => exact hd
  | false =>
    have h := intRed_of_ok (fieldsOk_of_wf (wf_of_ready hr) rfl) hfp
    rw [redOf_int h, placeElem_toNat] at hd
    exact hd

theorem scanFrom_length (op : Nat → Nat → FRes) (y : Nat) (l : List Nat) : (scanFrom op y l).length = l.length := by
  induction l generalizing y with
  | nil => rfl
  | cons x l ih => rw [scanFrom, List.length_cons, List.length_cons, ih]

theorem scanLanes_length (f : RegF) (s : State) : (scanLanes f s).length = 2048 / tagWidth (vT f) := by
  have hlen : (redIn f s).length = 2048 / tagWidth (vT f) := by rw [redIn_range, List.length_map, List.length_range]
  unfold scanLanes
  rw [← hlen]
  cases redIn f s with
  | nil => rfl
  | cons x l => exact congrArg (· + 1) (scanFrom_length _ _ l)

theorem scanLanes_range (f : RegF) (s : State) :
    scanLanes f s = (List.range (2048 / tagWidth (vT f))).map (fun k => (scanLanes f s).getD k (0, 0)) :=
  List.ext_getElem (by simp [scanLanes_length]) (fun k hk _ => by simp [hk])

theorem vscan_holds (f : RegF) (s : State) (hr : s.Ready (.vscan f)) (ht : VecTagsMatch s (.vscan f) (tagT f)) (hno : NoFlagTraps s) :
    ∃ t v fl, exec (.vscan f) s = .next t ∧ VectorDone s t (.vscan f) f.w f.d v fl ∧ v.tag = vT f ∧ v.poison = none ∧
      (∀ k, k < 2048 / tagWidth (vT f) → lane (tagWidth (vT f)) v.v k =
        if isFpTag (vT f) then BitVec.ofNat _ ((scanLanes f s).getD k (0, 0)).1 else runningRed f s _ k) ∧
      FlagsOf s f.g (2048 / tagWidth (vT f)) (fun k => ((scanLanes f s).getD k (0, 0)).2) fl := by
  have hm : (semVscan f).OnlyFlags s := { tags := vecTags_of_match (lanewise_vscan f) ht (fun _ _ => mem_acceptT) }
  obtain ⟨t, hst, hd⟩ := issueOne_vector s (.vscan f) (semVscan f) _ f.w f.d
    { v := packLanes (tagWidth (vT f)) ((scanLanes f s).map (·.1)), tag := vT f }
    (plain_of rfl) (lanewise_vscan f).light hr (hm.passes (lanewise_vscan f).light (flagTrap_of_noFlagTraps hno _)) (local_me rfl)
  have hflags : ((semVscan f).out s (.vscan f)).flags = laneFlags (s.laneMask f.g (2048 / tagWidth (vT f)))
      ((List.range (2048 / tagWidth (vT f))).map (fun k => (scanLanes f s).getD k (0, 0))) := by
    rw [← scanLanes_range]; rfl
  rw [hflags] at hd
  refine ⟨t, _, _, hst, hd, rfl, rfl, fun k hk => ?_, flagsOf_laneFlags s f.g _ (fun k => (scanLanes f s).getD k (0, 0))⟩
  have hlane : lane (tagWidth (vT f)) (packLanes (tagWidth (vT f)) ((scanLanes f s).map (·.1))) k =
      BitVec.ofNat _ ((scanLanes f s).getD k (0, 0)).1 := by
    rw [scanLanes_range, List.map_map, lane_packLanes_range _ hk (laneCount_le _), ← scanLanes_range]; rfl
  rw [hlane]
  cases hfp : isFpTag (vT f) with
  | true => rfl
  | false =>
    have h := intRed_of_ok (fieldsOk_of_wf (wf_of_ready hr) rfl) hfp
    rw [scanLanes_int h, getD_map_range _ _ _ _ hk, if_neg Bool.false_ne_true, BitVec.ofNat_toNat, BitVec.setWidth_eq]

/-- Settles O9: a combination is commutative and associative, so the tree's order and the running order give one value. -/
theorem reductions : Obligations.Reductions := ⟨vred_holds, vscan_holds⟩

end Sys2Proof.Machine
end

