-- ==== Sys2Proof/Proofs/RoundTrip.lean ====
section
/-! PROOFS. The encoding (R65 to R88): the decoder and the encoder undo each other. -/

namespace Sys2Proof.Laws

open Machine

/-! ### Adjoining fields of a word -/

theorem fld_append (w : Word) {hi lo m n : Nat} (h : hi = lo + n) : fld w hi m ++ fld w lo n = fld w lo (m + n) := by
  subst h
  refine BitVec.eq_of_getLsbD_eq fun i hi => ?_
  simp only [fld, BitVec.getLsbD_append, BitVec.getLsbD_extractLsb']
  by_cases hn : i < n
  · simp [hn, hi]
  · simp [hn, hi, show i - n < m by omega, show lo + n + (i - n) = lo + i by omega]

theorem ofBool_getLsbD (w : Word) (k : Nat) : BitVec.ofBool (w.getLsbD k) = fld w k 1 := by
  refine BitVec.eq_of_getLsbD_eq fun i hi => ?_
  obtain rfl : i = 0 := by omega
  simp [fld]

theorem fld_whole (w : Word) : fld w 0 64 = w := extract_self w

/-! ### The code of what a field names is the field (R26, R34, R65 to R68, R74, R75) -/

@[simp] theorem operandCode_operandOf (x : BitVec 7) : operandCode (operandOf x) = x := by revert x; decide
@[simp] theorem dregCode_dregOf (x : BitVec 6) : dregCode (dregOf x) = x := by revert x; decide
@[simp] theorem guardCode_guardOf (x : BitVec 5) : guardCode (guardOf x) = x := by revert x; decide
@[simp] theorem tokCode_tokOf (x : BitVec 6) : tokCode (tokOf x) = x := by revert x; decide
@[simp] theorem rmCode_rmOf (x : BitVec 3) : rmCode (rmOf x) = x := by revert x; decide
@[simp] theorem tfCode_tfOf (x : BitVec 4) : tfCode (tfOf x) = x := by revert x; decide
@[simp] theorem scopeCode_scopeOf (x : BitVec 2) : scopeCode (scopeOf x) = x := by revert x; decide
@[simp] theorem sizeCode_sizeOf' (x : BitVec 2) : sizeCode (sizeOf' x) = x := by revert x; decide
theorem ofNat_val_finOf (x : BitVec 4) : BitVec.ofNat 4 (Fin.ofNat 16 x.toNat).val = x := by revert x; decide

/-! ### The word of the fields of a word is the word, format by format (R70 to R79) -/

section
variable {w : Word}

theorem pairWord_pairOfWord (h : fld w 60 3 = 0#3) : pairWord (pairOfWord w) = w := by
  simp only [pairWord, pairOfWord, ← h, ofBool_getLsbD, operandCode_operandOf, ofNat_val_finOf, guardCode_guardOf, fld_append]
  exact fld_whole w

theorem regWord_regOfWord (h : fld w 60 3 = 1#3) : regWord (fld w 52 8) (regOfWord w) = w := by
  simp only [regWord, regOfWord, ← h, ofBool_getLsbD, dregCode_dregOf, operandCode_operandOf, guardCode_guardOf,
    rmCode_rmOf, tfCode_tfOf, fld_append]
  exact fld_whole w

theorem immWord_immOfWord (h : fld w 60 3 = 2#3) : immWord (fld w 52 8) (immOfWord w) = w := by
  simp only [immWord, immOfWord, ← h, ofBool_getLsbD, dregCode_dregOf, operandCode_operandOf, guardCode_guardOf, fld_append]
  exact fld_whole w

theorem memWord_memOfWord (h : fld w 60 3 = 3#3) : memWord (fld w 52 8) (memOfWord w) = w := by
  simp only [memWord, memOfWord, ← h, ofBool_getLsbD, dregCode_dregOf, operandCode_operandOf, guardCode_guardOf,
    scopeCode_scopeOf, sizeCode_sizeOf', fld_append]
  exact fld_whole w

theorem tileWord_tileOfWord (h : fld w 60 3 = 4#3) : tileWord (fld w 52 8) (tileOfWord w) = w := by
  simp only [tileWord, tileOfWord, ← h, ofBool_getLsbD, guardCode_guardOf, tokCode_tokOf, fld_append]
  exact fld_whole w

theorem engWord_engOfWord (h : fld w 60 3 = 5#3) : engWord (fld w 52 8) (engOfWord w) = w := by
  simp only [engWord, engOfWord, ← h, ofBool_getLsbD, operandCode_operandOf, tokCode_tokOf, fld_append]
  exact fld_whole w

theorem brWord_brOfWord (h : fld w 60 3 = 6#3) : brWord (fld w 52 8) (brOfWord w) = w := by
  simp only [brWord, brOfWord, ← h, ofBool_getLsbD, operandCode_operandOf, guardCode_guardOf, fld_append]
  exact fld_whole w

theorem sysWord_sysOfWord (h : fld w 60 3 = 7#3) : sysWord (fld w 52 8) (sysOfWord w) = w := by
  simp only [sysWord, sysOfWord, ← h, ofBool_getLsbD, dregCode_dregOf, operandCode_operandOf, guardCode_guardOf, fld_append]
  exact fld_whole w

theorem routeWord_routeOfWord (h : isRoute w = true) : routeWord (routeOfWord w) = w := by
  unfold isRoute at h
  simp only [Bool.and_eq_true, beq_iff_eq] at h
  obtain ⟨hformat, hop⟩ := h
  simp only [routeWord, routeOfWord, ← hformat, ← hop, ofBool_getLsbD, fld_append]
  exact fld_whole w

end

/-! ### Whatever op an opcode selects, its word has that opcode and those fields (R81 to R88) -/

theorem map_encodeWord_regOp (n : Nat) (f : RegF) :
    (regOp n f).map encodeWord = (regOp n f).map (fun _ => regWord (BitVec.ofNat 8 n) f) := by
  unfold regOp; split <;> rfl

theorem map_encodeWord_immOp (n : Nat) (f : ImmF) :
    (immOp n f).map encodeWord = (immOp n f).map (fun _ => immWord (BitVec.ofNat 8 n) f) := by
  unfold immOp; split <;> rfl

theorem map_encodeWord_memOp (n : Nat) (f : MemF) :
    (memOp n f).map encodeWord = (memOp n f).map (fun _ => memWord (BitVec.ofNat 8 n) f) := by
  unfold memOp; split <;> rfl

theorem map_encodeWord_tileOp (n : Nat) (f : TileF) :
    (tileOp n f).map encodeWord = (tileOp n f).map (fun _ => tileWord (BitVec.ofNat 8 n) f) := by
  unfold tileOp; split <;> rfl

theorem map_encodeWord_engOp (n : Nat) (f : EngF) (r : Option RouteF) :
    (engOp n f r).map encodeWord = (engOp n f r).map (fun _ => engWord (BitVec.ofNat 8 n) f) := by
  unfold engOp; split <;> rfl

theorem map_encodeWord_brOp (n : Nat) (f : BrF) :
    (brOp n f).map encodeWord = (brOp n f).map (fun _ => brWord (BitVec.ofNat 8 n) f) := by
  unfold brOp; split <;> rfl

theorem map_encodeWord_sysOp (n : Nat) (f : SysF) :
    (sysOp n f).map encodeWord = (sysOp n f).map (fun _ => sysWord (BitVec.ofNat 8 n) f) := by
  unfold sysOp; repeat' split
  all_goals rfl

/-- The op an opcode selects encodes to the word; where it selects none, the word stands for itself (R88). -/
theorem encodeWord_getD {o : Option Instr} {w v : Word} (h : o.map encodeWord = o.map (fun _ => v)) (hv : v = w) :
    encodeWord (o.getD (.illegalEncoding w)) = w := by
  cases o with
  | none => rfl
  | some i => exact (Option.some.inj h).trans hv

theorem encodeWord_decodeWord (w : Word) (r : Option RouteF) : encodeWord (decodeWord w r) = w := by
  have hop : BitVec.ofNat 8 (fld w 52 8).toNat = fld w 52 8 := BitVec.ofNat_toNat ..
  unfold decodeWord
  have hformat : ∀ k : BitVec 3, (fld w 60 3).toNat = k.toNat → fld w 60 3 = k := fun _ => BitVec.eq_of_toNat_eq
  split
  next hk => exact pairWord_pairOfWord (hformat 0 hk)
  next hk => exact encodeWord_getD (map_encodeWord_regOp ..) (by rw [hop]; exact regWord_regOfWord (hformat 1 hk))
  next hk => exact encodeWord_getD (map_encodeWord_immOp ..) (by rw [hop]; exact immWord_immOfWord (hformat 2 hk))
  next hk => exact encodeWord_getD (map_encodeWord_memOp ..) (by rw [hop]; exact memWord_memOfWord (hformat 3 hk))
  next hk => exact encodeWord_getD (map_encodeWord_tileOp ..) (by rw [hop]; exact tileWord_tileOfWord (hformat 4 hk))
  next hk => exact encodeWord_getD (map_encodeWord_engOp ..) (by rw [hop]; exact engWord_engOfWord (hformat 5 hk))
  next hk => exact encodeWord_getD (map_encodeWord_brOp ..) (by rw [hop]; exact brWord_brOfWord (hformat 6 hk))
  next h0 h1 h2 h3 h4 h5 h6 =>
    have h7 : (fld w 60 3).toNat = 7 := by
      have hlt := (fld w 60 3).isLt
      simp only [imp_false] at h0 h1 h2 h3 h4 h5 h6
      omega
    exact encodeWord_getD (map_encodeWord_sysOp ..) (by rw [hop]; exact sysWord_sysOfWord (hformat 7 h7))

/-! ### The words of an op read back (R56, R79) -/

/-- Each constructor has its law. -/
theorem RoundTrip.statement : ∀ i : Instr, RoundTrip.Statement i :=
  open RoundTrip in
  @Instr.rec Statement
    add sub mul mulh div rem and or xor andn shl shr sar rot clz popc min max minu maxu sel cmp madd extr ins bswap shadd
    movc pair addi andi ori xori shli shri sari li lih cmpi muli vadd vsub vmul vmulh vmin vmax vand vor vxor vandn vshl
    vshr vsar vabs vcmp vsel vdot4 vmadd vpopc vfadd vfsub vfmul vfma vfnma vfmin vfmax vfabs vfneg vfcmp vfrcp vfrsq vfexp2
    vflog2 vfdiv vfsqrt vfclass vfscale vfdot2 vcvt vqnt vdqnt vlcd vperm vshuf vbcast vred vscan vcmprs vexpnd vslide
    vclmul vextr vins vretag vli vaddi seed rngpop ld ldu st ldp stp vld vst vlds vsts vldx vstx vldb aadd amin amax aand
    aor axor aswp acas aminu amaxu mark fence cwb cinv tzero tfill tident tclass tcopy ttag tmask tstate mcfg mgo mswap
    mread mdrain mzero mstep mwload mstop cpy cpy2d csched cstage ovl dcpy rget rput rgath rscat mcst ratom binit barr bwait
    bread tkwait tktest tkjoin br brz brnz call ret jmpi loop endOp yield calli csrr csrw csrs csrc trap eret brk weirset
    weirsetBa weirsetWa weirq lend revoke eddy eddyRes park launch launchNb launchG ntreq ntreqPop waitev idle
    illegalEncoding machineCheck firmwareEddyBind taskBind contextRestore tlbInvalidation pageMigration scrub debugRead
    debugWrite brkPlant fwlenWrite hostRegisterWrite rom loading bringup selftest cxlPortRetrain stalledBundleIssue
    kindAFault throttleNotice waitevWake waitevBound yieldExpiry contextWake nextTileLanding sequencerCommandStart
    matrixStep mzeroComplete mwloadComplete mdrainStart mdrainComplete tileOpStart tileOpComplete copyCommandStart
    copyChunkComplete copyCommandComplete ovlComplete dcpyCommandStart dcpyChunkComplete dcpyComplete niCommandStart
    remoteRequestArrival remoteReplyLanding mcstLanding binitLanding barrierArrival bwaitReread bwaitTimeout revokeSquash
    bankPark regionReclaim keepRegionCopyOut firmwareRevoke lendComplete eddySave eddyBankFree contextRelease taskEnd
    preemptionDecision drainTimeout checkpoint graphNodeLaunch graphInstanceComplete intervalBoundary patternChange
    permitRefill budgetPeriodStart dieBudgetPeriodStart regionPowerOn stripeDrowsy refreshSlotAdvance migrationRewalk
    invalidationComplete debugHalt debugResume addressBreakpoint singleStep displacedOpExecute load unload hostLaunch graph
    glaunch edit fork setcap partition hostDrain weights counters unknownOp packageReset flitReplay linkRetire routerRetire
    fabricTimeout cxlPortDown debugAttach

/-- A well-formed op that its words give without any check passes the checks of rows 1 to 3. -/
theorem decode_of_decodeRaw {i : Instr} {ws rest : List Word} (h : decodeRaw ws = some (i, rest)) (hw : WellFormed i) :
    decode ws = .ok (i, rest) := by
  unfold decode
  simp only [h]
  split
  · rfl
  · rw [show fieldReject _ = none from hw]

/-- Settles O56: each format's fields tile its word and each op has an opcode of its own, so decoder and encoder undo each
other. -/
theorem roundTrip : Obligations.RoundTrip :=
  ⟨fun i hi hw => decode_of_decodeRaw (RoundTrip.statement i hi hw) hw, encodeWord_decodeWord, fun _ => routeWord_routeOfWord⟩

end Sys2Proof.Laws
end


-- ==== Sys2Proof/Proofs/StepRuns.lean ====
section
/-! PROOFS. A turn of a context runs the instruction its fetch reads (R57, R61, R79, R185). -/

namespace Sys2Proof.Machine

open Laws

/-! ### The words an instruction read from a word occupies (R79) -/

theorem routeOf_getD_none {o : Option Instr} {w : Word} (h : o.map routeOf = o.map (fun _ => none)) :
    routeOf (o.getD (.illegalEncoding w)) = none := by
  cases o with
  | none => rfl
  | some i => exact Option.some.inj h

theorem routeOf_decodeWord_none (w : Word) : routeOf (decodeWord w none) = none := by
  unfold decodeWord
  split
  · rfl
  · exact routeOf_getD_none (by unfold regOp; split <;> rfl)
  · exact routeOf_getD_none (by unfold immOp; split <;> rfl)
  · exact routeOf_getD_none (by unfold memOp; split <;> rfl)
  · exact routeOf_getD_none (by unfold tileOp; split <;> rfl)
  · exact routeOf_getD_none (by unfold engOp; split <;> rfl)
  · exact routeOf_getD_none (by unfold brOp; split <;> rfl)
  · exact routeOf_getD_none (by unfold sysOp; (repeat' split) <;> rfl)

/-- Every NI opcode is assigned. -/
theorem routeOf_decodeWord_some {w : Word} (r : RouteF) (h : takesRoute w = true) :
    routeOf (decodeWord w (some r)) = some r := by
  unfold takesRoute at h
  simp only [Bool.and_eq_true, beq_iff_eq, Bool.or_eq_true, decide_eq_true_eq] at h
  obtain ⟨⟨⟨hformat, -⟩, -⟩, hop⟩ := h
  unfold decodeWord
  rw [hformat]
  generalize (fld w 52 8).toNat = n at hop
  have hn : n = 0x20 ∨ n = 0x21 ∨ n = 0x22 ∨ n = 0x23 ∨ n = 0x24 ∨ n = 0x25 ∨ n = 0x40 ∨ n = 0x41 ∨ n = 0x42 ∨ n = 0x43 := by
    omega
  rcases hn with rfl | rfl | rfl | rfl | rfl | rfl | rfl | rfl | rfl | rfl <;> rfl

/-! ### The bundle of one op -/

/-- A word without a following route word is a bundle of its own. -/
theorem one_bundleOf_single (pc : BitVec 16) (w : Word) : (bundleOf [(pc, w)]).one = some (decodeWord w none) := by
  have hblen : 1 = wordsOf (decodeWord w none) := by rw [wordsOf, routeOf_decodeWord_none]; rfl
  exact if_pos ⟨(encodeWord_decodeWord w none).symm, hblen⟩

/-- An NI op and its route word are a bundle of one op. -/
theorem one_bundleOf_route (pc pc' : BitVec 16) {w r : Word} (h : (takesRoute w && isRoute r) = true) :
    (bundleOf [(pc, w), (pc', r)]).one = some (decodeWord w (some (routeOfWord r))) := by
  have hitems : itemsOf [(pc, w), (pc', r)] = [⟨pc, w, decodeWord w (some (routeOfWord r))⟩] := if_pos h
  have hblen : 2 = wordsOf (decodeWord w (some (routeOfWord r))) := by
    rw [wordsOf, routeOf_decodeWord_some _ (Bool.and_eq_true_iff.mp h).1]; rfl
  unfold bundleOf Fetched.one
  rw [hitems]
  exact if_pos ⟨(encodeWord_decodeWord w _).symm, hblen⟩

section
variable {s : State} {m : Mem}

theorem fetchWords_single (h : (m.readWord s.me.pc.toNat).getLsbD 63 = true ∨ (s.me.tr.hm = true ∧
      (takesRoute (m.readWord s.me.pc.toNat) && isRoute (m.readWord (pcPlus s.me.pc 1).toNat)) = false)) :
    s.fetchWords m = [(s.me.pc, m.readWord s.me.pc.toNat)] := by
  unfold State.fetchWords
  cases hm : s.me.tr.hm with
  | true =>
    refine (if_pos rfl).trans (if_neg ?_)
    obtain hs | ⟨-, hr⟩ := h
    · simp [takesRoute, -BitVec.getLsbD_eq_getElem, hs]
    · simp [hr]
  | false =>
    obtain hs | ⟨hm', -⟩ := h
    · exact if_pos hs
    · rw [hm] at hm'; cases hm'

theorem fetchWords_route
    (h : (takesRoute (m.readWord s.me.pc.toNat) && isRoute (m.readWord (pcPlus s.me.pc 1).toNat)) = true)
    (hs : (m.readWord (pcPlus s.me.pc 1).toNat).getLsbD 63 = true ∨ s.me.tr.hm = true) :
    s.fetchWords m = [(s.me.pc, m.readWord s.me.pc.toNat), (pcPlus s.me.pc 1, m.readWord (pcPlus s.me.pc 1).toNat)] := by
  unfold State.fetchWords
  cases hm : s.me.tr.hm with
  | true => exact if_pos h
  | false =>
    have hlast : (m.readWord (pcPlus s.me.pc 1).toNat).getLsbD 63 = true := by simpa [hm] using hs
    have hfirst : (m.readWord s.me.pc.toNat).getLsbD 63 = false := by
      simp only [takesRoute, Bool.and_eq_true, Bool.not_eq_true'] at h
      obtain ⟨⟨⟨-, hstop⟩, -⟩, -⟩ := h
      exact hstop
    simp [gather, -BitVec.getLsbD_eq_getElem, hfirst, hlast]

end

/-! ### A turn of a context that may issue -/

theorem leaving_of_runs {s : State} (h : s.runs = true) : s.leaving = false := by
  unfold State.runs at h
  unfold State.leaving
  cases he : isEddy s.cur.ctx with
  | false => rfl
  | true =>
    rw [Bool.and_eq_true, if_pos he, beq_iff_eq] at h
    obtain ⟨-, hb⟩ := h
    simp [hb]

theorem ctxTurn_acts {s : State} (hc : s.counts = true) (h : s.canAct = true) : s.ctxTurn = s.actCycle := by
  unfold State.canAct at h
  simp only [Bool.and_eq_true, beq_iff_eq] at h
  obtain ⟨⟨hruns, hyield⟩, hwake⟩ := h
  simp [State.ctxTurn, hc, leaving_of_runs hruns, hruns, hyield, hwake]

/-- With nothing due at the boundary, the bundle runs. -/
theorem actCycle_runs {s : State} (hstep : s.stepDue = false) (hdue : s.dueA = none) (hidle : s.me.waits.idle = false)
    (hnotice : s.me.notice = none ∨ s.me.tr.noh = false) (hbp : s.bpHits = []) (hfetch : s.fetchStalls = false) :
    s.actCycle = s.runBundle := by
  have hdrop : s.dropNotice = s := by
    unfold State.dropNotice
    obtain h | h := hnotice <;> simp [h]
  simp [State.actCycle, hdrop, hdue, hstep, hidle, State.bundleCycle, hfetch, State.bpFirst, State.bpSkip, hbp]

theorem runBundle_one {s : State} {i : Instr} {ws : List (BitVec 16 × Word)} (hb : s.buffered = none)
    (hw : s.fetchWords s.myCore.ispad = ws) (h : (bundleOf ws).one = some i) : s.runBundle = exec i s := by
  unfold State.runBundle State.fetched
  rw [hb, hw]
  simp only [h]

/-- Settles O58: the checks before the bundle find nothing, and the words fetched are those of one op. -/
theorem stepRunsDecoded : Obligations.StepRunsDecoded := by
  unfold Obligations.StepRunsDecoded
  intro s c k rest hag
  dsimp only
  generalize hu : ({ s with agenda := rest, cur := { s.cur with core := c, ctx := k } } : State) = u
  intro hc hact hstep hdue hidle hnotice hbp hbuf hfetch
  have hrun : step s = u.runBundle := by
    rw [← actCycle_runs hstep hdue hidle hnotice hbp hfetch, ← ctxTurn_acts hc hact, ← hu]
    unfold step State.turn
    rw [hag]
    rfl
  rw [hrun]
  exact ⟨fun h => runBundle_one hbuf (fetchWords_single h) (one_bundleOf_single _ _),
    fun h hs => runBundle_one hbuf (fetchWords_route h hs) (one_bundleOf_route _ _ h)⟩

end Sys2Proof.Machine
end


-- ==== Sys2Proof/Proofs/IllegalWords.lean ====
section
/-! PROOFS. A word without a meaning: the trap of row 1 of R80, with or without a handler, or in it (R88, R186, R187, R191). -/

namespace Sys2Proof.Machine

open Sys2Proof.Claim

/-! ### The SLEEP bit of a context that is taken (R331) -/

theorem sleepBit_eq (c k : Nat) : sleepBit c k = BitVec.twoPow 128 (64 + c % 16 * 4 + k % 4) :=
  BitVec.eq_of_toNat_eq (by simp [sleepBit, BitVec.toNat_twoPow])

theorem setSleep_eq_slept (s : State) (a : Word) (on : Bool) : s.setSleep a on = slept s a on := by
  unfold State.setSleep slept
  rw [sleepBit_eq]

theorem unsleep_eq_rested (s : State) : s.unsleep = rested s := by
  unfold State.unsleep rested
  simp only [setSleep_eq_slept]

theorem CoreState.downgrades_issueBuf (os : List Nat) (x : CoreState) :
    (os.foldl CoreState.downgrade x).issueBuf = x.issueBuf := by
  induction os generalizing x with
  | nil => rfl
  | cons o os ih => exact (ih _).trans rfl

@[simp] theorem CoreState.spadWrite_issueBuf (x : CoreState) (o : Nat) (bs : List Byte) :
    (x.spadWrite o bs).issueBuf = x.issueBuf := by
  unfold CoreState.spadWrite
  dsimp only
  split <;> exact CoreState.downgrades_issueBuf _ _

theorem State.setSleep_issueBuf (s : State) (a : Word) (on : Bool) (c : Nat) :
    ((s.setSleep a on).core c).issueBuf = (s.core c).issueBuf := by
  obtain h | ⟨d, o, b, h⟩ := s.setSleep_cases a on <;> rw [h]
  unfold State.writeObj
  by_cases e : c = d
  · subst e; rw [State.core_updCore, CoreState.spadWrite_issueBuf]
  · rw [State.core_updCore_other s _ e]

theorem State.unsleep_issueBuf (s : State) : s.unsleep.myCore.issueBuf = s.myCore.issueBuf := by
  unfold State.unsleep
  split
  · rw [State.myCore_updMe, CoreState.setCtx_issueBuf]
    unfold State.myCore
    rw [State.setSleep_issueBuf, State.setSleep_cur]
  · rfl

/-! ### A halt, as a change of the bank and of the running context (R187, R299) -/

/-- A context that halts with a cause. -/
def Ctx.haltedBy (n : Nat) (c : Ctx) : Ctx := { c with run := .halted n, waits := {} }

theorem report_updMe (s : State) (r : FaultRec) (f : Ctx → Ctx) : (s.updMe f).report r = (s.report r).updMe f := rfl

theorem bankEnding_cur (s : State) (n : Nat) : (bankEnding s n).cur = s.cur := by unfold bankEnding; split <;> rfl
theorem bankEnding_me (s : State) (n : Nat) : (bankEnding s n).me = s.me := by
  unfold bankEnding
  split
  · rfl
  · exact (State.me_updMyCore s _).trans rfl

theorem CoreState.dropBuf_none {x : CoreState} (k : Nat) (h : x.issueBuf = none) : x.dropBuf k = x := by
  unfold CoreState.dropBuf
  rw [h]
  cases x; cases h; rfl

@[simp] theorem CoreState.bank_updBank (x : CoreState) (k : Nat) (f : EddyBank → EddyBank) :
    (x.updBank k f).bank k = f (x.bank k) := Vector.getElem_set_self (Fin.ofNat 3 (k + 2)).isLt

theorem bankEnding_fwEddy (s : State) (n : Nat) :
    (bankEnding s n).myCore.fwEddy s.cur.ctx = s.myCore.fwEddy s.cur.ctx := by
  unfold bankEnding
  split
  · rfl
  · rw [State.myCore_updMyCore]
    simp [CoreState.fwEddy]

theorem bankEnding_issueBuf (s : State) (n : Nat) : (bankEnding s n).myCore.issueBuf = s.myCore.issueBuf := by
  unfold bankEnding
  split
  · rfl
  · rw [State.myCore_updMyCore]; rfl

theorem bankEnding_updMe (s : State) (n : Nat) (f : Ctx → Ctx) : bankEnding (s.updMe f) n = (bankEnding s n).updMe f := by
  unfold bankEnding
  rw [State.updMe_cur]
  split
  · rfl
  · unfold State.updMe State.updMyCore State.updCtx State.updCore
    simp only [State.setCore_cur, State.core_setCore, State.setCore_setCore, State.ctx]
    rfl

theorem bankEnding_updFw (s : State) (n : Nat) (f : Firmware → Firmware) :
    bankEnding (s.updFw f) n = (bankEnding s n).updFw f := by
  unfold bankEnding
  rw [State.updFw_cur]
  split <;> rfl

theorem bankEnding_raiseIrq (s : State) (n v : Nat) : bankEnding (s.raiseIrq v) n = (bankEnding s n).raiseIrq v := by
  unfold bankEnding
  rw [State.raiseIrq_cur]
  split <;> rfl

/-- The halt of a running context that holds no debugger's bundle changes the context, and the bank of an eddy. -/
theorem haltCtx_eq (s : State) (n : Nat) (h : s.myCore.issueBuf = none) :
    s.haltCtx s.cur.core s.cur.ctx n = (bankEnding s n).updMe (Ctx.haltedBy n) := by
  have hdrop : (s.updMe (Ctx.haltedBy n)).updMyCore (fun x => x.dropBuf s.cur.ctx) = s.updMe (Ctx.haltedBy n) := by
    have hx : (s.myCore.setCtx s.cur.ctx (Ctx.haltedBy n s.me)).dropBuf s.cur.ctx =
        s.myCore.setCtx s.cur.ctx (Ctx.haltedBy n s.me) :=
      CoreState.dropBuf_none _ h
    unfold State.updMe State.updMyCore State.updCtx State.updCore
    rw [State.setCore_cur, State.core_setCore, State.setCore_setCore]
    exact congrArg (s.setCore s.cur.core) hx
  unfold State.haltCtx bankEnding
  rw [show (s.updCtx s.cur.core s.cur.ctx (fun x => { x with run := .halted n, waits := {} })).updCore s.cur.core
    (fun x => x.dropBuf s.cur.ctx) = s.updMe (Ctx.haltedBy n) from hdrop]
  by_cases he : s.cur.ctx % 4 = 0
  · simp [isEddy, he]
  · simp only [isEddy, he, bne_iff_ne, ne_eq, not_false_eq_true, if_true, if_false]
    unfold State.updMe State.updMyCore State.updCtx State.updCore
    simp only [State.setCore_cur, State.core_setCore, State.setCore_setCore, State.ctx]
    rfl

/-! ### The trap of row 1 -/

/-- The trap of a word without a meaning (R88, R193). -/
def illegalTrap (w : Word) : Trap := { kind := .P, cause := 0x00, slot := 0, info0 := w, info1 := 0 }

theorem lay_illegal (s : State) (w : Word) (hr : isRoute w = false) :
    s.lay (fun _ => semNone) (s.single (.illegalEncoding w)) =
      ⟨[s.lone (.illegalEncoding w)], [], [(s.lone (.illegalEncoding w), semNone)], s.me.csr.rngseed⟩ := by
  have hlayout : layout (pcPlus s.me.pc 1) 0 [⟨s.me.pc, w, .illegalEncoding w⟩] = ([s.lone (.illegalEncoding w)], []) := by
    simp [layout, hr, opsOf]
    rfl
  unfold State.lay
  rw [show layout (pcPlus s.me.pc (s.single (.illegalEncoding w)).blen) 0 (s.single (.illegalEncoding w)).items =
    ([s.lone (.illegalEncoding w)], []) from hlayout]
  rfl

theorem judge_illegal (s : State) (w : Word) (hr : isRoute w = false) :
    s.judge (s.lay (fun _ => semNone) (s.single (.illegalEncoding w))) none = .trap (illegalTrap w) := by
  rw [lay_illegal s w hr]
  rfl

/-- A word without a meaning traps once the SLEEP bit of a BWAIT is cleared (R331). -/
theorem exec_illegal (w : Word) (s : State) (hc : s.cur.core < nCores) (hr : isRoute w = false) :
    exec (.illegalEncoding w) s =
      .next (((rested s).trapCycle.takeTrap (illegalTrap w) (rested s).me.pc 1).leaveBuf) := by
  have hx : exec (.illegalEncoding w) s = issueOne semNone (.illegalEncoding w) s := rfl
  rw [hx, ← unsleep_eq_rested]
  unfold issueOne State.issue State.issueLaid
  rw [if_neg (Nat.not_le.mpr hc), show (s.single (.illegalEncoding w)).long = none from rfl, judge_illegal s w hr]
  rfl

/-! ### A trap without a handler and a double trap, as changes of the running context (R187, R191) -/

theorem kept_updMe (s : State) (r : TrapRec) (f : Ctx → Ctx) (hf : (f s.me).task = s.me.task) :
    kept (s.updMe f) r = (kept s r).updMe f := by
  have hbank : (s.updMe f).myCore.fwEddy s.cur.ctx = s.myCore.fwEddy s.cur.ctx := by rw [State.myCore_updMe]; rfl
  unfold kept
  rw [State.me_updMe, hf, State.updMe_cur, hbank]
  split
  · split <;> rfl
  · rfl

theorem keepRecord_eq_kept (s : State) (r : TrapRec) : s.keepRecord r = kept s r := by
  unfold State.keepRecord kept
  split
  · by_cases ho : s.cur.ctx % 4 = 0
    · simp [isEddy, ho]
    · cases hf : s.myCore.fwEddy s.cur.ctx <;> simp [isEddy, ho]
  · rfl

theorem kept_bankEnding (s : State) (r : TrapRec) (n : Nat) : kept (bankEnding s n) r = bankEnding (kept s r) n := by
  unfold kept
  rw [bankEnding_me, bankEnding_cur, bankEnding_fwEddy]
  split
  · split
    · exact (bankEnding_updFw s n _).symm
    · rfl
  · rfl

theorem kept_cur (s : State) (r : TrapRec) : (kept s r).cur = s.cur := by
  rw [← keepRecord_eq_kept]; exact State.keepRecord_cur s r
theorem kept_me (s : State) (r : TrapRec) : (kept s r).me = s.me := by rw [← keepRecord_eq_kept]; exact State.keepRecord_me s r
theorem kept_core (s : State) (r : TrapRec) (c : Nat) : (kept s r).core c = s.core c := by
  rw [← keepRecord_eq_kept]; exact State.keepRecord_core s r c

/-- A trap without a handler (R187): the record stays in the context and in the task, the firmware is told, the context halts. -/
theorem takeTrap_noHandler (s : State) (t : Trap) (pc : BitVec 16) (n : Nat) (hbuf : s.myCore.issueBuf = none)
    (hm : s.me.tr.hm = false) (hn : s.me.tr.noh = true) :
    s.takeTrap t pc n =
      ((kept (bankEnding s t.cause) ⟨t.cause, pc, t.slot, t.info0, t.info1⟩).report ⟨t.cause, t.info0, t.info1⟩).updMe
        (fun c => Ctx.haltedBy t.cause (c.noted t pc)) := by
  rw [State.takeTrap_halt s t pc n hm hn, keepRecord_eq_kept, kept_updMe _ _ _ rfl, kept_bankEnding]
  generalize hv : kept s ⟨t.cause, pc, t.slot, t.info0, t.info1⟩ = v
  have hcur : v.cur = s.cur := hv ▸ kept_cur s _
  have hnone : v.myCore.issueBuf = none := by rw [← hv, State.myCore, kept_core, kept_cur]; exact hbuf
  have hhalt := haltCtx_eq ((v.updMe (fun c => c.noted t pc)).report ⟨t.cause, t.info0, t.info1⟩) t.cause
    (by rw [State.report_myCore, State.myCore_updMe]; exact hnone)
  rw [State.report_cur, State.updMe_cur, hcur] at hhalt
  rw [hhalt, State.report, bankEnding_updFw, bankEnding_updMe]
  exact State.updMe_updMe ((bankEnding v t.cause).report _) (fun c => c.noted t pc) _

/-- Outside the context of a double trap (R191): the firmware gets the record of the trap and the double trap, and vector 2
counts. -/
def doubled (s : State) (t : Trap) (pc : BitVec 16) : State :=
  (s.updFw (fun k => { k with reports := k.reports ++ [⟨t.cause, t.info0, t.info1⟩, ⟨0x5E, pc.setWidth 64, 0⟩] })).raiseIrq 2

theorem doubled_updMe (s : State) (t : Trap) (pc : BitVec 16) (f : Ctx → Ctx) :
    doubled (s.updMe f) t pc = (doubled s t pc).updMe f := rfl

theorem bankEnding_doubled (s : State) (t : Trap) (pc : BitVec 16) (n : Nat) :
    bankEnding (doubled s t pc) n = doubled (bankEnding s n) t pc := by
  unfold doubled
  rw [bankEnding_raiseIrq, bankEnding_updFw]

/-- DT set (R191). -/
def Ctx.doubleTrapped (c : Ctx) : Ctx := { c with tr := { c.tr with dt := true } }

theorem wd_toNat (pc : BitVec 16) : wd pc.toNat = pc.setWidth 64 := by
  apply BitVec.eq_of_toNat_eq; simp [wd]

/-- A double trap sets DT, then halts the context, or lets its debugger have it. -/
theorem takeTrap_hm (s : State) (t : Trap) (pc : BitVec 16) (n : Nat) (hm : s.me.tr.hm = true) :
    s.takeTrap t pc n =
      match s.myTask with
      | some k =>
        if k.debug && !isEddy s.cur.ctx then
          ((doubled s t pc).updMe Ctx.doubleTrapped).updMe (fun c => { c with dbg := { c.dbg with halted := true } })
        else ((doubled s t pc).updMe Ctx.doubleTrapped).haltCtx s.cur.core s.cur.ctx 0x5E
      | none => ((doubled s t pc).updMe Ctx.doubleTrapped).haltCtx s.cur.core s.cur.ctx 0x5E := by
  unfold State.takeTrap
  dsimp only
  rw [if_pos hm, wd_toNat]
  have hd : ((((s.updMe (fun c => { c with tr := { c.tr with dt := true } })).report ⟨t.cause, t.info0, t.info1⟩).report
    ⟨0x5E, pc.setWidth 64, 0⟩).raiseIrq 2) = (doubled s t pc).updMe Ctx.doubleTrapped := by
    rw [← doubled_updMe]
    unfold doubled State.report State.updFw
    simp only [List.append_assoc, List.cons_append, List.nil_append]
    rfl
  have hmy : ((doubled s t pc).updMe Ctx.doubleTrapped).myTask = s.myTask := by
    unfold State.myTask
    rw [State.me_updMe]
    rfl
  rw [hd, hmy]
  rfl

theorem takeTrap_double (s : State) (t : Trap) (pc : BitVec 16) (n : Nat) (hbuf : s.myCore.issueBuf = none)
    (hm : s.me.tr.hm = true) (hd : s.cur.ctx % 4 ≠ 0 ∨ (∀ k, s.myTask = some k → k.debug = false)) :
    s.takeTrap t pc n = (doubled (bankEnding s 0x5E) t pc).updMe (fun c => Ctx.haltedBy 0x5E c.doubleTrapped) := by
  have hhalt : ((doubled s t pc).updMe Ctx.doubleTrapped).haltCtx s.cur.core s.cur.ctx 0x5E =
      (doubled (bankEnding s 0x5E) t pc).updMe (fun c => Ctx.haltedBy 0x5E c.doubleTrapped) := by
    refine (haltCtx_eq ((doubled s t pc).updMe Ctx.doubleTrapped) 0x5E (by rw [State.myCore_updMe]; exact hbuf)).trans ?_
    rw [bankEnding_updMe, bankEnding_doubled]
    exact State.updMe_updMe _ _ _
  rw [takeTrap_hm s t pc n hm]
  split
  next k hk =>
    rw [if_neg, hhalt]
    obtain he | hno := hd
    · simp [isEddy, he]
    · simp [hno k hk]
  next => exact hhalt

/-- A double trap of an owner under debug waits for the debugger. -/
theorem takeTrap_double_debug (s : State) (t : Trap) (pc : BitVec 16) (n : Nat)
    (hm : s.me.tr.hm = true) (ho : s.cur.ctx % 4 = 0) {k : Task} (hk : s.myTask = some k) (hd : k.debug = true) :
    s.takeTrap t pc n =
      (doubled s t pc).updMe (fun c => { c.doubleTrapped with dbg := { c.dbg with halted := true } }) := by
  rw [takeTrap_hm s t pc n hm, hk]
  simp only [hd, isEddy, ho, State.updMe_updMe]
  rfl

/-! ### What the trap leaves -/

theorem rested_me (s : State) : (rested s).me = s.me.unslept := by rw [← unsleep_eq_rested, State.unsleep_me]
theorem rested_cur (s : State) : (rested s).cur = s.cur := by rw [← unsleep_eq_rested, State.unsleep_cur]
theorem rested_fw (s : State) : (rested s).fw = s.fw := by rw [← unsleep_eq_rested, State.unsleep_fw]
theorem rested_issueBuf (s : State) : (rested s).myCore.issueBuf = s.myCore.issueBuf := by
  rw [← unsleep_eq_rested, State.unsleep_issueBuf]

/-- The cycle of a bundle that traps, in its context. -/
def Ctx.trapTick (c : Ctx) : Ctx := { c.tick 0 with dbg := { c.dbg with stepDone := c.dbg.stepDone || c.dbg.step } }

theorem trapCycle_eq (s : State) : s.trapCycle = s.updMe Ctx.trapTick := rfl
theorem trapCycle_tr (s : State) : s.trapCycle.me.tr = s.me.tr := by rw [trapCycle_eq, State.me_updMe]; rfl
theorem trapCycle_issueBuf (s : State) : s.trapCycle.myCore.issueBuf = s.myCore.issueBuf := by
  rw [trapCycle_eq, State.myCore_updMe]; rfl

theorem rested_trapCycle_myTask (s : State) : (rested s).trapCycle.myTask = s.myTask := by
  unfold State.myTask State.task
  rw [trapCycle_eq, State.me_updMe, State.updMe_fw, rested_me, rested_fw]
  rfl

/-- A trap that leaves the context where it stands, and changes the package beside it to `u`. -/
theorem illegal_stays {w : Word} {s u : State} {g : Ctx → Ctx} (hc : s.cur.core < nCores) (hr : isRoute w = false)
    (hme : u.me = s.me.unslept) (hbuf : u.myCore.issueBuf = none)
    (h : (rested s).trapCycle.takeTrap (illegalTrap w) (rested s).me.pc 1 = (u.updMe Ctx.trapTick).updMe g)
    (hg : ∀ c, (g c).q = c.q ∧ (g c).files = c.files ∧ (g c).csr = c.csr ∧ (g c).pc = c.pc) :
    ∃ t, exec (.illegalEncoding w) s = .next t ∧ RegsKept s.me t ∧ t.me.pc = s.me.pc ∧ t.me = g s.me.unslept.trapTick ∧
      u.SameElsewhere t := by
  have ht : ((u.updMe Ctx.trapTick).updMe g).me = g s.me.unslept.trapTick := by rw [State.me_updMe, State.me_updMe, hme]
  obtain ⟨hq, hfiles, hcsr, hpc⟩ := hg s.me.unslept.trapTick
  refine ⟨_, ?_, ?_, ?_, ht, ?_⟩
  · rw [exec_illegal w s hc hr, h, leaveBuf_none]
    rw [State.myCore_updMe, CoreState.setCtx_issueBuf, State.myCore_updMe, CoreState.setCtx_issueBuf, hbuf]
  · unfold RegsKept
    rw [ht, hq, hfiles, hcsr]
    exact ⟨rfl, rfl, Ctx.tick_rngseed _ 0⟩
  · rw [ht, hpc]; rfl
  · rw [State.updMe_updMe]; exact sameElsewhere_updMe u _

section
variable {w : Word} {s : State} (hc : s.cur.core < nCores) (hr : isRoute w = false) (hbuf : s.myCore.issueBuf = none)
include hc hr hbuf

theorem illegal_enters (hm : s.me.tr.hm = false) (hn : s.me.tr.noh = false) :
    ∃ t, exec (.illegalEncoding w) s = .next t ∧ Entered (rested s) t 0x00 0 w 0 1 := by
  have hh : Handles (rested s) := by
    unfold Handles
    rw [rested_me]
    refine ⟨hm, hn, ?_⟩
    unfold Ctx.unslept
    cases hs : s.me.waits.sleptAt <;> simp [hs]
  have he := entered_takeTrap (rested s) (illegalTrap w) 1 hh rfl
  refine ⟨_, ?_, he⟩
  rw [exec_illegal w s hc hr, leaveBuf_none]
  obtain ⟨-, -, -, hcore⟩ := he.1
  exact (congrArg CoreState.issueBuf hcore).trans ((rested_issueBuf s).trans hbuf)

theorem illegal_halts (hm : s.me.tr.hm = false) (hn : s.me.tr.noh = true) :
    ∃ t, exec (.illegalEncoding w) s = .next t ∧ RegsKept s.me t ∧ t.me.pc = s.me.pc ∧ t.me.run = .halted 0x00 ∧
      t.me.tr = { s.me.tr with cause := 0, pc := s.me.pc, slot := 0, info0 := w, info1 := 0 } ∧
      ((kept (bankEnding (rested s) 0x00) ⟨0x00, s.me.pc, 0, w, 0⟩).updFw (fun k =>
        { k with reports := k.reports ++ [⟨0x00, w, 0⟩] })).SameElsewhere t := by
  have htrap := takeTrap_noHandler (rested s).trapCycle (illegalTrap w) (rested s).me.pc 1
    (by rw [trapCycle_issueBuf, rested_issueBuf, hbuf]) (by rw [trapCycle_tr, rested_me]; exact hm)
    (by rw [trapCycle_tr, rested_me]; exact hn)
  rw [trapCycle_eq, bankEnding_updMe, kept_updMe _ _ Ctx.trapTick rfl, report_updMe, rested_me, Ctx.unslept_pc] at htrap
  obtain ⟨t, hexec, hregs, hpc, hme, hse⟩ := illegal_stays
    (u := (kept (bankEnding (rested s) 0x00) ⟨0x00, s.me.pc, 0, w, 0⟩).report ⟨0x00, w, 0⟩)
    (g := fun c => Ctx.haltedBy 0x00 (c.noted (illegalTrap w) s.me.pc)) hc hr
    (by rw [State.report_me, kept_me, bankEnding_me, rested_me])
    (by rw [State.report_myCore, State.myCore, kept_core, kept_cur]
        exact (bankEnding_issueBuf _ _).trans ((rested_issueBuf s).trans hbuf))
    (by rw [trapCycle_eq, rested_me, Ctx.unslept_pc]; exact htrap) (fun _ => ⟨rfl, rfl, rfl, rfl⟩)
  refine ⟨t, hexec, hregs, hpc, ?_, ?_, hse⟩
  · rw [hme]; rfl
  · rw [hme]; rfl

theorem illegal_doubles (hm : s.me.tr.hm = true) (hd : s.cur.ctx % 4 ≠ 0 ∨ (∀ k, s.myTask = some k → k.debug = false)) :
    ∃ t, exec (.illegalEncoding w) s = .next t ∧ RegsKept s.me t ∧ t.me.pc = s.me.pc ∧ t.me.run = .halted 0x5E ∧
      t.me.tr = { s.me.tr with dt := true } ∧ (doubled (bankEnding (rested s) 0x5E) (illegalTrap w) s.me.pc).SameElsewhere t := by
  have htrap := takeTrap_double (rested s).trapCycle (illegalTrap w) (rested s).me.pc 1
    (by rw [trapCycle_issueBuf, rested_issueBuf, hbuf]) (by rw [trapCycle_tr, rested_me]; exact hm)
    (by rw [trapCycle_eq, State.updMe_cur, rested_cur, ← trapCycle_eq, rested_trapCycle_myTask]; exact hd)
  rw [trapCycle_eq, bankEnding_updMe, doubled_updMe, rested_me, Ctx.unslept_pc] at htrap
  obtain ⟨t, hexec, hregs, hpc, hme, hse⟩ := illegal_stays
    (u := doubled (bankEnding (rested s) 0x5E) (illegalTrap w) s.me.pc) (g := fun c => Ctx.haltedBy 0x5E c.doubleTrapped) hc hr
    ((bankEnding_me _ _).trans (rested_me s))
    ((bankEnding_issueBuf _ _).trans ((rested_issueBuf s).trans hbuf))
    (by rw [trapCycle_eq, rested_me, Ctx.unslept_pc]; exact htrap) (fun _ => ⟨rfl, rfl, rfl, rfl⟩)
  refine ⟨t, hexec, hregs, hpc, ?_, ?_, hse⟩
  · rw [hme]; rfl
  · rw [hme]; rfl

theorem illegal_doubles_debug (hm : s.me.tr.hm = true) (ho : s.cur.ctx % 4 = 0) (hd : ∃ k, s.myTask = some k ∧ k.debug = true) :
    ∃ t, exec (.illegalEncoding w) s = .next t ∧ RegsKept s.me t ∧ t.me.pc = s.me.pc ∧ t.me.run = s.me.run ∧
      t.me.dbg.halted = true ∧ t.me.tr = { s.me.tr with dt := true } ∧
      (doubled (rested s) (illegalTrap w) s.me.pc).SameElsewhere t := by
  obtain ⟨k, hk, hdebug⟩ := hd
  have htrap := takeTrap_double_debug (rested s).trapCycle (illegalTrap w) (rested s).me.pc 1
    (by rw [trapCycle_tr, rested_me]; exact hm) (by rw [trapCycle_eq, State.updMe_cur, rested_cur]; exact ho)
    ((rested_trapCycle_myTask s).trans hk) hdebug
  rw [trapCycle_eq, doubled_updMe, rested_me, Ctx.unslept_pc] at htrap
  obtain ⟨t, hexec, hregs, hpc, hme, hse⟩ := illegal_stays
    (u := doubled (rested s) (illegalTrap w) s.me.pc)
    (g := fun c => { c.doubleTrapped with dbg := { c.dbg with halted := true } }) hc hr (rested_me s)
    ((rested_issueBuf s).trans hbuf)
    (by rw [trapCycle_eq, rested_me, Ctx.unslept_pc]; exact htrap) (fun _ => ⟨rfl, rfl, rfl, rfl⟩)
  refine ⟨t, hexec, hregs, hpc, ?_, ?_, ?_, hse⟩
  · rw [hme]; rfl
  · rw [hme]
  · rw [hme]; rfl

end

/-- Settles O34: row 1 decides, and the trap that follows changes the running context and, beside it, what the statement names. -/
theorem illegalWords : Obligations.IllegalWords := fun _ _ hc hr hbuf =>
  ⟨illegal_enters hc hr hbuf, illegal_halts hc hr hbuf, illegal_doubles hc hr hbuf, illegal_doubles_debug hc hr hbuf⟩

end Sys2Proof.Machine
end


-- ==== Sys2Proof/Proofs/Wakes.lean ====
section
/-! PROOFS. What ends the waits of a context: the last cycle of a YIELD, a wake, the landing of a next-tile entry (R125, R127,
R302, R390). -/

namespace Sys2Proof.Machine

open Sys2Proof.Claim

theorem Ctx.wake_eq_awake (c : Ctx) : c.wake = awake c := by
  unfold Ctx.wake Ctx.wakeBwait awake
  by_cases hi : c.waits.idle = true
  · rw [if_pos hi, if_pos hi]
  · rw [if_neg hi, if_neg hi]
    cases ha : c.waits.asleep <;> simp

/-- A wake of the running context, whose lend is taken back where it is the owner and the lend is AUTO (R294). -/
theorem wakeCtx_eq_woken (s : State) : s.wakeCtx s.cur.core s.cur.ctx = woken s := by
  have hctx : s.updCtx s.cur.core s.cur.ctx Ctx.wake = s.updMe awake := congrArg s.updMe (funext Ctx.wake_eq_awake)
  have hlend : (s.updMe awake).myCore.lend = s.myCore.lend := by rw [State.myCore_updMe]; rfl
  have hrev : (s.updMe awake).startRevoke s.cur.core =
      if s.myCore.lend.cfg.active = true then (s.updMe awake).updMyCore (revoked s) else s.updMe awake := by
    unfold State.startRevoke
    exact if_congr (iff_of_eq (congrArg (·.cfg.active = true) hlend)) rfl rfl
  unfold State.wakeCtx State.wakeBy woken
  dsimp only
  rw [hctx, hrev]
  have hauto : ((s.updMe awake).core s.cur.core).lend = s.myCore.lend := hlend
  by_cases ho : s.cur.ctx % 4 = 0 <;> by_cases ha : s.myCore.lend.cfg.auto = true <;>
    simp [isEddy, hauto, ho, ha]

theorem exec_yieldExpiry {s : State} (hc : s.cur.core < nCores) (h : s.me.waits.yield = 1) :
    exec .yieldExpiry s = .next (s.updMe (fun c => { c.tick 0 with waits := { c.waits with yield := 0 } })) := by
  change execYieldExpiry s = _
  unfold execYieldExpiry
  exact onCore_due hc (by simpa using h)

theorem exec_contextWake {s : State} (hc : s.cur.core < nCores) (h : s.me.run ≠ .unbound) :
    exec .contextWake s = .next (woken s) := by
  change execContextWake s = _
  unfold execContextWake
  exact (onCore_due hc (by simpa using h)).trans (congrArg _ (wakeCtx_eq_woken s))

theorem exec_nextTileLanding {s : State} (hc : s.cur.core < nCores) (h : ∃ e ∈ s.me.nx, e.due = 1) :
    exec .nextTileLanding s = .next (woken (s.updMe (fun c =>
      { c with nx := c.nx.map (fun e => if e.due = 1 then { e with due := 0 } else e) }))) := by
  have hany : s.me.nx.any (fun e => e.due == 1) = true := by simpa using h
  change execNextTileLanding s = _
  unfold execNextTileLanding
  refine (onCore_due hc hany).trans (congrArg _ ?_)
  unfold State.landNx
  exact (if_pos hany).trans (wakeCtx_eq_woken (s.updMe _))

theorem contextWakes : ContextWakes := by
  intro s hc
  refine ⟨fun h => ⟨_, exec_yieldExpiry hc h, sameElsewhere_updMe s _, ?_, ?_, ?_, ?_⟩, exec_contextWake hc,
    exec_nextTileLanding hc⟩
  · unfold RegsKept; rw [State.me_updMe]; exact ⟨rfl, rfl, Ctx.tick_rngseed _ 0⟩
  · rw [State.me_updMe]; rfl
  · rw [State.me_updMe]; rfl
  · rw [State.me_updMe]

end Sys2Proof.Machine
end


-- ==== Sys2Proof/Proofs/MachineChecks.lean ====
section
/-! PROOFS. A machine check: the contexts it halts, the tasks it ends, and what it leaves alone (R200, R428). -/

namespace Sys2Proof.Machine

open Sys2Proof.Claim

/-! ### One context -/

theorem updCore_updCore (s : State) (c : Nat) (f g : CoreState → CoreState) :
    (s.updCore c f).updCore c g = s.updCore c (fun x => g (f x)) := by
  unfold State.updCore
  rw [State.core_setCore, State.setCore_setCore]

/-- The halt of a context, in its core. -/
def CoreState.haltAt (k n : Nat) (x : CoreState) : CoreState :=
  let y := (x.setCtx k { x.ctx k with run := .halted n, waits := {} }).dropBuf k
  if isEddy k then y.updBank k (fun b => { b with st := .ending, exit := if b.origin then b.exit else n }) else y

theorem haltCtx_eq_updCore (s : State) (c k n : Nat) : s.haltCtx c k n = s.updCore c (CoreState.haltAt k n) := by
  unfold State.haltCtx
  rw [show s.updCtx c k (fun x => { x with run := .halted n, waits := {} }) =
    s.updCore c (fun x => x.setCtx k { x.ctx k with run := .halted n, waits := {} }) from rfl, updCore_updCore]
  unfold CoreState.haltAt
  cases isEddy k with
  | true => simp only [if_true, updCore_updCore]
  | false => rfl

/-- A context that a machine check reaches, in its core. -/
def CoreState.checkAt (k n : Nat) (x : CoreState) : CoreState :=
  (x.haltAt k 0x5F).setCtx k (((x.haltAt k 0x5F).ctx k).scramble n)

theorem CoreState.haltAt_ctxs (k n : Nat) (x : CoreState) :
    (x.haltAt k n).ctxs = (x.setCtx k { x.ctx k with run := .halted n, waits := {} }).ctxs := by
  unfold CoreState.haltAt
  cases isEddy k <;> rfl

theorem CoreState.haltAt_spad (k n : Nat) (x : CoreState) : (x.haltAt k n).spad = x.spad := by
  unfold CoreState.haltAt
  cases isEddy k <;> rfl

theorem CoreState.checkAt_ctx_same (k n : Nat) (x : CoreState) :
    (x.checkAt k n).ctx k = ({ x.ctx k with run := .halted 0x5F, waits := {} } : Ctx).scramble n := by
  have h : (x.haltAt k 0x5F).ctx k = { x.ctx k with run := .halted 0x5F, waits := {} } := by
    unfold CoreState.ctx at *
    rw [CoreState.haltAt_ctxs]
    exact CoreState.ctx_setCtx x k _
  unfold CoreState.checkAt
  rw [CoreState.ctx_setCtx, h]

theorem CoreState.checkAt_ctx_other (k n : Nat) (x : CoreState) {j : Nat} (h : j % 4 ≠ k % 4) :
    (x.checkAt k n).ctx j = x.ctx j := by
  unfold CoreState.checkAt
  rw [CoreState.ctx_setCtx_other _ _ h]
  unfold CoreState.ctx
  rw [CoreState.haltAt_ctxs]
  exact CoreState.ctx_setCtx_other x _ h

theorem noteFault_core (s : State) (t n : Option Nat) (c : Nat) : (s.noteFault t n).core c = s.core c := by
  unfold State.noteFault
  split <;> rfl

/-- A machine check at one context changes the firmware's tasks, its core, and the free words that are spent. -/
theorem checkHalt_eq (c : Nat) (s : State) (k : Nat) :
    State.checkHalt c s k =
      { (s.noteFault (s.ctx c k).task (some 0x5F)).updCore c (CoreState.checkAt k s.freeCount) with
        freeCount := s.freeCount + scrambleWords } := by
  unfold State.checkHalt
  rw [haltCtx_eq_updCore]
  have h : ((s.noteFault (s.ctx c k).task (some 0x5F)).updCore c (CoreState.haltAt k 0x5F)).updCtx c k
      (Ctx.scramble s.freeCount) =
      ((s.noteFault (s.ctx c k).task (some 0x5F)).updCore c (CoreState.haltAt k 0x5F)).updCore c
        (fun x => x.setCtx k ((x.ctx k).scramble s.freeCount)) := rfl
  rw [h, updCore_updCore]
  rfl

theorem checkHalt_core_same (c : Nat) (s : State) (k : Nat) :
    (State.checkHalt c s k).core c = (s.core c).checkAt k s.freeCount := by
  rw [checkHalt_eq]
  exact (State.core_updCore _ _ _).trans (congrArg _ (noteFault_core s _ _ c))

theorem checkHalt_core_other (c : Nat) (s : State) (k : Nat) {d : Nat} (h : d ≠ c) :
    (State.checkHalt c s k).core d = s.core d := by
  rw [checkHalt_eq]
  exact (State.core_updCore_other _ _ h).trans (noteFault_core s _ _ d)

theorem checkHalt_ctx_same (c : Nat) (s : State) (k : Nat) :
    (State.checkHalt c s k).ctx c k = ({ s.ctx c k with run := .halted 0x5F, waits := {} } : Ctx).scramble s.freeCount := by
  unfold State.ctx
  rw [checkHalt_core_same, CoreState.checkAt_ctx_same]

theorem checkHalt_ctx_other (c : Nat) (s : State) (k : Nat) {j : Nat} (h : j % 4 ≠ k % 4) :
    (State.checkHalt c s k).ctx c j = s.ctx c j := by
  unfold State.ctx
  rw [checkHalt_core_same, CoreState.checkAt_ctx_other _ _ _ h]

/-- The task of every context stays. -/
theorem checkHalt_task (c : Nat) (s : State) (k j : Nat) : ((State.checkHalt c s k).ctx c j).task = (s.ctx c j).task := by
  by_cases h : j % 4 = k % 4
  · have hk : ∀ u : State, u.ctx c j = u.ctx c k := fun u => by
      have hf : Fin.ofNat 4 j = Fin.ofNat 4 k := Fin.ext h
      unfold State.ctx CoreState.ctx
      rw [hf]
    rw [hk, hk, checkHalt_ctx_same]
    rfl
  · rw [checkHalt_ctx_other c s k h]

/-- A task that ends with cause 0x5F where no earlier fault of it stands. -/
def endedByCheck (d : Task) : Task := { d with code := some (d.code.getD 0x5F) }

theorem checkHalt_tasks (c : Nat) (s : State) (k : Nat) :
    (State.checkHalt c s k).fw.tasks =
      s.fw.tasks.map (fun d => if (s.ctx c k).task = some d.num then endedByCheck d else d) := by
  rw [checkHalt_eq]
  unfold State.noteFault
  cases ht : (s.ctx c k).task with
  | none => simp [State.updCore, State.setCore]
  | some n =>
    refine List.map_congr_left fun d _ => ?_
    by_cases h : d.num = n
    · simp [h, endedByCheck]
    · simp [h, Ne.symm h]

/-! ### The contexts of a list -/

/-- What a machine check at a core leaves alone: every other core, the scratchpad, physical memory, the host, and the reports. -/
structure LeftByChecks (c : Nat) (s t : State) : Prop where
  core : ∀ d, d ≠ c → t.core d = s.core d
  spad : (t.core c).spad = (s.core c).spad
  phys : t.phys = s.phys
  host : t.host = s.host
  reports : t.fw.reports = s.fw.reports

theorem leftByChecks_checkHalt (c : Nat) (s : State) (k : Nat) : LeftByChecks c s (State.checkHalt c s k) where
  core _ h := checkHalt_core_other c s k h
  spad := by rw [checkHalt_core_same]; exact CoreState.haltAt_spad _ _ _
  phys := by rw [checkHalt_eq]; unfold State.noteFault; split <;> rfl
  host := by rw [checkHalt_eq]; unfold State.noteFault; split <;> rfl
  reports := by rw [checkHalt_eq]; unfold State.noteFault; split <;> rfl

theorem LeftByChecks.trans {c : Nat} {s t u : State} (h : LeftByChecks c s t) (h' : LeftByChecks c t u) :
    LeftByChecks c s u where
  core d hd := (h'.core d hd).trans (h.core d hd)
  spad := h'.spad.trans h.spad
  phys := h'.phys.trans h.phys
  host := h'.host.trans h.host
  reports := h'.reports.trans h.reports

theorem leftByChecks_foldl (c : Nat) (ks : List Nat) (s : State) : LeftByChecks c s (ks.foldl (State.checkHalt c) s) := by
  induction ks generalizing s with
  | nil => exact ⟨fun _ _ => rfl, rfl, rfl, rfl, rfl⟩
  | cons k ks ih => exact (leftByChecks_checkHalt c s k).trans (ih _)

theorem foldl_checkHalt_ctx_other (c : Nat) (ks : List Nat) (s : State) {j : Nat} (hj : j < 4)
    (hks : ∀ k ∈ ks, k < 4 ∧ j ≠ k) : (ks.foldl (State.checkHalt c) s).ctx c j = s.ctx c j := by
  induction ks generalizing s with
  | nil => rfl
  | cons k ks ih =>
    obtain ⟨hk, hne⟩ := hks k (List.mem_cons_self ..)
    refine (ih _ fun i hi => hks i (List.mem_cons_of_mem _ hi)).trans (checkHalt_ctx_other c s k ?_)
    omega

theorem foldl_checkHalt_run (c : Nat) (ks : List Nat) (s : State) (hks : ∀ k ∈ ks, k < 4) {j : Nat} (hj : j ∈ ks) :
    ((ks.foldl (State.checkHalt c) s).ctx c j).run = .halted 0x5F := by
  induction ks generalizing s with
  | nil => cases hj
  | cons k ks ih =>
    have hrest : ∀ i ∈ ks, i < 4 := fun i hi => hks i (List.mem_cons_of_mem _ hi)
    by_cases hmem : j ∈ ks
    · exact ih _ hrest hmem
    · obtain rfl | h := List.mem_cons.mp hj
      · have hother := foldl_checkHalt_ctx_other c ks (State.checkHalt c s j) (hks j hj)
          fun i hi => ⟨hrest i hi, fun e => hmem (e ▸ hi)⟩
        rw [List.foldl_cons, hother, checkHalt_ctx_same]
        rfl
      · exact absurd h hmem

theorem foldl_checkHalt_tasks (c : Nat) (ks : List Nat) (s : State) :
    (ks.foldl (State.checkHalt c) s).fw.tasks =
      s.fw.tasks.map (fun d => if ∃ k ∈ ks, (s.ctx c k).task = some d.num then endedByCheck d else d) := by
  induction ks generalizing s with
  | nil => simp
  | cons k ks ih =>
    rw [List.foldl_cons, ih, checkHalt_tasks, List.map_map]
    refine List.map_congr_left fun d _ => ?_
    simp only [Function.comp_apply, checkHalt_task, List.exists_mem_cons_iff]
    by_cases hk : (s.ctx c k).task = some d.num
    · simp [hk, endedByCheck]
    · simp [hk]

theorem machineChecks : MachineChecks := by
  intro m s hm
  generalize hks : [0, 1, 2, 3].filter (fun k => m.ctxs.contains k && (s.ctx m.core k).run != .unbound) = ks
  have hmem : ∀ k, k ∈ ks ↔ k < 4 ∧ k ∈ m.ctxs ∧ (s.ctx m.core k).run ≠ .unbound := by
    intro k
    rw [← hks]
    simp
    omega
  have hexec : exec (.machineCheck m) s = .next (((ks.foldl (State.checkHalt m.core) s).report
      ⟨0x5F, wd (m.core + 65536 * m.unit), m.syndrome⟩).raiseIrq 2) := by
    rw [← hks]
    exact if_neg (Nat.not_le.mpr hm)
  have hleft := leftByChecks_foldl m.core ks s
  refine ⟨_, hexec, fun k hk hc hr => ?_, fun k hk hn => ?_, hleft.core, hleft.spad, hleft.phys, ?_, ?_, ?_⟩
  · exact foldl_checkHalt_run m.core ks s (fun i hi => ((hmem i).mp hi).1) ((hmem k).mpr ⟨hk, hc, hr⟩)
  · refine foldl_checkHalt_ctx_other m.core ks s hk fun i hi => ⟨((hmem i).mp hi).1, ?_⟩
    rintro rfl
    exact hn ((hmem k).mp hi).2
  · refine (foldl_checkHalt_tasks m.core ks s).trans (List.map_congr_left fun d _ => ?_)
    refine if_congr (exists_congr fun k => ?_) rfl rfl
    rw [hmem]
    tauto
  · exact congrArg (· ++ _) hleft.reports
  · rw [← hleft.host]
    exact Vector.getElem_set_self (Fin.ofNat 4 2).isLt

end Sys2Proof.Machine
end


-- ==== Sys2Proof/Proofs/KindA.lean ====
section
/-! PROOFS. The kind-A events of a context at its bundle's boundary: which is taken, and what taking it leaves (R184 to R187,
R196, R369). -/

namespace Sys2Proof.Machine

open Sys2Proof.Claim

/-! ### The trap of an event, with and without a handler -/

theorem Ctx.unslept_idleWoken (c : Ctx) : c.unslept.waits.idleWoken = c.waits.idleWoken := by
  unfold Ctx.unslept
  cases h : c.waits.sleptAt <;> simp

theorem takenA_enterA (s : State) (r : FaultRec) (hh : s.me.tr.hm = false) (hn : s.me.tr.noh = false) :
    TakenA s (s.enterA r) r := by
  unfold TakenA
  rw [State.enterA_enter s r hh hn, State.unsleep_me]
  refine ⟨?_, rfl, rfl, rfl, fun n => ?_, rfl, rfl, rfl, rfl, rfl⟩
  · simp [Ctx.enter, Ctx.tick, kindATrap, Ctx.unslept_idleWoken]
  · simp [Ctx.enter, Vector.get]

theorem haltedA_enterA (s : State) (r : FaultRec) (hh : s.me.tr.hm = false) (hn : s.me.tr.noh = true) :
    HaltedA s (s.enterA r) r := by
  obtain ⟨hme, hreports⟩ := State.enterA_halt s r hh hn
  unfold HaltedA
  rw [hme, State.unsleep_me]
  exact ⟨rfl, rfl, rfl, rfl, rfl, rfl, hreports⟩

/-- What a kind-A trap leaves of the events of its context, with or without a handler. -/
theorem enterA_events (s : State) (r : FaultRec) (hh : s.me.tr.hm = false) :
    (s.enterA r).me.pend = s.me.pend ∧ (s.enterA r).me.notice = s.me.notice ∧
      (s.enterA r).me.csr.fpstat = s.me.csr.fpstat := by
  cases hn : s.me.tr.noh with
  | false =>
    rw [State.enterA_enter s r hh hn, State.unsleep_me]
    exact ⟨rfl, rfl, Ctx.tick_fpstat _ 0⟩
  | true =>
    rw [(State.enterA_halt s r hh hn).1, State.unsleep_me]
    exact ⟨rfl, rfl, Ctx.tick_fpstat _ 0⟩

/-! ### A state that differs from the turn's in the events of its context -/

/-- The running context is that of `s` but for its events and its control registers; the firmware has the same reports. -/
structure EventsOff (s u : State) : Prop where
  me : u.me = { s.me with pend := u.me.pend, notice := u.me.notice, csr := u.me.csr }
  reports : u.fw.reports = s.fw.reports

theorem EventsOff.tr {s u : State} (h : EventsOff s u) : u.me.tr = s.me.tr := by rw [h.me]

theorem EventsOff.takenA {s u : State} (h : EventsOff s u) (r : FaultRec) (hh : s.me.tr.hm = false)
    (hn : s.me.tr.noh = false) : TakenA s (u.enterA r) r := by
  have ht := takenA_enterA u r (by rw [h.tr]; exact hh) (by rw [h.tr]; exact hn)
  unfold TakenA at ht ⊢
  rw [h.me] at ht
  exact ht

theorem EventsOff.haltedA {s u : State} (h : EventsOff s u) (r : FaultRec) (hh : s.me.tr.hm = false)
    (hn : s.me.tr.noh = true) : HaltedA s (u.enterA r) r := by
  have ht := haltedA_enterA u r (by rw [h.tr]; exact hh) (by rw [h.tr]; exact hn)
  unfold HaltedA at ht ⊢
  rw [h.me, h.reports] at ht
  exact ht

/-! ### Which event is due (R185) -/

theorem canAct_of_acts {s : State} (h : Acts s) : s.canAct = true := by
  obtain ⟨-, hruns, hyield, hwake⟩ := h
  simp [State.canAct, hruns, hyield, hwake]

theorem find_soft_none {l : List PendA} (h : ∀ q ∈ l, q.soft = false) : l.find? (·.soft) = none :=
  List.find?_eq_none.mpr fun q hq => by rw [h q hq]; decide

theorem dueA_soft {s : State} {p : PendA} (hh : s.me.tr.hm = false) (hp : s.me.pend.find? (·.soft) = some p) :
    s.dueA = some (.soft p) := by
  simp [State.dueA, Ctx.nextA, hh, hp]

theorem dueA_notice {s : State} {i : Word × Word} (hh : s.me.tr.hm = false) (hn : s.me.tr.noh = false)
    (hi : s.me.notice = some i) (hs : ∀ q ∈ s.me.pend, q.soft = false) : s.dueA = some (.notice i) := by
  simp [State.dueA, Ctx.nextA, hh, hn, hi, find_soft_none hs]

theorem dueA_fault {s : State} {p : PendA} {rest : List PendA} (hh : s.me.tr.hm = false) (hi : s.me.notice = none)
    (hp : s.me.pend = p :: rest) (hs : ∀ q ∈ s.me.pend, q.soft = false) : s.dueA = some (.fault p) := by
  have hf : s.me.pend.head? = some p := by rw [hp]; rfl
  simp [State.dueA, Ctx.nextA, hh, hi, find_soft_none hs, hf]

/-! ### The oldest fault (R184) -/

theorem exec_kindAFault {s : State} {p : PendA} (ha : Acts s) (hd : s.dueA = some (.fault p)) :
    exec .kindAFault s = .next (s.takeA (.fault p)) := by
  change execKindAFault s = _
  unfold execKindAFault
  refine (onCore_due ha.1 ?_).trans ?_
  · simp [canAct_of_acts ha, hd]
  · simp [hd]

theorem kindA_fault {s : State} {p : PendA} {rest : List PendA} (ha : Acts s) (hh : s.me.tr.hm = false)
    (hi : s.me.notice = none) (hp : s.me.pend = p :: rest) (hs : ∀ q ∈ s.me.pend, q.soft = false) :
    ∃ t, exec .kindAFault s = .next t ∧ t.me.pend = rest ∧ t.me.csr.fpstat = s.me.csr.fpstat ||| p.flags ∧
      (s.me.tr.noh = false → TakenA s t p.record) ∧ (s.me.tr.noh = true → HaltedA s t p.record) := by
  have hsoft : p.soft = false := hs p (by rw [hp]; exact List.mem_cons_self ..)
  have hexec := exec_kindAFault ha (dueA_fault hh hi hp hs)
  unfold State.takeA at hexec
  dsimp only at hexec
  generalize hu : (s.updMe (fun c => { c with
    pend := dropPend false c.pend, csr := { c.csr with fpstat := c.csr.fpstat ||| p.flags } })).faultReported p.record = u at hexec
  have hme : u.me = { s.me with
      pend := rest, csr := { s.me.csr with fpstat := s.me.csr.fpstat ||| p.flags } } := by
    rw [← hu, State.faultReported_me, State.me_updMe, hp]
    simp [dropPend, hsoft]
  have hoff : EventsOff s u := ⟨by rw [hme], by rw [← hu, State.faultReported_fw]; rfl⟩
  obtain ⟨hpend, -, hfp⟩ := enterA_events u p.record (by rw [hoff.tr]; exact hh)
  refine ⟨_, hexec, ?_, ?_, hoff.takenA p.record hh, hoff.haltedA p.record hh⟩
  · rw [hpend, hme]
  · rw [hfp, hme]

/-! ### The oldest software trap (R185, R196) -/

/-- Dropping the oldest software trap keeps the other events in their order. -/
theorem dropPend_soft {l : List PendA} {p : PendA} (h : l.find? (·.soft) = some p) :
    ∃ a b, l = a ++ p :: b ∧ (∀ q ∈ a, q.soft = false) ∧ dropPend true l = a ++ b := by
  induction l with
  | nil => cases h
  | cons q l ih =>
    cases hq : q.soft with
    | true =>
      simp [hq] at h
      exact ⟨[], l, by simp [h], by simp, by simp [dropPend, hq]⟩
    | false =>
      simp only [List.find?_cons, hq] at h
      obtain ⟨a, b, hl, ha, hdrop⟩ := ih h
      refine ⟨q :: a, b, by simp [hl], ?_, by simp [dropPend, hq, hdrop]⟩
      exact List.forall_mem_cons.mpr ⟨hq, ha⟩

/-- A notice that a context without a handler drops changes its events only, and none that is pending. -/
theorem dropNotice_eventsOff (s : State) : EventsOff s s.dropNotice ∧ s.dropNotice.me.pend = s.me.pend ∧
    (s.me.tr.noh = false → s.dropNotice = s) := by
  unfold State.dropNotice
  split
  next h =>
    have hno : s.me.tr.noh = true := (Bool.and_eq_true_iff.mp h).2
    have hcount : ∀ u : State, u.countDenial.me = u.me ∧ u.countDenial.fw.reports = u.fw.reports := fun u => by
      unfold State.countDenial; split <;> exact ⟨rfl, rfl⟩
    obtain ⟨hme, hreports⟩ := hcount (s.updMe (fun c => { c with notice := none }))
    rw [State.me_updMe] at hme
    refine ⟨⟨by rw [hme], hreports⟩, by rw [hme], fun hn => ?_⟩
    rw [hno] at hn
    cases hn
  next => exact ⟨⟨rfl, rfl⟩, rfl, fun _ => rfl⟩

theorem actCycle_soft {s : State} {p : PendA} (hh : s.me.tr.hm = false) (hp : s.me.pend.find? (·.soft) = some p) :
    s.actCycle = .next (s.dropNotice.takeA (.soft p)) := by
  obtain ⟨hoff, hpend, -⟩ := dropNotice_eventsOff s
  have hd : s.dropNotice.dueA = some (.soft p) := dueA_soft (by rw [hoff.tr]; exact hh) (by rw [hpend]; exact hp)
  unfold State.actCycle
  dsimp only
  rw [hd]

theorem kindA_soft {s : State} {p : PendA} (hh : s.me.tr.hm = false) (hp : s.me.pend.find? (·.soft) = some p) :
    ∃ t a b, s.actCycle = .next t ∧ s.me.pend = a ++ p :: b ∧ (∀ q ∈ a, q.soft = false) ∧ t.me.pend = a ++ b ∧
      (s.me.tr.noh = false → t.me.notice = s.me.notice ∧ TakenA s t p.record) ∧
      (s.me.tr.noh = true → HaltedA s t p.record) := by
  obtain ⟨a, b, hl, ha, hdrop⟩ := dropPend_soft hp
  obtain ⟨hoff, hpend, hkeep⟩ := dropNotice_eventsOff s
  have hact := actCycle_soft hh hp
  unfold State.takeA at hact
  dsimp only at hact
  generalize hu : s.dropNotice.updMe (fun c => { c with pend := dropPend true c.pend }) = u at hact
  have hme : u.me = { s.dropNotice.me with pend := a ++ b } := by rw [← hu, State.me_updMe, hpend, hdrop]
  have hofu : EventsOff s u := ⟨by rw [hme, hoff.me], by rw [← hu]; exact hoff.reports⟩
  obtain ⟨hpend', hnotice, -⟩ := enterA_events u p.record (by rw [hofu.tr]; exact hh)
  refine ⟨_, a, b, hact, hl, ha, ?_, fun hn => ⟨?_, hofu.takenA p.record hh hn⟩, hofu.haltedA p.record hh⟩
  · rw [hpend', hme]
  · rw [hnotice, hme, hkeep hn]

/-! ### A throttle notice (R369) -/

theorem exec_throttleNotice_taken {s : State} {i : Word × Word} (ha : Acts s) (hn : s.me.tr.noh = false)
    (hd : s.dueA = some (.notice i)) : exec .throttleNotice s = .next (s.takeA (.notice i)) := by
  change execThrottleNotice s = _
  unfold execThrottleNotice
  refine (onCore_due ha.1 ?_).trans ?_
  · simp [canAct_of_acts ha, hd]
  · simp [hn, hd]

theorem exec_throttleNotice_dropped {s : State} {i : Word × Word} (ha : Acts s) (hn : s.me.tr.noh = true)
    (hi : s.me.notice = some i) :
    exec .throttleNotice s = .next ((s.updMe (fun c => { c with notice := none })).countDenial) := by
  change execThrottleNotice s = _
  unfold execThrottleNotice
  refine (onCore_due ha.1 ?_).trans ?_
  · simp [canAct_of_acts ha, hn, hi]
  · simp [State.dropNotice, hn, hi]

theorem kindA_notice {s : State} {i : Word × Word} (ha : Acts s) (hh : s.me.tr.hm = false) (hi : s.me.notice = some i)
    (hs : ∀ q ∈ s.me.pend, q.soft = false) (hn : s.me.tr.noh = false) :
    ∃ t, exec .throttleNotice s = .next t ∧ t.me.notice = none ∧ t.me.pend = s.me.pend ∧ TakenA s t ⟨0x58, i.1, i.2⟩ := by
  have hexec := exec_throttleNotice_taken ha hn (dueA_notice hh hn hi hs)
  unfold State.takeA at hexec
  dsimp only at hexec
  generalize hu : s.updMe (fun c => { c with notice := none }) = u at hexec
  have hme : u.me = { s.me with notice := none } := by rw [← hu, State.me_updMe]
  have hoff : EventsOff s u := ⟨by rw [hme], by rw [← hu]; rfl⟩
  obtain ⟨hpend, hnotice, -⟩ := enterA_events u ⟨0x58, i.1, i.2⟩ (by rw [hoff.tr]; exact hh)
  refine ⟨_, hexec, ?_, ?_, hoff.takenA _ hh hn⟩
  · rw [hnotice, hme]
  · rw [hpend, hme]

theorem kindAEvents : KindAEvents := by
  refine ⟨fun s p rest ha hh hi hp hs => kindA_fault ha hh hi hp hs, fun s c k rest p hag => ?_,
    fun s i ha hh hi hs => ⟨kindA_notice ha hh hi hs, fun hn k hk => ?_⟩⟩
  · dsimp only
    generalize hu : ({ s with agenda := rest, cur := { s.cur with core := c, ctx := k } } : State) = u
    intro hc ha hh hp
    have hstep : step s = u.actCycle := by
      rw [← ctxTurn_acts hc (canAct_of_acts ha), ← hu]
      unfold step State.turn
      rw [hag]
      rfl
    rw [hstep]
    exact kindA_soft hh hp
  · have hk' : (s.updMe (fun c => { c with notice := none })).me.task = some k := by rw [State.me_updMe]; exact hk
    rw [exec_throttleNotice_dropped ha hn hi]
    unfold State.countDenial
    rw [hk']

end Sys2Proof.Machine
end


-- ==== Sys2Proof/Proofs/Accessing.lean ====
section
/-! PROOFS. What an access does before it reads or queues its bytes: earlier stores are performed and pages are walked (R166, R181,
R344). None of it is seen by the rest of the issue, and it commutes with every change of the running context that leaves the
context's queues of accesses alone. -/

namespace Sys2Proof.Machine

open Sys2Proof.Claim

/-! ### Changes of a core's memory -/

/-- A core with the memory, the tile table and the TLB of another. -/
def CoreState.withMem (x y : CoreState) : CoreState :=
  { x with spad := y.spad, spadPoison := y.spadPoison, tiles := y.tiles, stripes := y.stripes, tlb := y.tlb }

/-- A change of a core's memory only, which does not look at the core's contexts. -/
structure MemOnly (f : CoreState → CoreState) : Prop where
  kept : ∀ x, f x = x.withMem (f x)
  blind : ∀ (x : CoreState) (v : Vector Ctx 4), f { x with ctxs := v } = { f x with ctxs := v }

theorem MemOnly.comp {f g : CoreState → CoreState} (hf : MemOnly f) (hg : MemOnly g) : MemOnly (fun x => g (f x)) where
  kept x := by
    have h := hg.kept (f x)
    rw [hf.kept x] at h ⊢
    exact h
  blind x v := by rw [hf.blind, hg.blind]

theorem memOnly_foldl {α : Type} (f : α → CoreState → CoreState) (hf : ∀ a, MemOnly (f a)) (l : List α) :
    MemOnly (fun x => l.foldl (fun x a => f a x) x) := by
  induction l with
  | nil => exact ⟨fun _ => rfl, fun _ _ => rfl⟩
  | cons a l ih => exact (hf a).comp ih

theorem memOnly_touch (off t : Nat) : MemOnly (CoreState.touch · off t) where
  kept x := by unfold CoreState.touch; split <;> rfl
  blind x v := by
    unfold CoreState.touch
    rw [show CoreState.stripe { x with ctxs := v } off = x.stripe off from rfl]
    split <;> rfl

theorem memOnly_downgrade (off : Nat) : MemOnly (CoreState.downgrade · off) := ⟨fun _ => rfl, fun _ _ => rfl⟩

/-- The cells that land: those of stripes that are not gated (R243). -/
def CoreState.landing (cs : List (Nat × Byte)) (x : CoreState) : List (Nat × Byte) := cs.filter (fun c => !x.gated c.1)

/-- Cells landed in the bytes of the scratchpad and in the poison of its rows (R355). -/
def CoreState.landed (cs : List (Nat × Byte)) (x : CoreState) : CoreState :=
  { x with
    spad := x.spad.writeCells cs
    spadPoison := x.spadPoison.filter (fun r => !((List.range 32).all (fun i => cs.any (fun c => c.1 == 32 * r + i)))) }

theorem spadCells_eq (x : CoreState) (cs : List (Nat × Byte)) :
    x.spadCells cs = ((x.landing cs).map (·.1)).foldl CoreState.downgrade (x.landed (x.landing cs)) := rfl

theorem memOnly_downgrades (l : List Nat) : MemOnly (fun x => l.foldl CoreState.downgrade x) :=
  memOnly_foldl (fun o x => x.downgrade o) memOnly_downgrade l

theorem memOnly_spadCells (cs : List (Nat × Byte)) : MemOnly (CoreState.spadCells · cs) where
  kept x := by
    simp only [spadCells_eq]
    exact (memOnly_downgrades _).kept (x.landed (x.landing cs))
  blind x v := by
    have hl : CoreState.landing cs { x with ctxs := v } = x.landing cs := rfl
    simp only [spadCells_eq, hl]
    exact (memOnly_downgrades _).blind (x.landed (x.landing cs)) v

theorem memOnly_tlb (e : TlbEnt) : MemOnly (fun x => { x with tlb := (e :: x.tlb).take 64 }) := ⟨fun _ => rfl, fun _ _ => rfl⟩

theorem MemOnly.ctxs {f : CoreState → CoreState} (hf : MemOnly f) (x : CoreState) : (f x).ctxs = x.ctxs := by
  rw [hf.kept]; rfl

theorem MemOnly.setCtx {f : CoreState → CoreState} (hf : MemOnly f) (x : CoreState) (k : Nat) (y : Ctx) :
    f (x.setCtx k y) = (f x).setCtx k y := by
  unfold CoreState.setCtx
  rw [hf.blind, hf.ctxs]

theorem MemOnly.updCtx {f : CoreState → CoreState} (hf : MemOnly f) (s : State) (c k : Nat) (h : Ctx → Ctx) :
    (s.updCtx c k h).updCore c f = (s.updCore c f).updCtx c k h := by
  have hctx : (f (s.core c)).ctx k = (s.core c).ctx k := by unfold CoreState.ctx; rw [hf.ctxs]
  unfold State.updCore State.updCtx State.ctx
  rw [State.core_setCore, State.core_setCore, State.setCore_setCore, State.setCore_setCore, hf.setCtx, hctx]

/-! ### Changes of the package beside the contexts of a core -/

/-- What a change of memory leaves as it was: who runs, the firmware, the boot settings, the effective counts, and of a core
everything but its memory. -/
structure MemLeft (c : Nat) (s t : State) : Prop where
  cur : t.cur = s.cur
  fw : t.fw = s.fw
  boot : t.boot = s.boot
  eff : ∀ j, t.eff j = s.eff j
  core : t.core c = (s.core c).withMem (t.core c)

theorem MemLeft.refl (c : Nat) (s : State) : MemLeft c s s := ⟨rfl, rfl, rfl, fun _ => rfl, rfl⟩

theorem MemLeft.trans {c : Nat} {s t u : State} (h : MemLeft c s t) (h' : MemLeft c t u) : MemLeft c s u where
  cur := h'.cur.trans h.cur
  fw := h'.fw.trans h.fw
  boot := h'.boot.trans h.boot
  eff j := (h'.eff j).trans (h.eff j)
  core := by
    have hc := h'.core
    rw [h.core] at hc
    exact hc

theorem MemLeft.ctx {c : Nat} {s t : State} (h : MemLeft c s t) (k : Nat) : t.ctx c k = s.ctx c k := by
  unfold State.ctx CoreState.ctx
  rw [h.core]
  rfl

/-- A change of memory, seen from the contexts of a core: it leaves them, and does not look at them. -/
structure Aside (c : Nat) (U : State → State) : Prop where
  left : ∀ s, MemLeft c s (U s)
  upd : ∀ s k h, U (s.updCtx c k h) = (U s).updCtx c k h

theorem Aside.updMe {U : State → State} {s : State} (hU : Aside s.cur.core U) (h : Ctx → Ctx) :
    U (s.updMe h) = (U s).updMe h := by
  have hcur := (hU.left s).cur
  unfold State.updMe
  rw [hcur, hU.upd]

theorem aside_id (c : Nat) : Aside c id := ⟨fun s => MemLeft.refl c s, fun _ _ _ => rfl⟩

theorem Aside.comp {c : Nat} {U V : State → State} (hU : Aside c U) (hV : Aside c V) : Aside c (fun s => V (U s)) where
  left s := (hU.left s).trans (hV.left (U s))
  upd s k h := by rw [hU.upd, hV.upd]

theorem aside_foldl {c : Nat} {α : Type} (U : α → State → State) (hU : ∀ a, Aside c (U a)) (l : List α) :
    Aside c (fun s => l.foldl (fun s a => U a s) s) := by
  induction l with
  | nil => exact aside_id c
  | cons a l ih => exact (hU a).comp ih

/-- A change of a core's memory that may depend on the effective count. -/
theorem aside_updCore (c : Nat) (f : Nat → CoreState → CoreState) (hf : ∀ t, MemOnly (f t)) :
    Aside c (fun s => s.updCore c (f (s.eff c))) where
  left s := by
    refine ⟨rfl, rfl, rfl, fun _ => rfl, ?_⟩
    rw [State.core_updCore]
    exact (hf _).kept _
  upd s k h := (hf _).updCtx s c k h

theorem aside_ite {c : Nat} {U V : State → State} (b : State → Bool) (hb : ∀ s k h, b (s.updCtx c k h) = b s) (hU : Aside c U)
    (hV : Aside c V) : Aside c (fun s => if b s = true then U s else V s) where
  left s := by
    cases b s
    · exact hV.left s
    · exact hU.left s
  upd s k h := by
    rw [hb]
    cases b s
    · exact hV.upd s k h
    · exact hU.upd s k h

theorem aside_physCells (c : Nat) (cs : List (Nat × Byte)) : Aside c (State.physCells · cs) :=
  ⟨fun _ => ⟨rfl, rfl, rfl, fun _ => rfl, rfl⟩, fun _ _ _ => rfl⟩

theorem aside_writeBack (c line : Nat) : Aside c (State.writeBack · line) := by
  unfold State.writeBack
  exact aside_ite _ (fun _ _ _ => rfl) (aside_id c) ⟨fun _ => ⟨rfl, rfl, rfl, fun _ => rfl, rfl⟩, fun _ _ _ => rfl⟩

theorem aside_refetch (c line : Nat) : Aside c (State.refetch · line) := by
  unfold State.refetch
  exact aside_ite _ (fun _ _ _ => rfl) ⟨fun _ => ⟨rfl, rfl, rfl, fun _ => rfl, rfl⟩, fun _ _ _ => rfl⟩ (aside_id c)

theorem memOnly_store (cs : List (Nat × Byte)) (t : Nat) :
    MemOnly (fun x => (cs.foldl (fun (x : CoreState) c => x.touch c.1 t) x).spadCells cs) :=
  (memOnly_foldl (fun c x => x.touch c.1 t) (fun c => memOnly_touch c.1 t) cs).comp (memOnly_spadCells cs)

theorem aside_performEnt (c : Nat) (e : StoreEnt) : Aside c (State.performEnt · c e) := by
  cases e with
  | store cs =>
    unfold State.performEnt
    dsimp only
    generalize cs.filterMap (fun c => match c.1 with | .spad o => some (o, c.2) | _ => none) = sp
    generalize cs.filterMap (fun c => match c.1 with | .phys p => some (p, c.2) | _ => none) = ph
    have hsp : Aside c (fun s => if sp.isEmpty = true then s else s.updCore c (fun x =>
        (sp.foldl (fun (x : CoreState) a => x.touch a.1 (s.eff c)) x).spadCells sp)) :=
      aside_ite _ (fun _ _ _ => rfl) (aside_id c) (aside_updCore c _ (memOnly_store sp))
    have hph : Aside c (fun s => if ph.isEmpty = true then s else s.physCells ph) :=
      aside_ite _ (fun _ _ _ => rfl) (aside_id c) (aside_physCells c ph)
    exact hsp.comp hph
  | cwb l => exact aside_writeBack c l
  | cinv l => exact (aside_writeBack c l).comp (aside_refetch c l)
  | mark => exact aside_id c

/-! ### The walks of an access -/

theorem eff_updCluster (s : State) (k : Nat) (f : ClusterState → ClusterState) (hf : ∀ x, (f x).eff = x.eff) (c : Nat) :
    (s.updCluster k f).eff c = s.eff c := by
  unfold State.eff
  by_cases h : clusterOf c % 192 = k % 192
  · have hj : ∀ u : State, u.cluster (clusterOf c) = u.cluster k := fun u => by
      have hfin : Fin.ofNat 192 (clusterOf c) = Fin.ofNat 192 k := Fin.ext h
      unfold State.cluster
      rw [hfin]
    rw [hj, hj, State.cluster_updCluster, hf]
  · rw [State.cluster_updCluster_other _ _ h]

theorem aside_updCluster (c k : Nat) (f : ClusterState → ClusterState) (hf : ∀ x, (f x).eff = x.eff) :
    Aside c (State.updCluster · k f) :=
  ⟨fun s => ⟨rfl, rfl, rfl, eff_updCluster s k f hf, rfl⟩, fun _ _ _ => rfl⟩

/-- What a walk writes: its page-table entry, and an entry of each TLB (R344, R345). -/
def State.walked (c : Nat) (w : WalkFx) (s : State) : State :=
  (({ s with phys := { s.phys with mem := s.phys.mem.writeWord w.entryPa w.entry } } : State).updCore c
    (fun x => { x with tlb := (w.tlb :: x.tlb).take 64 })).updCluster (clusterOf c)
      (fun k => { k with tlb := (w.tlb :: k.tlb).take 2048 })

theorem aside_walked (c : Nat) (w : WalkFx) : Aside c (State.walked c w) := by
  have hphys : Aside c (fun s => { s with phys := { s.phys with mem := s.phys.mem.writeWord w.entryPa w.entry } }) :=
    ⟨fun _ => ⟨rfl, rfl, rfl, fun _ => rfl, rfl⟩, fun _ _ _ => rfl⟩
  have hcore := aside_updCore c (fun _ x => { x with tlb := (w.tlb :: x.tlb).take 64 }) (fun _ => memOnly_tlb w.tlb)
  have hcluster := aside_updCluster c (clusterOf c) (fun k => { k with tlb := (w.tlb :: k.tlb).take 2048 }) (fun _ => rfl)
  exact (hphys.comp hcore).comp hcluster

theorem xlate_updCtx (s : State) (c k : Nat) (h : Ctx → Ctx) (task : Option Task) (va : Nat) (wr : Bool) :
    (s.updCtx c k h).xlate c task va wr = s.xlate c task va wr := by
  have htlb : ((s.updCtx c k h).core c).tlb = (s.core c).tlb := by rw [State.core_updCtx]; rfl
  unfold State.xlate
  rw [htlb]
  rfl

theorem aside_xlateFx (c : Nat) (task : Option Task) (va : Nat) (wr : Bool) : Aside c (State.xlateFx · c task va wr) where
  left s := by
    unfold State.xlateFx
    split
    · exact MemLeft.refl c s
    · exact (aside_walked c _).left s
  upd s k h := by
    unfold State.xlateFx
    rw [xlate_updCtx]
    split
    · rfl
    · exact (aside_walked c _).upd s k h

theorem aside_touchAcc (c : Nat) (task : Option Task) (a : Acc1) : Aside c (State.touchAcc · c task a) := by
  have hmapped := aside_foldl (fun v s => State.xlateFx s c task v a.writes) (fun v => aside_xlateFx c task v a.writes)
    (pagesOf a.va a.n)
  have hown : ∀ o, Aside c (fun s => s.updCore c (fun x => (x.touch o (s.eff c)).touch (o + a.n - 1) (s.eff c))) :=
    fun o => aside_updCore c _ (fun t => (memOnly_touch o t).comp (memOnly_touch (o + a.n - 1) t))
  unfold State.touchAcc
  refine aside_ite _ (fun _ _ _ => rfl) hmapped ⟨fun s => ?_, fun s k h => ?_⟩
  · split
    · exact (hown _).left s
    · exact MemLeft.refl c s
  · rw [show (s.updCtx c k h).ownOff c a.va = s.ownOff c a.va from rfl]
    split
    · exact (hown _).upd s k h
    · rfl

/-! ### What an access does before it reads or queues its bytes -/

/-- A change of a context that neither looks at its queues of accesses nor changes them, nor what an access asks of the context. -/
structure QueueBlind (h : Ctx → Ctx) : Prop where
  storeQ : ∀ c, (h c).storeQ = c.storeQ
  task : ∀ c, (h c).task = c.task
  mmrev : ∀ c, (h c).csr.mmrev = c.csr.mmrev
  leaves : ∀ c n, h (c.leaveQueues n) = (h c).leaveQueues n

/-- What accesses leave as it was: who runs, the firmware, the boot settings, the effective counts, of the running core everything
but its memory and its running context's queues of accesses. -/
structure Reaches (s t : State) : Prop where
  cur : t.cur = s.cur
  fw : t.fw = s.fw
  boot : t.boot = s.boot
  eff : ∀ j, t.eff j = s.eff j
  core : t.myCore = { s.myCore.withMem t.myCore with ctxs := t.myCore.ctxs }
  ctx : ∀ k, k % 4 ≠ s.cur.ctx % 4 → t.ctx s.cur.core k = s.ctx s.cur.core k
  me : t.me = { s.me with storeQ := t.me.storeQ, loadQ := t.me.loadQ }

theorem Reaches.trans {s t u : State} (h : Reaches s t) (h' : Reaches t u) : Reaches s u where
  cur := h'.cur.trans h.cur
  fw := h'.fw.trans h.fw
  boot := h'.boot.trans h.boot
  eff j := (h'.eff j).trans (h.eff j)
  core := by
    have hc := h'.core
    rw [h.core] at hc
    exact hc
  ctx k hk := by
    have hc := h'.ctx k (by rw [h.cur]; exact hk)
    rw [h.cur] at hc
    exact hc.trans (h.ctx k hk)
  me := by
    have hm := h'.me
    rw [h.me] at hm
    exact hm

theorem reaches_of_left {s t : State} (h : MemLeft s.cur.core s t) : Reaches s t where
  cur := h.cur
  fw := h.fw
  boot := h.boot
  eff := h.eff
  core := by
    unfold State.myCore
    rw [h.cur]
    have hc := h.core
    generalize t.core s.cur.core = y at hc ⊢
    rw [hc]
    rfl
  ctx k _ := h.ctx k
  me := by
    have hm : t.me = s.me := by unfold State.me; rw [h.cur]; exact h.ctx _
    rw [hm]

theorem reaches_leaveQueues (s : State) (n : Nat) : Reaches s (s.updMe (fun c => c.leaveQueues n)) where
  cur := rfl
  fw := rfl
  boot := rfl
  eff _ := rfl
  core := by rw [State.myCore_updMe]; rfl
  ctx k hk := State.ctx_updCtx_other s s.cur.core _ hk
  me := by rw [State.me_updMe]; rfl

/-- A change that accesses make, whatever else stands in the running context. -/
structure Access (F : State → State) : Prop where
  reaches : ∀ s, Reaches s (F s)
  upd : ∀ s h, QueueBlind h → F (s.updMe h) = (F s).updMe h

theorem Access.comp {F G : State → State} (hF : Access F) (hG : Access G) : Access (fun s => G (F s)) where
  reaches s := (hF.reaches s).trans (hG.reaches (F s))
  upd s h hh := by rw [hF.upd s h hh, hG.upd _ h hh]

theorem access_ite {F G : State → State} (b : State → Bool) (hb : ∀ s h, QueueBlind h → b (s.updMe h) = b s) (hF : Access F)
    (hG : Access G) : Access (fun s => if b s = true then F s else G s) where
  reaches s := by
    cases b s
    · exact hG.reaches s
    · exact hF.reaches s
  upd s h hh := by
    rw [hb s h hh]
    cases b s
    · exact hG.upd s h hh
    · exact hF.upd s h hh

theorem access_id : Access id := ⟨fun s => reaches_of_left (MemLeft.refl _ s), fun _ _ _ => rfl⟩

theorem QueueBlind.me_storeQ {h : Ctx → Ctx} (hh : QueueBlind h) (s : State) : (s.updMe h).me.storeQ = s.me.storeQ := by
  rw [State.me_updMe, hh.storeQ]

theorem QueueBlind.myTask {h : Ctx → Ctx} (hh : QueueBlind h) (s : State) : (s.updMe h).myTask = s.myTask := by
  unfold State.myTask
  rw [State.me_updMe, hh.task]
  rfl

/-- The first stores of the running context's queue, performed. -/
theorem access_performFirst (n : State → Nat) (hn : ∀ s h, QueueBlind h → n (s.updMe h) = n s) :
    Access (fun s => s.performFirst s.cur.core s.cur.ctx (n s)) where
  reaches s := by
    have hperf := aside_foldl (c := s.cur.core) (fun e s' => State.performEnt s' s.cur.core e) (aside_performEnt _)
      (s.me.storeQ.take (n s))
    exact (reaches_leaveQueues s (n s)).trans (reaches_of_left (hperf.left _))
  upd s h hh := by
    have hperf := aside_foldl (c := s.cur.core) (fun e s' => State.performEnt s' s.cur.core e) (aside_performEnt _)
      (s.me.storeQ.take (n s))
    have hswap : (s.updMe h).updMe (fun c => c.leaveQueues (n s)) = (s.updMe (fun c => c.leaveQueues (n s))).updMe h := by
      rw [State.updMe_updMe, State.updMe_updMe]
      exact congrArg s.updMe (funext fun c => (hh.leaves c (n s)).symm)
    have hq : (s.updMe h).ctx s.cur.core s.cur.ctx = (s.updMe h).me := rfl
    unfold State.performFirst
    rw [hn s h hh, State.updMe_cur, hq, hh.me_storeQ]
    exact (congrArg (fun u => (s.me.storeQ.take (n s)).foldl (fun u e => u.performEnt s.cur.core e) u) hswap).trans
      (hperf.updMe (s := s.updMe (fun c => c.leaveQueues (n s))) h)

theorem access_drainMe : Access State.drainMe :=
  access_performFirst (fun s => s.me.storeQ.length) (fun s h hh => by rw [hh.me_storeQ])

theorem access_implicitMark (load : Bool) : Access (State.implicitMark · load) := by
  unfold State.implicitMark
  refine access_ite _ (fun s h hh => ?_) access_drainMe access_id
  rw [State.me_updMe, hh.mmrev]

/-- The walks of an access of the running context. -/
def State.touched (a : Acc1) (s : State) : State := s.touchAcc s.cur.core s.myTask a

theorem access_touched (a : Acc1) : Access (State.touched a) where
  reaches s := reaches_of_left ((aside_touchAcc s.cur.core s.myTask a).left s)
  upd s h hh := by
    unfold State.touched
    rw [hh.myTask, State.updMe_cur]
    exact (aside_touchAcc s.cur.core s.myTask a).updMe h

theorem locs_updCtx (s : State) (c k : Nat) (h : Ctx → Ctx) (task : Option Task) (va : Word) (n : Nat) (wr : Bool) :
    (s.updCtx c k h).locs c task va n wr = s.locs c task va n wr := by
  unfold State.locs
  simp only [xlate_updCtx]
  rfl

/-- The stores that precede a load of an access, performed. -/
def State.performedFor (a : Acc1) (s : State) : State :=
  s.performFirst s.cur.core s.cur.ctx (touching (s.locs s.cur.core s.myTask a.va a.n false) s.me.storeQ)

theorem access_performedFor (a : Acc1) : Access (State.performedFor a) :=
  access_performFirst (fun s => touching (s.locs s.cur.core s.myTask a.va a.n false) s.me.storeQ)
    (fun s h hh => by
      rw [hh.me_storeQ, hh.myTask, State.updMe_cur]
      exact congrArg (touching · s.me.storeQ) (locs_updCtx s s.cur.core s.cur.ctx h _ _ _ _))

theorem Reaches.myTask {s t : State} (h : Reaches s t) : t.myTask = s.myTask := by
  unfold State.myTask State.task
  rw [h.me, h.fw]

theorem beforeLoad_eq (s : State) (a : Acc1) : s.beforeLoad a = (s.touched a).performedFor a := rfl

theorem accessed_load (s : State) (a : Acc1) : accessed s true a = (s.implicitMark true).beforeLoad a := by
  have h := (access_implicitMark true).reaches s
  have h' := h.trans ((access_touched a).reaches _)
  have ht : (s.implicitMark true).touchAcc s.cur.core s.myTask a = (s.implicitMark true).touched a := by
    unfold State.touched
    rw [h.cur, h.myTask]
  unfold accessed
  rw [beforeLoad_eq, ht]
  unfold State.performedFor State.drainFor State.me
  rw [h'.cur, h'.myTask]
  rfl

theorem accessed_store (s : State) (a : Acc1) : accessed s false a = (s.implicitMark false).touched a := by
  have h := (access_implicitMark false).reaches s
  unfold accessed State.touched
  rw [h.cur, h.myTask]
  rfl

theorem access_accessed (load : Bool) (a : Acc1) : Access (fun s => accessed s load a) := by
  cases load with
  | true =>
    simp only [accessed_load, beforeLoad_eq]
    exact ((access_implicitMark true).comp (access_touched a)).comp (access_performedFor a)
  | false =>
    simp only [accessed_store]
    exact (access_implicitMark false).comp (access_touched a)

end Sys2Proof.Machine
end


-- ==== Sys2Proof/Proofs/HeldBundles.lean ====
section
/-! PROOFS. A held bundle issues once nothing makes it wait (R60, R126, R331, R334, R348). -/

namespace Sys2Proof.Machine

open Sys2Proof.Claim

theorem heldGoes_of {s : State} (h : HeldGoes s) : s.heldGoes = true := by
  obtain ⟨hacts, hheld, hdue, hfetch, hgo⟩ := h
  unfold State.heldGoes
  cases hn : s.nextVerdict with
  | stall w => exact absurd hn (hgo w)
  | _ => simp [hheld, canAct_of_acts hacts, hdue, hfetch]

/-- The dword of a WAITEV: it reads memory as a load of its context does. -/
theorem waitevWord_eq_waitWord (f : SysF) (s : State) : waitevWord f s = waitWord f s := by
  have hlook : waitevLook f s = accessed s true (waitAcc f s) := (accessed_load s (waitevAcc f s)).symm
  unfold waitevWord waitWord
  rw [hlook]
  simp only [State.loadNat, List.map_map]
  rfl

theorem nextHas_of_mem {s : State} {x : Item} {p : Instr → Bool} (hx : x ∈ s.fetched.items) (hp : p x.i = true) :
    s.nextHas p = true :=
  List.any_eq_true.mpr ⟨x, hx, hp⟩

section
variable {s : State} (hg : HeldGoes s)
include hg

theorem exec_stalledBundleIssue : exec .stalledBundleIssue s = .next (s.issue semOf s.fetched) := by
  change execStalledBundleIssue s = _
  unfold execStalledBundleIssue
  exact onCore_due hg.1.1 (heldGoes_of hg)

theorem exec_waitevWake {x : Item} (hx : x ∈ s.fetched.items) {f : SysF} (hf : x.i = .waitev f)
    (hw : waitWord f s ≠ s.val f.b) : exec .waitevWake s = .next (s.issue semOf s.fetched) := by
  change execWaitevWake s = _
  unfold execWaitevWake
  refine onCore_due hg.1.1 (Bool.and_eq_true_iff.mpr ⟨heldGoes_of hg, nextHas_of_mem hx ?_⟩)
  rw [hf]
  simpa [waitevOf, waitevWord_eq_waitWord] using hw

theorem exec_waitevBound {x : Item} (hx : x ∈ s.fetched.items) {f : SysF} (hf : x.i = .waitev f)
    (hw : waitWord f s = s.val f.b) (hi : f.imm ≠ 0) (hb : 64 * f.imm.toNat ≤ waited s) :
    exec .waitevBound s = .next (s.issue semOf s.fetched) := by
  change execWaitevBound s = _
  unfold execWaitevBound
  refine onCore_due hg.1.1 (Bool.and_eq_true_iff.mpr ⟨heldGoes_of hg, nextHas_of_mem hx ?_⟩)
  rw [hf]
  have hpast : waitevPast f s.me = true := Bool.and_eq_true_iff.mpr ⟨bne_iff_ne.mpr hi, decide_eq_true hb⟩
  simp [waitevOf, waitevWord_eq_waitWord, hw, hpast]

theorem exec_bwaitTimeout {x : Item} (hx : x ∈ s.fetched.items) {f : EngF} {r : Option RouteF} (hf : x.i = .bwait f r)
    (hb : (s.val f.c).toNat ≤ waited s) : exec .bwaitTimeout s = .next (s.issue semOf s.fetched) := by
  change execBwaitTimeout s = _
  unfold execBwaitTimeout
  refine onCore_due hg.1.1 (Bool.and_eq_true_iff.mpr ⟨heldGoes_of hg, nextHas_of_mem hx ?_⟩)
  rw [hf]
  exact decide_eq_true hb

theorem exec_migrationRewalk
    (h : ∃ p ∈ s.outs (s.lay semOf s.fetched), ∃ a ∈ p.2.accs, s.isMapped s.cur.core a.va = true) :
    exec .migrationRewalk s = .next (s.issue semOf s.fetched) := by
  obtain ⟨p, hp, a, ha, hm⟩ := h
  change execMigrationRewalk s = _
  unfold execMigrationRewalk
  exact onCore_due hg.1.1 (Bool.and_eq_true_iff.mpr ⟨heldGoes_of hg,
    List.any_eq_true.mpr ⟨p, hp, List.any_eq_true.mpr ⟨a, ha, hm⟩⟩⟩)

end

theorem exec_bwaitReread {s : State} (ha : Acts s) (hheld : s.me.waits.held = true) (hdue : s.dueA = none)
    (hwake : s.me.waits.wakeNow = true) {x : Item} (hx : x ∈ s.fetched.items) {f : EngF} {r : Option RouteF}
    (hf : x.i = .bwait f r) : exec .bwaitReread s = .next (s.issue semOf s.fetched) := by
  have hhas : s.nextHas (fun i => (bwaitOf i).isSome) = true := nextHas_of_mem hx (by rw [hf]; rfl)
  change execBwaitReread s = _
  unfold execBwaitReread
  exact onCore_due ha.1 (by simp [hheld, hwake, canAct_of_acts ha, hdue, hhas])

theorem heldBundles : HeldBundles := by
  intro s
  refine ⟨fun hg => ⟨exec_stalledBundleIssue hg, fun x hx f hf => ⟨exec_waitevWake hg hx hf, exec_waitevBound hg hx hf⟩,
    fun x hx f r hf => exec_bwaitTimeout hg hx hf, exec_migrationRewalk hg⟩, ?_⟩
  rintro ha hheld hdue hwake ⟨x, hx, f, r, hf⟩
  exact exec_bwaitReread ha hheld hdue hwake hx hf

/-- Settles O36: each event is due where the statement says so, and what it does is the trap, the wake or the halt described. -/
theorem boundaryEvents : Obligations.BoundaryEvents := ⟨heldBundles, kindAEvents, contextWakes, machineChecks⟩

end Sys2Proof.Machine
end


-- ==== Sys2Proof/Proofs/Accesses.lean ====
section
/-! PROOFS. An op that accesses memory issues as an op that only changes its context does, from the package as its access leaves it
(R58, R166, R178). -/

namespace Sys2Proof.Machine

open Sys2Proof.Claim

/-! ### The package that an access leaves may issue the op -/

namespace Reaches

variable {s t : State} (h : Reaches s t)
include h

theorem pc : t.me.pc = s.me.pc := by rw [h.me]
theorem tr : t.me.tr = s.me.tr := by rw [h.me]
theorem csr : t.me.csr = s.me.csr := by rw [h.me]
theorem standing : t.me.standing = s.me.standing := by rw [h.me]
theorem q : t.me.q = s.me.q := by rw [h.me]
theorem files : t.me.files = s.me.files := by rw [h.me]

theorem lone (i : Instr) (r : Word) : t.lone i r = s.lone i r := by unfold State.lone; rw [h.pc]

theorem standing_ctx (k : Nat) : (t.myCore.ctx k).standing = (s.myCore.ctx k).standing := by
  by_cases hk : k % 4 = s.cur.ctx % 4
  · have hm : ∀ u : State, u.cur = s.cur → u.myCore.ctx k = u.me := fun u hu => by
      have hf : Fin.ofNat 4 k = Fin.ofNat 4 u.cur.ctx := Fin.ext (by rw [hu]; exact hk)
      unfold State.me State.ctx State.myCore CoreState.ctx
      rw [hf]
    rw [hm t h.cur, hm s rfl, h.standing]
  · have hc := h.ctx k hk
    unfold State.ctx at hc
    unfold State.myCore
    rw [h.cur, hc]

theorem use : t.myCore.use = s.myCore.use := by rw [h.core]; rfl
theorem banks : t.myCore.banks = s.myCore.banks := by rw [h.core]; rfl
theorem lend : t.myCore.lend = s.myCore.lend := by rw [h.core]; rfl
theorem accs : t.myCore.accs = s.myCore.accs := by rw [h.core]; rfl
theorem issueBuf : t.myCore.issueBuf = s.myCore.issueBuf := by rw [h.core]; rfl

theorem eddyBlocked (i : Instr) : t.eddyBlocked [t.lone i] = s.eddyBlocked [s.lone i] := by
  have hstood : ∀ u, t.myCore.stoodOf u = s.myCore.stoodOf u := fun u => funext fun k => by
    unfold CoreState.stoodOf
    rw [h.standing_ctx k]
  have hsummed : t.myCore.summed = s.myCore.summed := by unfold CoreState.summed CoreState.bank; rw [h.banks]
  have hrunning : t.myCore.running = s.myCore.running := by unfold CoreState.running CoreState.bank; rw [h.banks]
  have hafter : ∀ l, standAfter t.me l = standAfter s.me l := fun l => by unfold standAfter; rw [h.standing]
  unfold State.eddyBlocked CoreState.useNow
  simp only [h.cur, h.eff, h.use, h.lend, hstood, hsummed, hrunning, hafter, h.standing_ctx, h.lone]

theorem ready {i : Instr} (hr : s.Ready i) : t.Ready i := by
  obtain ⟨hc, hw, hrow, hsrc, hwt, hib, hed, hnx, hbuf⟩ := hr
  have hrow2 : t.row2Ctx i = s.row2Ctx i := by
    unfold State.row2Ctx
    rw [h.tr, h.cur, h.accs]
  refine ⟨by rw [h.cur]; exact hc, hw, hrow2.trans hrow, ?_, ?_, ?_, (h.eddyBlocked i).trans hed, ?_, h.issueBuf.trans hbuf⟩
  · rw [h.me]; exact hsrc
  · rw [h.me]; exact hwt
  · rw [h.me]; exact hib
  · rw [h.me]; exact hnx

end Reaches

/-! ### The issue from there -/

theorem queueBlind_begin (w : Word) : QueueBlind (·.begin w) where
  storeQ c := Ctx.begin_storeQ c w
  task c := Ctx.begin_task c w
  mmrev c := by rw [Ctx.begin_csr]
  leaves c _ := by
    unfold Ctx.begin Ctx.leaveQueues
    dsimp only
    split <;> rfl

/-- An op whose part only changes its context, at a charge. -/
def localSem (charge : Nat) (g : Ctx → Ctx) : Sem := { charge := fun _ => charge, run := fun _ _ => { eff := Live.me g } }

theorem passes_localSem (s : State) {i : Instr} (hl : Instr.light i) (n : Nat) (g : Ctx → Ctx) :
    s.Passes i (localSem n g) { eff := Live.me g } :=
  passes_light s i _ _ hl rfl rfl (fun _ => ⟨rfl, rfl⟩) rfl rfl rfl rfl (.inr (flagTrap_nil _))

/-- An op without flags, NI requests and draws, whose effect is an access and then a change of its context, does what the change
alone does from the package that the access leaves. -/
theorem issueOne_access {s : State} {i : Instr} {m : Sem} {o : Out} {g : Ctx → Ctx} {F : State → State} (hF : Access F)
    (h : Instr.plain i) (hl : Instr.light i) (hr : s.Ready i) (hp : s.Passes i m o) (hpops : m.pops s = .no) (hni : m.ni s = 0)
    (hflags : o.flags = []) (ho : o.eff { s := s.opened m } = { s := (F (s.opened m)).updMe g }) :
    issueOne m i s = issueOne (localSem (m.charge s) g) i (F s) := by
  have hs := hF.reaches s
  have hdraw : m.draw s = (0, s.me.csr.rngseed) := by unfold Sem.draw; rw [hpops]
  have hdraw' : (localSem (m.charge s) g).draw (F s) = (0, s.me.csr.rngseed) := by rw [← hs.csr]; rfl
  have hopen : F (s.opened m) = (F s).opened (localSem (m.charge s) g) := by
    unfold State.opened
    rw [hdraw, hdraw', hF.upd s _ (queueBlind_begin _)]
  rw [issueOne_next s i m o h hr hp, issueOne_next (F s) i _ _ h (hs.ready hr) (passes_localSem (F s) hl _ g), ho, hopen]
  have hclosed : ∀ L : Live, s.closed i m o L = (F s).closed i (localSem (m.charge s) g) { eff := Live.me g } L := fun L => by
    unfold State.closed
    rw [hdraw, hdraw', hs.cur, hs.eff, hs.pc, hs.tr, hs.standing, hflags, hni]
    simp only [hs.lone]
    rfl
  rw [hclosed]
  rfl

/-! ### The checks of one access -/

section
variable {s : State} {i : Instr} {o : Out} {a : Acc1} {r : Word}

theorem memTrap_access (haccs : o.accs = [a])
    (h : ∀ row ∈ [1, 2, 3, 4, 5], s.accFails s.cur.core s.cur.ctx s.myTask a row = none) :
    s.memTrap [(s.lone i r, o)] = none := by
  unfold State.memTrap
  refine List.findSome?_eq_none_iff.mpr fun row hrow => ?_
  simp [haccs, h row hrow]

theorem accWaits_access (haccs : o.accs = [a]) (h : AccPasses s a) : s.accWaits [(s.lone i r, o)] = false := by
  obtain ⟨-, hmig, howner⟩ := h
  unfold State.accWaits
  simp only [List.any_cons, List.any_nil, Bool.or_false, haccs, hmig]
  obtain he | hown := howner
  · simp [he]
  · cases ho : s.ownOff s.cur.core a.va with
    | none => simp
    | some off => simp [hown off ho]

/-- An access of at most a row needs at most two banks, and each in one row (R219, R221). -/
theorem extraCycles_access (haccs : o.accs = [a]) (hn : a.n ≤ 32) : s.extraCycles [(s.lone i r, o)] = 0 := by
  have hrows : s.bankRows a = [] ∨ (∃ p, s.bankRows a = [p]) ∨
      ∃ p q, s.bankRows a = [p, q] ∧ p.1 ≠ q.1 := by
    unfold State.bankRows
    split
    next off _ =>
      by_cases hk : a.kind = 3
      · exact .inl (if_pos hk)
      · rw [if_neg hk]
        obtain h | h : (off + a.n - 1) / 32 - off / 32 = 0 ∨ (off + a.n - 1) / 32 - off / 32 = 1 := by omega
        · rw [h]; exact .inr (.inl ⟨_, rfl⟩)
        · rw [h]; exact .inr (.inr ⟨_, _, rfl, by dsimp only; omega⟩)
    next => exact .inl rfl
  unfold State.extraCycles
  simp only [List.flatMap_cons, List.flatMap_nil, List.append_nil, haccs]
  obtain h | ⟨p, h⟩ | ⟨p, q, h, hpq⟩ := hrows <;> rw [h]
  · rfl
  · simp [List.eraseDups_cons]
  · have hqp : q ≠ p := fun e => hpq (by rw [e])
    simp [List.eraseDups_cons, hqp, hpq, Ne.symm hpq]

end

/-- What a light op with one access and nothing else to check asks for. -/
theorem passes_access {s : State} {i : Instr} {m : Sem} {o : Out} {a : Acc1} (hl : Instr.light i) (htag : m.tags s = none)
    (hslots : m.slots s = []) (hstall : ∀ a, m.stall s a = false ∧ m.waits s a = false) (hni : m.ni s = 0)
    (hrun : m.run s (s.lone i (m.draw s).1) = o) (htrap : o.trap = none) (hflags : o.flags = []) (haccs : o.accs = [a])
    (hn : a.n ≤ 32) (ha : AccPasses s a) : s.Passes i m o :=
  { passes_light s i { m with run := fun _ _ => { o with accs := [] } } { o with accs := [] } hl htag hslots hstall hni rfl
      htrap rfl (.inr (by rw [hflags]; exact flagTrap_nil _)) with
    run := hrun
    mem := memTrap_access haccs ha.1
    acc := accWaits_access haccs ha
    banks := extraCycles_access haccs hn }

/-- The trap of an access (R178, R193). -/
def accTrap (a : Acc1) (cause : Nat) : Trap :=
  { kind := .P, cause := cause, slot := 0, info0 := a.va, info1 := wd (a.lane + 256 * a.kind) }

/-- What a row reports of the accesses of one op: the first that fails it. -/
def State.rowTrap (s : State) (l : List Acc1) (row : Nat) : Option Trap :=
  l.findSome? (fun a => (s.accFails s.cur.core s.cur.ctx s.myTask a row).map (accTrap a))

theorem memTrap_lone (s : State) (i : Instr) (o : Out) (r : Word) :
    s.memTrap [(s.lone i r, o)] = [1, 2, 3, 4, 5].findSome? (s.rowTrap o.accs) := by
  unfold State.memTrap
  refine congrArg (List.findSome? · _) (funext fun row => ?_)
  simp only [List.findSome?_cons, List.findSome?_nil]
  unfold State.rowTrap accTrap
  cases h : o.accs.findSome? _ <;> exact h.symm

theorem memTrap_reports {s : State} {i : Instr} {o : Out} {a : Acc1} {cause : Nat} (r : Word)
    (h : Reports s o.accs a cause) : s.memTrap [(s.lone i r, o)] = some (accTrap a cause) := by
  obtain ⟨row, hrow, pre, post, hl, hfail, hpre, hlow⟩ := h
  dsimp only at hfail hpre hlow
  have hsorted : [1, 2, 3, 4, 5].Pairwise (· < ·) := by decide
  rw [memTrap_lone]
  obtain ⟨before, after, hrows⟩ := List.append_of_mem hrow
  rw [hrows] at hlow hsorted ⊢
  refine List.findSome?_eq_some_iff.mpr ⟨before, row, after, rfl, ?_, fun q hq => ?_⟩
  · refine List.findSome?_eq_some_iff.mpr ⟨pre, a, post, hl, by rw [hfail]; rfl, fun b hb => ?_⟩
    rw [hpre b hb]; rfl
  · have hlt : q < row := (List.pairwise_append.mp hsorted).2.2 q hq row (List.mem_cons_self ..)
    refine List.findSome?_eq_none_iff.mpr fun b hb => ?_
    rw [hlow q (List.mem_append_left _ hq) hlt b hb]; rfl

/-- A light op that may issue and whose access fails traps by group 3 of R452. -/
theorem judge_mem {s : State} {i : Instr} {m : Sem} {t : Trap} (h : Instr.plain i) (hl : Instr.light i) (hr : s.Ready i)
    (htags : m.tags s = none) (hslots : m.slots s = []) (hstall : ∀ a, m.stall s a = false) (hni : m.ni s = 0)
    (hrun : (m.run s (s.lone i (m.draw s).1)).trap = none)
    (hmem : s.memTrap [(s.lone i (m.draw s).1, m.run s (s.lone i (m.draw s).1))] = some t) :
    s.judge (s.lay (fun _ => m) (s.single i)) none = .trap t := by
  obtain ⟨-, hw, hc, hop, hwt, hib, hed, -, -⟩ := hr
  have hx : s.execTrap [s.lone i (m.draw s).1] [(s.lone i (m.draw s).1, m.run s (s.lone i (m.draw s).1))] = some t := by
    unfold State.execTrap
    rw [tokenReuse_light _ _ hl, hmem]
    simp only [List.findSome?_cons, hrun, Option.map_none, List.findSome?_nil]
  rw [lay_lone s i m h]
  unfold State.judge
  simp only [replays_lone, rows15_lone s i h hw hc, orderWaits_lone, List.findSome?_cons, List.findSome?_nil, row6_lone s i _ hop,
    List.any_cons, List.any_nil, hslots, Bool.or_self, row7_slotless hslots htags, rows89_lone s i hwt,
    windowFull_lone s i hwt, List.map_cons, List.map_nil, List.sum_cons, List.sum_nil, Nat.add_zero, hni,
    denies_lone s.me _ hib (Or.inr (Nat.zero_le _)), hed, tokenWaits_light s.me (s.lone i (m.draw s).1) hl, hstall,
    engineFault_light s.me (s.lone i (m.draw s).1) hl, State.outs, hx,
    if_false, Bool.false_eq_true]

/-! ### The rows of R178 -/

theorem eq_of_ite_some {p : Prop} [Decidable p] {c d : Nat} (h : (if p then some c else none) = some d) : d = c := by
  by_cases hp : p
  · rw [if_pos hp] at h; exact (Option.some.inj h).symm
  · rw [if_neg hp] at h; cases h

section
variable {s : State} {core k : Nat} {task : Option Task} {a : Acc1}

theorem accFails_cause : ∀ p ∈ [(1, 0x22), (2, 0x24), (3, 0x25), (4, 0x20), (5, 0x21)],
    ∀ c, s.accFails core k task a p.1 = some c → c = p.2 := by
  simp only [List.forall_mem_cons, List.not_mem_nil, false_implies, implies_true, and_true]
  simp only [State.accFails]
  refine ⟨fun c h => eq_of_ite_some h, fun c h => eq_of_ite_some h, fun c h => ?_, fun c h => ?_, fun c h => ?_⟩
  · split at h
    · exact eq_of_ite_some h
    · cases h
  · split at h
    · exact eq_of_ite_some h
    · cases h
  · split at h
    · exact eq_of_ite_some h
    · exact eq_of_ite_some h

theorem accFails_alignment : s.accFails core k task a 1 ≠ none ↔ a.aligned = true ∧ a.va.toNat % a.n ≠ 0 := by
  simp [State.accFails]

theorem accFails_gated {o : Nat} (ho : s.ownOff core a.va = some o) (hk : a.kind ≠ 3) :
    s.accFails core k task a 3 ≠ none ↔ ∃ i, i < a.n ∧ (s.core core).gated (o + i) = true := by
  simp [State.accFails, ho, hk]

theorem accessRows : AccessRows := fun _ _ _ _ _ =>
  ⟨accFails_cause, accFails_alignment, fun _ ho hk => accFails_gated ho hk⟩

end

/-- No row of R178 has the cause of a BRK. -/
theorem reports_cause {s : State} {l : List Acc1} {a : Acc1} {cause : Nat} (h : Reports s l a cause) : cause ≠ 0x50 := by
  obtain ⟨row, hrow, -, -, -, hfail, -, -⟩ := h
  have hcause := accFails_cause (s := s) (core := s.cur.core) (k := s.cur.ctx) (task := s.myTask) (a := a)
  simp only [List.mem_cons, List.not_mem_nil, or_false] at hrow
  simp only [List.forall_mem_cons] at hcause
  obtain ⟨h1, h2, h3, h4, h5, -⟩ := hcause
  rcases hrow with rfl | rfl | rfl | rfl | rfl
  · rw [h1 _ hfail]; decide
  · rw [h2 _ hfail]; decide
  · rw [h3 _ hfail]; decide
  · rw [h4 _ hfail]; decide
  · rw [h5 _ hfail]; decide

/-- A light op of one word whose access fails traps with the cause of the row (R178, R182). -/
theorem accessTraps_of {s : State} {i : Instr} {m : Sem} {l : List Acc1} (hexec : exec i s = issueOne m i s) (h : Instr.plain i)
    (hl : Instr.light i) (hwords : wordsOf i = 1) (hr : s.Ready i) (htags : m.tags s = none) (hslots : m.slots s = [])
    (hstall : ∀ a, m.stall s a = false) (hni : m.ni s = 0) (hrun : (m.run s (s.lone i (m.draw s).1)).trap = none)
    (haccs : (m.run s (s.lone i (m.draw s).1)).accs = l) : AccessTraps s i l := by
  intro hh a cause hrep
  obtain ⟨hc, -, -, -, -, -, -, -, hbuf⟩ := id hr
  have hj := judge_mem h hl hr htags hslots hstall hni hrun (memTrap_reports _ (by rw [haccs]; exact hrep))
  rw [hexec, ← hwords]
  exact issueOne_traps s i m (accTrap a cause) ⟨hc, hh, hbuf⟩ hj rfl (reports_cause hrep)

end Sys2Proof.Machine
end


-- ==== Sys2Proof/Proofs/ScalarMemory.lean ====
section
/-! PROOFS. The scalar loads and stores: the bytes they read and queue, and that each is done by its access (R58, R166, R167, R171,
R179). -/

namespace Sys2Proof.Machine

open Sys2Proof.Claim

/-! ### Bytes and numbers -/

theorem leNat_lt (l : List Byte) : leNat l < 2 ^ (8 * l.length) := by
  induction l with
  | nil => simp [leNat]
  | cons b l ih =>
    have hb := b.isLt
    have hp : 2 ^ (8 * (l.length + 1)) = 256 * 2 ^ (8 * l.length) := by
      rw [Nat.mul_add, Nat.pow_add]; omega
    simp only [leNat, List.length_cons]
    omega

theorem leBytes_eq (n : Nat) (x : Word) : leBytes n x.toNat = (List.range n).map (fun k => x.extractLsb' (8 * k) 8) := by
  have h : ∀ (n y : Nat), leBytes n y = (List.range n).map (fun k => BitVec.ofNat 8 (y / 2 ^ (8 * k))) := by
    intro n
    induction n with
    | zero => intro y; rfl
    | succ n ih =>
      intro y
      rw [leBytes, ih, List.range_succ_eq_map, List.map_cons, List.map_map]
      refine congrArg₂ _ (by simp) (List.map_congr_left fun k _ => ?_)
      rw [Function.comp_apply, Nat.div_div_eq_div_mul, Nat.mul_succ, Nat.pow_add, Nat.mul_comm 256]
  rw [h]
  refine List.map_congr_left fun k _ => ?_
  simp [BitVec.extractLsb', Nat.shiftRight_eq_div_pow]

theorem sizeBytes_bounds (z : Size) : 0 < sizeBytes z ∧ sizeBytes z ≤ 8 := by cases z <;> decide

/-- A number of n bytes, extended to 64 bits (R171). -/
theorem loadedV_eq {n x : Nat} (hn : 0 < n) (hx : x < 2 ^ (8 * n)) (sx : Bool) :
    (if sx then wdi (asInt (8 * n) true x) else wd x) =
      if sx then (BitVec.ofNat (8 * n) x).signExtend 64 else (BitVec.ofNat (8 * n) x).setWidth 64 := by
  have hnat : (BitVec.ofNat (8 * n) x).toNat = x := by rw [BitVec.toNat_ofNat, Nat.mod_eq_of_lt hx]
  cases sx with
  | true =>
    have h := asInt_toNat (n := 8 * n) (by omega) true (BitVec.ofNat (8 * n) x)
    rw [hnat] at h
    rw [if_pos rfl, if_pos rfl, h]
    rfl
  | false =>
    simp only [Bool.false_eq_true, if_false]
    apply BitVec.eq_of_toNat_eq
    rw [BitVec.toNat_setWidth, hnat]
    rfl

/-! ### The private window (R24) -/

theorem bitsOf_low (x : Word) : bitsOf 3 0 x = (x.extractLsb' 0 4).toNat := by simp [bitsOf]

theorem privBase_eq (x : Word) :
    privBase x = x >>> (16 + (x.extractLsb' 0 4).toNat) <<< (16 + (x.extractLsb' 0 4).toNat) := by
  unfold privBase wd
  rw [bitsOf_low]
  have hsize : 16 + (x.extractLsb' 0 4).toNat < 64 := by have := (x.extractLsb' 0 4).isLt; omega
  generalize 16 + (x.extractLsb' 0 4).toNat = n at *
  apply BitVec.eq_of_getLsbD_eq
  intro i hi
  have hmask : (BitVec.ofNat 64 (2 ^ n - 1)).getLsbD i = decide (i < n) := by
    simp [-BitVec.getLsbD_eq_getElem, BitVec.getLsbD_ofNat, hi]
  rw [BitVec.getLsbD_and, BitVec.getLsbD_not, hmask, BitVec.getLsbD_shiftLeft, BitVec.getLsbD_ushiftRight]
  by_cases h : i < n
  · simp [h]
  · have hs : n + (i - n) = i := by omega
    rw [hs]
    simp [hi, h]

theorem privAcc_eq_windowAcc (f : MemF) (kind : Nat) (s : State) : privAcc f kind s = windowAcc f kind s := by
  unfold privAcc windowAcc privSize
  simp only [bitsOf_low, privBase_eq]
  rfl

/-! ### Reading and placing bytes -/

theorem readBytes_length (s : State) (a : Acc1) (wr : Bool) : (readBytes s a wr).length = a.n := by
  simp [readBytes, State.locs, vas]

theorem loadedS_eq (s : State) {a : Acc1} (hn : 0 < a.n) (sx : Bool) :
    loadedS sx a (leNat (readBytes s a false)) (readBad s a false) = loadVal s a sx := by
  have hx := leNat_lt (readBytes s a false)
  rw [readBytes_length] at hx
  unfold loadedS loadVal
  rw [loadedV_eq hn hx]

theorem memByte_updMe (s : State) (h : Ctx → Ctx) : (s.updMe h).memByte s.cur.core = s.memByte s.cur.core := by
  funext l
  cases l with
  | spad o =>
    unfold State.memByte State.updMe
    dsimp only
    rw [State.core_updCtx]
    rfl
  | phys p => rfl

theorem memPoison_updMe (s : State) (h : Ctx → Ctx) : (s.updMe h).memPoison s.cur.core = s.memPoison s.cur.core := by
  funext l
  cases l with
  | spad o =>
    unfold State.memPoison State.updMe
    dsimp only
    rw [State.core_updCtx]
    rfl
  | phys p => rfl

theorem myLocs_updMe {h : Ctx → Ctx} (hh : QueueBlind h) (s : State) (a : Acc1) (wr : Bool) :
    (s.updMe h).locs s.cur.core (s.updMe h).myTask a.va a.n wr = s.locs s.cur.core s.myTask a.va a.n wr := by
  rw [hh.myTask]
  exact locs_updCtx s s.cur.core s.cur.ctx h _ _ _ _

theorem readBytes_updMe {h : Ctx → Ctx} (hh : QueueBlind h) (s : State) (a : Acc1) (wr : Bool) :
    readBytes (s.updMe h) a wr = readBytes s a wr := by
  unfold readBytes
  rw [State.updMe_cur, myLocs_updMe hh, memByte_updMe]

theorem readBad_updMe {h : Ctx → Ctx} (hh : QueueBlind h) (s : State) (a : Acc1) (wr : Bool) :
    readBad (s.updMe h) a wr = readBad s a wr := by
  unfold readBad
  rw [State.updMe_cur, myLocs_updMe hh, memPoison_updMe]

theorem loadVal_updMe {h : Ctx → Ctx} (hh : QueueBlind h) (s : State) (a : Acc1) (sx : Bool) :
    loadVal (s.updMe h) a sx = loadVal s a sx := by
  unfold loadVal
  rw [readBytes_updMe hh, readBad_updMe hh]

theorem storeCells_updMe {h : Ctx → Ctx} (hh : QueueBlind h) (s : State) (a : Acc1) (x : Word) :
    storeCells (s.updMe h) a x = storeCells s a x := by
  unfold storeCells
  rw [State.updMe_cur, myLocs_updMe hh]

/-! ### The effects of a load and of a store -/

theorem load_eq (s : State) {a : Acc1} (hn : 0 < a.n) (sx : Bool) (w : Bool) (d : DReg) :
    (let r := (s.implicitMark true).load a
     r.1.updMe (fun c => c.resultS w d (loadedS sx a r.2.1 r.2.2))) =
      (accessed s true a).updMe (fun c => c.resultS w d (loadVal (accessed s true a) a sx)) := by
  rw [accessed_load, ← loadedS_eq _ hn]
  rfl

theorem store_eq (s : State) (a : Acc1) (x : Word) :
    (s.implicitMark false).storeNat a x.toNat =
      (accessed s false a).updMe (fun c => stored c [.store (storeCells (accessed s false a) a x)]) := by
  rw [accessed_store]
  unfold storeCells
  rw [← leBytes_eq]
  rfl

/-! ### A store in the queue -/

/-- A light op that places entries in the store queue of its context. -/
theorem issueOne_queued (s : State) (i : Instr) (m : Sem) (o : Out) (es : List StoreEnt) (h : Instr.plain i) (hl : Instr.light i)
    (hr : s.Ready i) (hp : s.Passes i m o) (hg : o.local (fun c => stored c es) none) (hd : (m.draw s).2 = s.me.csr.rngseed) :
    ∃ t, issueOne m i s = .next t ∧ StepsAs s (stored s.me es) t i (orFlags o.flags) ∧ RegsKept s.me t := by
  obtain ⟨t, ht, hse, r, il, nl, hme⟩ := issueOne_local s i m o _ none h hr hp hg
  have hst : standStep (s.lone i (m.draw s).1) s.me.standing = s.me.standing := standStep_plain _ _ hl.1 hl.2.2.1 hl.2.2.2
  have hor : orFlags [(0, orFlags o.flags)] = orFlags o.flags := by simp [orFlags]
  have hcsr : (s.me.begin (m.draw s).2).csr = s.me.csr := by rw [Ctx.begin_csr, hd]
  have hkeep : (stored (s.me.begin (m.draw s).2) es).standing = s.me.standing := Ctx.begin_standing s.me (m.draw s).2
  rw [hkeep, hst, hor] at hme
  simp only [stored, hcsr, Ctx.begin_window, Ctx.begin_tr, Ctx.begin_dbg] at hme
  refine ⟨t, ht, ⟨hse, ?_, ?_, ?_, ?_, ?_⟩, ?_, ?_, ?_⟩
  · unfold Ctx.Retired
    rw [hme]
    unfold Ctx.begin stored
    split <;> rfl
  all_goals rw [hme]
  · rfl
  · rfl
  · rfl
  · rfl
  · exact Ctx.begin_q s.me (m.draw s).2
  · exact Ctx.begin_files s.me (m.draw s).2

/-! ### Loads and stores (R171) -/

/-- What the scalar loads and stores share: each is an op of one word that names no token, standing weight or accumulator. -/
structure MemOp (i : Instr) : Prop where
  plain : Instr.plain i
  light : Instr.light i
  words : wordsOf i = 1

/-- What an active load would do (R58, R166). -/
def loadOut (f : MemF) (sx : Bool) (a : Acc1) : Out :=
  { accs := [a]
    eff := Live.st (fun l =>
      let r := (l.implicitMark true).load a
      r.1.updMe (fun c => c.resultS f.w f.d (loadedS sx a r.2.1 r.2.2))) }

/-- What an active store would do. -/
def storeOut (a : Acc1) (x : Nat) : Out := { accs := [a], eff := Live.st (fun l => (l.implicitMark false).storeNat a x) }

section
variable {f : MemF} {i : Instr} {sx : Bool} {acc : State → Acc1} {a : Acc1} {s : State} (hi : MemOp i) (hr : s.Ready i)
include hi hr

section
variable (hexec : exec i s = issueOne (semLoad f i sx acc) i s)
include hexec

theorem load_completes (hact : s.active f.g = true) (hacc : acc s = a) (hpos : 0 < a.n) (hle : a.n ≤ 32) (ha : AccPasses s a) :
    ∃ t, exec i s = .next t ∧
      ScalarDone (accessed s true a) t i f.w f.d (loadVal (accessed s true a) a sx) 0 := by
  have hF := access_accessed true a
  have hrun : ∀ x, (semLoad f i sx acc).run s x = loadOut f sx a := fun x => by rw [← hacc]; exact if_pos hact
  have hp : s.Passes i (semLoad f i sx acc) (loadOut f sx a) :=
    passes_access hi.light rfl rfl (fun _ => ⟨rfl, rfl⟩) rfl (hrun _) rfl rfl rfl hle ha
  have hval : loadVal (accessed (s.opened (semLoad f i sx acc)) true a) a sx = loadVal (accessed s true a) a sx := by
    unfold State.opened
    rw [hF.upd s _ (queueBlind_begin _), loadVal_updMe (queueBlind_begin _)]
  have ho : (loadOut f sx a).eff { s := s.opened (semLoad f i sx acc) } =
      { s := (accessed (s.opened (semLoad f i sx acc)) true a).updMe
          (fun c => c.resultS f.w f.d (loadVal (accessed s true a) a sx)) } := by
    rw [← hval, ← load_eq _ hpos]
    rfl
  rw [hexec, issueOne_access hF hi.plain hi.light hr hp rfl rfl rfl ho]
  exact issueOne_scalar _ i _ _ f.w f.d _ hi.plain hi.light ((hF.reaches s).ready hr) (passes_localSem _ hi.light _ _)
    (local_me rfl) rfl

theorem load_traps (hact : s.active f.g = true) (hacc : acc s = a) : AccessTraps s i [a] := by
  have hrun : ∀ x, (semLoad f i sx acc).run s x = loadOut f sx a := fun x => by rw [← hacc]; exact if_pos hact
  exact accessTraps_of hexec hi.plain hi.light hi.words hr rfl rfl (fun _ => rfl) rfl (by rw [hrun]; rfl) (by rw [hrun]; rfl)

theorem load_guardedOff (hact : s.active f.g = false) :
    ∃ t, exec i s = .next t ∧
      ScalarDone s t i f.w f.d { v := s.val f.a, tag := (s.rdS .int64 f.a).tag } 0 := by
  have hrun : ∀ x, (semLoad f i sx acc).run s x =
      { eff := Live.me (fun c => c.resultS f.w f.d { v := s.val f.a, tag := (s.rdS .int64 f.a).tag }) } :=
    fun x => if_neg (by rw [hact]; decide)
  rw [hexec]
  exact issueOne_scalar s i _ _ f.w f.d _ hi.plain hi.light hr
    (passes_light s i _ _ hi.light rfl rfl (fun _ => ⟨rfl, rfl⟩) rfl (hrun _) rfl rfl (.inr (flagTrap_nil _))) (local_me rfl) rfl

end

section
variable (hexec : exec i s = issueOne (semStore f i acc) i s)
include hexec

theorem store_completes (hact : s.active f.g = true) (hacc : acc s = a) (hle : a.n ≤ 32) (ha : AccPasses s a) :
    ∃ t, exec i s = .next t ∧
      StepsAs (accessed s false a)
        (stored (accessed s false a).me [.store (storeCells (accessed s false a) a (s.val f.b))]) t i 0 ∧
      RegsKept s.me t := by
  have hF := access_accessed false a
  have hreach := hF.reaches s
  have hrun : ∀ x, (semStore f i acc).run s x = storeOut a (s.val f.b).toNat := fun x => by rw [← hacc]; exact if_pos hact
  have hp : s.Passes i (semStore f i acc) (storeOut a (s.val f.b).toNat) :=
    passes_access hi.light rfl rfl (fun _ => ⟨rfl, rfl⟩) rfl (hrun _) rfl rfl rfl hle ha
  have hcells : storeCells (accessed (s.opened (semStore f i acc)) false a) a (s.val f.b) =
      storeCells (accessed s false a) a (s.val f.b) := by
    unfold State.opened
    rw [hF.upd s _ (queueBlind_begin _), storeCells_updMe (queueBlind_begin _)]
  have ho : (storeOut a (s.val f.b).toNat).eff { s := s.opened (semStore f i acc) } =
      { s := (accessed (s.opened (semStore f i acc)) false a).updMe
          (fun c => stored c [.store (storeCells (accessed s false a) a (s.val f.b))]) } := by
    rw [← hcells, ← store_eq]
    rfl
  rw [hexec, issueOne_access hF hi.plain hi.light hr hp rfl rfl rfl ho]
  obtain ⟨t, ht, hsteps, hregs⟩ := issueOne_queued _ i _ _ _ hi.plain hi.light (hreach.ready hr)
    (passes_localSem _ hi.light _ _) (local_me rfl) rfl
  unfold RegsKept at hregs ⊢
  rw [hreach.q, hreach.files, hreach.csr] at hregs
  exact ⟨t, ht, hsteps, hregs⟩

theorem store_traps (hact : s.active f.g = true) (hacc : acc s = a) : AccessTraps s i [a] := by
  have hrun : ∀ x, (semStore f i acc).run s x = storeOut a (s.val f.b).toNat := fun x => by rw [← hacc]; exact if_pos hact
  exact accessTraps_of hexec hi.plain hi.light hi.words hr rfl rfl (fun _ => rfl) rfl (by rw [hrun]; rfl) (by rw [hrun]; rfl)

theorem store_guardedOff (hact : s.active f.g = false) :
    ∃ t, exec i s = .next t ∧ Steps s t i 0 ∧ RegsKept s.me t := by
  have hrun : ∀ x, (semStore f i acc).run s x = {} := fun x => if_neg (by rw [hact]; decide)
  have hp : s.Passes i (semStore f i acc) {} :=
    passes_light s i _ _ hi.light rfl rfl (fun _ => ⟨rfl, rfl⟩) rfl (hrun _) rfl rfl (.inr (flagTrap_nil _))
  have ho : ({} : Out).eff { s := s.opened (semStore f i acc) } = { s := (id (s.opened (semStore f i acc))).updMe id } := by
    unfold State.opened
    exact congrArg (Live.mk · none) (State.updMe_updMe s _ id).symm
  rw [hexec, issueOne_access access_id hi.plain hi.light hr hp rfl rfl rfl ho]
  obtain ⟨t, ht, hsteps, hseed, hq, hfiles⟩ := issueOne_steps s i _ _ id hi.plain hi.light hr (passes_localSem s hi.light _ _)
    (local_me rfl) (fun _ => rfl)
  exact ⟨t, ht, hsteps, hq.trans (Ctx.begin_q _ _), hfiles.trans (Ctx.begin_files _ _), hseed⟩

end

end

/-! ### The tables -/

theorem memOp_of {i : Instr} (hp : Instr.isPlain i = true) (hl : Instr.light i) (hw : wordsOf i = 1) : MemOp i :=
  ⟨plain_of hp, hl, hw⟩

theorem plainAcc_n (f : MemF) (kind : Nat) (s : State) : 0 < (plainAcc f kind s).n ∧ (plainAcc f kind s).n ≤ 32 := by
  have := sizeBytes_bounds f.sz
  exact ⟨this.1, this.2.trans (by decide)⟩
theorem windowAcc_n (f : MemF) (kind : Nat) (s : State) : 0 < (windowAcc f kind s).n ∧ (windowAcc f kind s).n ≤ 32 :=
  plainAcc_n f kind s

/-- A load of the table is a load by its access (R171). -/
theorem load_of_mem {p : (MemF → Instr) × (MemF → Nat → State → Acc1) × Bool} (hp : p ∈ loads) (f : MemF) (s : State) :
    MemOp (p.1 f) ∧ (0 < (p.2.1 f 0 s).n ∧ (p.2.1 f 0 s).n ≤ 32) ∧
      ∃ acc, acc s = p.2.1 f 0 s ∧ exec (p.1 f) s = issueOne (semLoad f (p.1 f) p.2.2 acc) (p.1 f) s := by
  simp only [loads, List.mem_cons, List.not_mem_nil, or_false] at hp
  rcases hp with rfl | rfl | rfl
  · exact ⟨memOp_of rfl ⟨rfl, rfl, rfl, rfl⟩ rfl, plainAcc_n f 0 s, scalarAcc f 0, rfl, rfl⟩
  · exact ⟨memOp_of rfl ⟨rfl, rfl, rfl, rfl⟩ rfl, plainAcc_n f 0 s, scalarAcc f 0, rfl, rfl⟩
  · exact ⟨memOp_of rfl ⟨rfl, rfl, rfl, rfl⟩ rfl, windowAcc_n f 0 s, privAcc f 0, privAcc_eq_windowAcc f 0 s, rfl⟩

/-- A store of the table is a store by its access. -/
theorem store_of_mem {p : (MemF → Instr) × (MemF → Nat → State → Acc1)} (hp : p ∈ stores) (f : MemF) (s : State) :
    MemOp (p.1 f) ∧ (p.2 f 1 s).n ≤ 32 ∧
      ∃ acc, acc s = p.2 f 1 s ∧ exec (p.1 f) s = issueOne (semStore f (p.1 f) acc) (p.1 f) s := by
  simp only [stores, List.mem_cons, List.not_mem_nil, or_false] at hp
  rcases hp with rfl | rfl
  · exact ⟨memOp_of rfl ⟨rfl, rfl, rfl, rfl⟩ rfl, (plainAcc_n f 1 s).2, scalarAcc f 1, rfl, rfl⟩
  · exact ⟨memOp_of rfl ⟨rfl, rfl, rfl, rfl⟩ rfl, (windowAcc_n f 1 s).2, privAcc f 1, privAcc_eq_windowAcc f 1 s, rfl⟩

theorem scalarLoads : ScalarLoads := by
  intro p hp f s hr
  obtain ⟨hi, ⟨hpos, hle⟩, acc, hacc, hexec⟩ := load_of_mem hp f s
  exact ⟨fun hact ha => load_completes hi hr hexec hact hacc hpos hle ha, fun hact => load_traps hi hr hexec hact hacc,
    load_guardedOff hi hr hexec⟩

theorem scalarStores : ScalarStores := by
  intro p hp f s hr
  obtain ⟨hi, hle, acc, hacc, hexec⟩ := store_of_mem hp f s
  exact ⟨fun hact ha => store_completes hi hr hexec hact hacc hle ha, fun hact => store_traps hi hr hexec hact hacc,
    store_guardedOff hi hr hexec⟩

/-- Settles O11: a load or store does what its change of the context does from the package its access leaves; a failing row of
R178 traps. -/
theorem scalarAccesses : Obligations.ScalarAccesses := ⟨scalarLoads, scalarStores, accessRows⟩

end Sys2Proof.Machine
end

