-- ==== Sys2Proof/Proofs/ScalarTable.lean ====
section
/-! PROOFS. The scalar ops of the tables of R113: each function over numbers agrees with the one over bit vectors at both widths. -/

namespace Sys2Proof.Machine

open Sys2Proof.Claim

/-! ### Sums and products -/

theorem agrees_add : AgreesWith fnAdd (fun _ _ a b _ => a + b) := fun _ _ _ a b _ => (BitVec.toNat_add a b).symm

theorem agrees_sub : AgreesWith fnSub (fun _ _ a b _ => a - b) := fun _ _ _ a b _ => by
  rw [BitVec.toNat_sub, Nat.add_comm]; rfl

theorem agrees_mul : AgreesWith fnMul (fun _ _ a b _ => a * b) := fun _ _ _ a b _ => (BitVec.toNat_mul a b).symm

theorem agrees_madd : AgreesWith fnMadd (fun _ _ a b c => a * b + c) := fun _ _ _ a b c => by
  rw [BitVec.toNat_add, BitVec.toNat_mul, Nat.mod_add_mod]; rfl

/-- The high half of a product of numbers that fit twice the width, by any integer congruent to it. -/
theorem toNat_extract_high {n : Nat} (x y : BitVec (2 * n)) (p : Int)
    (h : (x.toNat * y.toNat : Int) ≡ p [ZMOD 2 ^ (2 * n)]) :
    ((x * y).extractLsb' n n).toNat = (BitVec.ofInt n (p / 2 ^ n)).toNat := by
  have hpow : (2 : Int) ^ (2 * n) = 2 ^ n * 2 ^ n := by rw [two_mul, pow_add]
  have hlhs : (((x * y).extractLsb' n n).toNat : Int) = (x.toNat * y.toNat : Int) % 2 ^ (2 * n) / 2 ^ n % 2 ^ n := by
    rw [BitVec.extractLsb'_toNat, BitVec.toNat_mul, Nat.shiftRight_eq_div_pow]; push_cast; rfl
  have hrhs : ((BitVec.ofInt n (p / 2 ^ n)).toNat : Int) = p / 2 ^ n % 2 ^ n := by
    rw [BitVec.toNat_ofInt, Int.toNat_of_nonneg (Int.emod_nonneg _ (by positivity))]; push_cast; rfl
  have hsplit : p = p % 2 ^ (2 * n) + 2 ^ n * (2 ^ n * (p / 2 ^ (2 * n))) := by
    rw [← mul_assoc, ← hpow, Int.emod_add_mul_ediv]
  have hdiv : p / 2 ^ n = p % 2 ^ (2 * n) / 2 ^ n + 2 ^ n * (p / 2 ^ (2 * n)) := by
    conv_lhs => rw [hsplit]
    exact Int.add_mul_ediv_left _ _ (by positivity)
  have heq : (((x * y).extractLsb' n n).toNat : Int) = ((BitVec.ofInt n (p / 2 ^ n)).toNat : Int) := by
    rw [hlhs, hrhs, h, hdiv, Int.add_mul_emod_self_left]
  exact_mod_cast heq

/-- A number with its sign carried on to a greater width is congruent to its reading. -/
theorem signExtend_modEq {n m : Nat} (hm : n ≤ m) (a : BitVec n) : ((a.signExtend m).toNat : Int) ≡ a.toInt [ZMOD 2 ^ m] := by
  have h := (a.signExtend m).toInt_eq_toNat_bmod
  rw [BitVec.toInt_signExtend_of_le hm] at h
  rw [h]
  exact_mod_cast (Int.bmod_emod (x := (a.signExtend m).toNat) (m := 2 ^ m)).symm

theorem agrees_mulh : AgreesWith fnMulh (fun n sg a b _ =>
    if sg then (a.signExtend (2 * n) * b.signExtend (2 * n)).extractLsb' n n
    else (a.setWidth (2 * n) * b.setWidth (2 * n)).extractLsb' n n) := fun n hn sg a b _ => by
  rw [fnMulh, intBits_eq_ofInt, asInt_toNat (by omega), asInt_toNat (by omega)]
  cases sg
  · exact (toNat_extract_high _ _ _ (by
      rw [BitVec.toNat_setWidth_of_le (by omega), BitVec.toNat_setWidth_of_le (by omega)]; rfl)).symm
  · exact (toNat_extract_high _ _ _ ((signExtend_modEq (by omega) a).mul (signExtend_modEq (by omega) b))).symm

theorem agrees_shadd : AgreesWith fnShadd (fun n _ a b c => (a <<< (c.toNat % n)) + b) := fun n _ _ a b c => by
  rw [BitVec.toNat_add, BitVec.toNat_shiftLeft, Nat.shiftLeft_eq, Nat.mod_add_mod]; rfl

/-! ### Logic, choices and comparisons -/

theorem agrees_and : AgreesWith fnAnd (fun _ _ a b _ => a &&& b) := fun _ _ _ _ _ _ => rfl
theorem agrees_or : AgreesWith fnOr (fun _ _ a b _ => a ||| b) := fun _ _ _ _ _ _ => rfl
theorem agrees_xor : AgreesWith fnXor (fun _ _ a b _ => a ^^^ b) := fun _ _ _ _ _ _ => rfl
theorem agrees_andn : AgreesWith fnAndn (fun _ _ a b _ => a &&& ~~~b) := fun _ _ _ a b _ => by
  rw [BitVec.toNat_and, BitVec.toNat_not]; rfl

/-- Choosing between two operands and reading the choice as a number. -/
theorem toNat_choice {n : Nat} {p : Prop} [Decidable p] {q : Bool} (h : p ↔ q = true) (a b : BitVec n) :
    (if p then a.toNat else b.toNat) = (if q then a else b).toNat := by
  rw [apply_ite BitVec.toNat]; exact if_congr h rfl rfl

theorem lt_iff_ult {n : Nat} (a b : BitVec n) : a.toNat < b.toNat ↔ a.ult b = true := by simp [BitVec.ult_eq_decide]

theorem agrees_sel : AgreesWith fnSel (fun _ _ a b c => if c.getLsbD 0 then a else b) := fun n _ _ a b c =>
  toNat_choice (by simp [BitVec.getLsbD, Nat.testBit_zero]) a b

theorem agrees_min : AgreesWith fnMin
    (fun _ sg a b _ => if sg then (if b.slt a then b else a) else (if b.ult a then b else a)) := fun n hn sg a b _ => by
  refine (toNat_choice (asInt_lt (by omega) sg b a) b a).trans ?_
  cases sg <;> rfl

theorem agrees_max : AgreesWith fnMax
    (fun _ sg a b _ => if sg then (if a.slt b then b else a) else (if a.ult b then b else a)) := fun n hn sg a b _ => by
  refine (toNat_choice (asInt_lt (by omega) sg a b) b a).trans ?_
  cases sg <;> rfl

theorem agrees_minu : AgreesWith fnMinu (fun _ _ a b _ => if b.ult a then b else a) := fun _ _ _ a b _ =>
  toNat_choice (lt_iff_ult b a) b a
theorem agrees_maxu : AgreesWith fnMaxu (fun _ _ a b _ => if a.ult b then b else a) := fun _ _ _ a b _ =>
  toNat_choice (lt_iff_ult a b) b a

/-! ### Shifts, counts and bit fields -/

theorem agrees_shl : AgreesWith fnShl (fun n _ a b _ => a <<< (b.toNat % n)) := fun n _ _ a b _ => by
  rw [BitVec.toNat_shiftLeft, Nat.shiftLeft_eq]; rfl

theorem agrees_shr : AgreesWith fnShr (fun n _ a b _ => a >>> (b.toNat % n)) := fun n _ _ a b _ => by
  rw [BitVec.toNat_ushiftRight, Nat.shiftRight_eq_div_pow]; rfl

theorem agrees_sar : AgreesWith fnSar
    (fun n sg a b _ => if sg then a.sshiftRight (b.toNat % n) else a >>> (b.toNat % n)) := fun n hn sg a b _ => by
  rw [fnSar, intBits_eq_ofInt, asInt_toNat (by omega)]
  cases sg
  · have h : (a.toNat : Int) / 2 ^ (b.toNat % n) = ((a >>> (b.toNat % n)).toNat : Int) := by
      rw [BitVec.toNat_ushiftRight, Nat.shiftRight_eq_div_pow]; push_cast; rfl
    simp only [Bool.false_eq_true, if_false, h, BitVec.ofInt_natCast, BitVec.ofNat_toNat, BitVec.setWidth_eq]
  · have h : a.toInt / 2 ^ (b.toNat % n) = (a.sshiftRight (b.toNat % n)).toInt := by
      rw [BitVec.toInt_sshiftRight, Int.shiftRight_eq_div_pow]; push_cast; rfl
    simp only [if_true, h, BitVec.ofInt_toInt]

theorem agrees_rot : AgreesWith fnRot (fun n _ a b _ => a.rotateLeft (b.toNat % n)) := fun n hn sg a b _ => by
  have hk : b.toNat % n < n := Nat.mod_lt _ (by omega)
  rw [BitVec.toNat_rotateLeft, Nat.mod_mod, fnRot]
  generalize b.toNat % n = k at hk
  have hlow : a.toNat / 2 ^ (n - k) < 2 ^ k := by
    rw [Nat.div_lt_iff_lt_mul (by positivity), ← pow_add, Nat.add_sub_cancel' hk.le]; exact a.isLt
  have hor : a.toNat * 2 ^ k + a.toNat / 2 ^ (n - k) = a.toNat <<< k ||| a.toNat >>> (n - k) := by
    rw [Nat.shiftRight_eq_div_pow, ← Nat.shiftLeft_add_eq_or_of_lt hlow, Nat.shiftLeft_eq]
  rw [hor, Nat.or_mod_two_pow, Nat.mod_eq_of_lt (a := a.toNat >>> (n - k)) (lt_of_le_of_lt (Nat.shiftRight_le ..) a.isLt)]

theorem agrees_clz : AgreesWith fnClz (fun _ _ a _ _ => a.clz) := fun n hn sg a _ _ => by
  have hpos : 0 < n := by omega
  unfold fnClz
  by_cases ha : a = 0
  · subst ha
    have hall : (0 : BitVec n).clz = (n : BitVec n) := BitVec.clz_eq_iff_eq_zero.mpr rfl
    refine (if_pos rfl).trans ?_
    show n = (0 : BitVec n).clz.toNat
    rw [hall]
    rcases hn with rfl | rfl <;> rfl
  · rw [if_neg (mt (toNat_eq_zero a).mp ha)]
    have hlo := BitVec.two_pow_sub_clz_le_toNat_of_ne_zero hpos ha
    have hhi := BitVec.toNat_lt_two_pow_sub_clz (x := a)
    have hlt : a.clz.toNat < n := by
      by_contra hge
      rw [Nat.sub_eq_zero_of_le (not_lt.mp hge)] at hhi
      exact ha ((toNat_eq_zero a).mp (by omega))
    have hlog : a.toNat.log2 = n - 1 - a.clz.toNat :=
      (Nat.log2_eq_iff (mt (toNat_eq_zero a).mp ha)).mpr ⟨hlo, by rwa [show n - 1 - a.clz.toNat + 1 = n - a.clz.toNat by omega]⟩
    show n - 1 - a.toNat.log2 = a.clz.toNat
    omega

theorem popcount_succ_high (n x : Nat) : popcount (n + 1) x = popcount n x + (x.testBit n).toNat := by
  induction n generalizing x with
  | zero => rw [Nat.testBit_zero]; rcases Nat.mod_two_eq_zero_or_one x with h | h <;> simp [popcount, h]
  | succ n ih => rw [popcount, ih, popcount, Nat.testBit_succ, Nat.add_assoc]

theorem popcount_toNat {n : Nat} (a : BitVec n) (k : Nat) : popcount k a.toNat = a.cpopNatRec k 0 := by
  induction k with
  | zero => rfl
  | succ k ih => rw [popcount_succ_high, BitVec.cpopNatRec_succ, BitVec.cpopNatRec_add, ih]; rfl

theorem agrees_popc : AgreesWith fnPopc (fun _ _ a _ _ => a.cpop) := fun n _ _ a _ _ =>
  (popcount_toNat a n).trans (BitVec.toNat_cpop a).symm

theorem byteSwap_lt (n x : Nat) : byteSwap n x < 2 ^ (8 * n) := by
  induction n generalizing x with
  | zero => simp [byteSwap]
  | succ n ih =>
    have hx : x % 256 < 256 := Nat.mod_lt _ (by omega)
    have hstep : byteSwap n (x / 256) < 256 ^ n := by rw [show 256 = 2 ^ 8 from rfl, ← pow_mul]; exact ih _
    have hpow : 2 ^ (8 * (n + 1)) = 256 * 256 ^ n := by rw [pow_mul, pow_succ']; rfl
    rw [hpow, byteSwap]
    nlinarith

/-- The bits of a number whose bytes are reversed. -/
theorem testBit_byteSwap (n x k : Nat) :
    (byteSwap n x).testBit k = (decide (k < 8 * n) && x.testBit (8 * (n - 1 - k / 8) + k % 8)) := by
  induction n generalizing x with
  | zero => simp [byteSwap]
  | succ n ih =>
    have hsum : byteSwap (n + 1) x = 2 ^ (8 * n) * (x % 2 ^ 8) + byteSwap n (x / 2 ^ 8) := by
      rw [byteSwap, Nat.mul_comm, show 256 = 2 ^ 8 from rfl, ← pow_mul]
    rw [hsum, Nat.testBit_two_pow_mul_add _ (byteSwap_lt n _)]
    by_cases hk : k < 8 * n
    · rw [if_pos hk, ih, Nat.testBit_div_two_pow,
        show 8 * (n - 1 - k / 8) + k % 8 + 8 = 8 * (n + 1 - 1 - k / 8) + k % 8 by omega]
      simp [hk, show k < 8 * (n + 1) by omega]
    · rw [if_neg hk, Nat.testBit_mod_two_pow]
      by_cases hlast : k < 8 * (n + 1)
      · simp [hlast, show k - 8 * n < 8 by omega, show 8 * (n - k / 8) + k % 8 = k - 8 * n by omega]
      · simp [hlast, show ¬ k - 8 * n < 8 by omega]

theorem agrees_bswap : AgreesWith fnBswap (fun n _ a _ _ =>
    BitVec.ofFnLE (fun i : Fin n => a.getLsbD (8 * (n / 8 - 1 - i.val / 8) + i.val % 8))) := fun n hn sg a _ _ => by
  have h8 : 8 * (n / 8) = n := by omega
  refine Nat.eq_of_testBit_eq (fun k => ?_)
  dsimp only
  rw [fnBswap, testBit_byteSwap, h8, BitVec.testBit_toNat, BitVec.testBit_toNat, BitVec.getLsbD_ofFnLE]
  by_cases hk : k < n <;> simp [hk]

/-- The position and the length that a field operand names (R113). -/
theorem field_operand {n : Nat} (b : BitVec n) :
    (b.extractLsb' 0 6).toNat = b.toNat % 64 ∧ (b.extractLsb' 6 7).toNat = b.toNat / 64 % 128 := by
  constructor <;> rw [BitVec.extractLsb'_toNat, Nat.shiftRight_eq_div_pow]
  rw [pow_zero, Nat.div_one]

theorem agrees_extr : AgreesWith fnExtr
    (fun n _ a b _ => field a ((b.extractLsb' 0 6).toNat % n) (b.extractLsb' 6 7).toNat) := fun n _ _ a b _ => by
  obtain ⟨hpos, hlen⟩ := field_operand b
  dsimp only
  rw [hpos, hlen, field, BitVec.toNat_setWidth, BitVec.extractLsb'_toNat, BitVec.toNat_ushiftRight, Nat.shiftRight_zero,
    Nat.shiftRight_eq_div_pow, fnExtr]
  refine Nat.eq_of_testBit_eq (fun k => ?_)
  by_cases hk : k < n <;> simp [Nat.testBit_mod_two_pow, hk]

/-- The bits of a number with a field inserted. -/
theorem testBit_insField (n a b pos len k : Nat) : (insField n a b pos len).testBit k =
    (decide (k < n) && if pos ≤ k ∧ k < pos + len then b.testBit (k - pos) else a.testBit k) := by
  have hmask : ((2 ^ len - 1) * 2 ^ pos % 2 ^ n).testBit k = (decide (k < n) && decide (pos ≤ k ∧ k < pos + len)) := by
    rw [Nat.testBit_mod_two_pow, Nat.testBit_mul_two_pow, Nat.testBit_two_pow_sub_one, Bool.decide_and]
    by_cases hk : pos ≤ k
    · simp [hk, show k - pos < len ↔ k < pos + len by omega]
    · simp [hk]
  have hrest : (2 ^ n - 1 - (2 ^ len - 1) * 2 ^ pos % 2 ^ n).testBit k =
      (decide (k < n) && !((2 ^ len - 1) * 2 ^ pos % 2 ^ n).testBit k) := by
    rw [Nat.sub_sub, Nat.add_comm 1, Nat.testBit_two_pow_sub_succ (Nat.mod_lt _ (by positivity))]
  rw [insField, Nat.testBit_or, Nat.testBit_and, Nat.testBit_and, hrest, hmask, Nat.testBit_mod_two_pow, Nat.testBit_mul_two_pow]
  by_cases hk : k < n
  · by_cases hin : pos ≤ k ∧ k < pos + len <;> simp [hk, hin]
  · simp [hk]

theorem agrees_ins : AgreesWith fnIns (fun n _ a b c => BitVec.ofFnLE (fun i : Fin n =>
    let pos := (c.extractLsb' 0 6).toNat % n
    if pos ≤ i.val ∧ i.val < pos + (c.extractLsb' 6 7).toNat then b.getLsbD (i.val - pos) else a.getLsbD i.val)) := by
  intro n hn sg a b c
  obtain ⟨hpos, hlen⟩ := field_operand c
  dsimp only
  rw [hpos, hlen, fnIns]
  generalize c.toNat % 64 % n = pos, c.toNat / 64 % 128 = len
  refine Nat.eq_of_testBit_eq (fun k => ?_)
  rw [BitVec.testBit_toNat, BitVec.getLsbD_ofFnLE, testBit_insField]
  by_cases hk : k < n
  · have hin : pos ≤ k ∧ k < pos + min len n ↔ pos ≤ k ∧ k < pos + len := by omega
    simp only [hk, dif_pos, decide_true, Bool.true_and, hin]
    rfl
  · simp [hk]

/-! ### The tables (R113) -/

/-- What an op of the tables adds to `ScalarOp`: it produces no token, checks its fields like the others, and its function is that
of the table. -/
structure TableOp (i : RegF → Instr) (r : TableFn) : Prop where
  exec : ∃ fn, AgreesWith fn r ∧ ∀ f s, exec (i f) s = issueOne (semScalar f (i f) fn noFlags) (i f) s
  light : ∀ f, Instr.light (i f) := by exact fun _ => ⟨rfl, rfl, rfl, rfl⟩
  fields : ∀ f, fieldsOk (i f) = true → scalarX f = true := by exact fun _ h => scalarX_of_ok h
  lone : ∀ f, opsOf 0 (i f) = [i f] := by exact fun _ => rfl

theorem TableOp.done {i : RegF → Instr} {r : TableFn} (h : TableOp i r) {f : RegF} (hi : ScalarOp f (i f)) {s : State}
    (hr : s.Ready (i f)) (ht : TagsMatch s (i f) f.t) :
    ∃ t, Machine.exec (i f) s = .next t ∧ ScalarDone s t (i f) f.w f.d (tableVal f r s) 0 := by
  obtain ⟨fn, hag, hexec⟩ := h.exec
  have hx := scalarX_lt (h.fields f (fieldsOk_of_wf (wf_of_ready hr) (h.lone f)))
  obtain ⟨t, hst, hd⟩ := issueOne_semScalar s f (i f) fn noFlags (plain_of hi.plain) (h.light f) hi.abc hr ht
    (Or.inr (flagTrap_nil _))
  exact ⟨t, (hexec f s).trans hst, scalarOut_eq s hx hag ▸ hd⟩

/-- A table of ops of R113 holds where each op is in it by its function. -/
theorem tableHolds_of {l : List ((RegF → Instr) × TableFn)} (hl : l ⊆ scalarTable) (h : ∀ p ∈ l, TableOp p.1 p.2) :
    TableHolds l := fun p hp f _ hr ht => (h p hp).done (scalarOp_of_mem (hl hp) f) hr ht

theorem tableOp_of_sums : ∀ p ∈ sums, TableOp p.1 p.2 := by
  simp only [sums, List.forall_mem_cons]
  exact ⟨{ exec := ⟨_, agrees_add, fun _ _ => rfl⟩ },
    { exec := ⟨_, agrees_sub, fun _ _ => rfl⟩ },
    { exec := ⟨_, agrees_mul, fun _ _ => rfl⟩ },
    { exec := ⟨_, agrees_mulh, fun _ _ => rfl⟩ },
    { exec := ⟨_, agrees_madd, fun _ _ => rfl⟩ },
    { exec := ⟨_, agrees_shadd, fun _ _ => rfl⟩ },
    by simp⟩

theorem tableOp_of_choices : ∀ p ∈ choices, TableOp p.1 p.2 := by
  simp only [choices, List.forall_mem_cons]
  exact ⟨{ exec := ⟨_, agrees_and, fun _ _ => rfl⟩ },
    { exec := ⟨_, agrees_or, fun _ _ => rfl⟩ },
    { exec := ⟨_, agrees_xor, fun _ _ => rfl⟩ },
    { exec := ⟨_, agrees_andn, fun _ _ => rfl⟩ },
    { exec := ⟨_, agrees_sel, fun _ _ => rfl⟩ },
    { exec := ⟨_, agrees_min, fun _ _ => rfl⟩ },
    { exec := ⟨_, agrees_max, fun _ _ => rfl⟩ },
    { exec := ⟨_, agrees_minu, fun _ _ => rfl⟩ },
    { exec := ⟨_, agrees_maxu, fun _ _ => rfl⟩ },
    by simp⟩

theorem tableOp_of_shifts : ∀ p ∈ shifts, TableOp p.1 p.2 := by
  simp only [shifts, List.forall_mem_cons]
  exact ⟨{ exec := ⟨_, agrees_shl, fun _ _ => rfl⟩ },
    { exec := ⟨_, agrees_shr, fun _ _ => rfl⟩ },
    { exec := ⟨_, agrees_sar, fun _ _ => rfl⟩ },
    { exec := ⟨_, agrees_rot, fun _ _ => rfl⟩ },
    { exec := ⟨_, agrees_clz, fun _ _ => rfl⟩ },
    { exec := ⟨_, agrees_popc, fun _ _ => rfl⟩ },
    { exec := ⟨_, agrees_bswap, fun _ _ => rfl⟩ },
    { exec := ⟨_, agrees_extr, fun _ _ => rfl⟩ },
    { exec := ⟨_, agrees_ins, fun _ _ => rfl⟩ },
    by simp⟩

theorem tables_subset_scalarTable : sums ⊆ scalarTable ∧ choices ⊆ scalarTable ∧ shifts ⊆ scalarTable :=
  ⟨fun _ h => List.mem_append_left _ (List.mem_append_left _ h), fun _ h => List.mem_append_left _ (List.mem_append_right _ h),
    fun _ h => List.mem_append_right _ h⟩

/-- Settles O1: each op means its function over numbers, which agrees with that of its table over bit vectors at both widths. -/
theorem scalarTable_holds : Obligations.ScalarTable := by
  obtain ⟨hsums, hchoices, hshifts⟩ := tables_subset_scalarTable
  exact ⟨tableHolds_of hsums tableOp_of_sums, tableHolds_of hchoices tableOp_of_choices, tableHolds_of hshifts tableOp_of_shifts⟩

end Sys2Proof.Machine
end

