-- ==== Sys2Proof/Proofs/Immediates.lean ====
section
/-! PROOFS. The IMM ops and CMPI (R118, R119). -/

namespace Sys2Proof.Machine

open Sys2Proof.Claim

/-! ### The table (R118) -/

theorem fnLih_eq (a : Word) (i : BitVec 32) : fnLih a i = i ++ a.setWidth 32 := by
  have hlow : (a &&& 0xFFFFFFFF#64).toNat = (a.setWidth 32).toNat := by
    rw [BitVec.toNat_and, BitVec.toNat_setWidth]; exact Nat.and_two_pow_sub_one_eq_mod a.toNat 32
  have hhigh : (i.setWidth 64 <<< 32).toNat = i.toNat <<< 32 := by
    rw [BitVec.toNat_shiftLeft, BitVec.toNat_setWidth_of_le (by decide), Nat.shiftLeft_eq]; omega
  apply BitVec.eq_of_toNat_eq
  rw [fnLih, BitVec.toNat_or, hlow, hhigh, BitVec.toNat_append, Nat.or_comm]

/-- An IMM op that means a function of A and imm32. -/
structure ImmOp (i : ImmF → Instr) (r : Word → BitVec 32 → Word) : Prop where
  exec : ∃ fn, (∀ a n, fn a n = r a n) ∧ ∀ f s, exec (i f) s = issueOne (semImm f (i f) true fn) (i f) s
  plain : ∀ f, Instr.isPlain (i f) = true := by exact fun _ => rfl
  light : ∀ f, Instr.light (i f) := by exact fun _ => ⟨rfl, rfl, rfl, rfl⟩

theorem immOp_of_mem : ∀ p ∈ imms, ImmOp p.1 p.2 := by
  simp only [imms, List.forall_mem_cons]
  exact ⟨{ exec := ⟨_, fun _ _ => rfl, fun _ _ => rfl⟩ }, { exec := ⟨_, fun _ _ => rfl, fun _ _ => rfl⟩ },
    { exec := ⟨_, fun _ _ => rfl, fun _ _ => rfl⟩ }, { exec := ⟨_, fun _ _ => rfl, fun _ _ => rfl⟩ },
    { exec := ⟨fnShli, fun _ _ => rfl, fun _ _ => rfl⟩ }, { exec := ⟨fnShri, fun _ _ => rfl, fun _ _ => rfl⟩ },
    { exec := ⟨fnSari, fun _ _ => rfl, fun _ _ => rfl⟩ }, { exec := ⟨fnLih, fnLih_eq, fun _ _ => rfl⟩ },
    { exec := ⟨_, fun _ _ => rfl, fun _ _ => rfl⟩ }, by simp⟩

/-- An IMM op is done by the value it delivers. -/
theorem issueOne_semImm {s : State} {f : ImmF} {i : Instr} (usesA : Bool) (fn : ImmFn) (h : Instr.plain i) (hl : Instr.light i)
    (hr : s.Ready i) :
    ∃ t, issueOne (semImm f i usesA fn) i s = .next t ∧ ScalarDone s t i f.w f.d (immOut f usesA fn s) 0 :=
  have hm : (semImm f i usesA fn).OnlyFlags s := { tags := rfl }
  issueOne_scalar s i _ _ f.w f.d (immOut f usesA fn s) h hl hr (hm.passes hl (Or.inr (flagTrap_nil _))) (local_me rfl) rfl

theorem immediateOps : ImmediateOps := by
  refine ⟨fun p hp f s hr => ?_, fun f s hr => ?_⟩
  · obtain ⟨⟨fn, hfn, hexec⟩, hplain, hlight⟩ := immOp_of_mem p hp
    rw [hexec, ← hfn]
    exact issueOne_semImm true fn (plain_of (hplain f)) (hlight f) hr
  · have h := issueOne_semImm (f := f) false fnLi (plain_of rfl) ⟨rfl, rfl, rfl, rfl⟩ hr
    rw [show immOut f false fnLi s = { v := if s.active f.g then f.imm.signExtend 64 else 0, tag := .int64 } by
      unfold immOut; cases s.active f.g <;> rfl] at h
    exact h

/-! ### CMPI (R119) -/

/-- The comparison over bit vectors is that over the numbers they hold. -/
theorem cmpiFn_eq (k : Nat) (a b : Word) : cmpiFn k a b = BitVec.ofInt 64 (cmpRes k 64 true a.toNat b.toNat) := by
  have heq : a.toNat = b.toNat ↔ a = b := BitVec.toNat_eq.symm
  simp only [cmpiFn, cmpRes, asInt_lt (show 0 < 64 by decide), heq, lt_iff_ult, if_true]
  split <;> simp only [apply_ite (BitVec.ofInt 64)] <;> rfl

theorem cmpiVal_eq (f : ImmF) (s : State) : cmpiVal f s = wdi (cmpiOf f s) := by
  have hcond : (f.imm.extractLsb' 29 3).toNat = bitsOf 31 29 f.imm := by
    rw [BitVec.extractLsb'_toNat, Nat.shiftRight_eq_div_pow]; rfl
  have hlow : f.imm.extractLsb' 0 29 = f.imm.setWidth 29 := by
    apply BitVec.eq_of_toNat_eq; rw [BitVec.extractLsb'_toNat, BitVec.toNat_setWidth, Nat.shiftRight_zero]
  rw [cmpiVal, cmpiFn_eq, hcond, hlow]
  rfl

theorem wdi_cmpRes_eq_zero (k n : Nat) (sg : Bool) (a b : Nat) : wdi (cmpRes k n sg a b) = 0 ↔ cmpRes k n sg a b = 0 := by
  rcases cmpRes_range k n sg a b with h | h | h <;> rw [h] <;> decide

/-- The mask of a CMPI (R115, R119). -/
theorem cmpiMask_eq (f : ImmF) (s : State) (p : Fin 16) :
    (if s.active f.g then (if cmpiOf f s = 0 then 0 else BitVec.allOnes 256) else s.me.pred p) =
      cmpMask s f.g p (cmpiVal f s == 0) := by
  have hz : (cmpiVal f s == 0) = decide (cmpiOf f s = 0) := by
    rw [Bool.eq_iff_iff, beq_iff_eq, decide_eq_true_eq, cmpiVal_eq, cmpiOf, wdi_cmpRes_eq_zero]
  rw [cmpMask, hz]; simp

/-- What a CMPI delivers as a scalar. -/
def cmpiOut (f : ImmF) (s : State) : SVal :=
  if s.active f.g then { v := cmpiVal f s, tag := .int64 } else { v := s.val f.a, tag := (s.rdS .int64 f.a).tag }

theorem semCmpi_eff (f : ImmF) (s : State) (a : At) : ((semCmpi f).run s a).eff =
    Live.me (cmpDeliver f.w f.d (s.active f.g) (cmpiOf f s) (cmpiOut f s) s.me) := by
  rw [cmpiOut, cmpiVal_eq]; rfl

theorem immediateCompare : ImmediateCompare := by
  intro f s hr
  have hi : Instr.Single (.cmpi f) := ⟨rfl, ⟨rfl, rfl, rfl, rfl⟩, rfl⟩
  have hm : (semCmpi f).OnlyFlags s := { tags := rfl }
  have hp := hm.passes hi.light (Or.inr (flagTrap_nil _))
  by_cases hpred : ∃ p, NamesPred f.w f.d p
  · obtain ⟨p, hw, hd⟩ := hpred
    obtain ⟨t, hst, hdone⟩ := issueOne_pred s (.cmpi f) (semCmpi f) _ p (cmpMask s f.g p (cmpiVal f s == 0)) (plain_of rfl)
      hi.light hr hp (local_me (by rw [Sem.out, semCmpi_eff, hw, hd, ← cmpiMask_eq]; rfl)) rfl
    refine ⟨t, hst, ?_⟩
    rw [hw, hd]
    exact hdone
  · obtain ⟨t, hst, hdone⟩ := issueOne_scalar s (.cmpi f) (semCmpi f) _ f.w f.d (cmpiOut f s) (plain_of rfl) hi.light hr hp
      (local_me (by rw [Sem.out, semCmpi_eff, cmpDeliver_scalar hpred])) rfl
    refine ⟨t, hst, ?_⟩
    unfold cmpiOut at hdone
    generalize f.w = w, f.d = d at hpred hdone
    cases w with
    | false => exact hdone
    | true => cases d with
      | pred p => exact absurd ⟨p, rfl, rfl⟩ hpred
      | _ => exact hdone

/-- Settles O3: an IMM op means its function of A and imm32; the comparison of a CMPI over bit vectors is that over numbers. -/
theorem immediates : Obligations.Immediates := ⟨immediateOps, immediateCompare⟩

end Sys2Proof.Machine
end

