-- ==== Sys2Proof/Proofs/Steps.lean ====
section
/-! PROOFS. An op that changes its own context by queues, registers and waits, and goes on behind itself or to a target (R25, R58,
R120). -/

namespace Sys2Proof.Machine

open Sys2Proof.Claim

/-- What a context becomes from one that differs from `c` by what a retirement writes, the rest of which it writes. -/
def Ctx.AsAt (c c' : Ctx) : Prop :=
  c.Retired c' ∧ c'.csr.cycles = c.csr.cycles ∧ c'.csr.fpstat = c.csr.fpstat ∧ c'.standing = c.standing

theorem Ctx.begin_asAt (c : Ctx) (w : Word) : c.AsAt (c.begin w) := by
  refine ⟨?_, by simp, by simp, by simp⟩
  unfold Ctx.Retired Ctx.begin
  split <;> rfl

/-- An op is the same op where its effect on the state it opens is put as a change of its context and a next offset. -/
theorem issueOne_opened (s : State) (i : Instr) (m : Sem) (o : Out) (g : Ctx → Ctx) (n : Option (BitVec 16))
    (h : Instr.plain i) (hr : s.Ready i) (hp : s.Passes i m o)
    (ho : o.eff { s := s.opened m } = { s := (s.opened m).updMe g, next := n }) :
    ∃ m' o', s.Passes i m' o' ∧ o'.local g n ∧ o'.flags = o.flags ∧ m'.draw s = m.draw s ∧ m'.ni = m.ni ∧
      issueOne m' i s = issueOne m i s := by
  let o' : Out := { o with eff := fun L => { s := L.s.updMe g, next := n } }
  have hp' : s.Passes i { m with run := fun _ _ => o' } o' := { hp with run := rfl }
  refine ⟨_, o', hp', fun L _ => rfl, rfl, rfl, rfl, ?_⟩
  rw [issueOne_next s i _ _ h hr hp', issueOne_next s i m o h hr hp, ho]
  rfl

/-- A light op that changes its context by what a retirement writes: its step, and what it leaves in queues, registers and waits. -/
theorem issueOne_stepsTo (s : State) (i : Instr) (m : Sem) (o : Out) (g : Ctx → Ctx) (n : Option (BitVec 16)) (c : Ctx)
    (h : Instr.plain i) (hl : Instr.light i) (hr : s.Ready i) (hp : s.Passes i m o)
    (ho : o.eff { s := s.opened m } = { s := (s.opened m).updMe g, next := n })
    (hc : c.AsAt (g (s.me.begin (m.draw s).2))) :
    ∃ t, issueOne m i s = .next t ∧ StepsTo s c t (n.getD (pcPlus s.me.pc (wordsOf i))) (orFlags o.flags) ∧
      t.me.q = (g (s.me.begin (m.draw s).2)).q ∧ t.me.files = (g (s.me.begin (m.draw s).2)).files ∧
      t.me.csr.rngseed = (g (s.me.begin (m.draw s).2)).csr.rngseed ∧ t.me.waits = (g (s.me.begin (m.draw s).2)).waits := by
  obtain ⟨m', o', hp', hg, hfl, hdr, -, heq⟩ := issueOne_opened s i m o g n h hr hp ho
  obtain ⟨t, ht, hse, r, il, nl, hme⟩ := issueOne_local s i m' o' g n h hr hp' hg
  rw [hdr, hfl, orFlags_lone] at hme
  obtain ⟨hret, hcy, hfp, hst⟩ := hc
  generalize g (s.me.begin (m.draw s).2) = d at *
  rw [standStep_plain _ d.standing hl.1 hl.2.2.1 hl.2.2.2] at hme
  refine ⟨t, heq ▸ ht, ⟨hse, ?_, ?_, ?_, ?_, ?_⟩, ?_, ?_, ?_, ?_⟩
  · unfold Ctx.Retired at hret ⊢
    rw [hme, hret]
  all_goals rw [hme]
  · rw [← hcy]
  · rw [← hfp]
  · exact hst

/-! ### Ops that leave their registers -/

/-- A light op that leaves queues, registers and the generator: its step, and its waits. -/
theorem issueOne_kept (s : State) (i : Instr) (m : Sem) (o : Out) (g : Ctx → Ctx) (c : Ctx) (h : Instr.plain i)
    (hl : Instr.light i) (hr : s.Ready i) (hp : s.Passes i m o)
    (ho : o.eff { s := s.opened m } = { s := (s.opened m).updMe g })
    (hc : c.AsAt (g (s.me.begin s.me.csr.rngseed))) (hpc : c.pc = s.me.pc) (hd : (m.draw s).2 = s.me.csr.rngseed)
    (hg : ∀ x, (g x).q = x.q ∧ (g x).files = x.files ∧ (g x).csr = x.csr) :
    ∃ t, issueOne m i s = .next t ∧ RegsKept s.me t ∧ StepsAs s c t i (orFlags o.flags) ∧
      t.me.waits = (g (s.me.begin s.me.csr.rngseed)).waits := by
  obtain ⟨t, ht, hst, hq, hf, hrng, hw⟩ := issueOne_stepsTo s i m o g none c h hl hr hp ho (hd.symm ▸ hc)
  obtain ⟨hgq, hgf, hgc⟩ := hg (s.me.begin s.me.csr.rngseed)
  rw [hd] at hq hf hrng hw
  rw [hgq, Ctx.begin_q] at hq
  rw [hgf, Ctx.begin_files] at hf
  rw [hgc, Ctx.begin_csr] at hrng
  exact ⟨t, ht, ⟨hq, hf, hrng⟩, by rw [StepsAs, hpc]; exact hst, hw⟩

theorem opened_updMe_id (s : State) (m : Sem) : (s.opened m).updMe id = s.opened m := State.updMe_updMe s _ id

/-! ### An op whose own wait holds it (R126, R127) -/

/-- A light op that may issue and whose own wait holds it has issued, and waits (R126, R127). -/
theorem judge_opWaits {s : State} {i : Instr} {m : Sem} (h : Instr.plain i) (hl : Instr.light i) (hr : s.Ready i)
    (htags : m.tags s = none) (hslots : m.slots s = []) (hstall : ∀ a, m.stall s a = false) (hni : m.ni s = 0)
    (htrap : (m.out s i).trap = none) (haccs : (m.out s i).accs = []) (hflags : (m.out s i).flags = [])
    (hwaits : m.waits s (s.lone i (m.draw s).1) = true) :
    s.judge (s.lay (fun _ => m) (s.single i)) none = .stall (.op 0) := by
  obtain ⟨-, hw, hc, hop, hwt, hib, hed, -, -⟩ := hr
  have hmem : s.memTrap [(s.lone i (m.draw s).1, m.out s i)] = none := by simp [State.memTrap, haccs]
  have hacc : s.accWaits [(s.lone i (m.draw s).1, m.out s i)] = false := by simp [State.accWaits, haccs]
  have hx : s.execTrap [s.lone i (m.draw s).1] [(s.lone i (m.draw s).1, m.out s i)] = none := by
    unfold State.execTrap
    rw [tokenReuse_light _ _ hl]
    simp only [List.findSome?_cons, htrap, Option.map_none, List.findSome?_nil, hmem, List.map_cons, List.map_nil, hflags]
    exact if_congr Iff.rfl rfl (flagTrap_nil _) |>.trans (ite_self _)
  have how : opWaits s 0 [(s.lone i (m.draw s).1, m)] = some 0 := by simp [opWaits, hwaits]
  rw [lay_lone s i m h]
  unfold State.judge
  simp only [replays_lone, rows15_lone s i h hw hc, orderWaits_lone, List.findSome?_cons, List.findSome?_nil, row6_lone s i _ hop,
    List.any_cons, List.any_nil, hslots, Bool.or_self, row7_slotless hslots htags, rows89_lone s i hwt,
    windowFull_lone s i hwt, List.map_cons, List.map_nil, List.sum_cons, List.sum_nil, Nat.add_zero, hni,
    denies_lone s.me _ hib (Or.inr (Nat.zero_le _)), hed, tokenWaits_light s.me (s.lone i (m.draw s).1) hl, hstall,
    engineFault_light s.me (s.lone i (m.draw s).1) hl, State.outs, hx, hacc, how, if_false, Bool.false_eq_true]

/-- A bundle of one op that has issued and waits is held for a cycle after what its wait does. -/
theorem issueOne_waits {s : State} {i : Instr} {m : Sem} (h : Instr.plain i) (hc : s.cur.core < nCores)
    (hj : s.judge (s.lay (fun _ => m) (s.single i)) none = .stall (.op 0)) :
    issueOne m i s = .next (m.onStall s (s.lone i (m.draw s).1)).waitCycle := by
  unfold issueOne
  rw [if_neg (Nat.not_le.mpr hc)]
  unfold State.issue State.issueLaid
  rw [show (s.single i).long = none from rfl, hj, lay_lone s i m h]
  rfl

/-! ### Handler mode, and what an op reads once its retirement has begun -/

/-- Outside handler mode no op is forbidden (R128). -/
theorem hmTrap_none {s : State} (hm : s.me.tr.hm = false) (a : At) : s.hmTrap a = none := by
  unfold State.hmTrap; rw [hm]; rfl

theorem nxOldest_begin {c : Ctx} (w : Word) (h : ∀ e ∈ c.nx, e.due = 0 ∨ 2 < e.due) : (c.begin w).nxOldest = c.nxOldest := by
  unfold Ctx.begin Ctx.nxOldest
  cases hnx : c.nx with
  | nil => cases c.tr.hm <;> simp [Ctx.countNx, hnx]
  | cons e l =>
    have he := h e (by rw [hnx]; exact List.mem_cons_self ..)
    cases c.tr.hm with
    | true => simp [hnx]
    | false =>
      rcases he with h0 | h2
      · simp [Ctx.countNx, hnx, h0]
      · have hne : e.due ≠ 0 := by omega
        simp [Ctx.countNx, hnx, hne]

/-- The scalar operands of an op that may issue read the same once its retirement has begun. -/
theorem rdS_opened {s : State} {i : Instr} (hr : s.Ready i) (m : Sem) (t : Tag) (o : Operand) :
    (s.opened m).rdS t o = s.rdS t o := by
  obtain ⟨-, -, -, -, -, -, -, hnx, -⟩ := hr
  have hq := s.me.begin_q (m.draw s).2
  have hf := s.me.begin_files (m.draw s).2
  have hid : (s.opened m).myId = s.myId := rfl
  unfold State.rdS
  rw [hid, show (s.opened m).me = s.me.begin (m.draw s).2 from opened_ctx s m]
  cases o <;> simp [Ctx.readS, Ctx.sqAt, Ctx.pred, nxOldest_begin _ hnx]

end Sys2Proof.Machine
end

