-- ==== Sys2Proof/Proofs/Branches.lean ====
section
/-! PROOFS. The branches, and the trap of a target that breaks R7 (R7, R120 to R122). -/

namespace Sys2Proof.Machine

open Sys2Proof.Claim

theorem legalTarget_iff (x : Int) : legalTarget x ↔ badTarget x = false := by
  simp only [badTarget, Bool.or_eq_false_iff, decide_eq_false_iff_not, bne_eq_false_iff_eq]
  omega

/-- A branch of the list is a branch of the model by its condition, target and push. -/
structure BranchOp (b : Branch) : Prop where
  exec : ∀ f, ∃ cond target push, (∀ s, exec (b.ins f) s = issueOne (semBranch f (b.ins f) cond target push) (b.ins f) s) ∧
    ∀ (s : State) (r : Word), cond s = b.cond f s ∧ target s (s.lone (b.ins f) r) = b.target f s ∧
      push s (s.lone (b.ins f) r) = b.push f s := by exact fun f => ⟨_, _, _, fun _ => rfl, fun _ _ => ⟨rfl, rfl, rfl⟩⟩
  single : ∀ f, Instr.Single (b.ins f) := by exact fun _ => ⟨rfl, ⟨rfl, rfl, rfl, rfl⟩, rfl⟩

theorem branchOp_of_mem : ∀ b ∈ branches, BranchOp b := by
  simp only [branches, List.forall_mem_cons]
  exact ⟨{}, {}, {}, {}, {}, {}, {}, by simp⟩

/-- What a branch that may push a value does to the queues. -/
def Ctx.pushOpt (v : Option SVal) (c : Ctx) : Ctx := v.elim c c.pushS

theorem Ctx.pushOpt_files (v : Option SVal) (c : Ctx) : (c.pushOpt v).files = c.files := by cases v <;> simp [Ctx.pushOpt]
theorem Ctx.pushOpt_csr (v : Option SVal) (c : Ctx) : (c.pushOpt v).csr = c.csr := by cases v <;> simp [Ctx.pushOpt]

/-- What a push leaves in the queues. -/
def PushedOpt (s t : State) (v : Option SVal) : Prop := (∀ x, v = some x → ScalarPushed s t x) ∧ (v = none → t.me.q = s.me.q)

theorem pushedOpt_of {s t : State} {v : Option SVal} {w : Word} (h : t.me.q = ((s.me.begin w).pushOpt v).q) :
    PushedOpt s t v := by
  cases v with
  | none => exact ⟨fun _ hx => (by cases hx), fun _ => h.trans (s.me.begin_q w)⟩
  | some x =>
    refine ⟨fun y hy => ?_, fun hx => (by cases hx)⟩
    cases hy
    exact scalarPushed_of s t (s.me.begin w) x (by simp) (by simp) h

theorem pushS_asAt {c d : Ctx} (v : SVal) (h : c.AsAt d) : c.AsAt (d.pushS v) := by
  obtain ⟨hret, hcy, hfp, hst⟩ := h
  refine ⟨?_, by simpa using hcy, by simpa using hfp, by simpa using hst⟩
  unfold Ctx.Retired at hret ⊢
  unfold Ctx.pushS
  rw [hret]
  split <;> rfl

theorem pushOpt_asAt {c d : Ctx} (v : Option SVal) (h : c.AsAt d) : c.AsAt (d.pushOpt v) := by
  cases v with
  | none => exact h
  | some v => exact pushS_asAt v h

section
variable {f : BrF} {i : Instr} {cond : State → Bool} {target : State → At → Int} {push : State → At → Option SVal}

/-- What a branch does to the state it opens. -/
theorem semBranch_eff (s : State) (a : At) (l : State) (k : Ctx → Ctx) :
    ((semBranch f i cond target push).run s a).eff { s := l.updMe k } =
      { s := (l.updMe k).updMe (Ctx.pushOpt (push s a)),
        next := if s.active f.g && cond s then some (BitVec.ofInt 16 (target s a)) else none } := by
  have hid : (l.updMe k).updMe (Ctx.pushOpt none) = l.updMe k := by rw [State.updMe_updMe]; rfl
  simp only [semBranch]
  cases push s a <;> cases s.active f.g && cond s <;> simp [Live.jump, Live.me, hid] <;> rfl

/-- A branch whose target, where it is taken, keeps R7. -/
theorem semBranch_done {s : State} (hi : Instr.Single i) (hr : s.Ready i) {x : Int} {v : Option SVal} {taken : Bool}
    (htaken : (s.active f.g && cond s) = taken) (htarget : ∀ r, target s (s.lone i r) = x) (hpush : ∀ r, push s (s.lone i r) = v)
    (hlegal : taken = true → legalTarget x) :
    ∃ t, issueOne (semBranch f i cond target push) i s = .next t ∧
      StepsTo s s.me t (if taken then BitVec.ofInt 16 x else s.me.pc + 8#16) 0 ∧
      t.me.files = s.me.files ∧ t.me.csr.rngseed = s.me.csr.rngseed ∧ PushedOpt s t v := by
  have htrap : targetTrap taken x = none := by
    unfold targetTrap
    cases taken with
    | false => rfl
    | true => rw [(legalTarget_iff x).mp (hlegal rfl)]; rfl
  have hp := passes_light s i (semBranch f i cond target push) _ hi.light rfl rfl (fun _ => ⟨rfl, rfl⟩) rfl rfl
    (by simp only [semBranch, htaken, htarget, htrap]) rfl (Or.inr (flagTrap_nil _))
  obtain ⟨t, ht, hst, hq, hf, hrng, -⟩ := issueOne_stepsTo s i _ _ _ _ s.me (plain_of hi.plain) hi.light hr hp
    (semBranch_eff s _ s _) (pushOpt_asAt _ (Ctx.begin_asAt _ _))
  rw [htaken, htarget] at hst
  rw [hpush] at hq hf hrng
  rw [Ctx.pushOpt_files, Ctx.begin_files] at hf
  rw [Ctx.pushOpt_csr, Ctx.begin_csr] at hrng
  refine ⟨t, ht, ?_, hf, hrng, pushedOpt_of hq⟩
  cases taken with
  | false => rw [hi.words] at hst; exact hst
  | true => exact hst

/-- A branch that is taken to a target that breaks R7. -/
theorem semBranch_traps {s : State} (hi : Instr.Single i) (hr : s.Ready i) (hh : Handles s) {x : Int}
    (htaken : (s.active f.g && cond s) = true) (htarget : ∀ r, target s (s.lone i r) = x) (hbad : ¬ legalTarget x) :
    ∃ t, issueOne (semBranch f i cond target push) i s = .next t ∧ Entered s t 0x20 0 (BitVec.ofInt 64 x) 0 1 := by
  have hb : badTarget x = true := by rw [← Bool.not_eq_false, ← legalTarget_iff]; exact hbad
  have hj := judge_own (m := semBranch f i cond target push) (x := ⟨0x20, wdi x, 0⟩) (plain_of hi.plain) hi.light hr rfl rfl
    (fun _ => rfl) rfl (by simp only [semBranch, htaken, htarget, targetTrap, hb, Bool.and_self, if_true])
  rw [← hi.words]
  exact issueOne_traps s i _ _ (State.canTrap_of_ready hr hh) hj rfl (by simp)
end

theorem branches_hold : Branches := by
  intro b hb f s hr hlegal
  obtain ⟨hexec, hi⟩ := branchOp_of_mem b hb
  obtain ⟨cond, target, push, hexec, heq⟩ := hexec f
  have hv := fun r => (heq s r).2.2
  obtain ⟨t, ht, hst, hf, hrng, hpush, hnone⟩ := semBranch_done (f := f) (push := push) (hi f) hr
    (congrArg (s.active f.g && ·) (heq s 0).1) (fun r => (heq s r).2.1) hv hlegal
  refine ⟨t, (hexec s).trans ht, hst, hf, hrng, ?_⟩
  cases h : b.push f s with
  | none => exact hnone h
  | some v => exact hpush v h

theorem branchTargetTraps : BranchTargetTraps := by
  intro b hb f s hr hh htaken hbad
  obtain ⟨hexec, hi⟩ := branchOp_of_mem b hb
  obtain ⟨cond, target, push, hexec, heq⟩ := hexec f
  rw [hexec]
  exact semBranch_traps (hi f) hr hh (by rw [(heq s 0).1]; exact htaken) (fun r => (heq s r).2.1) hbad

/-- Settles O16: a branch pushes what it has to and goes on at its target, or the check of its target is the first of group 2. -/
theorem controlFlow : Obligations.ControlFlow := ⟨branches_hold, branchTargetTraps⟩

end Sys2Proof.Machine
end

