-- ==== Sys2Proof/Proofs/Loop.lean ====
section
/-! PROOFS. LOOP: the count, the bases and the stage predicates (R123). -/

namespace Sys2Proof.Machine

open Sys2Proof.Claim

/-! ### The bases and the stage predicates -/

theorem rotateB_get (s : State) (n : Nat) (r : Fin 8) : (rotateB n s.me.files.b s.me.files.b).get r = stageBase s n r := by
  unfold rotateB stageBase
  by_cases hn : n < 2
  · rw [if_pos hn, if_pos (Or.inl hn)]
  · have hget : ∀ (f : Fin 8 → Word), (Vector.ofFn f).get r = f r := fun f => Vector.getElem_ofFn r.isLt
    rw [if_neg hn, hget]
    by_cases h0 : r.val = 0
    · rw [if_pos h0, if_neg (by omega), if_pos h0]
    · rw [if_neg h0]
      by_cases hr : r.val < n
      · have hpred : Fin.ofNat 8 (r.val - 1) = ⟨r.val - 1, by omega⟩ := Fin.ext (Nat.mod_eq_of_lt (by omega))
        rw [if_pos hr, if_neg (by omega), if_neg h0, hpred]
      · rw [if_neg hr, if_pos (by omega)]

theorem shiftP_succ (n : Nat) (new : PMask) (old c : Ctx) : shiftP (n + 1) new old c =
    (shiftP n new old c).writeP (Fin.ofNat 16 (n + 1)) (if n = 0 then new else old.pred (Fin.ofNat 16 n)) := by
  rw [shiftP, List.range_succ, List.foldl_append]; rfl

/-- Shifting the stage predicates writes predicates only. -/
theorem shiftP_eq (n : Nat) (new : PMask) (old c : Ctx) :
    shiftP n new old c = { c with files := { c.files with p := (shiftP n new old c).files.p } } := by
  induction n with
  | zero => rfl
  | succ n ih =>
    rw [shiftP_succ]
    generalize shiftP n new old c = d at ih
    unfold Ctx.writeP
    rw [ih]
    split <;> rfl

theorem writeP_pred (c : Ctx) (p r : Fin 16) (x : PMask) (hp : p ≠ 0) : (c.writeP p x).pred r = if r = p then x else c.pred r := by
  unfold Ctx.writeP Ctx.pred
  rw [if_neg hp]
  by_cases hr : r = 0
  · rw [if_pos hr, if_neg (by rintro rfl; exact hp hr), if_pos hr]
  · rw [if_neg hr, if_neg hr]; exact get_set ..

theorem shiftP_pred (s : State) (n : Nat) (hn : n < 16) (new : PMask) (c : Ctx) (hc : ∀ r, c.pred r = s.me.pred r) (r : Fin 16) :
    (shiftP n new s.me c).pred r = stagePred s n new r := by
  induction n with
  | zero =>
    rw [stagePred, if_pos (by omega)]; exact hc r
  | succ n ih =>
    have hval : (Fin.ofNat 16 (n + 1)).val = n + 1 := Nat.mod_eq_of_lt hn
    have hne : Fin.ofNat 16 (n + 1) ≠ 0 := fun h => by rw [h] at hval; cases hval
    rw [shiftP_succ, writeP_pred _ _ _ _ hne, ih (by omega), stagePred, stagePred]
    by_cases hr : r = Fin.ofNat 16 (n + 1)
    · have hrv : r.val = n + 1 := hr ▸ hval
      have hpred : Fin.ofNat 16 n = ⟨r.val - 1, by omega⟩ :=
        Fin.ext ((Nat.mod_eq_of_lt (by omega : n < 16)).trans (show n = r.val - 1 by omega))
      have hkept : ¬(r.val = 0 ∨ n + 1 < r.val) := by omega
      have hfirst : r.val = 1 ↔ n = 0 := by omega
      rw [if_pos hr, if_neg hkept, hpred]
      exact if_congr hfirst.symm rfl rfl
    · have hrv : r.val ≠ n + 1 := fun h => hr (Fin.ext (h.trans hval.symm))
      have hkept : r.val = 0 ∨ n < r.val ↔ r.val = 0 ∨ n + 1 < r.val := by omega
      rw [if_neg hr]
      exact if_congr hkept rfl rfl

/-! ### LOOP (R123) -/

/-- The count of an active LOOP. -/
def loopCount (f : BrF) (s : State) : Word := s.val f.a - 1

/-- The mask that enters the stages. -/
def loopMask (f : BrF) (s : State) : PMask := if 0 < (loopCount f s).toInt then BitVec.allOnes 256 else 0

/-- Whether a LOOP branches: it is active, and the count or a stage is left. -/
def loopTakes (f : BrF) (s : State) : Bool :=
  s.active f.g && decide (0 < (loopCount f s).toInt + (max f.shift.toNat 1 : Nat) - 1)

theorem loopTakes_iff (f : BrF) (s : State) : loopTakes f s = true ↔
    s.active f.g = true ∧ 0 < (s.val f.a - 1).toInt + (max f.shift.toNat 1 : Nat) - 1 := by
  rw [loopTakes, Bool.and_eq_true, decide_eq_true_eq]; rfl

/-- What an active LOOP changes in its context: the push of the count, and registers. -/
theorem loopCtx_eq (f : BrF) (s : State) (x : Ctx) : loopCtx f s.me (loopCount f s) x =
    { x.pushS { v := loopCount f s, tag := .int64 } with files := (loopCtx f s.me (loopCount f s) x).files } := by
  unfold loopCtx
  dsimp only
  rw [shiftP_eq]
  unfold Ctx.pushS
  rw [Ctx.writeS_tr]
  cases loopReg f.a <;> simp only [Ctx.writeS] <;> split <;> rfl

theorem loopReg_eq {f : BrF} (h : WellFormed (.loop f)) : (∃ r, f.a = .near r ∧ loopReg f.a = .near r) ∨
    ∃ r, f.a = .far r ∧ loopReg f.a = .far r := by
  have hok : (f.rot.toNat < 9 && (match f.a with | .near _ | .far _ => true | _ => false)) = true := fieldsOk_of_wf h rfl
  cases ha : f.a <;> simp [ha] at hok
  · exact .inl ⟨_, rfl, rfl⟩
  · exact .inr ⟨_, rfl, rfl⟩

/-- The registers after an active LOOP: the count in its register, the bases rotated. -/
theorem loopCtx_files (f : BrF) (s : State) (x : Ctx) : (loopCtx f s.me (loopCount f s) x).files =
    { (x.writeS (loopReg f.a) { v := loopCount f s, tag := .int64 }).files with
      b := rotateB f.rot.toNat s.me.files.b x.files.b, p := (loopCtx f s.me (loopCount f s) x).files.p } := by
  unfold loopCtx
  dsimp only
  rw [shiftP_eq]
  simp only [Ctx.pushS_files]
  cases loopReg f.a <;> rfl

theorem loopCtx_pred (f : BrF) (s : State) {x : Ctx} (hx : x.files = s.me.files) (r : Fin 16) :
    (loopCtx f s.me (loopCount f s) x).pred r = stagePred s f.shift.toNat (loopMask f s) r := by
  refine shiftP_pred s _ f.shift.isLt _ _ (fun r => ?_) r
  unfold Ctx.pred
  simp only [Ctx.pushS_files]
  cases loopReg f.a <;> simp only [Ctx.writeS, hx]

/-- What a LOOP changes in its context. -/
def loopChange (f : BrF) (s : State) : Ctx → Ctx :=
  if s.active f.g then loopCtx f s.me (loopCount f s) else fun x => x.pushS (offA s f.a)

theorem semLoop_eff (f : BrF) (s : State) (r : Word) (l : State) :
    ((semLoop f).run s (s.lone (.loop f) r)).eff { s := l } =
      { s := l.updMe (loopChange f s), next := if loopTakes f s then some (BitVec.ofInt 16 (direct f s)) else none } := by
  show (if s.active f.g then (Live.me (loopCtx f s.me (loopCount f s)) { s := l }).jump (loopTakes f s) (direct f s)
    else Live.me (fun x => x.pushS (offA s f.a)) { s := l }) = _
  unfold loopChange loopTakes Live.jump
  cases s.active f.g with
  | false => rfl
  | true => cases decide (0 < (loopCount f s).toInt + (max f.shift.toNat 1 : Nat) - 1) <;> rfl

theorem semLoop_passes {f : BrF} {s : State} (h : loopTakes f s = true → legalTarget (direct f s)) :
    s.Passes (.loop f) (semLoop f) ((semLoop f).run s (s.lone (.loop f) ((semLoop f).draw s).1)) := by
  refine passes_light s _ _ _ ⟨rfl, rfl, rfl, rfl⟩ rfl rfl (fun _ => ⟨rfl, rfl⟩) rfl rfl ?_ rfl (Or.inr (flagTrap_nil _))
  show targetTrap (loopTakes f s) (direct f s) = none
  unfold targetTrap
  cases ht : loopTakes f s with
  | false => rfl
  | true => rw [(legalTarget_iff _).mp (h ht)]; rfl

theorem loopChange_asAt (f : BrF) (s : State) (w : Word) : s.me.AsAt (loopChange f s (s.me.begin w)) := by
  unfold loopChange
  cases s.active f.g with
  | false => exact pushS_asAt _ (Ctx.begin_asAt _ _)
  | true =>
    obtain ⟨hret, hcy, hfp, hst⟩ := pushS_asAt { v := loopCount f s, tag := .int64 } (Ctx.begin_asAt s.me w)
    simp only [if_true]
    rw [loopCtx_eq]
    refine ⟨?_, hcy, hfp, hst⟩
    unfold Ctx.Retired at hret ⊢
    rw [hret]

theorem loopChange_seed (f : BrF) (s : State) (w : Word) : (loopChange f s (s.me.begin w)).csr.rngseed = w := by
  unfold loopChange
  cases s.active f.g with
  | false => simp
  | true => simp only [if_true]; rw [loopCtx_eq]; simp

/-- The registers an active LOOP writes. -/
theorem loop_writes {f : BrF} {s t : State} {x : Ctx} (hw : WellFormed (.loop f)) (hx : x.files = s.me.files)
    (hf : t.me.files = (loopCtx f s.me (loopCount f s) x).files) :
    let v : SVal := { v := loopCount f s, tag := .int64 }
    (∀ r, t.me.files.s.get r = if f.a = .near r then v else s.me.files.s.get r) ∧
    (∀ r, t.me.files.g.get r = if f.a = .far r then v else s.me.files.g.get r) ∧
    t.me.files.v = s.me.files.v ∧ t.me.files.w = s.me.files.w ∧ t.me.files.m = s.me.files.m ∧
    (∀ r, t.me.files.b.get r = stageBase s f.rot.toNat r) ∧
    (∀ r, t.me.pred r = stagePred s f.shift.toNat (loopMask f s) r) := by
  have hp : ∀ r, t.me.pred r = stagePred s f.shift.toNat (loopMask f s) r := fun r => by
    rw [← loopCtx_pred f s hx r]; unfold Ctx.pred; rw [hf]
  rw [loopCtx_files] at hf
  generalize (loopCtx f s.me (loopCount f s) x).files.p = p at hf
  intro v
  have hb : ∀ r, t.me.files.b.get r = stageBase s f.rot.toNat r := fun r => by rw [hf, ← rotateB_get, ← hx]
  obtain ⟨r, ha, hreg⟩ | ⟨r, ha, hreg⟩ := loopReg_eq hw
  · rw [hreg] at hf
    exact ⟨fun q => by rw [hf, ha]; simp [Ctx.writeS, get_set, hx, eq_comm, v], fun q => by rw [hf, ha]; simp [Ctx.writeS, hx],
      by rw [hf, ← hx]; rfl, by rw [hf, ← hx]; rfl, by rw [hf, ← hx]; rfl, hb, hp⟩
  · rw [hreg] at hf
    exact ⟨fun q => by rw [hf, ha]; simp [Ctx.writeS, hx], fun q => by rw [hf, ha]; simp [Ctx.writeS, get_set, hx, eq_comm, v],
      by rw [hf, ← hx]; rfl, by rw [hf, ← hx]; rfl, by rw [hf, ← hx]; rfl, hb, hp⟩

/-- Settles O17: a LOOP changes its context by one push and its registers, and goes on where the count and the stages say. -/
theorem loops : Obligations.Loops := by
  intro f s hr c v n taken hlegal
  have hiff : taken ↔ loopTakes f s = true := (loopTakes_iff f s).symm
  obtain ⟨t, ht, hst, hq, hf, hrng, -⟩ := issueOne_stepsTo s (.loop f) (semLoop f) _ _ _ s.me (plain_of rfl)
    ⟨rfl, rfl, rfl, rfl⟩ hr (semLoop_passes (fun h => hlegal (hiff.mpr h))) (semLoop_eff f s _ _) (loopChange_asAt f s _)
  refine ⟨t, ht, fun h => ?_, fun h => ?_, hrng.trans (loopChange_seed f s _), ?_⟩
  · rw [if_pos (hiff.mp h)] at hst; exact hst
  · rw [if_neg (mt hiff.mpr h)] at hst; exact hst
  · unfold loopChange at hq hf
    cases ha : s.active f.g with
    | true =>
      simp only [ha, if_true] at hq hf ⊢
      rw [loopCtx_eq] at hq
      exact ⟨scalarPushed_of s t (s.me.begin _) v (by simp) (by simp) hq,
        loop_writes (wf_of_ready hr) (s.me.begin_files _) hf⟩
    | false =>
      simp only [ha, Bool.false_eq_true, if_false] at hq hf ⊢
      exact ⟨scalarPushed_of s t (s.me.begin _) _ (by simp) (by simp) hq, by simpa using hf⟩

end Sys2Proof.Machine
end

