-- ==== Sys2Proof/Proofs/ContextOps.lean ====
section
/-! PROOFS. END, YIELD, WAITEV and IDLE (R124 to R127). -/

namespace Sys2Proof.Machine

open Sys2Proof.Claim

/-! ### END (R124, R204, R301) -/

theorem bankEnding_updMyCore (s : State) (n : Nat) (f : CoreState → CoreState)
    (hf : ∀ (x : CoreState) k g, f (x.updBank k g) = (f x).updBank k g) :
    bankEnding (s.updMyCore f) n = (bankEnding s n).updMyCore f := by
  unfold bankEnding
  rw [State.updMyCore_cur]
  split
  · rfl
  · unfold State.updMyCore State.updCore
    simp only [State.setCore_cur, State.core_setCore, State.setCore_setCore, hf]

theorem bankEnding_updCluster (s : State) (n k : Nat) (f : ClusterState → ClusterState) :
    bankEnding (s.updCluster k f) n = (bankEnding s n).updCluster k f := by
  unfold bankEnding
  rw [State.updCluster_cur]
  split <;> rfl

theorem bankEnding_same {s t : State} (n : Nat) (h : s.SameElsewhere t) : (bankEnding s n).SameElsewhere (bankEnding t n) := by
  have hcur : t.cur = s.cur := by
    obtain ⟨⟨-, -, -, -, -, -, -, -, -, hcur, -⟩, -⟩ := h
    exact hcur
  unfold bankEnding
  rw [hcur]
  split
  · exact h
  · obtain ⟨⟨h1, h2, h3, h4, h5, h6, h7, h8, h9, -, h10, h11, hcore, hcl⟩, hid, hctx, hmine⟩ := h
    refine ⟨⟨h1, h2, h3, h4, h5, h6, h7, h8, h9, hcur, h10, h11, fun c hc => ?_, hcl⟩, hid, fun k hk => ?_, ?_⟩
    · rw [State.updMyCore_cur] at hc
      rw [State.core_updMyCore_other t _ (by rw [hcur]; exact hc), State.core_updMyCore_other s _ hc, hcore c hc]
    · have ht := State.myCore_updMyCore t (fun x => x.updBank s.cur.ctx (fun b =>
        { b with st := .ending, exit := if b.origin then b.exit else n }))
      have hs := State.myCore_updMyCore s (fun x => x.updBank s.cur.ctx (fun b =>
        { b with st := .ending, exit := if b.origin then b.exit else n }))
      unfold State.myCore at ht hs
      rw [State.updMyCore_cur] at ht hs
      rw [hcur] at ht
      unfold State.ctx
      rw [State.updMyCore_cur, ht, hs]
      exact hctx k hk
    · simp only [State.myCore_updMyCore]
      exact congrArg (fun x : CoreState => x.updBank s.cur.ctx (fun b =>
        { b with st := .ending, exit := if b.origin then b.exit else n })) hmine

theorem beside_bankEnding (n : Nat) : Beside (bankEnding · n) where
  me s := bankEnding_me s n
  issueBuf s := bankEnding_issueBuf s n
  same _ _ h := bankEnding_same n h
  closed s i m o L := by
    simp only [State.closed, ← bankEnding_updMe]
    rw [← bankEnding_updMyCore _ _ _ (fun _ _ _ => rfl), bankEnding_updCluster]

/-- A context that has ended: it fetches no more, and its standing set is empty (R124, R204). -/
def Ctx.ended (c : Ctx) : Ctx := { c with run := .ended, standing := [] }

theorem endCtx_eq (s : State) : s.endCtx = bankEnding (s.updMe Ctx.ended) 0xFE := by
  unfold State.endCtx bankEnding isEddy
  dsimp only
  rw [State.updMe_cur]
  by_cases h : s.cur.ctx % 4 = 0
  · simp [h]; rfl
  · simp [h]; rfl

theorem ended_asAt (s : State) (w : Word) : s.me.ended.AsAt (Ctx.ended (s.me.begin w)) := by
  refine ⟨?_, by simp [Ctx.ended], by simp [Ctx.ended], rfl⟩
  unfold Ctx.Retired Ctx.ended Ctx.begin
  split <;> rfl

theorem light_endOp (f : BrF) : Instr.light (.endOp f) := ⟨rfl, rfl, rfl, rfl⟩

theorem end_passes {f : BrF} {s : State} (hm : s.me.tr.hm = false) :
    s.Passes (.endOp f) (semEnd f) ((semEnd f).out s (.endOp f)) :=
  passes_light s _ _ _ (light_endOp f) rfl rfl (fun _ => ⟨rfl, rfl⟩) rfl rfl (hmTrap_none hm _) rfl (.inr (flagTrap_nil _))

theorem end_on {f : BrF} {s : State} (hr : s.Ready (.endOp f)) (hm : s.me.tr.hm = false) (ha : s.active f.g = true) :
    ∃ t, exec (.endOp f) s = .next t ∧ RegsKept s.me t ∧ StepsAs (bankEnding s 0xFE) s.me.ended t (.endOp f) 0 := by
  have ho : ((semEnd f).out s (.endOp f)).eff { s := s.opened (semEnd f) } =
      { s := bankEnding ((s.opened (semEnd f)).updMe Ctx.ended) 0xFE } := by
    rw [← endCtx_eq]
    exact congrArg (Live.mk · none) (if_pos ha)
  obtain ⟨t, ht, hkept, hst⟩ := issueOne_beside s (.endOp f) (semEnd f) _ Ctx.ended (beside_bankEnding 0xFE) (plain_of rfl) hr
    (end_passes hm) ho (P := fun t => RegsKept s.me t ∧ StepsAs s s.me.ended t (.endOp f) 0) (fun m' o' hp hg hfl hd => by
      obtain ⟨t, ht, hkept, hst, -⟩ := issueOne_kept s (.endOp f) m' o' Ctx.ended s.me.ended (plain_of rfl)
        (light_endOp f) hr hp (hg _ rfl) (ended_asAt s _) rfl (congrArg Prod.snd hd) (fun _ => ⟨rfl, rfl, rfl⟩)
      rw [hfl] at hst
      exact ⟨t, ht, hkept, hst⟩)
  unfold RegsKept StepsAs StepsTo at *
  rw [← bankEnding_me t 0xFE] at hkept hst
  exact ⟨_, ht, hkept, bankEnding_same 0xFE hst.1, hst.2⟩

theorem end_off {f : BrF} {s : State} (hr : s.Ready (.endOp f)) (hm : s.me.tr.hm = false) (ha : s.active f.g = false) :
    ∃ t, exec (.endOp f) s = .next t ∧ RegsKept s.me t ∧ Steps s t (.endOp f) 0 := by
  have ho : ((semEnd f).out s (.endOp f)).eff { s := s.opened (semEnd f) } = { s := (s.opened (semEnd f)).updMe id } := by
    rw [opened_updMe_id]
    exact congrArg (Live.mk · none) (if_neg (by rw [ha]; decide))
  obtain ⟨t, ht, hkept, hst, -⟩ := issueOne_kept s (.endOp f) (semEnd f) _ id s.me (plain_of rfl) (light_endOp f) hr
    (end_passes hm) ho (Ctx.begin_asAt _ _) rfl rfl (fun _ => ⟨rfl, rfl, rfl⟩)
  exact ⟨t, ht, hkept, hst⟩

/-! ### YIELD (R125) -/

/-- What a YIELD does to its context. -/
def yielding (f : BrF) (s : State) (c : Ctx) : Ctx :=
  if s.active f.g then { c with waits := { c.waits with yield := yieldCycles (s.val f.a) } } else c

theorem yielding_asAt (f : BrF) (s : State) (w : Word) : s.me.AsAt (yielding f s (s.me.begin w)) := by
  obtain ⟨hret, hcy, hfp, hst⟩ := Ctx.begin_asAt s.me w
  unfold yielding
  split
  · refine ⟨?_, hcy, hfp, hst⟩
    unfold Ctx.Retired at hret ⊢
    rw [hret]
  · exact ⟨hret, hcy, hfp, hst⟩

theorem yield_done {f : BrF} {s : State} (hr : s.Ready (.yield f)) (hm : s.me.tr.hm = false) :
    ∃ t, exec (.yield f) s = .next t ∧ Steps s t (.yield f) 0 ∧ RegsKept s.me t ∧
      t.me.waits.yield = if s.active f.g then max 1 (min (s.val f.a).toNat 4096) else s.me.waits.yield := by
  have hl : Instr.light (.yield f) := ⟨rfl, rfl, rfl, rfl⟩
  have hp : s.Passes (.yield f) (semYield f) ((semYield f).out s (.yield f)) :=
    passes_light s _ _ _ hl rfl rfl (fun _ => ⟨rfl, rfl⟩) rfl rfl (hmTrap_none hm _) rfl (.inr (flagTrap_nil _))
  obtain ⟨t, ht, hkept, hst, hw⟩ := issueOne_kept s (.yield f) (semYield f) _ (yielding f s) s.me (plain_of rfl) hl hr hp rfl
    (yielding_asAt f s _) rfl rfl (fun _ => by unfold yielding; split <;> exact ⟨rfl, rfl, rfl⟩)
  refine ⟨t, ht, hst, hkept, ?_⟩
  rw [hw]
  unfold yielding
  split
  · rfl
  · simp

theorem endAndYield : EndAndYield := by
  refine ⟨fun f s hr hm => ?_, fun f s hr hm => yield_done hr hm⟩
  cases ha : s.active f.g with
  | true => exact end_on hr hm ha
  | false => exact end_off hr hm ha

/-! ### IDLE (R127) -/

/-- What an IDLE that retires does to its context: it clears the wake it did not wait for. -/
def idled (f : SysF) (s : State) (c : Ctx) : Ctx :=
  if s.active f.g ∧ s.me.waits.idleWoken = false then { c with tr := { c.tr with wake := false } } else c

theorem idled_asAt (f : SysF) (s : State) (w : Word) : (idled f s s.me).AsAt (idled f s (s.me.begin w)) := by
  obtain ⟨hret, hcy, hfp, hst⟩ := Ctx.begin_asAt s.me w
  unfold idled
  split
  · refine ⟨?_, hcy, hfp, hst⟩
    unfold Ctx.Retired at hret ⊢
    rw [hret]
  · exact ⟨hret, hcy, hfp, hst⟩

theorem light_idle (f : SysF) : Instr.light (.idle f) := ⟨rfl, rfl, rfl, rfl⟩

theorem idle_retires {f : SysF} {s : State} (hr : s.Ready (.idle f)) (hm : s.me.tr.hm = false)
    (hgo : s.active f.g = false ∨ s.me.tr.wake = true ∨ s.me.waits.idleWoken = true) :
    ∃ t, exec (.idle f) s = .next t ∧ RegsKept s.me t ∧ StepsAs s (idled f s s.me) t (.idle f) 0 := by
  have hwaits : (s.active f.g && !s.me.tr.wake && !s.me.waits.idleWoken) = false := by
    rcases hgo with h | h | h <;> simp [h]
  have hp : s.Passes (.idle f) (semIdle f) ((semIdle f).out s (.idle f)) :=
    passes_light s _ _ _ (light_idle f) rfl rfl (fun _ => ⟨rfl, hwaits⟩) rfl rfl (hmTrap_none hm _) rfl (.inr (flagTrap_nil _))
  have heff : ((semIdle f).out s (.idle f)).eff = Live.me (idled f s) := by
    refine congrArg Live.me (funext fun c => ?_)
    unfold idled
    cases s.active f.g <;> cases s.me.waits.idleWoken <;> rfl
  obtain ⟨t, ht, hkept, hst, -⟩ := issueOne_kept s (.idle f) (semIdle f) _ (idled f s) (idled f s s.me) (plain_of rfl)
    (light_idle f) hr hp (by rw [heff]; rfl) (idled_asAt f s _) (by unfold idled; split <;> rfl) rfl
    (fun _ => by unfold idled; split <;> exact ⟨rfl, rfl, rfl⟩)
  exact ⟨t, ht, hkept, hst⟩

theorem idle_waits {f : SysF} {s : State} (hr : s.Ready (.idle f)) (hm : s.me.tr.hm = false) (ha : s.active f.g = true)
    (hwake : s.me.tr.wake = false) (hwoken : s.me.waits.idleWoken = false) :
    ∃ t, exec (.idle f) s = .next t ∧ s.SameElsewhere t ∧ RegsKept s.me t ∧ t.me.pc = s.me.pc ∧ t.me.waits.idle = true := by
  have hj := judge_opWaits (m := semIdle f) (plain_of rfl) (light_idle f) hr rfl rfl (fun _ => rfl) rfl (hmTrap_none hm _) rfl rfl
    (show (s.active f.g && !s.me.tr.wake && !s.me.waits.idleWoken) = true by rw [ha, hwake, hwoken]; rfl)
  refine ⟨_, issueOne_waits (plain_of rfl) hr.1 hj, ?_⟩
  unfold State.waitCycle State.stalled
  simp only [semIdle, State.updMe_updMe]
  refine ⟨sameElsewhere_updMe s _, ?_⟩
  unfold RegsKept
  rw [State.me_updMe]
  exact ⟨⟨rfl, rfl, Ctx.tick_rngseed _ 0⟩, rfl, rfl⟩

/-! ### WAITEV (R126) -/

theorem waitevAcc_eq {f : SysF} {s : State} (hal : (s.val f.a).toNat % 8 = 0) (hin : (s.val f.a).toNat < 0x80000) :
    waitevAcc f s = waitAcc f s := by
  have hmixed : (decide ((s.val f.a).toNat % 8 ≠ 0) || decide (spadSize ≤ (s.val f.a).toNat)) = false := by
    rw [Bool.or_eq_false_iff, decide_eq_false_iff_not, decide_eq_false_iff_not]
    exact ⟨not_not.mpr hal, Nat.not_le.mpr hin⟩
  unfold waitevAcc waitAcc
  dsimp only
  rw [hmixed]

section
variable {f : SysF} {s : State} (hr : s.Ready (.waitev f)) (hm : s.me.tr.hm = false)
include hr hm

theorem waitev_done (ha : s.active f.g = true) (hacc : AccPasses s (waitAcc f s)) (hal : (s.val f.a).toNat % 8 = 0)
    (hin : (s.val f.a).toNat < 0x80000)
    (hgo : waitWord f s ≠ s.val f.b ∨ (f.imm ≠ 0 ∧ 64 * f.imm.toNat ≤ waited s)) :
    ∃ t, exec (.waitev f) s = .next t ∧
      ScalarDone (accessed s true (waitAcc f s)) t (.waitev f) f.w f.d
        { v := if waitWord f s = s.val f.b then 1 else 0, tag := .int64 } 0 := by
  have hl : Instr.light (.waitev f) := ⟨rfl, rfl, rfl, rfl⟩
  have hF := access_accessed true (waitAcc f s)
  have hsame := waitevAcc_eq hal hin
  have hwaits : (s.active f.g && waitevWord f s == s.val f.b && !waitevPast f s.me) = false := by
    rw [waitevWord_eq_waitWord]
    rcases hgo with h | ⟨himm, hb⟩
    · rw [beq_false_of_ne h]; simp
    · have hpast : waitevPast f s.me = true := Bool.and_eq_true_iff.mpr ⟨bne_iff_ne.mpr himm, decide_eq_true hb⟩
      rw [hpast]; simp
  have hp : s.Passes (.waitev f) (semWaitev f) ((semWaitev f).out s (.waitev f)) :=
    passes_access hl rfl rfl (fun _ => ⟨rfl, hwaits⟩) rfl rfl (hmTrap_none hm _) rfl ((if_pos ha).trans (by rw [hsame]))
      (show 8 ≤ 32 by decide) hacc
  have hopen : waitevAcc f (s.opened (semWaitev f)) = waitAcc f s := by
    rw [← hsame]
    unfold waitevAcc State.val
    rw [rdS_opened hr]
  have ho : ((semWaitev f).out s (.waitev f)).eff { s := s.opened (semWaitev f) } =
      { s := (accessed (s.opened (semWaitev f)) true (waitAcc f s)).updMe (fun c => c.resultS f.w f.d
          { v := if waitWord f s = s.val f.b then 1 else 0, tag := .int64 }) } := by
    rw [accessed_load, ← hopen]
    simp only [semWaitev, Live.st, ha, if_true, waitevWord_eq_waitWord, beq_iff_eq]
    rfl
  have hexec : exec (.waitev f) s = issueOne (semWaitev f) (.waitev f) s := rfl
  rw [hexec, issueOne_access hF (plain_of rfl) hl hr hp rfl rfl rfl ho]
  exact issueOne_scalar _ _ _ _ f.w f.d _ (plain_of rfl) hl ((hF.reaches s).ready hr) (passes_localSem _ hl _ _) (local_me rfl) rfl

theorem waitev_off (ha : s.active f.g = false) :
    ∃ t, exec (.waitev f) s = .next t ∧ ScalarDone s t (.waitev f) f.w f.d (offA s f.a) 0 := by
  have hl : Instr.light (.waitev f) := ⟨rfl, rfl, rfl, rfl⟩
  have hp : s.Passes (.waitev f) (semWaitev f) ((semWaitev f).out s (.waitev f)) :=
    passes_light s _ _ _ hl rfl rfl (fun _ => ⟨rfl, by simp [semWaitev, ha]⟩) rfl rfl (hmTrap_none hm _) (by simp [semWaitev, ha])
      (.inr (flagTrap_nil _))
  exact issueOne_scalar s _ (semWaitev f) _ f.w f.d (offA s f.a) (plain_of rfl) hl hr hp
    (local_me (by simp only [semWaitev, ha, Bool.false_eq_true, if_false]; rfl)) rfl

end

theorem waits_hold : Claim.Waits :=
  ⟨fun _ _ hr hm => ⟨waitev_done hr hm, waitev_off hr hm⟩, fun _ _ hr hm => ⟨idle_retires hr hm, idle_waits hr hm⟩⟩

/-- Settles O18: each op changes its context alone, but for the bank of an END and the access of a WAITEV; an IDLE without a wake
has issued and waits. -/
theorem contextOps : Obligations.ContextOps := ⟨endAndYield, waits_hold⟩

end Sys2Proof.Machine
end

