-- ==== Sys2Proof/Proofs/Regions.lean ====
section
/-! PROOFS. Runs of slots, banks and contexts of a core, changed one after the other (R225, R242, R296). -/

namespace Sys2Proof.Machine

open Sys2Proof.Claim

/-! ### Runs of bytes -/

theorem Mem.slice_wfFrom (m : Mem) (a n : Nat) (h : m.wf = true) : Mem.wfFrom a (m.slice a n) = true :=
  Mem.below_wfFrom _ _ _ (Mem.above_wfFrom _ _ _ h)

theorem Mem.slice_endsBy (m : Mem) (a n : Nat) : Mem.endsBy (a + n) (m.slice a n) := Mem.below_endsBy _ _

theorem Mem.read_slice (m : Mem) {a n x : Nat} (h : m.wf = true) (hlo : a ≤ x) (hhi : x < a + n) :
    (m.slice a n).read x = m.read x := by
  rw [Mem.slice, Mem.read_belowPart _ _ _ _ (Mem.above_wfFrom _ _ _ h) hhi, Mem.read_abovePart _ _ _ hlo]

/-- A memory with a run of its bytes replaced by those of another. -/
theorem Mem.read_replaced (m k : Mem) (a n x : Nat) (hm : m.wf = true) (hk : k.wf = true) :
    (m.below a ++ (k.slice a n ++ m.above (a + n)) : Mem).read x = if a ≤ x ∧ x < a + n then k.read x else m.read x := by
  have habove := Mem.above_wfFrom m (a + n) 0 hm
  rw [Mem.read_append _ _ (Mem.below_endsBy _ _)
      (Mem.wfFrom_append _ _ (Mem.slice_wfFrom k a n hk) (Mem.slice_endsBy k a n) (by omega) habove),
    Mem.read_append _ _ (Mem.slice_endsBy k a n) habove]
  by_cases h1 : x < a
  · rw [if_pos h1, if_neg (show ¬(a ≤ x ∧ x < a + n) by omega)]
    exact Mem.read_belowPart _ _ _ _ hm h1
  · by_cases h2 : x < a + n
    · rw [if_neg h1, if_pos h2, if_pos (show a ≤ x ∧ x < a + n by omega)]
      exact Mem.read_slice _ hk (by omega) h2
    · rw [if_neg h1, if_neg h2, if_neg (show ¬(a ≤ x ∧ x < a + n) by omega)]
      exact Mem.read_abovePart _ _ _ (by omega)

/-! ### Stripes -/

/-- An access wakes a stripe that has power: none is gated by it, and none is turned on (R180, R242). -/
theorem gated_touch (x : CoreState) (off t o : Nat) : (x.touch off t).gated o = x.gated o := by
  unfold CoreState.touch
  cases hp : (x.stripe off).pw
  case gated => rfl
  all_goals
    unfold CoreState.gated CoreState.stripe
    dsimp only
    rw [get_set]
    split
    next h => rw [h]; exact (congrArg (· == Power.gated) hp).symm
    next => rfl

/-- Waking stripes changes nothing but stripes. -/
theorem touch_eq (x : CoreState) (off t : Nat) : x.touch off t = { x with stripes := (x.touch off t).stripes } := by
  unfold CoreState.touch; split <;> rfl

theorem touches_eq (l : List Nat) (f : Nat → Nat) (t : Nat) (x : CoreState) :
    l.foldl (fun x i => x.touch (f i) t) x = { x with stripes := (l.foldl (fun x i => x.touch (f i) t) x).stripes } ∧
      ∀ o, (l.foldl (fun x i => x.touch (f i) t) x).gated o = x.gated o := by
  induction l generalizing x with
  | nil => exact ⟨rfl, fun _ => rfl⟩
  | cons i l ih =>
    obtain ⟨heq, hg⟩ := ih (x.touch (f i) t)
    refine ⟨?_, fun o => (hg o).trans (gated_touch x _ t o)⟩
    have ht := touch_eq x (f i) t
    rw [List.foldl_cons, heq]
    generalize x.touch (f i) t = y at ht ⊢
    rw [ht]

theorem touchSlotRun_eq (x : CoreState) (start count t : Nat) :
    x.touchSlotRun start count t = { x with stripes := (x.touchSlotRun start count t).stripes } :=
  (touches_eq _ (fun i => (start + i) * slotSize) t x).1

theorem gated_touchSlotRun (x : CoreState) (start count t o : Nat) : (x.touchSlotRun start count t).gated o = x.gated o :=
  (touches_eq _ (fun i => (start + i) * slotSize) t x).2 o

/-! ### Tile entries -/

theorem tile_updTile (x : CoreState) {m n : Nat} (hm : m < 128) (hn : n < 128) (f : TileEnt → TileEnt) :
    (x.updTile m f).tile n = if n = m then f (x.tile n) else x.tile n := by
  have hfin : Fin.ofNat 128 n = Fin.ofNat 128 m ↔ n = m := by
    rw [Fin.ext_iff]; simp [Nat.mod_eq_of_lt hm, Nat.mod_eq_of_lt hn]
  unfold CoreState.updTile CoreState.tile
  dsimp only
  rw [get_set]
  by_cases h : n = m
  · subst h; simp
  · rw [if_neg (mt hfin.mp h), if_neg h]

/-- A run of slots changed in turn: nothing but tile entries changes. -/
theorem updTiles_eq {α : Type} (l : List α) (pos : α → Nat) (f : α → TileEnt → TileEnt) (x : CoreState) :
    l.foldl (fun x e => x.updTile (pos e) (f e)) x =
      { x with tiles := (l.foldl (fun x e => x.updTile (pos e) (f e)) x).tiles } := by
  induction l generalizing x with
  | nil => rfl
  | cons e l ih => rw [List.foldl_cons, ih]; rfl

/-- One function of the place applied to the entries of a run of slots. -/
theorem tile_updRun (x : CoreState) (f : Nat → TileEnt → TileEnt) {start n : Nat} (count : Nat) (h : start + count ≤ 128)
    (hn : n < 128) : ((List.range count).foldl (fun x i => x.updTile (start + i) (f i)) x).tile n =
      if InSlots start count n then f (n - start) (x.tile n) else x.tile n := by
  induction count with
  | zero => rw [if_neg (by unfold InSlots; omega)]; rfl
  | succ c ih =>
    rw [List.range_succ, List.foldl_append, List.foldl_cons, List.foldl_nil, tile_updTile _ (by omega) hn, ih (by omega)]
    by_cases hlast : n = start + c
    · rw [if_pos hlast, if_neg (by unfold InSlots; omega), if_pos (by unfold InSlots; omega), hlast, Nat.add_sub_cancel_left]
    · have hin : InSlots start c n ↔ InSlots start (c + 1) n := by unfold InSlots; omega
      rw [if_neg hlast]
      exact if_congr hin rfl rfl

/-- A list of entries written in turn is a run of slots written by place. -/
theorem writeTiles_eq (x : CoreState) (start : Nat) (l : List TileEnt) :
    l.zipIdx.foldl (fun x e => x.updTile (start + e.2) (fun _ => e.1)) x =
      (List.range l.length).foldl (fun x i => x.updTile (start + i) (fun _ => l[i]?.getD {})) x := by
  have hz : l.zipIdx = (List.range l.length).map (fun i => (l[i]?.getD {}, i)) :=
    List.ext_getElem (by simp) (fun i h1 h2 => by simp at h1; simp [h1])
  rw [hz, List.foldl_map]

theorem gated_of_stripes {x y : CoreState} (h : x.stripes = y.stripes) (o : Nat) : x.gated o = y.gated o := by
  unfold CoreState.gated CoreState.stripe; rw [h]

/-! ### Reclaiming a region (R225, R303) -/

/-- What reclaiming a region changes: bytes and their poison, entries, stripes, and which slots commands have lost. -/
theorem reclaim_eq (x : CoreState) (start count t : Nat) : x.reclaim start count t =
    { x with
      spad := x.spad.clear (start * slotSize) (count * slotSize), spadPoison := (x.reclaim start count t).spadPoison,
      tiles := (x.reclaim start count t).tiles, stripes := (x.reclaim start count t).stripes,
      cmds := (x.reclaim start count t).cmds } := by
  unfold CoreState.reclaim
  dsimp only
  rw [updTiles_eq, touchSlotRun_eq]

theorem tile_reclaim (x : CoreState) {start count n : Nat} (t : Nat) (h : start + count ≤ 128) (hn : n < 128) :
    (x.reclaim start count t).tile n = if InSlots start count n then reclaimed (x.tile n) else x.tile n := by
  unfold CoreState.reclaim
  dsimp only
  rw [tile_updRun _ (fun _ => reclaimEnt) count h hn, touchSlotRun_eq]
  rfl

theorem gated_reclaim (x : CoreState) (start count t o : Nat) : (x.reclaim start count t).gated o = x.gated o := by
  rw [← gated_touchSlotRun x start count t o]
  refine gated_of_stripes ?_ o
  unfold CoreState.reclaim
  dsimp only
  rw [updTiles_eq]

theorem read_reclaim (x : CoreState) (start count t o : Nat) (hw : x.spad.wf = true) :
    (x.reclaim start count t).spad.read o = if InBytes start count o then 0 else x.spad.read o := by
  rw [reclaim_eq]
  dsimp only
  rw [Mem.read_clear _ _ _ _ hw]
  refine if_congr ?_ rfl rfl
  unfold InBytes slotSize
  omega

theorem wf_reclaim (x : CoreState) (start count t : Nat) (hw : x.spad.wf = true) : (x.reclaim start count t).spad.wf = true := by
  rw [reclaim_eq]; exact Mem.wf_clear _ _ _ hw

/-! ### Banks and contexts -/

theorem bank_updBank_other (x : CoreState) {j k : Nat} (f : EddyBank → EddyBank) (h : j % 3 ≠ k % 3) :
    (x.updBank k f).bank j = x.bank j := by
  have hne : (Fin.ofNat 3 (k + 2)).val ≠ (Fin.ofNat 3 (j + 2)).val := by simp [Fin.ofNat]; omega
  simp only [CoreState.bank, CoreState.updBank]
  exact Vector.getElem_set_ne _ _ hne

/-- Banks change by a function that applied twice is applied once. -/
theorem bank_updBanks {f : EddyBank → EddyBank} (hf : ∀ b, f (f b) = f b) {ks : List Nat} (hks : ∀ j ∈ ks, j ∈ [1, 2, 3])
    {k : Nat} (hk : k ∈ [1, 2, 3]) (x : CoreState) :
    (ks.foldl (fun x j => x.updBank j f) x).bank k = if k ∈ ks then f (x.bank k) else x.bank k := by
  induction ks generalizing x with
  | nil => rfl
  | cons j ks ih =>
    have hj := hks j (List.mem_cons_self ..)
    rw [List.foldl_cons, ih (fun i hi => hks i (List.mem_cons_of_mem _ hi))]
    by_cases h : k = j
    · subst h
      rw [CoreState.bank_updBank, if_pos (List.mem_cons_self ..), hf, ite_self]
    · have hmod : k % 3 ≠ j % 3 := by
        simp only [List.mem_cons, List.not_mem_nil, or_false] at hk hj
        omega
      rw [bank_updBank_other x f hmod]
      exact if_congr (by simp [h]) rfl rfl

/-- Changing banks changes nothing else. -/
theorem updBanks_eq (f : EddyBank → EddyBank) (ks : List Nat) (x : CoreState) : ks.foldl (fun x j => x.updBank j f) x =
    { x with banks := (ks.foldl (fun x j => x.updBank j f) x).banks } := by
  induction ks generalizing x with
  | nil => rfl
  | cons j ks ih => rw [List.foldl_cons, ih]; rfl

theorem ctx_setCtxs {f : Ctx → Ctx} (hf : ∀ c, f (f c) = f c) {ks : List Nat} (hks : ∀ j ∈ ks, j ∈ [1, 2, 3]) {k : Nat}
    (hk : k ∈ [1, 2, 3]) (x : CoreState) :
    (ks.foldl (fun x j => x.setCtx j (f (x.ctx j))) x).ctx k = if k ∈ ks then f (x.ctx k) else x.ctx k := by
  induction ks generalizing x with
  | nil => rfl
  | cons j ks ih =>
    have hj := hks j (List.mem_cons_self ..)
    rw [List.foldl_cons, ih (fun i hi => hks i (List.mem_cons_of_mem _ hi))]
    by_cases h : k = j
    · subst h
      rw [CoreState.ctx_setCtx, if_pos (List.mem_cons_self ..), hf, ite_self]
    · have hmod : k % 4 ≠ j % 4 := by
        simp only [List.mem_cons, List.not_mem_nil, or_false] at hk hj
        omega
      rw [CoreState.ctx_setCtx_other x _ hmod]
      exact if_congr (by simp [h]) rfl rfl

theorem setCtxs_eq (f : Ctx → Ctx) (ks : List Nat) (x : CoreState) : ks.foldl (fun x j => x.setCtx j (f (x.ctx j))) x =
    { x with ctxs := (ks.foldl (fun x j => x.setCtx j (f (x.ctx j))) x).ctxs } := by
  induction ks generalizing x with
  | nil => rfl
  | cons j ks ih => rw [List.foldl_cons, ih]; rfl

theorem ctx_of_ctxs {x y : CoreState} (h : x.ctxs = y.ctxs) (k : Nat) : x.ctx k = y.ctx k := by unfold CoreState.ctx; rw [h]
theorem bank_of_banks {x y : CoreState} (h : x.banks = y.banks) (k : Nat) : x.bank k = y.bank k := by
  unfold CoreState.bank; rw [h]

theorem mem_lentBanks {x : CoreState} {k : Nat} (hk : k ∈ [1, 2, 3]) : k ∈ x.lentBanks ↔ (x.bank k).lent = true := by
  unfold CoreState.lentBanks
  rw [List.mem_filter, and_iff_right hk]

theorem lentBanks_subset (x : CoreState) : ∀ k ∈ x.lentBanks, k ∈ [1, 2, 3] := fun _ h => List.mem_of_mem_filter h

end Sys2Proof.Machine
end

