-- ==== Sys2Proof/Proofs/Revocations.lean ====
section
/-! PROOFS. Revocations: squash, park, reclaim, copy-out (R129, R302 to R304). -/

namespace Sys2Proof.Machine

open Sys2Proof.Claim

/-! ### The record a revocation event works on -/

theorem updFirst_append {p : Revoke → Bool} (f : Revoke → Option Revoke) {pre : List Revoke} {r : Revoke} (post : List Revoke)
    (hr : p r = true) (hpre : ∀ q ∈ pre, ¬ p q = true) : updFirst p f (pre ++ r :: post) = pre ++ (f r).toList ++ post := by
  induction pre with
  | nil =>
    rw [List.nil_append, updFirst, if_pos hr]
    cases f r <;> rfl
  | cons q pre ih =>
    rw [List.cons_append, updFirst, if_neg (hpre q (List.mem_cons_self ..)), ih (fun x hx => hpre x (List.mem_cons_of_mem _ hx))]
    rfl

/-- The first record that is due is found, and is the one that changes. -/
theorem firstRev_found {s : State} {due : Revoke → Prop} {p : Revoke → Bool} {pre post : List Revoke} {r : Revoke}
    (hp : ∀ q, p q = true ↔ due q) (h : FirstRev s due pre r post) :
    s.myCore.lend.rev.any p = true ∧ s.myCore.lend.rev.find? p = some r ∧
      ∀ f, updFirst p f s.myCore.lend.rev = pre ++ (f r).toList ++ post := by
  obtain ⟨-, hrev, hr, hpre⟩ := h
  have hpre' : ∀ q ∈ pre, ¬ p q = true := fun q hq hx => hpre q hq ((hp q).mp hx)
  rw [hrev]
  refine ⟨?_, ?_, fun f => updFirst_append f post ((hp r).mpr hr) hpre'⟩
  · exact List.any_eq_true.mpr ⟨r, by simp, (hp r).mpr hr⟩
  · exact List.find?_eq_some_iff_append.mpr ⟨(hp r).mpr hr, pre, post, rfl, fun q hq => by simpa using hpre' q hq⟩

/-! ### Squash (R129, R302) -/

/-- What taking contexts away leaves of a core: the banks, the lend, and of each context its place, registers and queues; a context
that holds no bundle and yields no more stays so. -/
structure CoreState.Squashed (x y : CoreState) : Prop where
  banks : y.banks = x.banks
  lend : y.lend = x.lend
  kept : ∀ j, (y.ctx j).pc = (x.ctx j).pc ∧ (y.ctx j).files = (x.ctx j).files ∧ (y.ctx j).q = (x.ctx j).q
  still : ∀ j, (x.ctx j).waits.held = false ∧ (x.ctx j).waits.yield = 0 →
    (y.ctx j).waits.held = false ∧ (y.ctx j).waits.yield = 0

theorem CoreState.Squashed.trans {x y z : CoreState} (h : x.Squashed y) (h' : y.Squashed z) : x.Squashed z where
  banks := h'.banks.trans h.banks
  lend := h'.lend.trans h.lend
  kept j := by
    obtain ⟨h1, h2, h3⟩ := h.kept j
    obtain ⟨h1', h2', h3'⟩ := h'.kept j
    exact ⟨h1'.trans h1, h2'.trans h2, h3'.trans h3⟩
  still j hj := h'.still j (h.still j hj)

theorem ctx_of_mod (x : CoreState) {j k : Nat} (h : j % 4 = k % 4) : x.ctx j = x.ctx k := by
  unfold CoreState.ctx; rw [show Fin.ofNat 4 j = Fin.ofNat 4 k from Fin.ext h]

/-- A change of a core that leaves its contexts, its banks and its lend. -/
theorem squashed_of_eq {x y : CoreState} (hc : y.ctxs = x.ctxs) (hb : y.banks = x.banks) (hl : y.lend = x.lend) :
    x.Squashed y where
  banks := hb
  lend := hl
  kept j := by rw [ctx_of_ctxs hc]; exact ⟨rfl, rfl, rfl⟩
  still j hj := by rw [ctx_of_ctxs hc]; exact hj

/-- Taking a context changes its waits, and with them whether a wake is pending. -/
theorem squashed_setCtx {x : CoreState} {k : Nat} {c : Ctx} (hpc : c.pc = (x.ctx k).pc) (hf : c.files = (x.ctx k).files)
    (hq : c.q = (x.ctx k).q)
    (hw : (x.ctx k).waits.held = false ∧ (x.ctx k).waits.yield = 0 → c.waits.held = false ∧ c.waits.yield = 0) :
    x.Squashed (x.setCtx k c) where
  banks := rfl
  lend := rfl
  kept j := by
    by_cases h : j % 4 = k % 4
    · rw [ctx_of_mod _ h, ctx_of_mod x h, CoreState.ctx_setCtx]
      exact ⟨hpc, hf, hq⟩
    · rw [CoreState.ctx_setCtx_other x c h]; exact ⟨rfl, rfl, rfl⟩
  still j hs := by
    by_cases h : j % 4 = k % 4
    · rw [ctx_of_mod _ h] at hs ⊢
      rw [CoreState.ctx_setCtx]
      exact hw hs
    · rw [CoreState.ctx_setCtx_other x c h]; exact hs

theorem CoreState.downgrades_banks_lend (l : List Nat) (x : CoreState) :
    (l.foldl CoreState.downgrade x).banks = x.banks ∧ (l.foldl CoreState.downgrade x).lend = x.lend := by
  have h := (memOnly_downgrades l).kept x
  exact ⟨by rw [h]; rfl, by rw [h]; rfl⟩

theorem squashed_spadWrite (x : CoreState) (o : Nat) (bs : List Byte) : x.Squashed (x.spadWrite o bs) := by
  refine squashed_of_eq (CoreState.spadWrite_ctxs x o bs) ?_ ?_
  all_goals
    unfold CoreState.spadWrite
    dsimp only
    split
    · have h := (memOnly_spadCells (((List.range bs.length).map (· + o)).zip bs)).kept x
      rw [h]; rfl
  · exact (CoreState.downgrades_banks_lend _ _).1
  · exact (CoreState.downgrades_banks_lend _ _).2

theorem squashed_refl (x : CoreState) : x.Squashed x := squashed_of_eq rfl rfl rfl

theorem squashed_setSleep (s : State) (a : Word) (on : Bool) (c : Nat) : (s.core c).Squashed ((s.setSleep a on).core c) := by
  obtain h | ⟨d, o, b, h⟩ := s.setSleep_cases a on <;> rw [h]
  · exact squashed_refl _
  · unfold State.writeObj
    by_cases e : c = d
    · subst e; rw [State.core_updCore]; exact squashed_spadWrite _ _ _
    · rw [State.core_updCore_other s _ e]; exact squashed_refl _

theorem squashed_updMe (s : State) (f : Ctx → Ctx) (hf : ∀ c, (f c).pc = c.pc ∧ (f c).files = c.files ∧ (f c).q = c.q)
    (hw : ∀ c, c.waits.held = false ∧ c.waits.yield = 0 → (f c).waits.held = false ∧ (f c).waits.yield = 0) :
    s.myCore.Squashed (s.updMe f).myCore := by
  obtain ⟨hpc, hfl, hq⟩ := hf s.me
  rw [State.myCore_updMe]
  exact squashed_setCtx hpc hfl hq (hw s.me)

theorem squashed_unsleep (s : State) : s.myCore.Squashed s.unsleep.myCore := by
  unfold State.unsleep
  split
  · have h := squashed_setSleep s ‹_› false s.cur.core
    have h' := squashed_updMe (s.setSleep ‹_› false)
      (fun c => { c with waits := { c.waits with asleep := none, sleptAt := none } }) (fun _ => ⟨rfl, rfl, rfl⟩) (fun _ h => h)
    unfold State.myCore at h' ⊢
    rw [State.setSleep_cur] at h'
    exact h.trans h'
  · exact squashed_refl _

theorem squashed_leaveBuf (s : State) : s.myCore.Squashed s.leaveBuf.myCore := by
  unfold State.leaveBuf
  split
  · rw [State.myCore_updMyCore]; exact squashed_of_eq rfl rfl rfl
  · exact squashed_refl _

theorem takeHere_cur (s : State) : s.takeHere.cur = s.cur := by
  unfold State.takeHere; rw [State.updMe_cur, State.leaveBuf_cur, State.unsleep_cur]

theorem takeHere_squashes (s : State) : s.myCore.Squashed s.takeHere.myCore ∧ s.takeHere.me.waits.held = false := by
  have hu := squashed_unsleep s
  have hl := squashed_leaveBuf s.unsleep
  have ht := squashed_updMe s.unsleep.leaveBuf (fun c =>
    { c with waits := { c.waits with held := false, waiting := false, since := 0, asleep := none, idle := false, wakeNow := false,
                                     idleWoken := false, lendOld := none, lendOn := none },
             tr := { c.tr with wake := c.tr.wake || c.waits.idleWoken } }) (fun _ => ⟨rfl, rfl, rfl⟩)
    (fun _ h => ⟨rfl, h.2⟩)
  refine ⟨(hu.trans hl).trans ht, ?_⟩
  unfold State.takeHere
  rw [State.me_updMe]

/-- Taking a context away: no other core is looked at, and the context holds no bundle and yields no more. -/
theorem takeAway_squashes (s : State) (c k : Nat) :
    (s.core c).Squashed ((s.takeAway c k).core c) ∧ (s.takeAway c k).cur = s.cur ∧
      ((s.takeAway c k).ctx c k).waits.held = false ∧ ((s.takeAway c k).ctx c k).waits.yield = 0 := by
  obtain ⟨hsq, hheld⟩ := takeHere_squashes (s.as c k)
  have hlast := squashed_updMe (s.as c k).takeHere (fun c => { c with waits := { c.waits with yield := 0, wakeIn := 0 } })
    (fun _ => ⟨rfl, rfl, rfl⟩) (fun _ h => ⟨h.1, rfl⟩)
  have hme := State.me_updMe (s.as c k).takeHere (fun c => { c with waits := { c.waits with yield := 0, wakeIn := 0 } })
  have hall := hsq.trans hlast
  unfold State.myCore at hall
  unfold State.me at hme hheld
  rw [State.updMe_cur, takeHere_cur] at hall hme
  rw [takeHere_cur] at hheld
  refine ⟨hall, rfl, ?_, ?_⟩
  · exact (congrArg (·.waits.held) hme).trans hheld
  · exact congrArg (·.waits.yield) hme

theorem takeAways_squash (ks : List Nat) (s : State) :
    s.myCore.Squashed (ks.foldl (fun (s : State) k => s.takeAway s.cur.core k) s).myCore ∧
      ∀ k ∈ ks, ((ks.foldl (fun (s : State) k => s.takeAway s.cur.core k) s).myCore.ctx k).waits.held = false ∧
        ((ks.foldl (fun (s : State) k => s.takeAway s.cur.core k) s).myCore.ctx k).waits.yield = 0 := by
  induction ks generalizing s with
  | nil => exact ⟨squashed_refl _, fun _ h => absurd h (List.not_mem_nil)⟩
  | cons k ks ih =>
    obtain ⟨hsq, hcur, hheld, hyield⟩ := takeAway_squashes s s.cur.core k
    obtain ⟨hsq', hall⟩ := ih (s.takeAway s.cur.core k)
    have hmine : (s.takeAway s.cur.core k).myCore = (s.takeAway s.cur.core k).core s.cur.core := by unfold State.myCore; rw [hcur]
    refine ⟨(hmine ▸ hsq : s.myCore.Squashed (s.takeAway s.cur.core k).myCore).trans hsq', fun j hj => ?_⟩
    rcases List.mem_cons.mp hj with rfl | hj
    · exact hsq'.still _ (hmine ▸ ⟨hheld, hyield⟩)
    · exact hall j hj

theorem revokeSquash_done {s : State} {pre post : List Revoke} {r : Revoke}
    (h : FirstRev s (fun q => q.squashed = false ∧ q.at0 + 16 ≤ s.eff s.cur.core) pre r post) :
    ∃ t, exec .revokeSquash s = .next t ∧ t.myCore.lend.rev = pre ++ { r with squashed := true } :: post ∧
      t.myCore.banks = s.myCore.banks ∧
      ∀ k ∈ taking s r, k < 4 → (t.myCore.ctx k).waits.held = false ∧ (t.myCore.ctx k).waits.yield = 0 ∧
        (t.myCore.ctx k).pc = (s.myCore.ctx k).pc ∧ (t.myCore.ctx k).files = (s.myCore.ctx k).files ∧
        (t.myCore.ctx k).q = (s.myCore.ctx k).q := by
  obtain ⟨hany, hfind, hupd⟩ := firstRev_found (p := squashDue (s.eff s.cur.core)) (fun q => by simp [squashDue]) h
  obtain ⟨hsq, hall⟩ := takeAways_squash (taking s r) s
  have hex : exec .revokeSquash s = .next (((taking s r).foldl (fun (s : State) k => s.takeAway s.cur.core k) s).updMyCore
      (fun x => x.updRev (updFirst (squashDue (s.eff s.cur.core)) (fun r => some { r with squashed := true })))) := by
    change execRevokeSquash s = _
    unfold execRevokeSquash
    rw [onCore_due h.1 hany]
    simp only [hfind]
  refine ⟨_, hex, ?_⟩
  rw [State.myCore_updMyCore]
  refine ⟨?_, hsq.banks, fun k hk _ => ?_⟩
  · refine (congrArg (fun l => updFirst _ _ (Lend.rev l)) hsq.lend).trans ((hupd _).trans ?_)
    simp
  · obtain ⟨hheld, hyield⟩ := hall k hk
    obtain ⟨hpc, hfiles, hq⟩ := hsq.kept k
    exact ⟨hheld, hyield, hpc, hfiles, hq⟩

/-! ### Park (R298, R302) -/

/-- What performing queued stores leaves of a core: the banks, the lend, and each store queue that is empty. -/
structure CoreState.Performed (x y : CoreState) : Prop where
  banks : y.banks = x.banks
  lend : y.lend = x.lend
  empty : ∀ j, (x.ctx j).storeQ = [] → (y.ctx j).storeQ = []

theorem performed_refl (x : CoreState) : x.Performed x := ⟨rfl, rfl, fun _ h => h⟩

theorem CoreState.Performed.trans {x y z : CoreState} (h : x.Performed y) (h' : y.Performed z) : x.Performed z where
  banks := h'.banks.trans h.banks
  lend := h'.lend.trans h.lend
  empty j hj := h'.empty j (h.empty j hj)

theorem performed_setCtx (x : CoreState) (k : Nat) (c : Ctx) (h : (x.ctx k).storeQ = [] → c.storeQ = []) :
    x.Performed (x.setCtx k c) where
  banks := rfl
  lend := rfl
  empty j hj := by
    by_cases hjk : j % 4 = k % 4
    · rw [ctx_of_mod _ hjk] at hj ⊢
      rw [CoreState.ctx_setCtx]
      exact h hj
    · rw [CoreState.ctx_setCtx_other x c hjk]; exact hj

/-- A drained context has no store queued, and its core is otherwise left but for memory. -/
theorem drain_performs (s : State) (c k : Nat) :
    (s.core c).Performed ((s.drain c k).core c) ∧ (s.drain c k).cur = s.cur ∧ ((s.drain c k).ctx c k).storeQ = [] := by
  have hleave : (s.core c).Performed ((s.updCtx c k (fun x => x.leaveQueues (s.ctx c k).storeQ.length)).core c) := by
    unfold State.updCtx State.ctx
    rw [State.core_setCore]
    exact performed_setCtx _ _ _ (fun h => by simp [Ctx.leaveQueues, h])
  have hleft := (aside_foldl (fun e s => State.performEnt s c e) (aside_performEnt c) ((s.ctx c k).storeQ.take
    (s.ctx c k).storeQ.length)).left (s.updCtx c k (fun x => x.leaveQueues (s.ctx c k).storeQ.length))
  refine ⟨hleave.trans ⟨?_, ?_, fun j hj => ?_⟩, hleft.cur, ?_⟩
  · exact (congrArg (·.banks) hleft.core :)
  · exact (congrArg (·.lend) hleft.core :)
  · exact (congrArg (·.storeQ) (hleft.ctx j)).trans hj
  · refine (congrArg (·.storeQ) (hleft.ctx k)).trans ?_
    rw [State.ctx_updCtx]
    exact List.drop_length

theorem drains_perform (ks : List Nat) (s : State) :
    s.myCore.Performed (ks.foldl (fun (s : State) k => s.drain s.cur.core k) s).myCore ∧
      ∀ k ∈ ks, ((ks.foldl (fun (s : State) k => s.drain s.cur.core k) s).myCore.ctx k).storeQ = [] := by
  induction ks generalizing s with
  | nil => exact ⟨performed_refl _, fun _ h => absurd h (List.not_mem_nil)⟩
  | cons k ks ih =>
    obtain ⟨hp, hcur, hempty⟩ := drain_performs s s.cur.core k
    obtain ⟨hp', hall⟩ := ih (s.drain s.cur.core k)
    have hmine : (s.drain s.cur.core k).myCore = (s.drain s.cur.core k).core s.cur.core := by unfold State.myCore; rw [hcur]
    refine ⟨(hmine ▸ hp : s.myCore.Performed (s.drain s.cur.core k).myCore).trans hp', fun j hj => ?_⟩
    rcases List.mem_cons.mp hj with rfl | hj
    · exact hp'.empty _ (hmine ▸ hempty)
    · exact hall j hj

/-- A bank that is still being taken is among those whose stores a park with a region forces. -/
theorem taking_forced {s : State} {r : Revoke} {k : Nat} (hk : k ∈ [1, 2, 3]) (h : k ∈ taking s r) : k ∈ s.myCore.forced := by
  have hst := (List.mem_filter.mp h).2
  rw [beq_iff_eq] at hst
  exact List.mem_filter.mpr ⟨hk, by rw [hst]; rfl⟩

/-- The state in which a park leaves its core's stores. -/
def parkDrains (s : State) (r : Revoke) : State :=
  if r.region then s.myCore.forced.foldl (fun (s : State) k => s.drain s.cur.core k) s else s

theorem parkDrains_performs (s : State) (r : Revoke) : s.myCore.Performed (parkDrains s r).myCore ∧
    (r.region = true → ∀ k ∈ s.myCore.forced, ((parkDrains s r).myCore.ctx k).storeQ = []) := by
  obtain ⟨hp, hall⟩ := drains_perform s.myCore.forced s
  unfold parkDrains
  split
  · exact ⟨hp, fun _ => hall⟩
  next h => exact ⟨performed_refl _, fun hr => absurd hr h⟩

theorem bankPark_done {s : State} {pre post : List Revoke} {r : Revoke}
    (h : FirstRev s (fun q => q.squashed = true ∧ q.parked = false ∧ q.at0 + 21 ≤ s.eff s.cur.core) pre r post)
    (hbanks : ∀ k ∈ r.banks, k ∈ [1, 2, 3]) :
    ∃ t, exec .bankPark s = .next t ∧
      t.myCore.lend.rev = pre ++ (if r.region then [{ r with parked := true }] else []) ++ post ∧
      ∀ k ∈ [1, 2, 3], (t.myCore.bank k).st = (if k ∈ taking s r then .parked else (s.myCore.bank k).st) ∧
        (k ∈ taking s r → r.region = true → (t.myCore.ctx k).storeQ = []) := by
  obtain ⟨hany, hfind, hupd⟩ := firstRev_found (p := parkDue (s.eff s.cur.core)) (fun q => by simp [parkDue, and_assoc]) h
  obtain ⟨hp, hempty⟩ := parkDrains_performs s r
  have hks : ∀ k ∈ taking s r, k ∈ [1, 2, 3] := fun k hk => hbanks k (List.mem_of_mem_filter hk)
  have hex : exec .bankPark s = .next ((parkDrains s r).updMyCore (fun x =>
      ((taking s r).foldl (fun (x : CoreState) k => x.updBank k (fun b => { b with st := .parked })) x).updRev
        (updFirst (parkDue (s.eff s.cur.core)) (fun r => if r.region then some { r with parked := true } else none)))) := by
    change execBankPark s = _
    unfold execBankPark
    rw [onCore_due h.1 hany]
    simp only [hfind]
    rfl
  refine ⟨_, hex, ?_⟩
  rw [State.myCore_updMyCore, updBanks_eq]
  refine ⟨?_, fun k hk => ⟨?_, fun ht hr => hempty hr k (taking_forced hk ht)⟩⟩
  · refine (congrArg (fun l => updFirst _ _ (Lend.rev l)) hp.lend).trans ((hupd _).trans ?_)
    cases r.region <;> rfl
  · have hbank := bank_updBanks (f := fun b : EddyBank => { b with st := .parked }) (fun _ => rfl) hks hk (parkDrains s r).myCore
    rw [bank_of_banks hp.banks] at hbank
    refine (congrArg (·.st) hbank).trans ?_
    split <;> rfl

/-! ### The region given back (R303, R304) -/

theorem reclaimDue_iff (t : Nat) (q : Revoke) : reclaimDue t q = true ↔
    q.parked = true ∧ q.region = true ∧ q.at0 + 24 ≤ t := by
  simp [reclaimDue, and_assoc]

/-- The op when a record is due and BUSY is clear. -/
theorem regionReclaim_due {s : State} {pre post : List Revoke} {r : Revoke} (hb : s.myCore.lend.cfg.busy = false)
    (h : FirstRev s (fun q => q.parked = true ∧ q.region = true ∧ q.at0 + 24 ≤ s.eff s.cur.core) pre r post) :
    exec .regionReclaim s = .next (s.updMyCore (fun x =>
      if r.keep then { x with lend := { x.lend with cfg := { x.lend.cfg with busy := true } } }
      else (x.discardRegion r (s.eff s.cur.core)).updRev (updFirst (reclaimDue (s.eff s.cur.core)) (fun _ => none)))) := by
  obtain ⟨hany, hfind, -⟩ := firstRev_found (reclaimDue_iff _) h
  change execRegionReclaim s = _
  unfold execRegionReclaim
  rw [onCore_due h.1 (by rw [hb, hany]; rfl)]
  simp only [hfind]

/-- What ending a lend changes: banks alone. -/
theorem endLent_eq (x : CoreState) (r : Revoke) : x.endLent r = { x with banks := (x.endLent r).banks } := updBanks_eq _ _ x

/-- No eddy is bound under a lend that has ended. -/
theorem lent_endLent (x : CoreState) (r : Revoke) {k : Nat} (hk : k ∈ [1, 2, 3]) : ((x.endLent r).bank k).lent = false := by
  unfold CoreState.endLent
  rw [bank_updBanks (f := fun b => { b with lent := false, home := some (r.start, r.count) }) (fun _ => rfl)
    (lentBanks_subset x) hk]
  split
  · rfl
  next h => rw [mem_lentBanks hk] at h; exact Bool.eq_false_iff.mpr h

/-- Discarding a region: the region is reclaimed, the eddies of its lend learn of it, and none is bound under it. -/
theorem discardRegion_gives (x : CoreState) (r : Revoke) (t : Nat) :
    (x.discardRegion r t).lend = x.lend ∧ (x.discardRegion r t).spad = (x.reclaim r.start r.count t).spad ∧
      (x.discardRegion r t).tiles = (x.reclaim r.start r.count t).tiles ∧
      ∀ k ∈ [1, 2, 3], ((x.discardRegion r t).ctx k).csr.discard = ((x.ctx k).csr.discard || (x.bank k).lent) ∧
        ((x.discardRegion r t).bank k).lent = false := by
  have hre := reclaim_eq x r.start r.count t
  unfold CoreState.discardRegion
  dsimp only
  have hset := setCtxs_eq (fun c => { c with csr := { c.csr with discard := true } }) x.lentBanks (x.reclaim r.start r.count t)
  have hctx : ∀ k ∈ [1, 2, 3], _ := fun k hk => ctx_setCtxs (f := fun c => { c with csr := { c.csr with discard := true } })
    (fun _ => rfl) (lentBanks_subset x) hk (x.reclaim r.start r.count t)
  generalize x.lentBanks.foldl (fun (y : CoreState) k => y.setCtx k { y.ctx k with csr := { (y.ctx k).csr with discard := true } })
    (x.reclaim r.start r.count t) = y at hset hctx ⊢
  rw [endLent_eq]
  refine ⟨?_, ?_, ?_, fun k hk => ⟨?_, lent_endLent y r hk⟩⟩
  · rw [hset, hre]
  · rw [hset]
  · rw [hset]
  · have hx : (x.reclaim r.start r.count t).ctx k = x.ctx k := by rw [hre]; rfl
    refine (congrArg (·.csr.discard) (hctx k hk)).trans ?_
    rw [hx]
    by_cases hl : (x.bank k).lent = true
    · rw [if_pos ((mem_lentBanks hk).mpr hl), hl, Bool.or_true]
    · rw [if_neg (mt (mem_lentBanks hk).mp hl), Bool.eq_false_iff.mpr hl, Bool.or_false]

theorem regionReclaim_done {s : State} {pre post : List Revoke} {r : Revoke} (hb : s.myCore.lend.cfg.busy = false)
    (h : FirstRev s (fun q => q.parked = true ∧ q.region = true ∧ q.at0 + 24 ≤ s.eff s.cur.core) pre r post)
    (hkeep : r.keep = false) (hw : s.myCore.spad.wf = true) (hr : r.start + r.count ≤ 128) :
    ∃ t, exec .regionReclaim s = .next t ∧ t.myCore.lend.rev = pre ++ post ∧
      (∀ o, t.myCore.spad.read o = if InBytes r.start r.count o then 0 else s.myCore.spad.read o) ∧
      (∀ n, n < 128 → t.myCore.tile n =
        if InSlots r.start r.count n then reclaimed (s.myCore.tile n) else s.myCore.tile n) ∧
      ∀ k ∈ [1, 2, 3], (t.myCore.ctx k).csr.discard = ((s.myCore.ctx k).csr.discard || (s.myCore.bank k).lent) ∧
        (t.myCore.bank k).lent = false := by
  obtain ⟨-, -, hupd⟩ := firstRev_found (reclaimDue_iff _) h
  obtain ⟨hlend, hspad, htiles, hbanks⟩ := discardRegion_gives s.myCore r (s.eff s.cur.core)
  refine ⟨_, (regionReclaim_due hb h).trans (by rw [hkeep]), ?_⟩
  rw [State.myCore_updMyCore]
  refine ⟨?_, fun o => ?_, fun n hn => ?_, hbanks⟩
  · refine (congrArg (fun l => updFirst _ _ (Lend.rev l)) hlend).trans ((hupd _).trans ?_)
    simp
  · exact (congrArg (Mem.read · o) hspad).trans (read_reclaim _ _ _ _ _ hw)
  · exact (congrArg (fun v : Vector TileEnt 128 => v.get (Fin.ofNat 128 n)) htiles).trans (tile_reclaim _ _ hr hn)

/-! ### The kept copy, and the firmware's revocation -/

/-- A core whose keep region has been copied, the record of the revocation still there (R304). -/
def CoreState.copiedOut (x : CoreState) (r : Revoke) (t : Nat) : CoreState :=
  let x := x.touchSlotRun r.start r.count t
  { x with lend := { x.lend with cfg := { x.lend.cfg with busy := false }, kept := some (x.keptOf r.start r.count) } }.endLent r

theorem keepRegionCopyOut_done {s : State} {pre post : List Revoke} {r : Revoke} (hb : s.myCore.lend.cfg.busy = true)
    (hf : s.myCore.lend.filling = false)
    (h : FirstRev s (fun q => q.parked = true ∧ q.region = true ∧ q.keep = true) pre r post)
    (hland : ∀ c ∈ s.myCore.cmds, ¬ (s.myCore.lentBanks.contains c.ctx = true ∧ c.landsIn r.start r.count = true)) :
    ∃ t, exec .keepRegionCopyOut s = .next t ∧ t.myCore.lend.rev = pre ++ post ∧ t.myCore.lend.cfg.busy = false ∧
      ∃ k, t.myCore.lend.kept = some k ∧ k.start = r.start ∧ k.count = r.count ∧
        k.tiles = (List.range r.count).map (fun i => s.myCore.tile (r.start + i)) ∧
        (s.myCore.spad.wf = true → ∀ o, InBytes r.start r.count o → k.mem.read o = s.myCore.spad.read o) := by
  obtain ⟨-, hfind, hupd⟩ := firstRev_found (p := fun q => q.parked && q.region && q.keep) (fun q => by simp [and_assoc]) h
  have hcopy : s.myCore.copyOut = some r := by
    unfold CoreState.copyOut
    rw [hb, hf]
    exact hfind
  have hdone : s.myCore.cmds.all (fun c => !(s.myCore.lentBanks.contains c.ctx && c.landsIn r.start r.count)) = true :=
    List.all_eq_true.mpr (fun c hc => by have hno := hland c hc; grind)
  have hex : exec .keepRegionCopyOut s = .next (s.updMyCore (fun x => (x.copiedOut r (s.eff s.cur.core)).updRev
      (updFirst (fun q => q.parked && q.region && q.keep) (fun _ => none)))) := by
    change execKeepRegionCopyOut s = _
    unfold execKeepRegionCopyOut
    rw [onCore_due h.1 (by rw [hcopy]; exact hdone)]
    simp only [hcopy]
    rfl
  refine ⟨_, hex, ?_⟩
  have htouch := touchSlotRun_eq s.myCore r.start r.count (s.eff s.cur.core)
  rw [State.myCore_updMyCore]
  unfold CoreState.copiedOut
  rw [endLent_eq, htouch]
  refine ⟨(hupd _).trans (by simp), rfl, _, rfl, rfl, rfl, rfl, fun hw o ho => ?_⟩
  have hs := ho.1
  have he := ho.2
  exact Mem.read_slice _ hw (by unfold slotSize; omega) (by unfold slotSize; omega)

theorem firmwareRevoke_done {s : State} (hc : s.cur.core < nCores) (h : s.myCore.lend.cfg.active = true) :
    exec .firmwareRevoke s = .next (s.updMyCore (revoked s)) := by
  change execFirmwareRevoke s = _
  unfold execFirmwareRevoke
  rw [onCore_due hc h]
  exact congrArg Host.Outcome.next (if_pos h)

/-- R129, R302 to R304. -/
theorem revocations : Revocations := by
  refine ⟨fun s pre r post => revokeSquash_done, fun s pre r post => bankPark_done,
    fun s pre r post hb h => ⟨fun hk => ?_, ?_⟩, fun s pre r post => keepRegionCopyOut_done, fun s => firmwareRevoke_done⟩
  · rw [regionReclaim_due hb h, hk]; rfl
  · exact regionReclaim_done hb h

end Sys2Proof.Machine
end

