-- ==== Sys2Proof/Proofs/LendEvents.lean ====
section
/-! PROOFS. The completion of LEND (R225, R241, R304, R305). -/

namespace Sys2Proof.Machine

open Sys2Proof.Claim

/-! ### The region as a completed LEND finds it -/

section
variable (x : CoreState) (start count t : Nat)

theorem ungate_lend : (x.ungate start count t).lend = x.lend := by unfold CoreState.ungate; dsimp only
theorem ungate_banks : (x.ungate start count t).banks = x.banks := by unfold CoreState.ungate; dsimp only
theorem ungate_spad : (x.ungate start count t).spad = x.spad := by unfold CoreState.ungate; dsimp only
theorem ungate_tile (n : Nat) : (x.ungate start count t).tile n = x.tile n := by
  unfold CoreState.ungate CoreState.tile; dsimp only

end

/-- The stripes of a region that is turned on have power (R241). -/
theorem gated_ungate (x : CoreState) {start count n : Nat} (t : Nat) (h : InSlots start count n) (hr : start + count ≤ 128) :
    (x.ungate start count t).gated (4096 * n) = false := by
  obtain ⟨hlo, hhi⟩ := h
  have hidx : (Fin.ofNat 32 (stripeOf (4096 * n))).val = n / 4 := by simp [Fin.ofNat, stripeOf]; omega
  have hmeet : runsMeet (start * slotSize) (count * slotSize)
      ((Fin.ofNat 32 (stripeOf (4096 * n))).val * 0x4000) 0x4000 = true := by
    rw [hidx]
    unfold runsMeet slotSize
    simp only [Bool.and_eq_true, decide_eq_true_eq]
    omega
  unfold CoreState.gated CoreState.stripe CoreState.ungate
  dsimp only
  rw [Vector.get_eq_getElem, Vector.getElem_ofFn]
  dsimp only
  rw [hmeet, Bool.and_true]
  split
  · rfl
  next hp => exact Bool.eq_false_iff.mpr hp

/-! ### The copy put back (R304, R305) -/

theorem restoreKept_eq (x : CoreState) (k : Kept) (t : Nat) : x.restoreKept k t =
    { x with spad := x.spad.below (k.start * slotSize) ++ (k.mem.slice (k.start * slotSize) (k.count * slotSize) ++
               x.spad.above (k.start * slotSize + k.count * slotSize)),
             tiles := (x.restoreKept k t).tiles, stripes := (x.restoreKept k t).stripes } := by
  unfold CoreState.restoreKept
  dsimp only
  rw [updTiles_eq k.tiles.zipIdx (fun e => k.start + e.2) (fun e _ => e.1), touchSlotRun_eq]

theorem gated_restoreKept (x : CoreState) (k : Kept) (t o : Nat) : (x.restoreKept k t).gated o = x.gated o := by
  rw [← gated_touchSlotRun x k.start k.count t o]
  refine gated_of_stripes ?_ o
  unfold CoreState.restoreKept
  dsimp only
  rw [updTiles_eq k.tiles.zipIdx (fun e => k.start + e.2) (fun e _ => e.1)]

theorem read_restoreKept (x : CoreState) (k : Kept) (t o : Nat) (hx : x.spad.wf = true) (hk : k.mem.wf = true) :
    (x.restoreKept k t).spad.read o = if InBytes k.start k.count o then k.mem.read o else x.spad.read o := by
  rw [restoreKept_eq]
  refine (Mem.read_replaced _ _ _ _ _ hx hk).trans (if_congr ?_ rfl rfl)
  unfold InBytes slotSize
  omega

theorem tile_restoreKept (x : CoreState) {k : Kept} {n : Nat} (t : Nat) (hlen : k.tiles.length = k.count)
    (hr : k.start + k.count ≤ 128) (hn : n < 128) : (x.restoreKept k t).tile n =
      if InSlots k.start k.count n then k.tiles[n - k.start]?.getD {} else x.tile n := by
  unfold CoreState.restoreKept
  dsimp only
  rw [writeTiles_eq, tile_updRun _ (fun i _ => k.tiles[i]?.getD {}) _ (by rw [hlen]; exact hr) hn, hlen, touchSlotRun_eq]
  rfl

/-! ### The slots of a completed LEND -/

/-- The core once the region of its LEND is reclaimed and a copy stands in it again. -/
def CoreState.refilled (x : CoreState) (back : Option Kept) (t : Nat) : CoreState :=
  let l := x.lend.cfg
  let y := (x.ungate l.start l.count t).reclaim l.start l.count t
  match back with
  | some k => y.restoreKept k t
  | none => y

theorem refilled_none (x : CoreState) (t : Nat) : x.refilled none t =
    (x.ungate x.lend.cfg.start x.lend.cfg.count t).reclaim x.lend.cfg.start x.lend.cfg.count t := rfl

theorem refilled_some (x : CoreState) (k : Kept) (t : Nat) : x.refilled (some k) t =
    ((x.ungate x.lend.cfg.start x.lend.cfg.count t).reclaim x.lend.cfg.start x.lend.cfg.count t).restoreKept k t := rfl

theorem reclaim_lend_banks (x : CoreState) (start count t : Nat) :
    (x.reclaim start count t).lend = x.lend ∧ (x.reclaim start count t).banks = x.banks := by
  rw [reclaim_eq]; exact ⟨rfl, rfl⟩

theorem restoreKept_lend_banks (x : CoreState) (k : Kept) (t : Nat) :
    (x.restoreKept k t).lend = x.lend ∧ (x.restoreKept k t).banks = x.banks := by
  rw [restoreKept_eq]; exact ⟨rfl, rfl⟩

/-- Filling the slots of a region changes neither the lend nor the banks. -/
theorem refilled_lend_banks (x : CoreState) (back : Option Kept) (t : Nat) :
    (x.refilled back t).lend = x.lend ∧ (x.refilled back t).banks = x.banks := by
  have hre := reclaim_lend_banks (x.ungate x.lend.cfg.start x.lend.cfg.count t) x.lend.cfg.start x.lend.cfg.count t
  rw [ungate_lend, ungate_banks] at hre
  cases back with
  | none => rw [refilled_none]; exact hre
  | some k =>
    obtain ⟨hl, hb⟩ := restoreKept_lend_banks ((x.ungate x.lend.cfg.start x.lend.cfg.count t).reclaim x.lend.cfg.start
      x.lend.cfg.count t) k t
    rw [refilled_some, hl, hb]
    exact hre

theorem gated_refilled (x : CoreState) (back : Option Kept) (t : Nat) {n : Nat} (hr : x.lend.cfg.start + x.lend.cfg.count ≤ 128)
    (h : InSlots x.lend.cfg.start x.lend.cfg.count n) : (x.refilled back t).gated (4096 * n) = false := by
  have hun := gated_ungate x t h hr
  cases back with
  | none => rw [refilled_none, gated_reclaim, hun]
  | some k => rw [refilled_some, gated_restoreKept, gated_reclaim, hun]

/-- The copy is of the very slots of the LEND. -/
theorem putBack_some {s : State} {k : Kept} (h : putBack s = some k) :
    k ∈ s.myCore.lend.kept ∧ k.start = s.myCore.lend.cfg.start ∧ k.count = s.myCore.lend.cfg.count := by
  unfold putBack at h
  dsimp only at h
  split at h
  · obtain ⟨hmem, hp⟩ := Option.filter_eq_some_iff.mp h
    simp only [Bool.and_eq_true, beq_iff_eq] at hp
    exact ⟨hmem, hp⟩
  · cases h

section
variable {s : State} (t : Nat) (hw : s.myCore.spad.wf = true) (hr : s.myCore.lend.cfg.start + s.myCore.lend.cfg.count ≤ 128)
  (hk : ∀ k ∈ s.myCore.lend.kept, k.mem.wf = true ∧ k.tiles.length = k.count)
include hw hk

theorem read_refilled (o : Nat) : (s.myCore.refilled (putBack s) t).spad.read o =
    if InBytes s.myCore.lend.cfg.start s.myCore.lend.cfg.count o then (match putBack s with | some k => k.mem.read o | none => 0)
    else s.myCore.spad.read o := by
  have hre := read_reclaim (s.myCore.ungate s.myCore.lend.cfg.start s.myCore.lend.cfg.count t) s.myCore.lend.cfg.start
    s.myCore.lend.cfg.count t o (by rw [ungate_spad]; exact hw)
  have hwf := wf_reclaim (s.myCore.ungate s.myCore.lend.cfg.start s.myCore.lend.cfg.count t) s.myCore.lend.cfg.start
    s.myCore.lend.cfg.count t (by rw [ungate_spad]; exact hw)
  rw [ungate_spad] at hre
  cases hb : putBack s with
  | none => rw [refilled_none]; exact hre
  | some k =>
    obtain ⟨hmem, hst, hct⟩ := putBack_some hb
    rw [refilled_some, read_restoreKept _ k t o hwf (hk k hmem).1, hre, hst, hct]
    split <;> rfl

include hr in
omit hw in
theorem tile_refilled {n : Nat} (hn : n < 128) : (s.myCore.refilled (putBack s) t).tile n =
    if InSlots s.myCore.lend.cfg.start s.myCore.lend.cfg.count n
    then (match putBack s with | some k => k.tiles[n - s.myCore.lend.cfg.start]?.getD {} | none => reclaimed (s.myCore.tile n))
    else s.myCore.tile n := by
  have hre := tile_reclaim (s.myCore.ungate s.myCore.lend.cfg.start s.myCore.lend.cfg.count t) t hr hn
  rw [ungate_tile] at hre
  cases hb : putBack s with
  | none => rw [refilled_none]; exact hre
  | some k =>
    obtain ⟨hmem, hst, hct⟩ := putBack_some hb
    rw [refilled_some, tile_restoreKept _ t (hk k hmem).2 (by rw [hst, hct]; exact hr) hn, hre, hst, hct]
    split <;> rfl

end

/-! ### The banks that run again (R305) -/

theorem resumeBank_eq (x : CoreState) (k : Nat) :
    x.resumeBank k = { x with ctxs := (x.resumeBank k).ctxs, banks := (x.resumeBank k).banks } := rfl

/-- Running banks again changes contexts and banks alone. -/
theorem resumeFit_eq (ks : List Nat) (x : CoreState) :
    x.resumeFit ks = { x with ctxs := (x.resumeFit ks).ctxs, banks := (x.resumeFit ks).banks } := by
  unfold CoreState.resumeFit
  induction ks generalizing x with
  | nil => rfl
  | cons k ks ih =>
    rw [List.foldl_cons, ih]
    split <;> rfl

theorem bank_resumeBank (x : CoreState) {j k : Nat} (hj : j ∈ [1, 2, 3]) (hk : k ∈ [1, 2, 3]) :
    (x.resumeBank j).bank k = if k = j then { x.bank k with st := .run, lent := true } else x.bank k := by
  split
  next h => rw [h]; exact CoreState.bank_updBank _ _ _
  next h =>
    simp only [List.mem_cons, List.not_mem_nil, or_false] at hk hj
    exact bank_updBank_other _ _ (by omega)

/-- A bank that a completed LEND looks at is as it was, or it runs again. -/
theorem bank_resumeFit {ks : List Nat} (hks : ∀ j ∈ ks, j ∈ [1, 2, 3]) {k : Nat} (hk : k ∈ [1, 2, 3]) (x : CoreState) :
    (x.resumeFit ks).bank k = x.bank k ∨
      (k ∈ ks ∧ (x.resumeFit ks).bank k = { x.bank k with st := .run, lent := true }) := by
  unfold CoreState.resumeFit
  induction ks generalizing x with
  | nil => exact .inl rfl
  | cons j ks ih =>
    have hbank := bank_resumeBank x (hks j (List.mem_cons_self ..)) hk
    have hrest := fun y : CoreState => ih (fun i hi => hks i (List.mem_cons_of_mem _ hi)) y
    rw [List.foldl_cons]
    split
    · by_cases h : k = j
      · rw [if_pos h] at hbank
        rcases hrest (x.resumeBank j) with hs | ⟨-, hs⟩ <;> exact .inr ⟨h ▸ List.mem_cons_self .., by rw [hs, hbank]⟩
      · rw [if_neg h] at hbank
        rw [← hbank]
        exact (hrest _).imp id (fun hs => ⟨List.mem_cons_of_mem _ hs.1, hs.2⟩)
    · exact (hrest x).imp id (fun hs => ⟨List.mem_cons_of_mem _ hs.1, hs.2⟩)

theorem eligible_subset (x : CoreState) : ∀ k ∈ x.eligible, k ∈ [1, 2, 3] := by
  unfold CoreState.eligible
  dsimp only
  split
  · exact fun k hk => List.mem_of_mem_filter hk
  · exact fun k hk => absurd hk (List.not_mem_nil)

theorem returns_of_eligible {s : State} {k : Nat} (ha : s.myCore.lend.cfg.active = true) (h : k ∈ s.myCore.eligible) :
    Returns s k := by
  unfold CoreState.eligible at h
  dsimp only at h
  split at h
  next hl =>
    have hk := (List.mem_filter.mp h).2
    simp only [Bool.and_eq_true, beq_iff_eq] at hk hl
    obtain ⟨⟨hst, hrev⟩, hhome⟩ := hk
    exact ⟨ha, hl, hst, hrev, hhome⟩
  next => exact absurd h (List.not_mem_nil)

/-! ### The completion -/

/-- The core whose LEND has completed: its slots filled, BUSY clear, and the banks running again that may. -/
def CoreState.lendCompleted (x : CoreState) (back : Option Kept) (t : Nat) : CoreState :=
  let y := x.refilled back t
  ({ y with lend := { y.lend with cfg := { x.lend.cfg with busy := false }, filling := false, kept := none } } :
    CoreState).resumeFit (if x.lend.cfg.active then y.eligible else [])

/-- Beside the slots it fills, a completed LEND changes the lend, and contexts and banks that run again. -/
theorem lendCompleted_gives (x : CoreState) (back : Option Kept) (t : Nat) :
    (x.lendCompleted back t).lend = { x.lend with cfg := { x.lend.cfg with busy := false }, filling := false, kept := none } ∧
      (x.lendCompleted back t).spad = (x.refilled back t).spad ∧ (x.lendCompleted back t).tiles = (x.refilled back t).tiles ∧
      (x.lendCompleted back t).stripes = (x.refilled back t).stripes := by
  unfold CoreState.lendCompleted
  dsimp only
  rw [resumeFit_eq, (refilled_lend_banks x back t).1]
  exact ⟨rfl, rfl, rfl, rfl⟩

theorem eligible_refilled (x : CoreState) (back : Option Kept) (t : Nat) : (x.refilled back t).eligible = x.eligible := by
  obtain ⟨hl, hb⟩ := refilled_lend_banks x back t
  unfold CoreState.eligible CoreState.bank
  rw [hl, hb]

/-- A completed LEND leaves a bank, or runs it again. -/
theorem bank_lendCompleted (x : CoreState) (back : Option Kept) (t : Nat) {k : Nat} (hk : k ∈ [1, 2, 3]) :
    (x.lendCompleted back t).bank k = x.bank k ∨ (x.lend.cfg.active = true ∧ k ∈ x.eligible ∧
      (x.lendCompleted back t).bank k = { x.bank k with st := .run, lent := true }) := by
  unfold CoreState.lendCompleted
  dsimp only
  rw [eligible_refilled, ← bank_of_banks (refilled_lend_banks x back t).2 k]
  split
  next ha => exact (bank_resumeFit (eligible_subset x) hk _).imp id (fun h => ⟨ha, h⟩)
  next => exact .inl rfl

theorem putBack_eq (s : State) : putBack s = s.myCore.lend.kept.filter (fun k =>
    s.myCore.lend.last == some (s.myCore.lend.cfg.start, s.myCore.lend.cfg.count) && k.start == s.myCore.lend.cfg.start &&
      k.count == s.myCore.lend.cfg.count) := by
  unfold putBack
  dsimp only
  split
  next h => rw [beq_iff_eq.mpr h]; rfl
  next h => rw [beq_eq_false_iff_ne.mpr h]; cases s.myCore.lend.kept <;> rfl

theorem lendComplete_due {s : State} (hc : s.cur.core < nCores) (h : s.myCore.lend.filling = true) :
    ∃ t, exec .lendComplete s = .next t ∧ t.myCore = s.myCore.lendCompleted (putBack s) (s.eff s.cur.core) := by
  refine ⟨_, by change execLendComplete s = _; unfold execLendComplete; exact onCore_due hc h, ?_⟩
  have hl := (reclaim_lend_banks (s.myCore.ungate s.myCore.lend.cfg.start s.myCore.lend.cfg.count (s.eff s.cur.core))
    s.myCore.lend.cfg.start s.myCore.lend.cfg.count (s.eff s.cur.core)).1
  rw [ungate_lend] at hl
  rw [State.myCore_updMyCore]
  unfold CoreState.lendCompleted
  dsimp only
  rw [hl]
  rw [putBack_eq]
  cases hk : s.myCore.lend.kept with
  | none => rfl
  | some k =>
    rw [Option.filter_some]
    dsimp only
    split
    · rw [refilled_some]
    · rw [refilled_none]

/-- R225, R241, R304, R305. -/
theorem lendCompletes : LendCompletes := by
  intro s hc hfill hw l hr hk
  obtain ⟨t, ht, hcore⟩ := lendComplete_due hc hfill
  obtain ⟨hlend, hspad, htiles, hstripes⟩ := lendCompleted_gives s.myCore (putBack s) (s.eff s.cur.core)
  rw [← hcore] at hlend hspad htiles hstripes
  refine ⟨t, ht, by rw [hlend], by rw [hlend], by rw [hlend], fun o => ?_, fun n hn => ?_, fun n hn => ?_, fun k hk3 => ?_⟩
  · rw [hspad]
    exact read_refilled (s.eff s.cur.core) hw hk o
  · exact (congrArg (fun v : Vector TileEnt 128 => v.get (Fin.ofNat 128 n)) htiles).trans (tile_refilled _ hr hk hn)
  · rw [gated_of_stripes hstripes]
    exact gated_refilled _ _ _ hr hn
  · have hbank := bank_lendCompleted s.myCore (putBack s) (s.eff s.cur.core) hk3
    rw [← hcore] at hbank
    exact hbank.imp id (fun ⟨ha, hel, h⟩ => ⟨returns_of_eligible ha hel, h⟩)

/-- Settles O44: each cycle of a revocation, and the completion of a LEND, by what its event does to the record, the banks and the
slots. -/
theorem lendEvents : Obligations.LendEvents := ⟨revocations, lendCompletes⟩

end Sys2Proof.Machine
end

