-- ==== Sys2Proof/Proofs/DebugControl.lean ====
section
/-! PROOFS. The debugger's control: attaching, halting, resuming, breakpoints, single step, planted breakpoints (R403,
R405 to R409). -/

namespace Sys2Proof.Machine

open Sys2Proof.Claim

/-! ### Halting -/

theorem startRevoke_me (s : State) : (s.startRevoke s.cur.core).me = s.me := by
  unfold State.startRevoke
  dsimp only
  split
  · unfold State.me State.ctx
    rw [State.setCore_cur, State.core_setCore]
    rfl
  · rfl

/-- A wake of the running context is a change of it alone, but for the lend it may take back. -/
theorem wakeCtx_me (s : State) : (s.wakeCtx s.cur.core s.cur.ctx).me = s.me.wake := by
  have hme : (s.updMe Ctx.wake).me = s.me.wake := State.me_updMe s Ctx.wake
  unfold State.wakeCtx State.wakeBy
  dsimp only
  split
  · exact (startRevoke_me (s.updMe Ctx.wake)).trans hme
  · exact hme

/-- What a wake leaves of a context, and that it is idle no longer. -/
theorem Ctx.wake_keeps (c : Ctx) : c.wake.dbg = c.dbg ∧ c.wake.q = c.q ∧ c.wake.files = c.files ∧ c.wake.csr = c.csr ∧
    c.wake.pc = c.pc ∧ c.wake.waits.idle = false := by
  unfold Ctx.wake
  split
  · exact ⟨rfl, rfl, rfl, rfl, rfl, rfl⟩
  next h =>
    unfold Ctx.wakeBwait
    split <;> exact ⟨rfl, rfl, rfl, rfl, rfl, Bool.eq_false_iff.mpr h⟩

theorem Ctx.unslept_keeps (c : Ctx) : c.unslept.dbg = c.dbg ∧ c.unslept.q = c.q ∧ c.unslept.files = c.files ∧
    c.unslept.csr = c.csr ∧ c.unslept.pc = c.pc := by
  unfold Ctx.unslept
  split <;> exact ⟨rfl, rfl, rfl, rfl, rfl⟩

theorem debugStop_halts (s : State) : (State.debugStop s).me.dbg = { s.me.dbg with halted := true } ∧
    (State.debugStop s).me.waits.held = false ∧ (State.debugStop s).me.waits.idle = false ∧
    (State.debugStop s).me.waits.asleep = none ∧ RegsKept s.me (State.debugStop s) ∧ (State.debugStop s).me.pc = s.me.pc := by
  have hme : (s.unsleep.leaveBuf.wakeCtx s.cur.core s.cur.ctx).me = s.me.unslept.wake := by
    have h := wakeCtx_me s.unsleep.leaveBuf
    rwa [State.leaveBuf_cur, State.unsleep_cur, State.leaveBuf_me, State.unsleep_me] at h
  obtain ⟨hdbg, hq, hfiles, hcsr, hpc, hidle⟩ := s.me.unslept.wake_keeps
  obtain ⟨hdbg', hq', hfiles', hcsr', hpc'⟩ := s.me.unslept_keeps
  unfold State.debugStop RegsKept
  rw [State.me_updMe, hme]
  dsimp only
  rw [hdbg, hdbg', hq, hfiles, hcsr, hpc, hidle]
  exact ⟨rfl, rfl, rfl, rfl, ⟨hq', hfiles', by rw [hcsr']⟩, hpc'⟩

theorem underDebug_of {s : State} {k : Task} (h : s.myTask = some k) (hk : k.debug = true) : s.underDebug = true := by
  unfold State.underDebug; rw [h]; exact hk

theorem debugHalt_done {s : State} {k : Task} (hc : s.cur.core < nCores) (hr : s.runs = true) (ht : s.myTask = some k)
    (hk : k.debug = true) : exec .debugHalt s = .next (State.debugStop s) := by
  change execDebugHalt s = _
  unfold execDebugHalt
  exact onCore_due hc (by rw [underDebug_of ht hk, hr]; rfl)

/-! ### Breakpoints and single step (R405 to R407) -/

/-- What clearing SKIP leaves of a context. -/
theorem bpSkips_keep (l : List (Nat × Nat)) (s : State) :
    (l.foldl (fun s p => s.updMe (fun c => c.unskip p.1)) s).fw = s.fw ∧
      RegsKept s.me (l.foldl (fun s p => s.updMe (fun c => c.unskip p.1)) s) ∧
      (l.foldl (fun s p => s.updMe (fun c => c.unskip p.1)) s).me.pc = s.me.pc := by
  induction l generalizing s with
  | nil => exact ⟨rfl, ⟨rfl, rfl, rfl⟩, rfl⟩
  | cons p l ih =>
    obtain ⟨hfw, hregs, hpc⟩ := ih (s.updMe (fun c => c.unskip p.1))
    rw [State.me_updMe] at hregs hpc
    exact ⟨hfw, hregs, hpc⟩

theorem bpSkip_keeps (s : State) : s.bpSkip.fw = s.fw ∧ RegsKept s.me s.bpSkip ∧ s.bpSkip.me.pc = s.me.pc :=
  bpSkips_keep s.bpHits s

theorem bpStop_halts (s : State) (p : Nat × Nat) : (s.bpStop p).me.dbg.halted = true ∧ RegsKept s.me (s.bpStop p) ∧
    (s.bpStop p).me.pc = s.me.pc ∧
    (s.bpStop p).fw.reports = s.fw.reports ++ [⟨0x54, s.me.pc.setWidth 64, BitVec.ofNat 64 (p.2 + 256 * p.1)⟩] := by
  obtain ⟨hfw, ⟨hq, hfiles, hrng⟩, hpc⟩ := bpSkip_keeps s
  unfold State.bpStop RegsKept
  rw [State.report_me, State.report_reports, State.updMe_fw, State.me_updMe, hfw]
  exact ⟨rfl, ⟨hq, hfiles, hrng⟩, hpc, by rw [← hpc]; rfl⟩

theorem addressBreakpoint_done {s : State} {p : Nat × Nat} (h : Acts s) (hA : s.dueA = none) (hp : s.bpFirst = some p) :
    exec .addressBreakpoint s = .next (s.bpStop p) := by
  change execAddressBreakpoint s = _
  unfold execAddressBreakpoint
  rw [onCore_due h.1 (by rw [canAct_of_acts h, hA, hp]; rfl)]
  simp only [hp]

theorem singleStep_done {s : State} (hc : s.cur.core < nCores) (hr : s.runs = true) (hs : s.me.dbg.stepDone = true)
    (hA : s.dueA = none) : exec .singleStep s = .next s.stepReport := by
  change execSingleStep s = _
  unfold execSingleStep
  exact onCore_due hc (by unfold State.stepDue; rw [hr, hs, hA]; rfl)

theorem stepReport_halts (s : State) :
    s.stepReport.me = { s.me with dbg := { s.me.dbg with halted := true, stepDone := false } } ∧
    s.stepReport.fw.reports = s.fw.reports ++ [⟨0x55, s.me.pc.setWidth 64, 0⟩] := by
  have hme := State.me_updMe s (fun c => { c with dbg := { c.dbg with halted := true, stepDone := false } })
  exact ⟨hme, congrArg (fun c : Ctx => s.fw.reports ++ [⟨0x55, c.pc.setWidth 64, 0⟩]) hme⟩

/-! ### Planted breakpoints (R408, R409) -/

theorem brkPlant_done {s : State} {off task i : Nat} (hc : s.cur.core < nCores) (h8 : off % 8 = 0) (hoff : off < 0x10000)
    (ht : s.task task ≠ none) (hi : s.myCore.freeDisplaced = some i) (hd : ∀ d ∈ s.myCore.displaced, d.off ≠ off) :
    exec (.brkPlant off task) s = .next (s.updMyCore (fun x =>
      { x with ispad := x.ispad.writeWord off (brkWord (x.ispad.readWord off) i),
               displaced := x.displaced ++ [⟨i, off, x.ispad.readWord off, task⟩] })) := by
  have hnone : s.myCore.displaced.any (fun d => d.off == off) = false :=
    List.any_eq_false.mpr (fun d hm => by rw [beq_iff_eq]; exact hd d hm)
  change execBrkPlant off task s = _
  unfold execBrkPlant
  rw [onCore_due hc (by rw [h8, decide_eq_true hoff, Option.isSome_iff_ne_none.mpr ht, hi, hnone]; rfl)]
  simp only [hi]

theorem displacedOpExecute_done {s : State} (h : Acts s) (hk : ∀ k, s.myTask = some k → k.debug = false)
    (hb : s.myCore.issueBuf = none) (hd : ∃ w ∈ s.fetchWords s.myCore.ispad, ∃ d ∈ s.myCore.displaced, d.off = w.1.toNat) :
    exec .displacedOpExecute s = .next (s.updMyCore (fun x =>
      { x with issueBuf := some (s.cur.ctx, (s.fetchWords s.myCore.originals).map (·.2)) })).issueNext := by
  have hdbg : s.underDebug = false := by
    unfold State.underDebug
    split
    next k hm => exact hk k hm
    next => rfl
  have hplanted : s.atPlanted = true := by
    obtain ⟨w, hw, d, hm, he⟩ := hd
    exact List.any_eq_true.mpr ⟨w, hw, List.any_eq_true.mpr ⟨d, hm, beq_iff_eq.mpr he⟩⟩
  change execDisplacedOpExecute s = _
  unfold execDisplacedOpExecute
  rw [onCore_due h.1 (by rw [canAct_of_acts h, hdbg, hb, hplanted]; rfl)]

/-- R127, R129, R197, R403 to R409. -/
theorem debugControl : DebugControl := by
  refine ⟨fun s => rfl, fun s k hc hr ht hk => ⟨_, debugHalt_done hc hr ht hk, debugStop_halts s⟩, fun s hc h => ?_,
    fun s n k h hA hp => ⟨_, addressBreakpoint_done h hA hp, bpStop_halts s (n, k)⟩,
    fun s hc hr hs hA => ⟨_, singleStep_done hc hr hs hA, stepReport_halts s⟩,
    fun off task s i hc h8 hoff ht hi hd => ?_, fun s h hk hb hd => displacedOpExecute_done h hk hb hd⟩
  · change execDebugResume s = _
    unfold execDebugResume
    exact onCore_due hc h
  · exact brkPlant_done hc h8 hoff ht hi hd

end Sys2Proof.Machine
end

