-- ==== Sys2Proof/Proofs/DebugAccess.lean ====
section
/-! PROOFS. The debugger's reads and writes (R338, R403 to R405). -/

namespace Sys2Proof.Machine

open Sys2Proof.Claim

/-! ### Reads of a register -/

theorem readStatus_reg (poison : Bool) (t : Tag) : readStatus false poison false false t = regStatus t poison := by
  unfold readStatus regStatus
  cases poison <;> simp [bnat, Nat.add_comm]

theorem replyS_eq (x : SVal) : replyS x = ⟨regStatus x.tag x.poison.isSome, x.v.setWidth 2048⟩ := by
  unfold replyS; rw [readStatus_reg]

theorem replyV_eq (x : VVal) : replyV x = ⟨regStatus x.tag x.poison.isSome, x.v⟩ := by unfold replyV; rw [readStatus_reg]

theorem replyB_eq (n : Nat) : replyB n = ⟨regStatus .bits false, BitVec.ofNat 2048 n⟩ := by unfold replyB; rw [readStatus_reg]

theorem replyB_toNat {w : Nat} (x : BitVec w) : replyB x.toNat = ⟨regStatus .bits false, x.setWidth 2048⟩ := by
  rw [replyB_eq, BitVec.ofNat_toNat]

/-- What a read of a register does: its reply, none from a context that runs, and zero tagged UNDEF from a FREE bank (R404). -/
def ReadsReg (s : State) (t : DebugTarget) (r : DbgReply) : Prop :=
  (Stopped (s.core t.core) t.ctx → exec (.debugRead t) s = .next { s with dbgReply := some r }) ∧
  ((s.core t.core).reach t.ctx = .busy → exec (.debugRead t) s = .next { s with dbgReply := none }) ∧
  ((s.core t.core).reach t.ctx = .free →
    exec (.debugRead t) s = .next { s with dbgReply := some ⟨regStatus .undef false, 0⟩ })

theorem debugRead_at {s : State} {t : DebugTarget} (hc : t.core < nCores) (hk : t.ctx < 4) :
    exec (.debugRead t) s = .next (s.debugRead t) := by
  change execDebugRead t s = _
  unfold execDebugRead
  exact if_neg (by omega)

theorem readsReg {s : State} {t : DebugTarget} {r : DbgReply} (hc : t.core < nCores) (hk : t.ctx < 4)
    (hr : s.regReply t.core t.ctx t.item = some r) : ReadsReg s t r := by
  have hread : s.debugRead t = (match (s.core t.core).reach t.ctx with
      | .busy => { s with dbgReply := none }
      | .free => { s with dbgReply := some (replyNone false) }
      | _ => { s with dbgReply := s.regReply t.core t.ctx t.item }) := by
    unfold State.debugRead
    split
    next h => rw [h] at hr; cases hr
    next h => rw [h] at hr; cases hr
    next h => rw [h] at hr; cases hr
    next => rfl
  unfold ReadsReg
  rw [debugRead_at hc hk, hread, hr]
  refine ⟨fun h => ?_, fun h => ?_, fun h => ?_⟩
  · rcases h with h | h <;> rw [h]
  · rw [h]
  · rw [h]
    rfl

/-! ### Reads of the scratchpad -/

theorem readStatus_gated : (readStatus true false false false .undef).getLsbD 0 = true := by decide

theorem bnat_le (b : Bool) : bnat b ≤ 1 := by cases b <;> decide

/-- The status byte of a stripe that is on: its GATED bit is clear, and its tag stands in [7:4]. -/
theorem readStatus_awake (poison woke : Bool) (t : Tag) : (readStatus false poison false woke t).getLsbD 0 = false ∧
    (readStatus false poison false woke t).extractLsb' 4 4 = BitVec.ofNat 4 (tagCode t) := by
  have hp := bnat_le poison
  have hw := bnat_le woke
  have hf : bnat false = 0 := rfl
  unfold readStatus
  rw [hf]
  constructor
  · rw [BitVec.getLsbD_ofNat, Nat.testBit_zero, Bool.and_eq_false_iff]
    exact .inr (decide_eq_false (by omega))
  · apply BitVec.eq_of_toNat_eq
    simp only [BitVec.extractLsb'_toNat, BitVec.toNat_ofNat, Nat.shiftRight_eq_div_pow]
    omega

theorem debugRead_spad {s : State} {t : DebugTarget} {o : Nat} (hc : t.core < nCores) (hk : t.ctx < 4) (hi : t.item = .spad o)
    (ho : o + 8 ≤ 0x80000) : ∃ u r, exec (.debugRead t) s = .next u ∧ u.dbgReply = some r ∧
      if (s.core t.core).gated o = true ∨ (s.core t.core).gated (o + 7) = true then r.data = 0 ∧ r.status.getLsbD 0 = true
      else r.data = BitVec.ofNat 2048 (leNat ((s.core t.core).spad.readBytes o 8)) ∧ r.status.getLsbD 0 = false ∧
        r.status.extractLsb' 4 4 = BitVec.ofNat 4 (tagCode ((s.core t.core).tile (o / 4096)).tag) := by
  have hread : s.debugRead t = { (s.spadReply t.core o).1 with dbgReply := some (s.spadReply t.core o).2 } := by
    unfold State.debugRead; rw [hi]
  refine ⟨_, _, (debugRead_at hc hk).trans (by rw [hread]), rfl, ?_⟩
  unfold State.spadReply
  dsimp only
  rw [if_neg (show ¬ spadSize < o + 8 by unfold spadSize; omega)]
  by_cases hg : (s.core t.core).gated o = true ∨ (s.core t.core).gated (o + 7) = true
  · rw [if_pos hg, if_pos (by rw [Bool.or_eq_true]; exact hg)]
    exact ⟨rfl, readStatus_gated⟩
  · rw [if_neg hg, if_neg (by rw [Bool.or_eq_true]; exact hg)]
    exact ⟨rfl, readStatus_awake _ _ _⟩

/-! ### Writes of a register -/

/-- What a write of a register does: it changes a halted context alone (R403, R405). -/
def SetsReg (s : State) (t : DebugTarget) (v : VWord) (tag : Tag) (f : Ctx → Ctx) : Prop :=
  ((s.core t.core).reach t.ctx = .halted → exec (.debugWrite t v tag) s = .next (s.updCtx t.core t.ctx f)) ∧
  ((s.core t.core).reach t.ctx ≠ .halted → exec (.debugWrite t v tag) s = .next s)

/-- An item of a context that is written as it is: no control register, and no memory. -/
def RegItem (d : DebugItem) : Prop :=
  match d with
  | .spad _ | .tile _ | .phys _ | .csr _ => False
  | _ => True

theorem debugWrite_at {s : State} {t : DebugTarget} (v : VWord) (tag : Tag) (hc : t.core < nCores) (hk : t.ctx < 4) :
    exec (.debugWrite t v tag) s = .next (s.debugWrite t v tag) := by
  change execDebugWrite t v tag s = _
  unfold execDebugWrite
  exact if_neg (by omega)

theorem setsReg {s : State} {t : DebugTarget} (v : VWord) (tag : Tag) (hc : t.core < nCores) (hk : t.ctx < 4)
    {d : DebugItem} (hi : t.item = d) (hd : RegItem d) : SetsReg s t v tag (fun c => c.debugSet d v tag) := by
  subst hi
  have hwrite : s.debugWrite t v tag = if (s.core t.core).reach t.ctx = .halted
      then s.updCtx t.core t.ctx (fun c => c.debugSet t.item v tag) else s := by
    unfold State.debugWrite
    split
    next h => rw [h] at hd; exact hd.elim
    next h => rw [h] at hd; exact hd.elim
    next h => rw [h] at hd; exact hd.elim
    next h => rw [h] at hd; exact hd.elim
    next => rfl
  unfold SetsReg
  rw [debugWrite_at v tag hc hk, hwrite]
  exact ⟨fun h => by rw [if_pos h], fun h => by rw [if_neg h]⟩

theorem faultOfBits_low (v : VWord) : faultOfBits (v.setWidth 192) =
    if v.getLsbD 7 then some ⟨(v.extractLsb' 0 7).toNat, v.extractLsb' 64 64, v.extractLsb' 128 64⟩ else none := by
  have hbit : (v.setWidth 192).getLsbD 7 = v.getLsbD 7 := by simp
  have hpart : ∀ a n, a + n ≤ 192 → (v.setWidth 192).extractLsb' a n = v.extractLsb' a n := fun a n h => by
    ext i hi
    simp only [BitVec.getElem_extractLsb', BitVec.getLsbD_setWidth]
    rw [decide_eq_true (by omega), Bool.true_and]
  unfold faultOfBits
  rw [hbit, hpart 0 7 (by decide), hpart 64 64 (by decide), hpart 128 64 (by decide)]

/-! ### Writes of memory -/

theorem downgrades_spad (os : List Nat) (x : CoreState) : (os.foldl CoreState.downgrade x).spad = x.spad := by
  induction os generalizing x with
  | nil => rfl
  | cons o os ih => exact (ih (x.downgrade o)).trans rfl

theorem leBytes_length (n x : Nat) : (leBytes n x).length = n := by
  induction n generalizing x with
  | zero => rfl
  | succ n ih => exact congrArg (· + 1) (ih _)

theorem leBytes_getD {n i : Nat} (x : Nat) (d : Byte) (h : i < n) : (leBytes n x).getD i d = BitVec.ofNat 8 (x / 2 ^ (8 * i)) := by
  induction n generalizing x i with
  | zero => omega
  | succ n ih =>
    cases i with
    | zero => simp [leBytes]
    | succ i =>
      rw [leBytes, List.getD_cons_succ, ih _ (by omega), Nat.div_div_eq_div_mul, Nat.mul_succ, Nat.pow_add, Nat.mul_comm 256]

theorem leBytes_extract {n i : Nat} {w : Nat} (v : BitVec w) (d : Byte) (h : i < n) :
    (leBytes n v.toNat).getD i d = v.extractLsb' (8 * i) 8 := by
  rw [leBytes_getD _ _ h]
  simp [BitVec.extractLsb', Nat.shiftRight_eq_div_pow]

/-- Eight bytes lie in the stripes of the first and the last. -/
theorem gated_between {x : CoreState} {o i : Nat} (h0 : x.gated o = false) (h7 : x.gated (o + 7) = false) (hi : i < 8) :
    x.gated (i + o) = false := by
  have h : stripeOf (i + o) = stripeOf o ∨ stripeOf (i + o) = stripeOf (o + 7) := by unfold stripeOf; omega
  unfold CoreState.gated CoreState.stripe at *
  rcases h with h | h <;> rw [h] <;> assumption

/-- A write of bytes of which none is gated. -/
theorem spadWrite_spad {x : CoreState} {o : Nat} {bs : List Byte} (h : ∀ i < bs.length, x.gated (i + o) = false) :
    (x.spadWrite o bs).spad = x.spad.writeBytes o bs := by
  have hnone : ((List.range bs.length).map (· + o)).any x.gated = false := by
    rw [List.any_map]
    exact List.any_eq_false.mpr (fun i hi => by rw [Function.comp_apply, h i (List.mem_range.mp hi)]; decide)
  unfold CoreState.spadWrite
  dsimp only
  rw [if_neg (by rw [hnone]; decide), downgrades_spad]

theorem touch_spad (x : CoreState) (o t : Nat) : (x.touch o t).spad = x.spad := by rw [touch_eq]

theorem debugWrite_spad {s : State} {t : DebugTarget} {o : Nat} (v : VWord) (tag : Tag) (hc : t.core < nCores) (hk : t.ctx < 4)
    (hi : t.item = .spad o) (ho : o + 8 ≤ 0x80000) : ∃ u, exec (.debugWrite t v tag) s = .next u ∧ u.phys = s.phys ∧
      (∀ c, c ≠ t.core → u.core c = s.core c) ∧
      ((s.core t.core).spad.wf = true → (s.core t.core).gated o = false → (s.core t.core).gated (o + 7) = false →
        ∀ a, (u.core t.core).spad.read a =
          if o ≤ a ∧ a < o + 8 then v.extractLsb' (8 * (a - o)) 8 else (s.core t.core).spad.read a) := by
  have hwrite : s.debugWrite t v tag = s.updCore t.core (fun x =>
      ((x.touch o (s.eff t.core)).touch (o + 7) (s.eff t.core)).spadWrite o (leBytes 8 v.toNat)) := by
    unfold State.debugWrite
    rw [hi]
    exact if_neg (by unfold spadSize; omega)
  refine ⟨_, debugWrite_at v tag hc hk, ?_⟩
  rw [hwrite]
  refine ⟨rfl, fun c h => State.core_updCore_other s _ h, fun hw h0 h7 a => ?_⟩
  have hlen : (leBytes 8 v.toNat).length = 8 := leBytes_length _ _
  rw [State.core_updCore, spadWrite_spad (fun i hi => by rw [gated_touch, gated_touch]; exact gated_between h0 h7 (hlen ▸ hi)),
    touch_spad, touch_spad, Mem.read_writeBytes _ _ _ _ hw, hlen]
  split
  next h => exact leBytes_extract v _ (by omega)
  next => rfl

theorem debugWrite_tile {s : State} {t : DebugTarget} {n : Fin 128} (v : VWord) (tag : Tag) (hc : t.core < nCores)
    (hk : t.ctx < 4) (hi : t.item = .tile n) (hg : (s.core t.core).gated (4096 * n.val) = false) :
    exec (.debugWrite t v tag) s = .next (s.updCore t.core (fun x =>
      x.updTile n.val (fun _ => tileOfWord (v.setWidth 64)))) := by
  rw [debugWrite_at v tag hc hk]
  unfold State.debugWrite
  rw [hi]
  refine congrArg Host.Outcome.next (if_neg ?_)
  rw [show n.val * slotSize = 4096 * n.val from Nat.mul_comm _ _, hg]
  decide

/-! ### The obligation -/

/-- An item of a context, read. -/
theorem readsReg_of {s : State} {t : DebugTarget} (hc : t.core < nCores) (hk : t.ctx < 4) {d : DebugItem} {r r' : DbgReply}
    (hi : t.item = d) (hr : s.regReply t.core t.ctx d = some r) (h : r = r') : ReadsReg s t r' :=
  readsReg hc hk (by rw [hi, hr, h])

theorem replyQ_at {α : Type} {x : Option α} {e : α} (f : α → DbgReply) (h : x = some e) : replyQ (x.map f) = f e := by
  rw [h]; rfl

theorem replyB_bool (b : Bool) : replyB (bnat b) = ⟨regStatus .bits false, if b then 1 else 0⟩ := by
  rw [replyB_eq]; cases b <;> rfl

/-- An item of a context, written. -/
theorem setsReg_of {s : State} {t : DebugTarget} {v : VWord} {tag : Tag} (hc : t.core < nCores) (hk : t.ctx < 4)
    {d : DebugItem} {f : Ctx → Ctx} (hi : t.item = d) (hd : RegItem d) (h : ∀ c : Ctx, c.debugSet d v tag = f c) :
    SetsReg s t v tag f := (funext h : (fun c : Ctx => c.debugSet d v tag) = f) ▸ setsReg v tag hc hk hi hd

/-- R338, R403 to R405. -/
theorem debugAccess : DebugAccess := by
  refine ⟨fun s t hc hk => ?_, fun s t v tag hc hk => ?_⟩
  · intro x c reg
    have hat : ∀ {d : DebugItem} {r r' : DbgReply}, t.item = d → s.regReply t.core t.ctx d = some r → r = r' →
        ReadsReg s t r' := readsReg_of hc hk
    exact ⟨fun r h => hat h rfl (replyS_eq _), fun r h => hat h rfl (replyS_eq _), fun r h => hat h rfl (replyV_eq _),
      fun r h => hat h rfl (replyV_eq _), fun h => hat h rfl (replyB_toNat _),
      fun n e h he => hat h rfl ((replyQ_at _ he).trans (by rw [readStatus_reg])),
      fun n e h he => hat h rfl ((replyQ_at _ he).trans (replyB_eq _)),
      fun h => hat h rfl (replyB_toNat _), fun h => hat h rfl (replyB_toNat _), fun h => hat h rfl (replyB_bool _),
      fun k r h hf => hat h rfl ((replyB_toNat _).trans (by
        rw [show (s.ctx t.core t.ctx).tok.get k = c.tok.get k from rfl, hf]; rfl)),
      fun o => debugRead_spad hc hk⟩
  · intro x sets
    have hset : ∀ {d : DebugItem} {f : Ctx → Ctx}, t.item = d → RegItem d → (∀ c : Ctx, c.debugSet d v tag = f c) →
        SetsReg s t v tag f := setsReg_of hc hk
    exact ⟨fun r h => hset h trivial fun _ => rfl, fun r h => hset h trivial fun _ => rfl, fun r h => hset h trivial fun _ => rfl,
      fun r h => hset h trivial fun _ => rfl, fun h => hset h trivial fun _ => rfl, fun n h => hset h trivial fun _ => rfl,
      fun n h => hset h trivial fun _ => rfl, fun h => hset h trivial fun _ => rfl, fun h => hset h trivial fun _ => rfl,
      fun h => hset h trivial fun _ => rfl,
      fun k h => hset h trivial fun c => by rw [← faultOfBits_low]; rfl,
      fun n h hg => debugWrite_tile v tag hc hk h hg, fun h => hset h trivial fun _ => rfl, fun n h => hset h trivial fun _ => rfl,
      fun o h ho => debugWrite_spad v tag hc hk h ho⟩

/-- Settles O51: what each event of the debugger does, and what its accesses read and write. -/
theorem debugEvents : Obligations.DebugEvents := ⟨debugControl, debugAccess⟩

end Sys2Proof.Machine
end

