-- ==== Sys2Proof/Proofs/VectorInt.lean ====
section
/-! PROOFS. The vector integer ops (R137), VSEL and VDOT4 (R139): each lane function over numbers is the one over bit vectors. -/

namespace Sys2Proof.Machine

open Sys2Proof.Claim

/-! ### Ops done by lanes over bit vectors -/

/-- A vector op whose lanes are bit vectors, none of which raises a flag, delivers their merge. -/
theorem semVec_merges {i : Instr} {f : RegF} {s : State} {w : Nat} {tag : Tag} {tags : State → Option TagFail}
    {first : State → Option VVal} {res : State → At → List FRes} {free : State → List Bool} {a : VVal} {r : Nat → BitVec w}
    (hexec : exec i s = issueOne (semVec i f.w f.d f.g w tag tags first res free) i s) (hi : Instr.Lanewise i) (hr : s.Ready i)
    (htags : tags s = none) (hres : ∀ b, res s b = (List.range (2048 / w)).map (fun k => ((r k).toNat, 0)))
    (hfirst : first s = some a) :
    ∃ t v, exec i s = .next t ∧ VectorDone s t i f.w f.d v 0 ∧ Merged s f.g w tag a r v := by
  obtain ⟨t, v, hst, hd, hm⟩ := semVec_silent hexec hi hr htags hres hfirst (fun _ => rfl)
  exact ⟨t, v, hst, hd, Merged.congr hm (fun k _ => by rw [BitVec.ofNat_toNat, BitVec.setWidth_eq])⟩

/-! ### Lane functions over numbers and over bit vectors -/

/-- A lane function of the model is one over bit vectors at the tags that `p` accepts. -/
def LaneAgrees (p : Tag → Bool) (fn : LaneFn) (r : LaneTableFn) : Prop :=
  ∀ t, p t = true → ∀ a b c : BitVec (tagWidth t), fn t a.toNat b.toNat c.toNat = (r (tagWidth t) (t != .uint8) a b c).toNat

theorem agrees_vadd : LaneAgrees anyTag fnVadd (fun _ _ a b _ => a + b) := fun _ _ a b _ => (BitVec.toNat_add a b).symm

theorem agrees_vsub : LaneAgrees anyTag fnVsub (fun _ _ a b _ => a - b) := fun _ _ a b _ => by
  rw [BitVec.toNat_sub, Nat.add_comm]; rfl

theorem agrees_vmul : LaneAgrees anyTag fnVmul (fun _ _ a b _ => a * b) := fun _ _ a b _ => (BitVec.toNat_mul a b).symm

theorem agrees_vmadd : LaneAgrees anyTag fnVmadd (fun _ _ a b c => a * b + c) := fun _ _ a b c => by
  rw [BitVec.toNat_add, BitVec.toNat_mul, Nat.mod_add_mod]; rfl

theorem agrees_vmulh : LaneAgrees isIntTag fnVmulh (fun w sg a b _ =>
    if sg then (a.signExtend (2 * w) * b.signExtend (2 * w)).extractLsb' w w
    else (a.setWidth (2 * w) * b.setWidth (2 * w)).extractLsb' w w) := fun t ht a b _ => by
  rw [fnVmulh, intBits_eq_ofInt, intVal_eq ht, intVal_eq ht]
  cases t != .uint8
  · exact (toNat_extract_high _ _ _ (by
      rw [BitVec.toNat_setWidth_of_le (by omega), BitVec.toNat_setWidth_of_le (by omega)]; rfl)).symm
  · exact (toNat_extract_high _ _ _ ((signExtend_modEq (by omega) a).mul (signExtend_modEq (by omega) b))).symm

/-- Elements compare as the integers they hold. -/
theorem intVal_lt {t : Tag} (ht : isIntTag t = true) (a b : BitVec (tagWidth t)) :
    intVal t a.toNat < intVal t b.toNat ↔ (if t != .uint8 then a.slt b else a.ult b) = true := by
  rw [intVal_elemInt ht, intVal_elemInt ht, elemInt_lt]

theorem agrees_vmin : LaneAgrees isIntTag fnVmin
    (fun _ sg a b _ => if sg then (if b.slt a then b else a) else (if b.ult a then b else a)) := fun t ht a b _ => by
  refine (toNat_choice (intVal_lt ht b a) b a).trans ?_
  cases t != .uint8 <;> rfl

theorem agrees_vmax : LaneAgrees isIntTag fnVmax
    (fun _ sg a b _ => if sg then (if a.slt b then b else a) else (if a.ult b then b else a)) := fun t ht a b _ => by
  refine (toNat_choice (intVal_lt ht a b) b a).trans ?_
  cases t != .uint8 <;> rfl

theorem agrees_vand : LaneAgrees anyTag fnVand (fun _ _ a b _ => a &&& b) := fun _ _ a b _ => (BitVec.toNat_and a b).symm
theorem agrees_vor : LaneAgrees anyTag fnVor (fun _ _ a b _ => a ||| b) := fun _ _ a b _ => (BitVec.toNat_or a b).symm
theorem agrees_vxor : LaneAgrees anyTag fnVxor (fun _ _ a b _ => a ^^^ b) := fun _ _ a b _ => (BitVec.toNat_xor a b).symm
theorem agrees_vandn : LaneAgrees anyTag fnVandn (fun _ _ a b _ => a &&& ~~~b) := fun _ _ a b _ => by
  rw [BitVec.toNat_and, BitVec.toNat_not]; rfl

theorem agrees_vshl : LaneAgrees anyTag fnVshl (fun w _ a b _ => a <<< (b.toNat % w)) := fun _ _ a b _ => by
  rw [BitVec.toNat_shiftLeft, Nat.shiftLeft_eq]; rfl

theorem agrees_vshr : LaneAgrees anyTag fnVshr (fun w _ a b _ => a >>> (b.toNat % w)) := fun _ _ a b _ => by
  rw [BitVec.toNat_ushiftRight, Nat.shiftRight_eq_div_pow]; rfl

theorem ofInt_toNat_div {w : Nat} (a : BitVec w) (k : Nat) : BitVec.ofInt w ((a.toNat : Int) / 2 ^ k) = a >>> k := by
  have h : (a.toNat : Int) / 2 ^ k = ((a >>> k).toNat : Int) := by
    rw [BitVec.toNat_ushiftRight, Nat.shiftRight_eq_div_pow]; push_cast; rfl
  rw [h, BitVec.ofInt_natCast, BitVec.ofNat_toNat, BitVec.setWidth_eq]

theorem ofInt_toInt_div {w : Nat} (a : BitVec w) (k : Nat) : BitVec.ofInt w (a.toInt / 2 ^ k) = a.sshiftRight k := by
  have h : a.toInt / 2 ^ k = (a.sshiftRight k).toInt := by
    rw [BitVec.toInt_sshiftRight, Int.shiftRight_eq_div_pow]; push_cast; rfl
  rw [h, BitVec.ofInt_toInt]

theorem agrees_vsar : LaneAgrees isIntTag fnVsar
    (fun w sg a b _ => if sg then a.sshiftRight (b.toNat % w) else a >>> (b.toNat % w)) := fun t ht a b _ => by
  rw [fnVsar, intBits_eq_ofInt, intVal_eq ht]
  cases t != .uint8
  · exact congrArg BitVec.toNat (ofInt_toNat_div a _)
  · exact congrArg BitVec.toNat (ofInt_toInt_div a _)

theorem agrees_vabs : LaneAgrees isIntTag fnVabs (fun _ sg a _ _ => if sg && a.msb then -a else a) := fun t ht a _ _ => by
  rw [fnVabs, intBits_eq_ofInt, intVal_eq ht]
  cases t != .uint8
  · have hpos : ¬ (a.toNat : Int) < 0 := by omega
    simp only [Bool.false_eq_true, if_false, Bool.false_and, hpos, BitVec.ofInt_natCast, BitVec.ofNat_toNat, BitVec.setWidth_eq]
  · have hneg : a.toInt < 0 ↔ a.msb = true := by simp [BitVec.msb_eq_toInt]
    simp only [if_true, Bool.true_and, hneg]
    split
    · rw [BitVec.ofInt_neg, BitVec.ofInt_toInt]
    · rw [BitVec.ofInt_toInt]

theorem agrees_vpopc : LaneAgrees anyTag fnVpopc (fun _ _ a _ _ => a.cpop) := fun t _ a _ _ =>
  (popcount_toNat a (tagWidth t)).trans (BitVec.toNat_cpop a).symm

/-! ### Ops done by their lane function (R137) -/

/-- The lane results of an integer op by number. -/
theorem LaneAgrees.intLanes_eq {p : Tag → Bool} {fn : LaneFn} {r : LaneTableFn} (h : LaneAgrees p fn r) {f : RegF}
    (ht : p (vT f) = true) (s : State) : intLanes f fn s = (List.range (2048 / tagWidth (vT f))).map (fun k =>
      ((r (tagWidth (vT f)) (vT f != .uint8) (laneA f s _ k) (laneB f s _ k) (laneC f s _ k)).toNat, 0)) := by
  unfold intLanes
  rw [vA_eq, vB_eq, vC_eq, List.zip_map', List.zip_map', List.map_map]
  exact congrArg (List.map · _) (funext fun k => congrArg (·, 0) (h _ ht _ _ _))

/-- An op of R137 with its result tag and its lane function over bit vectors, at the tags that `p` accepts. -/
structure IntOp (i : RegF → Instr) (p : Tag → Bool) (tag : Tag → Tag) (r : LaneTableFn) : Prop where
  exec : ∃ fn, LaneAgrees p fn r ∧ ∀ f s, exec (i f) s = issueOne (semVInt f (i f) (tag (vT f)) fn) (i f) s
  tags : ∀ f, fieldsOk (i f) = true → p (vT f) = true
  lone : ∀ f, opsOf 0 (i f) = [i f] := by exact fun _ => rfl
  lanewise : ∀ f, Instr.Lanewise (i f) := by
    exact fun f => { plain := rfl, light := ⟨rfl, rfl, rfl, rfl⟩, words := rfl, noD := by simp [srcs, vecB] }

theorem IntOp.done {i : RegF → Instr} {p : Tag → Bool} {tag : Tag → Tag} {r : LaneTableFn} (h : IntOp i p tag r) {f : RegF}
    {s : State} (hr : s.Ready (i f)) (ht : VecTagsMatch s (i f) (tagT f)) :
    ∃ t v, Machine.exec (i f) s = .next t ∧ VectorDone s t (i f) f.w f.d v 0 ∧
      Merged s f.g (tagWidth (vT f)) (tag (vT f)) (s.rdV (vT f) f.a)
        (fun k => r (tagWidth (vT f)) (vT f != .uint8) (laneA f s _ k) (laneB f s _ k) (laneC f s _ k)) v := by
  obtain ⟨fn, hag, hexec⟩ := h.exec
  have htag : p (vT f) = true := h.tags f (fieldsOk_of_wf (wf_of_ready hr) (h.lone f))
  exact semVec_merges (hexec f s) (h.lanewise f) hr (vecTags_of_match (h.lanewise f) ht (fun _ _ => mem_acceptT))
    (fun _ => hag.intLanes_eq htag s) rfl

theorem intOp_of_mem : ∀ q ∈ laneTable, ∃ p, IntOp q.1 p q.2.1 q.2.2 := by
  simp only [laneTable, List.forall_mem_cons]
  exact ⟨⟨_, { exec := ⟨_, agrees_vadd, fun _ _ => rfl⟩, tags := fun _ _ => rfl }⟩,
    ⟨_, { exec := ⟨_, agrees_vsub, fun _ _ => rfl⟩, tags := fun _ _ => rfl }⟩,
    ⟨_, { exec := ⟨_, agrees_vmul, fun _ _ => rfl⟩, tags := fun _ _ => rfl }⟩,
    ⟨_, { exec := ⟨_, agrees_vmulh, fun _ _ => rfl⟩, tags := fun _ => vT_of_vecOk_rm }⟩,
    ⟨_, { exec := ⟨_, agrees_vmin, fun _ _ => rfl⟩, tags := fun _ => vT_of_vecOk_rm }⟩,
    ⟨_, { exec := ⟨_, agrees_vmax, fun _ _ => rfl⟩, tags := fun _ => vT_of_vecOk_rm }⟩,
    ⟨_, { exec := ⟨_, agrees_vand, fun _ _ => rfl⟩, tags := fun _ _ => rfl }⟩,
    ⟨_, { exec := ⟨_, agrees_vor, fun _ _ => rfl⟩, tags := fun _ _ => rfl }⟩,
    ⟨_, { exec := ⟨_, agrees_vxor, fun _ _ => rfl⟩, tags := fun _ _ => rfl }⟩,
    ⟨_, { exec := ⟨_, agrees_vandn, fun _ _ => rfl⟩, tags := fun _ _ => rfl }⟩,
    ⟨_, { exec := ⟨_, agrees_vshl, fun _ _ => rfl⟩, tags := fun _ _ => rfl }⟩,
    ⟨_, { exec := ⟨_, agrees_vshr, fun _ _ => rfl⟩, tags := fun _ _ => rfl }⟩,
    ⟨_, { exec := ⟨_, agrees_vsar, fun _ _ => rfl⟩, tags := fun _ => vT_of_vecOk_rm }⟩,
    ⟨_, { exec := ⟨_, agrees_vabs, fun _ _ => rfl⟩, tags := fun _ => vT_of_vecOk_rm }⟩,
    ⟨_, { exec := ⟨_, agrees_vmadd, fun _ _ => rfl⟩, tags := fun _ _ => rfl }⟩,
    ⟨_, { exec := ⟨_, agrees_vpopc, fun _ _ => rfl⟩, tags := fun _ _ => rfl }⟩,
    by simp⟩

theorem vectorIntegers : VectorIntegers := fun q hq _ _ hr ht =>
  have ⟨_, h⟩ := intOp_of_mem q hq
  h.done hr ht

/-! ### VSEL (R137) -/

theorem lanewise_vsel (f : RegF) : Instr.Lanewise (.vsel f) :=
  { plain := rfl, light := ⟨rfl, rfl, rfl, rfl⟩, words := rfl, noD := by simp [srcs, vecB] }

theorem selLanes_eq (f : RegF) (s : State) :
    selLanes f s = (List.range (2048 / tagWidth (vT f))).map (fun k =>
      ((if (maskBits f s f.c).getLsbD k then laneA f s (tagWidth (vT f)) k else laneB f s (tagWidth (vT f)) k).toNat, 0)) := by
  unfold selLanes
  rw [vA_eq, vB_eq, List.zip_map', zipIdx_map_range, List.map_map]
  exact congrArg (List.map · _) (funext fun k => congrArg (·, 0) (apply_ite BitVec.toNat _ _ _).symm)

theorem vsel_holds (f : RegF) (s : State) (hr : s.Ready (.vsel f))
    (ht : VecTagsMatch s (.vsel f) (fun x t => if x.idx = 2 then t = .bits else tagT f x t)) :
    MoveDone f s (.vsel f) (fun k => if (maskBits f s f.c).getLsbD k then laneA f s _ k else laneB f s _ k) := by
  have htags : vecTags f (.vsel f) (acceptSel f) s = none :=
    vecTags_of_match (lanewise_vsel f) ht (fun _ _ => mem_accept_at (fun h => by simp [h]))
  exact semVec_merges rfl (lanewise_vsel f) hr htags (fun _ => selLanes_eq f s) rfl

/-! ### VDOT4 (R139) -/

theorem lanewise_vdot4 (f : RegF) : Instr.Lanewise (.vdot4 f) :=
  { plain := rfl, light := ⟨rfl, rfl, rfl, rfl⟩, words := rfl, noD := by simp [srcs, vecB] }

/-- The low bytes of a scalar by number. -/
theorem splitNat_bytes (n : Nat) (v : Word) :
    splitNat 8 n v.toNat = (List.range n).map (fun j => (v.extractLsb' (8 * j) 8).toNat) :=
  List.ext_getElem (by simp [splitNat_length]) (fun j hj _ => by
    rw [splitNat_at 8 n v.toNat j (by rwa [splitNat_length] at hj)]
    simp [BitVec.extractLsb'_toNat, Nat.shiftRight_eq_div_pow])

/-- Copies of a group of `m`, by number. -/
theorem flatten_replicate_range (n m : Nat) (p : Nat → α) :
    (List.replicate n ((List.range m).map p)).flatten = (List.range (m * n)).map (fun k => p (k % m)) := by
  induction n with
  | zero => rfl
  | succ n ih =>
    rw [List.replicate_succ', List.flatten_concat, ih, Nat.mul_succ, List.range_add, List.map_append, List.map_map]
    refine congrArg (_ ++ ·) (List.map_congr_left fun k hk => ?_)
    rw [Function.comp_apply, Nat.mul_add_mod, Nat.mod_eq_of_lt (List.mem_range.mp hk)]

/-- Byte `j` of B in VDOT4: with X[3] the four low bytes of the scalar serve every lane (R139). -/
def dotByte (f : RegF) (s : State) (j : Nat) : BitVec 8 :=
  if f.x.getLsbD 3 then (s.rdS (vT f) f.b).v.extractLsb' (8 * (j % 4)) 8 else lane 8 (s.rdV (vT f) f.b).v j

theorem dot4B_eq (f : RegF) (s : State) : dot4B f s = (List.range 256).map (fun j => (dotByte f s j).toNat) := by
  unfold dot4B dotByte vX3
  split
  · rw [splitNat_bytes, flatten_replicate_range]
  · exact lanesOf_eq _ _

/-- Elements in a row of a list by number. -/
theorem take_drop_range {n k m : Nat} (p : Nat → α) (h : k + m ≤ n) :
    (((List.range n).map p).drop k).take m = (List.range m).map (fun j => p (k + j)) :=
  List.ext_getElem (by simp; omega) (fun j _ _ => by simp)

/-- A byte as VDOT4 extends it by T (R139). -/
def dotExt (t : Tag) (x : BitVec 8) : BitVec 32 := if t = .uint8 then x.setWidth 32 else x.signExtend 32

theorem ofInt_intVal_byte {t : Tag} (ht : (t == .int8 || t == .uint8) = true) (x : BitVec 8) :
    BitVec.ofInt 32 (intVal t x.toNat) = dotExt t x := by
  simp only [Bool.or_eq_true, beq_iff_eq] at ht
  rcases ht with rfl | rfl
  · exact congrArg (BitVec.ofInt 32) (intVal_eq (t := .int8) rfl x)
  · refine (congrArg (BitVec.ofInt 32) (intVal_eq (t := .uint8) rfl x)).trans ?_
    exact (BitVec.ofInt_natCast ..).trans (BitVec.ofNat_toNat ..)

/-- The sum of a lane of C and four products is taken modulo 2^32 (R139). -/
theorem intBits_dot4 {t : Tag} (ht : (t == .int8 || t == .uint8) = true) (c : BitVec 32) (a b : Nat → BitVec 8) :
    intBits 32 ((c.toNat : Int) + dot4 t ((List.range 4).map (fun j => (a j).toNat)) ((List.range 4).map (fun j => (b j).toNat))) =
      (c + dotExt t (a 0) * dotExt t (b 0) + dotExt t (a 1) * dotExt t (b 1) + dotExt t (a 2) * dotExt t (b 2) +
        dotExt t (a 3) * dotExt t (b 3)).toNat := by
  rw [intBits_eq_ofInt, dot4, List.zip_map', List.map_map]
  simp only [List.range_succ, List.range_zero, List.nil_append, List.cons_append, List.map_cons, List.map_nil, List.sum_cons,
    List.sum_nil, Function.comp_apply, BitVec.ofInt_add, BitVec.ofInt_mul, ofInt_intVal_byte ht, BitVec.ofInt_natCast,
    BitVec.ofNat_toNat, BitVec.setWidth_eq, BitVec.add_assoc, add_zero]

theorem dot4Lanes_eq {f : RegF} (ht : (vT f == .int8 || vT f == .uint8) = true) (s : State) :
    dot4Lanes f s = (List.range 64).map (fun k => ((dotLane f s k).toNat, 0)) := by
  unfold dot4Lanes
  simp only [dot4B_eq, lanesOf_eq, zipIdx_map_range, List.map_map]
  refine List.map_congr_left (fun k hk => ?_)
  have hk : k < 64 := List.mem_range.mp hk
  simp only [Function.comp_apply]
  rw [take_drop_range _ (by omega), take_drop_range _ (by omega), intBits_dot4 ht]
  simp only [dotByte, Nat.mul_add_mod]
  rfl

theorem vdot4_holds (f : RegF) (s : State) (hr : s.Ready (.vdot4 f))
    (ht : VecTagsMatch s (.vdot4 f) (fun x t => if x.idx = 2 then t = .int32 else tagT f x t)) :
    ∃ t v, exec (.vdot4 f) s = .next t ∧ VectorDone s t (.vdot4 f) f.w f.d v 0 ∧
      Merged s f.g 32 .int32 (s.rdV .int32 f.c) (dotLane f s) v := by
  have htag : (vT f == .int8 || vT f == .uint8) = true :=
    vT_of_vecOk_rm (p := fun t => t == .int8 || t == .uint8) (fieldsOk_of_wf (wf_of_ready hr) rfl)
  have htags : vecTags f (.vdot4 f) (acceptDot4 f) s = none :=
    vecTags_of_match (lanewise_vdot4 f) ht (fun _ _ => mem_accept_at (fun h => by simp [h]))
  exact semVec_merges rfl (lanewise_vdot4 f) hr htags (fun _ => dot4Lanes_eq htag s) rfl

/-- Settles O4: each op is done by its lane function over numbers, which is that of its table over bit vectors at every tag the
entry allows. -/
theorem vectorLanes : Obligations.VectorLanes := ⟨vectorIntegers, vsel_holds, vdot4_holds⟩

end Sys2Proof.Machine
end

