-- ==== Sys2Proof/Proofs/LaneMoves.lean ====
section
/-! PROOFS. The permutes and lane moves (R151 to R153, R155 to R157) and the carry-less product (R159), lane by lane. -/

namespace Sys2Proof.Machine

open Sys2Proof.Claim

/-! ### Results with no vector to fall back on (R132) -/

theorem zeroed_mergeV (s : State) (g : Guard) (w : Nat) (tag : Tag) (n : Nat → Nat) :
    Zeroed s g w tag (fun k => BitVec.ofNat w (n k))
      (mergeV w tag (s.laneMask g (laneCount w)) none ((List.range (2048 / w)).map n)) := by
  refine ⟨fun k hk => ?_, rfl, rfl⟩
  unfold mergeV State.laneMask laneCount
  simp only [List.zip_map', List.map_map]
  rw [lane_packLanes_range _ hk (laneCount_le _)]
  exact apply_ite (BitVec.ofNat w) _ _ _

/-- A vector op with no vector to fall back on, whose lanes raise no flag. -/
theorem semVec_zeroes {i : Instr} {s : State} {W : Bool} {d : DReg} {g : Guard} {w : Nat} {tag : Tag}
    {tags : State → Option TagFail} {first : State → Option VVal} {res : State → At → List FRes} {free : State → List Bool}
    {n : Nat → Nat} {r : Nat → BitVec w} (hexec : exec i s = issueOne (semVec i W d g w tag tags first res free) i s)
    (hp : Instr.plain i) (hl : Instr.light i) (hr : s.Ready i) (htags : tags s = none) (hfirst : first s = none)
    (hres : ∀ b, res s b = (List.range (2048 / w)).map (fun k => (n k, 0))) (hn : ∀ k, BitVec.ofNat w (n k) = r k) :
    ∃ t v, exec i s = .next t ∧ VectorDone s t i W d v 0 ∧ Zeroed s g w tag r v := by
  have hflags : laneFlags (s.laneMask g (2048 / w)) ((List.range (2048 / w)).map (fun k => (n k, 0))) = [] :=
    laneFlags_silent _ _ _ (fun _ => rfl)
  obtain ⟨t, hst, hd⟩ := issueOne_semVec s i W d g w tag tags first res free hp hl hr htags
    (Or.inr (by rw [hres]; exact hflags ▸ flagTrap_nil _))
  rw [hres, laneCount, hflags, hfirst, List.map_map] at hd
  exact ⟨t, _, hexec.trans hst, hd, funext hn ▸ zeroed_mergeV s g w tag n⟩

/-- A scalar cut to an element, as a number and as a bit vector. -/
theorem ofNat_mod_toNat {n : Nat} (w : Nat) (x : BitVec n) : BitVec.ofNat w (x.toNat % 2 ^ w) = x.setWidth w :=
  BitVec.eq_of_toNat_eq (by simp)

/-! ### Ops that move lanes (R151 to R157) -/

/-- An op that raises no flag and falls back on A moves the lanes that its list holds, by number. -/
theorem semMove_done {i : Instr} {f : RegF} {s : State} {accept : Src → List Tag × Tag} {ok : Src → Tag → Prop}
    {res : State → List Nat} {r : Nat → BitVec (tagWidth (vT f))}
    (hexec : exec i s = issueOne (semMove f i accept (vFirst f) res) i s) (hr : s.Ready i) (ht : VecTagsMatch s i ok)
    (hok : ∀ x t, ok x t → t ∈ (accept x).1)
    (hres : res s = (List.range (2048 / tagWidth (vT f))).map (fun k => (r k).toNat))
    (hi : Instr.Lanewise i := by
      exact { plain := rfl, light := ⟨rfl, rfl, rfl, rfl⟩, words := rfl, noD := by simp [srcs, vecB] }) : MoveDone f s i r :=
  semVec_merges hexec hi hr (vecTags_of_match hi ht hok) (fun _ => by rw [hres, List.map_map]; rfl) rfl

/-- The tags of an index operand: INT64 or INT32 (R151, R156, R157). -/
theorem mem_indexTags {t : Tag} (h : indexTag t) : t ∈ indexTags.1 := by
  rcases h with rfl | rfl <;> decide

theorem mem_acceptIndexB {f : RegF} {x : Src} {t : Tag} (h : if x.idx = 1 then indexTag t else tagT f x t) :
    t ∈ (acceptIndexB f x).1 := by
  unfold acceptIndexB
  by_cases hx : x.idx = 1
  · rw [if_pos hx] at h ⊢; exact mem_indexTags h
  · rw [if_neg hx] at h ⊢; exact mem_acceptT h

theorem mem_acceptMaskB {f : RegF} {x : Src} {t : Tag} (h : if x.idx = 1 then t = .bits else tagT f x t) :
    t ∈ (acceptMaskB f x).1 := mem_accept_at (fun h => by simp [h]) h

/-! ### VPERM (R151) -/

theorem mem_acceptPerm {f : RegF} {x : Src} {t : Tag}
    (h : if x.idx = 1 then
        (if x.vec then (t = sintOf (tagWidth (vT f)) ∨ (tagWidth (vT f) = 8 ∧ t = .uint8)) else indexTag t)
      else tagT f x t) : t ∈ (acceptPerm f x).1 := by
  unfold acceptPerm
  by_cases hx : x.idx = 1
  · rw [if_pos hx] at h ⊢
    by_cases hv : x.vec = true
    · rw [if_pos hv] at h ⊢
      by_cases hw : tagWidth (vT f) = 8
      · rw [if_pos hw]
        rw [hw] at h
        rcases h with rfl | ⟨-, rfl⟩ <;> decide
      · rw [if_neg hw]
        rcases h with rfl | ⟨h8, -⟩
        · exact List.mem_singleton_self _
        · exact absurd h8 hw
    · rw [if_neg hv] at h ⊢; exact mem_indexTags h
  · rw [if_neg hx] at h ⊢; exact mem_acceptT h

theorem permLanes_eq (f : RegF) (s : State) : permLanes f s = (List.range (2048 / tagWidth (vT f))).map (fun k =>
    (laneA f s (tagWidth (vT f)) ((laneBInt f s (tagWidth (vT f)) k).toNat % (2048 / tagWidth (vT f)))).toNat) := by
  unfold permLanes
  rw [vBInt_eq, List.map_map]
  exact congrArg (List.map · _) (funext fun k => laneAt_eq _ _ _)

/-! ### VSHUF (R152) -/

/-- Inverting the low bit of a lane number. -/
theorem xor_one (k : Nat) : k ^^^ 1 = if k % 2 = 0 then k + 1 else k - 1 := by
  have hhalf : (k ^^^ 1) / 2 = k / 2 := by simpa using Nat.xor_div_two (a := k) (b := 1)
  have hbit := Nat.xor_mod_two_eq (m := k) (n := 1)
  split <;> omega

/-- The lane of A or B that a pattern names. -/
theorem shufLane_eq (f : RegF) (s : State) (k : Nat) : shufLane f s (tagWidth (vT f)) k =
    lane (tagWidth (vT f)) (if (shufSrc (f.x.toNat % 8) (vL f) k).1 then (s.rdV (vT f) f.b).v else (s.rdV (vT f) f.a).v)
      (shufSrc (f.x.toNat % 8) (vL f) k).2 := by
  unfold shufLane shufSrc
  rw [show vL f = 2048 / tagWidth (vT f) from rfl]
  generalize 2048 / tagWidth (vT f) = l
  have hodd : (k % 2 == 1) = !decide (k % 2 = 0) := by
    rcases Nat.mod_two_eq_zero_or_one k with h | h <;> simp [h]
  match f.x.toNat % 8 with
  | 0 => by_cases h : k % 2 = 0 <;> simp [hodd, h, laneA]
  | 1 => by_cases h : k % 2 = 0 <;> simp [hodd, h, laneA]
  | 2 => by_cases h : k < l / 2 <;> simp [h, laneA]
  | 3 => by_cases h : k < l / 2 <;> simp [h, laneA]
  | 4 => rfl
  | 5 => simp [xor_one, laneA]
  | _ + 6 => by_cases h : k < l / 2 <;> simp [h, laneA]

theorem shufLanes_eq (f : RegF) (s : State) :
    shufLanes f s = (List.range (2048 / tagWidth (vT f))).map (fun k => (shufLane f s (tagWidth (vT f)) k).toNat) :=
  congrArg (List.map · _) (funext fun k => by rw [shufLane_eq, ← laneAt_eq])

/-! ### VCMPRS (R155) -/

/-- The numbers that a predicate picks, the first one apart. -/
theorem length_filter_range_succ (p : Nat → Bool) (n : Nat) : ((List.range (n + 1)).filter p).length =
    (if p 0 then 1 else 0) + ((List.range n).filter (fun j => p (j + 1))).length := by
  rw [List.range_succ_eq_map, List.filter_cons, List.filter_map, Nat.add_comm]
  split <;> simp <;> rfl

/-- The element of number `k` among those that a predicate picks is the one with `k` picked before it. -/
theorem filter_range_getElem? (p : Nat → Bool) (n k : Nat) : ((List.range n).filter p)[k]? =
    (List.range n).find? (fun j => p j && ((List.range j).filter p).length == k) := by
  induction n with
  | zero => rfl
  | succ n ih =>
    rw [List.range_succ, List.filter_append, List.find?_append, ← ih]
    by_cases hk : k < ((List.range n).filter p).length
    · rw [List.getElem?_append_left hk, List.getElem?_eq_getElem hk, Option.some_or]
    · have hk := Nat.le_of_not_lt hk
      rw [List.getElem?_append_right hk, List.getElem?_eq_none hk, Option.none_or]
      cases hn : p n
      · simp [hn]
      · by_cases he : ((List.range n).filter p).length = k
        · simp [hn, he]
        · have hlt : ((List.range n).filter p).length < k := by omega
          simp [hn, he, show k - ((List.range n).filter p).length ≠ 0 by omega]

theorem packLane_eq (f : RegF) (s : State) (w k : Nat) : packLane f s w k =
    ((((List.range (2048 / w)).filter (fun j => (maskBits f s f.b).getLsbD j))[k]?).map (laneA f s w)).getD 0 := by
  rw [filter_range_getElem?]
  unfold packLane maskRank
  split
  · rename_i h; rw [h]; rfl
  · rename_i h; rw [h]; rfl

/-- A list with zeros behind it, by number. -/
theorem append_zeros_range {n : Nat} (l : List Nat) (hl : l.length ≤ n) :
    l ++ List.replicate (n - l.length) 0 = (List.range n).map (fun k => (l[k]?).getD 0) :=
  List.ext_getElem (by simp; omega) (fun k hk _ => by
    rw [List.getElem_map, List.getElem_range]
    by_cases h : k < l.length
    · rw [List.getElem_append_left h, List.getElem?_eq_getElem h, Option.getD_some]
    · rw [List.getElem_append_right (by omega), List.getElem_replicate, List.getElem?_eq_none (by omega), Option.getD_none])

theorem cmprsLanes_eq (f : RegF) (s : State) : cmprsLanes f s = (List.range (2048 / tagWidth (vT f))).map (fun k =>
    (packLane f s (tagWidth (vT f)) k).toNat) := by
  have hpick : (vA f s).zipIdx.filterMap (fun p => if (maskOpd f f.b s).getLsbD p.2 then some p.1 else none) =
      ((List.range (2048 / tagWidth (vT f))).filter (fun j => (maskBits f s f.b).getLsbD j)).map
        (fun k => (laneA f s (tagWidth (vT f)) k).toNat) := by
    rw [vA_eq, zipIdx_map_range, List.filterMap_map, ← List.filterMap_eq_filter, List.map_filterMap]
    refine List.filterMap_congr fun k _ => ?_
    simp only [Function.comp_apply, Option.guard, apply_ite (Option.map _)]
    rfl
  unfold cmprsLanes
  dsimp only
  rw [hpick, vL, laneCount, append_zeros_range _ (by
    rw [List.length_map]; exact (List.length_filter_le _ _).trans_eq List.length_range)]
  refine congrArg (List.map · _) (funext fun k => ?_)
  rw [packLane_eq, List.getElem?_map]
  cases ((List.range (2048 / tagWidth (vT f))).filter (fun j => (maskBits f s f.b).getLsbD j))[k]? <;> rfl

/-! ### VEXPND (R155) -/

theorem expandBy_true (m : List Bool) (xs : List Nat) : expandBy (true :: m) xs = (xs[0]?).getD 0 :: expandBy m (xs.drop 1) := by
  cases xs <;> rfl

/-- The lanes that a list is spread over, by number: a lane takes the element with as many before it as lanes are picked below. -/
theorem expandBy_range (p : Nat → Bool) (n : Nat) (xs : List Nat) : expandBy ((List.range n).map p) xs =
    (List.range n).map (fun k => if p k then (xs[((List.range k).filter p).length]?).getD 0 else 0) := by
  induction n generalizing p xs with
  | zero => rfl
  | succ n ih =>
    rw [List.range_succ_eq_map, List.map_cons, List.map_cons, List.map_map, List.map_map]
    cases h0 : p 0
    · rw [expandBy, ih]
      refine congrArg₂ List.cons rfl (List.map_congr_left fun k _ => ?_)
      simp only [Function.comp_apply, Nat.succ_eq_add_one, length_filter_range_succ, h0, Bool.false_eq_true, if_false, Nat.zero_add]
      rfl
    · rw [expandBy_true, ih]
      refine congrArg₂ List.cons rfl (List.map_congr_left fun k _ => ?_)
      simp only [Function.comp_apply, Nat.succ_eq_add_one, length_filter_range_succ, h0, if_true, List.getElem?_drop]
      rfl

theorem expndLanes_eq (f : RegF) (s : State) : expndLanes f s = (List.range (2048 / tagWidth (vT f))).map (fun k =>
    (if (maskBits f s f.b).getLsbD k then laneA f s (tagWidth (vT f)) (maskRank f s k) else 0).toNat) := by
  have hrank : ∀ k, maskRank f s k ≤ k := fun k => (List.length_filter_le _ _).trans_eq List.length_range
  unfold expndLanes
  dsimp only
  rw [vA_eq, vL, laneCount, expandBy_range]
  refine List.map_congr_left (fun k hk => ?_)
  have hlt : maskRank f s k < 2048 / tagWidth (vT f) := lt_of_le_of_lt (hrank k) (List.mem_range.mp hk)
  rw [apply_ite BitVec.toNat]
  refine if_congr Iff.rfl ?_ rfl
  exact getD_map_range _ _ _ 0 hlt

/-! ### VSLIDE, VINS, VEXTR (R156, R157) -/

theorem slideLanes_eq (f : RegF) (s : State) :
    slideLanes f s = (List.range (2048 / tagWidth (vT f))).map (fun k => (slideLane f s (tagWidth (vT f)) k).toNat) := by
  unfold slideLanes slideLane
  simp only [laneAt_eq, apply_ite BitVec.toNat]
  rfl

theorem insLanes_eq (f : RegF) (s : State) : insLanes f s = (List.range (2048 / tagWidth (vT f))).map (fun k =>
    (if k = (s.rdS .int64 f.b).v.toNat % (2048 / tagWidth (vT f)) then (s.rdS (vT f) f.c).v.setWidth _
      else laneA f s (tagWidth (vT f)) k).toNat) := by
  unfold insLanes
  dsimp only
  rw [vA_eq, zipIdx_map_range, List.map_map]
  refine congrArg (List.map · _) (funext fun k => ?_)
  rw [apply_ite BitVec.toNat, BitVec.toNat_setWidth]
  rfl

theorem lanewise_vextr (f : RegF) : Instr.Lanewise (.vextr f) :=
  { plain := rfl, light := ⟨rfl, rfl, rfl, rfl⟩, words := rfl, noD := by simp [srcs] }

theorem extrOut_eq (f : RegF) (s : State) : extrOut f s =
    { v := placed (vT f) (laneA f s _ (if s.active f.g then (s.rdS .int64 f.b).v.toNat % (2048 / tagWidth (vT f)) else 0)),
      tag := vT f } := by
  unfold extrOut
  dsimp only
  rw [laneAt_eq, placeElem_toNat]
  rfl

theorem vextr_holds (f : RegF) (s : State) (hr : s.Ready (.vextr f))
    (ht : VecTagsMatch s (.vextr f) (fun x t => if x.idx = 1 then indexTag t else tagT f x t)) :
    ∃ t, exec (.vextr f) s = .next t ∧
      ScalarDone s t (.vextr f) f.w f.d
        { v := placed (vT f) (laneA f s _ (if s.active f.g
            then (s.rdS .int64 f.b).v.toNat % (2048 / tagWidth (vT f)) else 0)), tag := vT f } 0 := by
  have hm : (semVextr f).OnlyFlags s := { tags := vecTags_of_match (lanewise_vextr f) ht (fun _ _ => mem_acceptIndexB) }
  exact extrOut_eq f s ▸ issueOne_scalar s (.vextr f) (semVextr f) _ f.w f.d (extrOut f s) (plain_of rfl) (lanewise_vextr f).light
    hr (hm.passes (lanewise_vextr f).light (Or.inr (flagTrap_nil _))) (local_me rfl) rfl

/-! ### VCLMUL (R159) -/

/-- The bits of a carry-less product: each is the parity of the pairs of set bits that meet there. -/
theorem testBit_clmulN (x n y b : Nat) : (clmulN x n y).testBit b =
    (((List.range n).filter (fun k => y.testBit k && decide (k ≤ b) && x.testBit (b - k))).length % 2 == 1) := by
  induction n generalizing y b with
  | zero => simp [clmulN]
  | succ n ih =>
    have hparity : ∀ (q : Bool) (m : Nat), (((if q then 1 else 0) + m) % 2 == 1) = (q ^^ (m % 2 == 1)) := fun q m => by
      rcases Nat.mod_two_eq_zero_or_one m with h | h <;> cases q <;> simp [Nat.add_mod, h]
    have hfirst : ((if y % 2 = 1 then x else 0) : Nat).testBit b = (y.testBit 0 && decide (0 ≤ b) && x.testBit (b - 0)) := by
      rw [Nat.testBit_zero]; split <;> simp [*]
    rw [clmulN, Nat.testBit_xor, hfirst, length_filter_range_succ, hparity]
    refine congrArg _ ?_
    cases b with
    | zero => simp
    | succ b =>
      rw [Nat.testBit_succ, Nat.mul_div_cancel_left _ (by decide), ih]
      simp [Nat.testBit_succ]

theorem testBit_clmulN_toNat (x y : BitVec 64) (b : Nat) : (clmulN x.toNat 64 y.toNat).testBit b = clmulBit x y b := by
  rw [testBit_clmulN]; simp only [BitVec.testBit_toNat]; rfl

theorem clmulBit_high (x y : BitVec 64) {b : Nat} (hb : 128 ≤ b) : clmulBit x y b = false := by
  have hnone : (List.range 64).filter (fun k => y.getLsbD k && decide (k ≤ b) && x.getLsbD (b - k)) = [] := by
    rw [List.filter_eq_nil_iff]
    intro k hk
    have hk : k < 64 := List.mem_range.mp hk
    simp [BitVec.getLsbD_of_ge x (b - k) (by omega)]
  rw [clmulBit, hnone]
  rfl

theorem clmulN_lt (x y : BitVec 64) : clmulN x.toNat 64 y.toNat < 2 ^ 128 :=
  Nat.lt_pow_two_of_testBit _ (fun _ hb => (testBit_clmulN_toNat x y _).trans (clmulBit_high x y hb))

/-- A half of a carry-less product. -/
theorem toNat_clmulHalf (x y : BitVec 64) (h : Nat) :
    (BitVec.ofFnLE (fun b : Fin 64 => clmulBit x y (64 * h + b.val))).toNat =
      clmulN x.toNat 64 y.toNat / 2 ^ (64 * h) % 2 ^ 64 := by
  refine Nat.eq_of_testBit_eq (fun b => ?_)
  rw [Nat.testBit_mod_two_pow, Nat.testBit_div_two_pow, testBit_clmulN_toNat, BitVec.testBit_toNat, BitVec.getLsbD_ofFnLE,
    Nat.add_comm b]
  by_cases hb : b < 64 <;> simp [hb]

/-- A list of pairs, by number. -/
theorem flatMap_pair_range (n : Nat) (lo hi : Nat → α) : (List.range n).flatMap (fun j => [lo j, hi j]) =
    (List.range (2 * n)).map (fun k => if k % 2 = 0 then lo (k / 2) else hi (k / 2)) := by
  induction n with
  | zero => rfl
  | succ n ih =>
    rw [List.range_succ, List.flatMap_append, ih, Nat.mul_succ, List.range_add, List.map_append, List.map_map]
    simp [List.range_succ, Nat.add_div]

/-- The factor of VCLMUL that A gives for its lanes 2j and 2j + 1 (R159). -/
def clmulX (f : RegF) (s : State) (j : Nat) : BitVec 64 :=
  quad f.a s (2 * j + if f.x.toNat % 4 = 1 ∨ f.x.toNat % 4 = 3 then 1 else 0)
/-- The factor that B gives: with X[3] the scalar itself. -/
def clmulY (f : RegF) (s : State) (j : Nat) : BitVec 64 :=
  if f.x.getLsbD 3 then (s.rdS .int64 f.b).v else quad f.b s (2 * j + if f.x.toNat % 4 = 1 ∨ f.x.toNat % 4 = 2 then 1 else 0)

/-- The 64-bit lanes of an operand of VCLMUL. -/
theorem getD_quad (f : RegF) (o : Operand) (s : State) {k : Nat} (hk : k < 32) :
    (lanesOf 64 (clmulOpd f o s).v).getD k 0 = (quad o s k).toNat := by
  rw [lanesOf_eq]; exact getD_map_range 32 k (fun k => (lane 64 (clmulOpd f o s).v k).toNat) 0 hk

theorem getD_clmulB (f : RegF) (s : State) {j : Nat} (hj : j < 16) :
    (if vX3 f then List.replicate 32 (s.rdS .int64 f.b).v.toNat else lanesOf 64 (clmulOpd f f.b s).v).getD
      (2 * j + if f.x.toNat % 4 = 1 ∨ f.x.toNat % 4 = 2 then 1 else 0) 0 = (clmulY f s j).toNat := by
  have hlt : (2 * j + if f.x.toNat % 4 = 1 ∨ f.x.toNat % 4 = 2 then 1 else 0) < 32 := by split <;> omega
  unfold clmulY vX3
  split
  · rw [replicate_eq_range]; exact getD_map_range 32 _ (fun _ => (s.rdS .int64 f.b).v.toNat) 0 hlt
  · exact getD_quad f f.b s hlt

theorem clmulLanes_eq (f : RegF) (s : State) :
    clmulLanes f s = (List.range 32).map (fun k => (clmulLane f s k).toNat) := by
  have hpairs : clmulLanes f s = (List.range 16).flatMap (fun j =>
      [clmulN (clmulX f s j).toNat 64 (clmulY f s j).toNat % 2 ^ 64, clmulN (clmulX f s j).toNat 64 (clmulY f s j).toNat / 2 ^ 64]) := by
    unfold clmulLanes
    refine List.flatMap_congr fun j hj => ?_
    have hj : j < 16 := List.mem_range.mp hj
    dsimp only
    rw [getD_clmulB f s hj, getD_quad f f.a s (by split <;> omega)]
    rfl
  rw [hpairs, flatMap_pair_range]
  refine List.map_congr_left (fun k _ => ?_)
  have hlane : (clmulLane f s k).toNat = _ := toNat_clmulHalf (clmulX f s (k / 2)) (clmulY f s (k / 2)) (k % 2)
  rw [hlane]
  rcases Nat.mod_two_eq_zero_or_one k with h | h
  · simp [h]
  · have hhigh := Nat.div_lt_of_lt_mul (show _ < 2 ^ 64 * 2 ^ 64 from clmulN_lt (clmulX f s (k / 2)) (clmulY f s (k / 2)))
    rw [h, if_neg (by decide), Nat.mul_one, Nat.mod_eq_of_lt hhigh]

theorem lanewise_vclmul (f : RegF) : Instr.Lanewise (.vclmul f) :=
  { plain := rfl, light := ⟨rfl, rfl, rfl, rfl⟩, words := rfl, noD := by simp [srcs, vecB] }

theorem mem_acceptClmul {f : RegF} {x : Src} {t : Tag} (h : if x.vec then t = vT f else (indexTag t ∨ t = .bits)) :
    t ∈ (acceptClmul f x).1 := by
  unfold acceptClmul
  by_cases hv : x.vec = true
  · rw [if_pos hv] at h ⊢; exact List.mem_singleton.mpr h
  · rw [if_neg hv] at h ⊢
    rcases h with (rfl | rfl) | rfl <;> simp

/-! ### The ops done by their lanes -/

theorem vperm_holds (f : RegF) (s : State) (hr : s.Ready (.vperm f))
    (ht : VecTagsMatch s (.vperm f) (fun x t => if x.idx = 1 then
      (if x.vec then (t = sintOf (tagWidth (vT f)) ∨ (tagWidth (vT f) = 8 ∧ t = .uint8)) else indexTag t)
      else tagT f x t)) :
    MoveDone f s (.vperm f) (fun k => laneA f s _ ((laneBInt f s (tagWidth (vT f)) k).toNat % (2048 / tagWidth (vT f)))) :=
  semMove_done rfl hr ht (fun _ _ => mem_acceptPerm) (permLanes_eq f s)

theorem noD_vshuf (f : RegF) : ∀ x ∈ srcs (.vshuf f), x.idx ≠ 3 := by
  unfold srcs
  dsimp only
  split <;> simp

theorem vshuf_holds (f : RegF) (s : State) (hr : s.Ready (.vshuf f)) (ht : VecTagsMatch s (.vshuf f) (tagT f)) :
    MoveDone f s (.vshuf f) (shufLane f s _) :=
  semMove_done rfl hr ht (fun _ _ => mem_acceptT) (shufLanes_eq f s)
    { plain := rfl, light := ⟨rfl, rfl, rfl, rfl⟩, words := rfl, noD := noD_vshuf f }

theorem vbcast_holds (f : RegF) (s : State) (hr : s.Ready (.vbcast f)) (ht : VecTagsMatch s (.vbcast f) (tagT f)) :
    ∃ t v, exec (.vbcast f) s = .next t ∧ VectorDone s t (.vbcast f) f.w f.d v 0 ∧
      Zeroed s f.g (tagWidth (vT f)) (vT f) (fun _ => (s.rdS (vT f) f.a).v.setWidth _) v := by
  have hi : Instr.Lanewise (.vbcast f) :=
    { plain := rfl, light := ⟨rfl, rfl, rfl, rfl⟩, words := rfl, noD := by simp [srcs] }
  exact semVec_zeroes rfl (plain_of rfl) hi.light hr (vecTags_of_match hi ht (fun _ _ => mem_acceptT)) rfl
    (fun _ => by dsimp only; rw [replicate_eq_range, List.map_map]; rfl) (fun _ => ofNat_mod_toNat _ _)

theorem vcmprs_holds (f : RegF) (s : State) (hr : s.Ready (.vcmprs f))
    (ht : VecTagsMatch s (.vcmprs f) (fun x t => if x.idx = 1 then t = .bits else tagT f x t)) :
    MoveDone f s (.vcmprs f) (packLane f s _) :=
  semMove_done rfl hr ht (fun _ _ => mem_acceptMaskB) (cmprsLanes_eq f s)

theorem vexpnd_holds (f : RegF) (s : State) (hr : s.Ready (.vexpnd f))
    (ht : VecTagsMatch s (.vexpnd f) (fun x t => if x.idx = 1 then t = .bits else tagT f x t)) :
    MoveDone f s (.vexpnd f) (fun k => if (maskBits f s f.b).getLsbD k then laneA f s _ (maskRank f s k) else 0) :=
  semMove_done rfl hr ht (fun _ _ => mem_acceptMaskB) (expndLanes_eq f s)

theorem vslide_holds (f : RegF) (s : State) (hr : s.Ready (.vslide f))
    (ht : VecTagsMatch s (.vslide f) (fun x t => if x.idx = 1 then indexTag t else tagT f x t)) :
    MoveDone f s (.vslide f) (slideLane f s _) :=
  semMove_done rfl hr ht (fun _ _ => mem_acceptIndexB) (slideLanes_eq f s)

theorem vins_holds (f : RegF) (s : State) (hr : s.Ready (.vins f))
    (ht : VecTagsMatch s (.vins f) (fun x t => if x.idx = 1 then indexTag t else tagT f x t)) :
    MoveDone f s (.vins f) (fun k => if k = (s.rdS .int64 f.b).v.toNat % (2048 / tagWidth (vT f))
      then (s.rdS (vT f) f.c).v.setWidth _ else laneA f s _ k) :=
  semMove_done rfl hr ht (fun _ _ => mem_acceptIndexB) (insLanes_eq f s)

theorem vclmul_holds (f : RegF) (s : State) (hr : s.Ready (.vclmul f))
    (ht : VecTagsMatch s (.vclmul f) (fun x t => if x.vec then t = vT f else (indexTag t ∨ t = .bits))) :
    ∃ t v, exec (.vclmul f) s = .next t ∧ VectorDone s t (.vclmul f) f.w f.d v 0 ∧
      Merged s f.g 64 .bits { s.rdV .int64 f.a with tag := (s.rdV (vT f) f.a).tag } (clmulLane f s) v :=
  semVec_merges rfl (lanewise_vclmul f) hr (vecTags_of_match (lanewise_vclmul f) ht (fun _ _ => mem_acceptClmul))
    (fun _ => by rw [clmulLanes_eq, List.map_map]; rfl) rfl

/-- Settles O8: the lanes of each op, listed by number, are those that the statement names; a carry-less product has the parity of
the bits that meet in each of its bits. -/
theorem laneMoves : Obligations.LaneMoves :=
  ⟨vperm_holds, vshuf_holds, vbcast_holds, vcmprs_holds, vexpnd_holds, vslide_holds, vins_holds, vextr_holds, vclmul_holds⟩

end Sys2Proof.Machine
end

