-- ==== Sys2Proof/Proofs/VectorImmediates.lean ====
section
/-! PROOFS. VRETAG, VLI and VADDI (R158, R160, R161). -/

namespace Sys2Proof.Machine

open Sys2Proof.Claim

/-- An op that does no more than deliver a vector, where its tags pass. -/
theorem issueOne_delivers {s : State} {i : Instr} {m : Sem} {w : Bool} {d : DReg} {v : VVal} (hp : Instr.plain i)
    (hl : Instr.light i) (hr : s.Ready i) (hm : m.OnlyFlags s) (hd : m.draw s = (0, s.me.csr.rngseed))
    (ho : m.out s i = { eff := Live.me (fun c => c.resultV w d v) }) :
    ∃ t, issueOne m i s = .next t ∧ VectorDone s t i w d v 0 := by
  obtain ⟨t, hst, hdone⟩ := issueOne_vector s i m _ w d v hp hl hr (hm.passes hl (Or.inr (by rw [ho]; exact flagTrap_nil _)))
    (local_me (by rw [ho]))
  rw [ho, hd] at hdone
  exact ⟨t, hst, hdone⟩

/-! ### VRETAG (R158) -/

theorem retagOut_any {f : RegF} (s : State) (ht : f.t = .any) :
    (retagOut f s).tag = uncheckedTag f.a (s.rdV .int64 f.a).tag := by
  simp only [retagOut, retagSpecial, ht]

theorem retagOut_tag {f : RegF} {u : Tag} (s : State) (ht : f.t = .tag u) : (retagOut f s).tag =
    if ∃ k < 2048 / tagWidth u, s.me.guardBit f.g k = true then u else uncheckedTag f.a (s.rdV u f.a).tag := by
  simp only [retagOut, retagSpecial, ht, any_laneMask]

theorem vretag_holds (f : RegF) (s : State) (hr : s.Ready (.vretag f)) :
    ∃ t v, exec (.vretag f) s = .next t ∧ VectorDone s t (.vretag f) f.w f.d v 0 ∧ v.poison = none ∧
      v.v = (s.rdV (retagSpecial f) f.a).v ∧
      match f.t with
      | .any => v.tag = uncheckedTag f.a (s.rdV .int64 f.a).tag
      | .tag u => v.tag = if ∃ k < 2048 / tagWidth u, s.me.guardBit f.g k = true then u else uncheckedTag f.a (s.rdV u f.a).tag := by
  obtain ⟨t, hst, hd⟩ := issueOne_delivers (m := semVretag f) (v := retagOut f s) (plain_of rfl) ⟨rfl, rfl, rfl, rfl⟩ hr
    { tags := rfl } rfl rfl
  refine ⟨t, retagOut f s, hst, hd, rfl, rfl, ?_⟩
  cases ht : f.t with
  | any => exact retagOut_any s ht
  | tag u => exact retagOut_tag s ht

/-! ### VLI (R160) -/

/-- The lane of a VLI as the bit vector of the statement. -/
def vliBits (f : ImmF) : BitVec (tagWidth (vliTag f)) :=
  match vliTag f with
  | .int64 => (f.imm.signExtend 64).setWidth _
  | .fp64 => BitVec.ofNat _ (cvtFF (fmtOf .fp32) (fmtOf .fp64) .rne 0 f.imm.toNat).1
  | _ => f.imm.setWidth _

theorem vliLane_eq (f : ImmF) : BitVec.ofNat (tagWidth (vliTag f)) (vliLane f) = vliBits f := by
  unfold vliLane vliBits
  generalize vliTag f = t
  cases t with
  | int64 => exact BitVec.ofNat_toNat ..
  | fp64 => rfl
  | _ => exact ofNat_mod_toNat _ _

theorem vli_holds (f : ImmF) (s : State) (hr : s.Ready (.vli f)) :
    ∃ t v, exec (.vli f) s = .next t ∧ VectorDone s t (.vli f) f.w f.d v 0 ∧
      Zeroed s f.g (tagWidth (vliTag f)) (vliTag f) (fun _ => vliBits f) v :=
  semVec_zeroes rfl (plain_of rfl) ⟨rfl, rfl, rfl, rfl⟩ hr rfl rfl (fun _ => replicate_eq_range _ _) (fun _ => vliLane_eq f)

/-! ### VADDI (R161) -/

theorem mem_intTags {t : Tag} (h : isIntTag t = true) : t ∈ [Tag.int8, .uint8, .int16, .int32, .int64] := by
  revert h; cases t <;> decide

/-- A vector field passes its tag check where it is special or carries an accepted tag (R19). -/
theorem tagFail_vector_none {s : State} {req : Tag} {l : List Tag} {n : Nat} {o : Operand} (hn : n ≠ 3)
    (h : isSpecial o = false → (s.rdV .int64 o).tag ∈ l) : s.tagFail .int64 l req ⟨n, o, true⟩ = none := by
  unfold State.tagFail
  cases hs : isSpecial o with
  | true => simp [hn]
  | false => simp [uncheckedTag_of _ hs, h hs]

theorem vaddiOut_merged (f : ImmF) (s : State) :
    Merged s f.g (tagWidth (s.rdV .int64 f.a).tag) (s.rdV .int64 f.a).tag (s.rdV .int64 f.a)
      (fun k => lane _ (s.rdV .int64 f.a).v k + (f.imm.signExtend 64).setWidth _) (vaddiOut f s) := by
  unfold vaddiOut vaddiA
  dsimp only
  rw [lanesOf_eq, List.map_map]
  refine Merged.congr (merged_mergeV s f.g _ _ _ _) (fun k _ => ?_)
  apply BitVec.eq_of_toNat_eq
  simp

theorem vaddi_holds (f : ImmF) (s : State) (hr : s.Ready (.vaddi f))
    (ht : VecTagsMatch s (.vaddi f) (fun _ t => isIntTag t = true)) :
    ∃ t v, exec (.vaddi f) s = .next t ∧ VectorDone s t (.vaddi f) f.w f.d v 0 ∧
      Merged s f.g (tagWidth (s.rdV .int64 f.a).tag) (s.rdV .int64 f.a).tag (s.rdV .int64 f.a)
        (fun k => lane _ (s.rdV .int64 f.a).v k + (f.imm.signExtend 64).setWidth _) v := by
  have htags : (semVaddi f).tags s = none :=
    tagFail_vector_none (by decide) (fun hs => mem_intTags (ht ⟨0, f.a, true⟩ (List.mem_singleton_self _) hs))
  obtain ⟨t, hst, hd⟩ := issueOne_delivers (m := semVaddi f) (v := vaddiOut f s) (plain_of rfl) ⟨rfl, rfl, rfl, rfl⟩ hr
    { tags := htags } rfl rfl
  exact ⟨t, _, hst, hd, vaddiOut_merged f s⟩

/-- Settles O10: each op is done by the vector it delivers, with the tag, the immediate or the sum that the statement names in its
lanes. -/
theorem vectorImmediates : Obligations.VectorImmediates := ⟨vretag_holds, vli_holds, vaddi_holds⟩

end Sys2Proof.Machine
end

