-- ==== Sys2Proof/Proofs/SpecWords.lean ====
section
/-! PROOFS. The words that the spec prints (R65 to R79), decoded: each is the encoding of a well-formed op. -/

namespace Sys2Proof.Machine

open Sys2Proof.Claim

/-- A word decodes to the op that encodes to it. -/
theorem decode_of_encode {i : Instr} {w : Word} (ho : isOp i = true) (hw : WellFormed i) (he : encode i = [w]) :
    decode [w] = .ok (i, []) := he ▸ Laws.roundTrip.1 i ho hw

/-- Settles O57: each word is the encoding of its instruction, which is well formed. -/
theorem specWords : Obligations.SpecWords := by
  unfold Obligations.SpecWords
  refine ⟨?_, ?_, ?_, ?_, ?_, ?_, ?_, ?_, ?_, ?_, ?_, ?_⟩ <;> exact decode_of_encode rfl (by decide) (by decide)

end Sys2Proof.Machine
end

