-- ==== Sys2Proof/Proofs/CanonicalForm.lean ====
section
/-! PROOFS. The canonical form of the memories of a core and of the package, as a predicate with a field for each memory, and what
the shared operations of the state leave of it. -/

namespace Sys2Proof.Machine

/-! ### The predicates -/

/-- Both banks of an accumulator are in canonical form. -/
structure Acc.Canonical (a : Acc) : Prop where
  work : a.work.mem.wf = true
  vis : a.vis.mem.wf = true

/-- `CoreState.memOk`, memory by memory. -/
structure CoreState.Canonical (x : CoreState) : Prop where
  spad : x.spad.wf = true
  ispad : x.ispad.wf = true
  wbuf : x.wbuf.wf = true
  accs : ∀ a ∈ x.accs, a.Canonical
  kept : ∀ k ∈ x.lend.kept, k.mem.wf = true

/-- The saved core images of a task are in canonical form. -/
def Task.Canonical (t : Task) : Prop := ∀ m ∈ t.saved, m.st.Canonical

/-- `State.memOk`, memory by memory. -/
structure State.Canonical (s : State) : Prop where
  mem : s.phys.mem.wf = true
  home : s.phys.home.wf = true
  slots : s.host.slots.wf = true
  host : s.host.mem.wf = true
  cores : ∀ p ∈ s.cores, p.2.Canonical
  tasks : ∀ t ∈ s.fw.tasks, t.Canonical
  foreign : ∀ f ∈ s.fab.foreign, f.spad.wf = true

theorem CoreState.memOk_iff (x : CoreState) : x.memOk = true ↔ x.Canonical := by
  simp only [CoreState.memOk, Bool.and_eq_true, List.all_eq_true, Vector.mem_toList_iff, Option.all_eq_true]
  exact ⟨fun ⟨⟨⟨⟨hs, hi⟩, hw⟩, ha⟩, hk⟩ => ⟨hs, hi, hw, fun a h => ⟨(ha a h).1, (ha a h).2⟩, hk⟩,
    fun h => ⟨⟨⟨⟨h.spad, h.ispad⟩, h.wbuf⟩, fun a ha => ⟨(h.accs a ha).work, (h.accs a ha).vis⟩⟩, h.kept⟩⟩

theorem State.memOk_iff (s : State) : s.memOk = true ↔ s.Canonical := by
  simp only [State.memOk, Bool.and_eq_true, List.all_eq_true, CoreState.memOk_iff]
  exact ⟨fun ⟨⟨⟨⟨⟨⟨hp, hh⟩, hs⟩, hm⟩, hc⟩, ht⟩, hf⟩ => ⟨hp, hh, hs, hm, hc, ht, hf⟩,
    fun h => ⟨⟨⟨⟨⟨⟨h.mem, h.home⟩, h.slots⟩, h.host⟩, h.cores⟩, h.tasks⟩, h.foreign⟩⟩

/-! ### Choices and runs of changes -/

/-- A choice between two states that both keep a property keeps it. -/
theorem ite_holds {α : Type} {P : α → Prop} {c : Prop} [Decidable c] {a b : α} (ha : P a) (hb : P b) :
    P (if c then a else b) := by
  split
  · exact ha
  · exact hb

/-- What every change of a run of changes keeps, the run keeps. -/
theorem foldl_holds_mem {α β : Type} {P : α → Prop} {f : α → β → α} {l : List β} (hf : ∀ b ∈ l, ∀ a, P a → P (f a b)) {a : α}
    (h : P a) : P (l.foldl f a) := by
  induction l generalizing a with
  | nil => exact h
  | cons b l ih =>
    obtain ⟨hb, hl⟩ := List.forall_mem_cons.mp hf
    exact ih hl (hb a h)

theorem foldl_holds {α β : Type} {P : α → Prop} {f : α → β → α} (hf : ∀ a b, P a → P (f a b)) (l : List β) {a : α} (h : P a) :
    P (l.foldl f a) := foldl_holds_mem (fun b _ a => hf a b) h

/-! ### Memories -/

theorem Mem.wf_slice (m : Mem) (a n : Nat) (h : m.wf = true) : (m.slice a n).wf = true :=
  Mem.wfFrom_mono (Nat.zero_le a) _ (Mem.below_wfFrom _ _ _ (Mem.above_wfFrom _ _ _ h))

theorem Mem.wf_cellsOf (bs : List Byte) : (Mem.cellsOf 0 bs).wf = true := Mem.cellsOf_wfFrom 0 bs

/-! ### Cores -/

namespace CoreState.Canonical

variable {x y : CoreState}

/-- A core whose memories are those of another. -/
theorem sameMem (h : x.Canonical) (hs : y.spad = x.spad) (hi : y.ispad = x.ispad) (hw : y.wbuf = x.wbuf) (ha : y.accs = x.accs)
    (hk : y.lend.kept = x.lend.kept) : y.Canonical :=
  ⟨hs ▸ h.spad, hi ▸ h.ispad, hw ▸ h.wbuf, ha ▸ h.accs, hk ▸ h.kept⟩

theorem reset : CoreState.reset.Canonical where
  spad := rfl
  ispad := rfl
  wbuf := rfl
  accs a ha := by
    obtain rfl : a = {} := (Vector.mem_replicate.mp ha).2
    exact ⟨rfl, rfl⟩
  kept k hk := by simp [CoreState.reset] at hk

theorem setSpad (h : x.Canonical) {m : Mem} (hm : m.wf = true) : { x with spad := m }.Canonical := { h with spad := hm }

theorem setCtx (h : x.Canonical) (k : Nat) (c : Ctx) : (x.setCtx k c).Canonical := { h with }

theorem updBank (h : x.Canonical) (k : Nat) (f : EddyBank → EddyBank) : (x.updBank k f).Canonical := { h with }

theorem updTile (h : x.Canonical) (n : Nat) (f : TileEnt → TileEnt) : (x.updTile n f).Canonical := { h with }

theorem updCmd (h : x.Canonical) (id : Nat) (f : Cmd → Cmd) : (x.updCmd id f).Canonical := { h with }

theorem dropBuf (h : x.Canonical) (k : Nat) : (x.dropBuf k).Canonical := { h with }

theorem downgrade (h : x.Canonical) (o : Nat) : (x.downgrade o).Canonical := { h with }

theorem endTile (h : x.Canonical) (lost : List Nat) (n : Nat) (f : TileEnt → TileEnt) : (x.endTile lost n f).Canonical :=
  ite_holds h (h.updTile n f)

theorem touch (h : x.Canonical) (o t : Nat) : (x.touch o t).Canonical := by
  unfold CoreState.touch
  split
  · exact h
  · exact { h with }

theorem touchRun (h : x.Canonical) (o n t : Nat) : (x.touchRun o n t).Canonical :=
  foldl_holds (fun _ o h => h.touch o t) _ h

theorem touchSlotRun (h : x.Canonical) (a n t : Nat) : (x.touchSlotRun a n t).Canonical :=
  foldl_holds (fun _ _ h => h.touch _ t) _ h

theorem spadCells (h : x.Canonical) (cs : List (Nat × Byte)) : (x.spadCells cs).Canonical :=
  foldl_holds (fun _ o h => h.downgrade o) _ { h with spad := Mem.wf_writeCells _ _ h.spad }

theorem spadWrite (h : x.Canonical) (o : Nat) (bs : List Byte) : (x.spadWrite o bs).Canonical :=
  ite_holds (h.spadCells _)
    (foldl_holds (fun _ o h => h.downgrade o) _ { h with spad := Mem.wf_writeBytes _ _ _ h.spad })

theorem fillerWrite (h : x.Canonical) (o : Nat) (bs : List Byte) : (x.fillerWrite o bs).Canonical :=
  { h with spad := Mem.wf_writeBytes _ _ _ h.spad }

theorem fillAt (h : x.Canonical) (lost : List Nat) (o : Nat) (bs : List Byte) : (x.fillAt lost o bs).Canonical :=
  ite_holds (h.spadWrite o bs) (h.fillerWrite o bs)

theorem reclaim (h : x.Canonical) (a n t : Nat) : (x.reclaim a n t).Canonical :=
  foldl_holds (fun _ _ h => h.updTile _ _) _
    { h.touchSlotRun a n t with spad := Mem.wf_clear _ _ _ (h.touchSlotRun a n t).spad }

theorem takeBanks (h : x.Canonical) (t : Nat) : (x.takeBanks t).Canonical :=
  have hy := foldl_holds (P := CoreState.Canonical)
    (fun _ (r : Revoke) hy => foldl_holds (fun _ k h => h.updBank k r.takes) r.banks hy) (x.lend.rev.filter (fun r => r.takesAt t)) h
  { hy with }

/-- Changing an accumulator by what keeps its banks canonical. -/
theorem updAcc (h : x.Canonical) (n : Nat) {f : Acc → Acc} (hf : ∀ a, a.Canonical → (f a).Canonical) :
    (x.updAcc n f).Canonical :=
  have ha (a : Acc) (m : a ∈ (x.updAcc n f).accs) : a.Canonical := by
    rcases Vector.mem_or_eq_of_mem_set (hi := (Fin.ofNat 4 n).isLt) m with hm | rfl
    · exact h.accs a hm
    · exact hf _ (h.accs _ (Vector.getElem_mem _))
  { h with accs := ha }

end CoreState.Canonical

/-! ### The cores of the package -/

theorem findCore_canonical {l : List (Nat × CoreState)} (h : ∀ p ∈ l, p.2.Canonical) (c : Nat) : (findCore l c).Canonical := by
  induction l with
  | nil => exact .reset
  | cons p l ih =>
    unfold findCore
    split
    · exact h p (List.mem_cons_self ..)
    · exact ih (fun q hq => h q (List.mem_cons_of_mem _ hq))

theorem putCore_canonical {l : List (Nat × CoreState)} (h : ∀ p ∈ l, p.2.Canonical) (c : Nat) {x : CoreState} (hx : x.Canonical) :
    ∀ p ∈ putCore l c x, p.2.Canonical := by
  induction l with
  | nil =>
    intro p hp
    obtain rfl := List.mem_singleton.mp hp
    exact hx
  | cons q l ih =>
    obtain ⟨hq, hl⟩ := List.forall_mem_cons.mp h
    unfold putCore
    split
    · exact List.forall_mem_cons.mpr ⟨hx, hl⟩
    · split
      · exact List.forall_mem_cons.mpr ⟨hx, h⟩
      · exact List.forall_mem_cons.mpr ⟨hq, ih hl⟩

namespace State.Canonical

variable {s : State}

theorem core (h : s.Canonical) (c : Nat) : (s.core c).Canonical := findCore_canonical h.cores c

theorem myCore (h : s.Canonical) : s.myCore.Canonical := h.core _

theorem setCore (h : s.Canonical) (c : Nat) {x : CoreState} (hx : x.Canonical) : (s.setCore c x).Canonical :=
  { h with cores := putCore_canonical h.cores c hx }

theorem updCore (h : s.Canonical) (c : Nat) {f : CoreState → CoreState} (hf : ∀ x, x.Canonical → (f x).Canonical) :
    (s.updCore c f).Canonical := h.setCore c (hf _ (h.core c))

theorem updMyCore (h : s.Canonical) {f : CoreState → CoreState} (hf : ∀ x, x.Canonical → (f x).Canonical) :
    (s.updMyCore f).Canonical := h.updCore _ hf

theorem updCtx (h : s.Canonical) (c k : Nat) (f : Ctx → Ctx) : (s.updCtx c k f).Canonical :=
  h.setCore c ((h.core c).setCtx _ _)

theorem updMe (h : s.Canonical) (f : Ctx → Ctx) : (s.updMe f).Canonical := h.updCtx _ _ f

/-! ### The rest of the package -/

theorem updCluster (h : s.Canonical) (k : Nat) (f : ClusterState → ClusterState) : (s.updCluster k f).Canonical := { h with }

theorem updDie (h : s.Canonical) (d : Nat) (f : DieState → DieState) : (s.updDie d f).Canonical := { h with }

/-- A change of the firmware that leaves its tasks. -/
theorem updFw (h : s.Canonical) {f : Firmware → Firmware} (hf : (f s.fw).tasks = s.fw.tasks) : (s.updFw f).Canonical :=
  { h with tasks := fun t ht => h.tasks t (hf ▸ ht) }

/-- A change of the firmware, by its tasks. -/
theorem updFwTasks (h : s.Canonical) {f : Firmware → Firmware} (hf : ∀ t ∈ (f s.fw).tasks, t.Canonical) : (s.updFw f).Canonical :=
  { h with tasks := hf }

theorem updTask (h : s.Canonical) (n : Nat) {f : Task → Task} (hf : ∀ t, t.Canonical → (f t).Canonical) :
    (s.updTask n f).Canonical :=
  h.updFwTasks (fun t ht => by
    obtain ⟨u, hu, rfl⟩ := List.mem_map.mp ht
    exact ite_holds (hf u (h.tasks u hu)) (h.tasks u hu))

theorem task (h : s.Canonical) {n : Nat} {t : Task} (ht : s.task n = some t) : t.Canonical :=
  h.tasks t (List.mem_of_find?_eq_some ht)

theorem setAgenda (h : s.Canonical) (l : List Turn) : { s with agenda := l }.Canonical := { h with }

theorem setCur (h : s.Canonical) (a : Actor) : { s with cur := a }.Canonical := { h with }

theorem raiseIrq (h : s.Canonical) (v : Nat) : (s.raiseIrq v).Canonical := { h with }

theorem report (h : s.Canonical) (r : FaultRec) : (s.report r).Canonical := h.updFw rfl

theorem faultReported (h : s.Canonical) (r : FaultRec) : (s.faultReported r).Canonical :=
  ite_holds (h.updMyCore (fun _ hx => { hx with })) h

theorem startRevoke (h : s.Canonical) (c : Nat) : (s.startRevoke c).Canonical :=
  ite_holds (h.setCore c { h.core c with }) h

theorem wakeBy (h : s.Canonical) (f : Ctx → Ctx) (c k : Nat) : (s.wakeBy f c k).Canonical :=
  ite_holds ((h.updCtx c k f).startRevoke c) (h.updCtx c k f)

theorem wakeCtx (h : s.Canonical) (c k : Nat) : (s.wakeCtx c k).Canonical := h.wakeBy _ c k

theorem haltCtx (h : s.Canonical) (c k cause : Nat) : (s.haltCtx c k cause).Canonical :=
  have h1 := (h.updCtx c k (fun x => { x with run := .halted cause, waits := {} })).updCore c (fun _ hx => hx.dropBuf k)
  ite_holds (h1.updCore c (fun _ hx => hx.updBank k _)) h1

theorem keepRecord (h : s.Canonical) (r : TrapRec) : (s.keepRecord r).Canonical := by
  unfold State.keepRecord
  split
  · exact ite_holds h (h.updTask _ (fun _ ht => ht))
  · exact h

theorem takeTrap (h : s.Canonical) (t : Trap) (pc : BitVec 16) (n : Nat) : (s.takeTrap t pc n).Canonical := by
  unfold State.takeTrap
  dsimp only
  split
  · have h1 := (((h.updMe (fun c => { c with tr := { c.tr with dt := true } })).report ⟨t.cause, t.info0, t.info1⟩).report
      ⟨0x5E, wd pc.toNat, 0⟩).raiseIrq 2
    split
    · exact ite_holds (h1.updMe _) (h1.haltCtx _ _ _)
    · exact h1.haltCtx _ _ _
  · exact ite_holds (P := State.Canonical) ((((h.updMe _).keepRecord _).report _).haltCtx _ _ _) (h.updMe _)

/-! ### Commands -/

theorem addCmd (h : s.Canonical) (k : CmdKind) (out : Tok) (deps : List (Nat × Nat)) (f : Option (Nat × FaultRec)) :
    (s.addCmd k out deps f).Canonical := by
  have h1 : { s with nextId := s.nextId + 1 }.Canonical := { h with }
  exact (h1.updMyCore (f := fun x => { x with cmds := x.cmds ++ [_] }) (fun _ hx => { hx with })).updMe _

theorem endOne (h : s.Canonical) (c : Nat) (m : Cmd) (f : Option FaultRec) (fl : BitVec 7) : (s.endOne c m f fl).Canonical :=
  have h1 := h.updCore c (f := fun x =>
    { x with cmds := (x.cmds.filter (fun c => c.id != m.id)).map (Cmd.afterEnd m.id m.tok f fl) }) (fun _ hx => { hx with })
  ite_holds h1 (h1.updCtx _ _ _)

theorem settle (c n : Nat) (h : s.Canonical) : (State.settle c n s).Canonical := by
  induction n generalizing s with
  | zero => exact h
  | succ n ih =>
    unfold State.settle
    split
    · exact h
    · exact ih (h.endOne c _ _ _)

theorem endCmd (h : s.Canonical) (c : Nat) (m : Cmd) (f : Option FaultRec) (fl : BitVec 7) : (s.endCmd c m f fl).Canonical :=
  settle c _ (h.endOne c m f fl)

end State.Canonical

end Sys2Proof.Machine
end

