-- ==== Sys2Proof/Proofs/CanonicalOps.lean ====
section
/-! PROOFS. The issue of a bundle keeps the memories in canonical form: what accesses, stores, traps and retirements leave, and
that every op keeps them in its effect and in a cycle of its wait. -/

namespace Sys2Proof.Machine

/-! ### Accesses and stores (R166, R177, R344) -/

namespace State.Canonical

variable {s : State}

/-- A change of physical memory. -/
theorem setPhys (h : s.Canonical) {p : PhysMem} (hm : p.mem.wf = true) (hh : p.home.wf = true) : { s with phys := p }.Canonical :=
  { h with mem := hm, home := hh }

theorem xlateFx (h : s.Canonical) (c : Nat) (t : Option Task) (va : Nat) (wr : Bool) : (s.xlateFx c t va wr).Canonical := by
  unfold State.xlateFx
  split
  · exact h
  · rename_i f _
    have h1 := h.setPhys (p := { s.phys with mem := s.phys.mem.writeWord f.entryPa f.entry }) (Mem.wf_writeWord _ _ _ h.mem) h.home
    exact (h1.updCore c (f := fun x => { x with tlb := (f.tlb :: x.tlb).take 64 }) (fun _ hx => { hx with })).updCluster _ _

theorem touchAcc (h : s.Canonical) (c : Nat) (t : Option Task) (a : Acc1) : (s.touchAcc c t a).Canonical := by
  unfold State.touchAcc
  split
  · exact foldl_holds (fun _ v h => h.xlateFx c t v a.writes) _ h
  · split
    · exact h.updCore c (fun _ hx => (hx.touch _ _).touch _ _)
    · exact h

theorem physCells (h : s.Canonical) (cs : List (Nat × Byte)) : (s.physCells cs).Canonical :=
  h.setPhys (Mem.wf_writeCells _ _ h.mem) h.home

theorem writeBack (h : s.Canonical) (line : Nat) : (s.writeBack line).Canonical :=
  ite_holds h (h.setPhys h.mem (Mem.wf_writeCells _ _ h.home))

theorem refetch (h : s.Canonical) (line : Nat) : (s.refetch line).Canonical :=
  ite_holds (h.setPhys (Mem.wf_writeBytes _ _ _ h.mem) h.home) h

theorem performEnt (h : s.Canonical) (c : Nat) (e : StoreEnt) : (s.performEnt c e).Canonical := by
  cases e with
  | store cs =>
    unfold State.performEnt
    dsimp only
    generalize cs.filterMap (fun c => match c.1 with | .spad o => some (o, c.2) | _ => none) = sp
    generalize cs.filterMap (fun c => match c.1 with | .phys p => some (p, c.2) | _ => none) = ph
    have h1 : (if sp.isEmpty then s else s.updCore c
        (fun x => (sp.foldl (fun (x : CoreState) p => x.touch p.1 (s.eff c)) x).spadCells sp)).Canonical :=
      ite_holds h (h.updCore c (fun _ hx => (foldl_holds (fun _ p hx => hx.touch p.1 _) _ hx).spadCells _))
    exact ite_holds h1 (h1.physCells _)
  | cwb l => exact h.writeBack l
  | cinv l => exact (h.writeBack l).refetch l
  | mark => exact h

theorem performFirst (h : s.Canonical) (c k n : Nat) : (s.performFirst c k n).Canonical :=
  foldl_holds (fun _ e h => h.performEnt c e) _ (h.updCtx c k _)

theorem drain (h : s.Canonical) (c k : Nat) : (s.drain c k).Canonical := h.performFirst c k _

theorem drainMe (h : s.Canonical) : s.drainMe.Canonical := h.drain _ _

theorem implicitMark (h : s.Canonical) (l : Bool) : (s.implicitMark l).Canonical := ite_holds h.drainMe h

theorem beforeLoad (h : s.Canonical) (a : Acc1) : (s.beforeLoad a).Canonical := (h.touchAcc _ _ a).performFirst _ _ _

theorem load (h : s.Canonical) (a : Acc1) : (s.load a).1.Canonical := h.beforeLoad a

theorem enqueue (h : s.Canonical) (e : StoreEnt) : (s.enqueue e).Canonical := h.updMe _

theorem storeNat (h : s.Canonical) (a : Acc1) (x : Nat) : (s.storeNat a x).Canonical := (h.touchAcc _ _ a).enqueue _

theorem loadElems (h : s.Canonical) (n : Nat) (els : List (Nat × Word)) : (State.loadElems n els s).1.Canonical := by
  induction els generalizing s with
  | nil => exact h
  | cons e els ih => exact ih (h.load _)

theorem storeElems (h : s.Canonical) (each : Bool) (n : Nat) (d : VWord) (els : List (Nat × Word)) :
    (s.storeElems each n d els).Canonical :=
  have h1 := foldl_holds (P := State.Canonical) (fun (s : State) (e : Nat × Word) h =>
    h.touchAcc s.cur.core s.myTask { lane := e.1, va := e.2, n := n, kind := 1 }) els h
  ite_holds (foldl_holds (fun _ _ h => h.enqueue _) _ h1) (ite_holds h1 (h1.enqueue _))

theorem atomic (h : s.Canonical) (a : Acc1) (fn : Nat → Nat) : (s.atomic a fn).1.Canonical := by
  unfold State.atomic
  dsimp only
  split
  · exact h.drainMe.touchAcc _ _ a
  · dsimp only
    exact (h.drainMe.touchAcc _ _ a).performEnt _ _

/-! ### Barrier objects (R327, R331) -/

theorem writeObj (h : s.Canonical) (c o : Nat) (b : BitVec 128) : (s.writeObj c o b).Canonical :=
  h.updCore c (fun _ hx => hx.spadWrite _ _)

theorem setSleep (h : s.Canonical) (a : Word) (on : Bool) : (s.setSleep a on).Canonical := by
  unfold State.setSleep
  split
  · exact h.writeObj _ _ _
  · exact h

theorem unsleep (h : s.Canonical) : s.unsleep.Canonical := by
  unfold State.unsleep
  split
  · exact (h.setSleep _ _).updMe _
  · exact h

theorem touchObj (h : s.Canonical) (a : Word) : (s.touchObj a).Canonical := by
  unfold State.touchObj
  split
  · exact ite_holds (h.updCore _ (fun _ hx => hx.touch _ _)) h
  · exact h

/-! ### Cycles, traps and retirement -/

theorem stalled (h : s.Canonical) : s.stalled.Canonical := h.updMe _

theorem waitCycle (h : s.Canonical) : s.waitCycle.Canonical := (h.updMe _).stalled

theorem deniedCycle (h : s.Canonical) (d : BitVec 4) : (s.deniedCycle d).Canonical := h.stalled.updMe _

theorem landNx (h : s.Canonical) (c k : Nat) : (s.landNx c k).Canonical := ite_holds ((h.updCtx c k _).wakeCtx c k) h

theorem trapCycle (h : s.Canonical) : s.trapCycle.Canonical := h.updMe _

theorem leaveBuf (h : s.Canonical) : s.leaveBuf.Canonical := ite_holds (h.updMyCore (fun _ hx => { hx with })) h

theorem brkTrap (h : s.Canonical) (t : Trap) (off : BitVec 16) (n : Nat) : (s.brkTrap t off n).Canonical :=
  ite_holds ((h.trapCycle.updMe _).report _)
    (ite_holds (ite_holds h.stalled (h.setAgenda _)) (h.trapCycle.takeTrap t _ n))

theorem trapBundle (h : s.Canonical) (l : Laid) (n : Nat) (t : Trap) : (s.trapBundle l n t).Canonical :=
  ite_holds (h.unsleep.brkTrap t _ n) (h.unsleep.trapCycle.takeTrap t _ n)

end State.Canonical

/-! ### The part of an op -/

/-- An op keeps the memories in canonical form: in its effect, and in a cycle of its wait. -/
structure Sem.Keeps (m : Sem) : Prop where
  eff : ∀ (s : State) (a : At) (L : Live), L.s.Canonical → ((m.run s a).eff L).s.Canonical
  onStall : ∀ (s : State) (a : At), s.Canonical → (m.onStall s a).Canonical

theorem effects_canonical {outs : List (At × Out)} (ho : ∀ p ∈ outs, ∀ L : Live, L.s.Canonical → (p.2.eff L).s.Canonical)
    {L : Live} (h : L.s.Canonical) : (effects L outs).s.Canonical := by
  unfold effects
  refine foldl_holds_mem (P := fun L : Live => L.s.Canonical) (fun p hp L hL => ?_) h
  dsimp only
  exact (ho p hp L hL).updMe _

/-- The plan of random words leaves every op its part. -/
theorem rngPlan_parts (s : State) (seed : Word) (conv : Option Word) (l : List (At × Sem)) :
    (rngPlan s seed conv l).1.map (·.2) = l.map (·.2) := by
  induction l generalizing seed conv with
  | nil => rfl
  | cons p l ih =>
    obtain ⟨a, m⟩ := p
    unfold rngPlan
    split
    · simp [ih]
    · simp [ih]
    · split <;> simp [ih]

theorem mem_lay {s : State} {sem : Instr → Sem} {b : Fetched} {p : At × Sem} (hp : p ∈ (s.lay sem b).ops) : ∃ i, p.2 = sem i := by
  have h : p.2 ∈ (s.lay sem b).ops.map (·.2) := List.mem_map_of_mem hp
  rw [State.lay, rngPlan_parts, List.map_map] at h
  obtain ⟨a, -, ha⟩ := List.mem_map.mp h
  exact ⟨a.i, ha.symm⟩

namespace State.Canonical

variable {s : State}

theorem retire (h : s.Canonical) {l : Laid} (hl : ∀ p ∈ l.ops, p.2.Keeps) : (s.retire l).Canonical := by
  have ho : ∀ p ∈ s.outs l, ∀ L : Live, L.s.Canonical → (p.2.eff L).s.Canonical := by
    intro p hp
    obtain ⟨q, hq, rfl⟩ := List.mem_map.mp hp
    exact (hl q hq).eff s q.1
  have h1 := fun f => (effects_canonical ho (L := { s := (s.updMe (·.begin l.seed)).landNx s.cur.core s.cur.ctx })
    ((h.updMe _).landNx _ _)).updMe f
  unfold State.retire
  dsimp only
  refine (updMyCore (ite_holds (P := State.Canonical) (h1 _) ((h1 _).updMe _)) (fun _ hx => ?_)).updCluster _ _
  exact { hx with }

theorem issueLaid (h : s.Canonical) {l : Laid} (hl : ∀ p ∈ l.ops, p.2.Keeps) (long : Option Word) (n : Nat) :
    (s.issueLaid l long n).Canonical := by
  unfold State.issueLaid
  split
  · exact (h.trapBundle l n _).leaveBuf
  · exact ((ite_holds h ((h.updMe _).faultReported _)).trapBundle l n _).leaveBuf
  · exact h.stalled
  · exact h.deniedCycle _
  · split
    · rename_i hg
      exact ((hl _ (List.mem_of_getElem? hg)).onStall s _ h).waitCycle
    · exact h.stalled
  · exact (h.retire hl).leaveBuf

/-- Issuing a bundle of ops that keep the memories in canonical form. -/
theorem issue (h : s.Canonical) {sem : Instr → Sem} (hk : ∀ i, (sem i).Keeps) (b : Fetched) : (s.issue sem b).Canonical :=
  h.issueLaid (fun _ hp => by
    obtain ⟨i, hi⟩ := mem_lay hp
    exact hi ▸ hk i) _ _

end State.Canonical

end Sys2Proof.Machine
end

