-- ==== Sys2Proof/Proofs/CanonicalSems.lean ====
section
/-! PROOFS. Every op keeps the memories in canonical form, in its effect and in a cycle of its wait. -/

namespace Sys2Proof.Machine

/-! ### What engine, lend and launch ops leave of the package -/

namespace State.Canonical

variable {s : State}

theorem startOp (h : s.Canonical) (ins : List Tok) (out : Tok) (k : CmdKind) : (s.startOp ins out k).Canonical :=
  (h.drainMe.updMe _).addCmd k out _ _

theorem idleOp (h : s.Canonical) (ins : List Tok) (out : Tok) : (s.idleOp ins out).Canonical := h.updMe _

theorem updCmd (h : s.Canonical) (c id : Nat) (f : Cmd → Cmd) : (s.updCmd c id f).Canonical :=
  h.updCore c (fun _ hx => hx.updCmd id f)

theorem coverSlots (h : s.Canonical) (k : Nat) (l : List Nat) : (s.coverSlots k l).Canonical :=
  h.updMyCore (fun _ hx => foldl_holds (fun _ n hx => hx.updTile n _) l hx)

theorem linkReplay (h : s.Canonical) (entry id : Nat) : (s.linkReplay entry id).Canonical := by
  unfold State.linkReplay
  split
  · exact h
  · exact (h.updCmd _ _ _).updCmd _ _ _

theorem updRing (h : s.Canonical) (task die n : Nat) (f : Ring → Ring) : (s.updRing task die n f).Canonical :=
  h.updTask task (fun _ ht => ht)

theorem endCtx (h : s.Canonical) : s.endCtx.Canonical :=
  have h1 := h.updMe (fun c => { c with run := .ended, standing := [] })
  ite_holds (h1.updMyCore (fun _ hx => hx.updBank _ _)) h1

theorem csrWrite (h : s.Canonical) (k : CsrOp) (n : Nat) (x v : Word) : (s.csrWrite k n x v).Canonical := by
  unfold State.csrWrite
  split
  case h_13 => exact h.updMyCore (fun _ hx => { hx with })
  case h_14 =>
    split
    · exact ite_holds (h.updRing _ _ _ _) h
    · exact h
  all_goals exact h.updMe _

theorem lendHeld (h : s.Canonical) (w : Word) : (s.lendHeld w).Canonical := h.updMe _

theorem startEddy (h : s.Canonical) (k : Nat) (e : EddyEnt) (arg : Word) : (s.startEddy k e arg).Canonical := by
  unfold State.startEddy
  split
  · exact h
  · split
    · exact h
    · exact h.updMyCore (fun _ hx => (hx.setCtx _ _).updBank _ _)

theorem startPark (h : s.Canonical) (k : Nat) : (s.startPark k).Canonical := h.updMyCore (fun _ hx => { hx with })

theorem queueTask (h : s.Canonical) (img : Nat) (r : List Word) (part prio : Nat) (device : Bool) (parent : Option Nat)
    (node : Option (Nat × Nat)) (entry : Option Nat) : (s.queueTask img r part prio device parent node entry).Canonical := by
  refine h.updFwTasks (f := fun w => { w with tasks := w.tasks ++ [_], pool := _ }) (fun t ht => ?_)
  rcases List.mem_append.mp ht with ht | ht
  · exact h.tasks t ht
  · obtain rfl := List.mem_singleton.mp ht
    exact fun m hm => absurd hm List.not_mem_nil

theorem queueInst (h : s.Canonical) (g : Graph) (compl : Word) (task entry : Option Nat) :
    (s.queueInst g compl task entry).Canonical := { h with }

theorem countLaunch (h : s.Canonical) (t : Nat) : (s.countLaunch t).Canonical := h.updTask t (fun _ ht => ht)

theorem touchRead (h : s.Canonical) (a : Word) (n : Nat) : (s.touchRead a n).Canonical := h.touchAcc _ _ _

theorem touchGraph (h : s.Canonical) (a : Word) : (s.touchGraph a).Canonical :=
  ite_holds h (foldl_holds (fun _ r h => h.touchRead r 128) _ (h.touchRead _ _))

theorem launchRec (h : s.Canonical) (a : Word) : (s.launchRec a).1.Canonical := by
  unfold State.launchRec
  have h1 := h.drainMe.touchRead a 128
  dsimp only
  split
  · exact h1
  · exact (h1.countLaunch _).queueTask _ _ _ _ _ _ _ _

theorem launchGraph (h : s.Canonical) (a compl : Word) : (s.launchGraph a compl).1.Canonical := by
  unfold State.launchGraph
  have h1 := h.drainMe.touchGraph a
  dsimp only
  split
  · exact h1
  · dsimp only
    refine (countLaunch ?_ _).queueInst _ _ _ _
    exact ite_holds h1 { h1 with }

theorem readRecord (h : s.Canonical) (a : Word) : (s.readRecord a).Canonical := ite_holds (h.drainMe.touchRead a 128) h

theorem takeItem (h : s.Canonical) : s.takeItem.1.Canonical := by
  unfold State.takeItem
  split
  · exact h
  · exact h.updTask _ (fun _ ht => ht)

theorem request (h : s.Canonical) (pop : Bool) : (s.request pop).Canonical :=
  (ite_holds (P := State.Canonical) (c := pop = true) (h.updMe Ctx.popNx) h).takeItem.updMe _

theorem startFiller (h : s.Canonical) (f : TileF) (k : CmdKind) : (s.startFiller f k).Canonical :=
  (h.startOp _ _ k).updMyCore (fun _ hx => hx.updTile _ _)

theorem stopSeq (h : s.Canonical) (c : Nat) : (s.stopSeq c).Canonical :=
  foldl_holds (fun _ m h => h.endCmd c m none m.flags) _ h

theorem join (h : s.Canonical) (ins : List Tok) (out : Tok) : (s.join ins out).Canonical :=
  settle _ _ (((h.updMe _).addCmd .join out _ _).updCmd _ _ _)

theorem waitevLook (h : s.Canonical) (f : SysF) : (waitevLook f s).Canonical := (h.implicitMark true).beforeLoad _

theorem bwaitStall (h : s.Canonical) (f : EngF) : (bwaitStall f s).Canonical :=
  ((ite_holds (P := State.Canonical) h ((h.touchObj _).setSleep _ true)).updMe _).updMe _

end State.Canonical

/-! ### Ops by what their effect is -/

theorem live_me {L : Live} (f : Ctx → Ctx) (h : L.s.Canonical) : (Live.me f L).s.Canonical := h.updMe f

theorem live_jump {L : Live} (taken : Bool) (t : Int) (h : L.s.Canonical) : (L.jump taken t).s.Canonical := by
  unfold Live.jump
  split
  · exact h
  · exact h

namespace Sem.Keeps

variable {m : Sem}

/-- An op whose effect is a change of its context. -/
theorem ofMe (he : ∀ s a, ∃ f, (m.run s a).eff = Live.me f) (hs : ∀ s a, m.onStall s a = s) : m.Keeps where
  eff s a L h := by
    obtain ⟨f, hf⟩ := he s a
    rw [hf]
    exact h.updMe f
  onStall s a h := (hs s a).symm ▸ h

end Sem.Keeps

theorem semNone_keeps : semNone.Keeps := ⟨fun _ _ _ h => h, fun _ _ h => h⟩

theorem semCvt_keeps (f : RegF) (i : Instr) (acc : Src → List Tag × Tag) (n : Nat) (lanes : State → RMode → Nat → Nat → FRes) :
    (semCvt f i acc n lanes).Keeps := .ofMe (fun _ _ => ⟨_, rfl⟩) (fun _ _ => rfl)

theorem semVcvt_keeps (f : RegF) : (semVcvt f).Keeps :=
  ite_holds (.ofMe (fun _ _ => ⟨_, rfl⟩) (fun _ _ => rfl)) (semCvt_keeps _ _ _ _ _)

theorem semVqnt_keeps (f : RegF) : (semVqnt f).Keeps :=
  ite_holds (.ofMe (fun _ _ => ⟨_, rfl⟩) (fun _ _ => rfl)) (semCvt_keeps _ _ _ _ _)

/-! ### Memory ops -/

theorem semLoad_keeps (f : MemF) (i : Instr) (sx : Bool) (acc : State → Acc1) : (semLoad f i sx acc).Keeps where
  eff s a L h := by
    dsimp only [semLoad]
    split <;> dsimp only [Live.st, Live.me, id]
    · exact ((h.implicitMark true).load _).updMe _
    · exact h.updMe _
  onStall _ _ h := h

theorem semStore_keeps (f : MemF) (i : Instr) (acc : State → Acc1) : (semStore f i acc).Keeps where
  eff s a L h := by
    dsimp only [semStore]
    split <;> dsimp only [Live.st, Live.me, id]
    · exact (h.implicitMark false).storeNat _ _
    · exact h
  onStall _ _ h := h

theorem semVLoad_keeps (f : MemF) (i : Instr) (k : VAddr) (tags : State → Option TagFail) : (semVLoad f i k tags).Keeps where
  eff _ _ _ h := by
    dsimp only [semVLoad, Live.st]
    exact ((h.implicitMark true).loadElems _ _).updMe _
  onStall _ _ h := h

theorem semVStore_keeps (f : MemF) (i : Instr) (k : VAddr) (o : Operand) (tags : State → Option TagFail) :
    (semVStore f i k o tags).Keeps where
  eff _ _ _ h := by
    dsimp only [semVStore, Live.st]
    exact (h.implicitMark false).storeElems _ _ _ _
  onStall _ _ h := h

theorem semVldb_keeps (f : MemF) : (semVldb f).Keeps where
  eff s a L h := by
    dsimp only [semVldb]
    split <;> dsimp only [Live.st, Live.me, id]
    · exact h.updMe _
    · exact ((h.implicitMark true).load _).updMe _
  onStall _ _ h := h

theorem semAtom_keeps (f : MemF) (i : Instr) (zx : Bool) (fn : AtomFn) (e : State → Nat) : (semAtom f i zx fn e).Keeps where
  eff s a L h := by
    dsimp only [semAtom]
    split <;> dsimp only [Live.st, Live.me, id]
    · exact (h.atomic _ _).updMe _
    · exact h.updMe _
  onStall _ _ h := h

theorem semMark_keeps (f : MemF) : (semMark f).Keeps where
  eff s a L h := by
    dsimp only [semMark]
    split <;> dsimp only [Live.st, Live.me, id]
    · exact h.updMe _
    · exact h
  onStall _ _ h := h

theorem semFence_keeps (f : MemF) : (semFence f).Keeps where
  eff s a L h := by
    dsimp only [semFence]
    split <;> dsimp only [Live.st, Live.me, id]
    · exact h.drainMe
    · exact h
  onStall _ _ h := h

theorem semCache_keeps (f : MemF) (i : Instr) (ent : Nat → StoreEnt) : (semCache f i ent).Keeps where
  eff s a L h := by
    dsimp only [semCache]
    split <;> dsimp only [Live.st, Live.me, id]
    · refine ite_holds (P := State.Canonical) ?_ h
      have h1 := h.touchAcc L.s.cur.core L.s.myTask { lane := 0, va := memEA f s, n := 1, kind := 3 }
      split
      · exact h1.enqueue _
      · exact h1
    · exact h
  onStall _ _ h := h

/-! ### Engine and network ops -/

theorem semFiller_keeps (f : TileF) (i : Instr) (uses : List SlotUse) (kind : State → CmdKind) :
    (semFiller f i uses kind).Keeps where
  eff _ _ _ h := by
    dsimp only [semFiller, Live.st]
    exact ite_holds (h.startFiller f _) (h.idleOp _ _)
  onStall _ _ h := h

theorem semMdrain_keeps (f : TileF) : (semMdrain f).Keeps where
  eff _ _ _ h := by
    dsimp only [semMdrain, Live.st]
    exact ite_holds (h.startFiller f _) (h.idleOp _ _)
  onStall _ _ h := h

theorem semCopy_keeps (two : Bool) (f : EngF) : (semCopy two f).Keeps where
  eff s a L h := by
    dsimp only [semCopy, Live.st, Live.me]
    refine ite_holds (P := State.Canonical) (h.idleOp _ _) ?_
    have h1 := (h.startOp (eIns f) f.out (.cpy two (copyOps f s).1 (copyOps f s).2.1 (copyOps f s).2.2 (f.mode.toNat % 4)
      (fillTag f))).coverSlots (f.mode.toNat % 4)
      (coveredSlots s two (copyOps f s).1 (copyOps f s).2.1 (copyOps f s).2.2 (f.mode.toNat % 4))
    split
    · exact h1.linkReplay _ _
    · exact h1
  onStall _ _ h := h

theorem semCstage_keeps (f : EngF) : (semCstage f).Keeps where
  eff _ _ _ h := by
    dsimp only [semCstage, Live.st]
    exact (ite_holds (P := State.Canonical) (h.idleOp _ _) (h.startOp _ _ _)).updMe _
  onStall _ _ h := h

theorem semDcpy_keeps (f : EngF) : (semDcpy f).Keeps where
  eff s a L h := by
    dsimp only [semDcpy, Live.st, Live.me]
    refine ite_holds (P := State.Canonical) (h.idleOp _ _) ?_
    have h1 := fun n g => (h.startOp (eIns f) f.out (.dcpy (s.val f.a) (s.val f.b) (s.val f.c) (f.mode.toNat % 4) (dcpyRing f))).updCmd
      n L.s.nextId g
    split
    · exact (h1 _ _).updRing _ _ _ _
    · exact h1 _ _
  onStall _ _ h := h

theorem semNi_keeps (f : EngF) (n : Nat) (tags : State → Option TagFail) (idle : State → Bool)
    (check : State → Option TrapInfo) (kind : State → CmdKind) : (semNi f n tags idle check kind).Keeps where
  eff _ _ _ h := by
    dsimp only [semNi, Live.st]
    exact ite_holds (h.idleOp _ _) (h.startOp _ _ _)
  onStall _ _ h := h

theorem semMcst_keeps (f : EngF) (r : Option RouteF) : (semMcst f r).Keeps where
  eff _ _ _ h := by
    dsimp only [semMcst, Live.st]
    exact ite_holds (h.drainMe.idleOp _ _) ((h.startOp _ _ _).updCmd _ _ _)
  onStall _ _ h := h

theorem semBwait_keeps (f : EngF) (r : Option RouteF) : (semBwait f r).Keeps where
  eff _ _ _ h := by
    dsimp only [semBwait, Live.st]
    exact (ite_holds (P := State.Canonical) (h.touchObj _)
      (ite_holds ((h.touchObj _).setSleep _ _) (h.touchObj _))).updMe _
  onStall _ _ h := ite_holds (h.updMe _) (h.bwaitStall f)

theorem semMswap_keeps (f : TileF) : (semMswap f).Keeps where
  eff _ _ _ h := by
    dsimp only [semMswap, Live.st]
    exact h.updMyCore (fun _ hx => hx.updAcc _ (fun _ ha => ⟨ha.vis, ha.work⟩))
  onStall _ _ h := h

theorem semTtag_keeps (f : TileF) : (semTtag f).Keeps where
  eff _ _ _ h := by
    dsimp only [semTtag, Live.st]
    exact ite_holds (h.updMyCore (fun _ hx => hx.updTile _ _)) h
  onStall _ _ h := h

theorem semTmask_keeps (f : TileF) : (semTmask f).Keeps where
  eff _ _ _ h := by
    dsimp only [semTmask, Live.st]
    exact h.drainMe.updMe _
  onStall _ _ h := h

theorem semTstate_keeps (f : TileF) : (semTstate f).Keeps where
  eff _ _ _ h := by
    dsimp only [semTstate, Live.st]
    exact h.drainMe.updMe _
  onStall _ _ h := h

theorem semMcfg_keeps (f : TileF) : (semMcfg f).Keeps where
  eff _ _ _ h := by
    dsimp only [semMcfg, Live.st]
    exact h.updMyCore (fun _ hx => { hx with })
  onStall _ _ h := h

theorem semMgo_keeps (f : TileF) : (semMgo f).Keeps where
  eff _ _ _ h := by
    dsimp only [semMgo, Live.st]
    exact h.startOp _ _ _
  onStall _ _ h := h

theorem semMzero_keeps (f : TileF) : (semMzero f).Keeps where
  eff _ _ _ h := by
    dsimp only [semMzero, Live.st]
    exact h.startOp _ _ _
  onStall _ _ h := h

theorem semMwload_keeps (f : TileF) : (semMwload f).Keeps where
  eff _ _ _ h := by
    dsimp only [semMwload, Live.st]
    exact h.startOp _ _ _
  onStall _ _ h := h

theorem semOvl_keeps (f : EngF) : (semOvl f).Keeps where
  eff _ _ _ h := by
    dsimp only [semOvl, Live.st]
    exact h.startOp _ _ _
  onStall _ _ h := h

theorem semMstep_keeps (f : TileF) : (semMstep f).Keeps where
  eff _ _ _ h := by
    dsimp only [semMstep, Live.st]
    exact ite_holds (h.startOp _ _ _) (h.idleOp _ _)
  onStall _ _ h := h

theorem semMstop_keeps (f : TileF) : (semMstop f).Keeps where
  eff _ _ _ h := by
    dsimp only [semMstop, Live.st]
    exact (h.stopSeq _).updMe _
  onStall _ _ h := h

theorem semBread_keeps (f : EngF) (r : Option RouteF) : (semBread f r).Keeps where
  eff _ _ _ h := by
    dsimp only [semBread, Live.st]
    exact (h.touchObj _).updMe _
  onStall _ _ h := h

theorem semTkjoin_keeps (f : EngF) : (semTkjoin f).Keeps where
  eff _ _ _ h := by
    dsimp only [semTkjoin, Live.st]
    exact h.join _ _
  onStall _ _ h := h

/-! ### Control -/

theorem semBranch_keeps (f : BrF) (i : Instr) (cond : State → Bool) (target : State → At → Int)
    (push : State → At → Option SVal) : (semBranch f i cond target push).Keeps where
  eff s a L h := by
    dsimp only [semBranch]
    refine live_jump _ _ ?_
    split
    · exact live_me _ h
    · exact h
  onStall _ _ h := h

theorem semLoop_keeps (f : BrF) : (semLoop f).Keeps where
  eff s a L h := by
    dsimp only [semLoop]
    split
    · exact live_jump _ _ (live_me _ h)
    · exact live_me _ h
  onStall _ _ h := h

theorem semEret_keeps (f : SysF) : (semEret f).Keeps where
  eff s a L h := by
    dsimp only [semEret]
    split
    · exact live_me _ h
    · exact h
  onStall _ _ h := h

theorem semCsrWrite_keeps (f : SysF) (i : Instr) (k : CsrOp) : (semCsrWrite f i k).Keeps where
  eff _ _ _ h := by
    dsimp only [semCsrWrite, Live.st]
    exact ite_holds ((h.updMe _).csrWrite _ _ _ _) (h.updMe _)
  onStall _ _ h := h

theorem semWaitev_keeps (f : SysF) : (semWaitev f).Keeps where
  eff _ _ _ h := by
    dsimp only [semWaitev, Live.st]
    exact (ite_holds (P := State.Canonical) (h.waitevLook f) h).updMe _
  onStall _ _ h := (h.waitevLook f).updMe _

/-! ### Lends and launches -/

theorem semLend_keeps (f : SysF) : (semLend f).Keeps where
  eff _ _ _ h := by
    dsimp only [semLend, Live.st]
    exact ite_holds ((h.updMe _).updMyCore (fun _ hx => { hx with })) (h.updMe _)
  onStall _ _ h := h.lendHeld _

theorem semEddy_keeps (f : SysF) : (semEddy f).Keeps where
  eff s a L h := by
    dsimp only [semEddy, Live.st, Live.me]
    refine State.Canonical.updMe ?_ _
    split
    · exact h.startEddy _ _ _
    · exact h
  onStall _ _ h := h

theorem semEddyRes_keeps (f : SysF) : (semEddyRes f).Keeps where
  eff s a L h := by
    dsimp only [semEddyRes, Live.st, Live.me]
    refine State.Canonical.updMe ?_ _
    split
    · exact (h.updMyCore (fun _ hx => (hx.setCtx _ _).updBank _ _)).updCtx _ _ _
    · exact h
  onStall _ _ h := h

theorem semLaunch_keeps (f : SysF) : (semLaunch f).Keeps where
  eff _ _ _ h := by
    dsimp only [semLaunch, Live.st]
    exact ite_holds ((h.launchRec _).updMe _) (h.updMe _)
  onStall _ _ h := h

theorem semLaunchNb_keeps (f : SysF) : (semLaunchNb f).Keeps where
  eff _ _ _ h := by
    dsimp only [semLaunchNb, Live.st]
    exact ite_holds (h.updMe _) (ite_holds ((h.readRecord _).updMe _)
    (ite_holds ((h.readRecord _).updMe _) ((h.launchRec _).updMe _)))
  onStall _ _ h := h

theorem semLaunchG_keeps (f : SysF) : (semLaunchG f).Keeps where
  eff _ _ _ h := by
    dsimp only [semLaunchG, Live.st]
    exact ite_holds ((h.launchGraph _ _).updMe _) (h.updMe _)
  onStall _ _ h := h

theorem semEnd_keeps (f : BrF) : (semEnd f).Keeps where
  eff _ _ _ h := by
    dsimp only [semEnd, Live.st]
    exact ite_holds h.endCtx h
  onStall _ _ h := h

theorem semRevoke_keeps (f : SysF) : (semRevoke f).Keeps where
  eff _ _ _ h := by
    dsimp only [semRevoke, Live.st]
    exact ite_holds (h.startRevoke _) h
  onStall _ _ h := h

theorem semPark_keeps (f : SysF) : (semPark f).Keeps where
  eff _ _ _ h := by
    dsimp only [semPark, Live.st]
    exact ite_holds (h.startPark _) h
  onStall _ _ h := h

theorem semNtreq_keeps (f : SysF) : (semNtreq f).Keeps where
  eff _ _ _ h := by
    dsimp only [semNtreq, Live.st]
    exact ite_holds (h.request _) h
  onStall _ _ h := h

theorem semNtreqPop_keeps (f : SysF) : (semNtreqPop f).Keeps where
  eff _ _ _ h := by
    dsimp only [semNtreqPop, Live.st]
    exact ite_holds (h.request _) h
  onStall _ _ h := h

theorem semIdle_keeps (f : SysF) : (semIdle f).Keeps where
  eff _ _ _ h := live_me _ h
  onStall _ _ h := by
    dsimp only [semIdle]
    exact h.updMe _

/-! ### Every op -/

/-- The ops by their forms; those of the long case change their context only. -/
theorem semOf_keeps (i : Instr) : (semOf i).Keeps := by
  cases i
  case ld f | ldu f | ldp f => exact semLoad_keeps _ _ _ _
  case st f | stp f => exact semStore_keeps _ _ _
  case vld f | vlds f | vldx f => exact semVLoad_keeps _ _ _ _
  case vst f | vsts f | vstx f => exact semVStore_keeps _ _ _ _ _
  case vldb f => exact semVldb_keeps f
  case aadd f | amin f | amax f | aand f | aor f | axor f | aswp f | acas f | aminu f | amaxu f => exact semAtom_keeps _ _ _ _ _
  case mark f => exact semMark_keeps f
  case fence f => exact semFence_keeps f
  case cwb f | cinv f => exact semCache_keeps _ _ _
  case tzero f | tfill f | tident f | tclass f | tcopy f => exact semFiller_keeps _ _ _ _
  case mdrain f => exact semMdrain_keeps f
  case ttag f => exact semTtag_keeps f
  case tmask f => exact semTmask_keeps f
  case tstate f => exact semTstate_keeps f
  case mcfg f => exact semMcfg_keeps f
  case mgo f => exact semMgo_keeps f
  case mzero f => exact semMzero_keeps f
  case mwload f => exact semMwload_keeps f
  case ovl f => exact semOvl_keeps f
  case mstep f => exact semMstep_keeps f
  case mswap f => exact semMswap_keeps f
  case mstop f => exact semMstop_keeps f
  case cpy f | cpy2d f => exact semCopy_keeps _ _
  case cstage f => exact semCstage_keeps f
  case dcpy f => exact semDcpy_keeps f
  case rget f r | rput f r | rgath f r | rscat f r | ratom f r | binit f r | barr f r => exact semNi_keeps _ _ _ _ _ _
  case mcst f r => exact semMcst_keeps f r
  case bwait f r => exact semBwait_keeps f r
  case bread f r => exact semBread_keeps f r
  case tkjoin f => exact semTkjoin_keeps f
  case br f => exact (semBranch_keeps _ _ _ _ _ : (semBr f).Keeps)
  case brz f => exact (semBranch_keeps _ _ _ _ _ : (semBrz f).Keeps)
  case brnz f => exact (semBranch_keeps _ _ _ _ _ : (semBrnz f).Keeps)
  case call f => exact (semBranch_keeps _ _ _ _ _ : (semCall f).Keeps)
  case calli f => exact (semBranch_keeps _ _ _ _ _ : (semCalli f).Keeps)
  case ret f => exact (semBranch_keeps _ _ _ _ _ : (semRet f).Keeps)
  case jmpi f => exact (semBranch_keeps _ _ _ _ _ : (semJmpi f).Keeps)
  case loop f => exact semLoop_keeps f
  case endOp f => exact semEnd_keeps f
  case csrw f | csrs f | csrc f => exact semCsrWrite_keeps _ _ _
  case eret f => exact semEret_keeps f
  case lend f => exact semLend_keeps f
  case revoke f => exact semRevoke_keeps f
  case eddy f => exact semEddy_keeps f
  case eddyRes f => exact semEddyRes_keeps f
  case park f => exact semPark_keeps f
  case launch f => exact semLaunch_keeps f
  case launchNb f => exact semLaunchNb_keeps f
  case launchG f => exact semLaunchG_keeps f
  case ntreq f => exact semNtreq_keeps f
  case ntreqPop f => exact semNtreqPop_keeps f
  case waitev f => exact semWaitev_keeps f
  case idle f => exact semIdle_keeps f
  case vcvt f => exact semVcvt_keeps f
  case vqnt f => exact semVqnt_keeps f
  case add f | sub f | mul f | mulh f | div f | rem f | and f | or f | xor f | andn f | shl f | shr f | sar f | rot f
      | clz f | popc f | min f | max f | minu f | maxu f | sel f | cmp f | madd f | extr f | ins f | bswap f | shadd
      f | movc f | addi f | andi f | ori f | xori f | shli f | shri f | sari f | li f | lih f | cmpi f | muli f |
      vadd f | vsub f | vmul f | vmulh f | vmin f | vmax f | vand f | vor f | vxor f | vandn f | vshl f | vshr f |
      vsar f | vabs f | vcmp f | vsel f | vdot4 f | vmadd f | vpopc f | vfadd f | vfsub f | vfmul f | vfma f | vfnma
      f | vfmin f | vfmax f | vfabs f | vfneg f | vfcmp f | vfrcp f | vfrsq f | vfexp2 f | vflog2 f | vfdiv f |
      vfsqrt f | vfclass f | vfscale f | vfdot2 f | vdqnt f | vlcd f | vperm f | vshuf f | vbcast f | vred f | vscan
      f | vcmprs f | vexpnd f | vslide f | vclmul f | vextr f | vins f | vretag f | vli f | vaddi f | seed f |
      rngpop f | mread f | csched f | tkwait f | tktest f | yield f | csrr f | trap f | weirset f | weirsetBa f |
      weirsetWa f | weirq f =>
    exact .ofMe (fun _ _ => ⟨_, rfl⟩) (fun _ _ => rfl)
  case brk f => exact ⟨fun _ _ _ h => h, fun _ _ h => h⟩
  all_goals exact semNone_keeps

end Sys2Proof.Machine
end

