-- ==== Sys2Proof/Proofs/CanonicalEvents.lean ====
section
/-! PROOFS. The events of contexts, tile commands, the matrix engine, copies and the network keep the memories in canonical form. -/

namespace Sys2Proof.Machine

/-! ### Meanings -/

/-- A meaning that keeps the memories in canonical form. -/
def KeepsCanonical (m : State → Host.Outcome State Fault Refusal) : Prop := ∀ s t, s.Canonical → m s = .next t → t.Canonical

theorem keeps_next {f : State → State} (hf : ∀ s : State, s.Canonical → (f s).Canonical) :
    KeepsCanonical (fun s => .next (f s)) := by
  intro s t h ht
  obtain rfl := Host.Outcome.next.inj ht
  exact hf s h

/-- An event that one agent of the package runs, where it exists. -/
theorem keeps_agent {p : State → Prop} [DecidablePred p] {r : Fault} {f : State → State}
    (hf : ∀ s : State, s.Canonical → (f s).Canonical) : KeepsCanonical (fun s => if p s then .fault r else .next (f s)) := by
  intro s t h ht
  dsimp only at ht
  split at ht
  · cases ht
  · exact keeps_next hf s t h ht

theorem onCore_keeps {due : State → Bool} {f : State → State} (hf : ∀ s : State, s.Canonical → (f s).Canonical) :
    KeepsCanonical (onCore due f) := keeps_agent (fun s h => ite_holds (hf s h) h)

theorem onCmd_keeps {due : State → Cmd → Bool} {f : State → Cmd → State}
    (hf : ∀ (s : State) (c : Cmd), s.Canonical → (f s c).Canonical) : KeepsCanonical (onCmd due f) :=
  onCore_keeps (fun s h => by
    split
    · exact hf s _ h
    · exact h)

theorem issueOne_keeps {m : Sem} (hm : m.Keeps) (i : Instr) : KeepsCanonical (issueOne m i) :=
  keeps_agent (fun s h => h.issue (fun _ => hm) (s.single i))

/-- What an op word means keeps the memories in canonical form, a pair word and CSTAGE as well. -/
theorem exec_op_keeps {i : Instr} (h : (classOf i).isSome = true) (hp : Instr.isPlain i = true) : KeepsCanonical (exec i) :=
  fun s t hs ht => issueOne_keeps (semOf_keeps i) i s t hs (exec_op i s h hp ▸ ht)

theorem execPair_keeps (f : PairF) : KeepsCanonical (execPair f) := keeps_agent (fun _ h => h.issue semOf_keeps _)

theorem semStaged_keeps (f : EngF) (i : Instr) : (semStaged f i).Keeps := by
  unfold semStaged
  split
  · exact semCopy_keeps false _
  · exact semCopy_keeps true _
  · exact semCstage_keeps f

theorem execCstage_keeps (f : EngF) : KeepsCanonical (execCstage f) := keeps_agent (fun _ h => h.issue (semStaged_keeps f) _)

/-! ### Contexts (R60, R125 to R127, R184, R200, R293, R331) -/

namespace CoreState.Canonical

variable {x : CoreState}

theorem freeBankAt (h : x.Canonical) (k : Nat) : (x.freeBankAt k).Canonical := { h with }

theorem freeParked (h : x.Canonical) : x.freeParked.Canonical := foldl_holds (fun _ k h => ite_holds (h.freeBankAt k) h) _ h

end CoreState.Canonical

namespace State.Canonical

variable {s : State}

theorem as (h : s.Canonical) (c k : Nat) : (s.as c k).Canonical := h.setCur _

theorem doAs (h : s.Canonical) (c k : Nat) {f : State → State} (hf : ∀ s : State, s.Canonical → (f s).Canonical) :
    (s.doAs c k f).Canonical := (hf _ (h.as c k)).setCur _

theorem takeHere (h : s.Canonical) : s.takeHere.Canonical := h.unsleep.leaveBuf.updMe _

theorem takeAway (h : s.Canonical) (c k : Nat) : (s.takeAway c k).Canonical := h.doAs c k (fun _ h => h.takeHere.updMe _)

theorem enterA (h : s.Canonical) (r : FaultRec) : (s.enterA r).Canonical := (h.unsleep.leaveBuf.updMe _).takeTrap _ _ _

theorem countDenial (h : s.Canonical) : s.countDenial.Canonical := by
  unfold State.countDenial
  split
  · exact h.updTask _ (fun _ ht => ht)
  · exact h

theorem dropNotice (h : s.Canonical) : s.dropNotice.Canonical := ite_holds (h.updMe _).countDenial h

theorem takeA (h : s.Canonical) (a : NextA) : (s.takeA a).Canonical := by
  cases a with
  | soft p => exact (h.updMe _).enterA _
  | notice i => exact (h.updMe _).enterA _
  | fault p => exact ((h.updMe _).faultReported _).enterA _

theorem debugStop (h : s.Canonical) : s.debugStop.Canonical := (h.unsleep.leaveBuf.wakeCtx _ _).updMe _

theorem stepReport (h : s.Canonical) : s.stepReport.Canonical := (h.updMe _).report _

theorem bpSkip (h : s.Canonical) : s.bpSkip.Canonical := foldl_holds (fun _ _ h => h.updMe _) _ h

theorem bpStop (h : s.Canonical) (p : Nat × Nat) : (s.bpStop p).Canonical := (h.bpSkip.updMe _).report _

theorem issueNext (h : s.Canonical) : s.issueNext.Canonical := h.issue semOf_keeps _

theorem noteFault (h : s.Canonical) (t k : Option Nat) : (s.noteFault t k).Canonical := by
  unfold State.noteFault
  split
  · exact h.updTask _ (fun _ ht => ht)
  · exact h

theorem checkHalt (h : s.Canonical) (c k : Nat) : (State.checkHalt c s k).Canonical :=
  { ((h.noteFault (s.ctx c k).task (some 0x5F)).haltCtx c k 0x5F).updCtx c k (Ctx.scramble s.freeCount) with }

theorem unsealed (h : s.Canonical) (d : Nat) : (s.unseal d).Canonical := ite_holds h (h.updDie d _)

theorem gateCluster (h : s.Canonical) (k : Nat) : (s.gateCluster k).Canonical where
  __ := h
  cores p hp := by
    obtain ⟨q, hq, rfl⟩ := List.mem_map.mp hp
    have hx := h.cores q hq
    exact ite_holds (P := fun p : Nat × CoreState => p.2.Canonical) { hx with } hx

theorem settleIdle (h : s.Canonical) (c : Nat) : (s.settleIdle c).Canonical :=
  ite_holds (h.unsealed _) ((h.unsealed _).gateCluster _)

theorem releaseOwner (h : s.Canonical) (c : Nat) : (s.releaseOwner c).Canonical := by
  refine settleIdle (updCore (h.noteFault _ _) c (fun x hx => ?_)) c
  have hp := hx.freeParked
  dsimp only
  generalize x.freeParked = y at hp ⊢
  exact ⟨hp.spad, hp.ispad, hp.wbuf, hp.accs, fun _ hk => nomatch hk⟩

end State.Canonical

theorem execStalledBundleIssue_keeps : KeepsCanonical execStalledBundleIssue := onCore_keeps (fun _ h => h.issueNext)

theorem execWaitevWake_keeps : KeepsCanonical execWaitevWake := onCore_keeps (fun _ h => h.issueNext)

theorem execWaitevBound_keeps : KeepsCanonical execWaitevBound := onCore_keeps (fun _ h => h.issueNext)

theorem execBwaitReread_keeps : KeepsCanonical execBwaitReread := onCore_keeps (fun _ h => h.issueNext)

theorem execBwaitTimeout_keeps : KeepsCanonical execBwaitTimeout := onCore_keeps (fun _ h => h.issueNext)

theorem execMigrationRewalk_keeps : KeepsCanonical execMigrationRewalk := onCore_keeps (fun _ h => h.issueNext)

theorem execKindAFault_keeps : KeepsCanonical execKindAFault := onCore_keeps (fun s h => by
  split
  · exact h.takeA _
  · exact h)

theorem execThrottleNotice_keeps : KeepsCanonical execThrottleNotice := onCore_keeps (fun s h => by
  refine ite_holds h.dropNotice ?_
  split
  · exact h.takeA _
  · exact h)

theorem execYieldExpiry_keeps : KeepsCanonical execYieldExpiry := onCore_keeps (fun _ h => h.updMe _)

theorem execContextWake_keeps : KeepsCanonical execContextWake := onCore_keeps (fun _ h => h.wakeCtx _ _)

theorem execNextTileLanding_keeps : KeepsCanonical execNextTileLanding := onCore_keeps (fun _ h => h.landNx _ _)

theorem execMachineCheck_keeps (m : McheckInfo) : KeepsCanonical (execMachineCheck m) :=
  keeps_agent (fun _ h => ((foldl_holds (fun _ k h => h.checkHalt m.core k) _ h).report _).raiseIrq 2)

theorem execContextRelease_keeps : KeepsCanonical execContextRelease :=
  onCore_keeps (fun _ h => ite_holds ((h.updMyCore (f := fun x => { x with slot := {} }) (fun _ hx => { hx with })).settleIdle _)
    (h.releaseOwner _))

/-! ### Tile commands (R225, R228, R234 to R236) -/

theorem CoreState.Canonical.endFiller {x : CoreState} (h : x.Canonical) (lost : List Nat) (n : Nat) (f : Fill) :
    (x.endFiller lost n f).Canonical := h.endTile lost n _

theorem CoreState.Canonical.complete {x : CoreState} (h : x.Canonical) (lost : List Nat) (n : Nat) (f : Fill) :
    (x.complete lost n f).Canonical := by
  unfold CoreState.complete
  split
  · exact (h.fillAt lost _ _).endFiller lost n f
  · exact h.endFiller lost n f

namespace State.Canonical

variable {s : State}

theorem failFiller (h : s.Canonical) (c : Cmd) (r : FaultRec) : (s.failFiller c r).Canonical := by
  unfold State.failFiller
  split
  · exact (h.updCore _ (fun _ hx => hx.endTile _ _ _)).endCmd _ _ _ _
  · exact h.endCmd _ _ _ _

theorem startTile (h : s.Canonical) (c : Cmd) : (s.startTile c).Canonical := by
  unfold State.startTile
  split
  · exact (h.updMyCore (fun _ hx => hx.touch _ _)).updCmd _ _ _
  · exact h.updCmd _ _ _

theorem tileRows (h : s.Canonical) (c : Cmd) : (s.tileRows c).Canonical := by
  unfold State.tileRows
  split
  · exact (h.updMyCore (fun _ hx => (hx.touch _ _).fillAt _ _ _)).updCmd _ _ _
  · exact h.updCmd _ _ _

end State.Canonical

theorem execTileOpStart_keeps : KeepsCanonical execTileOpStart := onCmd_keeps (fun s c h => by
  refine ite_holds (h.tileRows c) ?_
  split
  · exact h.failFiller c _
  · exact h.startTile c)

theorem execTileOpComplete_keeps : KeepsCanonical execTileOpComplete := onCmd_keeps (fun s c h => by
  dsimp only
  split
  · exact (h.updMyCore (fun _ hx => hx.endFiller _ _ _)).endCmd _ _ _ _
  · exact h.endCmd _ _ _ _)

/-! ### The matrix engine (R250 to R258, R265 to R267) -/

namespace CoreState.Canonical

variable {x : CoreState}

/-- A step writes its rows to the working bank as a list of bytes from address 0. -/
theorem doStep (h : x.Canonical) (c : StepCmd) : (x.doStep c).1.Canonical := by
  unfold CoreState.doStep
  dsimp only
  refine h.updAcc _ (fun a ha => ?_)
  exact ⟨Mem.wf_cellsOf _, ha.vis⟩

theorem touchSlots (h : x.Canonical) (l : List Int) (t : Nat) : (x.touchSlots l t).Canonical :=
  foldl_holds (fun _ _ h => h.touch _ t) l h

end CoreState.Canonical

namespace State.Canonical

variable {s : State}

theorem addCharge (h : s.Canonical) (c n : Nat) : (s.addCharge c n).Canonical := h.updCluster _ _

theorem seqFail (h : s.Canonical) (c : Cmd) (step reason : Nat) (p : StepPos) (g : Nat) : (s.seqFail c step reason p g).Canonical := by
  unfold State.seqFail
  dsimp only
  refine (h.updMyCore (fun _ hx => ?_)).endCmd _ _ _ _
  exact { hx with }

theorem seqStart (h : s.Canonical) (c : Cmd) : (s.seqStart c).Canonical := by
  unfold State.seqStart
  dsimp only
  split
  · split
    · exact h.seqFail _ _ _ _ _
    · exact (h.updMyCore (fun _ hx => hx.touchRun _ _ _)).updCmd _ _ _
  · exact h.updCmd _ _ _

theorem matrixStep (h : s.Canonical) (c : Cmd) (p : StepCmd) : (s.matrixStep c p).Canonical := by
  unfold State.matrixStep
  split
  · exact h.seqFail _ _ _ _ _
  · have h1 := (h.updMyCore (f := fun _ => (s.myCore.doStep p).1.touchSlots (stepSlots p) (s.eff s.cur.core))
      (fun _ _ => (h.myCore.doStep p).touchSlots _ _)).addCharge s.cur.core (treatCharge (stepTreat s.myCore p))
    exact ite_holds (h1.endCmd _ _ _ _) (h1.updCmd _ _ _)

end State.Canonical

theorem execSequencerCommandStart_keeps : KeepsCanonical execSequencerCommandStart := onCore_keeps (fun s h => by
  split
  · split
    · exact h.endCmd _ _ _ _
    · exact ite_holds (h.endCmd _ _ _ _) (h.seqStart _)
  · exact h)

theorem execMatrixStep_keeps : KeepsCanonical execMatrixStep := onCore_keeps (fun s h => by
  split
  · exact h.matrixStep _ _
  · exact h)

theorem execMzeroComplete_keeps : KeepsCanonical execMzeroComplete := onCore_keeps (fun s h => by
  split
  · split
    · refine (h.updMyCore (fun _ hx => hx.updAcc _ (fun a ha => ?_))).endCmd _ _ _ _
      exact ⟨rfl, ha.vis⟩
    · exact h
  · exact h)

theorem execMwloadComplete_keeps : KeepsCanonical execMwloadComplete := onCore_keeps (fun s h => by
  split
  · split
    · refine (h.updMyCore (fun x hx => ?_)).endCmd _ _ _ _
      exact { hx with wbuf := Mem.wf_writeBytes _ _ _ hx.wbuf }
    · exact h
  · exact h)

theorem execMdrainStart_keeps : KeepsCanonical execMdrainStart := onCore_keeps (fun s h => by
  split
  · split
    · exact h.failFiller _ _
    · exact h.updCmd _ _ _
  · exact h)

theorem execMdrainComplete_keeps : KeepsCanonical execMdrainComplete := onCore_keeps (fun s h => by
  split
  · split
    · exact (h.updMyCore (fun _ hx => (hx.touch _ _).complete _ _ _)).endCmd _ _ _ _
    · exact h
  · exact h)

end Sys2Proof.Machine
end

