-- ==== Sys2Proof/Proofs/CanonicalTransfers.lean ====
section
/-! PROOFS. Copies, the network and what comes from outside the package keep the memories in canonical form. -/

namespace Sys2Proof.Machine

/-! ### Copies (R282 to R291, R347 to R354) -/

namespace CoreState.Canonical

variable {x : CoreState}

theorem dropResid (h : x.Canonical) (o : Overlay) : (x.dropResid o).Canonical := { h with }

theorem drawCopy (h : x.Canonical) (n : Nat) : (x.drawCopy n).Canonical := ite_holds h { h with }

theorem load (h : x.Canonical) (img : Nat) (o : Overlay) (ws : List Word) : (x.load img o ws).Canonical :=
  { h with ispad := Mem.wf_writeBytes _ _ _ h.ispad }

theorem finishSlot (h : x.Canonical) (lost : List Nat) (k : Nat) (t : Option Tag) (bs : List Byte) (n : Nat) :
    (x.finishSlot lost k t bs n).Canonical := by
  unfold CoreState.finishSlot
  split
  · exact h.endFiller _ _ _
  · exact h.endTile _ _ _
  · exact h.endTile _ _ _

end CoreState.Canonical

namespace State.Canonical

variable {s : State}

theorem setFree (h : s.Canonical) (n : Nat) : { s with freeCount := n }.Canonical := { h with }

theorem physRun (h : s.Canonical) (pa : Nat) (bs : List Byte) : (s.physRun pa bs).Canonical :=
  ite_holds h (h.setPhys (Mem.wf_writeBytes _ _ _ h.mem) h.home)

theorem sideWrite (h : s.Canonical) (fill : Option (List Nat)) (x : Side) (bs : List Byte) : (s.sideWrite fill x bs).Canonical := by
  unfold State.sideWrite
  split
  · refine h.updCore _ (fun y hy => ?_)
    split
    · exact (hy.touch _ _).fillAt _ _ _
    · exact (hy.touch _ _).spadWrite _ _
  · exact h.physRun _ _
  · exact h

theorem writeSides (h : s.Canonical) (fill : Option (List Nat)) (l : List (Side × Nat)) (bs : List Byte) :
    (State.writeSides fill l bs s).Canonical := by
  induction l generalizing s bs with
  | nil => exact h
  | cons p l ih => exact ih (h.sideWrite fill p.1 _) _

theorem sideSpoil (h : s.Canonical) (x : Side) (i : Nat) : (s.sideSpoil x i).Canonical := by
  unfold State.sideSpoil
  split
  · refine h.updCore _ (fun y hy => ?_)
    exact { hy with }
  · exact h.setPhys h.mem h.home
  · exact h

theorem spoilBad (h : s.Canonical) (x : ChunkSides) (bad : List Bool) : (s.spoilBad x bad).Canonical := by
  refine foldl_holds (P := State.Canonical) (fun s b h => ite_holds (P := State.Canonical) ?_ h) _ h
  split
  · exact h.sideSpoil _ _
  · exact h

theorem touchSides (h : s.Canonical) (l : List (Side × Nat)) : (s.touchSides l).Canonical := by
  refine foldl_holds (P := State.Canonical) (fun s y h => ?_) _ h
  split
  · exact h.updCore _ (fun _ hx => hx.touchRun _ _ _)
  · exact h

theorem freeRest (h : s.Canonical) (c : Cmd) (n i : Nat) : (State.freeRest c n i s).Canonical := by
  induction n generalizing s i with
  | zero => exact h
  | succ n ih => exact ih ((h.writeSides _ _ _).setFree _) _

theorem failCopy (h : s.Canonical) (c : Cmd) (r : FaultRec) : (s.failCopy c r).Canonical :=
  (h.updMyCore (fun _ hx => foldl_holds (fun _ n hx => hx.endTile c.lost n uncover) _ hx)).endCmd _ _ _ _

theorem failChunk (h : s.Canonical) (c : Cmd) (x : ChunkSides) (bad : List Bool) : (s.failChunk c x bad).Canonical :=
  (h.freeRest c _ _).spoilBad x bad

theorem freeWords (h : s.Canonical) (o : Overlay) : (s.freeWords o).Canonical := by
  refine setFree (h.updMyCore (fun x hx => ?_)) _
  exact { hx with ispad := Mem.wf_writeCells _ _ hx.ispad }

theorem failOvl (h : s.Canonical) (c : Cmd) (o : Overlay) (r : Nat) : (s.failOvl c o r).Canonical := (h.freeWords o).endCmd _ _ _ _

theorem startOvl (h : s.Canonical) (c : Cmd) (n : Word) : (s.startOvl c n).Canonical := by
  unfold State.startOvl
  dsimp only
  split
  · exact h.endCmd _ _ _ _
  · exact ite_holds (h.endCmd _ _ _ _)
      (ite_holds (h.failOvl _ _ _) ((h.updMyCore (fun _ hx => hx.dropResid _)).updCmd _ _ _))

theorem startCopy (h : s.Canonical) (c : Cmd) : (s.startCopy c).Canonical := by
  unfold State.startCopy
  split
  · exact h.failCopy c _
  · split
    · exact h.startOvl c _
    · exact ite_holds (h.failCopy c _) (h.updCmd _ _ _)

theorem moveChunk (h : s.Canonical) (c : Cmd) (room : Nat) {fail : State → Nat → State}
    (hf : ∀ (s : State) (r : Nat), s.Canonical → (fail s r).Canonical) : (s.moveChunk c room fail).1.Canonical := by
  unfold State.moveChunk
  dsimp only
  split
  · exact hf _ _ (h.failChunk _ _ _)
  · split
    · exact hf _ _ (h.failChunk _ _ _)
    · exact ((h.touchSides _).writeSides _ _ _).updCmd _ _ _

theorem walkChunk (h : s.Canonical) (p : Port) (k : Chunk) : (s.walkChunk p k).Canonical := by
  have go (wr : Bool) (s : State) (x : Word × Nat) (h : s.Canonical) :
      (if s.isMapped p.core x.1 && (p.leases.all (fun l => l.1 != x.1.toNat / 4096)) then
        s.xlateFx p.core p.task x.1.toNat wr else s).Canonical := ite_holds (h.xlateFx _ _ _ _) h
  exact foldl_holds (go true) _ (foldl_holds (go false) _ h)

theorem drawDie (h : s.Canonical) (d : Nat) (t : Option Task) (n : Nat) : (s.drawDie d t n).Canonical := by
  unfold State.drawDie
  split
  · exact h.updDie _ _
  · exact h

theorem writeRecord (h : s.Canonical) (c : Cmd) : (s.writeRecord c).Canonical := by
  unfold State.writeRecord
  split
  · exact h
  · exact ((ite_holds (P := State.Canonical) (h.xlateFx _ _ _ _) h).writeSides _ _ _).updRing _ _ _ _

end State.Canonical

theorem execCopyCommandStart_keeps : KeepsCanonical execCopyCommandStart := onCore_keeps (fun s h => by
  split
  · exact h.startCopy _
  · exact h)

theorem execCopyChunkComplete_keeps : KeepsCanonical execCopyChunkComplete := onCmd_keeps (fun s c h => by
  dsimp only
  split
  · exact ((h.updMyCore (fun _ hx => hx.drawCopy _)).updCmd _ _ _).addCharge _ _
  · exact (((h.walkChunk _ _).moveChunk c _ (fun _ _ h => h.failCopy c _)).updMyCore (fun _ hx => hx.drawCopy _)).addCharge _ _)

theorem execCopyCommandComplete_keeps : KeepsCanonical execCopyCommandComplete := onCmd_keeps (fun s c h => by
  split
  · exact (h.updMyCore (fun _ hx => foldl_holds (fun _ _ hx => hx.finishSlot _ _ _ _ _) _ hx)).endCmd _ _ _ _
  · exact h)

theorem execOvlComplete_keeps : KeepsCanonical execOvlComplete := onCmd_keeps (fun s c h => by
  split
  · split
    · exact ite_holds (h.failOvl _ _ _) ((h.updMyCore (fun _ hx => hx.load _ _ _)).endCmd _ _ _ _)
    · exact h
  · exact h)

theorem execDcpyCommandStart_keeps : KeepsCanonical execDcpyCommandStart := onCmd_keeps (fun s c h => by
  split
  · exact h.updCmd _ _ _
  · exact ite_holds (h.updCmd _ _ _) (h.updCmd _ _ _))

theorem execDcpyChunkComplete_keeps : KeepsCanonical execDcpyChunkComplete := onCmd_keeps (fun _ c h =>
  ((h.walkChunk _ _).moveChunk c _ (fun _ _ h => h.updCmd _ _ _)).drawDie _ _ _)

theorem execDcpyComplete_keeps : KeepsCanonical execDcpyComplete := onCmd_keeps (fun _ c h => (h.writeRecord c).endCmd _ _ _ _)

/-! ### The network (R312 to R332, R436 to R444) -/

namespace State.Canonical

variable {s : State}

/-- A change of the fabric that leaves the cores of other packages. -/
theorem setFab (h : s.Canonical) {f : Fabric} (hf : f.foreign = s.fab.foreign) : { s with fab := f }.Canonical :=
  { h with foreign := fun x hx => h.foreign x (hf ▸ hx) }

theorem niWrite (h : s.Canonical) (home : Nat) (c : Cmd) (core off : Nat) (bs : List Byte) :
    (s.niWrite home c core off bs).Canonical := by
  unfold State.niWrite
  refine h.updCore core (fun x hx => ?_)
  have ht := (hx.touch off (s.eff core)).touch (off + bs.length - 1) (s.eff core)
  exact ite_holds (ht.spadCells _) (ht.spadWrite _ _)

theorem niSpoil (h : s.Canonical) (home : Nat) (c : Cmd) (core off n : Nat) : (s.niSpoil home c core off n).Canonical := by
  refine h.updCore core (fun x hx => ?_)
  exact { hx with }

theorem endNi (h : s.Canonical) (core : Nat) (c : Cmd) : (s.endNi core c).Canonical := by
  unfold State.endNi
  split
  · exact h.endCmd _ _ _ _
  · exact h.endCmd _ _ _ _

theorem leaveStrays (h : s.Canonical) (core : Nat) (c : Cmd) : (s.leaveStrays core c).Canonical := h.setFab rfl

theorem cutOff (h : s.Canonical) (core : Nat) (c : Cmd) (reason : Nat) : (s.cutOff core c reason).Canonical := by
  have zeros (l : List Nat) : (l.foldl (fun (s : State) i => match c.landing i with
      | some o => s.niWrite core c core o (List.replicate (c.reqBytes i) 0)
      | none => s) s).Canonical := by
    refine foldl_holds (P := State.Canonical) (fun s i h => ?_) _ h
    split
    · exact h.niWrite _ _ _ _ _
    · exact h
  unfold State.cutOff
  dsimp only
  split
  · exact ((zeros _).leaveStrays core c).endCmd _ _ _ _
  · exact ((zeros _).leaveStrays core c).endCmd _ _ _ _
  · exact (h.leaveStrays core c).endCmd _ _ _ _

theorem startNi (h : s.Canonical) (core : Nat) (c : Cmd) : (s.startNi core c).Canonical := by
  unfold State.startNi
  split
  · exact h.endCmd _ _ _ _
  · dsimp only
    refine ite_holds (h.endCmd _ _ _ _) (ite_holds (h.cutOff _ _ _) ?_)
    split
    · exact (h.updCore _ (fun _ hx => hx.touchRun _ _ _)).updCmd _ _ _
    · exact h.updCmd _ _ _

theorem foreignWrite (h : s.Canonical) (p : Place) (bs : List Byte) : (s.foreignWrite p bs).Canonical where
  __ := h
  foreign f hf := by
    obtain ⟨g, hg, rfl⟩ := List.mem_map.mp hf
    exact ite_holds (P := fun f : Foreign => f.spad.wf = true) (Mem.wf_writeBytes _ _ _ (h.foreign g hg)) (h.foreign g hg)

theorem performFor (h : s.Canonical) (task : Option Nat) (core : Nat) (c : Cmd) (r : Req) (p : Place) :
    (s.performFor task core c r p).1.Canonical := by
  have put (bs : List Byte) : (if p.pkg == s.boot.pkg then s.niWrite core c p.core p.off bs else s.foreignWrite p bs).Canonical :=
    ite_holds (h.niWrite _ _ _ _ _) (h.foreignWrite _ _)
  have woken : (if p.pkg == s.boot.pkg then s.updCore p.core (fun x => (x.touch p.off (s.eff p.core)).touch
      (p.off + c.reqBytes r.idx - 1) (s.eff p.core)) else s).Canonical :=
    ite_holds (h.updCore _ (fun _ hx => (hx.touch _ _).touch _ _)) h
  have spoiled (b : Bool) (bs : List Byte) : (if b then State.niSpoil
      (if p.pkg == s.boot.pkg then s.niWrite core c p.core p.off bs else s.foreignWrite p bs) core c p.core p.off
      (c.reqBytes r.idx) else (if p.pkg == s.boot.pkg then s.niWrite core c p.core p.off bs else s.foreignWrite p bs)).Canonical :=
    ite_holds ((put bs).niSpoil _ _ _ _ _) (put bs)
  unfold State.performFor
  dsimp only
  generalize (match c.route with | some t => !s.routed core t p | none => false) = mis
  refine ite_holds (P := fun x : State × Req => x.1.Canonical) h (ite_holds (P := fun x : State × Req => x.1.Canonical) h ?_)
  split
  · exact (spoiled _ _).setFree _
  · exact spoiled _ _
  · refine ite_holds (P := fun x : State × Req => x.1.Canonical) woken ?_
    split
    · exact put _
    · exact woken
  · exact woken

theorem performReq (h : s.Canonical) (core : Nat) (c : Cmd) (r : Req) (p : Place) : (s.performReq core c r p).1.Canonical :=
  h.performFor _ _ _ _ _

theorem dropStrays (h : s.Canonical) (core : Nat) (c : Cmd) (p : Place) : (s.dropStrays core c p).Canonical :=
  ite_holds (h.setFab rfl) h

theorem putReq (h : s.Canonical) (core id : Nat) (r : Req) : (s.putReq core id r).Canonical := h.updCmd _ _ _

theorem landReq (h : s.Canonical) (core : Nat) (c : Cmd) (r : Req) : (s.landReq core c r).Canonical := by
  have spoiled (b : Bool) (o n : Nat) (bs : List Byte) : (if b then (s.niWrite core c core o bs).niSpoil core c core o n
      else s.niWrite core c core o bs).Canonical := ite_holds ((h.niWrite _ _ _ _ _).niSpoil _ _ _ _ _) (h.niWrite _ _ _ _ _)
  unfold State.landReq
  split
  · exact h
  · split
    · exact spoiled _ _ _ _
    · exact (spoiled _ _ _ _).setFree _

theorem landCast (h : s.Canonical) (core : Nat) (c : Cmd) (off : Nat) (data : List Byte) (task : Option Nat) (t : Nat) :
    (State.landCast core c off data task s t).Canonical := ite_holds (h.niWrite _ _ _ _ _) h

theorem barrierWake (h : s.Canonical) (p : Place) (core k : Nat) : (s.barrierWake p core k).Canonical :=
  ite_holds ((h.wakeBy _ core k).updCtx _ _ _) (h.wakeBy _ core k)

theorem wakeSleepers (h : s.Canonical) (p : Place) (o : BitVec 128) : (s.wakeSleepers p o).Canonical :=
  foldl_holds (fun _ _ h => ite_holds (h.barrierWake _ _ _) h) _ h

theorem atObject (h : s.Canonical) (core : Nat) (c : Cmd) {f : Place → State → State}
    (hf : ∀ (p : Place) (s : State), s.Canonical → (f p s).Canonical) : (s.atObject core c f).Canonical := by
  unfold State.atObject
  split
  · exact h
  · exact ite_holds (h.endCmd _ _ _ _) (hf _ _ (h.updCore _ (fun _ hx => hx.touch _ _)))

theorem putObj (h : s.Canonical) (core : Nat) (c : Cmd) (p : Place) (o : BitVec 128) : (s.putObj core c p o).Canonical :=
  h.niWrite _ _ _ _ _

end State.Canonical

theorem execNiCommandStart_keeps : KeepsCanonical execNiCommandStart := onCmd_keeps (fun _ c h => h.startNi _ c)

theorem execRemoteRequestArrival_keeps : KeepsCanonical execRemoteRequestArrival := onCmd_keeps (fun s c h => by
  split
  · exact ((h.performReq _ _ _ _).dropStrays _ _ _).putReq _ _ _
  · exact h)

theorem execRemoteReplyLanding_keeps : KeepsCanonical execRemoteReplyLanding := onCmd_keeps (fun s c h => by
  split
  · rename_i r _
    have h1 := fun f => (h.landReq s.cur.core c r).updCmd s.cur.core c.id f
    have h2 := fun f => ite_holds (c := c.kind.isLanes = true) ((h1 f).addCharge s.cur.core laneCharge) (h1 f)
    exact ite_holds ((h2 _).endNi _ _) (h2 _)
  · exact h)

theorem execMcstLanding_keeps : KeepsCanonical execMcstLanding := onCmd_keeps (fun s c h => by
  split
  · split
    · exact h.endCmd _ _ _ _
    · exact State.Canonical.endCmd (foldl_holds (fun _ _ h => h.landCast _ _ _ _ _ _) _ h) _ _ _ _
  · exact h)

theorem execBinitLanding_keeps : KeepsCanonical execBinitLanding := onCmd_keeps (fun s c h => by
  split
  · exact h.atObject _ _ (fun _ _ h => ite_holds (h.endCmd _ _ _ _) ((h.putObj _ _ _ _).endCmd _ _ _ _))
  · exact h)

theorem execBarrierArrival_keeps : KeepsCanonical execBarrierArrival := onCmd_keeps (fun s c h => by
  split
  · refine h.atObject _ _ (fun p s h => ite_holds (h.endCmd _ _ _ _) ?_)
    split
    · exact h.endCmd _ _ _ _
    · exact (h.putObj _ _ _ _).endCmd _ _ _ _
    · exact ((h.putObj _ _ _ _).wakeSleepers _ _).endCmd _ _ _ _
    · exact (h.putObj _ _ _ _).endCmd _ _ _ _
  · exact h)

/-! ### What comes from outside the package (R317, R354 to R356, R438, R440, R441, R443) -/

namespace State.Canonical

variable {s : State}

theorem farWrite (h : s.Canonical) (r : FarReq) (bs : List Byte) (bad : Bool) : (s.farWrite r bs bad).Canonical := by
  unfold State.farWrite
  refine h.updCore _ (fun x hx => ?_)
  have hw := ((hx.touch r.off (s.eff r.target)).touch (r.off + bs.length - 1) (s.eff r.target)).spadWrite r.off bs
  exact ite_holds { hw with } hw

theorem farRead (h : s.Canonical) (r : FarReq) : (s.farRead r).Canonical := h.updCore _ (fun _ hx => (hx.touch _ _).touch _ _)

theorem performFar (h : s.Canonical) (r : FarReq) : (s.performFar r).1.Canonical := by
  unfold State.performFar
  dsimp only
  refine ite_holds (P := fun x : State × FarReply => x.1.Canonical) h ?_
  split
  · exact h.farRead r
  · exact h.farWrite r _ _
  · refine ite_holds (P := fun x : State × FarReply => x.1.Canonical) (h.farRead r) ?_
    split
    · exact h.farWrite r _ _
    · exact h.farRead r

theorem farArrive (h : s.Canonical) (r : FarReq) : (s.farArrive r).Canonical := ite_holds h ((h.performFar r).setFab rfl)

theorem loseAck (h : s.Canonical) (core id idx : Nat) (sent : Bool) : (s.loseAck core id idx sent).Canonical := h.updCmd _ _ _

theorem performLate (h : s.Canonical) (i : Nat) : (s.performLate i).Canonical := by
  unfold State.performLate
  split
  · split
    · refine ite_holds h ?_
      dsimp only
      refine (State.Canonical.performFor ?_ _ _ _ _ _).dropStrays _ _ _
      exact h.setFab rfl
    · exact h
  · exact h

theorem deviceStore (h : s.Canonical) (pa : Nat) (bs : List Byte) : (s.deviceStore pa bs).Canonical :=
  ite_holds (h.setPhys h.mem (Mem.wf_writeBytes _ _ _ h.home)) h

theorem devicePoison (h : s.Canonical) (line : Nat) : (s.devicePoison line).Canonical := by
  unfold State.devicePoison
  split
  · exact h.setPhys h.mem h.home
  · exact h.setPhys h.mem h.home
  · exact h

theorem rowError (h : s.Canonical) (core row : Nat) : (s.rowError core row).Canonical := by
  refine ite_holds (h.updCore _ (fun x hx => ?_)) h
  exact { hx with }

theorem lineError (h : s.Canonical) (line : Nat) : (s.lineError line).Canonical := ite_holds h (h.setPhys h.mem h.home)

theorem fromAbroad (h : s.Canonical) (x : Abroad) : (s.fromAbroad x).Canonical := by
  cases x with
  | request r => exact h.farArrive r
  | unanswered core id idx sent => exact h.loseAck core id idx sent
  | late i => exact h.performLate i
  | deviceStore pa bs => exact h.deviceStore pa bs
  | devicePoison line => exact h.devicePoison line
  | rowError core row => exact h.rowError core row
  | lineError line => exact h.lineError line

end State.Canonical

end Sys2Proof.Machine
end

