-- ==== Sys2Proof/Proofs/CanonicalTasks.lean ====
section
/-! PROOFS. The events of lends and revocations, of tasks and graphs, and of saved images keep the memories in canonical form. -/

namespace Sys2Proof.Machine

/-! ### Runs of bytes put into a memory -/

/-- A memory with a run of its bytes replaced by those of another. -/
theorem Mem.wf_replaced {m k : Mem} (a n b : Nat) (hm : m.wf = true) (hk : k.wf = true) (hb : a + n ≤ b) :
    (m.below a ++ (k.slice a n ++ m.above b) : Mem).wf = true :=
  Mem.wfFrom_append _ _ (Mem.below_wfFrom _ _ _ hm) (Mem.below_endsBy _ _) (Nat.zero_le a)
    (Mem.wfFrom_append _ _ (Mem.slice_wfFrom k a n hk) (Mem.slice_endsBy k a n) (by omega)
      (Mem.wfFrom_mono hb _ (Mem.above_wfFrom m b 0 hm)))

theorem wf_keptBytes (slots : List Nat) {m : Mem} (h : m.wf = true) : (keptBytes slots m).wf = true :=
  foldl_holds (P := fun n : Mem => n.wf = true) (fun _ k hn => Mem.wf_replaced _ slotSize _ hn h (by rw [Nat.succ_mul])) slots rfl

/-! ### Lends and revocations (R301 to R305) -/

namespace CoreState.Canonical

variable {x : CoreState}

theorem updRev (h : x.Canonical) (f : List Revoke → List Revoke) : (x.updRev f).Canonical := { h with }

theorem updBanks (h : x.Canonical) (ks : List Nat) (f : EddyBank → EddyBank) :
    (ks.foldl (fun (x : CoreState) k => x.updBank k f) x).Canonical := foldl_holds (fun _ k h => h.updBank k f) ks h

theorem endLent (h : x.Canonical) (r : Revoke) : (x.endLent r).Canonical := h.updBanks _ _

theorem discardRegion (h : x.Canonical) (r : Revoke) (t : Nat) : (x.discardRegion r t).Canonical := by
  have h1 : (x.lentBanks.foldl (fun (x : CoreState) k =>
      x.setCtx k { x.ctx k with csr := { (x.ctx k).csr with discard := true } }) (x.reclaim r.start r.count t)).Canonical :=
    foldl_holds (fun _ k h => h.setCtx k _) _ (h.reclaim _ _ _)
  exact { h1.endLent r with }

theorem resumeBank (h : x.Canonical) (k : Nat) : (x.resumeBank k).Canonical := (h.setCtx _ _).updBank _ _

theorem ungate (h : x.Canonical) (a n t : Nat) : (x.ungate a n t).Canonical := by
  unfold CoreState.ungate
  exact ⟨h.spad, h.ispad, h.wbuf, h.accs, h.kept⟩

theorem restoreKept (h : x.Canonical) {k : Kept} (hk : k.mem.wf = true) (t : Nat) : (x.restoreKept k t).Canonical :=
  have h1 := h.touchSlotRun k.start k.count t
  foldl_holds (fun _ _ h => h.updTile _ _) _ (h1.setSpad (Mem.wf_replaced _ _ _ h1.spad hk (Nat.le_refl _)))

theorem resumeFit (h : x.Canonical) (ks : List Nat) : (x.resumeFit ks).Canonical :=
  foldl_holds (fun _ k h => ite_holds (h.resumeBank k) h) ks h

/-- The region that LEND or a restore gives back. -/
theorem giveBack (h : x.Canonical) (p : Kept → Bool) (t : Nat) :
    (match x.lend.kept with | some k => if p k then x.restoreKept k t else x | none => x).Canonical := by
  split
  · rename_i k hk
    exact ite_holds (h.restoreKept (h.kept k hk) t) h
  · exact h

end CoreState.Canonical

theorem execRevokeSquash_keeps : KeepsCanonical execRevokeSquash := onCore_keeps (fun s h => by
  split
  · exact State.Canonical.updMyCore (foldl_holds (fun _ k h => h.takeAway _ k) _ h) (fun _ hx => hx.updRev _)
  · exact h)

theorem execBankPark_keeps : KeepsCanonical execBankPark := onCore_keeps (fun s h => by
  split
  · exact State.Canonical.updMyCore (ite_holds (foldl_holds (fun _ k h => h.drain _ k) _ h) h)
      (fun _ hx => (hx.updBanks _ _).updRev _)
  · exact h)

theorem execRegionReclaim_keeps : KeepsCanonical execRegionReclaim := onCore_keeps (fun s h => by
  split
  · exact h.updMyCore (fun _ hx => ite_holds { hx with } ((hx.discardRegion _ _).updRev _))
  · exact h)

theorem execKeepRegionCopyOut_keeps : KeepsCanonical execKeepRegionCopyOut := onCore_keeps (fun s h => by
  split
  · rename_i r _
    refine h.updMyCore (fun x hx => ?_)
    have h1 := hx.touchSlotRun r.start r.count (s.eff s.cur.core)
    refine (CoreState.Canonical.endLent ?_ r).updRev _
    refine ⟨h1.spad, h1.ispad, h1.wbuf, h1.accs, fun k hk => ?_⟩
    obtain rfl := Option.mem_some.mp hk
    exact Mem.wf_slice _ _ _ h1.spad
  · exact h)

theorem execFirmwareRevoke_keeps : KeepsCanonical execFirmwareRevoke := onCore_keeps (fun _ h => h.startRevoke _)

theorem execLendComplete_keeps : KeepsCanonical execLendComplete := onCore_keeps (fun s h => by
  refine h.updMyCore (fun x hx => ?_)
  dsimp only
  have h1 := (((hx.ungate x.lend.cfg.start x.lend.cfg.count (s.eff s.cur.core)).reclaim x.lend.cfg.start x.lend.cfg.count
    (s.eff s.cur.core)))
  generalize (x.ungate x.lend.cfg.start x.lend.cfg.count (s.eff s.cur.core)).reclaim x.lend.cfg.start x.lend.cfg.count
    (s.eff s.cur.core) = y at h1 ⊢
  have h2 := h1.giveBack (fun k => y.lend.last == some (x.lend.cfg.start, x.lend.cfg.count) && k.start == x.lend.cfg.start &&
    k.count == x.lend.cfg.count) (s.eff s.cur.core)
  refine CoreState.Canonical.resumeFit ?_ _
  exact ⟨h2.spad, h2.ispad, h2.wbuf, h2.accs, fun _ hk => nomatch hk⟩)

theorem execEddyBankFree_keeps : KeepsCanonical execEddyBankFree := onCore_keeps (fun s h => by
  refine (State.Canonical.updMyCore (ite_holds ?_ (ite_holds (h.noteFault _ _) h)) (fun _ hx => hx.freeBankAt _)).settleIdle _
  split
  · exact (h.noteFault _ _).updTask _ (fun _ ht => ht)
  · exact h)

/-! ### Binding a task (R240, R241, R358, R375, R380) -/

theorem Image.wf_spad (i : Image) : i.spad.wf = true := by
  refine foldl_holds (P := fun m : Mem => m.wf = true) (fun m t hm => ?_) _
    (foldl_holds (P := fun m : Mem => m.wf = true) (fun m d hm => Mem.wf_writeBytes _ _ _ hm) _ rfl)
  split
  · exact Mem.wf_clear _ _ _ hm
  · exact Mem.wf_writeBytes _ _ _ hm
  · exact Mem.wf_writeBytes _ _ _ hm
  · exact hm

namespace CoreState.Canonical

variable {x : CoreState}

theorem fresh (h : x.Canonical) (img : Image) (t : Task) (eff : Nat) : (x.fresh img t eff).Canonical where
  __ := h
  spad := img.wf_spad
  accs := CoreState.Canonical.reset.accs
  kept _ hk := nomatch hk

theorem turnedOn (h : x.Canonical) (y : CoreState) (n : Nat) : (CoreState.turnedOn y x n).Canonical := { h with }

theorem started (h : x.Canonical) (n : Nat) : (CoreState.started n x).Canonical := ite_holds { h with } h

end CoreState.Canonical

namespace State.Canonical

variable {s : State}

theorem loadOverlay (h : s.Canonical) (core : Nat) (img : Image) (o : Overlay) : (s.loadOverlay core img o).Canonical := by
  unfold State.loadOverlay
  refine h.updCore core (fun x hx => ite_holds hx ?_)
  have h1 : ({ x with resid := x.resid.map (fun (r : Resid) =>
      if runsMeet o.off (8 * o.words.length) r.off (8 * r.len) then { r with res := false } else r) } : CoreState).Canonical :=
    { hx with }
  exact h1.load _ _ _

theorem bindCore (h : s.Canonical) (t : Task) (img : Image) (core : Nat) : (s.bindCore t img core).Canonical := by
  have h1 : (s.updCore core (fun x => x.turnedOn
      (({ x with copyBud := s.copyOf core }.fresh img t (s.bindEff core)).setCtx 0 (s.ownerStart t img core).ctx) s.master)).Canonical := by
    refine h.updCore core (fun x hx => ((CoreState.Canonical.fresh ?_ _ _ _).setCtx _ _).turnedOn _ _)
    exact { hx with }
  unfold State.bindCore
  dsimp only
  split
  · exact h1.loadOverlay _ _ _
  · exact h1

theorem powerUp (h : s.Canonical) (l : List Nat) : (s.powerUp l).Canonical := foldl_holds (fun _ _ h => h.updCluster _ _) l h

theorem sealDies (h : s.Canonical) (l : List Nat) : (s.sealDies l).Canonical := foldl_holds (fun _ _ h => h.updDie _ _) l h

theorem startTask (h : s.Canonical) (t : Task) : (s.startTask t).Canonical :=
  ite_holds (foldl_holds (fun _ _ h => h.updCore _ (fun _ hx => hx.started _)) _ h) h

theorem freePool (h : s.Canonical) (e : Option Nat) : (s.freePool e).Canonical := by
  cases e with
  | none => exact h
  | some e =>
    unfold State.freePool
    exact h.updFw rfl

theorem passPool (h : s.Canonical) (t : Task) : (s.passPool t).Canonical := by
  unfold State.passPool
  split
  · exact h.updTask _ (fun _ ht => ht)
  · exact h.freePool _

/-- The task at the head of a queue is one of the firmware's. -/
theorem head (h : s.Canonical) {part : Nat} {t : Task} (ht : s.head part = some t) : t.Canonical :=
  h.tasks t (List.mem_of_mem_filter (List.mem_of_find?_eq_some ht))

theorem bindTask (h : s.Canonical) {t : Task} (ht : t.Canonical) (img : Image) (b : BindInfo) : (s.bindTask t img b).Canonical := by
  unfold State.bindTask
  refine State.Canonical.startTask (State.Canonical.sealDies (State.Canonical.powerUp (foldl_holds (fun _ c h => h.bindCore _ img c) _
    (passPool (h.updTask _ (fun _ _ => ?_)) t)) _) _) _
  exact ht

/-! ### The end of a task (R293, R382, R383, R392) -/

theorem writeCompl (h : s.Canonical) (addr : Word) (task code : Nat) : (s.writeCompl addr task code).Canonical := by
  unfold State.writeCompl
  dsimp only
  refine ite_holds h ?_
  split
  · exact h
  · exact ite_holds ((h.updCore _ (fun _ hx => (hx.touch _ _).spadWrite _ _)).raiseIrq 3) h

theorem noteNode (h : s.Canonical) (node : Option (Nat × Nat)) (code : Nat) : (s.noteNode node code).Canonical := by
  unfold State.noteNode
  split
  · exact h
  · exact h.updFw rfl

theorem freeTail (h : s.Canonical) (c : Cmd) : (s.freeTail c).Canonical := by
  unfold State.freeTail
  dsimp only
  refine ite_holds h (State.Canonical.freeRest ?_ _ _ _)
  exact (h.writeSides _ _ _).setFree _

theorem freeUnwritten (h : s.Canonical) (core : Nat) (c : Cmd) : (s.freeUnwritten core c).Canonical := by
  refine foldl_holds (P := State.Canonical) (fun s p h => ?_) _ h
  exact (ite_holds (P := State.Canonical) (h.foreignWrite _ _) (ite_holds (h.niWrite _ _ _ _ _) h)).setFree _

theorem freeOvl (h : s.Canonical) (c : Cmd) : (s.freeOvl c).Canonical := by
  unfold State.freeOvl
  split
  · split
    · exact h.freeWords _
    · exact h
  · exact h

theorem abandonCmds (h : s.Canonical) (core k : Nat) : (s.abandonCmds core k).Canonical := by
  unfold State.abandonCmds
  dsimp only
  refine updCore (foldl_holds (P := State.Canonical) (fun s c h => ?_) _ h) core (fun x hx => ?_)
  · exact (h.doAs core k (fun _ h => (h.freeTail c).freeOvl c)).freeUnwritten core c
  · exact { hx with }

theorem quitCtx (h : s.Canonical) (core k : Nat) : (s.quitCtx core k).Canonical := ((h.takeAway core k).drain core k).abandonCmds core k

theorem unbindCore (task : Nat) (h : s.Canonical) (core : Nat) : (State.unbindCore task s core).Canonical := by
  unfold State.unbindCore
  dsimp only
  refine settleIdle (updCore (foldl_holds (P := State.Canonical) (fun s k h => ?_) _ h) core (fun x hx => ?_)) core
  · exact h.updCore core (fun _ hx => ite_holds (hx.freeBankAt k) (hx.setCtx k _))
  · exact ite_holds ⟨hx.spad, hx.ispad, hx.wbuf, hx.accs, fun _ hk => nomatch hk⟩ hx

theorem quitTask (h : s.Canonical) (t : Task) (cores : List Nat) : (s.quitTask t cores).Canonical :=
  foldl_holds (P := State.Canonical) (fun _ c h => foldl_holds (fun _ k h => h.quitCtx c k) _ h) cores h

theorem endTask (h : s.Canonical) (t : Task) (code : Nat) : (s.endTask t code).Canonical := by
  unfold State.endTask
  dsimp only
  generalize t.cores.filter (fun c => !(s.ctxsOf t.num c).isEmpty || (s.core c).slot.task == t.num) = held
  have h1 : (held.foldl (State.unbindCore t.num) (s.quitTask t held)).Canonical :=
    foldl_holds (fun _ c h => h.unbindCore t.num c) held (h.quitTask t held)
  have h2 := (h1.updTask t.num (f := fun t => { t with st := .ended, code := some code, reserved := 0, pool := none, ckpt := false,
                                                       drainAt := none, saved := [] })
    (fun _ _ _ hm => absurd hm List.not_mem_nil)).freePool t.pool
  have h3 := ((foldl_holds (P := State.Canonical) (fun _ c h => h.unsealed (dieOf c)) t.cores h2).noteNode t.node code).writeCompl (recCompl t.record) t.num code
  exact ite_holds (h3.raiseIrq 2) h3

/-! ### Pre-emption (R391, R392) -/

theorem decideCkpt (h : s.Canonical) (t : Task) : (s.decideCkpt t).Canonical := by
  have hn (x : CoreState) (hx : x.Canonical) : x.noteLend.Canonical := ite_holds { hx with } hx
  unfold State.decideCkpt
  refine foldl_holds (P := State.Canonical) (fun _ c h => foldl_holds (fun _ k h => h.takeAway c k) _ h) _
    (foldl_holds (P := State.Canonical) (fun _ c h => (h.updCore c hn).startRevoke c) _ (h.updTask _ (fun _ ht => ht)))

theorem killOrSave (h : s.Canonical) (t : Task) : (s.killOrSave t).Canonical := ite_holds (h.endTask _ _) (h.decideCkpt _)

theorem preempt (h : s.Canonical) (t : Task) : (s.preempt t).Canonical :=
  ite_holds (h.updTask _ (fun _ ht => ht)) (h.killOrSave t)

/-! ### Graphs (R386 to R388) -/

theorem launchNode (h : s.Canonical) (i : GInst) (g : Graph) (k : Nat) (r : List Word) : (s.launchNode i g k r).Canonical := by
  unfold State.launchNode State.setNodeTask
  exact (h.queueTask _ _ _ _ _ _ _ _).updFw rfl

end State.Canonical

theorem execTaskBind_keeps (b : BindInfo) : KeepsCanonical (execTaskBind b) := keeps_next (fun s h => by
  split
  · rename_i t ht
    split
    · exact ite_holds (h.bindTask (h.head ht) _ b) h
    · exact h
  · exact h)

theorem execTaskEnd_keeps : KeepsCanonical execTaskEnd := keeps_next (fun s h => by
  split
  · split
    · exact h.endTask _ _
    · exact h
  · exact h)

theorem execPreemptionDecision_keeps : KeepsCanonical execPreemptionDecision := keeps_next (fun s h => by
  split
  · split
    · refine ite_holds ?_ h
      split
      · exact h.preempt _
      · exact h
    · exact h
  · exact h)

theorem execDrainTimeout_keeps : KeepsCanonical execDrainTimeout := keeps_next (fun s h => by
  split
  · split
    · exact ite_holds (h.killOrSave _) h
    · exact h
  · exact h)

theorem execGraphNodeLaunch_keeps : KeepsCanonical execGraphNodeLaunch := keeps_next (fun s h => by
  split
  · split
    · exact ite_holds (h.launchNode _ _ _ _) ((h.noteNode _ _).writeCompl _ _ _)
    · exact h
  · exact h)

theorem execGraphInstanceComplete_keeps : KeepsCanonical execGraphInstanceComplete := keeps_next (fun s h => by
  split
  · exact ite_holds ((State.Canonical.freePool (h.updFw rfl) _).writeCompl _ _ _) h
  · exact h)

/-! ### Saved images (R393 to R402) -/

theorem CoreState.Canonical.relend {x : CoreState} (h : x.Canonical) (eff : Nat) : (x.relend eff).Canonical := by
  unfold CoreState.relend
  split
  · exact h
  · rename_i l ks _
    dsimp only
    have h1 := (h.ungate l.start l.count eff).reclaim l.start l.count eff
    generalize (x.ungate l.start l.count eff).reclaim l.start l.count eff = y at h1 ⊢
    have h2 := h1.giveBack (fun k => k.start == l.start && k.count == l.count) eff
    refine foldl_holds (P := CoreState.Canonical) (fun _ k h => ite_holds (h.resumeBank k) h) ks ?_
    exact ⟨h2.spad, h2.ispad, h2.wbuf, h2.accs, fun _ hk => nomatch hk⟩

theorem CoreState.Canonical.restoreFrom {x m : CoreState} (h : x.Canonical) (hm : m.Canonical) (img : Image) (eff : Nat) :
    (x.restoreFrom m img eff).Canonical := by
  refine CoreState.Canonical.relend ?_ eff
  exact ⟨wf_keptBytes _ hm.spad, h.ispad, hm.wbuf, hm.accs, hm.kept⟩

/-- A part of a core's state, for one context, keeps at most its kept region. -/
theorem CoreState.Canonical.tenantState {x : CoreState} (h : x.Canonical) (k : Nat) : (x.tenantState k).Canonical where
  __ := CoreState.Canonical.reset
  kept q hq := by
    obtain ⟨hq, -⟩ := Option.mem_filter_iff.mp hq
    exact h.kept q hq

namespace State.Canonical

variable {s : State}

theorem writeImage (h : s.Canonical) (task core : Nat) (img : Image) (rings : List Ring) (x : CoreState) :
    (s.writeImage task core img rings x).1.Canonical := (h.physCells _).setFree _

theorem writeImages (h : s.Canonical) (t : Task) (img : Image) (l : List Nat) : (State.writeImages t img l s).1.Canonical ∧
    ∀ m ∈ (State.writeImages t img l s).2, m.st.Canonical := by
  induction l generalizing s with
  | nil => exact ⟨h, fun _ hm => absurd hm List.not_mem_nil⟩
  | cons c l ih =>
    obtain ⟨h1, h2⟩ := ih (h.writeImage t.num c img t.rings (s.core c))
    rw [State.writeImages]
    exact ⟨h1, List.forall_mem_cons.mpr ⟨h.core c, h2⟩⟩

theorem checkpointTask (h : s.Canonical) (t : Task) (img : Image) : (s.checkpointTask t img).Canonical := by
  unfold State.checkpointTask
  dsimp only
  have h1 : ((s.held t).foldl (fun (s : State) c => (s.ctxsOf t.num c).foldl (fun (s : State) k => s.drain c k) s) s).Canonical :=
    foldl_holds (P := State.Canonical) (fun _ c h => foldl_holds (fun _ k h => h.drain c k) _ h) _ h
  obtain ⟨h2, h3⟩ := h1.writeImages t img (s.held t)
  refine foldl_holds (P := State.Canonical) (fun s c h => unbindCore t.num (h.updCore c (fun x hx => ?_)) c) _ ?_
  · exact { hx with }
  · exact h2.updTask _ (fun _ _ => h3)

theorem reportRestore (h : s.Canonical) (st : RestoreStatus) (core : Nat) : (s.reportRestore st core).Canonical := h.report _

theorem restoreCore (h : s.Canonical) (t : Task) (img : Image) {p : SavedImage × Nat} (hp : p.1.st.Canonical) :
    (s.restoreCore t img p).Canonical := by
  unfold State.restoreCore
  refine foldl_holds (P := State.Canonical) (fun _ o h => h.loadOverlay _ _ o) _ (h.updCore _ (fun x hx => ?_))
  dsimp only
  refine CoreState.Canonical.turnedOn ?_ _ _
  have h1 : ({ x with copyBud := s.copyOf p.2 } : CoreState).Canonical := { hx with }
  have h2 : ({ p.1.st with ctxs := p.1.st.ctxs.map (s.budgeted t) } : CoreState).Canonical := { hp with }
  exact { (h1.fresh img t (s.bindEff p.2)).restoreFrom h2 img (s.bindEff p.2) with }

theorem rehomed_canonical {m : SavedImage} (hm : m.st.Canonical) (s : State) (core : Nat) (t : Task) :
    (s.rehomed core t m).st.Canonical := { hm with }

theorem restoreTask (h : s.Canonical) {t : Task} (ht : t.Canonical) (img : Image) (cores : List Nat) :
    (s.restoreTask t img cores).Canonical := by
  unfold State.restoreTask
  refine State.Canonical.startTask (State.Canonical.sealDies (State.Canonical.powerUp (foldl_holds_mem (P := State.Canonical)
    (fun p hp s h => h.restoreCore _ img ?_) (passPool (h.updTask _ (fun _ _ m hm => absurd hm List.not_mem_nil)) t)) _) _) _
  obtain ⟨q, hq, rfl⟩ := List.mem_map.mp hp
  exact rehomed_canonical (ht _ (List.of_mem_zip hq).1) _ _ _

/-! ### Tenant eddies (R301, R304, R306) -/

theorem lodge (h : s.Canonical) (b : EddyBindInfo) (img : Image) (o : Overlay) (c : Ctx) : (s.lodge b img o c).Canonical := by
  unfold State.lodge
  refine h.updCore _ (fun x hx => (CoreState.Canonical.setCtx ?_ _ _).updBank _ _)
  exact { hx with ispad := Mem.wf_writeBytes _ _ _ hx.ispad }

theorem resumeTenant (h : s.Canonical) (b : EddyBindInfo) (img : Image) (o : Overlay) {m : SavedImage} (hm : m.st.Canonical) :
    (s.resumeTenant b img o m).Canonical := by
  unfold State.resumeTenant
  dsimp only
  refine (h.lodge b img o _).updCore _ (fun x hx => ?_)
  have h1 : ({ x with cmds := x.cmds ++ m.st.cmds.map (fun c => { c with ctx := b.bank }) } : CoreState).Canonical := { hx with }
  split
  · rename_i q hq
    exact h1.restoreKept (hm.kept q hq) _
  · exact h1

theorem relight (h : s.Canonical) (core : Nat) : (s.relight core).Canonical :=
  ite_holds (h.updCore core (fun _ hx => ((hx.ungate _ _ _).reclaim _ _ _).turnedOn _ _)) h

theorem lodgeTask (h : s.Canonical) (b : EddyBindInfo) (t : Task) : (s.lodgeTask b t).Canonical := by
  unfold State.lodgeTask
  exact State.Canonical.sealDies (State.Canonical.powerUp (relight (freePool (h.updTask _ (fun _ _ m hm => absurd hm List.not_mem_nil)) _) _) _) _

theorem saveTenant (h : s.Canonical) : s.saveTenant.Canonical := by
  unfold State.saveTenant
  split
  · split
    · refine (h.writeImage _ _ _ _ _).updTask _ (fun _ _ m hm => ?_)
      obtain rfl := List.mem_singleton.mp hm
      exact h.myCore.tenantState _
    · exact h
  · exact h

end State.Canonical

theorem execCheckpoint_keeps : KeepsCanonical execCheckpoint := keeps_next (fun s h => by
  split
  · split
    · exact ite_holds (h.checkpointTask _ _) h
    · exact h
  · exact h)

theorem execContextRestore_keeps (cores : List Nat) : KeepsCanonical (execContextRestore cores) := keeps_next (fun s h => by
  split
  · rename_i t ht
    split
    · refine ite_holds ?_ h
      split
      · exact h.reportRestore _ _
      · exact ite_holds ((h.restoreTask (h.head ht) _ cores).reportRestore _ _) h
    · exact h
  · exact h)

theorem execFirmwareEddyBind_keeps (b : EddyBindInfo) : KeepsCanonical (execFirmwareEddyBind b) := keeps_next (fun s h => by
  split
  · rename_i t ht
    split
    · refine ite_holds (ite_holds ?_ ((h.lodgeTask b t).lodge b _ _ _)) h
      split
      · rename_i m hm
        exact ite_holds (((h.lodgeTask b t).resumeTenant b _ _ (h.task ht m (List.mem_of_mem_head? hm))).reportRestore _ _)
          (h.reportRestore _ _)
      · exact h
    · exact h
  · exact h)

theorem execEddySave_keeps : KeepsCanonical execEddySave := onCore_keeps (fun s h => by
  refine ite_holds (h.updMyCore (fun _ hx => hx.updBank _ _)) ?_
  refine State.Canonical.settleIdle (((h.drain _ _).saveTenant).updMyCore (fun x hx => ?_)) _
  exact { hx.freeBankAt s.cur.ctx with })

end Sys2Proof.Machine
end

