-- ==== Sys2Proof/Proofs/CanonicalHost.lean ====
section
/-! PROOFS. The events of power, of memory, of the debugger, of the fabric and of the host port keep the memories in canonical
form. -/

namespace Sys2Proof.Machine

/-! ### Clusters and dies (R242, R339, R358 to R370) -/

theorem onCluster_keeps {due : State → Bool} {f : State → State} (hf : ∀ s : State, s.Canonical → (f s).Canonical) :
    KeepsCanonical (onCluster due f) := keeps_agent (fun s h => ite_holds (hf s h) h)

theorem onDie_keeps {due : State → Bool} {f : State → State} (hf : ∀ s : State, s.Canonical → (f s).Canonical) :
    KeepsCanonical (onDie due f) := keeps_agent (fun s h => ite_holds (hf s h) h)

theorem CoreState.Canonical.newPeriod {x : CoreState} (h : x.Canonical) : x.newPeriod.Canonical := by
  unfold CoreState.newPeriod
  have h1 := fun (b : Bool) => foldl_holds (P := CoreState.Canonical) (f := fun (x : CoreState) k =>
    if x.advances k then x.setCtx k ((x.ctx k).newPeriod (b && k == 0)) else x)
    (fun _ k h => ite_holds (h.setCtx k _) h) [0, 1, 2, 3] h
  dsimp only
  generalize (x.copyBud != 0xFFFF && x.copyLeft == 0 &&
    x.cmds.any (fun c => match c.kind with | .cpy .. | .ovl .. => c.started | _ => false)) = b
  exact { h1 b with }

namespace State.Canonical

variable {s : State}

theorem hbmDenied (core : Nat) (h : s.Canonical) (k : Nat) : (State.hbmDenied core s k).Canonical := by
  unfold State.hbmDenied
  split
  · exact ite_holds ((h.updCtx _ _ _).setFree _) h
  · exact h

theorem startBound (h : s.Canonical) : s.startBound.Canonical := foldl_holds (fun _ t h => h.startTask t) _ h

end State.Canonical

theorem execIntervalBoundary_keeps : KeepsCanonical execIntervalBoundary := onDie_keeps (fun _ h =>
  State.Canonical.updDie (foldl_holds (P := State.Canonical) (fun _ _ h => h.updCluster _ _) _ h) _ _)

theorem execPatternChange_keeps : KeepsCanonical execPatternChange := onCluster_keeps (fun _ h => h.updCluster _ _)

theorem execPermitRefill_keeps : KeepsCanonical execPermitRefill := onCluster_keeps (fun _ h => h.updCluster _ _)

theorem execBudgetPeriodStart_keeps : KeepsCanonical execBudgetPeriodStart := onCluster_keeps (fun _ h =>
  State.Canonical.updCluster (foldl_holds (P := State.Canonical) (fun _ _ h => State.Canonical.updCore
    (foldl_holds (fun _ k h => h.hbmDenied _ k) _ h) _ (fun _ hx => hx.newPeriod)) _ h) _ _)

theorem execDieBudgetPeriodStart_keeps : KeepsCanonical execDieBudgetPeriodStart := onDie_keeps (fun _ h => h.updDie _ _)

theorem execRegionPowerOn_keeps : KeepsCanonical execRegionPowerOn := onCluster_keeps (fun _ h => (h.updCluster _ _).startBound)

theorem execStripeDrowsy_keeps : KeepsCanonical execStripeDrowsy := onCore_keeps (fun s h => by
  refine h.updMyCore (fun x hx => ?_)
  exact { hx with })

theorem execRefreshSlotAdvance_keeps : KeepsCanonical execRefreshSlotAdvance := onDie_keeps (fun _ h => h.updDie _ _)

/-! ### Invalidations, page migration and scrubbing (R345 to R348, R356) -/

/-- Entries moved to other addresses, in their order. -/
theorem Mem.wfFrom_shift (src dst : Nat) (m : Mem) (k : Nat) (h : Mem.wfFrom (src + k) m = true) :
    Mem.wfFrom (dst + k) (m.map (fun c => (c.1 - src + dst, c.2)) : Mem) = true := by
  induction m generalizing k with
  | nil => rfl
  | cons c m ih =>
    obtain ⟨a, b⟩ := c
    simp only [Mem.wfFrom, List.map_cons, Bool.and_eq_true, decide_eq_true_eq] at h ⊢
    obtain ⟨⟨ha, hb⟩, hm⟩ := h
    have hnext := ih (a - src + 1) (by rwa [show src + (a - src + 1) = a + 1 by omega])
    exact ⟨⟨by omega, hb⟩, by rwa [show a - src + dst + 1 = dst + (a - src + 1) by omega]⟩

/-- Every address of a memory whose entries rise from `lo` is at least that. -/
theorem Mem.le_of_wfFrom {lo : Nat} (m : Mem) (h : Mem.wfFrom lo m = true) : ∀ c ∈ m, lo ≤ c.1 := by
  induction m generalizing lo with
  | nil => exact fun _ hc => absurd hc List.not_mem_nil
  | cons e m ih =>
    obtain ⟨a, b⟩ := e
    simp only [Mem.wfFrom, Bool.and_eq_true, decide_eq_true_eq] at h
    obtain ⟨⟨ha, -⟩, hm⟩ := h
    exact List.forall_mem_cons.mpr ⟨ha, fun c hc => Nat.le_trans ha (Nat.le_of_succ_le (ih hm c hc))⟩

theorem Mem.wf_move {m : Mem} (h : m.wf = true) (src dst n : Nat) : (m.move src dst n).wf = true := by
  have hs : Mem.endsBy (dst + n) ((m.slice src n).map (fun c => (c.1 - src + dst, c.2)) : Mem) := by
    intro c hc
    obtain ⟨e, he, rfl⟩ := List.mem_map.mp hc
    have hlo := Mem.le_of_wfFrom _ (Mem.slice_wfFrom m src n h) e he
    have hhi := Mem.slice_endsBy m src n e he
    dsimp only
    omega
  exact Mem.wfFrom_append _ _ (Mem.below_wfFrom _ _ _ h) (Mem.below_endsBy _ _) (Nat.zero_le dst)
    (Mem.wfFrom_append _ _ (Mem.wfFrom_shift src dst _ 0 (Mem.slice_wfFrom m src n h)) hs (by omega) (Mem.above_wfFrom m _ 0 h))

namespace State.Canonical

variable {s : State}

/-- A change of the state of each core that keeps its memories. -/
theorem mapCores (h : s.Canonical) {f : Nat × CoreState → Nat × CoreState} (hf : ∀ p, p.2.Canonical → (f p).2.Canonical) :
    { s with cores := s.cores.map f }.Canonical where
  __ := h
  cores p hp := by
    obtain ⟨q, hq, rfl⟩ := List.mem_map.mp hp
    exact hf q (h.cores q hq)

theorem postInval (h : s.Canonical) (n : InvalInfo) : (s.postInval n).Canonical := by
  have h1 : ({ s with cores := s.cores.map (fun p => (p.1, { p.2 with tlb := dropTlb n p.2.tlb })) } : State).Canonical :=
    h.mapCores (fun p hp => { hp with })
  have hm : (match n.entryPa with
      | some pa => if s.fwStores pa 8 then s.phys.mem.writeWord pa n.entry else s.phys.mem
      | none => s.phys.mem).wf = true := by
    split
    · exact ite_holds (P := fun m : Mem => m.wf = true) (Mem.wf_writeWord _ _ _ h.mem) h.mem
    · exact h.mem
  exact { h1 with mem := hm }

theorem copyPage (h : s.Canonical) (src dst n : Nat) : (s.copyPage src dst n).Canonical :=
  h.setPhys (Mem.wf_move h.mem _ _ _) h.home

theorem setLeaves (h : s.Canonical) (l : Leaf) (f : Nat → Word → Word) : (s.setLeaves l f).Canonical :=
  h.setPhys (foldl_holds (P := fun m : Mem => m.wf = true) (fun _ _ hm => Mem.wf_writeWord _ _ _ hm) _ h.mem) h.home

theorem finishMove (h : s.Canonical) (m : MigrateInfo) : (s.finishMove m).Canonical := by
  unfold State.finishMove
  split
  · exact ((h.copyPage _ _ _).setLeaves _ _).postInval _
  · exact h

theorem countErrors (h : s.Canonical) (d : Nat) : (s.countErrors d).Canonical := (h.updDie _ _).setFree _

end State.Canonical

theorem execTlbInvalidation_keeps (n : InvalInfo) : KeepsCanonical (execTlbInvalidation n) := keeps_next (fun _ h => h.postInval n)

theorem execPageMigration_keeps (m : MigrateInfo) : KeepsCanonical (execPageMigration m) := keeps_next (fun s h => by
  split
  · refine ite_holds ?_ h
    rename_i l _
    have h1 := (h.setLeaves l (fun _ e => e ||| 0x80#64)).postInval (leafInval m.task m.va l
      ((s.setLeaves l (fun _ e => e ||| 0x80#64)).phys.mem.readWord l.first))
    exact h1.setPhys h1.mem h1.home
  · exact h)

theorem execInvalidationComplete_keeps : KeepsCanonical execInvalidationComplete := keeps_next (fun s h => by
  split
  · refine ite_holds h ?_
    dsimp only
    split
    · refine State.Canonical.finishMove ?_ _
      exact h.setPhys h.mem h.home
    · exact h.setPhys h.mem h.home
  · exact h)

theorem execScrub_keeps (bad : Bool) : KeepsCanonical (execScrub bad) := keeps_next (fun s h => by
  split
  · exact ite_holds (h.setPhys h.mem h.home) (h.countErrors _)
  · exact ite_holds (h.setPhys h.mem h.home) (h.countErrors _)
  · exact h)

/-! ### The debugger (R403 to R409) -/

namespace State.Canonical

variable {s : State}

theorem setReply (h : s.Canonical) (r : Option DbgReply) : { s with dbgReply := r }.Canonical := { h with }

theorem spadReply (h : s.Canonical) (core off : Nat) : (s.spadReply core off).1.Canonical :=
  ite_holds (P := fun p : State × DbgReply => p.1.Canonical) h (ite_holds (P := fun p : State × DbgReply => p.1.Canonical) h
    (h.updCore core (fun _ hx => (hx.touch _ _).touch _ _)))

theorem debugRead (h : s.Canonical) (t : DebugTarget) : (s.debugRead t).Canonical := by
  unfold State.debugRead
  split
  · exact (h.spadReply _ _).setReply _
  · exact h.setReply _
  · exact h.setReply _
  · split
    · exact h.setReply _
    · exact h.setReply _
    · exact h.setReply _

theorem debugPhys (h : s.Canonical) (pa : Nat) (bs : List Byte) : (s.debugPhys pa bs).Canonical := ite_holds h (h.physRun _ _)

theorem debugWrite (h : s.Canonical) (t : DebugTarget) (v : VWord) (tag : Tag) : (s.debugWrite t v tag).Canonical := by
  unfold State.debugWrite
  split
  · exact ite_holds h (h.updCore _ (fun _ hx => ((hx.touch _ _).touch _ _).spadWrite _ _))
  · exact ite_holds h (h.updCore _ (fun _ hx => hx.updTile _ _))
  · exact h.debugPhys _ _
  · exact ite_holds (h.doAs _ _ (fun _ h => h.csrWrite _ _ _ _)) h
  · exact ite_holds (h.updCtx _ _ _) h

end State.Canonical

theorem execDebugAttach_keeps : KeepsCanonical execDebugAttach := keeps_next (fun _ h => h.updTask _ (fun _ ht => ht))

theorem execDebugHalt_keeps : KeepsCanonical execDebugHalt := onCore_keeps (fun _ h => h.debugStop)

theorem execDebugResume_keeps : KeepsCanonical execDebugResume := onCore_keeps (fun _ h => h.updMe _)

theorem execAddressBreakpoint_keeps : KeepsCanonical execAddressBreakpoint := onCore_keeps (fun s h => by
  split
  · exact h.bpStop _
  · exact h)

theorem execSingleStep_keeps : KeepsCanonical execSingleStep := onCore_keeps (fun _ h => h.stepReport)

theorem execDebugRead_keeps (t : DebugTarget) : KeepsCanonical (execDebugRead t) := keeps_agent (fun _ h => h.debugRead t)

theorem execDebugWrite_keeps (t : DebugTarget) (v : VWord) (tag : Tag) : KeepsCanonical (execDebugWrite t v tag) :=
  keeps_agent (fun _ h => h.debugWrite t v tag)

theorem execBrkPlant_keeps (off task : Nat) : KeepsCanonical (execBrkPlant off task) := onCore_keeps (fun s h => by
  split
  · refine h.updMyCore (fun x hx => ?_)
    exact { hx with ispad := Mem.wf_writeWord _ _ _ hx.ispad }
  · exact h)

theorem execDisplacedOpExecute_keeps : KeepsCanonical execDisplacedOpExecute := onCore_keeps (fun s h => by
  refine State.Canonical.issueNext (h.updMyCore (fun x hx => ?_))
  exact { hx with })

/-! ### The fabric (R356, R417, R433, R437 to R444) -/

namespace State.Canonical

variable {s : State}

theorem relink (core l : Nat) (h : s.Canonical) (c : Cmd) : (State.relink core l s c).Canonical := by
  unfold State.relink
  split
  · exact h.updCmd _ _ _
  · exact h.cutOff _ _ _

theorem dropViews (h : s.Canonical) (die : Nat) : (s.dropViews die).Canonical :=
  h.mapCores (fun _ hp => ite_holds (P := fun q : Nat × CoreState => q.2.Canonical) { hp with } hp)

end State.Canonical

theorem execFlitReplay_keeps : KeepsCanonical execFlitReplay := onDie_keeps (fun _ h => h.updDie _ _)

theorem execLinkRetire_keeps : KeepsCanonical execLinkRetire := keeps_next (fun s h => by
  refine ite_holds (foldl_holds (P := State.Canonical) (fun _ p h =>
    foldl_holds (P := State.Canonical) (fun _ c h => h.relink p.1 s.cur.id c) _ h) _ ?_) h
  exact h.setFab rfl)

theorem execFabricTimeout_keeps : KeepsCanonical execFabricTimeout := onCmd_keeps (fun _ _ h => h.cutOff _ _ _)

theorem execRouterRetire_keeps : KeepsCanonical execRouterRetire := onCluster_keeps (fun _ h =>
  ite_holds (foldl_holds (P := State.Canonical) (fun _ k h => h.endTask k _) _ ((h.updCluster _ _).dropViews _))
    (foldl_holds (P := State.Canonical) (fun _ k h => h.decideCkpt k) _ (h.updCluster _ _)))

theorem execCxlPortDown_keeps : KeepsCanonical execCxlPortDown := keeps_next (fun s h => by
  refine ite_holds (State.Canonical.raiseIrq ?_ 2) h
  exact h.setFab rfl)

theorem execCxlPortRetrain_keeps (decs : List CxlDecoder) : KeepsCanonical (execCxlPortRetrain decs) := keeps_next (fun s h => by
  refine ite_holds ?_ h
  exact h.setFab rfl)

/-! ### The host's registers (R425 to R428, R431, R434) -/

namespace State.Canonical

variable {s : State}

theorem setBoot (h : s.Canonical) (b : Boot) : { s with boot := b }.Canonical := { h with }

/-- A change of the host port that leaves its memories. -/
theorem setHost (h : s.Canonical) {p : HostSide} (hs : p.slots = s.host.slots) (hm : p.mem = s.host.mem) :
    { s with host := p }.Canonical := { h with slots := hs ▸ h.slots, host := hm ▸ h.host }

theorem setPhase (h : s.Canonical) (p : Phase) : (s.setPhase p).Canonical := (h.setBoot _).raiseIrq 1

theorem failPhase (h : s.Canonical) (n : Nat) : (s.failPhase n).Canonical := (h.setBoot _).setPhase _

theorem setSlotWord (h : s.Canonical) (i n : Nat) (w : Word) : (s.setSlotWord i n w).Canonical :=
  { h with slots := Mem.wf_writeWord _ _ _ h.slots }

theorem slotWrite (h : s.Canonical) (i n : Nat) (v : Word) : (s.slotWrite i n v).Canonical := by
  unfold State.slotWrite
  dsimp only
  refine ite_holds (h.setBoot _) (ite_holds (ite_holds (h.setBoot _) (ite_holds ?_ (h.setSlotWord _ _ _))) (h.setSlotWord _ _ _))
  exact (h.setSlotWord _ _ _).setHost rfl rfl

theorem writeFwlen (h : s.Canonical) (v : Word) : (s.writeFwlen v).Canonical :=
  ite_holds (ite_holds (h.setBoot _) ((h.setBoot _).setPhase _)) h

theorem bar0Write (h : s.Canonical) (off : Nat) (v : Word) : (s.bar0Write off v).Canonical :=
  ite_holds h (ite_holds (h.slotWrite _ _ _) (ite_holds (h.writeFwlen _) (ite_holds h
    (ite_holds (h.setBoot _) (ite_holds (h.setBoot _) h)))))

end State.Canonical

theorem execFwlenWrite_keeps (v : Word) : KeepsCanonical (execFwlenWrite v) := keeps_next (fun _ h => h.writeFwlen v)

theorem execHostRegisterWrite_keeps (a : BarAccess) (v : Word) : KeepsCanonical (execHostRegisterWrite a v) :=
  keeps_next (fun _ h => ite_holds (h.bar0Write _ _) h)

/-! ### Mailbox commands (R371, R372, R386 to R388, R413, R427, R429, R430) -/

namespace State.Canonical

variable {s : State}

theorem completeSlot (h : s.Canonical) (i : Nat) (e : CmdEnd) : (s.completeSlot i e).Canonical := by
  have h1 := fun l : List (Nat × Word) => foldl_holds (P := State.Canonical) (fun s r h => h.setSlotWord i r.1 r.2) l h
  unfold State.completeSlot
  refine ite_holds (State.Canonical.raiseIrq ?_ 0) ?_
  · exact ((h1 _).setSlotWord i 0 _).setHost rfl rfl
  · exact ((h1 _).setSlotWord i 0 _).setHost rfl rfl

theorem fails (h : s.Canonical) (n : Nat) (d : Option Nat) : (Machine.fails s n d).1.Canonical := h

theorem finishLoad (h : s.Canonical) (img : Image) (y : YilozPart) : (Machine.finishLoad s img y).1.Canonical := by
  unfold Machine.finishLoad
  split
  · exact h
  · split
    · exact h
    · split
      · exact h
      · split
        · exact h
        · dsimp only
          split
          · exact h
          · dsimp only
            exact h.updFw rfl

theorem loadObject (h : s.Canonical) (i : Nat) : (s.loadObject i).1.Canonical := by
  unfold State.loadObject
  split
  · exact h
  · split
    · exact h
    · split
      · exact h
      · exact h.finishLoad _ _

theorem putGraph (h : s.Canonical) (g : Graph) : (s.putGraph g).Canonical := h.updFw rfl

theorem setBudgets (h : s.Canonical) (note : Bool) : (s.setBudgets note).Canonical := h.mapCores (fun _ hp => { hp with })

theorem setDieBudgets (h : s.Canonical) : s.setDieBudgets.Canonical :=
  foldl_holds (P := State.Canonical) (fun _ _ h => h.updDie _ _) _ h

theorem applyCap (h : s.Canonical) (cap num den : Nat) (note : Bool) : (s.applyCap cap num den note).Canonical := by
  unfold State.applyCap
  exact State.Canonical.setDieBudgets (State.Canonical.setBudgets (h.updFw rfl) note)

theorem setCap (h : s.Canonical) (cap : Nat) (override : Bool) : (s.setCap cap override).1.Canonical := by
  unfold State.setCap
  dsimp only
  split
  · refine ite_holds (P := State.Canonical) (h.applyCap _ _ _ _) ?_
    exact h.updFw rfl
  · split
    · exact h.applyCap _ _ _ _
    · split
      · exact h.applyCap _ _ _ _
      · exact h

theorem definePart (h : s.Canonical) (n : Nat) (lo hi : Word) (power hbm issue : Nat) :
    (s.definePart n lo hi power hbm issue).Canonical := by
  unfold State.definePart
  exact State.Canonical.setDieBudgets (State.Canonical.setBudgets (State.Canonical.updFw (h.setFree _) rfl) false)

end State.Canonical

theorem onMailbox_keeps {ok : Nat → Bool} {tr : Bool} {f : State → Nat → State × CmdEnd}
    (hf : ∀ (s : State) (i : Nat), s.Canonical → (f s i).1.Canonical) : KeepsCanonical (onMailbox ok tr f) :=
  keeps_next (fun s h => by
    split
    · exact ite_holds ((hf s _ h).completeSlot _ _) h
    · exact h)

theorem execLoad_keeps : KeepsCanonical execLoad := onMailbox_keeps (fun _ i h => h.loadObject i)

theorem execUnload_keeps : KeepsCanonical execUnload := onMailbox_keeps (fun s i h => by
  dsimp only
  split
  · exact h
  · split
    · exact h
    · dsimp only
      exact h.updFw rfl)

theorem execHostLaunch_keeps : KeepsCanonical execHostLaunch := onMailbox_keeps (fun s i h => by
  dsimp only
  split
  · exact h
  · split
    · exact h
    · split
      · exact h
      · exact h.queueTask _ _ _ _ _ _ _ _)

theorem execGraph_keeps : KeepsCanonical execGraph := onMailbox_keeps (fun s i h => by
  dsimp only
  split
  · exact h
  · split
    · exact h
    · dsimp only
      exact h.updFw rfl)

theorem execGlaunch_keeps : KeepsCanonical execGlaunch := onMailbox_keeps (fun s i h => by
  dsimp only
  split
  · exact h
  · split
    · exact h
    · split
      · exact h
      · split
        · exact h
        · dsimp only
          exact (h.putGraph _).queueInst _ _ _ _)

theorem execEdit_keeps : KeepsCanonical execEdit := onMailbox_keeps (fun s i h => by
  dsimp only
  split
  · exact h
  · split
    · exact h
    · split
      · exact h
      · split
        · exact h
        · split
          · exact h
          · exact h.putGraph _)

theorem execFork_keeps : KeepsCanonical execFork := onMailbox_keeps (fun s i h => by
  dsimp only
  split
  · exact h
  · split
    · exact h
    · dsimp only
      exact h.updFw rfl)

theorem execSetcap_keeps : KeepsCanonical execSetcap := onMailbox_keeps (fun _ _ h => h.setCap _ _)

theorem execPartition_keeps : KeepsCanonical execPartition := onMailbox_keeps (fun _ _ h =>
  ite_holds (P := fun p : State × CmdEnd => p.1.Canonical) h (h.definePart _ _ _ _ _ _))

theorem execHostDrain_keeps : KeepsCanonical execHostDrain := onMailbox_keeps (fun s i h => by
  dsimp only
  split
  · exact h
  · dsimp only
    exact h.updFw rfl)

theorem execWeights_keeps : KeepsCanonical execWeights := onMailbox_keeps (fun s i h => by
  dsimp only
  split
  · exact h
  · split
    · exact h
    · split
      · exact h
      · exact h.physCells _)

theorem execCounters_keeps : KeepsCanonical execCounters := onMailbox_keeps (fun _ _ h =>
  ite_holds (P := fun p : State × CmdEnd => p.1.Canonical) h (h.countErrors _))

theorem execUnknownOp_keeps : KeepsCanonical execUnknownOp := onMailbox_keeps (fun _ _ h => h)

/-! ### Reset and bring-up (R338, R417, R431, R432, R434, R436, R437) -/

theorem PhysMem.wf_afterReset {m : PhysMem} (h : m.mem.wf = true) : m.afterReset.mem.wf = true :=
  Mem.wf_writeCells _ _ (Mem.wf_clear _ _ _ h)

namespace State.Canonical

variable {s : State}

theorem afterReset (h : s.Canonical) : s.afterReset.Canonical where
  mem := PhysMem.wf_afterReset h.mem
  home := h.home
  slots := rfl
  host := h.host
  cores _ hp := absurd hp List.not_mem_nil
  tasks _ ht := absurd ht List.not_mem_nil
  foreign := h.foreign

theorem trained (h : s.Canonical) (r : TrainInfo) : (s.trained r).Canonical :=
  { h with mem := PhysMem.wf_afterReset h.mem, home := h.home }

theorem tested (h : s.Canonical) (r : TestInfo) : (s.tested r).Canonical := by
  have h1 : ((r.routers.filter (· < 192)).eraseDups.foldl (fun (s : State) k =>
      s.updCluster k (fun c => { c with routerRetired := true })) s).Canonical :=
    foldl_holds (P := State.Canonical) (fun _ _ h => h.updCluster _ _) _ h
  unfold State.tested
  dsimp only
  refine State.Canonical.setPhase ?_ _
  exact { h1 with }

end State.Canonical

theorem execPackageReset_keeps : KeepsCanonical execPackageReset := keeps_next (fun _ h => h.afterReset.raiseIrq 1)

theorem execRom_keeps (ok : Bool) : KeepsCanonical (execRom ok) := keeps_next (fun s h => by
  split
  · exact h.setPhase _
  · refine ite_holds (State.Canonical.setPhase ?_ _) (h.failPhase 1)
    exact { h with }
  · exact h)

theorem execLoading_keeps (ok : Bool) : KeepsCanonical (execLoading ok) := keeps_next (fun s h => by
  refine ite_holds ?_ h
  split
  · exact h.failPhase 3
  · refine ite_holds (State.Canonical.setPhase ?_ _) (h.failPhase 2)
    exact { h with })

theorem execBringup_keeps (r : TrainInfo) : KeepsCanonical (execBringup r) := keeps_next (fun _ h =>
  ite_holds (ite_holds (h.failPhase 4) (ite_holds (h.failPhase 5) ((h.trained r).setPhase _))) h)

theorem execSelftest_keeps (r : TestInfo) : KeepsCanonical (execSelftest r) := keeps_next (fun _ h =>
  ite_holds (ite_holds (h.failPhase 6) (h.tested r)) h)

end Sys2Proof.Machine
end

