-- ==== Sys2Proof/Proofs/Canonical.lean ====
section
/-! PROOFS. Every instruction and every turn of the machine keep the memories in canonical form. -/

namespace Sys2Proof.Machine

/-! ### Instructions -/

/-- Every instruction keeps the memories in canonical form: an op word by its op, a pair word, CSTAGE and each event by itself. -/
theorem exec_keeps (i : Instr) : KeepsCanonical (exec i) := by
  by_cases h : (classOf i).isSome = true ∧ Instr.isPlain i = true
  · exact exec_op_keeps h.1 h.2
  cases i with
  | pair f => exact execPair_keeps f
  | cstage f => exact execCstage_keeps f
  | illegalEncoding w => exact issueOne_keeps semNone_keeps _
  | machineCheck m => exact execMachineCheck_keeps m
  | firmwareEddyBind b => exact execFirmwareEddyBind_keeps b
  | taskBind b => exact execTaskBind_keeps b
  | contextRestore cores => exact execContextRestore_keeps cores
  | tlbInvalidation n => exact execTlbInvalidation_keeps n
  | pageMigration m => exact execPageMigration_keeps m
  | scrub bad => exact execScrub_keeps bad
  | debugRead t => exact execDebugRead_keeps t
  | debugWrite t v tag => exact execDebugWrite_keeps t v tag
  | brkPlant off task => exact execBrkPlant_keeps off task
  | fwlenWrite v => exact execFwlenWrite_keeps v
  | hostRegisterWrite a v => exact execHostRegisterWrite_keeps a v
  | rom railOk => exact execRom_keeps railOk
  | loading readOk => exact execLoading_keeps readOk
  | bringup r => exact execBringup_keeps r
  | selftest r => exact execSelftest_keeps r
  | cxlPortRetrain decs => exact execCxlPortRetrain_keeps decs
  | stalledBundleIssue => exact execStalledBundleIssue_keeps
  | kindAFault => exact execKindAFault_keeps
  | throttleNotice => exact execThrottleNotice_keeps
  | waitevWake => exact execWaitevWake_keeps
  | waitevBound => exact execWaitevBound_keeps
  | yieldExpiry => exact execYieldExpiry_keeps
  | contextWake => exact execContextWake_keeps
  | nextTileLanding => exact execNextTileLanding_keeps
  | sequencerCommandStart => exact execSequencerCommandStart_keeps
  | matrixStep => exact execMatrixStep_keeps
  | mzeroComplete => exact execMzeroComplete_keeps
  | mwloadComplete => exact execMwloadComplete_keeps
  | mdrainStart => exact execMdrainStart_keeps
  | mdrainComplete => exact execMdrainComplete_keeps
  | tileOpStart => exact execTileOpStart_keeps
  | tileOpComplete => exact execTileOpComplete_keeps
  | copyCommandStart => exact execCopyCommandStart_keeps
  | copyChunkComplete => exact execCopyChunkComplete_keeps
  | copyCommandComplete => exact execCopyCommandComplete_keeps
  | ovlComplete => exact execOvlComplete_keeps
  | dcpyCommandStart => exact execDcpyCommandStart_keeps
  | dcpyChunkComplete => exact execDcpyChunkComplete_keeps
  | dcpyComplete => exact execDcpyComplete_keeps
  | niCommandStart => exact execNiCommandStart_keeps
  | remoteRequestArrival => exact execRemoteRequestArrival_keeps
  | remoteReplyLanding => exact execRemoteReplyLanding_keeps
  | mcstLanding => exact execMcstLanding_keeps
  | binitLanding => exact execBinitLanding_keeps
  | barrierArrival => exact execBarrierArrival_keeps
  | bwaitReread => exact execBwaitReread_keeps
  | bwaitTimeout => exact execBwaitTimeout_keeps
  | revokeSquash => exact execRevokeSquash_keeps
  | bankPark => exact execBankPark_keeps
  | regionReclaim => exact execRegionReclaim_keeps
  | keepRegionCopyOut => exact execKeepRegionCopyOut_keeps
  | firmwareRevoke => exact execFirmwareRevoke_keeps
  | lendComplete => exact execLendComplete_keeps
  | eddySave => exact execEddySave_keeps
  | eddyBankFree => exact execEddyBankFree_keeps
  | contextRelease => exact execContextRelease_keeps
  | taskEnd => exact execTaskEnd_keeps
  | preemptionDecision => exact execPreemptionDecision_keeps
  | drainTimeout => exact execDrainTimeout_keeps
  | checkpoint => exact execCheckpoint_keeps
  | graphNodeLaunch => exact execGraphNodeLaunch_keeps
  | graphInstanceComplete => exact execGraphInstanceComplete_keeps
  | intervalBoundary => exact execIntervalBoundary_keeps
  | patternChange => exact execPatternChange_keeps
  | permitRefill => exact execPermitRefill_keeps
  | budgetPeriodStart => exact execBudgetPeriodStart_keeps
  | dieBudgetPeriodStart => exact execDieBudgetPeriodStart_keeps
  | regionPowerOn => exact execRegionPowerOn_keeps
  | stripeDrowsy => exact execStripeDrowsy_keeps
  | refreshSlotAdvance => exact execRefreshSlotAdvance_keeps
  | migrationRewalk => exact execMigrationRewalk_keeps
  | invalidationComplete => exact execInvalidationComplete_keeps
  | debugHalt => exact execDebugHalt_keeps
  | debugResume => exact execDebugResume_keeps
  | addressBreakpoint => exact execAddressBreakpoint_keeps
  | singleStep => exact execSingleStep_keeps
  | displacedOpExecute => exact execDisplacedOpExecute_keeps
  | load => exact execLoad_keeps
  | unload => exact execUnload_keeps
  | hostLaunch => exact execHostLaunch_keeps
  | graph => exact execGraph_keeps
  | glaunch => exact execGlaunch_keeps
  | edit => exact execEdit_keeps
  | fork => exact execFork_keeps
  | setcap => exact execSetcap_keeps
  | partition => exact execPartition_keeps
  | hostDrain => exact execHostDrain_keeps
  | weights => exact execWeights_keeps
  | counters => exact execCounters_keeps
  | unknownOp => exact execUnknownOp_keeps
  | packageReset => exact execPackageReset_keeps
  | flitReplay => exact execFlitReplay_keeps
  | linkRetire => exact execLinkRetire_keeps
  | routerRetire => exact execRouterRetire_keeps
  | fabricTimeout => exact execFabricTimeout_keeps
  | cxlPortDown => exact execCxlPortDown_keeps
  | debugAttach => exact execDebugAttach_keeps
  | _ => exact absurd ⟨rfl, rfl⟩ h

/-! ### Cycles of a context (R125, R206) -/

theorem KeepsCanonical.runBundle : KeepsCanonical State.runBundle := by
  intro s t h ht
  unfold State.runBundle at ht
  split at ht
  · exact exec_keeps _ s t h ht
  · obtain rfl := Host.Outcome.next.inj ht
    exact h.issue semOf_keeps _

theorem KeepsCanonical.bundleCycle : KeepsCanonical State.bundleCycle := by
  intro s t h ht
  unfold State.bundleCycle at ht
  split at ht
  · obtain rfl := Host.Outcome.next.inj ht
    exact h.updMe _
  · split at ht
    · obtain rfl := Host.Outcome.next.inj ht
      exact (h.bpStop _).updMe _
    · exact runBundle _ t h.bpSkip ht

theorem KeepsCanonical.actCycle : KeepsCanonical State.actCycle := by
  intro s t h ht
  unfold State.actCycle at ht
  dsimp only at ht
  split at ht
  · obtain rfl := Host.Outcome.next.inj ht
    exact h.dropNotice.takeA _
  · split at ht
    · obtain rfl := Host.Outcome.next.inj ht
      exact h.dropNotice.stepReport.updMe _
    · split at ht
      · obtain rfl := Host.Outcome.next.inj ht
        exact h.dropNotice.updMe _
      · exact bundleCycle _ t h.dropNotice ht

theorem KeepsCanonical.leavingCycle : KeepsCanonical State.leavingCycle := by
  intro s t h ht
  unfold State.leavingCycle at ht
  split at ht
  · obtain rfl := Host.Outcome.next.inj ht
    exact h.updMe _
  · exact runBundle s t h ht

theorem KeepsCanonical.ctxTurn : KeepsCanonical State.ctxTurn := by
  intro s t h ht
  unfold State.ctxTurn at ht
  split at ht
  · obtain rfl := Host.Outcome.next.inj ht
    exact h
  split at ht
  · exact leavingCycle s t h ht
  split at ht
  · obtain rfl := Host.Outcome.next.inj ht
    exact h.updMe _
  split at ht
  · obtain rfl := Host.Outcome.next.inj ht
    exact h.updMe _
  split at ht
  · obtain rfl := Host.Outcome.next.inj ht
    exact h.updMe _
  · exact actCycle s t h ht

/-! ### Turns (R3, R25, R359) -/

theorem State.Canonical.clock {s : State} (h : s.Canonical) : s.clock.Canonical := by
  have h1 : { s with master := s.master + 1,
                     clusters := s.clusters.map (fun k => if ({ s with master := s.master + 1 } : State).pulses k
                       then { k with eff := k.eff + 1 } else k) }.Canonical := { h with }
  have h2 := h1.mapCores (f := fun p => (p.1, p.2.takeBanks (State.eff { s with
      master := s.master + 1,
      clusters := s.clusters.map (fun k => if ({ s with master := s.master + 1 } : State).pulses k
        then { k with eff := k.eff + 1 } else k) } p.1))) (fun _ hp => hp.takeBanks _)
  exact { h2 with }

theorem State.Canonical.performOne {s : State} (h : s.Canonical) (c k : Nat) : (s.performOne c k).Canonical := h.performFirst c k 1

theorem runTurn_keeps (x : Turn) : KeepsCanonical (fun s => s.runTurn x) := by
  intro s t h ht
  cases x with
  | ctx c k => exact KeepsCanonical.ctxTurn _ t (h.as c k) ht
  | perform c k =>
    obtain rfl := Host.Outcome.next.inj ht
    exact h.performOne c k
  | event a i => exact exec_keeps i _ t (h.setCur a) ht
  | abroad x =>
    obtain rfl := Host.Outcome.next.inj ht
    exact h.fromAbroad x

theorem step_keeps : KeepsCanonical step := by
  intro s t h ht
  unfold step State.turn at ht
  split at ht
  · obtain rfl := Host.Outcome.next.inj ht
    exact h.clock
  · exact runTurn_keeps _ _ t (h.setAgenda _) ht

/-! ### The obligation -/

/-- Settles O59: canonical form, memory by memory, is kept by every op and event, so by every turn. -/
theorem memoriesStayCanonical : Obligations.MemoriesStayCanonical := by
  intro s t h ht
  exact (State.memOk_iff t).mpr (step_keeps s t ((State.memOk_iff s).mp h) ht)

end Sys2Proof.Machine
end

