-- ==== Sys2Proof/Proofs/StorePerformed.lean ====
section
/-! PROOFS. Performing a store: the bytes it writes in the scratchpad and in physical memory, and what becomes of the tile entries
of the slots it writes (R166, R225, R227, R336). -/

namespace Sys2Proof.Machine

open Sys2Proof.Claim

/-! ### The cells of a store -/

/-- The scratchpad cells of a store. -/
def spadPart (cs : List (Loc × Byte)) : List (Nat × Byte) :=
  cs.filterMap (fun c => match c.1 with | .spad o => some (o, c.2) | _ => none)

/-- The physical cells of a store. -/
def physPart (cs : List (Loc × Byte)) : List (Nat × Byte) :=
  cs.filterMap (fun c => match c.1 with | .phys p => some (p, c.2) | _ => none)

theorem mem_spadPart {cs : List (Loc × Byte)} {o : Nat} {b : Byte} : (o, b) ∈ spadPart cs ↔ (.spad o, b) ∈ cs := by
  unfold spadPart
  rw [List.mem_filterMap]
  constructor
  · rintro ⟨⟨l, x⟩, hc, h⟩
    cases l with
    | spad p => cases h; exact hc
    | phys p => cases h
  · exact fun h => ⟨_, h, rfl⟩

theorem mem_physPart {cs : List (Loc × Byte)} {a : Nat} {b : Byte} : (a, b) ∈ physPart cs ↔ (.phys a, b) ∈ cs := by
  unfold physPart
  rw [List.mem_filterMap]
  constructor
  · rintro ⟨⟨l, x⟩, hc, h⟩
    cases l with
    | spad p => cases h
    | phys p => cases h; exact hc
  · exact fun h => ⟨_, h, rfl⟩

/-- A store with no cell in the scratchpad, or none elsewhere, leaves that memory alone. -/
theorem performStore_eq (s : State) (c : Nat) (cs : List (Loc × Byte)) : s.performEnt c (.store cs) =
    let s1 := if (spadPart cs).isEmpty then s
      else s.updCore c (fun x => ((spadPart cs).foldl (fun (x : CoreState) p => x.touch p.1 (s.eff c)) x).spadCells (spadPart cs))
    if (physPart cs).isEmpty then s1 else s1.physCells (physPart cs) := rfl

theorem writeCells_nil (m : Mem) : m.writeCells [] = m := rfl

theorem spadCells_nil (x : CoreState) : x.spadCells [] = x := by
  have hnone : ((List.range 32).all (fun _ => false)) = false := rfl
  have hrows : x.spadPoison.filter (fun _ => !((List.range 32).all (fun _ => false))) = x.spadPoison :=
    List.filter_eq_self.mpr (fun _ _ => by rw [hnone]; rfl)
  exact congrArg (fun l => ({ x with spadPoison := l } : CoreState)) hrows

/-! ### What a store reads as afterwards -/

/-- The last cell of an address is the one read back. -/
theorem Mem.read_writeCells_last (m : Mem) (pre post : List (Nat × Byte)) (a : Nat) (b : Byte) (h : m.wf = true)
    (hp : ∀ c ∈ post, c.1 ≠ a) : (m.writeCells (pre ++ (a, b) :: post)).read a = b := by
  have hsplit : m.writeCells (pre ++ (a, b) :: post) = ((m.writeCells pre).write a b).writeCells post := by
    unfold Mem.writeCells
    rw [List.foldl_append, List.foldl_cons]
  have hpre := Mem.wf_writeCells m pre h
  rw [hsplit, Mem.read_writeCells_other _ _ _ (Mem.wf_write _ _ _ hpre) hp, Mem.read_write _ _ _ _ hpre, if_pos rfl]

/-- Cells that pass a test of their address, with a cell of one address last. -/
theorem Mem.read_filtered_last (m : Mem) (p : Nat → Bool) (pre post : List (Nat × Byte)) (a : Nat) (b : Byte) (h : m.wf = true)
    (ha : p a = true) (hp : ∀ c ∈ post, c.1 ≠ a) :
    (m.writeCells ((pre ++ (a, b) :: post).filter (fun c => p c.1))).read a = b := by
  rw [List.filter_append, List.filter_cons_of_pos (p := fun c : Nat × Byte => p c.1) ha]
  exact Mem.read_writeCells_last m _ _ a b h (fun c hc => hp c (List.mem_of_mem_filter hc))

/-! ### The core and the memory of a performed store -/

section
variable (s : State) (c : Nat) (cs : List (Loc × Byte))

/-- The core of a performed store: stripes woken, then the cells written. -/
theorem core_performStore : (s.performEnt c (.store cs)).core c =
    ((spadPart cs).foldl (fun (x : CoreState) p => x.touch p.1 (s.eff c)) (s.core c)).spadCells (spadPart cs) := by
  have hphys (t : State) : (if (physPart cs).isEmpty then t else t.physCells (physPart cs)).core c = t.core c := by
    split <;> rfl
  rw [performStore_eq]
  dsimp only
  rw [hphys]
  split
  next h => rw [List.isEmpty_iff.mp h, spadCells_nil]; rfl
  next => exact State.core_updCore _ _ _

theorem core_performStore_other {d : Nat} (h : d ≠ c) : (s.performEnt c (.store cs)).core d = s.core d := by
  have hphys (t : State) : (if (physPart cs).isEmpty then t else t.physCells (physPart cs)).core d = t.core d := by
    split <;> rfl
  rw [performStore_eq]
  dsimp only
  rw [hphys]
  split
  · rfl
  · exact State.core_updCore_other _ _ h

/-- The physical memory of a performed store: the cells whose port is up (R444). -/
theorem phys_performStore : (s.performEnt c (.store cs)).phys.mem =
    s.phys.mem.writeCells ((physPart cs).filter (fun p => !s.portDown p.1)) := by
  rw [performStore_eq]
  dsimp only
  split
  next h => rw [List.isEmpty_iff.mp h]; split <;> rfl
  next => split <;> rfl

end

/-- Waking the stripes of cells: the scratchpad, the entries and what is gated stay. -/
theorem touchCells_kept (l : List (Nat × Byte)) (t : Nat) (x : CoreState) :
    let y := l.foldl (fun (x : CoreState) p => x.touch p.1 t) x
    y.spad = x.spad ∧ y.tiles = x.tiles ∧ ∀ o, y.gated o = x.gated o := by
  dsimp only
  induction l generalizing x with
  | nil => exact ⟨rfl, rfl, fun _ => rfl⟩
  | cons p l ih =>
    obtain ⟨hs, ht, hg⟩ := ih (x.touch p.1 t)
    refine ⟨hs.trans (touch_spad _ _ _), ht.trans ?_, fun o => (hg o).trans (gated_touch _ _ _ _)⟩
    rw [touch_eq]

theorem spadCells_spad (x : CoreState) (cs : List (Nat × Byte)) : (x.spadCells cs).spad = x.spad.writeCells (x.landing cs) := by
  rw [spadCells_eq, downgrades_spad]
  rfl

/-! ### Tile entries of slots written (R225, R227) -/

theorem nonFinite_eq (t : Tag) (x : Nat) : nonFinite t x = notFinite t x := by
  rw [Bool.eq_iff_iff]
  cases t <;> simp only [nonFinite, notFinite, beq_iff_eq, decide_eq_true_eq]
  all_goals simp only [topMag, tagWidth, Nat.reduceSub, Nat.reducePow]
  all_goals omega

/-- An entry after a write of a byte of its slot, with the memory as written. -/
def hitEnt (m : Mem) (e : TileEnt) (o : Nat) : TileEnt :=
  let nf := notFinite e.tag (elemHolding m e.tag o)
  if e.st == .filling then { e with spoil := true, nf := e.nf || nf } else { e with cls := .general, nf := e.nf || nf }

theorem elemAt_eq (x : CoreState) (o : Nat) (h : x.spad.wf = true) :
    x.elemAt o = elemHolding x.spad (x.tile (slotOf o)).tag o := by
  unfold CoreState.elemAt elemHolding
  dsimp only
  rw [Mem.readBytes_eq _ _ _ h]

theorem tile_downgrade (x : CoreState) {o n : Nat} (h : x.spad.wf = true) (ho : o < 0x80000) (hn : n < 128) :
    (x.downgrade o).tile n = if o / 4096 = n then hitEnt x.spad (x.tile n) o else x.tile n := by
  unfold CoreState.downgrade
  dsimp only
  rw [elemAt_eq x o h, nonFinite_eq, tile_updTile _ (by unfold slotOf slotSize; omega) hn]
  by_cases e : o / 4096 = n
  · subst e; rfl
  · rw [if_neg e]
    exact if_neg (fun h => e h.symm)

/-- Writes of bytes change an entry by those of its own slot. -/
theorem tile_downgrades (os : List Nat) (x : CoreState) {n : Nat} (h : x.spad.wf = true) (hos : ∀ o ∈ os, o < 0x80000)
    (hn : n < 128) : (os.foldl CoreState.downgrade x).tile n =
      (os.filter (fun o => decide (o / 4096 = n))).foldl (hitEnt x.spad) (x.tile n) := by
  induction os generalizing x with
  | nil => rfl
  | cons o os ih =>
    obtain ⟨ho, hrest⟩ := List.forall_mem_cons.mp hos
    rw [List.foldl_cons, ih (x.downgrade o) h hrest, tile_downgrade x h ho hn]
    by_cases e : o / 4096 = n
    · rw [if_pos e, List.filter_cons_of_pos (p := fun o => decide (o / 4096 = n)) (decide_eq_true e)]; rfl
    · rw [if_neg e, List.filter_cons_of_neg (p := fun o => decide (o / 4096 = n)) (by simpa using e)]; rfl

theorem hitEnt_tag (m : Mem) (e : TileEnt) (o : Nat) : (hitEnt m e o).tag = e.tag := by unfold hitEnt; split <;> rfl
theorem hitEnt_st (m : Mem) (e : TileEnt) (o : Nat) : (hitEnt m e o).st = e.st := by unfold hitEnt; split <;> rfl
theorem hitEnt_nf (m : Mem) (e : TileEnt) (o : Nat) : (hitEnt m e o).nf = (e.nf || notFinite e.tag (elemHolding m e.tag o)) := by
  unfold hitEnt; split <;> rfl

theorem hitEnt_filling (m : Mem) (e : TileEnt) (o : Nat) (h : e.st = .filling) :
    (hitEnt m e o).spoil = true ∧ (hitEnt m e o).cls = e.cls := by
  unfold hitEnt
  rw [if_pos (by rw [h]; rfl)]
  exact ⟨rfl, rfl⟩

theorem hitEnt_general (m : Mem) (e : TileEnt) (o : Nat) (h : e.st ≠ .filling) :
    (hitEnt m e o).cls = .general ∧ (hitEnt m e o).spoil = e.spoil := by
  unfold hitEnt
  rw [if_neg (by simpa using h)]
  exact ⟨rfl, rfl⟩

section
variable (m : Mem) (os : List Nat) (e : TileEnt)

theorem hitEnts_tag : (os.foldl (hitEnt m) e).tag = e.tag := by
  induction os generalizing e with
  | nil => rfl
  | cons o os ih => exact (ih _).trans (hitEnt_tag m e o)

theorem hitEnts_st : (os.foldl (hitEnt m) e).st = e.st := by
  induction os generalizing e with
  | nil => rfl
  | cons o os ih => exact (ih _).trans (hitEnt_st m e o)

theorem hitEnts_nf : (os.foldl (hitEnt m) e).nf = true ↔
    e.nf = true ∨ ∃ o ∈ os, notFinite e.tag (elemHolding m e.tag o) = true := by
  induction os generalizing e with
  | nil => simp
  | cons o os ih => rw [List.foldl_cons, ih, hitEnt_nf, hitEnt_tag]; simp [or_assoc]

theorem hitEnts_filling (h : e.st = .filling) (hne : os ≠ []) :
    (os.foldl (hitEnt m) e).spoil = true ∧ (os.foldl (hitEnt m) e).cls = e.cls := by
  induction os generalizing e with
  | nil => exact absurd rfl hne
  | cons o os ih =>
    have h1 := hitEnt_filling m e o h
    by_cases hos : os = []
    · subst hos; exact h1
    · obtain ⟨hs, hc⟩ := ih (hitEnt m e o) ((hitEnt_st m e o).trans h) hos
      exact ⟨hs, hc.trans h1.2⟩

theorem hitEnts_general (h : e.st ≠ .filling) (hne : os ≠ []) :
    (os.foldl (hitEnt m) e).cls = .general ∧ (os.foldl (hitEnt m) e).spoil = e.spoil := by
  induction os generalizing e with
  | nil => exact absurd rfl hne
  | cons o os ih =>
    have h1 := hitEnt_general m e o h
    by_cases hos : os = []
    · subst hos; exact h1
    · obtain ⟨hc, hs⟩ := ih (hitEnt m e o) (fun he => h ((hitEnt_st m e o).symm.trans he)) hos
      exact ⟨hc, hs.trans h1.2⟩

end

/-! ### The performed store -/

/-- The oldest entry of a queue, performed from the state with the queue shortened. -/
theorem performOne_eq {s : State} {c k : Nat} {e : StoreEnt} {rest : List StoreEnt} (h : (s.ctx c k).storeQ = e :: rest) :
    s.performOne c k = (s.updCtx c k (fun x => x.leaveQueues 1)).performEnt c e := by
  unfold State.performOne State.performFirst
  rw [h]
  rfl

/-- A change of a context leaves the memory of its core. -/
theorem setCtx_memory (x : CoreState) (k : Nat) (y : Ctx) : (x.setCtx k y).spad = x.spad ∧ (x.setCtx k y).tiles = x.tiles ∧
    ∀ o, (x.setCtx k y).gated o = x.gated o := ⟨rfl, rfl, fun _ => rfl⟩

/-- The offsets that a store writes: those of its scratchpad cells in stripes that are not gated. -/
theorem mem_landing {x : CoreState} {cs : List (Loc × Byte)} {o : Nat} :
    o ∈ (x.landing (spadPart cs)).map (·.1) ↔ x.gated o = false ∧ ∃ p ∈ cs, p.1 = .spad o := by
  unfold CoreState.landing
  constructor
  · intro h
    obtain ⟨⟨a, b⟩, hp, rfl⟩ := List.mem_map.mp h
    obtain ⟨hp, hg⟩ := List.mem_filter.mp hp
    exact ⟨by simpa using hg, _, mem_spadPart.mp hp, rfl⟩
  · rintro ⟨hg, ⟨l, b⟩, hp, rfl⟩
    exact List.mem_map.mpr ⟨(o, b), List.mem_filter.mpr ⟨mem_spadPart.mpr hp, by simp [hg]⟩, rfl⟩

/-- Settles O15: the store's cells are split by their memory; bytes are read back by the laws of memories, and an entry is
followed over the writes of its own slot. -/
theorem storePerformed : Obligations.StorePerformed := by
  intro s c k cs rest hphys hspad hq t
  have ht : t = (s.updCtx c k (fun x => x.leaveQueues 1)).performEnt c (.store cs) := performOne_eq hq
  obtain ⟨hts, htt, htg⟩ := touchCells_kept (spadPart cs) (s.eff c) ((s.core c).setCtx k ((s.ctx c k).leaveQueues 1))
  have hcore : t.core c = CoreState.spadCells ((spadPart cs).foldl (fun (x : CoreState) p => x.touch p.1 (s.eff c))
      ((s.core c).setCtx k ((s.ctx c k).leaveQueues 1))) (spadPart cs) := by
    rw [ht, core_performStore, State.core_updCtx, State.updCtx_eff]
  generalize (spadPart cs).foldl (fun (x : CoreState) p => x.touch p.1 (s.eff c))
    ((s.core c).setCtx k ((s.ctx c k).leaveQueues 1)) = y at hts htt htg hcore
  have hland : y.landing (spadPart cs) = (s.core c).landing (spadPart cs) := by
    unfold CoreState.landing
    exact List.filter_congr (fun p _ => by rw [htg]; rfl)
  have hspad2 : (t.core c).spad = (s.core c).spad.writeCells ((s.core c).landing (spadPart cs)) := by
    rw [hcore, spadCells_spad, hland, hts]
    rfl
  have hphys2 : t.phys.mem = s.phys.mem.writeCells ((physPart cs).filter (fun p => !s.portDown p.1)) := by
    rw [ht, phys_performStore]
    rfl
  refine ⟨?_, ?_, ?_, ?_, ?_, ?_, ?_⟩
  · rw [ht, ((aside_performEnt c _).left _).ctx, State.ctx_updCtx]
    unfold Ctx.leaveQueues
    rw [hq]
    rfl
  · intro o ho
    rw [hspad2]
    refine Mem.read_writeCells_other _ _ _ hspad (fun p hp e => ?_)
    exact ho _ (mem_spadPart.mp (List.mem_of_mem_filter hp)) (congrArg Loc.spad e)
  · intro a ha
    rw [hphys2]
    refine Mem.read_writeCells_other _ _ _ hphys (fun p hp e => ?_)
    exact ha _ (mem_physPart.mp (List.mem_of_mem_filter hp)) (congrArg Loc.phys e)
  · intro d hd
    rw [ht, core_performStore_other _ _ _ hd, State.core_updCtx_other _ _ _ hd]
  · intro pre x post o hcs hpost hg
    have hsplit : spadPart cs = spadPart pre ++ (o, x) :: spadPart post := by rw [hcs]; simp [spadPart]
    rw [hspad2, hsplit]
    exact Mem.read_filtered_last _ (fun o => !(s.core c).gated o) _ _ o x hspad (by rw [hg]; rfl)
      (fun p hp e => hpost _ (mem_spadPart.mp hp) (congrArg Loc.spad e))
  · intro pre x post a hcs hpost hg
    have hsplit : physPart cs = physPart pre ++ (a, x) :: physPart post := by rw [hcs]; simp [physPart]
    rw [hphys2, hsplit]
    exact Mem.read_filtered_last _ (fun a => !s.portDown a) _ _ a x hphys (by rw [hg]; rfl)
      (fun p hp e => hpost _ (mem_physPart.mp hp) (congrArg Loc.phys e))
  · intro hin n hn hits e e2
    have hwf : (CoreState.landed (y.landing (spadPart cs)) y).spad.wf = true :=
      Mem.wf_writeCells _ _ (by rw [hts]; exact hspad)
    have hmem : (CoreState.landed (y.landing (spadPart cs)) y).spad = (t.core c).spad := by
      rw [hspad2, ← hland]
      exact congrArg (fun m : Mem => m.writeCells (y.landing (spadPart cs))) hts
    have hhit (o : Nat) : o ∈ (((s.core c).landing (spadPart cs)).map (·.1)).filter (fun o => decide (o / 4096 = n)) ↔ hits o := by
      rw [List.mem_filter, mem_landing, decide_eq_true_eq, and_comm]
    have he2 : e2 = ((((s.core c).landing (spadPart cs)).map (·.1)).filter (fun o => decide (o / 4096 = n))).foldl
        (hitEnt (t.core c).spad) e := by
      have htile : (CoreState.landed (y.landing (spadPart cs)) y).tile n = e := by
        unfold CoreState.tile
        exact congrArg (fun v : Vector TileEnt 128 => v.get (Fin.ofNat 128 n)) htt
      have hlow : ∀ o ∈ (y.landing (spadPart cs)).map (·.1), o < 0x80000 := by
        intro o ho
        obtain ⟨-, p, hp, he⟩ := mem_landing.mp ho
        exact hin p hp o he
      show (t.core c).tile n = _
      rw [← hmem, ← htile, ← hland, hcore, spadCells_eq, tile_downgrades _ _ hwf hlow hn]
    generalize (((s.core c).landing (spadPart cs)).map (·.1)).filter (fun o => decide (o / 4096 = n)) = os at hhit he2
    rw [he2]
    refine ⟨fun hno => ?_, fun ⟨o, ho⟩ => ?_⟩
    · rw [List.eq_nil_iff_forall_not_mem.mpr (fun o ho => hno o ((hhit o).mp ho))]
      rfl
    · have hne : os ≠ [] := List.ne_nil_of_mem ((hhit o).mpr ho)
      refine ⟨hitEnts_tag _ _ _, hitEnts_st _ _ _, fun h => hitEnts_filling _ _ _ h hne, fun h => hitEnts_general _ _ _ h hne, ?_⟩
      rw [hitEnts_nf]
      exact or_congr Iff.rfl (exists_congr (fun o => and_congr (hhit o) Iff.rfl))

end Sys2Proof.Machine
end

