-- ==== Sys2Proof/Proofs/OrderingOps.lean ====
section
/-! PROOFS. MARK, FENCE, CWB and CINV: what they place in the queues of their context and what leaves them (R166, R167, R169,
R177). -/

namespace Sys2Proof.Machine

open Sys2Proof.Claim

/-! ### Entries that leave the store queue -/

/-- The first entries performed are gone from the queue. -/
theorem storeQ_performFirst (s : State) (c k n : Nat) : ((s.performFirst c k n).ctx c k).storeQ = (s.ctx c k).storeQ.drop n := by
  have hperf := aside_foldl (c := c) (fun e u => State.performEnt u c e) (aside_performEnt c) ((s.ctx c k).storeQ.take n)
  unfold State.performFirst
  rw [(hperf.left _).ctx, State.ctx_updCtx]
  rfl

theorem storeQ_drainMe (s : State) : s.drainMe.me.storeQ = [] := by
  have h := storeQ_performFirst s s.cur.core s.cur.ctx s.me.storeQ.length
  have hcur := (access_drainMe.reaches s).cur
  unfold State.me
  rw [hcur]
  exact h.trans List.drop_length

theorem storeQ_beforeLoad (s : State) (a : Acc1) : (s.beforeLoad a).me.storeQ =
    s.me.storeQ.drop (touching ((s.touched a).locs s.cur.core s.myTask a.va a.n false) s.me.storeQ) := by
  have ht := (access_touched a).reaches s
  have hctx : ((s.touched a).ctx s.cur.core s.cur.ctx).storeQ = s.me.storeQ :=
    congrArg Ctx.storeQ (((aside_touchAcc s.cur.core s.myTask a).left s).ctx s.cur.ctx)
  have hq : (s.touched a).me.storeQ = s.me.storeQ := by
    unfold State.me
    rw [ht.cur]
    exact hctx
  have hcur := ((access_performedFor a).reaches (s.touched a)).cur
  have h := storeQ_performFirst (s.touched a) (s.touched a).cur.core (s.touched a).cur.ctx
    (touching ((s.touched a).locs (s.touched a).cur.core (s.touched a).myTask a.va a.n false) (s.touched a).me.storeQ)
  rw [beforeLoad_eq, State.me, hcur]
  refine h.trans ?_
  rw [ht.cur, ht.myTask, hq]
  exact congrArg (List.drop _) hctx

/-- A MARK in a queue is performed before every load, with what stands before it (R169). -/
theorem touching_mark (ls : List Loc) (pre post : List StoreEnt) : pre.length + 1 ≤ touching ls (pre ++ .mark :: post) := by
  induction pre with
  | nil =>
    simp only [List.nil_append, touching, StoreEnt.before, if_true, List.length_nil]
    split <;> omega
  | cons e pre ih =>
    simp only [List.cons_append, touching, List.length_cons]
    rw [if_pos (by omega)]
    omega

/-! ### Ops that change the queues of accesses alone -/

/-- A context with entries more in its queues of accesses. -/
def queued (c : Ctx) (es : List StoreEnt) (ls : List LoadEnt) : Ctx := { c with storeQ := c.storeQ ++ es, loadQ := c.loadQ ++ ls }

theorem queued_asAt (c : Ctx) (w : Word) (es : List StoreEnt) (ls : List LoadEnt) :
    (queued c es ls).AsAt (queued (c.begin w) es ls) := by
  refine ⟨?_, by simp [queued], by simp [queued], by simp [queued]⟩
  unfold Ctx.Retired Ctx.begin queued
  split <;> rfl

/-- A light op that places entries in the queues of accesses. -/
theorem issueOne_queues (s : State) (i : Instr) (m : Sem) (o : Out) (es : List StoreEnt) (ls : List LoadEnt) (h : Instr.plain i)
    (hl : Instr.light i) (hr : s.Ready i) (hp : s.Passes i m o)
    (ho : o.eff { s := s.opened m } = { s := (s.opened m).updMe (fun c => queued c es ls) })
    (hd : (m.draw s).2 = s.me.csr.rngseed) :
    ∃ t, issueOne m i s = .next t ∧ RegsKept s.me t ∧ StepsAs s (queued s.me es ls) t i (orFlags o.flags) := by
  obtain ⟨t, ht, hregs, hsteps, -⟩ := issueOne_kept s i m o (fun c => queued c es ls) (queued s.me es ls) h hl hr hp ho
    (queued_asAt _ _ _ _) rfl hd (fun _ => ⟨rfl, rfl, rfl⟩)
  exact ⟨t, ht, hregs, hsteps⟩

/-- A light op that does nothing (R17). -/
theorem issueOne_idle (s : State) (i : Instr) (m : Sem) (o : Out) (h : Instr.plain i) (hl : Instr.light i) (hr : s.Ready i)
    (hp : s.Passes i m o) (ho : o.eff { s := s.opened m } = { s := s.opened m }) (hd : (m.draw s).2 = s.me.csr.rngseed) :
    ∃ t, issueOne m i s = .next t ∧ RegsKept s.me t ∧ Steps s t i (orFlags o.flags) := by
  obtain ⟨t, ht, hregs, hsteps, -⟩ := issueOne_kept s i m o id s.me h hl hr hp (by rw [opened_updMe_id, ho])
    (Ctx.begin_asAt _ _) rfl hd (fun _ => ⟨rfl, rfl, rfl⟩)
  exact ⟨t, ht, hregs, hsteps⟩

/-- A light op whose part asks for nothing beside its effect. -/
theorem passes_plain (s : State) {i : Instr} {m : Sem} {o : Out} (hl : Instr.light i) (htag : m.tags s = none)
    (hslots : m.slots s = []) (hstall : ∀ a, m.stall s a = false ∧ m.waits s a = false) (hni : m.ni s = 0)
    (hrun : m.run s (s.lone i (m.draw s).1) = o) (htrap : o.trap = none) (haccs : o.accs = []) (hflags : o.flags = []) :
    s.Passes i m o := passes_light s i m o hl htag hslots hstall hni hrun htrap haccs (.inr (hflags ▸ flagTrap_nil _))

/-! ### MARK and FENCE (R169) -/

theorem exec_mark (f : MemF) (s : State) (hr : s.Ready (.mark f)) : ∃ t, exec (.mark f) s = .next t ∧ RegsKept s.me t ∧
    if s.active f.g then
      StepsAs s { s.me with storeQ := s.me.storeQ ++ [.mark], loadQ := s.me.loadQ ++ [.mark] } t (.mark f) 0
    else Steps s t (.mark f) 0 := by
  have hl : Instr.light (.mark f) := ⟨rfl, rfl, rfl, rfl⟩
  have hplain : Instr.plain (.mark f) := plain_of rfl
  change ∃ t, issueOne (semMark f) (.mark f) s = _ ∧ _
  by_cases hact : s.active f.g = true
  · simp only [if_pos hact]
    exact issueOne_queues s _ _ { eff := Live.st State.enqueueMark } [.mark] [.mark] hplain hl hr
      (passes_plain s hl rfl rfl (fun _ => ⟨rfl, rfl⟩) rfl (if_pos hact) rfl rfl rfl) rfl rfl
  · simp only [if_neg hact]
    exact issueOne_idle s _ _ {} hplain hl hr
      (passes_plain s hl rfl rfl (fun _ => ⟨rfl, rfl⟩) rfl (if_neg hact) rfl rfl rfl) rfl rfl

/-- Registers as an access leaves them are registers as before it. -/
theorem Reaches.regsKept {s u t : State} (h : Reaches s u) (hk : RegsKept u.me t) : RegsKept s.me t := by
  unfold RegsKept at hk ⊢
  rwa [h.q, h.files, h.csr] at hk

theorem exec_fence (f : MemF) (s : State) (hr : s.Ready (.fence f)) : ∃ t, exec (.fence f) s = .next t ∧ RegsKept s.me t ∧
    if s.active f.g then Steps s.drainMe t (.fence f) 0 ∧ t.me.storeQ = [] else Steps s t (.fence f) 0 := by
  have hl : Instr.light (.fence f) := ⟨rfl, rfl, rfl, rfl⟩
  have hplain : Instr.plain (.fence f) := plain_of rfl
  change ∃ t, issueOne (semFence f) (.fence f) s = _ ∧ _
  by_cases hact : s.active f.g = true
  · simp only [if_pos hact]
    have hreach := access_drainMe.reaches s
    have ho : (Live.st State.drainMe) { s := s.opened (semFence f) } =
        { s := (s.opened (semFence f)).drainMe.updMe id } := by
      unfold Live.st State.opened
      rw [access_drainMe.upd s _ (queueBlind_begin _), State.updMe_updMe]
      rfl
    rw [issueOne_access (o := { eff := Live.st State.drainMe }) access_drainMe hplain hl hr
      (passes_plain s hl rfl rfl (fun _ => ⟨rfl, rfl⟩) rfl (if_pos hact) rfl rfl rfl) rfl rfl rfl ho]
    obtain ⟨t, ht, hregs, hsteps⟩ := issueOne_idle s.drainMe _ _ _ hplain hl (hreach.ready hr) (passes_localSem _ hl _ id)
      (congrArg (Live.mk · none) (opened_updMe_id _ _)) rfl
    refine ⟨t, ht, hreach.regsKept hregs, hsteps, ?_⟩
    obtain ⟨-, hret, -⟩ := hsteps
    rw [hret]
    exact storeQ_drainMe s
  · simp only [if_neg hact]
    exact issueOne_idle s _ _ {} hplain hl hr
      (passes_plain s hl rfl rfl (fun _ => ⟨rfl, rfl⟩) rfl (if_neg hact) rfl rfl rfl) rfl rfl

/-! ### CWB and CINV (R177) -/

/-- The access of a cache op: the byte at its address. -/
def lineAcc (f : MemF) (s : State) : Acc1 := { lane := 0, va := ea f s, n := 1, kind := 3 }

/-- A byte of translated memory lies at one physical address. -/
theorem locs_mapped (s : State) (c : Nat) (task : Option Task) (va : Word) (h : s.isMapped c va = true) :
    ∃ pa, s.locs c task va 1 false = [.phys pa] := by
  have hv : vas va 1 = [va.toNat] := by
    unfold vas
    simp [Nat.mod_eq_of_lt va.isLt]
  unfold State.isMapped at h
  unfold State.locs
  rw [hv, List.map_singleton, beq_iff_eq.mp h]
  dsimp only
  split
  · exact ⟨_, rfl⟩
  · exact ⟨0, rfl⟩

/-- What an active cache op would do. -/
def cacheOut (a : Acc1) (ent : Nat → StoreEnt) : Out :=
  { accs := [a]
    eff := Live.st (fun l =>
      if l.isMapped l.cur.core a.va then
        let l := l.touchAcc l.cur.core l.myTask a
        match l.locs l.cur.core l.myTask a.va 1 false with
        | .phys p :: _ => l.enqueue (ent (p / 64))
        | _ => l
      else l) }

/-- On translated memory: the walk, then the line's entry in the queue. -/
theorem cacheOut_mapped {s : State} {a : Acc1} (ent : Nat → StoreEnt) (n : Option (BitVec 16))
    (h : s.isMapped s.cur.core a.va = true) {pa : Nat} (hpa : (s.touched a).locs s.cur.core s.myTask a.va 1 false = [.phys pa]) :
    (cacheOut a ent).eff { s := s, next := n } = { s := (s.touched a).updMe (fun c => queued c [ent (pa / 64)] []), next := n } := by
  have ht := (access_touched a).reaches s
  have hq (c : Ctx) : queued c [ent (pa / 64)] [] = { c with storeQ := c.storeQ ++ [ent (pa / 64)] } := by
    unfold queued; rw [List.append_nil]
  simp only [cacheOut, Live.st, h, if_true, hq]
  have heq : s.touchAcc s.cur.core s.myTask a = s.touched a := rfl
  rw [heq, ht.cur, ht.myTask, hpa]
  rfl

theorem cacheOut_own {s : State} {a : Acc1} (ent : Nat → StoreEnt) (n : Option (BitVec 16))
    (h : s.isMapped s.cur.core a.va = false) : (cacheOut a ent).eff { s := s, next := n } = { s := s, next := n } := by
  simp only [cacheOut, Live.st, h, Bool.false_eq_true, if_false]

section
variable {f : MemF} {s : State} {i : Instr} {ent : Nat → StoreEnt} (hi : MemOp i) (hr : s.Ready i)
  (hexec : exec i s = issueOne (semCache f i ent) i s)
include hi hr hexec

theorem cache_completes (hact : s.active f.g = true) (ha : AccPasses s (lineAcc f s)) :
    ∃ t, exec i s = .next t ∧ RegsKept s.me t ∧
      if s.isMapped s.cur.core (lineAcc f s).va then
        let s0 := s.touchAcc s.cur.core s.myTask (lineAcc f s)
        ∃ pa, s0.locs s.cur.core s.myTask (lineAcc f s).va 1 false = [.phys pa] ∧
          StepsAs s0 (stored s0.me [ent (pa / 64)]) t i 0
      else Steps s t i 0 := by
  have hp : s.Passes i (semCache f i ent) (cacheOut (lineAcc f s) ent) :=
    passes_access hi.light rfl rfl (fun _ => ⟨rfl, rfl⟩) rfl ((if_pos hact).trans rfl) rfl rfl rfl (show 1 ≤ 32 by decide) ha
  rw [hexec]
  by_cases hm : s.isMapped s.cur.core (lineAcc f s).va = true
  · simp only [if_pos hm]
    have hF := access_touched (lineAcc f s)
    have hreach := hF.reaches s
    have hm0 : (s.touched (lineAcc f s)).isMapped s.cur.core (lineAcc f s).va = true := by
      unfold State.isMapped State.vtarget
      rw [hreach.boot]
      exact hm
    obtain ⟨pa, hpa⟩ := locs_mapped _ s.cur.core s.myTask _ hm0
    have hopen : (s.opened (semCache f i ent)).touched (lineAcc f s) = (s.touched (lineAcc f s)).updMe (·.begin s.me.csr.rngseed) :=
      hF.upd s _ (queueBlind_begin _)
    have hpa' : ((s.opened (semCache f i ent)).touched (lineAcc f s)).locs (s.opened (semCache f i ent)).cur.core
        (s.opened (semCache f i ent)).myTask (lineAcc f s).va 1 false = [.phys pa] := by
      have htask : (s.opened (semCache f i ent)).myTask = s.myTask := (queueBlind_begin _).myTask s
      have hcur : (s.opened (semCache f i ent)).cur = s.cur := rfl
      have hlocs := locs_updCtx (s.touched (lineAcc f s)) s.cur.core s.cur.ctx (·.begin s.me.csr.rngseed) s.myTask
        (lineAcc f s).va 1 false
      rw [hopen, htask, hcur, ← hpa, ← hlocs]
      unfold State.updMe
      rw [hreach.cur]
    rw [issueOne_access hF hi.plain hi.light hr hp rfl rfl rfl (cacheOut_mapped (s := s.opened (semCache f i ent)) ent none hm hpa')]
    obtain ⟨t, ht, hregs, hsteps⟩ := issueOne_queues (s.touched (lineAcc f s)) i _ _ [ent (pa / 64)] [] hi.plain hi.light
      (hreach.ready hr) (passes_localSem _ hi.light _ _) rfl rfl
    refine ⟨t, ht, hreach.regsKept hregs, pa, hpa, ?_⟩
    have hq : queued (s.touched (lineAcc f s)).me [ent (pa / 64)] [] = stored (s.touched (lineAcc f s)).me [ent (pa / 64)] := by
      unfold queued stored; rw [List.append_nil]
    rw [hq] at hsteps
    exact hsteps
  · simp only [if_neg hm]
    exact issueOne_idle s i _ _ hi.plain hi.light hr hp (cacheOut_own ent none (Bool.not_eq_true _ |>.mp hm)) rfl

theorem cache_guardedOff (hact : s.active f.g = false) : ∃ t, exec i s = .next t ∧ Steps s t i 0 ∧ RegsKept s.me t := by
  rw [hexec]
  obtain ⟨t, ht, hregs, hsteps⟩ := issueOne_idle s i (semCache f i ent) {} hi.plain hi.light hr
    (passes_plain s hi.light rfl rfl (fun _ => ⟨rfl, rfl⟩) rfl (if_neg (by rw [hact]; decide)) rfl rfl rfl) rfl rfl
  exact ⟨t, ht, hsteps, hregs⟩

end

/-- Settles O14: each op changes the queues of its context alone, FENCE after every store and a cache op after its walk. -/
theorem orderingOps : Obligations.OrderingOps := by
  refine ⟨exec_mark, fun s a pre post hq => ?_, exec_fence, ?_⟩
  · rw [storeQ_beforeLoad, hq]
    generalize (s.touched a).locs s.cur.core s.myTask a.va a.n false = ls
    obtain ⟨k, hk⟩ := Nat.exists_eq_add_of_le (touching_mark ls pre post)
    refine ⟨post.take k, ?_⟩
    rw [hk, List.append_cons, show pre.length + 1 + k = (pre ++ [StoreEnt.mark]).length + k by simp, List.drop_length_add_append]
    exact List.take_append_drop k post
  · simp only [List.forall_mem_cons, List.not_mem_nil, false_implies, implies_true, and_true]
    exact ⟨fun f s hr => ⟨cache_completes (memOp_of rfl ⟨rfl, rfl, rfl, rfl⟩ rfl) hr rfl,
        cache_guardedOff (memOp_of rfl ⟨rfl, rfl, rfl, rfl⟩ rfl) hr rfl⟩,
      fun f s hr => ⟨cache_completes (memOp_of rfl ⟨rfl, rfl, rfl, rfl⟩ rfl) hr rfl,
        cache_guardedOff (memOp_of rfl ⟨rfl, rfl, rfl, rfl⟩ rfl) hr rfl⟩⟩

end Sys2Proof.Machine
end

