-- ==== Sys2Proof/Proofs/Atomics.lean ====
section
/-! PROOFS. The atomics: what they read, write and push, from the package with every earlier store performed (R166, R175, R176,
R179). -/

namespace Sys2Proof.Machine

open Sys2Proof.Claim

/-! ### Reading and writing at once -/

/-- Performing an entry that is computed from memory. -/
theorem access_performEnt (E : State → StoreEnt) (hE : ∀ s h, QueueBlind h → E (s.updMe h) = E s) :
    Access (fun s => s.performEnt s.cur.core (E s)) where
  reaches s := reaches_of_left ((aside_performEnt s.cur.core (E s)).left s)
  upd s h hh := by
    rw [hE s h hh, State.updMe_cur]
    exact (aside_performEnt s.cur.core (E s)).updMe h

/-- The package as an atomic finds it (R176). -/
def State.settled (a : Acc1) (s : State) : State := s.drainMe.touched a

/-- What an atomic writes at the bytes of its access. -/
def State.atomEnt (a : Acc1) (fn : Nat → Nat) (s : State) : StoreEnt :=
  .store (s.cellsAt a.va a.n (fn (leNat (readBytes s a true))))

/-- The write of an atomic: nothing on a poisoned line (R179). -/
def State.atomPut (a : Acc1) (fn : Nat → Nat) (s : State) : State :=
  if readBad s a true = true then s else s.performEnt s.cur.core (s.atomEnt a fn)

theorem access_settled (a : Acc1) : Access (State.settled a) := access_drainMe.comp (access_touched a)

theorem atomEnt_updMe {h : Ctx → Ctx} (hh : QueueBlind h) (s : State) (a : Acc1) (fn : Nat → Nat) :
    (s.updMe h).atomEnt a fn = s.atomEnt a fn := by
  unfold State.atomEnt State.cellsAt
  rw [readBytes_updMe hh, State.updMe_cur, myLocs_updMe hh]

theorem access_atomPut (a : Acc1) (fn : Nat → Nat) : Access (State.atomPut a fn) :=
  access_ite (fun s => readBad s a true) (fun s _ hh => readBad_updMe hh s a true) access_id
    (access_performEnt _ (fun s _ hh => atomEnt_updMe hh s a fn))

theorem access_atomic (a : Acc1) (fn : Nat → Nat) : Access (fun s => (s.settled a).atomPut a fn) :=
  (access_settled a).comp (access_atomPut a fn)

/-- An atomic performed, by what it finds. -/
theorem atomic_eq (s : State) (a : Acc1) (fn : Nat → Nat) :
    s.atomic a fn = ((s.settled a).atomPut a fn, leNat (readBytes (s.settled a) a true), readBad (s.settled a) a true) := by
  have h : s.atomic a fn = if readBad (s.settled a) a true = true
      then (s.settled a, leNat (readBytes (s.settled a) a true), true)
      else ((s.settled a).performEnt (s.settled a).cur.core ((s.settled a).atomEnt a fn), leNat (readBytes (s.settled a) a true), false) := rfl
  rw [h]
  unfold State.atomPut
  by_cases hb : readBad (s.settled a) a true = true
  · rw [if_pos hb, if_pos hb, hb]
  · rw [if_neg hb, if_neg hb, Bool.not_eq_true _ |>.mp hb]

/-! ### The functions (R175) -/

/-- A function over numbers that is the given one over bit vectors at both sizes, whatever the third operand where it does not
use it. -/
def AtomAgrees (fn : AtomFn) (expect : MemF → State → Nat)
    (r : ∀ n : Nat, BitVec n → BitVec n → BitVec n → BitVec n) : Prop :=
  ∀ n, n = 32 ∨ n = 64 → ∀ (f : MemF) (s : State) (o b : BitVec n),
    fn n o.toNat b.toNat (expect f s % 2 ^ n) = (r n o b ((s.val (dregAsOperand f.d)).setWidth n)).toNat

/-- An atomic whose function takes no expected value. -/
def noExpected : MemF → State → Nat := fun _ => noExpect

/-- The expected value of ACAS, which D names (R67). -/
def casExpected : MemF → State → Nat := fun f s => (s.val (dregAsOperand f.d)).toNat

theorem atomAgrees_aadd : AtomAgrees fnAadd noExpected (fun _ o b _ => o + b) := fun _ _ _ _ o b => (BitVec.toNat_add o b).symm

theorem atomAgrees_amin : AtomAgrees fnAmin noExpected (fun _ o b _ => if b.slt o then b else o) := fun _ hn _ _ o b =>
  toNat_choice (asInt_lt (by omega) true b o) b o

theorem atomAgrees_amax : AtomAgrees fnAmax noExpected (fun _ o b _ => if o.slt b then b else o) := fun _ hn _ _ o b =>
  toNat_choice (asInt_lt (by omega) true o b) b o

theorem atomAgrees_aand : AtomAgrees fnAand noExpected (fun _ o b _ => o &&& b) := fun _ _ _ _ _ _ => rfl

theorem atomAgrees_aor : AtomAgrees fnAor noExpected (fun _ o b _ => o ||| b) := fun _ _ _ _ _ _ => rfl

theorem atomAgrees_axor : AtomAgrees fnAxor noExpected (fun _ o b _ => o ^^^ b) := fun _ _ _ _ _ _ => rfl

theorem atomAgrees_aswp : AtomAgrees fnAswp noExpected (fun _ _ b _ => b) := fun _ _ _ _ _ _ => rfl

theorem atomAgrees_acas : AtomAgrees fnAcas casExpected (fun _ o b e => if o = e then b else o) := fun n _ f s o b => by
  have he : casExpected f s % 2 ^ n = ((s.val (dregAsOperand f.d)).setWidth n).toNat := (BitVec.toNat_setWidth ..).symm
  unfold fnAcas
  rw [he, apply_ite BitVec.toNat]
  exact if_congr BitVec.toNat_eq.symm rfl rfl

theorem atomAgrees_aminu : AtomAgrees fnAminu noExpected (fun _ o b _ => if b.ult o then b else o) := fun _ _ _ _ o b =>
  toNat_choice (lt_iff_ult b o) b o

theorem atomAgrees_amaxu : AtomAgrees fnAmaxu noExpected (fun _ o b _ => if o.ult b then b else o) := fun _ _ _ _ o b =>
  toNat_choice (lt_iff_ult o b) b o

/-- What an atomic of the table is: an op of one word that runs by a function that agrees with the table's (R175). -/
structure AtomOp (ins : MemF → Instr) (zx : Bool) (r : ∀ n : Nat, BitVec n → BitVec n → BitVec n → BitVec n) : Prop where
  op : ∀ f, MemOp (ins f)
  size : ∀ f, WellFormed (ins f) → f.sz = .word ∨ f.sz = .dword
  exec : ∃ fn expect, AtomAgrees fn expect r ∧
    ∀ f s, Machine.exec (ins f) s = issueOne (semAtom f (ins f) zx fn (expect f)) (ins f) s

theorem size_of_ok {f : MemF} {b : Bool} (h : ((f.sz == .word || f.sz == .dword) && b) = true) : f.sz = .word ∨ f.sz = .dword := by
  obtain ⟨h, -⟩ := Bool.and_eq_true_iff.mp h
  simpa using h

theorem atomOp_of_mem : ∀ p ∈ atoms, AtomOp p.1 p.2.1 p.2.2 := by
  have op {i : Instr} (hp : Instr.isPlain i = true) (hl : Instr.light i) (hw : wordsOf i = 1) : MemOp i := memOp_of hp hl hw
  simp only [atoms, List.forall_mem_cons, List.not_mem_nil, false_implies, implies_true, and_true]
  refine ⟨?_, ?_, ?_, ?_, ?_, ?_, ?_, ?_, ?_, ?_⟩
  all_goals refine ⟨fun _ => op rfl ⟨rfl, rfl, rfl, rfl⟩ rfl, fun f h => size_of_ok (fieldsOk_of_wf h rfl), ?_⟩
  · exact ⟨_, _, atomAgrees_aadd, fun _ _ => rfl⟩
  · exact ⟨_, _, atomAgrees_amin, fun _ _ => rfl⟩
  · exact ⟨_, _, atomAgrees_amax, fun _ _ => rfl⟩
  · exact ⟨_, _, atomAgrees_aand, fun _ _ => rfl⟩
  · exact ⟨_, _, atomAgrees_aor, fun _ _ => rfl⟩
  · exact ⟨_, _, atomAgrees_axor, fun _ _ => rfl⟩
  · exact ⟨_, _, atomAgrees_aswp, fun _ _ => rfl⟩
  · exact ⟨_, _, atomAgrees_acas, fun _ _ => rfl⟩
  · exact ⟨_, _, atomAgrees_aminu, fun _ _ => rfl⟩
  · exact ⟨_, _, atomAgrees_amaxu, fun _ _ => rfl⟩

/-! ### The values -/

theorem atomState_eq (f : MemF) (s : State) : atomState f s = s.settled (atomAcc f s) := by
  have h := access_drainMe.reaches s
  unfold atomState State.settled State.touched
  rw [h.cur, h.myTask]

theorem readBytes_lt (s : State) (a : Acc1) (wr : Bool) : leNat (readBytes s a wr) < 2 ^ (8 * a.n) := by
  have h := leNat_lt (readBytes s a wr)
  rwa [readBytes_length] at h

section
variable {f : MemF} (hsz : f.sz = .word ∨ f.sz = .dword)
include hsz

/-- The old value that is pushed (R175). -/
theorem atomOld_eq (s : State) (zx : Bool) : atomOld f zx (atomAcc f s).va (leNat (readBytes (atomState f s) (atomAcc f s) true))
    (readBad (atomState f s) (atomAcc f s) true) = atomOldVal f s zx := by
  unfold atomOldVal atomOld
  have hlt := readBytes_lt (atomState f s) (atomAcc f s) true
  dsimp only
  generalize leNat (readBytes (atomState f s) (atomAcc f s) true) = x at hlt ⊢
  have hn : (atomAcc f s).n = sizeBytes f.sz := rfl
  rw [hn] at hlt
  rcases hsz with h | h
  · have hsext := loadedV_eq (show 0 < 4 by decide) (h ▸ hlt) true
    rw [h]
    cases zx
    · exact congrArg (fun v => ({ v := v, tag := .int32, poison := _ } : SVal)) hsext
    · rfl
  · rw [h]
    rfl

/-- The new value, as a number (R175). -/
theorem atomNew_eq {fn : AtomFn} {expect : MemF → State → Nat} {r : ∀ n : Nat, BitVec n → BitVec n → BitVec n → BitVec n}
    (ha : AtomAgrees fn expect r) (s : State) :
    fn (8 * sizeBytes f.sz) (leNat (readBytes (atomState f s) (atomAcc f s) true)) ((s.val f.b).toNat % 2 ^ (8 * sizeBytes f.sz))
      (expect f s % 2 ^ (8 * sizeBytes f.sz)) = (atomNew f s r).toNat := by
  unfold atomNew
  have hlt := readBytes_lt (atomState f s) (atomAcc f s) true
  dsimp only
  generalize leNat (readBytes (atomState f s) (atomAcc f s) true) = x at hlt ⊢
  have hn : (atomAcc f s).n = sizeBytes f.sz := rfl
  rw [hn] at hlt
  have hagree (n : Nat) (hn : n = 32 ∨ n = 64) (hx : x < 2 ^ n) : fn n x ((s.val f.b).toNat % 2 ^ n) (expect f s % 2 ^ n) =
      (r n (BitVec.ofNat n x) ((s.val f.b).setWidth n) ((s.val (dregAsOperand f.d)).setWidth n)).toNat := by
    have h := ha n hn f s (BitVec.ofNat n x) ((s.val f.b).setWidth n)
    rwa [BitVec.toNat_ofNat, Nat.mod_eq_of_lt hx, BitVec.toNat_setWidth] at h
  rcases hsz with h | h
  · rw [h] at hlt ⊢
    rw [if_pos rfl, BitVec.toNat_setWidth_of_le (by decide)]
    exact hagree 32 (.inl rfl) hlt
  · rw [h] at hlt ⊢
    rw [if_neg (by decide)]
    exact (hagree 64 (.inr rfl) hlt).trans (by rw [BitVec.setWidth_eq, BitVec.setWidth_eq])

/-- The package after the write. -/
theorem atomWritten_eq {fn : AtomFn} {expect : MemF → State → Nat} {r : ∀ n : Nat, BitVec n → BitVec n → BitVec n → BitVec n}
    (ha : AtomAgrees fn expect r) (s : State) :
    ((s.settled (atomAcc f s)).atomPut (atomAcc f s) (fun old => fn (8 * sizeBytes f.sz) old
      ((s.val f.b).toNat % 2 ^ (8 * sizeBytes f.sz)) (expect f s % 2 ^ (8 * sizeBytes f.sz)))) = atomWritten f s r := by
  have hcur := ((access_settled (atomAcc f s)).reaches s).cur
  have hnew := atomNew_eq hsz ha s
  unfold atomWritten
  rw [← atomState_eq] at hcur ⊢
  unfold State.atomPut State.atomEnt State.cellsAt storeCells
  dsimp only
  rw [hnew, leBytes_eq, hcur]

end

/-! ### The ops -/

/-- A special operand holds the same bits under INT32 as under INT64. -/
theorem rdS_int (s : State) (o : Operand) (p : Prop) [Decidable p] : (s.rdS (if p then .int32 else .int64) o).v = s.val o := by
  split
  · cases o <;> rfl
  · rfl

/-- What an active atomic would do. -/
def atomOut (f : MemF) (zx : Bool) (a : Acc1) (fn : Nat → Nat) : Out :=
  { accs := [a]
    eff := Live.st (fun l =>
      let r := l.atomic a fn
      r.1.updMe (fun c => c.resultS f.w f.d (atomOld f zx a.va r.2.1 r.2.2))) }

section
variable {ins : MemF → Instr} {zx : Bool} {r : ∀ n : Nat, BitVec n → BitVec n → BitVec n → BitVec n} (hop : AtomOp ins zx r)
  {f : MemF} {s : State} (hr : s.Ready (ins f))
include hop hr

theorem atomic_completes (hact : s.active f.g = true) (ha : AccPasses s (atomAcc f s)) :
    ∃ t, exec (ins f) s = .next t ∧ ScalarDone (atomWritten f s r) t (ins f) f.w f.d (atomOldVal f s zx) 0 := by
  obtain ⟨fn, expect, hag, hexec⟩ := hop.exec
  have hi := hop.op f
  have hsz := hop.size f (wf_of_ready hr)
  rw [hexec, ← atomWritten_eq hsz hag, ← atomOld_eq hsz, atomState_eq]
  generalize hfn : (fun old => fn (8 * sizeBytes f.sz) old ((s.val f.b).toNat % 2 ^ (8 * sizeBytes f.sz))
    (expect f s % 2 ^ (8 * sizeBytes f.sz))) = fn'
  have hF := access_atomic (atomAcc f s) fn'
  have hp : s.Passes (ins f) (semAtom f (ins f) zx fn (expect f)) (atomOut f zx (atomAcc f s) fn') :=
    passes_access hi.light rfl rfl (fun _ => ⟨rfl, rfl⟩) rfl ((if_pos hact).trans (by rw [← hfn]; rfl)) rfl rfl rfl
      ((sizeBytes_bounds f.sz).2.trans (by decide)) ha
  have hset : (s.opened (semAtom f (ins f) zx fn (expect f))).settled (atomAcc f s) =
      (s.settled (atomAcc f s)).updMe (·.begin s.me.csr.rngseed) :=
    (access_settled (atomAcc f s)).upd s _ (queueBlind_begin _)
  have ho : (atomOut f zx (atomAcc f s) fn').eff { s := s.opened (semAtom f (ins f) zx fn (expect f)) } =
      { s := (((s.opened (semAtom f (ins f) zx fn (expect f))).settled (atomAcc f s)).atomPut (atomAcc f s) fn').updMe
          (fun c => c.resultS f.w f.d (atomOld f zx (atomAcc f s).va (leNat (readBytes (s.settled (atomAcc f s)) (atomAcc f s) true))
            (readBad (s.settled (atomAcc f s)) (atomAcc f s) true))) } := by
    unfold atomOut Live.st
    dsimp only
    rw [atomic_eq, hset, readBytes_updMe (queueBlind_begin _), readBad_updMe (queueBlind_begin _)]
  rw [issueOne_access hF hi.plain hi.light hr hp rfl rfl rfl ho]
  exact issueOne_scalar _ (ins f) _ _ f.w f.d _ hi.plain hi.light ((hF.reaches s).ready hr) (passes_localSem _ hi.light _ _)
    (local_me rfl) rfl

theorem atomic_traps (hact : s.active f.g = true) : AccessTraps s (ins f) [atomAcc f s] := by
  obtain ⟨fn, expect, -, hexec⟩ := hop.exec
  have hi := hop.op f
  have hrun (x : At) : ((semAtom f (ins f) zx fn (expect f)).run s x).trap = none ∧
      ((semAtom f (ins f) zx fn (expect f)).run s x).accs = [atomAcc f s] := by
    have h : (semAtom f (ins f) zx fn (expect f)).run s x = atomOut f zx (atomAcc f s) (fun old => fn (8 * sizeBytes f.sz) old
        ((s.val f.b).toNat % 2 ^ (8 * sizeBytes f.sz)) (expect f s % 2 ^ (8 * sizeBytes f.sz))) := if_pos hact
    rw [h]
    exact ⟨rfl, rfl⟩
  exact accessTraps_of (hexec f s) hi.plain hi.light hi.words hr rfl rfl (fun _ => rfl) rfl (hrun _).1 (hrun _).2

theorem atomic_guardedOff (hact : s.active f.g = false) : ∃ t, exec (ins f) s = .next t ∧
    ScalarDone s t (ins f) f.w f.d
      { v := s.val f.a, tag := (s.rdS (if f.sz = .word then .int32 else .int64) f.a).tag } 0 := by
  obtain ⟨fn, expect, -, hexec⟩ := hop.exec
  have hi := hop.op f
  have hnact : ¬ s.active f.g = true := by rw [hact]; decide
  have hn : 8 * sizeBytes f.sz = 32 ↔ f.sz = .word := by cases f.sz <;> simp [sizeBytes]
  have htag : (if 8 * sizeBytes f.sz = 32 then Tag.int32 else .int64) = if f.sz = .word then .int32 else .int64 :=
    if_congr hn rfl rfl
  have hrun (x : At) : (semAtom f (ins f) zx fn (expect f)).run s x = { eff := Live.me (fun c => c.resultS f.w f.d
      { v := s.val f.a, tag := (s.rdS (if f.sz = .word then .int32 else .int64) f.a).tag }) } := by
    rw [← htag, ← rdS_int s f.a (8 * sizeBytes f.sz = 32)]
    exact if_neg hnact
  rw [hexec]
  exact issueOne_scalar s (ins f) _ _ f.w f.d _ hi.plain hi.light hr
    (passes_plain s hi.light rfl rfl (fun _ => ⟨rfl, rfl⟩) rfl (hrun _) rfl rfl rfl) (local_me rfl) rfl

end

/-- Settles O12: an atomic does what its result alone does, from the package its read and write leave. -/
theorem atomics : Obligations.Atomics := fun p hp _ _ hr =>
  ⟨atomic_completes (atomOp_of_mem p hp) hr, atomic_traps (atomOp_of_mem p hp) hr, atomic_guardedOff (atomOp_of_mem p hp) hr⟩

end Sys2Proof.Machine
end

