-- ==== Sys2Proof/Proofs/ManyAccesses.lean ====
section
/-! PROOFS. An op with any number of accesses issues as an op that only changes its context, which acts again once its bank conflicts
are waited out (R58, R178, R221). -/

namespace Sys2Proof.Machine

open Sys2Proof.Claim

/-- A context that acts so many cycles later (R221). -/
def Ctx.wakeLater (n : Nat) (c : Ctx) : Ctx := { c with waits := { c.waits with wakeIn := c.waits.wakeIn + n } }

theorem Ctx.tick_wakeLater (n : Nat) (c : Ctx) (w : Nat) : (c.wakeLater n).tick w = (c.tick w).wakeLater n := by
  unfold Ctx.tick Ctx.wakeLater
  rfl

theorem Ctx.drawn_wakeLater (n : Nat) (c : Ctx) (hm : Bool) (ni : Nat) : (c.wakeLater n).drawn hm ni = (c.drawn hm ni).wakeLater n := by
  have hni (x : Ctx) : (if (x.wakeLater n).csr.niLeft == 0xFFFF then x.wakeLater n
      else { x.wakeLater n with csr := { x.csr with niLeft := x.csr.niLeft - ni } }) =
      (if x.csr.niLeft == 0xFFFF then x else { x with csr := { x.csr with niLeft := x.csr.niLeft - ni } }).wakeLater n := by
    change (if x.csr.niLeft == 0xFFFF then _ else _) = _
    rw [apply_ite (Ctx.wakeLater n)]
    rfl
  unfold Ctx.drawn
  refine Eq.trans ?_ (hni _)
  by_cases hres : (hm && c.tr.res != 0) = true
  · have hres' : (hm && (c.wakeLater n).tr.res != 0) = true := hres
    rw [if_pos hres, if_pos hres']
    rfl
  · have hres' : ¬ (hm && (c.wakeLater n).tr.res != 0) = true := hres
    rw [if_neg hres, if_neg hres']
    by_cases hbud : (c.csr.issueLeft == 0xFFFF) = true
    · have hbud' : ((c.wakeLater n).csr.issueLeft == 0xFFFF) = true := hbud
      rw [if_pos hbud, if_pos hbud']
      rfl
    · have hbud' : ¬ ((c.wakeLater n).csr.issueLeft == 0xFFFF) = true := hbud
      rw [if_neg hbud, if_neg hbud']
      rfl

/-- What closes a retirement does not read how long the context waits. -/
theorem Ctx.after_wakeLater (n : Nat) (c : Ctx) (hm : Bool) (pc : BitVec 16) (fl : Flags) (ni w : Nat) :
    (c.wakeLater n).after hm pc fl ni w = (c.after hm pc fl ni w).wakeLater n := by
  unfold Ctx.after
  dsimp only
  rw [← Ctx.tick_wakeLater, ← Ctx.drawn_wakeLater]
  rfl

section
variable {s : State} {i : Instr} {o : Out} {r : Word} (ha : ∀ a ∈ o.accs, AccPasses s a)
include ha

theorem memTrap_accesses : s.memTrap [(s.lone i r, o)] = none := by
  rw [memTrap_lone]
  refine List.findSome?_eq_none_iff.mpr fun row hrow => List.findSome?_eq_none_iff.mpr fun a hmem => ?_
  rw [(ha a hmem).1 row hrow]
  rfl

theorem accWaits_accesses : s.accWaits [(s.lone i r, o)] = false := by
  unfold State.accWaits
  simp only [List.any_cons, List.any_nil, Bool.or_false]
  refine List.any_eq_false.mpr fun a hmem => ?_
  have hone := accWaits_access (s := s) (i := i) (o := { o with accs := [a] }) (r := r) rfl (ha a hmem)
  unfold State.accWaits at hone
  simp only [List.any_cons, List.any_nil, Bool.or_false] at hone
  rw [hone]
  decide

end

/-- An op that passes but for its accesses, each of which passes, may issue: no check of R452 adds them up. -/
theorem judge_accesses {s : State} {i : Instr} {m : Sem} {o : Out} (h : Instr.plain i) (hl : Instr.light i) (hr : s.Ready i)
    (htag : m.tags s = none) (hslots : m.slots s = []) (hstall : ∀ a, m.stall s a = false ∧ m.waits s a = false) (hni : m.ni s = 0)
    (hrun : m.run s (s.lone i (m.draw s).1) = o) (htrap : o.trap = none) (hflags : o.flags = [])
    (ha : ∀ a ∈ o.accs, AccPasses s a) : s.judge (s.lay (fun _ => m) (s.single i)) none = .issue := by
  obtain ⟨-, hw, hc, hop, hwt, hib, hed, -, -⟩ := hr
  have hmem : s.memTrap [(s.lone i (m.draw s).1, o)] = none := memTrap_accesses ha
  have hacc : s.accWaits [(s.lone i (m.draw s).1, o)] = false := accWaits_accesses ha
  have hx : s.execTrap [s.lone i (m.draw s).1] [(s.lone i (m.draw s).1, o)] = none := by
    unfold State.execTrap
    rw [tokenReuse_light _ _ hl]
    simp only [List.findSome?_cons, htrap, Option.map_none, List.findSome?_nil, hmem, List.map_cons, List.map_nil, hflags]
    exact if_congr Iff.rfl rfl (flagTrap_nil _) |>.trans (ite_self _)
  have how : opWaits s 0 [(s.lone i (m.draw s).1, m)] = none := by simp [opWaits, (hstall _).2]
  rw [lay_lone s i m h]
  unfold State.judge
  simp only [replays_lone, rows15_lone s i h hw hc, orderWaits_lone, List.findSome?_cons, List.findSome?_nil, row6_lone s i _ hop,
    List.any_cons, List.any_nil, hslots, Bool.or_self, row7_slotless hslots htag, rows89_lone s i hwt,
    windowFull_lone s i hwt, List.map_cons, List.map_nil, List.sum_cons, List.sum_nil, Nat.add_zero, hni,
    denies_lone s.me _ hib (Or.inr (Nat.zero_le _)), hed, tokenWaits_light s.me (s.lone i (m.draw s).1) hl, (hstall _).1,
    engineFault_light s.me (s.lone i (m.draw s).1) hl, State.outs, hrun, hx, hacc, how, if_false, Bool.false_eq_true]

/-- The wait for bank conflicts may as well be written before what closes a retirement. -/
theorem closing_wakeLater (s : State) (a : At) (hm : Bool) (pc : BitVec 16) (fl : Flags) (ni w n : Nat) :
    (if n = 0 then
        (s.updMe (fun c => { c with standing := standStep a c.standing })).updMe (fun c => c.after hm pc fl ni w)
      else ((s.updMe (fun c => { c with standing := standStep a c.standing })).updMe (fun c => c.after hm pc fl ni w)).updMe
        (fun c => { c with waits := { c.waits with wakeIn := c.waits.wakeIn + n } })) =
      ((s.updMe (Ctx.wakeLater n)).updMe (fun c => { c with standing := standStep a c.standing })).updMe
        (fun c => c.after hm pc fl ni w) := by
  simp only [State.updMe_updMe]
  by_cases hn : n = 0
  · rw [if_pos hn, hn]
    rfl
  · rw [if_neg hn]
    exact congrArg s.updMe (funext fun c => (Ctx.after_wakeLater n { c with standing := standStep a c.standing } hm pc fl ni w).symm)

/-- What an op changes, its context waking later by its bank conflicts. -/
def Live.wakeLater (n : Nat) (L : Live) : Live := { L with s := L.s.updMe (Ctx.wakeLater n) }

/-- A lone op that may issue retires, and its bank conflicts are waited out after it (R221). -/
theorem issueOne_judged {s : State} {i : Instr} {m : Sem} {o : Out} (h : Instr.plain i) (hr : s.Ready i)
    (hj : s.judge (s.lay (fun _ => m) (s.single i)) none = .issue) (hrun : m.run s (s.lone i (m.draw s).1) = o) :
    issueOne m i s = .next ((s.closed i m o
      ((o.eff { s := s.opened m }).wakeLater (s.extraCycles [(s.lone i (m.draw s).1, o)]))).leaveBuf) := by
  obtain ⟨ha, -, -, -, -, -, -, hnx, -⟩ := hr
  have hl := opened_landNx s m hnx
  unfold issueOne
  rw [if_neg (Nat.not_le.mpr ha)]
  unfold State.issue State.issueLaid
  rw [show (s.single i).long = none from rfl, hj]
  simp only
  refine congrArg (fun t => Host.Outcome.next (State.leaveBuf t)) ?_
  rw [lay_lone s i m h]
  unfold State.retire State.closed Live.wakeLater
  simp only [State.outs, List.map_cons, List.map_nil, hrun, declared_lone, List.sum_cons, List.sum_nil, Nat.add_zero]
  rw [show s.updMe (fun x => x.begin (m.draw s).2) = s.opened m from rfl, hl]
  simp only [effects, List.foldl_cons, List.foldl_nil]
  rw [closing_wakeLater]
  rfl

/-- An op without flags, NI requests and draws, whose effect is an access of memory by any number of accesses and then a change of its
context, does what the change alone does from the package that the access leaves, but for the cycles of its bank conflicts. -/
theorem issueOne_accesses {s : State} {i : Instr} {m : Sem} {o : Out} {g : Ctx → Ctx} {F : State → State} (hF : Access F)
    (h : Instr.plain i) (hl : Instr.light i) (hr : s.Ready i) (htag : m.tags s = none) (hslots : m.slots s = [])
    (hstall : ∀ a, m.stall s a = false ∧ m.waits s a = false) (hni : m.ni s = 0) (hpops : m.pops s = .no)
    (hrun : m.run s (s.lone i (m.draw s).1) = o) (htrap : o.trap = none) (hflags : o.flags = [])
    (ha : ∀ a ∈ o.accs, AccPasses s a) (ho : o.eff { s := s.opened m } = { s := (F (s.opened m)).updMe g }) :
    ∃ n, issueOne m i s = issueOne (localSem (m.charge s) (fun c => (g c).wakeLater n)) i (F s) := by
  refine ⟨s.extraCycles [(s.lone i (m.draw s).1, o)], ?_⟩
  rw [issueOne_judged h hr (judge_accesses h hl hr htag hslots hstall hni hrun htrap hflags ha) hrun]
  generalize s.extraCycles [(s.lone i (m.draw s).1, o)] = n
  let o' : Out := { eff := fun L => (o.eff L).wakeLater n }
  let m' : Sem := { m with run := fun _ _ => o' }
  have hp : s.Passes i m' o' := passes_plain s hl htag hslots hstall hni rfl rfl rfl rfl
  have ho' : o'.eff { s := s.opened m' } = { s := (F (s.opened m')).updMe (fun c => (g c).wakeLater n) } := by
    change (o.eff { s := s.opened m }).wakeLater n = _
    rw [ho]
    exact congrArg (Live.mk · none) (State.updMe_updMe _ _ _)
  have heq := issueOne_access (m := m') hF h hl hr hp hpops hni rfl ho'
  rw [issueOne_next s i m' o' h hr hp] at heq
  refine Eq.trans ?_ heq
  unfold State.closed
  rw [hflags]
  rfl

end Sys2Proof.Machine
end

