-- ==== Sys2Proof/Proofs/VectorMemory.lean ====
section
/-! PROOFS. The vector loads and stores: the elements of their active lanes, at the addresses of their form (R166, R172 to R174,
R178, R179). -/

namespace Sys2Proof.Machine

open Sys2Proof.Claim

/-! ### Results that wait for bank conflicts -/

theorem wakeLater_asAt {c d : Ctx} (n : Nat) (h : c.AsAt d) : c.AsAt (d.wakeLater n) := by
  obtain ⟨hret, hcy, hfp, hst⟩ := h
  exact ⟨congrArg (Ctx.wakeLater n) hret, hcy, hfp, hst⟩

/-- A vector result changes the queues and the registers of its context alone. -/
theorem resultV_record (c : Ctx) (w : Bool) (r : DReg) (v : VVal) :
    c.resultV w r v = { c with q := (c.resultV w r v).q, files := (c.resultV w r v).files } := by
  unfold Ctx.resultV Ctx.pushV
  cases w
  · simp only [Bool.false_eq_true, if_false]; split <;> rfl
  · simp only [if_true]; cases r <;> simp only [Ctx.writeV] <;> split <;> rfl

theorem resultV_asAt {c d : Ctx} (w : Bool) (r : DReg) (v : VVal) (h : c.AsAt d) : c.AsAt (d.resultV w r v) := by
  obtain ⟨hret, hcy, hfp, hst⟩ := h
  refine ⟨?_, by simpa using hcy, by simpa using hfp, by simpa using hst⟩
  have hd := resultV_record d w r v
  generalize d.resultV w r v = e at hd ⊢
  unfold Ctx.Retired at hret ⊢
  exact hd.trans ((congrArg (fun x : Ctx => { x with q := e.q, files := e.files }) hret).trans (by rw [hd]))

theorem stored_asAt {c d : Ctx} (es : List StoreEnt) (h : c.AsAt d) : (stored c es).AsAt (stored d es) := by
  obtain ⟨hret, hcy, hfp, hst⟩ := h
  exact ⟨congrArg (stored · es) hret, hcy, hfp, hst⟩

section
variable (s : State) (i : Instr) (h : Instr.plain i) (hl : Instr.light i) (hr : s.Ready i) (charge n : Nat)
include h hl hr

theorem issueOne_vectorLater (w : Bool) (d : DReg) (v : VVal) :
    ∃ t, issueOne (localSem charge (fun c => (c.resultV w d v).wakeLater n)) i s = .next t ∧ VectorDone s t i w d v 0 := by
  obtain ⟨t, ht, hsteps, hq, hf, hrng, -⟩ := issueOne_stepsTo s i _ _ _ none s.me h hl hr
    (passes_localSem s hl charge (fun c => (c.resultV w d v).wakeLater n)) rfl
    (wakeLater_asAt n (resultV_asAt w d v (Ctx.begin_asAt s.me _)))
  refine ⟨t, ht, hsteps, hrng.trans ?_, ?_, ?_⟩
  · change ((s.me.begin _).resultV w d v).csr.rngseed = _
    rw [Ctx.resultV_csr, Ctx.begin_csr]
    rfl
  · exact vectorPushed_of s t (s.me.begin _) v (by simp) (by simp) (hq.trans (resultV_q _ _ _ _))
  · exact vectorWritten_of s t (s.me.begin _) w d v (by simp) (hf.trans (resultV_files _ _ _ _))

theorem issueOne_storedLater (es : List StoreEnt) :
    ∃ t, issueOne (localSem charge (fun c => (stored c es).wakeLater n)) i s = .next t ∧ RegsKept s.me t ∧
      StepsAs s (stored s.me es) t i 0 := by
  obtain ⟨t, ht, hregs, hsteps, -⟩ := issueOne_kept s i _ _ _ (stored s.me es) h hl hr
    (passes_localSem s hl charge (fun c => (stored c es).wakeLater n)) rfl
    (wakeLater_asAt n (stored_asAt es (Ctx.begin_asAt s.me _))) rfl rfl (fun _ => ⟨rfl, rfl, rfl⟩)
  exact ⟨t, ht, hregs, hsteps⟩

end

/-! ### Element accesses -/

theorem access_beforeLoad (a : Acc1) : Access (State.beforeLoad · a) := (access_touched a).comp (access_performedFor a)

theorem load_read (s : State) (a : Acc1) :
    s.load a = (s.beforeLoad a, leNat (readBytes (s.beforeLoad a) a false), readBad (s.beforeLoad a) a false) := rfl

theorem load_updMe {h : Ctx → Ctx} (hh : QueueBlind h) (s : State) (a : Acc1) :
    (s.updMe h).load a = ((s.load a).1.updMe h, (s.load a).2) := by
  rw [load_read, load_read, (access_beforeLoad a).upd s h hh, readBytes_updMe hh, readBad_updMe hh]

theorem loadElems_cons (n : Nat) (e : Nat × Word) (l : List (Nat × Word)) (s : State) :
    State.loadElems n (e :: l) s =
      let r := s.load { lane := e.1, va := e.2, n := n, kind := 0 }
      let q := State.loadElems n l r.1
      (q.1, (e.1, r.2.1) :: q.2.1, if r.2.2 then some e.2 else q.2.2) := rfl

theorem loadElems_updMe {h : Ctx → Ctx} (hh : QueueBlind h) (n : Nat) (els : List (Nat × Word)) (s : State) :
    State.loadElems n els (s.updMe h) = ((State.loadElems n els s).1.updMe h, (State.loadElems n els s).2) := by
  induction els generalizing s with
  | nil => rfl
  | cons e els ih =>
    rw [loadElems_cons, loadElems_cons, load_updMe hh]
    dsimp only
    rw [ih]

theorem access_loadElems (n : Nat) (els : List (Nat × Word)) : Access (fun s => (State.loadElems n els s).1) where
  reaches s := by
    induction els generalizing s with
    | nil => exact access_id.reaches s
    | cons e els ih => exact ((access_beforeLoad _).reaches s).trans (ih _)
  upd s h hh := congrArg Prod.fst (loadElems_updMe hh n els s)

/-- The elements of a load as its op finds them: the implicit MARK first. -/
def State.elemsLoaded (n : Nat) (els : List (Nat × Word)) (s : State) : State × List (Nat × Nat) × Option Word :=
  State.loadElems n els (s.implicitMark true)

theorem access_elemsLoaded (n : Nat) (els : List (Nat × Word)) : Access (fun s => (s.elemsLoaded n els).1) :=
  (access_implicitMark true).comp (access_loadElems n els)

theorem elemsLoaded_opened (n : Nat) (els : List (Nat × Word)) (s : State) (m : Sem) :
    ((s.opened m).elemsLoaded n els).2 = (s.elemsLoaded n els).2 := by
  unfold State.opened State.elemsLoaded
  rw [(access_implicitMark true).upd s _ (queueBlind_begin _), loadElems_updMe (queueBlind_begin _)]

/-- The walks of the elements of a store. -/
def State.touchedAll (n : Nat) (els : List (Nat × Word)) (s : State) : State :=
  els.foldl (fun x e => x.touched { lane := e.1, va := e.2, n := n, kind := 1 }) s

theorem access_touchedAll (n : Nat) (els : List (Nat × Word)) : Access (State.touchedAll n els) := by
  induction els with
  | nil => exact access_id
  | cons e els ih => exact (access_touched _).comp ih

theorem access_walked (n : Nat) (els : List (Nat × Word)) : Access (fun s => walked s n 1 els) :=
  (access_implicitMark false).comp (access_touchedAll n els)

/-! ### Addresses -/

theorem vdisp_eq (f : MemF) : vdisp f = (f.disp.extractLsb' 0 18).signExtend 64 := by
  unfold vdisp
  rw [BitVec.setWidth_eq_extractLsb' (by decide)]

theorem vaddr_eq (f : MemF) (k : VAddr) (n : Nat) (s : State) (j : Nat) : vaddr f k n s j = elemAddr f k n s j := by
  have hones (x : BitVec 32) : x.toNat = 0xFFFFFFFF ↔ x = BitVec.allOnes 32 := by
    rw [← BitVec.toNat_inj]
    rfl
  unfold vaddr elemAddr
  rw [vdisp_eq]
  cases k with
  | contiguous => rfl
  | strided => rfl
  | indexed =>
    dsimp only
    rw [laneAt_eq]
    exact if_congr (or_congr Iff.rfl (hones _)) rfl rfl

theorem velems_eq (f : MemF) (k : VAddr) (t : Tag) (s : State) : velems f k t s = Claim.elems f k t s := by
  unfold velems Claim.elems
  simp only [vaddr_eq]
  rfl

theorem vaccs_eq (k : VAddr) (n kind : Nat) (els : List (Nat × Word)) (s : State) :
    vaccs k n kind els s = elemAccs k n kind els s := rfl

/-! ### Tag checks -/

theorem rdV_tag {o : Operand} (ho : isSpecial o = false) (s : State) (t u : Tag) : (s.rdV t o).tag = (s.rdV u o).tag := by
  cases o <;> first | rfl | cases ho

theorem uncheckedTag_eq {o : Operand} (ho : isSpecial o = false) (t : Tag) : uncheckedTag o t = t := by
  cases o <;> first | rfl | cases ho

/-- A vector source whose tag is the one required passes. -/
theorem tagFail_vec {s : State} {t u : Tag} {o : Operand} {n : Nat}
    (h : isSpecial o = false ∨ n = 3 → uncheckedTag o (s.rdV t o).tag = u) : s.tagFail t [u] u ⟨n, o, true⟩ = none := by
  unfold State.tagFail
  by_cases hsp : isSpecial o = true ∧ n ≠ 3
  · rw [if_pos (by simpa using hsp)]
  · have hu := h (by by_cases ho : isSpecial o = true <;> simp_all)
    rw [if_neg (by simpa using hsp)]
    simp [hu]

theorem idxTags_none {f : MemF} {s : State} (h : IndexOk s f .indexed) : idxTags f s = none :=
  tagFail_vec fun ho => by
    obtain ho | ho := ho
    · rw [uncheckedTag_eq ho, rdV_tag ho s _ .int64]
      exact h rfl ho
    · cases ho

theorem vstTags_none {f : MemF} {s : State} {o : Operand} {n : Nat}
    (h : isSpecial o = false ∨ n = 3 → memT f ≠ 15 → uncheckedTag o (s.rdV (vmemOpTag f) o).tag = tagOf (memT f)) :
    vstTags f ⟨n, o, true⟩ s = none := by
  unfold vstTags
  by_cases ht : memT f = 15
  · exact if_pos ht
  · rw [if_neg ht]
    exact tagFail_vec fun ho => h ho ht

/-! ### The loads of elements (R172 to R174) -/

/-- The value of loaded elements with what their loading found. -/
def loadedV (k : VAddr) (t : Tag) (els : List (Nat × Word)) (q : List (Nat × Nat) × Option Word) : VVal :=
  vloaded t q.1 (if q.2.isSome then (if k == .contiguous then els.head?.map (·.2) else q.2) else none)

theorem lane_vloaded {t : Tag} {l : List (Nat × Nat)} {p : Option Word} {j : Nat} (hj : j < 2048 / tagWidth t) :
    lane (tagWidth t) (vloaded t l p).v j = loadedLane l (tagWidth t) j := by
  unfold vloaded loadedLane
  refine (lane_packLanes_range _ hj (laneCount_le _)).trans ?_
  cases l.find? (fun e => e.1 == j) <;> rfl

theorem poison_loadedV (k : VAddr) (t : Tag) (els : List (Nat × Word)) (q : List (Nat × Nat) × Option Word) :
    (loadedV k t els q).poison =
      if q.2.isSome then (if k = .contiguous then els.head?.map (·.2) else q.2) else none := by
  simp only [loadedV, vloaded, beq_iff_eq]

section
variable {f : MemF} {s : State} {i : Instr} {k : VAddr} {tags : State → Option TagFail} (hi : MemOp i) (hr : s.Ready i)
  (htags : tags s = none)
include hi hr htags

section
variable (hexec : exec i s = issueOne (semVLoad f i k tags) i s)
include hexec

theorem vload_completes
    (ha : ∀ a ∈ elemAccs k (tagWidth (tagOf (memT f)) / 8) 0 (Claim.elems f k (tagOf (memT f)) s) s, AccPasses s a) :
    ∃ t, exec i s = .next t ∧
      let els := Claim.elems f k (tagOf (memT f)) s
      let r := State.loadElems (tagWidth (tagOf (memT f)) / 8) els (s.implicitMark true)
      VectorDone r.1 t i f.w f.d (loadedV k (tagOf (memT f)) els r.2) 0 := by
  rw [← velems_eq] at ha ⊢
  generalize hels : velems f k (tagOf (memT f)) s = els at ha
  have hF := access_elemsLoaded (tagWidth (tagOf (memT f)) / 8) els
  have ho : ((semVLoad f i k tags).run s (s.lone i 0)).eff { s := s.opened (semVLoad f i k tags) } =
      { s := ((s.opened (semVLoad f i k tags)).elemsLoaded (tagWidth (tagOf (memT f)) / 8) els).1.updMe (fun c =>
          c.resultV f.w f.d (loadedV k (tagOf (memT f)) els (s.elemsLoaded (tagWidth (tagOf (memT f)) / 8) els).2)) } := by
    rw [← elemsLoaded_opened _ els s (semVLoad f i k tags), ← hels]
    rfl
  obtain ⟨n, hn⟩ := issueOne_accesses (m := semVLoad f i k tags) hF hi.plain hi.light hr htags rfl (fun _ => ⟨rfl, rfl⟩) rfl rfl rfl
    rfl rfl (by rw [← hels] at ha; exact ha) ho
  rw [hexec, hn]
  exact issueOne_vectorLater _ i hi.plain hi.light ((hF.reaches s).ready hr) _ n _ _ _

theorem vload_traps : AccessTraps s i
    (elemAccs k (tagWidth (tagOf (memT f)) / 8) 0 (Claim.elems f k (tagOf (memT f)) s) s) := by
  rw [← velems_eq]
  exact accessTraps_of hexec hi.plain hi.light hi.words hr htags rfl (fun _ => rfl) rfl rfl rfl

end

end

/-- A load of the table is a load of elements, whose index vector is checked (R173, R174). -/
theorem vload_of_mem : ∀ p ∈ vloads, ∀ (f : MemF) (s : State), IndexOk s f p.2 → MemOp (p.1 f) ∧
    ∃ tags, tags s = none ∧ exec (p.1 f) s = issueOne (semVLoad f (p.1 f) p.2 tags) (p.1 f) s := by
  simp only [vloads, List.forall_mem_cons, List.not_mem_nil, false_implies, implies_true, and_true]
  exact ⟨fun _ _ _ => ⟨memOp_of rfl ⟨rfl, rfl, rfl, rfl⟩ rfl, _, rfl, rfl⟩,
    fun _ _ _ => ⟨memOp_of rfl ⟨rfl, rfl, rfl, rfl⟩ rfl, _, rfl, rfl⟩,
    fun _ _ h => ⟨memOp_of rfl ⟨rfl, rfl, rfl, rfl⟩ rfl, _, idxTags_none h, rfl⟩⟩

/-! ### The broadcast load (R173) -/

/-- The access of VLDB. -/
def bcastAcc (f : MemF) (s : State) : Acc1 :=
  { lane := 0, va := s.val f.a + (f.disp.extractLsb' 0 18).signExtend 64, n := tagWidth (tagOf (memT f)) / 8, kind := 0 }

/-- The element of VLDB in its active lanes. -/
def bcastV (f : MemF) (s : State) (x : Nat × Bool) : VVal :=
  { v := packLanes (tagWidth (tagOf (memT f))) ((s.laneMask f.g (laneCount (tagWidth (tagOf (memT f))))).map
      (fun b => if b then x.1 else 0))
    tag := tagOf (memT f), poison := if x.2 then some (bcastAcc f s).va else none }

theorem lane_bcastV {f : MemF} (s : State) (x : Nat × Bool) {j : Nat} (hj : j < 2048 / tagWidth (tagOf (memT f))) :
    lane (tagWidth (tagOf (memT f))) (bcastV f s x).v j =
      if s.me.guardBit f.g j then BitVec.ofNat _ x.1 else 0 := by
  unfold bcastV State.laneMask
  dsimp only
  rw [List.map_map]
  refine (lane_packLanes_range _ hj (laneCount_le _)).trans ?_
  exact apply_ite (BitVec.ofNat _) _ _ _

/-- What VLDB would do with some lane active. -/
def bcastOut (f : MemF) (s : State) : Out :=
  { accs := [bcastAcc f s]
    eff := Live.st (fun l =>
      let r := (l.implicitMark true).load (bcastAcc f s)
      r.1.updMe (fun c => c.resultV f.w f.d (bcastV f s r.2))) }

section
variable {f : MemF} {s : State}

theorem vldb_run_active (h : ∃ j < 2048 / tagWidth (tagOf (memT f)), s.me.guardBit f.g j = true) (x : At) :
    (semVldb f).run s x = bcastOut f s := by
  have hacc : vldbAcc f s = some (bcastAcc f s) := by
    unfold vldbAcc bcastAcc
    rw [vdisp_eq]
    exact if_pos ((any_laneMask s f.g _).mpr h)
  simp only [semVldb, hacc]
  rfl

theorem vldb_run_idle (h : ¬ ∃ j < 2048 / tagWidth (tagOf (memT f)), s.me.guardBit f.g j = true) (x : At) :
    (semVldb f).run s x = { eff := Live.me (fun c => c.resultV f.w f.d { v := 0, tag := tagOf (memT f) }) } := by
  have hacc : vldbAcc f s = none := if_neg (fun hany => h ((any_laneMask s f.g _).mp hany))
  simp only [semVldb, hacc]

variable (hr : s.Ready (.vldb f))
include hr

theorem vldb_completes (h : ∃ j < 2048 / tagWidth (tagOf (memT f)), s.me.guardBit f.g j = true) (ha : AccPasses s (bcastAcc f s)) :
    ∃ t, exec (.vldb f) s = .next t ∧
      let s0 := accessed s true (bcastAcc f s)
      VectorDone s0 t (.vldb f) f.w f.d
        (bcastV f s (leNat (readBytes s0 (bcastAcc f s) false), readBad s0 (bcastAcc f s) false)) 0 := by
  have hi : MemOp (.vldb f) := memOp_of rfl ⟨rfl, rfl, rfl, rfl⟩ rfl
  have hF := access_accessed true (bcastAcc f s)
  have ho : (bcastOut f s).eff { s := s.opened (semVldb f) } =
      { s := (accessed (s.opened (semVldb f)) true (bcastAcc f s)).updMe (fun c => c.resultV f.w f.d
          (bcastV f s (leNat (readBytes (accessed s true (bcastAcc f s)) (bcastAcc f s) false),
            readBad (accessed s true (bcastAcc f s)) (bcastAcc f s) false))) } := by
    have hopen : accessed (s.opened (semVldb f)) true (bcastAcc f s) = (accessed s true (bcastAcc f s)).updMe (·.begin s.me.csr.rngseed) :=
      hF.upd s _ (queueBlind_begin _)
    rw [← readBytes_updMe (queueBlind_begin s.me.csr.rngseed), ← readBad_updMe (queueBlind_begin s.me.csr.rngseed), ← hopen,
      accessed_load]
    rfl
  obtain ⟨n, hn⟩ := issueOne_accesses hF hi.plain hi.light hr rfl rfl (fun _ => ⟨rfl, rfl⟩) rfl rfl (vldb_run_active h _) rfl rfl
    (List.forall_mem_singleton.mpr ha) ho
  have hexec : exec (.vldb f) s = issueOne (semVldb f) (.vldb f) s := rfl
  rw [hexec, hn]
  exact issueOne_vectorLater _ _ hi.plain hi.light ((hF.reaches s).ready hr) _ n _ _ _

theorem vldb_traps (h : ∃ j < 2048 / tagWidth (tagOf (memT f)), s.me.guardBit f.g j = true) :
    AccessTraps s (.vldb f) [bcastAcc f s] := by
  have hi : MemOp (.vldb f) := memOp_of rfl ⟨rfl, rfl, rfl, rfl⟩ rfl
  exact accessTraps_of (m := semVldb f) rfl hi.plain hi.light hi.words hr rfl rfl (fun _ => rfl) rfl
    (by rw [vldb_run_active h]; rfl) (by rw [vldb_run_active h]; rfl)

theorem vldb_idle (h : ¬ ∃ j < 2048 / tagWidth (tagOf (memT f)), s.me.guardBit f.g j = true) :
    ∃ t, exec (.vldb f) s = .next t ∧ VectorDone s t (.vldb f) f.w f.d { v := 0, tag := tagOf (memT f) } 0 := by
  have hi : MemOp (.vldb f) := memOp_of rfl ⟨rfl, rfl, rfl, rfl⟩ rfl
  exact issueOne_vector s _ (semVldb f) _ f.w f.d _ hi.plain hi.light hr
    (passes_plain s hi.light rfl rfl (fun _ => ⟨rfl, rfl⟩) rfl (vldb_run_idle h _) rfl rfl rfl) (local_me rfl)

end

theorem vectorLoads : VectorLoads := by
  refine ⟨fun p hp f s hr hidx => ?_, fun f s hr => ?_⟩
  · obtain ⟨hi, tags, htags, hexec⟩ := vload_of_mem p hp f s hidx
    refine ⟨fun ha => ?_, vload_traps hi hr htags hexec⟩
    obtain ⟨t, ht, hdone⟩ := vload_completes hi hr htags hexec ha
    exact ⟨t, _, ht, hdone, rfl, poison_loadedV .., fun j hj => lane_vloaded hj⟩
  · dsimp only
    split
    next h =>
      refine ⟨fun ha => ?_, vldb_traps hr h⟩
      obtain ⟨t, ht, hdone⟩ := vldb_completes hr h ha
      exact ⟨t, _, ht, hdone, rfl, rfl, fun j hj => lane_bcastV s _ hj⟩
    next h => exact vldb_idle hr h

/-! ### Elements in the store queue (R166, R172 to R174) -/

theorem leBytes_map_extract (n : Nat) {w : Nat} (v : BitVec w) :
    leBytes n v.toNat = (List.range n).map (fun k => v.extractLsb' (8 * k) 8) :=
  List.ext_getElem (by simp [leBytes_length]) fun k hk _ => by
    rw [← List.getD_eq_getElem _ 0 hk, leBytes_extract v 0 (by rwa [leBytes_length] at hk)]
    simp

theorem cellsAt_eq (s : State) (n : Nat) (data : VWord) (e : Nat × Word) :
    s.cellsAt e.2 n (laneAt (8 * n) data e.1) = elemCells s n data e := by
  unfold State.cellsAt elemCells
  rw [laneAt_eq, leBytes_map_extract]

theorem elemCells_updMe {h : Ctx → Ctx} (hh : QueueBlind h) (s : State) (n : Nat) (data : VWord) :
    elemCells (s.updMe h) n data = elemCells s n data := by
  funext e
  have hlocs := myLocs_updMe hh s { lane := e.1, va := e.2, n := n, kind := 1 } true
  unfold elemCells
  rw [State.updMe_cur]
  exact congrArg (List.zip · _) hlocs

/-- The entries of the stores of elements: one for each, or one for all where there are any. -/
def storesOf (each : Bool) (cells : List (List (Loc × Byte))) : List StoreEnt :=
  if each then cells.map .store else if cells = [] then [] else [.store cells.flatten]

theorem enqueue_updMe (s : State) (h : Ctx → Ctx) (e : StoreEnt) : (s.updMe h).enqueue e = s.updMe (fun c => stored (h c) [e]) :=
  State.updMe_updMe _ _ _

theorem stored_nil (c : Ctx) : stored c [] = c := by
  unfold stored
  rw [List.append_nil]

theorem stored_stored (c : Ctx) (xs ys : List StoreEnt) : stored (stored c xs) ys = stored c (xs ++ ys) := by
  unfold stored
  rw [List.append_assoc]

theorem enqueueAll_updMe (cells : List (List (Loc × Byte))) (s : State) (h : Ctx → Ctx) :
    cells.foldl (fun u c => u.enqueue (.store c)) (s.updMe h) = s.updMe (fun c => stored (h c) (cells.map .store)) := by
  induction cells generalizing h with
  | nil => exact congrArg s.updMe (funext fun c => (stored_nil _).symm)
  | cons x cells ih =>
    rw [List.foldl_cons, enqueue_updMe, ih]
    exact congrArg s.updMe (funext fun c => stored_stored ..)

/-- The stores of elements: their walks, then their entries in the queue. -/
theorem storeElems_updMe {h : Ctx → Ctx} (hh : QueueBlind h) (s : State) (each : Bool) (n : Nat) (data : VWord)
    (els : List (Nat × Word)) : (s.updMe h).storeElems each n data els =
      (s.touchedAll n els).updMe (fun c => stored (h c) (storesOf each (els.map (elemCells (s.touchedAll n els) n data)))) := by
  have hwalk : els.foldl (fun x e => x.touchAcc x.cur.core x.myTask { lane := e.1, va := e.2, n := n, kind := 1 }) (s.updMe h) =
      (s.touchedAll n els).updMe h := (access_touchedAll n els).upd s h hh
  unfold State.storeElems
  simp only [hwalk, cellsAt_eq, elemCells_updMe hh]
  generalize s.touchedAll n els = u
  generalize hcells : els.map (fun e => elemCells u n data e) = cells
  unfold storesOf
  cases each with
  | true => exact enqueueAll_updMe cells u h
  | false =>
    cases cells with
    | nil => exact congrArg u.updMe (funext fun c => (stored_nil _).symm)
    | cons x cells => exact enqueue_updMe u h _

/-! ### The stores of elements -/

section
variable {f : MemF} {s : State} {i : Instr} {k : VAddr} {o : Operand} {tags : State → Option TagFail} (hi : MemOp i)
  (hr : s.Ready i) (htags : tags s = none) (hexec : exec i s = issueOne (semVStore f i k o tags) i s)
include hi hr htags hexec

theorem vstore_completes {t : Tag} (ht : vmemTag f (some o) s = t)
    (ha : ∀ a ∈ elemAccs k (tagWidth t / 8) 1 (Claim.elems f k t s) s, AccPasses s a) :
    ∃ u, exec i s = .next u ∧ RegsKept s.me u ∧
      let n := tagWidth t / 8
      let els := Claim.elems f k t s
      let s0 := walked s n 1 els
      StepsAs s0 (stored s0.me (storesOf (k == .indexed) (els.map (elemCells s0 n (vstData f o s).v)))) u i 0 := by
  have haccs : ((semVStore f i k o tags).run s (s.lone i 0)).accs = elemAccs k (tagWidth t / 8) 1 (Claim.elems f k t s) s := by
    rw [← velems_eq, ← ht]
    rfl
  have heff (L : Live) : ((semVStore f i k o tags).run s (s.lone i 0)).eff L = Live.st (fun l =>
      (l.implicitMark false).storeElems (k == .indexed) (tagWidth t / 8) (vstData f o s).v (Claim.elems f k t s)) L := by
    rw [← velems_eq, ← ht]
    rfl
  generalize Claim.elems f k t s = els at *
  generalize tagWidth t / 8 = n at *
  have hF := access_walked n els
  have hreach := hF.reaches s
  have ho : ((semVStore f i k o tags).run s (s.lone i 0)).eff { s := s.opened (semVStore f i k o tags) } =
      { s := (walked (s.opened (semVStore f i k o tags)) n 1 els).updMe (fun c =>
          stored c (storesOf (k == .indexed) (els.map (elemCells (walked s n 1 els) n (vstData f o s).v)))) } := by
    rw [heff]
    unfold State.opened Live.st
    dsimp only
    rw [hF.upd s _ (queueBlind_begin _), State.updMe_updMe, (access_implicitMark false).upd s _ (queueBlind_begin _)]
    exact congrArg (Live.mk · none) (storeElems_updMe (queueBlind_begin _) ..)
  obtain ⟨e, he⟩ := issueOne_accesses (m := semVStore f i k o tags) hF hi.plain hi.light hr htags rfl (fun _ => ⟨rfl, rfl⟩) rfl rfl
    rfl rfl rfl (haccs ▸ ha) ho
  rw [hexec, he]
  obtain ⟨u, hu, hregs, hsteps⟩ := issueOne_storedLater _ i hi.plain hi.light (hreach.ready hr) _ e _
  exact ⟨u, hu, hreach.regsKept hregs, hsteps⟩

theorem vstore_traps {t : Tag} (ht : vmemTag f (some o) s = t) :
    AccessTraps s i (elemAccs k (tagWidth t / 8) 1 (Claim.elems f k t s) s) := by
  rw [← velems_eq, ← ht]
  exact accessTraps_of hexec hi.plain hi.light hi.words hr htags rfl (fun _ => rfl) rfl rfl rfl

end

/-- A store of the table is a store of elements, whose index vector and data operand are checked (R172 to R174). -/
theorem vstore_of_mem : ∀ p ∈ vstores, ∀ (f : MemF) (s : State), IndexOk s f p.2.1 →
    (isSpecial (p.2.2 f) = false ∨ p.2.1 = .indexed → memT f ≠ 15 →
      uncheckedTag (p.2.2 f) (s.rdV (vmemOpTag f) (p.2.2 f)).tag = tagOf (memT f)) → MemOp (p.1 f) ∧
    ∃ tags, tags s = none ∧ exec (p.1 f) s = issueOne (semVStore f (p.1 f) p.2.1 (p.2.2 f) tags) (p.1 f) s := by
  have not3 {o : Operand} : isSpecial o = false ∨ 1 = 3 → isSpecial o = false := fun h => h.resolve_right (by decide)
  simp only [vstores, List.forall_mem_cons, List.not_mem_nil, false_implies, implies_true, and_true]
  refine ⟨fun f s _ h => ⟨memOp_of rfl ⟨rfl, rfl, rfl, rfl⟩ rfl, _, vstTags_none fun ho => h (.inl (not3 ho)), rfl⟩,
    fun f s _ h => ⟨memOp_of rfl ⟨rfl, rfl, rfl, rfl⟩ rfl, _, vstTags_none fun ho => h (.inl (not3 ho)), rfl⟩,
    fun f s hidx h => ⟨memOp_of rfl ⟨rfl, rfl, rfl, rfl⟩ rfl, _, ?_, rfl⟩⟩
  rw [idxTags_none hidx]
  exact vstTags_none fun _ => h (.inr trivial)

theorem vmemTag_eq (f : MemF) (o : Operand) (s : State) : vmemTag f (some o) s =
    if memT f = 15 then uncheckedTag o (s.rdV .int64 o).tag else tagOf (memT f) := by
  unfold vmemTag vstData vmemOpTag
  by_cases h : memT f = 15
  · simp only [if_pos h]
  · simp only [if_neg h]

theorem vstData_v (f : MemF) (o : Operand) (s : State) : (vstData f o s).v = (s.rdV (vmemOpTag f) o).v := by
  unfold vstData
  exact (apply_ite VVal.v _ _ _).trans (ite_self _)

theorem vectorStores : VectorStores := by
  intro p hp f s hr hidx hdata
  obtain ⟨hi, tags, htags, hexec⟩ := vstore_of_mem p hp f s hidx hdata
  have ht := vmemTag_eq f (p.2.2 f) s
  refine ⟨fun ha => ?_, vstore_traps hi hr htags hexec ht⟩
  obtain ⟨t, hnext, hregs, hsteps⟩ := vstore_completes hi hr htags hexec ht ha
  refine ⟨t, hnext, hregs, ?_⟩
  dsimp only at hsteps ⊢
  rw [vstData_v] at hsteps
  unfold storesOf at hsteps
  simpa only [beq_iff_eq, List.map_eq_nil_iff] using hsteps

/-- Settles O13: a vector access does what its result or its stores alone do, from the package its elements' accesses leave. -/
theorem vectorAccesses : Obligations.VectorAccesses := ⟨vectorLoads, vectorStores⟩

end Sys2Proof.Machine
end

