-- ==== Sys2Proof/Proofs/SoftwareTraps.lean ====
section
/-! PROOFS. BRK, TRAP and ERET (R196 to R198). -/

namespace Sys2Proof.Machine

open Sys2Proof.Claim

/-! ### BRK (R197) -/

/-- A breakpoint that no debugger receives and at which no displaced op stands is taken as any other trap (R197). -/
theorem brkTrap_takes {s : State} (t : Trap) (n : Nat) (hd : s.underDebug = false)
    (hp : s.myCore.displaced.any (fun d => d.off == s.me.pc.toNat) = false) :
    s.brkTrap t s.me.pc n = s.trapCycle.takeTrap t s.me.pc n := by
  have hhere : s.displacedHere s.me.pc = false := by unfold State.displacedHere; rw [hp, Bool.and_false]
  unfold State.brkTrap
  rw [hd, hhere]
  rfl

/-- A bundle of one op that traps with cause 0x50 enters the handler where its task is not under debug. -/
theorem issueOne_breaks {s : State} {i : Instr} {m : Sem} {t : Trap} (hs : CanTrap s) (hi : Instr.plain i)
    (hj : s.judge (s.lay (fun _ => m) (s.single i)) none = .trap t) (hk : t.kind = .P) (hb : t.cause = 0x50) (hslot : t.slot = 0)
    (hd : s.underDebug = false) (hp : s.myCore.displaced.any (fun d => d.off == s.me.pc.toNat) = false) :
    ∃ u, issueOne m i s = .next u ∧ Entered s u t.cause t.slot t.info0 t.info1 (wordsOf i) := by
  obtain ⟨hcore, hh, hbuf⟩ := hs
  have he := entered_takeTrap s t (wordsOf i) hh hk
  have hu : (s.trapCycle.takeTrap t s.me.pc (wordsOf i)).leaveBuf = s.trapCycle.takeTrap t s.me.pc (wordsOf i) := by
    obtain ⟨-, -, -, hcore⟩ := he.1
    exact leaveBuf_none _ ((congrArg CoreState.issueBuf hcore).trans hbuf)
  refine ⟨_, ?_, he⟩
  have htaken : (s.trapBundle (s.lay (fun _ => m) (s.single i)) (wordsOf i) t) = s.trapCycle.takeTrap t s.me.pc (wordsOf i) := by
    unfold State.trapBundle
    rw [State.unsleep_eq s hh.2.2, lay_lone s i m hi]
    simp only [hb, if_true, hslot]
    exact brkTrap_takes t (wordsOf i) hd hp
  unfold issueOne
  rw [if_neg (Nat.not_le.mpr hcore)]
  unfold State.issue State.issueLaid
  rw [show (s.single i).long = none from rfl, hj]
  dsimp only
  rw [show (s.single i).blen = wordsOf i from rfl, htaken, hu]

theorem brk_traps {f : SysF} {s : State} (hr : s.Ready (.brk f)) (ha : s.active f.g = true) (hh : Handles s)
    (hd : ∀ k, s.myTask = some k → k.debug = false) (hp : s.myCore.displaced.any (fun d => d.off == s.me.pc.toNat) = false) :
    ∃ t, exec (.brk f) s = .next t ∧ Entered s t 0x50 0 0 (f.imm.setWidth 64) 1 := by
  have hdebug : s.underDebug = false := by
    unfold State.underDebug
    cases hk : s.myTask with
    | none => rfl
    | some k => exact hd k hk
  have hj := judge_own (i := .brk f) (m := semBrk f) (x := ⟨0x50, 0, f.imm.setWidth 64⟩) (plain_of rfl) ⟨rfl, rfl, rfl, rfl⟩ hr
    rfl rfl (fun _ => rfl) rfl (if_pos ha)
  exact issueOne_breaks (State.canTrap_of_ready hr hh) (plain_of rfl) hj rfl rfl rfl hdebug hp

theorem brk_off {f : SysF} {s : State} (hr : s.Ready (.brk f)) (ha : s.active f.g = false) :
    ∃ t, exec (.brk f) s = .next t ∧ Steps s t (.brk f) 0 ∧ RegsKept s.me t := by
  have hl : Instr.light (.brk f) := ⟨rfl, rfl, rfl, rfl⟩
  have hp : s.Passes (.brk f) (semBrk f) ((semBrk f).out s (.brk f)) :=
    passes_light s _ _ _ hl rfl rfl (fun _ => ⟨rfl, rfl⟩) rfl rfl (if_neg (by rw [ha]; decide)) rfl (.inr (flagTrap_nil _))
  obtain ⟨t, ht, hkept, hst, -⟩ := issueOne_kept s (.brk f) (semBrk f) _ id s.me (plain_of rfl) hl hr hp
    (congrArg (Live.mk · none) (opened_updMe_id s _).symm) (Ctx.begin_asAt _ _) rfl rfl (fun _ => ⟨rfl, rfl, rfl⟩)
  exact ⟨t, ht, hst, hkept⟩

/-! ### TRAP (R196) -/

/-- A context with the software event of a TRAP pending before all others. -/
def pending (f : SysF) (s : State) (c : Ctx) : Ctx :=
  if s.active f.g then
    { c with pend := { soft := true, record := ⟨0x51, s.val f.a, f.imm.setWidth 64⟩ } :: c.pend } else c

theorem pending_asAt (f : SysF) (s : State) (w : Word) : (pending f s s.me).AsAt (pending f s (s.me.begin w)) := by
  obtain ⟨hret, hcy, hfp, hst⟩ := Ctx.begin_asAt s.me w
  unfold pending
  split
  · refine ⟨?_, hcy, hfp, hst⟩
    unfold Ctx.Retired at hret ⊢
    rw [hret]
  · exact ⟨hret, hcy, hfp, hst⟩

theorem trap_pends {f : SysF} {s : State} (hr : s.Ready (.trap f)) :
    ∃ t, exec (.trap f) s = .next t ∧ RegsKept s.me t ∧ StepsAs s (pending f s s.me) t (.trap f) 0 := by
  have hl : Instr.light (.trap f) := ⟨rfl, rfl, rfl, rfl⟩
  have hp : s.Passes (.trap f) (semTrap f) ((semTrap f).out s (.trap f)) :=
    passes_light s _ _ _ hl rfl rfl (fun _ => ⟨rfl, rfl⟩) rfl rfl rfl rfl (.inr (flagTrap_nil _))
  obtain ⟨t, ht, hkept, hst, -⟩ := issueOne_kept s (.trap f) (semTrap f) _ (pending f s) (pending f s s.me) (plain_of rfl) hl hr
    hp rfl (pending_asAt f s _) (by unfold pending; split <;> rfl) rfl (fun _ => by unfold pending; split <;> exact ⟨rfl, rfl, rfl⟩)
  exact ⟨t, ht, hkept, hst⟩

theorem softwareTraps : SoftwareTraps := by
  refine ⟨fun f s hr => ⟨brk_traps hr, brk_off hr⟩, fun f s hr => ?_⟩
  obtain ⟨t, ht, hkept, hst⟩ := trap_pends hr
  exact ⟨t, ht, hkept, hst⟩

/-! ### ERET (R198) -/

theorem light_eret (f : SysF) : Instr.light (.eret f) := ⟨rfl, rfl, rfl, rfl⟩

theorem eret_passes {f : SysF} {s : State} (hm : s.me.tr.hm = true) :
    s.Passes (.eret f) (semEret f) ((semEret f).out s (.eret f)) :=
  passes_light s _ _ _ (light_eret f) rfl rfl (fun _ => ⟨rfl, rfl⟩) rfl rfl (if_pos hm) rfl (.inl hm)

/-- A context that has left handler mode: nothing but the mode is restored (R198). -/
def Ctx.left (c : Ctx) : Ctx := { c with tr := { c.tr with hm := false } }

theorem eret_asAt (c : Ctx) (w : Word) : c.left.AsAt (c.begin w).eret := by
  refine ⟨?_, by simp [Ctx.left, Ctx.eret], by simp [Ctx.left, Ctx.eret], by simp [Ctx.left, Ctx.eret]⟩
  unfold Ctx.Retired Ctx.left Ctx.eret Ctx.begin
  split <;> rfl

theorem eret_returns {f : SysF} {s : State} (hr : s.Ready (.eret f)) (hm : s.me.tr.hm = true) (ha : s.active f.g = true) :
    ∃ t, exec (.eret f) s = .next t ∧ StepsTo s s.me.left t (s.me.tr.epc &&& 0xFFF8#16) 0 ∧
      t.me.q.sq = s.me.q.sq ∧ t.me.q.vq = s.me.q.vq ∧ (∀ r, t.me.q.hq.get r = none) ∧
      t.me.files = s.me.files ∧ t.me.csr.rngseed = s.me.csr.rngseed := by
  have ho : ((semEret f).out s (.eret f)).eff { s := s.opened (semEret f) } =
      { s := (s.opened (semEret f)).updMe Ctx.eret, next := some (alignPc s.me.tr.epc) } := if_pos ha
  obtain ⟨t, ht, hst, hq, hf, hrng, -⟩ := issueOne_stepsTo s (.eret f) (semEret f) _ Ctx.eret _ s.me.left (plain_of rfl)
    (light_eret f) hr (eret_passes hm) ho (eret_asAt _ _)
  refine ⟨t, ht, hst, ?_⟩
  rw [hq, hf, hrng]
  simp only [Ctx.eret, Ctx.begin_q, Ctx.begin_files, Ctx.begin_csr, true_and]
  exact ⟨fun r => Vector.getElem_replicate .., rfl⟩

theorem eret_off {f : SysF} {s : State} (hr : s.Ready (.eret f)) (hm : s.me.tr.hm = true) (ha : s.active f.g = false) :
    ∃ t, exec (.eret f) s = .next t ∧ Steps s t (.eret f) 0 ∧ RegsKept s.me t := by
  have ho : ((semEret f).out s (.eret f)).eff { s := s.opened (semEret f) } = { s := (s.opened (semEret f)).updMe id } := by
    rw [opened_updMe_id]
    exact if_neg (by rw [ha]; decide)
  obtain ⟨t, ht, hkept, hst, -⟩ := issueOne_kept s (.eret f) (semEret f) _ id s.me (plain_of rfl) (light_eret f) hr
    (eret_passes hm) ho (Ctx.begin_asAt _ _) rfl rfl (fun _ => ⟨rfl, rfl, rfl⟩)
  exact ⟨t, ht, hst, hkept⟩

/-- Outside handler mode an ERET traps, whatever its guard (R198). -/
theorem eret_traps {f : SysF} {s : State} (hr : s.Ready (.eret f)) (hh : Handles s) :
    ∃ t, exec (.eret f) s = .next t ∧ Entered s t 0x52 0 (encodeWord (.eret f)) 0 1 := by
  have hj := judge_own (i := .eret f) (m := semEret f) (x := ⟨0x52, encodeWord (.eret f), 0⟩) (plain_of rfl) (light_eret f) hr
    rfl rfl (fun _ => rfl) rfl (if_neg (by rw [hh.1]; decide))
  exact issueOne_traps s (.eret f) (semEret f) _ (State.canTrap_of_ready hr hh) hj rfl (show (0x52 : Nat) ≠ 0x50 by decide)

theorem handlerReturn : HandlerReturn := by
  refine ⟨fun f s hr hm => ?_, fun f s hr hh => eret_traps hr hh⟩
  cases ha : s.active f.g with
  | true => exact eret_returns hr hm ha
  | false => exact eret_off hr hm ha

/-- Settles O21: BRK and ERET fail their own check of group 2, TRAP and ERET change their context alone. -/
theorem trapOps : Obligations.TrapOps := ⟨softwareTraps, handlerReturn⟩

end Sys2Proof.Machine
end

