-- ==== Sys2Proof/Proofs/PackageRuns.lean ====
section
/-! PROOFS. Clusters, dies, tasks and cores of the package, changed one after the other. -/

namespace Sys2Proof.Machine

open Sys2Proof.Claim

/-! ### Clusters and dies -/

theorem cluster_updCluster_eq (s : State) (j k : Nat) (f : ClusterState → ClusterState) :
    (s.updCluster k f).cluster j = if j % 192 = k % 192 then f (s.cluster j) else s.cluster j := by
  split
  next h =>
    have hj : ∀ u : State, u.cluster j = u.cluster k := fun u => by
      unfold State.cluster
      rw [show Fin.ofNat 192 j = Fin.ofNat 192 k from Fin.ext h]
    rw [hj, hj, State.cluster_updCluster]
  next h => exact State.cluster_updCluster_other s f h

theorem die_updDie_eq (s : State) (j d : Nat) (f : DieState → DieState) :
    (s.updDie d f).die j = if j % 4 = d % 4 then f (s.die j) else s.die j := by
  unfold State.updDie State.die
  dsimp only
  rw [get_set]
  refine if_ctx_congr Fin.ext_iff (fun h => ?_) (fun _ => rfl)
  rw [show Fin.ofNat 4 j = Fin.ofNat 4 d from Fin.ext h]

/-! ### Tasks -/

theorem task_num {s : State} {n : Nat} {t : Task} (h : s.task n = some t) : t.num = n := by
  unfold State.task at h
  have hp := List.find?_some h
  exact beq_iff_eq.mp hp

/-- A change of one task that keeps its number, as the task of any number sees it. -/
theorem task_updTask (s : State) {n : Nat} {f : Task → Task} (hf : ∀ k, k.num = n → (f k).num = n) (m : Nat) :
    (s.updTask n f).task m = (s.task m).map (fun k => if k.num == n then f k else k) := by
  have hnum : ∀ k : Task, (if k.num == n then f k else k).num = k.num := fun k => by
    split
    next h => rw [hf k (beq_iff_eq.mp h), beq_iff_eq.mp h]
    next => rfl
  refine (List.find?_map ..).trans (congrArg (Option.map _) ?_)
  unfold State.task
  simp only [Function.comp_def, hnum]

theorem task_updTask_same {s : State} {n : Nat} {f : Task → Task} {t : Task} (hf : ∀ k, k.num = n → (f k).num = n)
    (h : s.task n = some t) : (s.updTask n f).task n = some (f t) := by
  rw [task_updTask s hf, h, Option.map_some, if_pos (beq_iff_eq.mpr (task_num h))]

theorem task_updTask_other {s : State} {m n : Nat} {f : Task → Task} (hf : ∀ k, k.num = n → (f k).num = n) (h : m ≠ n) :
    (s.updTask n f).task m = s.task m := by
  rw [task_updTask s hf]
  cases hm : s.task m with
  | none => rfl
  | some k => rw [Option.map_some, if_neg (by rw [task_num hm]; exact mt beq_iff_eq.mp h)]

theorem task_of_mem {s : State} {t : Task} (h : t ∈ s.fw.tasks) : ∃ k, s.task t.num = some k :=
  Option.isSome_iff_exists.mp (List.find?_isSome.mpr ⟨t, h, beq_self_eq_true _⟩)

theorem freePool_left (s : State) (e : Option Nat) : s.freePool e = { s with fw := (s.freePool e).fw } := by cases e <;> rfl
theorem freePool_task (s : State) (e : Option Nat) (n : Nat) : (s.freePool e).task n = s.task n := by cases e <;> rfl

/-! ### Cores changed in turn -/

/-- A run of changes of one core each, no core twice: every core is changed once, from what it was before the run. -/
theorem foldl_cores {α : Type} {f : State → α → State} {pos : α → Nat} {Q : State → Prop}
    {P : α → CoreState → CoreState → Prop}
    (hother : ∀ s a d, d ≠ pos a → (f s a).core d = s.core d) (hQ : ∀ s a, Q s → Q (f s a))
    (hsame : ∀ s a, Q s → P a (s.core (pos a)) ((f s a).core (pos a)))
    (l : List α) (hl : (l.map pos).Nodup) {s : State} (hs : Q s) :
    Q (l.foldl f s) ∧ (∀ a ∈ l, P a (s.core (pos a)) ((l.foldl f s).core (pos a))) ∧
      ∀ d, d ∉ l.map pos → (l.foldl f s).core d = s.core d := by
  induction l generalizing s with
  | nil => exact ⟨hs, fun a ha => absurd ha List.not_mem_nil, fun _ _ => rfl⟩
  | cons a l ih =>
    obtain ⟨ha, hl⟩ := List.nodup_cons.mp hl
    obtain ⟨hq, hin, hout⟩ := ih hl (hQ s a hs)
    refine ⟨hq, fun b hb => ?_, fun d hd => ?_⟩
    · rcases List.mem_cons.mp hb with rfl | hb
      · rw [List.foldl_cons, hout _ ha]
        exact hsame s b hs
      · have hne : pos b ≠ pos a := fun h => ha (h ▸ List.mem_map_of_mem hb)
        rw [← hother s a _ hne]
        exact hin b hb
    · obtain ⟨hda, hdl⟩ := not_or.mp (mt List.mem_cons.mpr hd)
      rw [List.foldl_cons, hout d hdl, hother s a d hda]

/-- One function applied to the cores of a list, which applied twice is applied once. -/
theorem core_updCores {g : CoreState → CoreState} (hg : ∀ x, g (g x) = g x) (l : List Nat) (s : State) (c : Nat) :
    (l.foldl (fun (s : State) d => s.updCore d g) s).core c = if c ∈ l then g (s.core c) else s.core c := by
  induction l generalizing s with
  | nil => rfl
  | cons d l ih =>
    rw [List.foldl_cons, ih]
    by_cases h : c = d
    · subst h
      rw [State.core_updCore, hg, ite_self, if_pos (List.mem_cons_self ..)]
    · rw [State.core_updCore_other s g h]
      exact if_congr (by simp [h]) rfl rfl

theorem updCores_left (g : CoreState → CoreState) (l : List Nat) (s : State) :
    l.foldl (fun (s : State) d => s.updCore d g) s =
      { s with cores := (l.foldl (fun (s : State) d => s.updCore d g) s).cores } := by
  induction l generalizing s with
  | nil => rfl
  | cons d l ih => rw [List.foldl_cons, ih]; rfl

/-! ### The start of a task (R358, R379) -/

theorem started_started (n : Nat) (x : CoreState) : (x.started n).started n = x.started n := by
  unfold CoreState.started
  split
  · rfl
  next => rfl

/-- The start of a task changes cores alone. -/
theorem startTask_left (s : State) (t : Task) : s.startTask t = { s with cores := (s.startTask t).cores } := by
  unfold State.startTask
  split
  · exact updCores_left ..
  · rfl

theorem startTask_core (s : State) (t : Task) (c : Nat) : (s.startTask t).core c =
    if t.cores.all s.isOn = true ∧ c ∈ t.cores then (s.core c).started t.num else s.core c := by
  unfold State.startTask
  by_cases h : t.cores.all s.isOn = true
  · rw [if_pos h, core_updCores (started_started t.num)]
    exact if_congr (by rw [and_iff_right h]) rfl rfl
  · rw [if_neg h, if_neg (fun hx => h hx.1)]

/-! ### The end of a binding (R338, R358) -/

/-- A run of cores that takes new stripes in some of them. -/
theorem findCore_restriped (b : Nat → Bool) (w : Vector Stripe 32) (l : List (Nat × CoreState)) (c : Nat) :
    ∃ v, findCore (l.map (fun p => if b p.1 then (p.1, { p.2 with stripes := w }) else p)) c =
      { findCore l c with stripes := v } := by
  induction l with
  | nil => exact ⟨_, rfl⟩
  | cons p l ih =>
    obtain ⟨k, x⟩ := p
    rw [List.map_cons]
    by_cases hk : k = c
    · cases hb : b k
      · exact ⟨x.stripes, by simp [findCore, hk]⟩
      · exact ⟨w, by simp [findCore, hk]⟩
    · obtain ⟨v, hv⟩ := ih
      refine ⟨v, ?_⟩
      cases hb : b k <;> simpa [findCore, hk, hb] using hv

@[simp] theorem State.unseal_core (s : State) (d c : Nat) : (s.unseal d).core c = s.core c := by
  unfold State.unseal; split <;> rfl
@[simp] theorem State.unseal_cur (s : State) (d : Nat) : (s.unseal d).cur = s.cur := by unfold State.unseal; split <;> rfl
@[simp] theorem State.unseal_fw (s : State) (d : Nat) : (s.unseal d).fw = s.fw := by unfold State.unseal; split <;> rfl

@[simp] theorem State.settleIdle_cur (s : State) (c : Nat) : (s.settleIdle c).cur = s.cur := by
  unfold State.settleIdle
  dsimp only
  split
  · exact State.unseal_cur _ _
  · exact State.unseal_cur _ _
@[simp] theorem State.settleIdle_fw (s : State) (c : Nat) : (s.settleIdle c).fw = s.fw := by
  unfold State.settleIdle
  dsimp only
  split
  · exact State.unseal_fw _ _
  · exact State.unseal_fw _ _

/-- Where a core was unbound, cores may lose power to their stripes and keep the rest. -/
theorem settleIdle_core (s : State) (d c : Nat) : ∃ v, (s.settleIdle d).core c = { s.core c with stripes := v } := by
  unfold State.settleIdle
  dsimp only
  split
  · exact ⟨(s.core c).stripes, State.unseal_core s _ c⟩
  · rw [← State.unseal_core s (dieOf d) c]
    exact findCore_restriped (fun k => clusterOf k == clusterOf d) (.replicate 32 {}) _ c

theorem settleIdle_myCore (s : State) (d : Nat) : ∃ v, (s.settleIdle d).myCore = { s.myCore with stripes := v } := by
  unfold State.myCore
  rw [State.settleIdle_cur]
  exact settleIdle_core s d _

@[simp] theorem State.noteFault_cur (s : State) (t n : Option Nat) : (s.noteFault t n).cur = s.cur := by
  unfold State.noteFault; split <;> rfl

/-! ### Banks that are freed (R296, R301, R307) -/

/-- The bank that is freed keeps its EXIT, and its context is reset; no other bank or context changes. -/
theorem freeBankAt_same (x : CoreState) (k : Nat) :
    (x.freeBankAt k).bank k = { exit := (x.bank k).exit } ∧ (x.freeBankAt k).ctx k = Ctx.reset := by
  refine ⟨(CoreState.bank_updBank _ _ _).trans rfl, ?_⟩
  exact CoreState.ctx_setCtx _ k Ctx.reset

theorem freeBankAt_ctx_other (x : CoreState) {j k : Nat} (h : j % 4 ≠ k % 4) : (x.freeBankAt k).ctx j = x.ctx j :=
  CoreState.ctx_setCtx_other _ Ctx.reset h

theorem freeBankAt_bank_other (x : CoreState) {j k : Nat} (h : j % 3 ≠ k % 3) : (x.freeBankAt k).bank j = x.bank j :=
  bank_updBank_other _ _ h

end Sys2Proof.Machine
end

