-- ==== Sys2Proof/Proofs/TaskBinds.lean ====
section
/-! PROOFS. The bind of a task on its cores (R240, R241, R338, R358, R375 to R381, R389). -/

namespace Sys2Proof.Machine

open Sys2Proof.Claim

/-! ### One core (R240, R241, R380) -/

/-- A core as a bind leaves it, its code apart: `b` is the start of its owner, `now` the master cycle. -/
def CoreState.boundAt (x : CoreState) (t : Task) (img : Image) (b : Start) (eff copy now : Nat) : CoreState :=
  x.turnedOn (({ x with copyBud := copy }.fresh img t eff).setCtx 0 b.ctx) now

/-- Loading an overlay changes code, the records of what is resident, and planted breakpoints. -/
theorem loadOverlay_core (s : State) (c : Nat) (img : Image) (o : Overlay) : ∃ is rs ds,
    (s.loadOverlay c img o).core c = { s.core c with ispad := is, resid := rs, displaced := ds } := by
  unfold State.loadOverlay
  rw [State.core_updCore]
  split
  · exact ⟨_, _, _, rfl⟩
  · exact ⟨_, _, _, rfl⟩

/-- The core `y` that a bind of a task makes of core `c`, which was `x`. -/
def BoundFrom (t : Task) (img : Image) (now c : Nat) (x y : CoreState) : Prop :=
  ∃ (u : State) (eff copy : Nat) (is : Mem) (rs : List Resid) (ds : List Displaced),
    y = { x.boundAt t img (u.ownerStart t img c) eff copy now with ispad := is, resid := rs, displaced := ds }

theorem bindCore_core (s : State) (t : Task) (img : Image) (c : Nat) :
    BoundFrom t img s.master c (s.core c) ((s.bindCore t img c).core c) := by
  have hfresh := State.core_updCore s c (fun x => x.boundAt t img (s.ownerStart t img c) (s.bindEff c) (s.copyOf c) s.master)
  unfold State.bindCore
  dsimp only
  split
  next o _ =>
    obtain ⟨is, rs, ds, h⟩ := loadOverlay_core (s.updCore c (fun x =>
      x.boundAt t img (s.ownerStart t img c) (s.bindEff c) (s.copyOf c) s.master)) c img o
    rw [hfresh] at h
    exact ⟨s, s.bindEff c, s.copyOf c, is, rs, ds, h⟩
  next => exact ⟨s, s.bindEff c, s.copyOf c, _, _, _, hfresh⟩

/-- A bind on a core changes that core alone. -/
theorem bindCore_left (s : State) (t : Task) (img : Image) (c : Nat) :
    s.bindCore t img c = s.setCore c ((s.bindCore t img c).core c) := by
  unfold State.bindCore
  dsimp only
  split
  · unfold State.loadOverlay State.updCore
    simp only [State.core_setCore, State.setCore_setCore]
  · unfold State.updCore
    simp only [State.core_setCore]

theorem bindCore_core_other (s : State) (t : Task) (img : Image) {c d : Nat} (h : d ≠ c) :
    (s.bindCore t img c).core d = s.core d := by
  rw [bindCore_left]; exact State.core_setCore_other s _ h

/-- An owner starts with its launch words in g24 on (R381). -/
theorem start_arg (b : Start) {i : Nat} (h : i < 8) :
    b.ctx.files.g.get ⟨24 + i, by omega⟩ = (b.args[i]?.map (fun v => { v := v, tag := .int64 })).getD {} := by
  refine (Vector.getElem_ofFn (i := 24 + i) (by omega)).trans ?_
  dsimp only
  rw [if_pos (Nat.le_add_right 24 i), Nat.add_sub_cancel_left]
  cases b.args[i]? <;> rfl

/-- What a bind leaves on a core that has taken its STATE. -/
theorem boundOn_of {t : Task} {img : Image} {now c : Nat} {x y : CoreState} (h : BoundFrom t img now c x y) {u : State}
    {st : SlotSt} (hu : u.core c = { y with slot := { y.slot with st := st } }) : BoundOn u t img st c := by
  obtain ⟨v, eff, copy, is, rs, ds, rfl⟩ := h
  unfold BoundOn
  rw [hu]
  have hctx : ∀ k, CoreState.ctx { { x.boundAt t img (v.ownerStart t img c) eff copy now with
        ispad := is, resid := rs, displaced := ds } with
      slot := { (x.boundAt t img (v.ownerStart t img c) eff copy now).slot with st := st } } k =
      (({ x with copyBud := copy }.fresh img t eff).setCtx 0 (v.ownerStart t img c).ctx).ctx k := fun _ => rfl
  have howner := CoreState.ctx_setCtx ({ x with copyBud := copy }.fresh img t eff) 0 (v.ownerStart t img c).ctx
  dsimp only
  rw [hctx 0, howner]
  refine ⟨rfl, rfl, rfl, rfl, rfl, rfl, rfl, rfl, rfl, rfl, fun i hi => ?_, rfl, rfl, rfl, rfl, rfl, rfl, fun k hk => ⟨?_, ?_⟩,
    rfl, rfl, rfl, rfl⟩
  · rw [start_arg _ hi]
    change _ = some (((recArgs t.record)[i]?.map _).getD _) ∨ _
    cases (recArgs t.record)[i]? with
    | none => exact .inr rfl
    | some w => exact .inl rfl
  · exact Vector.getElem_replicate ..
  · rw [hctx k, CoreState.ctx_setCtx_other]
    · exact Vector.getElem_replicate ..
    · simp only [List.mem_cons, List.not_mem_nil, or_false] at hk
      omega

/-! ### The stripes that a bind turns on (R241, R358) -/

theorem any_zip_vectors {α : Type} {n : Nat} (v w : Vector α n) (p : α × α → Bool) :
    (v.toList.zip w.toList).any p = true ↔ ∃ i : Fin n, p (v.get i, w.get i) = true := by
  rw [List.any_eq_true]
  constructor
  · rintro ⟨a, ha, hp⟩
    obtain ⟨i, hi, rfl⟩ := List.mem_iff_getElem.mp ha
    have hn : i < n := by simpa using hi
    exact ⟨⟨i, hn⟩, by simpa [Vector.get_eq_getElem] using hp⟩
  · rintro ⟨i, hp⟩
    refine ⟨_, List.mem_iff_getElem.mpr ⟨i.val, by simp, rfl⟩, ?_⟩
    simpa [Vector.get_eq_getElem] using hp

/-- A core may be used at once where the bind turns on none of its stripes. -/
theorem BoundFrom.onAt {t : Task} {img : Image} {now c : Nat} {x y : CoreState} (h : BoundFrom t img now c x y) : y.onAt ≤ now ↔
    x.onAt ≤ now ∧ ¬ ∃ i : Fin 32, (x.stripes.get i).pw = .gated ∧ bindLit img c i.val = true := by
  obtain ⟨v, eff, copy, is, rs, ds, rfl⟩ := h
  have hlit : (x.stripes.toList.zip (img.stripesAt eff).toList).any (fun p => p.1.pw == .gated && p.2.pw != .gated) = true ↔
      ∃ i : Fin 32, (x.stripes.get i).pw = .gated ∧ bindLit img c i.val = true := by
    rw [any_zip_vectors]
    refine exists_congr fun i => ?_
    have hget : (img.stripesAt eff).get i = if i.val * 0x4000 < img.extent then ⟨.awake, eff⟩ else {} :=
      Vector.getElem_ofFn (i := i.val) i.isLt
    rw [hget, Bool.and_eq_true, beq_iff_eq, bindLit, decide_eq_true_eq, Nat.mul_comm]
    refine and_congr_right fun _ => ?_
    split
    next h => exact ⟨fun _ => h, fun _ => rfl⟩
    next h => exact ⟨fun hx => (Bool.false_ne_true hx).elim, fun hx => absurd hx h⟩
  have hon : (x.boundAt t img (v.ownerStart t img c) eff copy now).onAt =
      if (x.stripes.toList.zip (img.stripesAt eff).toList).any (fun p => p.1.pw == .gated && p.2.pw != .gated) = true
      then now + powerOnCycles else x.onAt := rfl
  rw [← hlit]
  dsimp only
  rw [hon]
  split
  next h => exact ⟨fun hx => absurd hx (by unfold powerOnCycles; omega), fun ⟨_, hx⟩ => absurd h hx⟩
  next h => exact (and_iff_left h).symm

theorem BoundFrom.slot {t : Task} {img : Image} {now c : Nat} {x y : CoreState} (h : BoundFrom t img now c x y) :
    y.slot.st = .bind ∧ y.slot.task = t.num := by
  obtain ⟨v, eff, copy, is, rs, ds, rfl⟩ := h
  exact ⟨rfl, rfl⟩

/-! ### Clusters turned on, dies sealed (R338, R358) -/

theorem powerUp_left (l : List Nat) (s : State) : s.powerUp l = { s with clusters := (s.powerUp l).clusters } := by
  unfold State.powerUp
  induction l generalizing s with
  | nil => rfl
  | cons c l ih => rw [List.foldl_cons, ih]; rfl

/-- A cluster is gated until its switches have ended their last stage. -/
theorem powerUp_gated (l : List Nat) (s : State) (k : Nat) : ((s.powerUp l).cluster k).gated = (s.cluster k).gated := by
  unfold State.powerUp
  induction l generalizing s with
  | nil => rfl
  | cons c l ih =>
    rw [List.foldl_cons, ih, cluster_updCluster_eq]
    split
    · split <;> rfl
    · rfl

theorem sealDies_left (l : List Nat) (s : State) : s.sealDies l = { s with dies := (s.sealDies l).dies } := by
  unfold State.sealDies
  induction l generalizing s with
  | nil => rfl
  | cons c l ih => rw [List.foldl_cons, ih]; rfl

theorem sealDies_sealed {l : List Nat} {s : State} {d : Nat} (h : (s.die d).sealed = true ∨ ∃ c ∈ l, dieOf c = d) :
    ((s.sealDies l).die d).sealed = true := by
  unfold State.sealDies
  induction l generalizing s with
  | nil => exact h.resolve_right (fun ⟨c, hc, _⟩ => List.not_mem_nil hc)
  | cons c l ih =>
    refine ih ?_
    rw [die_updDie_eq]
    split
    · exact .inl rfl
    next hne =>
      refine h.imp_right fun ⟨e, he, hd⟩ => ?_
      rcases List.mem_cons.mp he with rfl | he
      · exact absurd (congrArg (· % 4) hd.symm) hne
      · exact ⟨e, he, hd⟩

/-! ### The pool (R376, R377) -/

theorem passPool_left (s : State) (t : Task) : s.passPool t = { s with fw := (s.passPool t).fw } := by
  unfold State.passPool
  split
  · rfl
  · exact freePool_left s t.pool

/-- The task that takes the entry over is another. -/
theorem passPool_task (s : State) (t : Task) : (s.passPool t).task t.num = s.task t.num := by
  unfold State.passPool
  split
  next v e hv _ =>
    have hp := List.find?_some hv
    simp only [Bool.and_eq_true, bne_iff_ne] at hp
    exact task_updTask_other (fun _ h => h) (Ne.symm hp.2)
  · exact freePool_task ..

/-! ### The task -/

/-- A task as its bind records it (R377, R380, R389). -/
def Task.boundBy (t : Task) (b : BindInfo) : Task :=
  { t with
    st := .bound, cores := b.cores, ranges := b.ranges, root := b.root, privs := b.privs, ntile := 0, used := 0,
    reserved := recChildren t.record, drainAt := none, ckpt := false,
    rings := b.rings.map (fun r => { die := r.die, num := r.ring, base := r.base, log := r.log }) }

/-- The package once a task has left the pool. -/
def State.taken (s : State) (t : Task) (b : BindInfo) : State :=
  (s.updTask t.num (fun _ => { t.boundBy b with pool := none })).passPool t

/-- The package once the cores of a task were written. -/
def State.coresBound (s : State) (t : Task) (img : Image) (b : BindInfo) : State :=
  b.cores.foldl (fun (s : State) c => s.bindCore (t.boundBy b) img c) (s.taken t b)

theorem bindTask_eq (s : State) (t : Task) (img : Image) (b : BindInfo) :
    s.bindTask t img b = (((s.coresBound t img b).powerUp b.cores).sealDies b.cores).startTask (t.boundBy b) := rfl

theorem taken_left (s : State) (t : Task) (b : BindInfo) : s.taken t b = { s with fw := (s.taken t b).fw } := passPool_left _ t

theorem taken_task {s : State} {t : Task} (b : BindInfo) (h : t ∈ s.fw.tasks) :
    (s.taken t b).task t.num = some { t.boundBy b with pool := none } := by
  obtain ⟨k, hk⟩ := task_of_mem h
  exact (passPool_task _ t).trans (task_updTask_same (fun _ _ => rfl) hk)

/-- What writing the cores of a task does: each is bound, the rest of the package is left. -/
theorem coresBound_gives (s : State) (t : Task) (img : Image) (b : BindInfo) (hl : b.cores.Nodup) :
    s.coresBound t img b = { s.taken t b with cores := (s.coresBound t img b).cores } ∧
      (∀ c ∈ b.cores, BoundFrom (t.boundBy b) img s.master c (s.core c) ((s.coresBound t img b).core c)) ∧
      ∀ c, c ∉ b.cores → (s.coresBound t img b).core c = s.core c := by
  have hcore : ∀ c, (s.taken t b).core c = s.core c := fun c => by rw [taken_left]; rfl
  have h := foldl_cores (f := fun (s : State) c => s.bindCore (t.boundBy b) img c) (pos := id)
    (Q := fun u => u = { s.taken t b with cores := u.cores }) (P := BoundFrom (t.boundBy b) img s.master)
    (fun u c d hd => bindCore_core_other u _ img hd)
    (fun u c hu => by
      dsimp only
      rw [bindCore_left]
      unfold State.setCore
      rw [hu])
    (fun u c hu => by
      have hm : u.master = s.master := by rw [hu, taken_left]
      rw [← hm]
      exact bindCore_core u _ img c)
    b.cores (by rw [List.map_id]; exact hl) (s := s.taken t b) rfl
  simp only [List.map_id, id, hcore] at h
  exact h

/-- The STATE of a bind, by what is on (R358, R379). -/
theorem startState_eq (s : State) (l : List Nat) (lit : Nat → Nat → Bool) : startState s l lit =
    if ∀ c ∈ l, (s.cluster (c / 16)).gated = false ∧ (s.core c).onAt ≤ s.master ∧
      ¬ ∃ i : Fin 32, ((s.core c).stripes.get i).pw = .gated ∧ lit c i.val = true then .run else .bind := by
  unfold startState
  rw [← ite_not]
  refine if_congr ?_ rfl rfl
  simp only [not_exists, not_and, not_or, Bool.not_eq_true, not_lt]

/-- The package as the cores of a task start or wait to be on. -/
theorem bound_left (s : State) (t : Task) (img : Image) (b : BindInfo) :
    ((s.coresBound t img b).powerUp b.cores).sealDies b.cores =
    { s.coresBound t img b with
      clusters := ((s.coresBound t img b).powerUp b.cores).clusters,
      dies := (((s.coresBound t img b).powerUp b.cores).sealDies b.cores).dies } := by
  rw [sealDies_left, powerUp_left]

theorem bindTask_sealed (s : State) (t : Task) (img : Image) {b : BindInfo} {c : Nat} (hc : c ∈ b.cores) :
    ((s.bindTask t img b).die (c / 768)).sealed = true := by
  rw [bindTask_eq, startTask_left]
  exact sealDies_sealed (.inr ⟨c, hc, rfl⟩)

section
variable {s : State} {b : BindInfo} {t : Task} {img : Image} (hl : b.cores.Nodup)
include hl

/-- The cores of a task are on where no cluster and no stripe of theirs is turned on for it (R358). -/
theorem bound_allOn : (t.boundBy b).cores.all (((s.coresBound t img b).powerUp b.cores).sealDies b.cores).isOn = true ↔
    ∀ c ∈ b.cores, (s.cluster (c / 16)).gated = false ∧ (s.core c).onAt ≤ s.master ∧
      ¬ ∃ i : Fin 32, ((s.core c).stripes.get i).pw = .gated ∧ bindLit img c i.val = true := by
  obtain ⟨hleft, hin, -⟩ := coresBound_gives s t img b hl
  have hmaster : (s.coresBound t img b).master = s.master := by rw [hleft, taken_left]
  have hgated : ∀ k, (((s.coresBound t img b).powerUp b.cores).cluster k).gated = (s.cluster k).gated := fun k => by
    rw [powerUp_gated, hleft, taken_left]; rfl
  rw [List.all_eq_true]
  refine forall₂_congr fun c hc => ?_
  have hon := (hin c hc).onAt
  rw [← hon, ← hgated, ← hmaster, bound_left]
  unfold State.isOn
  rw [Bool.and_eq_true, Bool.not_eq_true', decide_eq_true_eq]
  exact Iff.rfl

theorem bindTask_cores {c : Nat} (hc : c ∈ b.cores) :
    ∃ y, BoundFrom (t.boundBy b) img s.master c (s.core c) y ∧
      (s.bindTask t img b).core c = { y with slot := { y.slot with st := startState s b.cores (bindLit img) } } := by
  have hy := (coresBound_gives s t img b hl).2.1 c hc
  obtain ⟨hst, htask⟩ := hy.slot
  have hcore : (((s.coresBound t img b).powerUp b.cores).sealDies b.cores).core c = (s.coresBound t img b).core c := by
    rw [bound_left]; rfl
  refine ⟨_, hy, ?_⟩
  rw [bindTask_eq, startTask_core, startState_eq, hcore]
  by_cases hon : (t.boundBy b).cores.all (((s.coresBound t img b).powerUp b.cores).sealDies b.cores).isOn = true
  · rw [if_pos ⟨hon, hc⟩, if_pos ((bound_allOn hl).mp hon)]
    unfold CoreState.started
    rw [if_pos (by rw [hst, htask]; simp)]
  · rw [if_neg (fun h => hon h.1), if_neg (mt (bound_allOn hl).mpr hon), ← hst]

theorem bindTask_other {c : Nat} (hc : c ∉ b.cores) : (s.bindTask t img b).core c = s.core c := by
  rw [bindTask_eq, startTask_core, if_neg (fun h => hc h.2), bound_left]
  exact (coresBound_gives s t img b hl).2.2 c hc

theorem bindTask_task (h : t ∈ s.fw.tasks) :
    (s.bindTask t img b).task t.num = some { t.boundBy b with pool := none } := by
  rw [bindTask_eq, startTask_left, bound_left, (coresBound_gives s t img b hl).1]
  exact taken_task b h

end

/-- A task that may be bound is bound. -/
theorem taskBind_due {s : State} {b : BindInfo} {t : Task} {img : Image} (h : Binds s b t img) :
    exec (.taskBind b) s = .next (s.bindTask t img b) ∧ b.cores.Nodup ∧ t ∈ s.fw.tasks := by
  obtain ⟨hphase, hhead, himg, hst, hmay, hpriv, hranges, hrings⟩ := h
  refine ⟨?_, ?_, List.mem_of_mem_filter (List.mem_of_find?_eq_some hhead)⟩
  · change execTaskBind b s = _
    unfold execTaskBind
    simp only [hhead, himg, hphase, hst, hmay, hpriv, hranges, hrings, beq_self_eq_true, Bool.and_self, if_true]
  · unfold State.mayBind at hmay
    simp only [Bool.and_eq_true, decide_eq_true_eq] at hmay
    exact hmay.1.1.1.2

theorem taskBinds : TaskBinds := by
  intro b s t img h
  obtain ⟨hexec, hl, hmem⟩ := taskBind_due h
  refine ⟨_, hexec, fun c hc => ⟨?_, bindTask_sealed s t img hc⟩, fun c hc => bindTask_other hl hc, _, bindTask_task hl hmem,
    rfl, rfl, rfl, rfl, rfl, rfl, rfl⟩
  obtain ⟨y, hy, hu⟩ := bindTask_cores (t := t) (img := img) (s := s) hl hc
  exact boundOn_of hy hu

end Sys2Proof.Machine
end

