-- ==== Sys2Proof/Proofs/TaskEnds.lean ====
section
/-! PROOFS. The release of an owner and the end of a task (R183, R184, R187, R293, R307, R382, R383). -/

namespace Sys2Proof.Machine

open Sys2Proof.Claim

/-! ### The parked eddies of an owner that is released (R307) -/

/-- A bank once its owner is released: a parked one of owner origin is FREE. -/
def EddyBank.unparked (b : EddyBank) : EddyBank := if b.st = .parked ∧ b.origin = false then { exit := b.exit } else b

theorem EddyBank.unparked_unparked (b : EddyBank) : b.unparked.unparked = b.unparked := by
  unfold EddyBank.unparked
  split <;> rfl

/-- Freeing a bank that is parked, as every bank sees it. -/
theorem bank_freeIfParked (x : CoreState) {j k : Nat} (hj : j ∈ [1, 2, 3]) (hk : k ∈ [1, 2, 3]) :
    (if ((x.bank j).st == .parked && !(x.bank j).origin) = true then x.freeBankAt j else x).bank k =
      if k = j then (x.bank k).unparked else x.bank k := by
  have hcond : ((x.bank j).st == .parked && !(x.bank j).origin) = true ↔ (x.bank j).st = .parked ∧ (x.bank j).origin = false := by
    rw [Bool.and_eq_true, beq_iff_eq, Bool.not_eq_true']
  by_cases hc : (x.bank j).st = .parked ∧ (x.bank j).origin = false
  · rw [if_pos (hcond.mpr hc)]
    split
    next h => subst h; rw [(freeBankAt_same x k).1, EddyBank.unparked, if_pos hc]
    next h =>
      simp only [List.mem_cons, List.not_mem_nil, or_false] at hj hk
      exact freeBankAt_bank_other x (by omega)
  · rw [if_neg (mt hcond.mp hc)]
    split
    next h => subst h; rw [EddyBank.unparked, if_neg hc]
    next => rfl

theorem bank_freeParked {k : Nat} (hk : k ∈ [1, 2, 3]) (x : CoreState) : x.freeParked.bank k = (x.bank k).unparked := by
  have hrun : ∀ ks : List Nat, (∀ j ∈ ks, j ∈ [1, 2, 3]) → ∀ x : CoreState,
      (ks.foldl (fun x j => if (x.bank j).st == .parked && !(x.bank j).origin then x.freeBankAt j else x) x).bank k =
        if k ∈ ks then (x.bank k).unparked else x.bank k := by
    intro ks
    induction ks with
    | nil => exact fun _ _ => rfl
    | cons j ks ih =>
      intro hks x
      rw [List.foldl_cons, ih (fun i hi => hks i (List.mem_cons_of_mem _ hi)),
        bank_freeIfParked x (hks j (List.mem_cons_self ..)) hk]
      by_cases h : k = j
      · rw [if_pos h, EddyBank.unparked_unparked, ite_self, if_pos (h ▸ List.mem_cons_self ..)]
      · rw [if_neg h]
        exact if_congr (by simp [h]) rfl rfl
  exact (hrun [1, 2, 3] (fun _ h => h) x).trans (if_pos hk)

theorem freeParked_slot (x : CoreState) : x.freeParked.slot = x.slot := by
  unfold CoreState.freeParked
  refine foldl_holds (P := fun y : CoreState => y.slot = x.slot) (fun y k h => ?_) _ rfl
  split <;> exact h

/-! ### The release (R293, R307, R382) -/

/-- A core in RELEASE, its owner gone (R382). -/
def CoreState.inRelease (x : CoreState) : CoreState :=
  { x.setCtx 0 Ctx.reset with slot := { x.slot with st := .release }, lend := { x.lend with kept := none } }

theorem inRelease_gives (x : CoreState) : x.inRelease.ctx 0 = Ctx.reset ∧ x.inRelease.slot = { x.slot with st := .release } ∧
    x.inRelease.banks = x.banks :=
  ⟨CoreState.ctx_setCtx x 0 Ctx.reset, rfl, rfl⟩

theorem releaseOwner_core (s : State) (c : Nat) :
    ∃ v, (s.releaseOwner c).core c = { (s.core c).freeParked.inRelease with stripes := v } := by
  obtain ⟨v, hv⟩ := settleIdle_core ((s.noteFault ((s.core c).ctx 0).task ((s.core c).ctx 0).unreported).updCore c
    (fun x => x.freeParked.inRelease)) c c
  rw [State.core_updCore, noteFault_core] at hv
  exact ⟨v, hv⟩

theorem releaseOwner_cur (s : State) (c : Nat) : (s.releaseOwner c).cur = s.cur := by
  unfold State.releaseOwner
  rw [State.settleIdle_cur, State.updCore_cur, State.noteFault_cur]

section
variable {s : State} (hc : s.cur.core < nCores) (h0 : s.cur.ctx = 0)
include hc h0

theorem contextRelease_unbinds (hst : s.myCore.slot.st = .release) (hs : s.sleptOn s.cur.core = false) :
    exec .contextRelease s = .next ((s.updMyCore (fun x => { x with slot := {} })).settleIdle s.cur.core) := by
  change execContextRelease s = _
  unfold execContextRelease
  rw [onCore_due hc (by rw [h0, hst, hs]; rfl), hst]
  rfl

theorem contextRelease_releases (hst : s.myCore.slot.st ≠ .release) (hrun : s.me.run = .ended) (hq : s.me.storeQ = [])
    (hcmds : ∀ c ∈ s.myCore.cmds, c.ctx ≠ 0)
    (hbanks : ∀ k ∈ [1, 2, 3], (s.myCore.bank k).origin = true ∨
      ((s.myCore.bank k).st ≠ .run ∧ (s.myCore.bank k).st ≠ .revoking ∧ (s.myCore.bank k).st ≠ .ending)) :
    exec .contextRelease s = .next (s.releaseOwner s.cur.core) := by
  have hsame : (s.myCore.slot.st == .release) = false := beq_eq_false_iff_ne.mpr hst
  have hquiet : s.myCore.quiet 0 = true := by
    unfold CoreState.quiet
    rw [show s.myCore.ctx 0 = s.me by unfold State.me State.ctx; rw [h0]; rfl, hq, Bool.and_eq_true, List.all_eq_true]
    exact ⟨rfl, fun c hm => bne_iff_ne.mpr (hcmds c hm)⟩
  have heddies : s.myCore.ownEddies = false := by
    unfold CoreState.ownEddies
    rw [List.any_eq_false]
    intro k hk
    rcases hbanks k hk with h | ⟨h1, h2, h3⟩
    · simp [h]
    · simp [h1, h2, h3]
  change execContextRelease s = _
  unfold execContextRelease
  rw [onCore_due hc (by rw [h0, hsame, hrun, hquiet, heddies]; rfl), hsame]
  rfl

end

theorem releaseOwner_gives {s : State} (h0 : s.cur.ctx = 0) : (s.releaseOwner s.cur.core).me = Ctx.reset ∧
    (s.releaseOwner s.cur.core).myCore.slot = { s.myCore.slot with st := .release } ∧
    ∀ k ∈ [1, 2, 3], (s.releaseOwner s.cur.core).myCore.bank k =
      (if (s.myCore.bank k).st = .parked ∧ (s.myCore.bank k).origin = false
        then { exit := (s.myCore.bank k).exit } else s.myCore.bank k) := by
  obtain ⟨v, hv⟩ := releaseOwner_core s s.cur.core
  obtain ⟨hctx, hslot, hbanks⟩ := inRelease_gives (s.core s.cur.core).freeParked
  have hbank := fun k (hk : k ∈ [1, 2, 3]) => (bank_of_banks hbanks k).trans (bank_freeParked hk (s.core s.cur.core))
  rw [freeParked_slot] at hslot
  unfold State.me State.ctx State.myCore
  rw [releaseOwner_cur, hv, h0]
  generalize (s.core s.cur.core).freeParked.inRelease = y at hctx hslot hbank ⊢
  exact ⟨hctx, hslot, hbank⟩

/-! ### The end of a task (R183, R184, R187, R382, R383) -/

theorem endDue_of {s : State} {t : Task} {code : Nat} (h : EndsWith s t code) : s.endDue t = some code := by
  obtain ⟨hst, hcode⟩ := h
  unfold State.endDue
  rw [hst, if_neg (by decide)]
  obtain hk | ⟨hk, hcode⟩ | ⟨hk, hcode, rfl, hharvest, hall⟩ := hcode
  · rw [hk]
  · rw [hk, hcode]
  · rw [hk, hcode]
    refine if_pos ?_
    rw [hharvest, Bool.and_eq_true, List.all_eq_true]
    refine ⟨rfl, fun c hc => ?_⟩
    rcases hall c hc with h | h
    · rw [bne_iff_ne.mpr h]; rfl
    · rw [beq_iff_eq.mpr h, Bool.or_true]

theorem taskEnds : TaskEnds := by
  refine ⟨fun s hc h0 => ⟨contextRelease_unbinds hc h0, fun hst hrun hq hcmds hbanks => ?_⟩, fun s t code ht h => ?_⟩
  · exact ⟨_, contextRelease_releases hc h0 hst hrun hq hcmds hbanks, releaseOwner_gives h0⟩
  · change execTaskEnd s = _
    unfold execTaskEnd
    rw [ht]
    dsimp only
    rw [endDue_of h]

/-- Settles O46: each core of a task is bound once, from what it was, and the task starts where all are on; an owner is released
and a task ends by the rule that holds. -/
theorem taskEvents : Obligations.TaskEvents := ⟨taskBinds, taskEnds⟩

end Sys2Proof.Machine
end

