-- ==== Sys2Proof/Proofs/EddyBankEnds.lean ====
section
/-! PROOFS. Eddy banks that end or are saved (R184, R187, R293, R299, R301). -/

namespace Sys2Proof.Machine

open Sys2Proof.Claim

/-! ### A bank that is freed, its cluster settled -/

theorem isEddy_of_mem {k : Nat} (h : k ∈ [1, 2, 3]) : isEddy k = true :=
  (by decide : ∀ k ∈ [1, 2, 3], isEddy k = true) k h

/-- The running core once it was changed and what stood idle was turned off. -/
theorem settled_core (s : State) (g : CoreState → CoreState) :
    ∃ v, ((s.updMyCore g).settleIdle s.cur.core).myCore = { g s.myCore with stripes := v } := by
  have h := settleIdle_myCore (s.updMyCore g) s.cur.core
  rw [State.myCore_updMyCore] at h
  exact h

/-- The contexts of the running core once its context's bank was freed (R301). -/
theorem settled_freed {s : State} {g : CoreState → CoreState} (hctxs : (g s.myCore).ctxs = (s.myCore.freeBankAt s.cur.ctx).ctxs)
    (hbanks : (g s.myCore).banks = (s.myCore.freeBankAt s.cur.ctx).banks) :
    ((s.updMyCore g).settleIdle s.cur.core).me = Ctx.reset ∧
      ((s.updMyCore g).settleIdle s.cur.core).myCore.bank s.cur.ctx = { exit := (s.myCore.bank s.cur.ctx).exit } ∧
      ∀ k, k % 4 ≠ s.cur.ctx % 4 → ((s.updMyCore g).settleIdle s.cur.core).ctx s.cur.core k = s.ctx s.cur.core k := by
  obtain ⟨v, hv⟩ := settled_core s g
  obtain ⟨hbank, hctx⟩ := freeBankAt_same s.myCore s.cur.ctx
  have hcur : ((s.updMyCore g).settleIdle s.cur.core).cur = s.cur := by rw [State.settleIdle_cur, State.updMyCore_cur]
  have hof : ∀ k, ((s.updMyCore g).settleIdle s.cur.core).ctx s.cur.core k = (s.myCore.freeBankAt s.cur.ctx).ctx k := fun k => by
    have hmine := hv
    unfold State.myCore at hmine
    rw [hcur] at hmine
    unfold State.ctx
    rw [hmine]
    exact ctx_of_ctxs hctxs k
  refine ⟨?_, ?_, fun k hk => ?_⟩
  · unfold State.me
    rw [hcur, hof, hctx]
  · rw [hv, ← hbank]
    exact bank_of_banks hbanks _
  · rw [hof, freeBankAt_ctx_other _ hk]
    rfl

/-! ### The end of an eddy (R184, R187, R293, R299, R301) -/

/-- The task of an ended eddy's context as it is told of the end: `fw` for a firmware-bound eddy. -/
def Ctx.tell (c : Ctx) (fw : Bool) (k : Task) : Task :=
  if fw then { k with cores := [], code := some (k.code.getD c.endCode) }
  else
    match c.run, c.unreported with
    | .ended, some e => { k with code := some (k.code.getD e) }
    | _, _ => k

/-- The package once the task of the running context is told of its end. -/
def State.endTold (s : State) : State :=
  if s.myCore.fwEddy s.cur.ctx then
    match s.me.task with
    | some n => (s.noteFault s.me.task (some s.me.endCode)).updTask n (fun t => { t with cores := [] })
    | none => s
  else if s.me.run == .ended then s.noteFault s.me.task s.me.unreported
  else s

theorem noteFault_left (s : State) (t n : Option Nat) : s.noteFault t n = { s with fw := (s.noteFault t n).fw } := by
  unfold State.noteFault
  split <;> rfl

theorem endTold_left (s : State) : s.endTold = { s with fw := s.endTold.fw } := by
  unfold State.endTold
  split
  · split
    · rw [noteFault_left]; rfl
    · rfl
  · split
    · exact noteFault_left ..
    · rfl

theorem endTold_untasked {s : State} (h : s.me.task = none) : s.endTold.fw.tasks = s.fw.tasks := by
  unfold State.endTold State.noteFault
  rw [h]
  split
  · rfl
  · split <;> rfl

/-- Two changes of one task that keep its number are one change of it. -/
theorem updTask_updTask_tasks (s : State) (n : Nat) {f g : Task → Task} (hf : ∀ k, (f k).num = k.num) :
    ((s.updTask n f).updTask n g).fw.tasks = s.fw.tasks.map (fun k => if k.num = n then g (f k) else k) := by
  refine List.map_map.trans (List.map_congr_left fun k _ => ?_)
  simp only [Function.comp_apply, beq_iff_eq]
  split
  next h => rw [if_pos ((hf k).trans h)]
  next => rfl

theorem updTask_tasks (s : State) (n : Nat) (f : Task → Task) :
    (s.updTask n f).fw.tasks = s.fw.tasks.map (fun k => if k.num = n then f k else k) :=
  List.map_congr_left fun _ _ => if_congr beq_iff_eq rfl rfl

theorem endTold_tasks {s : State} {n : Nat} (h : s.me.task = some n) : s.endTold.fw.tasks =
    s.fw.tasks.map (fun k => if k.num = n then s.me.tell (s.myCore.fwEddy s.cur.ctx) k else k) := by
  unfold State.endTold Ctx.tell
  rw [h]
  split
  · exact updTask_updTask_tasks s n (f := fun t => { t with code := some (t.code.getD s.me.endCode) }) (fun _ => rfl)
  · split
    next hrun =>
      rw [beq_iff_eq.mp hrun]
      cases s.me.unreported with
      | some e => exact updTask_tasks s n _
      | none => simp [State.noteFault]
    next hrun =>
      have hsame : ∀ k : Task, (match s.me.run, s.me.unreported with
          | .ended, some e => { k with code := some (k.code.getD e) }
          | _, _ => k) = k := fun k => by
        split
        next hr _ => rw [hr] at hrun; exact absurd rfl hrun
        next => rfl
      simp [hsame]

section
variable {s : State} (he : Eddying s)
include he

theorem eddyBankFree_due (hst : (s.myCore.bank s.cur.ctx).st = .ending) (hq : s.me.storeQ = [])
    (hcmds : ∀ c ∈ s.myCore.cmds, c.ctx ≠ s.cur.ctx) : exec .eddyBankFree s =
      .next ((s.endTold.updMyCore (fun x => x.freeBankAt s.cur.ctx)).settleIdle s.cur.core) := by
  obtain ⟨hc, hk⟩ := he
  have hquiet : s.myCore.quiet s.cur.ctx = true := by
    unfold CoreState.quiet
    rw [Bool.and_eq_true, List.all_eq_true]
    exact ⟨List.isEmpty_iff.mpr hq, fun c hm => bne_iff_ne.mpr (hcmds c hm)⟩
  change execEddyBankFree s = _
  unfold execEddyBankFree
  rw [onCore_due hc (by rw [isEddy_of_mem hk, hst, hquiet]; rfl)]
  rfl

theorem eddyBankFree_frees (hst : (s.myCore.bank s.cur.ctx).st = .ending) (hq : s.me.storeQ = [])
    (hcmds : ∀ c ∈ s.myCore.cmds, c.ctx ≠ s.cur.ctx) :
    ∃ t, exec .eddyBankFree s = .next t ∧ t.me = Ctx.reset ∧
      t.myCore.bank s.cur.ctx = { exit := (s.myCore.bank s.cur.ctx).exit } ∧
      (∀ k ∈ [0, 1, 2, 3], k ≠ s.cur.ctx → t.ctx s.cur.core k = s.ctx s.cur.core k) ∧
      t.fw.tasks = s.endTold.fw.tasks := by
  have hleft := endTold_left s
  have hcur : s.endTold.cur = s.cur := by rw [hleft]
  have hmine : s.endTold.myCore = s.myCore := by rw [hleft]; rfl
  have hfreed := settled_freed (s := s.endTold) (g := fun x => x.freeBankAt s.cur.ctx) (by rw [hcur]) (by rw [hcur])
  have hctx : ∀ k, s.endTold.ctx s.cur.core k = s.ctx s.cur.core k := fun k => by rw [hleft]; rfl
  rw [hcur, hmine] at hfreed
  obtain ⟨hme, hbank, hother⟩ := hfreed
  refine ⟨_, eddyBankFree_due he hst hq hcmds, hme, hbank, fun k hk hne => ?_, ?_⟩
  · refine (hother k ?_).trans (hctx k)
    obtain ⟨-, hin⟩ := he
    simp only [List.mem_cons, List.not_mem_nil, or_false] at hk hin
    omega
  · rw [State.settleIdle_fw, State.updMyCore_fw]

end

/-! ### A tenant eddy that is saved (R301) -/

theorem boundary_all {x : CoreState} {k : Nat} (h : ∀ c ∈ x.cmds, c.ctx = k → c.atBoundary = true) :
    x.cmds.all (fun c => c.ctx != k || c.atBoundary) = true := by
  rw [List.all_eq_true]
  intro c hm
  by_cases hk : c.ctx = k
  · rw [h c hm hk, Bool.or_true]
  · rw [bne_iff_ne.mpr hk, Bool.true_or]

/-- A core once the tenant eddy of a bank is saved: its commands are gone with it (R301). -/
def CoreState.vacated (x : CoreState) (k : Nat) : CoreState :=
  { x.freeBankAt k with cmds := x.cmds.filter (fun c => c.ctx != k) }

section
variable {s : State} (hc : s.cur.core < nCores) (hfw : s.myCore.fwEddy s.cur.ctx = true)
  (hcmds : ∀ c ∈ s.myCore.cmds, c.ctx = s.cur.ctx → c.atBoundary = true)
include hc hfw hcmds

theorem eddySave_begins (hst : (s.myCore.bank s.cur.ctx).st = .parked) (hbusy : s.myCore.lend.cfg.busy = false)
    (hrev : s.myCore.lend.rev = []) :
    exec .eddySave s = .next (s.updMyCore (fun x => x.updBank s.cur.ctx (fun b => { b with st := .saving }))) := by
  change execEddySave s = _
  unfold execEddySave
  rw [onCore_due hc (by rw [hfw, hst, hbusy, hrev, boundary_all hcmds]; rfl)]
  exact congrArg _ (if_pos (beq_iff_eq.mpr hst))

theorem eddySave_ends (hst : (s.myCore.bank s.cur.ctx).st = .saving) : exec .eddySave s =
    .next ((s.drainMe.saveTenant.updMyCore (fun x => x.vacated s.cur.ctx)).settleIdle s.drainMe.saveTenant.cur.core) := by
  change execEddySave s = _
  unfold execEddySave
  rw [onCore_due hc (by rw [hfw, hst, boundary_all hcmds]; rfl)]
  dsimp only
  rw [if_neg (by rw [hst]; decide)]
  rfl

end

/-- Writing an image changes memory and takes free values; the record names the core and the state. -/
theorem writeImage_gives (s : State) (n c : Nat) (img : Image) (rings : List Ring) (x : CoreState) :
    (s.writeImage n c img rings x).1.cur = s.cur ∧ (s.writeImage n c img rings x).1.cores = s.cores ∧
      (s.writeImage n c img rings x).1.fw = s.fw ∧ (s.writeImage n c img rings x).2.core = c ∧
      (s.writeImage n c img rings x).2.st = x := by
  obtain ⟨cs, m, a, h⟩ : ∃ cs m a, s.writeImage n c img rings x = ({ s.physCells cs with freeCount := m }, ⟨c, a, x⟩) :=
    ⟨_, _, _, rfl⟩
  rw [h]
  exact ⟨rfl, rfl, rfl, rfl, rfl⟩

/-- Saving a tenant eddy writes an image, and changes nothing beside it but its task's record. -/
theorem saveTenant_writes {s : State} {k : Task} {img : Image} (hk : s.myTask = some k) (hi : s.image k.image = some img) :
    ∃ w : State × SavedImage,
      s.saveTenant = w.1.updTask k.num (fun t => { t with st := .saved, cores := [], saved := [w.2] }) ∧
      w.1.cur = s.cur ∧ w.1.cores = s.cores ∧ w.1.fw = s.fw ∧ w.2.core = s.cur.core ∧
      w.2.st = s.myCore.tenantState s.cur.ctx := by
  refine ⟨_, ?_, writeImage_gives s k.num s.cur.core img [] (s.myCore.tenantState s.cur.ctx)⟩
  unfold State.saveTenant
  rw [hk]
  dsimp only
  rw [hi]

theorem saveTenant_left (s : State) : s.saveTenant.cur = s.cur ∧ s.saveTenant.cores = s.cores := by
  cases hk : s.myTask with
  | none => unfold State.saveTenant; rw [hk]; exact ⟨rfl, rfl⟩
  | some k =>
    cases hi : s.image k.image with
    | none => unfold State.saveTenant; rw [hk]; dsimp only; rw [hi]; exact ⟨rfl, rfl⟩
    | some img =>
      obtain ⟨w, hw, hcur, hcores, -⟩ := saveTenant_writes hk hi
      rw [hw]
      exact ⟨hcur, hcores⟩

theorem saveTenant_task {s : State} {n : Nat} {k : Task} {img : Image} (hn : s.me.task = some n) (hk : s.task n = some k)
    (hi : s.image k.image = some img) :
    ∃ m, s.saveTenant.task n = some { k with st := .saved, cores := [], saved := [m] } ∧ m.core = s.cur.core ∧
      m.st = s.myCore.tenantState s.cur.ctx := by
  have hmy : s.myTask = some k := by unfold State.myTask; rw [hn]; exact hk
  obtain rfl := task_num hk
  obtain ⟨w, hw, -, -, hfw, hcore, hst⟩ := saveTenant_writes hmy hi
  have htask : w.1.task k.num = some k := by unfold State.task; rw [hfw]; exact hk
  refine ⟨w.2, ?_, hcore, hst⟩
  rw [hw]
  exact task_updTask_same (fun _ h => h) htask

/-- What is kept of a tenant eddy's core is its context and its bank (R301). -/
theorem tenantState_kept (x : CoreState) (k : Nat) : (x.tenantState k).ctx k = x.ctx k ∧ (x.tenantState k).bank k = x.bank k :=
  ⟨CoreState.ctx_setCtx _ k (x.ctx k), CoreState.bank_updBank (CoreState.reset.setCtx k (x.ctx k)) k (fun _ => x.bank k)⟩

theorem eddySave_saves {s : State} (hc : s.cur.core < nCores) (hfw : s.myCore.fwEddy s.cur.ctx = true)
    (hcmds : ∀ c ∈ s.myCore.cmds, c.ctx = s.cur.ctx → c.atBoundary = true) (hst : (s.myCore.bank s.cur.ctx).st = .saving) :
    ∃ t, exec .eddySave s = .next t ∧ t.me = Ctx.reset ∧ (t.myCore.bank s.cur.ctx).st = .free ∧
      t.myCore.cmds = s.drainMe.myCore.cmds.filter (fun c => c.ctx != s.cur.ctx) ∧
      ∀ n k img, s.me.task = some n → s.task n = some k → s.image k.image = some img →
        ∃ m, t.task n = some { k with st := .saved, cores := [], saved := [m] } ∧ m.core = s.cur.core ∧
          m.st.ctx s.cur.ctx = s.drainMe.me ∧ m.st.bank s.cur.ctx = s.myCore.bank s.cur.ctx := by
  have hdrain := access_drainMe.reaches s
  obtain ⟨hcur, hcores⟩ := saveTenant_left s.drainMe
  have hmine : s.drainMe.saveTenant.myCore = s.drainMe.myCore := by unfold State.myCore State.core; rw [hcur, hcores]
  rw [hdrain.cur] at hcur
  have hctx : s.drainMe.saveTenant.cur.ctx = s.cur.ctx := by rw [hcur]
  obtain ⟨v, hv⟩ := settled_core s.drainMe.saveTenant (fun x => x.vacated s.cur.ctx)
  have hfreed := settled_freed (s := s.drainMe.saveTenant) (g := fun x => x.vacated s.cur.ctx)
    (by rw [hctx]; rfl) (by rw [hctx]; rfl)
  obtain ⟨hme, hbank, -⟩ := hfreed
  rw [hctx] at hbank
  refine ⟨_, eddySave_ends hc hfw hcmds hst, hme, by rw [hbank], ?_, fun n k img hn hk hi => ?_⟩
  · rw [hv, hmine]; rfl
  · have htask : s.drainMe.me.task = some n := by rw [hdrain.me]; exact hn
    have hknown : s.drainMe.task n = some k := by unfold State.task; rw [hdrain.fw]; exact hk
    have himage : s.drainMe.image k.image = some img := by unfold State.image; rw [hdrain.fw]; exact hi
    obtain ⟨m, hm, hcore, hkept⟩ := saveTenant_task htask hknown himage
    obtain ⟨hctx, hb⟩ := tenantState_kept s.drainMe.myCore s.cur.ctx
    rw [hdrain.cur] at hkept hcore
    refine ⟨m, ?_, hcore, ?_, ?_⟩
    · rw [← hm]
      unfold State.task
      rw [State.settleIdle_fw, State.updMyCore_fw]
    · rw [hkept, hctx]
      unfold State.me State.ctx State.myCore
      rw [hdrain.cur]
    · rw [hkept, hb]
      exact bank_of_banks (congrArg (·.banks) hdrain.core :) _

end Sys2Proof.Machine
end

