-- ==== Sys2Proof/Proofs/TenantBinds.lean ====
section
/-! PROOFS. The firmware binds a tenant eddy, fresh or saved (R301, R305, R306). -/

namespace Sys2Proof.Machine

open Sys2Proof.Claim

/-! ### The core of a tenant eddy that is bound (R241, R358) -/

/-- A core on which a tenant eddy is bound at master cycle `now`: where its cluster was gated, its lent region is reclaimed. -/
def CoreState.relit (x : CoreState) (gated : Bool) (now : Nat) : CoreState :=
  if gated then
    x.turnedOn ((x.ungate x.lend.cfg.start x.lend.cfg.count 0).reclaim x.lend.cfg.start x.lend.cfg.count 0) now
  else x

theorem ungate_ctxs (x : CoreState) (start count t : Nat) : (x.ungate start count t).ctxs = x.ctxs := by
  unfold CoreState.ungate; dsimp only

theorem reclaim_ctxs (x : CoreState) (start count t : Nat) : (x.reclaim start count t).ctxs = x.ctxs := by rw [reclaim_eq]

theorem relit_banks (x : CoreState) (gated : Bool) (now : Nat) : (x.relit gated now).banks = x.banks := by
  cases gated
  · rfl
  · exact (reclaim_lend_banks _ _ _ _).2.trans (ungate_banks _ _ _ _)

theorem relit_ctxs (x : CoreState) (gated : Bool) (now : Nat) : (x.relit gated now).ctxs = x.ctxs := by
  cases gated
  · rfl
  · change ((x.ungate _ _ 0).reclaim _ _ 0).ctxs = _
    exact (reclaim_ctxs ..).trans (ungate_ctxs ..)

theorem read_relit (x : CoreState) (now o : Nat) (hw : x.spad.wf = true) : (x.relit true now).spad.read o =
    if InBytes x.lend.cfg.start x.lend.cfg.count o then 0 else x.spad.read o := by
  have h := read_reclaim (x.ungate x.lend.cfg.start x.lend.cfg.count 0) x.lend.cfg.start x.lend.cfg.count 0 o
    (by rw [ungate_spad]; exact hw)
  rw [ungate_spad] at h
  exact h

theorem relight_core (s : State) (c : Nat) :
    (s.relight c).core c = (s.core c).relit (s.cluster (c / 16)).gated s.master := by
  unfold State.relight CoreState.relit clusterOf
  split
  · exact State.core_updCore ..
  · rfl

theorem lodgeTask_core (s : State) (b : EddyBindInfo) (t : Task) : (s.lodgeTask b t).core b.core =
    (s.core b.core).relit (s.cluster (b.core / 16)).gated s.master := by
  unfold State.lodgeTask
  dsimp only
  rw [sealDies_left, powerUp_left, freePool_left]
  exact relight_core ..

/-! ### The bank of a tenant eddy (R301, R306) -/

/-- A bank that runs a tenant eddy under the lend, with its share. -/
def EddyBank.lodged (k : EddyBank) (share : Nat) : EddyBank :=
  { k with st := .run, origin := true, rev := false, exit := 0xFF, share := share, lent := true, home := none }

theorem lodge_gives (s : State) (b : EddyBindInfo) (img : Image) (o : Overlay) (c : Ctx) :
    ((s.lodge b img o c).core b.core).bank b.bank = ((s.core b.core).bank b.bank).lodged b.share ∧
      ((s.lodge b img o c).core b.core).ctx b.bank = c ∧
      (∀ k, k % 4 ≠ b.bank % 4 → ((s.lodge b img o c).core b.core).ctx k = (s.core b.core).ctx k) ∧
      ((s.lodge b img o c).core b.core).spad = (s.core b.core).spad := by
  unfold State.lodge
  rw [State.core_updCore]
  exact ⟨CoreState.bank_updBank _ _ _, CoreState.ctx_setCtx _ _ _, fun k hk => CoreState.ctx_setCtx_other _ _ hk, rfl⟩

theorem mayLodge_bank {s : State} {b : EddyBindInfo} {t : Task} {img : Image} {o : Overlay} (h : s.mayLodge b t img o = true) :
    b.bank ∈ [1, 2, 3] := by
  unfold State.mayLodge isEddy at h
  simp only [Bool.and_eq_true, decide_eq_true_eq, bne_iff_ne] at h
  simp only [List.mem_cons, List.not_mem_nil, or_false]
  omega

/-! ### A fresh tenant eddy (R305, R381) -/

section
variable {s : State} {b : EddyBindInfo} {t : Task} {img : Image} {o : Overlay} (ht : s.task b.task = some t)
  (hcode : s.tenantCode t = some (img, o)) (hmay : s.mayLodge b t img o = true)
include ht hcode hmay

theorem eddyBind_fresh (hr : b.restore = false) : exec (.firmwareEddyBind b) s =
    .next ((s.lodgeTask b t).lodge b img o ((s.lodgeTask b t).tenantStart b t img).ctx) := by
  change execFirmwareEddyBind b s = _
  unfold execFirmwareEddyBind
  simp only [ht, hcode, hmay, hr, if_true, Bool.false_eq_true, if_false]

theorem eddyBind_starts (hr : b.restore = false) :
    ∃ u, exec (.firmwareEddyBind b) s = .next u ∧ (u.core b.core).bank b.bank = ((s.core b.core).bank b.bank).lodged b.share ∧
      (u.core b.core).ctx b.bank = ((s.lodgeTask b t).tenantStart b t img).ctx ∧
      (∀ k ∈ [0, 1, 2, 3], k ≠ b.bank → (u.core b.core).ctx k = (s.core b.core).ctx k) ∧
      (u.core b.core).spad = ((s.core b.core).relit (s.cluster (b.core / 16)).gated s.master).spad := by
  obtain ⟨hbank, hctx, hother, hspad⟩ := lodge_gives (s.lodgeTask b t) b img o ((s.lodgeTask b t).tenantStart b t img).ctx
  rw [lodgeTask_core] at hbank hother hspad
  refine ⟨_, eddyBind_fresh ht hcode hmay hr, ?_, hctx, fun k hk hne => ?_, hspad⟩
  · rw [hbank, bank_of_banks (relit_banks ..)]
  · have hin := mayLodge_bank hmay
    simp only [List.mem_cons, List.not_mem_nil, or_false] at hk hin
    rw [hother k (by omega), ctx_of_ctxs (relit_ctxs ..)]

end

/-! ### A saved tenant eddy (R210, R301, R304, R401) -/

/-- A saved context under the share it is bound with, and under the budgets of its partition (R210, R372). -/
def State.underShare (s : State) (b : EddyBindInfo) (c : Ctx) : Ctx :=
  let c := { c with csr := { c.csr with weira := max c.csr.weirf (min c.csr.weira b.share) } }
  match s.task b.task with
  | some t => s.budgeted t c
  | none => c

theorem underShare_gives (s : State) (b : EddyBindInfo) (c : Ctx) : { s.underShare b c with csr := c.csr } = c ∧
    (s.underShare b c).csr.weira = max c.csr.weirf (min c.csr.weira b.share) := by
  unfold State.underShare
  dsimp only
  split
  · exact ⟨rfl, rfl⟩
  · exact ⟨rfl, rfl⟩

/-- The context of a saved tenant eddy is that of one of the eddy contexts of the image. -/
theorem eddy_of_image (m : SavedImage) (n : Nat) : ∃ k ∈ [1, 2, 3], m.eddy n = m.st.ctx k := by
  refine ⟨_, ?_, rfl⟩
  cases h : [1, 2, 3].find? (fun k => (m.st.ctx k).task == some n) with
  | none => decide
  | some k => exact List.mem_of_find?_eq_some h

theorem resumeTenant_core (s : State) (b : EddyBindInfo) (img : Image) (o : Overlay) (m : SavedImage) :
    ((s.resumeTenant b img o m).core b.core).banks =
        ((s.lodge b img o (Ctx.restored false (s.underShare b (m.eddy b.task)))).core b.core).banks ∧
      ((s.resumeTenant b img o m).core b.core).ctxs =
        ((s.lodge b img o (Ctx.restored false (s.underShare b (m.eddy b.task)))).core b.core).ctxs := by
  unfold State.resumeTenant
  dsimp only
  rw [State.core_updCore]
  split
  · rw [restoreKept_eq]; exact ⟨rfl, rfl⟩
  · exact ⟨rfl, rfl⟩

theorem eddyBind_restore {s : State} {b : EddyBindInfo} {t : Task} {img : Image} {o : Overlay} {m : SavedImage}
    (ht : s.task b.task = some t) (hcode : s.tenantCode t = some (img, o)) (hmay : s.mayLodge b t img o = true)
    (hr : b.restore = true) (hm : t.saved.head? = some m) (hok : s.restoreStatus m img b.core = .ok) :
    exec (.firmwareEddyBind b) s = .next (((s.lodgeTask b t).resumeTenant b img o m).reportRestore .ok b.core) := by
  change execFirmwareEddyBind b s = _
  unfold execFirmwareEddyBind
  simp only [ht, hcode, hmay, hr, hm, hok, if_true]

theorem eddyBind_resumes {s : State} {b : EddyBindInfo} {t : Task} {img : Image} {o : Overlay} {m : SavedImage}
    (ht : s.task b.task = some t) (hcode : s.tenantCode t = some (img, o)) (hmay : s.mayLodge b t img o = true)
    (hr : b.restore = true) (hm : t.saved.head? = some m) (hok : s.restoreStatus m img b.core = .ok) :
    ∃ u, exec (.firmwareEddyBind b) s = .next u ∧ (u.core b.core).bank b.bank = ((s.core b.core).bank b.bank).lodged b.share ∧
      (u.core b.core).ctx b.bank = Ctx.restored false ((s.lodgeTask b t).underShare b (m.eddy b.task)) := by
  obtain ⟨hbanks, hctxs⟩ := resumeTenant_core (s.lodgeTask b t) b img o m
  obtain ⟨hbank, hctx, -, -⟩ := lodge_gives (s.lodgeTask b t) b img o
    (Ctx.restored false ((s.lodgeTask b t).underShare b (m.eddy b.task)))
  rw [lodgeTask_core, bank_of_banks (relit_banks ..)] at hbank
  exact ⟨_, eddyBind_restore ht hcode hmay hr hm hok, (bank_of_banks hbanks _).trans hbank, (ctx_of_ctxs hctxs _).trans hctx⟩

/-- Settles O45: the bank that ends is freed after its task is told, a saved one after its stores are performed, and a tenant
eddy is put into its bank on the core as its lend finds it. -/
theorem eddyEnds : Obligations.EddyEnds := by
  refine ⟨fun s he hst hq hcmds => ?_, fun s he hfw hcmds => ⟨eddySave_begins he.1 hfw hcmds, eddySave_saves he.1 hfw hcmds⟩,
    fun s b t img o ht hcode hmay => ⟨fun hr => ?_, fun hr m hm hok => ?_⟩⟩
  · obtain ⟨t, ht, hme, hbank, hother, htasks⟩ := eddyBankFree_frees he hst hq hcmds
    refine ⟨t, ht, hme, hbank, hother, htasks.trans ?_⟩
    cases hn : s.me.task with
    | none => exact endTold_untasked hn
    | some n =>
      refine (endTold_tasks hn).trans (List.map_congr_left fun k _ => ?_)
      unfold Ctx.tell Ctx.endCode
      rfl
  · obtain ⟨u, hu, hbank, hctx, hother, hspad⟩ := eddyBind_starts ht hcode hmay hr
    refine ⟨u, hu, hbank, by rw [hctx]; rfl, by rw [hctx]; rfl, by rw [hctx]; rfl, by rw [hctx]; rfl, hother, fun hg => ?_,
      fun hg hw o => ?_⟩
    · rw [hspad, hg]; rfl
    · rw [hspad, hg]
      exact read_relit _ _ o hw
  · obtain ⟨u, hu, hbank, hctx⟩ := eddyBind_resumes ht hcode hmay hr hm hok
    obtain ⟨k, hk, heddy⟩ := eddy_of_image m b.task
    obtain ⟨hkept, hshare⟩ := underShare_gives (s.lodgeTask b t) b (m.st.ctx k)
    rw [heddy] at hctx
    exact ⟨u, hu, hbank, k, hk, _, hctx, hkept, hshare⟩

end Sys2Proof.Machine
end

