-- ==== Sys2Proof/Proofs/BoostGrants.lean ====
section
/-! PROOFS. The order of boost requests and how many are granted (R363, R364). -/

namespace Sys2Proof.Machine

open Sys2Proof.Claim

/-! ### Ranks in a list under a strict order -/

theorem filter_lt_range_length (r n : Nat) : ((List.range n).filter (fun i => decide (i < r))).length = min r n := by
  induction n with
  | zero => exact (Nat.min_zero r).symm
  | succ n ih =>
    rw [List.range_succ, List.filter_append, List.length_append, ih]
    by_cases h : n < r
    · simp [h]; omega
    · simp [h]; omega

/-- How many entries of a list come before `a`. -/
def rankIn (lt : Nat → Nat → Bool) (l : List Nat) (a : Nat) : Nat := (l.filter (fun b => lt b a)).length

section
variable {lt : Nat → Nat → Bool} {l : List Nat} (hirr : ∀ a, lt a a = false)
include hirr

theorem rankIn_lt_length {a : Nat} (ha : a ∈ l) : rankIn lt l a < l.length :=
  List.length_filter_lt_length_iff_exists.mpr ⟨a, ha, by rw [hirr]; decide⟩

variable (htrans : ∀ a b c, lt a b = true → lt b c = true → lt a c = true)
include htrans

theorem rankIn_lt {a b : Nat} (ha : a ∈ l) (h : lt a b = true) : rankIn lt l a < rankIn lt l b := by
  have hsub : l.filter (fun c => lt c a) = (l.filter (fun c => lt c b)).filter (fun c => lt c a) := by
    rw [List.filter_filter]
    refine List.filter_congr fun c _ => ?_
    cases hc : lt c a with
    | false => rfl
    | true => rw [htrans c a b hc h]; rfl
  unfold rankIn
  rw [hsub]
  exact List.length_filter_lt_length_iff_exists.mpr ⟨a, List.mem_filter.mpr ⟨ha, h⟩, by rw [hirr]; decide⟩

variable (htotal : ∀ a b, a ≠ b → lt a b = true ∨ lt b a = true)
include htotal

theorem rankIn_injective {a b : Nat} (ha : a ∈ l) (hb : b ∈ l) (h : rankIn lt l a = rankIn lt l b) : a = b := by
  by_contra hne
  rcases htotal a b hne with hab | hba
  · exact absurd h (Nat.ne_of_lt (rankIn_lt hirr htrans ha hab))
  · exact absurd h.symm (Nat.ne_of_lt (rankIn_lt hirr htrans hb hba))

/-- The ranks of a list's entries are the numbers below its length, each once. -/
theorem ranks_perm (hl : l.Nodup) : (l.map (rankIn lt l)).Perm (List.range l.length) := by
  have hnodup : (l.map (rankIn lt l)).Nodup :=
    (List.nodup_map_iff_inj_on hl).mpr fun a ha b hb => rankIn_injective hirr htrans htotal ha hb
  refine (List.subperm_of_subset hnodup fun n hn => ?_).perm_of_length_le (by simp)
  obtain ⟨a, ha, rfl⟩ := List.mem_map.mp hn
  exact List.mem_range.mpr (rankIn_lt_length hirr ha)

/-- The first `r` entries are `r`, or all there are. -/
theorem firstRanks_length (hl : l.Nodup) (r : Nat) : (l.filter (fun a => decide (rankIn lt l a < r))).length = min r l.length := by
  have hmap : (l.map (rankIn lt l)).filter (fun n => decide (n < r)) =
      (l.filter (fun a => decide (rankIn lt l a < r))).map (rankIn lt l) := List.filter_map
  have hperm := ((ranks_perm hirr htrans htotal hl).filter (fun n => decide (n < r))).length_eq
  rw [hmap, List.length_map, filter_lt_range_length] at hperm
  exact hperm

end

end Sys2Proof.Machine
end

