-- ==== Sys2Proof/Proofs/PowerControl.lean ====
section
/-! PROOFS. Interval boundaries, boost grants, pattern changes and permits (R357, R359, R361 to R365). -/

namespace Sys2Proof.Machine

open Sys2Proof.Claim

/-! ### The controller of one cluster (R361 to R364) -/

theorem integNext_eq (k : ClusterState) : integNext k = (wants k).1 := by
  unfold integNext wants
  norm_num

theorem wantOf_eq (k : ClusterState) : wantOf k = (wants k).2 := by
  have hshift : ∀ (e : Int) (n : Nat), Int.shiftRight e n = e / 2 ^ n := fun e n => by
    have h := Int.shiftRight_eq_div_pow e n
    rw [Nat.cast_pow, Nat.cast_ofNat] at h
    exact h
  unfold wantOf
  dsimp only
  rw [hshift, hshift, integNext_eq]
  rfl

theorem permitsLeft_eq (k : ClusterState) : permitsLeft k = paid k := by
  unfold permitsLeft paid ClusterState.kNow
  exact if_congr (by simp) rfl rfl

theorem falls_eq (k : ClusterState) : falls k = falling k := by
  unfold falls falling ClusterState.kNow
  rw [permitsLeft_eq, Bool.eq_iff_iff]
  simp [and_assoc]

theorem requests_iff (k : ClusterState) : requests k = true ↔ Requests k := by
  unfold requests
  rw [falls_eq, wantOf_eq, permitsLeft_eq]
  simp only [Bool.and_eq_true, Bool.not_eq_true', decide_eq_true_eq, beq_iff_eq, and_assoc]
  exact Iff.rfl

theorem atBoundary_eq (k : ClusterState) (grant : Bool) (bud : Nat) : k.atBoundary grant bud = bounded k grant bud := by
  unfold ClusterState.atBoundary bounded
  rw [falls_eq, wantOf_eq, permitsLeft_eq, integNext_eq]
  rfl

theorem mayHold_eq (k : ClusterState) : k.mayHold = holdsUpTo k := by
  unfold ClusterState.mayHold holdsUpTo
  cases k.powerOn <;> rfl

/-! ### The order of requests (R363) -/

theorem prioOf_eq (s : State) (k : Nat) : s.prioOf k = clusterPrio s k := by
  unfold State.prioOf clusterPrio
  refine congrArg (List.foldl max 0) (List.map_congr_left fun i _ => ?_)
  exact if_congr (by simp) rfl rfl

theorem reqBefore_iff (s : State) (a b : Nat) : s.reqBefore a b = true ↔ GrantedBefore s a b := by
  unfold State.reqBefore
  simp only [prioOf_eq, permitsLeft_eq, Bool.or_eq_true, Bool.and_eq_true, decide_eq_true_eq, beq_iff_eq]

theorem reqBefore_irrefl (s : State) (a : Nat) : s.reqBefore a a = false := by
  rw [← Bool.not_eq_true, reqBefore_iff]
  omega

theorem reqBefore_trans (s : State) (a b c : Nat) (hab : s.reqBefore a b = true) (hbc : s.reqBefore b c = true) :
    s.reqBefore a c = true := by
  rw [reqBefore_iff] at hab hbc ⊢
  omega

theorem reqBefore_total (s : State) (a b : Nat) (h : a ≠ b) : s.reqBefore a b = true ∨ s.reqBefore b a = true := by
  rw [reqBefore_iff, reqBefore_iff]
  omega

/-! ### The grants of a die (R363, R364) -/

/-- The clusters of a die. -/
def clustersOf (d : Nat) : List Nat := (List.range 48).map (· + 48 * d)

/-- A cluster that keeps its grant. -/
def State.keeps (s : State) (k : Nat) : Bool := (s.cluster k).grant && (requests (s.cluster k) || falls (s.cluster k))
/-- A cluster that asks for a grant it does not have. -/
def State.asks (s : State) (k : Nat) : Bool := !(s.cluster k).grant && requests (s.cluster k)
/-- Grants of a die that are kept. -/
def State.keptGrants (s : State) (d : Nat) : Nat := ((clustersOf d).filter s.keeps).length
/-- How many requests of a die come before that of a cluster. -/
def State.rankOf (s : State) (d k : Nat) : Nat := rankIn s.reqBefore ((clustersOf d).filter s.asks) k

theorem mem_clustersOf {d k : Nat} : k ∈ clustersOf d ↔ ∃ i, i < 48 ∧ k = 48 * d + i := by
  unfold clustersOf
  rw [List.mem_map]
  exact exists_congr fun i => and_congr List.mem_range (by omega)

theorem clustersOf_nodup (d : Nat) : (clustersOf d).Nodup :=
  List.nodup_range.map (fun i j h => by simpa using h)

/-- How many clusters of a die meet a test, by their places on it. -/
theorem count_clustersOf (d : Nat) (p : Nat → Bool) :
    ((clustersOf d).filter p).length = ((List.range 48).filter (fun i => p (48 * d + i))).length := by
  unfold clustersOf
  rw [List.filter_map, List.length_map]
  exact congrArg List.length (List.filter_congr fun i _ => congrArg p (Nat.add_comm i (48 * d)))

/-- Whether a cluster holds a grant in the next interval. -/
def State.grantsTo (s : State) (d k : Nat) : Bool := (s.grants d).contains k

theorem grantsTo_iff {s : State} {d k : Nat} (hk : k ∈ clustersOf d) : s.grantsTo d k = true ↔
    s.keeps k = true ∨ (s.asks k = true ∧ s.keptGrants d + s.rankOf d k < 12) := by
  unfold State.grantsTo State.grants
  rw [List.contains_iff_mem, List.mem_append, List.mem_filter, List.mem_filter, List.mem_filter, decide_eq_true_eq, and_assoc]
  exact or_congr (and_iff_right hk) (and_iff_right hk)

theorem length_filter_or {l : List Nat} {p q r : Nat → Bool} (hr : ∀ k ∈ l, r k = true ↔ p k = true ∨ q k = true)
    (hpq : ∀ k ∈ l, p k = true → q k = false) : (l.filter r).length = (l.filter p).length + (l.filter q).length := by
  induction l with
  | nil => rfl
  | cons k l ih =>
    have ih := ih (fun j hj => hr j (List.mem_cons_of_mem _ hj)) (fun j hj => hpq j (List.mem_cons_of_mem _ hj))
    have hk := hr k (List.mem_cons_self ..)
    have hd := hpq k (List.mem_cons_self ..)
    rw [List.filter_cons, List.filter_cons, List.filter_cons]
    cases hp : p k with
    | true => simp [hd hp, hk.mpr (.inl hp), ih]; omega
    | false =>
      cases hq : q k with
      | true => simp [hk.mpr (.inr hq), ih]; omega
      | false =>
        have hrk : r k = false := by rw [← Bool.not_eq_true, hk, hp, hq]; decide
        simp [hrk, ih]

/-- New grants go to the requests that come first, until twelve are held (R363). -/
theorem grants_count (s : State) (d : Nat) : ((clustersOf d).filter (s.grantsTo d)).length =
    s.keptGrants d + min (12 - s.keptGrants d) ((clustersOf d).filter s.asks).length := by
  have hfirst := firstRanks_length (l := (clustersOf d).filter s.asks) (reqBefore_irrefl s) (reqBefore_trans s) (reqBefore_total s)
    ((clustersOf_nodup d).filter _) (12 - s.keptGrants d)
  rw [List.filter_filter] at hfirst
  rw [← hfirst]
  refine length_filter_or (fun k hk => ?_) (fun k _ hkeep => ?_)
  · rw [grantsTo_iff hk, Bool.and_eq_true, decide_eq_true_eq, and_comm (a := s.asks k = true)]
    exact or_congr_right (and_congr_left fun _ => by unfold State.rankOf; omega)
  · unfold State.keeps at hkeep
    unfold State.asks
    rw [Bool.and_eq_true] at hkeep
    rw [hkeep.1]
    exact Bool.and_false _

theorem grants_full {s : State} {d k : Nat} (hk : k ∈ clustersOf d) (hask : s.asks k = true) (hno : s.grantsTo d k = false) :
    12 ≤ ((clustersOf d).filter (s.grantsTo d)).length := by
  have hrank : s.rankOf d k < ((clustersOf d).filter s.asks).length :=
    rankIn_lt_length (reqBefore_irrefl s) (List.mem_filter.mpr ⟨hk, hask⟩)
  rw [← Bool.not_eq_true, grantsTo_iff hk, not_or, not_and] at hno
  obtain ⟨-, hlate⟩ := hno
  have := hlate hask
  rw [grants_count]
  omega

theorem grants_ordered {s : State} {d j k : Nat} (hj : j ∈ clustersOf d) (hk : k ∈ clustersOf d) (hask : s.asks k = true)
    (hnew : (s.cluster j).grant = false) (hgot : s.grantsTo d j = true) (hbefore : s.reqBefore k j = true) :
    s.grantsTo d k = true := by
  have hrank : s.rankOf d k < s.rankOf d j :=
    rankIn_lt (reqBefore_irrefl s) (reqBefore_trans s) (List.mem_filter.mpr ⟨hk, hask⟩) hbefore
  rw [grantsTo_iff hj] at hgot
  rw [grantsTo_iff hk]
  refine .inr ⟨hask, ?_⟩
  rcases hgot with hkeep | ⟨-, hearly⟩
  · unfold State.keeps at hkeep
    rw [hnew] at hkeep
    exact absurd hkeep (by simp)
  · omega

theorem grants_atMost {s : State} {d : Nat} (h : ((clustersOf d).filter (fun k => (s.cluster k).grant)).length ≤ 12) :
    ((clustersOf d).filter (s.grantsTo d)).length ≤ 12 := by
  have hkept : s.keptGrants d ≤ ((clustersOf d).filter (fun k => (s.cluster k).grant)).length := by
    have hsub : (clustersOf d).filter s.keeps = ((clustersOf d).filter (fun k => (s.cluster k).grant)).filter
        (fun k => requests (s.cluster k) || falls (s.cluster k)) := by
      rw [List.filter_filter]
      exact List.filter_congr fun k _ => Bool.and_comm ..
    unfold State.keptGrants
    rw [hsub]
    exact List.length_filter_le ..
  rw [grants_count]
  omega

/-! ### The clusters of a die at a boundary -/

theorem updClusters_left (b n : Nat) (f : Nat → ClusterState → ClusterState) (s : State) :
    (List.range n).foldl (fun (t : State) i => t.updCluster (b + i) (f (b + i))) s =
      { s with clusters := ((List.range n).foldl (fun (t : State) i => t.updCluster (b + i) (f (b + i))) s).clusters } := by
  induction n with
  | zero => rfl
  | succ n ih => rw [List.range_succ, List.foldl_append, List.foldl_cons, List.foldl_nil, ih]; rfl

/-- Each cluster of a run changes once, by the function of its number. -/
theorem cluster_updClusters (b n : Nat) (f : Nat → ClusterState → ClusterState) (s : State) {j : Nat} (hn : b + n ≤ 192)
    (hj : j < 192) : ((List.range n).foldl (fun (t : State) i => t.updCluster (b + i) (f (b + i))) s).cluster j =
      if b ≤ j ∧ j < b + n then f j (s.cluster j) else s.cluster j := by
  induction n with
  | zero => rw [if_neg (by omega)]; rfl
  | succ n ih =>
    rw [List.range_succ, List.foldl_append, List.foldl_cons, List.foldl_nil, cluster_updCluster_eq, ih (by omega),
      Nat.mod_eq_of_lt hj, Nat.mod_eq_of_lt (by omega)]
    by_cases h : j = b + n
    · rw [if_pos h, if_neg (by omega), if_pos (by omega), h]
    · rw [if_neg h]
      exact if_congr (by omega) rfl rfl

theorem foldl_max_range (f : Nat → Nat) (n : Nat) : (∀ i, i < n → f i ≤ (List.range n).foldl (fun m i => max m (f i)) 0) ∧
    ((∃ i, i < n ∧ f i = (List.range n).foldl (fun m i => max m (f i)) 0) ∨
      (List.range n).foldl (fun m i => max m (f i)) 0 = 0) := by
  induction n with
  | zero => exact ⟨fun i hi => absurd hi (Nat.not_lt_zero i), .inr rfl⟩
  | succ n ih =>
    obtain ⟨hall, hsome⟩ := ih
    rw [List.range_succ, List.foldl_append, List.foldl_cons, List.foldl_nil]
    refine ⟨fun i hi => ?_, ?_⟩
    · rcases Nat.lt_succ_iff_lt_or_eq.mp hi with h | rfl
      · exact (hall i h).trans (Nat.le_max_left ..)
      · exact Nat.le_max_right ..
    · rcases Nat.le_total (f n) ((List.range n).foldl (fun m i => max m (f i)) 0) with h | h
      · rw [Nat.max_eq_left h]
        exact hsome.imp_left fun ⟨i, hi, hf⟩ => ⟨i, Nat.lt_succ_of_lt hi, hf⟩
      · rw [Nat.max_eq_right h]
        exact .inl ⟨n, Nat.lt_succ_self n, rfl⟩

/-- The clusters of a die once they were moved by their controllers (R361). -/
def State.moved (s : State) (d : Nat) : State :=
  (List.range 48).foldl (fun (t : State) i =>
    t.updCluster (48 * d + i) (fun c => c.atBoundary (s.grantsTo d (48 * d + i)) (s.budOf (48 * d + i)))) s

theorem moved_left (s : State) (d : Nat) : s.moved d = { s with clusters := (s.moved d).clusters } :=
  updClusters_left (48 * d) 48 (fun k c => c.atBoundary (s.grantsTo d k) (s.budOf k)) s

theorem moved_die (s : State) (d e : Nat) : (s.moved d).die e = s.die e := by
  have h := moved_left s d
  generalize s.moved d = t at h ⊢
  rw [h]
  rfl

theorem moved_cluster (s : State) {d j : Nat} (hd : d < 4) (hj : j < 192) : (s.moved d).cluster j =
    if j / 48 = d then bounded (s.cluster j) (s.grantsTo d j) (s.budOf j) else s.cluster j := by
  rw [← atBoundary_eq]
  refine (cluster_updClusters (48 * d) 48 (fun k c => c.atBoundary (s.grantsTo d k) (s.budOf k)) s (by omega) hj).trans ?_
  exact if_congr (by omega) rfl rfl

theorem intervalBoundary_due {s : State} (hd : s.cur.id < 4) (hi : (s.die s.cur.id).interval < s.master / 800) :
    exec .intervalBoundary s = .next ((s.moved s.cur.id).updDie s.cur.id (fun d =>
      { d with interval := d.interval + 1, vlogic := vlogicFor ((s.moved s.cur.id).highestPattern s.cur.id) })) := by
  change execIntervalBoundary s = _
  unfold execIntervalBoundary
  rw [onDie_due hd (decide_eq_true hi)]
  rfl

/-- Which clusters hold a grant after a boundary (R363, R364). -/
theorem grants_hold (s : State) (d : Nat) : (∀ i, i < 48 → let k := s.cluster (48 * d + i)
      (k.grant = true → (s.grantsTo d (48 * d + i) = true ↔ (Requests k ∨ falling k = true))) ∧
      (k.grant = false → s.grantsTo d (48 * d + i) = true → Requests k) ∧
      (k.grant = false → Requests k → s.grantsTo d (48 * d + i) = false →
        12 ≤ ((List.range 48).filter (fun j => s.grantsTo d (48 * d + j))).length) ∧
      ∀ j, j < 48 → k.grant = false → Requests k → (s.cluster (48 * d + j)).grant = false →
        s.grantsTo d (48 * d + j) = true → GrantedBefore s (48 * d + i) (48 * d + j) → s.grantsTo d (48 * d + i) = true) := by
  intro i hi
  have hk : 48 * d + i ∈ clustersOf d := mem_clustersOf.mpr ⟨i, hi, rfl⟩
  have hgot := grantsTo_iff (s := s) hk
  have hasks : (s.cluster (48 * d + i)).grant = false → Requests (s.cluster (48 * d + i)) → s.asks (48 * d + i) = true := by
    intro hg hr
    unfold State.asks
    rw [hg, (requests_iff _).mpr hr]
    rfl
  refine ⟨fun hg => ?_, fun hg h => ?_, fun hg hr hno => ?_, fun j hj hg hr hnew hj' hbefore => ?_⟩
  · unfold State.keeps State.asks at hgot
    rw [hgot, hg, ← requests_iff, ← falls_eq]
    simp
  · unfold State.keeps State.asks at hgot
    rw [hgot, hg] at h
    exact (requests_iff _).mp (by simpa using And.left (by simpa using h))
  · rw [← count_clustersOf]
    exact grants_full hk (hasks hg hr) hno
  · exact grants_ordered (mem_clustersOf.mpr ⟨j, hj, rfl⟩) hk (hasks hg hr) hnew hj' ((reqBefore_iff ..).mpr hbefore)

theorem intervalBoundary_moves {s : State} (hd : s.cur.id < 4) (hi : (s.die s.cur.id).interval < s.master / 800) :
    ∃ t, exec .intervalBoundary s = .next t ∧ (t.die s.cur.id).interval = (s.die s.cur.id).interval + 1 ∧
      (∃ m, (t.die s.cur.id).vlogic = vlogicFor m ∧ (∀ i, i < 48 → holdsUpTo (t.cluster (48 * s.cur.id + i)) ≤ m) ∧
        ((∃ i, i < 48 ∧ holdsUpTo (t.cluster (48 * s.cur.id + i)) = m) ∨ m = 0)) ∧
      ∀ j, j < 192 → t.cluster j =
        if j / 48 = s.cur.id then bounded (s.cluster j) (s.grantsTo s.cur.id j) (s.budOf j) else s.cluster j := by
  have hcl := fun j (hj : j < 192) => moved_cluster s hd hj
  have hdie := moved_die s s.cur.id s.cur.id
  have hex := intervalBoundary_due hd hi
  generalize s.moved s.cur.id = u at hcl hdie hex
  obtain ⟨hall, hsome⟩ := foldl_max_range (fun i => (u.cluster (48 * s.cur.id + i)).mayHold) 48
  have hnew := die_updDie_eq u s.cur.id s.cur.id (fun d =>
    { d with interval := d.interval + 1, vlogic := vlogicFor (u.highestPattern s.cur.id) })
  rw [if_pos rfl, hdie] at hnew
  simp only [mayHold_eq] at hall hsome
  refine ⟨_, hex, by rw [hnew], ⟨u.highestPattern s.cur.id, by rw [hnew], ?_⟩, hcl⟩
  unfold State.highestPattern
  simp only [mayHold_eq]
  exact ⟨hall, hsome⟩

/-! ### Pattern changes and permits (R359, R365) -/

theorem updCluster_congr {s : State} {k : Nat} {f g : ClusterState → ClusterState} (h : f (s.cluster k) = g (s.cluster k)) :
    s.updCluster k f = s.updCluster k g := by
  unfold State.updCluster
  rw [h]

theorem patternChange_due {s : State} {k : Nat} (hc : s.cur.id < 192) (hk : (s.cluster s.cur.id).pendKeep = some k)
    (hslot : s.master % 16 = 0) :
    exec .patternChange s = .next (s.updCluster s.cur.id (fun c => { c with keep := k, pendKeep := none })) := by
  change execPatternChange s = _
  unfold execPatternChange
  rw [onCluster_due hc (by rw [hk, hslot]; rfl)]
  refine congrArg _ (updCluster_congr ?_)
  rw [hk]
  rfl

theorem permitRefill_due {s : State} (hc : s.cur.id < 192) (hp : (s.cluster s.cur.id).pairs < s.master / 1600) :
    exec .permitRefill s = .next (s.updCluster s.cur.id (fun k =>
      { k with pairs := k.pairs + 1,
               permits := if k.gated = false ∧ k.issuedNow = false ∧ k.issuedPrev = false then min 64 (k.permits + 1)
                          else k.permits })) := by
  change execPermitRefill s = _
  unfold execPermitRefill
  rw [onCluster_due hc (decide_eq_true hp)]
  refine congrArg _ (updCluster_congr ?_)
  generalize s.cluster s.cur.id = k
  cases k.gated <;> cases k.issuedNow <;> cases k.issuedPrev <;> rfl

theorem powerControl : PowerControl := by
  refine ⟨fun s hd hi => ?_, fun s k => patternChange_due, fun s => permitRefill_due⟩
  obtain ⟨t, ht, hint, hv, hcl⟩ := intervalBoundary_moves hd hi
  refine ⟨t, ht, hint, hv, s.grantsTo s.cur.id, fun i hi => ?_, fun j hj hne => ?_, grants_hold s s.cur.id, fun hle => ?_⟩
  · rw [hcl _ (by omega), if_pos (by omega)]
  · rw [hcl j hj, if_neg hne]
  · rw [← count_clustersOf]
    rw [← count_clustersOf _ (fun k => (s.cluster k).grant)] at hle
    exact grants_atMost hle

end Sys2Proof.Machine
end

