-- ==== Sys2Proof/Proofs/PeriodStarts.lean ====
section
/-! PROOFS. What starts with a budget period, power-on, drowsy stripes and the refresh rotation (R190, R242, R339, R358, R366 to
R369, R379). -/

namespace Sys2Proof.Machine

open Sys2Proof.Claim

/-! ### A context at the start of a period (R190, R366, R367, R369) -/

theorem noticeOf_eq (c : Ctx) (copy : Bool) : noticeOf c copy =
    ((c.denied &&& 0b1011#4).setWidth 64 ||| (if copy then 4 else 0) ||| (if c.scaled then 16 else 0),
      BitVec.ofNat 64 c.deniedCycles) := by
  have hbits : ∀ (d : BitVec 4) (copy scaled : Bool), wd (d.toNat % 4 + (if copy then 4 else 0) + d.toNat / 8 * 8 + 16 * bnat scaled) =
      (d &&& 0b1011#4).setWidth 64 ||| (if copy then 4 else 0) ||| (if scaled then 16 else 0) := by decide
  unfold noticeOf
  rw [hbits]
  rfl

theorem newPeriod_eq (copy : Bool) (c : Ctx) : c.newPeriod copy = refreshed copy c := by
  have hwhen : (c.denied != 0 || c.scaled) = true ↔ c.denied ≠ 0 ∨ c.scaled = true := by
    rw [Bool.or_eq_true, bne_iff_ne]
  unfold Ctx.newPeriod refreshed
  rw [noticeOf_eq, if_congr hwhen rfl rfl]

/-! ### Accesses that waited on an HBM share (R367, R369) -/

/-- A context that may have been denied its partition's HBM share in the period that ends. -/
def MayDeny (s : State) (c y : Ctx) : Prop :=
  y = c ∨ ∃ p, c.task.bind s.task = some p ∧ s.hbmLimited p = true ∧ y = { c with denied := c.denied ||| 8 }

theorem MayDeny.trans {s : State} {c d e : Ctx} (h : MayDeny s c d) (h' : MayDeny s d e) : MayDeny s c e := by
  rcases h with rfl | ⟨p, hp, hlim, rfl⟩
  · exact h'
  · refine .inr ⟨p, hp, hlim, ?_⟩
    rcases h' with rfl | ⟨-, -, -, rfl⟩
    · rfl
    · simp only [BitVec.or_assoc, BitVec.or_self]

theorem MayDeny.run {s : State} {c y : Ctx} (h : MayDeny s c y) : y.run = c.run := by
  rcases h with rfl | ⟨-, -, -, rfl⟩ <;> rfl

theorem mayDeny_fw {s t : State} (h : t.fw = s.fw) : MayDeny t = MayDeny s := by
  unfold MayDeny State.hbmLimited State.part State.task
  rw [h]

/-- What denials of HBM change: contexts of one core whose budgets advance, and the free values taken. -/
structure DeniesOn (c : Nat) (s t : State) : Prop where
  cur : t.cur = s.cur
  fw : t.fw = s.fw
  clusters : t.clusters = s.clusters
  other : ∀ d, d ≠ c → t.core d = s.core d
  core : t.core c = { s.core c with ctxs := (t.core c).ctxs }
  denied : ∀ k < 4, MayDeny s (s.ctx c k) (t.ctx c k)
  idle : ∀ k < 4, (s.core c).advances k = false → t.ctx c k = s.ctx c k

theorem DeniesOn.refl (c : Nat) (s : State) : DeniesOn c s s :=
  ⟨rfl, rfl, rfl, fun _ _ => rfl, rfl, fun _ _ => .inl rfl, fun _ _ _ => rfl⟩

theorem DeniesOn.advances {c k : Nat} {s t : State} (h : DeniesOn c s t) (hk : k < 4) :
    (t.core c).advances k = (s.core c).advances k := by
  have hrun := (h.denied k hk).run
  have hbanks : (t.core c).banks = (s.core c).banks := by rw [h.core]
  unfold State.ctx at hrun
  unfold CoreState.advances
  rw [hrun, bank_of_banks hbanks]

theorem DeniesOn.trans {c : Nat} {s t u : State} (h : DeniesOn c s t) (h' : DeniesOn c t u) : DeniesOn c s u where
  cur := h'.cur.trans h.cur
  fw := h'.fw.trans h.fw
  clusters := h'.clusters.trans h.clusters
  other d hd := (h'.other d hd).trans (h.other d hd)
  core := by
    have hc := h'.core
    rw [h.core] at hc
    exact hc
  denied k hk := (h.denied k hk).trans (mayDeny_fw h.fw ▸ h'.denied k hk)
  idle k hk hadv := (h'.idle k hk ((h.advances hk).trans hadv)).trans (h.idle k hk hadv)

/-- Noting a denial in one context. -/
theorem updCtx_denies {c k n : Nat} {s : State} {f : Ctx → Ctx} (hk : k < 4) (hadv : (s.core c).advances k = true)
    (hf : MayDeny s (s.ctx c k) (f (s.ctx c k))) : DeniesOn c s { s.updCtx c k f with freeCount := n } := by
  have hcore : State.core { s.updCtx c k f with freeCount := n } c = (s.core c).setCtx k (f (s.ctx c k)) :=
    State.core_updCtx s c k f
  have hother : ∀ j < 4, j ≠ k → State.ctx { s.updCtx c k f with freeCount := n } c j = s.ctx c j := fun j hj hne =>
    State.ctx_updCtx_other s c f (by omega)
  refine ⟨rfl, rfl, rfl, fun d hd => State.core_updCtx_other s k f hd, by rw [hcore]; rfl, fun j hj => ?_, fun j hj hidle => ?_⟩
  · by_cases hjk : j = k
    · subst hjk
      exact (State.ctx_updCtx s c j f : State.ctx { s.updCtx c j f with freeCount := n } c j = _) ▸ hf
    · exact .inl (hother j hj hjk)
  · by_cases hjk : j = k
    · rw [hjk, hadv] at hidle
      exact absurd hidle (by decide)
    · exact hother j hj hjk

theorem hbmDenied_denies (c : Nat) (s : State) {k : Nat} (hk : k < 4) : DeniesOn c s (s.hbmDenied c k) := by
  unfold State.hbmDenied
  split
  next t ht =>
    split
    next h =>
      obtain ⟨hadv, hlim⟩ := Bool.and_eq_true_iff.mp h
      refine updCtx_denies hk hadv ?_
      split
      · exact .inr ⟨t, ht, hlim, rfl⟩
      · exact .inl rfl
    next => exact .refl c s
  next => exact .refl c s

/-- The package once the denials of a core's contexts are noted. -/
def State.hbmNoted (s : State) (c : Nat) : State := [0, 1, 2, 3].foldl (State.hbmDenied c) s

theorem hbmNoted_denies (s : State) (c : Nat) : DeniesOn c s (s.hbmNoted c) :=
  foldl_holds_mem (P := DeniesOn c s) (l := [0, 1, 2, 3])
    (fun k hk t h => h.trans (hbmDenied_denies c t ((by decide : ∀ k ∈ [0, 1, 2, 3], k < 4) k hk))) (.refl c s)

/-! ### A core at the start of a period (R366, R367) -/

/-- Contexts of a core that are refreshed in turn. -/
def CoreState.refreshedOver (copy : Nat → Bool) (ks : List Nat) (x : CoreState) : CoreState :=
  ks.foldl (fun (x : CoreState) k => if x.advances k then x.setCtx k ((x.ctx k).newPeriod (copy k)) else x) x

theorem refreshedOver_left (copy : Nat → Bool) (ks : List Nat) (x : CoreState) :
    x.refreshedOver copy ks = { x with ctxs := (x.refreshedOver copy ks).ctxs } := by
  unfold CoreState.refreshedOver
  refine foldl_holds (P := fun y : CoreState => y = { x with ctxs := y.ctxs }) (fun y k h => ?_) ks rfl
  split
  · rw [h]; rfl
  · exact h

theorem refreshedOver_ctx (copy : Nat → Bool) {ks : List Nat} (hks : ks.Nodup) (h4 : ∀ k ∈ ks, k < 4) {k : Nat} (hk : k < 4)
    (x : CoreState) : (x.refreshedOver copy ks).ctx k =
      if k ∈ ks ∧ x.advances k = true then refreshed (copy k) (x.ctx k) else x.ctx k := by
  induction ks generalizing x with
  | nil => rw [if_neg (fun h => List.not_mem_nil h.1)]; rfl
  | cons j ks ih =>
    obtain ⟨hj, hks⟩ := List.nodup_cons.mp hks
    have hj4 := h4 j (List.mem_cons_self ..)
    have ih := ih hks (fun i hi => h4 i (List.mem_cons_of_mem _ hi))
      (if x.advances j then x.setCtx j ((x.ctx j).newPeriod (copy j)) else x)
    refine Eq.trans ih ?_
    by_cases hadv : x.advances j = true
    · rw [if_pos hadv]
      by_cases hkj : k = j
      · subst hkj
        rw [if_neg (fun h => hj h.1), if_pos ⟨List.mem_cons_self .., hadv⟩, CoreState.ctx_setCtx, newPeriod_eq]
      · have hother : (x.setCtx j ((x.ctx j).newPeriod (copy j))).ctx k = x.ctx k :=
          CoreState.ctx_setCtx_other _ _ (by omega)
        have hsame : (x.setCtx j ((x.ctx j).newPeriod (copy j))).advances k = x.advances k := by
          unfold CoreState.advances
          rw [hother]
          rfl
        rw [hother, hsame]
        exact if_congr (by simp [hkj]) rfl rfl
    · rw [if_neg hadv]
      refine if_congr (and_congr_left fun hk => ?_) rfl rfl
      have hkj : k ≠ j := fun h => hadv (h ▸ hk)
      simp [hkj]

/-- Whether a copy of a core waited on its port in the period that ends. -/
def CoreState.copyWaits (x : CoreState) : Bool := x.copyBud != 0xFFFF && x.copyLeft == 0 &&
  x.cmds.any (fun c => match c.kind with | .cpy .. | .ovl .. => c.started | _ => false)

theorem newPeriod_over (x : CoreState) : x.newPeriod =
    { x.refreshedOver (fun k => x.copyWaits && k == 0) [0, 1, 2, 3] with
      copyLeft := if (x.refreshedOver (fun k => x.copyWaits && k == 0) [0, 1, 2, 3]).copyBud = 0xFFFF then 0xFFFF
        else 64 * (x.refreshedOver (fun k => x.copyWaits && k == 0) [0, 1, 2, 3]).copyBud } := rfl

theorem newPeriod_left (x : CoreState) : x.newPeriod =
    { x with ctxs := (x.refreshedOver (fun k => x.copyWaits && k == 0) [0, 1, 2, 3]).ctxs,
             copyLeft := if x.copyBud = 0xFFFF then 0xFFFF else 64 * x.copyBud } := by
  have h := refreshedOver_left (fun k => x.copyWaits && k == 0) [0, 1, 2, 3] x
  rw [newPeriod_over]
  generalize x.refreshedOver (fun k => x.copyWaits && k == 0) [0, 1, 2, 3] = y at h ⊢
  rw [h]

theorem newPeriod_ctx (x : CoreState) {k : Nat} (hk : k < 4) : x.newPeriod.ctx k =
    if x.advances k then refreshed (x.copyWaits && k == 0) (x.ctx k) else x.ctx k := by
  have hmem : k ∈ [0, 1, 2, 3] := by simp; omega
  rw [newPeriod_left]
  refine (ctx_of_ctxs rfl k).trans ((refreshedOver_ctx _ (by decide) (by decide) hk x).trans ?_)
  exact if_congr (and_iff_right hmem) rfl rfl

/-- A core `y` at the start of a period, which was `x` (R190, R366 to R369). -/
def PeriodOf (s : State) (x y : CoreState) : Prop :=
  y.copyLeft = (if x.copyBud = 0xFFFF then 0xFFFF else 64 * x.copyBud) ∧ y.spad = x.spad ∧
    ∀ k ∈ [0, 1, 2, 3], ∃ copy c, (copy = true → k = 0 ∧ x.copyBud ≠ 0xFFFF ∧ x.copyLeft = 0) ∧ MayDeny s (x.ctx k) c ∧
      y.ctx k = if x.advances k then refreshed copy c else x.ctx k

/-- The start of a period on one core. -/
def State.corePeriod (s : State) (c : Nat) : State := (s.hbmNoted c).updCore c CoreState.newPeriod

theorem corePeriod_left (s : State) (c : Nat) :
    (s.corePeriod c).cur = s.cur ∧ (s.corePeriod c).fw = s.fw ∧ (s.corePeriod c).clusters = s.clusters := by
  have h := hbmNoted_denies s c
  unfold State.corePeriod
  rw [State.updCore_cur, State.updCore_fw, State.updCore_clusters]
  exact ⟨h.cur, h.fw, h.clusters⟩

theorem corePeriod_other (s : State) {c d : Nat} (h : d ≠ c) : (s.corePeriod c).core d = s.core d :=
  (State.core_updCore_other _ _ h).trans ((hbmNoted_denies s c).other d h)

theorem corePeriod_core (s : State) (c : Nat) : PeriodOf s (s.core c) ((s.corePeriod c).core c) := by
  have h := hbmNoted_denies s c
  have hcore := h.core
  have hcopy : ((s.hbmNoted c).core c).copyBud = (s.core c).copyBud ∧ ((s.hbmNoted c).core c).copyLeft = (s.core c).copyLeft ∧
      ((s.hbmNoted c).core c).spad = (s.core c).spad := by rw [hcore]; exact ⟨rfl, rfl, rfl⟩
  obtain ⟨hbud, hleft, hspad⟩ := hcopy
  unfold State.corePeriod
  rw [State.core_updCore]
  refine ⟨?_, ?_, fun k hk => ?_⟩
  · rw [newPeriod_left, ← hbud]
  · rw [newPeriod_left]
    exact hspad
  · have hk4 : k < 4 := (by decide : ∀ k ∈ [0, 1, 2, 3], k < 4) k hk
    refine ⟨((s.hbmNoted c).core c).copyWaits && k == 0, (s.hbmNoted c).ctx c k, fun hcp => ?_, h.denied k hk4, ?_⟩
    · unfold CoreState.copyWaits at hcp
      simp only [Bool.and_eq_true, bne_iff_ne, beq_iff_eq, hbud, hleft] at hcp
      obtain ⟨⟨⟨hb, hl⟩, -⟩, h0⟩ := hcp
      exact ⟨h0, hb, hl⟩
    · rw [newPeriod_ctx _ hk4, h.advances hk4]
      split
      · rfl
      next hidle => exact h.idle k hk4 (by simpa using hidle)

/-! ### The start of a period on a cluster (R366 to R369) -/

theorem periodOf_fw {s t : State} (h : t.fw = s.fw) : PeriodOf t = PeriodOf s := by
  unfold PeriodOf
  rw [mayDeny_fw h]

/-- A cluster's cores at the start of a period. -/
def State.coresPeriod (s : State) (j : Nat) : State := (List.range 16).foldl (fun (s : State) i => s.corePeriod (16 * j + i)) s

/-- The running cluster stays the same one. -/
theorem corePeriods_eq (l : List Nat) (s : State) : l.foldl (fun (s : State) i => s.corePeriod (16 * s.cur.id + i)) s =
    l.foldl (fun (u : State) i => u.corePeriod (16 * s.cur.id + i)) s := by
  induction l generalizing s with
  | nil => rw [List.foldl_nil, List.foldl_nil]
  | cons i l ih =>
    rw [List.foldl_cons, ih, (corePeriod_left s _).1, List.foldl_cons]

theorem coresPeriod_gives (s : State) (j : Nat) : (s.coresPeriod j).clusters = s.clusters ∧
    (∀ c, c / 16 = j → PeriodOf s (s.core c) ((s.coresPeriod j).core c)) ∧
    ∀ c, c / 16 ≠ j → (s.coresPeriod j).core c = s.core c := by
  have hnodup : ((List.range 16).map (fun i => 16 * j + i)).Nodup := List.nodup_range.map (fun a b h => by simpa using h)
  obtain ⟨⟨-, hcl⟩, hin, hout⟩ := foldl_cores (f := fun (s : State) i => s.corePeriod (16 * j + i)) (pos := fun i => 16 * j + i)
    (Q := fun u => u.fw = s.fw ∧ u.clusters = s.clusters) (P := fun _ => PeriodOf s)
    (fun u i d hd => corePeriod_other u hd)
    (fun u i ⟨hfw, hcl⟩ => (corePeriod_left u (16 * j + i)).2.imp (·.trans hfw) (·.trans hcl))
    (fun u i ⟨hfw, _⟩ => periodOf_fw hfw ▸ corePeriod_core u (16 * j + i)) (List.range 16) hnodup (s := s) ⟨rfl, rfl⟩
  refine ⟨hcl, fun c hc => ?_, fun c hc => hout c ?_⟩
  · have h := hin (c % 16) (List.mem_range.mpr (Nat.mod_lt c (by decide)))
    rw [show 16 * j + c % 16 = c by omega] at h
    exact h
  · rw [List.mem_map]
    rintro ⟨i, hi, rfl⟩
    rw [List.mem_range] at hi
    omega

theorem budgetPeriodStart_due {s : State} (hc : s.cur.id < 192)
    (hp : (s.cluster s.cur.id).periods < (s.cluster s.cur.id).eff / 4096) : exec .budgetPeriodStart s =
      .next ((s.coresPeriod s.cur.id).updCluster s.cur.id (fun k => { k with periods := k.periods + 1 })) := by
  change execBudgetPeriodStart s = _
  unfold execBudgetPeriodStart
  rw [onCluster_due hc (decide_eq_true hp)]
  unfold State.coresPeriod
  rw [← corePeriods_eq]
  rfl

theorem budgetPeriodStart_starts {s : State} (hc : s.cur.id < 192)
    (hp : (s.cluster s.cur.id).periods < (s.cluster s.cur.id).eff / 4096) :
    ∃ t, exec .budgetPeriodStart s = .next t ∧ (t.cluster s.cur.id).periods = (s.cluster s.cur.id).periods + 1 ∧
      (∀ c, c / 16 ≠ s.cur.id → t.core c = s.core c) ∧ ∀ c, c / 16 = s.cur.id → PeriodOf s (s.core c) (t.core c) := by
  obtain ⟨hcl, hin, hout⟩ := coresPeriod_gives s s.cur.id
  have hex := budgetPeriodStart_due hc hp
  generalize s.coresPeriod s.cur.id = u at hcl hin hout hex
  refine ⟨_, hex, ?_, hout, hin⟩
  have hold : u.cluster s.cur.id = s.cluster s.cur.id := by unfold State.cluster; rw [hcl]
  rw [State.cluster_updCluster, hold]

theorem dieBudgetPeriodStart_due {s : State} (hd : s.cur.id < 4) (hp : (s.die s.cur.id).periods < s.master / 4096) :
    exec .dieBudgetPeriodStart s = .next (s.updDie s.cur.id (fun d =>
      { d with periods := d.periods + 1,
               budgets := d.budgets.map (fun b => { b with copyLeft := b.copyBud.getD 0, hbmLeft := b.hbmBud.getD 0 }) })) := by
  change execDieBudgetPeriodStart s = _
  unfold execDieBudgetPeriodStart
  exact onDie_due hd (decide_eq_true hp)

/-! ### Bound tasks start (R358, R379, R380) -/

/-- A core in BIND for a task of a list all of whose cores are on. -/
def State.startsIn (s : State) (l : List Task) (c : Nat) : Prop :=
  (s.core c).slot.st = .bind ∧ ∃ b ∈ l, c ∈ b.cores ∧ (s.core c).slot.task = b.num ∧ b.cores.all s.isOn = true

/-- A core whose owner runs. -/
def CoreState.ownerRuns (x : CoreState) : CoreState := { x with slot := { x.slot with st := .run } }

theorem startTask_isOn (s : State) (t : Task) : (s.startTask t).isOn = s.isOn := by
  have hleft := startTask_left s t
  funext d
  have hon : ((s.startTask t).core d).onAt = (s.core d).onAt := by
    rw [startTask_core]
    unfold CoreState.started
    split
    · split <;> rfl
    · rfl
  unfold State.isOn
  rw [hon]
  generalize s.startTask t = u at hleft
  rw [hleft]
  rfl

theorem startTask_starts (s : State) (t : Task) (c : Nat) [Decidable (s.startsIn [t] c)] :
    (s.startTask t).core c = if s.startsIn [t] c then (s.core c).ownerRuns else s.core c := by
  rw [startTask_core]
  unfold CoreState.started
  by_cases h : s.startsIn [t] c
  · rw [if_pos h]
    obtain ⟨hst, b, hb, hc, htask, hon⟩ := h
    obtain rfl := List.mem_singleton.mp hb
    rw [if_pos ⟨hon, hc⟩, if_pos (by rw [hst, htask]; simp)]
    rfl
  · rw [if_neg h]
    split
    next hon =>
      refine if_neg fun hx => h ?_
      rw [Bool.and_eq_true, beq_iff_eq, beq_iff_eq] at hx
      exact ⟨hx.1, t, List.mem_singleton_self t, hon.2, hx.2, hon.1⟩
    next => rfl

open Classical in
/-- Tasks that start in turn: each core whose task is among them and whose task's cores are on goes to RUN. -/
theorem startTasks_core (l : List Task) (s : State) (c : Nat) :
    (l.foldl State.startTask s).core c = if s.startsIn l c then (s.core c).ownerRuns else s.core c := by
  induction l generalizing s with
  | nil => rw [if_neg (fun ⟨_, b, hb, _⟩ => absurd hb List.not_mem_nil)]; rfl
  | cons t l ih =>
    rw [List.foldl_cons, ih, startTask_starts]
    by_cases h : s.startsIn [t] c
    · have hall : s.startsIn (t :: l) c := by
        obtain ⟨hst, b, hb, hrest⟩ := h
        exact ⟨hst, b, List.mem_cons.mpr (.inl (List.mem_singleton.mp hb)), hrest⟩
      have hdone : ¬ (s.startTask t).startsIn l c := by
        intro hx
        obtain ⟨hst, -⟩ := hx
        rw [startTask_starts, if_pos h] at hst
        exact absurd hst (by unfold CoreState.ownerRuns; simp)
      rw [if_neg hdone, if_pos h, if_pos hall]
    · have hiff : (s.startTask t).startsIn l c ↔ s.startsIn (t :: l) c := by
        unfold State.startsIn
        rw [startTask_starts, if_neg h, startTask_isOn]
        refine and_congr_right fun hst => ?_
        rw [List.exists_mem_cons_iff]
        refine (or_iff_right fun ht => h ⟨hst, t, List.mem_singleton_self t, ht⟩).symm
      rw [if_neg h]
      exact if_congr hiff rfl rfl

theorem startBound_left (s : State) : s.startBound = { s with cores := s.startBound.cores } := by
  unfold State.startBound
  refine foldl_holds (P := fun u : State => u = { s with cores := u.cores }) (fun u t h => ?_) _ rfl
  have hleft := startTask_left u t
  generalize u.startTask t = v at hleft ⊢
  rw [hleft, h]

/-- What a start of the bound tasks gives where the cores and the tasks are as in `s` (R358, R379). -/
theorem startBound_started {s u : State} (hcores : ∀ c, u.core c = s.core c) (hfw : u.fw = s.fw) (hm : u.master = s.master) :
    Started s u.startBound := by
  classical
  intro c
  have hcluster : ∀ k, u.startBound.cluster k = u.cluster k := fun k => by
    have hleft := startBound_left u
    generalize u.startBound = t at hleft ⊢
    rw [hleft]
    rfl
  have hstarts : u.startsIn (u.fw.tasks.filter (·.st == .bound)) c ↔ (s.core c).slot.st = .bind ∧
      ∃ b ∈ s.fw.tasks, b.st = .bound ∧ c ∈ b.cores ∧ (s.core c).slot.task = b.num ∧
        ∀ d ∈ b.cores, (u.startBound.cluster (d / 16)).gated = false ∧ (s.core d).onAt ≤ s.master := by
    unfold State.startsIn State.isOn
    simp only [hcores, hfw, hm, hcluster, clusterOf, List.mem_filter, beq_iff_eq, and_assoc, List.all_eq_true, Bool.and_eq_true,
      Bool.not_eq_true', decide_eq_true_eq]
  refine (startTasks_core _ u c).trans ?_
  rw [hcores]
  exact if_congr hstarts rfl rfl

/-! ### Power-on (R358, R360) -/

/-- The package once the running cluster is ungated, where it was gated (R360). -/
def State.clusterOn (s : State) : State :=
  s.updCluster s.cur.id (fun k => if k.gated then k.ungated (s.budOf s.cur.id) else k)

theorem clusterOn_cluster (s : State) (j : Nat) : s.clusterOn.cluster j =
    if j % 192 = s.cur.id % 192 ∧ (s.cluster j).gated = true then (s.cluster j).ungated (s.budOf s.cur.id) else s.cluster j :=
  (cluster_updCluster_eq s j s.cur.id _).trans (ite_and ..).symm

theorem clusterOn_clusters {s : State} (hg : (s.cluster s.cur.id).gated = false) : s.clusterOn.clusters = s.clusters := by
  unfold State.clusterOn State.updCluster
  dsimp only
  rw [hg]
  exact Vector.set_getElem_self _

theorem regionPowerOn_due {s : State} (hc : s.cur.id < 192) (h : s.switched s.cur.id = true) :
    exec .regionPowerOn s = .next s.clusterOn.startBound := by
  change execRegionPowerOn s = _
  unfold execRegionPowerOn
  exact onCluster_due hc h

theorem regionPowerOn_ungates {s : State} {n : Nat} (hc : s.cur.id < 192) (hon : (s.cluster s.cur.id).powerOn = some n)
    (hg : (s.cluster s.cur.id).gated = true) (hn : n + 1600 ≤ s.master) :
    ∃ t, exec .regionPowerOn s = .next t ∧ t.cluster s.cur.id = (s.cluster s.cur.id).ungated (s.budOf s.cur.id) ∧
      (∀ j, j < 192 → j ≠ s.cur.id → t.cluster j = s.cluster j) ∧ Started s t := by
  have hdue : s.switched s.cur.id = true := by
    unfold State.switched
    rw [hg, if_pos rfl, hon]
    exact decide_eq_true hn
  have hstarted := startBound_started (s := s) (u := s.clusterOn) (fun _ => rfl) rfl rfl
  have hcluster := clusterOn_cluster s
  have hleft := startBound_left s.clusterOn
  have hex := regionPowerOn_due hc hdue
  generalize s.clusterOn = u at hstarted hcluster hleft hex
  generalize u.startBound = t at hstarted hleft hex
  have hsame : ∀ j, t.cluster j = u.cluster j := fun j => by rw [hleft]; rfl
  refine ⟨t, hex, ?_, fun j hj hne => ?_, hstarted⟩
  · rw [hsame, hcluster, if_pos ⟨rfl, hg⟩]
  · rw [hsame, hcluster, if_neg (fun h => by omega)]

theorem regionPowerOn_wakes {s : State} {i : Nat} (hc : s.cur.id < 192) (hg : (s.cluster s.cur.id).gated = false) (hi : i < 16)
    (hst : (s.core (16 * s.cur.id + i)).slot.st = .bind) (hon : (s.core (16 * s.cur.id + i)).onAt ≤ s.master) :
    ∃ t, exec .regionPowerOn s = .next t ∧ t.clusters = s.clusters ∧ Started s t := by
  have hdue : s.switched s.cur.id = true := by
    unfold State.switched
    rw [hg, if_neg (by decide), List.any_eq_true]
    exact ⟨i, List.mem_range.mpr hi, by dsimp only; rw [hst, decide_eq_true hon]; rfl⟩
  have hsame := clusterOn_clusters hg
  have hstarted := startBound_started (s := s) (u := s.clusterOn) (fun _ => rfl) rfl rfl
  have hleft := startBound_left s.clusterOn
  have hex := regionPowerOn_due hc hdue
  generalize s.clusterOn = u at hstarted hsame hleft hex
  exact ⟨_, hex, (congrArg State.clusters hleft).trans hsame, hstarted⟩

/-! ### Stripes and the refresh rotation (R242, R339) -/

theorem stripeDrowsy_due {s : State} (hc : s.cur.core < nCores) (h : s.cur.idx < 32)
    (hp : (s.myCore.stripes.get ⟨s.cur.idx, h⟩).pw = .awake)
    (hl : (s.myCore.stripes.get ⟨s.cur.idx, h⟩).last + 65536 ≤ s.eff s.cur.core) :
    exec .stripeDrowsy s = .next (s.updMyCore (fun x =>
      { x with stripes := x.stripes.set s.cur.idx ({ x.stripes.get ⟨s.cur.idx, h⟩ with pw := .drowsy } : Stripe) })) := by
  have hfin : Fin.ofNat 32 s.cur.idx = ⟨s.cur.idx, h⟩ := Fin.ext (Nat.mod_eq_of_lt h)
  change execStripeDrowsy s = _
  unfold execStripeDrowsy
  rw [onCore_due hc (by
    dsimp only
    rw [hfin, hp, decide_eq_true h, Bool.and_eq_true]
    exact ⟨rfl, decide_eq_true hl⟩)]
  simp only [hfin]

theorem refreshSlotAdvance_due {s : State} (hd : s.cur.id < 4) (h : (s.die s.cur.id).refresh < s.master / 1600) :
    exec .refreshSlotAdvance s = .next (s.updDie s.cur.id (fun d => { d with refresh := d.refresh + 1 })) := by
  change execRefreshSlotAdvance s = _
  unfold execRefreshSlotAdvance
  exact onDie_due hd (decide_eq_true h)

theorem periodStarts : PeriodStarts := by
  refine ⟨fun s hc hp => ?_, fun s => dieBudgetPeriodStart_due, fun s n => regionPowerOn_ungates, fun s i => regionPowerOn_wakes,
    fun s => stripeDrowsy_due, fun s => refreshSlotAdvance_due⟩
  obtain ⟨t, ht, hper, hout, hin⟩ := budgetPeriodStart_starts hc hp
  refine ⟨t, ht, hper, hout, fun c hc => ?_⟩
  obtain ⟨hcopy, hspad, hctx⟩ := hin c hc
  exact ⟨hcopy, hspad, hctx⟩

/-- Settles O49: grants go by rank among the requests of a die, each cluster and each core of a period changes once, and a task
whose cores are on starts once. -/
theorem powerEvents : Obligations.PowerEvents := ⟨powerControl, periodStarts⟩

end Sys2Proof.Machine
end
